-- ==== Sys2Proof/Word.lean ====
section
/-! DEFINITION. Machine words and their plainest arithmetic: bytes little-endian (R3), the per-thread lanes of a
64-byte register (R182), and maps from a number to a value kept as sorted lists. -/

namespace Sys2Proof

abbrev Byte := BitVec 8
abbrev W32 := BitVec 32
abbrev W64 := BitVec 64

/-- Bytes of a number, the lowest first (R3). -/
def leBytes : Nat → Nat → List Byte
  | 0, _ => []
  | n + 1, v => BitVec.ofNat 8 v :: leBytes n (v / 256)

/-- The number that little-endian bytes hold (R3). -/
def leNat : List Byte → Nat
  | [] => 0
  | b :: bs => b.toNat + 256 * leNat bs

/-- Bit field [hi:lo] of a natural number, both ends included (R3). -/
def bits (v hi lo : Nat) : Nat := (v >>> lo) % 2 ^ (hi + 1 - lo)

/-- Two's-complement reading of the low `w` bits. -/
def sext (w v : Nat) : Int :=
  let u := v % 2 ^ w
  if u < 2 ^ (w - 1) then (u : Int) else (u : Int) - (2 ^ w : Nat)

/-- The residue modulo 2^w as a natural number (wrap of R6). -/
def wrapN (w : Nat) (x : Int) : Nat := (x % ((2 ^ w : Nat) : Int)).toNat

/-- Round up to a multiple of `k`. -/
def roundUp (x k : Nat) : Nat := if k = 0 then x else (x + k - 1) / k * k

/-! ## Lanes of a register: sixteen words, thread t at position t -/

abbrev Lanes := List W32

def Lanes.ofFn (f : Nat → W32) : Lanes := (List.range 16).map f
def Lanes.get (v : Lanes) (t : Nat) : W32 := v.getD t 0#32
def Lanes.zero : Lanes := Lanes.ofFn fun _ => 0#32

/-- A 16-bit mask from a condition on the thread index. -/
def maskOf (f : Nat → Bool) : BitVec 16 :=
  BitVec.ofNat 16 ((List.range 16).foldl (fun acc t => if f t then acc + 2 ^ t else acc) 0)

/-- The threads of a mask in ascending index. -/
def threadsOf (m : BitVec 16) : List Nat := (List.range 16).filter fun t => m.getLsbD t

/-! ## Maps kept as lists sorted by key, no key twice -/

abbrev AMap (α : Type) := List (Nat × α)

namespace AMap
variable {α β : Type}

def get? : AMap α → Nat → Option α
  | [], _ => none
  | (k, v) :: m, i => if k = i then some v else get? m i

def getD (m : AMap α) (i : Nat) (d : α) : α := (get? m i).getD d

def set : AMap α → Nat → α → AMap α
  | [], i, v => [(i, v)]
  | (k, u) :: m, i, v =>
    if i < k then (i, v) :: (k, u) :: m
    else if i = k then (i, v) :: m
    else (k, u) :: set m i v

def erase : AMap α → Nat → AMap α
  | [], _ => []
  | (k, u) :: m, i => if k = i then m else (k, u) :: erase m i

def modify (m : AMap α) (i : Nat) (f : α → α) : AMap α :=
  match get? m i with
  | some v => set m i (f v)
  | none => m

def keys (m : AMap α) : List Nat := m.map Prod.fst

def mapVals (m : AMap α) (f : α → β) : AMap β := m.map fun p => (p.1, f p.2)

def has (m : AMap α) (i : Nat) : Bool := (get? m i).isSome

/-- The least number that is no key, at or above `k`. -/
def fresh (m : AMap α) : Nat := m.foldl (fun acc p => max acc (p.1 + 1)) 1
end AMap

end Sys2Proof
end

