-- ==== Sys2Proof/Machine/Inputs.lean ====
section
/-! DEFINITION. The data that the events of the opcode table bring from outside the device's own state: what a
physical measurement, the host, a peer device or a debugger presents. -/

namespace Sys2Proof

/-- How the physical bring-up of R25 goes: every stage passes, or it stops with one CAUSE of R26. -/
inductive BootOutcome where
  | ok
  | failed (cause : BitVec 8)
deriving DecidableEq, Repr

/-- What the ECC of a stack reports for a block (R20, R21). -/
inductive EccResult where
  | clean
  | corrected
  | uncorrectable
deriving DecidableEq, Repr

/-- The TLP attributes of a host request: its T bit and the IDE stream that carried it (R96). -/
structure HostTag where
  tbit : Bool
  stream : Option Nat
deriving DecidableEq, Repr

/-- Which configuration write a function receives (R100). -/
inductive ConfigKind where
  | bar | memSpace | busMaster | lkField | pfVfBar | pfNumVfs | other
deriving DecidableEq, Repr

/-- Fields of a leaf page-table entry (R213). -/
structure PageEntry where
  trec : Nat := 0
  paddr : Nat := 0
  wr : Bool := true
  ex : Bool := false
  mig : Bool := false
  sealed : Bool := false
  remote : Bool := false
  size : Nat := 0
  mrun : Nat := 0
  seq : Nat := 0
  tworld : Nat := 0
  tsys : Nat := 0
deriving DecidableEq, Repr

/-- The kinds of access that a remote device may ask for (R88, R91). -/
inductive RemKind where
  | load | store | atomic (rop ty : Nat) | copyIn | copyOut | message
deriving DecidableEq, Repr

/-- A request that travels over Blutar with the target world and address, the key and the scope (R88). -/
structure RemoteReq where
  kind : RemKind
  fromSys : Nat
  toSys : Nat
  world : Nat
  va : BitVec 64
  key : BitVec 64
  scope : Nat
  size : Nat
  data : List (BitVec 8)
deriving DecidableEq, Repr

/-- A target's answer (R88, R89). -/
inductive RemoteAns where
  | ok (data : List (BitVec 8))
  | staleKey
  | remoteKey
  | status (code : BitVec 8)
deriving DecidableEq, Repr

/-- The algorithms an SPDM requester offers (R108). -/
structure SpdmAlgs where
  sha384 : Bool
  ecdhP384 : Bool
  aes256gcm : Bool
deriving DecidableEq, Repr

/-- IDE key-management operations carried by VENDOR_DEFINED_REQUEST (R108). -/
inductive IdeKmOp where
  | query | keyProg | setGo | setStop
deriving DecidableEq, Repr

/-- Whether the peer of a migration can be reached (R104 code PEER). -/
inductive PeerReach where
  | ok | noSession | refused | keyNotReceived
deriving DecidableEq, Repr

/-- What a debugger asks of a halted block: a write (R195), a read of state with its tags (R195, R289, R293), a read of the
world's memory, a profiling counter, a single step or the trace (R111, R112). -/
inductive DebugWrite where
  | reg (warp name thread : Nat) (v : BitVec 32)
  | ureg (warp name : Nat) (v : BitVec 32)
  | scratch (off : Nat) (bs : List (BitVec 8))
  | acc (slot i j : Nat) (v : BitVec 64)
  | readReg (warp name granule : Nat)
  | readUreg (warp name : Nat)
  | readScratch (off : Nat)
  | readAcc (slot granule : Nat)
  | readFlags (slot : Nat)
  | readSticky
  | readMem (va : BitVec 64) (n : Nat)
  | counter (n : Nat)
  | singleStep
  | trace
deriving DecidableEq, Repr

/-- A word of an SRAM of the device in which a soft error shows (R21, R22): of a block's scratchpad, of a panel-cache line by
its key, or of another structure by its unit, whose words no rule gives a reading of when poisoned. -/
inductive SramWord where
  | scratch (block word : Nat)
  | line (key word : Nat)
  | other
deriving DecidableEq, Repr

/-- A soft error of a unit's SRAM: corrected, or beyond correction. -/
structure Upset where
  unit : Nat
  word : SramWord
  corrected : Bool
deriving DecidableEq, Repr

end Sys2Proof
end

