-- ==== Sys2Proof/Config.lean ====
section
/-! DEFINITION. What the spec leaves to the implementation, and the values it leaves open, as constants without a body:
nothing can be proved of them beyond their type. A `Nat` argument is the count of free values drawn so far
(`State.freeCnt`) or of steps made (`State.tick`). A mark with a number in brackets names an entry of the assumption log. -/

namespace Sys2Proof.Config

/-- Which of the agents able to move moves next (R155, R174, R228) [DESIGN CHOICE 2]. -/
opaque choice : Nat → Nat
/-- Nanoseconds and arithmetic cycles that pass in a step, and the ends of waits that no rule fixes [DESIGN CHOICE 3]. -/
opaque elapsed : Nat → Nat
opaque cycles : Nat → Nat
/-- The outcome of a free choice between two, drawn afresh [DESIGN CHOICE 4]. -/
opaque coin : Nat → Bool
/-- Whether a racing read passes by a write that it may miss: the count of the read's piece, the number of the write's
(R231, R233) [DESIGN CHOICE 11]. -/
opaque misses : Nat → Nat → Bool
/-- A fresh word or byte string that no rule fixes: tokens, nonces, undefined data (R94, R218) [DESIGN CHOICE 4]. -/
opaque word : Nat → BitVec 64
opaque bytes : Nat → Nat → List Byte
/-- The hash by which a request is spread over the planes of the fabric, of its target block (R85) [DESIGN CHOICE 62]. -/
opaque planeHash : Nat → Nat
/-- The result a transcendental unit gives for an f32 operand; the machine takes it where R295 allows it [DESIGN CHOICE 5].
The first argument numbers the operation: 0 fexp2, 1 flog2, 2 frcp, 3 frsq, 4 fsin, 5 fcos, 6 ftanh. -/
opaque transc : Nat → W32 → W32

/-- The firmware image that bring-up verifies (0), with its Ed25519 (1) and ML-DSA-65 (2) signatures (R25) [DEDUCED 68]. -/
opaque firmware : Nat → List Byte

/-! ## Keys and signatures (R69, R84, R86, R108 to R112) [DESIGN CHOICE 6] -/

opaque keyK1 : Nat → BitVec 256
opaque keyK2 : Nat → BitVec 256
opaque keyKM : Nat → BitVec 256
opaque migKey : Nat → BitVec 256
opaque exportSecret : Nat → List Byte
opaque signatureOk : List Byte → List Byte → Bool
opaque signature : Nat → List Byte → List Byte
opaque certChain : Nat → List Byte
opaque measurement : Nat → List Byte
opaque keyShare : Nat → List Byte
/-- The bytes of a migration image that this device writes (R117) [DESIGN CHOICE 60]. -/
opaque image : Nat → List Byte
/-- COPY packets that a panel's shuttle queue holds, but for one (R136) [DESIGN CHOICE 49]. -/
opaque copyQueue : Nat

/-! ## Physical measurements -/

/-- Module power in watts at a sample (R23) [DESIGN CHOICE 7]. -/
opaque power : Nat → Nat

end Sys2Proof.Config
end

