-- ==== Sys2Proof/Machine/Float.lean ====
section
/-! DEFINITION. The number formats of chapter 12: exact values, the one rounding of R278, flushing, saturation, signs of
zero, conversions, block scales, and the transcendentals with their bounds (R295). A finite value is an integer times a
power of two; every result is formed exactly and rounded once (R277). -/

namespace Sys2Proof.Machine

/-- A floating format: exponent and fraction widths (R276). -/
structure FFmt where
  eb : Nat
  fb : Nat
deriving DecidableEq, Repr

def fmtF32 : FFmt := ⟨8, 23⟩
def fmtF16 : FFmt := ⟨5, 10⟩
def fmtBf16 : FFmt := ⟨8, 7⟩

namespace FFmt
def width (f : FFmt) : Nat := 1 + f.eb + f.fb
def bias (f : FFmt) : Int := 2 ^ (f.eb - 1) - 1
/-- Exponent of the smallest normal number. -/
def emin (f : FFmt) : Int := 1 - f.bias
def emax (f : FFmt) : Int := f.bias
def infBits (f : FFmt) : Nat := (2 ^ f.eb - 1) * 2 ^ f.fb
def nanBits (f : FFmt) : Nat := f.infBits + 2 ^ (f.fb - 1)
def maxBits (f : FFmt) : Nat := f.infBits - 1
def signBit (f : FFmt) : Nat := 2 ^ (f.eb + f.fb)
end FFmt

/-- An exact value: NaN, an infinity, or (−1)^neg × m × 2^e. -/
inductive FVal where
  | nan
  | inf (neg : Bool)
  | fin (neg : Bool) (m : Nat) (e : Int)
deriving DecidableEq, Repr

/-- The rounding modes of R278: 0 rne, 1 rtz, 2 rdn, 3 rup. -/
abbrev RMode := Nat

/-- What the mood says about a floating operation (R345). -/
structure FEnv where
  mode : RMode := 0
  flush : Bool := false
  sat : Bool := false
deriving DecidableEq, Repr

def isSubnormalBits (f : FFmt) (b : Nat) : Bool := bits b (f.eb + f.fb - 1) f.fb == 0 && bits b (f.fb - 1) 0 != 0

/-- The value of a pattern as stored (R276). -/
def fdecode (f : FFmt) (b : Nat) : FVal :=
  let neg := b.testBit (f.eb + f.fb)
  let ex := bits b (f.eb + f.fb - 1) f.fb
  let fr := bits b (f.fb - 1) 0
  if ex = 2 ^ f.eb - 1 then (if fr = 0 then .inf neg else .nan)
  else if ex = 0 then .fin neg fr (f.emin - f.fb)
  else .fin neg (2 ^ f.fb + fr) (f.emin - f.fb + (ex - 1))

/-- An operand: a subnormal reads as a zero of its sign when the flush bit is 1 (R279). -/
def fread (f : FFmt) (flush : Bool) (b : Nat) : FVal :=
  if flush && isSubnormalBits f b then .fin (b.testBit (f.eb + f.fb)) 0 0 else fdecode f b

/-- A non-negative m × 2^e over 2^q as an integer, rounded by the mode for a value of sign `neg` (R278). -/
def roundAt (mode : RMode) (neg : Bool) (m : Nat) (e q : Int) : Nat :=
  if q ≤ e then m * 2 ^ (e - q).toNat
  else
    let s := (q - e).toNat
    let k := m / 2 ^ s
    let r := m % 2 ^ s
    let up : Bool :=
      match mode with
      | 0 => decide (2 * r > 2 ^ s) || (decide (2 * r = 2 ^ s) && decide (k % 2 = 1))
      | 1 => false
      | 2 => neg && decide (r ≠ 0)
      | _ => !neg && decide (r ≠ 0)
    if up then k + 1 else k

/-- Pattern of an overflowed result (R278). -/
def overflowBits (f : FFmt) (mode : RMode) (neg : Bool) : Nat :=
  let toInf : Bool := match mode with
    | 0 => true
    | 1 => false
    | 2 => neg
    | _ => !neg
  if toInf then f.infBits else f.maxBits

/-- The pattern of a value rounded into a format, subnormals in full (R276, R278). -/
def fencode (f : FFmt) (mode : RMode) : FVal → Nat
  | .nan => f.nanBits
  | .inf neg => f.infBits + (if neg then f.signBit else 0)
  | .fin neg m e =>
    let sg := if neg then f.signBit else 0
    if m = 0 then sg
    else
      let top : Int := (Nat.log2 m : Int) + e
      let q : Int := max top f.emin - f.fb
      let k := roundAt mode neg m e q
      if k = 0 then sg
      else
        let body := (q - (f.emin - f.fb)).toNat * 2 ^ f.fb + k
        if f.infBits ≤ body then sg + overflowBits f mode neg else sg + body

/-- FLUSH and SAT on a rounded pattern (R279, R281). -/
def ffinish (f : FFmt) (env : FEnv) (b : Nat) : Nat :=
  let b1 := if env.flush && isSubnormalBits f b then (if b.testBit (f.eb + f.fb) then f.signBit else 0) else b
  if env.sat then
    match fdecode f b1 with
    | .nan => 0
    | .inf neg => if neg then 0 else fencode f 0 (.fin false 1 0)
    | .fin neg m _ => if neg || m == 0 then 0
        else if fencode f 0 (.fin false 1 0) < b1 then fencode f 0 (.fin false 1 0) else b1
  else b1

/-- One result: rounded once, then flushed, then saturated. -/
def fresult (f : FFmt) (env : FEnv) (v : FVal) : Nat := ffinish f env (fencode f env.mode v)

/-! ## Exact arithmetic -/

/-- Signed integer of a finite value over 2^q, for q at most its exponent. -/
def scaled (neg : Bool) (m : Nat) (e q : Int) : Int :=
  let k : Int := (m * 2 ^ (e - q).toNat : Nat)
  if neg then -k else k

def FVal.negate : FVal → FVal
  | .nan => .nan
  | .inf n => .inf (!n)
  | .fin n m e => .fin (!n) m e

/-- An exact product (R277, R391). -/
def fmulV : FVal → FVal → FVal
  | .nan, _ => .nan
  | _, .nan => .nan
  | .inf a, .inf b => .inf (a != b)
  | .inf a, .fin b m _ => if m = 0 then .nan else .inf (a != b)
  | .fin a m _, .inf b => if m = 0 then .nan else .inf (a != b)
  | .fin a m e, .fin b n g => .fin (a != b) (m * n) (e + g)

/-- An exact sum of terms; a zero result takes its sign by R280. -/
def fsumV (mode : RMode) (ts : List FVal) : FVal :=
  if ts.any (fun t => t == .nan) then .nan
  else
    let pinf := ts.any fun t => t == .inf false
    let ninf := ts.any fun t => t == .inf true
    if pinf && ninf then .nan
    else if pinf then .inf false
    else if ninf then .inf true
    else
      let q : Int := ts.foldl (fun acc t => match t with | .fin _ _ e => min acc e | _ => acc) 0
      let tot : Int := ts.foldl (fun acc t => match t with | .fin n m e => acc + scaled n m e q | _ => acc) 0
      if tot = 0 then
        let allZero := ts.all fun t => match t with | .fin _ m _ => m == 0 | _ => false
        let negs := ts.map fun t => match t with | .fin n _ _ => n | _ => false
        if allZero && negs.all id then .fin true 0 0
        else if allZero && negs.all (fun n => !n) then .fin false 0 0
        else .fin (mode == 2) 0 0
      else .fin (tot < 0) tot.natAbs q

/-- Order of two values that are no NaN; zeros are equal (R280). -/
def fltV : FVal → FVal → Bool
  | .nan, _ => false
  | _, .nan => false
  | .inf a, .inf b => a && !b
  | .inf a, .fin .. => a
  | .fin .., .inf b => !b
  | .fin a m e, .fin b n g =>
    let q := min e g
    decide (scaled a m e q < scaled b n g q)

def feqV : FVal → FVal → Bool
  | .nan, _ => false
  | _, .nan => false
  | x, y => !fltV x y && !fltV y x

def FVal.isNan : FVal → Bool
  | .nan => true
  | _ => false

def FVal.sign : FVal → Bool
  | .nan => false
  | .inf n => n
  | .fin n _ _ => n

def FVal.isZero : FVal → Bool
  | .fin _ m _ => m == 0
  | _ => false

/-- fmin and fmax (R280); `big` selects fmax. -/
def fminmaxV (big : Bool) (x y : FVal) : FVal :=
  if x.isNan then y
  else if y.isNan then x
  else if x.isZero && y.isZero then
    (if big then (if x.sign then y else x) else (if x.sign then x else y))
  else if fltV x y == big then y else x

/-- The class bit of R395 of a stored pattern. -/
def fclassBit (f : FFmt) (b : Nat) : Nat :=
  match fdecode f b with
  | .nan => 8
  | .inf neg => if neg then 0 else 7
  | .fin neg m _ =>
    if m = 0 then (if neg then 3 else 4)
    else if isSubnormalBits f b then (if neg then 2 else 5)
    else if neg then 1 else 6

/-- A value rounded to an integer of its own sign; NaN and infinities pass (R396). -/
def froundInt (mode : RMode) : FVal → FVal
  | .fin neg m e => .fin neg (roundAt mode neg m e 0) 0
  | v => v

/-- A value as an integer, rounded by the mode and clamped to [lo, hi] (R282). -/
def ftoInt (mode : RMode) (lo hi : Int) : FVal → Int
  | .nan => 0
  | .inf neg => if neg then lo else hi
  | .fin neg m e =>
    let k : Int := roundAt mode neg m e 0
    max lo (min hi (if neg then -k else k))

def fofInt (x : Int) : FVal := .fin (x < 0) x.natAbs 0

/-- a × 2^n. -/
def fscaleV (n : Int) : FVal → FVal
  | .fin neg m e => .fin neg m (e + n)
  | v => v

/-- The square root with bits enough that one rounding of it is the rounding of the exact root. -/
def fsqrtV : FVal → FVal
  | .nan => .nan
  | .inf neg => if neg then .nan else .inf false
  | .fin neg m e =>
    if m = 0 then .fin neg 0 0
    else if neg then .nan
    else
      let pad : Nat := 80 + (if e % 2 = 0 then 0 else 1)
      let m' := m * 2 ^ pad
      let r := Nat.sqrt m'
      .fin false (2 * r + (if r * r = m' then 0 else 1)) ((e - pad) / 2 - 1)

/-! ## Quantisation (R291, R403 to R405) -/

/-- The magnitude a value contributes to a block scale. -/
def qmag : FVal → FVal
  | .nan => .fin false 0 0
  | .inf _ => fdecode fmtF32 fmtF32.maxBits
  | .fin _ m e => .fin false m e

/-- The scale field x of the largest magnitude (R291): 0, or ⌊log2(m / 127.5)⌋ + 513. -/
def qscaleOf : FVal → Nat
  | .fin _ m e =>
    if m = 0 then 0
    else
      let k0 : Int := (Nat.log2 m : Int) + e - 6
      let less : Bool := fltV (.fin false m e) (.fin false 255 (k0 - 1))
      (if less then k0 + 512 else k0 + 513).toNat
  | _ => 0

/-- One quantised element (R404). -/
def qelem (x : Nat) : FVal → Int
  | .nan => 0
  | .inf neg => if neg then -127 else 127
  | .fin neg m e =>
    let k : Int := roundAt 0 neg m e ((x : Int) - 512)
    max (-127) (min 127 (if neg then -k else k))

/-! ## Transcendentals (R295): fixed point with 256 fraction bits -/

def fixOne : Nat := 2 ^ 256

/-- Value as a fixed-point integer, dropping bits below 2^-256. -/
def fixOf : FVal → Int
  | .fin neg m e =>
    let k : Int := if 0 ≤ e + 256 then ((m * 2 ^ (e + 256).toNat : Nat) : Int) else ((m / 2 ^ (-(e + 256)).toNat : Nat) : Int)
    if neg then -k else k
  | _ => 0

/-- Sum of the terms t_0 = a, t_{k+1} = t_k × x / d k, for `n` terms. -/
def series (x : Int) (d : Nat → Int) : Nat → Nat → Int → Int
  | 0, _, _ => 0
  | n + 1, k, t => t + series x d n (k + 1) (t * x / (d k * fixOne))

/-- exp of a fixed-point number of magnitude below 1. -/
def fixExp (x : Int) : Int := series x (fun k => (k : Int) + 1) 70 0 fixOne

/-- 2 × artanh(z) for |z| at most 1/3. -/
def fixLnRatio (z : Int) : Int :=
  let z2 := z * z / fixOne
  let rec go : Nat → Nat → Int → Int
    | 0, _, _ => 0
    | n + 1, k, p => p / (2 * (k : Int) + 1) + go n (k + 1) (p * z2 / fixOne)
  2 * go 90 0 z

def fixLn2 : Int := fixLnRatio ((fixOne : Int) / 3)

/-- The arctangent of 1 / q. -/
def fixAtanInv (q : Int) : Int :=
  let rec go : Nat → Nat → Int → Int
    | 0, _, _ => 0
    | n + 1, k, p => (if k % 2 = 0 then p else -p) / (2 * (k : Int) + 1) + go n (k + 1) (p / (q * q))
  go 70 0 ((fixOne : Int) / q)

/-- π by Machin's formula. -/
def fixPi : Int := 16 * fixAtanInv 5 - 4 * fixAtanInv 239

def fixSinSmall (x : Int) : Int :=
  series (-(x * x / fixOne)) (fun k => (2 * (k : Int) + 2) * (2 * (k : Int) + 3)) 60 0 x

def fixCosSmall (x : Int) : Int :=
  series (-(x * x / fixOne)) (fun k => (2 * (k : Int) + 1) * (2 * (k : Int) + 2)) 60 0 fixOne

/-- The exact results near enough for every check: a finite positive or negative value to about 2^-240. -/
def fixToF (x : Int) : FVal := .fin (x < 0) x.natAbs (-256)

/-- 2^x for a finite x, as a value with 256 significant bits. -/
def exp2V (v : FVal) : FVal :=
  let x := fixOf v
  let n := x / fixOne
  let fr := x % fixOne
  match fixToF (fixExp (fr * fixLn2 / fixOne)) with
  | .fin s m e => .fin s m (e + n)
  | w => w

/-- log2 of m × 2^e, m > 0. -/
def log2V (m : Nat) (e : Int) : FVal :=
  let t := Nat.log2 m
  let y : Int := ((m * fixOne / 2 ^ t : Nat) : Int)
  -- take y in [1, 2) to [3/4, 3/2)
  let up := decide (2 * y ≥ 3 * fixOne)
  let y' := if up then y / 2 else y
  let z := (y' - fixOne) * fixOne / (y' + fixOne)
  fixToF (fixLnRatio z * fixOne / fixLn2 + (e + t + (if up then 1 else 0)) * fixOne)

def sincosV (cosine : Bool) (v : FVal) : FVal :=
  let x := fixOf v
  let tau := 2 * fixPi
  let k := (2 * x + tau) / (2 * tau)
  let r := x - k * tau
  let half := r / 2
  let s := fixSinSmall half
  let c := fixCosSmall half
  -- the cosine of an argument that is not 0 is below 1, however near (R295)
  fixToF (if cosine then min (c * c / fixOne - s * s / fixOne) (fixOne - 1) else 2 * (s * c / fixOne))

def tanhV (neg : Bool) (m : Nat) (e : Int) : FVal :=
  -- from 32 on the exact value lies below 1 by less than 2^-90; before, (1 - u) / (1 + u) with u = exp(-2|x|)
  let x := fixOf (.fin false m e)
  if 32 * (fixOne : Int) ≤ x then .fin neg (2 ^ 90 - 1) (-90)
  else
    match exp2V (fixToF (-(2 * x * fixOne / fixLn2))) with
    | .fin _ um ue =>
      let u := fixOf (.fin false um ue)
      -- small arguments: x - x^3/3 keeps the relative precision
      let y := if x * 2 ^ 60 < fixOne then x - x * x / fixOne * x / (3 * fixOne)
               else (fixOne - u) * fixOne / (fixOne + u)
      if y = 0 then .fin neg m e else .fin neg y.natAbs (-256)
    | w => w

/-- |c − y| ≤ n ulp of y in f32, with the slack of the approximation of y (2^-60 ulp). [DESIGN CHOICE 5] -/
def withinUlp (n : Nat) (c y : FVal) : Bool :=
  match c, y with
  | .fin cn cm ce, .fin yn ym ye =>
    if ym = 0 then cm == 0
    else
      let u : Int := max ((Nat.log2 ym : Int) + ye) (-126) - 23
      let q := min (min ce ye) (u - 60)
      let d := (scaled cn cm ce q - scaled yn ym ye q).natAbs
      decide (d ≤ n * 2 ^ (u - q).toNat + 2 ^ (u - q - 60).toNat)
  | _, _ => false

/-- |c − y| ≤ 2^-21, with slack. [DESIGN CHOICE 5] [DESIGN CHOICE 24] -/
def withinAbs (c y : FVal) : Bool :=
  match c, y with
  | .fin cn cm ce, .fin yn ym ye =>
    let q := min (min ce ye) (-120)
    decide ((scaled cn cm ce q - scaled yn ym ye q).natAbs ≤ 2 ^ (-21 - q).toNat + 2 ^ (-90 - q).toNat)
  | _, _ => false

/-- A result that R295 bounds: the unit's own value where it lies within the bound, else the nearest value. An
infinity is within the bound of a value that no finite number bounds. [DESIGN CHOICE 5] -/
def bounded (op : Nat) (x : W32) (ok : FVal → Bool) (y : FVal) : Nat :=
  let c := (Config.transc op x).toNat
  if ok (fdecode fmtF32 c) then c else fencode fmtF32 0 y

/-- The f32 result of a transcendental on an f32 pattern, before FLUSH and SAT (R295). The operations are numbered as
in `Config.transc`. [DESIGN CHOICE 5] [DESIGN CHOICE 24] -/
def transcF32 (op : Nat) (b : Nat) : Nat :=
  let x : W32 := BitVec.ofNat 32 b
  let v := fdecode fmtF32 b
  let nan := fmtF32.nanBits
  let pinf := fmtF32.infBits
  let ninf := fmtF32.infBits + fmtF32.signBit
  let one := fencode fmtF32 0 (.fin false 1 0)
  match op, v with
  | _, .nan => nan
  | 0, .inf neg => if neg then 0 else pinf
  | 0, .fin neg m e =>
    if m = 0 then one
    else if !neg && decide (roundAt 1 false m e 0 ≥ 128) then pinf
    else if neg && decide (roundAt 1 false m e 0 ≥ 400) then bounded op x (fun c => withinUlp 2 c (.fin false 1 (-400))) (.fin false 1 (-400))
    else
      let k := roundAt 1 false m e 0
      if feqV (.fin false k 0) (.fin false m e) && (decide (k ≤ 149)) then fencode fmtF32 0 (.fin false 1 (if neg then -(k : Int) else k))
      else bounded op x (fun c => withinUlp 2 c (exp2V v)) (exp2V v)
  | 1, .inf neg => if neg then nan else pinf
  | 1, .fin neg m e =>
    if m = 0 then ninf
    else if neg then nan
    else if m = 2 ^ Nat.log2 m then fencode fmtF32 0 (fofInt ((Nat.log2 m : Int) + e))
    else bounded op x (fun c => withinUlp 2 c (log2V m e)) (log2V m e)
  | 2, .inf neg => if neg then fmtF32.signBit else 0
  | 2, .fin neg m e =>
    if m = 0 then (if neg then ninf else pinf)
    else
      -- 1 / (m 2^e), with 120 bits after the quotient's top
      let k := 120 + Nat.log2 m
      let y : FVal := .fin neg (2 ^ k / m) (-(e + k))
      let big := decide (fencode fmtF32 3 (.fin false (2 ^ k / m) (-(e + k))) = pinf)
      bounded op x (fun c => withinUlp 1 c y || (big && (c == .inf neg))) y
  | 3, .inf neg => if neg then nan else 0
  | 3, .fin neg m e =>
    if m = 0 then (if neg then ninf else pinf)
    else if neg then nan
    else
      let e' := if e % 2 = 0 then e else e - 1
      let m' := if e % 2 = 0 then m else 2 * m
      let y : FVal := .fin false (Nat.sqrt (2 ^ 400 / m')) (-(e' / 2) - 200)
      bounded op x (fun c => withinUlp 2 c y) y
  | 6, .inf neg => if neg then one + fmtF32.signBit else one
  | 6, .fin neg m e =>
    if m = 0 then b
    else bounded op x (fun c => withinUlp 2 c (tanhV neg m e)) (tanhV neg m e)
  | _, .inf _ => nan
  | _, .fin neg m e =>
    let cosine := op == 5
    if m = 0 then (if cosine then one else (if neg then fmtF32.signBit else 0))
    else if fltV (.fin false 1 16) (.fin false m e) then
      bounded op x (fun c => match c with
        | .fin _ cm ce => !fltV (.fin false 1 0) (.fin false cm ce)
        | _ => false) (.fin false 0 0)
    else
      let y := sincosV cosine v
      if decide (fixOf (.fin false m e) ≤ fixPi) then bounded op x (fun c => withinUlp 2 c y) y
      else bounded op x (fun c => withinAbs c y) y

end Sys2Proof.Machine
end

