-- ==== Sys2Proof/Syntax.lean ====
section
/-! DEFINITION. The instructions and operations of the device: one constructor for each row of spec/opcode_table.json,
the encoded ones first, then the steps of the device, each group in the table's order. A lane instruction's fields are its words' fields (R341, R344); `lit` is the literal word of a G3
instruction, or lit24 of a G4 one (R337), and `x` is the second word of a MEM X form or an ATM instruction. A row with
no encoding is a step of the device (95_what_each_step_holds.md); what it happens to stands in `State.args`, in the
fields its line names. -/

namespace Sys2Proof

inductive Instr where
  /-- Does nothing for one step. (R56) -/
  | tnop
  /-- Writes sign-extended imm14 into t[d]. (R57) -/
  | tli (d : BitVec 4) (i : BitVec 14)
  /-- Copies t[a] into t[d]. (R57) -/
  | tmov (d : BitVec 4) (a : BitVec 4)
  /-- Copies ic, oc, inlen, l0, l1 or C into t[d]. (R57) -/
  | tmovSel (d : BitVec 4) (s : BitVec 4)
  /-- t[d] = wrap32(t[a] + src2). (R58) -/
  | tadd (d : BitVec 4) (a : BitVec 4) (b : BitVec 4) (c : BitVec 1) (i : BitVec 13)
  /-- t[d] = wrap32(t[a] - src2). (R58) -/
  | tsub (d : BitVec 4) (a : BitVec 4) (b : BitVec 4) (c : BitVec 1) (i : BitVec 13)
  /-- t[d] = t[a] AND src2. (R58) -/
  | tand (d : BitVec 4) (a : BitVec 4) (b : BitVec 4) (c : BitVec 1) (i : BitVec 13)
  /-- t[d] = t[a] OR src2. (R58) -/
  | tor (d : BitVec 4) (a : BitVec 4) (b : BitVec 4) (c : BitVec 1) (i : BitVec 13)
  /-- t[d] = t[a] XOR src2. (R58) -/
  | txor (d : BitVec 4) (a : BitVec 4) (b : BitVec 4) (c : BitVec 1) (i : BitVec 13)
  /-- Shifts t[a] left by src2, or gives 0 for counts of 32 or more. (R58) -/
  | tshl (d : BitVec 4) (a : BitVec 4) (b : BitVec 4) (c : BitVec 1) (i : BitVec 13)
  /-- Shifts t[a] right unsigned by src2, or gives 0 for counts of 32 or more. (R58) -/
  | tshr (d : BitVec 4) (a : BitVec 4) (b : BitVec 4) (c : BitVec 1) (i : BitVec 13)
  /-- Sets C by comparing t[a] with src2 under the condition code. (R59) -/
  | tcmp (k : BitVec 4) (a : BitVec 4) (b : BitVec 4) (c : BitVec 1) (i : BitVec 13)
  /-- Branches forward unconditionally to an absolute index. (R60) -/
  | tbr (t : BitVec 8)
  /-- Branches forward when C is 1. (R60) -/
  | tbrC (t : BitVec 8)
  /-- Branches forward when C is 0. (R60) -/
  | tbrNc (t : BitVec 8)
  /-- Runs a loop body a static N times on counter lK. (R61) -/
  | tloop (k : BitVec 1) (h : BitVec 4) (n : BitVec 4) (e : BitVec 8)
  /-- Runs a loop body t[a] times, skipping it for 0 and erring above N. (R61) -/
  | tloopReg (k : BitVec 1) (a : BitVec 4) (h : BitVec 4) (n : BitVec 4) (e : BitVec 8)
  /-- Reads src2 input bits at ic into t[d] and advances ic. (R62) -/
  | tget (d : BitVec 4) (b : BitVec 4) (c : BitVec 1) (i : BitVec 13)
  /-- Reads src2 input bits at ic into t[d] without moving ic. (R62) -/
  | tpeek (d : BitVec 4) (b : BitVec 4) (c : BitVec 1) (i : BitVec 13)
  /-- Writes the low src2 bits of t[a] at oc. (R63) -/
  | tout (a : BitVec 4) (b : BitVec 4) (c : BitVec 1) (i : BitVec 13)
  /-- Copies src2 bytes from input to output. (R63) -/
  | tcopy (b : BitVec 4) (c : BitVec 1) (i : BitVec 13)
  /-- Writes src2 copies of t[a]'s low byte at oc. (R63) -/
  | tfill (a : BitVec 4) (b : BitVec 4) (c : BitVec 1) (i : BitVec 13)
  /-- Loads the constant-table word at index t[a] + base. (R64) -/
  | ttab (d : BitVec 4) (a : BitVec 4) (b : BitVec 8)
  /-- Decodes up to min(8, t[a]) variable-length symbols through a 2^L-entry table. (R66) -/
  | tvld (d : BitVec 4) (a : BitVec 4) (l : BitVec 4) (b : BitVec 9)
  /-- Encodes up to min(8, t[a]) input bytes through a 256-entry code table. (R67) -/
  | tvle (d : BitVec 4) (a : BitVec 4) (b : BitVec 9)
  /-- Advances ic by src2 bits. (R62) -/
  | tskip (b : BitVec 4) (c : BitVec 1) (i : BitVec 13)
  /-- Rounds ic up to a multiple of 2^k. (R62) -/
  | talignI (k : BitVec 14)
  /-- Rounds oc up to a multiple of 2^k, writing zero bits. (R62) -/
  | talignO (k : BitVec 14)
  /-- Counts a run or the literal bytes before a run of k, capped at lim. (R65) -/
  | tcnt (d : BitVec 4) (a : BitVec 4) (m : BitVec 4) (l : BitVec 9)
  /-- Ends the run successfully; a decode needs oc = 2,048. (R56) -/
  | tend
  /-- Ends the run as a failure: raw store in an encode, decode error in a decode. (R56) -/
  | tfail
  /-- Runs one replacing or accumulating array step of A and B tiles into the partial buffer of array Q. (R436) -/
  | mma (f : BitVec 2) (g : BitVec 1) (c : BitVec 1) (q : BitVec 2) (a : BitVec 4) (s : BitVec 4) (b : BitVec 4) (t : BitVec 4)
  /-- Folds the partial buffer into a slot with per-row and per-column scales from memory. (R437) -/
  | scaccV (q : BitVec 2) (h : BitVec 4) (r : BitVec 4) (c : BitVec 4)
  /-- Folds the partial buffer into a slot with uniform scales from registers. (R437) -/
  | scaccU (q : BitVec 2) (h : BitVec 4) (r : BitVec 4) (c : BitVec 4)
  /-- Adds int32 values from memory into a slot at exponent xE. (R438) -/
  | accLd (h : BitVec 4) (a : BitVec 4) (s : BitVec 4) (e : BitVec 4)
  /-- Writes every element of a slot to memory with one rounding. (R439) -/
  | accSt (t : BitVec 2) (m : BitVec 2) (h : BitVec 4) (a : BitVec 4) (s : BitVec 4)
  /-- Takes a slot if needed, removes its anchor and clears its flags. (R440) -/
  | accZero (h : BitVec 4)
  /-- Releases the handle's slot. (R440) -/
  | accRel (h : BitVec 4)
  /-- The sequencer arrives at the current phase of a shed, a release at .blk. (R442) -/
  | wshedArrive (n : BitVec 4)
  /-- The sequencer waits for a shed phase and acquires from its arrivals. (R442) -/
  | wshedWait (n : BitVec 4)
  /-- The sequencer parks until its bobbin slot is FILLED, halting finally on an error bit. (R443) -/
  | wbobAwait (n : BitVec 3)
  /-- The sequencer releases its bobbin slot, freeing it and advancing its pointer. (R443) -/
  | wbobRel (n : BitVec 3)
  /-- xD = xA + signed 18-bit immediate, modulo 2^64. (R444) -/
  | xaddImm (d : BitVec 4) (a : BitVec 4) (i : BitVec 18)
  /-- xD = xA + xB x 2^sh, modulo 2^64. (R444) -/
  | xaddShift (d : BitVec 4) (a : BitVec 4) (b : BitVec 4) (s : BitVec 4)
  /-- Starts a counted weft loop with a static count. (R445) -/
  | wloop (k : BitVec 3) (n : BitVec 12) (d : BitVec 10)
  /-- Starts a counted weft loop with the count in xN. (R445) -/
  | wloopReg (k : BitVec 3) (x : BitVec 4) (d : BitVec 10)
  /-- Continues the weft stream at a marked target. (R446) -/
  | wjump (o : BitVec 26)
  /-- Ends the weft stream, releasing every handle and writing a sticky-flag report if needed. (R303) -/
  | wend
  /-- Takes 8 beats and has no effect. (R354) -/
  | nop
  /-- Transfers control for the whole split to a static target. (R355) -/
  | br (o : BitVec 20)
  /-- Branches per thread on a predicate bit, dividing the split if needed. (R356) -/
  | brp (n : BitVec 1) (p : BitVec 3) (o : BitVec 20)
  /-- Branches the whole split when a uniform register is not zero. (R357) -/
  | bru (s : BitVec 6) (o : BitVec 18)
  /-- Writes the link into a pair and continues at a static target. (R359) -/
  | call (d : BitVec 8) (o : BitVec 16)
  /-- Writes the link and continues each thread at its own target from a pair. (R360) -/
  | callReg (d : BitVec 8) (a : BitVec 8) (lit : BitVec 32)
  /-- Continues each active thread at the address in its pair. (R361) -/
  | ret (a : BitVec 8) (lit : BitVec 32)
  /-- Continues each active thread at the address in its pair, traced as a jump. (R361) -/
  | jmpi (a : BitVec 8) (lit : BitVec 32)
  /-- Ends the issuing split and its threads leave the warp. (R362) -/
  | exit
  /-- Does nothing with the flag clear, saves the block under PREEMPT, or terminates it under CANCEL. (R221) -/
  | yield
  /-- Parks the split until a completion flag's count is 0, raising any held fault. (R365) -/
  | waitf (f : BitVec 8)
  /-- Parks the split at a join point until it merges or every other split is parked or ended. (R181) -/
  | waitfJoin
  /-- Writes the whole mood register of the split. (R366) -/
  | mood (a : BitVec 8) (lit : BitVec 32)
  /-- Writes the guard predicate and its negation bit. (R366) -/
  | moodG (p : BitVec 8) (n : BitVec 8) (lit : BitVec 32)
  /-- Reads a special register, clearing rstatus or wflags for selectors 13 and 14. (R367) -/
  | sread (d : BitVec 8) (s : BitVec 8)
  /-- Forms a ballot of a predicate over the active threads. (R368) -/
  | vote (d : BitVec 8) (p : BitVec 8) (lit : BitVec 32)
  /-- Gives each active thread the value of another thread of the warp. (R369) -/
  | shfl (d : BitVec 8) (a : BitVec 8) (b : BitVec 8) (lit : BitVec 32)
  /-- Reduces a register over the active threads in tree order. (R371) -/
  | wred (d : BitVec 8) (a : BitVec 8) (b : BitVec 8) (lit : BitVec 32)
  /-- Forms inclusive prefixes over the active threads in ascending order. (R371) -/
  | wscan (d : BitVec 8) (a : BitVec 8) (b : BitVec 8) (lit : BitVec 32)
  /-- Copies one thread's value of a vector register into a uniform register. (R370) -/
  | vtos (d : BitVec 8) (a : BitVec 8) (b : BitVec 8) (lit : BitVec 32)
  /-- Unmaps a vector name and frees its register when no read is outstanding. (R372) -/
  | vrel (a : BitVec 8) (lit : BitVec 32)
  /-- Queues a quota request and parks until it is granted, or faults with QUOTA. (R185) -/
  | quotaGrow (a : BitVec 8) (lit : BitVec 32)
  /-- Lowers the warp's quota, unreserving registers. (R187) -/
  | quotaShrink (a : BitVec 8) (lit : BitVec 32)
  /-- Parks the split and writes a trap record with a fresh token to the call ring. (R374) -/
  | trap (i : BitVec 8)
  /-- Halts the block and writes a breakpoint record when breakpoints are open, else does nothing. (R375) -/
  | brk (i : BitVec 8)
  /-- Adds with carry-in and carry-out through a predicate. (R384) -/
  | addc (d : BitVec 8) (a : BitVec 8) (b : BitVec 8) (c : BitVec 8) (lit : BitVec 24)
  /-- Subtracts with borrow-in and borrow-out through a predicate. (R384) -/
  | subb (d : BitVec 8) (a : BitVec 8) (b : BitVec 8) (c : BitVec 8) (lit : BitVec 24)
  /-- Adds element by element with wrap or saturation. (R381) -/
  | add (d : BitVec 8) (a : BitVec 8) (b : BitVec 8) (lit : BitVec 32)
  /-- Subtracts element by element with wrap or saturation. (R381) -/
  | sub (d : BitVec 8) (a : BitVec 8) (b : BitVec 8) (lit : BitVec 32)
  /-- Multiplies element by element, keeping the low part or saturating. (R381) -/
  | mul (d : BitVec 8) (a : BitVec 8) (b : BitVec 8) (lit : BitVec 32)
  /-- Gives the high half of each element's product. (R381) -/
  | mulh (d : BitVec 8) (a : BitVec 8) (b : BitVec 8) (lit : BitVec 32)
  /-- Multiplies and adds element by element with one wrap or clamp. (R381) -/
  | mad (d : BitVec 8) (a : BitVec 8) (b : BitVec 8) (c : BitVec 8) (lit : BitVec 24)
  /-- Forms a 64-bit address from a signed 32-bit product plus a 64-bit addend. (R385) -/
  | madw (d : BitVec 8) (a : BitVec 8) (b : BitVec 8) (c : BitVec 8) (lit : BitVec 24)
  /-- Gives the absolute value of each signed element. (R381) -/
  | abs (d : BitVec 8) (a : BitVec 8) (lit : BitVec 32)
  /-- Gives the lesser element by element. (R381) -/
  | min (d : BitVec 8) (a : BitVec 8) (b : BitVec 8) (lit : BitVec 32)
  /-- Gives the greater element by element. (R381) -/
  | max (d : BitVec 8) (a : BitVec 8) (b : BitVec 8) (lit : BitVec 32)
  /-- Bitwise AND. (R382) -/
  | and (d : BitVec 8) (a : BitVec 8) (b : BitVec 8) (lit : BitVec 32)
  /-- Bitwise OR. (R382) -/
  | or (d : BitVec 8) (a : BitVec 8) (b : BitVec 8) (lit : BitVec 32)
  /-- Bitwise XOR. (R382) -/
  | xor (d : BitVec 8) (a : BitVec 8) (b : BitVec 8) (lit : BitVec 32)
  /-- Bitwise a AND NOT b. (R382) -/
  | andn (d : BitVec 8) (a : BitVec 8) (b : BitVec 8) (lit : BitVec 32)
  /-- Shifts each element left, saturating under SAT. (R383) -/
  | shl (d : BitVec 8) (a : BitVec 8) (b : BitVec 8) (lit : BitVec 32)
  /-- Shifts each element right logically. (R383) -/
  | shr (d : BitVec 8) (a : BitVec 8) (b : BitVec 8) (lit : BitVec 32)
  /-- Shifts each element right arithmetically. (R383) -/
  | sra (d : BitVec 8) (a : BitVec 8) (b : BitVec 8) (lit : BitVec 32)
  /-- Rotates each element left. (R383) -/
  | rot (d : BitVec 8) (a : BitVec 8) (b : BitVec 8) (lit : BitVec 32)
  /-- Extracts a bit field, sign- or zero-extended. (R386) -/
  | bfe (d : BitVec 8) (a : BitVec 8) (b : BitVec 8) (c : BitVec 8) (lit : BitVec 24)
  /-- Inserts a bit field into b. (R386) -/
  | bfi (d : BitVec 8) (a : BitVec 8) (b : BitVec 8) (c : BitVec 8) (lit : BitVec 24)
  /-- Counts the 1 bits of each element. (R387) -/
  | popc (d : BitVec 8) (a : BitVec 8) (lit : BitVec 32)
  /-- Counts leading zeros of each element. (R387) -/
  | clz (d : BitVec 8) (a : BitVec 8) (lit : BitVec 32)
  /-- Reverses the bits of each element. (R387) -/
  | brev (d : BitVec 8) (a : BitVec 8) (lit : BitVec 32)
  /-- Selects or sign-replicates bytes of two sources. (R388) -/
  | perm (d : BitVec 8) (a : BitVec 8) (b : BitVec 8) (c : BitVec 8) (lit : BitVec 24)
  /-- Selects a or b per thread by a predicate. (R389) -/
  | sel (d : BitVec 8) (a : BitVec 8) (b : BitVec 8) (c : BitVec 8) (lit : BitVec 24)
  /-- Sets a predicate bit where elements are equal. (R390) -/
  | cmpEq (d : BitVec 8) (a : BitVec 8) (b : BitVec 8) (lit : BitVec 32)
  /-- Sets a predicate bit where elements differ. (R390) -/
  | cmpNe (d : BitVec 8) (a : BitVec 8) (b : BitVec 8) (lit : BitVec 32)
  /-- Sets a predicate bit where a < b by type. (R390) -/
  | cmpLt (d : BitVec 8) (a : BitVec 8) (b : BitVec 8) (lit : BitVec 32)
  /-- Sets a predicate bit where a >= b by type. (R390) -/
  | cmpGe (d : BitVec 8) (a : BitVec 8) (b : BitVec 8) (lit : BitVec 32)
  /-- Sets a predicate bit where a <= b by type. (R390) -/
  | cmpLe (d : BitVec 8) (a : BitVec 8) (b : BitVec 8) (lit : BitVec 32)
  /-- Sets a predicate bit where a > b by type. (R390) -/
  | cmpGt (d : BitVec 8) (a : BitVec 8) (b : BitVec 8) (lit : BitVec 32)
  /-- Sets a predicate bit where a < b unsigned. (R390) -/
  | cmpLtu (d : BitVec 8) (a : BitVec 8) (b : BitVec 8) (lit : BitVec 32)
  /-- Sets a predicate bit where a >= b unsigned. (R390) -/
  | cmpGeu (d : BitVec 8) (a : BitVec 8) (b : BitVec 8) (lit : BitVec 32)
  /-- Floating add rounded once. (R391) -/
  | fadd (d : BitVec 8) (a : BitVec 8) (b : BitVec 8) (lit : BitVec 32)
  /-- Floating subtract rounded once. (R391) -/
  | fsub (d : BitVec 8) (a : BitVec 8) (b : BitVec 8) (lit : BitVec 32)
  /-- Floating multiply rounded once. (R391) -/
  | fmul (d : BitVec 8) (a : BitVec 8) (b : BitVec 8) (lit : BitVec 32)
  /-- Fused multiply-add rounded once. (R391) -/
  | ffma (d : BitVec 8) (a : BitVec 8) (b : BitVec 8) (c : BitVec 8) (lit : BitVec 24)
  /-- a x b + c x d0 with exact products and one rounding. (R391) -/
  | ffma4 (d : BitVec 8) (a : BitVec 8) (b : BitVec 8) (c : BitVec 8) (lit : BitVec 24)
  /-- Exact floating minimum under the NaN and zero rules. (R393) -/
  | fmin (d : BitVec 8) (a : BitVec 8) (b : BitVec 8) (lit : BitVec 32)
  /-- Exact floating maximum under the NaN and zero rules. (R393) -/
  | fmax (d : BitVec 8) (a : BitVec 8) (b : BitVec 8) (lit : BitVec 32)
  /-- Inverts the sign of each number element. (R393) -/
  | fneg (d : BitVec 8) (a : BitVec 8) (lit : BitVec 32)
  /-- Clears the sign of each number element. (R393) -/
  | fabs (d : BitVec 8) (a : BitVec 8) (lit : BitVec 32)
  /-- Sets a predicate bit where each element's class is in the mask. (R395) -/
  | fclass (d : BitVec 8) (a : BitVec 8) (b : BitVec 8) (lit : BitVec 32)
  /-- Rounds each element to an integral value in its format. (R396) -/
  | frnd (d : BitVec 8) (a : BitVec 8) (lit : BitVec 32)
  /-- Computes a x 2^n with one rounding. (R397) -/
  | fscale (d : BitVec 8) (a : BitVec 8) (b : BitVec 8) (lit : BitVec 32)
  /-- Dot product of two packed halves plus an f32 addend, rounded once to f32. (R392) -/
  | fdot2 (d : BitVec 8) (a : BitVec 8) (b : BitVec 8) (c : BitVec 8) (lit : BitVec 24)
  /-- Floating equal compare into a predicate. (R394) -/
  | fcmpEq (d : BitVec 8) (a : BitVec 8) (b : BitVec 8) (lit : BitVec 32)
  /-- Floating not-equal compare, true with a NaN. (R394) -/
  | fcmpNe (d : BitVec 8) (a : BitVec 8) (b : BitVec 8) (lit : BitVec 32)
  /-- Floating less-than compare. (R394) -/
  | fcmpLt (d : BitVec 8) (a : BitVec 8) (b : BitVec 8) (lit : BitVec 32)
  /-- Floating greater-or-equal compare. (R394) -/
  | fcmpGe (d : BitVec 8) (a : BitVec 8) (b : BitVec 8) (lit : BitVec 32)
  /-- Floating less-or-equal compare. (R394) -/
  | fcmpLe (d : BitVec 8) (a : BitVec 8) (b : BitVec 8) (lit : BitVec 32)
  /-- Floating greater-than compare. (R394) -/
  | fcmpGt (d : BitVec 8) (a : BitVec 8) (b : BitVec 8) (lit : BitVec 32)
  /-- True where neither element is a NaN. (R394) -/
  | fcmpOrd (d : BitVec 8) (a : BitVec 8) (b : BitVec 8) (lit : BitVec 32)
  /-- True where either element is a NaN. (R394) -/
  | fcmpUno (d : BitVec 8) (a : BitVec 8) (b : BitVec 8) (lit : BitVec 32)
  /-- Reciprocal within 1 ulp. (R398) -/
  | frcp (d : BitVec 8) (a : BitVec 8) (lit : BitVec 32)
  /-- Reciprocal square root within 2 ulp. (R398) -/
  | frsq (d : BitVec 8) (a : BitVec 8) (lit : BitVec 32)
  /-- Correctly rounded square root. (R398) -/
  | fsqrt (d : BitVec 8) (a : BitVec 8) (lit : BitVec 32)
  /-- Base-2 exponential within 2 ulp. (R398) -/
  | fexp2 (d : BitVec 8) (a : BitVec 8) (lit : BitVec 32)
  /-- Base-2 logarithm within 2 ulp. (R398) -/
  | flog2 (d : BitVec 8) (a : BitVec 8) (lit : BitVec 32)
  /-- Sine to the bounds of R295. (R398) -/
  | fsin (d : BitVec 8) (a : BitVec 8) (lit : BitVec 32)
  /-- Cosine to the bounds of R295. (R398) -/
  | fcos (d : BitVec 8) (a : BitVec 8) (lit : BitVec 32)
  /-- Hyperbolic tangent within 2 ulp. (R398) -/
  | ftanh (d : BitVec 8) (a : BitVec 8) (lit : BitVec 32)
  /-- Converts each element between two TYPE codes. (R399) -/
  | cvt (d : BitVec 8) (a : BitVec 8) (t : BitVec 4) (s : BitVec 4) (lit : BitVec 32)
  /-- Computes the block scale over the active threads' elements. (R403) -/
  | qscale (d : BitVec 8) (a : BitVec 8) (lit : BitVec 32)
  /-- Quantises each thread's elements to i8 by a scale with rne. (R404) -/
  | qpack8 (d : BitVec 8) (a : BitVec 8) (b : BitVec 8) (lit : BitVec 32)
  /-- Restores i8 bytes to floating values by a scale. (R405) -/
  | qunpack8 (d : BitVec 8) (a : BitVec 8) (b : BitVec 8) (lit : BitVec 32)
  /-- Narrows two sources into one packed register. (R400) -/
  | pack (d : BitVec 8) (a : BitVec 8) (b : BitVec 8) (lit : BitVec 32)
  /-- Widens a packed register exactly into a pair. (R401) -/
  | unpack (d : BitVec 8) (a : BitVec 8) (lit : BitVec 32)
  /-- Packs five ternary weights into one byte. (R402) -/
  | trpack (d : BitVec 8) (a : BitVec 8) (lit : BitVec 32)
  /-- Loads each active thread's data in short form, renaming its destination as pending. (R409) -/
  | ld (w : BitVec 3) (d : BitVec 8) (a : BitVec 8) (f : BitVec 4) (o : BitVec 4)
  /-- Loads with the extended word giving byte offset, scope, cache policy and ordering. (R409) -/
  | ldXform (w : BitVec 3) (d : BitVec 8) (a : BitVec 8) (f : BitVec 4) (o : BitVec 4) (x : BitVec 32)
  /-- Loads and, in a try region, enters the alias set and defers faults. (R410) -/
  | ldSpec (w : BitVec 3) (d : BitVec 8) (a : BitVec 8) (f : BitVec 4) (o : BitVec 4)
  /-- Speculative load with the extended word. (R410) -/
  | ldSpecXform (w : BitVec 3) (d : BitVec 8) (a : BitVec 8) (f : BitVec 4) (o : BitVec 4) (x : BitVec 32)
  /-- Stores each active thread's data in short form. (R411) -/
  | st (w : BitVec 3) (d : BitVec 8) (a : BitVec 8) (f : BitVec 4) (o : BitVec 4)
  /-- Stores with the extended word, including release ordering. (R411) -/
  | stXform (w : BitVec 3) (d : BitVec 8) (a : BitVec 8) (f : BitVec 4) (o : BitVec 4) (x : BitVec 32)
  /-- Loads a 128-byte scratchpad row into a vector pair. (R412) -/
  | ldxRow (d : BitVec 8) (a : BitVec 8) (f : BitVec 4) (o : BitVec 4)
  /-- ldx.row with the extended word. (R412) -/
  | ldxRowXform (d : BitVec 8) (a : BitVec 8) (f : BitVec 4) (o : BitVec 4) (x : BitVec 32)
  /-- Loads a 32-word scratchpad column at stride 128 into a vector pair. (R412) -/
  | ldxCol (d : BitVec 8) (a : BitVec 8) (f : BitVec 4) (o : BitVec 4)
  /-- ldx.col with the extended word. (R412) -/
  | ldxColXform (d : BitVec 8) (a : BitVec 8) (f : BitVec 4) (o : BitVec 4) (x : BitVec 32)
  /-- Stores a vector pair as a 128-byte scratchpad row. (R412) -/
  | stxRow (d : BitVec 8) (a : BitVec 8) (f : BitVec 4) (o : BitVec 4)
  /-- stx.row with the extended word. (R412) -/
  | stxRowXform (d : BitVec 8) (a : BitVec 8) (f : BitVec 4) (o : BitVec 4) (x : BitVec 32)
  /-- Stores a vector pair as a scratchpad column. (R412) -/
  | stxCol (d : BitVec 8) (a : BitVec 8) (f : BitVec 4) (o : BitVec 4)
  /-- stx.col with the extended word. (R412) -/
  | stxColXform (d : BitVec 8) (a : BitVec 8) (f : BitVec 4) (o : BitVec 4) (x : BitVec 32)
  /-- Fills a block into the L1 and panel caches without faulting. (R413) -/
  | prefetch (a : BitVec 8) (f : BitVec 4) (o : BitVec 4)
  /-- prefetch with the extended word, for .nol1 or .strm. (R413) -/
  | prefetchXform (a : BitVec 8) (f : BitVec 4) (o : BitVec 4) (x : BitVec 32)
  /-- Writes a block's dirty bytes to the panel cache and invalidates the L1 line. (R413) -/
  | cinv (a : BitVec 8) (f : BitVec 4) (o : BitVec 4)
  /-- cinv with the extended word. (R413) -/
  | cinvXform (a : BitVec 8) (f : BitVec 4) (o : BitVec 4) (x : BitVec 32)
  /-- Writes a block's dirty bytes to the panel cache, leaving the line valid. (R413) -/
  | cwb (a : BitVec 8) (f : BitVec 4) (o : BitVec 4)
  /-- cwb with the extended word. (R413) -/
  | cwbXform (a : BitVec 8) (f : BitVec 4) (o : BitVec 4) (x : BitVec 32)
  /-- Atomic wrapping add returning the old value. (R415) -/
  | atomAdd (d : BitVec 8) (a : BitVec 8) (b : BitVec 8) (x : BitVec 32)
  /-- Atomic minimum returning the old value. (R415) -/
  | atomMin (d : BitVec 8) (a : BitVec 8) (b : BitVec 8) (x : BitVec 32)
  /-- Atomic maximum returning the old value. (R415) -/
  | atomMax (d : BitVec 8) (a : BitVec 8) (b : BitVec 8) (x : BitVec 32)
  /-- Atomic bitwise AND returning the old value. (R415) -/
  | atomAnd (d : BitVec 8) (a : BitVec 8) (b : BitVec 8) (x : BitVec 32)
  /-- Atomic bitwise OR returning the old value. (R415) -/
  | atomOr (d : BitVec 8) (a : BitVec 8) (b : BitVec 8) (x : BitVec 32)
  /-- Atomic bitwise XOR returning the old value. (R415) -/
  | atomXor (d : BitVec 8) (a : BitVec 8) (b : BitVec 8) (x : BitVec 32)
  /-- Atomic exchange returning the old value. (R415) -/
  | atomExch (d : BitVec 8) (a : BitVec 8) (b : BitVec 8) (x : BitVec 32)
  /-- Atomic compare-and-swap returning the old value. (R415) -/
  | atomCas (d : BitVec 8) (a : BitVec 8) (b : BitVec 8) (x : BitVec 32)
  /-- Atomic f32 add rounded by rne returning the old value. (R415) -/
  | atomFadd (d : BitVec 8) (a : BitVec 8) (b : BitVec 8) (x : BitVec 32)
  /-- Atomic reduction with no returned value. (R415) -/
  | red (d : BitVec 8) (a : BitVec 8) (b : BitVec 8) (x : BitVec 32)
  /-- Orders the warp's memory accesses with release, acquire or both at a scope. (R417) -/
  | fence (s : BitVec 4) (o : BitVec 2)
  /-- Installs the records the warp wrote through the record window and parks until they are in force. (R418) -/
  | fenceRec
  /-- Makes code writes fetchable by invalidating the world's instruction caches. (R418) -/
  | fenceCode
  /-- Firmware orders a page-table change by invalidating translations of a world and context. (R419) -/
  | fenceMap (w : BitVec 8) (c : BitVec 8) (lit : BitVec 32)
  /-- Sets the warp's arrival bit on a shed, a release at .blk. (R422) -/
  | shedArrive (n : BitVec 8)
  /-- Waits for the warp's shed phase and acquires from its arrivals. (R422) -/
  | shedWait (n : BitVec 8)
  /-- Arrives at and waits on a shed as one instruction. (R422) -/
  | shedSync (n : BitVec 8)
  /-- Sets a shed's participants. (R421) -/
  | shedInit (n : BitVec 8) (v : BitVec 8) (lit : BitVec 32)
  /-- Issues a shuttle copy of len bytes per active thread. (R424) -/
  | cp (d : BitVec 8) (s : BitVec 8) (l : BitVec 8) (lit : BitVec 32)
  /-- Issues a two-dimensional strided copy. (R424) -/
  | cp2d (d : BitVec 8) (a : BitVec 8) (b : BitVec 8) (c : BitVec 8) (lit : BitVec 24)
  /-- Issues a gather copy through a scratchpad index table. (R424) -/
  | cpGather (d : BitVec 8) (a : BitVec 8) (b : BitVec 8) (c : BitVec 8) (lit : BitVec 24)
  /-- Issues a multicast copy into the scratchpads of up to four blocks. (R425) -/
  | cpMcast (d : BitVec 8) (a : BitVec 8) (b : BitVec 8) (c : BitVec 8) (lit : BitVec 24)
  /-- Closes the thread's open batch and returns its number. (R426) -/
  | cseal (d : BitVec 8)
  /-- Waits for the thread's batches up to n and reports their statuses. (R427) -/
  | cwait (d : BitVec 8) (n : BitVec 8) (lit : BitVec 32)
  /-- Initialises a bobbin's base, slot size, slot count, consumer and release count. (R429) -/
  | bobInit (d : BitVec 8) (a : BitVec 8) (b : BitVec 8) (c : BitVec 8) (lit : BitVec 24)
  /-- Parks until the slot at the claim pointer is FREE, then claims it and returns its address. (R430) -/
  | bobClaim (d : BitVec 8) (n : BitVec 8)
  /-- Adds n expected bytes to the last claimed slot and arms it. (R430) -/
  | bobExpect (n : BitVec 8) (c : BitVec 8) (lit : BitVec 32)
  /-- Parks until the warp's slot is FILLED and returns its status. (R432) -/
  | bobAwait (d : BitVec 8) (n : BitVec 8)
  /-- Counts one release of the warp's slot and frees it at RELS. (R432) -/
  | bobRel (n : BitVec 8)
  /-- Allocates record slots per thread at the launcher, granting or refusing each. (R448) -/
  | recAlloc (d : BitVec 8) (p : BitVec 8) (n : BitVec 8) (lit : BitVec 32)
  /-- Publishes allocated slots to their nodes' pending lists with release at .dev. (R449) -/
  | recCommit (a : BitVec 8) (lit : BitVec 32)
  /-- Loads word k of a record of the block's group. (R450) -/
  | recRead (d : BitVec 8) (i : BitVec 8) (k : BitVec 8) (lit : BitVec 32)
  /-- Cancels the issuing block's own graph. (R451) -/
  | gcancelGraph
  /-- Cancels the issuing block's own launch. (R451) -/
  | gcancelLaunch
  /-- Opens a try region, checkpointing the rename map, predicates, uniforms and mood. (R257) -/
  | tryOpen (o : BitVec 20)
  /-- Ends the region, performing survivors' stores and rolling doomed threads back to the fallback. (R268) -/
  | commit
  /-- Ends the region as commit and then releases at its scope. (R268) -/
  | commitRel (s : BitVec 4)
  /-- Rolls back the active threads, or the whole warp, with EXPLICIT and imm8. (R454) -/
  | abort (i : BitVec 8)
  /-- Writes the region status word into a uniform register. (R455) -/
  | tstat (d : BitVec 8)
  /-- Checks a collective descriptor and hands the collective to the collectives engine. (R458) -/
  | coll (d : BitVec 8) (a : BitVec 8) (b : BitVec 8) (c : BitVec 8) (lit : BitVec 24)
  /-- At power-on the device runs bring-up stages 1 to 6 in order and sets READY, or sets FAILED with the failing stage and cause. (R25; operands boot) -/
  | powerOn
  /-- Every 10 us the power manager measures module power and lowers or raises the arithmetic clock by 50 MHz. (R23; operands n) -/
  | powerMeasurement
  /-- A port serves a block read by its SCOUNT: zeros, raw sectors, or fetch, decrypt, integrity check and decode. (R51; operands world, ctx, addr, ecc) -/
  | demandRead
  /-- A port stores a full block as zero, raw, or encoded after a round-trip check, then encrypts it where the record asks. (R44; operands world, ctx, addr) -/
  | demandWrite
  /-- A partial write into an encoded or encrypted block is merged by read, decrypt, decode, merge and store, or dropped with poison on decode failure. (R46; operands world, ctx, addr, bytes) -/
  | partialWriteMerge
  /-- A heddle finishes a transducer run and its result is applied to the block's access. (R28) -/
  | heddleRunDone
  /-- A waiting port request reaches its class wait bound and is granted the next transfer. (R19; operands unit, n) -/
  | portWaitBound
  /-- A channel block transfer ends and the port grants the next one by class order and wait bounds. (R19; operands unit) -/
  | blockTransferDone
  /-- The patrol scrubber reads a block, corrects what its ECC can and writes the corrected block back. (R20; operands n, ecc) -/
  | patrolScrub
  /-- The world's sweep interval passes for an encrypted record and firmware requests a sweep of it. (R77; operands world, ctx, n) -/
  | sweepIntervalExpiry
  /-- A waiting sweep request begins when no other sweep of the world runs, setting SWEEP and SWEEP_PTR or completing with VERSION_END. (R78; operands world) -/
  | sweepStart
  /-- The sweep holds one block, re-encrypts it under v + 1, releases it and advances SWEEP_PTR, ending with VERSION = v + 1. (R78; operands world) -/
  | sweepBlock
  /-- Firmware marks a page migrating, copies its blocks, installs the new entry and frees the source, stalling writes meanwhile. (R81; operands world, ctx, addr, page) -/
  | pageMigration
  /-- A confidential world's page leaves the device as one AES-256-GCM sealed page with a rising sealing sequence. (R84; operands world, ctx, addr) -/
  | sealOut
  /-- A Blutar link fails and its plane is removed from the hash, with traffic in flight resent on another plane. (R85; operands unit) -/
  | linkDown
  /-- A failed link retrains with fresh keys and its plane rejoins the hash. (R85; operands unit) -/
  | linkRetrain
  /-- A received Blutar frame is authenticated; a failed tag drops it and resends from the last acknowledged frame, and 8 failures take the link down. (R86; operands unit, ok) -/
  | frameReceive
  /-- A link direction reaches 2^40 frames and the link goes down until fresh keys are established. (R86; operands unit, ok) -/
  | frameCountLimit
  /-- A remote load, store, atomic or copy reaching the target is translated and key-checked, then refused, answered STALE_KEY or performed. (R88; operands req) -/
  | remoteRequest
  /-- The target's answer reaches the requester, completing the access or delivering its status or fault. (R88; operands id, ans) -/
  | remoteAnswer
  /-- A message copy into an exported receive ring is checked and written whole at the target, which then acknowledges it. (R91; operands req) -/
  | crossDomainMessage
  /-- A collective's result is written at a member and its completion signal is decremented with release at .dev. (R93; operands id, contribs) -/
  | collectiveComplete
  /-- A member's link stays down over 100 us and the collective fails with SIG = -1 and CAUSE written at every reachable member. (R94; operands id, m) -/
  | collectiveLinkTimeout
  /-- A host read through the aperture of a non-confidential world is served, or completes with Unsupported Request or Completer Abort. (R98; operands world, addr, n, tag) -/
  | hostMemoryRead
  /-- A posted host write to device memory is performed in arrival order as a release at .sys. (R253; operands world, addr, bytes, tag) -/
  | hostMemoryWrite
  /-- A write to a function register without behaviour of its own updates it subject to access codes, T-bit and lock rules. (R97; operands world, n, value, tag) -/
  | registerWrite
  /-- A configuration write to a function is applied before lock and puts a locked interface into ERROR with ECAUSE 1. (R100; operands world, cfg) -/
  | configWrite
  /-- A failure of the bound IDE stream puts the interface into ERROR with ECAUSE 2. (R100; operands world) -/
  | ideStreamFailure
  /-- An uncorrectable key-store error puts the interface into ERROR with ECAUSE 3. (R100; operands world) -/
  | keyStoreError
  /-- TDISP lock freezes the configuration, draws the lock nonce, derives the migration key and builds the report, or answers INVALID_REQUEST. (R100; operands world, tag) -/
  | lockInterfaceRequest
  /-- TDISP start with the lock nonce enables queues, T-bit requests and DMA, entering RUN, or answers INVALID_NONCE. (R100; operands world, nonce) -/
  | startInterfaceRequest
  /-- TDISP stop performs the ERROR steps if needed, releases memory bindings and creates the interface afresh in CONFIG_UNLOCKED. (R100; operands world) -/
  | stopInterfaceRequest
  /-- Returns the interface report with its TDISP and device-specific parts in CONFIG_LOCKED and RUN. (R107; operands world) -/
  | getDeviceInterfaceReport
  /-- SPDM request returning the supported SPDM versions. (R108; operands unit) -/
  | getVersion
  /-- SPDM request returning the responder's capabilities. (R108; operands unit) -/
  | getCapabilities
  /-- SPDM request fixing SHA-384, ECDHE P-384 and AES-256-GCM. (R108; operands unit, algs) -/
  | negotiateAlgorithms
  /-- SPDM request returning the certificate-chain digests. (R108; operands unit) -/
  | getDigests
  /-- SPDM request returning the Ed25519 chain of slot 0 or the ML-DSA-65 chain of slot 1. (R109; operands unit, n) -/
  | getCertificate
  /-- SPDM challenge answered with a hybrid Ed25519 and ML-DSA-65 signature over the transcript. (R109; operands unit, n, nonce) -/
  | challenge
  /-- SPDM request returning the SHA-384 measurement blocks. (R110; operands unit, n) -/
  | getMeasurements
  /-- SPDM key exchange opening a session. (R108; operands unit, bytes) -/
  | keyExchange
  /-- SPDM finish completing session establishment. (R108; operands unit, ok) -/
  | finish
  /-- SPDM key update of the session keys. (R108; operands unit) -/
  | keyUpdate
  /-- SPDM heartbeat keeping a session alive. (R108; operands unit) -/
  | heartbeat
  /-- SPDM request ending a session. (R108; operands unit) -/
  | endSession
  /-- IDE key management message carried in a vendor-defined request, programming IDE stream keys. (R108; operands unit, n, ide) -/
  | ideKm
  /-- A write to POLICY_ADDR reads and checks a debug policy, sets PRESULT and, on OK, POPEN and measurement 0x80 + n. (R112; operands world, addr, tag) -/
  | policyPresent
  /-- A write to BB_RESYNC sets the lost range, BB_DSEQ, a new epoch key and ACTIVE within 10 us. (R116; operands world, value, tag) -/
  | resync
  /-- QCMD ENABLE reads and checks the queue entry, places the queue on a clause-engine lane and makes it ACTIVE. (R121; operands world, queue, tag) -/
  | enable
  /-- QCMD DISABLE stops starting packets, abandons a head BARRIER and makes the queue DISABLED when started packets complete. (R122; operands world, queue, tag) -/
  | disable
  /-- A write of a parked token with ACTION 1 resumes the trapped split or the breakpoint-halted block. (R219; operands world, value, tag) -/
  | actionResume
  /-- A write of a parked token with ACTION 2 terminates the block with TRAP or BRK. (R219; operands world, value, tag) -/
  | actionTerminate
  /-- A write to CRTAIL frees call-ring room so waiting trap, breakpoint and exit records are written. (R218; operands world, value, tag) -/
  | crtailWrite
  /-- Enables virtual function n and creates its interface in CONFIG_UNLOCKED with new keys, empty slots and context 0. (R105) -/
  | createWorld
  /-- Replaces the world's quarter set, share and latency bound, or fails with OVERCOMMIT. (R105) -/
  | bindQuarters
  /-- Sets or removes one memory range of the world. (R105) -/
  | bindMemory
  /-- Creates context 1 to 15 with its page table and record table of N indices. (R106) -/
  | createContext
  /-- Sets the world's stall limit, deadline, quiesce limit, sweep interval and memory allotment by mask. (R105) -/
  | setLimits
  /-- Sets the module power cap and default drain limit by mask. (R105) -/
  | setDevice
  /-- Quiesces a world in RUN, reaches the freeze point, writes the migration image and removes the interface. (R117; operands reach, ok) -/
  | migrateOut
  /-- Creates a world's interface in CONFIG_LOCKED from a migration image with a fresh nonce. (R117; operands ok) -/
  | migrateIn
  /-- Stops the interface, releases its bindings, removes it and disables the virtual function. (R105) -/
  | destroyWorld
  /-- Puts a locked interface into ERROR with ECAUSE 4. (R105) -/
  | setError
  /-- A management command finishes: STATUS is written, MC_DONE rises with release, MC_BUSY clears and MSI-X vector 0 is sent. (R103) -/
  | mcCompletion
  /-- At the quiesce limit, blocks of the migrating world still running are pre-empted and saved. (R117; operands world) -/
  | quiesceLimitExpiry
  /-- Once quiesced, the world's exported keys move to the revoked list at one instant ordered against remote accesses. (R117; operands world) -/
  | freezePoint
  /-- In a clause-engine round each lane picks a queue with work, reads its packet and serves types in priority order. (R135; operands unit) -/
  | clauseRound
  /-- A BARRIER evaluation reads its signals with acquire and releases, waits, or aborts the queue. (R133; operands world, queue) -/
  | barrier
  /-- Atomically adds VALUE to the signal at ADDR with release at .sys. (R131; operands world, queue) -/
  | signalAdd
  /-- Atomically stores VALUE at ADDR with release at .sys. (R131; operands world, queue) -/
  | signalSet
  /-- Closes the queue's current phase and opens a new phase of JOB. (R131; operands world, queue) -/
  | phaseOpen
  /-- Closes the queue's current phase without opening another. (R131; operands world, queue) -/
  | phaseClose
  /-- Cancels every open or incomplete phase with the named JOB and PHASENO and their descendants. (R144; operands world, queue) -/
  | cancelPhase
  /-- Cancels every open or incomplete phase of the job and their descendants. (R144; operands world, queue) -/
  | cancelJob
  /-- Hands a launch to the dispatcher, which reads and checks its descriptor and sets its counter. (R146; operands world, queue) -/
  | launch
  /-- Reads and checks a graph descriptor, zeroes the status area and creates the source blocks. (R162; operands world, queue) -/
  | graph
  /-- Starts a shuttle copy of LEN bytes from SRC to DST. (R131; operands world, queue) -/
  | copy
  /-- An inbound bounce transfer checks the slot's sequence, tag and direction, decrypts and stores it, or makes the channel DESYNC. (R115; operands world, queue) -/
  | bounceIn
  /-- An outbound bounce transfer encrypts LEN bytes into the slot with sequence BB_DSEQ and raises BB_DSEQ. (R115; operands world, queue) -/
  | bounceOut
  /-- Writes a record's RW fields subject to the BADBIND and TID_END checks, ordered as fence.rec. (R131; operands world, queue) -/
  | bindWrite
  /-- Requests a re-encryption sweep of the record's tensor. (R77; operands world, queue) -/
  | bindSweep
  /-- Checks the slot, reads and verifies a pair image and installs it, or completes with PAIR_BUSY, FAULT or VERIFY. (R36; operands world, queue) -/
  | loadPair
  /-- A LOAD_PAIR with image address 0 sets a slot that is not busy to EMPTY. (R36; operands world, queue) -/
  | unloadPair
  /-- Writes the device time in ns since READY at ADDR. (R131; operands world, queue) -/
  | timestamp
  /-- Writes the first LEN bytes of DATA at ADDR in aligned 8-byte accesses. (R131; operands world, queue) -/
  | writePacket
  /-- A packet with no effect that completes at once. (R131; operands world, queue) -/
  | nopPacket
  /-- A completed packet gets its STATUS, COMPSIG update, DIDX advance and optional MSI-X. (R132; operands world, queue) -/
  | packetCompletion
  /-- An uncorrectable error in clause-engine instruction memory stops the engine and reloads its firmware. (R139; operands unit) -/
  | clauseEngineError
  /-- The reloaded engine restarts, queues resume at committed RIDX and uncommitted packets are redone or completed UNCERTAIN. (R139; operands unit) -/
  | clauseEngineRestart
  /-- A clause engine fails its self-check and its queues move to the spare or become FAILED. (R141; operands unit) -/
  | clauseSelfCheckFail
  /-- An uncorrectable error in a queue-table entry makes the queue FAILED with QUEUE_LOST and sets QSIG to -1. (R140; operands world, queue) -/
  | queueLost
  /-- The dispatcher places a block on NQ quarters of one core, reserving every warp and advancing the generation counters. (R148; operands id, n, unit) -/
  | blockPlace
  /-- The oldest launch's next block has waited 50 us and its panel's dispatcher reserves one core for it. (R149; operands unit) -/
  | placementReservation
  /-- A block ends, its launch or graph counter falls and its quarters, slots, registers and scratchpad are freed. (R143; operands block) -/
  | blockEnd
  /-- A quarter's change of owner completes after invalidating translations, setting the world fence and clearing the partition. (R150; operands unit) -/
  | quarterHandover
  /-- At each 100 us epoch the share controller updates deficits and marks quarters draining. (R151) -/
  | shareEpoch
  /-- The drain limit passes and each block on the draining quarter receives a PREEMPT request. (R153; operands unit) -/
  | drainLimitExpiry
  /-- A node's timer runs out and the launcher takes pending records as full groups and one partial group. (R172; operands id, n) -/
  | nodeTimerExpiry
  /-- A load's data arrives, is written into its pending granules with P cleared, and its flag count falls. (R192; operands block, warp, id) -/
  | loadDataArrival
  /-- A quota request at the head of the lane's queue finds enough unreserved registers and the warp's quota rises. (R185; operands unit, n) -/
  | quotaGrant
  /-- A split parked in the join form of waitf is released when every other active split is parked or ended. (R181; operands block, warp, split) -/
  | joinRelease
  /-- A generation counter reaches 7,168 or 15,360 and the scrub of the other half pre-empts blocks and nulls old tags. (R193; operands unit) -/
  | generationScrub
  /-- A piece of a shuttle copy lands, releasing scoreboard granules and counting toward its bobbin slot. (R201; operands id) -/
  | copyPieceLand
  /-- A shuttle copy completes with OK or its first error status, kept for cwait or reported through its slot. (R424; operands id) -/
  | copyComplete
  /-- Firmware finishes servicing a fault and the halted block resumes at its recorded program counters. (R210; operands block) -/
  | faultServiceDone
  /-- A fault service outlasts the world's stall limit and the block is saved and its quarters freed. (R210; operands block) -/
  | stallLimitExpiry
  /-- A page walk completes and answers its waiters with the translation or a fault. (R215; operands unit, world, ctx, addr) -/
  | translationWalk
  /-- The pre-emption deadline passes with no yield and the device halts and saves the block. (R222; operands block) -/
  | forcedSave
  /-- Once loads and started copies complete, the context image is written and the block's quarters are freed. (R222; operands block) -/
  | saveComplete
  /-- A saved block resumes on a core of its world with fresh generations and its image restored. (R225; operands block, unit) -/
  | blockResume
  /-- An mma step finishes its last row on its array in the background. (R436; operands block, n) -/
  | mmaComplete
  /-- A flagged store, stx, prefetch, cinv or cwb, or a synchronous atomic or red, completes some time after issue: its flag count falls or the instruction retires, and any fault that arrives with the answer is held or raised. (R408; operands block, warp, id) -/
  | memoryAccessCompletion
  /-- A generation scrub finishes its pass over the quarter's tag arrays, so placements and resumptions that wait for the first value of the half may proceed. (R193; operands unit) -/
  | generationScrubEnd
  /-- A debugger write to a register, uniform register, scratchpad or accumulator of a halted block stores the value under the block's generation, mapping the name first or completing with Completer Abort. (R195; operands block, debug, tag) -/
  | debuggerWrite
  /-- A member's interface enters ERROR, or a mismatch among matched collectives is found, and every reachable member sets its completion signal to -1 and writes CAUSE and STEP. (R94; operands id, n, m) -/
  | collectiveFailure
  /-- The migration key of a world arrives at the destination device inside an SPDM session, so a later MIGRATE_IN can create the interface. (R117; operands world, n) -/
  | migrationKeyArrival
deriving DecidableEq, Repr

end Sys2Proof
end

