-- ==== Sys2Proof/WellFormed.lean ====
section
/-! DEFINITION. Which terms of `Instr` stand for an instruction whose raw fields hold values the spec lists (R350, R341
to R344, R352, R39 to R67), and the instruction set each constructor belongs to. -/

namespace Sys2Proof

/-- The three sets that have words: lane code, the weft stream and the transducers. -/
inductive ISet where
  | lane | weft | trans
deriving DecidableEq, Repr

/-- MEM flag field: f0 to f11, or 15 for synchronous (R341). -/
def flagOk (f : BitVec 4) : Bool := decide (f.toNat ≤ 11 ∨ f.toNat = 15)

/-- The assigned store widths of R342. -/
def stWidthOk (w : BitVec 3) : Bool := decide (w.toNat = 0 ∨ w.toNat = 2 ∨ w.toNat = 4 ∨ w.toNat = 5 ∨ w.toNat = 6)

/-- The MEM extended word: scope 0 to 8, cache 0 to 2, bits [3:0] zero (R341). -/
def extOk (x : W32) : Bool := decide (bits x.toNat 11 8 ≤ 8 ∧ bits x.toNat 7 6 ≤ 2 ∧ bits x.toNat 3 0 = 0)

/-- ATM word 1: rop 0 to 6, type 0 to 4, scope 0 to 8, reserved bits zero (R343). -/
def atmOk (x : W32) : Bool :=
  decide (bits x.toNat 23 20 ≤ 6 ∧ bits x.toNat 19 16 ≤ 4 ∧ bits x.toNat 15 12 = 0 ∧ bits x.toNat 11 8 ≤ 8 ∧
    bits x.toNat 7 6 = 0)

/-- A G3 instruction holds a literal word exactly when one operand field is 0xff; both may not be (R332, R336). -/
def litOk (lit : W32) (a b : BitVec 8) : Bool :=
  if a = 0xff#8 then decide (b ≠ 0xff#8) else decide (b = 0xff#8 ∨ lit = 0#32)

def litOk1 (lit : W32) (a : BitVec 8) : Bool := decide (a = 0xff#8 ∨ lit = 0#32)

/-- lit24 is zero where no field of a G4 instruction is 0xff (R337). -/
def g4LitOk (a b c : BitVec 8) (lit : BitVec 24) : Bool :=
  decide (a = 0xff#8 ∨ b = 0xff#8 ∨ c = 0xff#8 ∨ lit = 0#24)

/-- src2 of a transducer instruction: an immediate leaves b zero, a register leaves imm14[12:0] zero (R54). -/
def src2Ok (b : BitVec 4) (c : BitVec 1) (i : BitVec 13) : Bool :=
  if c = 1#1 then decide (b = 0#4) else decide (i = 0#13)

/-- A static count is at most 32 (R62, R63). -/
def countOk (c : BitVec 1) (i : BitVec 13) : Bool := decide (c = 0#1 ∨ i.toNat ≤ 32)

/-- The set an instruction belongs to; none for a step of the device that has no words. -/
def Instr.set : Instr → Option ISet
  | .powerOn => none
  | .powerMeasurement => none
  | .demandRead => none
  | .demandWrite => none
  | .partialWriteMerge => none
  | .heddleRunDone => none
  | .portWaitBound => none
  | .blockTransferDone => none
  | .patrolScrub => none
  | .sweepIntervalExpiry => none
  | .sweepStart => none
  | .sweepBlock => none
  | .pageMigration => none
  | .sealOut => none
  | .linkDown => none
  | .linkRetrain => none
  | .frameReceive => none
  | .frameCountLimit => none
  | .remoteRequest => none
  | .remoteAnswer => none
  | .crossDomainMessage => none
  | .collectiveComplete => none
  | .collectiveLinkTimeout => none
  | .hostMemoryRead => none
  | .hostMemoryWrite => none
  | .registerWrite => none
  | .configWrite => none
  | .ideStreamFailure => none
  | .keyStoreError => none
  | .lockInterfaceRequest => none
  | .startInterfaceRequest => none
  | .stopInterfaceRequest => none
  | .getDeviceInterfaceReport => none
  | .getVersion => none
  | .getCapabilities => none
  | .negotiateAlgorithms => none
  | .getDigests => none
  | .getCertificate => none
  | .challenge => none
  | .getMeasurements => none
  | .keyExchange => none
  | .finish => none
  | .keyUpdate => none
  | .heartbeat => none
  | .endSession => none
  | .ideKm => none
  | .policyPresent => none
  | .resync => none
  | .enable => none
  | .disable => none
  | .actionResume => none
  | .actionTerminate => none
  | .crtailWrite => none
  | .createWorld => none
  | .bindQuarters => none
  | .bindMemory => none
  | .createContext => none
  | .setLimits => none
  | .setDevice => none
  | .migrateOut => none
  | .migrateIn => none
  | .destroyWorld => none
  | .setError => none
  | .mcCompletion => none
  | .quiesceLimitExpiry => none
  | .freezePoint => none
  | .clauseRound => none
  | .barrier => none
  | .signalAdd => none
  | .signalSet => none
  | .phaseOpen => none
  | .phaseClose => none
  | .cancelPhase => none
  | .cancelJob => none
  | .launch => none
  | .graph => none
  | .copy => none
  | .bounceIn => none
  | .bounceOut => none
  | .bindWrite => none
  | .bindSweep => none
  | .loadPair => none
  | .unloadPair => none
  | .timestamp => none
  | .writePacket => none
  | .nopPacket => none
  | .packetCompletion => none
  | .clauseEngineError => none
  | .clauseEngineRestart => none
  | .clauseSelfCheckFail => none
  | .queueLost => none
  | .blockPlace => none
  | .placementReservation => none
  | .blockEnd => none
  | .quarterHandover => none
  | .shareEpoch => none
  | .drainLimitExpiry => none
  | .nodeTimerExpiry => none
  | .loadDataArrival => none
  | .quotaGrant => none
  | .joinRelease => none
  | .generationScrub => none
  | .copyPieceLand => none
  | .copyComplete => none
  | .faultServiceDone => none
  | .stallLimitExpiry => none
  | .translationWalk => none
  | .forcedSave => none
  | .saveComplete => none
  | .blockResume => none
  | .mmaComplete => none
  | .tnop => some .trans
  | .tli _ _ => some .trans
  | .tmov _ _ => some .trans
  | .tmovSel _ _ => some .trans
  | .tadd _ _ _ _ _ => some .trans
  | .tsub _ _ _ _ _ => some .trans
  | .tand _ _ _ _ _ => some .trans
  | .tor _ _ _ _ _ => some .trans
  | .txor _ _ _ _ _ => some .trans
  | .tshl _ _ _ _ _ => some .trans
  | .tshr _ _ _ _ _ => some .trans
  | .tcmp _ _ _ _ _ => some .trans
  | .tbr _ => some .trans
  | .tbrC _ => some .trans
  | .tbrNc _ => some .trans
  | .tloop _ _ _ _ => some .trans
  | .tloopReg _ _ _ _ _ => some .trans
  | .tget _ _ _ _ => some .trans
  | .tpeek _ _ _ _ => some .trans
  | .tout _ _ _ _ => some .trans
  | .tcopy _ _ _ => some .trans
  | .tfill _ _ _ _ => some .trans
  | .ttab _ _ _ => some .trans
  | .tvld _ _ _ _ => some .trans
  | .tvle _ _ _ => some .trans
  | .tskip _ _ _ => some .trans
  | .talignI _ => some .trans
  | .talignO _ => some .trans
  | .tcnt _ _ _ _ => some .trans
  | .tend => some .trans
  | .tfail => some .trans
  | .mma _ _ _ _ _ _ _ _ => some .weft
  | .scaccV _ _ _ _ => some .weft
  | .scaccU _ _ _ _ => some .weft
  | .accLd _ _ _ _ => some .weft
  | .accSt _ _ _ _ _ => some .weft
  | .accZero _ => some .weft
  | .accRel _ => some .weft
  | .wshedArrive _ => some .weft
  | .wshedWait _ => some .weft
  | .wbobAwait _ => some .weft
  | .wbobRel _ => some .weft
  | .xaddImm _ _ _ => some .weft
  | .xaddShift _ _ _ _ => some .weft
  | .wloop _ _ _ => some .weft
  | .wloopReg _ _ _ => some .weft
  | .wjump _ => some .weft
  | .wend => some .weft
  | .nop => some .lane
  | .br _ => some .lane
  | .brp _ _ _ => some .lane
  | .bru _ _ => some .lane
  | .call _ _ => some .lane
  | .callReg _ _ _ => some .lane
  | .ret _ _ => some .lane
  | .jmpi _ _ => some .lane
  | .exit => some .lane
  | .yield => some .lane
  | .waitf _ => some .lane
  | .waitfJoin => some .lane
  | .mood _ _ => some .lane
  | .moodG _ _ _ => some .lane
  | .sread _ _ => some .lane
  | .vote _ _ _ => some .lane
  | .shfl _ _ _ _ => some .lane
  | .wred _ _ _ _ => some .lane
  | .wscan _ _ _ _ => some .lane
  | .vtos _ _ _ _ => some .lane
  | .vrel _ _ => some .lane
  | .quotaGrow _ _ => some .lane
  | .quotaShrink _ _ => some .lane
  | .trap _ => some .lane
  | .brk _ => some .lane
  | .addc _ _ _ _ _ => some .lane
  | .subb _ _ _ _ _ => some .lane
  | .add _ _ _ _ => some .lane
  | .sub _ _ _ _ => some .lane
  | .mul _ _ _ _ => some .lane
  | .mulh _ _ _ _ => some .lane
  | .mad _ _ _ _ _ => some .lane
  | .madw _ _ _ _ _ => some .lane
  | .abs _ _ _ => some .lane
  | .min _ _ _ _ => some .lane
  | .max _ _ _ _ => some .lane
  | .and _ _ _ _ => some .lane
  | .or _ _ _ _ => some .lane
  | .xor _ _ _ _ => some .lane
  | .andn _ _ _ _ => some .lane
  | .shl _ _ _ _ => some .lane
  | .shr _ _ _ _ => some .lane
  | .sra _ _ _ _ => some .lane
  | .rot _ _ _ _ => some .lane
  | .bfe _ _ _ _ _ => some .lane
  | .bfi _ _ _ _ _ => some .lane
  | .popc _ _ _ => some .lane
  | .clz _ _ _ => some .lane
  | .brev _ _ _ => some .lane
  | .perm _ _ _ _ _ => some .lane
  | .sel _ _ _ _ _ => some .lane
  | .cmpEq _ _ _ _ => some .lane
  | .cmpNe _ _ _ _ => some .lane
  | .cmpLt _ _ _ _ => some .lane
  | .cmpGe _ _ _ _ => some .lane
  | .cmpLe _ _ _ _ => some .lane
  | .cmpGt _ _ _ _ => some .lane
  | .cmpLtu _ _ _ _ => some .lane
  | .cmpGeu _ _ _ _ => some .lane
  | .fadd _ _ _ _ => some .lane
  | .fsub _ _ _ _ => some .lane
  | .fmul _ _ _ _ => some .lane
  | .ffma _ _ _ _ _ => some .lane
  | .ffma4 _ _ _ _ _ => some .lane
  | .fmin _ _ _ _ => some .lane
  | .fmax _ _ _ _ => some .lane
  | .fneg _ _ _ => some .lane
  | .fabs _ _ _ => some .lane
  | .fclass _ _ _ _ => some .lane
  | .frnd _ _ _ => some .lane
  | .fscale _ _ _ _ => some .lane
  | .fdot2 _ _ _ _ _ => some .lane
  | .fcmpEq _ _ _ _ => some .lane
  | .fcmpNe _ _ _ _ => some .lane
  | .fcmpLt _ _ _ _ => some .lane
  | .fcmpGe _ _ _ _ => some .lane
  | .fcmpLe _ _ _ _ => some .lane
  | .fcmpGt _ _ _ _ => some .lane
  | .fcmpOrd _ _ _ _ => some .lane
  | .fcmpUno _ _ _ _ => some .lane
  | .frcp _ _ _ => some .lane
  | .frsq _ _ _ => some .lane
  | .fsqrt _ _ _ => some .lane
  | .fexp2 _ _ _ => some .lane
  | .flog2 _ _ _ => some .lane
  | .fsin _ _ _ => some .lane
  | .fcos _ _ _ => some .lane
  | .ftanh _ _ _ => some .lane
  | .cvt _ _ _ _ _ => some .lane
  | .qscale _ _ _ => some .lane
  | .qpack8 _ _ _ _ => some .lane
  | .qunpack8 _ _ _ _ => some .lane
  | .pack _ _ _ _ => some .lane
  | .unpack _ _ _ => some .lane
  | .trpack _ _ _ => some .lane
  | .ld _ _ _ _ _ => some .lane
  | .ldXform _ _ _ _ _ _ => some .lane
  | .ldSpec _ _ _ _ _ => some .lane
  | .ldSpecXform _ _ _ _ _ _ => some .lane
  | .st _ _ _ _ _ => some .lane
  | .stXform _ _ _ _ _ _ => some .lane
  | .ldxRow _ _ _ _ => some .lane
  | .ldxRowXform _ _ _ _ _ => some .lane
  | .ldxCol _ _ _ _ => some .lane
  | .ldxColXform _ _ _ _ _ => some .lane
  | .stxRow _ _ _ _ => some .lane
  | .stxRowXform _ _ _ _ _ => some .lane
  | .stxCol _ _ _ _ => some .lane
  | .stxColXform _ _ _ _ _ => some .lane
  | .prefetch _ _ _ => some .lane
  | .prefetchXform _ _ _ _ => some .lane
  | .cinv _ _ _ => some .lane
  | .cinvXform _ _ _ _ => some .lane
  | .cwb _ _ _ => some .lane
  | .cwbXform _ _ _ _ => some .lane
  | .atomAdd _ _ _ _ => some .lane
  | .atomMin _ _ _ _ => some .lane
  | .atomMax _ _ _ _ => some .lane
  | .atomAnd _ _ _ _ => some .lane
  | .atomOr _ _ _ _ => some .lane
  | .atomXor _ _ _ _ => some .lane
  | .atomExch _ _ _ _ => some .lane
  | .atomCas _ _ _ _ => some .lane
  | .atomFadd _ _ _ _ => some .lane
  | .red _ _ _ _ => some .lane
  | .fence _ _ => some .lane
  | .fenceRec => some .lane
  | .fenceCode => some .lane
  | .fenceMap _ _ _ => some .lane
  | .shedArrive _ => some .lane
  | .shedWait _ => some .lane
  | .shedSync _ => some .lane
  | .shedInit _ _ _ => some .lane
  | .cp _ _ _ _ => some .lane
  | .cp2d _ _ _ _ _ => some .lane
  | .cpGather _ _ _ _ _ => some .lane
  | .cpMcast _ _ _ _ _ => some .lane
  | .cseal _ => some .lane
  | .cwait _ _ _ => some .lane
  | .bobInit _ _ _ _ _ => some .lane
  | .bobClaim _ _ => some .lane
  | .bobExpect _ _ _ => some .lane
  | .bobAwait _ _ => some .lane
  | .bobRel _ => some .lane
  | .recAlloc _ _ _ _ => some .lane
  | .recCommit _ _ => some .lane
  | .recRead _ _ _ _ => some .lane
  | .gcancelGraph => some .lane
  | .gcancelLaunch => some .lane
  | .tryOpen _ => some .lane
  | .commit => some .lane
  | .commitRel _ => some .lane
  | .abort _ => some .lane
  | .tstat _ => some .lane
  | .coll _ _ _ _ _ => some .lane
  | .memoryAccessCompletion => none
  | .generationScrubEnd => none
  | .debuggerWrite => none
  | .collectiveFailure => none
  | .migrationKeyArrival => none

/-- Every raw field holds a value its entry lists. [DEDUCED 72] -/
def Instr.wf : Instr → Bool
  | .powerOn => true
  | .powerMeasurement => true
  | .demandRead => true
  | .demandWrite => true
  | .partialWriteMerge => true
  | .heddleRunDone => true
  | .portWaitBound => true
  | .blockTransferDone => true
  | .patrolScrub => true
  | .sweepIntervalExpiry => true
  | .sweepStart => true
  | .sweepBlock => true
  | .pageMigration => true
  | .sealOut => true
  | .linkDown => true
  | .linkRetrain => true
  | .frameReceive => true
  | .frameCountLimit => true
  | .remoteRequest => true
  | .remoteAnswer => true
  | .crossDomainMessage => true
  | .collectiveComplete => true
  | .collectiveLinkTimeout => true
  | .hostMemoryRead => true
  | .hostMemoryWrite => true
  | .registerWrite => true
  | .configWrite => true
  | .ideStreamFailure => true
  | .keyStoreError => true
  | .lockInterfaceRequest => true
  | .startInterfaceRequest => true
  | .stopInterfaceRequest => true
  | .getDeviceInterfaceReport => true
  | .getVersion => true
  | .getCapabilities => true
  | .negotiateAlgorithms => true
  | .getDigests => true
  | .getCertificate => true
  | .challenge => true
  | .getMeasurements => true
  | .keyExchange => true
  | .finish => true
  | .keyUpdate => true
  | .heartbeat => true
  | .endSession => true
  | .ideKm => true
  | .policyPresent => true
  | .resync => true
  | .enable => true
  | .disable => true
  | .actionResume => true
  | .actionTerminate => true
  | .crtailWrite => true
  | .createWorld => true
  | .bindQuarters => true
  | .bindMemory => true
  | .createContext => true
  | .setLimits => true
  | .setDevice => true
  | .migrateOut => true
  | .migrateIn => true
  | .destroyWorld => true
  | .setError => true
  | .mcCompletion => true
  | .quiesceLimitExpiry => true
  | .freezePoint => true
  | .clauseRound => true
  | .barrier => true
  | .signalAdd => true
  | .signalSet => true
  | .phaseOpen => true
  | .phaseClose => true
  | .cancelPhase => true
  | .cancelJob => true
  | .launch => true
  | .graph => true
  | .copy => true
  | .bounceIn => true
  | .bounceOut => true
  | .bindWrite => true
  | .bindSweep => true
  | .loadPair => true
  | .unloadPair => true
  | .timestamp => true
  | .writePacket => true
  | .nopPacket => true
  | .packetCompletion => true
  | .clauseEngineError => true
  | .clauseEngineRestart => true
  | .clauseSelfCheckFail => true
  | .queueLost => true
  | .blockPlace => true
  | .placementReservation => true
  | .blockEnd => true
  | .quarterHandover => true
  | .shareEpoch => true
  | .drainLimitExpiry => true
  | .nodeTimerExpiry => true
  | .loadDataArrival => true
  | .quotaGrant => true
  | .joinRelease => true
  | .generationScrub => true
  | .copyPieceLand => true
  | .copyComplete => true
  | .faultServiceDone => true
  | .stallLimitExpiry => true
  | .translationWalk => true
  | .forcedSave => true
  | .saveComplete => true
  | .blockResume => true
  | .mmaComplete => true
  | .tnop => true
  | .tli _ _ => true
  | .tmov _ _ => true
  | .tmovSel _ s => decide (s.toNat ≤ 5)
  | .tadd _ _ b c i => src2Ok b c i
  | .tsub _ _ b c i => src2Ok b c i
  | .tand _ _ b c i => src2Ok b c i
  | .tor _ _ b c i => src2Ok b c i
  | .txor _ _ b c i => src2Ok b c i
  | .tshl _ _ b c i => src2Ok b c i
  | .tshr _ _ b c i => src2Ok b c i
  | .tcmp k _ b c i => decide (k.toNat ≤ 5) && src2Ok b c i
  | .tbr _ => true
  | .tbrC _ => true
  | .tbrNc _ => true
  | .tloop _ _ _ _ => true
  | .tloopReg _ _ _ _ _ => true
  | .tget _ b c i => src2Ok b c i && countOk c i
  | .tpeek _ b c i => src2Ok b c i && countOk c i
  | .tout _ b c i => src2Ok b c i && countOk c i
  | .tcopy b c i => src2Ok b c i && countOk c i
  | .tfill _ b c i => src2Ok b c i && countOk c i
  | .ttab _ _ _ => true
  | .tvld _ _ l _ => decide (1 ≤ l.toNat ∧ l.toNat ≤ 9)
  | .tvle _ _ _ => true
  | .tskip b c i => src2Ok b c i
  | .talignI k => decide (k.toNat ≤ 8)
  | .talignO k => decide (k.toNat ≤ 8)
  | .tcnt _ _ m l => decide ((m = 0#4 ∨ 2 ≤ m.toNat ∧ m.toNat ≤ 8) ∧ 1 ≤ l.toNat ∧ l.toNat ≤ 256)
  | .tend => true
  | .tfail => true
  | .mma f _ _ _ _ _ _ _ => decide (f ≠ 3#2)
  | .scaccV _ _ _ _ => true
  | .scaccU _ _ _ _ => true
  | .accLd _ _ _ _ => true
  | .accSt _ _ _ _ _ => true
  | .accZero _ => true
  | .accRel _ => true
  | .wshedArrive _ => true
  | .wshedWait _ => true
  | .wbobAwait _ => true
  | .wbobRel _ => true
  | .xaddImm _ _ _ => true
  | .xaddShift _ _ _ _ => true
  | .wloop _ _ d => decide (d ≠ 0#10)
  | .wloopReg _ _ d => decide (d ≠ 0#10)
  | .wjump _ => true
  | .wend => true
  | .nop => true
  | .br _ => true
  | .brp _ _ _ => true
  | .bru _ _ => true
  | .call _ _ => true
  | .callReg _ a lit => litOk1 lit a
  | .ret a lit => litOk1 lit a
  | .jmpi a lit => litOk1 lit a
  | .exit => true
  | .yield => true
  | .waitf f => decide (f.toNat ≤ 11)
  | .waitfJoin => true
  | .mood a lit => litOk1 lit a
  | .moodG p n lit => decide (n.toNat ≤ 1) && litOk1 lit p
  | .sread _ s => decide (s.toNat ≤ 14)
  | .vote _ p lit => litOk1 lit p
  | .shfl _ a b lit => litOk lit a b
  | .wred _ a b lit => litOk lit a b
  | .wscan _ a b lit => litOk lit a b
  | .vtos _ a b lit => litOk lit a b
  | .vrel a lit => litOk1 lit a
  | .quotaGrow a lit => litOk1 lit a
  | .quotaShrink a lit => litOk1 lit a
  | .trap _ => true
  | .brk _ => true
  | .addc _ a b c lit => g4LitOk a b c lit
  | .subb _ a b c lit => g4LitOk a b c lit
  | .add _ a b lit => litOk lit a b
  | .sub _ a b lit => litOk lit a b
  | .mul _ a b lit => litOk lit a b
  | .mulh _ a b lit => litOk lit a b
  | .mad _ a b c lit => g4LitOk a b c lit
  | .madw _ a b c lit => g4LitOk a b c lit
  | .abs _ a lit => litOk1 lit a
  | .min _ a b lit => litOk lit a b
  | .max _ a b lit => litOk lit a b
  | .and _ a b lit => litOk lit a b
  | .or _ a b lit => litOk lit a b
  | .xor _ a b lit => litOk lit a b
  | .andn _ a b lit => litOk lit a b
  | .shl _ a b lit => litOk lit a b
  | .shr _ a b lit => litOk lit a b
  | .sra _ a b lit => litOk lit a b
  | .rot _ a b lit => litOk lit a b
  | .bfe _ a b c lit => g4LitOk a b c lit
  | .bfi _ a b c lit => g4LitOk a b c lit
  | .popc _ a lit => litOk1 lit a
  | .clz _ a lit => litOk1 lit a
  | .brev _ a lit => litOk1 lit a
  | .perm _ a b c lit => g4LitOk a b c lit
  | .sel _ a b c lit => g4LitOk a b c lit
  | .cmpEq _ a b lit => litOk lit a b
  | .cmpNe _ a b lit => litOk lit a b
  | .cmpLt _ a b lit => litOk lit a b
  | .cmpGe _ a b lit => litOk lit a b
  | .cmpLe _ a b lit => litOk lit a b
  | .cmpGt _ a b lit => litOk lit a b
  | .cmpLtu _ a b lit => litOk lit a b
  | .cmpGeu _ a b lit => litOk lit a b
  | .fadd _ a b lit => litOk lit a b
  | .fsub _ a b lit => litOk lit a b
  | .fmul _ a b lit => litOk lit a b
  | .ffma _ a b c lit => g4LitOk a b c lit
  | .ffma4 _ a b c lit => g4LitOk a b c lit
  | .fmin _ a b lit => litOk lit a b
  | .fmax _ a b lit => litOk lit a b
  | .fneg _ a lit => litOk1 lit a
  | .fabs _ a lit => litOk1 lit a
  | .fclass _ a b lit => litOk lit a b
  | .frnd _ a lit => litOk1 lit a
  | .fscale _ a b lit => litOk lit a b
  | .fdot2 _ a b c lit => g4LitOk a b c lit
  | .fcmpEq _ a b lit => litOk lit a b
  | .fcmpNe _ a b lit => litOk lit a b
  | .fcmpLt _ a b lit => litOk lit a b
  | .fcmpGe _ a b lit => litOk lit a b
  | .fcmpLe _ a b lit => litOk lit a b
  | .fcmpGt _ a b lit => litOk lit a b
  | .fcmpOrd _ a b lit => litOk lit a b
  | .fcmpUno _ a b lit => litOk lit a b
  | .frcp _ a lit => litOk1 lit a
  | .frsq _ a lit => litOk1 lit a
  | .fsqrt _ a lit => litOk1 lit a
  | .fexp2 _ a lit => litOk1 lit a
  | .flog2 _ a lit => litOk1 lit a
  | .fsin _ a lit => litOk1 lit a
  | .fcos _ a lit => litOk1 lit a
  | .ftanh _ a lit => litOk1 lit a
  | .cvt _ a t s lit => decide (t.toNat ≤ 10 ∧ s.toNat ≤ 10) && litOk1 lit a
  | .qscale _ a lit => litOk1 lit a
  | .qpack8 _ a b lit => litOk lit a b
  | .qunpack8 _ a b lit => litOk lit a b
  | .pack _ a b lit => litOk lit a b
  | .unpack _ a lit => litOk1 lit a
  | .trpack _ a lit => litOk1 lit a
  | .ld w _ _ f _ => decide (w.toNat ≤ 6) && flagOk f
  | .ldXform w _ _ f _ x => decide (w.toNat ≤ 6) && flagOk f && extOk x
  | .ldSpec w _ _ f _ => decide (w.toNat ≤ 5) && flagOk f
  | .ldSpecXform w _ _ f _ x => decide (w.toNat ≤ 5) && flagOk f && extOk x
  | .st w _ _ f _ => stWidthOk w && flagOk f
  | .stXform w _ _ f _ x => stWidthOk w && flagOk f && extOk x
  | .ldxRow _ _ f _ => flagOk f
  | .ldxRowXform _ _ f _ x => flagOk f && extOk x
  | .ldxCol _ _ f _ => flagOk f
  | .ldxColXform _ _ f _ x => flagOk f && extOk x
  | .stxRow _ _ f _ => flagOk f
  | .stxRowXform _ _ f _ x => flagOk f && extOk x
  | .stxCol _ _ f _ => flagOk f
  | .stxColXform _ _ f _ x => flagOk f && extOk x
  | .prefetch _ f _ => flagOk f
  | .prefetchXform _ f _ x => flagOk f && extOk x
  | .cinv _ f _ => flagOk f
  | .cinvXform _ f _ x => flagOk f && extOk x
  | .cwb _ f _ => flagOk f
  | .cwbXform _ f _ x => flagOk f && extOk x
  | .atomAdd _ _ _ x => atmOk x
  | .atomMin _ _ _ x => atmOk x
  | .atomMax _ _ _ x => atmOk x
  | .atomAnd _ _ _ x => atmOk x
  | .atomOr _ _ _ x => atmOk x
  | .atomXor _ _ _ x => atmOk x
  | .atomExch _ _ _ x => atmOk x
  | .atomCas _ _ _ x => atmOk x
  | .atomFadd _ _ _ x => atmOk x
  | .red _ _ _ x => atmOk x
  | .fence s o => decide (s.toNat ≤ 8 ∧ o ≠ 0#2)
  | .fenceRec => true
  | .fenceCode => true
  | .fenceMap w c lit => litOk lit w c
  | .shedArrive n => decide (n.toNat ≤ 15)
  | .shedWait n => decide (n.toNat ≤ 15)
  | .shedSync n => decide (n.toNat ≤ 15)
  | .shedInit n v lit => decide (n.toNat ≤ 15) && litOk1 lit v
  | .cp _ s l lit => litOk lit s l
  | .cp2d _ a b c lit => g4LitOk a b c lit
  | .cpGather _ a b c lit => g4LitOk a b c lit
  | .cpMcast _ a b c lit => g4LitOk a b c lit
  | .cseal _ => true
  | .cwait _ n lit => litOk1 lit n
  | .bobInit _ a _ _ _ => decide (a.toNat ≤ 7)
  | .bobClaim _ n => decide (n.toNat ≤ 7)
  | .bobExpect n c lit => decide (n.toNat ≤ 7) && litOk1 lit c
  | .bobAwait _ n => decide (n.toNat ≤ 7)
  | .bobRel n => decide (n.toNat ≤ 7)
  | .recAlloc _ p n lit => litOk lit p n
  | .recCommit a lit => litOk1 lit a
  | .recRead _ i k lit => litOk lit i k
  | .gcancelGraph => true
  | .gcancelLaunch => true
  | .tryOpen _ => true
  | .commit => true
  | .commitRel s => decide (s.toNat ≤ 8)
  | .abort _ => true
  | .tstat _ => true
  | .coll d _ b c lit => decide (d = 0#8 ∧ b = 0#8 ∧ c = 0#8 ∧ lit = 0#24)
  | .memoryAccessCompletion => true
  | .generationScrubEnd => true
  | .debuggerWrite => true
  | .collectiveFailure => true
  | .migrationKeyArrival => true

end Sys2Proof
end

