-- ==== Sys2Proof/Decode.lean ====
section
/-! DEFINITION. Decoding: total on any words or bytes, each refusal by name (R351, R435, R39), and the encoder written
from the same tables (R54, R341 to R344, R352). -/

namespace Sys2Proof

/-- Why words are no instruction: the fault or verifier result that the spec gives them (R351, R435 step 2, R39). -/
inductive DecodeError where
  | truncated      -- fewer bytes than the instruction has
  | badOpcode      -- an unassigned lane opcode
  | badOperand     -- a lane field that must be zero is not
  | weftIllegal    -- an unassigned weft opcode or a non-zero reserved field
  | transOpcode    -- a transducer opcode 0x1a to 0x3f
  | transField     -- a transducer field that must be zero is not
deriving DecidableEq, Repr

/-- The bit field [lo + n - 1 : lo] of a word. -/
def fld (w : W32) (lo n : Nat) : BitVec n := w.extractLsb' lo n

/-- `i` when the fields that must be zero are zero. -/
def zeroed (e : DecodeError) (z : Bool) (i : Instr) : Except DecodeError Instr := if z then .ok i else .error e

/-- A transducer word (R54 to R67). -/
def decodeTrans (w0 : W32) : Except DecodeError Instr :=
  match (fld w0 26 6).toNat with
  | 0 => zeroed .transField (fld w0 0 26 == 0#26) .tnop
  | 1 => zeroed .transField (fld w0 14 8 == 0#8) (.tli (fld w0 22 4) (fld w0 0 14))
  | 2 => if fld w0 0 18 == 0#18 then .ok (.tmov (fld w0 22 4) (fld w0 18 4)) else if fld w0 0 18 == 8192#18 then .ok (.tmovSel (fld w0 22 4) (fld w0 18 4)) else .error .transField
  | 3 => .ok (.tadd (fld w0 22 4) (fld w0 18 4) (fld w0 14 4) (fld w0 13 1) (fld w0 0 13))
  | 4 => .ok (.tsub (fld w0 22 4) (fld w0 18 4) (fld w0 14 4) (fld w0 13 1) (fld w0 0 13))
  | 5 => .ok (.tand (fld w0 22 4) (fld w0 18 4) (fld w0 14 4) (fld w0 13 1) (fld w0 0 13))
  | 6 => .ok (.tor (fld w0 22 4) (fld w0 18 4) (fld w0 14 4) (fld w0 13 1) (fld w0 0 13))
  | 7 => .ok (.txor (fld w0 22 4) (fld w0 18 4) (fld w0 14 4) (fld w0 13 1) (fld w0 0 13))
  | 8 => .ok (.tshl (fld w0 22 4) (fld w0 18 4) (fld w0 14 4) (fld w0 13 1) (fld w0 0 13))
  | 9 => .ok (.tshr (fld w0 22 4) (fld w0 18 4) (fld w0 14 4) (fld w0 13 1) (fld w0 0 13))
  | 10 => .ok (.tcmp (fld w0 22 4) (fld w0 18 4) (fld w0 14 4) (fld w0 13 1) (fld w0 0 13))
  | 11 => if fld w0 8 18 == 0#18 then .ok (.tbr (fld w0 0 8)) else if fld w0 8 18 == 16384#18 then .ok (.tbrC (fld w0 0 8)) else if fld w0 8 18 == 32768#18 then .ok (.tbrNc (fld w0 0 8)) else .error .transField
  | 12 => if fld w0 8 1 == 0#1 && fld w0 13 1 == 0#1 && fld w0 18 4 == 0#4 && fld w0 23 3 == 0#3 then .ok (.tloop (fld w0 22 1) (fld w0 14 4) (fld w0 9 4) (fld w0 0 8)) else if fld w0 8 1 == 0#1 && fld w0 13 1 == 1#1 && fld w0 23 3 == 0#3 then .ok (.tloopReg (fld w0 22 1) (fld w0 18 4) (fld w0 14 4) (fld w0 9 4) (fld w0 0 8)) else .error .transField
  | 13 => zeroed .transField (fld w0 18 4 == 0#4) (.tget (fld w0 22 4) (fld w0 14 4) (fld w0 13 1) (fld w0 0 13))
  | 14 => zeroed .transField (fld w0 18 4 == 0#4) (.tpeek (fld w0 22 4) (fld w0 14 4) (fld w0 13 1) (fld w0 0 13))
  | 15 => zeroed .transField (fld w0 22 4 == 0#4) (.tout (fld w0 18 4) (fld w0 14 4) (fld w0 13 1) (fld w0 0 13))
  | 16 => zeroed .transField (fld w0 18 8 == 0#8) (.tcopy (fld w0 14 4) (fld w0 13 1) (fld w0 0 13))
  | 17 => zeroed .transField (fld w0 22 4 == 0#4) (.tfill (fld w0 18 4) (fld w0 14 4) (fld w0 13 1) (fld w0 0 13))
  | 18 => zeroed .transField (fld w0 8 10 == 0#10) (.ttab (fld w0 22 4) (fld w0 18 4) (fld w0 0 8))
  | 19 => zeroed .transField (fld w0 9 1 == 0#1 && fld w0 14 4 == 0#4) (.tvld (fld w0 22 4) (fld w0 18 4) (fld w0 10 4) (fld w0 0 9))
  | 20 => zeroed .transField (fld w0 9 9 == 0#9) (.tvle (fld w0 22 4) (fld w0 18 4) (fld w0 0 9))
  | 21 => zeroed .transField (fld w0 18 8 == 0#8) (.tskip (fld w0 14 4) (fld w0 13 1) (fld w0 0 13))
  | 22 => if fld w0 14 12 == 0#12 then .ok (.talignI (fld w0 0 14)) else if fld w0 14 12 == 256#12 then .ok (.talignO (fld w0 0 14)) else .error .transField
  | 23 => zeroed .transField (fld w0 9 5 == 0#5) (.tcnt (fld w0 22 4) (fld w0 18 4) (fld w0 14 4) (fld w0 0 9))
  | 24 => zeroed .transField (fld w0 0 26 == 0#26) .tend
  | 25 => zeroed .transField (fld w0 0 26 == 0#26) .tfail
  | _ => .error .transOpcode

/-- A weft word (R352). -/
def decodeWeft (w0 : W32) : Except DecodeError Instr :=
  match (fld w0 26 6).toNat with
  | 1 => zeroed .weftIllegal (fld w0 0 4 == 0#4) (.mma (fld w0 24 2) (fld w0 23 1) (fld w0 22 1) (fld w0 20 2) (fld w0 16 4) (fld w0 12 4) (fld w0 8 4) (fld w0 4 4))
  | 2 => if fld w0 0 8 == 0#8 && fld w0 22 4 == 8#4 then .ok (.scaccV (fld w0 20 2) (fld w0 16 4) (fld w0 12 4) (fld w0 8 4)) else if fld w0 0 8 == 0#8 && fld w0 22 4 == 0#4 then .ok (.scaccU (fld w0 20 2) (fld w0 16 4) (fld w0 12 4) (fld w0 8 4)) else .error .weftIllegal
  | 3 => zeroed .weftIllegal (fld w0 0 4 == 0#4 && fld w0 20 6 == 0#6) (.accLd (fld w0 16 4) (fld w0 12 4) (fld w0 8 4) (fld w0 4 4))
  | 4 => zeroed .weftIllegal (fld w0 0 8 == 0#8 && fld w0 20 2 == 0#2) (.accSt (fld w0 24 2) (fld w0 22 2) (fld w0 16 4) (fld w0 12 4) (fld w0 8 4))
  | 5 => zeroed .weftIllegal (fld w0 0 16 == 0#16 && fld w0 20 6 == 0#6) (.accZero (fld w0 16 4))
  | 6 => zeroed .weftIllegal (fld w0 0 16 == 0#16 && fld w0 20 6 == 0#6) (.accRel (fld w0 16 4))
  | 7 => zeroed .weftIllegal (fld w0 0 16 == 0#16 && fld w0 20 6 == 0#6) (.wshedArrive (fld w0 16 4))
  | 8 => zeroed .weftIllegal (fld w0 0 16 == 0#16 && fld w0 20 6 == 0#6) (.wshedWait (fld w0 16 4))
  | 9 => zeroed .weftIllegal (fld w0 0 16 == 0#16 && fld w0 19 7 == 0#7) (.wbobAwait (fld w0 16 3))
  | 10 => zeroed .weftIllegal (fld w0 0 16 == 0#16 && fld w0 19 7 == 0#7) (.wbobRel (fld w0 16 3))
  | 11 => .ok (.xaddImm (fld w0 22 4) (fld w0 18 4) (fld w0 0 18))
  | 12 => zeroed .weftIllegal (fld w0 0 10 == 0#10) (.xaddShift (fld w0 22 4) (fld w0 18 4) (fld w0 14 4) (fld w0 10 4))
  | 13 => if fld w0 22 1 == 0#1 then .ok (.wloop (fld w0 23 3) (fld w0 10 12) (fld w0 0 10)) else if fld w0 14 9 == 256#9 then .ok (.wloopReg (fld w0 23 3) (fld w0 10 4) (fld w0 0 10)) else .error .weftIllegal
  | 14 => .ok (.wjump (fld w0 0 26))
  | 15 => zeroed .weftIllegal (fld w0 0 26 == 0#26) .wend
  | _ => .error .weftIllegal

/-- Lane opcodes 0x00 to 0x1f (R349). -/
def decodeLane00 (op : Nat) (w0 w1 : W32) : Except DecodeError Instr :=
  match op with
  | 0x00 => zeroed .badOperand (fld w0 0 24 == 0#24) .nop
  | 0x01 => zeroed .badOperand (fld w0 20 4 == 0#4) (.br (fld w0 0 20))
  | 0x02 => .ok (.brp (fld w0 23 1) (fld w0 20 3) (fld w0 0 20))
  | 0x03 => .ok (.bru (fld w0 18 6) (fld w0 0 18))
  | 0x04 => .ok (.call (fld w0 16 8) (fld w0 0 16))
  | 0x05 => zeroed .badOperand (fld w0 0 8 == 0#8) (.callReg (fld w0 16 8) (fld w0 8 8) (if (fld w0 8 8) == 0xff#8 then w1 else 0#32))
  | 0x06 => zeroed .badOperand (fld w0 0 8 == 0#8 && fld w0 16 8 == 0#8) (.ret (fld w0 8 8) (if (fld w0 8 8) == 0xff#8 then w1 else 0#32))
  | 0x07 => zeroed .badOperand (fld w0 0 8 == 0#8 && fld w0 16 8 == 0#8) (.jmpi (fld w0 8 8) (if (fld w0 8 8) == 0xff#8 then w1 else 0#32))
  | 0x08 => zeroed .badOperand (fld w0 0 24 == 0#24) .exit
  | 0x09 => zeroed .badOperand (fld w0 0 24 == 0#24) .yield
  | 0x0a => if fld w0 0 24 == 16#24 then .ok .waitfJoin else if fld w0 8 16 == 0#16 then .ok (.waitf (fld w0 0 8)) else .error .badOperand
  | 0x0b => zeroed .badOperand (fld w0 0 8 == 0#8 && fld w0 16 8 == 0#8) (.mood (fld w0 8 8) (if (fld w0 8 8) == 0xff#8 then w1 else 0#32))
  | 0x0c => zeroed .badOperand (fld w0 16 8 == 0#8) (.moodG (fld w0 8 8) (fld w0 0 8) (if (fld w0 8 8) == 0xff#8 then w1 else 0#32))
  | 0x0d => zeroed .badOperand (fld w0 0 8 == 0#8) (.sread (fld w0 16 8) (fld w0 8 8))
  | 0x0e => zeroed .badOperand (fld w0 0 8 == 0#8) (.vote (fld w0 16 8) (fld w0 8 8) (if (fld w0 8 8) == 0xff#8 then w1 else 0#32))
  | 0x0f => .ok (.shfl (fld w0 16 8) (fld w0 8 8) (fld w0 0 8) (if (fld w0 8 8) == 0xff#8 || (fld w0 0 8) == 0xff#8 then w1 else 0#32))
  | 0x10 => .ok (.wred (fld w0 16 8) (fld w0 8 8) (fld w0 0 8) (if (fld w0 8 8) == 0xff#8 || (fld w0 0 8) == 0xff#8 then w1 else 0#32))
  | 0x11 => .ok (.wscan (fld w0 16 8) (fld w0 8 8) (fld w0 0 8) (if (fld w0 8 8) == 0xff#8 || (fld w0 0 8) == 0xff#8 then w1 else 0#32))
  | 0x12 => .ok (.vtos (fld w0 16 8) (fld w0 8 8) (fld w0 0 8) (if (fld w0 8 8) == 0xff#8 || (fld w0 0 8) == 0xff#8 then w1 else 0#32))
  | 0x13 => zeroed .badOperand (fld w0 0 8 == 0#8 && fld w0 16 8 == 0#8) (.vrel (fld w0 8 8) (if (fld w0 8 8) == 0xff#8 then w1 else 0#32))
  | 0x14 => zeroed .badOperand (fld w0 0 8 == 0#8 && fld w0 16 8 == 0#8) (.quotaGrow (fld w0 8 8) (if (fld w0 8 8) == 0xff#8 then w1 else 0#32))
  | 0x15 => zeroed .badOperand (fld w0 0 8 == 0#8 && fld w0 16 8 == 0#8) (.quotaShrink (fld w0 8 8) (if (fld w0 8 8) == 0xff#8 then w1 else 0#32))
  | 0x16 => zeroed .badOperand (fld w0 8 16 == 0#16) (.trap (fld w0 0 8))
  | 0x17 => zeroed .badOperand (fld w0 8 16 == 0#16) (.brk (fld w0 0 8))
  | 0x1e => .ok (.addc (fld w0 16 8) (fld w0 8 8) (fld w0 0 8) (fld w1 0 8) (fld w1 8 24))
  | 0x1f => .ok (.subb (fld w0 16 8) (fld w0 8 8) (fld w0 0 8) (fld w1 0 8) (fld w1 8 24))
  | _ => .error .badOpcode

/-- Lane opcodes 0x20 to 0x3f (R349). -/
def decodeLane20 (op : Nat) (w0 w1 : W32) : Except DecodeError Instr :=
  match op with
  | 0x20 => .ok (.add (fld w0 16 8) (fld w0 8 8) (fld w0 0 8) (if (fld w0 8 8) == 0xff#8 || (fld w0 0 8) == 0xff#8 then w1 else 0#32))
  | 0x21 => .ok (.sub (fld w0 16 8) (fld w0 8 8) (fld w0 0 8) (if (fld w0 8 8) == 0xff#8 || (fld w0 0 8) == 0xff#8 then w1 else 0#32))
  | 0x22 => .ok (.mul (fld w0 16 8) (fld w0 8 8) (fld w0 0 8) (if (fld w0 8 8) == 0xff#8 || (fld w0 0 8) == 0xff#8 then w1 else 0#32))
  | 0x23 => .ok (.mulh (fld w0 16 8) (fld w0 8 8) (fld w0 0 8) (if (fld w0 8 8) == 0xff#8 || (fld w0 0 8) == 0xff#8 then w1 else 0#32))
  | 0x24 => .ok (.mad (fld w0 16 8) (fld w0 8 8) (fld w0 0 8) (fld w1 0 8) (fld w1 8 24))
  | 0x25 => .ok (.madw (fld w0 16 8) (fld w0 8 8) (fld w0 0 8) (fld w1 0 8) (fld w1 8 24))
  | 0x26 => zeroed .badOperand (fld w0 0 8 == 0#8) (.abs (fld w0 16 8) (fld w0 8 8) (if (fld w0 8 8) == 0xff#8 then w1 else 0#32))
  | 0x27 => .ok (.min (fld w0 16 8) (fld w0 8 8) (fld w0 0 8) (if (fld w0 8 8) == 0xff#8 || (fld w0 0 8) == 0xff#8 then w1 else 0#32))
  | 0x28 => .ok (.max (fld w0 16 8) (fld w0 8 8) (fld w0 0 8) (if (fld w0 8 8) == 0xff#8 || (fld w0 0 8) == 0xff#8 then w1 else 0#32))
  | 0x29 => .ok (.and (fld w0 16 8) (fld w0 8 8) (fld w0 0 8) (if (fld w0 8 8) == 0xff#8 || (fld w0 0 8) == 0xff#8 then w1 else 0#32))
  | 0x2a => .ok (.or (fld w0 16 8) (fld w0 8 8) (fld w0 0 8) (if (fld w0 8 8) == 0xff#8 || (fld w0 0 8) == 0xff#8 then w1 else 0#32))
  | 0x2b => .ok (.xor (fld w0 16 8) (fld w0 8 8) (fld w0 0 8) (if (fld w0 8 8) == 0xff#8 || (fld w0 0 8) == 0xff#8 then w1 else 0#32))
  | 0x2c => .ok (.andn (fld w0 16 8) (fld w0 8 8) (fld w0 0 8) (if (fld w0 8 8) == 0xff#8 || (fld w0 0 8) == 0xff#8 then w1 else 0#32))
  | 0x2d => .ok (.shl (fld w0 16 8) (fld w0 8 8) (fld w0 0 8) (if (fld w0 8 8) == 0xff#8 || (fld w0 0 8) == 0xff#8 then w1 else 0#32))
  | 0x2e => .ok (.shr (fld w0 16 8) (fld w0 8 8) (fld w0 0 8) (if (fld w0 8 8) == 0xff#8 || (fld w0 0 8) == 0xff#8 then w1 else 0#32))
  | 0x2f => .ok (.sra (fld w0 16 8) (fld w0 8 8) (fld w0 0 8) (if (fld w0 8 8) == 0xff#8 || (fld w0 0 8) == 0xff#8 then w1 else 0#32))
  | 0x30 => .ok (.rot (fld w0 16 8) (fld w0 8 8) (fld w0 0 8) (if (fld w0 8 8) == 0xff#8 || (fld w0 0 8) == 0xff#8 then w1 else 0#32))
  | 0x31 => .ok (.bfe (fld w0 16 8) (fld w0 8 8) (fld w0 0 8) (fld w1 0 8) (fld w1 8 24))
  | 0x32 => .ok (.bfi (fld w0 16 8) (fld w0 8 8) (fld w0 0 8) (fld w1 0 8) (fld w1 8 24))
  | 0x33 => zeroed .badOperand (fld w0 0 8 == 0#8) (.popc (fld w0 16 8) (fld w0 8 8) (if (fld w0 8 8) == 0xff#8 then w1 else 0#32))
  | 0x34 => zeroed .badOperand (fld w0 0 8 == 0#8) (.clz (fld w0 16 8) (fld w0 8 8) (if (fld w0 8 8) == 0xff#8 then w1 else 0#32))
  | 0x35 => zeroed .badOperand (fld w0 0 8 == 0#8) (.brev (fld w0 16 8) (fld w0 8 8) (if (fld w0 8 8) == 0xff#8 then w1 else 0#32))
  | 0x36 => .ok (.perm (fld w0 16 8) (fld w0 8 8) (fld w0 0 8) (fld w1 0 8) (fld w1 8 24))
  | 0x37 => .ok (.sel (fld w0 16 8) (fld w0 8 8) (fld w0 0 8) (fld w1 0 8) (fld w1 8 24))
  | 0x38 => .ok (.cmpEq (fld w0 16 8) (fld w0 8 8) (fld w0 0 8) (if (fld w0 8 8) == 0xff#8 || (fld w0 0 8) == 0xff#8 then w1 else 0#32))
  | 0x39 => .ok (.cmpNe (fld w0 16 8) (fld w0 8 8) (fld w0 0 8) (if (fld w0 8 8) == 0xff#8 || (fld w0 0 8) == 0xff#8 then w1 else 0#32))
  | 0x3a => .ok (.cmpLt (fld w0 16 8) (fld w0 8 8) (fld w0 0 8) (if (fld w0 8 8) == 0xff#8 || (fld w0 0 8) == 0xff#8 then w1 else 0#32))
  | 0x3b => .ok (.cmpGe (fld w0 16 8) (fld w0 8 8) (fld w0 0 8) (if (fld w0 8 8) == 0xff#8 || (fld w0 0 8) == 0xff#8 then w1 else 0#32))
  | 0x3c => .ok (.cmpLe (fld w0 16 8) (fld w0 8 8) (fld w0 0 8) (if (fld w0 8 8) == 0xff#8 || (fld w0 0 8) == 0xff#8 then w1 else 0#32))
  | 0x3d => .ok (.cmpGt (fld w0 16 8) (fld w0 8 8) (fld w0 0 8) (if (fld w0 8 8) == 0xff#8 || (fld w0 0 8) == 0xff#8 then w1 else 0#32))
  | 0x3e => .ok (.cmpLtu (fld w0 16 8) (fld w0 8 8) (fld w0 0 8) (if (fld w0 8 8) == 0xff#8 || (fld w0 0 8) == 0xff#8 then w1 else 0#32))
  | 0x3f => .ok (.cmpGeu (fld w0 16 8) (fld w0 8 8) (fld w0 0 8) (if (fld w0 8 8) == 0xff#8 || (fld w0 0 8) == 0xff#8 then w1 else 0#32))
  | _ => .error .badOpcode

/-- Lane opcodes 0x40 to 0x5f (R349). -/
def decodeLane40 (op : Nat) (w0 w1 : W32) : Except DecodeError Instr :=
  match op with
  | 0x40 => .ok (.ld (fld w0 24 3) (fld w0 16 8) (fld w0 8 8) (fld w0 4 4) (fld w0 0 4))
  | 0x41 => .ok (.ld (fld w0 24 3) (fld w0 16 8) (fld w0 8 8) (fld w0 4 4) (fld w0 0 4))
  | 0x42 => .ok (.ld (fld w0 24 3) (fld w0 16 8) (fld w0 8 8) (fld w0 4 4) (fld w0 0 4))
  | 0x43 => .ok (.ld (fld w0 24 3) (fld w0 16 8) (fld w0 8 8) (fld w0 4 4) (fld w0 0 4))
  | 0x44 => .ok (.ld (fld w0 24 3) (fld w0 16 8) (fld w0 8 8) (fld w0 4 4) (fld w0 0 4))
  | 0x45 => .ok (.ld (fld w0 24 3) (fld w0 16 8) (fld w0 8 8) (fld w0 4 4) (fld w0 0 4))
  | 0x46 => .ok (.ld (fld w0 24 3) (fld w0 16 8) (fld w0 8 8) (fld w0 4 4) (fld w0 0 4))
  | 0x48 => .ok (.ldXform (fld w0 24 3) (fld w0 16 8) (fld w0 8 8) (fld w0 4 4) (fld w0 0 4) (fld w1 0 32))
  | 0x49 => .ok (.ldXform (fld w0 24 3) (fld w0 16 8) (fld w0 8 8) (fld w0 4 4) (fld w0 0 4) (fld w1 0 32))
  | 0x4a => .ok (.ldXform (fld w0 24 3) (fld w0 16 8) (fld w0 8 8) (fld w0 4 4) (fld w0 0 4) (fld w1 0 32))
  | 0x4b => .ok (.ldXform (fld w0 24 3) (fld w0 16 8) (fld w0 8 8) (fld w0 4 4) (fld w0 0 4) (fld w1 0 32))
  | 0x4c => .ok (.ldXform (fld w0 24 3) (fld w0 16 8) (fld w0 8 8) (fld w0 4 4) (fld w0 0 4) (fld w1 0 32))
  | 0x4d => .ok (.ldXform (fld w0 24 3) (fld w0 16 8) (fld w0 8 8) (fld w0 4 4) (fld w0 0 4) (fld w1 0 32))
  | 0x4e => .ok (.ldXform (fld w0 24 3) (fld w0 16 8) (fld w0 8 8) (fld w0 4 4) (fld w0 0 4) (fld w1 0 32))
  | 0x50 => .ok (.ldSpec (fld w0 24 3) (fld w0 16 8) (fld w0 8 8) (fld w0 4 4) (fld w0 0 4))
  | 0x51 => .ok (.ldSpec (fld w0 24 3) (fld w0 16 8) (fld w0 8 8) (fld w0 4 4) (fld w0 0 4))
  | 0x52 => .ok (.ldSpec (fld w0 24 3) (fld w0 16 8) (fld w0 8 8) (fld w0 4 4) (fld w0 0 4))
  | 0x53 => .ok (.ldSpec (fld w0 24 3) (fld w0 16 8) (fld w0 8 8) (fld w0 4 4) (fld w0 0 4))
  | 0x54 => .ok (.ldSpec (fld w0 24 3) (fld w0 16 8) (fld w0 8 8) (fld w0 4 4) (fld w0 0 4))
  | 0x55 => .ok (.ldSpec (fld w0 24 3) (fld w0 16 8) (fld w0 8 8) (fld w0 4 4) (fld w0 0 4))
  | 0x58 => .ok (.ldSpecXform (fld w0 24 3) (fld w0 16 8) (fld w0 8 8) (fld w0 4 4) (fld w0 0 4) (fld w1 0 32))
  | 0x59 => .ok (.ldSpecXform (fld w0 24 3) (fld w0 16 8) (fld w0 8 8) (fld w0 4 4) (fld w0 0 4) (fld w1 0 32))
  | 0x5a => .ok (.ldSpecXform (fld w0 24 3) (fld w0 16 8) (fld w0 8 8) (fld w0 4 4) (fld w0 0 4) (fld w1 0 32))
  | 0x5b => .ok (.ldSpecXform (fld w0 24 3) (fld w0 16 8) (fld w0 8 8) (fld w0 4 4) (fld w0 0 4) (fld w1 0 32))
  | 0x5c => .ok (.ldSpecXform (fld w0 24 3) (fld w0 16 8) (fld w0 8 8) (fld w0 4 4) (fld w0 0 4) (fld w1 0 32))
  | 0x5d => .ok (.ldSpecXform (fld w0 24 3) (fld w0 16 8) (fld w0 8 8) (fld w0 4 4) (fld w0 0 4) (fld w1 0 32))
  | _ => .error .badOpcode

/-- Lane opcodes 0x60 to 0x7f (R349). -/
def decodeLane60 (op : Nat) (w0 w1 : W32) : Except DecodeError Instr :=
  match op with
  | 0x60 => .ok (.st (fld w0 24 3) (fld w0 16 8) (fld w0 8 8) (fld w0 4 4) (fld w0 0 4))
  | 0x62 => .ok (.st (fld w0 24 3) (fld w0 16 8) (fld w0 8 8) (fld w0 4 4) (fld w0 0 4))
  | 0x64 => .ok (.st (fld w0 24 3) (fld w0 16 8) (fld w0 8 8) (fld w0 4 4) (fld w0 0 4))
  | 0x65 => .ok (.st (fld w0 24 3) (fld w0 16 8) (fld w0 8 8) (fld w0 4 4) (fld w0 0 4))
  | 0x66 => .ok (.st (fld w0 24 3) (fld w0 16 8) (fld w0 8 8) (fld w0 4 4) (fld w0 0 4))
  | 0x68 => .ok (.stXform (fld w0 24 3) (fld w0 16 8) (fld w0 8 8) (fld w0 4 4) (fld w0 0 4) (fld w1 0 32))
  | 0x6a => .ok (.stXform (fld w0 24 3) (fld w0 16 8) (fld w0 8 8) (fld w0 4 4) (fld w0 0 4) (fld w1 0 32))
  | 0x6c => .ok (.stXform (fld w0 24 3) (fld w0 16 8) (fld w0 8 8) (fld w0 4 4) (fld w0 0 4) (fld w1 0 32))
  | 0x6d => .ok (.stXform (fld w0 24 3) (fld w0 16 8) (fld w0 8 8) (fld w0 4 4) (fld w0 0 4) (fld w1 0 32))
  | 0x6e => .ok (.stXform (fld w0 24 3) (fld w0 16 8) (fld w0 8 8) (fld w0 4 4) (fld w0 0 4) (fld w1 0 32))
  | 0x70 => .ok (.ldxRow (fld w0 16 8) (fld w0 8 8) (fld w0 4 4) (fld w0 0 4))
  | 0x71 => .ok (.ldxCol (fld w0 16 8) (fld w0 8 8) (fld w0 4 4) (fld w0 0 4))
  | 0x72 => .ok (.stxRow (fld w0 16 8) (fld w0 8 8) (fld w0 4 4) (fld w0 0 4))
  | 0x73 => .ok (.stxCol (fld w0 16 8) (fld w0 8 8) (fld w0 4 4) (fld w0 0 4))
  | 0x74 => zeroed .badOperand (fld w0 16 8 == 0#8) (.prefetch (fld w0 8 8) (fld w0 4 4) (fld w0 0 4))
  | 0x75 => zeroed .badOperand (fld w0 16 8 == 0#8) (.cinv (fld w0 8 8) (fld w0 4 4) (fld w0 0 4))
  | 0x76 => zeroed .badOperand (fld w0 16 8 == 0#8) (.cwb (fld w0 8 8) (fld w0 4 4) (fld w0 0 4))
  | 0x78 => .ok (.ldxRowXform (fld w0 16 8) (fld w0 8 8) (fld w0 4 4) (fld w0 0 4) (fld w1 0 32))
  | 0x79 => .ok (.ldxColXform (fld w0 16 8) (fld w0 8 8) (fld w0 4 4) (fld w0 0 4) (fld w1 0 32))
  | 0x7a => .ok (.stxRowXform (fld w0 16 8) (fld w0 8 8) (fld w0 4 4) (fld w0 0 4) (fld w1 0 32))
  | 0x7b => .ok (.stxColXform (fld w0 16 8) (fld w0 8 8) (fld w0 4 4) (fld w0 0 4) (fld w1 0 32))
  | 0x7c => zeroed .badOperand (fld w0 16 8 == 0#8) (.prefetchXform (fld w0 8 8) (fld w0 4 4) (fld w0 0 4) (fld w1 0 32))
  | 0x7d => zeroed .badOperand (fld w0 16 8 == 0#8) (.cinvXform (fld w0 8 8) (fld w0 4 4) (fld w0 0 4) (fld w1 0 32))
  | 0x7e => zeroed .badOperand (fld w0 16 8 == 0#8) (.cwbXform (fld w0 8 8) (fld w0 4 4) (fld w0 0 4) (fld w1 0 32))
  | _ => .error .badOpcode

/-- Lane opcodes 0x80 to 0xaf (R349). -/
def decodeLane80 (op : Nat) (w0 w1 : W32) : Except DecodeError Instr :=
  match op with
  | 0x80 => .ok (.fadd (fld w0 16 8) (fld w0 8 8) (fld w0 0 8) (if (fld w0 8 8) == 0xff#8 || (fld w0 0 8) == 0xff#8 then w1 else 0#32))
  | 0x81 => .ok (.fsub (fld w0 16 8) (fld w0 8 8) (fld w0 0 8) (if (fld w0 8 8) == 0xff#8 || (fld w0 0 8) == 0xff#8 then w1 else 0#32))
  | 0x82 => .ok (.fmul (fld w0 16 8) (fld w0 8 8) (fld w0 0 8) (if (fld w0 8 8) == 0xff#8 || (fld w0 0 8) == 0xff#8 then w1 else 0#32))
  | 0x83 => .ok (.ffma (fld w0 16 8) (fld w0 8 8) (fld w0 0 8) (fld w1 0 8) (fld w1 8 24))
  | 0x84 => .ok (.ffma4 (fld w0 16 8) (fld w0 8 8) (fld w0 0 8) (fld w1 0 8) (fld w1 8 24))
  | 0x85 => .ok (.fmin (fld w0 16 8) (fld w0 8 8) (fld w0 0 8) (if (fld w0 8 8) == 0xff#8 || (fld w0 0 8) == 0xff#8 then w1 else 0#32))
  | 0x86 => .ok (.fmax (fld w0 16 8) (fld w0 8 8) (fld w0 0 8) (if (fld w0 8 8) == 0xff#8 || (fld w0 0 8) == 0xff#8 then w1 else 0#32))
  | 0x87 => zeroed .badOperand (fld w0 0 8 == 0#8) (.fneg (fld w0 16 8) (fld w0 8 8) (if (fld w0 8 8) == 0xff#8 then w1 else 0#32))
  | 0x88 => zeroed .badOperand (fld w0 0 8 == 0#8) (.fabs (fld w0 16 8) (fld w0 8 8) (if (fld w0 8 8) == 0xff#8 then w1 else 0#32))
  | 0x89 => .ok (.fclass (fld w0 16 8) (fld w0 8 8) (fld w0 0 8) (if (fld w0 8 8) == 0xff#8 || (fld w0 0 8) == 0xff#8 then w1 else 0#32))
  | 0x8a => zeroed .badOperand (fld w0 0 8 == 0#8) (.frnd (fld w0 16 8) (fld w0 8 8) (if (fld w0 8 8) == 0xff#8 then w1 else 0#32))
  | 0x8b => .ok (.fscale (fld w0 16 8) (fld w0 8 8) (fld w0 0 8) (if (fld w0 8 8) == 0xff#8 || (fld w0 0 8) == 0xff#8 then w1 else 0#32))
  | 0x8c => .ok (.fdot2 (fld w0 16 8) (fld w0 8 8) (fld w0 0 8) (fld w1 0 8) (fld w1 8 24))
  | 0x90 => .ok (.fcmpEq (fld w0 16 8) (fld w0 8 8) (fld w0 0 8) (if (fld w0 8 8) == 0xff#8 || (fld w0 0 8) == 0xff#8 then w1 else 0#32))
  | 0x91 => .ok (.fcmpNe (fld w0 16 8) (fld w0 8 8) (fld w0 0 8) (if (fld w0 8 8) == 0xff#8 || (fld w0 0 8) == 0xff#8 then w1 else 0#32))
  | 0x92 => .ok (.fcmpLt (fld w0 16 8) (fld w0 8 8) (fld w0 0 8) (if (fld w0 8 8) == 0xff#8 || (fld w0 0 8) == 0xff#8 then w1 else 0#32))
  | 0x93 => .ok (.fcmpGe (fld w0 16 8) (fld w0 8 8) (fld w0 0 8) (if (fld w0 8 8) == 0xff#8 || (fld w0 0 8) == 0xff#8 then w1 else 0#32))
  | 0x94 => .ok (.fcmpLe (fld w0 16 8) (fld w0 8 8) (fld w0 0 8) (if (fld w0 8 8) == 0xff#8 || (fld w0 0 8) == 0xff#8 then w1 else 0#32))
  | 0x95 => .ok (.fcmpGt (fld w0 16 8) (fld w0 8 8) (fld w0 0 8) (if (fld w0 8 8) == 0xff#8 || (fld w0 0 8) == 0xff#8 then w1 else 0#32))
  | 0x96 => .ok (.fcmpOrd (fld w0 16 8) (fld w0 8 8) (fld w0 0 8) (if (fld w0 8 8) == 0xff#8 || (fld w0 0 8) == 0xff#8 then w1 else 0#32))
  | 0x97 => .ok (.fcmpUno (fld w0 16 8) (fld w0 8 8) (fld w0 0 8) (if (fld w0 8 8) == 0xff#8 || (fld w0 0 8) == 0xff#8 then w1 else 0#32))
  | 0x98 => zeroed .badOperand (fld w0 0 8 == 0#8) (.frcp (fld w0 16 8) (fld w0 8 8) (if (fld w0 8 8) == 0xff#8 then w1 else 0#32))
  | 0x99 => zeroed .badOperand (fld w0 0 8 == 0#8) (.frsq (fld w0 16 8) (fld w0 8 8) (if (fld w0 8 8) == 0xff#8 then w1 else 0#32))
  | 0x9a => zeroed .badOperand (fld w0 0 8 == 0#8) (.fsqrt (fld w0 16 8) (fld w0 8 8) (if (fld w0 8 8) == 0xff#8 then w1 else 0#32))
  | 0x9b => zeroed .badOperand (fld w0 0 8 == 0#8) (.fexp2 (fld w0 16 8) (fld w0 8 8) (if (fld w0 8 8) == 0xff#8 then w1 else 0#32))
  | 0x9c => zeroed .badOperand (fld w0 0 8 == 0#8) (.flog2 (fld w0 16 8) (fld w0 8 8) (if (fld w0 8 8) == 0xff#8 then w1 else 0#32))
  | 0x9d => zeroed .badOperand (fld w0 0 8 == 0#8) (.fsin (fld w0 16 8) (fld w0 8 8) (if (fld w0 8 8) == 0xff#8 then w1 else 0#32))
  | 0x9e => zeroed .badOperand (fld w0 0 8 == 0#8) (.fcos (fld w0 16 8) (fld w0 8 8) (if (fld w0 8 8) == 0xff#8 then w1 else 0#32))
  | 0x9f => zeroed .badOperand (fld w0 0 8 == 0#8) (.ftanh (fld w0 16 8) (fld w0 8 8) (if (fld w0 8 8) == 0xff#8 then w1 else 0#32))
  | 0xa0 => .ok (.cvt (fld w0 16 8) (fld w0 8 8) (fld w0 4 4) (fld w0 0 4) (if (fld w0 8 8) == 0xff#8 then w1 else 0#32))
  | 0xa1 => zeroed .badOperand (fld w0 0 8 == 0#8) (.qscale (fld w0 16 8) (fld w0 8 8) (if (fld w0 8 8) == 0xff#8 then w1 else 0#32))
  | 0xa2 => .ok (.qpack8 (fld w0 16 8) (fld w0 8 8) (fld w0 0 8) (if (fld w0 8 8) == 0xff#8 || (fld w0 0 8) == 0xff#8 then w1 else 0#32))
  | 0xa3 => .ok (.qunpack8 (fld w0 16 8) (fld w0 8 8) (fld w0 0 8) (if (fld w0 8 8) == 0xff#8 || (fld w0 0 8) == 0xff#8 then w1 else 0#32))
  | 0xa4 => .ok (.pack (fld w0 16 8) (fld w0 8 8) (fld w0 0 8) (if (fld w0 8 8) == 0xff#8 || (fld w0 0 8) == 0xff#8 then w1 else 0#32))
  | 0xa5 => zeroed .badOperand (fld w0 0 8 == 0#8) (.unpack (fld w0 16 8) (fld w0 8 8) (if (fld w0 8 8) == 0xff#8 then w1 else 0#32))
  | 0xa6 => zeroed .badOperand (fld w0 0 8 == 0#8) (.trpack (fld w0 16 8) (fld w0 8 8) (if (fld w0 8 8) == 0xff#8 then w1 else 0#32))
  | _ => .error .badOpcode

/-- Lane opcodes 0xb0 to 0xbf (R349). -/
def decodeLaneb0 (op : Nat) (w0 w1 : W32) : Except DecodeError Instr :=
  match op with
  | 0xb0 => .ok (.atomAdd (fld w0 16 8) (fld w0 8 8) (fld w0 0 8) (fld w1 0 32))
  | 0xb1 => .ok (.atomMin (fld w0 16 8) (fld w0 8 8) (fld w0 0 8) (fld w1 0 32))
  | 0xb2 => .ok (.atomMax (fld w0 16 8) (fld w0 8 8) (fld w0 0 8) (fld w1 0 32))
  | 0xb3 => .ok (.atomAnd (fld w0 16 8) (fld w0 8 8) (fld w0 0 8) (fld w1 0 32))
  | 0xb4 => .ok (.atomOr (fld w0 16 8) (fld w0 8 8) (fld w0 0 8) (fld w1 0 32))
  | 0xb5 => .ok (.atomXor (fld w0 16 8) (fld w0 8 8) (fld w0 0 8) (fld w1 0 32))
  | 0xb6 => .ok (.atomExch (fld w0 16 8) (fld w0 8 8) (fld w0 0 8) (fld w1 0 32))
  | 0xb7 => .ok (.atomCas (fld w0 16 8) (fld w0 8 8) (fld w0 0 8) (fld w1 0 32))
  | 0xb8 => .ok (.atomFadd (fld w0 16 8) (fld w0 8 8) (fld w0 0 8) (fld w1 0 32))
  | 0xb9 => .ok (.red (fld w0 16 8) (fld w0 8 8) (fld w0 0 8) (fld w1 0 32))
  | 0xba => zeroed .badOperand (fld w0 2 2 == 0#2 && fld w0 8 16 == 0#16) (.fence (fld w0 4 4) (fld w0 0 2))
  | 0xbb => zeroed .badOperand (fld w0 0 24 == 0#24) .fenceRec
  | 0xbc => zeroed .badOperand (fld w0 0 24 == 0#24) .fenceCode
  | 0xbd => zeroed .badOperand (fld w0 16 8 == 0#8) (.fenceMap (fld w0 8 8) (fld w0 0 8) (if (fld w0 8 8) == 0xff#8 || (fld w0 0 8) == 0xff#8 then w1 else 0#32))
  | _ => .error .badOpcode

/-- Lane opcodes 0xc0 to 0xdf (R349). -/
def decodeLanec0 (op : Nat) (w0 w1 : W32) : Except DecodeError Instr :=
  match op with
  | 0xc0 => zeroed .badOperand (fld w0 0 8 == 0#8 && fld w0 16 8 == 0#8) (.shedArrive (fld w0 8 8))
  | 0xc1 => zeroed .badOperand (fld w0 0 8 == 0#8 && fld w0 16 8 == 0#8) (.shedWait (fld w0 8 8))
  | 0xc2 => zeroed .badOperand (fld w0 0 8 == 0#8 && fld w0 16 8 == 0#8) (.shedSync (fld w0 8 8))
  | 0xc3 => zeroed .badOperand (fld w0 16 8 == 0#8) (.shedInit (fld w0 8 8) (fld w0 0 8) (if (fld w0 0 8) == 0xff#8 then w1 else 0#32))
  | 0xc4 => .ok (.cp (fld w0 16 8) (fld w0 8 8) (fld w0 0 8) (if (fld w0 8 8) == 0xff#8 || (fld w0 0 8) == 0xff#8 then w1 else 0#32))
  | 0xc5 => .ok (.cp2d (fld w0 16 8) (fld w0 8 8) (fld w0 0 8) (fld w1 0 8) (fld w1 8 24))
  | 0xc6 => .ok (.cpGather (fld w0 16 8) (fld w0 8 8) (fld w0 0 8) (fld w1 0 8) (fld w1 8 24))
  | 0xc7 => .ok (.cpMcast (fld w0 16 8) (fld w0 8 8) (fld w0 0 8) (fld w1 0 8) (fld w1 8 24))
  | 0xc8 => zeroed .badOperand (fld w0 0 16 == 0#16) (.cseal (fld w0 16 8))
  | 0xc9 => zeroed .badOperand (fld w0 0 8 == 0#8) (.cwait (fld w0 16 8) (fld w0 8 8) (if (fld w0 8 8) == 0xff#8 then w1 else 0#32))
  | 0xca => .ok (.bobInit (fld w0 16 8) (fld w0 8 8) (fld w0 0 8) (fld w1 0 8) (fld w1 8 24))
  | 0xcb => zeroed .badOperand (fld w0 0 8 == 0#8) (.bobClaim (fld w0 16 8) (fld w0 8 8))
  | 0xcc => zeroed .badOperand (fld w0 16 8 == 0#8) (.bobExpect (fld w0 8 8) (fld w0 0 8) (if (fld w0 0 8) == 0xff#8 then w1 else 0#32))
  | 0xcd => zeroed .badOperand (fld w0 0 8 == 0#8) (.bobAwait (fld w0 16 8) (fld w0 8 8))
  | 0xce => zeroed .badOperand (fld w0 0 8 == 0#8 && fld w0 16 8 == 0#8) (.bobRel (fld w0 8 8))
  | 0xd0 => .ok (.recAlloc (fld w0 16 8) (fld w0 8 8) (fld w0 0 8) (if (fld w0 8 8) == 0xff#8 || (fld w0 0 8) == 0xff#8 then w1 else 0#32))
  | 0xd1 => zeroed .badOperand (fld w0 0 8 == 0#8 && fld w0 16 8 == 0#8) (.recCommit (fld w0 8 8) (if (fld w0 8 8) == 0xff#8 then w1 else 0#32))
  | 0xd2 => .ok (.recRead (fld w0 16 8) (fld w0 8 8) (fld w0 0 8) (if (fld w0 8 8) == 0xff#8 || (fld w0 0 8) == 0xff#8 then w1 else 0#32))
  | 0xd3 => if fld w0 0 24 == 0#24 then .ok .gcancelGraph else if fld w0 0 24 == 1#24 then .ok .gcancelLaunch else .error .badOperand
  | 0xd4 => zeroed .badOperand (fld w0 20 4 == 0#4) (.tryOpen (fld w0 0 20))
  | 0xd5 => zeroed .badOperand (fld w0 0 24 == 0#24) .commit
  | 0xd6 => zeroed .badOperand (fld w0 0 4 == 2#4 && fld w0 8 16 == 0#16) (.commitRel (fld w0 4 4))
  | 0xd7 => zeroed .badOperand (fld w0 8 16 == 0#16) (.abort (fld w0 0 8))
  | 0xd8 => zeroed .badOperand (fld w0 0 16 == 0#16) (.tstat (fld w0 16 8))
  | 0xd9 => .ok (.coll (fld w0 16 8) (fld w0 8 8) (fld w0 0 8) (fld w1 0 8) (fld w1 8 24))
  | _ => .error .badOpcode

/-- A lane instruction from its first word and the word after it (R332, R349 to R351). [DEDUCED 72] -/
def decodeLane (w0 w1 : W32) : Except DecodeError Instr :=
  let op := (fld w0 24 8).toNat
  if op < 0x20 then decodeLane00 op w0 w1
  else if op < 0x40 then decodeLane20 op w0 w1
  else if op < 0x60 then decodeLane40 op w0 w1
  else if op < 0x80 then decodeLane60 op w0 w1
  else if op < 0xb0 then decodeLane80 op w0 w1
  else if op < 0xc0 then decodeLaneb0 op w0 w1
  else if op < 0xe0 then decodeLanec0 op w0 w1
  else .error .badOpcode

/-- The words of an instruction, from the encoding tables; none for a step that has no words. [DEDUCED 72] -/
def encode : Instr → Option (List W32)
  | .powerOn => none
  | .powerMeasurement => none
  | .demandRead => none
  | .demandWrite => none
  | .partialWriteMerge => none
  | .heddleRunDone => none
  | .portWaitBound => none
  | .blockTransferDone => none
  | .patrolScrub => none
  | .sweepIntervalExpiry => none
  | .sweepStart => none
  | .sweepBlock => none
  | .pageMigration => none
  | .sealOut => none
  | .linkDown => none
  | .linkRetrain => none
  | .frameReceive => none
  | .frameCountLimit => none
  | .remoteRequest => none
  | .remoteAnswer => none
  | .crossDomainMessage => none
  | .collectiveComplete => none
  | .collectiveLinkTimeout => none
  | .hostMemoryRead => none
  | .hostMemoryWrite => none
  | .registerWrite => none
  | .configWrite => none
  | .ideStreamFailure => none
  | .keyStoreError => none
  | .lockInterfaceRequest => none
  | .startInterfaceRequest => none
  | .stopInterfaceRequest => none
  | .getDeviceInterfaceReport => none
  | .getVersion => none
  | .getCapabilities => none
  | .negotiateAlgorithms => none
  | .getDigests => none
  | .getCertificate => none
  | .challenge => none
  | .getMeasurements => none
  | .keyExchange => none
  | .finish => none
  | .keyUpdate => none
  | .heartbeat => none
  | .endSession => none
  | .ideKm => none
  | .policyPresent => none
  | .resync => none
  | .enable => none
  | .disable => none
  | .actionResume => none
  | .actionTerminate => none
  | .crtailWrite => none
  | .createWorld => none
  | .bindQuarters => none
  | .bindMemory => none
  | .createContext => none
  | .setLimits => none
  | .setDevice => none
  | .migrateOut => none
  | .migrateIn => none
  | .destroyWorld => none
  | .setError => none
  | .mcCompletion => none
  | .quiesceLimitExpiry => none
  | .freezePoint => none
  | .clauseRound => none
  | .barrier => none
  | .signalAdd => none
  | .signalSet => none
  | .phaseOpen => none
  | .phaseClose => none
  | .cancelPhase => none
  | .cancelJob => none
  | .launch => none
  | .graph => none
  | .copy => none
  | .bounceIn => none
  | .bounceOut => none
  | .bindWrite => none
  | .bindSweep => none
  | .loadPair => none
  | .unloadPair => none
  | .timestamp => none
  | .writePacket => none
  | .nopPacket => none
  | .packetCompletion => none
  | .clauseEngineError => none
  | .clauseEngineRestart => none
  | .clauseSelfCheckFail => none
  | .queueLost => none
  | .blockPlace => none
  | .placementReservation => none
  | .blockEnd => none
  | .quarterHandover => none
  | .shareEpoch => none
  | .drainLimitExpiry => none
  | .nodeTimerExpiry => none
  | .loadDataArrival => none
  | .quotaGrant => none
  | .joinRelease => none
  | .generationScrub => none
  | .copyPieceLand => none
  | .copyComplete => none
  | .faultServiceDone => none
  | .stallLimitExpiry => none
  | .translationWalk => none
  | .forcedSave => none
  | .saveComplete => none
  | .blockResume => none
  | .mmaComplete => none
  | .tnop => some [0x0#32]
  | .tli d i => some [0x1#6 ++ d ++ 0x0#8 ++ i]
  | .tmov d a => some [0x2#6 ++ d ++ a ++ 0x0#18]
  | .tmovSel d s => some [0x2#6 ++ d ++ s ++ 0x2000#18]
  | .tadd d a b c i => some [0x3#6 ++ d ++ a ++ b ++ c ++ i]
  | .tsub d a b c i => some [0x4#6 ++ d ++ a ++ b ++ c ++ i]
  | .tand d a b c i => some [0x5#6 ++ d ++ a ++ b ++ c ++ i]
  | .tor d a b c i => some [0x6#6 ++ d ++ a ++ b ++ c ++ i]
  | .txor d a b c i => some [0x7#6 ++ d ++ a ++ b ++ c ++ i]
  | .tshl d a b c i => some [0x8#6 ++ d ++ a ++ b ++ c ++ i]
  | .tshr d a b c i => some [0x9#6 ++ d ++ a ++ b ++ c ++ i]
  | .tcmp k a b c i => some [0xa#6 ++ k ++ a ++ b ++ c ++ i]
  | .tbr t => some [0x2c0000#24 ++ t]
  | .tbrC t => some [0x2c4000#24 ++ t]
  | .tbrNc t => some [0x2c8000#24 ++ t]
  | .tloop k h n e => some [0x60#9 ++ k ++ 0x0#4 ++ h ++ 0x0#1 ++ n ++ 0x0#1 ++ e]
  | .tloopReg k a h n e => some [0x60#9 ++ k ++ a ++ h ++ 0x1#1 ++ n ++ 0x0#1 ++ e]
  | .tget d b c i => some [0xd#6 ++ d ++ 0x0#4 ++ b ++ c ++ i]
  | .tpeek d b c i => some [0xe#6 ++ d ++ 0x0#4 ++ b ++ c ++ i]
  | .tout a b c i => some [0xf0#10 ++ a ++ b ++ c ++ i]
  | .tcopy b c i => some [0x1000#14 ++ b ++ c ++ i]
  | .tfill a b c i => some [0x110#10 ++ a ++ b ++ c ++ i]
  | .ttab d a b => some [0x12#6 ++ d ++ a ++ 0x0#10 ++ b]
  | .tvld d a l b => some [0x13#6 ++ d ++ a ++ 0x0#4 ++ l ++ 0x0#1 ++ b]
  | .tvle d a b => some [0x14#6 ++ d ++ a ++ 0x0#9 ++ b]
  | .tskip b c i => some [0x1500#14 ++ b ++ c ++ i]
  | .talignI k => some [0x16000#18 ++ k]
  | .talignO k => some [0x16100#18 ++ k]
  | .tcnt d a m l => some [0x17#6 ++ d ++ a ++ m ++ 0x0#5 ++ l]
  | .tend => some [0x60000000#32]
  | .tfail => some [0x64000000#32]
  | .mma f g c q a s b t => some [0x1#6 ++ f ++ g ++ c ++ q ++ a ++ s ++ b ++ t ++ 0x0#4]
  | .scaccV q h r c => some [0x28#10 ++ q ++ h ++ r ++ c ++ 0x0#8]
  | .scaccU q h r c => some [0x20#10 ++ q ++ h ++ r ++ c ++ 0x0#8]
  | .accLd h a s e => some [0xc0#12 ++ h ++ a ++ s ++ e ++ 0x0#4]
  | .accSt t m h a s => some [0x4#6 ++ t ++ m ++ 0x0#2 ++ h ++ a ++ s ++ 0x0#8]
  | .accZero h => some [0x140#12 ++ h ++ 0x0#16]
  | .accRel h => some [0x180#12 ++ h ++ 0x0#16]
  | .wshedArrive n => some [0x1c0#12 ++ n ++ 0x0#16]
  | .wshedWait n => some [0x200#12 ++ n ++ 0x0#16]
  | .wbobAwait n => some [0x480#13 ++ n ++ 0x0#16]
  | .wbobRel n => some [0x500#13 ++ n ++ 0x0#16]
  | .xaddImm d a i => some [0xb#6 ++ d ++ a ++ i]
  | .xaddShift d a b s => some [0xc#6 ++ d ++ a ++ b ++ s ++ 0x0#10]
  | .wloop k n d => some [0xd#6 ++ k ++ 0x0#1 ++ n ++ d]
  | .wloopReg k x d => some [0xd#6 ++ k ++ 0x100#9 ++ x ++ d]
  | .wjump o => some [0xe#6 ++ o]
  | .wend => some [0x3c000000#32]
  | .nop => some [0x0#32]
  | .br o => some [0x10#12 ++ o]
  | .brp n p o => some [0x2#8 ++ n ++ p ++ o]
  | .bru s o => some [0x3#8 ++ s ++ o]
  | .call d o => some [0x4#8 ++ d ++ o]
  | .callReg d a lit => some ((0x5#8 ++ d ++ a ++ 0x0#8) :: if a == 0xff#8 then [lit] else [])
  | .ret a lit => some ((0x600#16 ++ a ++ 0x0#8) :: if a == 0xff#8 then [lit] else [])
  | .jmpi a lit => some ((0x700#16 ++ a ++ 0x0#8) :: if a == 0xff#8 then [lit] else [])
  | .exit => some [0x8000000#32]
  | .yield => some [0x9000000#32]
  | .waitf f => some [0xa0000#24 ++ f]
  | .waitfJoin => some [0xa000010#32]
  | .mood a lit => some ((0xb00#16 ++ a ++ 0x0#8) :: if a == 0xff#8 then [lit] else [])
  | .moodG p n lit => some ((0xc00#16 ++ p ++ n) :: if p == 0xff#8 then [lit] else [])
  | .sread d s => some [0xd#8 ++ d ++ s ++ 0x0#8]
  | .vote d p lit => some ((0xe#8 ++ d ++ p ++ 0x0#8) :: if p == 0xff#8 then [lit] else [])
  | .shfl d a b lit => some ((0xf#8 ++ d ++ a ++ b) :: if a == 0xff#8 || b == 0xff#8 then [lit] else [])
  | .wred d a b lit => some ((0x10#8 ++ d ++ a ++ b) :: if a == 0xff#8 || b == 0xff#8 then [lit] else [])
  | .wscan d a b lit => some ((0x11#8 ++ d ++ a ++ b) :: if a == 0xff#8 || b == 0xff#8 then [lit] else [])
  | .vtos d a b lit => some ((0x12#8 ++ d ++ a ++ b) :: if a == 0xff#8 || b == 0xff#8 then [lit] else [])
  | .vrel a lit => some ((0x1300#16 ++ a ++ 0x0#8) :: if a == 0xff#8 then [lit] else [])
  | .quotaGrow a lit => some ((0x1400#16 ++ a ++ 0x0#8) :: if a == 0xff#8 then [lit] else [])
  | .quotaShrink a lit => some ((0x1500#16 ++ a ++ 0x0#8) :: if a == 0xff#8 then [lit] else [])
  | .trap i => some [0x160000#24 ++ i]
  | .brk i => some [0x170000#24 ++ i]
  | .addc d a b c lit => some [0x1e#8 ++ d ++ a ++ b, lit ++ c]
  | .subb d a b c lit => some [0x1f#8 ++ d ++ a ++ b, lit ++ c]
  | .add d a b lit => some ((0x20#8 ++ d ++ a ++ b) :: if a == 0xff#8 || b == 0xff#8 then [lit] else [])
  | .sub d a b lit => some ((0x21#8 ++ d ++ a ++ b) :: if a == 0xff#8 || b == 0xff#8 then [lit] else [])
  | .mul d a b lit => some ((0x22#8 ++ d ++ a ++ b) :: if a == 0xff#8 || b == 0xff#8 then [lit] else [])
  | .mulh d a b lit => some ((0x23#8 ++ d ++ a ++ b) :: if a == 0xff#8 || b == 0xff#8 then [lit] else [])
  | .mad d a b c lit => some [0x24#8 ++ d ++ a ++ b, lit ++ c]
  | .madw d a b c lit => some [0x25#8 ++ d ++ a ++ b, lit ++ c]
  | .abs d a lit => some ((0x26#8 ++ d ++ a ++ 0x0#8) :: if a == 0xff#8 then [lit] else [])
  | .min d a b lit => some ((0x27#8 ++ d ++ a ++ b) :: if a == 0xff#8 || b == 0xff#8 then [lit] else [])
  | .max d a b lit => some ((0x28#8 ++ d ++ a ++ b) :: if a == 0xff#8 || b == 0xff#8 then [lit] else [])
  | .and d a b lit => some ((0x29#8 ++ d ++ a ++ b) :: if a == 0xff#8 || b == 0xff#8 then [lit] else [])
  | .or d a b lit => some ((0x2a#8 ++ d ++ a ++ b) :: if a == 0xff#8 || b == 0xff#8 then [lit] else [])
  | .xor d a b lit => some ((0x2b#8 ++ d ++ a ++ b) :: if a == 0xff#8 || b == 0xff#8 then [lit] else [])
  | .andn d a b lit => some ((0x2c#8 ++ d ++ a ++ b) :: if a == 0xff#8 || b == 0xff#8 then [lit] else [])
  | .shl d a b lit => some ((0x2d#8 ++ d ++ a ++ b) :: if a == 0xff#8 || b == 0xff#8 then [lit] else [])
  | .shr d a b lit => some ((0x2e#8 ++ d ++ a ++ b) :: if a == 0xff#8 || b == 0xff#8 then [lit] else [])
  | .sra d a b lit => some ((0x2f#8 ++ d ++ a ++ b) :: if a == 0xff#8 || b == 0xff#8 then [lit] else [])
  | .rot d a b lit => some ((0x30#8 ++ d ++ a ++ b) :: if a == 0xff#8 || b == 0xff#8 then [lit] else [])
  | .bfe d a b c lit => some [0x31#8 ++ d ++ a ++ b, lit ++ c]
  | .bfi d a b c lit => some [0x32#8 ++ d ++ a ++ b, lit ++ c]
  | .popc d a lit => some ((0x33#8 ++ d ++ a ++ 0x0#8) :: if a == 0xff#8 then [lit] else [])
  | .clz d a lit => some ((0x34#8 ++ d ++ a ++ 0x0#8) :: if a == 0xff#8 then [lit] else [])
  | .brev d a lit => some ((0x35#8 ++ d ++ a ++ 0x0#8) :: if a == 0xff#8 then [lit] else [])
  | .perm d a b c lit => some [0x36#8 ++ d ++ a ++ b, lit ++ c]
  | .sel d a b c lit => some [0x37#8 ++ d ++ a ++ b, lit ++ c]
  | .cmpEq d a b lit => some ((0x38#8 ++ d ++ a ++ b) :: if a == 0xff#8 || b == 0xff#8 then [lit] else [])
  | .cmpNe d a b lit => some ((0x39#8 ++ d ++ a ++ b) :: if a == 0xff#8 || b == 0xff#8 then [lit] else [])
  | .cmpLt d a b lit => some ((0x3a#8 ++ d ++ a ++ b) :: if a == 0xff#8 || b == 0xff#8 then [lit] else [])
  | .cmpGe d a b lit => some ((0x3b#8 ++ d ++ a ++ b) :: if a == 0xff#8 || b == 0xff#8 then [lit] else [])
  | .cmpLe d a b lit => some ((0x3c#8 ++ d ++ a ++ b) :: if a == 0xff#8 || b == 0xff#8 then [lit] else [])
  | .cmpGt d a b lit => some ((0x3d#8 ++ d ++ a ++ b) :: if a == 0xff#8 || b == 0xff#8 then [lit] else [])
  | .cmpLtu d a b lit => some ((0x3e#8 ++ d ++ a ++ b) :: if a == 0xff#8 || b == 0xff#8 then [lit] else [])
  | .cmpGeu d a b lit => some ((0x3f#8 ++ d ++ a ++ b) :: if a == 0xff#8 || b == 0xff#8 then [lit] else [])
  | .fadd d a b lit => some ((0x80#8 ++ d ++ a ++ b) :: if a == 0xff#8 || b == 0xff#8 then [lit] else [])
  | .fsub d a b lit => some ((0x81#8 ++ d ++ a ++ b) :: if a == 0xff#8 || b == 0xff#8 then [lit] else [])
  | .fmul d a b lit => some ((0x82#8 ++ d ++ a ++ b) :: if a == 0xff#8 || b == 0xff#8 then [lit] else [])
  | .ffma d a b c lit => some [0x83#8 ++ d ++ a ++ b, lit ++ c]
  | .ffma4 d a b c lit => some [0x84#8 ++ d ++ a ++ b, lit ++ c]
  | .fmin d a b lit => some ((0x85#8 ++ d ++ a ++ b) :: if a == 0xff#8 || b == 0xff#8 then [lit] else [])
  | .fmax d a b lit => some ((0x86#8 ++ d ++ a ++ b) :: if a == 0xff#8 || b == 0xff#8 then [lit] else [])
  | .fneg d a lit => some ((0x87#8 ++ d ++ a ++ 0x0#8) :: if a == 0xff#8 then [lit] else [])
  | .fabs d a lit => some ((0x88#8 ++ d ++ a ++ 0x0#8) :: if a == 0xff#8 then [lit] else [])
  | .fclass d a b lit => some ((0x89#8 ++ d ++ a ++ b) :: if a == 0xff#8 || b == 0xff#8 then [lit] else [])
  | .frnd d a lit => some ((0x8a#8 ++ d ++ a ++ 0x0#8) :: if a == 0xff#8 then [lit] else [])
  | .fscale d a b lit => some ((0x8b#8 ++ d ++ a ++ b) :: if a == 0xff#8 || b == 0xff#8 then [lit] else [])
  | .fdot2 d a b c lit => some [0x8c#8 ++ d ++ a ++ b, lit ++ c]
  | .fcmpEq d a b lit => some ((0x90#8 ++ d ++ a ++ b) :: if a == 0xff#8 || b == 0xff#8 then [lit] else [])
  | .fcmpNe d a b lit => some ((0x91#8 ++ d ++ a ++ b) :: if a == 0xff#8 || b == 0xff#8 then [lit] else [])
  | .fcmpLt d a b lit => some ((0x92#8 ++ d ++ a ++ b) :: if a == 0xff#8 || b == 0xff#8 then [lit] else [])
  | .fcmpGe d a b lit => some ((0x93#8 ++ d ++ a ++ b) :: if a == 0xff#8 || b == 0xff#8 then [lit] else [])
  | .fcmpLe d a b lit => some ((0x94#8 ++ d ++ a ++ b) :: if a == 0xff#8 || b == 0xff#8 then [lit] else [])
  | .fcmpGt d a b lit => some ((0x95#8 ++ d ++ a ++ b) :: if a == 0xff#8 || b == 0xff#8 then [lit] else [])
  | .fcmpOrd d a b lit => some ((0x96#8 ++ d ++ a ++ b) :: if a == 0xff#8 || b == 0xff#8 then [lit] else [])
  | .fcmpUno d a b lit => some ((0x97#8 ++ d ++ a ++ b) :: if a == 0xff#8 || b == 0xff#8 then [lit] else [])
  | .frcp d a lit => some ((0x98#8 ++ d ++ a ++ 0x0#8) :: if a == 0xff#8 then [lit] else [])
  | .frsq d a lit => some ((0x99#8 ++ d ++ a ++ 0x0#8) :: if a == 0xff#8 then [lit] else [])
  | .fsqrt d a lit => some ((0x9a#8 ++ d ++ a ++ 0x0#8) :: if a == 0xff#8 then [lit] else [])
  | .fexp2 d a lit => some ((0x9b#8 ++ d ++ a ++ 0x0#8) :: if a == 0xff#8 then [lit] else [])
  | .flog2 d a lit => some ((0x9c#8 ++ d ++ a ++ 0x0#8) :: if a == 0xff#8 then [lit] else [])
  | .fsin d a lit => some ((0x9d#8 ++ d ++ a ++ 0x0#8) :: if a == 0xff#8 then [lit] else [])
  | .fcos d a lit => some ((0x9e#8 ++ d ++ a ++ 0x0#8) :: if a == 0xff#8 then [lit] else [])
  | .ftanh d a lit => some ((0x9f#8 ++ d ++ a ++ 0x0#8) :: if a == 0xff#8 then [lit] else [])
  | .cvt d a t s lit => some ((0xa0#8 ++ d ++ a ++ t ++ s) :: if a == 0xff#8 then [lit] else [])
  | .qscale d a lit => some ((0xa1#8 ++ d ++ a ++ 0x0#8) :: if a == 0xff#8 then [lit] else [])
  | .qpack8 d a b lit => some ((0xa2#8 ++ d ++ a ++ b) :: if a == 0xff#8 || b == 0xff#8 then [lit] else [])
  | .qunpack8 d a b lit => some ((0xa3#8 ++ d ++ a ++ b) :: if a == 0xff#8 || b == 0xff#8 then [lit] else [])
  | .pack d a b lit => some ((0xa4#8 ++ d ++ a ++ b) :: if a == 0xff#8 || b == 0xff#8 then [lit] else [])
  | .unpack d a lit => some ((0xa5#8 ++ d ++ a ++ 0x0#8) :: if a == 0xff#8 then [lit] else [])
  | .trpack d a lit => some ((0xa6#8 ++ d ++ a ++ 0x0#8) :: if a == 0xff#8 then [lit] else [])
  | .ld w d a f o => some [0x8#5 ++ w ++ d ++ a ++ f ++ o]
  | .ldXform w d a f o x => some [0x9#5 ++ w ++ d ++ a ++ f ++ o, x]
  | .ldSpec w d a f o => some [0xa#5 ++ w ++ d ++ a ++ f ++ o]
  | .ldSpecXform w d a f o x => some [0xb#5 ++ w ++ d ++ a ++ f ++ o, x]
  | .st w d a f o => some [0xc#5 ++ w ++ d ++ a ++ f ++ o]
  | .stXform w d a f o x => some [0xd#5 ++ w ++ d ++ a ++ f ++ o, x]
  | .ldxRow d a f o => some [0x70#8 ++ d ++ a ++ f ++ o]
  | .ldxRowXform d a f o x => some [0x78#8 ++ d ++ a ++ f ++ o, x]
  | .ldxCol d a f o => some [0x71#8 ++ d ++ a ++ f ++ o]
  | .ldxColXform d a f o x => some [0x79#8 ++ d ++ a ++ f ++ o, x]
  | .stxRow d a f o => some [0x72#8 ++ d ++ a ++ f ++ o]
  | .stxRowXform d a f o x => some [0x7a#8 ++ d ++ a ++ f ++ o, x]
  | .stxCol d a f o => some [0x73#8 ++ d ++ a ++ f ++ o]
  | .stxColXform d a f o x => some [0x7b#8 ++ d ++ a ++ f ++ o, x]
  | .prefetch a f o => some [0x7400#16 ++ a ++ f ++ o]
  | .prefetchXform a f o x => some [0x7c00#16 ++ a ++ f ++ o, x]
  | .cinv a f o => some [0x7500#16 ++ a ++ f ++ o]
  | .cinvXform a f o x => some [0x7d00#16 ++ a ++ f ++ o, x]
  | .cwb a f o => some [0x7600#16 ++ a ++ f ++ o]
  | .cwbXform a f o x => some [0x7e00#16 ++ a ++ f ++ o, x]
  | .atomAdd d a b x => some [0xb0#8 ++ d ++ a ++ b, x]
  | .atomMin d a b x => some [0xb1#8 ++ d ++ a ++ b, x]
  | .atomMax d a b x => some [0xb2#8 ++ d ++ a ++ b, x]
  | .atomAnd d a b x => some [0xb3#8 ++ d ++ a ++ b, x]
  | .atomOr d a b x => some [0xb4#8 ++ d ++ a ++ b, x]
  | .atomXor d a b x => some [0xb5#8 ++ d ++ a ++ b, x]
  | .atomExch d a b x => some [0xb6#8 ++ d ++ a ++ b, x]
  | .atomCas d a b x => some [0xb7#8 ++ d ++ a ++ b, x]
  | .atomFadd d a b x => some [0xb8#8 ++ d ++ a ++ b, x]
  | .red d a b x => some [0xb9#8 ++ d ++ a ++ b, x]
  | .fence s o => some [0xba0000#24 ++ s ++ 0x0#2 ++ o]
  | .fenceRec => some [0xbb000000#32]
  | .fenceCode => some [0xbc000000#32]
  | .fenceMap w c lit => some ((0xbd00#16 ++ w ++ c) :: if w == 0xff#8 || c == 0xff#8 then [lit] else [])
  | .shedArrive n => some [0xc000#16 ++ n ++ 0x0#8]
  | .shedWait n => some [0xc100#16 ++ n ++ 0x0#8]
  | .shedSync n => some [0xc200#16 ++ n ++ 0x0#8]
  | .shedInit n v lit => some ((0xc300#16 ++ n ++ v) :: if v == 0xff#8 then [lit] else [])
  | .cp d s l lit => some ((0xc4#8 ++ d ++ s ++ l) :: if s == 0xff#8 || l == 0xff#8 then [lit] else [])
  | .cp2d d a b c lit => some [0xc5#8 ++ d ++ a ++ b, lit ++ c]
  | .cpGather d a b c lit => some [0xc6#8 ++ d ++ a ++ b, lit ++ c]
  | .cpMcast d a b c lit => some [0xc7#8 ++ d ++ a ++ b, lit ++ c]
  | .cseal d => some [0xc8#8 ++ d ++ 0x0#16]
  | .cwait d n lit => some ((0xc9#8 ++ d ++ n ++ 0x0#8) :: if n == 0xff#8 then [lit] else [])
  | .bobInit d a b c lit => some [0xca#8 ++ d ++ a ++ b, lit ++ c]
  | .bobClaim d n => some [0xcb#8 ++ d ++ n ++ 0x0#8]
  | .bobExpect n c lit => some ((0xcc00#16 ++ n ++ c) :: if c == 0xff#8 then [lit] else [])
  | .bobAwait d n => some [0xcd#8 ++ d ++ n ++ 0x0#8]
  | .bobRel n => some [0xce00#16 ++ n ++ 0x0#8]
  | .recAlloc d p n lit => some ((0xd0#8 ++ d ++ p ++ n) :: if p == 0xff#8 || n == 0xff#8 then [lit] else [])
  | .recCommit a lit => some ((0xd100#16 ++ a ++ 0x0#8) :: if a == 0xff#8 then [lit] else [])
  | .recRead d i k lit => some ((0xd2#8 ++ d ++ i ++ k) :: if i == 0xff#8 || k == 0xff#8 then [lit] else [])
  | .gcancelGraph => some [0xd3000000#32]
  | .gcancelLaunch => some [0xd3000001#32]
  | .tryOpen o => some [0xd40#12 ++ o]
  | .commit => some [0xd5000000#32]
  | .commitRel s => some [0xd60000#24 ++ s ++ 0x2#4]
  | .abort i => some [0xd70000#24 ++ i]
  | .tstat d => some [0xd8#8 ++ d ++ 0x0#16]
  | .coll d a b c lit => some [0xd9#8 ++ d ++ a ++ b, lit ++ c]
  | .memoryAccessCompletion => none
  | .generationScrubEnd => none
  | .debuggerWrite => none
  | .collectiveFailure => none
  | .migrationKeyArrival => none

/-- Words that a byte stream starts with, the lowest byte first (R3). -/
def wordAt (bs : List Byte) (k : Nat) : W32 := BitVec.ofNat 32 (leNat ((bs.drop (4 * k)).take 4))

/-- The bytes of words, as the hardware stores them (R3). -/
def wordBytes (ws : List W32) : List Byte := ws.flatMap fun w => leBytes 4 w.toNat

/-- How many words an instruction has (R332). -/
def Instr.words (i : Instr) : Nat := ((encode i).getD []).length

/-- Decode one word pair in one set. -/
def decodeWords (k : ISet) (w0 w1 : W32) : Except DecodeError Instr :=
  match k with
  | .lane => decodeLane w0 w1
  | .weft => decodeWeft w0
  | .trans => decodeTrans w0

/-- Decode a byte stream: the instruction and the bytes after it, or the refusal's name. -/
def decode (k : ISet) (bs : List Byte) : Except DecodeError (Instr × List Byte) :=
  if bs.length < 4 then .error .truncated
  else match decodeWords k (wordAt bs 0) (wordAt bs 1) with
    | .error e => .error e
    | .ok i => if bs.length < 4 * i.words then .error .truncated else .ok (i, bs.drop (4 * i.words))

/-- The bytes of the table word `w` of `nbits` bits, first word lowest, with the bits above `nbits` zero, two words long. -/
def tableBytes (nbits w : Nat) : List Byte := leBytes 8 (w % 2 ^ nbits)

/-- The set in which `decodeTableWord` reads a word: the three sets number their words alike, and a word does not name
its set (the line's KIND or the heddle does), so the lane set is tried first, then the weft, then the transducers. [DEDUCED 1] -/
def tableSet (nbits w : Nat) : Option ISet :=
  [ISet.lane, ISet.weft, ISet.trans].find? fun k => (decode k (tableBytes nbits w)).isOk

/-- The instruction that the decoder reads from a word numbered as spec/opcode_table.json numbers its bits. [DEDUCED 1] -/
def decodeTableWord (nbits w : Nat) : Option Instr :=
  match tableSet nbits w with
  | none => none
  | some k =>
    match decode k (tableBytes nbits w) with
    | .ok (i, _) => some i
    | .error _ => none

end Sys2Proof
end

