-- ==== Sys2Proof/Machine/State.lean ====
section
/-! DEFINITION. Everything the spec gives the device as state, as plain data, the reasons a step can stop, and the state
at power-on (R25). Maps are lists sorted by key (Sys2Proof/Word.lean). Numbers that the spec only counts are `Nat`. A mark
with a number in brackets (DEDUCED 16) names an entry of the assumption log, notes/assumptions/16.md. -/

namespace Sys2Proof.Machine

/-- A memory: address and byte, addresses rising, no byte equal to what an unlisted address reads as. -/
abbrev Memory := AMap Byte

/-- What an unlisted address reads as: zero, as bring-up stage 3 leaves every block (R25); host memory alike
[DESIGN CHOICE 12]. -/
def Memory.unlisted : Byte := 0#8

/-! ## The machine's reasons to stop -/

/-- Raised by a meaning, never by `step` on its own choice of agent. -/
inductive Fault where
  /-- Raised by every meaning of a coded instruction when the state's focus names no agent of its set that can issue
  it (no such split, sequencer or heddle run). Safe: the device has no such instruction to run. -/
  | noIssuer
deriving DecidableEq, Repr

inductive Refusal where
  /-- Raised by an arm of `exec` whose instruction has no meaning yet. Safe: nothing is claimed of it. -/
  | notModelled (mnemonic : String)
deriving DecidableEq, Repr

/-! ## Operands of the device's own steps -/

/-- What a step without words acts on; each constructor of `Instr` names the fields it reads. [DESIGN CHOICE 14] [DESIGN CHOICE 15] [DESIGN CHOICE 71] -/
structure EvArgs where
  world : Nat := 0
  ctx : Nat := 0
  queue : Nat := 0
  unit : Nat := 0
  block : Nat := 0
  warp : Nat := 0
  split : Nat := 0
  id : Nat := 0
  n : Nat := 0
  m : Nat := 0
  addr : W64 := 0#64
  value : W64 := 0#64
  nonce : BitVec 256 := 0#256
  bytes : List Byte := []
  contribs : List (List Byte) := []
  tag : HostTag := ⟨false, none⟩
  boot : BootOutcome := .ok
  ecc : EccResult := .clean
  cfg : ConfigKind := .other
  page : PageEntry := {}
  req : RemoteReq := ⟨.load, 0, 0, 0, 0#64, 0#64, 0, 0, []⟩
  ans : RemoteAns := .staleKey
  algs : SpdmAlgs := ⟨false, false, false⟩
  ide : IdeKmOp := .query
  reach : PeerReach := .ok
  debug : DebugWrite := .scratch 0 []
  ok : Bool := false
deriving DecidableEq, Repr

/-- The agent that moves next. -/
inductive Focus where
  | idle
  | input
  | lane (b w sp : Nat)
  | weft (b : Nat)
  | heddle
  /-- Another heddle comes to its turn: the run at this place of `heddles` (R28). -/
  | swap (k : Nat)
  /-- A word of an SRAM has a soft error (R21, R22). -/
  | upset (u : Upset)
  | internal (e : Instr) (a : EvArgs)
deriving DecidableEq, Repr

/-! ## Warps -/

/-- Why a split does not issue (R154); a parked instruction issues again when its wait is over. -/
inductive Park where
  | ready
  | join
  | waitf
  | quota (n : Nat)
  | shedArrive (n k : Nat)
  | shedWait (n k : Nat)
  | bobClaim
  | bobAwait
  | cwait
  | trap (token : BitVec 32)
  | commit
  | tryWait
  | flagFull
  | copyRoom
  | collRoom
  | regWait
  | fence
  | sync (id : Nat)
deriving DecidableEq, Repr

/-- A split: program counter, mask, mood and try state (R179). -/
structure Split where
  pc : W64 := 0#64
  mask : BitVec 16 := 0xffff#16
  mood : W32 := 7#32
  inTry : Bool := false
  park : Park := .ready
deriving DecidableEq, Repr

/-- A physical register: sixteen words in four granules, each with tag and pending bit (R182, R189). [DEDUCED 9] -/
structure PhysReg where
  vals : Lanes := Lanes.zero
  tags : List Nat := [0, 0, 0, 0]
  pend : List Bool := [false, false, false, false]
deriving DecidableEq, Repr

/-- A load that has issued and whose data has not arrived (R192): for each physical register it fills, the active
threads and their data, and the registers that took pending granules from it (R182); the names it renamed with the
registers they mapped to before, which they keep if its data faults (R206); a uniform destination and its words. For
the answers of other devices: whether the load sign-extends, whether one answer serves every thread, and the thread that
the fault is of. [DESIGN CHOICE 14] -/
structure PendLoad where
  flag : Nat
  prevs : List (Nat × Option Nat) := []
  uni : Option (Nat × List W32) := none
  targets : List (Nat × BitVec 16 × Lanes) := []
  heirs : List (Nat × Nat × BitVec 16) := []
  fault : Option (BitVec 8 × W64) := none
  split : Nat := 0
  remote : Bool := false
  inTry : Bool := false
  signed : Bool := false
  once : Bool := false
  faultThread : Nat := 16
  /-- Bytes of a remote load that come from the thread's own buffered stores: thread, byte, value (R261). -/
  own : List (Nat × Nat × Byte) := []
deriving DecidableEq, Repr

/-- A store, prefetch, cinv, cwb or atomic that has issued and not completed (R364, R408). [DESIGN CHOICE 14] -/
structure PendAcc where
  flag : Nat
  fault : Option (BitVec 8 × W64) := none
  split : Nat := 0
  remote : Bool := false
deriving DecidableEq, Repr

/-- One entry of a region's store buffer: the threads and each one's address, and bytes (R260). -/
structure BufEntry where
  data : AMap (W64 × List Byte)
deriving DecidableEq, Repr

/-- An open try region (R257 to R265). -/
structure Region where
  mask : BitVec 16
  fallback : W64
  mood : W32
  rmap : AMap Nat
  preds : List (BitVec 16)
  sregs : AMap W32
  stags : AMap Nat
  buf : List BufEntry := []
  alias_ : List (AMap Nat) := []
  doomed : BitVec 16 := 0#16
  doom : Lanes := Lanes.zero
  uwrite : Bool := false
deriving DecidableEq, Repr

/-- The status of one completed copy, for cwait (R427). -/
structure CopyStat where
  thread : Nat
  batch : Nat
  order : Nat
  code : BitVec 8
  addr : W64 := 0#64
  reported : Bool := false
deriving DecidableEq, Repr

/-- A store to the record window held until fence.rec (R106, R252). -/
structure RecStore where
  thread : Nat
  ctx : Nat
  off : Nat
  bytes : List Byte
deriving DecidableEq, Repr

structure Warp where
  rmap : AMap Nat := []
  phys : AMap PhysReg := []
  sregs : AMap W32 := []
  stags : AMap Nat := []
  preds : List (BitVec 16) := List.replicate 7 0#16
  flags : List Nat := List.replicate 12 0
  flagFault : List (Option (BitVec 8 × W64)) := List.replicate 12 none
  active : AMap Split := []
  pending : List Split := []
  splitPtr : Nat := 0
  quota : Nat := 4
  baseQuota : Nat := 4
  faultMask : BitVec 16 := 0#16
  switchPc : W64 := 0#64
  switchAddr : W64 := 0#64
  rstatus : Bool := false
  region : Option Region := none
  abortcode : Lanes := Lanes.zero
  abortmask : BitVec 16 := 0#16
  loads : AMap PendLoad := []
  accs : AMap PendAcc := []
  batch : List Nat := List.replicate 16 1
  copyStats : List CopyStat := []
  recHeld : List RecStore := []
  retired : Nat := 0
  quarter : Nat := 0
  lane : Nat := 0
  slot : Nat := 0
  shuttle : Bool := true
  skid : Nat := 0
  due : Bool := false
  polled : Nat := 0
deriving DecidableEq, Repr

/-! ## The weft sequencer and the accumulators (R300, R292, R308) -/

structure Loop where
  count : W32 := 0#32
  first : W64 := 0#64
  stop : W64 := 0#64
  age : Nat := 0
deriving DecidableEq, Repr

/-- An mma step on an array: its address, its captured operands, the next row and the B tile once it has been fetched
(R302, R307). -/
structure MmaRun where
  pc : W64
  f : Nat
  g : Nat
  acc : Bool
  a : W64
  sa : W64
  b : W64
  sb : W64
  row : Nat := 0
  tile : List Byte := []
deriving DecidableEq, Repr

structure Weft where
  pc : W64 := 0#64
  x : List W64 := List.replicate 16 0#64
  w : List Loop := List.replicate 8 {}
  handles : AMap Nat := []
  mmas : AMap (List MmaRun) := []
  povf : Bool := false
  badWeight : Bool := false
  park : Park := .ready
  ended : Bool := false
  starts : Nat := 0
  begun : Bool := false
deriving DecidableEq, Repr

/-- An accumulator slot: its anchor, its windows in row-major order once it has an anchor, its flags and the tags of its
granules of 64 bytes, 8 windows each (R189, R292, R293, R309). [DEDUCED 9] -/
structure AccSlot where
  anchor : Option Int := none
  win : List W64 := []
  overflow : Bool := false
  inexact : Bool := false
  tags : List Nat := []
deriving DecidableEq, Repr

/-! ## Blocks -/

/-- A shed: participants, arrived mask (bit 128 the weft) and completed phases (R420). -/
structure Shed where
  first : Nat
  num : Nat
  weft : Bool
  arrived : List Nat := []
  weftArrived : Bool := false
  k : W32 := 0#32
deriving DecidableEq, Repr

inductive BobState where
  | free | claimed | filled
deriving DecidableEq, Repr

structure BobSlot where
  st : BobState := .free
  c : Int := 0
  armed : Bool := false
  err : Bool := false
  status : BitVec 8 := 0#8
  rels : Nat := 0
  lap : Nat := 0
deriving DecidableEq, Repr

/-- An initialised bobbin (R428). -/
structure Bobbin where
  base : Nat
  size : Nat
  nslot : Nat
  rels : Nat
  weft : Bool
  claimPtr : Nat := 0
  last : Option Nat := none
  ptr : AMap Nat := []
  slots : List BobSlot
deriving DecidableEq, Repr

/-- A recorded fault (R205, R207, R208). -/
structure FaultRec where
  code : BitVec 8
  wid : Nat
  pc : W64
  addr : W64
  detail : BitVec 8 := 0#8
  skid : Bool := false
deriving DecidableEq, Repr

inductive Cause where
  | preempt | cancel
deriving DecidableEq, Repr

/-- Where a block stands (R205, R209 to R211, R222, R375). -/
inductive BState where
  | running
  | halted
  | broken (token : BitVec 32)
  | saving
  | saved
  | ended
deriving DecidableEq, Repr

structure Block where
  world : Nat := 0
  ctx : Nat := 0
  launch : Option Nat := none
  graph : Option Nat := none
  node : Nat := 0
  bid : W32 := 0#32
  reccount : Nat := 0
  recdepth : Nat := 0
  group : List Nat := []
  uncommitted : List (Nat × Nat) := []
  param : W64 := 0#64
  nq : Nat := 1
  quarters : List Nat := []
  gens : List Nat := []
  strict : Bool := false
  determ : Bool := false
  saveFault : Bool := false
  part : Nat := 0
  scratchLen : Nat := 0
  scratch : Memory := []
  scratchTags : AMap Nat := []
  scratchPoison : List Nat := []
  priv : AMap Memory := []
  privPages : AMap Nat := []
  warps : AMap Warp := []
  weft : Option Weft := none
  slots : AMap AccSlot := []
  pbuf : AMap (List W32) := []
  pbTags : AMap (List Nat) := []
  sheds : AMap Shed := []
  bobs : AMap Bobbin := []
  rot : Nat := 0
  retired : Nat := 0
  cycles : Nat := 0
  preempt : Option (Cause × Nat) := none
  run : BState := .running
  brk : Option (BitVec 32) := none
  acts : List (BitVec 32 × Nat) := []
  faults : List FaultRec := []
  service : Option W64 := none
  haltedAt : Nat := 0
  savedAt : Nat := 0
  term : Option (BitVec 8) := none
deriving DecidableEq, Repr

/-! ## Launches, graphs, phases (R142, R145, R159 to R173) -/

structure LDesc where
  centry : W64 := 0#64
  pentry : W64 := 0#64
  wentry : W64 := 0#64
  part : Nat := 0
  panels : Nat := 0
  nq : Nat := 1
  pquota : Nat := 0
  cquota : Nat := 4
  pwarps : Nat := 0
  cwarps : Nat := 1
  scratch : Nat := 0
  saveFault : Bool := false
  determ : Bool := false
  strict : Bool := false
  weft : Bool := false
deriving DecidableEq, Repr

structure Launch where
  world : Nat
  ctx : Nat
  queue : Nat
  pkt : Nat
  panel : Nat
  desc : LDesc
  param : W64
  total : Nat
  next : Nat := 0
  left : Nat
  phase : Option Nat := none
  cancelled : Bool := false
  fault : Option (BitVec 8) := none
  since : Nat := 0
  taken : Nat := 0
deriving DecidableEq, Repr

inductive RecState where
  | allocated (block : Nat)
  | pending
  | grouped
deriving DecidableEq, Repr

structure GNode where
  desc : LDesc := {}
  cap : Nat := 0
  group : Nat := 0
  timer : Nat := 0
  maxDepth : Nat := 0
  rsize : Nat := 0
  srcBlocks : Nat := 0
  faultRef : Bool := false
  base : Nat := 0
  recs : AMap (RecState × Nat) := []
  pend : List Nat := []
  started : Option Nat := none
  nextBid : Nat := 0
  refRec : Nat := 0
  refDepth : Nat := 0
deriving DecidableEq, Repr

/-- A block that has been created and waits to be placed (R163). -/
structure ReadyBlk where
  graph : Nat
  node : Nat
  bid : Nat
  slots : List Nat
  depth : Nat
  since : Nat
deriving DecidableEq, Repr

/-- A graph: its packet, its nodes, its counter (R164) and its own copy of the status area (R170); `due` lists the words
of the area that are still to be written. [DEDUCED 37] -/
structure Graph where
  world : Nat
  ctx : Nat
  queue : Nat
  pkt : Nat
  panel : Nat
  arena : W64
  gstatus : W64
  param : W64
  nodes : AMap GNode
  count : Nat
  phase : Option Nat := none
  cancelled : Bool := false
  flags : Nat := 0
  firstFault : BitVec 8 := 0#8
  firstErr : Option (BitVec 8) := none
  records : Nat := 0
  gblocks : Nat := 0
  partials : Nat := 0
  discarded : Nat := 0
  due : List Nat := []
deriving DecidableEq, Repr

/-- A phase (R131, R142): `count` its launches and graphs, `waiters` the cancel packets that wait for it. -/
structure Phase where
  world : Nat
  ctx : Nat
  queue : Nat
  job : Nat
  no : Nat
  psig : W64
  count : Nat
  isOpen : Bool
  cancelled : Bool := false
  waiters : List (Nat × Nat) := []
deriving DecidableEq, Repr

/-! ## Queues and clause engines (R119 to R141) -/

inductive QState where
  | disabled | active | aborted | failed
deriving DecidableEq, Repr

/-- A packet that has started and whose completion has not yet passed DIDX (R132): its number among all packets of the
queue, its slot, whether it aborts its queue once it has completed (R130, R134), whether it was started before the queue
was last enabled, and the answers of other devices that it waits for with the first failure among them. [DESIGN CHOICE 14] -/
structure Pkt where
  no : Nat
  idx : Nat := 0
  slot : W64 := 0#64
  ctx : Nat := 0
  bytes : List Byte := []
  barrier : Bool := false
  irq : Bool := false
  compsig : W64 := 0#64
  aborts : Bool := false
  old : Bool := false
  due : Nat := 0
  late : BitVec 8 := 0#8
  result : Option (BitVec 8 × BitVec 8) := none
  written : Bool := false
deriving DecidableEq, Repr

/-- What a BARRIER knows of a signal in another device's memory (R133). -/
inductive RemSig where
  | waiting
  | value (v : W64)
  | stale
  | failed (code : BitVec 8)
deriving DecidableEq, Repr

/-- The live copy of a queue-table entry (R119), and its place: panel, engine and lane. `head` is the packet at RIDX once it
has been read (R125). -/
structure Queue where
  ring : W64 := 0#64
  qsig : W64 := 0#64
  log2n : Nat := 0
  ctx : Nat := 0
  phase : Bool := false
  ridx : Nat := 0
  didx : Nat := 0
  cause : BitVec 8 := 0#8
  st : QState := .disabled
  panel : Nat := 0
  engine : Nat := 0
  lane : Nat := 0
  disabling : Bool := false
  noRead : Bool := false
  head : Option (List Byte) := none
  remSigs : AMap RemSig := []
  nextNo : Nat := 0
  started : List Pkt := []
  curPhase : Option Nat := none
deriving DecidableEq, Repr

/-- A clause engine (R135, R139, R141): the queue each lane visited last, and the packets taken in the round that are
still to be served, in their order. -/
structure Engine where
  stopped : Bool := false
  lastReload : Option Nat := none
  moved : Bool := false
  rot : AMap Nat := []
  taken : List (Nat × Nat) := []
deriving DecidableEq, Repr

/-! ## Worlds (R97, R105, R106, R217) -/

/-- A tensor record, as the four words of R30. -/
structure TRec where
  w0 : W64 := 0#64
  w1 : W64 := 0#64
  w2 : W64 := 0#64
  w3 : W64 := 0#64
  validAt : Nat := 0
  madeValid : Bool := false
deriving DecidableEq, Repr

/-- A context: its record table, the RW fields as last stored through the record window and not yet installed, and its
page table, an entry of 128 bits by level and index path (R106, R212). -/
structure Ctx where
  nrec : Nat := 4096
  recs : AMap TRec := []
  win : AMap TRec := []
  pt : AMap (BitVec 128) := []
deriving DecidableEq, Repr

/-- A pair slot with its status words (R34 to R38). -/
structure PairSlot where
  st : Nat := 0
  enc : List W32 := []
  dec : List W32 := []
  encTab : List Byte := []
  decTab : List Byte := []
  phash : List Byte := []
  refs : Nat := 0
  encErr : Nat := 0
  mismatch : Nat := 0
  decErr : Nat := 0
deriving DecidableEq, Repr

inductive TState where
  | unlocked | locked | run | error
deriving DecidableEq, Repr

structure MemRange where
  base : W64
  len : W64
  attr : Nat
  host : W64
deriving DecidableEq, Repr

structure World where
  tstate : TState := .unlocked
  ecause : Nat := 0
  conf : Bool := false
  qtbase : W64 := 0#64
  evlog : W64 := 0#64
  ownerDigest : List Byte := List.replicate 48 0#8
  bbbase : W64 := 0#64
  bbslots : Nat := 0
  featDrv : BitVec 128 := 0#128
  policyAddr : W64 := 0#64
  presult : Nat := 0
  popen : W32 := 0#32
  bbEpoch : W32 := 0#32
  bbState : Nat := 0
  bbDseq : W64 := 0#64
  bbLostFirst : W64 := 0#64
  bbLostLast : W64 := 0#64
  bbKey : Nat := 0
  crbase : W64 := 0#64
  crlog2n : Nat := 0
  crhead : W32 := 0#32
  crtail : W32 := 0#32
  crlost : W64 := 0#64
  stream : Option Nat := none
  nonce : BitVec 256 := 0#256
  policySeq : Nat := 0
  policyDigest : List Byte := []
  report : List Byte := []
  resumed : Bool := false
  keys : Option Nat := none
  migKey : Bool := false
  sealSeq : W64 := 0#64
  nextTid : Nat := 1
  revoked : List W64 := []
  macerr : Nat := 0
  refused : Nat := 0
  evCount : Nat := 0
  evRing : AMap (W64 × BitVec 8 × BitVec 8) := []
  slots : AMap PairSlot := []
  ctxs : AMap Ctx := []
  queues : AMap Queue := []
  quarterSet : List Nat := []
  sigma : Nat := 1
  lambda : Nat := 1
  ranges : AMap MemRange := []
  stall : Nat := 40
  deadline : Nat := 20000
  quiesce : Nat := 10000
  sweepInterval : Nat := 0
  allot : Nat := 0
  backed : Nat := 0
  deficit : Int := 0
  held : Nat := 0
  sweeps : List (Nat × Nat × Option (Nat × Nat)) := []
  quiescing : Bool := false
  quiesceAt : Nat := 0
  quiesceOver : Bool := false
  frozen : Bool := false
  reports : List (List Byte) := []
  sealedPages : AMap (List Byte) := []
  sealHome : AMap (Nat × Nat) := []
  outPoison : AMap (List Nat) := []
deriving DecidableEq, Repr

/-! ## Ports, panel caches, heddles (R18, R19, R28, R42) -/

/-- Where a block is stored: a key of its own, its class (0 ordinary), the physical address of its first sector, and
the place of its metadata entry: a block number, or an address in a metadata run (R11, R48). -/
structure BlkRef where
  key : Nat
  fixc : Nat := 0
  base : Nat
  metaAt : Nat
deriving DecidableEq, Repr

/-- A panel-cache line: 256 bytes of plaintext, a poison bit for each 64-bit word and its cause (R18, R22, R52). -/
structure Line where
  world : Nat
  ctx : Nat
  va : W64
  trec : Nat
  loc : BlkRef
  data : List Byte
  poison : BitVec 32 := 0#32
  cause : BitVec 8 := 9#8
  dirty : Bool := false
deriving DecidableEq, Repr

structure PortReq where
  cls : Nat
  blk : Nat
  since : Nat
deriving DecidableEq, Repr

/-- A channel port: its requests (R19), its error log (R16, R21, R22, R29), and the pair images that each of its two
heddles holds, by world and slot, the last used first (R29). -/
structure Port where
  waiting : List PortReq := []
  busy : Option PortReq := none
  corrected : Nat := 0
  uncorrected : Nat := 0
  restarts : Nat := 0
  dropped : Nat := 0
  images : AMap (List (Nat × Nat)) := []
  bound : List Nat := []
deriving DecidableEq, Repr

/-- What a block's record tells its port when an access to it is accepted (R30, R33, R70, R71, R79). -/
structure RView where
  tid : Nat := 0
  version : Nat := 0
  blk : Nat
  codec : Bool := false
  pair : Nat := 0
  encrypt : Bool
deriving DecidableEq, Repr

inductive HPurpose where
  | encode | check | decode
deriving DecidableEq, Repr

inductive HEnd where
  | running | tend | tfail | error (overflow : Bool)
deriving DecidableEq, Repr

/-- A transducer run (R42): what the run reads and writes, and whom it serves. `out` holds the bits written so far, so
the output cursor oc is its length. `port`, `unit` and `cls` are its port, the heddle of that port and the class of its access (R19, R28), `view`
the record as the port saw it when it accepted a write (R33). -/
structure HRun where
  code : List W32
  tab : List Byte
  inp : List Byte
  outCap : Nat
  out : List Bool := []
  t : List W32
  ic : Nat := 0
  l0 : W32 := 0#32
  l1 : W32 := 0#32
  c : Bool := false
  pc : Nat := 0
  steps : Nat := 0
  fin : HEnd := .running
  purpose : HPurpose := .decode
  world : Nat := 0
  ctx : Nat := 0
  slot : Nat := 0
  va : W64 := 0#64
  orig : List Byte := []
  port : Nat := 0
  cls : Nat := 1
  unit : Nat := 0
  view : Option RView := none
deriving DecidableEq, Repr

/-! ## The scheduler, the fabric, sessions -/

/-- A quarter of a core: owner, residents, generation, partition, scrub and translation cache (R150, R177, R188, R215), and
for each lane the slot that issued last (R155). [DESIGN CHOICE 13] -/
structure Quarter where
  owner : Nat := 0
  draining : Option Nat := none
  drainAt : Nat := 0
  gen : Nat := 0
  part : Option Nat := none
  segWorld : Nat := 0
  resident : List Nat := []
  handover : Option Nat := none
  scrub : Option Bool := none
  clean : Option Bool := none
  since : Nat := 0
  tcache : List (Nat × Nat × Nat × Nat) := []
  quotaQ : AMap (List (Nat × Nat × Nat × Nat)) := []
  reserved : Option Nat := none
  slotPtr : AMap Nat := []
deriving DecidableEq, Repr

structure Link where
  up : Bool := true
  txFrames : Nat := 0
  rxFrames : Nat := 0
  fails : Nat := 0
  keyEpoch : Nat := 0
deriving DecidableEq, Repr

/-- Who waits for a remote answer (R88, R206). -/
inductive RemWait where
  | load (b w id thread : Nat) (va : W64)
  | acc (b w id thread : Nat) (va : W64)
  | message (b w : Nat)
  | packet (w q no : Nat)
  | compsig (w q : Nat)
  | signal
  | barrier (w q no k : Nat)
deriving DecidableEq, Repr

/-- A collective in the engine (R92, R456 to R458). [DESIGN CHOICE 14] -/
structure Coll where
  world : Nat
  ctx : Nat
  group : W64
  src : W64
  dst : W64
  sig : W64
  len : Nat
  root : Nat
  ty : Nat
  op : Nat
  members : List Nat
  self : Nat
  seq : Nat
  linkDown : Option Nat := none
deriving DecidableEq, Repr

/-- A shuttle copy in flight (R201, R204, R424): its 4-byte pieces still to land (source and destination), the
destination words that have landed clean, its status, the blocks whose scratchpads it fills with the generations it
captured, and the bobbin slots it counts toward (block, bobbin, slot, lap). A COPY packet's ranges (source, destination,
bytes) stand in `bulk` and its packet (queue, number) in `pkt`. After a decode error the rest lands as zeros. [DESIGN CHOICE 14] -/
structure Copy where
  world : Nat
  ctx : Nat
  block : Nat
  warp : Nat
  thread : Nat
  batch : Nat
  order : Nat
  pieces : List (W64 × W64)
  landed : List W64 := []
  status : BitVec 8 := 0#8
  errAddr : W64 := 0#64
  targets : List (Nat × List Nat) := []
  slots : List (Nat × Nat × Nat × Nat) := []
  slotCopy : Bool := false
  bulk : List (W64 × W64 × Nat) := []
  pkt : Option (Nat × Nat) := none
  zeros : Bool := false
deriving DecidableEq, Repr

structure Session where
  version : Bool := false
  caps : Bool := false
  algs : Bool := false
  keyEx : Bool := false
  established : Bool := false
  keyGen : Nat := 0
  updates : Nat := 0
  transcript : List Byte := []
deriving DecidableEq, Repr

/-- What the device sends out: TLP completions, interrupts, TDISP and SPDM answers, fabric requests. -/
inductive OutMsg where
  | success (data : List Byte)
  | unsupportedRequest
  | completerAbort
  | msix (fn vector : Nat)
  | tdispOk
  | tdispReport (ranges : Nat) (data : List Byte)
  | tdispNonce (nonce : BitVec 256)
  | tdispError (invalidNonce : Bool)
  | spdm (peer code : Nat) (payload : List Byte)
  | spdmError (peer : Nat)
  | remoteReq (id : Nat) (q : RemoteReq)
  | remoteAns (q : RemoteReq) (a : RemoteAns)
  | frameResend (port : Nat)
  | collective (id : Nat)
  | migration (world : Nat)
deriving DecidableEq, Repr

/-- What a migration carries of a world (R117): the interface with its queues, records, pair images and page tables, the
context images of its blocks, and the work they belong to. [DESIGN CHOICE 60] -/
structure MigImage where
  world : World
  blocks : AMap Block := []
  launches : AMap Launch := []
  graphs : AMap Graph := []
  readyBlks : List ReadyBlk := []
  phases : AMap Phase := []
deriving DecidableEq, Repr

/-- The configuration space of a function, as far as R100 names it: the base-address register, Memory Space Enable and Bus
Master Enable, and of the physical function the VF base-address register and NumVFs. [DESIGN CHOICE 55] -/
structure FnConf where
  bar : W64 := 0#64
  memSpace : Bool := false
  busMaster : Bool := false
  vfBar : W64 := 0#64
  numVfs : Nat := 0
deriving DecidableEq, Repr

/-! ## Writes that a racing read may miss (R231 to R233) -/

/-- A byte that several agents can reach: of a line of the panel caches, of host memory, of a block's scratchpad. -/
inductive RaceByte where
  | line (key off : Nat)
  | host (pa : Nat)
  | scratch (block off : Nat)
deriving DecidableEq, Repr

/-- One byte of a plain store that nothing orders yet before the later reads of other agents. -/
structure RaceWrite where
  byte : RaceByte
  /-- What the byte held before it. -/
  old : Byte
  /-- The indivisible write that it is part of (R231). -/
  piece : Nat
  /-- The agents that may not read past it: they made it, have read it, or an ordering reached them after it (R232, R235).
  A warp is an agent, and a deterministic block is one (R240). -/
  seen : List (Nat × Option Nat)
deriving DecidableEq, Repr

/-! ## The machine -/

structure State where
  -- agents and inputs
  focus : Focus
  args : EvArgs
  inbox : List (Instr × EvArgs)
  outbox : List OutMsg
  tick : Nat
  freeCnt : Nat
  -- bring-up, power, time (R23 to R26, R131)
  bootReady : Bool
  bootFailed : Bool
  bootCause : BitVec 8
  bootStage : Nat
  clockMHz : Nat
  capW : Nat
  coolUs : Nat
  drainLimit : Nat
  now : Nat
  cycles : Nat
  -- configuration space (R100), management registers and the command being performed (R103, R104)
  fns : AMap FnConf
  mcAddr : W64
  mcAt : W64
  mcCmd : List Byte
  mcBusy : Bool
  mcDone : W32
  mcResult : Option (BitVec 8 × Nat)
  -- memory below and at the ports (R11 to R22)
  mem : Memory
  metas : AMap W64
  fixMetas : AMap W64
  lines : AMap Line
  ports : AMap Port
  heddle : Option HRun
  heddles : List HRun
  runq : List HRun
  unref : List Nat
  sram : AMap (Nat × Nat)
  icache : AMap (List Byte)
  hostMem : Memory
  /-- Newest first. [DESIGN CHOICE 11] -/
  recent : List RaceWrite
  -- the fabric (R85 to R94)
  sysNum : Nat
  links : AMap Link
  remote : AMap RemWait
  planes : AMap (Nat × Nat)
  colls : AMap Coll
  sessions : AMap Session
  ideKeys : AMap Nat
  migKeys : List (Nat × Nat)
  images : AMap (List Byte × MigImage)
  gone : AMap (List W64)
  -- worlds, queues, the scheduler
  worlds : AMap World
  engines : AMap Engine
  phases : AMap Phase
  launches : AMap Launch
  graphs : AMap Graph
  readyBlks : List ReadyBlk
  epochAt : Nat
  quarters : AMap Quarter
  blocks : AMap Block
  copies : AMap Copy
deriving DecidableEq, Repr

/-- The device at power-on: every field the spec gives a reset value at that value, no memory listed, bring-up about to
run (R25, R26). World 0 owns every quarter (R150); a quarter that is not listed is at its default. [DEDUCED 1] [DESIGN CHOICE 13] -/
def State.reset : State where
  focus := .internal .powerOn {}
  args := {}
  inbox := []
  outbox := []
  tick := 0
  freeCnt := 0
  bootReady := false
  bootFailed := false
  bootCause := 0#8
  bootStage := 0
  clockMHz := 1500
  capW := 3600
  coolUs := 0
  drainLimit := 200
  now := 0
  cycles := 0
  fns := []
  mcAddr := 0#64
  mcAt := 0#64
  mcCmd := []
  mcBusy := false
  mcDone := 0#32
  mcResult := none
  mem := []
  metas := []
  fixMetas := []
  lines := []
  ports := []
  heddle := none
  heddles := []
  runq := []
  unref := []
  sram := []
  icache := []
  hostMem := []
  recent := []
  sysNum := 0
  links := []
  remote := []
  planes := []
  colls := []
  sessions := []
  ideKeys := []
  migKeys := []
  images := []
  gone := []
  worlds := []
  engines := []
  phases := []
  launches := []
  graphs := []
  readyBlks := []
  epochAt := 0
  quarters := []
  blocks := []
  copies := []

end Sys2Proof.Machine
end

