-- ==== Sys2Proof/Machine/Heddle.lean ====
section
/-! DEFINITION. The transducer instructions (R54 to R67), whole runs (R42, R43) and the verifier (R39 to R41). -/

namespace Sys2Proof.Machine

/-! ## A run's registers and buffers (R42, R43) -/

namespace HRun

def getT (r : HRun) (k : BitVec 4) : Nat := (r.t.getD k.toNat 0#32).toNat
def setT (r : HRun) (k : BitVec 4) (v : Nat) : HRun := { r with t := r.t.set k.toNat (BitVec.ofNat 32 v) }
/-- src2 of R54. -/
def src2 (r : HRun) (b : BitVec 4) (c : BitVec 1) (i : BitVec 13) : Nat := if c = 1#1 then i.toNat else r.getT b
def inBits (r : HRun) : Nat := 8 * r.inp.length
def oc (r : HRun) : Nat := r.out.length
def inBit (r : HRun) (k : Nat) : Bool := (r.inp.getD (k / 8) 0#8).getLsbD (k % 8)
/-- `n` input bits from bit `k`, the lowest first; bits past the input read as 0. -/
def inField (r : HRun) (k n : Nat) : Nat :=
  (List.range n).foldl (fun acc j => if r.inBit (k + j) then acc + 2 ^ j else acc) 0
/-- A run error ends the run; an overflow is told apart (R43). -/
def fail (r : HRun) : HRun := { r with fin := .error false }
def overflow (r : HRun) : HRun := { r with fin := .error true }
/-- `n` low bits of a value appended to the output. -/
def emit (r : HRun) (n v : Nat) : HRun :=
  if r.out.length + n > 8 * r.outCap then r.overflow
  else { r with out := r.out ++ (List.range n).map fun j => v.testBit j }
def tabHalf (r : HRun) (k : Nat) : Option Nat :=
  if 2 * k + 2 ≤ r.tab.length then some (leNat ((r.tab.drop (2 * k)).take 2)) else none
def tabWord (r : HRun) (k : Nat) : Option Nat :=
  if 4 * k + 4 ≤ r.tab.length then some (leNat ((r.tab.drop (4 * k)).take 4)) else none
end HRun

/-- The loop an instruction word opens: its counter and its end index (R61). -/
def loopOf (w : W32) : Option (Nat × Nat) :=
  match decodeTrans w with
  | .ok (.tloop k _ _ e) => some (k.toNat, e.toNat)
  | .ok (.tloopReg k _ _ _ e) => some (k.toNat, e.toNat)
  | _ => none

/-- The tloop whose body ends at index `i`: its index and counter. No two bodies of a verified transducer end on the
same instruction (R39). -/
def loopEndingAt (i : Nat) : Nat → List W32 → Option (Nat × Nat)
  | _, [] => none
  | h, w :: ws =>
    match loopOf w with
    | some (k, e) => if e = i && decide (h < i) then some (h, k) else loopEndingAt i (h + 1) ws
    | none => loopEndingAt i (h + 1) ws

/-- Completion of the instruction at pc without a taken branch: loops back or falls through (R61). -/
def HRun.next (r : HRun) : HRun :=
  match r.fin with
  | .running =>
    match loopEndingAt r.pc 0 r.code with
    | none => { r with pc := r.pc + 1 }
    | some (h, k) =>
      let l := if k = 0 then r.l0 else r.l1
      let again := decide (1 < l.toNat)
      let l' := if again then l - 1#32 else 0#32
      { r with l0 := if k = 0 then l' else r.l0, l1 := if k = 0 then r.l1 else l',
               pc := if again then h + 1 else r.pc + 1 }
  | _ => r

/-! ## The instructions -/

def tArith (f : Nat → Nat → Nat) (d a b : BitVec 4) (c : BitVec 1) (i : BitVec 13) (r : HRun) : HRun :=
  (r.setT d (f (r.getT a) (r.src2 b c i))).next

def tSub (x y : Nat) : Nat := x + 2 ^ 32 - y
def tShl (x y : Nat) : Nat := if y < 32 then x * 2 ^ y else 0
def tShr (x y : Nat) : Nat := if y < 32 then x / 2 ^ y else 0

def tSel (r : HRun) (s : BitVec 4) : Nat :=
  match s.toNat with
  | 0 => r.ic
  | 1 => r.oc
  | 2 => r.inBits
  | 3 => r.l0.toNat
  | 4 => r.l1.toNat
  | _ => if r.c then 1 else 0

/-- The condition codes of R59. -/
def tCond (cc x y : Nat) : Bool :=
  match cc with
  | 0 => x == y
  | 1 => x != y
  | 2 => decide (x < y)
  | 3 => decide (y ≤ x)
  | 4 => decide (sext 32 x < sext 32 y)
  | _ => decide (sext 32 y ≤ sext 32 x)

def tBranch (taken : Bool) (t : BitVec 8) (r : HRun) : HRun := if taken then { r with pc := t.toNat } else r.next

/-- Enters a loop of `n` passes (R61). -/
def tEnter (k : BitVec 1) (n e : Nat) (r : HRun) : HRun :=
  if n = 0 then { r with pc := e + 1 }
  else { r with l0 := if k = 0#1 then BitVec.ofNat 32 n else r.l0, l1 := if k = 0#1 then r.l1 else BitVec.ofNat 32 n,
                pc := r.pc + 1 }

def tBound (h n : BitVec 4) : Nat := h.toNat * 16 + n.toNat + 1

def tLoopReg (k : BitVec 1) (a h n : BitVec 4) (e : BitVec 8) (r : HRun) : HRun :=
  if r.getT a > tBound h n then r.fail else tEnter k (r.getT a) e.toNat r

/-- tget and tpeek (R62). -/
def tRead (move : Bool) (d b : BitVec 4) (c : BitVec 1) (i : BitVec 13) (r : HRun) : HRun :=
  let n := r.src2 b c i
  if n > 32 || decide (r.ic + n > r.inBits) then r.fail
  else
    let v := r.inField r.ic n
    let r' := r.setT d v
    { r' with ic := if move then r.ic + n else r.ic }.next

def tSkip (b : BitVec 4) (c : BitVec 1) (i : BitVec 13) (r : HRun) : HRun :=
  let n := r.src2 b c i
  if r.ic + n > r.inBits then r.fail else { r with ic := r.ic + n }.next

def tAlignIn (k : BitVec 14) (r : HRun) : HRun :=
  let p := roundUp r.ic (2 ^ k.toNat)
  if p > r.inBits then r.fail else { r with ic := p }.next

def tAlignOut (k : BitVec 14) (r : HRun) : HRun := (r.emit (roundUp r.oc (2 ^ k.toNat) - r.oc) 0).next

def tOut (a b : BitVec 4) (c : BitVec 1) (i : BitVec 13) (r : HRun) : HRun :=
  let n := r.src2 b c i
  if n > 32 then r.fail else (r.emit n (r.getT a)).next

/-- tcopy (R63): a count, an alignment or an input error is counted; passing the output's end is an overflow. -/
def tCopy (b : BitVec 4) (c : BitVec 1) (i : BitVec 13) (r : HRun) : HRun :=
  let n := r.src2 b c i
  if n > 32 || r.ic % 8 != 0 || r.oc % 8 != 0 || decide (r.ic + 8 * n > r.inBits) then r.fail
  else
    let r' := r.emit (8 * n) (r.inField r.ic (8 * n))
    { r' with ic := r.ic + 8 * n }.next

/-- tfill (R63): only the output cursor must be byte-aligned, since the input is not touched. [DEDUCED 64] -/
def tFill (a b : BitVec 4) (c : BitVec 1) (i : BitVec 13) (r : HRun) : HRun :=
  let n := r.src2 b c i
  if n > 32 || r.oc % 8 != 0 then r.fail
  else (r.emit (8 * n) (leNat (List.replicate n (BitVec.ofNat 8 (r.getT a))))).next

def tTab (d a : BitVec 4) (b : BitVec 8) (r : HRun) : HRun :=
  match r.tabWord (r.getT a + b.toNat) with
  | none => r.fail
  | some w => (r.setT d w).next

/-- Bytes from position `p` equal to the byte there, up to the input's end. -/
def runLen (l : List Byte) : Nat :=
  match l with
  | [] => 0
  | b :: bs => 1 + (bs.takeWhile fun x => x == b).length

/-- Literal bytes before a run of `k`, at most `lim` (R65). -/
def litLen (k : Nat) : Nat → List Byte → Nat
  | 0, _ => 0
  | _, [] => 0
  | n + 1, b :: bs => if runLen (b :: bs) < k then 1 + litLen k n bs else 0

def tCnt (d a m : BitVec 4) (lim : BitVec 9) (r : HRun) : HRun :=
  if r.ic % 8 != 0 then r.fail
  else
    let l := r.inp.drop (r.ic / 8 + r.getT a)
    let v := if m = 0#4 then min lim.toNat (runLen l) else litLen m.toNat lim.toNat l
    (r.setT d v).next

/-- tvld's loop (R66): `k` symbols left, `o` bits taken, `n` symbols written. -/
def vldLoop (l base : Nat) : Nat → Nat → Nat → HRun → Nat × Nat × HRun
  | 0, o, n, r => (o, n, r)
  | k + 1, o, n, r =>
    if o < 64 then
      match r.tabHalf (base + (if o + l ≤ 72 then r.inField (r.ic + o) l else r.inField (r.ic + o) (72 - o))) with
      | none => (o, n, r.fail)
      | some e =>
        let len := bits e 15 12
        if len = 0 || len > l then (o, n, r.fail)
        else
          let r' := r.emit 8 (bits e 7 0)
          match r'.fin with
          | .running => vldLoop l base k (o + len) (n + 1) r'
          | _ => (o, n, r')
    else (o, n, r)

def tVld (d a : BitVec 4) (l : BitVec 4) (b : BitVec 9) (r : HRun) : HRun :=
  if r.oc % 8 != 0 then r.fail
  else
    let (o, n, r') := vldLoop l.toNat b.toNat (min 8 (r.getT a)) 0 0 r
    match r'.fin with
    | .running => if r.ic + o > r.inBits then r'.fail else ({ r' with ic := r.ic + o }.setT d n).next
    | _ => r'

/-- tvle's loop (R67). -/
def vleLoop (base : Nat) : Nat → Nat → HRun → Nat × HRun
  | 0, n, r => (n, r)
  | k + 1, n, r =>
    if r.ic < r.inBits then
      match r.tabHalf (base + r.inField r.ic 8) with
      | none => (n, r.fail)
      | some e =>
        let len := bits e 15 12
        if len = 0 || len > 12 then (n, r.fail)
        else
          let r' := r.emit len (e % 2 ^ len)
          match r'.fin with
          | .running => vleLoop base k (n + 1) { r' with ic := r'.ic + 8 }
          | _ => (n, r')
    else (n, r)

def tVle (d a : BitVec 4) (b : BitVec 9) (r : HRun) : HRun :=
  if r.ic % 8 != 0 then r.fail
  else
    let (n, r') := vleLoop b.toNat (min 8 (r.getT a)) 0 r
    match r'.fin with
    | .running => (r'.setT d n).next
    | _ => r'

def tEnd (r : HRun) : HRun := { r with fin := .tend }
def tFail (r : HRun) : HRun := { r with fin := .tfail }

/-- What one transducer instruction does to a run; an instruction of another set is a run error. -/
def tEffect (i : Instr) (r : HRun) : HRun :=
  match i with
  | .tnop => r.next
  | .tli d i => (r.setT d (wrapN 32 (sext 14 i.toNat))).next
  | .tmov d a => (r.setT d (r.getT a)).next
  | .tmovSel d s => (r.setT d (tSel r s)).next
  | .tadd d a b c i => tArith (· + ·) d a b c i r
  | .tsub d a b c i => tArith tSub d a b c i r
  | .tand d a b c i => tArith (· &&& ·) d a b c i r
  | .tor d a b c i => tArith (· ||| ·) d a b c i r
  | .txor d a b c i => tArith (· ^^^ ·) d a b c i r
  | .tshl d a b c i => tArith tShl d a b c i r
  | .tshr d a b c i => tArith tShr d a b c i r
  | .tcmp k a b c i => { r with c := tCond k.toNat (r.getT a) (r.src2 b c i) }.next
  | .tbr t => tBranch true t r
  | .tbrC t => tBranch r.c t r
  | .tbrNc t => tBranch (!r.c) t r
  | .tloop k h n e => tEnter k (tBound h n) e.toNat r
  | .tloopReg k a h n e => tLoopReg k a h n e r
  | .tget d b c i => tRead true d b c i r
  | .tpeek d b c i => tRead false d b c i r
  | .tout a b c i => tOut a b c i r
  | .tcopy b c i => tCopy b c i r
  | .tfill a b c i => tFill a b c i r
  | .ttab d a b => tTab d a b r
  | .tvld d a l b => tVld d a l b r
  | .tvle d a b => tVle d a b r
  | .tskip b c i => tSkip b c i r
  | .talignI k => tAlignIn k r
  | .talignO k => tAlignOut k r
  | .tcnt d a m l => tCnt d a m l r
  | .tend => tEnd r
  | .tfail => tFail r
  | _ => r.fail

/-! ## Whole runs -/

/-- One step of a run: a run that would pass 4,096 steps errs (R43). -/
def HRun.advance (f : HRun → HRun) (r : HRun) : HRun :=
  if r.steps ≥ 4096 then r.fail else f { r with steps := r.steps + 1 }

/-- The instruction a run is about to make; a pc past the end or an illegal word has none. -/
def HRun.instr? (r : HRun) : Option Instr :=
  match r.code[r.pc]? with
  | none => none
  | some w => match decodeTrans w with
    | .ok i => some i
    | .error _ => none

def HRun.go : Nat → HRun → HRun
  | 0, r => r
  | n + 1, r =>
    match r.fin with
    | .running =>
      match r.instr? with
      | none => r.fail
      | some i => HRun.go n (r.advance (tEffect i))
    | _ => r

/-- The start of a run (R42). -/
def HRun.start (code : List W32) (tab inp : List Byte) (outCap : Nat) : HRun :=
  { code := code, tab := tab, inp := inp, outCap := outCap,
    t := List.replicate 15 0#32 ++ [BitVec.ofNat 32 inp.length] }

/-- A run to its end. [DESIGN CHOICE 31] -/
def HRun.whole (r : HRun) : HRun := HRun.go 4097 r

/-- Bits to bytes, the last byte padded with zeros. -/
def bitsToBytes : Nat → List Bool → List Byte
  | 0, _ => []
  | n + 1, l =>
    BitVec.ofNat 8 ((List.range 8).foldl (fun acc j => if (l.getD j false) then acc + 2 ^ j else acc) 0) ::
      bitsToBytes n (l.drop 8)

/-- What an encoder run gives (R43, R44): the zero-padded sectors, or raw storage, counted as ENCERR or not. -/
inductive EncOutcome where
  | sectors (s : Nat) (data : List Byte)
  | raw (counted : Bool)
deriving DecidableEq, Repr

def HRun.encOutcome (r : HRun) : EncOutcome :=
  match r.fin with
  | .tend =>
    if r.oc ≤ 1792 then
      let s := max 1 ((r.oc + 255) / 256)
      .sectors s (bitsToBytes (32 * s) r.out)
    else .raw true
  | .tfail => .raw false
  | .error ovf => .raw (!ovf)
  | .running => .raw true

/-- What a decoder run gives: 256 bytes, or a decode error (R43). -/
def HRun.decOutcome (r : HRun) : Option (List Byte) :=
  match r.fin with
  | .tend => if r.oc = 2048 then some (bitsToBytes 256 r.out) else none
  | _ => none

/-! ## The verifier (R39 to R41) -/

/-- Result codes of R39. -/
def verOk : Nat := 0

def tInstrs (code : List W32) : List (Except DecodeError Instr) := code.map decodeTrans

def isTransOpcodeErr : Except DecodeError Instr → Bool
  | .error .transOpcode => true
  | _ => false

def isTransFieldErr : Except DecodeError Instr → Bool
  | .error .transOpcode => false
  | .error _ => true
  | .ok i => !i.wf

/-- The branch target of an instruction, if it is a branch. -/
def branchTarget : Except DecodeError Instr → Option Nat
  | .ok (.tbr t) => some t.toNat
  | .ok (.tbrC t) => some t.toNat
  | .ok (.tbrNc t) => some t.toNat
  | _ => none

/-- The loops of a transducer: index, counter, end, and whether the count comes from a register. -/
def loopsOf : Nat → List (Except DecodeError Instr) → List (Nat × Nat × Nat × Bool)
  | _, [] => []
  | h, x :: xs =>
    match x with
    | .ok (.tloop k _ _ e) => (h, k.toNat, e.toNat, false) :: loopsOf (h + 1) xs
    | .ok (.tloopReg k _ _ _ e) => (h, k.toNat, e.toNat, true) :: loopsOf (h + 1) xs
    | _ => loopsOf (h + 1) xs

def inBody (i : Nat) (l : Nat × Nat × Nat × Bool) : Bool := decide (l.1 < i ∧ i ≤ l.2.2.1)

/-- Branch rules of R40: inside the smallest body that contains the branch or one past its end, entering no body. -/
def branchOk (loops : List (Nat × Nat × Nat × Bool)) (i t : Nat) : Bool :=
  let around := loops.filter (inBody i)
  let leaveOk := match around.foldl (fun acc l => match acc with
      | none => some l
      | some m => if l.2.2.1 - l.1 < m.2.2.1 - m.1 then some l else some m) none with
    | none => true
    | some m => decide (m.1 < t ∧ t ≤ m.2.2.1 + 1)
  let enterOk := loops.all fun l => !inBody t l || inBody i l
  leaveOk && enterOk

/-- Nesting rules of R40 for two loops. -/
def nestPairOk (a b : Nat × Nat × Nat × Bool) : Bool :=
  if a.1 < b.1 then
    -- b begins after a: inside a's body with the other counter and an earlier end, or after it
    if b.1 ≤ a.2.2.1 then a.2.1 != b.2.1 && decide (b.2.2.1 < a.2.2.1) else true
  else true

def depthOk (loops : List (Nat × Nat × Nat × Bool)) : Bool :=
  loops.all fun l => decide ((loops.filter (inBody l.1)).length ≤ 1)

def endsRun : Except DecodeError Instr → Bool
  | .ok .tend => true
  | .ok .tfail => true
  | .ok (.tbr _) => true
  | _ => false

/-- Worst-case steps of instructions i to lim (R41); fuel bounds the recursion. -/
def worst (p : List (Except DecodeError Instr)) : Nat → Nat → Nat → Nat
  | 0, _, _ => 0
  | fuel + 1, i, lim =>
    if i > lim then 0
    else
      match p.getD i (.error .transOpcode) with
      | .ok .tend => 1
      | .ok .tfail => 1
      | .ok (.tloop _ h n e) => 1 + tBound h n * worst p fuel (i + 1) e.toNat + worst p fuel (e.toNat + 1) lim
      | .ok (.tloopReg _ _ h n e) => 1 + tBound h n * worst p fuel (i + 1) e.toNat + worst p fuel (e.toNat + 1) lim
      | .ok (.tbr t) => 1 + worst p fuel t.toNat lim
      | .ok (.tbrC t) => 1 + max (worst p fuel (i + 1) lim) (worst p fuel t.toNat lim)
      | .ok (.tbrNc t) => 1 + max (worst p fuel (i + 1) lim) (worst p fuel t.toNat lim)
      | _ => 1 + worst p fuel (i + 1) lim

def tabRefOk (tabLen : Nat) : Except DecodeError Instr → Bool
  | .ok (.ttab _ _ b) => decide (4 * (b.toNat + 1) ≤ tabLen)
  | .ok (.tvld _ _ l b) => decide (b.toNat + 2 ^ l.toNat ≤ tabLen / 2)
  | .ok (.tvle _ _ b) => decide (b.toNat + 256 ≤ tabLen / 2)
  | _ => true

/-- The result code of one transducer, the causes in the table's order (R39). -/
def verify1 (code : List W32) (tabLen : Nat) : Nat :=
  let p := tInstrs code
  let n := p.length
  let loops := loopsOf 0 p
  let idx := List.range n
  if n = 0 || decide (n > 256) || decide (tabLen > 1024) then 1
  else if p.any isTransOpcodeErr then 2
  else if p.any isTransFieldErr then 3
  else if idx.any (fun i => match branchTarget (p.getD i (.ok .tnop)) with
      | some t => decide (t ≤ i)
      | none => false) || loops.any (fun l => decide (l.2.2.1 ≤ l.1)) then 4
  else if idx.any (fun i => match branchTarget (p.getD i (.ok .tnop)) with
      | some t => decide (n ≤ t) || !branchOk loops i t
      | none => false) || loops.any (fun l => decide (n ≤ l.2.2.1)) then 5
  else if loops.any (fun a => loops.any fun b => !nestPairOk a b) || !depthOk loops then 6
  else if !endsRun (p.getD (n - 1) (.ok .tnop)) || loops.any (fun l => l.2.2.2 && l.2.2.1 == n - 1) then 7
  else if !p.all (tabRefOk tabLen) then 8
  else if worst p (n + 1) 0 (n - 1) > 4096 then 9
  else 0

end Sys2Proof.Machine
end

