-- ==== Sys2Proof/Machine/Crypto.lean ====
section
/-! DEFINITION. The ciphers and hashes that the spec names: AES-256 (R71), CMAC (R73), GCM (R84) and SHA-384 (R36), as
their public standards define them; the spec names the standards and does not restate them [PRESUMED 8]. Bytes are lists in the
order in which the standards write them. -/

namespace Sys2Proof.Machine

def aesSbox : List Nat :=
  [99, 124, 119, 123, 242, 107, 111, 197, 48, 1, 103, 43, 254, 215, 171, 118, 202, 130, 201, 125, 250, 89, 71, 240, 173, 212, 162, 175, 156, 164, 114, 192] ++
  [183, 253, 147, 38, 54, 63, 247, 204, 52, 165, 229, 241, 113, 216, 49, 21, 4, 199, 35, 195, 24, 150, 5, 154, 7, 18, 128, 226, 235, 39, 178, 117] ++
  [9, 131, 44, 26, 27, 110, 90, 160, 82, 59, 214, 179, 41, 227, 47, 132, 83, 209, 0, 237, 32, 252, 177, 91, 106, 203, 190, 57, 74, 76, 88, 207] ++
  [208, 239, 170, 251, 67, 77, 51, 133, 69, 249, 2, 127, 80, 60, 159, 168, 81, 163, 64, 143, 146, 157, 56, 245, 188, 182, 218, 33, 16, 255, 243, 210] ++
  [205, 12, 19, 236, 95, 151, 68, 23, 196, 167, 126, 61, 100, 93, 25, 115, 96, 129, 79, 220, 34, 42, 144, 136, 70, 238, 184, 20, 222, 94, 11, 219] ++
  [224, 50, 58, 10, 73, 6, 36, 92, 194, 211, 172, 98, 145, 149, 228, 121, 231, 200, 55, 109, 141, 213, 78, 169, 108, 86, 244, 234, 101, 122, 174, 8] ++
  [186, 120, 37, 46, 28, 166, 180, 198, 232, 221, 116, 31, 75, 189, 139, 138, 112, 62, 181, 102, 72, 3, 246, 14, 97, 53, 87, 185, 134, 193, 29, 158] ++
  [225, 248, 152, 17, 105, 217, 142, 148, 155, 30, 135, 233, 206, 85, 40, 223, 140, 161, 137, 13, 191, 230, 66, 104, 65, 153, 45, 15, 176, 84, 187, 22]

def sub8 (b : Byte) : Byte := BitVec.ofNat 8 (aesSbox.getD b.toNat 0)

def xtime (b : Byte) : Byte := (b <<< 1) ^^^ (if b.getLsbD 7 then 0x1b#8 else 0#8)

def xorBytes (a b : List Byte) : List Byte := List.zipWith (· ^^^ ·) a b

/-- The 60 words of the expanded key, each of four bytes; `n` more words, `i` the next word's number, the last eight
words latest first. -/
def aesExpand : Nat → Nat → Byte → List (List Byte) → List (List Byte)
  | 0, _, _, _ => []
  | n + 1, i, rc, last =>
    let prev := last.headD []
    let t :=
      if i % 8 = 0 then
        match (prev.drop 1 ++ prev.take 1).map sub8 with
        | b :: bs => (b ^^^ rc) :: bs
        | [] => []
      else if i % 8 = 4 then prev.map sub8
      else prev
    let w := xorBytes (last.getD 7 []) t
    w :: aesExpand n (i + 1) (if i % 8 = 0 then xtime rc else rc) (w :: last.take 7)

def chunks (k : Nat) : Nat → List Byte → List (List Byte)
  | 0, _ => []
  | n + 1, l => l.take k :: chunks k n (l.drop k)

def shiftRows (st : List Byte) : List Byte :=
  (List.range 16).map fun i => st.getD ((i + 4 * (i % 4)) % 16) 0#8

def mixColumn (c : List Byte) : List Byte :=
  let g (i : Nat) : Byte := c.getD (i % 4) 0#8
  (List.range 4).map fun i => xtime (g i) ^^^ (xtime (g (i + 1)) ^^^ g (i + 1)) ^^^ g (i + 2) ^^^ g (i + 3)

def mixColumns (st : List Byte) : List Byte := ((chunks 4 4 st).map mixColumn).flatten

def aesRounds : List (List Byte) → List Byte → List Byte
  | [], st => st
  | [k], st => xorBytes (shiftRows (st.map sub8)) k
  | k :: ks, st => aesRounds ks (xorBytes (mixColumns (shiftRows (st.map sub8))) k)

/-- One block under a 32-byte key. [PRESUMED 8] -/
def aesEncrypt (key blk : List Byte) : List Byte :=
  let kw := chunks 4 8 key
  let ws := kw ++ aesExpand 52 8 1#8 kw.reverse
  match chunks 16 15 ws.flatten with
  | k0 :: ks => aesRounds ks (xorBytes blk k0)
  | [] => blk

def invSub8 (b : Byte) : Byte := BitVec.ofNat 8 (aesSbox.idxOf b.toNat)

def invShiftRows (st : List Byte) : List Byte :=
  (List.range 16).map fun i => st.getD ((i + 12 * (i % 4)) % 16) 0#8

def mul8 (b : Byte) (k : Nat) : Byte :=
  let b2 := xtime b
  let b4 := xtime b2
  let b8 := xtime b4
  (if k.testBit 0 then b else 0#8) ^^^ (if k.testBit 1 then b2 else 0#8) ^^^ (if k.testBit 2 then b4 else 0#8) ^^^
    (if k.testBit 3 then b8 else 0#8)

def invMixColumn (c : List Byte) : List Byte :=
  let g (i : Nat) : Byte := c.getD (i % 4) 0#8
  (List.range 4).map fun i => mul8 (g i) 14 ^^^ mul8 (g (i + 1)) 11 ^^^ mul8 (g (i + 2)) 13 ^^^ mul8 (g (i + 3)) 9

def aesInvRounds : List (List Byte) → List Byte → List Byte
  | [], st => st
  | [k], st => xorBytes ((invShiftRows st).map invSub8) k
  | k :: ks, st =>
    let u := xorBytes ((invShiftRows st).map invSub8) k
    aesInvRounds ks (((chunks 4 4 u).map invMixColumn).flatten)

def aesDecrypt (key blk : List Byte) : List Byte :=
  let kw := chunks 4 8 key
  let ws := kw ++ aesExpand 52 8 1#8 kw.reverse
  match (chunks 16 15 ws.flatten).reverse with
  | k14 :: ks => aesInvRounds ks (xorBytes blk k14)
  | [] => blk

/-- Bytes of a 256-bit key, the lowest first (R3). -/
def keyBytes (k : BitVec 256) : List Byte := leBytes 32 k.toNat

/-! ## Big-endian numbers -/

def beNat (l : List Byte) : Nat := leNat l.reverse
def beBytes (n v : Nat) : List Byte := (leBytes n v).reverse

/-! ## CMAC -/

def cmacDouble (b : List Byte) : List Byte :=
  let v := beNat b
  let d := (2 * v) % 2 ^ 128
  beBytes 16 (if v.testBit 127 then d ^^^ 0x87 else d)

def cmacLoop (key k1 k2 : List Byte) : Nat → List Byte → List Byte → List Byte
  | 0, acc, _ => acc
  | n + 1, acc, msg =>
    if msg.length ≤ 16 then
      let last := if msg.length = 16 then xorBytes msg k1
        else xorBytes (msg ++ [0x80#8] ++ List.replicate (15 - msg.length) 0#8) k2
      aesEncrypt key (xorBytes acc last)
    else cmacLoop key k1 k2 n (aesEncrypt key (xorBytes acc (msg.take 16))) (msg.drop 16)

def cmac (key msg : List Byte) : List Byte :=
  let k1 := cmacDouble (aesEncrypt key (List.replicate 16 0#8))
  cmacLoop key k1 (cmacDouble k1) (msg.length / 16 + 1) (List.replicate 16 0#8) msg

/-! ## GCM -/

/-- Product in GF(2^128) with GCM's bit order: `n` bits of `x` left to take from its top, `v` the running multiple. -/
def gmul : Nat → Nat → Nat → Nat → Nat
  | 0, _, _, z => z
  | n + 1, x, v, z =>
    gmul n x (if v % 2 = 1 then (v / 2) ^^^ (0xe1 * 2 ^ 120) else v / 2) (if x.testBit n then z ^^^ v else z)

def ghash (h : Nat) : Nat → Nat → List Byte → Nat
  | 0, acc, _ => acc
  | n + 1, acc, l =>
    let blk := (l.take 16) ++ List.replicate (16 - (l.take 16).length) 0#8
    ghash h n (gmul 128 (acc ^^^ beNat blk) h 0) (l.drop 16)

def pad16 (l : List Byte) : List Byte := l ++ List.replicate ((16 - l.length % 16) % 16) 0#8

/-- The key stream applied to a message, from counter `c`. -/
def gctr (key nonce : List Byte) : Nat → Nat → List Byte → List Byte
  | 0, _, _ => []
  | n + 1, c, l =>
    xorBytes (l.take 16) (aesEncrypt key (nonce ++ beBytes 4 c)) ++ gctr key nonce n (c + 1) (l.drop 16)

def gcmTag (key nonce aad ct : List Byte) : List Byte :=
  let h := beNat (aesEncrypt key (List.replicate 16 0#8))
  let msg := pad16 aad ++ pad16 ct ++ beBytes 8 (8 * aad.length) ++ beBytes 8 (8 * ct.length)
  xorBytes (beBytes 16 (ghash h (msg.length / 16) 0 msg)) (aesEncrypt key (nonce ++ beBytes 4 1))

/-- Ciphertext and tag of a message under a 12-byte nonce. [PRESUMED 8] -/
def gcmSeal (key nonce aad pt : List Byte) : List Byte × List Byte :=
  let ct := gctr key nonce ((pt.length + 15) / 16) 2 pt
  (ct, gcmTag key nonce aad ct)

/-- The plaintext where the tag agrees. [PRESUMED 8] -/
def gcmOpen (key nonce aad ct tag : List Byte) : Option (List Byte) :=
  if gcmTag key nonce aad ct = tag then some (gctr key nonce ((ct.length + 15) / 16) 2 ct) else none

/-! ## SHA-384 -/

def shaK : List W64 :=
  [0x428a2f98d728ae22#64, 0x7137449123ef65cd#64, 0xb5c0fbcfec4d3b2f#64, 0xe9b5dba58189dbbc#64] ++
  [0x3956c25bf348b538#64, 0x59f111f1b605d019#64, 0x923f82a4af194f9b#64, 0xab1c5ed5da6d8118#64] ++
  [0xd807aa98a3030242#64, 0x12835b0145706fbe#64, 0x243185be4ee4b28c#64, 0x550c7dc3d5ffb4e2#64] ++
  [0x72be5d74f27b896f#64, 0x80deb1fe3b1696b1#64, 0x9bdc06a725c71235#64, 0xc19bf174cf692694#64] ++
  [0xe49b69c19ef14ad2#64, 0xefbe4786384f25e3#64, 0x0fc19dc68b8cd5b5#64, 0x240ca1cc77ac9c65#64] ++
  [0x2de92c6f592b0275#64, 0x4a7484aa6ea6e483#64, 0x5cb0a9dcbd41fbd4#64, 0x76f988da831153b5#64] ++
  [0x983e5152ee66dfab#64, 0xa831c66d2db43210#64, 0xb00327c898fb213f#64, 0xbf597fc7beef0ee4#64] ++
  [0xc6e00bf33da88fc2#64, 0xd5a79147930aa725#64, 0x06ca6351e003826f#64, 0x142929670a0e6e70#64] ++
  [0x27b70a8546d22ffc#64, 0x2e1b21385c26c926#64, 0x4d2c6dfc5ac42aed#64, 0x53380d139d95b3df#64] ++
  [0x650a73548baf63de#64, 0x766a0abb3c77b2a8#64, 0x81c2c92e47edaee6#64, 0x92722c851482353b#64] ++
  [0xa2bfe8a14cf10364#64, 0xa81a664bbc423001#64, 0xc24b8b70d0f89791#64, 0xc76c51a30654be30#64] ++
  [0xd192e819d6ef5218#64, 0xd69906245565a910#64, 0xf40e35855771202a#64, 0x106aa07032bbd1b8#64] ++
  [0x19a4c116b8d2d0c8#64, 0x1e376c085141ab53#64, 0x2748774cdf8eeb99#64, 0x34b0bcb5e19b48a8#64] ++
  [0x391c0cb3c5c95a63#64, 0x4ed8aa4ae3418acb#64, 0x5b9cca4f7763e373#64, 0x682e6ff3d6b2b8a3#64] ++
  [0x748f82ee5defb2fc#64, 0x78a5636f43172f60#64, 0x84c87814a1f0ab72#64, 0x8cc702081a6439ec#64] ++
  [0x90befffa23631e28#64, 0xa4506cebde82bde9#64, 0xbef9a3f7b2c67915#64, 0xc67178f2e372532b#64] ++
  [0xca273eceea26619c#64, 0xd186b8c721c0c207#64, 0xeada7dd6cde0eb1e#64, 0xf57d4f7fee6ed178#64] ++
  [0x06f067aa72176fba#64, 0x0a637dc5a2c898a6#64, 0x113f9804bef90dae#64, 0x1b710b35131c471b#64] ++
  [0x28db77f523047d84#64, 0x32caab7b40c72493#64, 0x3c9ebe0a15c9bebc#64, 0x431d67c49c100d4c#64] ++
  [0x4cc5d4becb3e42b6#64, 0x597f299cfc657e2a#64, 0x5fcb6fab3ad6faec#64, 0x6c44198c4a475817#64]

def shaH0 : List W64 :=
  [0xcbbb9d5dc1059ed8#64, 0x629a292a367cd507#64, 0x9159015a3070dd17#64, 0x152fecd8f70e5939#64] ++
  [0x67332667ffc00b31#64, 0x8eb44a8768581511#64, 0xdb0c2e0d64f98fa7#64, 0x47b5481dbefa4fa4#64]

def rotr (x : W64) (n : Nat) : W64 := x.rotateRight n

/-- The message schedule: `n` more words from the last sixteen, latest first. -/
def shaSchedule : Nat → List W64 → List W64
  | 0, _ => []
  | n + 1, last =>
    let w15 := last.getD 14 0#64
    let w2 := last.getD 1 0#64
    let s0 := rotr w15 1 ^^^ rotr w15 8 ^^^ (w15 >>> 7)
    let s1 := rotr w2 19 ^^^ rotr w2 61 ^^^ (w2 >>> 6)
    let w := last.getD 15 0#64 + s0 + last.getD 6 0#64 + s1
    w :: shaSchedule n (w :: last.take 15)

def shaRound (h : List W64) (kw : W64 × W64) : List W64 :=
  match h with
  | [a, b, c, d, e, f, g, k] =>
    let s1 := rotr e 14 ^^^ rotr e 18 ^^^ rotr e 41
    let ch := (e &&& f) ^^^ (~~~e &&& g)
    let t1 := k + s1 + ch + kw.1 + kw.2
    let s0 := rotr a 28 ^^^ rotr a 34 ^^^ rotr a 39
    let mj := (a &&& b) ^^^ (a &&& c) ^^^ (b &&& c)
    [t1 + s0 + mj, a, b, c, d + t1, e, f, g]
  | l => l

def shaBlock (h : List W64) (blk : List Byte) : List W64 :=
  let w0 := (chunks 8 16 blk).map fun b => BitVec.ofNat 64 (beNat b)
  let w := w0 ++ shaSchedule 64 w0.reverse
  List.zipWith (· + ·) h ((List.zip shaK w).foldl shaRound h)

/-- The 48-byte digest. [PRESUMED 8] -/
def sha384 (msg : List Byte) : List Byte :=
  let z := (128 - (msg.length + 17) % 128) % 128
  let m := msg ++ [0x80#8] ++ List.replicate z 0#8 ++ beBytes 16 (8 * msg.length)
  let h := (chunks 128 (m.length / 128) m).foldl shaBlock shaH0
  ((h.take 6).map fun w => beBytes 8 w.toNat).flatten

/-! ## HMAC and HKDF-Expand over SHA-384 (R114), for keys of at most one hash block -/

def hmac384 (key msg : List Byte) : List Byte :=
  let k := key ++ List.replicate (128 - key.length) 0#8
  sha384 (k.map (· ^^^ 0x5c#8) ++ sha384 (k.map (· ^^^ 0x36#8) ++ msg))

/-- The first `n` bytes of an expansion, n at most 48. [PRESUMED 8] -/
def hkdfExpand (prk info : List Byte) (n : Nat) : List Byte := (hmac384 prk (info ++ [1#8])).take n

end Sys2Proof.Machine
end

