-- ==== Sys2Proof/Machine/Ops.lean ====
section
/-! DEFINITION. Named operations over the state: reading and changing one part of it, memory as a canonical list, free
values, the event log, the call ring, and the ONE way a block takes a fault (R205 to R211) and leaves it again (R210). -/

namespace Sys2Proof.Machine

/-! ## Memory in canonical form -/

/-- Addresses strictly rising and no byte equal to what an unlisted address reads as. -/
def Memory.wf : Memory → Bool
  | [] => true
  | (_, b) :: [] => b != Memory.unlisted
  | (a, b) :: (a', b') :: m => b != Memory.unlisted && decide (a < a') && Memory.wf ((a', b') :: m)

def Memory.read (m : Memory) (a : Nat) : Byte := AMap.getD m a Memory.unlisted

def Memory.write (m : Memory) (a : Nat) (b : Byte) : Memory :=
  if b = Memory.unlisted then AMap.erase m a else AMap.set m a b

def Memory.readBytes (m : Memory) (a n : Nat) : List Byte := (List.range n).map fun i => m.read (a + i)

def Memory.writeBytes (m : Memory) (a : Nat) : List Byte → Memory
  | [] => m
  | b :: bs => Memory.writeBytes (m.write a b) (a + 1) bs

/-! ## Faults as values -/

/-- A fault about to be raised: its code (R208), the fault address, the detail byte, and whether firmware services it
(R209). -/
structure Flt where
  code : BitVec 8
  addr : W64 := 0#64
  detail : BitVec 8 := 0#8
  service : Bool := false
deriving DecidableEq, Repr

/-- A computation over the state that may meet a fault; what it changed before the fault stays changed. -/
abbrev M (α : Type) := ExceptT Flt (StateM State) α

def M.fail {α : Type} (f : Flt) : M α := throw f

/-! ## Fault codes (R208) -/

def fcBadOpcode : BitVec 8 := 0x01#8
def fcBadOperand : BitVec 8 := 0x02#8
def fcBadMood : BitVec 8 := 0x03#8
def fcBadTarget : BitVec 8 := 0x04#8
def fcMisalign : BitVec 8 := 0x05#8
def fcPageFault : BitVec 8 := 0x06#8
def fcProtection : BitVec 8 := 0x07#8
def fcMacFail : BitVec 8 := 0x08#8
def fcUncorr : BitVec 8 := 0x09#8
def fcUninit : BitVec 8 := 0x0a#8
def fcUnwaited : BitVec 8 := 0x0b#8
def fcNoShuttle : BitVec 8 := 0x0c#8
def fcQuota : BitVec 8 := 0x0d#8
def fcQuotaDeadlock : BitVec 8 := 0x0e#8
def fcDiverge : BitVec 8 := 0x0f#8
def fcAccFull : BitVec 8 := 0x10#8
def fcBadHandle : BitVec 8 := 0x11#8
def fcRemoteKey : BitVec 8 := 0x12#8
def fcCodecDecode : BitVec 8 := 0x13#8
def fcCodecFit : BitVec 8 := 0x14#8
def fcRecQueue : BitVec 8 := 0x15#8
def fcDepth : BitVec 8 := 0x16#8
def fcScratch : BitVec 8 := 0x17#8
def fcTrap : BitVec 8 := 0x18#8
def fcBrk : BitVec 8 := 0x19#8
def fcPreempt : BitVec 8 := 0x1a#8
def fcCancel : BitVec 8 := 0x1b#8
def fcWeft : BitVec 8 := 0x1c#8
def fcTargetGone : BitVec 8 := 0x1d#8
def fcBadWeight : BitVec 8 := 0x1e#8
def fcStaleKey : BitVec 8 := 0x1f#8

/-! ## Parts of the state -/

namespace State

def world? (s : State) (w : Nat) : Option World := AMap.get? s.worlds w
def updWorld (s : State) (w : Nat) (f : World → World) : State := { s with worlds := AMap.modify s.worlds w f }
def block? (s : State) (b : Nat) : Option Block := AMap.get? s.blocks b
def updBlock (s : State) (b : Nat) (f : Block → Block) : State := { s with blocks := AMap.modify s.blocks b f }
def warp? (s : State) (b w : Nat) : Option Warp :=
  match s.block? b with
  | some k => AMap.get? k.warps w
  | none => none
def updWarp (s : State) (b w : Nat) (f : Warp → Warp) : State :=
  s.updBlock b fun k => { k with warps := AMap.modify k.warps w f }
def split? (s : State) (b w p : Nat) : Option Split :=
  match s.warp? b w with
  | some x => AMap.get? x.active p
  | none => none
def updSplit (s : State) (b w p : Nat) (f : Split → Split) : State :=
  s.updWarp b w fun x => { x with active := AMap.modify x.active p f }
def updWeft (s : State) (b : Nat) (f : Weft → Weft) : State := s.updBlock b fun k => { k with weft := k.weft.map f }
def ctx? (s : State) (w c : Nat) : Option Ctx :=
  match s.world? w with
  | some x => AMap.get? x.ctxs c
  | none => none
def updCtx (s : State) (w c : Nat) (f : Ctx → Ctx) : State :=
  s.updWorld w fun x => { x with ctxs := AMap.modify x.ctxs c f }
def queue? (s : State) (w q : Nat) : Option Queue :=
  match s.world? w with
  | some x => AMap.get? x.queues q
  | none => none
def updQueue (s : State) (w q : Nat) (f : Queue → Queue) : State :=
  s.updWorld w fun x => { x with queues := AMap.modify x.queues q f }
def updSlot (s : State) (w k : Nat) (f : PairSlot → PairSlot) : State :=
  s.updWorld w fun x => { x with slots := AMap.set x.slots k (f (AMap.getD x.slots k {})) }
def slotOf (s : State) (w k : Nat) : PairSlot :=
  match s.world? w with
  | some x => AMap.getD x.slots k {}
  | none => {}
def quarter (s : State) (q : Nat) : Quarter := AMap.getD s.quarters q {}
def updQuarter (s : State) (q : Nat) (f : Quarter → Quarter) : State :=
  { s with quarters := AMap.set s.quarters q (f (s.quarter q)) }
def updPort (s : State) (c : Nat) (f : Port → Port) : State :=
  { s with ports := AMap.set s.ports c (f (AMap.getD s.ports c {})) }
def send (s : State) (m : OutMsg) : State := { s with outbox := s.outbox ++ [m] }

/-- A feature of the world's accepted word (R113). World 0, the firmware's, is not negotiated and has every feature. [DESIGN CHOICE 66] -/
def feature (s : State) (w n : Nat) : Bool :=
  match s.world? w with
  | some x => x.featDrv.getLsbD n
  | none => w == 0

def confidential (s : State) (w : Nat) : Bool :=
  match s.world? w with
  | some x => x.conf
  | none => false

/-! ### Free values: each draw takes the next number -/

def drawWord (s : State) : W64 × State := (Config.word s.freeCnt, { s with freeCnt := s.freeCnt + 1 })
def drawCoin (s : State) : Bool × State := (Config.coin s.freeCnt, { s with freeCnt := s.freeCnt + 1 })
def drawBytes (s : State) (n : Nat) : List Byte × State :=
  ((Config.bytes s.freeCnt n).take n ++ List.replicate (n - (Config.bytes s.freeCnt n).length) 0#8,
   { s with freeCnt := s.freeCnt + 1 })

/-! ### Links and planes (R85, R86) -/

/-- Ports of a device. -/
def portCount : Nat := 36

/-- Frames after which a direction needs fresh keys. [DESIGN CHOICE 62] -/
def frameLimit : Nat := 2 ^ 40

def updLink (s : State) (p : Nat) (f : Link → Link) : State :=
  if p < portCount then { s with links := AMap.set s.links p (f (AMap.getD s.links p {})) } else s

def linkAt (s : State) (p : Nat) : Link := AMap.getD s.links p {}

/-- The planes in the hash: those whose links are up. -/
def upPlanes (s : State) : List Nat := (List.range portCount).filter fun p => (s.linkAt p).up

/-- The plane of a target block, by its hash; none while every link is down. -/
def planeAt (s : State) (h : Nat) : Option Nat := s.upPlanes[h % s.upPlanes.length]?

/-- A link goes down: its plane leaves the hash, what was in flight on it is sent again on another plane, and every
collective of this device has a member whose link is down (R85, R94). [DESIGN CHOICE 62] -/
def downLink (s : State) (p : Nat) : State :=
  let s1 := s.updLink p fun l => { l with up := false, fails := 0 }
  let move (x : Nat × Nat) : Nat × Nat := if x.1 = p then ((s1.planeAt x.2).getD p, x.2) else x
  { s1 with planes := AMap.mapVals s1.planes move
            colls := AMap.mapVals s1.colls fun c => { c with linkDown := c.linkDown <|> some s1.now } }.send (.frameResend p)

/-- A frame goes out on a plane; a direction that reaches its last frame goes down (R86). -/
def frameOut (s : State) (p : Nat) : State :=
  let s1 := s.updLink p fun l => { l with txFrames := l.txFrames + 1 }
  if frameLimit ≤ (s1.linkAt p).txFrames then s1.downLink p else s1

/-- A request or an answer leaves on the plane of its target block. -/
def onPlane (s : State) (va : W64) : State :=
  match s.planeAt (Config.planeHash (va.toNat / 256)) with
  | some p => s.frameOut p
  | none => s

/-! ### The event log (R99) -/

/-- Block writes in progress under a pair slot: the heddle runs that encode one, or check it (R38). -/
def heddleWrites (s : State) (w k : Nat) : Nat :=
  ((s.heddle.toList ++ s.heddles ++ s.runq).filter fun r => r.world == w && r.slot == k && r.purpose != .decode).length

def logEvent (s : State) (w : Nat) (addr : W64) (code detail : BitVec 8) : State :=
  s.updWorld w fun x => { x with evRing := AMap.set x.evRing (x.evCount % 256) (addr, code, detail), evCount := x.evCount + 1 }

/-- The bytes of the event log at an offset, from the device's own copies (R38, R99). The table of R99 ends at 0x2100; the
rest of the 16 KiB reads as zero. [DESIGN CHOICE 63] -/
def evlogWord (s : State) (w off8 : Nat) : Nat :=
  match s.world? w with
  | none => 0
  | some x =>
    if off8 < 512 then
      let sl := AMap.getD x.slots (off8 / 2) {}
      if off8 % 2 = 0 then sl.mismatch + sl.st * 2 ^ 8 + sl.encErr * 2 ^ 16 + ((sl.refs + s.heddleWrites w (off8 / 2)) % 2 ^ 32) * 2 ^ 32
      else sl.decErr * 2 ^ 32
    else if off8 = 512 then x.macerr
    else if off8 = 513 then x.refused
    else if off8 = 514 then x.evCount
    else if 544 ≤ off8 ∧ off8 < 1056 then
      match AMap.get? x.evRing ((off8 - 544) / 2) with
      | none => 0
      | some (a, c, d) => if off8 % 2 = 0 then a.toNat else c.toNat + 256 * d.toNat
    else 0

def evlogByte (s : State) (w off : Nat) : Byte := BitVec.ofNat 8 (s.evlogWord w (off / 8) / 256 ^ (off % 8))

/-! ### Packets (R132) -/

/-- Packet status codes (R132). -/
def pcOk : BitVec 8 := 0x00#8
def pcBadPacket : BitVec 8 := 0x01#8
def pcSkipped : BitVec 8 := 0x02#8
def pcAborted : BitVec 8 := 0x03#8
def pcFault : BitVec 8 := 0x04#8
def pcUncertain : BitVec 8 := 0x05#8
def pcQueueLost : BitVec 8 := 0x06#8
def pcIfaceError : BitVec 8 := 0x07#8
def pcFeatureOff : BitVec 8 := 0x08#8
def pcBadBind : BitVec 8 := 0x09#8
def pcTidEnd : BitVec 8 := 0x0a#8
def pcVersionEnd : BitVec 8 := 0x0b#8
def pcPairBusy : BitVec 8 := 0x0c#8
def pcVerify : BitVec 8 := 0x0d#8
def pcDesync : BitVec 8 := 0x0e#8
def pcCancelled : BitVec 8 := 0x0f#8
def pcNoRoom : BitVec 8 := 0x10#8
def pcBadQueue : BitVec 8 := 0x11#8

/-- A packet of a queue gets its result; the completion step writes it. -/
def completePkt (s : State) (w q no : Nat) (code detail : BitVec 8) : State :=
  s.updQueue w q fun x => { x with started := x.started.map fun p =>
    if p.no = no && p.result.isNone then { p with result := some (code, detail) } else p }

/-- The slot of a packet that has started. -/
def slotNo (s : State) (w q no : Nat) : Nat :=
  match s.queue? w q with
  | some x => match x.started.find? fun p => p.no == no with
    | some p => p.idx
    | none => 0
  | none => 0

/-! ### Tensor records (R30, R31, R106) -/

def record? (s : State) (w c i : Nat) : Option TRec :=
  match s.ctx? w c with
  | none => none
  | some x => if i = 0 ∨ x.nrec ≤ i then none else some (AMap.getD x.recs i {})

end State

namespace TRec
def tid (r : TRec) : Nat := bits r.w0.toNat 63 40
def version (r : TRec) : Nat := bits r.w0.toNat 39 24
def pair (r : TRec) : Nat := bits r.w0.toNat 23 16
def codec (r : TRec) : Bool := r.w0.getLsbD 15
def fixc (r : TRec) : Nat := bits r.w0.toNat 14 12
def encrypt (r : TRec) : Bool := r.w0.getLsbD 11
def exportBit (r : TRec) : Bool := r.w0.getLsbD 10
def sweep (r : TRec) : Bool := r.w0.getLsbD 9
def valid (r : TRec) : Bool := r.w0.getLsbD 8
def rmt (r : TRec) : Bool := r.w0.getLsbD 7
def base (r : TRec) : Nat := bits r.w2.toNat 56 16 * 2 ^ 16
def pages (r : TRec) : Nat := bits r.w3.toNat 63 40
def sweepPtr (r : TRec) : Nat := bits r.w3.toNat 39 0
def tbase (r : TRec) : Nat := bits r.w3.toNat 39 0 * 2 ^ 16
end TRec

/-- Replace bits [hi:lo] of a word. -/
def setField (w : W64) (hi lo v : Nat) : W64 :=
  BitVec.ofNat 64 (w.toNat - bits w.toNat hi lo * 2 ^ lo + v % 2 ^ (hi + 1 - lo) * 2 ^ lo)

/-- Whether the device may move data to or from `n` bytes of host memory for a world: of a confidential world, only where one
shared range of its bindings backs them all (R98). [DEDUCED 57] -/
def World.shares (x : World) (a n : Nat) : Bool :=
  !x.conf || x.ranges.any fun r => r.2.attr % 2 == 1 && decide (r.2.host.toNat ≤ a ∧ a + n ≤ r.2.host.toNat + r.2.len.toNat)

/-! ## The call ring (R217, R218) -/

namespace State

/-- Writes waiting records while the ring has room, the oldest first; `n` bounds the number. -/
def flushRing : Nat → Nat → State → State
  | 0, _, s => s
  | n + 1, w, s =>
    match s.world? w with
    | none => s
    | some x =>
      match x.reports with
      | [] => s
      | r :: rs =>
        if x.crbase = 0#64 ∨ x.crhead - x.crtail = BitVec.ofNat 32 (2 ^ x.crlog2n) ∨
            x.shares (x.crbase.toNat + 64 * (x.crhead.toNat % 2 ^ x.crlog2n)) 64 = false then s
        else
          let pos := x.crbase.toNat + 64 * (x.crhead.toNat % 2 ^ x.crlog2n)
          let s1 := s.updWorld w fun x => { x with reports := rs, crhead := x.crhead + 1#32 }
          flushRing n w { s1 with hostMem := s.hostMem.writeBytes pos r }

def satInc (v : W64) : W64 := if v = BitVec.allOnes 64 then v else v + 1#64

/-- An exit report: dropped and counted where there is no ring or 64 wait already (R218, R219). -/
def pushReport (s : State) (w : Nat) (r : List Byte) : State :=
  match s.world? w with
  | none => s
  | some x =>
    if x.crbase = 0#64 ∨ 64 ≤ (x.reports.filter fun q => q.headD 0#8 == 2#8).length then
      s.updWorld w fun x => { x with crlost := satInc x.crlost }
    else flushRing 4096 w (s.updWorld w fun x => { x with reports := x.reports ++ [r] })

/-- A trap or breakpoint record waits without bound. -/
def pushTrap (s : State) (w : Nat) (r : List Byte) : State :=
  flushRing 4096 w (s.updWorld w fun x => { x with reports := x.reports ++ [r] })

/-- Queue and ring slot of the packet that a block belongs to. -/
def packetOf (s : State) (k : Block) : Nat × Nat :=
  match k.launch, k.graph with
  | some l, _ => match AMap.get? s.launches l with
    | some x => (x.queue, s.slotNo k.world x.queue x.pkt)
    | none => (0, 0)
  | none, some g => match AMap.get? s.graphs g with
    | some x => (x.queue, s.slotNo k.world x.queue x.pkt)
    | none => (0, 0)
  | none, none => (0, 0)

/-- The 64 bytes of a call-ring record (R218). -/
def ringRecord (s : State) (k : Block) (kind : Nat) (code detail : BitVec 8) (wid fmask : Nat) (pc addr : W64)
    (token : BitVec 32) : List Byte :=
  let (q, slot) := s.packetOf k
  [BitVec.ofNat 8 kind, code, BitVec.ofNat 8 k.world, detail] ++ leBytes 2 q ++ leBytes 2 slot ++
    leBytes 4 k.bid.toNat ++ [if k.graph.isSome then BitVec.ofNat 8 k.node else 0xff#8, BitVec.ofNat 8 wid] ++
    leBytes 2 fmask ++ leBytes 8 pc.toNat ++ leBytes 8 addr.toNat ++ leBytes 4 token.toNat ++ List.replicate 28 0#8

/-- The SCRATCH reports of a block's warps (R200, R211). -/
def scratchReports (s : State) (k : Block) : State :=
  k.warps.foldl (fun s p =>
    if p.2.faultMask = 0#16 then s
    else s.pushReport k.world (s.ringRecord k 2 fcScratch 0#8 p.1 p.2.faultMask.toNat p.2.switchPc p.2.switchAddr 0#32)) s

/-- The completion code that a terminated block leaves in its launch or graph: the first one recorded (R211). -/
def noteFault (s : State) (k : Block) (code : BitVec 8) : State :=
  match k.launch, k.graph with
  | some l, _ => { s with launches := AMap.modify s.launches l fun x => { x with fault := x.fault <|> some code } }
  | none, some g =>
    let mark (x : Graph) : Graph :=
      let first := !x.flags.testBit 4
      { x with flags := x.flags ||| 16, firstFault := if first then code else x.firstFault,
               due := 0 :: x.due, firstErr := x.firstErr <|> some code }
    { s with graphs := AMap.modify s.graphs g mark }
  | none, none => s

/-- Termination without a save (R211, R221, R144): one exit report, the scratch reports, and the block stops for good.
A fault also marks its launch or graph; a cancel or an ERROR termination does not. -/
def terminate (s : State) (b : Nat) (f : FaultRec) (mark : Bool) : State :=
  match s.block? b with
  | none => s
  | some k =>
    if k.run = .ended then s
    else
      let s1 := s.pushReport k.world (s.ringRecord k 2 f.code f.detail f.wid 0 f.pc f.addr 0#32)
      let s2 := s1.scratchReports k
      let s3 := if mark then s2.noteFault k f.code else s2
      s3.updBlock b fun k => { k with run := .ended, term := some f.code, faults := k.faults ++ [f] }

/-! ## Taking a fault (R205 to R211) -/

/-- The siblings of a faulting warp: each has either nothing in progress, or an instruction that it may still complete
(a skid of 1); which of the two is free. A warp whose splits are all parked has nothing in progress. In deterministic mode nothing else is in flight (R226). [DESIGN CHOICE 19] -/
def haltSiblings (s : State) (b w : Nat) (determ : Bool) : State :=
  match s.block? b with
  | none => s
  | some k =>
    k.warps.foldl (fun s p =>
      if p.1 = w ∨ determ ∨ !(p.2.active.any fun q => q.2.park == .ready) then
        s.updWarp b p.1 fun x => { x with skid := 0, due := false }
      else
        let (c, s') := s.drawCoin
        s'.updWarp b p.1 fun x => { x with skid := 0, due := c }) s

/-- The ONE way a lane or weft fault is taken: the record, the halt of the whole block, and for a final fault the
termination (R205, R207, R209, R211). `wid` is 255 for the weft sequencer. A fault of a skid instruction only adds its
record unless it is final. -/
def raiseFault (s : State) (b wid : Nat) (pc : W64) (f : Flt) : State :=
  match s.block? b with
  | none => s
  | some k =>
    let r : FaultRec := { code := f.code, wid := wid, pc := pc, addr := f.addr, detail := f.detail,
                          skid := decide (k.run ≠ .running) }
    if f.service then
      let first := decide (k.run = .running)
      let s1 := s.updBlock b fun k => { k with faults := k.faults ++ [r], service := k.service <|> some f.addr
                                               haltedAt := if first then s.now else k.haltedAt
                                               run := if k.saveFault || k.run == .saving then .saving else .halted }
      if k.run = .running then s1.haltSiblings b wid k.determ else s1
    else
      -- the exit report carries the block's first fault, which a skid fault never is (R207)
      let first := k.faults.headD r
      s.terminate b first true

/-- The halt that begins a save (R221, R222): the warp `w` that caused it is at rest, the others have a skid. [DEDUCED 44] -/
def beginSave (s : State) (b w : Nat) : State :=
  match s.block? b with
  | none => s
  | some k =>
    match k.run with
    | .running => (s.updBlock b fun k => { k with run := .saving, haltedAt := s.now }).haltSiblings b w k.determ
    | .halted => s.updBlock b fun k => { k with run := .saving }
    | .broken _ => s.updBlock b fun k => { k with run := .saving }
    | _ => s

/-- A 32-bit token that no parked trap or breakpoint holds (R219, R375). -/
def freshToken (s : State) : BitVec 32 × State :=
  let held := s.blocks.flatMap fun p => p.2.warps.flatMap fun x => (x.2.active.map Prod.snd ++ x.2.pending).filterMap
    fun q => match q.park with
      | .trap t => some t.toNat
      | _ => none
  let (v, s1) := s.drawWord
  let start := v.toNat % 2 ^ 32
  let pick := ((List.range (held.length + 1)).map fun i => (start + i) % 2 ^ 32).find? fun t => !held.contains t
  (BitVec.ofNat 32 (pick.getD start), s1)

/-- The return from a serviced fault: every warp continues at its recorded program counter, the array steps fetch their
B tiles again (R210, R307); a block that also stands at a breakpoint stays there (R375). -/
def resumeBlock (s : State) (b : Nat) : State :=
  s.updBlock b fun k =>
    { k with run := match k.brk with
               | some t => .broken t
               | none => .running
             faults := [], service := none
             warps := AMap.mapVals k.warps fun x => { x with due := false, skid := 0 }
             weft := k.weft.map fun y => { y with mmas := AMap.mapVals y.mmas fun l => l.map fun m => { m with tile := [] } } }

end State

/-! ## Running a faulting computation -/

/-- Runs a computation: its result or fault, and the state it leaves. -/
def M.exec {α : Type} (m : M α) (s : State) : Except Flt α × State := m.run s

end Sys2Proof.Machine
end

