-- ==== Sys2Proof/Machine/Port.lean ====
section
/-! DEFINITION. The memory ports: where a block lies (R11 to R13, R48, R49), its metadata entry (R14), encryption and
integrity (R69 to R75), reading and writing a block (R44 to R52), the sweep (R77 to R79), and the panel-cache lines
above them (R18, R22). -/

namespace Sys2Proof.Machine

/-! ## Channels and metadata entries -/

/-- The home channel of a physical block number (R12). -/
def homeChannel (b : Nat) : Nat := (bits b 10 0 ^^^ bits b 21 11 ^^^ bits b 32 22) % 2048

/-- Stack, channel within the stack, and panel of a channel (R12). -/
def stackOf (c : Nat) : Nat := c / 128
def channelIn (c : Nat) : Nat := c % 128
def panelOf (c : Nat) : Nat := stackOf c / 2

/-- Blocks of a stack that are not in its metadata area: 46.5 GiB of 256 bytes (R13). -/
def stackUsable : Nat := 93 * 2 ^ 29 / 256

/-- The place of a block in its stack's block order: of each 2,048 blocks a stack holds 128, in the order of their low bits
(R12, R13). [DEDUCED 10] -/
def indexInStack (b : Nat) : Nat := b / 2048 * 128 + b % 128

/-- The block at a place of a stack's block order. -/
def blockInStack (st n : Nat) : Nat :=
  let g := n / 128
  g * 2048 + (st ^^^ bits (bits g 10 0 ^^^ bits g 21 11) 10 7) * 128 + n % 128

/-- A physical address in the metadata area: the top 1/32 of its stack's blocks (R13). [DEDUCED 10] -/
def inMetaArea (pa : Nat) : Bool := decide (stackUsable ≤ indexInStack (pa / 256))

/-- The physical address of an ordinary block's metadata entry: the area of its own stack holds the entries in block order,
8 bytes each (R13). [DEDUCED 10] -/
def entryPa (b : Nat) : Nat :=
  let n := indexInStack b
  256 * blockInStack (stackOf (homeChannel b)) (stackUsable + n / 32) + 8 * (n % 32)

/-- Fields of a metadata entry (R14). -/
structure MetaEnt where
  icode : Nat := 0
  verlo : Nat := 0
  poison : Bool := false
  enc : Bool := false
  pair : Nat := 0
  scount : Nat := 0
deriving DecidableEq, Repr

def MetaEnt.ofWord (w : W64) : MetaEnt where
  icode := bits w.toNat 63 16
  verlo := bits w.toNat 15 14
  poison := w.getLsbD 13
  enc := w.getLsbD 12
  pair := bits w.toNat 11 4
  scount := bits w.toNat 3 0

def MetaEnt.toWord (m : MetaEnt) : W64 :=
  BitVec.ofNat 64 (m.icode % 2 ^ 48 * 2 ^ 16 + m.verlo % 4 * 2 ^ 14 + (if m.poison then 2 ^ 13 else 0) +
    (if m.enc then 2 ^ 12 else 0) + m.pair % 256 * 16 + m.scount % 16)

/-- A block as a port sees an access to it: whose, through which record, at which block-aligned address. -/
structure BAcc where
  world : Nat
  ctx : Nat
  trec : Nat
  va : W64
  loc : BlkRef
deriving DecidableEq, Repr

namespace Port

/-- The oldest waiting request of a class. [DESIGN CHOICE 49] -/
def head (p : Port) (cls : Nat) : Option PortReq := p.waiting.find? fun r => r.cls == cls

/-- A request starts at once on an idle channel, and waits otherwise. -/
def request (p : Port) (r : PortReq) : Port :=
  if p.busy.isNone && p.waiting.isEmpty then { p with busy := some r } else { p with waiting := p.waiting ++ [r] }

end Port

namespace State

def metaOf (s : State) (l : BlkRef) : MetaEnt :=
  MetaEnt.ofWord (AMap.getD (if l.fixc = 0 then s.metas else s.fixMetas) l.metaAt 0#64)

def setMeta (s : State) (l : BlkRef) (m : MetaEnt) : State :=
  let w := m.toWord
  let upd (t : AMap W64) := if w = 0#64 then AMap.erase t l.metaAt else AMap.set t l.metaAt w
  if l.fixc = 0 then { s with metas := upd s.metas } else { s with fixMetas := upd s.fixMetas }

def sectors (s : State) (l : BlkRef) (n : Nat) : List Byte := s.mem.readBytes l.base (32 * n)

/-- A byte of the metadata area as firmware reads it: of the entry whose place it is (R13). [DEDUCED 10] -/
def metaAreaByte (s : State) (pa : Nat) : Byte :=
  let b := pa / 256
  let n := 32 * (indexInStack b - stackUsable) + pa % 256 / 8
  (leBytes 8 (AMap.getD s.metas (blockInStack (stackOf (homeChannel b)) n) 0#64).toNat).getD (pa % 8) 0#8

/-- The owning port of a block: the channel of its first sector (R12, R49). -/
def portOf (l : BlkRef) : Nat := homeChannel (l.base / 256)

/-- The physical blocks that `n` sectors of a block lie in (R48). -/
def physBlocks (l : BlkRef) (n : Nat) : List Nat :=
  if n = 0 then []
  else if (l.base + 32 * n - 1) / 256 = l.base / 256 then [l.base / 256]
  else [l.base / 256, l.base / 256 + 1]

/-- A transfer of `n` sectors of a block: a request in the class of the access at each channel that holds some of them (R19,
R48, R49, R51). -/
def portRequest (s : State) (l : BlkRef) (n cls : Nat) : State :=
  (physBlocks l n).foldl (fun s b => s.updPort (homeChannel b) fun p => p.request { cls := cls, blk := b, since := s.now }) s

def recordOf (s : State) (a : BAcc) : Option TRec := if a.trec = 0 then none else s.record? a.world a.ctx a.trec

/-- Block index of a tensor page (R70). -/
def blockIndex (r : TRec) (va : W64) : Nat := (va.toNat + 2 ^ 64 - r.base) % 2 ^ 64 / 256

/-- CODEC acts as 0 without feature 0 (R113); ENCRYPT acts as 1 in a confidential world (R71); the governing version of
a block that the sweep has passed is the next one (R79). -/
def view (s : State) (a : BAcc) : RView :=
  match s.recordOf a with
  | none => { blk := a.loc.base / 256, encrypt := s.confidential a.world }
  | some r =>
    let p := blockIndex r a.va
    { tid := r.tid
      version := if r.sweep && decide (p < r.sweepPtr) then (r.version + 1) % 2 ^ 16 else r.version
      blk := p
      codec := r.codec && s.feature a.world 0
      pair := r.pair
      encrypt := r.encrypt || s.confidential a.world }

/-! ## Encryption and the integrity code (R70 to R73) -/

/-- The generation of a world's keys; world 0's are made at bring-up (R25, R69). [DESIGN CHOICE 66] -/
def keyGen (s : State) (w : Nat) : Option Nat :=
  match s.world? w with
  | some x => x.keys
  | none => if w = 0 then some 0 else none

end State

def tweak (tid version blk unit : Nat) : List Byte :=
  leBytes 16 (tid % 2 ^ 24 * 2 ^ 104 + version % 2 ^ 16 * 2 ^ 88 + blk % 2 ^ 40 * 2 ^ 48 + unit % 16)

def cipherBlock (dec : Bool) (g : Nat) (v : RView) (data : List Byte) : List Byte :=
  ((List.range (data.length / 16)).map fun u =>
    let t := aesEncrypt (keyBytes (Config.keyK2 g)) (tweak v.tid v.version v.blk u)
    let x := xorBytes ((data.drop (16 * u)).take 16) t
    let y := if dec then aesDecrypt (keyBytes (Config.keyK1 g)) x else aesEncrypt (keyBytes (Config.keyK1 g)) x
    xorBytes y t).flatten

def icodeOf (g : Nat) (v : RView) (m : MetaEnt) (ct : List Byte) : Nat :=
  let low := MetaEnt.toWord { m with poison := false, icode := 0 }
  leNat ((cmac (keyBytes (Config.keyKM g)) (tweak v.tid v.version v.blk 0 ++ leBytes 2 low.toNat ++ ct)).take 6)

namespace State

/-! ## Slots (R34 to R38) -/

def sat16 (n : Nat) : Nat := min (n + 1) 0xffff
def sat32 (n : Nat) : Nat := min (n + 1) 0xffffffff

/-- REFS when a block's storage changes from one entry to another (R38). -/
def moveRefs (s : State) (w : Nat) (old new : MetaEnt) : State :=
  let held (m : MetaEnt) := decide (1 ≤ m.scount ∧ m.scount ≤ 7)
  if held old && held new && old.pair == new.pair then s
  else
    let s1 := if held old then s.updSlot w old.pair fun x => { x with refs := x.refs - 1 } else s
    if held new then s1.updSlot w new.pair fun x => { x with refs := x.refs + 1 } else s1

/-- MISMATCH, and the break of the slot at 16 (R44). -/
def countMismatch (s : State) (w k : Nat) : State :=
  s.updSlot w k fun x => { x with mismatch := min (x.mismatch + 1) 16, st := if x.mismatch + 1 ≥ 16 then 2 else x.st }

/-- A metadata error in the port's error log (R16). -/
def countMetaError (s : State) (l : BlkRef) : State :=
  s.updPort (portOf l) fun p => { p with corrected := p.corrected + 1, uncorrected := p.uncorrected + 1 }

def countMacErr (s : State) (w : Nat) : State :=
  s.updWorld w fun x => { x with macerr := if x.macerr + 1 < 2 ^ 64 then x.macerr + 1 else x.macerr }

/-! ## The checks before a read (R74) -/

inductive PortCheck where
  | poisoned
  | metaError
  | integrity
  | good
deriving DecidableEq, Repr

def checkBlock (s : State) (a : BAcc) (v : RView) : PortCheck :=
  let m := s.metaOf a.loc
  if m.poison then .poisoned
  else if m.scount > 8 || (a.loc.fixc != 0 && decide (a.loc.fixc < m.scount ∧ m.scount < 8)) then .metaError
  else if s.confidential a.world && m.scount != 0 && !m.enc then .integrity
  else if m.enc then
    if m.verlo != v.version % 4 then .integrity
    else
      match s.keyGen a.world with
      | none => .integrity
      | some g => if m.icode = icodeOf g v m (s.sectors a.loc m.scount) then .good else .integrity
  else .good

def plainSectors (s : State) (a : BAcc) (v : RView) : List Byte :=
  let m := s.metaOf a.loc
  let d := s.sectors a.loc m.scount
  if m.enc then
    match s.keyGen a.world with
    | some g => cipherBlock true g v d
    | none => d
  else d

def poisonBlock (s : State) (l : BlkRef) : State := s.setMeta l { s.metaOf l with poison := true }

/-- An integrity failure: POISON, and MACERR counted (R74). -/
def integrityFail (s : State) (a : BAcc) : State := (s.poisonBlock a.loc).countMacErr a.world

/-! ## The sweep (R78) -/

def setRecord (s : State) (w c i : Nat) (r : TRec) : State := s.updCtx w c fun x => { x with recs := AMap.set x.recs i r }

/-- Re-encrypts one block from version v to v + 1; a block that fails its check is poisoned. -/
def reencrypt (s : State) (a : BAcc) (r : TRec) : State :=
  let m := s.metaOf a.loc
  if m.scount = 0 || m.poison then s
  else
    let v := { s.view a with version := r.version }
    match s.checkBlock a v with
    | .metaError => (s.countMetaError a.loc).poisonBlock a.loc
    | .integrity => s.integrityFail a
    | .poisoned => s
    | .good =>
      match s.keyGen a.world with
      | none => s
      | some g =>
        let v' := { v with version := (r.version + 1) % 2 ^ 16 }
        let ct := cipherBlock false g v' (s.plainSectors a v)
        let m1 := { m with enc := true, verlo := v'.version % 4 }
        let m2 := { m1 with icode := icodeOf g v' m1 ct }
        { s.setMeta a.loc m2 with mem := s.mem.writeBytes a.loc.base ct }

def advanceSweep (s : State) (w c i : Nat) (p : Nat) : State :=
  match s.record? w c i with
  | none => s
  | some r => s.setRecord w c i { r with w3 := setField r.w3 39 0 p }

/-- An access to the block under the pointer waits until the sweep has passed it (R79). [DESIGN CHOICE 30] -/
def sweepUnder (s : State) (a : BAcc) : State :=
  match s.recordOf a with
  | none => s
  | some r =>
    if r.sweep && blockIndex r a.va == r.sweepPtr then
      (s.reencrypt a r).advanceSweep a.world a.ctx a.trec (r.sweepPtr + 1)
    else s

/-! ## Reading a block (R51, R52) -/

/-- A read of a whole block: 256 bytes, or the cause that poisons its line. [DESIGN CHOICE 31] -/
def portRead (s0 : State) (a : BAcc) : Except (BitVec 8) (List Byte) × State :=
  let s := s0.sweepUnder a
  let v := s.view a
  let m := s.metaOf a.loc
  match s.checkBlock a v with
  | .poisoned => (.error fcUncorr, s)
  | .metaError => (.error fcUncorr, s.countMetaError a.loc)
  | .integrity => (.error fcMacFail, s.integrityFail a)
  | .good =>
    if m.scount = 0 then (.ok (List.replicate 256 0#8), s)
    else if m.scount = 8 then (.ok (s.plainSectors a v), s)
    else
      let sl := s.slotOf a.world m.pair
      match ((HRun.start sl.dec sl.decTab (s.plainSectors a v) 256).whole).decOutcome with
      | some d => (.ok d, s)
      | none => (.error fcCodecDecode, s.updSlot a.world m.pair fun x => { x with decErr := sat32 x.decErr })

/-! ## Writing a block (R44, R50) -/

/-- The entry whose slot counts a block in REFS: none once the slot has let a poisoned block go (R22, R38). -/
def refMeta (s : State) (l : BlkRef) : MetaEnt := if s.unref.contains l.key then {} else s.metaOf l

/-- Puts a block's plain sectors where they belong, encrypted where the record asks (R71), with its entry. A block that must
be encrypted after the world's keys have been erased is not stored, and is poisoned (R69). [DESIGN CHOICE 66] -/
def putBlock (s : State) (a : BAcc) (v : RView) (scount pair : Nat) (data : List Byte) (poison : Bool) : State :=
  let old := s.refMeta a.loc
  let free := s.unref.filter fun k => k != a.loc.key
  if v.encrypt && scount != 0 then
    match s.keyGen a.world with
    | none => s.poisonBlock a.loc
    | some g =>
      let ct := cipherBlock false g v data
      let m0 : MetaEnt := { scount := scount, pair := pair, poison := poison, enc := true, verlo := v.version % 4 }
      let m := { m0 with icode := icodeOf g v m0 ct }
      { (s.setMeta a.loc m).moveRefs a.world old m with mem := s.mem.writeBytes a.loc.base ct, unref := free }
  else
    let m : MetaEnt := { scount := scount, pair := pair, poison := poison }
    { (s.setMeta a.loc m).moveRefs a.world old m with mem := s.mem.writeBytes a.loc.base data, unref := free }

/-- What R44 decides for 256 bytes, with the counters it moves: an encoding, or raw storage. -/
def encodeBlock (s : State) (w : Nat) (v : RView) (data : List Byte) : Option (Nat × List Byte) × State :=
  let sl := s.slotOf w v.pair
  if !v.codec || sl.st != 1 then (none, s)
  else
    match ((HRun.start sl.enc sl.encTab data 224).whole).encOutcome with
    | .raw counted =>
      (none, if counted then s.updSlot w v.pair fun x => { x with encErr := sat16 x.encErr } else s)
    | .sectors n enc =>
      match ((HRun.start sl.dec sl.decTab enc 256).whole).decOutcome with
      | some d => if d = data then (some (n, enc), s) else (none, s.countMismatch w v.pair)
      | none => (none, s.countMismatch w v.pair)

/-- Stores 256 bytes that are not all zero under an encoding, or raw. False: the block does not fit its class (R50). -/
def storeAs (s : State) (a : BAcc) (v : RView) (data : List Byte) : Option (Nat × List Byte) → Bool × State
  | none => if a.loc.fixc = 0 then (true, s.putBlock a v 8 0 data false) else (false, s)
  | some (n, enc) =>
    if a.loc.fixc != 0 && decide (a.loc.fixc < n) then (false, s) else (true, s.putBlock a v n v.pair enc false)

/-- A write of all 256 bytes. False: the block does not fit its class, and nothing is stored (R50). -/
def portWrite (s0 : State) (a : BAcc) (data : List Byte) : Bool × State :=
  let s := s0.sweepUnder a
  let v := s.view a
  if data.all fun b => b == 0#8 then (true, s.putBlock a v 0 0 [] false)
  else
    let r := s.encodeBlock a.world v data
    r.2.storeAs a v data r.1

/-- Only POISON is set: a slot that had encoded the block lets it go (R22, R38). -/
def poisonStored (s : State) (a : BAcc) : State :=
  let s1 := (s.poisonBlock a.loc).moveRefs a.world (s.refMeta a.loc) {}
  { s1 with unref := if s.unref.contains a.loc.key then s.unref else a.loc.key :: s.unref }

/-- The store of an evicted line that holds a poisoned word (R22). -/
def portPoison (s0 : State) (a : BAcc) (data : List Byte) : State :=
  let s := s0.sweepUnder a
  if a.loc.fixc = 0 then s.putBlock a (s.view a) 8 0 data true else s.poisonStored a

/-- A write of part of a block at the port (R46); into a poisoned block it is dropped, and counted in the port's error log
(R22). -/
def portPartial (s0 : State) (a : BAcc) (off : Nat) (bs : List Byte) : Option (BitVec 8) × State :=
  let s := s0.sweepUnder a
  let m := s.metaOf a.loc
  let v := s.view a
  if m.poison then (none, s.updPort (portOf a.loc) fun p => { p with dropped := p.dropped + 1 })
  else if m.scount = 8 && !v.codec && !v.encrypt && a.loc.fixc == 0 then
    (none, { s with mem := s.mem.writeBytes (a.loc.base + off) bs })
  else
    match s.portRead a with
    | (.error c, s1) => (none, if c = fcCodecDecode then s1.poisonBlock a.loc else s1)
    | (.ok d, s1) =>
      match s1.portWrite a (d.take off ++ bs ++ d.drop (off + bs.length)) with
      | (true, s2) => (none, s2)
      | (false, s2) => (some fcCodecFit, s2)

/-! ## Panel-cache lines (R18, R22, R52) -/

/-- Lines are found by block and world. -/
def lineKey (a : BAcc) : Nat := a.loc.key * 64 + a.world % 64

def line? (s : State) (a : BAcc) : Option Line := AMap.get? s.lines (lineKey a)

def setLine (s : State) (a : BAcc) (l : Line) : State := { s with lines := AMap.set s.lines (lineKey a) l }

/-- A demand fill: the block's line, poisoned with its cause where the port cannot give the data; the sectors that the block
holds are transferred as a demand read (R19, R51). [DESIGN CHOICE 32] -/
def fill (s : State) (a : BAcc) : Line × State :=
  match s.line? a with
  | some l => (l, s)
  | none =>
    let base : Line := { world := a.world, ctx := a.ctx, va := a.va, trec := a.trec, loc := a.loc, data := [] }
    match s.portRead a with
    | (.ok d, s1) =>
      let l := { base with data := d }
      (l, (s1.setLine a l).portRequest a.loc (min 8 (s.metaOf a.loc).scount) 1)
    | (.error c, s1) =>
      let l := { base with data := List.replicate 256 0#8, poison := BitVec.allOnes 32, cause := c }
      (l, (s1.setLine a l).portRequest a.loc (min 8 (s.metaOf a.loc).scount) 1)

def lineAcc (l : Line) : BAcc := ⟨l.world, l.ctx, l.trec, l.va, l.loc⟩

/-- Stores a dirty line at its port, as a demand write (R19); a decode-error line is discarded instead (R52, R22).
[DESIGN CHOICE 32] [DEDUCED 65] -/
def writeBack (s : State) (l : Line) : State :=
  if !l.dirty || (l.poison != 0#32 && l.cause == fcCodecDecode) then s
  else
    let t := if l.poison = 0#32 then (s.portWrite (lineAcc l) l.data).2 else s.portPoison (lineAcc l) l.data
    t.portRequest l.loc (min 8 (t.metaOf l.loc).scount) 2

/-- Evicts a line. [DEDUCED 65] -/
def evict (s : State) (key : Nat) : State :=
  match AMap.get? s.lines key with
  | none => s
  | some l => { s.writeBack l with lines := AMap.erase s.lines key }

/-- Writes back every line of a block, and drops the lines: the block moves or its storage is read below the caches. -/
def evictBlock (s : State) (loc : BlkRef) : State :=
  (List.range 64).foldl (fun s w => s.evict (loc.key * 64 + w)) s

end State

/-! ## Pieces of a line -/

/-- Whether any byte of [off, off + n) lies in a poisoned word. -/
def Line.poisoned (l : Line) (off n : Nat) : Bool :=
  (List.range 32).any fun k => l.poison.getLsbD k && decide (8 * k < off + n ∧ off < 8 * k + 8)

def Line.read (l : Line) (off n : Nat) : List Byte := (l.data.drop off).take n

/-- One 64-bit word of a line is poisoned by a soft error or by poisoned data; a line that was clean takes cause UNCORR (R22). -/
def Line.poisonWord (l : Line) (word : Nat) : Line :=
  { l with poison := l.poison ||| BitVec.ofNat 32 (2 ^ word), cause := if l.poison = 0#32 then fcUncorr else l.cause }

def Line.patch (l : Line) (off : Nat) (bs : List Byte) : Line :=
  { l with data := l.data.take off ++ bs ++ l.data.drop (off + bs.length), dirty := true }

/-- Clears the poison of every word whose eight bytes are all among the offsets written (R22). -/
def Line.heal (l : Line) (written : List Nat) : Line :=
  { l with poison := BitVec.ofNat 32 ((List.range 32).foldl (fun acc k =>
      if l.poison.getLsbD k && !((List.range 8).all fun j => written.contains (8 * k + j)) then acc + 2 ^ k else acc) 0) }

end Sys2Proof.Machine
end

