-- ==== Sys2Proof/Machine/Mem.lean ====
section
/-! DEFINITION. Addresses and the accesses behind them: generic addresses (R202), translation (R212 to R214), records and
the record window (R31, R88, R106), the event log (R99), host-backed ranges (R105), the scratchpad (R189 to R191, R197,
R200), private memory (R203), and reads, writes and atomics through the panel caches. -/

namespace Sys2Proof.Machine

/-! ## Kinds of access and their places -/

inductive AccKind where
  | load | store | atomic | fetch
  /-- The shuttle, the weft sequencer, the array load pipes (R202, R214). -/
  | engineRead | engineWrite
  /-- Clause engines, dispatchers, firmware and host requests. -/
  | devRead | devWrite
deriving DecidableEq, Repr

def AccKind.writes : AccKind → Bool
  | .store => true
  | .atomic => true
  | .engineWrite => true
  | .devWrite => true
  | _ => false

def AccKind.engine : AccKind → Bool
  | .engineRead => true
  | .engineWrite => true
  | _ => false

def AccKind.lane : AccKind → Bool
  | .load => true
  | .store => true
  | _ => false

/-- What a global address names. -/
inductive Place where
  | block (a : BAcc) (off : Nat)
  | host (pa : Nat)
  | evlog (off : Nat)
  | window (off : Nat)
  | remote (sys world : Nat) (va key : W64)
deriving DecidableEq, Repr

/-- The outcome of translating an address (R214). -/
inductive Xlate where
  | place (p : Place)
  | stall
  | fault (f : Flt)
deriving DecidableEq, Repr

/-! ## The page walk (R212 to R214) -/

def levelShift (l : Nat) : Nat :=
  match l with
  | 1 => 39
  | 2 => 30
  | 3 => 21
  | _ => 16

def ptKey (l va : Nat) : Nat := l * 2 ^ 48 + va >>> levelShift l

inductive Walk where
  | absent
  | isSealed (key : Nat)
  | bad
  | leaf (key level : Nat) (e : BitVec 128)
deriving DecidableEq, Repr

/-- The size code of a leaf at a level, 3 where no leaf may stand. -/
def leafSize (l : Nat) : Nat :=
  match l with
  | 2 => 2
  | 3 => 1
  | 4 => 0
  | _ => 3

def walkLevel (pt : AMap (BitVec 128)) (va : Nat) : Nat → Nat → Walk
  | 0, _ => .absent
  | n + 1, l =>
    let key := ptKey l va
    let e := AMap.getD pt key 0#128
    let w0 := e.toNat % 2 ^ 64
    let w1 := e.toNat / 2 ^ 64
    let kind := bits w0 1 0
    let size := bits w0 3 2
    let remoteOrSealed := w0.testBit 5 || w0.testBit 6
    if kind = 0 then .absent
    else if kind = 2 && w0.testBit 6 then .isSealed key
    else if kind = 3 then .bad
    else if kind = 1 then
      if l = 4 || w1 != 0 || bits w0 63 40 != 0 || bits w0 11 2 != 0 then .bad else walkLevel pt va n (l + 1)
    else if bits w0 47 40 != 0 || bits w0 12 10 != 0 || w0.testBit 4 || bits w1 63 40 != 0 || size == 3 ||
        size != leafSize l || (remoteOrSealed && size != 0) || (w0.testBit 5 && w0.testBit 8) then .bad
    else .leaf key l e

def walk (pt : AMap (BitVec 128)) (va : Nat) : Walk := walkLevel pt va 4 1

def pageBytes (l : Nat) : Nat := 2 ^ levelShift l

/-! ## Fixed windows -/

def recWinBase : Nat := 0x00ffffffffe00000
def scratchBase : Nat := 0x0100000000000000
def privBase : Nat := 0x0100000100000000

def domainOf (sys : Nat) : Nat := bits sys 19 12

namespace State

/-- Whether one of the world's memory ranges contains an address (R107). [DESIGN CHOICE 63] -/
def rangeOf (s : State) (w : Nat) (va : Nat) : Option MemRange :=
  match s.world? w with
  | none => none
  | some x => (x.ranges.find? fun r => decide (r.2.base.toNat ≤ va ∧ va < r.2.base.toNat + r.2.len.toNat)).map Prod.snd

/-- Whether firmware may back one more page of a world (R105). [DESIGN CHOICE 26] [DEDUCED 27] -/
def mayBack (s : State) (w : Nat) : Bool :=
  match s.world? w with
  | none => false
  | some x => decide (x.backed + 1 ≤ x.allot)

def pageFault (va : Nat) (service : Bool) : Xlate :=
  .fault { code := fcPageFault, addr := BitVec.ofNat 64 va, service := service }

def accFault (code : BitVec 8) (va : Nat) : Xlate := .fault { code := code, addr := BitVec.ofNat 64 va }

/-- Whether a block of a world and context is halted for the service of the page that holds `va` (R209, R210). -/
def inService (s : State) (w c va : Nat) : Bool :=
  s.blocks.any fun p => p.2.world == w && p.2.ctx == c && (match p.2.service with
    | some a => a.toNat / 65536 == va / 65536
    | none => false)

/-- A walk that finds no page. Another block's access that had joined the walk of a page already in service waits for the
service unhalted; one that comes later faults. Which of the two it was is free (R215). [DESIGN CHOICE 28] -/
def absentPage (s : State) (w c va : Nat) (service : Bool) : Xlate :=
  if s.inService w c va && Config.coin s.tick then .stall else pageFault va service

/-- An access to a page of another device (R88, R91, R113, R214). -/
def resolveRemote (s : State) (w c va trec w1 : Nat) (k : AccKind) : Xlate :=
  let tsys := bits w1 19 0
  if k.engine then accFault fcProtection va
  else match (if trec = 0 then none else s.record? w c trec) with
  | none => accFault (if trec = 0 then fcProtection else fcBadHandle) va
  | some r =>
    if !r.valid then accFault fcBadHandle va
    else if !r.rmt || !s.feature w 6 || domainOf tsys != domainOf s.sysNum then accFault fcProtection va
    else .place (.remote tsys (bits w1 29 24) (BitVec.ofNat 64 (va + 2 ^ 64 - r.base + r.tbase)) r.w1)

/-- A page of this device: its record (R31, R88), and the block that the address lies in (R11, R48). -/
def resolveLocal (s : State) (w c va l w0 w1 : Nat) : Xlate :=
  let trec := bits w0 63 48
  let paddr := bits w0 39 13 * 2 ^ 13
  let off := va % pageBytes l
  let bva := BitVec.ofNat 64 (va / 256 * 256)
  let ordinary : Xlate :=
    let pa := paddr + off
    if w != 0 && inMetaArea pa then accFault fcProtection va
    else .place (.block ⟨w, c, trec, bva, { key := 2 * (pa / 256), base := pa / 256 * 256, metaAt := pa / 256 }⟩ (va % 256))
  if trec = 0 then ordinary
  else
    match s.record? w c trec with
    | none => accFault fcBadHandle va
    | some r =>
      if !r.valid then accFault fcBadHandle va
      else if r.rmt then accFault fcProtection va
      else if r.fixc = 0 then ordinary
      else
        let i := off / 256 % 256
        let run := bits w1 39 11 * 2 ^ 11
        let lo := paddr + i * r.fixc * 32
        -- neither the block's sectors nor its entry may lie in the metadata area (R13)
        if w != 0 && (inMetaArea lo || inMetaArea (lo + 32 * r.fixc - 1) || inMetaArea (run + 8 * i)) then accFault fcProtection va
        else .place (.block ⟨w, c, trec, bva,
          { key := 2 * (run / 8 + i) + 1, fixc := r.fixc, base := lo, metaAt := run + 8 * i }⟩ (va % 256))

/-- Through the page table (R214). -/
def resolvePage (s : State) (w c va : Nat) (k : AccKind) (pt : AMap (BitVec 128)) (inRange : Bool) : Xlate :=
  match walk pt va with
  | .absent => s.absentPage w c va (inRange && s.mayBack w)
  | .isSealed _ => s.absentPage w c va (s.mayBack w)
  | .bad => pageFault va false
  | .leaf _ l e =>
    let w0 := e.toNat % 2 ^ 64
    let w1 := e.toNat / 2 ^ 64
    if (k.writes && !w0.testBit 9) || (k = .fetch && !w0.testBit 8) then accFault fcProtection va
    else if w0.testBit 5 then s.resolveRemote w c va (bits w0 63 48) w1 k
    else if k.writes && w0.testBit 7 then .stall
    else s.resolveLocal w c va l w0 w1

/-- A global address of a context (below 2^56). -/
def resolve (s : State) (w c : Nat) (va : Nat) (k : AccKind) : Xlate :=
  match s.ctx? w c, s.world? w with
  | some x, some wd =>
    if recWinBase ≤ va then
      if va - recWinBase ≥ 32 * x.nrec then pageFault va false
      else if k.lane then .place (.window (va - recWinBase)) else accFault fcProtection va
    else if c = 0 && decide (wd.evlog.toNat ≤ va ∧ va < wd.evlog.toNat + 0x4000) then
      if k = .load || k = .engineRead || k = .devRead then .place (.evlog (va - wd.evlog.toNat)) else accFault fcProtection va
    else
      match s.rangeOf w va with
      | some r =>
        if r.attr % 2 = 1 then
          -- no engine moves data of a confidential world to or from host memory: the bounce channel does (R98)
          if k.engine && wd.conf then accFault fcProtection va else .place (.host (r.host.toNat + (va - r.base.toNat)))
        else s.resolvePage w c va k x.pt true
      | none => s.resolvePage w c va k x.pt false
  | _, _ => pageFault va false

/-! ## The record window (R106, R252) -/

/-- The RW fields of one record laid over the fields the device keeps. -/
def overlay (dev win : TRec) : TRec :=
  let rw0 := [(23, 16), (15, 15), (14, 12), (11, 11), (10, 10), (8, 8), (7, 7)]
  let w0 := rw0.foldl (fun w f => setField w f.1 f.2 (bits win.w0.toNat f.1 f.2)) dev.w0
  let w3 := setField dev.w3 63 40 (bits win.w3.toNat 63 40)
  { dev with w0 := w0, w1 := win.w1, w2 := setField dev.w2 56 16 (bits win.w2.toNat 56 16),
             w3 := if w0.getLsbD 7 then setField w3 39 0 (bits win.w3.toNat 39 0)
                   else if dev.w0.getLsbD 7 then setField w3 39 0 0 else w3 }

/-- In a confidential world ENCRYPT reads as 1 (R71); without feature 0 CODEC reads as 0 (R113). [DESIGN CHOICE 63] -/
def shownRecord (s : State) (w c i : Nat) : TRec :=
  match s.ctx? w c with
  | none => {}
  | some x =>
    if i = 0 ∨ x.nrec ≤ i then {}
    else
      let dev := AMap.getD x.recs i {}
      let r := match AMap.get? x.win i with
        | some v => overlay dev v
        | none => dev
      let r1 := if s.confidential w then { r with w0 := setField r.w0 11 11 1 } else r
      if s.feature w 0 then r1 else { r1 with w0 := setField r1.w0 15 15 0 }

def recordBytes (r : TRec) : List Byte :=
  leBytes 8 r.w0.toNat ++ leBytes 8 r.w1.toNat ++ leBytes 8 r.w2.toNat ++ leBytes 8 r.w3.toNat

def recordOfBytes (l : List Byte) (old : TRec) : TRec :=
  { old with w0 := BitVec.ofNat 64 (leNat (l.take 8)), w1 := BitVec.ofNat 64 (leNat ((l.drop 8).take 8)),
             w2 := BitVec.ofNat 64 (leNat ((l.drop 16).take 8)), w3 := BitVec.ofNat 64 (leNat ((l.drop 24).take 8)) }

def windowBytes (s : State) (w c off n : Nat) : List Byte :=
  (List.range n).map fun j => (recordBytes (s.shownRecord w c ((off + j) / 32))).getD ((off + j) % 32) 0#8

/-- A store to the window shows at once to loads of it, and reaches the record table at fence.rec. [DESIGN CHOICE 63] -/
def windowStore (s : State) (w c off : Nat) (bs : List Byte) : State :=
  let i := off / 32
  if i = 0 then s
  else
    let old := s.shownRecord w c i
    let b := recordBytes old
    let new := recordOfBytes (b.take (off % 32) ++ bs ++ b.drop (off % 32 + bs.length)) old
    s.updCtx w c fun x => { x with win := AMap.set x.win i new }

/-! ## Reads and writes through the caches -/

/-- Reads `n` bytes at a place; they lie in one block. An error is the cause of the poison (R22, R52, R75). -/
def readPlace (s : State) (w c : Nat) (p : Place) (n : Nat) : Except (BitVec 8) (List Byte) × State :=
  match p with
  | .host pa => (.ok (s.hostMem.readBytes pa n), s)
  | .evlog off => (.ok ((List.range n).map fun j => s.evlogByte w (off + j)), s)
  | .window off => (.ok (s.windowBytes w c off n), s)
  | .remote _ _ _ _ => (.ok (List.replicate n 0#8), s)
  | .block a off =>
    let (l, s1) := s.fill a
    if l.poisoned off n then (.error l.cause, s1) else (.ok (l.read off n), s1)

/-- The lines an instruction has written: as they were before it, and the offsets it wrote. -/
abbrev Touched := AMap (BAcc × Line × List Nat)

def patchPlace (s : State) (w c : Nat) (t : Touched) (p : Place) (bs : List Byte) : Touched × State :=
  match p with
  | .host pa => (t, { s with hostMem := s.hostMem.writeBytes pa bs })
  | .evlog _ => (t, s)
  | .window off => (t, s.windowStore w c off bs)
  | .remote _ _ _ _ => (t, s)
  | .block a off =>
    let (l, s1) := s.fill a
    let offs := (List.range bs.length).map (off + ·)
    let t1 := match AMap.get? t (lineKey a) with
      | some (a0, l0, o) => AMap.set t (lineKey a) (a0, l0, o ++ offs)
      | none => AMap.set t (lineKey a) (a, l, offs)
    (t1, s1.setLine a (l.patch off bs))

/-- Ends the writes of one instruction: poison cleared where whole words were written, by one thread or by several together
(R22) [DESIGN CHOICE 33], and a fixed-class line
written through to its port, which may refuse it (R50). -/
def settle (s : State) : Touched → Option (BitVec 8 × W64) × State
  | [] => (none, s)
  | (_, a, old, offs) :: t =>
    match s.line? a with
    | none => settle s t
    | some l =>
      let l1 := l.heal offs
      if a.loc.fixc = 0 then settle (s.setLine a l1) t
      else if l1.poison != 0#32 then settle (s.setLine a l1) t
      else
        match s.portWrite a l1.data with
        | (true, s1) => settle (s1.setLine a { l1 with dirty := false }) t
        | (false, s1) =>
          let (f, s2) := settle (s1.setLine a old) t
          let mine : BitVec 8 × W64 := (fcCodecFit, a.va)
          (some (match f with
            | some g => if g.2.toNat < mine.2.toNat then g else mine
            | none => mine), s2)

/-- Writes in order, then settles. -/
def writePlaces (s : State) (w c : Nat) (ws : List (Place × List Byte)) : Option (BitVec 8 × W64) × State :=
  let (t, s1) := ws.foldl (fun (acc : Touched × State) p => acc.2.patchPlace w c acc.1 p.1 p.2) ([], s)
  s1.settle t

/-- A read-modify-write of one place: the old value, or a fault. [DEDUCED 35] -/
def atomicPlace (s : State) (w c : Nat) (p : Place) (n : Nat) (f : Nat → Option Nat) :
    Except (BitVec 8 × W64) Nat × State :=
  let va : W64 := match p with
    | .block a off => a.va + BitVec.ofNat 64 off
    | _ => 0#64
  match s.readPlace w c p n with
  | (.error e, s1) => (.error (e, va), s1)
  | (.ok bs, s1) =>
    let old := leNat bs
    match f old with
    | none => (.ok old, s1)
    | some v =>
      match s1.writePlaces w c [(p, leBytes n v)] with
      | (none, s2) => (.ok old, s2)
      | (some e, s2) => (.error e, s2)

end State

/-! ## Longer accesses by the device's own agents -/

/-- Pieces of [va, va + n) that stay within a block; `k` bounds their number. -/
def blockPieces : Nat → Nat → Nat → List (Nat × Nat)
  | 0, _, _ => []
  | k + 1, va, n =>
    if n = 0 then []
    else
      let m := min n (256 - va % 256)
      (va, m) :: blockPieces k (va + m) (n - m)

def piecesOf (va n : Nat) : List (Nat × Nat) := blockPieces (n / 256 + 2) va n

/-- What stops an access of the device: a fault code, or a page that is moving. -/
inductive DevStop where
  | fault (code : BitVec 8) (addr : W64)
  | stall
deriving DecidableEq, Repr

namespace State

def devReadPieces (w c : Nat) (k : AccKind) : List (Nat × Nat) → State → Except DevStop (List Byte) × State
  | [], s => (.ok [], s)
  | (va, n) :: ps, s =>
    if va ≥ 2 ^ 56 then (.error (.fault fcProtection (BitVec.ofNat 64 va)), s)
    else
      match s.resolve w c va k with
      | .fault f => (.error (.fault f.code f.addr), s)
      | .stall => (.error .stall, s)
      | .place (.remote _ _ _ _) => (.error (.fault fcProtection (BitVec.ofNat 64 va)), s)
      | .place p =>
        match s.readPlace w c p n with
        | (.error e, s1) => (.error (.fault e (BitVec.ofNat 64 va)), s1)
        | (.ok bs, s1) =>
          match devReadPieces w c k ps s1 with
          | (.ok rest, s2) => (.ok (bs ++ rest), s2)
          | (.error e, s2) => (.error e, s2)

/-- A read of `n` bytes of a world's global memory by an agent of the device. -/
def devRead (s : State) (w c : Nat) (va : W64) (n : Nat) : Except DevStop (List Byte) × State :=
  devReadPieces w c .devRead (piecesOf va.toNat n) s

def devWritePieces (w c : Nat) (k : AccKind) : List (Nat × Nat) → List Byte → State → Option DevStop × State
  | [], _, s => (none, s)
  | (va, n) :: ps, bs, s =>
    if va ≥ 2 ^ 56 then (some (.fault fcProtection (BitVec.ofNat 64 va)), s)
    else
      match s.resolve w c va k with
      | .fault f => (some (.fault f.code f.addr), s)
      | .stall => (some .stall, s)
      | .place (.remote _ _ _ _) => (some (.fault fcProtection (BitVec.ofNat 64 va)), s)
      | .place p =>
        match s.writePlaces w c [(p, bs.take n)] with
        | (some e, s1) => (some (.fault e.1 e.2), s1)
        | (none, s1) => devWritePieces w c k ps (bs.drop n) s1

def devWrite (s : State) (w c : Nat) (va : W64) (bs : List Byte) : Option DevStop × State :=
  devWritePieces w c .devWrite (piecesOf va.toNat bs.length) bs s

/-- An 8-byte read-modify-write by an agent of the device: a signal update (R131, R132). -/
def devAtomic (s : State) (w c : Nat) (va : W64) (f : Nat → Nat) : Except DevStop Nat × State :=
  if va.toNat % 8 != 0 then (.error (.fault fcMisalign va), s)
  else if va.toNat ≥ 2 ^ 56 then (.error (.fault fcProtection va), s)
  else
    match s.resolve w c va.toNat .devWrite with
    | .fault g => (.error (.fault g.code g.addr), s)
    | .stall => (.error .stall, s)
    | .place (.remote _ _ _ _) => (.error (.fault fcProtection va), s)
    | .place p =>
      match s.atomicPlace w c p 8 fun v => some (f v) with
      | (.ok old, s1) => (.ok old, s1)
      | (.error e, s1) => (.error (.fault e.1 e.2), s1)

end State

/-! ## The scratchpad of a block (R189 to R191, R197) -/

namespace Block

/-- Bytes of each quarter's share but the last (R197). -/
def share (k : Block) : Nat := k.scratchLen / (64 * k.nq) * 64

/-- The index among the block's quarters of the share that holds a window offset. -/
def shareOf (k : Block) (off : Nat) : Nat :=
  if k.share = 0 then k.nq - 1 else min (off / k.share) (k.nq - 1)

/-- The generation that applies to a window offset (R189). -/
def genAt (k : Block) (off : Nat) : Nat := k.gens.getD (k.shareOf off) 0

def granuleOwn (k : Block) (off : Nat) : Bool := AMap.getD k.scratchTags (off / 64) 0 == k.genAt off

/-- Reads scratchpad bytes; a byte of a granule of another generation reads zero (R190). -/
def scratchRead (k : Block) (off n : Nat) : List Byte :=
  (List.range n).map fun j => if k.granuleOwn (off + j) then k.scratch.read (off + j) else 0#8

/-- Whether strict reads would fault on [off, off + n) (R190). -/
def scratchUninit (k : Block) (off n : Nat) : Bool := (List.range n).any fun j => !k.granuleOwn (off + j)

/-- Writes one byte: a granule of another generation is zeroed and taken first (R191). -/
def scratchPut (k : Block) (off : Nat) (b : Byte) : Block :=
  if k.granuleOwn off then { k with scratch := k.scratch.write off b }
  else
    { k with scratch := (k.scratch.writeBytes (off / 64 * 64) (List.replicate 64 0#8)).write off b,
             scratchTags := AMap.set k.scratchTags (off / 64) (k.genAt off) }

def scratchWrite (k : Block) (off : Nat) : List Byte → Block
  | [] => k
  | b :: bs => (k.scratchPut off b).scratchWrite (off + 1) bs

/-- Whether a byte of [off, off + n) lies in a poisoned 64-bit word (R22). -/
def scratchPoisoned (k : Block) (off n : Nat) : Bool :=
  k.scratchPoison.any fun w => decide (8 * w < off + n ∧ off < 8 * w + 8)

/-- Clears the poison of the words whose eight bytes are all among the offsets written. -/
def scratchHeal (k : Block) (written : List Nat) : Block :=
  { k with scratchPoison := k.scratchPoison.filter fun w => !((List.range 8).all fun j => written.contains (8 * w + j)) }

end Block

/-! ## Private memory (R203) -/

def privAddr (o t : Nat) : Nat := 64 * (o / 4) + 4 * t + o % 4

/-- Key of a private page: the warp and the 64 KiB page of its backing. [DESIGN CHOICE 26] -/
def privPage (w o t : Nat) : Nat := w * 2 ^ 20 + privAddr o t / 65536

namespace State

/-- Whether a scratchpad access must wait for a copy's bytes: a piece still to land in one of its granules (R201). -/
def scratchHeld (s : State) (b off n : Nat) : Bool :=
  s.copies.any fun p => (p.2.targets.any fun d => d.1 == b) && p.2.pieces.any fun q =>
    decide (scratchBase ≤ q.2.toNat ∧ off / 64 ≤ (q.2.toNat - scratchBase) / 64 ∧
      (q.2.toNat - scratchBase) / 64 ≤ (off + n - 1) / 64)

/-- Whether any byte lies outside the allocation or in a segment of another world (R199, R200). -/
def scratchOutside (s : State) (k : Block) (off n : Nat) : Bool :=
  decide (off + n > k.scratchLen) ||
    (List.range n).any fun j => (s.quarter (k.quarters.getD (k.shareOf (off + j)) 0)).segWorld != k.world

end State

end Sys2Proof.Machine
end

