-- ==== Sys2Proof/Machine/Operands.lean ====
section
/-! DEFINITION. Operands: the classes of an operand field (R336), how immediates read (R337), groups (R338), the element
types of the mood (R345, R274), reading registers under tags and pending bits (R182, R184, R190, R192) and writing them
by renaming (R182, R183, R191). -/

namespace Sys2Proof.Machine

/-! ## Operand fields (R336) -/

inductive Opnd where
  | v (n : Nat)
  | s (n : Nat)
  | imm (i : Int)
  | p (n : Nat)
  | lit
  | reserved
deriving DecidableEq, Repr

def opnd (f : BitVec 8) : Opnd :=
  let k := f.toNat
  if k < 0x80 then .v k
  else if k < 0xc0 then .s (k - 0x80)
  else if k < 0xe0 then .imm (sext 5 (k - 0xc0))
  else if k < 0xe8 then .p (k - 0xe0)
  else if k = 0xff then .lit
  else .reserved

def isV (f : BitVec 8) : Bool := decide (f.toNat < 0x80)
def isS (f : BitVec 8) : Bool := decide (0x80 ≤ f.toNat ∧ f.toNat < 0xc0)
def isImm (f : BitVec 8) : Bool := decide (0xc0 ≤ f.toNat ∧ f.toNat < 0xe0)
def isP (f : BitVec 8) : Bool := decide (0xe0 ≤ f.toNat ∧ f.toNat < 0xe8)
def isLit (f : BitVec 8) : Bool := f == 0xff#8
def regNo (f : BitVec 8) : Nat := if f.toNat < 0x80 then f.toNat else f.toNat - 0x80
def predNo (f : BitVec 8) : Nat := f.toNat - 0xe0

/-! ## Element types (R345, R274) -/

/-- A TYPE code: 0 i32, 1 n32, 2 f32, 3 f16x2, 4 bf16x2, 5 i16x2, 6 n16x2, 7 i8x4, 8 n8x4, 9 i64, 10 n64. -/
abbrev Ty := Nat

def tyFloat (ty : Ty) : Bool := ty == 2 || ty == 3 || ty == 4
def ty64 (ty : Ty) : Bool := ty == 9 || ty == 10
def tySigned (ty : Ty) : Bool := ty == 0 || ty == 5 || ty == 7 || ty == 9
def tyWidth (ty : Ty) : Nat :=
  if ty64 ty then 64 else if ty ≤ 2 then 32 else if ty ≤ 6 then 16 else 8
/-- Bits of the whole operand. -/
def tyBits (ty : Ty) : Nat := if ty64 ty then 64 else 32
/-- Registers that a typed operand spans (R274). -/
def tyRegs (ty : Ty) : Nat := if ty64 ty then 2 else 1
def tyFmt (ty : Ty) : FFmt := if ty = 2 then fmtF32 else if ty = 3 then fmtF16 else fmtBf16

def tyInt (ty : Ty) : Bool := ty ≤ 10 && !tyFloat ty
def tyWord (ty : Ty) : Bool := ty == 0 || ty == 1 || ty64 ty
def tyHalf (ty : Ty) : Bool := ty == 3 || ty == 4
def tyNarrow (ty : Ty) : Bool := decide (3 ≤ ty ∧ ty ≤ 8)
def tyAny (ty : Ty) : Bool := decide (ty ≤ 10)

/-- Elements of a pattern, the lowest first. -/
def elems (ty : Ty) (x : Nat) : List Nat :=
  (List.range (tyBits ty / tyWidth ty)).map fun k => (x >>> (k * tyWidth ty)) % 2 ^ tyWidth ty

def packElems (w : Nat) : List Nat → Nat
  | [] => 0
  | x :: xs => x % 2 ^ w + 2 ^ w * packElems w xs

def ofElems (ty : Ty) (l : List Nat) : Nat := packElems (tyWidth ty) l

/-- The value of an integer element. -/
def elemInt (ty : Ty) (x : Nat) : Int := if tySigned ty then sext (tyWidth ty) x else (x % 2 ^ tyWidth ty : Nat)

/-! ## The mood (R345) -/

def moodType (m : W32) : Ty := bits m.toNat 7 4
def moodRound (m : W32) : Nat := bits m.toNat 9 8
def moodSat (m : W32) : Bool := m.getLsbD 10
def moodFlush (m : W32) : Bool := m.getLsbD 11
def moodNeg (m : W32) : Bool := m.getLsbD 3
def moodPred (m : W32) : Nat := bits m.toNat 2 0
def moodEnv (m : W32) : FEnv := { mode := moodRound m, flush := moodFlush m, sat := moodSat m }

/-! ## The issuer -/

/-- What an instruction sees of its issuer at issue; every source is read from here before anything is written (R7). -/
structure Env where
  b : Nat
  w : Nat
  sp : Nat
  blk : Block
  wp : Warp
  split : Split
deriving Repr

/-- The physical register that a vector name maps to (R182). -/
def Warp.reg? (x : Warp) (n : Nat) : Option PhysReg :=
  match AMap.get? x.rmap n with
  | none => none
  | some p => AMap.get? x.phys p

/-- The generation of a block's registers on the quarter of warp `w` (R188, R189). -/
def Block.genOf (k : Block) (w : Nat) : Nat := k.gens.getD (w % k.nq) 0

/-- The core that a block is placed on. -/
def Block.core (k : Block) : Nat := k.quarters.getD 0 0 / 4

namespace Env

def pc (e : Env) : W64 := e.split.pc
def gen (e : Env) : Nat := e.blk.genOf e.w
def ty (e : Env) : Ty := moodType e.split.mood
def inTry (e : Env) : Bool := e.split.inTry

/-- p7 reads all ones (R179). -/
def pred (e : Env) (n : Nat) : BitVec 16 := if n = 7 then 0xffff#16 else e.wp.preds.getD n 0#16

def guardMask (e : Env) : BitVec 16 :=
  let p := e.pred (moodPred e.split.mood)
  if moodNeg e.split.mood then ~~~p else p

/-- The active threads: the split's mask under its guard (R347). -/
def active (e : Env) : BitVec 16 := e.split.mask &&& e.guardMask
def act (e : Env) : List Nat := threadsOf e.active
def idle (e : Env) : Bool := e.active == 0#16

/-- One thread of a vector register (R184, R190, R192). -/
def vread (e : Env) (n t : Nat) : Except (BitVec 8) W32 :=
  match e.wp.reg? n with
  | none => if e.blk.strict then .error fcUninit else .ok 0#32
  | some r =>
    if r.tags.getD (t / 4) 0 != e.gen then (if e.blk.strict then .error fcUninit else .ok 0#32)
    else if r.pend.getD (t / 4) false then (if e.blk.strict then .error fcUnwaited else .ok 0#32)
    else .ok (r.vals.get t)

/-- A uniform register; s0 reads zero (R179, R190). -/
def sread (e : Env) (n : Nat) : Except (BitVec 8) W32 :=
  if n = 0 then .ok 0#32
  else if AMap.getD e.wp.stags n 0 != e.gen then (if e.blk.strict then .error fcUninit else .ok 0#32)
  else .ok (AMap.getD e.wp.sregs n 0#32)

/-- One register of either class. -/
def rread (e : Env) (f : BitVec 8) (k t : Nat) : Except (BitVec 8) W32 :=
  if isS f then e.sread (regNo f + k) else e.vread (regNo f + k) t

/-- A pair of either class as a number (R338). -/
def pread (e : Env) (f : BitVec 8) (t : Nat) : Except (BitVec 8) Nat :=
  match e.rread f 0 t with
  | .error x => .error x
  | .ok lo =>
    match e.rread f 1 t with
    | .error x => .error x
    | .ok hi => .ok (lo.toNat + 2 ^ 32 * hi.toNat)

end Env

/-! ## Source values (R337) -/

/-- The literal field of an instruction: the second word of a G3, or lit24 of a G4. -/
inductive Lit where
  | none
  | word (x : W32)
  | lit24 (x : BitVec 24)
deriving DecidableEq, Repr

/-- A literal as a 32-bit operand: under a floating reading lit24 is the top of the pattern (R337). -/
def Lit.w32 (float : Bool) : Lit → Nat
  | .none => 0
  | .word x => x.toNat
  | .lit24 x => if float then x.toNat * 256 else wrapN 32 (sext 24 x.toNat)

def Lit.w64 : Lit → Nat
  | .none => 0
  | .word x => wrapN 64 (sext 32 x.toNat)
  | .lit24 x => wrapN 64 (sext 24 x.toNat)

/-- A small immediate in every element of a type (R337). -/
def immElems (ty : Ty) (i : Int) : Nat :=
  let n := tyBits ty / tyWidth ty
  if tyFloat ty then ofElems ty (List.replicate n (fencode (tyFmt ty) 0 (fofInt i)))
  else ofElems ty (List.replicate n (wrapN (tyWidth ty) i))

namespace Env

/-- A source of the mood's type, or of a given one. -/
def srcTy (e : Env) (ty : Ty) (l : Lit) (f : BitVec 8) (t : Nat) : Except (BitVec 8) Nat :=
  match opnd f with
  | .imm i => .ok (immElems ty i)
  | .lit => .ok (if ty64 ty then l.w64 else l.w32 (tyFloat ty))
  | _ =>
    if ty64 ty then e.pread f t
    else match e.rread f 0 t with
      | .ok x => .ok x.toNat
      | .error x => .error x

/-- A 32-bit source that takes the integer reading. -/
def src32 (e : Env) (l : Lit) (f : BitVec 8) (t : Nat) : Except (BitVec 8) Nat := e.srcTy 0 l f t

/-- A 64-bit source that takes the integer reading. -/
def src64 (e : Env) (l : Lit) (f : BitVec 8) (t : Nat) : Except (BitVec 8) Nat := e.srcTy 9 l f t

/-- A uniform source: a uniform register or an immediate, read once. -/
def srcU (e : Env) (l : Lit) (f : BitVec 8) : Except (BitVec 8) Nat := e.srcTy 0 l f 0

/-- Register k of a group (R338). -/
def groupReg (e : Env) (f : BitVec 8) (k t : Nat) : Except (BitVec 8) Nat :=
  match e.rread f k t with
  | .ok x => .ok x.toNat
  | .error x => .error x

end Env

/-! ## Checks of operand positions (R336, R338, R339) -/

def aligned (f : BitVec 8) (k : Nat) : Bool := k == 0 || regNo f % k == 0

/-- A destination of `k` registers, vector or uniform. -/
def dstOk (f : BitVec 8) (k : Nat) : Bool := (isV f || isS f) && aligned f k

/-- A source of `k` registers, or an immediate. [DEDUCED 21] -/
def srcOk (f : BitVec 8) (k : Nat) : Bool := ((isV f || isS f) && aligned f k) || isImm f || isLit f

/-- A source that a uniform instruction may read. -/
def srcUOk (f : BitVec 8) (k : Nat) : Bool := (isS f && aligned f k) || isImm f || isLit f

def srcVOk (f : BitVec 8) (k : Nat) : Bool := isV f && aligned f k

/-- A source beside destination `d`: uniform when the destination is (R339). -/
def srcFor (d f : BitVec 8) (k : Nat) : Bool := srcOk f k && (!isS d || srcUOk f k)

def litFree (f : BitVec 8) : Bool := !isLit f

/-- The address field of MEM and ATM: an even pair of either class, or s1 (R338). -/
def addrOk (f : BitVec 8) : Bool := f == 0x81#8 || ((isV f || isS f) && aligned f 2)

/-- An operand pair outside an address field: s1 is misaligned there. -/
def pairOk (f : BitVec 8) : Bool := (isV f || isS f) && aligned f 2

/-! ## Physical registers (R182 to R184) -/

/-- A register with one granule replaced by `fn g`. -/
def PhysReg.ofGranules (fn : Nat → (Nat → W32) × Nat × Bool) : PhysReg where
  vals := Lanes.ofFn fun t => (fn (t / 4)).1 t
  tags := (List.range 4).map fun g => (fn g).2.1
  pend := (List.range 4).map fun g => (fn g).2.2

/-- Threads of granule g. -/
def granuleThreads (g : Nat) : List Nat := (List.range 4).map (4 * g + ·)

/-- The register that a write gives a name whose previous register is `prev` (R182). -/
def renamed (gen : Nat) (prev : Option PhysReg) (active : BitVec 16) (vals : Lanes) : PhysReg :=
  PhysReg.ofGranules fun g =>
    let any := (granuleThreads g).any fun t => active.getLsbD t
    let all := (granuleThreads g).all fun t => active.getLsbD t
    match prev with
    | none =>
      if any then (fun t => if active.getLsbD t then vals.get t else 0#32, gen, false) else (fun _ => 0#32, 0, false)
    | some r =>
      let own := r.tags.getD g 0 == gen
      if any then
        (fun t => if active.getLsbD t then vals.get t else if own then r.vals.get t else 0#32, gen,
          !all && own && r.pend.getD g false)
      else (r.vals.get, r.tags.getD g 0, r.pend.getD g false)

/-- Threads of the new register whose values come from pending granules of the previous one. -/
def heirThreads (gen : Nat) (prev : PhysReg) (active : BitVec 16) : BitVec 16 :=
  maskOf fun t => !active.getLsbD t && prev.tags.getD (t / 4) 0 == gen && prev.pend.getD (t / 4) false

namespace Warp

/-- Registers still held: mapped, named by the checkpoint of an open region, or awaited by a load (R182, R259). -/
def held (x : Warp) : List Nat :=
  x.rmap.map Prod.snd ++ (match x.region with
    | some r => r.rmap.map Prod.snd
    | none => []) ++
  x.loads.flatMap fun l =>
    l.2.prevs.filterMap Prod.snd ++ l.2.targets.map Prod.fst ++ l.2.heirs.flatMap fun h => [h.1, h.2.1]

/-- A number for a new physical register: no register has it and nothing holds it. -/
def newReg (x : Warp) : Nat := max (AMap.fresh x.phys) (x.held.foldl max 0 + 1)

def gc (x : Warp) : Warp :=
  let h := x.held
  { x with phys := x.phys.filter fun p => h.contains p.1 }

/-- Whether a load's data is due in granule `g` of a register. -/
def feeds (l : PendLoad) (p g : Nat) : Bool :=
  (l.targets.any fun t => t.1 == p && (granuleThreads g).any fun i => t.2.1.getLsbD i) ||
    l.heirs.any fun h => h.1 == p && (granuleThreads g).any fun i => h.2.2.getLsbD i

/-- Adds the heirs of a renaming to every load that fills the granules they came from. [DEDUCED 34] -/
def addHeirs (x : Warp) (prev new : Nat) (m : BitVec 16) : Warp :=
  if m = 0#16 then x
  else { x with loads := AMap.mapVals x.loads fun l =>
    let mine := maskOf fun t => m.getLsbD t && feeds l prev (t / 4)
    if mine = 0#16 then l else { l with heirs := l.heirs ++ [(new, prev, mine)] } }

/-- Writes a vector name for the active threads (R182). -/
def writeVec (x : Warp) (gen : Nat) (active : BitVec 16) (n : Nat) (vals : Lanes) : Warp :=
  let new := x.newReg
  let y := { x with rmap := AMap.set x.rmap n new, phys := AMap.set x.phys new (renamed gen (x.reg? n) active vals) }
  match AMap.get? x.rmap n, x.reg? n with
  | some p, some r => (y.addHeirs p new (heirThreads gen r active)).gc
  | _, _ => y

/-- Writes a uniform name: s0 discards the write (R179); in a region it counts as a uniform write (R267). -/
def writeUni (x : Warp) (gen : Nat) (inTry : Bool) (n : Nat) (v : W32) : Warp :=
  let y := if inTry then { x with region := x.region.map fun r => { r with uwrite := true } } else x
  if n = 0 then y else { y with sregs := AMap.set y.sregs n v, stags := AMap.set y.stags n gen }

/-- Writes the active threads' bits of a predicate; p7 discards the write (R179, R377). -/
def writePred (x : Warp) (active : BitVec 16) (n : Nat) (v : BitVec 16) : Warp :=
  if n = 7 then x
  else { x with preds := (List.range 7).map fun k =>
    if k = n then (x.preds.getD k 0#16 &&& ~~~active) ||| (v &&& active) else x.preds.getD k 0#16 }

/-- Registers of the checkpoint that no name maps to after the names `ns` are renamed (R183, R259). -/
def checkpointExtra (x : Warp) (ns : List Nat) : Nat :=
  match x.region with
  | none => 0
  | some r =>
    let live := (x.rmap.filter fun p => !ns.contains p.1).map Prod.snd
    ((r.rmap.map Prod.snd).filter fun q => !live.contains q).dedup.length

/-- Names mapped after an instruction that writes `ns`, with the checkpoint's registers (R183). -/
def liveAfter (x : Warp) (ns : List Nat) : Nat :=
  (x.rmap.map Prod.fst ++ ns).dedup.length + x.checkpointExtra ns

def quotaOk (x : Warp) (ns : List Nat) : Bool := decide (x.liveAfter ns + max 2 ns.dedup.length ≤ x.quota)

/-- Whether a write must wait for one of the warp's held registers to be freed (R183). -/
def mustWait (x : Warp) (ns : List Nat) : Bool := decide (x.phys.length + ns.dedup.length > x.quota)

end Warp

/-! ## Results of an instruction's threads -/

/-- The words of a pair, the low one first. -/
def words2 (x : Nat) : List W32 := [BitVec.ofNat 32 x, BitVec.ofNat 32 (x / 2 ^ 32)]

def wordsFor (regs x : Nat) : List W32 := if regs = 2 then words2 x else [BitVec.ofNat 32 x]

/-- A value for each active thread, or the first fault in thread order. -/
def eachThread {α : Type} (f : Nat → Except (BitVec 8) α) : List Nat → Except (BitVec 8) (List (Nat × α))
  | [] => .ok []
  | t :: ts =>
    match f t with
    | .error x => .error x
    | .ok v =>
      match eachThread f ts with
      | .error x => .error x
      | .ok l => .ok ((t, v) :: l)

/-- Lane values from per-thread word lists: word `k` of each thread that has one. -/
def lanesOf (rs : List (Nat × List W32)) (k : Nat) : Lanes :=
  Lanes.ofFn fun t => match rs.find? fun r => r.1 == t with
    | some r => r.2.getD k 0#32
    | none => 0#32

def Warp.writeVecs (x : Warp) (gen : Nat) (active : BitVec 16) (n : Nat) (rs : List (Nat × List W32)) : Nat → Warp
  | 0 => x
  | k + 1 => ((x.writeVecs gen active n rs k).writeVec gen active (n + k) (lanesOf rs k))

def Warp.writeUnis (x : Warp) (gen : Nat) (inTry : Bool) (n : Nat) : List W32 → Warp
  | [] => x
  | v :: vs => (x.writeUni gen inTry n v).writeUnis gen inTry (n + 1) vs

/-- The vector names that a destination field of `k` registers writes. -/
def dstNames (d : BitVec 8) (k : Nat) : List Nat := if isV d then (List.range k).map (regNo d + ·) else []

end Sys2Proof.Machine
end

