-- ==== Sys2Proof/Machine/Flags.lean ====
section
/-! DEFINITION. Every computation of a predicate bit or carry: integer and floating compares (R390, R394), classes
(R395), carries (R384), the guard (R347) and the exact integer functions with their wrap or clamp (R275, R381 to R388). -/

namespace Sys2Proof.Machine

/-! ## Wrap and clamp (R6, R275) -/

def tyMin (ty : Ty) : Int := if tySigned ty then -(2 ^ (tyWidth ty - 1) : Nat) else 0
def tyMax (ty : Ty) : Int := if tySigned ty then (2 ^ (tyWidth ty - 1) : Nat) - 1 else (2 ^ tyWidth ty : Nat) - 1

def clampI (lo hi x : Int) : Int := max lo (min hi x)

/-- An exact result in an element: clamped under SAT, else wrapped. -/
def narrowI (ty : Ty) (sat : Bool) (x : Int) : Nat :=
  wrapN (tyWidth ty) (if sat then clampI (tyMin ty) (tyMax ty) x else x)

/-! ## Elementwise maps -/

def map1 (ty : Ty) (f : Nat → Nat) (x : Nat) : Nat := ofElems ty ((elems ty x).map f)
def map2 (ty : Ty) (f : Nat → Nat → Nat) (x y : Nat) : Nat := ofElems ty (List.zipWith f (elems ty x) (elems ty y))
def map3 (ty : Ty) (f : Nat → Nat → Nat → Nat) (x y z : Nat) : Nat :=
  ofElems ty (List.zipWith (fun g c => g c) (List.zipWith f (elems ty x) (elems ty y)) (elems ty z))

def int2 (ty : Ty) (sat : Bool) (f : Int → Int → Int) : Nat → Nat → Nat :=
  map2 ty fun x y => narrowI ty sat (f (elemInt ty x) (elemInt ty y))

/-! ## Shifts (R383) -/

def shlElem (ty : Ty) (sat : Bool) (x n : Nat) : Nat :=
  if sat then
    -- past the width every nonzero element saturates; the exponent is bounded so that the product stays small
    narrowI ty true (elemInt ty x * (2 ^ min n (tyWidth ty) : Nat))
  else if n ≥ tyWidth ty then 0 else x * 2 ^ n % 2 ^ tyWidth ty

def shrElem (ty : Ty) (x n : Nat) : Nat := if n ≥ tyWidth ty then 0 else x % 2 ^ tyWidth ty / 2 ^ n

def sraElem (ty : Ty) (x n : Nat) : Nat := wrapN (tyWidth ty) (sext (tyWidth ty) x / (2 ^ min n (tyWidth ty) : Nat))

def rotElem (ty : Ty) (x n : Nat) : Nat :=
  let w := tyWidth ty
  let k := n % w
  (x * 2 ^ k + x / 2 ^ (w - k)) % 2 ^ w

/-- A shift's counts: element k of b, or the whole 32-bit operand under i64 and n64. -/
def shiftMap (ty : Ty) (f : Nat → Nat → Nat) (x n : Nat) : Nat := if ty64 ty then f x n else map2 ty f x n

/-! ## Bit counts and fields (R386 to R388) -/

def popcN : Nat → Nat → Nat
  | 0, _ => 0
  | k + 1, x => x % 2 + popcN k (x / 2)

def clzN : Nat → Nat → Nat
  | 0, _ => 0
  | k + 1, x => if x.testBit k then 0 else 1 + clzN k x

def brevN : Nat → Nat → Nat
  | 0, _ => 0
  | k + 1, x => x % 2 * 2 ^ k + brevN k (x / 2)

def bfeW (w : Nat) (signed : Bool) (a b c : Nat) : Nat :=
  let p := min b w
  let l := min c (w - p)
  let f := a / 2 ^ p % 2 ^ l
  if l = 0 then 0 else if signed then wrapN w (sext l f) else f

def bfiW (w a b c : Nat) : Nat :=
  let p := min (bits c 7 0) w
  let l := min (bits c 15 8) (w - p)
  if l = 0 then b else b - b / 2 ^ p % 2 ^ l * 2 ^ p + a % 2 ^ l * 2 ^ p

def permByte (a b c k : Nat) : Nat :=
  let n := bits c (4 * k + 3) (4 * k)
  let i := n % 8
  let s := if i < 4 then bits a (8 * i + 7) (8 * i) else bits b (8 * (i - 4) + 7) (8 * (i - 4))
  if n < 8 then s else if s ≥ 128 then 0xff else 0

def permW (a b c : Nat) : Nat := packElems 8 ((List.range 4).map (permByte a b c))

/-! ## Predicate bits -/

/-- Whether a condition holds in every element (R377). -/
def all2 (ty : Ty) (f : Nat → Nat → Bool) (x y : Nat) : Bool :=
  (List.zipWith f (elems ty x) (elems ty y)).all id

inductive CmpOp where
  | eq | ne | lt | ge | le | gt | ltu | geu
deriving DecidableEq, Repr

/-- cmp of one pair of elements (R390). -/
def cmpElem (op : CmpOp) (ty : Ty) (x y : Nat) : Bool :=
  let a := elemInt ty x
  let b := elemInt ty y
  match op with
  | .eq => x == y
  | .ne => x != y
  | .lt => decide (a < b)
  | .ge => decide (b ≤ a)
  | .le => decide (a ≤ b)
  | .gt => decide (b < a)
  | .ltu => decide (x < y)
  | .geu => decide (y ≤ x)

inductive FCmpOp where
  | eq | ne | lt | ge | le | gt | ord | uno
deriving DecidableEq, Repr

/-- fcmp of one pair of values (R394, R280). -/
def fcmpVal (op : FCmpOp) (x y : FVal) : Bool :=
  let n := x.isNan || y.isNan
  match op with
  | .eq => !n && feqV x y
  | .ne => n || !feqV x y
  | .lt => !n && fltV x y
  | .ge => !n && (fltV y x || feqV x y)
  | .le => !n && (fltV x y || feqV x y)
  | .gt => !n && fltV y x
  | .ord => !n
  | .uno => n

/-- addc: sum and carry-out (R384). -/
def addcW (x y : Nat) (ci : Bool) : Nat × Bool :=
  let e := x + y + (if ci then 1 else 0)
  (e % 2 ^ 32, decide (2 ^ 32 ≤ e))

/-- subb: difference and borrow-out (R384). -/
def subbW (x y : Nat) (ci : Bool) : Nat × Bool :=
  let e : Int := (x : Int) - y - (if ci then 1 else 0)
  (wrapN 32 e, decide (e < 0))

end Sys2Proof.Machine
end

