-- ==== Sys2Proof/Machine/Fetch.lean ====
section
/-! DEFINITION. Fetch lines: reading one (R331), its checks (R333), where an instruction continues (R334), and the check
of a target (R335). -/

namespace Sys2Proof.Machine

/-! ## The selvage (R331, R332) -/

abbrev FetchLine := List W32

namespace FetchLine

def word (l : FetchLine) (k : Nat) : W32 := l.getD k 0#32
def kind (l : FetchLine) : Nat := bits (l.word 0).toNat 31 30
/-- Whether word k begins an instruction; k counts from the line's start. -/
def start (l : FetchLine) (k : Nat) : Bool := decide (2 ≤ k ∧ k < 32) && (l.word 0).getLsbD (k - 2)
def target (l : FetchLine) (k : Nat) : Bool := decide (2 ≤ k ∧ k < 32) && (l.word 1).getLsbD (k - 2)
def noFall (l : FetchLine) : Bool := (l.word 1).getLsbD 30

end FetchLine

/-- Opcodes of format G4 (R350). -/
def isG4Op (op : Nat) : Bool :=
  [0x1e, 0x1f, 0x24, 0x25, 0x31, 0x32, 0x36, 0x37, 0x83, 0x84, 0x8c, 0xc5, 0xc6, 0xc7, 0xca, 0xd9].contains op

def isAtmOp (op : Nat) : Bool := decide (0xb0 ≤ op ∧ op ≤ 0xb9)

/-- MEM opcodes of the X form (R341, R342). -/
def isMemXOp (op : Nat) : Bool :=
  decide ((0x48 ≤ op ∧ op ≤ 0x4e) ∨ (0x58 ≤ op ∧ op ≤ 0x5d) ∨ (0x68 ≤ op ∧ op ≤ 0x6e ∧ op ≠ 0x69 ∧ op ≠ 0x6b) ∨
    (0x78 ≤ op ∧ op ≤ 0x7e))

/-- G3 opcodes whose field a is an operand field (R350, R353, R380, R406): raw fields, and fields that must be zero, make no
instruction longer. [DEDUCED 16] -/
def g3FieldA (op : Nat) : Bool :=
  [0x05, 0x06, 0x07, 0x0b, 0x0c, 0x0e, 0x0f, 0x10, 0x11, 0x12, 0x13, 0x14, 0x15].contains op ||
    (decide (0x20 ≤ op ∧ op ≤ 0x3f) && !isG4Op op) || (decide (0x80 ≤ op ∧ op ≤ 0xa6 ∧ op ≠ 0x8d ∧ op ≠ 0x8e ∧ op ≠ 0x8f) &&
      !isG4Op op) || [0xbd, 0xc4, 0xc9, 0xd0, 0xd1, 0xd2].contains op

/-- G3 opcodes whose field b is an operand field. [DEDUCED 16] -/
def g3FieldB (op : Nat) : Bool :=
  [0x0f, 0x10, 0x11, 0x12].contains op ||
    (decide (0x20 ≤ op ∧ op ≤ 0x3f) && !isG4Op op && !([0x26, 0x33, 0x34, 0x35].contains op)) ||
    (decide (0x80 ≤ op ∧ op ≤ 0x97) && !isG4Op op && !([0x87, 0x88, 0x8a, 0x8d, 0x8e, 0x8f].contains op)) ||
    [0xa2, 0xa3, 0xa4, 0xbd, 0xc3, 0xc4, 0xcc, 0xd0, 0xd2].contains op

/-- Words of a lane instruction (R332). [DEDUCED 16] -/
def laneLen (w : W32) : Nat :=
  let op := bits w.toNat 31 24
  if isG4Op op || isAtmOp op || isMemXOp op then 2
  else if (g3FieldA op && bits w.toNat 15 8 == 0xff) || (g3FieldB op && bits w.toNat 7 0 == 0xff) then 2
  else 1

/-- The checks of a lane line in the order of R333. -/
def laneLineCheck (l : FetchLine) : Option (BitVec 8) :=
  let ks := (List.range 30).map (· + 2)
  if l.kind != 0 then some fcBadTarget
  else if (l.word 1).getLsbD 31 || ks.any (fun k => l.target k && !l.start k) then some fcBadTarget
  else if ks.any fun k => l.start k && laneLen (l.word k) == 2 && (k == 31 || l.start (k + 1)) then some fcBadOpcode
  else if ks.any fun k => !l.start k && !(l.start (k - 1) && laneLen (l.word (k - 1)) == 2) && l.word k != 0#32 then
    some fcBadOpcode
  else none

/-- The checks of a weft line: a fault code and detail (R333). -/
def weftLineCheck (l : FetchLine) : Option (BitVec 8 × BitVec 8) :=
  let ks := (List.range 30).map (· + 2)
  if l.kind != 1 then some (fcWeft, 6#8)
  else if (l.word 1).getLsbD 31 || ks.any (fun k => l.target k && !l.start k) then some (fcBadTarget, 0#8)
  else if ks.any fun k => !l.start k && l.word k != 0#32 then some (fcWeft, 1#8)
  else none

def wordIndex (pc : W64) : Nat := pc.toNat % 128 / 4

/-- Whether the word at `pc` begins an instruction; at the first fetch of a warp or sequencer it must be word 2 of its line
and marked as a target (R146, R334). [DEDUCED 17] -/
def entryOk (l : FetchLine) (first : Bool) (pc : W64) : Bool :=
  decide (pc.toNat % 4 = 0) && l.start (wordIndex pc) && (!first || (wordIndex pc == 2 && l.target 2))

def lineBase (pc : W64) : W64 := BitVec.ofNat 64 (pc.toNat / 128 * 128)

/-- The next START-marked word at or after `k`. -/
def nextStart (l : FetchLine) : Nat → Nat → Option Nat
  | 0, _ => none
  | n + 1, k => if k ≥ 32 then none else if l.start k then some k else nextStart l n (k + 1)

/-- Word 2 of the line after the one that holds `pc`. -/
def nextLineEntry (pc : W64) : W64 := lineBase pc + 136#64

/-- Where an instruction of `n` words at `pc` continues; an error is the address at which falling through is forbidden
(R334). [DEDUCED 17] -/
def continuation (l : FetchLine) (pc : W64) (n : Nat) : Except W64 W64 :=
  match nextStart l 32 (wordIndex pc + n) with
  | some k => .ok (lineBase pc + BitVec.ofNat 64 (4 * k))
  | none => if l.noFall then .error (nextLineEntry pc) else .ok (nextLineEntry pc)

/-- The link of a call (R358). -/
def linkOf (l : FetchLine) (pc : W64) (n : Nat) : W64 :=
  match continuation l pc n with
  | .ok a => a
  | .error a => a

namespace State

/-! ### The instruction caches (R252) -/

/-- Key of a line in the instruction cache of a core: by core, world and place. [DESIGN CHOICE 43] -/
def codeKey (core w : Nat) (a : BAcc) (off : Nat) : Nat := (core * 64 + w) * 2 ^ 72 + a.loc.key * 256 + off

/-- The bytes of a line that a core's instruction cache serves, given what memory answers now (`now`): an entry whose bytes
memory no longer holds may have been evicted at any moment. [DESIGN CHOICE 43] -/
def cachedCode (s : State) (core w : Nat) (p : Place) (now : Except (BitVec 8) (List Byte)) : Option (List Byte) :=
  match p with
  | .block a off =>
    match AMap.get? s.icache (codeKey core w a off) with
    | none => none
    | some bs =>
      match now with
      | .ok ns => if ns = bs then some bs else if Config.coin s.tick then some bs else none
      | .error _ => if Config.coin s.tick then some bs else none
  | _ => none

def keepCode (s : State) (core w : Nat) (p : Place) (bs : List Byte) : State :=
  match p with
  | .block a off => { s with icache := AMap.set s.icache (codeKey core w a off) bs }
  | _ => s

/-- Every instruction-cache line of a world on every core is invalidated: fence.code, LAUNCH and GRAPH (R252). -/
def dropCode (s : State) (w : Nat) : State := { s with icache := s.icache.filter fun p => p.1 / 2 ^ 72 % 64 != w }

/-- The 32 words of the line that holds `pc`, fetched by a core in a world and context; a fetch is translated like a load,
and does not observe a write to a line that its cache still holds (R252). [DESIGN CHOICE 18] [DESIGN CHOICE 43] -/
def fetchLine (s : State) (core w c : Nat) (pc : W64) : Except Flt FetchLine × State :=
  if pc.toNat ≥ 2 ^ 56 then (.error { code := fcProtection, addr := pc }, s)
  else
    match s.resolve w c (lineBase pc).toNat .fetch with
    | .fault f => (.error { f with addr := pc }, s)
    | .stall => (.error { code := fcPageFault, addr := pc }, s)
    | .place p =>
      match s.cachedCode core w p (s.readPlace w c p 128).1 with
      | some bs => (.ok ((List.range 32).map fun k => wordAt bs k), s)
      | none =>
        match s.readPlace w c p 128 with
        | (.error e, s1) => (.error { code := e, addr := pc }, s1)
        | (.ok bs, s1) => (.ok ((List.range 32).map fun k => wordAt bs k), s1.keepCode core w p bs)

/-- Whether control may enter at `va`: a TARGET-marked word of a line of the stream's kind (R335). -/
def targetFault (s : State) (core w c kind : Nat) (va : W64) : Option Flt × State :=
  if va.toNat % 4 != 0 then (some { code := fcBadTarget, addr := va }, s)
  else
    match s.fetchLine core w c va with
    | (.error f, s1) => (some f, s1)
    | (.ok l, s1) =>
      if l.kind = kind && l.target (wordIndex va) then (none, s1) else (some { code := fcBadTarget, addr := va }, s1)

/-- The first failing target of a list, the lowest thread first. -/
def targetsFault (core w c : Nat) : List (Nat × W64) → State → Option Flt × State
  | [], s => (none, s)
  | (_, va) :: ts, s =>
    match s.targetFault core w c 0 va with
    | (some f, s1) => (some f, s1)
    | (none, s1) => targetsFault core w c ts s1

end State

end Sys2Proof.Machine
end

