-- ==== Sys2Proof/Machine/Splits.lean ====
section
/-! DEFINITION. Splits: dividing (R180), ending, merging (R181), switching threads off (R200), and what a try region does
to the warp: rollback and masked merge (R267 to R271) and commit (R268). -/

namespace Sys2Proof.Machine

/-! ## Lists of splits -/

def freeActive (x : Warp) : List Nat := (List.range 4).filter fun k => !AMap.has x.active k

/-- Pending splits take the places of ended active ones, the oldest first (R180). -/
def Warp.promote : Nat → Warp → Warp
  | 0, x => x
  | n + 1, x =>
    match x.pending, freeActive x with
    | q :: qs, k :: _ => Warp.promote n { x with active := AMap.set x.active k q, pending := qs }
    | _, _ => x

/-- Drops splits without threads. -/
def Warp.dropEmpty (x : Warp) : Warp :=
  Warp.promote 8 { x with active := x.active.filter (fun p => p.2.mask != 0#16),
                          pending := x.pending.filter fun q => q.mask != 0#16 }

/-- A warp has ended when it has no split left (R362). -/
def Warp.ended (x : Warp) : Bool := x.active.isEmpty && x.pending.isEmpty

/-- Groups of threads by next program counter, in the order of their lowest thread (R180). -/
def groupsOf : List (Nat × W64) → List (W64 × BitVec 16)
  | [] => []
  | (t, pc) :: ts =>
    let rest := groupsOf ts
    let bit := BitVec.ofNat 16 (2 ^ t)
    match rest.find? fun g => g.1 == pc with
    | some g => (pc, g.2 ||| bit) :: rest.filter fun g => g.1 != pc
    | none => (pc, bit) :: rest

/-- Places for new splits. -/
def Warp.places (x : Warp) : Nat := (freeActive x).length + (4 - x.pending.length)

/-- Adds a new split: to a free active place, else to the end of the pending list (R180). -/
def Warp.addSplit (x : Warp) (q : Split) : Warp :=
  match freeActive x with
  | k :: _ => { x with active := AMap.set x.active k q }
  | [] => { x with pending := x.pending ++ [q] }

/-- Divides a split by the next program counters of its active threads; inactive threads go with the first group. None:
no place for a group (DIVERGE). -/
def Warp.divide (x : Warp) (sp : Nat) (nexts : List (Nat × W64)) : Option Warp :=
  match groupsOf nexts, AMap.get? x.active sp with
  | [], _ => some x
  | _, none => some x
  | (pc0, _) :: gs, some q =>
    if gs.length > x.places then none
    else
      let away := gs.foldl (fun m g => m ||| g.2) 0#16
      let x1 := { x with active := AMap.set x.active sp { q with pc := pc0, mask := q.mask &&& ~~~away, park := .ready } }
      some (gs.foldl (fun x g => x.addSplit { q with pc := g.1, mask := g.2, park := .ready }) x1)

/-! ## Merging (R181) -/

def mergeable (p : Park) : Bool := p == .ready || p == .join

/-- The first pair of active splits that merge. -/
def Warp.mergePair (x : Warp) : Option (Nat × Split × Nat × Split) :=
  x.active.findSome? fun p => (x.active.find? fun q =>
      decide (p.1 < q.1) && p.2.pc == q.2.pc && p.2.mood == q.2.mood && p.2.inTry == q.2.inTry &&
        mergeable p.2.park && mergeable q.2.park).map fun q => (p.1, p.2, q.1, q.2)

namespace State

/-- Merges splits until none can; one that waited in the join form continues after its waitf, which then retires. -/
def mergeSplits (b w : Nat) : Nat → State → State
  | 0, s => s
  | n + 1, s =>
    match s.block? b, s.warp? b w with
    | some k, some x =>
      match x.mergePair with
      | none => s
      | some (i, p, j, q) =>
        let joined := p.park == .join || q.park == .join
        let (l, s1) := if joined then s.fetchLine k.core k.world k.ctx p.pc else (.ok [], s)
        let pc : W64 := match joined, l with
          | true, .ok l => linkOf l p.pc 1
          | _, _ => p.pc
        let m : Split := { p with mask := p.mask ||| q.mask, park := .ready, pc := pc }
        mergeSplits b w n (s1.updWarp b w fun x =>
          let x1 : Warp := { x with active := AMap.set (AMap.erase x.active j) i m
                                    retired := if joined then x.retired + 1 else x.retired }
          x1.dropEmpty)
    | _, _ => s

/-- The first switch-off of a warp keeps the two addresses of its report (R200). -/
def switchOff (s : State) (b w : Nat) (pc addr : W64) (off : BitVec 16) : State :=
  if off = 0#16 then s
  else s.updWarp b w fun x =>
    let first := x.faultMask == 0#16
    { x with faultMask := x.faultMask ||| off, switchPc := if first then pc else x.switchPc
             switchAddr := if first then addr else x.switchAddr
             active := AMap.mapVals x.active fun q => { q with mask := q.mask &&& ~~~off }
             pending := x.pending.map fun q => { q with mask := q.mask &&& ~~~off }
             region := x.region.map fun r =>
               { r with buf := r.buf.map (fun e => { data := e.data.filter fun d => !off.getLsbD d.1 }) } }

end State

/-! ## Try regions: rollback (R267 to R270) -/

/-- What one thread reads of a register: its value under the block's generation, else zero. -/
def readGranule (gen : Nat) (r : Option PhysReg) (t : Nat) : W32 :=
  match r with
  | none => 0#32
  | some r => if r.tags.getD (t / 4) 0 == gen then r.vals.get t else 0#32

def granulePend (r : Option PhysReg) (g : Nat) : Bool :=
  match r with
  | none => false
  | some r => r.pend.getD g false

def granuleTag (r : Option PhysReg) (g : Nat) : Nat :=
  match r with
  | none => 0
  | some r => r.tags.getD g 0

/-- The merged register of one name (R270). -/
def mergedReg (gen : Nat) (back : BitVec 16) (old cur : Option PhysReg) : PhysReg :=
  PhysReg.ofGranules fun g =>
    let ts := granuleThreads g
    if ts.all fun t => back.getLsbD t then (readRaw old, granuleTag old g, granulePend old g)
    else if ts.all fun t => !back.getLsbD t then (readRaw cur, granuleTag cur g, granulePend cur g)
    else (fun t => readGranule gen (if back.getLsbD t then old else cur) t, gen, granulePend old g || granulePend cur g)
where
  readRaw (r : Option PhysReg) (t : Nat) : W32 :=
    match r with
    | none => 0#32
    | some r => r.vals.get t

/-- Restores one name of a rolled-back thread set. -/
def Warp.mergeName (gen : Nat) (back : BitVec 16) (r : Region) (x : Warp) (n : Nat) : Warp :=
  let old := AMap.get? r.rmap n
  let cur := AMap.get? x.rmap n
  if old = cur then x
  else
    let oldR := old.bind fun p => AMap.get? x.phys p
    let curR := cur.bind fun p => AMap.get? x.phys p
    let new := x.newReg
    let y := { x with rmap := AMap.set x.rmap n new, phys := AMap.set x.phys new (mergedReg gen back oldR curR) }
    let fromOld := maskOf fun t => back.getLsbD t && granulePend oldR (t / 4)
    let fromCur := maskOf fun t => !back.getLsbD t && granulePend curR (t / 4)
    let y1 := match old with
      | some p => y.addHeirs p new fromOld
      | none => y
    match cur with
    | some p => y1.addHeirs p new fromCur
    | none => y1

/-- The masked merge of R270. -/
def Warp.mergeBack (x : Warp) (gen : Nat) (back : BitVec 16) (r : Region) : Warp :=
  let names := (x.rmap.map Prod.fst ++ r.rmap.map Prod.fst).dedup.insertionSort (fun a b => a ≤ b)
  let y := names.foldl (Warp.mergeName gen back r) x
  { y with preds := (List.range 7).map fun k => (x.preds.getD k 0#16 &&& ~~~back) ||| (r.preds.getD k 0#16 &&& back) }.gc

def setCodes (old : Lanes) (back : BitVec 16) (code : Nat → W32) : Lanes :=
  Lanes.ofFn fun t => if back.getLsbD t then code t else old.get t

/-- An abort code with its detail (R265). -/
def abortWord (code detail : Nat) : W32 := BitVec.ofNat 32 (code + 256 * detail)

/-- Threads of the warp that are in its open region. -/
def Warp.regionThreads (x : Warp) : BitVec 16 :=
  (x.active.map Prod.snd ++ x.pending).foldl (fun m q => if q.inTry then m ||| q.mask else m) 0#16

/-- Whether a load issued in the region has not completed. -/
def Warp.regionLoads (x : Warp) : Bool := x.loads.any fun l => l.2.inTry

/-- The split in which rolled-back threads continue (R269). -/
def fallbackSplit (r : Region) (back : BitVec 16) : Split :=
  { pc := r.fallback, mask := back, mood := r.mood, inTry := false, park := .ready }

/-- Rolls every thread still in the region back (R269). A doomed thread keeps its own code (R267). -/
def Warp.rollWhole (x : Warp) (gen : Nat) (code : W32) : Warp :=
  match x.region with
  | none => x
  | some r =>
    let back := x.regionThreads
    -- with every thread that has not exited in the region, the rename map is restored as it was
    let y := if (x.active.map Prod.snd ++ x.pending).all Split.inTry then { x with rmap := r.rmap, preds := r.preds }
      else x.mergeBack gen back r
    let q := fallbackSplit r back
    let place := (x.active.find? fun p => p.2.inTry).map Prod.fst
    let act := y.active.filter fun p => !p.2.inTry
    let z := { y with active := act, pending := y.pending.filter (fun q => !q.inTry), region := none
                      sregs := r.sregs, stags := r.stags
                      abortmask := y.abortmask ||| back
                      abortcode := setCodes y.abortcode back fun t => if r.doomed.getLsbD t then r.doom.get t else code }
    let z1 : Warp := match place with
      | some k => { z with active := AMap.set z.active k q }
      | none => z.addSplit q
    (z1.gc).dropEmpty

/-- Rolls some threads back: they leave their splits, and their buffered stores and dooms go (R269, R270). [DEDUCED 36] -/
def Warp.rollThreads (x : Warp) (gen : Nat) (back : BitVec 16) (code : Nat → W32) (r : Region) : Warp :=
  let y := x.mergeBack gen back r
  { y with
    active := AMap.mapVals y.active fun q => if q.inTry then { q with mask := q.mask &&& ~~~back } else q
    pending := y.pending.map fun q => if q.inTry then { q with mask := q.mask &&& ~~~back } else q
    abortmask := y.abortmask ||| back
    abortcode := setCodes y.abortcode back code
    region := y.region.map fun r =>
      { r with mask := r.mask &&& ~~~back, doomed := r.doomed &&& ~~~back
               buf := r.buf.map fun e => { data := e.data.filter fun d => !back.getLsbD d.1 } } }

/-- Closes a region that no thread is left in. -/
def Warp.closeIfEmpty (x : Warp) : Warp :=
  (if x.regionThreads = 0#16 then { x with region := none } else x).gc

/-- Abort by some threads of split `sp`; when they are all its threads the split itself moves. None: no place for the
new split (R271, R269). -/
def Warp.abortThreads (x : Warp) (gen sp : Nat) (back : BitVec 16) (imm : Nat) : Option Warp :=
  match x.region with
  | none => some x
  | some r =>
    let y := x.rollThreads gen back (fun t => if r.doomed.getLsbD t then r.doom.get t else abortWord 1 imm) r
    match AMap.get? y.active sp with
    | none => some y
    | some q =>
      if q.mask = 0#16 then some ({ y with active := AMap.set y.active sp (fallbackSplit r back) }).closeIfEmpty
      else if y.places = 0 then none
      else some (y.addSplit (fallbackSplit r back)).closeIfEmpty

/-! ## Commit (R268) -/

/-- Every split of the region is parked at a commit. -/
def Warp.allAtCommit (x : Warp) : Bool :=
  (x.active.map Prod.snd ++ x.pending).all fun q => !q.inTry || q.park == .commit

/-- The region closes: every split leaves it, and the checkpoint's holds go. -/
def Warp.closeRegion (x : Warp) : Warp :=
  Warp.gc { x with region := none
                   active := AMap.mapVals x.active fun q => { q with inTry := false }
                   pending := x.pending.map fun q => { q with inTry := false } }

/-- A split at a commit gives up its active place while the warp has a pending split that is not at one. -/
def Warp.yieldPlace (x : Warp) (sp : Nat) : Warp :=
  match AMap.get? x.active sp, x.pending with
  | some q, p :: ps =>
    if q.park == .commit then { x with active := AMap.set x.active sp p, pending := ps ++ [q] } else x
  | _, _ => x

/-- When every split of the region stands at a commit in the pending list, one of them comes back for the commit, in the
place of an active split that no event completes (R268). -/
def Warp.bringCommit (x : Warp) : Warp :=
  if x.region.isNone || !x.allAtCommit || x.active.any fun p => p.2.inTry then x
  else
    match x.pending.find? Split.inTry, x.active.find? fun p => p.2.park == .ready || p.2.park == .tryWait with
    | some q, some (k, p) => { x with active := AMap.set x.active k q, pending := p :: x.pending.erase q }
    | _, _ => x

/-- The writes of a commit, in warp order and ascending thread (R268). -/
def Region.stores (r : Region) : List (Nat × W64 × List Byte) :=
  r.buf.flatMap fun e => (e.data.filter fun d => !r.doomed.getLsbD d.1).map fun d => (d.1, d.2.1, d.2.2)

/-- Doomed threads still in the region. [DEDUCED 36] -/
def Warp.doomedNow (x : Warp) : BitVec 16 :=
  match x.region with
  | none => 0#16
  | some r => r.doomed &&& x.regionThreads

def lowestCode (r : Region) (m : BitVec 16) : W32 :=
  match threadsOf m with
  | t :: _ => r.doom.get t
  | [] => 0#32

end Sys2Proof.Machine
end

