-- ==== Sys2Proof/Machine/Issue.lean ====
section
/-! DEFINITION. How a lane instruction issues: the order of checks (R348), the active threads (R347), the quota (R183),
and what follows it: where its split continues (R334), what a fault does (R205), a rollback (R269), merging (R181), sheds
that a warp's end completes (R420). Every lane meaning is one `LaneSpec` run by `runLane`. -/

namespace Sys2Proof.Machine

/-- What an instruction comes to. -/
inductive Eff where
  /-- It has completed, and its split continues after it. -/
  | ok (s : State)
  /-- It has completed, its split continues after it, and then something follows. -/
  | okThen (s : State) (f : State → State)
  /-- It has completed and has set its split's program counter, or ended the split. -/
  | jump (s : State)
  /-- As `jump`, and then something follows. -/
  | jumpThen (s : State) (f : State → State)
  /-- It has acted and stays where it is. -/
  | stay (s : State)
  /-- It has not acted; its split is parked and it issues again. -/
  | park (s : State) (p : Park)
  | fault (s : State) (f : Flt)
  /-- The whole warp rolls back with an abort code and detail. -/
  | roll (s : State) (code detail : Nat)

/-- One instruction at issue. -/
structure LaneSpec where
  /-- The feature that enables it (R113). -/
  feat : Option Nat := none
  /-- Its operand fields hold values of the accepted classes (R336 to R344). -/
  opOk : Bool := true
  /-- The mood TYPE is one it accepts (R346). -/
  moodOk : Bool := true
  /-- The word offset of a static target (R335). -/
  target : Option Int := none
  /-- Its opcode, when it is illegal in a try region (R266). -/
  illegal : Option Nat := none
  /-- It needs the shuttle rights (R145). -/
  shuttle : Bool := false
  /-- Handle checks on uniform operands and raw fields (R348 step 8). -/
  pre : Option Flt := none
  /-- It acts on the active threads only (R347). -/
  guarded : Bool := true
  /-- The vector names it writes (R183). -/
  dsts : List Nat := []
  act : State → FetchLine → Eff

def targetOf (pc : W64) (off : Int) : W64 := BitVec.ofNat 64 (wrapN 64 (pc.toNat + 4 * off))

/-- The feature of the instruction is off for its world (R113). -/
def LaneSpec.featOff (sp : LaneSpec) (e : Env) (s : State) : Bool :=
  match sp.feat with
  | some n => !s.feature e.blk.world n
  | none => false

/-- The check of a static target (R335). -/
def LaneSpec.checkTarget (sp : LaneSpec) (e : Env) (s : State) : Option Flt × State :=
  match sp.target with
  | some o => s.targetFault e.blk.core e.blk.world e.blk.ctx 0 (targetOf e.pc o)
  | none => (none, s)

/-- The checks of R348 after those of the line, then the instruction. -/
def LaneSpec.run (sp : LaneSpec) (e : Env) (l : FetchLine) (s : State) : Eff :=
  if sp.featOff e s then .fault s { code := fcBadOpcode }
  else if !sp.opOk then .fault s { code := fcBadOperand }
  else if !sp.moodOk then .fault s { code := fcBadMood }
  else
    match sp.checkTarget e s with
    | (some f, s1) => .fault s1 f
    | (none, s1) =>
      match (if e.inTry then sp.illegal else none) with
      | some op => .roll s1 7 op
      | none =>
        if sp.shuttle && !e.wp.shuttle then .fault s1 { code := fcNoShuttle }
        else
          match sp.pre with
          | some f => .fault s1 f
          | none =>
            if sp.guarded && e.idle then .ok s1
            else if !sp.dsts.isEmpty && !e.wp.quotaOk sp.dsts then
              if e.inTry then .roll s1 4 0 else .fault s1 { code := fcQuota }
            else if !sp.dsts.isEmpty && e.wp.mustWait sp.dsts then .park s1 .regWait
            else sp.act s1 l

/-! ## Sheds (R420) -/

/-- Whether every participant of a shed that has not ended has arrived. -/
def shedComplete (k : Block) (x : Shed) : Bool :=
  ((List.range x.num).all fun i =>
    let w := x.first + i
    x.arrived.contains w || (match AMap.get? k.warps w with
      | some y => y.ended
      | none => true)) &&
  (!x.weft || x.weftArrived || (match k.weft with
    | some y => y.ended
    | none => true))

/-- Whether anybody has arrived, or may still arrive: an empty phase of ended participants does not complete again. -/
def shedPending (x : Shed) : Bool := !x.arrived.isEmpty || x.weftArrived

def Shed.complete (x : Shed) : Shed := { x with arrived := [], weftArrived := false, k := x.k + 1#32 }

/-- Completes the phases whose participants have all arrived. -/
def Block.settleSheds (k : Block) : Block :=
  { k with sheds := AMap.mapVals k.sheds fun x => if shedPending x && shedComplete k x then x.complete else x }

/-- The participants of a block's rotation: its warps by number, then the weft sequencer under the number after the
last warp (R157). -/
def Block.partLive (k : Block) (n : Nat) : Bool :=
  match AMap.get? k.warps n with
  | some x => !x.ended
  | none => n == k.warps.length && (match k.weft with
    | some y => !y.ended
    | none => false)

/-- The first participant at or after `n` in rotation that has not ended. -/
def Block.partFrom (k : Block) (n : Nat) : Nat :=
  let m := k.warps.length + 1
  (((List.range m).map fun i => (n + i) % m).find? k.partLive).getD 0

/-! ## After an instruction -/

/-- The quarter that holds a warp of a block. -/
def quarterOf (k : Block) (w : Nat) : Nat := k.quarters.getD (w % k.nq) 0

def Block.resident (k : Block) : Bool :=
  match k.run with
  | .saved => false
  | .ended => false
  | _ => true

namespace State

/-- The warps resident on a lane of a quarter, each with its block and number. -/
def laneWarps (s : State) (q lane : Nat) : List (Nat × Nat × Warp) :=
  s.blocks.flatMap fun p =>
    if p.2.resident then
      (p.2.warps.filter fun x => quarterOf p.2 x.1 == q && x.2.lane == lane).map fun x => (p.1, x.1, x.2)
    else []

/-- A turn has been taken by split `sp` of warp `w`: the pointers of the rotations move (R155, R157). -/
def turnTaken (s : State) (b w sp : Nat) : State :=
  (s.updWarp b w fun x => { x with splitPtr := sp, polled := 0 }).updBlock b fun k =>
    { k with rot := (w + 1) % (k.warps.length + 1) }

/-- The turn passes with nothing issued: the warp's next split comes, and once all have been offered the lane's next slot
(R155, R157). An instruction that has parked was not in progress at a halt (R205). -/
def turnPassed (s : State) (b w sp : Nat) : State :=
  (s.updWarp b w fun x =>
    { x with splitPtr := sp, polled := if x.polled + 1 < x.active.length then x.polled + 1 else 0, due := false }).updBlock b
    fun k => { k with rot := (w + 1) % (k.warps.length + 1) }

/-- Counts an instruction of a warp (R367, R157). -/
def retire (s : State) (b w sp : Nat) : State :=
  let s1 := s.updBlock b fun k => { k with retired := k.retired + 1, cycles := k.cycles + Config.cycles s.tick }
  (s1.updWarp b w fun x => { x with retired := x.retired + 1, skid := if x.due then 1 else x.skid, due := false }).turnTaken
    b w sp

/-- Ends the step of a warp: empty splits end, equal splits merge, sheds complete. -/
def settleWarp (s : State) (b w : Nat) : State :=
  let s1 := s.updWarp b w fun x => ((x.dropEmpty).bringCommit).gc
  (mergeSplits b w 8 s1).updBlock b Block.settleSheds

/-- A fault of an instruction of a warp, with the program counter of the record. -/
def laneFault (s : State) (b w : Nat) (pc : W64) (f : Flt) : State :=
  (s.updWarp b w fun x => { x with skid := if x.due then 1 else x.skid, due := false }).raiseFault b w pc f

/-- The split continues after its instruction of `n` words; where falling through is forbidden it faults (R334). [DEDUCED 17] -/
def continueSplit (s : State) (e : Env) (l : FetchLine) (n : Nat) : State :=
  match continuation l e.pc n with
  | .ok pc => s.updSplit e.b e.w e.sp fun q => { q with pc := pc, park := .ready }
  | .error pc =>
    (s.updSplit e.b e.w e.sp fun q => { q with pc := pc, park := .ready }).laneFault e.b e.w pc
      { code := fcBadTarget, addr := pc }

/-- Carries out what an instruction came to. [DEDUCED 36] -/
def finish (e : Env) (l : FetchLine) : Eff → State
  | .ok s => ((s.retire e.b e.w e.sp).continueSplit e l (laneLen (l.word (wordIndex e.pc)))).settleWarp e.b e.w
  | .okThen s f =>
    f (((s.retire e.b e.w e.sp).continueSplit e l (laneLen (l.word (wordIndex e.pc)))).settleWarp e.b e.w)
  | .jump s => (s.retire e.b e.w e.sp).settleWarp e.b e.w
  | .jumpThen s f => f ((s.retire e.b e.w e.sp).settleWarp e.b e.w)
  | .stay s => s.turnPassed e.b e.w e.sp
  | .park s p => ((s.updSplit e.b e.w e.sp fun q => { q with park := p }).turnPassed e.b e.w e.sp).settleWarp e.b e.w
  | .fault s f => s.laneFault e.b e.w e.pc f
  | .roll s code detail =>
    match s.warp? e.b e.w with
    | none => s
    | some x =>
      -- a rollback waits for the loads issued in the region (R269)
      if x.regionLoads then s.turnPassed e.b e.w e.sp
      else
        ((s.updWarp e.b e.w fun x => x.rollWhole e.gen (abortWord code detail)).turnTaken e.b e.w e.sp).settleWarp e.b e.w

/-- A split with what it sees. -/
def envAt (s : State) (b w sp : Nat) : Option Env :=
  match s.block? b with
  | none => none
  | some k =>
    match AMap.get? k.warps w with
    | none => none
    | some x =>
      match AMap.get? x.active sp with
      | none => none
      | some q => some { b := b, w := w, sp := sp, blk := k, wp := x, split := q }

/-- The split that the focus names. -/
def issuer? (s : State) : Option Env :=
  match s.focus with
  | .lane b w sp => s.envAt b w sp
  | _ => none

/-- The line that a split issues from, with the checks of R333; the word at the program counter must begin an
instruction (R146, R334, R335). [DEDUCED 17] -/
def issueLine (s : State) (e : Env) : Except Flt FetchLine × State :=
  match s.fetchLine e.blk.core e.blk.world e.blk.ctx e.pc with
  | (.error f, s1) => (.error f, s1)
  | (.ok l, s1) =>
    match laneLineCheck l with
    | some c => (.error { code := c, addr := e.pc }, s1)
    | none =>
      if entryOk l (e.wp.retired == 0) e.pc then (.ok l, s1)
      else (.error { code := fcBadTarget, addr := e.pc }, s1)

end State

namespace State

/-- A parked instruction completes without issuing again: it retires, and its split continues after it (R185, R219). [DEDUCED 25] -/
def completeParked (s : State) (b w sp : Nat) : State :=
  match s.envAt b w sp with
  | none => s
  | some e =>
    match s.fetchLine e.blk.core e.blk.world e.blk.ctx e.pc with
    | (.error f, s1) => s1.laneFault b w e.pc f
    | (.ok l, s1) =>
      let s2 := s1.updBlock b fun k => { k with retired := k.retired + 1, cycles := k.cycles + Config.cycles s.tick }
      let s3 := s2.updWarp b w fun x => { x with retired := x.retired + 1 }
      (s3.continueSplit e l (laneLen (l.word (wordIndex e.pc)))).settleWarp b w

end State

/-- Runs one lane instruction for the split that the focus names. [DESIGN CHOICE 18] [DESIGN CHOICE 73] -/
def runLane (sp : Env → LaneSpec) (s : State) : Host.Outcome State Fault Refusal :=
  match s.issuer? with
  | none => .fault .noIssuer
  | some e =>
    match s.issueLine e with
    | (.error f, s1) => .next (s1.laneFault e.b e.w e.pc f)
    | (.ok l, s1) => .next (State.finish e l ((sp e).run e l s1))

/-! ## Writing results -/

namespace Env

/-- The threads that an instruction with destination `d` runs for: the lowest active one when `d` is uniform (R339). -/
def runners (e : Env) (d : BitVec 8) : List Nat := if isS d then e.act.take 1 else e.act

/-- Writes per-thread results of `k` registers to a vector or uniform destination. -/
def put (e : Env) (s : State) (d : BitVec 8) (k : Nat) (rs : List (Nat × List W32)) : State :=
  s.updWarp e.b e.w fun x =>
    if isS d then
      match rs with
      | [] => x
      | (_, ws) :: _ => x.writeUnis e.gen e.inTry (regNo d) (ws.take k)
    else if rs.isEmpty then x
    else x.writeVecs e.gen (maskOf fun t => rs.any fun r => r.1 == t) (regNo d) rs k

/-- A register-only instruction: the result of each thread, or the strict-read fault of the lowest (R376). -/
def result (e : Env) (d : BitVec 8) (k : Nat) (f : Nat → Except (BitVec 8) Nat) (s : State) (_ : FetchLine) : Eff :=
  match eachThread f (e.runners d) with
  | .error c => .fault s { code := c }
  | .ok rs => .ok (e.put s d k (rs.map fun r => (r.1, wordsFor k r.2)))

/-- A result that is the same for every active thread, formed once. -/
def resultOnce (e : Env) (d : BitVec 8) (k : Nat) (v : Except (BitVec 8) Nat) (s : State) (l : FetchLine) : Eff :=
  e.result d k (fun _ => v) s l

/-- A predicate result (R377). -/
def predResult (e : Env) (d : BitVec 8) (f : Nat → Except (BitVec 8) Bool) (s : State) (_ : FetchLine) : Eff :=
  match eachThread f e.act with
  | .error c => .fault s { code := c }
  | .ok rs =>
    .ok (s.updWarp e.b e.w fun x =>
      x.writePred e.active (predNo d) (maskOf fun t => rs.any fun r => r.1 == t && r.2))

end Env

end Sys2Proof.Machine
end

