-- ==== Sys2Proof/Machine/Alu.lean ====
section
/-! DEFINITION. The shapes of the register-only instructions: which fields they read, of what width, under which TYPE, and
where the result goes (R376 to R380). An instruction gives its function of the operands; these give the rest. -/

namespace Sys2Proof.Machine

/-- The registers a typed operand spans, where the TYPE is accepted (R376). -/
def typedRegs (ok : Ty → Bool) (e : Env) : Nat := if ok e.ty then tyRegs e.ty else 1

/-- One typed source. -/
def alu1 (wf : Bool) (ok : Ty → Bool) (f : Env → Nat → Nat) (d a : BitVec 8) (lit : BitVec 32) (e : Env) : LaneSpec :=
  let k := typedRegs ok e
  { opOk := wf && dstOk d k && srcFor d a k
    moodOk := ok e.ty
    dsts := dstNames d k
    act := e.result d k fun t => do
      let x ← e.srcTy e.ty (.word lit) a t
      pure (f e x) }

/-- Two typed sources. -/
def alu2 (wf : Bool) (ok : Ty → Bool) (f : Env → Nat → Nat → Nat) (d a b : BitVec 8) (lit : BitVec 32) (e : Env) :
    LaneSpec :=
  let k := typedRegs ok e
  { opOk := wf && dstOk d k && srcFor d a k && srcFor d b k
    moodOk := ok e.ty
    dsts := dstNames d k
    act := e.result d k fun t => do
      let x ← e.srcTy e.ty (.word lit) a t
      let y ← e.srcTy e.ty (.word lit) b t
      pure (f e x y) }

/-- Three typed sources (G4). -/
def alu3 (wf : Bool) (ok : Ty → Bool) (f : Env → Nat → Nat → Nat → Nat) (d a b c : BitVec 8) (lit : BitVec 24) (e : Env) :
    LaneSpec :=
  let k := typedRegs ok e
  { opOk := wf && dstOk d k && srcFor d a k && srcFor d b k && srcFor d c k
    moodOk := ok e.ty
    dsts := dstNames d k
    act := e.result d k fun t => do
      let x ← e.srcTy e.ty (.lit24 lit) a t
      let y ← e.srcTy e.ty (.lit24 lit) b t
      let z ← e.srcTy e.ty (.lit24 lit) c t
      pure (f e x y z) }

/-- A typed source and a 32-bit count or integer. -/
def aluCount (wf : Bool) (ok : Ty → Bool) (f : Env → Nat → Nat → Nat) (d a b : BitVec 8) (lit : BitVec 32) (e : Env) :
    LaneSpec :=
  let k := typedRegs ok e
  { opOk := wf && dstOk d k && srcFor d a k && srcFor d b 1
    moodOk := ok e.ty
    dsts := dstNames d k
    act := e.result d k fun t => do
      let x ← e.srcTy e.ty (.word lit) a t
      let n ← e.src32 (.word lit) b t
      pure (f e x n) }

/-- A shift: element k of the count for element k, or one 32-bit count under i64 and n64 (R383). -/
def aluShift (wf : Bool) (f : Env → Nat → Nat → Nat) (d a b : BitVec 8) (lit : BitVec 32) (e : Env) : LaneSpec :=
  let k := typedRegs tyInt e
  { opOk := wf && dstOk d k && srcFor d a k && srcFor d b 1
    moodOk := tyInt e.ty
    dsts := dstNames d k
    act := e.result d k fun t => do
      let x ← e.srcTy e.ty (.word lit) a t
      let n ← e.srcTy (if ty64 e.ty then 0 else e.ty) (.word lit) b t
      pure (shiftMap e.ty (f e) x n) }

/-- Sources a, b and c of the given widths, whatever the mood's TYPE (R376); `regs` registers written. -/
def aluFixed3 (wf : Bool) (regs wa wb wc : Nat) (f : Nat → Nat → Nat → Nat) (d a b c : BitVec 8) (lit : BitVec 24)
    (e : Env) : LaneSpec :=
  let rd (w : Nat) (x : BitVec 8) (t : Nat) := if w = 2 then e.src64 (.lit24 lit) x t else e.src32 (.lit24 lit) x t
  { opOk := wf && dstOk d regs && srcFor d a wa && srcFor d b wb && srcFor d c wc
    dsts := dstNames d regs
    act := e.result d regs fun t => do
      let x ← rd wa a t
      let y ← rd wb b t
      let z ← rd wc c t
      pure (f x y z) }

/-- A predicate destination over two typed sources (R377). -/
def aluCmp (wf : Bool) (ok : Ty → Bool) (f : Env → Nat → Nat → Bool) (d a b : BitVec 8) (lit : BitVec 32) (e : Env) :
    LaneSpec :=
  let k := typedRegs ok e
  { opOk := wf && isP d && srcOk a k && srcOk b k
    moodOk := ok e.ty
    act := e.predResult d fun t => do
      let x ← e.srcTy e.ty (.word lit) a t
      let y ← e.srcTy e.ty (.word lit) b t
      pure (f e x y) }

/-- A vector result chosen by, or carried through, predicate c (R384, R389). -/
def Env.carryResult (e : Env) (d c : BitVec 8) (f : Nat → Except (BitVec 8) (Nat × Bool)) (s : State) (_ : FetchLine) : Eff :=
  match eachThread f e.act with
  | .error x => .fault s { code := x }
  | .ok rs =>
    let s1 := e.put s d 1 (rs.map fun r => (r.1, wordsFor 1 r.2.1))
    .ok (s1.updWarp e.b e.w fun x =>
      x.writePred e.active (predNo c) (maskOf fun t => rs.any fun r => r.1 == t && r.2.2))

def aluCarry (wf : Bool) (f : Nat → Nat → Bool → Nat × Bool) (d a b c : BitVec 8) (lit : BitVec 24) (e : Env) : LaneSpec :=
  { opOk := wf && isV d && srcOk a 1 && srcOk b 1 && isP c
    moodOk := e.ty == 0 || e.ty == 1
    dsts := dstNames d 1
    act := e.carryResult d c fun t => do
      let x ← e.srcTy e.ty (.lit24 lit) a t
      let y ← e.srcTy e.ty (.lit24 lit) b t
      pure (f x y ((e.pred (predNo c)).getLsbD t)) }

end Sys2Proof.Machine
end

