-- ==== Sys2Proof/Machine/Int.lean ====
section
/-! DEFINITION. The integer instructions (R381 to R390). -/

namespace Sys2Proof.Machine

def Env.sat (e : Env) : Bool := moodSat e.split.mood

/-- Adds with carry through a predicate (R384). -/
def execAddc (d a b c : BitVec 8) (lit : BitVec 24) (s : State) : Host.Outcome State Fault Refusal :=
  runLane (aluCarry (Instr.wf (.addc d a b c lit)) addcW d a b c lit) s

/-- Subtracts with borrow through a predicate (R384). -/
def execSubb (d a b c : BitVec 8) (lit : BitVec 24) (s : State) : Host.Outcome State Fault Refusal :=
  runLane (aluCarry (Instr.wf (.subb d a b c lit)) subbW d a b c lit) s

/-- x + y element by element, wrapped or clamped (R381). -/
def execAdd (d a b : BitVec 8) (lit : BitVec 32) (s : State) : Host.Outcome State Fault Refusal :=
  runLane (alu2 (Instr.wf (.add d a b lit)) tyInt (fun e => int2 e.ty e.sat fun x y => x + y) d a b lit) s

/-- x − y element by element, wrapped or clamped (R381). -/
def execSub (d a b : BitVec 8) (lit : BitVec 32) (s : State) : Host.Outcome State Fault Refusal :=
  runLane (alu2 (Instr.wf (.sub d a b lit)) tyInt (fun e => int2 e.ty e.sat fun x y => x - y) d a b lit) s

/-- x × y element by element, wrapped or clamped (R381). -/
def execMul (d a b : BitVec 8) (lit : BitVec 32) (s : State) : Host.Outcome State Fault Refusal :=
  runLane (alu2 (Instr.wf (.mul d a b lit)) tyInt (fun e => int2 e.ty e.sat fun x y => x * y) d a b lit) s

/-- The high half of each product (R381). -/
def execMulh (d a b : BitVec 8) (lit : BitVec 32) (s : State) : Host.Outcome State Fault Refusal :=
  runLane (alu2 (Instr.wf (.mulh d a b lit)) tyInt (fun e => int2 e.ty false fun x y => x * y / (2 ^ tyWidth e.ty : Nat)) d a b lit) s

/-- x × y + z element by element with one wrap or clamp (R381). -/
def execMad (d a b c : BitVec 8) (lit : BitVec 24) (s : State) : Host.Outcome State Fault Refusal :=
  runLane (alu3 (Instr.wf (.mad d a b c lit)) tyInt (fun e => map3 e.ty fun x y z =>
    narrowI e.ty e.sat (elemInt e.ty x * elemInt e.ty y + elemInt e.ty z)) d a b c lit) s

/-- A 64-bit address: a signed 32-bit product plus a 64-bit addend (R385). -/
def execMadw (d a b c : BitVec 8) (lit : BitVec 24) (s : State) : Host.Outcome State Fault Refusal :=
  runLane (aluFixed3 (Instr.wf (.madw d a b c lit)) 2 1 1 2 (fun a b c => wrapN 64 (sext 32 a * sext 32 b + c)) d a b c lit) s

/-- The absolute value of each element (R381). -/
def execAbs (d a : BitVec 8) (lit : BitVec 32) (s : State) : Host.Outcome State Fault Refusal :=
  runLane (alu1 (Instr.wf (.abs d a lit)) tyInt (fun e => map1 e.ty fun x => narrowI e.ty e.sat ((elemInt e.ty x).natAbs : Int)) d a lit) s

/-- The lesser element (R381). -/
def execMin (d a b : BitVec 8) (lit : BitVec 32) (s : State) : Host.Outcome State Fault Refusal :=
  runLane (alu2 (Instr.wf (.min d a b lit)) tyInt (fun e => int2 e.ty false fun x y => if x ≤ y then x else y) d a b lit) s

/-- The greater element (R381). -/
def execMax (d a b : BitVec 8) (lit : BitVec 32) (s : State) : Host.Outcome State Fault Refusal :=
  runLane (alu2 (Instr.wf (.max d a b lit)) tyInt (fun e => int2 e.ty false fun x y => if x ≤ y then y else x) d a b lit) s

/-- Bitwise AND (R382). -/
def execAnd (d a b : BitVec 8) (lit : BitVec 32) (s : State) : Host.Outcome State Fault Refusal :=
  runLane (alu2 (Instr.wf (.and d a b lit)) tyAny (fun _ x y => x &&& y) d a b lit) s

/-- Bitwise OR (R382). -/
def execOr (d a b : BitVec 8) (lit : BitVec 32) (s : State) : Host.Outcome State Fault Refusal :=
  runLane (alu2 (Instr.wf (.or d a b lit)) tyAny (fun _ x y => x ||| y) d a b lit) s

/-- Bitwise XOR (R382). -/
def execXor (d a b : BitVec 8) (lit : BitVec 32) (s : State) : Host.Outcome State Fault Refusal :=
  runLane (alu2 (Instr.wf (.xor d a b lit)) tyAny (fun _ x y => x ^^^ y) d a b lit) s

/-- a AND NOT b (R382). -/
def execAndn (d a b : BitVec 8) (lit : BitVec 32) (s : State) : Host.Outcome State Fault Refusal :=
  runLane (alu2 (Instr.wf (.andn d a b lit)) tyAny (fun e x y => x &&& (2 ^ tyBits e.ty - 1 - y)) d a b lit) s

/-- Shift left, saturating under SAT (R383). -/
def execShl (d a b : BitVec 8) (lit : BitVec 32) (s : State) : Host.Outcome State Fault Refusal :=
  runLane (aluShift (Instr.wf (.shl d a b lit)) (fun e => shlElem e.ty e.sat) d a b lit) s

/-- Logical shift right (R383). -/
def execShr (d a b : BitVec 8) (lit : BitVec 32) (s : State) : Host.Outcome State Fault Refusal :=
  runLane (aluShift (Instr.wf (.shr d a b lit)) (fun e => shrElem e.ty) d a b lit) s

/-- Arithmetic shift right (R383). -/
def execSra (d a b : BitVec 8) (lit : BitVec 32) (s : State) : Host.Outcome State Fault Refusal :=
  runLane (aluShift (Instr.wf (.sra d a b lit)) (fun e => sraElem e.ty) d a b lit) s

/-- Rotate left (R383). -/
def execRot (d a b : BitVec 8) (lit : BitVec 32) (s : State) : Host.Outcome State Fault Refusal :=
  runLane (aluShift (Instr.wf (.rot d a b lit)) (fun e => rotElem e.ty) d a b lit) s

/-- Extracts a bit field (R386). -/
def execBfe (d a b c : BitVec 8) (lit : BitVec 24) (s : State) : Host.Outcome State Fault Refusal :=
  runLane (fun e =>
    let k := typedRegs tyWord e
    { opOk := (Instr.wf (.bfe d a b c lit)) && dstOk d k && srcFor d a k && srcFor d b 1 && srcFor d c 1
      moodOk := tyWord e.ty
      dsts := dstNames d k
      act := e.result d k fun t => do
        let x ← e.srcTy e.ty (.lit24 lit) a t
        let p ← e.src32 (.lit24 lit) b t
        let l ← e.src32 (.lit24 lit) c t
        pure (bfeW (tyWidth e.ty) (tySigned e.ty) x p l) }) s

/-- Inserts a bit field into b (R386). -/
def execBfi (d a b c : BitVec 8) (lit : BitVec 24) (s : State) : Host.Outcome State Fault Refusal :=
  runLane (fun e =>
    let k := typedRegs tyWord e
    { opOk := (Instr.wf (.bfi d a b c lit)) && dstOk d k && srcFor d a k && srcFor d b k && srcFor d c 1
      moodOk := tyWord e.ty
      dsts := dstNames d k
      act := e.result d k fun t => do
        let x ← e.srcTy e.ty (.lit24 lit) a t
        let y ← e.srcTy e.ty (.lit24 lit) b t
        let z ← e.src32 (.lit24 lit) c t
        pure (bfiW (tyWidth e.ty) x y z) }) s

/-- The 1 bits of each element (R387). -/
def execPopc (d a : BitVec 8) (lit : BitVec 32) (s : State) : Host.Outcome State Fault Refusal :=
  runLane (alu1 (Instr.wf (.popc d a lit)) tyInt (fun e => map1 e.ty (popcN (tyWidth e.ty))) d a lit) s

/-- The leading zeros of each element (R387). -/
def execClz (d a : BitVec 8) (lit : BitVec 32) (s : State) : Host.Outcome State Fault Refusal :=
  runLane (alu1 (Instr.wf (.clz d a lit)) tyInt (fun e => map1 e.ty (clzN (tyWidth e.ty))) d a lit) s

/-- The bits of each element reversed (R387). -/
def execBrev (d a : BitVec 8) (lit : BitVec 32) (s : State) : Host.Outcome State Fault Refusal :=
  runLane (alu1 (Instr.wf (.brev d a lit)) tyInt (fun e => map1 e.ty (brevN (tyWidth e.ty))) d a lit) s

/-- Selects or sign-replicates bytes (R388). -/
def execPerm (d a b c : BitVec 8) (lit : BitVec 24) (s : State) : Host.Outcome State Fault Refusal :=
  runLane (aluFixed3 (Instr.wf (.perm d a b c lit)) 1 1 1 1 permW d a b c lit) s

/-- a or b by a predicate (R389). -/
def execSel (d a b c : BitVec 8) (lit : BitVec 24) (s : State) : Host.Outcome State Fault Refusal :=
  runLane (fun e =>
    let k := typedRegs tyAny e
    { opOk := (Instr.wf (.sel d a b c lit)) && isV d && aligned d k && srcOk a k && srcOk b k && isP c
      moodOk := tyAny e.ty
      dsts := dstNames d k
      act := e.result d k fun t => do
        let x ← e.srcTy e.ty (.lit24 lit) a t
        let y ← e.srcTy e.ty (.lit24 lit) b t
        pure (if (e.pred (predNo c)).getLsbD t then x else y) }) s

/-- cmp.eq: a predicate bit from a compare of every element (R390). -/
def execCmpEq (d a b : BitVec 8) (lit : BitVec 32) (s : State) : Host.Outcome State Fault Refusal :=
  runLane (aluCmp (Instr.wf (.cmpEq d a b lit)) tyInt (fun e => all2 e.ty (cmpElem .eq e.ty)) d a b lit) s

/-- cmp.ne: a predicate bit from a compare of every element (R390). -/
def execCmpNe (d a b : BitVec 8) (lit : BitVec 32) (s : State) : Host.Outcome State Fault Refusal :=
  runLane (aluCmp (Instr.wf (.cmpNe d a b lit)) tyInt (fun e => all2 e.ty (cmpElem .ne e.ty)) d a b lit) s

/-- cmp.lt: a predicate bit from a compare of every element (R390). -/
def execCmpLt (d a b : BitVec 8) (lit : BitVec 32) (s : State) : Host.Outcome State Fault Refusal :=
  runLane (aluCmp (Instr.wf (.cmpLt d a b lit)) tyInt (fun e => all2 e.ty (cmpElem .lt e.ty)) d a b lit) s

/-- cmp.ge: a predicate bit from a compare of every element (R390). -/
def execCmpGe (d a b : BitVec 8) (lit : BitVec 32) (s : State) : Host.Outcome State Fault Refusal :=
  runLane (aluCmp (Instr.wf (.cmpGe d a b lit)) tyInt (fun e => all2 e.ty (cmpElem .ge e.ty)) d a b lit) s

/-- cmp.le: a predicate bit from a compare of every element (R390). -/
def execCmpLe (d a b : BitVec 8) (lit : BitVec 32) (s : State) : Host.Outcome State Fault Refusal :=
  runLane (aluCmp (Instr.wf (.cmpLe d a b lit)) tyInt (fun e => all2 e.ty (cmpElem .le e.ty)) d a b lit) s

/-- cmp.gt: a predicate bit from a compare of every element (R390). -/
def execCmpGt (d a b : BitVec 8) (lit : BitVec 32) (s : State) : Host.Outcome State Fault Refusal :=
  runLane (aluCmp (Instr.wf (.cmpGt d a b lit)) tyInt (fun e => all2 e.ty (cmpElem .gt e.ty)) d a b lit) s

/-- cmp.ltu: a predicate bit from a compare of every element (R390). -/
def execCmpLtu (d a b : BitVec 8) (lit : BitVec 32) (s : State) : Host.Outcome State Fault Refusal :=
  runLane (aluCmp (Instr.wf (.cmpLtu d a b lit)) tyInt (fun e => all2 e.ty (cmpElem .ltu e.ty)) d a b lit) s

/-- cmp.geu: a predicate bit from a compare of every element (R390). -/
def execCmpGeu (d a b : BitVec 8) (lit : BitVec 32) (s : State) : Host.Outcome State Fault Refusal :=
  runLane (aluCmp (Instr.wf (.cmpGeu d a b lit)) tyInt (fun e => all2 e.ty (cmpElem .geu e.ty)) d a b lit) s

end Sys2Proof.Machine
end

