-- ==== Sys2Proof/Machine/Flt.lean ====
section
/-! DEFINITION. The floating-point instructions (R391 to R398): each element is read under FLUSH, its result is formed
exactly, rounded once, flushed and saturated (R277 to R281). -/

namespace Sys2Proof.Machine

def Env.fenv (e : Env) : FEnv := moodEnv e.split.mood
def Env.fmt (e : Env) : FFmt := tyFmt e.ty
/-- An operand element as its value, a subnormal as zero under FLUSH (R279). -/
def Env.fval (e : Env) (x : Nat) : FVal := fread e.fmt e.fenv.flush x
/-- A result element. -/
def Env.fres (e : Env) (v : FVal) : Nat := fresult e.fmt e.fenv v

def fop1 (f : Env → FVal → FVal) (e : Env) : Nat → Nat := map1 e.ty fun x => e.fres (f e (e.fval x))
def fop2 (f : Env → FVal → FVal → FVal) (e : Env) : Nat → Nat → Nat :=
  map2 e.ty fun x y => e.fres (f e (e.fval x) (e.fval y))

/-- A sum of exact terms, its zero signed by R280. -/
def Env.fsum (e : Env) (ts : List FVal) : FVal := fsumV e.fenv.mode ts

/-- A sign operation on the numbers of an operand; a NaN becomes the canonical one (R393). -/
def fsignOp (f : FFmt → Nat → Nat) (e : Env) : Nat → Nat :=
  map1 e.ty fun x => if (fdecode e.fmt x).isNan then e.fmt.nanBits else f e.fmt x

/-- A transcendental: each element widened to f32, computed there, and rounded into its format (R295). -/
def ftrans (op : Nat) (e : Env) : Nat → Nat :=
  fop1 (fun _ v => fdecode fmtF32 (transcF32 op (fencode fmtF32 0 v))) e

/-- 2^n for fscale: past ±1000 every format has overflowed or vanished, so the exponent is bounded there. -/
def fscaleCount (n : Nat) : Int := clampI (-1000) 1000 (sext 32 n)

/-- fdot2: two products of halves and an f32 addend, rounded once into f32 (R392). -/
def fdot2Val (e : Env) (x y z : Nat) : Nat :=
  let xs := (elems e.ty x).map e.fval
  let ys := (elems e.ty y).map e.fval
  fresult fmtF32 e.fenv (e.fsum (List.zipWith fmulV xs ys ++ [fread fmtF32 e.fenv.flush z]))

/-- a + b, rounded once (R391). -/
def execFadd (d a b : BitVec 8) (lit : BitVec 32) (s : State) : Host.Outcome State Fault Refusal :=
  runLane (alu2 (Instr.wf (.fadd d a b lit)) tyFloat (fop2 fun e x y => e.fsum [x, y]) d a b lit) s

/-- a − b, rounded once (R391). -/
def execFsub (d a b : BitVec 8) (lit : BitVec 32) (s : State) : Host.Outcome State Fault Refusal :=
  runLane (alu2 (Instr.wf (.fsub d a b lit)) tyFloat (fop2 fun e x y => e.fsum [x, y.negate]) d a b lit) s

/-- a × b, rounded once (R391). -/
def execFmul (d a b : BitVec 8) (lit : BitVec 32) (s : State) : Host.Outcome State Fault Refusal :=
  runLane (alu2 (Instr.wf (.fmul d a b lit)) tyFloat (fop2 fun _ x y => fmulV x y) d a b lit) s

/-- a × b + c, rounded once (R391). -/
def execFfma (d a b c : BitVec 8) (lit : BitVec 24) (s : State) : Host.Outcome State Fault Refusal :=
  runLane (alu3 (Instr.wf (.ffma d a b c lit)) tyFloat (fun e => map3 e.ty fun x y z =>
    e.fres (e.fsum [fmulV (e.fval x) (e.fval y), e.fval z])) d a b c lit) s

/-- a × b + c × d₀ with d₀ the destination before the instruction, rounded once (R391). -/
def execFfma4 (d a b c : BitVec 8) (lit : BitVec 24) (s : State) : Host.Outcome State Fault Refusal :=
  runLane (fun e =>
    { opOk := (Instr.wf (.ffma4 d a b c lit)) && dstOk d 1 && srcFor d a 1 && srcFor d b 1 && srcFor d c 1
      moodOk := tyFloat e.ty
      dsts := dstNames d 1
      act := e.result d 1 fun t => do
        let x ← e.srcTy e.ty (.lit24 lit) a t
        let y ← e.srcTy e.ty (.lit24 lit) b t
        let z ← e.srcTy e.ty (.lit24 lit) c t
        let o ← e.srcTy e.ty (.lit24 lit) d t
        pure (ofElems e.ty ((List.range (tyBits e.ty / tyWidth e.ty)).map fun k =>
          let el (v : Nat) : FVal := e.fval ((elems e.ty v).getD k 0)
          e.fres (e.fsum [fmulV (el x) (el y), fmulV (el z) (el o)]))) }) s

/-- The lesser number, exact (R393). -/
def execFmin (d a b : BitVec 8) (lit : BitVec 32) (s : State) : Host.Outcome State Fault Refusal :=
  runLane (alu2 (Instr.wf (.fmin d a b lit)) tyFloat (fop2 fun _ x y => fminmaxV false x y) d a b lit) s

/-- The greater number, exact (R393). -/
def execFmax (d a b : BitVec 8) (lit : BitVec 32) (s : State) : Host.Outcome State Fault Refusal :=
  runLane (alu2 (Instr.wf (.fmax d a b lit)) tyFloat (fop2 fun _ x y => fminmaxV true x y) d a b lit) s

/-- Inverts the sign of every number (R393). -/
def execFneg (d a : BitVec 8) (lit : BitVec 32) (s : State) : Host.Outcome State Fault Refusal :=
  runLane (alu1 (Instr.wf (.fneg d a lit)) tyFloat (fsignOp fun f x => x ^^^ f.signBit) d a lit) s

/-- Clears the sign of every number (R393). -/
def execFabs (d a : BitVec 8) (lit : BitVec 32) (s : State) : Host.Outcome State Fault Refusal :=
  runLane (alu1 (Instr.wf (.fabs d a lit)) tyFloat (fsignOp fun f x => x % f.signBit) d a lit) s

/-- A predicate bit from the classes of the elements as stored (R395). -/
def execFclass (d a b : BitVec 8) (lit : BitVec 32) (s : State) : Host.Outcome State Fault Refusal :=
  runLane (fun e =>
    { opOk := (Instr.wf (.fclass d a b lit)) && isP d && srcOk a 1 && srcOk b 1
      moodOk := tyFloat e.ty
      act := e.predResult d fun t => do
        let x ← e.srcTy e.ty (.word lit) a t
        let m ← e.src32 (.word lit) b t
        pure ((elems e.ty x).all fun v => m.testBit (fclassBit e.fmt v)) }) s

/-- Rounds to an integral value in the format (R396). -/
def execFrnd (d a : BitVec 8) (lit : BitVec 32) (s : State) : Host.Outcome State Fault Refusal :=
  runLane (alu1 (Instr.wf (.frnd d a lit)) tyFloat (fop1 fun e v => froundInt e.fenv.mode v) d a lit) s

/-- a × 2^n, rounded once (R397). -/
def execFscale (d a b : BitVec 8) (lit : BitVec 32) (s : State) : Host.Outcome State Fault Refusal :=
  runLane (aluCount (Instr.wf (.fscale d a b lit)) tyFloat (fun e x n => fop1 (fun _ v => fscaleV (fscaleCount n) v) e x) d a b lit) s

/-- A dot product of packed halves with an f32 addend (R392). -/
def execFdot2 (d a b c : BitVec 8) (lit : BitVec 24) (s : State) : Host.Outcome State Fault Refusal :=
  runLane (fun e =>
    { opOk := (Instr.wf (.fdot2 d a b c lit)) && dstOk d 1 && srcFor d a 1 && srcFor d b 1 && srcFor d c 1
      moodOk := tyHalf e.ty
      dsts := dstNames d 1
      act := e.result d 1 fun t => do
        let x ← e.srcTy e.ty (.lit24 lit) a t
        let y ← e.srcTy e.ty (.lit24 lit) b t
        let z ← e.srcTy 2 (.lit24 lit) c t
        pure (fdot2Val e x y z) }) s

/-- fcmp.eq in every element (R394). -/
def execFcmpEq (d a b : BitVec 8) (lit : BitVec 32) (s : State) : Host.Outcome State Fault Refusal :=
  runLane (aluCmp (Instr.wf (.fcmpEq d a b lit)) tyFloat (fun e => all2 e.ty fun x y => fcmpVal .eq (e.fval x) (e.fval y)) d a b lit) s

/-- fcmp.ne in every element (R394). -/
def execFcmpNe (d a b : BitVec 8) (lit : BitVec 32) (s : State) : Host.Outcome State Fault Refusal :=
  runLane (aluCmp (Instr.wf (.fcmpNe d a b lit)) tyFloat (fun e => all2 e.ty fun x y => fcmpVal .ne (e.fval x) (e.fval y)) d a b lit) s

/-- fcmp.lt in every element (R394). -/
def execFcmpLt (d a b : BitVec 8) (lit : BitVec 32) (s : State) : Host.Outcome State Fault Refusal :=
  runLane (aluCmp (Instr.wf (.fcmpLt d a b lit)) tyFloat (fun e => all2 e.ty fun x y => fcmpVal .lt (e.fval x) (e.fval y)) d a b lit) s

/-- fcmp.ge in every element (R394). -/
def execFcmpGe (d a b : BitVec 8) (lit : BitVec 32) (s : State) : Host.Outcome State Fault Refusal :=
  runLane (aluCmp (Instr.wf (.fcmpGe d a b lit)) tyFloat (fun e => all2 e.ty fun x y => fcmpVal .ge (e.fval x) (e.fval y)) d a b lit) s

/-- fcmp.le in every element (R394). -/
def execFcmpLe (d a b : BitVec 8) (lit : BitVec 32) (s : State) : Host.Outcome State Fault Refusal :=
  runLane (aluCmp (Instr.wf (.fcmpLe d a b lit)) tyFloat (fun e => all2 e.ty fun x y => fcmpVal .le (e.fval x) (e.fval y)) d a b lit) s

/-- fcmp.gt in every element (R394). -/
def execFcmpGt (d a b : BitVec 8) (lit : BitVec 32) (s : State) : Host.Outcome State Fault Refusal :=
  runLane (aluCmp (Instr.wf (.fcmpGt d a b lit)) tyFloat (fun e => all2 e.ty fun x y => fcmpVal .gt (e.fval x) (e.fval y)) d a b lit) s

/-- fcmp.ord in every element (R394). -/
def execFcmpOrd (d a b : BitVec 8) (lit : BitVec 32) (s : State) : Host.Outcome State Fault Refusal :=
  runLane (aluCmp (Instr.wf (.fcmpOrd d a b lit)) tyFloat (fun e => all2 e.ty fun x y => fcmpVal .ord (e.fval x) (e.fval y)) d a b lit) s

/-- fcmp.uno in every element (R394). -/
def execFcmpUno (d a b : BitVec 8) (lit : BitVec 32) (s : State) : Host.Outcome State Fault Refusal :=
  runLane (aluCmp (Instr.wf (.fcmpUno d a b lit)) tyFloat (fun e => all2 e.ty fun x y => fcmpVal .uno (e.fval x) (e.fval y)) d a b lit) s

/-- The reciprocal to the bound and special values of R295 (R398). -/
def execFrcp (d a : BitVec 8) (lit : BitVec 32) (s : State) : Host.Outcome State Fault Refusal :=
  runLane (alu1 (Instr.wf (.frcp d a lit)) tyFloat (ftrans 2) d a lit) s

/-- The reciprocal square root to the bound and special values of R295 (R398). -/
def execFrsq (d a : BitVec 8) (lit : BitVec 32) (s : State) : Host.Outcome State Fault Refusal :=
  runLane (alu1 (Instr.wf (.frsq d a lit)) tyFloat (ftrans 3) d a lit) s

/-- The base-2 exponential to the bound and special values of R295 (R398). -/
def execFexp2 (d a : BitVec 8) (lit : BitVec 32) (s : State) : Host.Outcome State Fault Refusal :=
  runLane (alu1 (Instr.wf (.fexp2 d a lit)) tyFloat (ftrans 0) d a lit) s

/-- The base-2 logarithm to the bound and special values of R295 (R398). -/
def execFlog2 (d a : BitVec 8) (lit : BitVec 32) (s : State) : Host.Outcome State Fault Refusal :=
  runLane (alu1 (Instr.wf (.flog2 d a lit)) tyFloat (ftrans 1) d a lit) s

/-- The sine to the bound and special values of R295 (R398). -/
def execFsin (d a : BitVec 8) (lit : BitVec 32) (s : State) : Host.Outcome State Fault Refusal :=
  runLane (alu1 (Instr.wf (.fsin d a lit)) tyFloat (ftrans 4) d a lit) s

/-- The cosine to the bound and special values of R295 (R398). -/
def execFcos (d a : BitVec 8) (lit : BitVec 32) (s : State) : Host.Outcome State Fault Refusal :=
  runLane (alu1 (Instr.wf (.fcos d a lit)) tyFloat (ftrans 5) d a lit) s

/-- The hyperbolic tangent to the bound and special values of R295 (R398). -/
def execFtanh (d a : BitVec 8) (lit : BitVec 32) (s : State) : Host.Outcome State Fault Refusal :=
  runLane (alu1 (Instr.wf (.ftanh d a lit)) tyFloat (ftrans 6) d a lit) s

/-- The square root, correctly rounded (R398). -/
def execFsqrt (d a : BitVec 8) (lit : BitVec 32) (s : State) : Host.Outcome State Fault Refusal :=
  runLane (alu1 (Instr.wf (.fsqrt d a lit)) tyFloat (fop1 fun _ v => fsqrtV v) d a lit) s

end Sys2Proof.Machine
end

