-- ==== Sys2Proof/Machine/Conv.lean ====
section
/-! DEFINITION. Conversion, packing and quantisation (R399 to R405). -/

namespace Sys2Proof.Machine

/-! ## cvt (R399) -/

/-- Elements that an operand of a TYPE code holds. -/
def tyCount (ty : Ty) : Nat := tyBits ty / tyWidth ty

/-- One element from one TYPE to another. -/
def cvtElem (env : FEnv) (dt st : Ty) (x : Nat) : Nat :=
  if tyFloat dt then
    fresult (tyFmt dt) env (if tyFloat st then fread (tyFmt st) env.flush x else fofInt (elemInt st x))
  else if tyFloat st then
    wrapN (tyWidth dt) (ftoInt env.mode (tyMin dt) (tyMax dt) (fread (tyFmt st) env.flush x))
  else narrowI dt env.sat (elemInt st x)

/-- Both codes are assigned and hold as many elements. -/
def cvtOk (dt st : Ty) : Bool := tyAny dt && tyAny st && tyCount dt == tyCount st

/-- Converts each element between two TYPE codes. -/
def execCvt (d a : BitVec 8) (t sr : BitVec 4) (lit : BitVec 32) (s : State) : Host.Outcome State Fault Refusal :=
  let dt := t.toNat
  let st := sr.toNat
  runLane (fun e =>
    { opOk := (Instr.wf (.cvt d a t sr lit)) && cvtOk dt st && dstOk d (tyRegs dt) && srcFor d a (tyRegs st)
      dsts := dstNames d (tyRegs dt)
      act := e.result d (tyRegs dt) fun th => do
        let x ← e.srcTy st (.word lit) a th
        pure (ofElems dt ((elems st x).map (cvtElem e.fenv dt st))) }) s

/-! ## pack and unpack (R400, R401) -/

/-- The TYPE of the sources that pack narrows into a TYPE. -/
def wideTy (ty : Ty) : Ty :=
  match ty with
  | 3 => 2
  | 4 => 2
  | 5 => 0
  | 6 => 1
  | 7 => 5
  | _ => 6

def packVal (e : Env) (x y : Nat) : Nat :=
  let src := wideTy e.ty
  ofElems e.ty ((elems src x ++ elems src y).map fun v =>
    if tyFloat e.ty then fresult e.fmt e.fenv (fread fmtF32 e.fenv.flush v) else narrowI e.ty e.sat (elemInt src v))

/-- Narrows two sources into one register. SAT clamps a floating result as R281 says of every floating type. [DEDUCED 22] -/
def execPack (d a b : BitVec 8) (lit : BitVec 32) (s : State) : Host.Outcome State Fault Refusal :=
  runLane (fun e =>
    { opOk := (Instr.wf (.pack d a b lit)) && dstOk d 1 && srcFor d a 1 && srcFor d b 1
      moodOk := tyNarrow e.ty
      dsts := dstNames d 1
      act := e.result d 1 fun t => do
        let x ← e.srcTy (wideTy e.ty) (.word lit) a t
        let y ← e.srcTy (wideTy e.ty) (.word lit) b t
        pure (packVal e x y) }) s

def unpackVal (e : Env) (x : Nat) : Nat :=
  let dst := wideTy e.ty
  let w (v : Nat) : Nat :=
    if tyFloat e.ty then fresult fmtF32 e.fenv (e.fval v) else wrapN (tyWidth dst) (elemInt e.ty v)
  packElems (tyWidth dst) ((elems e.ty x).map w)

/-- Widens a packed register exactly into a pair; FLUSH and SAT apply to a floating result (R279, R281). -/
def execUnpack (d a : BitVec 8) (lit : BitVec 32) (s : State) : Host.Outcome State Fault Refusal :=
  runLane (fun e =>
    { opOk := (Instr.wf (.unpack d a lit)) && dstOk d 2 && srcFor d a 1
      moodOk := tyNarrow e.ty
      dsts := dstNames d 2
      act := e.result d 2 fun t => do
        let x ← e.srcTy e.ty (.word lit) a t
        pure (unpackVal e x) }) s

/-! ## trpack (R402) -/

def ternCode (g : Nat) : Nat :=
  let v := sext 8 g
  if v = 0 then 0 else if 0 < v then 1 else 2

def trpackVal (x : Nat) : Nat :=
  (List.range 5).foldl (fun acc i => acc + ternCode (bits x (8 * i + 7) (8 * i)) * 3 ^ i) 0

/-- Packs five ternary weights into one byte. [DEDUCED 21] -/
def execTrpack (d a : BitVec 8) (lit : BitVec 32) (s : State) : Host.Outcome State Fault Refusal :=
  runLane (fun e =>
    { opOk := (Instr.wf (.trpack d a lit)) && dstOk d 1 && srcFor d a 2
      dsts := dstNames d 1
      act := e.result d 1 fun t => do
        let x ← e.src64 (.word lit) a t
        pure (trpackVal x) }) s

/-! ## Quantisation (R403 to R405) -/

/-- The elements of a pair under a floating TYPE, in order. -/
def pairElems (e : Env) (x : Nat) : List Nat := elems e.ty (x % 2 ^ 32) ++ elems e.ty (x / 2 ^ 32)

def maxMag (vs : List FVal) : FVal :=
  vs.foldl (fun m v => if fltV m (qmag v) then qmag v else m) (.fin false 0 0)

/-- The block scale of the active threads' elements, for every one of them; with a uniform destination the block is the
one pair. [DEDUCED 21] -/
def execQscale (d a : BitVec 8) (lit : BitVec 32) (s : State) : Host.Outcome State Fault Refusal :=
  runLane (fun e =>
    { opOk := (Instr.wf (.qscale d a lit)) && dstOk d 1 && srcFor d a 2
      moodOk := tyFloat e.ty
      dsts := dstNames d 1
      act := fun s l =>
        match eachThread (fun t => e.src64 (.word lit) a t) (e.runners d) with
        | .error c => .fault s { code := c }
        | .ok rs => e.resultOnce d 1 (.ok (qscaleOf (maxMag (rs.flatMap fun r => (pairElems e r.2).map e.fval)))) s l }) s

def qpackVal (e : Env) (x sc : Nat) : Nat :=
  let k := sc % 1024
  if k = 0 then 0 else packElems 8 ((pairElems e x).map fun v => wrapN 8 (qelem k (e.fval v)))

/-- Quantises each thread's elements by a scale. [DEDUCED 21] -/
def execQpack8 (d a b : BitVec 8) (lit : BitVec 32) (s : State) : Host.Outcome State Fault Refusal :=
  runLane (fun e =>
    { opOk := (Instr.wf (.qpack8 d a b lit)) && dstOk d 1 && srcFor d a 2 && srcFor d b 1
      moodOk := tyFloat e.ty
      dsts := dstNames d 1
      act := e.result d 1 fun t => do
        let x ← e.src64 (.word lit) a t
        let sc ← e.src32 (.word lit) b t
        pure (qpackVal e x sc) }) s

/-- A byte times its scale, without SAT; a byte or scale of 0 gives +0. -/
def qunpackElem (e : Env) (k g : Nat) : Nat :=
  if k = 0 then 0
  else fresult e.fmt { e.fenv with sat := false } (fscaleV ((k : Int) - 512) (fofInt (sext 8 g)))

def qunpackVal (e : Env) (x sc : Nat) : Nat :=
  let n := 2 * tyCount e.ty
  packElems (tyWidth e.ty) ((List.range n).map fun i => qunpackElem e (sc % 1024) (bits x (8 * i + 7) (8 * i)))

/-- Restores bytes to floating values by a scale. -/
def execQunpack8 (d a b : BitVec 8) (lit : BitVec 32) (s : State) : Host.Outcome State Fault Refusal :=
  runLane (fun e =>
    { opOk := (Instr.wf (.qunpack8 d a b lit)) && dstOk d 2 && srcFor d a 1 && srcFor d b 1
      moodOk := tyFloat e.ty
      dsts := dstNames d 2
      act := e.result d 2 fun t => do
        let x ← e.src32 (.word lit) a t
        let sc ← e.src32 (.word lit) b t
        pure (qunpackVal e x sc) }) s

end Sys2Proof.Machine
end

