-- ==== Sys2Proof/Machine/Ctrl.lean ====
section
/-! DEFINITION. Control, mood, special registers, values across the warp, registers and quota, traps (R353 to R375). -/

namespace Sys2Proof.Machine

/-- An instruction that acts whatever the guard and reads no operand. -/
def plainSpec (illegal : Option Nat) (act : Env → State → FetchLine → Eff) (e : Env) : LaneSpec :=
  { illegal := illegal, guarded := false, act := act e }

/-- Takes 8 beats and nothing else (R354). -/
def execNop (s : State) : Host.Outcome State Fault Refusal :=
  runLane (plainSpec none fun _ s _ => .ok s) s

/-! ## Branches, calls, jumps (R355 to R361) -/

def Env.moveTo (e : Env) (s : State) (pc : W64) : State :=
  s.updSplit e.b e.w e.sp fun q => { q with pc := pc, park := .ready }

/-- Continues each active thread at its next program counter (R180). `bad`: the address at which some of them may not
fall through (R334). -/
def Env.scatter (e : Env) (s : State) (nexts : List (Nat × W64)) (bad : Option W64) : Eff :=
  match s.warp? e.b e.w with
  | none => .jump s
  | some x =>
    match x.divide e.sp nexts with
    | none => .fault s { code := fcDiverge }
    | some y =>
      let s1 := s.updWarp e.b e.w fun _ => y
      match bad with
      | none => .jump s1
      | some pc => .jumpThen s1 fun s => s.laneFault e.b e.w pc { code := fcBadTarget, addr := pc }

def branchOff (w : Nat) (o : Nat) : Int := sext w o

/-- The whole split continues at a static target. -/
def execBr (o : BitVec 20) (s : State) : Host.Outcome State Fault Refusal :=
  runLane (fun e =>
    { target := some (branchOff 20 o.toNat), guarded := false
      act := fun s _ => .jump (e.moveTo s (targetOf e.pc (branchOff 20 o.toNat))) }) s

/-- The active threads whose predicate bit says so continue at the target (R356). -/
def execBrp (n : BitVec 1) (p : BitVec 3) (o : BitVec 20) (s : State) : Host.Outcome State Fault Refusal :=
  runLane (fun e =>
    { target := some (branchOff 20 o.toNat)
      act := fun s l =>
        let taken (t : Nat) : Bool := (e.pred p.toNat).getLsbD t != (n == 1#1)
        let cont := linkOf l e.pc 1
        let falls := e.act.any fun t => !taken t
        let bad := match continuation l e.pc 1 with
          | .ok _ => none
          | .error a => if falls then some a else none
        e.scatter s (e.act.map fun t => (t, if taken t then targetOf e.pc (branchOff 20 o.toNat) else cont)) bad }) s

/-- The whole split branches when a uniform register is not zero (R357). -/
def execBru (sr : BitVec 6) (o : BitVec 18) (s : State) : Host.Outcome State Fault Refusal :=
  runLane (fun e =>
    { target := some (branchOff 18 o.toNat), guarded := false
      act := fun s _ =>
        match e.sread sr.toNat with
        | .error c => .fault s { code := c }
        | .ok v => if v = 0#32 then .ok s else .jump (e.moveTo s (targetOf e.pc (branchOff 18 o.toNat))) }) s

/-- Writes the link into a pair for the active threads, or once (R358, R359). -/
def Env.writeLink (e : Env) (s : State) (d : BitVec 8) (link : W64) : State :=
  e.put s d 2 (e.act.map fun t => (t, words2 link.toNat))

/-- Writes the link; the whole split continues at a static target (R359). -/
def execCall (d : BitVec 8) (o : BitVec 16) (s : State) : Host.Outcome State Fault Refusal :=
  runLane (fun e =>
    { opOk := dstOk d 2
      target := some (branchOff 16 o.toNat)
      dsts := dstNames d 2
      act := fun s l => .jump (e.moveTo (e.writeLink s d (linkOf l e.pc 1)) (targetOf e.pc (branchOff 16 o.toNat))) }) s

/-- The targets that the active threads hold in a pair. -/
def Env.pairTargets (e : Env) (a : BitVec 8) : Except (BitVec 8) (List (Nat × W64)) :=
  match eachThread (fun t => e.pread a t) e.act with
  | .error c => .error c
  | .ok rs => .ok (rs.map fun r => (r.1, BitVec.ofNat 64 r.2))

/-- Checks every target before anything is written, then writes the link and scatters the threads (R335, R360). -/
def Env.jumpTo (e : Env) (a : BitVec 8) (link : Option (BitVec 8)) (s : State) (l : FetchLine) : Eff :=
  match e.pairTargets a with
  | .error c => .fault s { code := c }
  | .ok ts =>
    match State.targetsFault e.blk.core e.blk.world e.blk.ctx ts s with
    | (some f, s1) => .fault s1 f
    | (none, s1) =>
      match link with
      | none => e.scatter s1 ts none
      | some d =>
        match e.scatter s1 ts none with
        | .jump s2 => .jump (e.writeLink s2 d (linkOf l e.pc 1))
        | other => other

/-- Writes the link and continues each active thread at its own target (R360). -/
def execCallReg (d a : BitVec 8) (lit : BitVec 32) (s : State) : Host.Outcome State Fault Refusal :=
  runLane (fun e =>
    { opOk := (Instr.wf (.callReg d a lit)) && dstOk d 2 && pairOk a && (!isS d || isS a)
      dsts := dstNames d 2
      act := e.jumpTo a (some d) }) s

/-- Continues each active thread at the address in its pair (R361). -/
def execRet (a : BitVec 8) (lit : BitVec 32) (s : State) : Host.Outcome State Fault Refusal :=
  runLane (fun e => { opOk := (Instr.wf (.ret a lit)) && pairOk a, act := e.jumpTo a none }) s

/-- As ret; the trace tells it from a return (R361). -/
def execJmpi (a : BitVec 8) (lit : BitVec 32) (s : State) : Host.Outcome State Fault Refusal :=
  runLane (fun e => { opOk := (Instr.wf (.jmpi a lit)) && pairOk a, act := e.jumpTo a none }) s

/-! ## exit, yield, waitf (R362, R363, R365, R181) -/

/-- Ends the issuing split. -/
def execExit (s : State) : Host.Outcome State Fault Refusal :=
  runLane (plainSpec (some 0x08) fun e s _ => .jump (s.updSplit e.b e.w e.sp fun q => { q with mask := 0#16 })) s

/-- Acts on the pre-emption request (R221). -/
def execYield (s : State) : Host.Outcome State Fault Refusal :=
  runLane (plainSpec none fun e s _ =>
    match e.blk.preempt with
    | none => .ok s
    | some (.preempt, _) => .okThen s fun s => s.beginSave e.b e.w
    | some (.cancel, _) =>
      .okThen s fun s => s.terminate e.b { code := fcCancel, wid := e.w, pc := e.pc, addr := 0#64 } false) s

/-- Waits for a completion flag; a fault held against it is raised here (R365). -/
def execWaitf (f : BitVec 8) (s : State) : Host.Outcome State Fault Refusal :=
  runLane (fun e =>
    { opOk := decide (f.toNat ≤ 11), guarded := false
      act := fun s _ =>
        if e.wp.flags.getD f.toNat 0 != 0 then .park s .waitf
        else
          match e.wp.flagFault.getD f.toNat none with
          | none => .ok s
          | some (c, a) =>
            .fault (s.updWarp e.b e.w fun x => { x with flagFault := x.flagFault.set f.toNat none })
              { code := c, addr := a } }) s

/-- Whether every other active split of the warp is parked. -/
def Env.othersParked (e : Env) : Bool := e.wp.active.all fun p => p.1 == e.sp || p.2.park != .ready

/-- The join form: waits for a merge, or until every other active split is parked or has ended (R181). -/
def execWaitfJoin (s : State) : Host.Outcome State Fault Refusal :=
  runLane (plainSpec none fun e s _ =>
    if e.othersParked then .ok s
    else .park s .join) s

/-! ## Mood (R346, R366) -/

def moodLegal (v : Nat) : Bool := decide (v < 2 ^ 12 ∧ bits v 7 4 ≤ 10)

/-- Writes the whole mood register. -/
def execMood (a : BitVec 8) (lit : BitVec 32) (s : State) : Host.Outcome State Fault Refusal :=
  runLane (fun e =>
    { opOk := (Instr.wf (.mood a lit)) && srcUOk a 1, guarded := false
      act := fun s _ =>
        match e.srcU (.word lit) a with
        | .error c => .fault s { code := c }
        | .ok v =>
          if moodLegal v then .ok (s.updSplit e.b e.w e.sp fun q => { q with mood := BitVec.ofNat 32 v })
          else .fault s { code := fcBadMood } }) s

def withGuard (m : W32) (p n : Nat) : W32 := BitVec.ofNat 32 (m.toNat / 16 * 16 + n % 2 * 8 + p % 8)

/-- Writes the guard. -/
def execMoodG (p n : BitVec 8) (lit : BitVec 32) (s : State) : Host.Outcome State Fault Refusal :=
  runLane (fun e =>
    { opOk := (Instr.wf (.moodG p n lit)) && isP p, guarded := false
      act := fun s _ =>
        .ok (s.updSplit e.b e.w e.sp fun q => { q with mood := withGuard q.mood (predNo p) n.toNat }) }) s

/-! ## Special registers (R340, R367) -/

/-- The sticky word of the weft sequencer (R289). -/
def wflagsOf (k : Block) : Nat :=
  match k.weft with
  | some y => (if y.povf then 1 else 0) + (if y.badWeight then 2 else 0)
  | none => 0

/-- The value of a special register for one thread. [DESIGN CHOICE 69] -/
def Env.special (e : Env) (sel t : Nat) : Nat :=
  match sel with
  | 0 => t
  | 1 => e.w
  | 2 => e.blk.bid.toNat
  | 3 => e.split.mask.toNat * 2 ^ 16 + e.active.toNat
  | 4 => if e.blk.determ then e.blk.retired else e.blk.cycles
  | 5 => e.wp.retired
  | 6 => e.blk.reccount
  | 7 => e.blk.recdepth
  | 8 => e.blk.world
  | 9 => e.gen
  | 10 => (e.wp.abortcode.get t).toNat
  | 11 => e.wp.abortmask.toNat
  | 12 => e.wp.faultMask.toNat
  | 13 => if e.wp.rstatus then 1 else 0
  | _ => wflagsOf e.blk

/-- Clears what selectors 13 and 14 have read. -/
def clearSpecial (b w sel : Nat) (s : State) : State :=
  if sel = 13 then s.updWarp b w fun x => { x with rstatus := false }
  else if sel = 14 then s.updWeft b fun y => { y with povf := false, badWeight := false }
  else s

/-- Reads a special register. -/
def execSread (d sr : BitVec 8) (s : State) : Host.Outcome State Fault Refusal :=
  runLane (fun e =>
    let k := tyRegs e.ty
    { opOk := (Instr.wf (.sread d sr)) && dstOk d k
      illegal := if 13 ≤ sr.toNat then some 0x0d else none
      dsts := dstNames d k
      act := fun s l => e.result d k (fun t => .ok (e.special sr.toNat t)) (clearSpecial e.b e.w sr.toNat s) l }) s

/-! ## Across the warp (R368 to R371) -/

/-- A ballot. -/
def execVote (d p : BitVec 8) (lit : BitVec 32) (s : State) : Host.Outcome State Fault Refusal :=
  runLane (fun e =>
    { opOk := (Instr.wf (.vote d p lit)) && dstOk d 1 && isP p
      dsts := dstNames d 1
      act := e.resultOnce d 1 (.ok ((e.pred (predNo p) &&& e.active).toNat)) }) s

/-- A typed vector register in one thread. -/
def Env.vtyped (e : Env) (a : BitVec 8) (t : Nat) : Except (BitVec 8) Nat := e.srcTy e.ty .none a t

/-- Each active thread takes another thread's value. -/
def execShfl (d a b : BitVec 8) (lit : BitVec 32) (s : State) : Host.Outcome State Fault Refusal :=
  runLane (fun e =>
    let k := tyRegs e.ty
    { opOk := (Instr.wf (.shfl d a b lit)) && isV d && aligned d k && srcVOk a k && srcOk b 1
      dsts := dstNames d k
      act := e.result d k fun t => do
        let i ← e.src32 (.word lit) b t
        e.vtyped a (i % 16) }) s

/-- One thread's value into a uniform register. -/
def execVtos (d a b : BitVec 8) (lit : BitVec 32) (s : State) : Host.Outcome State Fault Refusal :=
  runLane (fun e =>
    let k := tyRegs e.ty
    { opOk := (Instr.wf (.vtos d a b lit)) && isS d && aligned d k && srcVOk a k && srcUOk b 1
      act := e.result d k fun t => do
        let i ← e.src32 (.word lit) b t
        e.vtyped a (i % 16) }) s

/-- The operations of wred and wscan: 0 add, 1 min, 2 max, 3 and, 4 or, 5 xor. -/
def redOp (b : BitVec 8) : Nat := b.toNat - 0xc0

/-- The combination of integer elements, at least one of them: the exact sum is narrowed once. -/
def redInts (ty : Ty) (sat : Bool) (op : Nat) (xs : List Nat) : Nat :=
  let x0 := xs.headD 0
  match op with
  | 0 => narrowI ty sat ((xs.map (elemInt ty)).foldl (· + ·) 0)
  | 1 => xs.foldl (fun a x => if elemInt ty x < elemInt ty a then x else a) x0
  | 2 => xs.foldl (fun a x => if elemInt ty a < elemInt ty x then x else a) x0
  | 3 => xs.foldl (fun a x => a &&& x) x0
  | 4 => xs.foldl (fun a x => a ||| x) x0
  | _ => xs.tail.foldl (fun a x => a ^^^ x) x0

/-- One rounded floating combination of two patterns, before SAT (R371). [DEDUCED 23] -/
def Env.fcomb (e : Env) (op : Nat) (x y : Nat) : Nat :=
  fresult e.fmt { e.fenv with sat := false } (match op with
    | 0 => e.fsum [e.fval x, e.fval y]
    | 1 => fminmaxV false (e.fval x) (e.fval y)
    | _ => fminmaxV true (e.fval x) (e.fval y))

/-- The operation's result from its last pattern, which may have met no combination: a NaN is canonical, FLUSH and SAT apply
(R277, R279, R281). [DEDUCED 23] -/
def Env.fclamp (e : Env) (x : Nat) : Nat := fresult e.fmt e.fenv (e.fval x)

def comb2 {α : Type} (f : α → α → α) : Option α → Option α → Option α
  | some x, some y => some (f x y)
  | some x, none => some x
  | none, y => y

/-- One stage of the tree of R283: neighbours combine. -/
def treeStage {α : Type} (f : α → α → α) : List (Option α) → List (Option α)
  | x :: y :: r => comb2 f x y :: treeStage f r
  | l => l

def treeRed {α : Type} (f : α → α → α) (l : List (Option α)) : Option α :=
  (treeStage f (treeStage f (treeStage f (treeStage f l)))).headD none

/-- wred over the values of the active threads, element by element (R283, R371). [DEDUCED 23] -/
def Env.reduce (e : Env) (op : Nat) (rs : List (Nat × Nat)) : Nat :=
  let ty := e.ty
  ofElems ty ((List.range (tyCount ty)).map fun k =>
    let el (x : Nat) : Nat := (elems ty x).getD k 0
    if tyFloat ty then
      match treeRed (e.fcomb op) ((List.range 16).map fun t =>
          (rs.find? fun r => r.1 == t).map fun r => el r.2) with
      | some v => e.fclamp v
      | none => 0
    else redInts ty e.sat op (rs.map fun r => el r.2))

/-- wscan's prefix over values in ascending thread order (R283). [DEDUCED 23] -/
def Env.prefixOf (e : Env) (op : Nat) (xs : List Nat) : Nat :=
  let ty := e.ty
  ofElems ty ((List.range (tyCount ty)).map fun k =>
    let els := xs.map fun x => (elems ty x).getD k 0
    if tyFloat ty then
      match els with
      | [] => 0
      | x :: r => e.fclamp (r.foldl (fun a y => e.fcomb op a y) x)
    else redInts ty e.sat op els)

def redBOk (b : BitVec 8) : Bool := decide (0xc0 ≤ b.toNat ∧ b.toNat ≤ 0xc5)
def redMoodOk (b : BitVec 8) (ty : Ty) : Bool := if redOp b ≤ 2 then tyAny ty else tyInt ty

/-- Reduces over the active threads. -/
def execWred (d a b : BitVec 8) (lit : BitVec 32) (s : State) : Host.Outcome State Fault Refusal :=
  runLane (fun e =>
    let k := tyRegs e.ty
    { opOk := (Instr.wf (.wred d a b lit)) && dstOk d k && srcVOk a k && redBOk b
      moodOk := redMoodOk b e.ty
      dsts := dstNames d k
      act := fun s l =>
        match eachThread (e.vtyped a) e.act with
        | .error c => .fault s { code := c }
        | .ok rs => e.resultOnce d k (.ok (e.reduce (redOp b) rs)) s l }) s

/-- Inclusive prefixes over the active threads. -/
def execWscan (d a b : BitVec 8) (lit : BitVec 32) (s : State) : Host.Outcome State Fault Refusal :=
  runLane (fun e =>
    let k := tyRegs e.ty
    { opOk := (Instr.wf (.wscan d a b lit)) && isV d && aligned d k && srcVOk a k && redBOk b
      moodOk := redMoodOk b e.ty
      dsts := dstNames d k
      act := fun s l =>
        match eachThread (e.vtyped a) e.act with
        | .error c => .fault s { code := c }
        | .ok rs =>
          e.result d k (fun t => .ok (e.prefixOf (redOp b) ((rs.filter fun r => decide (r.1 ≤ t)).map Prod.snd))) s l }) s

/-! ## Registers and quota (R184 to R187, R372, R373) -/

/-- Unmaps a vector name. -/
def execVrel (a : BitVec 8) (lit : BitVec 32) (s : State) : Host.Outcome State Fault Refusal :=
  runLane (fun e =>
    { opOk := (Instr.wf (.vrel a lit)) && isV a, guarded := false
      act := fun s _ => .ok (s.updWarp e.b e.w fun x => ({ x with rmap := AMap.erase x.rmap (regNo a) }).gc) }) s

namespace State

def othersBase (s : State) (q lane b w : Nat) : Nat :=
  ((s.laneWarps q lane).filter fun x => x.1 != b || x.2.1 != w).foldl (fun a x => a + x.2.2.baseQuota) 0

/-- Registers of a lane that no warp has reserved. -/
def laneFree (s : State) (q lane : Nat) : Nat := 64 - (s.laneWarps q lane).foldl (fun a x => a + x.2.2.quota) 0

end State

/-- A quota request: granted at once at the head of an empty queue with the registers free; else it queues and parks, and
`execQuotaGrant` grants it (R185). -/
def execQuotaGrow (a : BitVec 8) (lit : BitVec 32) (s : State) : Host.Outcome State Fault Refusal :=
  runLane (fun e =>
    { opOk := (Instr.wf (.quotaGrow a lit)) && srcUOk a 1, guarded := false, illegal := some 0x14
      act := fun s _ =>
        match e.srcU (.word lit) a with
        | .error c => .fault s { code := c }
        | .ok n =>
          let q := quarterOf e.blk e.w
          if n = 0 then .ok s
          else if e.wp.quota + n > 64 || e.wp.quota + n + s.othersBase q e.wp.lane e.b e.w > 64 then
            .fault s { code := fcQuota }
          else if (AMap.getD (s.quarter q).quotaQ e.wp.lane []).isEmpty && decide (n ≤ s.laneFree q e.wp.lane) then
            .ok (s.updWarp e.b e.w fun x => { x with quota := x.quota + n })
          else
            let waiting (x : Quarter) := AMap.getD x.quotaQ e.wp.lane [] ++ [(e.b, e.w, e.sp, n)]
            .park (s.updQuarter q fun x => { x with quotaQ := AMap.set x.quotaQ e.wp.lane (waiting x) }) (.quota n) }) s

/-- Lowers the quota to no less than its floor (R187). -/
def execQuotaShrink (a : BitVec 8) (lit : BitVec 32) (s : State) : Host.Outcome State Fault Refusal :=
  runLane (fun e =>
    { opOk := (Instr.wf (.quotaShrink a lit)) && srcUOk a 1, guarded := false, illegal := some 0x15
      act := fun s _ =>
        match e.srcU (.word lit) a with
        | .error c => .fault s { code := c }
        | .ok n =>
          if n = 0 then .ok s
          else .ok (s.updWarp e.b e.w fun x =>
            { x with quota := max (x.quota - n) (max x.baseQuota (x.rmap.length + 2)) }) }) s

/-! ## trap and brk (R218, R219, R374, R375) -/

def State.ringBase (s : State) (w : Nat) : W64 :=
  match s.world? w with
  | some x => x.crbase
  | none => 0#64

/-- Parks the split and writes a trap record; without a call ring the block terminates. [DEDUCED 25] -/
def execTrap (i : BitVec 8) (s : State) : Host.Outcome State Fault Refusal :=
  runLane (plainSpec (some 0x16) fun e s _ =>
    if s.ringBase e.blk.world = 0#64 then
      .okThen s fun s => s.terminate e.b { code := fcTrap, wid := e.w, pc := e.pc, addr := 0#64 } true
    else
      let (tok, s1) := s.freshToken
      .park (s1.pushTrap e.blk.world (s1.ringRecord e.blk 1 fcTrap i e.w 0 e.pc 0#64 tok)) (.trap tok)) s

def State.breakOpen (s : State) (w : Nat) : Bool :=
  match s.world? w with
  | some x => x.popen.getLsbD 5
  | none => false

/-- Halts the block at a breakpoint when the policy has opened them. A block already halted only gains the record. [DEDUCED 25] -/
def State.breakAt (s : State) (e : Env) (i : BitVec 8) : State :=
  let (tok, s1) := s.freshToken
  let r : FaultRec := { code := fcBrk, wid := e.w, pc := e.pc, addr := 0#64, detail := i, skid := decide (e.blk.run = .halted) }
  let s2 := s1.pushTrap e.blk.world (s1.ringRecord e.blk 3 fcBrk i e.w 0 e.pc 0#64 tok)
  let s3 := s2.updSplit e.b e.w e.sp fun q => { q with park := .trap tok }
  let s4 := s3.updBlock e.b fun k => { k with faults := k.faults ++ [r] }
  if e.blk.run = .running then
    (s4.updBlock e.b fun k => { k with run := .broken tok, brk := some tok, haltedAt := s4.now }).haltSiblings e.b e.w e.blk.determ
  else s4

/-- A breakpoint. [DEDUCED 25] -/
def execBrk (i : BitVec 8) (s : State) : Host.Outcome State Fault Refusal :=
  runLane (plainSpec none fun e s _ =>
    if !s.breakOpen e.blk.world then .ok s
    else if s.ringBase e.blk.world = 0#64 then
      .okThen s fun s => s.terminate e.b { code := fcBrk, wid := e.w, pc := e.pc, addr := 0#64, detail := i } true
    else .stay (s.breakAt e i)) s

end Sys2Proof.Machine
end

