-- ==== Sys2Proof/Machine/Lsu.lean ====
section
/-! DEFINITION. What every lane access to memory shares: addresses (R407), where they lead (R202), the faults and dooms
met there (R206, R264), reads and writes of the three windows, the store buffer (R260, R261), pending loads and
completions (R192, R364, R408), and requests to other devices (R88). -/

namespace Sys2Proof.Machine

/-! ## Addresses -/

/-- The extended word of MEM (R341). -/
def xBoff (x : BitVec 32) : Int := sext 20 (bits x.toNat 31 12)
def xScope (x : BitVec 32) : Nat := bits x.toNat 11 8
def xCache (x : BitVec 32) : Nat := bits x.toNat 7 6
def xOrd (x : BitVec 32) : Nat := bits x.toNat 5 4

/-- What a MEM or ATM instruction says of its access. -/
structure MemOp where
  size : Nat
  align : Nat
  /-- Bytes added to the base: off × unit + BOFF. -/
  disp : Int
  scope : Nat := 0
  flag : Nat := 15
  /-- It is a release. -/
  rel : Bool := false
  /-- It is an acquire. -/
  acq : Bool := false
deriving Repr

/-- The address of one thread (R407). -/
def Env.addrOf (e : Env) (a : BitVec 8) (disp : Int) (t : Nat) : Except (BitVec 8) Nat := do
  let base ← if a == 0x81#8 then Except.ok e.blk.param.toNat else e.pread a t
  pure (wrapN 64 (base + disp))

/-- Where one thread's access leads. -/
inductive Reach where
  | go (p : Place)
  | scratch (off : Nat)
  | priv (off : Nat)
  /-- Outside the allocation: the thread is switched off (R200). -/
  | off
  | stall
  | bad (f : Flt)
deriving DecidableEq, Repr

def inScratchWin (a : Nat) : Bool := decide (scratchBase ≤ a ∧ a < scratchBase + 2 ^ 24)
def inPrivWin (a : Nat) : Bool := decide (privBase ≤ a ∧ a < privBase + 2 ^ 32)

namespace State

/-- The access of thread `t` of warp `w` to `size` bytes at `a` (R202, R203, R407). [DESIGN CHOICE 26] [DEDUCED 34] -/
def reach (s : State) (k : Block) (w t : Nat) (kind : AccKind) (a size align : Nat) : Reach :=
  let va : W64 := BitVec.ofNat 64 a
  if a % align != 0 then .bad { code := fcMisalign, addr := va }
  else if a < 2 ^ 56 then
    match s.resolve k.world k.ctx a kind with
    | .fault f => .bad f
    | .stall => .stall
    | .place p => .go p
  else if inScratchWin a then
    if s.scratchOutside k (a - scratchBase) size then .off else .scratch (a - scratchBase)
  else if inPrivWin a then
    if AMap.has k.privPages (privPage w (a - privBase) t) then .priv (a - privBase)
    else .bad { code := fcPageFault, addr := va, service := s.mayBack k.world }
  else .bad { code := fcProtection, addr := va }

end State

/-- A thread of an access: its index, address and where it leads. -/
structure ThAcc where
  t : Nat
  a : Nat
  r : Reach
deriving DecidableEq, Repr

def Env.reachAll (e : Env) (s : State) (kind : AccKind) (m : MemOp) (as : List (Nat × Nat)) : List ThAcc :=
  as.map fun p => { t := p.1, a := p.2, r := s.reach e.blk e.w p.1 kind p.2 m.size m.align }

/-- Address faults that doom a thread of a region instead of stopping the block (R264). -/
def doomCode (c : BitVec 8) : Bool := c == fcMisalign || c == fcPageFault || c == fcProtection

/-- The lowest thread's fault; in a region only the faults that are raised there as usual. -/
def raisedFault (inTry : Bool) : List ThAcc → Option Flt
  | [] => none
  | x :: xs =>
    match x.r with
    | .bad f => if inTry && doomCode f.code then raisedFault inTry xs else some f
    | _ => raisedFault inTry xs

def anyStall (xs : List ThAcc) : Bool := xs.any fun x => x.r == .stall

def State.anyHeld (s : State) (b size : Nat) (xs : List ThAcc) : Bool :=
  xs.any fun x => match x.r with
    | .scratch o => s.scratchHeld b o size
    | _ => false

def maskThreads (xs : List ThAcc) (f : ThAcc → Bool) : BitVec 16 := maskOf fun t => xs.any fun x => x.t == t && f x

def isOff (x : ThAcc) : Bool := x.r == .off

/-- Switches off the threads whose access lies outside the allocation (R200). -/
def Env.switchOut (e : Env) (s : State) (xs : List ThAcc) : State :=
  match xs.find? isOff with
  | none => s
  | some x => s.switchOff e.b e.w e.pc (BitVec.ofNat 64 x.a) (maskThreads xs isOff)

/-! ## Dooms (R264) -/

def Region.doomThread (r : Region) (t code detail : Nat) : Region :=
  if r.doomed.getLsbD t then r
  else
    { r with doomed := r.doomed ||| BitVec.ofNat 16 (2 ^ t),
             doom := Lanes.ofFn fun i => if i = t then abortWord code detail else r.doom.get i }

def Env.doomOne (e : Env) (s : State) (t code detail : Nat) : State :=
  s.updWarp e.b e.w fun x =>
    { x with region := x.region.map fun r => r.doomThread t code detail
             abortcode := match x.region with
               | some r => if r.doomed.getLsbD t then x.abortcode
                   else Lanes.ofFn fun i => if i = t then abortWord code detail else x.abortcode.get i
               | none => x.abortcode }

/-- Dooms the threads whose address faults. -/
def Env.doomFaults (e : Env) (s : State) (xs : List ThAcc) : State :=
  xs.foldl (fun s x => match x.r with
    | .bad f => e.doomOne s x.t 5 f.code.toNat
    | _ => s) s

/-! ## Reading -/

def Place.shift (n : Nat) : Place → Place
  | .block a o => .block a (o + n)
  | .host p => .host (p + n)
  | .evlog o => .evlog (o + n)
  | .window o => .window (o + n)
  | .remote y w va k => .remote y w (va + BitVec.ofNat 64 n) k

def Block.privRead (k : Block) (w t o n : Nat) : List Byte :=
  (List.range n).map fun i => (AMap.getD k.priv w []).read (privAddr (o + i) t)

def Block.privWrite (k : Block) (w t o : Nat) (bs : List Byte) : Block :=
  { k with priv := AMap.set k.priv w ((List.range bs.length).foldl
      (fun m i => m.write (privAddr (o + i) t) (bs.getD i 0#8)) (AMap.getD k.priv w [])) }

namespace State

/-- Reads `n` bytes `i` bytes into a thread's access. -/
def readReach (s : State) (e : Env) (x : ThAcc) (i n : Nat) : Except (BitVec 8) (List Byte) × State :=
  match x.r with
  | .go p => s.readPlace e.blk.world e.blk.ctx (p.shift i) n
  | .scratch o =>
    match s.block? e.b with
    | none => (.ok [], s)
    | some k =>
      if k.strict && k.scratchUninit (o + i) n then (.error fcUninit, s)
      else if k.scratchPoisoned (o + i) n then (.error fcUncorr, s)
      else (.ok (k.scratchRead (o + i) n), s)
  | .priv o =>
    match s.block? e.b with
    | none => (.ok [], s)
    | some k => (.ok (k.privRead e.w x.t (o + i) n), s)
  | _ => (.ok (List.replicate n 0#8), s)

end State

/-- The youngest buffered byte of a thread at an address (R261); the list is oldest first. -/
def bufferedByte (buf : List BufEntry) (t a : Nat) : Option Byte :=
  buf.reverse.findSome? fun en =>
    match AMap.get? en.data t with
    | none => none
    | some (va, bs) => if va.toNat ≤ a then bs[a - va.toNat]? else none

namespace State

/-- One thread's bytes in a region, byte by byte from the buffer or from memory. -/
def readForwarded (s : State) (e : Env) (buf : List BufEntry) (x : ThAcc) : Nat → Except (BitVec 8) (List Byte) × State
  | 0 => (.ok [], s)
  | n + 1 =>
    match readForwarded s e buf x n with
    | (.error c, s1) => (.error c, s1)
    | (.ok bs, s1) =>
      match bufferedByte buf x.t (x.a + n) with
      | some b => (.ok (bs ++ [b]), s1)
      | none =>
        match s1.readReach e x n 1 with
        | (.error c, s2) => (.error c, s2)
        | (.ok b, s2) => (.ok (bs ++ b), s2)

def readThread (s : State) (e : Env) (x : ThAcc) (n : Nat) : Except (BitVec 8) (List Byte) × State :=
  match (if e.inTry then e.wp.region else none) with
  | some r => s.readForwarded e r.buf x n
  | none => s.readReach e x 0 n

/-- The reads of an instruction, in ascending thread order: each thread's bytes or its data fault. -/
def readAll (e : Env) (n : Nat) : List ThAcc → State → List (ThAcc × Except (BitVec 8) (List Byte)) × State
  | [], s => ([], s)
  | x :: xs, s =>
    let (r, s1) := s.readThread e x n
    let (rs, s2) := readAll e n xs s1
    ((x, r) :: rs, s2)

end State

def isRemote (x : ThAcc) : Bool :=
  match x.r with
  | .go (.remote _ _ _ _) => true
  | _ => false

def reaches (x : ThAcc) : Bool :=
  match x.r with
  | .go _ => true
  | .scratch _ => true
  | .priv _ => true
  | _ => false

def isBad (x : ThAcc) : Bool :=
  match x.r with
  | .bad _ => true
  | _ => false

/-! ## Writing -/

namespace State

/-- Writes of one instruction in thread order; a fixed-class port may refuse a block (R50). A store to the record window
is also held for fence.rec (R106). -/
def writeAll (s : State) (e : Env) (ws : List (ThAcc × List Byte)) : Option (BitVec 8 × W64) × State :=
  let places := ws.filterMap fun p => match p.1.r with
    | .go (.remote _ _ _ _) => none
    | .go pl => some (pl, p.2)
    | _ => none
  let offs := ws.flatMap fun p => match p.1.r with
    | .scratch o => (List.range p.2.length).map (o + ·)
    | _ => []
  let (f, s0) := s.writePlaces e.blk.world e.blk.ctx places
  let s1 := s0.updBlock e.b fun k => k.scratchHeal offs
  (f, ws.foldl (fun s p => match p.1.r with
    | .scratch o => s.updBlock e.b fun k => k.scratchWrite o p.2
    | .priv o => s.updBlock e.b fun k => k.privWrite e.w p.1.t o p.2
    | .go (.window o) => s.updWarp e.b e.w fun x =>
        { x with recHeld := x.recHeld ++ [{ thread := p.1.t, ctx := e.blk.ctx, off := o, bytes := p.2 }] }
    | _ => s) s1)

end State

/-! ## Racing accesses (R231 to R235) -/

/-- The bytes of an access, where other agents can reach them. -/
def raceBytes (b : Nat) (x : ThAcc) (n : Nat) : List RaceByte :=
  match x.r with
  | .go (.block a o) => (List.range n).map fun i => .line (State.lineKey a) (o + i)
  | .go (.host p) => (List.range n).map fun i => .host (p + i)
  | .scratch o => (List.range n).map fun i => .scratch b (o + i)
  | _ => []

/-- The pieces of an access: the whole of it up to 8 bytes, and each 4 bytes of a wider one (R231). -/
def pieceOf (n i : Nat) : Nat := if n ≤ 8 then 0 else i / 4

/-- The agent that a warp's accesses count for (R240). -/
def Env.agent (e : Env) : Nat × Option Nat := (e.b, if e.blk.determ then none else some e.w)

def RaceWrite.note (r : RaceWrite) (me : Nat × Option Nat) : RaceWrite :=
  if r.seen.contains me then r else { r with seen := me :: r.seen }

/-- What an agent reads of a byte that holds `now`: it may pass by each of the newest writes that it has not seen, as `skip`
says for the write's piece, and has then seen the write that it reads (R232, R233). -/
def raceRead (me : Nat × Option Nat) (skip : Nat → Bool) (k : RaceByte) (now : Byte) : List RaceWrite → Byte × List RaceWrite
  | [] => (now, [])
  | r :: rs =>
    if r.byte = k then
      if r.seen.contains me || !skip r.piece then (now, r.note me :: rs)
      else
        let (v, qs) := raceRead me skip k r.old rs
        (v, r :: qs)
    else
      let (v, qs) := raceRead me skip k now rs
      (v, r :: qs)

/-- The bytes of one thread's read, byte by byte. -/
def racePieces (me : Nat × Option Nat) (skip : Nat → Nat → Bool) (n : Nat) :
    List (RaceByte × Byte) → Nat → List RaceWrite → List Byte × List RaceWrite
  | [], _, rs => ([], rs)
  | (k, v) :: ks, i, rs =>
    let (u, qs) := raceRead me (skip (pieceOf n i)) k v rs
    let (us, ts) := racePieces me skip n ks (i + 1) qs
    (u :: us, ts)

namespace State

/-- Where writes may still be missed, what each thread reads in place of the newest bytes; a thread in a region reads the
newest. [DESIGN CHOICE 11] -/
def raceAll (e : Env) (n : Nat) :
    List (ThAcc × Except (BitVec 8) (List Byte)) → State → List (ThAcc × Except (BitVec 8) (List Byte)) × State
  | [], s => ([], s)
  | (x, .error c) :: xs, s =>
    let (rs, s1) := raceAll e n xs s
    ((x, .error c) :: rs, s1)
  | (x, .ok bs) :: xs, s =>
    let ks := raceBytes e.b x n
    if s.recent.isEmpty || ks.isEmpty then
      let (rs, s1) := raceAll e n xs s
      ((x, .ok bs) :: rs, s1)
    else
      let skip (p w : Nat) : Bool := !e.inTry && Config.misses (s.freeCnt + p) w
      let (us, ws) := racePieces e.agent skip n (ks.zip bs) 0 s.recent
      let (rs, s1) := raceAll e n xs { s with recent := ws, freeCnt := s.freeCnt + n / 4 + 1 }
      ((x, .ok us) :: rs, s1)

/-- An acquire at a scope: its agent has seen every write that an agent of its block or core has, or from .pnl up every
write (R228, R234, R235). [DESIGN CHOICE 11] -/
def learn (s : State) (e : Env) (scope : Nat) : State :=
  let near (a : Nat × Option Nat) : Bool :=
    (decide (scope = 2) && a.1 == e.b) || (decide (scope = 3) && (match s.block? a.1 with
      | some k => k.core == e.blk.core
      | none => true))
  { s with recent := s.recent.map fun r => if 4 ≤ scope || r.seen.any near then r.note e.agent else r }

/-- Bytes whose older values nothing can read any more. -/
def forget (s : State) (ks : List RaceByte) : State := { s with recent := s.recent.filter fun r => !ks.contains r.byte }

/-- The loads of an instruction: what the memories hold, or what a racing read may return instead; an acquire then orders
what its agent reads later. -/
def loadAll (e : Env) (acq : Option Nat) (n : Nat) (xs : List ThAcc) (s : State) :
    List (ThAcc × Except (BitVec 8) (List Byte)) × State :=
  let (rs, s1) := readAll e n xs s
  let (qs, s2) := raceAll e n rs s1
  (qs, match acq with
    | some sc => s2.learn e sc
    | none => s2)

/-- The writes of one instruction's plain stores, in thread order, over what the bytes held: `done` lists the bytes that its
earlier threads wrote, newest first. -/
def raceStores (old : State) (e : Env) : List (ThAcc × List Byte) → List (RaceByte × Byte) → List RaceWrite → List RaceWrite
  | [], _, rs => rs
  | (x, bs) :: ws, done, rs =>
    let ks := raceBytes e.b x bs.length
    let news := ks.zip bs
    let p := match rs with
      | r :: _ => r.piece + 1
      | [] => 0
    match (old.readReach e x 0 bs.length).1 with
    | .error _ => raceStores old e ws (news.reverse ++ done) (rs.filter fun r => !ks.contains r.byte)
    | .ok was =>
      let made := (ks.zip was).zipIdx.map fun q =>
        { byte := q.1.1, old := ((done.find? fun d => d.1 == q.1.1).map Prod.snd).getD q.1.2, piece := p + pieceOf bs.length q.2, seen := [e.agent] }
      raceStores old e ws (news.reverse ++ done) (made.reverse ++ rs)

/-- Stores that were performed on `old` may be missed by racing reads; of those that a port refused nothing is left (R50). -/
def noteStores (s old : State) (e : Env) (f : Option (BitVec 8 × W64)) (ws : List (ThAcc × List Byte)) : State :=
  match f with
  | none => { s with recent := raceStores old e ws [] s.recent }
  | some _ => s.forget (ws.flatMap fun p => raceBytes e.b p.1 p.2.length)

/-- After the atomics of an instruction: nothing older than their writes can be read, and an acquire orders. -/
def noteAtomics (s : State) (e : Env) (acq : Option Nat) (n : Nat) (xs : List ThAcc) : State :=
  let s1 := s.forget (xs.flatMap fun x => raceBytes e.b x n)
  match acq with
  | some sc => s1.learn e sc
  | none => s1

end State

/-- The scope of an acquire. -/
def MemOp.acqScope (m : MemOp) : Option Nat := if m.acq then some m.scope else none

/-! ## Other devices (R88, R229) -/

/-- A remote access below .pod acts at .pod. -/
def remoteScope (sc : Nat) : Nat := if sc < 6 then 6 else sc

namespace State

/-- A request goes out on the plane of its target block, and is in flight there until it is answered (R85). -/
def sendRemote (s : State) (who : RemWait) (q : RemoteReq) : State :=
  let id := AMap.fresh s.remote
  let h := Config.planeHash (q.va.toNat / 256)
  let s1 := { s with remote := AMap.set s.remote id who
                     planes := match s.planeAt h with
                       | some p => AMap.set s.planes id (p, h)
                       | none => s.planes }
  (s1.send (.remoteReq id q)).onPlane q.va

/-- One request for each thread whose access is remote. -/
def sendRemotes (s : State) (kind : RemKind) (scope size : Nat) (who : ThAcc → RemWait) (xs : List (ThAcc × List Byte)) :
    State :=
  xs.foldl (fun s p => match p.1.r with
    | .go (.remote y w va key) =>
      s.sendRemote (who p.1) { kind := kind, fromSys := s.sysNum, toSys := y, world := w, va := va, key := key,
                                 scope := remoteScope scope, size := size, data := p.2 }
    | _ => s) s

/-- Whether answers are due for a load or another access of a warp. -/
def awaitsLoad (s : State) (b w id : Nat) : Bool := s.remote.any fun r => match r.2 with
  | .load b' w' i _ _ => b' == b && w' == w && i == id
  | _ => false

def awaitsAcc (s : State) (b w id : Nat) : Bool := s.remote.any fun r => match r.2 with
  | .acc b' w' i _ _ => b' == b && w' == w && i == id
  | _ => false

/-- The block and warp whose access an answer is due to. -/
def remOwner (r : RemWait) : Option (Nat × Nat) :=
  match r with
  | .load b w _ _ _ => some (b, w)
  | .acc b w _ _ _ => some (b, w)
  | .message b w => some (b, w)
  | _ => none

/-- Whether an access of a warp to another device is still unanswered. -/
def remoteDue (s : State) (b w : Nat) : Bool := s.remote.any fun r => remOwner r.2 == some (b, w)

/-- Whether an access of a block that `f` picks is still unanswered. -/
def remoteDueOf (s : State) (f : Block → Bool) : Bool := s.remote.any fun r => match remOwner r.2 with
  | some (b, _) => (match s.block? b with
    | some k => f k
    | none => false)
  | none => false

/-- What a release at a scope waits for: at .pod and .dom every write of the world that it may cover, whichever warp made it;
below, the warp's own (R254). [DEDUCED 61] -/
def releaseDue (s : State) (b w world scope : Nat) : Bool :=
  if 6 ≤ scope then s.remoteDueOf (fun k => k.world == world) else s.remoteDue b w

end State

/-! ## Completion flags and pending loads -/

/-- A number for a load or access in flight. -/
def Warp.freshId (x : Warp) : Nat := max (AMap.fresh x.loads) (AMap.fresh x.accs)

/-- Raises the count of a flag; 15 names none. -/
def Warp.raiseFlag (x : Warp) (f : Nat) : Warp :=
  if f ≤ 11 then { x with flags := x.flags.set f (x.flags.getD f 0 + 1) } else x

def Warp.lowerFlag (x : Warp) (f : Nat) (fault : Option (BitVec 8 × W64)) : Warp :=
  if f ≤ 11 then
    { x with flags := x.flags.set f (x.flags.getD f 0 - 1)
             flagFault := match x.flagFault.getD f none with
               | some _ => x.flagFault
               | none => x.flagFault.set f fault }
  else x

/-- A flag whose count is at its limit (R364). -/
def Warp.flagFull (x : Warp) (f : Nat) : Bool := f ≤ 11 && decide (x.flags.getD f 0 ≥ 255)

def PhysReg.withPend (r : PhysReg) (m : BitVec 16) : PhysReg :=
  { r with pend := (List.range 4).map fun g =>
      r.pend.getD g false || (granuleThreads g).any fun t => m.getLsbD t }

/-- Renames `k` names from `n` as pending for the threads of `m`, as load `id` (R192). [DEDUCED 34] -/
def Warp.startLoad (x : Warp) (gen id n k : Nat) (m : BitVec 16) (l : PendLoad) (rs : List (Nat × List W32)) : Warp :=
  let names := (List.range k).map (n + ·)
  let x0 := { x with loads := AMap.set x.loads id { l with prevs := names.map fun j => (j, AMap.get? x.rmap j) } }
  (List.range k).foldl (fun y j =>
    let y1 := y.writeVec gen m (n + j) Lanes.zero
    match AMap.get? y1.rmap (n + j) with
    | none => y1
    | some p =>
      { y1 with phys := AMap.modify y1.phys p fun r => r.withPend m
                loads := AMap.modify y1.loads id fun l => { l with targets := l.targets ++ [(p, m, lanesOf rs j)] } }) x0

/-- Lanes of a register replaced for a set of threads. -/
def PhysReg.setLanes (r : PhysReg) (m : BitVec 16) (f : Nat → W32) : PhysReg :=
  { r with vals := Lanes.ofFn fun t => if m.getLsbD t then f t else r.vals.get t }

/-- Clears the pending bits of a register that no other load feeds. -/
def Warp.settlePend (x : Warp) (p : Nat) : Warp :=
  { x with phys := AMap.modify x.phys p fun r =>
      { r with pend := (List.range 4).map fun g => r.pend.getD g false && x.loads.any fun l => Warp.feeds l.2 p g } }

/-- The data of load `id` arrives: in its registers, in every later register that was made pending from them, and the
load is gone. With a fault the names that still map to its registers go back to their earlier ones (R192, R206). [DEDUCED 34] -/
def Warp.deliver (x : Warp) (gen id : Nat) (inTry : Bool) : Warp :=
  match AMap.get? x.loads id with
  | none => x
  | some l =>
    let pairs := l.targets.zip l.prevs
    let x1 := pairs.foldl (fun y p =>
      let old := p.2.2.bind fun q => AMap.get? y.phys q
      let data (t : Nat) : W32 := if l.fault.isSome then readGranule gen old t else p.1.2.2.get t
      { y with phys := AMap.modify y.phys p.1.1 fun r => r.setLanes p.1.2.1 data }) x
    let x2 := l.heirs.foldl (fun y h =>
      let src := AMap.get? y.phys h.2.1
      { y with phys := AMap.modify y.phys h.1 fun r => r.setLanes h.2.2 (readGranule gen src) }) x1
    let x3 := { x2 with loads := AMap.erase x2.loads id }
    let x4 := ((l.targets.map Prod.fst ++ l.heirs.map Prod.fst).dedup).foldl Warp.settlePend x3
    let x5 := if l.fault.isSome then
        pairs.foldl (fun y p =>
          if AMap.get? y.rmap p.2.1 = some p.1.1 then
            { y with rmap := match p.2.2 with
                | some q => AMap.set y.rmap p.2.1 q
                | none => AMap.erase y.rmap p.2.1 }
          else y) x4
      else x4
    let x6 := match l.uni, l.fault with
      | some (n, ws), none => x5.writeUnis gen inTry n ws
      | _, _ => x5
    (x6.lowerFlag l.flag l.fault).gc

/-! ## Loads (R409, R410) -/

/-- The value a load gives from its bytes, as register words. -/
def loadWords (signed : Bool) (bs : List Byte) : List W32 :=
  let n := bs.length
  let x := leNat bs
  if n ≤ 4 then [BitVec.ofNat 32 (if signed then wrapN 32 (sext (8 * n) x) else x)]
  else (List.range (n / 4)).map fun k => BitVec.ofNat 32 (x / 2 ^ (32 * k))

/-- Registers that a width fills. -/
def sizeRegs (n : Nat) : Nat := if n ≤ 4 then 1 else n / 4

/-- The first data fault, of the lowest thread, with its address. -/
def firstDataFault : List (ThAcc × Except (BitVec 8) (List Byte)) → Option (BitVec 8 × W64)
  | [] => none
  | (x, .error c) :: _ => some (c, BitVec.ofNat 64 x.a)
  | _ :: rs => firstDataFault rs

/-- Dooms the threads whose data faults (R264). -/
def Env.doomData (e : Env) (s : State) (rs : List (ThAcc × Except (BitVec 8) (List Byte))) : State :=
  rs.foldl (fun s p => match p.2 with
    | .error c => e.doomOne s p.1.t 5 c.toNat
    | .ok _ => s) s

/-- What the load writes for each thread: its data, or zero where the thread is doomed. -/
def loadResults (signed : Bool) (n : Nat) (rs : List (ThAcc × Except (BitVec 8) (List Byte))) : List (Nat × List W32) :=
  rs.map fun p => (p.1.t, loadWords signed (match p.2 with
    | .ok bs => bs
    | .error _ => List.replicate n 0#8))

/-- No other split of the warp can read a granule that a synchronous local load has pending (R157, R192). -/
def Env.atOnce (e : Env) : Bool := e.blk.determ || decide (e.wp.active.length ≤ 1)

/-- Bytes of a remote load that its threads' own buffered stores cover (R261). -/
def Env.ownBytes (e : Env) (n : Nat) (xs : List ThAcc) : List (Nat × Nat × Byte) :=
  match (if e.inTry then e.wp.region else none) with
  | none => []
  | some r => xs.flatMap fun x => (List.range n).filterMap fun j => (bufferedByte r.buf x.t (x.a + j)).map fun b => (x.t, j, b)

/-- Carries out a load whose data has been read: at once when it is synchronous, local and nothing else can look at its
granules meanwhile, else as a pending load (R192). -/
def Env.landLoad (e : Env) (s : State) (m : MemOp) (d : BitVec 8) (xs : List ThAcc) (rs : List (Nat × List W32))
    (fault : Option (BitVec 8 × W64)) (signed : Bool := false) : Eff :=
  let k := sizeRegs m.size
  let remote := xs.filter isRemote
  if m.flag = 15 && remote.isEmpty && e.atOnce then
    match fault with
    | some (c, a) => .fault s { code := c, addr := a }
    | none => .ok (e.put s d k rs)
  else
    match s.warp? e.b e.w with
    | none => .ok s
    | some x =>
      let id := x.freshId
      let base : PendLoad := { flag := m.flag, fault := fault, split := e.sp, remote := !remote.isEmpty, inTry := e.inTry, signed := signed, own := e.ownBytes m.size remote }
      let mask := maskOf fun t => rs.any fun r => r.1 == t
      let s1 := s.updWarp e.b e.w fun x =>
        let y :=
          if isS d then
            let ws := (lanesOfFirst rs k)
            if remote.isEmpty && fault.isNone then
              { x.writeUnis e.gen e.inTry (regNo d) ws with loads := AMap.set x.loads id base }
            else { x with loads := AMap.set x.loads id { base with uni := some (regNo d, ws) } }
          else if mask = 0#16 then { x with loads := AMap.set x.loads id base }
          else x.startLoad e.gen id (regNo d) k mask base rs
        y.raiseFlag m.flag
      let s2 := s1.sendRemotes .load m.scope m.size (fun x => .load e.b e.w id x.t (BitVec.ofNat 64 x.a)) (remote.map fun x => (x, []))
      if m.flag = 15 then .park s2 (.sync id) else .ok s2
where
  lanesOfFirst (rs : List (Nat × List W32)) (k : Nat) : List W32 :=
    match rs with
    | r :: _ => r.2.take k
    | [] => List.replicate k 0#32

/-- A load from given addresses, one of each thread. `spec`: it enters the alias set of a region (R263). [DEDUCED 34] -/
def Env.loadFrom (e : Env) (m : MemOp) (spec signed : Bool) (d : BitVec 8) (as : List (Nat × Nat)) (s : State) : Eff :=
  if e.wp.flagFull m.flag then .park s .flagFull
  else if spec && e.inTry && (match e.wp.region with
      | some r => decide (r.alias_.length ≥ 16)
      | none => false) then .roll s 3 0
  else
    let xs := e.reachAll s .load m as
    match raisedFault e.inTry xs with
    | some f => .fault s f
    | none =>
      if anyStall xs || s.anyHeld e.b m.size xs then .park s .ready
      else
        let (rs, s1) := State.loadAll e m.acqScope m.size (xs.filter fun x => reaches x && !isRemote x) s
        match firstDataFault (rs.filter fun p => match p.2 with
            | .error c => c == fcUninit
            | .ok _ => false) with
        | some (c, a) => .fault s1 { code := c, addr := a }
        | none =>
          let s2 := e.switchOut s1 xs
          let s3 := if e.inTry then e.doomData (e.doomFaults s2 xs) rs else s2
          let s4 := if spec && e.inTry then
              s3.updWarp e.b e.w fun x => { x with region := x.region.map fun r =>
                { r with alias_ := r.alias_ ++ [as.map fun p => (p.1, p.2 / 32)] } }
            else s3
          let fault := if e.inTry then none else firstDataFault rs
          let zeros := (xs.filter fun x => isBad x || isRemote x).map fun x => (x.t, List.replicate (sizeRegs m.size) 0#32)
          let out := (loadResults signed m.size rs ++ zeros).insertionSort fun p q => p.1 ≤ q.1
          e.landLoad s4 m d xs out fault signed

/-- A load of the runners' threads. [DESIGN CHOICE 11] [DEDUCED 34] -/
def Env.load (e : Env) (m : MemOp) (spec signed : Bool) (d a : BitVec 8) (s : State) (_ : FetchLine) : Eff :=
  match eachThread (e.addrOf a m.disp) (e.runners d) with
  | .error c => .fault s { code := c }
  | .ok as => e.loadFrom m spec signed d as s

/-! ## Stores (R411, R260) -/

/-- The threads that a store or cache instruction runs for: once when its address and data are uniform (R339). -/
def Env.onceIf (e : Env) (once : Bool) : List Nat := if once then e.act.take 1 else e.act

/-- The bytes a thread stores (R411). -/
def Env.storeBytes (e : Env) (d : BitVec 8) (n t : Nat) : Except (BitVec 8) (List Byte) :=
  match opnd d with
  | .imm i => .ok (leBytes n (wrapN (8 * n) i))
  | _ => do
    let ws ← (List.range (sizeRegs n)).mapM fun k => e.rread d k t
    pure (leBytes n (packElems 32 (ws.map BitVec.toNat)))

/-- Bytes of a store cut into buffer entries of 8. -/
def bufEntries (ws : List (ThAcc × List Byte)) (n : Nat) : List BufEntry :=
  (List.range ((n + 7) / 8)).map fun j =>
    { data := ws.map fun p => (p.1.t, BitVec.ofNat 64 (p.1.a + 8 * j), (p.2.drop (8 * j)).take 8) }

/-- Threads of a store whose bytes lie in a granule that an earlier ld.spec of their own recorded (R264). -/
def aliasHits (r : Region) (ws : List (ThAcc × List Byte)) : List Nat :=
  (ws.filter fun p => r.alias_.any fun en => match AMap.get? en p.1.t with
    | some g => decide (p.1.a / 32 ≤ g ∧ g ≤ (p.1.a + p.2.length - 1) / 32)
    | none => false).map fun p => p.1.t

/-- A store of a region goes to the buffer (R260). -/
def Env.bufferStore (e : Env) (s : State) (m : MemOp) (xs : List ThAcc) (ws : List (ThAcc × List Byte)) : Eff :=
  match e.wp.region with
  | none => .ok s
  | some r =>
    let ents := bufEntries ws m.size
    if r.buf.length + ents.length > 16 then .roll s 3 0
    else
      let s1 := e.switchOut s xs
      let s2 := e.doomFaults s1 xs
      let s3 := (aliasHits r ws).foldl (fun s t => e.doomOne s t 2 0) s2
      let s4 := s3.updWarp e.b e.w fun x =>
        let y := { x with region := x.region.map fun r => { r with buf := r.buf ++ ents } }
        if m.flag ≤ 11 then
          { y.raiseFlag m.flag with accs := AMap.set y.accs y.freshId { flag := m.flag, split := e.sp } }
        else y
      .ok s4

/-- Completes an access at issue, or leaves it counted against its flag, or waits for another device (R408). -/
def Env.landAcc (e : Env) (s : State) (m : MemOp) (kind : RemKind) (ws : List (ThAcc × List Byte))
    (fault : Option (BitVec 8 × W64)) : Eff :=
  let remote := ws.filter fun p => isRemote p.1
  if m.flag = 15 && remote.isEmpty then
    match fault with
    | some (c, a) => .fault s { code := c, addr := a }
    | none => .ok s
  else
    match s.warp? e.b e.w with
    | none => .ok s
    | some x =>
      let id := x.freshId
      let acc : PendAcc := { flag := m.flag, fault := fault, split := e.sp, remote := !remote.isEmpty }
      let s1 := s.updWarp e.b e.w fun x => { x.raiseFlag m.flag with accs := AMap.set x.accs id acc }
      let s2 := s1.sendRemotes kind m.scope m.size (fun x => .acc e.b e.w id x.t (BitVec.ofNat 64 x.a)) remote
      if m.flag = 15 then .park s2 (.sync id) else .ok s2

/-- A release at .pod or .dom is not performed before the writes that it covers are acknowledged (R254). -/
def Env.relWaits (e : Env) (s : State) (m : MemOp) : Bool :=
  m.rel && decide (6 ≤ m.scope) && s.releaseDue e.b e.w e.blk.world m.scope

/-- A store: the runners' bytes to their addresses. [DESIGN CHOICE 11] -/
def Env.store (e : Env) (m : MemOp) (d a : BitVec 8) (s : State) (_ : FetchLine) : Eff :=
  let runners := e.onceIf (isS a && !isV d)
  match eachThread (e.addrOf a m.disp) runners, eachThread (e.storeBytes d m.size) runners with
  | .error c, _ => .fault s { code := c }
  | _, .error c => .fault s { code := c }
  | .ok as, .ok ds =>
    if e.wp.flagFull m.flag then .park s .flagFull
    else
      let xs := e.reachAll s .store m as
      match raisedFault e.inTry xs with
      | some f => .fault s f
      | none =>
        let ws := (xs.zip (ds.map Prod.snd)).filter fun p => reaches p.1
        if anyStall xs then .park s .ready
        else if e.inTry then e.bufferStore s m xs ws
        else if s.anyHeld e.b m.size xs then .park s .ready
        else if e.relWaits s m then .park s .fence
        else
          let s1 := e.switchOut s xs
          let (f, s2) := s1.writeAll e ws
          e.landAcc (s2.noteStores s1 e f ws) m .store ws f

/-! ## The tile forms (R412) -/

/-- Window offsets of a thread's two words. -/
def tileOff (col : Bool) (off t : Nat) (h : Nat) : Nat := off + (if col then 128 else 4) * (2 * t + h)

/-- The base of a tile: a uniform pair in the scratchpad window, aligned. -/
def Env.tileBase (e : Env) (col : Bool) (a : BitVec 8) (disp : Int) : Except Flt Nat :=
  if a == 0x81#8 then .error { code := fcProtection, addr := e.blk.param }
  else
    match e.addrOf a disp 0 with
    | .error c => .error { code := c }
    | .ok v =>
      let f (c : BitVec 8) : Except Flt Nat := .error { code := c, addr := BitVec.ofNat 64 v }
      if v % (if col then 4 else 128) != 0 then f fcMisalign
      else if !inScratchWin v then f fcProtection
      else .ok (v - scratchBase)

/-- The first word of each active thread, or the second where only that lies outside the allocation. -/
def Env.tileAccs (e : Env) (s : State) (col : Bool) (off : Nat) : List ThAcc :=
  e.act.map fun t =>
    let o0 := tileOff col off t 0
    let o1 := tileOff col off t 1
    let out0 := s.scratchOutside e.blk o0 4
    let out := out0 || s.scratchOutside e.blk o1 4
    { t := t, a := scratchBase + (if out && !out0 then o1 else o0), r := if out then .off else .scratch o0 }

def Env.tileHeld (e : Env) (s : State) (col : Bool) (off : Nat) (xs : List ThAcc) : Bool :=
  xs.any fun x => !isOff x && (s.scratchHeld e.b (tileOff col off x.t 0) 4 || s.scratchHeld e.b (tileOff col off x.t 1) 4)

/-- The accesses of a tile form: two words of each thread. -/
def tileWords (col : Bool) (off : Nat) (ts : List Nat) : List ThAcc :=
  ts.flatMap fun t => (List.range 2).map fun h =>
    { t := t, a := scratchBase + tileOff col off t h, r := .scratch (tileOff col off t h) }

/-- The words of a tile form, thread by thread, from its two reads each. -/
def tilePairs : List (ThAcc × Except (BitVec 8) (List Byte)) → List (Nat × Except (BitVec 8 × W64) (List W32))
  | (x, p) :: (y, q) :: rs =>
    let one (r : ThAcc × Except (BitVec 8) (List Byte)) : Except (BitVec 8 × W64) W32 :=
      match r.2 with
      | .ok bs => .ok (BitVec.ofNat 32 (leNat bs))
      | .error c => .error (c, BitVec.ofNat 64 r.1.a)
    (x.t, do
      let u ← one (x, p)
      let v ← one (y, q)
      pure [u, v]) :: tilePairs rs
  | _ => []

/-- The first thread's data fault of a tile read that `f` picks. -/
def tileFault (f : BitVec 8 → Bool) (rs : List (Nat × Except (BitVec 8 × W64) (List W32))) : Option (BitVec 8 × W64) :=
  rs.findSome? fun r => match r.2 with
    | .error c => if f c.1 then some c else none
    | .ok _ => none

/-- ldx: a row or column into a vector pair. In a region a base that faults dooms every active thread, and a poisoned word its
thread (R206, R264). -/
def Env.tileLoad (e : Env) (col : Bool) (m : MemOp) (d a : BitVec 8) (s : State) (_ : FetchLine) : Eff :=
  if e.wp.flagFull m.flag then .park s .flagFull
  else
    match e.tileBase col a m.disp with
    | .error f =>
      if e.inTry && doomCode f.code then
        e.landLoad (e.act.foldl (fun s t => e.doomOne s t 5 f.code.toNat) s) { m with size := 8 } d []
          (e.act.map fun t => (t, [0#32, 0#32])) none
      else .fault s f
    | .ok off =>
      let xs := e.tileAccs s col off
      if e.tileHeld s col off xs then .park s .ready
      else
        let (qs, s0) := State.loadAll e none 4 (tileWords col off ((xs.filter fun x => !isOff x).map ThAcc.t)) s
        let rs := tilePairs qs
        match tileFault (· == fcUninit) rs with
        | some (c, _) => .fault s0 { code := c }
        | none =>
          let s1 := e.switchOut s0 xs
          let s2 := if e.inTry then
              rs.foldl (fun s r => match r.2 with
                | .error c => e.doomOne s r.1 5 c.1.toNat
                | .ok _ => s) s1
            else s1
          let out := rs.map fun r => (r.1, match r.2 with
            | .ok ws => ws
            | .error _ => [0#32, 0#32])
          e.landLoad s2 { m with size := 8 } d [] out (if e.inTry then none else tileFault (fun _ => true) rs)

/-- The words that a tile form stores, as accesses of its threads. -/
def tileStores (ws : List (Nat × List Byte)) : List (ThAcc × List Byte) :=
  ws.map fun p => ({ t := 0, a := scratchBase + p.1, r := .scratch p.1 }, p.2)

/-- stx: a vector pair to a row or column. -/
def Env.tileStore (e : Env) (col : Bool) (m : MemOp) (d a : BitVec 8) (s : State) (_ : FetchLine) : Eff :=
  if e.wp.flagFull m.flag then .park s .flagFull
  else
    match eachThread (fun t => (List.range 2).mapM fun k => e.rread d k t) e.act, e.tileBase col a m.disp with
    | .error c, _ => .fault s { code := c }
    | _, .error f => .fault s f
    | .ok ds, .ok off =>
      let xs := e.tileAccs s col off
      if e.tileHeld s col off xs then .park s .ready
      else
        let s1 := e.switchOut s xs
        let ws := (ds.filter fun r => xs.any fun x => x.t == r.1 && !isOff x).flatMap fun r =>
          (List.range 2).map fun h => (tileOff col off r.1 h, leBytes 4 (r.2.getD h 0#32).toNat)
        let offs := ws.flatMap fun p => (List.range 4).map (p.1 + ·)
        let s2 := s1.updBlock e.b fun k => ws.foldl (fun k p => k.scratchWrite p.1 p.2) (k.scratchHeal offs)
        e.landAcc (s2.noteStores s1 e none (tileStores ws)) m .store [] none

/-! ## Cache instructions (R413) -/

/-- prefetch: places the block's line; an address that would fault does nothing. -/
def Env.prefetch (e : Env) (m : MemOp) (a : BitVec 8) (s : State) (_ : FetchLine) : Eff :=
  match eachThread (e.addrOf a m.disp) (e.onceIf (isS a)) with
  | .error c => .fault s { code := c }
  | .ok as =>
    if e.wp.flagFull m.flag then .park s .flagFull
    else
      let s1 := (e.reachAll s .load m as).foldl (fun s x => match x.r with
        | .go (.block b _) => (s.fill b).2
        | _ => s) s
      e.landAcc s1 m .load [] none

/-- cinv and cwb: the lines of this model are the home panel cache's, where every store already lies; nothing that a
read may return changes. -/
def Env.cacheOp (e : Env) (m : MemOp) (a : BitVec 8) (s : State) (_ : FetchLine) : Eff :=
  match eachThread (e.addrOf a m.disp) (e.onceIf (isS a)) with
  | .error c => .fault s { code := c }
  | .ok _ => if e.wp.flagFull m.flag then .park s .flagFull else e.landAcc s m .load [] none

/-! ## Atomics (R415, R416) -/

/-- The new value of an atomic: operations 0 to 6 as rop, 7 exchange, 8 compare-and-swap; types 0 i32, 1 n32, 2 i64, 3
n64, 4 f32. -/
def atomicF (op ty old b c : Nat) : Nat :=
  let w := if ty = 2 ∨ ty = 3 then 64 else 32
  let less (x y : Nat) : Bool := if ty = 0 ∨ ty = 2 then decide (sext w x < sext w y) else decide (x < y)
  let fv (x : Nat) : FVal := fdecode fmtF32 x
  match op with
  | 0 => (old + b) % 2 ^ w
  | 1 => if ty = 4 then fencode fmtF32 0 (fminmaxV false (fv old) (fv b)) else if less b old then b else old
  | 2 => if ty = 4 then fencode fmtF32 0 (fminmaxV true (fv old) (fv b)) else if less old b then b else old
  | 3 => old &&& b
  | 4 => old ||| b
  | 5 => old ^^^ b
  | 6 => fencode fmtF32 0 (fsumV 0 [fv old, fv b])
  | 7 => b
  | _ => if old = b then c else old

/-- An operand of an atomic: registers, or an immediate sign-extended to the type's width. -/
def Env.atomSrc (e : Env) (wide : Bool) (f : BitVec 8) (t : Nat) : Except (BitVec 8) Nat :=
  if wide then e.src64 .none f t else e.src32 .none f t

/-- One thread's atomic on local memory: its old value. [DEDUCED 35] -/
def State.atomicOne (s : State) (e : Env) (n : Nat) (f : Nat → Nat) (x : ThAcc) : Except (BitVec 8 × W64) Nat × State :=
  let va : W64 := BitVec.ofNat 64 x.a
  match x.r with
  | .go p => s.atomicPlace e.blk.world e.blk.ctx p n fun v => some (f v)
  | _ =>
    match s.readReach e x 0 n with
    | (.error c, s1) => (.error (c, va), s1)
    | (.ok bs, s1) =>
      let old := leNat bs
      match s1.writeAll e [(x, leBytes n (f old))] with
      | (none, s2) => (.ok old, s2)
      | (some g, s2) => (.error g, s2)

/-- The atomics of one instruction in ascending thread order. [DESIGN CHOICE 11] [DEDUCED 35] -/
def State.atomicAll (e : Env) (n : Nat) (f : Nat → Nat → Nat) :
    List ThAcc → State → Except (BitVec 8 × W64) (List (Nat × Nat)) × State
  | [], s => (.ok [], s)
  | x :: xs, s =>
    match s.atomicOne e n (f x.t) x with
    | (.error g, s1) => (.error g, s1)
    | (.ok old, s1) =>
      match State.atomicAll e n f xs s1 with
      | (.error g, s2) => (.error g, s2)
      | (.ok rs, s2) => (.ok ((x.t, old) :: rs), s2)

/-- The counters and breaks of a world's slots as another state has them: a refused write keeps them (R44, R50). -/
def State.keepCounts (s s1 : State) (w : Nat) : State :=
  s.updWorld w fun x => { x with slots := x.slots.map fun p =>
    let q := s1.slotOf w p.1
    (p.1, { p.2 with encErr := q.encErr, mismatch := q.mismatch, st := q.st }) }

/-- An atomic; `ret`: old values go to `d`. A data fault of any thread leaves memory as it was (R8). -/
def Env.atomic (e : Env) (m : MemOp) (op ty : Nat) (ret : Bool) (d a b c : BitVec 8) (s : State) (_ : FetchLine) : Eff :=
  let wide := ty == 2 || ty == 3
  let once := isS a && !isV b && (op != 8 || !isV c)
  let runners := e.onceIf (once || (ret && isS d))
  match eachThread (e.addrOf a m.disp) runners, eachThread (e.atomSrc wide b) runners,
      eachThread (fun t => if op = 8 then e.atomSrc wide c t else .ok 0) runners with
  | .error x, _, _ => .fault s { code := x }
  | _, .error x, _ => .fault s { code := x }
  | _, _, .error x => .fault s { code := x }
  | .ok as, .ok bs, .ok cs =>
    let xs := e.reachAll s .atomic m as
    match raisedFault false xs with
    | some f => .fault s f
    | none =>
      if anyStall xs || s.anyHeld e.b m.size xs then .park s .ready
      else if e.relWaits s m then .park s .fence
      else
        let here := xs.filter fun x => reaches x && !isRemote x
        let val (l : List (Nat × Nat)) (t : Nat) : Nat := ((l.find? fun p => p.1 == t).map Prod.snd).getD 0
        match firstDataFault (State.readAll e m.size here s).1 with
        | some (x, va) => .fault (State.readAll e m.size here s).2 { code := x, addr := va }
        | none =>
          match State.atomicAll e m.size (fun t old => atomicF op ty old (val bs t) (val cs t)) here s with
          | (.error (x, va), s1) => .fault (s.keepCounts s1 e.blk.world) { code := x, addr := va }
          | (.ok olds, s1) =>
            let s2 := e.switchOut (s1.noteAtomics e m.acqScope m.size here) xs
            let k := sizeRegs m.size
            let ws := xs.map fun x => (x, leBytes m.size (val bs x.t) ++ leBytes m.size (val cs x.t))
            if !ret then e.landAcc s2 m (.atomic op ty) ws none
            else
              let each := (olds.map fun p => (p.1, wordsFor k p.2)) ++
                ((xs.filter isRemote).map fun x => (x.t, List.replicate k 0#32))
              let sorted := each.insertionSort fun p q => p.1 ≤ q.1
              let rs := if once && !isS d then
                  match sorted with
                  | (_, ws) :: _ => e.act.map fun t => (t, ws)
                  | [] => []
                else sorted
              landAtomic e s2 m op ty d xs rs ws
where
  landAtomic (e : Env) (s : State) (m : MemOp) (op ty : Nat) (d : BitVec 8) (xs : List ThAcc)
      (rs : List (Nat × List W32)) (ws : List (ThAcc × List Byte)) : Eff :=
    if (xs.filter isRemote).isEmpty then .ok (e.put s d (sizeRegs m.size) rs)
    else
      match s.warp? e.b e.w with
      | none => .ok s
      | some x =>
        let id := x.freshId
        let base : PendLoad := { flag := 15, split := e.sp, remote := true, inTry := false, once := decide (ws.length ≤ 1) }
        let mask := maskOf fun t => rs.any fun r => r.1 == t
        let s1 := s.updWarp e.b e.w fun x =>
          if isS d then { x with loads := AMap.set x.loads id { base with uni := some (regNo d, (rs.headD (0, [])).2) } }
          else x.startLoad e.gen id (regNo d) (sizeRegs m.size) mask base rs
        let s2 := s1.sendRemotes (.atomic op ty) m.scope m.size (fun x => .load e.b e.w id x.t (BitVec.ofNat 64 x.a)) ws
        .park s2 (.sync id)

end Sys2Proof.Machine
end

