-- ==== Sys2Proof/Machine/Memi.lean ====
section
/-! DEFINITION. Loads, stores, tile forms, cache instructions and atomics (R409 to R416), and the arrival of their data
(R192, R364). -/

namespace Sys2Proof.Machine

/-! ## The widths (R342) -/

def widthBytes (w : BitVec 3) : Nat :=
  match w.toNat with
  | 0 => 1
  | 1 => 1
  | 2 => 2
  | 3 => 2
  | 4 => 4
  | 5 => 8
  | _ => 16

def widthSigned (w : BitVec 3) : Bool := w == 1#3 || w == 3#3

/-- The access of a MEM form: short forms have an extended word of 0. -/
def memOp (unit align : Nat) (f o : BitVec 4) (x : BitVec 32) : MemOp where
  size := unit
  align := align
  disp := (o.toNat * unit : Nat) + xBoff x
  scope := xScope x
  flag := f.toNat
  rel := xOrd x == 2
  acq := xOrd x == 1

def widthOp (w : BitVec 3) (f o : BitVec 4) (x : BitVec 32) : MemOp := memOp (widthBytes w) (widthBytes w) f o x

/-! ## Shapes -/

/-- ld and ld.spec: the ordering must be one the load allows (R230). -/
def loadSpec (wf spec ordOk : Bool) (w : BitVec 3) (d a : BitVec 8) (f o : BitVec 4) (x : BitVec 32) (e : Env) : LaneSpec :=
  let k := sizeRegs (widthBytes w)
  { feat := if spec then some 3 else none
    opOk := wf && dstOk d k && addrOk a && (!isS d || isS a) && ordOk
    dsts := dstNames d k
    act := e.load (widthOp w f o x) spec (widthSigned w) d a }

/-- A store's data: registers, or a small immediate in every width but .128 (R411). -/
def storeDataOk (w : BitVec 3) (d : BitVec 8) : Bool :=
  dstOk d (sizeRegs (widthBytes w)) || (isImm d && w != 6#3)

/-- st; with release ordering it is illegal in a region (R266). -/
def storeSpec (wf : Bool) (w : BitVec 3) (d a : BitVec 8) (f o : BitVec 4) (x : BitVec 32) (e : Env) : LaneSpec :=
  { opOk := wf && storeDataOk w d && addrOk a && (xOrd x == 0 || xOrd x == 2)
    illegal := if xOrd x = 2 then some (0x68 + w.toNat) else none
    act := e.store (widthOp w f o x) d a }

/-- ldx and stx: plain ordering and no cache field (R407, R412). -/
def tileSpec (wf store col : Bool) (op : Nat) (d a : BitVec 8) (f o : BitVec 4) (x : BitVec 32) (e : Env) : LaneSpec :=
  let m := memOp 128 (if col then 4 else 128) f o x
  { opOk := wf && isV d && aligned d 2 && (a == 0x81#8 || (isS a && aligned a 2)) && xOrd x == 0 && xCache x == 0
    illegal := if store then some op else none
    dsts := if store then [] else dstNames d 2
    act := if store then e.tileStore col m d a else e.tileLoad col m d a }

/-- prefetch, cinv, cwb: plain ordering; only prefetch takes a cache field. -/
def cacheSpec (wf : Bool) (illegal : Option Nat) (a : BitVec 8) (f o : BitVec 4) (x : BitVec 32) (e : Env) : LaneSpec :=
  let m := memOp 256 1 f o x
  { opOk := wf && addrOk a && xOrd x == 0 && (illegal.isNone || xCache x == 0)
    illegal := illegal
    act := if illegal.isNone then e.prefetch { m with size := 1 } a else e.cacheOp { m with size := 1 } a }

/-! ## ATM word 1 (R343) -/

def atmC (x : BitVec 32) : BitVec 8 := x.extractLsb' 24 8
def atmRop (x : BitVec 32) : Nat := bits x.toNat 23 20
def atmTy (x : BitVec 32) : Nat := bits x.toNat 19 16

/-- The types that an operation accepts. -/
def atmTypeOk (op ty : Nat) : Bool :=
  if op = 1 ∨ op = 2 then decide (ty ≤ 4) else if op = 6 then ty == 4 else decide (ty ≤ 3)

def atmSize (ty : Nat) : Nat := if ty = 2 ∨ ty = 3 then 8 else 4

def atmSrcOk (k : Nat) (f : BitVec 8) : Bool := dstOk f k || isImm f

/-- An atomic, or red where `ret` is false; its operation is `op`, or red's rop field. -/
def atomSpec (wf ret : Bool) (opc op : Nat) (d a b : BitVec 8) (x : BitVec 32) (e : Env) : LaneSpec :=
  let ty := atmTy x
  let k := sizeRegs (atmSize ty)
  let c := atmC x
  let cas := op == 8
  { opOk := wf && atmTypeOk op ty && addrOk a && atmSrcOk k b &&
      (if cas then atmSrcOk k c else c == 0#8) && (if ret then atmRop x == 0 && dstOk d k
        else d == 0#8 && decide (op ≤ 6) && (xOrd x == 0 || xOrd x == 2)) &&
      (!ret || !isS d || (isS a && !isV b && (!cas || !isV c)))
    illegal := some opc
    dsts := if ret then dstNames d k else []
    act := e.atomic { size := atmSize ty, align := atmSize ty, disp := ((x.toNat % 16) * atmSize ty : Nat), scope := xScope x
                      rel := decide (2 ≤ xOrd x), acq := xOrd x == 1 || xOrd x == 3 }
      op ty ret d a b c }

/-! ## Instructions -/

/-- Loads each active thread's data (R409). -/
def execLd (w : BitVec 3) (d a : BitVec 8) (f o : BitVec 4) (s : State) : Host.Outcome State Fault Refusal :=
  runLane (loadSpec (Instr.wf (.ld w d a f o)) false true w d a f o 0#32) s

/-- ld with the extended word (R341, R409). -/
def execLdXform (w : BitVec 3) (d a : BitVec 8) (f o : BitVec 4) (x : BitVec 32) (s : State) : Host.Outcome State Fault Refusal :=
  runLane (loadSpec (Instr.wf (.ldXform w d a f o x)) false (decide (xOrd x ≤ 1)) w d a f o x) s

/-- A load that enters the alias set of a region (R263, R410). -/
def execLdSpec (w : BitVec 3) (d a : BitVec 8) (f o : BitVec 4) (s : State) : Host.Outcome State Fault Refusal :=
  runLane (loadSpec (Instr.wf (.ldSpec w d a f o)) true true w d a f o 0#32) s

/-- ld.spec with the extended word, plain ordering only. -/
def execLdSpecXform (w : BitVec 3) (d a : BitVec 8) (f o : BitVec 4) (x : BitVec 32) (s : State) : Host.Outcome State Fault Refusal :=
  runLane (loadSpec (Instr.wf (.ldSpecXform w d a f o x)) true (xOrd x == 0) w d a f o x) s

/-- Stores each active thread's data (R411). -/
def execSt (w : BitVec 3) (d a : BitVec 8) (f o : BitVec 4) (s : State) : Host.Outcome State Fault Refusal :=
  runLane (storeSpec (Instr.wf (.st w d a f o)) w d a f o 0#32) s

/-- st with the extended word. -/
def execStXform (w : BitVec 3) (d a : BitVec 8) (f o : BitVec 4) (x : BitVec 32) (s : State) : Host.Outcome State Fault Refusal :=
  runLane (storeSpec (Instr.wf (.stXform w d a f o x)) w d a f o x) s

/-- A scratchpad row into a vector pair (R412). -/
def execLdxRow (d a : BitVec 8) (f o : BitVec 4) (s : State) : Host.Outcome State Fault Refusal :=
  runLane (tileSpec (Instr.wf (.ldxRow d a f o)) false false 0x70 d a f o 0#32) s

/-- A scratchpad row into a vector pair, with the extended word (R412). -/
def execLdxRowXform (d a : BitVec 8) (f o : BitVec 4) (x : BitVec 32) (s : State) : Host.Outcome State Fault Refusal :=
  runLane (tileSpec (Instr.wf (.ldxRowXform d a f o x)) false false 0x78 d a f o x) s

/-- A scratchpad column into a vector pair (R412). -/
def execLdxCol (d a : BitVec 8) (f o : BitVec 4) (s : State) : Host.Outcome State Fault Refusal :=
  runLane (tileSpec (Instr.wf (.ldxCol d a f o)) false true 0x71 d a f o 0#32) s

/-- A scratchpad column into a vector pair, with the extended word (R412). -/
def execLdxColXform (d a : BitVec 8) (f o : BitVec 4) (x : BitVec 32) (s : State) : Host.Outcome State Fault Refusal :=
  runLane (tileSpec (Instr.wf (.ldxColXform d a f o x)) false true 0x79 d a f o x) s

/-- A vector pair to a scratchpad row (R412). -/
def execStxRow (d a : BitVec 8) (f o : BitVec 4) (s : State) : Host.Outcome State Fault Refusal :=
  runLane (tileSpec (Instr.wf (.stxRow d a f o)) true false 0x72 d a f o 0#32) s

/-- A vector pair to a scratchpad row, with the extended word (R412). -/
def execStxRowXform (d a : BitVec 8) (f o : BitVec 4) (x : BitVec 32) (s : State) : Host.Outcome State Fault Refusal :=
  runLane (tileSpec (Instr.wf (.stxRowXform d a f o x)) true false 0x7a d a f o x) s

/-- A vector pair to a scratchpad column (R412). -/
def execStxCol (d a : BitVec 8) (f o : BitVec 4) (s : State) : Host.Outcome State Fault Refusal :=
  runLane (tileSpec (Instr.wf (.stxCol d a f o)) true true 0x73 d a f o 0#32) s

/-- A vector pair to a scratchpad column, with the extended word (R412). -/
def execStxColXform (d a : BitVec 8) (f o : BitVec 4) (x : BitVec 32) (s : State) : Host.Outcome State Fault Refusal :=
  runLane (tileSpec (Instr.wf (.stxColXform d a f o x)) true true 0x7b d a f o x) s

/-- Places the block's line (R413). -/
def execPrefetch (a : BitVec 8) (f o : BitVec 4) (s : State) : Host.Outcome State Fault Refusal :=
  runLane (cacheSpec (Instr.wf (.prefetch a f o)) none a f o 0#32) s

/-- Places the block's line, with the extended word (R413). -/
def execPrefetchXform (a : BitVec 8) (f o : BitVec 4) (x : BitVec 32) (s : State) : Host.Outcome State Fault Refusal :=
  runLane (cacheSpec (Instr.wf (.prefetchXform a f o x)) none a f o x) s

/-- Writes back and invalidates the L1 line (R413). [DESIGN CHOICE 43] -/
def execCinv (a : BitVec 8) (f o : BitVec 4) (s : State) : Host.Outcome State Fault Refusal :=
  runLane (cacheSpec (Instr.wf (.cinv a f o)) (some 0x75) a f o 0#32) s

/-- Writes back and invalidates the L1 line, with the extended word (R413). -/
def execCinvXform (a : BitVec 8) (f o : BitVec 4) (x : BitVec 32) (s : State) : Host.Outcome State Fault Refusal :=
  runLane (cacheSpec (Instr.wf (.cinvXform a f o x)) (some 0x7d) a f o x) s

/-- Writes back the L1 line (R413). [DESIGN CHOICE 43] -/
def execCwb (a : BitVec 8) (f o : BitVec 4) (s : State) : Host.Outcome State Fault Refusal :=
  runLane (cacheSpec (Instr.wf (.cwb a f o)) (some 0x76) a f o 0#32) s

/-- Writes back the L1 line, with the extended word (R413). -/
def execCwbXform (a : BitVec 8) (f o : BitVec 4) (x : BitVec 32) (s : State) : Host.Outcome State Fault Refusal :=
  runLane (cacheSpec (Instr.wf (.cwbXform a f o x)) (some 0x7e) a f o x) s

/-- Atomic add, the old value to d (R415). -/
def execAtomAdd (d a b : BitVec 8) (x : BitVec 32) (s : State) : Host.Outcome State Fault Refusal :=
  runLane (atomSpec (Instr.wf (.atomAdd d a b x)) true 0xb0 0 d a b x) s

/-- Atomic min, the old value to d (R415). -/
def execAtomMin (d a b : BitVec 8) (x : BitVec 32) (s : State) : Host.Outcome State Fault Refusal :=
  runLane (atomSpec (Instr.wf (.atomMin d a b x)) true 0xb1 1 d a b x) s

/-- Atomic max, the old value to d (R415). -/
def execAtomMax (d a b : BitVec 8) (x : BitVec 32) (s : State) : Host.Outcome State Fault Refusal :=
  runLane (atomSpec (Instr.wf (.atomMax d a b x)) true 0xb2 2 d a b x) s

/-- Atomic and, the old value to d (R415). -/
def execAtomAnd (d a b : BitVec 8) (x : BitVec 32) (s : State) : Host.Outcome State Fault Refusal :=
  runLane (atomSpec (Instr.wf (.atomAnd d a b x)) true 0xb3 3 d a b x) s

/-- Atomic or, the old value to d (R415). -/
def execAtomOr (d a b : BitVec 8) (x : BitVec 32) (s : State) : Host.Outcome State Fault Refusal :=
  runLane (atomSpec (Instr.wf (.atomOr d a b x)) true 0xb4 4 d a b x) s

/-- Atomic xor, the old value to d (R415). -/
def execAtomXor (d a b : BitVec 8) (x : BitVec 32) (s : State) : Host.Outcome State Fault Refusal :=
  runLane (atomSpec (Instr.wf (.atomXor d a b x)) true 0xb5 5 d a b x) s

/-- Atomic exch, the old value to d (R415). -/
def execAtomExch (d a b : BitVec 8) (x : BitVec 32) (s : State) : Host.Outcome State Fault Refusal :=
  runLane (atomSpec (Instr.wf (.atomExch d a b x)) true 0xb6 7 d a b x) s

/-- Atomic cas, the old value to d (R415). -/
def execAtomCas (d a b : BitVec 8) (x : BitVec 32) (s : State) : Host.Outcome State Fault Refusal :=
  runLane (atomSpec (Instr.wf (.atomCas d a b x)) true 0xb7 8 d a b x) s

/-- Atomic fadd, the old value to d (R415). -/
def execAtomFadd (d a b : BitVec 8) (x : BitVec 32) (s : State) : Host.Outcome State Fault Refusal :=
  runLane (atomSpec (Instr.wf (.atomFadd d a b x)) true 0xb8 6 d a b x) s

/-- An atomic without a result; the operation is rop (R415). -/
def execRed (d a b : BitVec 8) (x : BitVec 32) (s : State) : Host.Outcome State Fault Refusal :=
  runLane (atomSpec (Instr.wf (.red d a b x)) false 0xb9 (atmRop x) d a b x) s

/-! ## Arrival (R192, R206, R364) -/

/-- Raises a fault at, or completes, the split that waits for access `id`. -/
def State.finishSync (s : State) (b w id : Nat) (fault : Option (BitVec 8 × W64)) : State :=
  match s.warp? b w with
  | none => s
  | some x =>
    match x.active.find? fun p => p.2.park == .sync id with
    | some (sp, q) =>
      match fault with
      | some (c, a) => (s.updSplit b w sp fun q => { q with park := .ready }).laneFault b w q.pc { code := c, addr := a }
      | none => s.completeParked b w sp
    | none => s

/-- A load's data arrives once no answer of another device is due to it; the data of a warp that has ended is discarded
(R192, R362). [DESIGN CHOICE 11] -/
def execLoadDataArrival (s : State) : Host.Outcome State Fault Refusal :=
  let b := s.args.block
  let w := s.args.warp
  let id := s.args.id
  match s.block? b, s.warp? b w with
  | some k, some x =>
    match AMap.get? x.loads id with
    | none => .next s
    | some l =>
      if s.awaitsLoad b w id then .next s
      else
        let s1 := s.updWarp b w fun x => x.deliver (k.genOf w) id l.inTry
        .next (if l.flag = 15 then s1.finishSync b w id l.fault else s1)
  | _, _ => .next s

/-- A store, prefetch, cinv, cwb or red completes (R408). -/
def execMemoryAccessCompletion (s : State) : Host.Outcome State Fault Refusal :=
  let b := s.args.block
  let w := s.args.warp
  let id := s.args.id
  match s.warp? b w with
  | none => .next s
  | some x =>
    match AMap.get? x.accs id with
    | none => .next s
    | some l =>
      if s.awaitsAcc b w id then .next s
      else
        let s1 := s.updWarp b w fun x => { x.lowerFlag l.flag l.fault with accs := AMap.erase x.accs id }
        .next (if l.flag = 15 then s1.finishSync b w id l.fault else s1)

end Sys2Proof.Machine
end

