-- ==== Sys2Proof/Machine/Fence.lean ====
section
/-! DEFINITION. Tensor records taken up (R32, R72, R252), fences (R417 to R419) and sheds (R420 to R423). -/

namespace Sys2Proof.Machine

/-! ## Taking up a record (R32, R72) -/

inductive RecRefusal where
  | badBind
  | tidEnd
deriving DecidableEq, Repr

/-- Whether a page of a record's region is mapped: a leaf entry names it in TREC, whatever its address. -/
def Ctx.recMapped (x : Ctx) (i : Nat) : Bool :=
  x.pt.any fun p => bits p.2.toNat 1 0 == 2 && bits p.2.toNat 63 48 == i

/-- Bits of a record image that R30 reserves. -/
def recReserved (r : TRec) : Bool :=
  bits r.w0.toNat 6 0 != 0 || bits r.w2.toNat 63 57 != 0 || bits r.w2.toNat 15 0 != 0

namespace State

/-- Makes `new` (its RO fields those of the record kept) record `i` of a context, or says why not. -/
def installRecord (s : State) (w c i : Nat) (new : TRec) : Except RecRefusal State :=
  match s.ctx? w c, s.record? w c i, s.world? w with
  | some x, some old, some wd =>
    let mapped := x.recMapped i
    if new.fixc != 0 && (!new.codec || !s.feature w 1) then .error .badBind
    else if new.fixc != old.fixc && mapped then .error .badBind
    else if new.rmt && (new.codec || new.fixc != 0 || new.encrypt || new.exportBit) then .error .badBind
    else if new.rmt != old.rmt && mapped then .error .badBind
    else if new.valid && new.pages = 0 then .error .badBind
    else if new.valid && !old.valid then
      if 2 ^ 24 ≤ wd.nextTid then .error .tidEnd
      else
        let r := { new with w0 := setField new.w0 63 40 wd.nextTid, validAt := s.now, madeValid := true }
        .ok ((s.setRecord w c i r).updWorld w fun x => { x with nextTid := x.nextTid + 1 })
    else .ok (s.setRecord w c i new)
  | _, _, _ => .ok s

/-- The window address of a record. -/
def recAddr (i : Nat) : W64 := BitVec.ofNat 64 (recWinBase + 32 * i)

/-- The image a list of held stores makes of the kept record. -/
def heldImage (dev : TRec) (hs : List RecStore) : TRec :=
  let b := hs.foldl (fun b h => b.take (h.off % 32) ++ h.bytes ++ b.drop (h.off % 32 + h.bytes.length)) (recordBytes dev)
  recordOfBytes b dev

/-- Its RW fields over the kept ones. -/
def heldRecord (dev : TRec) (hs : List RecStore) : TRec := overlay dev (heldImage dev hs)

/-- Whether another warp of the context still holds stores to a record. -/
def heldElsewhere (s : State) (w c i : Nat) : Bool :=
  s.blocks.any fun p => p.2.world == w && p.2.ctx == c &&
    p.2.warps.any fun x => x.2.recHeld.any fun h => h.off / 32 == i

/-- Installs one record written through the window, or logs its refusal (R32). -/
def fenceOne (s : State) (w c i : Nat) (hs : List RecStore) : State :=
  match s.record? w c i with
  | none => s
  | some dev =>
    let s1 := if s.heldElsewhere w c i then s else s.updCtx w c fun x => { x with win := AMap.erase x.win i }
    -- a reserved field that is not 0 is one of the refusals of R32
    match (if recReserved (heldImage dev hs) then .error .badBind else s1.installRecord w c i (heldRecord dev hs)) with
    | .ok s2 => s2
    | .error .badBind => s1.logEvent w (recAddr i) 1#8 0#8
    | .error .tidEnd => s1.logEvent w (recAddr i) 5#8 0#8

/-- fence.rec for one warp: every record its threads wrote, in the order of their first stores. [DESIGN CHOICE 43] -/
def fenceRecords (s : State) (b w : Nat) : State :=
  match s.block? b, s.warp? b w with
  | some k, some x =>
    let s1 := s.updWarp b w fun x => { x with recHeld := [] }
    ((x.recHeld.map fun h => h.off / 32).reverse.dedup.reverse).foldl (fun s i =>
      s.fenceOne k.world k.ctx i (x.recHeld.filter fun h => h.off / 32 == i)) s1
  | _, _ => s

/-- fence.map: the translations of a context leave every quarter's cache (R216). [DESIGN CHOICE 43] -/
def dropTranslations (s : State) (w c : Nat) : State :=
  { s with quarters := AMap.mapVals s.quarters fun q =>
      { q with tcache := q.tcache.filter fun t => !(t.1 == w && t.2.1 == c) } }

end State

/-! ## Fences -/

/-- Orders the warp's accesses. An access is performed where it issues, but for those that other devices have yet to answer:
the release half waits for them; after the acquire half the warp reads past no write that an agent of the scope has seen. -/
def execFence (sc : BitVec 4) (o : BitVec 2) (s : State) : Host.Outcome State Fault Refusal :=
  runLane (fun e =>
    { opOk := Instr.wf (.fence sc o), guarded := false, illegal := some 0xba
      act := fun s _ =>
        if 2 ≤ sc.toNat && o.getLsbD 1 && s.releaseDue e.b e.w e.blk.world sc.toNat then .park s .fence
        else .ok (if o.getLsbD 0 then s.learn e sc.toNat else s) }) s

/-- Installs the records that the warp has written through the window. [DESIGN CHOICE 43] -/
def execFenceRec (s : State) : Host.Outcome State Fault Refusal :=
  runLane (plainSpec (some 0xbb) fun e s _ => .ok (s.fenceRecords e.b e.w)) s

/-- Code writes become fetchable: every instruction-cache line of the world is invalidated (R252). [DESIGN CHOICE 43] -/
def execFenceCode (s : State) : Host.Outcome State Fault Refusal :=
  runLane (plainSpec (some 0xbc) fun e s _ => .ok (s.dropCode e.blk.world)) s

/-- Firmware's order after a page-table change; it waits for what another device has yet to answer under the old entries
(R216, R419). [DESIGN CHOICE 43] -/
def execFenceMap (w c : BitVec 8) (lit : BitVec 32) (s : State) : Host.Outcome State Fault Refusal :=
  runLane (fun e =>
    { opOk := (Instr.wf (.fenceMap w c lit)) && srcUOk w 1 && srcUOk c 1, guarded := false, illegal := some 0xbd
      act := fun s _ =>
        match e.srcU (.word lit) w, e.srcU (.word lit) c with
        | .error x, _ => .fault s { code := x }
        | _, .error x => .fault s { code := x }
        | .ok wn, .ok cn =>
          if wn > 63 || cn > 15 then .fault s { code := fcBadHandle }
          else if e.blk.world != 0 then .fault s { code := fcProtection }
          else if s.remoteDueOf (fun k => k.world == wn && k.ctx == cn) then .park s .fence
          else .ok (s.dropTranslations wn cn) }) s

/-! ## Sheds -/

def Shed.has (x : Shed) (w : Nat) : Bool := decide (x.first ≤ w ∧ w < x.first + x.num)

def Block.shed (k : Block) (n : Nat) : Shed := AMap.getD k.sheds n { first := 0, num := 0, weft := false }

def shedPre (e : Env) (n : Nat) : Option Flt :=
  if (e.blk.shed n).has e.w then none else some { code := fcBadHandle }

/-- Sets the warp's bit, which may complete the phase (R420). -/
def State.shedArrive (s : State) (b w n : Nat) : State :=
  s.updBlock b fun k =>
    { k with sheds := AMap.modify k.sheds n fun x => { x with arrived := x.arrived ++ [w] } }.settleSheds

def State.shedOf (s : State) (b n : Nat) : Shed :=
  match s.block? b with
  | some k => k.shed n
  | none => { first := 0, num := 0, weft := false }

/-- Whether a split that parked on a shed's phase still waits for it. -/
def shedStill (p : Park) (n : Nat) (x : Shed) (w : Nat) : Bool :=
  match p with
  | .shedWait m k => m == n && k == x.k.toNat
  | _ => x.arrived.contains w

/-- Arrives at a shed, once the warp's bit of the current phase is clear. -/
def execShedArrive (n : BitVec 8) (s : State) : Host.Outcome State Fault Refusal :=
  runLane (fun e =>
    { opOk := Instr.wf (.shedArrive n), guarded := false, illegal := some 0xc0, pre := shedPre e n.toNat
      act := fun s _ =>
        let x := e.blk.shed n.toNat
        if x.arrived.contains e.w then .park s (.shedArrive n.toNat x.k.toNat)
        else .ok (s.shedArrive e.b e.w n.toNat) }) s

/-- Waits for the phase at which the warp has arrived. -/
def execShedWait (n : BitVec 8) (s : State) : Host.Outcome State Fault Refusal :=
  runLane (fun e =>
    { opOk := Instr.wf (.shedWait n), guarded := false, illegal := some 0xc1
      act := fun s _ =>
        let x := e.blk.shed n.toNat
        if shedStill e.split.park n.toNat x e.w then .park s (.shedWait n.toNat x.k.toNat) else .ok s }) s

/-- Arrives and waits as one instruction. -/
def execShedSync (n : BitVec 8) (s : State) : Host.Outcome State Fault Refusal :=
  runLane (fun e =>
    { opOk := Instr.wf (.shedSync n), guarded := false, illegal := some 0xc2, pre := shedPre e n.toNat
      act := fun s _ =>
        let x := e.blk.shed n.toNat
        match e.split.park with
        | .shedWait _ k => if k = x.k.toNat then .park s (.shedWait n.toNat k) else .ok s
        | _ =>
          if x.arrived.contains e.w then .park s (.shedArrive n.toNat x.k.toNat)
          else
            let s1 := s.shedArrive e.b e.w n.toNat
            if (s1.shedOf e.b n.toNat).k = x.k then .park s1 (.shedWait n.toNat x.k.toNat) else .ok s1 }) s

/-- Whether a shed.init value may stand (R421). -/
def shedInitOk (k : Block) (x : Shed) (v : Nat) : Bool :=
  bits v 31 17 == 0 && decide (bits v 7 0 + bits v 15 8 ≤ k.warps.length) && (bits v 15 8 != 0 || v.testBit 16) &&
    (!v.testBit 16 || k.weft.isSome) && x.arrived.isEmpty && !x.weftArrived

/-- Sets a shed's participants. -/
def execShedInit (n v : BitVec 8) (lit : BitVec 32) (s : State) : Host.Outcome State Fault Refusal :=
  runLane (fun e =>
    { opOk := (Instr.wf (.shedInit n v lit)) && srcUOk v 1, guarded := false, illegal := some 0xc3
      act := fun s _ =>
        match e.srcU (.word lit) v with
        | .error c => .fault s { code := c }
        | .ok y =>
          let x := e.blk.shed n.toNat
          if !shedInitOk e.blk x y then .fault s { code := fcBadHandle }
          else
            let z : Shed := { x with first := bits y 7 0, num := bits y 15 8, weft := y.testBit 16 }
            .ok (s.updBlock e.b fun k => { k with sheds := AMap.set k.sheds n.toNat z }) }) s

end Sys2Proof.Machine
end

