-- ==== Sys2Proof/Machine/Shuttle.lean ====
section
/-! DEFINITION. The shuttle (R201, R204, R424 to R427, R53): copies, their pieces as they land, batches; and bobbins (R428
to R433). -/

namespace Sys2Proof.Machine

/-! ## Bobbin slots (R428, R431) -/

namespace Block

def bob? (k : Block) (n : Nat) : Option Bobbin := AMap.get? k.bobs n

def updBob (k : Block) (n : Nat) (f : Bobbin → Bobbin) : Block := { k with bobs := AMap.modify k.bobs n f }

end Block

def Bobbin.slot (x : Bobbin) (i : Nat) : BobSlot := x.slots.getD i {}
def Bobbin.updSlot (x : Bobbin) (i : Nat) (f : BobSlot → BobSlot) : Bobbin := { x with slots := x.slots.set i (f (x.slot i)) }

/-- A claimed slot that is armed with C = 0 is filled. -/
def BobSlot.settle (x : BobSlot) : BobSlot :=
  if x.st = .claimed && x.armed && x.c = 0 then { x with st := .filled } else x

/-- Four bytes land in a claimed slot; poisoned ones mark it. -/
def BobSlot.land (x : BobSlot) (poison : Bool) : BobSlot :=
  ({ x with c := x.c - 4, err := x.err || poison, status := if poison then fcUncorr else x.status }).settle

/-- A decode error or integrity failure fills the slot with its code (R53, R431). -/
def BobSlot.spoil (x : BobSlot) (code : BitVec 8) : BobSlot :=
  { x with c := 0, armed := true, err := true, status := code, st := .filled }

/-- Applies `f` to a slot that is still claimed in the lap of the copy. -/
def State.inLap (s : State) (sl : Nat × Nat × Nat × Nat) (f : BobSlot → BobSlot) : State :=
  s.updBlock sl.1 fun k => k.updBob sl.2.1 fun x =>
    x.updSlot sl.2.2.1 fun y => if y.st = .claimed && y.lap == sl.2.2.2 then f y else y

/-- The claimed slot of an initialised bobbin that holds the window offsets [lo, hi). -/
def Block.slotAt (k : Block) (lo hi : Nat) : Option (Nat × Nat × Nat) :=
  k.bobs.findSome? fun p =>
    if p.2.base ≤ lo then
      let i := (lo - p.2.base) / p.2.size
      if i < p.2.nslot && decide (hi ≤ p.2.base + p.2.size * (i + 1)) && (p.2.slot i).st = .claimed then
        some (p.1, i, (p.2.slot i).lap)
      else none
    else none

/-! ## Checks of a copy at issue (R424) -/

inductive RangeCheck where
  | ok
  | off (addr : Nat)
  | bad (f : Flt)
deriving DecidableEq, Repr

namespace State

/-- Every 64 KiB page of a global range is translated. -/
def pagesCheck (s : State) (w c : Nat) (kind : AccKind) : Nat → Nat → Nat → RangeCheck
  | 0, _, _ => .ok
  | n + 1, a, stop =>
    if stop ≤ a then .ok
    else
      match s.resolve w c a kind with
      | .fault f => .bad f
      | _ => pagesCheck s w c kind n ((a / 65536 + 1) * 65536) stop

def rangeCheck (s : State) (k : Block) (write : Bool) (a n : Nat) : RangeCheck :=
  if inScratchWin a then (if s.scratchOutside k (a - scratchBase) n then .off a else .ok)
  else if a + n ≤ 2 ^ 56 then
    s.pagesCheck k.world k.ctx (if write then .engineWrite else .engineRead) (n / 65536 + 2) a (a + n)
  else .bad { code := fcProtection, addr := BitVec.ofNat 64 a }

/-- The segments of a copy in order, the source before the destination. -/
def segsCheck (s : State) (k : Block) (dstToo : Bool) : List (Nat × Nat × Nat) → RangeCheck
  | [] => .ok
  | (src, dst, n) :: r =>
    match s.rangeCheck k false src n with
    | .ok =>
      match (if dstToo then s.rangeCheck k true dst n else .ok) with
      | .ok => segsCheck s k dstToo r
      | x => x
    | x => x

end State

/-- A copy about to be issued: its thread, its segments (source, destination, bytes), and for a multicast the bids. -/
structure CopyPlan where
  thread : Nat
  segs : List (Nat × Nat × Nat)
  bids : Option (List Nat) := none
deriving DecidableEq, Repr

def badH : Flt := { code := fcBadHandle }

def misalignOf (a : Nat) : Flt := { code := fcMisalign, addr := BitVec.ofNat 64 a }

/-- A private-window address (R424). -/
def privCheck (as : List Nat) : Option Flt :=
  (as.find? inPrivWin).map fun a => { code := fcProtection, addr := BitVec.ofNat 64 a }

def alignCheck (as : List Nat) : Option Flt := (as.find? fun a => a % 4 != 0).map misalignOf

/-- cp: one segment (R424). [DESIGN CHOICE 41] -/
def planCp (src dst len : Nat) : Except Flt (List (Nat × Nat × Nat)) :=
  match privCheck [src, dst] <|> alignCheck [src, dst, len] with
  | some f => .error f
  | none => if len > 1048576 then .error badH else .ok (if len = 0 then [] else [(src, dst, len)])

/-- cp.2d: a segment for each row. -/
def planCp2d (src dst : Nat) (g : List Nat) : Except Flt (List (Nat × Nat × Nat)) :=
  let rb := g.getD 0 0
  let rows := g.getD 1 0
  let ss := sext 32 (g.getD 2 0)
  let ds := sext 32 (g.getD 3 0)
  match privCheck [src, dst] <|> alignCheck [src, dst, rb, g.getD 2 0, g.getD 3 0] with
  | some f => .error f
  | none =>
    if rb < 4 || rb > 65536 || rows = 0 || rows > 4096 || rows * rb > 1048576 then .error badH
    else .ok ((List.range rows).map fun i : Nat => (wrapN 64 (src + i * ss), wrapN 64 (dst + i * ds), rb))

/-- cp.gather: a segment for each element, from the index table. [DESIGN CHOICE 41] -/
def planGather (src dst size : Nat) (idx : List Nat) : List (Nat × Nat × Nat) :=
  (List.range idx.length).map fun i => ((src + idx.getD i 0 * size) % 2 ^ 64, (dst + i * size) % 2 ^ 64, size)

/-! ## Room (R201, R424 item 5) -/

def coreOf (k : Block) : Nat := k.core

/-- The quarters of a block whose segments the given destinations lie in. -/
def destQuarters (k : Block) (ds : List W64) : List Nat :=
  ((ds.filter fun d => inScratchWin d.toNat).map fun d => k.quarters.getD (k.shareOf (d.toNat - scratchBase)) 0).dedup

/-- The scratchpad destinations of pieces: lowest and one past the highest window offset. -/
def dstSpan (ds : List W64) : Option (Nat × Nat) :=
  match (ds.filter fun d => inScratchWin d.toNat).map fun d => d.toNat - scratchBase with
  | [] => none
  | o :: os => some (os.foldl min o, os.foldl max o + 4)

namespace State

/-- Scoreboard entries held in a quarter's segment: copies with a granule there still to land. -/
def entriesIn (s : State) (q : Nat) : Nat :=
  (s.copies.filter fun c => c.2.targets.any fun t =>
    match s.block? t.1 with
    | some k => (destQuarters k (c.2.pieces.map Prod.snd)).contains q
    | none => false).length

def copiesOnCore (s : State) (core : Nat) : Nat :=
  (s.copies.filter fun c => match s.block? c.2.block with
    | some k => coreOf k == core
    | none => false).length

/-- Whether `n` more copies of a block have room: on its core, and in every segment that they need entries of, listed once
for each entry. [DESIGN CHOICE 41] -/
def copyRoom (s : State) (k : Block) (segs : List Nat) (n : Nat) : Bool :=
  decide (s.copiesOnCore (coreOf k) + n ≤ 256) && segs.all fun q => decide (s.entriesIn q + segs.count q ≤ 64)

/-- The block of the same launch, or of the same node of the same graph, with a bid (R204). -/
def siblingBlock (s : State) (k : Block) (bid : Nat) : Option (Nat × Block) :=
  (s.blocks.find? fun p => p.2.bid.toNat == bid && p.2.resident && p.2.world == k.world &&
    (match k.launch, k.graph with
      | some l, _ => p.2.launch == some l
      | none, some g => p.2.graph == some g && p.2.node == k.node
      | none, none => false))

end State

def piecesOfSegs (segs : List (Nat × Nat × Nat)) : List (W64 × W64) :=
  segs.flatMap fun p => (List.range (p.2.2 / 4)).map fun i =>
    (BitVec.ofNat 64 (p.1 + 4 * i), BitVec.ofNat 64 (p.2.1 + 4 * i))

/-- The destinations of a plan: blocks with the span they receive, and whether one named is gone. -/
def planDests (s : State) (e : Env) (p : CopyPlan) : List (Nat × Block × Nat × Nat) × Bool :=
  match dstSpan ((piecesOfSegs p.segs).map Prod.snd) with
  | none => ([], false)
  | some (lo, hi) =>
    match p.bids with
    | none => ([(e.b, e.blk, lo, hi)], false)
    | some bids =>
      let found := bids.map fun b => match s.siblingBlock e.blk b with
        | some (i, k) => if hi ≤ k.scratchLen then some (i, k, lo, hi) else none
        | none => none
      (found.filterMap id, found.any Option.isNone)

/-- The segments in which a plan's copy takes an entry, once for each destination block. -/
def planSegs (s : State) (e : Env) (p : CopyPlan) : List Nat :=
  (planDests s e p).1.flatMap fun d => destQuarters d.2.1 ((piecesOfSegs p.segs).map Prod.snd)

/-- Puts one copy in flight (R424): it joins its thread's open batch. [DESIGN CHOICE 41] -/
def Env.startCopy (e : Env) (s : State) (p : CopyPlan) : State :=
  let (ds, gone) := planDests s e p
  let own := match p.bids, ds with
    | none, [(_, k, lo, hi)] =>
      -- wholly inside one claimed slot: every destination piece lies in the scratchpad
      if (p.segs.all fun g => inScratchWin g.2.1) then (k.slotAt lo hi).map fun x => (e.b, x) else none
    | _, _ => none
  let slots := match p.bids with
    | none => own.toList
    | some _ => ds.filterMap fun d => (d.2.1.slotAt d.2.2.1 d.2.2.2).map fun x => (d.1, x)
  let c : Copy := { world := e.blk.world, ctx := e.blk.ctx, block := e.b, warp := e.w, thread := p.thread,
                    batch := e.wp.batch.getD p.thread 1, order := e.blk.retired, pieces := piecesOfSegs p.segs,
                    status := if gone then fcTargetGone else 0#8, targets := ds.map fun d => (d.1, d.2.1.gens),
                    slots := slots, slotCopy := own.isSome }
  let c1 := if p.bids.isSome && ds.isEmpty then { c with pieces := [] } else c
  { s with copies := AMap.set s.copies (AMap.fresh s.copies) c1 }

/-- Strict reads of a source in the scratchpad (R190): what a copy in flight has yet to write counts as written. -/
def Env.srcUninit (e : Env) (s : State) (segs : List (Nat × Nat × Nat)) : Bool :=
  e.blk.strict && segs.any fun g => inScratchWin g.1 &&
    (List.range g.2.2).any fun j =>
      let o := g.1 - scratchBase + j
      e.blk.scratchUninit o 1 && !s.scratchHeld e.b o 1

/-- The first fault of the plans in thread order, or the checks' outcomes. -/
def Env.checkPlans (e : Env) (s : State) : List CopyPlan → Except Flt (List (CopyPlan × RangeCheck))
  | [] => .ok []
  | p :: ps =>
    match s.segsCheck e.blk p.bids.isNone p.segs with
    | .bad f => .error f
    | r =>
      if r = .ok && e.srcUninit s p.segs then .error { code := fcUninit }
      else
        match e.checkPlans s ps with
        | .error f => .error f
        | .ok l => .ok ((p, r) :: l)

/-- Issues the planned copies, once the warp's earlier accesses have been performed (R246): a thread whose scratchpad range
lies outside the allocation is switched off with those of `offs` (R200). -/
def Env.issueCopies (e : Env) (s : State) (ps : List CopyPlan) (offs : List ThAcc := []) : Eff :=
  match e.checkPlans s ps with
  | .error f => .fault s f
  | .ok rs =>
    let go := (rs.filter fun r => r.2 == .ok && !r.1.segs.isEmpty).map Prod.fst
    if !s.copyRoom e.blk (go.flatMap (planSegs s e)) go.length || s.remoteDue e.b e.w then .park s .copyRoom
    else
      let xs : List ThAcc := rs.filterMap fun r => match r.2 with
        | .off a => some { t := r.1.thread, a := a, r := .off }
        | _ => none
      .ok (go.foldl e.startCopy (e.switchOut s ((xs ++ offs).insertionSort fun x y => x.t ≤ y.t)))

/-- One plan for each thread, or the fault of the lowest. -/
def plansOf (f : Nat → Except Flt CopyPlan) : List Nat → Except Flt (List CopyPlan)
  | [] => .ok []
  | t :: ts =>
    match f t with
    | .error x => .error x
    | .ok p =>
      match plansOf f ts with
      | .error x => .error x
      | .ok l => .ok (p :: l)

def withCode {α : Type} : Except (BitVec 8) α → Except Flt α
  | .ok x => .ok x
  | .error c => .error { code := c }

/-- The four registers of a group. -/
def Env.group4 (e : Env) (c : BitVec 8) (t : Nat) : Except (BitVec 8) (List Nat) :=
  (List.range 4).mapM fun k => e.groupReg c k t

/-! ## Copy instructions -/

/-- A contiguous copy. -/
def execCp (d sr l : BitVec 8) (lit : BitVec 32) (s : State) : Host.Outcome State Fault Refusal :=
  runLane (fun e =>
    { opOk := (Instr.wf (.cp d sr l lit)) && pairOk d && pairOk sr && srcOk l 1, shuttle := true, illegal := some 0xc4
      act := fun s _ =>
        match plansOf (fun t => do
            let dst ← withCode (e.pread d t)
            let src ← withCode (e.pread sr t)
            let n ← withCode (e.src32 (.word lit) l t)
            let segs ← planCp src dst n
            pure { thread := t, segs := segs }) (e.onceIf (isS d && isS sr && !isV l)) with
        | .error f => .fault s f
        | .ok ps => e.issueCopies s ps }) s

/-- A strided copy. -/
def execCp2d (d a b c : BitVec 8) (lit : BitVec 24) (s : State) : Host.Outcome State Fault Refusal :=
  runLane (fun e =>
    { opOk := (Instr.wf (.cp2d d a b c lit)) && pairOk d && pairOk a && b == 0#8 && dstOk c 4, shuttle := true
      illegal := some 0xc5
      act := fun s _ =>
        match plansOf (fun t => do
            let dst ← withCode (e.pread d t)
            let src ← withCode (e.pread a t)
            let g ← withCode (e.group4 c t)
            let segs ← planCp2d src dst g
            pure { thread := t, segs := segs }) (e.onceIf (isS d && isS a && isS c)) with
        | .error f => .fault s f
        | .ok ps => e.issueCopies s ps }) s

/-- The index table of a gather: its words, a switched-off thread, or a wait for a copy into it. -/
inductive TableRead where
  | ok (idx : List Nat)
  | off (addr : Nat)
  | wait
  | bad (f : Flt)
deriving DecidableEq, Repr

def Env.readTable (e : Env) (s : State) (va count : Nat) : TableRead :=
  if va % 4 != 0 then .bad (misalignOf va)
  else if !inScratchWin va then .bad { code := fcProtection, addr := BitVec.ofNat 64 va }
  else
    let o := va - scratchBase
    if s.scratchOutside e.blk o (4 * count) then .off va
    else if s.scratchHeld e.b o (4 * count) then .wait
    else if e.blk.strict && e.blk.scratchUninit o (4 * count) then .bad { code := fcUninit }
    else if e.blk.scratchPoisoned o (4 * count) then .bad { code := fcUncorr, addr := BitVec.ofNat 64 va }
    else .ok ((List.range count).map fun i => leNat (e.blk.scratchRead (o + 4 * i) 4))

/-- One thread of a gather. -/
def Env.gatherOne (e : Env) (s : State) (d a c : BitVec 8) (t : Nat) : Except Flt (Nat × Nat × Nat × TableRead) := do
  let dst ← withCode (e.pread d t)
  let src ← withCode (e.pread a t)
  let g ← withCode (e.group4 c t)
  let size := g.getD 0 0
  let count := g.getD 1 0
  match privCheck [src, dst] <|> alignCheck [src, dst, size] with
  | some f => .error f
  | none =>
    if size < 4 || size > 256 || count = 0 || count > 256 then .error badH
    else
      match e.readTable s (g.getD 2 0 + 2 ^ 32 * g.getD 3 0) count with
      | .bad f => .error f
      | r => .ok (src, dst, size, r)

/-- A gather copy through an index table in the scratchpad. -/
def execCpGather (d a b c : BitVec 8) (lit : BitVec 24) (s : State) : Host.Outcome State Fault Refusal :=
  runLane (fun e =>
    { opOk := (Instr.wf (.cpGather d a b c lit)) && pairOk d && pairOk a && b == 0#8 && dstOk c 4, shuttle := true
      illegal := some 0xc6
      act := fun s _ => gather e d a c s (e.onceIf (isS d && isS a && isS c)) [] [] }) s
where
  gather (e : Env) (d a c : BitVec 8) (s : State) : List Nat → List CopyPlan → List ThAcc → Eff
    | [], ps, offs => e.issueCopies s ps offs
    | t :: ts, ps, offs =>
      match e.gatherOne s d a c t with
      | .error f => .fault s f
      | .ok (_, _, _, .wait) => .park s .copyRoom
      | .ok (_, _, _, .bad f) => .fault s f
      | .ok (_, _, _, .off va) => gather e d a c s ts ps (offs ++ [{ t := t, a := va, r := .off }])
      | .ok (src, dst, size, .ok idx) =>
        gather e d a c s ts (ps ++ [{ thread := t, segs := planGather src dst size idx }]) offs

/-- The bids that a multicast names; none may be the block's own, and there is at least one (R425). -/
def mcastBids (own : Nat) (g : List Nat) (bid : Nat) : Except Flt (List Nat) :=
  let named := ((g.drop 1) ++ [bid]).filter fun b => b != 0xffffffff
  if named.isEmpty || named.contains own then .error badH else .ok named

/-- One plan of a multicast: its destination is an offset of the scratchpad window. [DESIGN CHOICE 41] -/
def planMcast (own src dst bid : Nat) (g : List Nat) : Except Flt (List (Nat × Nat × Nat) × List Nat) :=
  let len := g.getD 0 0
  match privCheck [src, dst] <|> alignCheck [src, dst, len] with
  | some f => .error f
  | none =>
    if len < 4 || len > 1048576 then .error badH
    else
      match mcastBids own g bid with
      | .error f => .error f
      | .ok bids =>
        if inScratchWin dst && inScratchWin (dst + len - 4) then .ok ([(src, dst, len)], bids)
        else .error { code := fcProtection, addr := BitVec.ofNat 64 dst }

/-- A multicast copy into the scratchpads of up to four blocks. -/
def execCpMcast (d a b c : BitVec 8) (lit : BitVec 24) (s : State) : Host.Outcome State Fault Refusal :=
  runLane (fun e =>
    { opOk := (Instr.wf (.cpMcast d a b c lit)) && pairOk d && pairOk a && srcOk b 1 && dstOk c 4, shuttle := true
      illegal := some 0xc7
      act := fun s _ =>
        match plansOf (fun t => do
            let dst ← withCode (e.pread d t)
            let src ← withCode (e.pread a t)
            let bid ← withCode (e.src32 (.lit24 lit) b t)
            let g ← withCode (e.group4 c t)
            let r ← planMcast e.blk.bid.toNat src dst bid g
            pure { thread := t, segs := r.1, bids := some r.2 }) (e.onceIf (isS d && isS a && !isV b && isS c)) with
        | .error f => .fault s f
        | .ok ps => e.issueCopies s ps }) s

/-- Closes each thread's open batch (R426). [DEDUCED 42] -/
def execCseal (d : BitVec 8) (s : State) : Host.Outcome State Fault Refusal :=
  runLane (fun e =>
    { opOk := dstOk d 1, shuttle := true, illegal := some 0xc8, dsts := dstNames d 1
      act := fun s l =>
        let ts := e.runners d
        if ts.any fun t => decide (e.wp.batch.getD t 1 ≥ 0xffffffff) then .fault s badH
        else
          e.result d 1 (fun t => .ok (e.wp.batch.getD t 1)) (s.updWarp e.b e.w fun x =>
            { x with batch := (List.range 16).map fun t => x.batch.getD t 1 + (if ts.contains t then 1 else 0) }) l }) s

/-! ## cwait (R427) -/

def copyFault (c : BitVec 8) : Bool := c == fcMacFail || c == fcUncorr || c == fcCodecDecode || c == fcCodecFit

/-- Statuses that a cwait of thread `t` up to batch `m` covers. -/
def covers (t m : Nat) (c : CopyStat) : Bool := c.thread == t && decide (c.batch ≤ m)

/-- Whether a copy of a thread's batches up to `m` is still in flight. -/
def State.copyDue (s : State) (b w t m : Nat) : Bool :=
  s.copies.any fun c => c.2.block == b && c.2.warp == w && c.2.thread == t && decide (c.2.batch ≤ m)

/-- The first unreported fault status: threads in ascending index, each thread's copies in issue order. -/
def firstCopyFault (l : List CopyStat) : List (Nat × Nat) → Option CopyStat
  | [] => none
  | (t, m) :: r =>
    let mine := (l.filter fun c => covers t m c && !c.reported && copyFault c.code).insertionSort fun x y =>
      x.order ≤ y.order
    match mine with
    | c :: _ => some c
    | [] => firstCopyFault l r

/-- Waits for and reports the copies of each thread's batches up to n. [DEDUCED 42] -/
def execCwait (d n : BitVec 8) (lit : BitVec 32) (s : State) : Host.Outcome State Fault Refusal :=
  runLane (fun e =>
    { opOk := (Instr.wf (.cwait d n lit)) && dstOk d 1 && srcFor d n 1, shuttle := true, illegal := some 0xc9
      dsts := dstNames d 1
      act := fun s l =>
        match eachThread (fun t => e.src32 (.word lit) n t) (e.runners d) with
        | .error c => .fault s { code := c }
        | .ok ns =>
          let ms := ns.map fun p => (p.1, min p.2 (e.wp.batch.getD p.1 1 - 1))
          if ms.any fun p => s.copyDue e.b e.w p.1 p.2 then .park s .cwait
          else
            match firstCopyFault e.wp.copyStats ms with
            | some c =>
              .fault (s.updWarp e.b e.w fun x =>
                { x with copyStats := x.copyStats.map fun y => if y = c then { y with reported := true } else y })
                { code := c.code, addr := c.addr }
            | none =>
              let gone (t : Nat) : Bool := ms.any fun p => p.1 == t &&
                e.wp.copyStats.any fun c => covers t p.2 c && !c.reported && c.code == fcTargetGone
              let s1 := s.updWarp e.b e.w fun x =>
                { x with copyStats := x.copyStats.filter fun c => !(ms.any fun p => covers p.1 p.2 c) }
              e.result d 1 (fun t => .ok (if gone t then fcTargetGone.toNat else 0)) s1 l }) s

/-! ## Pieces as they land (R53, R204, R246, R424) -/

namespace Copy

/-- The first status that a copy meets stays. -/
def meet (c : Copy) (code : BitVec 8) (addr : W64) : Copy :=
  if c.status = 0#8 then { c with status := code, errAddr := addr } else c

end Copy

inductive SrcRead where
  | data (bs : List Byte) (poison : Bool)
  | failed (code : BitVec 8)
  | wait
deriving DecidableEq, Repr

/-- A piece still to land, which of them is free (R231): source, destination and bytes, and the copy without it. A range of
a COPY packet is cut at the destination's 4-byte words and at the source's blocks. -/
def Copy.takePiece (c : Copy) (v : Nat) : Option ((W64 × W64 × Nat) × Copy) :=
  let i := v % c.pieces.length
  match c.pieces[i]? with
  | some (src, dst) => some ((src, dst, 4), { c with pieces := c.pieces.eraseIdx i })
  | none =>
    let j := v % c.bulk.length
    match c.bulk[j]? with
    | none => none
    | some (src, dst, n) =>
      let pos := v / c.bulk.length % n
      let part := (dst.toNat + pos) % 4
      let o := if part ≤ pos then pos - part else 0
      let m := min (n - o) (min (4 - (dst.toNat + o) % 4) (256 - (src.toNat + o) % 256))
      let cut (o n : Nat) : List (W64 × W64 × Nat) :=
        if n = 0 then [] else [(src + BitVec.ofNat 64 o, dst + BitVec.ofNat 64 o, n)]
      some ((src + BitVec.ofNat 64 o, dst + BitVec.ofNat 64 o, m),
        { c with bulk := c.bulk.eraseIdx j ++ cut 0 o ++ cut (o + m) (n - o - m) })

namespace State

/-- Reads the source bytes of a piece. -/
def pieceRead (s : State) (id : Nat) (c : Copy) (src : W64) (n : Nat) : SrcRead × State :=
  if c.zeros then (.data (List.replicate n 0#8) false, s)
  else if inScratchWin src.toNat then
    let o := src.toNat - scratchBase
    match s.block? c.block with
    | none => (.data (List.replicate n 0#8) false, s)
    | some k =>
      if ({ s with copies := AMap.erase s.copies id } : State).scratchHeld c.block o n then (.wait, s)
      else (.data (k.scratchRead o n) (k.scratchPoisoned o n), s)
  else
    match s.resolve c.world c.ctx src.toNat .engineRead with
    | .place (.block a off) =>
      let (l, s1) := s.fill a
      if l.poisoned off n then
        if l.cause = fcUncorr then (.data (l.read off n) true, s1) else (.failed l.cause, s1)
      else (.data (l.read off n) false, s1)
    | .place p =>
      match s.readPlace c.world c.ctx p n with
      | (.ok bs, s1) => (.data bs false, s1)
      | (.error x, s1) => (.failed x, s1)
    | _ => (.wait, s)

/-- Whether a target block takes a copy's write at a window offset (R199, R204). -/
def takesWrite (s : State) (c : Copy) (t : Nat × List Nat) (off : Nat) : Bool :=
  match s.block? t.1 with
  | none => false
  | some k =>
    let i := k.shareOf off
    k.run != .saved && (t.1 == c.block || (k.run != .saving && k.run != .ended)) &&
      k.gens.getD i 0 == t.2.getD i 0 && (s.quarter (k.quarters.getD i 0)).segWorld == c.world

/-- Poison of one 64-bit word of a line, set, or cleared where two clean 4-byte pieces have written both its halves
[DESIGN CHOICE 33]. False: a fixed-class line that has become clean does not fit its class, and is as it was before the
piece (R50). -/
def linePoison (s : State) (a : BAcc) (before : Option Line) (word : Nat) (set clear : Bool) : Bool × State :=
  match s.line? a with
  | none => (true, s)
  | some l =>
    if set then (true, s.setLine a (l.poisonWord word))
    else if clear && l.poison.getLsbD word then
      let l1 := { l with poison := l.poison &&& ~~~(BitVec.ofNat 32 (2 ^ word)) }
      if a.loc.fixc != 0 && l1.poison = 0#32 then
        match s.portWrite a l1.data with
        | (true, s1) => (true, s1.setLine a { l1 with dirty := false })
        | (false, s1) => (false, s1.setLine a (before.getD l))
      else (true, s.setLine a l1)
    else (true, s)

/-- Writes a piece to one target's scratchpad. [DESIGN CHOICE 41] -/
def scratchLand (s : State) (b off : Nat) (bs : List Byte) (poison clear : Bool) : State :=
  s.updBlock b fun k =>
    let k1 := k.scratchWrite off bs
    if poison then { k1 with scratchPoison := if k1.scratchPoison.contains (off / 8) then k1.scratchPoison
                                              else k1.scratchPoison ++ [off / 8] }
    else if clear then { k1 with scratchPoison := k1.scratchPoison.filter fun w => w != off / 8 }
    else k1

/-- Writes one piece; none: its destination page is moving. The copy has taken the statuses it met. What a failed copy has
not delivered to global memory keeps its contents (R53). A fixed-class block is tested for fit as each piece lands (R50)
[DESIGN CHOICE 41]. -/
def pieceWrite (s : State) (c : Copy) (dst : W64) (bs : List Byte) (poison : Bool) : Option (Copy × State) :=
  let pair := c.landed.contains (dst ^^^ 4#64)
  if inScratchWin dst.toNat then
    let o := dst.toNat - scratchBase
    some (c.targets.foldl (fun p t =>
      if p.2.takesWrite p.1 t o then (p.1, p.2.scratchLand t.1 o bs poison (pair && !poison))
      else (p.1.meet fcTargetGone dst, p.2)) (c, s))
  else if c.zeros then some (c, s)
  else
    match s.resolve c.world c.ctx dst.toNat .engineWrite with
    | .place p =>
      let before := match p with
        | .block a _ => s.line? a
        | _ => none
      match s.writePlaces c.world c.ctx [(p, bs)] with
      | (some g, s1) => some (c.meet g.1 g.2, s1)
      | (none, s1) =>
        match p with
        | .block a off =>
          match s1.linePoison a before (off / 8) poison (pair && !poison) with
          | (true, s2) => some (c, s2)
          | (false, s2) => some (c.meet fcCodecFit a.va, s2)
        | _ => some (c, s1)
    | _ => none

/-- The slots that a piece's landing counts toward: those of targets that took it. -/
def landSlots (s : State) (c : Copy) (dst : W64) (poison : Bool) : State :=
  if !inScratchWin dst.toNat then s
  else
    let o := dst.toNat - scratchBase
    c.slots.foldl (fun s sl =>
      if c.targets.any fun t => t.1 == sl.1 && s.takesWrite c t o then s.inLap sl fun x => x.land poison else s) s

/-- A decode error or integrity failure ends the copy: its slots are filled with the code, and what is left of it lands as
zeros (R53, R75). [DESIGN CHOICE 41] -/
def failCopy (s : State) (id : Nat) (c : Copy) (code : BitVec 8) (addr : W64) : State :=
  let s1 := c.slots.foldl (fun s sl => s.inLap sl fun x => x.spoil code) s
  { s1 with copies := AMap.set s1.copies id { c.meet code addr with zeros := true } }

end State

/-- One piece of a copy lands. [DESIGN CHOICE 11] [DESIGN CHOICE 41] -/
def execCopyPieceLand (s : State) : Host.Outcome State Fault Refusal :=
  let id := s.args.id
  match AMap.get? s.copies id with
  | none => .next s
  | some c =>
    let (v, s0) := s.drawWord
    match c.takePiece v.toNat with
    | none => .next s
    | some ((src, dst, n), rest) =>
      match s0.pieceRead id c src n with
      | (.wait, s1) => .next s1
      | (.failed code, s1) => .next (s1.failCopy id c code src)
      | (.data bs poison, s1) =>
        match s1.pieceWrite c dst bs poison with
        | none => .next s1
        | some (c1, s2) =>
          let c2 := if poison then c1.meet fcUncorr src else c1
          let s3 := s2.landSlots c dst poison
          let whole := !poison && n == 4 && dst.toNat % 4 == 0
          let c3 := { c2 with pieces := rest.pieces, bulk := rest.bulk, landed := if whole then c.landed ++ [dst] else c.landed }
          .next { s3 with copies := AMap.set s3.copies id c3 }

/-- A copy whose pieces have all landed ends: it keeps its status for a cwait unless it reported through a slot, and a
COPY packet gets its result (R131). -/
def execCopyComplete (s : State) : Host.Outcome State Fault Refusal :=
  let id := s.args.id
  match AMap.get? s.copies id with
  | none => .next s
  | some c =>
    if !c.pieces.isEmpty || !c.bulk.isEmpty then .next s
    else
      let s1 := { s with copies := AMap.erase s.copies id }
      match c.pkt with
      | some (q, no) =>
        .next (if c.status = 0#8 then s1.completePkt c.world q no State.pcOk 0#8
               else s1.completePkt c.world q no State.pcFault c.status)
      | none =>
        if c.slotCopy || c.status = 0#8 then .next s1
        else
          let st : CopyStat := { thread := c.thread, batch := c.batch, order := c.order, code := c.status, addr := c.errAddr }
          .next (s1.updWarp c.block c.warp fun x => { x with copyStats := x.copyStats ++ [st] })

/-! ## Bobbins (R429 to R432) -/

def bobPre (e : Env) (n : BitVec 8) (consumer : Bool) : Option Flt :=
  match e.blk.bob? n.toNat with
  | none => some badH
  | some x => if consumer && x.weft then some badH else none

/-- Whether the four words of bob.init may stand. -/
def bobInitOk (s : State) (e : Env) (n : Nat) (g : List Nat) : Bool :=
  let base := g.getD 0 0
  let size := g.getD 1 0
  let nslot := g.getD 2 0
  let w3 := g.getD 3 0
  let rels := bits w3 15 8
  base % 64 == 0 && decide (64 ≤ size ∧ size ≤ 65536) && size % 64 == 0 && decide (1 ≤ nslot ∧ nslot ≤ 16) &&
    bits w3 31 16 == 0 && bits w3 7 1 == 0 && decide (1 ≤ rels ∧ rels ≤ 128) &&
    decide (base + size * nslot ≤ e.blk.scratchLen) && (!w3.testBit 0 || (e.blk.weft.isSome && rels == 1)) &&
    (match e.blk.bob? n with
      | some x => x.slots.all fun y => y.st == .free
      | none => true) && !(s.copies.any fun c => c.2.slots.any fun sl => sl.1 == e.b && sl.2.1 == n)

/-- Initialises a bobbin. -/
def execBobInit (d a b c : BitVec 8) (lit : BitVec 24) (s : State) : Host.Outcome State Fault Refusal :=
  runLane (fun e =>
    { opOk := (Instr.wf (.bobInit d a b c lit)) && d == 0#8 && b == 0#8 && lit == 0#24 && isS c && aligned c 4
      guarded := false, illegal := some 0xca
      act := fun s _ =>
        match e.group4 c 0 with
        | .error x => .fault s { code := x }
        | .ok g =>
          if !bobInitOk s e a.toNat g then .fault s badH
          else
            let x : Bobbin := { base := g.getD 0 0, size := g.getD 1 0, nslot := g.getD 2 0, rels := bits (g.getD 3 0) 15 8,
                                weft := (g.getD 3 0).testBit 0, slots := List.replicate (g.getD 2 0) {} }
            .ok (s.updBlock e.b fun k => { k with bobs := AMap.set k.bobs a.toNat x }) }) s

/-- Claims the slot at the claim pointer once it is free. -/
def execBobClaim (d n : BitVec 8) (s : State) : Host.Outcome State Fault Refusal :=
  runLane (fun e =>
    { opOk := (Instr.wf (.bobClaim d n)) && isS d && aligned d 2, guarded := false, illegal := some 0xcb
      pre := bobPre e n false
      act := fun s _ =>
        match e.blk.bob? n.toNat with
        | none => .fault s badH
        | some x =>
          if (x.slot x.claimPtr).st != .free then .park s .bobClaim
          else
            let y := x.updSlot x.claimPtr fun y => { st := .claimed, lap := y.lap + 1 }
            let z := { y with claimPtr := (x.claimPtr + 1) % x.nslot, last := some x.claimPtr }
            let s1 := s.updBlock e.b fun k => k.updBob n.toNat fun _ => z
            .ok (s1.updWarp e.b e.w fun v =>
              v.writeUnis e.gen e.inTry (regNo d) (words2 (scratchBase + x.base + x.size * x.claimPtr))) }) s

/-- Adds expected bytes to the slot claimed last and arms it. -/
def execBobExpect (n c : BitVec 8) (lit : BitVec 32) (s : State) : Host.Outcome State Fault Refusal :=
  runLane (fun e =>
    { opOk := (Instr.wf (.bobExpect n c lit)) && srcUOk c 1, guarded := false, illegal := some 0xcc
      pre := bobPre e n false
      act := fun s _ =>
        match e.srcU (.word lit) c, e.blk.bob? n.toNat with
        | .error x, _ => .fault s { code := x }
        | _, none => .fault s badH
        | .ok v, some x =>
          match x.last with
          | none => .fault s badH
          | some i =>
            let y := x.slot i
            if y.st = .filled && y.err then .ok s
            else if y.st != .claimed || v = 0 || decide (y.c + v > x.size) then .fault s badH
            else .ok (s.updBlock e.b fun k => k.updBob n.toNat fun x =>
              x.updSlot i fun y => ({ y with c := y.c + v, armed := true }).settle) }) s

/-- Waits for the slot at the warp's pointer and reads its status. -/
def execBobAwait (d n : BitVec 8) (s : State) : Host.Outcome State Fault Refusal :=
  runLane (fun e =>
    { opOk := (Instr.wf (.bobAwait d n)) && isS d, guarded := false, illegal := some 0xcd, pre := bobPre e n true
      act := fun s _ =>
        match e.blk.bob? n.toNat with
        | none => .fault s badH
        | some x =>
          let y := x.slot (AMap.getD x.ptr e.w 0)
          if y.st != .filled then .park s .bobAwait
          else .ok (s.updWarp e.b e.w fun v => v.writeUni e.gen e.inTry (regNo d) (y.status.setWidth 32)) }) s

/-- Counts a release of a slot; the last of RELS frees it. -/
def Bobbin.release (x : Bobbin) (i : Nat) : Bobbin :=
  x.updSlot i fun y => if y.rels + 1 ≥ x.rels then { lap := y.lap } else { y with rels := y.rels + 1 }

/-- Releases the slot at the warp's pointer, which moves on. -/
def execBobRel (n : BitVec 8) (s : State) : Host.Outcome State Fault Refusal :=
  runLane (fun e =>
    { opOk := Instr.wf (.bobRel n), guarded := false, illegal := some 0xce, pre := bobPre e n true
      act := fun s _ =>
        match e.blk.bob? n.toNat with
        | none => .fault s badH
        | some x =>
          let i := AMap.getD x.ptr e.w 0
          if (x.slot i).st != .filled then .fault s badH
          else .ok (s.updBlock e.b fun k => k.updBob n.toNat fun x =>
            { x.release i with ptr := AMap.set x.ptr e.w ((i + 1) % x.nslot) }) }) s

end Sys2Proof.Machine
end

