-- ==== Sys2Proof/Machine/Work.lean ====
section
/-! DEFINITION. Work in flight: a graph's status area (R170), records and groups (R164 to R173), cancel (R144, R175),
and the completion of launches, graphs and phases (R142, R143, R164). -/

namespace Sys2Proof.Machine

/-! ## The status area of a graph (R170) -/

/-- Word `i` of the status area, from the device's own copy. -/
def Graph.statusWord (g : Graph) (i : Nat) : Nat :=
  match i with
  | 0 => g.flags + g.firstFault.toNat * 256
  | 1 => g.records
  | 2 => g.gblocks
  | 3 => g.partials
  | 4 => g.discarded
  | 5 => 0
  | 6 => 0
  | 7 => 0
  | i => let n := AMap.getD g.nodes (i - 8) {}; n.refRec * 2 ^ 32 + n.refDepth

namespace State

def updGraph (s : State) (i : Nat) (f : Graph → Graph) : State := { s with graphs := AMap.modify s.graphs i f }

/-- Writes one word of the status area. A write that faults is dropped, and the first such code is kept (R170); one that
must wait for a page stays due. [DEDUCED 37] -/
def graphStore (s : State) (i word : Nat) : State :=
  match AMap.get? s.graphs i with
  | none => s
  | some g =>
    let rest := g.due.filter fun j => j != word
    match s.devWrite g.world g.ctx (g.gstatus + BitVec.ofNat 64 (8 * word)) (leBytes 8 (g.statusWord word)) with
    | (none, s1) => s1.updGraph i fun g => { g with due := rest }
    | (some .stall, s1) => s1.updGraph i fun g => { g with due := word :: rest }
    | (some (.fault c _), s1) => s1.updGraph i fun g => { g with due := rest, firstErr := g.firstErr <|> some c }

/-- Changes the device's copy and writes the words that changed. -/
def graphNote (s : State) (i : Nat) (words : List Nat) (f : Graph → Graph) : State :=
  words.foldl (fun s w => s.graphStore i w) (s.updGraph i f)

def graphFlush (s : State) (i : Nat) : State :=
  match AMap.get? s.graphs i with
  | none => s
  | some g => g.due.foldl (fun s w => s.graphStore i w) s

end State

/-! ## Records (R165 to R170) -/

def Graph.setFlag (g : Graph) (k : Nat) : Graph := { g with flags := g.flags ||| 2 ^ k }

/-- The first number from `k` up that a rising list leaves out. -/
def lowestFree : Nat → List Nat → Nat
  | k, [] => k
  | k, x :: xs => if x = k then lowestFree (k + 1) xs else k

/-- The lowest-numbered free slot of a node. -/
def GNode.freeSlot (n : GNode) : Option Nat :=
  let k := lowestFree 0 (n.recs.map Prod.fst)
  if k < n.cap then some k else none

def GNode.slotAddr (n : GNode) (k : Nat) : W64 := BitVec.ofNat 64 (n.base + 16 * n.rsize * k)

/-- What the launcher decides for one thread (R166). -/
inductive Grant where
  | slot (k : Nat)
  | depth
  | full
deriving DecidableEq, Repr

def Graph.updNode (g : Graph) (n : Nat) (f : GNode → GNode) : Graph := { g with nodes := AMap.modify g.nodes n f }

/-- Steps 2 to 4 of R166 for a record of `depth` into node `n`, by block `b`. [DESIGN CHOICE 32] -/
def Graph.grant (g : Graph) (b depth n : Nat) : Grant × Graph :=
  let d := AMap.getD g.nodes n {}
  if d.maxDepth < depth then (.depth, g)
  else
    match d.freeSlot with
    | none => (.full, g)
    | some k =>
      let g1 := g.updNode n fun x => { x with recs := AMap.set x.recs k (RecState.allocated b, depth) }
      (.slot k, { g1 with count := g1.count + 1 })

def satRefusals (n : Nat) : Nat := min (n + 1) 0xffffffff

/-- Counts a refusal. -/
def Graph.refuse (g : Graph) (n : Nat) : Grant → Graph
  | .slot _ => g
  | .depth => (g.updNode n fun x => { x with refDepth := satRefusals x.refDepth }).setFlag 1
  | .full => (g.updNode n fun x => { x with refRec := satRefusals x.refRec }).setFlag 0

/-- The decisions for all threads of one rec.alloc, in ascending thread index: thread, node, decision. -/
def Graph.grantAll (b depth : Nat) : List (Nat × Nat) → Graph → List (Nat × Nat × Grant) × Graph
  | [], g => ([], g)
  | (t, n) :: ts, g =>
    let (r, g1) := g.grant b depth n
    let (rs, g2) := Graph.grantAll b depth ts g1
    ((t, n, r) :: rs, g2)

def Graph.refuseAll (g : Graph) (rs : List (Nat × Nat × Grant)) : Graph := rs.foldl (fun g r => g.refuse r.2.1 r.2.2) g

/-- Frees slots of a node; each leaves the counter (R164, R169). -/
def Graph.freeSlots (g : Graph) (n : Nat) (ks : List Nat) : Graph :=
  let g1 := g.updNode n fun x => { x with recs := x.recs.filter fun r => !ks.contains r.1 }
  { g1 with count := g1.count - ks.length }

/-- Frees records that nothing has consumed. -/
def Graph.discard (g : Graph) (n : Nat) (ks : List Nat) : Graph :=
  if ks.isEmpty then g
  else
    let g1 := (g.freeSlots n ks).setFlag 2
    { g1 with discarded := g1.discarded + ks.length }

def Graph.discardMany (g : Graph) (ps : List (Nat × Nat)) : Graph := ps.foldl (fun g p => g.discard p.1 [p.2]) g

/-! ## The coalescing launcher (R171 to R173) -/

/-- Takes the `m` oldest pending records of node `n` as one group and creates its block. -/
def Graph.takeGroup (g : Graph) (gi n m now : Nat) : ReadyBlk × Graph :=
  let d := AMap.getD g.nodes n {}
  let ks := d.pend.take m
  let depth := ks.foldl (fun a k => max a (AMap.getD d.recs k (.pending, 0)).2) 0
  let rest := d.pend.drop m
  let d1 : GNode :=
    { d with pend := rest, started := if rest.isEmpty then none else some now, nextBid := d.nextBid + 1
             recs := ks.foldl (fun r k => AMap.modify r k fun x => (RecState.grouped, x.2)) d.recs }
  ({ graph := gi, node := n, bid := d.nextBid, slots := ks, depth := depth, since := now },
   { g with nodes := AMap.set g.nodes n d1, count := g.count + 1, gblocks := g.gblocks + 1 })

/-- Takes full groups while the node holds one; `fuel` bounds their number. -/
def Graph.takeFull (gi n now : Nat) : Nat → Graph → List ReadyBlk × Graph
  | 0, g => ([], g)
  | fuel + 1, g =>
    let d := AMap.getD g.nodes n {}
    if d.group = 0 ∨ d.pend.length < d.group then ([], g)
    else
      let (r, g1) := g.takeGroup gi n d.group now
      let (rs, g2) := Graph.takeFull gi n now fuel g1
      (r :: rs, g2)

/-- Publishes committed slots of node `n` (R167): they join the pending list, whose timer runs from now if it was empty. -/
def Graph.publish (g : Graph) (n now : Nat) (ks : List Nat) : Graph :=
  let add (d : GNode) : GNode :=
    { d with pend := d.pend ++ ks, started := if d.pend.isEmpty then some now else d.started
             recs := ks.foldl (fun r k => AMap.modify r k fun x => (RecState.pending, x.2)) d.recs }
  { g.updNode n add with records := g.records + ks.length }

namespace State

/-- Full groups of one node become blocks that wait to be placed. -/
def launchGroups (s : State) (gi n : Nat) : State :=
  match AMap.get? s.graphs gi with
  | none => s
  | some g =>
    let (rs, g1) := Graph.takeFull gi n s.now ((AMap.getD g.nodes n {}).pend.length + 1) g
    if rs.isEmpty then s
    else { s with readyBlks := s.readyBlks ++ rs }.graphNote gi [2] fun _ => g1

/-! ## Completion (R142, R143, R164) -/

/-- What a device's own update of a signal, or its write of a word, comes to. -/
inductive SigOut where
  | done
  | sent
  | stall
  | fault (code : BitVec 8)
deriving DecidableEq, Repr

/-- An atomic at .sys with release (R131, R132): adds `v` or, with `set`, stores it. In another device's memory it is a
remote atomic, whose answer comes to `who` (R88). [DEDUCED 37] -/
def updateSignal (s : State) (w c : Nat) (va : W64) (who : RemWait) (set : Bool) (v : W64) : SigOut × State :=
  if va.toNat % 8 != 0 then (.fault fcMisalign, s)
  else if 2 ^ 56 ≤ va.toNat then (.fault fcProtection, s)
  else
    match s.resolve w c va.toNat .devWrite with
    | .fault f => (.fault f.code, s)
    | .stall => (.stall, s)
    | .place (.remote y tw tva key) =>
      (.sent, s.sendRemote who { kind := .atomic (if set then 7 else 0) 3, fromSys := s.sysNum, toSys := y, world := tw
                                 va := tva, key := key, scope := 8, size := 8, data := leBytes 8 v.toNat })
    | .place p =>
      match s.atomicPlace w c p 8 fun old => some (if set then v.toNat else (old + v.toNat) % 2 ^ 64) with
      | (.ok _, s1) => (.done, s1)
      | (.error e, s1) => (.fault e.1, s1)

/-- A signal of which nothing further is asked. [DEDUCED 37] -/
def setSignal (s : State) (w c : Nat) (va : W64) (set : Bool) (v : W64) : State :=
  if va = 0#64 then s else (s.updateSignal w c va .signal set v).2

/-- The cancel packets that wait for a phase, once no other phase holds them. -/
def releaseWaiters (s : State) (w : Nat) : List (Nat × Nat) → State
  | [] => s
  | (q, idx) :: ps =>
    let still := s.phases.any fun p => p.2.world == w && p.2.waiters.contains (q, idx)
    releaseWaiters (if still then s else s.completePkt w q idx pcOk 0#8) w ps

/-- A phase that holds no work and is closed completes: PSIG, and the cancels that waited (R131, R142, R144). -/
def settlePhase (s : State) (i : Nat) : State :=
  match AMap.get? s.phases i with
  | none => s
  | some p =>
    if p.count != 0 || p.isOpen then s
    else
      let (r, s1) := if p.psig = 0#64 then (SigOut.done, s)
        else s.updateSignal p.world p.ctx p.psig .signal p.cancelled (BitVec.allOnes 64)
      match r with
      | .stall => s1
      | _ => { s1 with phases := AMap.erase s1.phases i }.releaseWaiters p.world p.waiters

def settlePhases (s : State) : State := s.phases.foldl (fun s p => s.settlePhase p.1) s

def leavePhase (s : State) (p : Option Nat) : State :=
  match p with
  | none => s
  | some i => ({ s with phases := AMap.modify s.phases i fun x => { x with count := x.count - 1 } }).settlePhase i

/-- A launch whose counter is zero completes its packet. -/
def settleLaunch (s : State) (i : Nat) : State :=
  match AMap.get? s.launches i with
  | none => s
  | some x =>
    if x.left != 0 then s
    else
      let (c, d) : BitVec 8 × BitVec 8 :=
        if x.cancelled then (pcCancelled, 0#8)
        else match x.fault with
          | some f => (pcFault, f)
          | none => (pcOk, 0#8)
      ({ s with launches := AMap.erase s.launches i }.completePkt x.world x.queue x.pkt c d).leavePhase x.phase

/-- The completion code of a graph (R164): the first fault recorded, of a block or of the status area. -/
def graphResult (g : Graph) : BitVec 8 × BitVec 8 :=
  if g.cancelled then (pcCancelled, 0#8)
  else match g.firstErr with
    | some c => (pcFault, c)
    | none => (pcOk, 0#8)

/-- A graph whose counter is zero completes its packet once its status area is written. -/
def settleGraph (s : State) (i : Nat) : State :=
  match AMap.get? s.graphs i with
  | none => s
  | some g =>
    if g.count != 0 then s
    else
      let s1 := s.graphFlush i
      match AMap.get? s1.graphs i with
      | none => s1
      | some g1 =>
        if !g1.due.isEmpty then s1
        else
          let (c, d) := graphResult g1
          ({ s1 with graphs := AMap.erase s1.graphs i }.completePkt g.world g.queue g.pkt c d).leavePhase g.phase

/-! ## Cancel (R144, R175, R220) -/

/-- A cancel reaches a block: its request flag rises with CANCEL, and a saved block is discarded. -/
def cancelBlock (s : State) (b : Nat) : State :=
  s.updBlock b fun k =>
    match k.run with
    | .saved => { k with run := .ended }
    | .ended => k
    | _ => { k with preempt := match k.preempt with
        | some (_, t) => some (.cancel, t)
        | none => some (.cancel, s.cycles) }

def cancelBlocks (s : State) (f : Block → Bool) : State :=
  (s.blocks.filter fun p => f p.2).foldl (fun s p => s.cancelBlock p.1) s

/-- Blocks of a launch that have not been placed never are, and no core is kept for them. -/
def cancelLaunch (s : State) (i : Nat) : State :=
  match AMap.get? s.launches i with
  | none => s
  | some x =>
    if x.cancelled || x.left = 0 then s
    else
      let y : Launch := { x with cancelled := true, left := x.left - (x.total - x.next), next := x.total }
      let s1 := { s with
        launches := AMap.set s.launches i y
        quarters := AMap.mapVals s.quarters fun q => { q with reserved := if q.reserved == some i then none else q.reserved } }
      (s1.cancelBlocks fun k => k.launch == some i).settleLaunch i

/-- A graph starts no further blocks, and its queued records are freed. -/
def cancelGraph (s : State) (i : Nat) : State :=
  match AMap.get? s.graphs i with
  | none => s
  | some g =>
    if g.cancelled || g.count = 0 then s
    else
      let mine := s.readyBlks.filter fun r => r.graph == i
      let g1 := mine.foldl (fun g r => let g' := g.discard r.node r.slots; { g' with count := g'.count - 1 }) g
      let g2 := g1.nodes.foldl (fun g n => g.discard n.1 n.2.pend) g1
      let g3 : Graph := { g2.setFlag 3 with
        cancelled := true
        nodes := AMap.mapVals g2.nodes fun n => { n with pend := [], started := none } }
      let s1 := { s with readyBlks := s.readyBlks.filter fun r => r.graph != i }.graphNote i [0, 4] fun _ => g3
      (s1.cancelBlocks fun k => k.launch.isNone && k.graph == some i).settleGraph i

end State

end Sys2Proof.Machine
end

