-- ==== Sys2Proof/Machine/Try.lean ====
section
/-! DEFINITION. Try regions (R257 to R273, R452 to R455): opening one, commit, abort and the region status. -/

namespace Sys2Proof.Machine

/-! ## Opening (R257, R258, R452) -/

/-- The checkpoint of a split that opens a region. -/
def Env.checkpoint (e : Env) (fallback : W64) : Region where
  mask := e.split.mask
  fallback := fallback
  mood := e.split.mood
  rmap := e.wp.rmap
  preds := e.wp.preds
  sregs := e.wp.sregs
  stags := e.wp.stags

def Env.openRegion (e : Env) (s : State) (fallback : W64) : State :=
  (s.updWarp e.b e.w fun x =>
    { x with region := some (e.checkpoint fallback), abortmask := 0#16
             abortcode := setCodes x.abortcode e.split.mask fun _ => 0#32 }).updSplit e.b e.w e.sp fun q =>
    { q with inTry := true }

/-- Opens a region for the threads of the split's mask; outside an open region of its warp the split waits. -/
def execTryOpen (o : BitVec 20) (s : State) : Host.Outcome State Fault Refusal :=
  runLane (fun e =>
    { feat := some 3, target := some (branchOff 20 o.toNat), illegal := some 0xd4, guarded := false
      act := fun s _ =>
        if e.wp.region.isSome then .park s .tryWait
        else .ok (e.openRegion s (targetOf e.pc (branchOff 20 o.toNat))) }) s

/-! ## Commit (R268, R453) -/

/-- The surviving threads' buffered stores, with where each leads. [DEDUCED 36] -/
def Env.commitStores (e : Env) (s : State) (r : Region) : List (ThAcc × List Byte) :=
  r.stores.map fun p =>
    ({ t := p.1, a := p.2.1.toNat, r := s.reach e.blk e.w p.1 .store p.2.1.toNat p.2.2.length 1 }, p.2.2)

/-- Where a split continues after its commit, and the address of a fall through that is forbidden (R334). -/
def State.afterCommit (s : State) (e : Env) (pc : W64) : W64 × Option Flt :=
  match (s.fetchLine e.blk.core e.blk.world e.blk.ctx pc).1 with
  | .error f => (pc, some f)
  | .ok l =>
    match continuation l pc 1 with
    | .ok a => (a, none)
    | .error a => (a, some { code := fcBadTarget, addr := a })

/-- Every split of the closing region continues after its own commit. -/
def State.leaveCommit (s : State) (e : Env) (stay : Option Nat) : State :=
  s.updWarp e.b e.w fun x =>
    { x with active := x.active.map fun p =>
               (p.1, if p.2.inTry && some p.1 != stay then { p.2 with pc := (s.afterCommit e p.2.pc).1, park := .ready } else p.2)
             pending := x.pending.map fun q =>
               if q.inTry then { q with pc := (s.afterCommit e q.pc).1, park := .ready } else q }

/-- The faults of splits that keep a thread and may not fall through after their commits. [DEDUCED 36] -/
def State.commitFaults (s : State) (e : Env) (x : Warp) (back : BitVec 16) : List (W64 × Flt) :=
  ((x.active.map Prod.snd ++ x.pending).filter fun q => q.inTry && q.mask &&& ~~~back != 0#16).filterMap fun q =>
    match s.afterCommit e q.pc with
    | (a, some f) => some (a, f)
    | (_, none) => none

/-- The warp after the doomed threads `r` of its region have left it: they go on in one split at the fallback, and the
region is closed. -/
def Warp.commitThreads (x : Warp) (gen : Nat) (back : BitVec 16) (r : Region) : Warp :=
  let live := x.regionThreads &&& ~~~back
  let y := if back = 0#16 then x
    else ((x.rollThreads gen back (fun t => r.doom.get t) r).dropEmpty).addSplit (fallbackSplit r back)
  { y with abortcode := setCodes y.abortcode live fun _ => 0#32 }.closeRegion

/-- Whether one more split finds a place once the doomed threads have left. -/
def Warp.commitRoom (x : Warp) (gen : Nat) (back : BitVec 16) (r : Region) : Bool :=
  back == 0#16 || decide (((x.rollThreads gen back (fun t => r.doom.get t) r).dropEmpty).places > 0)

/-- The one commit of a region whose splits have all arrived; `rel`: the scope of commit.rel. [DEDUCED 36] -/
def Env.performCommit (e : Env) (s : State) (x : Warp) (r : Region) (rel : Option Nat) : Eff :=
  let back := x.doomedNow
  if back != 0#16 && r.uwrite then
    .jump (s.updWarp e.b e.w fun x => x.rollWhole e.gen (lowestCode r back))
  else if !x.commitRoom e.gen back r then .fault s { code := fcDiverge }
  else
    let ws := e.commitStores s r
    let xs := ws.map Prod.fst
    match raisedFault false xs with
    | some f => .fault s f
    | none =>
      if anyStall xs || xs.any (fun x => s.anyHeld e.b 8 [x]) then .stay s
      else
        match s.writeAll e (ws.filter fun p => reaches p.1) with
        | (some (c, a), s1) => .fault s1 { code := c, addr := a }
        | (none, s1) =>
          let s2 := ws.foldl (fun s p => s.sendRemotes .store (rel.getD 0) p.2.length (fun x => .acc e.b e.w 0 x.t (BitVec.ofNat 64 x.a)) [p]) s1
          let late := s2.commitFaults e x back
          let wait := (match rel with
            | some sc => decide (6 ≤ sc)
            | none => false) && s2.releaseDue e.b e.w e.blk.world (rel.getD 0)
          let s3 := (s2.leaveCommit e (if wait then some e.sp else none)).updWarp e.b e.w fun x =>
            x.commitThreads e.gen back r
          if wait then .park s3 .fence
          else .jumpThen s3 fun s => late.foldl (fun s f => s.laneFault e.b e.w f.1 f.2) s

/-- A split at a commit waits, in either list, until every split of its region is at one and the region's loads have
completed. [DEDUCED 36] -/
def Env.commitAct (e : Env) (rel : Option Nat) (s : State) (_ : FetchLine) : Eff :=
  if e.inTry then
    let s1 := s.updSplit e.b e.w e.sp fun q => { q with park := .commit }
    match s1.warp? e.b e.w with
    | none => .ok s
    | some x =>
      match x.region with
      | none => .ok s
      | some r =>
        if x.allAtCommit then (if x.regionLoads then .stay s1 else e.performCommit s1 x r rel)
        else .stay (s1.updWarp e.b e.w fun x => x.yieldPlace e.sp)
  else if e.split.park == .fence && s.releaseDue e.b e.w e.blk.world (rel.getD 0) then .park s .fence
  else .ok s

/-- Ends the region: the threads whose guesses held keep their work, the doomed ones go to the fallback. -/
def execCommit (s : State) : Host.Outcome State Fault Refusal :=
  runLane (fun e => { feat := some 3, guarded := false, act := e.commitAct none }) s

/-- commit, then a release at a scope (R251, R453). -/
def execCommitRel (sc : BitVec 4) (s : State) : Host.Outcome State Fault Refusal :=
  runLane (fun e =>
    { feat := some 3, opOk := Instr.wf (.commitRel sc), guarded := false, act := e.commitAct (some sc.toNat) }) s

/-! ## Abort and status (R271, R273, R454, R455) -/

/-- Rolls back the active threads, or the whole warp once a uniform register has been written in the region. -/
def execAbort (i : BitVec 8) (s : State) : Host.Outcome State Fault Refusal :=
  runLane (fun e =>
    { feat := some 3
      act := fun s _ =>
        match e.wp.region with
        | none => .ok s
        | some r =>
          if !e.inTry then .ok s
          else if e.wp.regionLoads then .park s .ready
          else if r.uwrite then .jump (s.updWarp e.b e.w fun x => x.rollWhole e.gen (abortWord 1 i.toNat))
          else
            match e.wp.abortThreads e.gen e.sp e.active i.toNat with
            | none => .fault s { code := fcDiverge }
            | some y =>
              let s1 := s.updWarp e.b e.w fun _ => y
              if e.active = e.split.mask then .jump s1 else .ok s1 }) s

/-- The status word of R273. -/
def Warp.tstatWord (x : Warp) : W32 :=
  match x.region with
  | none => 0#32
  | some r =>
    BitVec.ofNat 32 (r.doomed.toNat * 2 ^ 16 + (if r.uwrite then 2 ^ 11 else 0) + 2 ^ 10 + r.alias_.length * 2 ^ 5 +
      r.buf.length)

/-- The region's status into a uniform register. -/
def execTstat (d : BitVec 8) (s : State) : Host.Outcome State Fault Refusal :=
  runLane (fun e =>
    { feat := some 3, opOk := isS d, guarded := false
      act := fun s _ => .ok (s.updWarp e.b e.w fun x => x.writeUni e.gen e.inTry (regNo d) e.wp.tstatWord) }) s

end Sys2Proof.Machine
end

