-- ==== Sys2Proof/Machine/Rec.lean ====
section
/-! DEFINITION. Records of stage graphs and gcancel (R166 to R168, R448 to R451). -/

namespace Sys2Proof.Machine

/-- The graph of the issuing block. -/
def State.graphOf (s : State) (k : Block) : Option (Nat × Graph) :=
  match k.launch, k.graph with
  | none, some g => (AMap.get? s.graphs g).map fun x => (g, x)
  | _, _ => none

/-- Words of the status area that refusals change. -/
def refusalWords (rs : List (Nat × Nat × Grant)) : List Nat :=
  let ns := (rs.filter fun r => match r.2.2 with
    | .slot _ => false
    | _ => true).map fun r => 8 + r.2.1
  if ns.isEmpty then [] else 0 :: ns.dedup

/-- The first refusal by a node that faults on refusals. -/
def faultingRefusal (g : Graph) (rs : List (Nat × Nat × Grant)) : Option (BitVec 8) :=
  rs.findSome? fun r =>
    if !(AMap.getD g.nodes r.2.1 {}).faultRef then none
    else match r.2.2 with
      | .depth => some fcDepth
      | .full => some fcRecQueue
      | .slot _ => none

def grantAddr (g : Graph) (n : Nat) : Grant → W64
  | .slot k => (AMap.getD g.nodes n {}).slotAddr k
  | _ => 0#64

def granted : Grant → Bool
  | .slot _ => true
  | _ => false

/-- Allocates record slots in one indivisible step at the launcher. -/
def execRecAlloc (d p n : BitVec 8) (lit : BitVec 32) (s : State) : Host.Outcome State Fault Refusal :=
  runLane (fun e =>
    { feat := some 2, illegal := some 0xd0
      opOk := (Instr.wf (.recAlloc d p n lit)) && isV d && aligned d 2 && isP p && srcOk n 1
      dsts := dstNames d 2
      act := fun s _ =>
        match s.graphOf e.blk with
        | none => .fault s { code := fcBadHandle }
        | some (gi, g) =>
          match eachThread (e.src32 (.word lit) n) e.act with
          | .error c => .fault s { code := c }
          | .ok ns =>
            if ns.any fun r => decide (r.2 ≥ g.nodes.length) then .fault s { code := fcBadHandle }
            else
              let write (s : State) (rs : List (Nat × W64 × Bool)) : State :=
                (e.put s d 2 (rs.map fun r => (r.1, words2 r.2.1.toNat))).updWarp e.b e.w fun x =>
                  x.writePred e.active (predNo p) (maskOf fun t => rs.any fun r => r.1 == t && r.2.2)
              if g.cancelled then .ok (write s (ns.map fun r => (r.1, 0#64, false)))
              else
                let (rs, g1) := Graph.grantAll e.b (e.blk.recdepth + 1) ns g
                match faultingRefusal g rs with
                | some c => .fault (s.graphNote gi (refusalWords rs) fun _ => g.refuseAll rs) { code := c }
                | none =>
                  let s1 := s.graphNote gi (refusalWords rs) fun _ => g1.refuseAll rs
                  let held := rs.filterMap fun r => match r.2.2 with
                    | .slot k => some (r.2.1, k)
                    | _ => none
                  let s2 := s1.updBlock e.b fun k => { k with uncommitted := k.uncommitted ++ held }
                  .ok (write s2 (rs.map fun r => (r.1, grantAddr g r.2.1 r.2.2, granted r.2.2))) }) s

/-- Publishes the slots of the active threads, all of them or none. -/
def execRecCommit (a : BitVec 8) (lit : BitVec 32) (s : State) : Host.Outcome State Fault Refusal :=
  runLane (fun e =>
    { feat := some 2, illegal := some 0xd1
      opOk := (Instr.wf (.recCommit a lit)) && isV a && aligned a 2
      act := fun s _ =>
        match s.graphOf e.blk with
        | none => .fault s { code := fcBadHandle }
        | some (gi, g) =>
          match eachThread (fun t => e.pread a t) e.act with
          | .error c => .fault s { code := c }
          | .ok as =>
            let find (v : Nat) : Option (Nat × Nat) := e.blk.uncommitted.find? fun q =>
              ((AMap.getD g.nodes q.1 {}).slotAddr q.2).toNat == v
            let ks := as.filterMap fun r => find r.2
            if ks.length != as.length || ks.dedup.length != ks.length then .fault s { code := fcBadHandle }
            else
              let s1 := s.updBlock e.b fun k =>
                { k with uncommitted := k.uncommitted.filter fun q => !ks.contains q }
              if g.cancelled then .ok (s1.graphNote gi [0, 4] fun g => g.discardMany ks)
              else
                let s2 := s1.graphNote gi [1] fun g => ks.foldl (fun g q => g.publish q.1 s.now [q.2]) g
                .ok ((ks.map Prod.fst).dedup.foldl (fun s n => s.launchGroups gi n) s2) }) s

/-- The address of word `k` of record `i` of the block's group, or none where a check fails (R450). [DESIGN CHOICE 38] -/
def Block.recordAddr (k : Block) (g : Graph) (i word : Nat) : Option Nat :=
  let d := AMap.getD g.nodes k.node {}
  if i ≥ k.reccount ∨ word ≥ 4 * d.rsize then none
  else some (wrapN 64 ((d.slotAddr (k.group.getD i 0)).toNat + 4 * word))

/-- Loads a word of a record of the block's group. [DESIGN CHOICE 38] -/
def execRecRead (d i k : BitVec 8) (lit : BitVec 32) (s : State) : Host.Outcome State Fault Refusal :=
  runLane (fun e =>
    { feat := some 2, illegal := some 0xd2
      opOk := (Instr.wf (.recRead d i k lit)) && dstOk d 1 && srcFor d i 1 && srcFor d k 1 && !(isLit i && isLit k)
      dsts := dstNames d 1
      act := fun s _ =>
        match s.graphOf e.blk with
        | none => .fault s { code := fcBadHandle }
        | some (_, g) =>
          match eachThread (e.src32 (.word lit) i) (e.runners d), eachThread (e.src32 (.word lit) k) (e.runners d) with
          | .error c, _ => .fault s { code := c }
          | _, .error c => .fault s { code := c }
          | .ok is, .ok ks =>
            let as := (is.zip ks).filterMap fun r => (e.blk.recordAddr g r.1.2 r.2.2).map fun a => (r.1.1, a)
            if as.length != is.length then .fault s { code := fcBadHandle }
            else e.loadFrom { size := 4, align := 4, disp := 0 } false false d as s }) s

/-- Cancels the issuing block's own graph. -/
def execGcancelGraph (s : State) : Host.Outcome State Fault Refusal :=
  runLane (fun e =>
    { feat := some 2, illegal := some 0xd3, guarded := false
      act := fun s _ =>
        match s.graphOf e.blk with
        | none => .fault s { code := fcBadHandle }
        | some (gi, _) => .okThen s fun s => s.cancelGraph gi }) s

/-- Cancels the issuing block's own launch. -/
def execGcancelLaunch (s : State) : Host.Outcome State Fault Refusal :=
  runLane (fun e =>
    { feat := some 2, illegal := some 0xd3, guarded := false
      act := fun s _ =>
        match e.blk.launch with
        | none => .fault s { code := fcBadHandle }
        | some i => .okThen s fun s => s.cancelLaunch i }) s

end Sys2Proof.Machine
end

