-- ==== Sys2Proof/Machine/Coll.lean ====
section
/-! DEFINITION. Collectives (R92 to R94, R456 to R458): the coll instruction, and the engine's completion and failure. -/

namespace Sys2Proof.Machine

/-! ## Descriptors (R456, R457) -/

def leWord (bs : List Byte) (off n : Nat) : Nat := leNat ((bs.drop off).take n)

structure CollDesc where
  group : Nat
  src : Nat
  dst : Nat
  sig : Nat
  len : Nat
  root : Nat
  ty : Nat
  op : Nat
  clean : Bool
deriving DecidableEq, Repr

def CollDesc.ofBytes (bs : List Byte) : CollDesc :=
  let w := leWord bs 0x20 8
  { group := leWord bs 0 8, src := leWord bs 8 8, dst := leWord bs 0x10 8, sig := leWord bs 0x18 8
    len := bits w 63 32, root := bits w 31 20, ty := bits w 11 8, op := bits w 3 0
    clean := bits w 19 12 == 0 && bits w 7 4 == 0 && (bs.drop 0x28).all fun b => b == 0#8 }

def collElem (ty : Nat) : Nat := if ty = 2 ∨ ty = 4 then 8 else 4

def collTypes (op : Nat) : List Nat :=
  if op = 0 then [0, 2, 3] else if op ≤ 2 then [0, 1, 3] else if op ≤ 5 then [4] else if op ≤ 7 then [0] else []

/-- Fields in range, with `n` members. [DESIGN CHOICE 39] -/
def CollDesc.ok (d : CollDesc) (n : Nat) : Bool :=
  d.clean && (collTypes d.op).contains d.ty && decide (4 ≤ d.len ∧ d.len ≤ 1048576) && d.len % collElem d.ty == 0 &&
    d.group % 64 == 0 && (if d.op = 7 then decide (d.root < n) else d.root == 0)

/-- Bytes of the result at one member. -/
def collOut (op n len : Nat) : Nat := if op = 6 then n * len else len

/-- The member list of a group record, and whether its reserved fields are zero. -/
def groupMembers (n : Nat) (bs : List Byte) : List Nat := (List.range n).map fun i => bits (leWord bs (0x40 + 4 * i) 4) 19 0

def groupClean (n : Nat) (bs : List Byte) : Bool :=
  bits (leWord bs 0 8) 63 13 == 0 && bits (leWord bs 8 8) 31 24 == 0 && ((bs.drop 0x10).take 0x30).all (fun b => b == 0#8) &&
    (List.range n).all fun i => bits (leWord bs (0x40 + 4 * i) 4) 31 20 == 0

/-! ## Checks at issue (R458) -/

/-- A fault that an agent of the device met, as the instruction raises it. -/
def State.engineFlt (s : State) (w c : Nat) (k : AccKind) (code : BitVec 8) (addr : W64) : Flt :=
  match s.resolve w c addr.toNat k with
  | .fault f => if f.code = code then f else { code := code, addr := addr }
  | _ => { code := code, addr := addr }

/-- Starts of the 64 KiB pages of a range. -/
def pagesOf (va n : Nat) : List Nat :=
  (List.range ((va + n - 1) / 65536 - va / 65536 + 1)).map fun i => if i = 0 then va else (va / 65536 + i) * 65536

def State.remotePage (s : State) (w c va : Nat) : Bool :=
  match s.resolve w c va .load with
  | .place (.remote _ _ _ _) => true
  | _ => false

/-- The first page that cannot be translated for its use; true where a page is moving. -/
def State.collUse (s : State) (w c : Nat) (k : AccKind) : List Nat → Except Flt Bool
  | [] => .ok false
  | va :: vs =>
    match s.resolve w c va k with
    | .fault f => .error f
    | .stall => (State.collUse s w c k vs).map fun _ => true
    | .place _ => State.collUse s w c k vs

/-- Steps 3 and 4 of R458; true where a page is moving. -/
def State.collPages (s : State) (w c : Nat) (d : CollDesc) (n : Nat) : Except Flt Bool :=
  let uses := [(d.src, d.len, AccKind.engineRead), (d.dst, collOut d.op n d.len, .engineWrite), (d.sig, 8, .engineWrite)]
  match uses.find? fun u => decide (u.1 + u.2.1 > 2 ^ 56) || (pagesOf u.1 u.2.1).any fun va => s.remotePage w c va with
  | some u => .error { code := fcProtection, addr := BitVec.ofNat 64 u.1 }
  | none =>
    let el := collElem d.ty
    match [(d.src, el), (d.dst, el), (d.sig, 8)].find? fun u => u.1 % u.2 != 0 with
    | some u => .error { code := fcMisalign, addr := BitVec.ofNat 64 u.1 }
    | none => uses.foldl (fun r u => match r with
        | .error f => .error f
        | .ok m => (s.collUse w c u.2.2 (pagesOf u.1 u.2.1)).map fun m' => m || m') (.ok false)

/-- Collectives of a world in the engine. -/
def State.collCount (s : State) (w : Nat) : Nat := (s.colls.filter fun p => p.2.world == w).length

/-- Hands a checked collective to the engine: SEQ rises by 1 (R457). [DESIGN CHOICE 39] -/
def State.startColl (s : State) (k : Block) (d : CollDesc) (members : List Nat) (w8 : Nat) : Except Flt State :=
  let seq := (bits w8 63 32 + 1) % 2 ^ 32
  match s.devWrite k.world k.ctx (BitVec.ofNat 64 (d.group + 12)) (leBytes 4 seq) with
  | (some (.fault c a), s1) => .error (s1.engineFlt k.world k.ctx .devWrite c a)
  | (_, s1) =>
    let id := AMap.fresh s1.colls
    let x : Coll := { world := k.world, ctx := k.ctx, group := BitVec.ofNat 64 d.group, src := BitVec.ofNat 64 d.src
                      dst := BitVec.ofNat 64 d.dst, sig := BitVec.ofNat 64 d.sig, len := d.len, root := d.root, ty := d.ty
                      op := d.op, members := members, self := members.idxOf s.sysNum, seq := seq }
    .ok ({ s1 with colls := AMap.set s1.colls id x }.send (.collective id))

/-- The whole of coll at the descriptor's address. -/
def Env.collAct (e : Env) (va : Nat) (s : State) : Eff :=
  let w := e.blk.world
  let c := e.blk.ctx
  if va % 64 != 0 then .fault s { code := fcMisalign, addr := BitVec.ofNat 64 va }
  else
    match s.devRead w c (BitVec.ofNat 64 va) 64 with
    | (.error .stall, s1) => .park s1 .ready
    | (.error (.fault x a), s1) => .fault s1 (s1.engineFlt w c .devRead x a)
    | (.ok bs, s1) =>
      let d := CollDesc.ofBytes bs
      match s1.devRead w c (BitVec.ofNat 64 d.group) 64 with
      | (.error .stall, s2) => .park s2 .ready
      | (.error (.fault x a), s2) => .fault s2 (s2.engineFlt w c .devRead x a)
      | (.ok hd, s2) =>
        let n := bits (leWord hd 0 8) 12 0
        if n < 2 ∨ 4096 < n then .fault s2 { code := fcBadHandle }
        else
          match s2.devRead w c (BitVec.ofNat 64 d.group) (64 + 4 * n) with
          | (.error .stall, s3) => .park s3 .ready
          | (.error (.fault x a), s3) => .fault s3 (s3.engineFlt w c .devRead x a)
          | (.ok gb, s3) =>
            let members := groupMembers n gb
            if !d.ok n || !groupClean n gb || (members.any fun m => domainOf m != domainOf s.sysNum) ||
                (members.filter fun m => m == s.sysNum).length != 1 then .fault s3 { code := fcBadHandle }
            else
              match s3.collPages w c d n with
              | .error f => .fault s3 f
              | .ok true => .park s3 .ready
              | .ok false =>
                if s3.collCount w ≥ 64 then .park s3 .collRoom
                else
                  match s3.startColl e.blk d members (leWord gb 8 8) with
                  | .error f => .fault s3 f
                  | .ok s4 => .ok s4

/-- Starts a collective. -/
def execColl (d a b c : BitVec 8) (lit : BitVec 24) (s : State) : Host.Outcome State Fault Refusal :=
  runLane (fun e =>
    { feat := some 7, illegal := some 0xd9, guarded := false
      opOk := (Instr.wf (.coll d a b c lit)) && isS a && aligned a 2
      act := fun s _ =>
        match e.pread a 0 with
        | .error c => .fault s { code := c }
        | .ok va => e.collAct va s }) s

/-! ## The engine (R92, R93) -/

/-- One combination of two elements, the lower-indexed member's first. -/
def collCombine (op ty x y : Nat) : Nat :=
  match op, ty with
  | 0, 3 => atomicF 6 4 x y 0
  | op, 3 => atomicF op 4 x y 0
  | op, 4 => atomicF op 3 x y 0
  | op, ty => atomicF op ty x y 0

/-- Combines two contributions element by element. -/
def collPair (op ty : Nat) (xs ys : List Byte) : List Byte :=
  let n := collElem ty
  ((List.range (xs.length / n)).map fun i => leBytes n (collCombine op ty (leWord xs (n * i) n) (leWord ys (n * i) n))).flatten

/-- The largest power of two that does not exceed `n`. -/
def collPow (n : Nat) : Nat := 2 ^ Nat.log2 n

/-- Devices at or above m fold into the lower ones. -/
def collFold (op ty : Nat) (ds : List (List Byte)) : List (List Byte) :=
  let m := collPow ds.length
  (List.range m).map fun i => match ds[i + m]? with
    | some y => collPair op ty (ds.getD i []) y
    | none => ds.getD i []

/-- One recursive-doubling step, as neighbours. -/
def collStep (op ty : Nat) : List (List Byte) → List (List Byte)
  | x :: y :: r => collPair op ty x y :: collStep op ty r
  | l => l

def collTree (op ty : Nat) : Nat → List (List Byte) → List Byte
  | 0, l => l.headD []
  | n + 1, l => match l with
    | [x] => x
    | l => collTree op ty n (collStep op ty l)

def collResult (x : Coll) (ds : List (List Byte)) : List Byte :=
  if x.op = 6 then ds.flatten
  else if x.op = 7 then ds.getD x.root []
  else collTree x.op x.ty 13 (collFold x.op x.ty ds)

/-- A failed collective: SIG is −1, CAUSE and STEP are written, and what DST holds is open (R94, R458). [DESIGN CHOICE 39] -/
def State.failColl (s : State) (id cause step : Nat) : State :=
  match AMap.get? s.colls id with
  | none => s
  | some x =>
    let (junk, s1) := s.drawBytes (collOut x.op x.members.length x.len)
    let s2 := (s1.devWrite x.world x.ctx x.dst junk).2
    let s3 := (s2.devWrite x.world x.ctx (x.group + 8#64) [BitVec.ofNat 8 cause]).2
    let s4 := (s3.devWrite x.world x.ctx (x.group + 10#64) [BitVec.ofNat 8 step]).2
    let s5 := (s4.devAtomic x.world x.ctx x.sig fun _ => 2 ^ 64 - 1).2
    { s5 with colls := AMap.erase s5.colls id }

/-- The result arrives: `contribs` are the members' data, this device's own read from SRC now. [DESIGN CHOICE 39] -/
def execCollectiveComplete (s : State) : Host.Outcome State Fault Refusal :=
  let id := s.args.id
  match AMap.get? s.colls id with
  | none => .next s
  | some x =>
    let whole := s.args.contribs.length == x.members.length && s.args.contribs.all fun c => c.length == x.len
    if !whole then .next s
    else
      match s.devRead x.world x.ctx x.src x.len with
      | (.error .stall, _) => .next s
      | (.error _, s1) => .next (s1.failColl id 4 0)
      | (.ok own, s1) =>
        match s1.devWrite x.world x.ctx x.dst (collResult x (s.args.contribs.set x.self own)) with
        | (some .stall, _) => .next s
        | (some _, s2) => .next (s2.failColl id 4 0)
        | (none, s2) =>
          let s3 := (s2.devAtomic x.world x.ctx x.sig fun v => v + (2 ^ 64 - 1)).2
          .next { s3 with colls := AMap.erase s3.colls id }

/-- A member's link has stayed down for more than 100 us; `m` is the step reached. -/
def execCollectiveLinkTimeout (s : State) : Host.Outcome State Fault Refusal :=
  match AMap.get? s.colls s.args.id with
  | none => .next s
  | some x =>
    match x.linkDown with
    | none => .next s
    | some t => if s.now ≤ t + 100000 then .next s else .next (s.failColl s.args.id 1 s.args.m)

/-- A member's interface is in ERROR (cause 2), the members' collectives do not match (3), or a contribution cannot be
read (4); `m` is the step reached. -/
def execCollectiveFailure (s : State) : Host.Outcome State Fault Refusal :=
  if 2 ≤ s.args.n ∧ s.args.n ≤ 4 then .next (s.failColl s.args.id s.args.n s.args.m) else .next s

end Sys2Proof.Machine
end

