-- ==== Sys2Proof/Machine/Sched.lean ====
section
/-! DEFINITION. Which agent moves next, and what a lane, a weft sequencer or a heddle is about to run: fetch and decode
(R333 to R335, R351), the rotation of deterministic blocks (R157), the agents able to move (R154, R155), and the state
around one placed instruction. -/

namespace Sys2Proof.Machine

/-! ## Fetch and decode -/

/-- What an agent's turn comes to before `exec`: an instruction to run, or a state in which it has been dealt with. -/
inductive Next where
  | run (i : Instr) (s : State)
  | done (s : State)

/-- The lane instructions that bring no order between agents but what `State.learn` and `State.forget` say of them: the
arithmetic, the branches, plain accesses, atomics and fences. [DESIGN CHOICE 11] -/
def Instr.keepsRaces (i : Instr) : Bool :=
  match i with
  | .nop .. | .br .. | .brp .. | .bru .. | .call .. | .callReg .. | .ret .. | .jmpi .. | .mood .. | .moodG ..
  | .vote .. | .shfl .. | .wred .. | .wscan .. | .vtos .. | .vrel .. | .addc .. | .subb .. | .add .. | .sub ..
  | .mul .. | .mulh .. | .mad .. | .madw .. | .abs .. | .min .. | .max .. | .and .. | .or .. | .xor .. | .andn ..
  | .shl .. | .shr .. | .sra .. | .rot .. | .bfe .. | .bfi .. | .popc .. | .clz .. | .brev .. | .perm .. | .sel ..
  | .cmpEq .. | .cmpNe .. | .cmpLt .. | .cmpGe .. | .cmpLe .. | .cmpGt .. | .cmpLtu .. | .cmpGeu .. | .fadd ..
  | .fsub .. | .fmul .. | .ffma .. | .ffma4 .. | .fmin .. | .fmax .. | .fneg .. | .fabs .. | .fclass .. | .frnd ..
  | .fscale .. | .fdot2 .. | .fcmpEq .. | .fcmpNe .. | .fcmpLt .. | .fcmpGe .. | .fcmpLe .. | .fcmpGt ..
  | .fcmpOrd .. | .fcmpUno .. | .frcp .. | .frsq .. | .fsqrt .. | .fexp2 .. | .flog2 .. | .fsin .. | .fcos ..
  | .ftanh .. | .cvt .. | .qscale .. | .qpack8 .. | .qunpack8 .. | .pack .. | .unpack .. | .trpack .. | .ld ..
  | .ldXform .. | .ldSpec .. | .ldSpecXform .. | .st .. | .stXform .. | .ldxRow .. | .ldxRowXform .. | .ldxCol ..
  | .ldxColXform .. | .stxRow .. | .stxRowXform .. | .stxCol .. | .stxColXform .. | .prefetch .. | .prefetchXform ..
  | .cinv .. | .cinvXform .. | .cwb .. | .cwbXform .. | .atomAdd .. | .atomMin .. | .atomMax .. | .atomAnd ..
  | .atomOr .. | .atomXor .. | .atomExch .. | .atomCas .. | .atomFadd .. | .red .. | .fence .. => true
  | _ => false

/-- Before a step that may order what agents have done (a shed, a bobbin, a copy, a packet, the end of a block, any step of
the device), no write can be missed any more. [DESIGN CHOICE 11] -/
def State.ordered (s : State) (i : Instr) : State := if Instr.keepsRaces i then s else { s with recent := [] }

/-- Parked splits whose turn passes with nothing issued: only an event releases them (R154, R157). -/
def Park.passes : Park → Bool
  | .join => true
  | .trap _ => true
  | .quota _ => true
  | .sync _ => true
  | _ => false

def decodeFault : DecodeError → BitVec 8
  | .badOpcode => fcBadOpcode
  | _ => fcBadOperand

/-- The instruction that a split is about to issue (R333, R351); its meaning fetches it again. [DESIGN CHOICE 18] -/
def State.laneNext (s : State) : Next :=
  match s.issuer? with
  | none => .done s
  | some e =>
    if e.split.park.passes then .done (s.turnPassed e.b e.w e.sp)
    else
      match s.issueLine e with
      | (.error f, s1) => .done (s1.laneFault e.b e.w e.pc f)
      | (.ok l, s1) =>
        let k := wordIndex e.pc
        match decodeLane (l.word k) (l.word (k + 1)) with
        | .ok i => .run i s
        | .error x => .done (s1.laneFault e.b e.w e.pc { code := decodeFault x })

/-- A fault of the weft sequencer (R205, R207). -/
def State.weftFault (s : State) (b : Nat) (pc : W64) (f : Flt) : State := s.raiseFault b 255 pc f

/-- The line a weft sequencer issues from, with the checks of R333 and of its entry point (R146, R334). [DEDUCED 17] -/
def State.weftLine (s : State) (k : Block) (x : Weft) : Except Flt FetchLine × State :=
  match s.fetchLine k.core k.world k.ctx x.pc with
  | (.error f, s1) => (.error f, s1)
  | (.ok l, s1) =>
    match weftLineCheck l with
    | some (c, d) => (.error { code := c, addr := x.pc, detail := d }, s1)
    | none =>
      if entryOk l (!x.begun) x.pc then (.ok l, s1)
      else (.error { code := fcBadTarget, addr := x.pc }, s1)

/-- The block and sequencer that the focus names. -/
def State.weftIssuer? (s : State) : Option (Nat × Block × Weft) :=
  match s.focus with
  | .weft b =>
    match s.block? b with
    | none => none
    | some k => match k.weft with
      | none => none
      | some x => some (b, k, x)
  | _ => none

def State.weftNext (s : State) : Next :=
  match s.weftIssuer? with
  | none => .done s
  | some (b, k, x) =>
    match s.weftLine k x with
    | (.error f, s1) => .done (s1.weftFault b x.pc f)
    | (.ok l, s1) =>
      match decodeWeft (l.word (wordIndex x.pc)) with
      | .ok i => if i.wf then .run i s else .done (s1.weftFault b x.pc { code := fcWeft, detail := 1#8 })
      | .error _ => .done (s1.weftFault b x.pc { code := fcWeft, detail := 1#8 })

/-- The instruction of the heddle run in progress; a run that has none errs (R43). -/
def State.heddleNext (s : State) : Next :=
  match s.heddle with
  | none => .done s
  | some r =>
    match r.instr? with
    | some i => .run i s
    | none => .done { s with heddle := some r.fail }

/-! ## One placed instruction -/

/-- Where `State.withFetchWord` places code: a page of context 0 and the physical page behind it. -/
def placedVa : Nat := 0x100000
def placedPa : Nat := 0x10000

/-- Entries of a page table that map `placedVa` (R212, R213): three tables and a leaf that may be fetched and written. -/
def placedTable : AMap (BitVec 128) :=
  [(ptKey 1 placedVa, 0x1#128), (ptKey 2 placedVa, 0x1#128), (ptKey 3 placedVa, 0x1#128),
   (ptKey 4 placedVa, BitVec.ofNat 128 (placedPa + 0x302))]

def placedLoc : BlkRef := { key := 2 * (placedPa / 256), base := placedPa, metaAt := placedPa / 256 }

/-- A line of `kind` whose word 2 begins the instruction and is a target. -/
def placedLine (kind : Nat) (bs : List Byte) (w : Nat) : Line where
  world := w
  ctx := 0
  va := BitVec.ofNat 64 placedVa
  trec := 0
  loc := placedLoc
  data := leBytes 4 (kind * 2 ^ 30 + 1) ++ leBytes 4 1 ++ bs ++ List.replicate (248 - bs.length) 0#8

/-- A world in RUN with every feature, whose context 0 maps the placed page. -/
def placedWorld : World where
  tstate := .run
  featDrv := 0xfff#128
  evlog := 0x200000#64
  ctxs := [(0, { pt := placedTable })]

def placedBlock (w : Nat) (weft : Bool) : Block where
  world := w
  gens := [1]
  quarters := [0]
  warps := [(0, { active := [(0, { pc := BitVec.ofNat 64 (placedVa + 8) })], quota := 64, baseQuota := 4 })]
  weft := if weft then some { pc := BitVec.ofNat 64 (placedVa + 8) } else none
  sheds := (List.range 16).map fun n => (n, { first := 0, num := 1, weft := weft })

/-- A ready device with one resident block about to fetch the bytes `bs` at word 2 of a line. -/
def State.placeCode (s : State) (kind : Nat) (bs : List Byte) (focus : Nat → Focus) : State :=
  let w := AMap.fresh s.worlds
  let b := AMap.fresh s.blocks
  { s with
    bootReady := true
    worlds := AMap.set s.worlds w placedWorld
    blocks := AMap.set s.blocks b (placedBlock w (kind == 1))
    lines := AMap.set s.lines (placedLoc.key * 64 + w % 64) (placedLine kind bs w)
    focus := focus b }

/-- A heddle run whose first word is `w0`. -/
def State.placeRun (s : State) (w0 : W32) : State :=
  { s with heddle := some (HRun.start [w0] (List.replicate 1024 0#8) (List.replicate 256 0#8) 256), focus := .heddle }

def State.placeWord (s : State) (nbits w : Nat) : State :=
  match tableSet nbits w with
  | some .lane => s.placeCode 0 (tableBytes nbits w) fun b => .lane b 0 0
  | some .weft => s.placeCode 1 ((tableBytes nbits w).take 4) fun b => .weft b
  | some .trans => s.placeRun (wordAt (tableBytes nbits w) 0)
  | none => s.placeCode 0 (tableBytes nbits w) fun b => .lane b 0 0

/-! ## The agents able to move -/

def ev (e : Instr) (a : EvArgs) : Focus := .internal e a

/-- Splits of a halted warp whose instruction in progress may complete: all but those that only an event releases (R154, R205). -/
def warpFoci (b w : Nat) (x : Warp) : List Focus :=
  (x.active.filter fun p => !p.2.park.passes).map fun p => .lane b w p.1

/-- The active split after the split pointer, in rotation, that something but an event may release (R154, R155). -/
def Warp.nextSplit (x : Warp) : Option Nat :=
  (((List.range 4).map fun i => (x.splitPtr + 1 + i) % 4).find? fun k => match AMap.get? x.active k with
    | some q => !q.park.passes
    | none => false)

/-- The active split after the split pointer, in rotation (R155). -/
def Warp.offer (x : Warp) : Option Nat :=
  (((List.range 4).map fun i => (x.splitPtr + 1 + i) % 4).find? fun k => AMap.has x.active k)

/-- Whether a split in the join form of waitf is to be released: every other active split of its warp is parked (R181). -/
def Warp.joinFree (x : Warp) (sp : Nat) : Bool :=
  (match AMap.get? x.active sp with
    | some q => q.park == .join
    | none => false) && x.active.all fun p => p.1 == sp || p.2.park != .ready

/-- Whether everything a deterministic block has issued is complete (R157). -/
def blockQuiet (s : State) (b : Nat) (k : Block) : Bool :=
  (k.warps.all fun x => x.2.loads.isEmpty && x.2.accs.isEmpty && x.2.active.all fun p => !x.2.joinFree p.1) && (s.copies.all fun c => c.2.block != b) &&
    (match k.weft with
    | some y => y.mmas.isEmpty
    | none => true)

/-- The split that warp `w` of a running block offers its lane: in a deterministic block only on its turn, with nothing of
the block in flight (R155, R157). -/
def warpOffer (s : State) (b : Nat) (k : Block) (w : Nat) (x : Warp) : Option Nat :=
  if k.run != .running then none
  else if k.determ then (if blockQuiet s b k && k.partFrom k.rot == w then x.offer else none)
  else x.nextSplit

/-- The warp whose turn it is on a lane of a quarter: the first in slot rotation, after the slot that issued last, with a
split to offer (R155, R158). -/
def laneFocus (s : State) (q lane : Nat) : Option Focus :=
  let ws := s.laneWarps q lane
  let ptr := AMap.getD (s.quarter q).slotPtr lane 3
  (List.range 4).findSome? fun i => (ws.find? fun p => p.2.2.slot == (ptr + 1 + i) % 4).bind fun p =>
    match s.block? p.1 with
    | some k => (warpOffer s p.1 k p.2.1 p.2.2).map fun sp => .lane p.1 p.2.1 sp
    | none => none

/-- The lanes that may issue: on each the warp whose turn it is. -/
def laneFoci (s : State) : List Focus :=
  ((s.blocks.flatMap fun p => p.2.warps.map fun x => (quarterOf p.2 x.1, x.2.lane)).dedup).filterMap fun l =>
    laneFocus s l.1 l.2

/-- Instruction streams of one block that may issue beside its lanes: the sequencer, and what a halt left in progress. [DESIGN CHOICE 2] -/
def blockFoci (s : State) (b : Nat) (k : Block) : List Focus :=
  match k.run with
  | .running =>
    match k.weft with
    | some y =>
      if y.ended || (k.determ && !(blockQuiet s b k && (AMap.get? k.warps (k.partFrom k.rot)).isNone)) then []
      else [Focus.weft b]
    | none => []
  | .halted => (k.warps.filter fun p => p.2.due).flatMap fun p => warpFoci b p.1 p.2
  | .saving => (k.warps.filter fun p => p.2.due).flatMap fun p => warpFoci b p.1 p.2
  | .broken _ => (k.warps.filter fun p => p.2.due).flatMap fun p => warpFoci b p.1 p.2
  | _ => []

/-- What completes by itself for a block's warps and sequencer. -/
def blockEvents (b : Nat) (k : Block) : List Focus :=
  (k.warps.flatMap fun p =>
    (p.2.loads.map fun l => ev .loadDataArrival { block := b, warp := p.1, id := l.1 }) ++
    (p.2.accs.map fun l => ev .memoryAccessCompletion { block := b, warp := p.1, id := l.1 }) ++
    ((p.2.active.filter fun q => q.2.park == .join).map fun q =>
      ev .joinRelease { block := b, warp := p.1, split := q.1 })) ++
  (match k.weft with
    | some y => (y.mmas.filter fun m => !m.2.isEmpty).flatMap fun m =>
      [ev .mmaComplete { block := b, n := m.1 }, ev .mmaComplete { block := b, n := m.1, m := 1 }]
    | none => []) ++
  [ev .blockEnd { block := b }] ++
  (k.quarters.flatMap fun q => k.warps.flatMap fun p => p.2.active.map fun sp =>
    ev .translationWalk { unit := q, world := k.world, ctx := k.ctx, addr := sp.2.pc }) ++
  (if k.service.isSome then [ev .faultServiceDone { block := b }, ev .stallLimitExpiry { block := b }] else []) ++
  (if k.preempt.isSome then [ev .forcedSave { block := b }] else []) ++
  (match k.run with
    | .saving => [ev .saveComplete { block := b }]
    | .saved => (List.range 512).map fun u => ev .blockResume { block := b, unit := u }
    | _ => [])

def worldEvents (w : Nat) (x : World) : List Focus :=
  (if x.sweepInterval = 0 then [] else x.ctxs.flatMap fun c =>
    c.2.recs.map fun r => ev .sweepIntervalExpiry { world := w, ctx := c.1, n := r.1 }) ++
  (if x.sweeps.isEmpty then [] else [ev .sweepStart { world := w }, ev .sweepBlock { world := w }]) ++
  (x.quarterSet.map fun q => ev .quarterHandover { unit := q }) ++
  (if x.quiescing then [ev .quiesceLimitExpiry { world := w }, ev .freezePoint { world := w }] else []) ++
  (x.queues.flatMap fun q => if q.2.started.isEmpty then [] else [ev .packetCompletion { world := w, queue := q.1 }])

/-- The step that serves a packet, by its type and form (R128, R129). -/
def packetEvent (l : List Byte) : Instr :=
  let byte (i : Nat) : Nat := (l.getD i 0#8).toNat
  match byte 1 with
  | 2 => .barrier
  | 3 => if byte 0x18 = 0 then .signalAdd else .signalSet
  | 4 => match byte 0x10 with
    | 0 => .phaseOpen
    | 1 => .phaseClose
    | 2 => .cancelPhase
    | _ => .cancelJob
  | 5 => .launch
  | 6 => .graph
  | 7 => match byte 0x28 with
    | 1 => .bounceIn
    | 3 => .bounceOut
    | _ => .copy
  | 8 => if byte 0x12 = 2 then .bindSweep else .bindWrite
  | 9 => if (l.drop 0x18).take 8 = List.replicate 8 0#8 then .unloadPair else .loadPair
  | 10 => .timestamp
  | 11 => .writePacket
  | _ => .nopPacket

/-- The packets that an engine has taken are served one after another (R136). -/
def engineEvents (s : State) (x : Engine) : List Focus :=
  x.taken.filterMap fun p => match s.queue? p.1 p.2 with
    | some q => q.head.map fun l => ev (packetEvent l) { world := p.1, queue := p.2 }
    | none => none

/-- The management command whose block the physical function read at MC_GO (R103). -/
def commandEvent (s : State) : List Focus :=
  match s.mcResult with
  | some _ => [ev .mcCompletion {}]
  | none =>
    match leNat (s.mcCmd.take 2) with
    | 1 => [ev .createWorld {}]
    | 2 => [ev .bindQuarters {}]
    | 3 => [ev .bindMemory {}]
    | 4 => [ev .createContext {}]
    | 5 => [ev .setLimits {}]
    | 6 => [ev .setDevice {}]
    | 7 => [ev .migrateOut {}]
    | 8 => [ev .migrateIn {}]
    | 9 => [ev .destroyWorld {}]
    | 10 => [ev .setError {}]
    | _ => [ev .mcCompletion {}]

/-- A soft error of an SRAM word: which word, and whether it can be corrected, is free (R21). [DESIGN CHOICE 33] -/
def State.drawUpset (s : State) : Upset :=
  let v := (Config.word s.tick).toNat
  let nth (m : List Nat) : Nat := m.getD (v / 4 % m.length) 0
  { unit := v / 2 ^ 16 % 2 ^ 16
    word := if v % 4 = 0 then .scratch (nth (AMap.keys s.blocks)) (v / 2 ^ 32)
      else if v % 4 = 1 then .line (nth (AMap.keys s.lines)) (v / 2 ^ 32 % 32)
      else .other
    corrected := Config.coin s.tick }

/-- The agents that may move: instruction streams, heddles, and the device's own steps. A step whose condition does not
hold changes nothing. [DESIGN CHOICE 2] [DESIGN CHOICE 15] [DEDUCED 65] -/
def State.candidates (s : State) : List Focus :=
  (if s.inbox.isEmpty then [] else [Focus.input]) ++
  (if !s.bootReady then (if s.bootFailed then [] else [ev .powerOn {}])
  else
    [ev .powerMeasurement {}, ev .shareEpoch {}, ev .patrolScrub {}, .upset s.drawUpset] ++
    ((List.range s.heddles.length).map Focus.swap) ++
    (match s.heddle with
      | some r => match r.fin with
        | .running => [Focus.heddle]
        | _ => [ev .heddleRunDone {}]
      | none => []) ++
    laneFoci s ++ (s.blocks.flatMap fun p => blockFoci s p.1 p.2 ++ blockEvents p.1 p.2) ++
    (s.copies.map fun p => if p.2.pieces.isEmpty && p.2.bulk.isEmpty then ev .copyComplete { id := p.1 } else ev .copyPieceLand { id := p.1 }) ++
    (s.worlds.flatMap fun p => worldEvents p.1 p.2) ++
    (s.lines.map fun p => ev .demandWrite { world := p.2.world, ctx := p.2.ctx, addr := p.2.va }) ++
    (s.ports.flatMap fun p => (if p.2.busy.isSome || !p.2.waiting.isEmpty then [ev .blockTransferDone { unit := p.1 }] else []) ++
      ((List.range 4).map fun c => ev .portWaitBound { unit := p.1, n := c + 2 })) ++
    (s.quarters.flatMap fun p =>
      (if p.2.handover.isSome then [ev .quarterHandover { unit := p.1 }] else []) ++
      (if p.2.draining.isSome then [ev .drainLimitExpiry { unit := p.1 }] else []) ++
      [ev .generationScrub { unit := p.1 }] ++
      (if p.2.scrub.isSome then [ev .generationScrubEnd { unit := p.1 }] else []) ++
      (p.2.quotaQ.map fun l => ev .quotaGrant { unit := p.1, n := l.1 })) ++
    ((s.launches.map fun p => p.1).flatMap fun i => (List.range 512).map fun u => ev .blockPlace { id := i, unit := u }) ++
    (((s.readyBlks.map ReadyBlk.graph).dedup).flatMap fun g => (List.range 512).map fun u =>
      ev .blockPlace { id := 0, n := g, unit := u }) ++
    ((List.range 8).map fun u => ev .placementReservation { unit := u }) ++
    ((List.range 9).map fun u => ev .clauseRound { unit := u }) ++
    (s.engines.flatMap fun p => engineEvents s p.2) ++
    ((s.engines.filter fun p => p.2.stopped).map fun p => ev .clauseEngineRestart { unit := p.1 }) ++
    (s.graphs.flatMap fun p => p.2.nodes.map fun n => ev .nodeTimerExpiry { id := p.1, n := n.1 }) ++
    (s.colls.map fun p => ev .collectiveLinkTimeout { id := p.1 }) ++
    (if s.mcBusy then commandEvent s else []))

/-- What a step of the device measures or draws for itself: nothing fixes it (R21, R23, R25). [DESIGN CHOICE 7] [DESIGN CHOICE 33] [DEDUCED 59] [DEDUCED 68] -/
def State.physical (s : State) (e : Instr) (a : EvArgs) : EvArgs :=
  match e with
  | .powerMeasurement => { a with n := Config.power s.tick }
  | .powerOn =>
    let o : BootOutcome :=
      if Config.coin s.tick then .ok else .failed (BitVec.ofNat 8 ((Config.word s.tick).toNat % 7 + 1))
    { a with boot := o }
  | .heddleRunDone =>
    -- an error beyond correction in the pair cache (R29)
    { a with ecc := if Config.coin s.tick then .clean else .uncorrectable }
  | .migrateOut =>
    let v := (Config.word s.tick).toNat
    { a with reach := if v % 4 = 0 then .ok else if v % 4 = 1 then .noSession else if v % 4 = 2 then .refused else .keyNotReceived
             ok := Config.coin s.tick }
  | .migrateIn => { a with ok := Config.coin s.tick }
  -- whether firmware's memory and the contexts' tables have room (R104, R106)
  | .createWorld => { a with ok := Config.coin s.tick }
  | .createContext => { a with ok := Config.coin s.tick }
  | .patrolScrub =>
    let v := (Config.word s.tick).toNat
    { a with n := v / 4, ecc := if v % 4 = 0 then .uncorrectable else if v % 4 = 1 then .corrected else .clean }
  | _ => a

/-- The lane of the split that has just moved goes on from its slot, once the warp has issued or all its splits have been
offered (R155). -/
def State.slotTurn (s : State) : State :=
  match s.focus with
  | .lane b w _ =>
    match s.block? b, s.warp? b w with
    | some k, some x =>
      if x.polled = 0 then s.updQuarter (quarterOf k w) fun q => { q with slotPtr := AMap.set q.slotPtr x.lane x.slot } else s
    | _, _ => s
  | _ => s

/-- Time passes, and the next agent is chosen among those able to move. [DESIGN CHOICE 2] -/
def State.reschedule (s : State) : State :=
  let s1 := s.slotTurn
  let c := s1.candidates
  { s1 with
    tick := s.tick + 1
    now := s.now + Config.elapsed s.tick
    cycles := s.cycles + Config.elapsed s.tick * s.clockMHz
    focus := c.getD (Config.choice s.tick % c.length) .idle }

end Sys2Proof.Machine
end

