-- ==== Sys2Proof/Machine/Weft.lean ====
section
/-! DEFINITION. The weft stream (R297 to R312, R434 to R446): its issue, the matrix arrays, accumulator slots, its meeting
points with the warps, its address arithmetic and its control. -/

namespace Sys2Proof.Machine

/-! ## Issue and completion -/

/-- What a weft instruction comes to. -/
inductive WEff where
  /-- It has completed without a transfer of control. -/
  | ok (s : State)
  /-- It has completed and continues at an address. -/
  | jump (s : State) (pc : W64)
  /-- It has completed, and falls through to an address where that is forbidden (R334). -/
  | bad (s : State) (pc : W64)
  /-- It has completed, and the stream has ended. -/
  | done (s : State)
  /-- It waits, and issues again. -/
  | park (s : State) (p : Park)
  | fault (s : State) (f : Flt)

def weftBad (detail : BitVec 8) : Flt := { code := fcWeft, detail := detail }

/-- Counters that loop at `pc`, most recently started first (R445). -/
def Weft.loopsAt (x : Weft) (pc : W64) : List (Nat × Loop) :=
  (((List.range 8).map fun k => (k, x.w.getD k {})).filter fun p => p.2.count != 0#32 && p.2.stop == pc).insertionSort
    fun a b => a.2.age ≥ b.2.age

/-- The loop-end rule of R445: counters after it, and where a counter that loops continues. [DEDUCED 40] -/
def loopEnd : List (Nat × Loop) → List Loop → List Loop × Option W64
  | [], w => (w, none)
  | (k, l) :: ls, w =>
    if 1 < l.count.toNat then (w.set k { l with count := l.count - 1#32 }, some l.first)
    else loopEnd ls (w.set k { l with count := 0#32 })

namespace State

/-- Counts a weft instruction; the rotation goes on with warp 0 (R157). -/
def weftRetire (s : State) (b : Nat) : State :=
  (s.updBlock b fun k => { k with retired := k.retired + 1, cycles := k.cycles + Config.cycles s.tick, rot := 0 }).updWeft b
    fun y => { y with begun := true }

/-- The stream continues after the instruction at `pc`, or loops (R334, R445). [DEDUCED 40] -/
def weftContinue (s : State) (b : Nat) (x : Weft) (l : FetchLine) : State :=
  match loopEnd (x.loopsAt x.pc) x.w with
  | (w, some pc) => s.updWeft b fun y => { y with pc := pc, w := w, park := .ready }
  | (w, none) =>
    match continuation l x.pc 1 with
    | .ok pc => s.updWeft b fun y => { y with pc := pc, w := w, park := .ready }
    | .error pc =>
      (s.updWeft b fun y => { y with pc := pc, w := w, park := .ready }).weftFault b pc { code := fcBadTarget, addr := pc }

def weftFinish (b : Nat) (x : Weft) (l : FetchLine) : WEff → State
  | .ok s => (s.weftRetire b).weftContinue b x l
  | .jump s pc => (s.weftRetire b).updWeft b fun y => { y with pc := pc, park := .ready }
  | .bad s pc =>
    ((s.weftRetire b).updWeft b fun y => { y with pc := pc, park := .ready }).weftFault b pc { code := fcBadTarget, addr := pc }
  | .done s => (s.weftRetire b).updBlock b Block.settleSheds
  | .park s p => (s.updWeft b fun y => { y with park := p }).updBlock b fun k => { k with rot := 0 }
  | .fault s f => s.weftFault b x.pc f

end State

/-- What a weft instruction sees of its issuer. -/
structure WEnv where
  b : Nat
  blk : Block
  wf : Weft
deriving Repr

def WEnv.x (e : WEnv) (r : BitVec 4) : W64 := e.wf.x.getD r.toNat 0#64

/-- Runs one weft instruction for the sequencer that the focus names; `ok`: its fields are legal (R352). [DESIGN CHOICE 18] [DESIGN CHOICE 73] -/
def runWeft (ok : Bool) (act : WEnv → State → FetchLine → WEff) (s : State) : Host.Outcome State Fault Refusal :=
  match s.weftIssuer? with
  | none => .fault .noIssuer
  | some (b, k, x) =>
    match s.weftLine k x with
    | (.error f, s1) => .next (s1.weftFault b x.pc f)
    | (.ok l, s1) =>
      if ok then .next (State.weftFinish b x l (act { b := b, blk := k, wf := x } s1 l))
      else .next (s1.weftFault b x.pc (weftBad 1#8))

/-! ## Accesses of the sequencer (R202, R306) -/

/-- Why an access of the sequencer does not happen now. -/
inductive WStop where
  | wait
  | fault (f : Flt)
deriving DecidableEq, Repr

namespace State

def wProt (va : Nat) : Except WStop Unit := .error (.fault { code := fcProtection, addr := BitVec.ofNat 64 va })

/-- Address checks of [va, va + n), aligned to `align`. -/
def weftCheck (s : State) (k : Block) (b va n align : Nat) (write : Bool) : Except WStop Unit :=
  if va % align != 0 then .error (.fault { code := fcMisalign, addr := BitVec.ofNat 64 va })
  else if inScratchWin va then
    if s.scratchOutside k (va - scratchBase) n then wProt va
    else if s.scratchHeld b (va - scratchBase) n then .error .wait
    else .ok ()
  else if va + n ≤ 2 ^ 56 then
    (piecesOf va n).foldl (fun r p => match r with
      | .error x => .error x
      | .ok _ => match s.resolve k.world k.ctx p.1 (if write then .engineWrite else .engineRead) with
        | .fault f => .error (.fault f)
        | .stall => .error .wait
        | .place _ => .ok ()) (.ok ())
  else wProt va

/-- The first check that fails among equal accesses. -/
def weftChecks (s : State) (k : Block) (b n align : Nat) (write : Bool) : List Nat → Except WStop Unit
  | [] => .ok ()
  | va :: vs =>
    match s.weftCheck k b va n align write with
    | .ok _ => weftChecks s k b n align write vs
    | .error x => .error x

/-- Reads bytes whose addresses have been checked. A data fault is final (R307). [DEDUCED 20] -/
def weftRead (s : State) (b va n : Nat) : Except WStop (List Byte) × State :=
  match s.block? b with
  | none => (.ok [], s)
  | some k =>
    if inScratchWin va then
      let o := va - scratchBase
      if k.strict && k.scratchUninit o n then (.error (.fault { code := fcUninit }), s)
      else if k.scratchPoisoned o n then (.error (.fault { code := fcUncorr, addr := BitVec.ofNat 64 va }), s)
      else (.ok (k.scratchRead o n), s)
    else
      match devReadPieces k.world k.ctx .engineRead (piecesOf va n) s with
      | (.ok bs, s1) => (.ok bs, s1)
      | (.error .stall, s1) => (.error .wait, s1)
      | (.error (.fault c a), s1) => (.error (.fault { code := c, addr := a }), s1)

/-- Checks and reads. -/
def weftFetch (s : State) (k : Block) (b va n align : Nat) : Except WStop (List Byte) × State :=
  match s.weftCheck k b va n align false with
  | .error x => (.error x, s)
  | .ok _ => s.weftRead b va n

/-- Rows of equal length, from the first. -/
def weftRows (b n : Nat) : List Nat → State → Except WStop (List (List Byte)) × State
  | [], s => (.ok [], s)
  | va :: vs, s =>
    match s.weftRead b va n with
    | (.error x, s1) => (.error x, s1)
    | (.ok r, s1) =>
      match weftRows b n vs s1 with
      | (.ok rs, s2) => (.ok (r :: rs), s2)
      | (.error x, s2) => (.error x, s2)

/-- Writes checked rows in order; a block that cannot be stored stops it (R50). -/
def weftWrite (b : Nat) : List (Nat × List Byte) → State → Except WStop Unit × State
  | [], s => (.ok (), s)
  | (va, bs) :: ws, s =>
    match s.block? b with
    | none => (.ok (), s)
    | some k =>
      if inScratchWin va then
        let o := va - scratchBase
        weftWrite b ws (s.updBlock b fun k => (k.scratchHeal ((List.range bs.length).map (o + ·))).scratchWrite o bs)
      else
        match devWritePieces k.world k.ctx .engineWrite (piecesOf va bs.length) bs s with
        | (none, s1) => weftWrite b ws s1
        | (some .stall, s1) => (.error .wait, s1)
        | (some (.fault c a), s1) => (.error (.fault { code := c, addr := a }), s1)

end State

/-- The addresses of `n` rows (wrapping, R300). -/
def rowAddrs (base stride : W64) (n : Nat) : List Nat := (List.range n).map fun i => (base + stride * BitVec.ofNat 64 i).toNat

def WEnv.stop (s : State) : WStop → WEff
  | .wait => .park s .ready
  | .fault f => .fault s f

/-! ## mma (R284 to R288, R298, R307, R436) -/

/-- Bytes of a B row. -/
def bRowBytes (f : Nat) : Nat := if f = 0 then 26 else if f = 1 then 64 else 128

/-- Weight of column `j` in a B row. -/
def weightAt (f : Nat) (row : List Byte) (j : Nat) : Int :=
  match f with
  | 0 =>
    let v := (row.getD (j / 5) 0#8).toNat
    if v ≥ 243 then 0 else match v / 3 ^ (j % 5) % 3 with
      | 0 => 0
      | 1 => 1
      | _ => -1
  | 1 => sext 4 ((row.getD (j / 2) 0#8).toNat / 16 ^ (j % 2))
  | _ => sext 8 (row.getD j 0#8).toNat

def badWeightIn (f : Nat) (tile : List Byte) : Bool := f == 0 && tile.any fun v => decide (v.toNat ≥ 243)

/-- Activation `k` of an A row. -/
def actAt (g : Nat) (row : List Byte) (k : Nat) : Int :=
  if g = 0 then sext 8 (row.getD k 0#8).toNat else sext 16 (leWord row (2 * k) 2)

/-- The exact sums of one row: the base plus the products over the reduction index. -/
def rowSums (f g : Nat) (base : List Int) (a tile : List Byte) : List Int :=
  (List.range 64).foldl (fun acc k =>
    let x := actAt g a k
    let row := (tile.drop (bRowBytes f * k)).take (bRowBytes f)
    if x = 0 then acc else List.zipWith (fun p j => p + x * weightAt f row j) acc (List.range 128)) base

def int32Out (p : Int) : Bool := decide (p < -(2 ^ 31) ∨ 2 ^ 31 - 1 < p)

/-- Row `i` of the partial buffer of the block's array `q`, by granules of 16 bytes (R189, R190). -/
def Block.partialRow (k : Block) (q i : Nat) : Except Flt (List W32) :=
  let key := 32 * q + i
  let tags := AMap.getD k.pbTags key []
  let own (j : Nat) : Bool := tags.getD (j / 4) 0 == k.gens.getD q 0
  if k.strict && !(List.range 128).all own then .error { code := fcUninit }
  else .ok ((List.range 128).map fun j => if own j then (AMap.getD k.pbuf key []).getD j 0#32 else 0#32)

def Block.putRow (k : Block) (q i : Nat) (row : List W32) : Block :=
  { k with pbuf := AMap.set k.pbuf (32 * q + i) row
           pbTags := AMap.set k.pbTags (32 * q + i) (List.replicate 32 (k.gens.getD q 0)) }

/-- Writes one computed row, with POVF. [DEDUCED 40] -/
def State.mmaRow (s : State) (b q i : Nat) (sums : List Int) : State :=
  (s.updBlock b fun k => k.putRow q i (sums.map fun p => BitVec.ofNat 32 (wrapN 32 p))).updWeft b fun y =>
    { y with povf := y.povf || sums.any int32Out }

def State.mmasOf (s : State) (b q : Nat) : List MmaRun :=
  match s.block? b with
  | none => []
  | some k => match k.weft with
    | none => []
    | some y => AMap.getD y.mmas q []

/-- Replaces the oldest step of an array, or removes it when it is done. -/
def Weft.setMma (y : Weft) (q : Nat) (m : Option MmaRun) : Weft :=
  let rest := (AMap.getD y.mmas q []).drop 1
  match m with
  | some r => { y with mmas := AMap.set y.mmas q (r :: rest) }
  | none => { y with mmas := if rest.isEmpty then AMap.erase y.mmas q else AMap.set y.mmas q rest }

/-- Issues an array step: its operands are captured, and it runs in the background. -/
def execMma (f : BitVec 2) (g c : BitVec 1) (q : BitVec 2) (a sa bb sb : BitVec 4) (s : State) :
    Host.Outcome State Fault Refusal :=
  runWeft (Instr.wf (.mma f g c q a sa bb sb)) (fun e s _ =>
    let n := q.toNat
    if e.blk.nq ≤ n then .fault s (weftBad 2#8)
    else
      let held := AMap.getD e.wf.mmas n []
      if held.length ≥ 2 then .park s .ready
      else
        let run : MmaRun := { pc := e.wf.pc, f := f.toNat, g := g.toNat, acc := c == 1#1, a := e.x a, sa := e.x sa
                              b := e.x bb, sb := e.x sb }
        .ok (s.updWeft e.b fun y => { y with mmas := AMap.set y.mmas n (held ++ [run]) })) s

/-- The B tile of a step, fetched before its first row; a ternary byte of 243 or more is noted. [DEDUCED 40] -/
def State.mmaTile (s : State) (k : Block) (b : Nat) (r : MmaRun) : Except WStop (List Byte) × State :=
  if !r.tile.isEmpty then (.ok r.tile, s)
  else
    let n := bRowBytes r.f
    let vs := rowAddrs r.b r.sb 64
    match s.weftChecks k b n 1 false vs with
    | .error x => (.error x, s)
    | .ok _ =>
      match State.weftRows b n vs s with
      | (.error x, s1) => (.error x, s1)
      | (.ok rows, s1) =>
        (.ok rows.flatten, s1.updWeft b fun y => { y with badWeight := y.badWeight || badWeightIn r.f rows.flatten })

/-- The younger step's B tile is fetched while the older one's rows run (R299, R302); what stops it shows at its own turn.
[DEDUCED 40] -/
def State.fetchAhead (s : State) (k : Block) (b q : Nat) : State :=
  match s.mmasOf b q with
  | r :: r1 :: _ =>
    match s.mmaTile k b r1 with
    | (.ok tile, s1) => s1.updWeft b fun y => { y with mmas := AMap.set y.mmas q [r, { r1 with tile := tile }] }
    | (.error _, s1) => s1
  | _ => s

/-- Computes the next row of the oldest step on array `n` of a running block; the last row completes the step. A fault
leaves the rows before it, and the row it stopped at (R307). With `m` 1 the step behind it fetches its B tile. [DEDUCED 40] -/
def execMmaComplete (s : State) : Host.Outcome State Fault Refusal :=
  let b := s.args.block
  let q := s.args.n
  match s.block? b, s.mmasOf b q with
  | some k, r :: _ =>
    if k.run != .running then .next s
    else if s.args.m = 1 then .next (s.fetchAhead k b q)
    else
      match s.mmaTile k b r with
      | (.error .wait, s1) => .next s1
      | (.error (.fault f), s1) => .next (s1.weftFault b r.pc f)
      | (.ok tile, s1) =>
        let keep := s1.updWeft b fun y => y.setMma q (some { r with tile := tile })
        match keep.weftFetch k b (r.a + r.sa * BitVec.ofNat 64 r.row).toNat (if r.g = 0 then 64 else 128) 1 with
        | (.error .wait, s2) => .next s2
        | (.error (.fault f), s2) => .next ((s2.updWeft b fun y => y.setMma q (some { r with tile := [] })).weftFault b r.pc f)
        | (.ok a, s2) =>
          match (if r.acc then k.partialRow q r.row else .ok (List.replicate 128 0#32)) with
          | .error f => .next (s2.weftFault b r.pc f)
          | .ok base =>
            let s3 := s2.mmaRow b q r.row (rowSums r.f r.g (base.map fun w => w.toInt) a tile)
            .next (s3.updWeft b fun y =>
              y.setMma q (if r.row ≥ 31 then none else some { r with row := r.row + 1, tile := tile }))
  | _, _ => .next s

/-! ## Accumulator slots (R292, R309, R310) -/

/-- Slots of the block's quarter `i`. -/
def Block.slotCount (k : Block) (i : Nat) : Nat := 2 * (8 - bits k.part (4 * i + 3) (4 * i))

/-- The lowest-numbered free slot of the lowest-numbered quarter that has one. -/
def Block.freeSlot (k : Block) : Option Nat :=
  (((List.range k.nq).flatMap fun i => (List.range (k.slotCount i)).map (16 * i + ·))).find? fun n => !AMap.has k.slots n

/-- The slot that a handle holds, or the one it would take: its number, whether it is new, and its content. -/
def WEnv.slotFor (e : WEnv) (h : BitVec 4) : Option (Nat × AccSlot) :=
  match AMap.get? e.wf.handles h.toNat with
  | some n => some (n, AMap.getD e.blk.slots n {})
  | none => e.blk.freeSlot.map fun n => (n, {})

def State.putSlot (s : State) (b : Nat) (h : BitVec 4) (n : Nat) (x : AccSlot) : State :=
  (s.updBlock b fun k => { k with slots := AMap.set k.slots n x }).updWeft b fun y =>
    { y with handles := AMap.set y.handles h.toNat n }

/-- What a slot without an anchor reads as in every element. -/
def AccSlot.windows (x : AccSlot) : List W64 := if x.win.isEmpty then List.replicate 4096 0#64 else x.win

/-- Adds P × 2^d to a window: the new window, whether it saturated, and whether bits were dropped (R292). -/
def accTerm (w : W64) (p d : Int) : W64 × Bool × Bool :=
  let t : Int := if 0 ≤ d then p * (2 ^ d.toNat : Nat) else p / ((2 ^ (-d).toNat : Nat) : Int)
  let inexact := decide (d < 0) && decide (p % ((2 ^ (-d).toNat : Nat) : Int) ≠ 0)
  let sum := w.toInt + t
  if 2 ^ 63 - 1 < sum then (BitVec.ofInt 64 (2 ^ 63 - 1), true, inexact)
  else if sum < -(2 ^ 63) then (BitVec.ofInt 64 (-(2 ^ 63)), true, inexact)
  else (BitVec.ofInt 64 sum, false, inexact)

/-- Adds one term, or none, to each element. -/
def accTerms (anchor : Int) (ws : List W64) (ts : List (Option (Int × Int))) : List (W64 × Bool × Bool) :=
  List.zipWith (fun w t => match t with
    | none => (w, false, false)
    | some (p, e) => accTerm w p (e - anchor)) ws ts

def clamp16 (x : Int) : Int := max (-32768) (min 32767 x)

/-- scale-and-accumulate over a slot; the first term sets a missing anchor. Every granule takes generation `gen`. -/
def AccSlot.add (x : AccSlot) (gen : Nat) (ts : List (Option (Int × Int))) : AccSlot :=
  match x.anchor <|> ((ts.findSome? fun t => t).map fun t => clamp16 (t.2 - 16)) with
  | none => x
  | some a =>
    let rs := accTerms a (if x.anchor.isSome then x.windows else List.replicate 4096 0#64) ts
    { anchor := some a, win := rs.map Prod.fst, overflow := x.overflow || rs.any fun r => r.2.1
      inexact := x.inexact || rs.any fun r => r.2.2, tags := List.replicate 512 gen }

/-- The rows of array `q`'s partial buffer as integers. [DEDUCED 20] -/
def Block.partials (k : Block) (q : Nat) : Except Flt (List Int) :=
  (List.range 32).foldl (fun r i => match r with
    | .error f => .error f
    | .ok xs => match k.partialRow q i with
      | .error f => .error f
      | .ok row => .ok (xs ++ row.map fun w => w.toInt)) (.ok [])

/-- The scale sum of an element, or none where its term is skipped. -/
def scaleOf (xa xb : Nat) : Option Int := if xa = 0 ∨ xb = 0 then none else some ((xa : Int) - 512 + ((xb : Int) - 512))

/-- scacc once its scales are known: `ra` by row, `cb` by column. -/
def WEnv.scaccWith (e : WEnv) (q : Nat) (h : BitVec 4) (n : Nat) (x : AccSlot) (ra cb : Nat → Nat) (s : State) : WEff :=
  match e.blk.partials q with
  | .error f => .fault s f
  | .ok ps =>
    let ts := List.zipWith (fun p (k : Nat) => (scaleOf (ra (k / 128)) (cb (k % 128))).map fun sc => (p, sc)) ps (List.range 4096)
    .ok (s.putSlot e.b h n (x.add (e.blk.gens.getD (n / 16) 0) ts))

/-- The checks before a scacc: the array, its steps, a slot. -/
def WEnv.scaccPre (e : WEnv) (q : Nat) (h : BitVec 4) (s : State) (go : Nat → AccSlot → WEff) : WEff :=
  if e.blk.nq ≤ q then .fault s (weftBad 2#8)
  else if !(AMap.getD e.wf.mmas q []).isEmpty then .park s .ready
  else match e.slotFor h with
    | none => .fault s { code := fcAccFull }
    | some (n, x) => go n x

def halfScale (bs : List Byte) (i : Nat) : Nat := leWord bs (2 * i) 2 % 1024

/-- Folds a partial buffer into a slot with scale vectors of its rows and columns. -/
def execScaccV (q : BitVec 2) (h r c : BitVec 4) (s : State) : Host.Outcome State Fault Refusal :=
  runWeft (Instr.wf (.scaccV q h r c)) (fun e s _ =>
    e.scaccPre q.toNat h s fun n x =>
      let va := (e.x r).toNat
      let vb := (e.x c).toNat
      match s.weftCheck e.blk e.b va 64 2 false, s.weftCheck e.blk e.b vb 256 2 false with
      | .error y, _ => WEnv.stop s y
      | _, .error y => WEnv.stop s y
      | .ok _, .ok _ =>
        match s.weftRead e.b va 64 with
        | (.error y, s1) => WEnv.stop s1 y
        | (.ok ra, s1) =>
          match s1.weftRead e.b vb 256 with
          | (.error y, s2) => WEnv.stop s2 y
          | (.ok cb, s2) => e.scaccWith q.toNat h n x (halfScale ra) (halfScale cb) s2) s

/-- Folds a partial buffer into a slot with one scale each for rows and columns. -/
def execScaccU (q : BitVec 2) (h r c : BitVec 4) (s : State) : Host.Outcome State Fault Refusal :=
  runWeft (Instr.wf (.scaccU q h r c)) (fun e s _ =>
    e.scaccPre q.toNat h s fun n x =>
      e.scaccWith q.toNat h n x (fun _ => (e.x r).toNat % 1024) (fun _ => (e.x c).toNat % 1024) s) s

/-- Adds int32 values from memory to a slot (R438). -/
def execAccLd (h a st ex : BitVec 4) (s : State) : Host.Outcome State Fault Refusal :=
  runWeft (Instr.wf (.accLd h a st ex)) (fun e s _ =>
    match e.slotFor h with
    | none => .fault s { code := fcAccFull }
    | some (n, x) =>
      let vs := rowAddrs (e.x a) (e.x st) 32
      match s.weftChecks e.blk e.b 512 4 false vs with
      | .error y => WEnv.stop s y
      | .ok _ =>
        match State.weftRows e.b 512 vs s with
        | (.error y, s1) => WEnv.stop s1 y
        | (.ok rows, s1) =>
          let sc := sext 16 (e.x ex).toNat
          let ts := rows.flatMap fun row => (List.range 128).map fun j => some (sext 32 (leWord row (4 * j) 4), sc)
          .ok (s1.putSlot e.b h n (x.add (e.blk.gens.getD (n / 16) 0) ts))) s

/-- The value of a window. -/
def windowVal (anchor : Int) (w : W64) : FVal := .fin (decide (w.toInt < 0)) w.toInt.natAbs anchor

/-- One element as acc.st writes it (R294). -/
def accBytes (t m : Nat) (x : AccSlot) (w : W64) : List Byte :=
  let v : FVal := match x.anchor with
    | none => .fin false 0 0
    | some a => windowVal a w
  match t with
  | 0 => leBytes 4 (fencode fmtF32 m v)
  | 1 => leBytes 2 (fencode fmtF16 m v)
  | 2 => leBytes 2 (fencode fmtBf16 m v)
  | _ => leBytes 4 (wrapN 32 (ftoInt m (-(2 ^ 31)) (2 ^ 31 - 1) v))

/-- Writes a slot out with one rounding (R439). -/
def execAccSt (t m : BitVec 2) (h a st : BitVec 4) (s : State) : Host.Outcome State Fault Refusal :=
  runWeft (Instr.wf (.accSt t m h a st)) (fun e s _ =>
    match AMap.get? e.wf.handles h.toNat with
    | none => .fault s (weftBad 3#8)
    | some n =>
      let x := AMap.getD e.blk.slots n {}
      let size := if t = 1#2 ∨ t = 2#2 then 2 else 4
      let vs := rowAddrs (e.x a) (e.x st) 32
      match s.weftChecks e.blk e.b (128 * size) size true vs with
      | .error y => WEnv.stop s y
      | .ok _ =>
        let ws := x.windows
        let rows := (vs.zip (List.range 32)).map fun p =>
          (p.1, (((ws.drop (128 * p.2)).take 128).map (accBytes t.toNat m.toNat x)).flatten)
        match State.weftWrite e.b rows s with
        | (.error y, s1) => WEnv.stop s1 y
        | (.ok _, s1) => .ok s1) s

/-- Takes a slot if the handle has none; the slot loses its anchor and flags. -/
def execAccZero (h : BitVec 4) (s : State) : Host.Outcome State Fault Refusal :=
  runWeft (Instr.wf (.accZero h)) (fun e s _ =>
    match e.slotFor h with
    | none => .fault s { code := fcAccFull }
    | some (n, _) => .ok (s.putSlot e.b h n {})) s

/-- Releases a handle's slot. -/
def State.relSlot (s : State) (b h : Nat) : State :=
  match s.block? b with
  | none => s
  | some k =>
    match k.weft with
    | none => s
    | some y =>
      match AMap.get? y.handles h with
      | none => s
      | some n =>
        (s.updBlock b fun k => { k with slots := AMap.erase k.slots n }).updWeft b fun y =>
          { y with handles := AMap.erase y.handles h }

def execAccRel (h : BitVec 4) (s : State) : Host.Outcome State Fault Refusal :=
  runWeft (Instr.wf (.accRel h)) (fun e s _ => .ok (s.relSlot e.b h.toNat)) s

/-! ## Meeting points (R311, R312, R442, R443) -/

/-- A release of the sequencer covers the reads of every array step before it, so it waits for them (R238, R248). -/
def WEnv.reading (e : WEnv) : Bool := e.wf.mmas.any fun m => !m.2.isEmpty

/-- The sequencer arrives at a shed, once its bit of the current phase is clear. -/
def execWshedArrive (n : BitVec 4) (s : State) : Host.Outcome State Fault Refusal :=
  runWeft (Instr.wf (.wshedArrive n)) (fun e s _ =>
    let x := e.blk.shed n.toNat
    if !x.weft then .fault s (weftBad 5#8)
    else if x.weftArrived then .park s (.shedArrive n.toNat x.k.toNat)
    else if e.reading then .park s .ready
    else .ok (s.updBlock e.b fun k =>
      { k with sheds := AMap.modify k.sheds n.toNat fun x => { x with weftArrived := true } }.settleSheds)) s

/-- Whether the sequencer still waits for a phase. -/
def weftStill (p : Park) (n : Nat) (x : Shed) : Bool :=
  match p with
  | .shedWait m k => m == n && k == x.k.toNat
  | _ => x.weftArrived

/-- The sequencer waits for the phase at which it has arrived. -/
def execWshedWait (n : BitVec 4) (s : State) : Host.Outcome State Fault Refusal :=
  runWeft (Instr.wf (.wshedWait n)) (fun e s _ =>
    let x := e.blk.shed n.toNat
    if !x.weft then .fault s (weftBad 5#8)
    else if weftStill e.wf.park n.toNat x then .park s (.shedWait n.toNat x.k.toNat)
    else .ok s) s

/-- Key of the sequencer's pointer among a bobbin's consumer pointers: no warp has this number. -/
def weftPtr : Nat := 255

/-- A bobbin that the sequencer consumes. -/
def WEnv.bob (e : WEnv) (n : Nat) : Option Bobbin :=
  match e.blk.bob? n with
  | some x => if x.weft then some x else none
  | none => none

/-- Waits for the slot at the sequencer's pointer to be filled. -/
def execWbobAwait (n : BitVec 3) (s : State) : Host.Outcome State Fault Refusal :=
  runWeft (Instr.wf (.wbobAwait n)) (fun e s _ =>
    match e.bob n.toNat with
    | none => .fault s (weftBad 4#8)
    | some x =>
      let y := x.slot (AMap.getD x.ptr weftPtr 0)
      if y.st != .filled then .park s .bobAwait
      else if y.err then .fault s { code := y.status }
      else .ok s) s

/-- Releases that slot, and the pointer moves on. -/
def execWbobRel (n : BitVec 3) (s : State) : Host.Outcome State Fault Refusal :=
  runWeft (Instr.wf (.wbobRel n)) (fun e s _ =>
    match e.bob n.toNat with
    | none => .fault s (weftBad 4#8)
    | some x =>
      let i := AMap.getD x.ptr weftPtr 0
      if (x.slot i).st != .filled then .fault s (weftBad 4#8)
      else if e.reading then .park s .ready
      else .ok (s.updBlock e.b fun k => k.updBob n.toNat fun x =>
        { x.release i with ptr := AMap.set x.ptr weftPtr ((i + 1) % x.nslot) })) s

/-! ## Addresses and control (R444 to R446) -/

def WEnv.setX (e : WEnv) (s : State) (d : BitVec 4) (v : W64) : State :=
  s.updWeft e.b fun y => { y with x := y.x.set d.toNat v }

/-- xD = xA + imm. -/
def execXaddImm (d a : BitVec 4) (i : BitVec 18) (s : State) : Host.Outcome State Fault Refusal :=
  runWeft (Instr.wf (.xaddImm d a i)) (fun e s _ =>
    .ok (e.setX s d (BitVec.ofNat 64 (wrapN 64 ((e.x a).toNat + sext 18 i.toNat))))) s

/-- xD = xA + xB × 2^sh. -/
def execXaddShift (d a b sh : BitVec 4) (s : State) : Host.Outcome State Fault Refusal :=
  runWeft (Instr.wf (.xaddShift d a b sh)) (fun e s _ =>
    .ok (e.setX s d (BitVec.ofNat 64 ((e.x a).toNat + (e.x b).toNat * 2 ^ sh.toNat)))) s

/-- Starts, restarts or skips a counted loop of `c` passes (R445). -/
def WEnv.loop (e : WEnv) (k : BitVec 3) (c : W32) (dist : BitVec 10) (s : State) (l : FetchLine) : WEff :=
  let stop := targetOf e.wf.pc dist.toNat
  match s.targetFault e.blk.core e.blk.world e.blk.ctx 1 stop with
  | (some f, s1) => .fault s1 f
  | (none, s1) =>
    let after (r : Except W64 W64) (s : State) : WEff :=
      match r with
      | .ok pc => .jump s pc
      | .error pc => .bad s pc
    if c = 0#32 then
      match s1.fetchLine e.blk.core e.blk.world e.blk.ctx stop with
      | (.error f, s2) => .fault s2 f
      | (.ok le, s2) =>
        after (continuation le stop 1) (s2.updWeft e.b fun y =>
          { y with w := y.w.set k.toNat { y.w.getD k.toNat {} with count := 0#32 } })
    else
      let first := linkOf l e.wf.pc 1
      after (continuation l e.wf.pc 1) (s1.updWeft e.b fun y =>
        { y with w := y.w.set k.toNat { count := c, first := first, stop := stop, age := y.starts + 1 }
                 starts := y.starts + 1 })

/-- A counted loop with an immediate count. -/
def execWloop (k : BitVec 3) (n : BitVec 12) (d : BitVec 10) (s : State) : Host.Outcome State Fault Refusal :=
  runWeft (Instr.wf (.wloop k n d)) (fun e s l => e.loop k (BitVec.ofNat 32 (n.toNat + 1)) d s l) s

/-- A counted loop whose count is in a register. -/
def execWloopReg (k : BitVec 3) (x : BitVec 4) (d : BitVec 10) (s : State) : Host.Outcome State Fault Refusal :=
  runWeft (Instr.wf (.wloopReg k x d)) (fun e s l => e.loop k (BitVec.ofNat 32 (e.x x).toNat) d s l) s

/-- Continues at a label. -/
def execWjump (o : BitVec 26) (s : State) : Host.Outcome State Fault Refusal :=
  runWeft (Instr.wf (.wjump o)) (fun e s _ =>
    let pc := targetOf e.wf.pc (sext 26 o.toNat)
    match s.targetFault e.blk.core e.blk.world e.blk.ctx 1 pc with
    | (some f, s1) => .fault s1 f
    | (none, s1) => .jump s1 pc) s

/-- Ends the weft stream: every slot is released, and a sticky word that is not zero is reported (R303, R441). -/
def execWend (s : State) : Host.Outcome State Fault Refusal :=
  runWeft true (fun e s _ =>
    let s1 := (List.range 16).foldl (fun s h => s.relSlot e.b h) s
    let s2 := s1.updWeft e.b fun y => { y with ended := true, park := .ready }
    let st := wflagsOf e.blk
    .done (if st = 0 then s2
      else s2.pushReport e.blk.world
        (s2.ringRecord e.blk 2 fcBadWeight (BitVec.ofNat 8 st) 255 0 e.wf.pc 0#64 0#32))) s

end Sys2Proof.Machine
end

