-- ==== Sys2Proof/Machine/Pages.lean ====
section
/-! DEFINITION. Pages: free frames, mapping a page (R48, R209, R213), migrating one (R81 to R83), sealing out and
unsealing (R84), and the service of a fault (R203, R209, R210). -/

namespace Sys2Proof.Machine

/-! ## Leaf entries (R213) -/

/-- A local 64 KiB page. -/
structure Leaf where
  trec : Nat
  paddr : Nat
  wr : Bool
  ex : Bool
  mrun : Nat
deriving DecidableEq, Repr

def Leaf.entry (l : Leaf) : BitVec 128 :=
  BitVec.ofNat 128 (l.trec * 2 ^ 48 + l.paddr + (if l.wr then 2 ^ 9 else 0) + (if l.ex then 2 ^ 8 else 0) + 2 + l.mrun * 2 ^ 64)

def sealedEntry (l : Leaf) (seq : Nat) : BitVec 128 :=
  BitVec.ofNat 128 (l.trec * 2 ^ 48 + (if l.wr then 2 ^ 9 else 0) + (if l.ex then 2 ^ 8 else 0) + 2 ^ 6 + 2 +
    seq % 2 ^ 40 * 2 ^ 64)

def Leaf.ofEntry (e : BitVec 128) : Leaf :=
  let w0 := e.toNat % 2 ^ 64
  { trec := bits w0 63 48, paddr := bits w0 39 13 * 2 ^ 13, wr := w0.testBit 9, ex := w0.testBit 8
    mrun := bits (e.toNat / 2 ^ 64) 39 11 * 2 ^ 11 }

/-- Writes an entry at the last level, with the tables above it (R212). -/
def putEntry (pt : AMap (BitVec 128)) (va : Nat) (e : BitVec 128) : AMap (BitVec 128) :=
  let table (pt : AMap (BitVec 128)) (l : Nat) : AMap (BitVec 128) :=
    if AMap.getD pt (ptKey l va) 0#128 = 0#128 then AMap.set pt (ptKey l va) 1#128 else pt
  AMap.set (table (table (table pt 1) 2) 3) (ptKey 4 va) e

namespace State

/-- The local 64 KiB leaf of an address, not migrating, sealed or remote. -/
def leafOf (s : State) (w c va : Nat) : Option Leaf :=
  match s.ctx? w c with
  | none => none
  | some x => match walk x.pt va with
    | .leaf _ 4 e => if (e.toNat % 2 ^ 64).testBit 5 || (e.toNat % 2 ^ 64).testBit 7 then none else some (Leaf.ofEntry e)
    | _ => none

/-- The class of a page's record. -/
def classOf (s : State) (w c trec : Nat) : Nat :=
  match (if trec = 0 then none else s.record? w c trec) with
  | none => 0
  | some r => r.fixc

/-- Block `i` of a page. -/
def pageBlock (s : State) (w c va : Nat) (l : Leaf) (i : Nat) : BAcc :=
  let k := s.classOf w c l.trec
  let loc : BlkRef :=
    if k = 0 then { key := 2 * (l.paddr / 256 + i), base := l.paddr + 256 * i, metaAt := l.paddr / 256 + i }
    else { key := 2 * (l.mrun / 8 + i) + 1, fixc := k, base := l.paddr + i * k * 32, metaAt := l.mrun + 8 * i }
  ⟨w, c, l.trec, BitVec.ofNat 64 (va / 65536 * 65536 + 256 * i), loc⟩

def pageBlocks (s : State) (w c va : Nat) (l : Leaf) : List BAcc := (List.range 256).map fun i => s.pageBlock w c va l i

def setEntry (s : State) (w c va : Nat) (e : BitVec 128) : State :=
  (s.updCtx w c fun x => { x with pt := putEntry x.pt va e }).dropTranslations w c

/-! ## Frames -/

/-- Bytes of a page's data frame (R48). -/
def frameBytes (fixc : Nat) : Nat := if fixc = 0 then 65536 else fixc * 8192

/-- Frames and metadata runs in use, those behind private pages among them (R203): address and length. -/
def usedFrames (s : State) : List (Nat × Nat) :=
  (s.blocks.flatMap fun b => b.2.privPages.map fun p => (p.2, 65536)) ++ s.worlds.flatMap fun w => w.2.ctxs.flatMap fun c => c.2.pt.flatMap fun p =>
    let w0 := p.2.toNat % 2 ^ 64
    if bits w0 1 0 != 2 || w0.testBit 5 || w0.testBit 6 then []
    else
      let l := Leaf.ofEntry p.2
      let k := s.classOf w.1 c.1 l.trec
      let n := if bits w0 3 2 = 0 then frameBytes k else if bits w0 3 2 = 1 then 2 ^ 21 else 2 ^ 30
      (l.paddr, n) :: (if k = 0 then [] else [(l.mrun, 2048)])

/-- Physical memory of the package: sixteen stacks of 48 GiB. [DEDUCED 10] -/
def physBytes : Nat := 16 * 48 * 2 ^ 30

def frameFree (used : List (Nat × Nat)) (a n : Nat) : Bool :=
  decide (a + n ≤ physBytes) && !inMetaArea a && !inMetaArea (a + n - 1) &&
    used.all fun u => decide (a + n ≤ u.1 ∨ u.1 + u.2 ≤ a)

/-- The lowest free frame of `n` bytes, aligned; address 0 is left out. [DESIGN CHOICE 28] -/
def newFrame (s : State) (extra : List (Nat × Nat)) (n align : Nat) : Option Nat :=
  let used := s.usedFrames ++ extra
  let bases := (List.range 16).map fun i => (i * 48 * 2 ^ 30, align)
  let starts := (used ++ bases).map fun u => roundUp (u.1 + u.2) align
  (starts.insertionSort fun a b => a ≤ b).find? fun a => frameFree used a n

/-- The lowest-numbered valid record whose region contains a page, or 0. [DESIGN CHOICE 28] -/
def recordAt (s : State) (w c va : Nat) : Nat :=
  match s.ctx? w c with
  | none => 0
  | some x =>
    ((x.recs.find? fun r => r.1 != 0 && r.2.valid && decide (r.2.base ≤ va ∧ va < r.2.base + 65536 * r.2.pages)).map
      Prod.fst).getD 0

/-- Empties a page's blocks: all zero, with nothing left in the panel caches. -/
def clearBlock (s : State) (a : BAcc) : State :=
  let s1 := { s with lines := s.lines.filter fun l => l.2.loc != a.loc }
  s1.setMeta a.loc {}

/-- A frame for a page under record `trec`. -/
def frameFor (s : State) (w c trec : Nat) : Option (Nat × Nat) :=
  let k := s.classOf w c trec
  match s.newFrame [] (frameBytes k) (if k = 0 then 65536 else 8192) with
  | none => none
  | some p =>
    if k = 0 then some (p, 0)
    else (s.newFrame [(p, frameBytes k)] 2048 2048).map fun m => (p, m)

/-- Maps a zero-filled page (R209). None: no frame is left. [DESIGN CHOICE 28] -/
def backPage (s : State) (w c va : Nat) : Option State :=
  let trec := s.recordAt w c va
  match s.frameFor w c trec with
  | none => none
  | some (p, m) =>
    let l : Leaf := { trec := trec, paddr := p, wr := true, ex := true, mrun := m }
    let s1 := (s.pageBlocks w c va l).foldl clearBlock s
    some ((s1.setEntry w c va l.entry).updWorld w fun x => { x with backed := x.backed + 1 })

/-! ## Migration of a page (R81 to R83) -/

/-- Copies one block: none where it does not fit its new class. [DESIGN CHOICE 28] -/
def moveBlock (s : State) (src dst : BAcc) : Option State :=
  let m := s.metaOf src.loc
  let v := s.view src
  let d := s.view dst
  let same := m.scount = 0 || m.scount = 8 || (s.slotOf src.world m.pair).phash == (s.slotOf dst.world d.pair).phash
  if m.poison then
    -- poison travels with the block (R22); its sectors are not decoded
    if same && m.scount ≤ 8 && (dst.loc.fixc = 0 || m.scount ≤ dst.loc.fixc) then
      some (s.putBlock dst d m.scount (if m.scount = 0 || m.scount = 8 then 0 else d.pair) (s.plainSectors src v) true)
    else if dst.loc.fixc = 0 then some (s.putBlock dst d 8 0 (List.replicate 256 0#8) true)
    else some (s.putBlock dst d 0 0 [] true)
  else
    if same then
      match s.checkBlock src v with
      | .good =>
        if dst.loc.fixc != 0 && decide (dst.loc.fixc < m.scount) then none
        else some (s.putBlock dst d m.scount (if m.scount = 0 || m.scount = 8 then 0 else d.pair) (s.plainSectors src v) false)
      | .integrity => some ((s.integrityFail src).putBlock dst d 0 0 [] true)
      | .metaError => some ((s.countMetaError src.loc).putBlock dst d 0 0 [] true)
      | .poisoned => some (s.putBlock dst d 0 0 [] true)
    else
      match s.portRead src with
      | (.error _, s1) => some (s1.putBlock dst d 0 0 [] true)
      | (.ok bs, s1) =>
        match s1.portWrite dst bs with
        | (true, s2) => some s2
        | (false, _) => none

/-- Copies a page's blocks in order; their transfers are migration traffic (R19). [DESIGN CHOICE 32] -/
def moveBlocks : List (BAcc × BAcc) → State → Option State
  | [], s => some s
  | (a, b) :: r, s =>
    match s.moveBlock a b with
    | none => none
    | some s1 =>
      moveBlocks r ((s1.portRequest a.loc (min 8 (s.metaOf a.loc).scount) 3).portRequest b.loc (min 8 (s1.metaOf b.loc).scount) 3)

/-- Frees a page's blocks; REFS falls with them (R82). -/
def freeBlocks (s : State) (as : List BAcc) : State :=
  as.foldl (fun s a => (s.moveRefs a.world (s.metaOf a.loc) {}).clearBlock a) s

/-- Whether a shuttle copy still has a piece to move on a page. [DEDUCED 29] -/
def copyOnPage (s : State) (w c va : Nat) : Bool :=
  let meets (a n : Nat) : Bool := decide (a < (va / 65536 + 1) * 65536 ∧ va / 65536 * 65536 < a + n)
  s.copies.any fun p => p.2.world == w && p.2.ctx == c &&
    ((p.2.pieces.any fun q => meets q.1.toNat 4 || meets q.2.toNat 4) ||
      p.2.bulk.any fun q => meets q.1.toNat q.2.2 || meets q.2.1.toNat q.2.2)

end State

/-- Moves a page to the frame that the event names; the writes that arrive meanwhile stall until it is done, so the move is
one step. A block that does not fit leaves the page where it was (R83). [DESIGN CHOICE 28] -/
def execPageMigration (s : State) : Host.Outcome State Fault Refusal :=
  let w := s.args.world
  let c := s.args.ctx
  let va := s.args.addr.toNat / 65536 * 65536
  match s.leafOf w c va with
  | none => .next s
  | some l =>
    let n : Leaf := { trec := s.args.page.trec, paddr := s.args.page.paddr / 8192 * 8192, wr := l.wr, ex := l.ex
                      mrun := s.args.page.mrun / 2048 * 2048 }
    let k := s.classOf w c n.trec
    let free := State.frameFree s.usedFrames n.paddr (State.frameBytes k) && (k != 0 || n.paddr % 65536 == 0) &&
      (k == 0 || (State.frameFree s.usedFrames n.mrun 2048 &&
        decide (n.mrun + 2048 ≤ n.paddr ∨ n.paddr + State.frameBytes k ≤ n.mrun)))
    let legal := n.trec = 0 || (match s.record? w c n.trec with
      | some r => r.valid && !r.rmt && decide (r.base ≤ va ∧ va < r.base + 65536 * r.pages)
      | none => false)
    if !free || !legal then .next s
    else
      let src := s.pageBlocks w c va l
      let dst := s.pageBlocks w c va n
      let s1 := src.foldl (fun s a => s.evictBlock a.loc) s
      let s2 := dst.foldl State.clearBlock s1
      match State.moveBlocks (src.zip dst) s2 with
      | none => .next (s1.logEvent w (BitVec.ofNat 64 va) 2#8 0#8)
      | some s3 => .next ((s3.freeBlocks src).setEntry w c va n.entry)

/-! ## Sealing (R84) -/

namespace State

/-- The world's migration key, once it is derived. -/
def migKeyOf (s : State) (w : Nat) : Option (List Byte) :=
  match s.world? w with
  | none => none
  | some x => if x.migKey then x.keys.map fun g => keyBytes (Config.migKey g) else none

def sealNonce (w seq : Nat) : List Byte := leBytes 12 (w % 256 * 2 ^ 88 + seq % 2 ^ 64)

/-- Header and metadata of a sealed page. [DEDUCED 29] -/
def sealHeader (s : State) (w c va seq : Nat) (l : Leaf) : List Byte :=
  let (tid, ver) := match (if l.trec = 0 then none else s.record? w c l.trec) with
    | some r => (r.tid, r.version)
    | none => (0, 0)
  leBytes 8 seq ++ leBytes 8 (va / 65536) ++ leBytes 8 (l.paddr / 65536) ++ leBytes 4 tid ++
    leBytes 2 ver ++ List.replicate 34 0#8 ++
    ((s.pageBlocks w c va l).map fun a => leBytes 8 (s.metaOf a.loc).toWord.toNat).flatten

/-- The key of a page among those that are out. -/
def sealKey (c va : Nat) : Nat := c * 2 ^ 48 + va / 65536

/-- A whole page decoded, with the places of the blocks that cannot be read, which go out as zeros (R22, R84). [DEDUCED 29] -/
def plainPage : List (BAcc × Nat) → State → List Byte × List Nat × State
  | [], s => ([], [], s)
  | (a, i) :: as, s =>
    match s.portRead a with
    | (.error _, s1) =>
      let (rest, bad, s2) := plainPage as s1
      (List.replicate 256 0#8 ++ rest, i :: bad, s2)
    | (.ok bs, s1) =>
      let (rest, bad, s2) := plainPage as s1
      (bs ++ rest, bad, s2)

/-- A page is out: its entry says so, and firmware holds its bytes and which of its blocks were poisoned. -/
def putOut (s : State) (w c va : Nat) (l : Leaf) (seq : Nat) (page : List Byte) (bad : List Nat) : State :=
  let key := sealKey c va
  (s.setEntry w c va (sealedEntry l seq)).updWorld w fun x =>
    { x with sealedPages := AMap.set x.sealedPages key page, sealHome := AMap.erase x.sealHome key
             outPoison := if bad.isEmpty then AMap.erase x.outPoison key else AMap.set x.outPoison key bad
             backed := x.backed - 1 }

end State

/-- A page leaves the device: sealed where the world is confidential, else as plaintext. None: it cannot. [DEDUCED 29] -/
def State.sealPage (s : State) (w c va : Nat) : Option State :=
  match s.leafOf w c va, s.world? w with
  | some l, some x =>
    if s.copyOnPage w c va then none
    else
      let as := s.pageBlocks w c va l
      let s1 := as.foldl (fun s a => s.evictBlock a.loc) s
      if x.conf then
        match s1.migKeyOf w with
        | none => none
        | some key =>
          let seq := x.sealSeq.toNat
          let aad := s1.sealHeader w c va seq l
          let data := (as.map fun a => s1.sectors a.loc (s1.metaOf a.loc).scount).flatten
          let (ct, tag) := gcmSeal key (State.sealNonce w seq) aad data
          let s2 := as.foldl State.clearBlock s1
          some ((s2.putOut w c va l seq (aad ++ ct ++ tag) []).updWorld w fun x => { x with sealSeq := x.sealSeq + 1#64 })
      else
        let (page, bad, s2) := State.plainPage (as.zip (List.range 256)) s1
        some ((s2.freeBlocks as).putOut w c va l 0 page bad)
  | _, _ => none

def execSealOut (s : State) : Host.Outcome State Fault Refusal :=
  match s.sealPage s.args.world s.args.ctx (s.args.addr.toNat / 65536 * 65536) with
  | some s1 => .next s1
  | none => .next s

namespace State

/-- The version of a block in a sealed page: the header's, or the next one where a sweep had passed the block (R79, R84).
[DEDUCED 29] -/
def sealedVersion (v : Nat) (m : MetaEnt) : Nat := if m.enc && m.verlo == (v + 1) % 4 then (v + 1) % 2 ^ 16 else v

/-- Stores one block of an unsealed page under its record as it now stands and the world's own keys; `v` is how it was sealed
and `g0` the generation of the keys it was encrypted under then (R69, R84). [DEDUCED 29] [DESIGN CHOICE 60] -/
def unsealBlock (s : State) (g0 : Nat) (a : BAcc) (v : RView) (m : MetaEnt) (sectors : List Byte) : State :=
  let put (m : MetaEnt) (bs : List Byte) (s : State) : State :=
    { s.setMeta a.loc m with mem := s.mem.writeBytes a.loc.base bs }
  if m.scount = 0 || m.poison || !m.enc then put m sectors s
  else
    match s.keyGen a.world with
    | none => put { m with poison := true } sectors s
    | some g =>
      if m.icode != icodeOf g0 v m sectors then put { m with poison := true } sectors (s.countMacErr a.world)
      else
        let d := s.view a
        let ct := cipherBlock false g d (cipherBlock true g0 v sectors)
        let m1 := { m with verlo := d.version % 4 }
        put { m1 with icode := icodeOf g d m1 ct } ct s

/-- Stores the blocks of an unsealed page in order. -/
def unsealBlocks (g0 : Nat) (hdr : BAcc → Nat → RView) (metas : List MetaEnt) : List (BAcc × Nat) → List Byte → State → State
  | [], _, s => s
  | (a, i) :: r, data, s =>
    let m := metas.getD i {}
    let n := 32 * m.scount
    unsealBlocks g0 hdr metas r (data.drop n) (s.unsealBlock g0 a (hdr a i) m (data.take n))

/-- Opens a sealed page into a fresh frame: none where its tag or sequence fails, or no frame is left (R84). [DEDUCED 29] -/
def unsealPage (s : State) (w c va : Nat) : Option State :=
  match s.ctx? w c, s.world? w with
  | some x, some wd =>
    let e := AMap.getD x.pt (ptKey 4 va) 0#128
    let old := Leaf.ofEntry e
    let trec := old.trec
    match AMap.get? wd.sealedPages (sealKey c va), s.frameFor w c trec with
    | some page, some (p, mr) =>
      let l : Leaf := { trec := trec, paddr := p, wr := old.wr, ex := old.ex, mrun := mr }
      let as := s.pageBlocks w c va l
      let done (s : State) : State :=
        (s.setEntry w c va l.entry).updWorld w fun x =>
          { x with backed := x.backed + 1, sealedPages := AMap.erase x.sealedPages (sealKey c va)
                   outPoison := AMap.erase x.outPoison (sealKey c va) }
      if wd.conf then
        let aad := page.take 2112
        let seq := leWord page 0 8
        -- the world and the keys that the page was sealed under: another device's where it came with a migration
        let home := (AMap.get? wd.sealHome (sealKey c va)).or (wd.keys.map fun g => (w, g))
        match (if wd.migKey then home else none) with
        | none => none
        | some (w0, g0) =>
          match gcmOpen (keyBytes (Config.migKey g0)) (sealNonce w0 seq) aad ((page.drop 2112).take (page.length - 2128)) (page.drop (page.length - 16)) with
          | none => none
          | some data =>
            if seq % 2 ^ 40 != bits (e.toNat / 2 ^ 64) 39 0 then none
            else
              let metas := (List.range 256).map fun i => MetaEnt.ofWord (BitVec.ofNat 64 (leWord aad (64 + 8 * i) 8))
              let hdr (a : BAcc) (i : Nat) : RView :=
                { s.view a with tid := leWord aad 24 4, version := sealedVersion (leWord aad 28 2) (metas.getD i {})
                                blk := if trec = 0 then leWord aad 16 8 * 256 + i else (s.view a).blk }
              some (done (unsealBlocks g0 hdr metas (as.zip (List.range 256)) data (as.foldl clearBlock s)))
      else
        let bad := AMap.getD wd.outPoison (sealKey c va) []
        some (done (((as.zip (List.range 256)).foldl (fun s a =>
          if bad.contains a.2 then s.poisonBlock a.1.loc
          else match s.portWrite a.1 ((page.drop (256 * a.2)).take 256) with
          | (true, s1) => s1
          | (false, s1) => s1.poisonBlock a.1.loc) (as.foldl clearBlock s))))
    | _, _ => none
  | _, _ => none

/-! ## Service of faults (R203, R209) -/

/-- What a service comes to. -/
inductive Service where
  | ok (s : State)
  /-- The fault is final after all, with its code (R84, R105). -/
  | final (s : State) (code : BitVec 8)

/-- Services one global address of a context. [DEDUCED 27] -/
def serviceGlobal (s : State) (w c va : Nat) : Service :=
  match s.ctx? w c with
  | none => .final s fcPageFault
  | some x =>
    match walk x.pt va with
    | .absent =>
      if (s.rangeOf w va).isNone || !s.mayBack w then .final s fcPageFault
      else match s.backPage w c (va / 65536 * 65536) with
        | some s1 => .ok s1
        | none => .final s fcPageFault
    | .isSealed _ =>
      if !s.mayBack w || (s.frameFor w c (Leaf.ofEntry (AMap.getD x.pt (ptKey 4 va) 0#128)).trec).isNone then .final s fcPageFault
      else match s.unsealPage w c (va / 65536 * 65536) with
        | some s1 => .ok s1
        | none => .final s fcMacFail
    | _ => .ok s

/-- Services one recorded fault of a block. The frame behind a private page is zero-filled and is mapped for world 0 alone
(R203); its bytes stand in the block. [DESIGN CHOICE 26] -/
def serviceOne (s : State) (b : Nat) (r : FaultRec) : Service :=
  match s.block? b with
  | none => .ok s
  | some k =>
    let va := r.addr.toNat
    if inPrivWin va then
      let p := privPage r.wid (va - privBase) 0
      if AMap.has k.privPages p then .ok s
      else if !s.mayBack k.world then .final s fcPageFault
      else match s.newFrame [] 65536 65536 with
        | none => .final s fcPageFault
        | some a => .ok ((s.updBlock b fun k => { k with privPages := AMap.set k.privPages p a }).updWorld k.world fun x =>
          { x with backed := x.backed + 1 })
    else s.serviceGlobal k.world k.ctx va

/-- Services the recorded page faults in order; the first that is final after all ends it. [DEDUCED 27] -/
def serviceAll (b : Nat) : List FaultRec → State → State × Option FaultRec
  | [], s => (s, none)
  | r :: rs, s =>
    if r.code != fcPageFault then serviceAll b rs s
    else match s.serviceOne b r with
      | .ok s1 => serviceAll b rs s1
      | .final s1 c => (s1, some { r with code := c })

end State

end Sys2Proof.Machine
end

