-- ==== Sys2Proof/Machine/Place.lean ====
section
/-! DEFINITION. The dispatchers and the share controller: where a block fits (R148, R224), placing one (R147, R163, R188,
R301), its end (R143, R169), reservations (R149), node timers (R172), and who owns a quarter (R150 to R153). -/

namespace Sys2Proof.Machine

/-! ## Who demands quarters (R151, R152) -/

namespace State

/-- When the oldest ready block of a world became ready. -/
def readySince (s : State) (w : Nat) : Option Nat :=
  let launches := (s.launches.filter fun p => p.2.world == w && decide (p.2.next < p.2.total) && !p.2.cancelled).map fun p => p.2.taken
  let nodes := (s.readyBlks.filter fun r => (match AMap.get? s.graphs r.graph with
    | some g => g.world == w
    | none => false)).map ReadyBlk.since
  let saved := (s.blocks.filter fun p => p.2.world == w && p.2.run == .saved && p.2.service.isNone).map fun p => p.2.savedAt
  (launches ++ nodes ++ saved).min?

def worldSet (s : State) (w : Nat) : List Nat :=
  match s.world? w with
  | some x => x.quarterSet
  | none => []

def demanding (s : State) (w : Nat) : Bool := (s.readySince w).isSome

/-- The age of the oldest ready block in ns, and the latency bound in ns. -/
def urgency (s : State) (w : Nat) : Nat × Nat :=
  match s.readySince w, s.world? w with
  | some t, some x => (s.now - t, x.lambda * 1000)
  | _, _ => (0, 1)

/-- a/b > c/d. -/
def moreUrgent (x y : Nat × Nat) : Bool := decide (x.1 * y.2 > y.1 * x.2)

def deficitOf (s : State) (w : Nat) : Int :=
  match s.world? w with
  | some x => x.deficit
  | none => 0

/-- The world that an empty quarter goes to, if any demands it (R152). [DESIGN CHOICE 47] -/
def nextOwner (s : State) (q : Nat) : Option Nat :=
  let ws := (s.worlds.map Prod.fst).filter fun w => s.demanding w && (s.worldSet w).contains q
  let urgent := ws.filter fun w => decide (2 * (s.urgency w).1 > (s.urgency w).2)
  if urgent.isEmpty then
    ws.foldl (fun b w => match b with
      | none => some w
      | some v => if s.deficitOf w > s.deficitOf v then some w else b) none
  else
    urgent.foldl (fun b w => match b with
      | none => some w
      | some v => if moreUrgent (s.urgency w) (s.urgency v) then some w else b) none

/-- Where an empty quarter goes: a demanding world, its owner while that holds it in its set and
is not in ERROR, or world 0 (R150, R152, R153). [DESIGN CHOICE 47] -/
def ownerAfter (s : State) (q : Nat) : Nat :=
  match s.nextOwner q with
  | some w => w
  | none =>
    let o := (s.quarter q).owner
    let live := match s.world? o with
      | some x => x.tstate != .error
      | none => false
    if live && (s.worldSet o).contains q then o else 0

/-- A quarter that has just emptied: the controller decides its owner, and a change begins its handover. -/
def emptied (s : State) (q : Nat) : State :=
  if !(s.quarter q).resident.isEmpty then s
  else
    let w := s.ownerAfter q
    s.updQuarter q fun x => { x with draining := none, handover := if w = x.owner then none else some w }

end State

/-- A change of owner completes: translations invalidated, world fence set, partition cleared. An empty quarter of a world
that does not hold it in its set changes owner here too. -/
def execQuarterHandover (s : State) : Host.Outcome State Fault Refusal :=
  let q := s.args.unit
  let x := s.quarter q
  if !x.resident.isEmpty then .next s
  else
    let target : Option Nat := match x.handover with
      | some w => some w
      | none => if (s.worldSet x.owner).contains q then none else
          (let w := s.ownerAfter q; if w = x.owner then none else some w)
    match target with
    | none => .next s
    | some w =>
      let s1 := s.updWorld x.owner fun y => { y with held := y.held + (s.now - max x.since s.epochAt) }
      .next (s1.updQuarter q fun x =>
        { x with owner := w, handover := none, draining := none, tcache := [], segWorld := w, part := none, since := s.now })

/-! ## The share controller (R151, R153) -/

/-- Entitlement of an epoch in 1/1,024 quarter-ns. -/
def World.entitled (x : World) : Int := (x.sigma * x.quarterSet.length * 100000 : Nat)

def clampInt (lo hi x : Int) : Int := max lo (min hi x)

namespace State

def ownedBy (s : State) (w : Nat) : List Nat := (s.quarters.filter fun p => p.2.owner == w).map Prod.fst

/-- The deficit of every world at an epoch's end. -/
def updateDeficits (s : State) : State :=
  { s with worlds := s.worlds.map fun p =>
      let now := (s.quarters.filter fun q => q.2.owner == p.1).foldl (fun a q => a + (s.now - max q.2.since s.epochAt)) p.2.held
      let d := p.2.deficit + p.2.entitled - 1024 * (now : Int)
      (p.1, { p.2 with deficit := clampInt (-p.2.entitled) p.2.entitled d, held := 0 }) }

def residentWarps (s : State) (q : Nat) : Nat :=
  (s.quarter q).resident.foldl (fun a b => a + (match s.block? b with
    | some k => (k.warps.filter fun x => quarterOf k x.1 == q).length
    | none => 0)) 0

def holdsHalted (s : State) (q : Nat) : Bool := (s.quarter q).resident.any fun b => match s.block? b with
  | some k => (match k.run with
    | .halted => true
    | .broken _ => true
    | .saving => true
    | _ => false)
  | none => false

/-- The better quarter to drain: the owner with the lowest deficit, then the fewest resident warps, then the lowest
number. Quarters of world 0 come before all others. -/
def drainBefore (s : State) (a b : Nat) : Bool :=
  let oa := (s.quarter a).owner
  let ob := (s.quarter b).owner
  if oa = 0 ∧ ob ≠ 0 then true
  else if ob = 0 ∧ oa ≠ 0 then false
  else if s.deficitOf oa ≠ s.deficitOf ob then decide (s.deficitOf oa < s.deficitOf ob)
  else if s.residentWarps a ≠ s.residentWarps b then decide (s.residentWarps a < s.residentWarps b)
  else decide (a < b)

/-- Marks one quarter draining for a world that is owed service. [DESIGN CHOICE 47] -/
def markDraining (s : State) (w : Nat) : State :=
  match s.world? w with
  | none => s
  | some x =>
    let owed := (x.sigma * x.quarterSet.length + 1023) / 1024
    if !s.demanding w || decide (x.deficit ≤ 0) || decide ((s.ownedBy w).length ≥ owed) ||
        s.quarters.any (fun q => q.2.draining == some w) then s
    else
      let cs := x.quarterSet.filter fun q =>
        (s.quarter q).owner != w && (s.quarter q).draining.isNone && (s.quarter q).handover.isNone && !s.holdsHalted q
      match cs with
      | [] => s
      | c :: r =>
        let q := r.foldl (fun b q => if s.drainBefore q b then q else b) c
        (s.updQuarter q fun y => { y with draining := some w, drainAt := s.now }).emptied q

end State

/-- An epoch of the controller passes. [DESIGN CHOICE 3] -/
def execShareEpoch (s : State) : Host.Outcome State Fault Refusal :=
  if s.now < s.epochAt + 100000 then .next s
  else
    let s1 := s.updateDeficits
    let s2 := { s1 with epochAt := s.now }
    .next ((s2.worlds.map Prod.fst).foldl State.markDraining s2)

/-- A pre-emption request with cause PREEMPT; a flag that is already raised stays (R220). -/
def State.askPreempt (s : State) (b : Nat) : State :=
  s.updBlock b fun k => { k with preempt := k.preempt <|> some (.preempt, s.cycles) }

/-- The drain limit passes with blocks still resident (R153). [DESIGN CHOICE 3] -/
def execDrainLimitExpiry (s : State) : Host.Outcome State Fault Refusal :=
  let q := s.args.unit
  let x := s.quarter q
  match x.draining with
  | none => .next s
  | some w =>
    let lam := match s.world? w with
      | some y => y.lambda
      | none => 0
    if s.now < x.drainAt + min (s.drainLimit * 1000) (lam * 500) then .next s
    else .next (x.resident.foldl State.askPreempt s)

/-! ## Where a block fits (R148, R224) -/

/-- What a block needs of its quarters. -/
structure Need where
  world : Nat
  nq : Nat
  part : Nat
  scratch : Nat
  weft : Bool
  quotas : List Nat
deriving DecidableEq, Repr

/-- Bytes of the `i`-th quarter's share of a scratchpad (R145, R197). -/
def shareBytes (len nq i : Nat) : Nat :=
  let sh := len / (64 * nq) * 64
  if i + 1 = nq then len - sh * (nq - 1) else sh

def nibble (part i : Nat) : Nat := bits part (4 * i + 3) (4 * i)

/-- A lane as placement sees it: unreserved registers and free slots. -/
structure LaneRoom where
  free : Nat
  slots : List Nat
deriving DecidableEq, Repr

/-- Where a warp goes: lane and slot. -/
structure Seat where
  quarter : Nat
  lane : Nat
  slot : Nat
deriving DecidableEq, Repr

/-- The lane with the most unreserved registers among those with a free slot, the lowest-numbered of equals. [DESIGN CHOICE 47] -/
def bestLane : List (Nat × LaneRoom) → Option (Nat × LaneRoom)
  | [] => none
  | p :: r =>
    match bestLane r with
    | none => if p.2.slots.isEmpty then none else some p
    | some b => if !p.2.slots.isEmpty && decide (b.2.free ≤ p.2.free) then some p else some b

/-- Seats warps with the quotas `qs` from warp number `w` on. [DESIGN CHOICE 47] -/
def seatWarps (quarters : List Nat) : Nat → List Nat → List (List LaneRoom) → Option (List Seat)
  | _, [], _ => some []
  | w, q :: qs, rooms =>
    let i := w % quarters.length
    let lanes := rooms.getD i []
    match bestLane ((List.range lanes.length).zip lanes) with
    | none => none
    | some (l, r) =>
      if r.free < q then none
      else
        let r1 : LaneRoom := { free := r.free - q, slots := r.slots.tail }
        match seatWarps quarters (w + 1) qs (rooms.set i (lanes.set l r1)) with
        | none => none
        | some ss => some ({ quarter := quarters.getD i 0, lane := l, slot := r.slots.headD 0 } :: ss)

def emptyRooms : List LaneRoom := List.replicate 112 { free := 64, slots := [0, 1, 2, 3] }

namespace State

/-- The lanes of a quarter. A lane with a quota request waiting takes no new warp (R185). [DEDUCED 45] -/
def roomsOf (s : State) (q : Nat) : List LaneRoom :=
  (List.range 112).map fun l =>
    let ws := s.laneWarps q l
    if (AMap.getD (s.quarter q).quotaQ l []).isEmpty then
      { free := s.laneFree q l, slots := (List.range 4).filter fun i => !ws.any fun x => x.2.2.slot == i }
    else { free := 0, slots := [] }

/-- Scratchpad bytes of a segment that resident blocks hold, in 4 KiB pieces. -/
def segmentUsed (s : State) (q : Nat) : Nat :=
  (s.quarter q).resident.foldl (fun a b => a + (match s.block? b with
    | some k => roundUp (shareBytes k.scratchLen k.nq (k.quarters.idxOf q)) 4096
    | none => 0)) 0

/-- The generation that the next block on a quarter takes (R188). -/
def nextGen (s : State) (q : Nat) : Nat := (s.quarter q).gen % 16383 + 1

/-- The first value of a half waits until that half has been scrubbed (R193). -/
def genReady (s : State) (q : Nat) : Bool :=
  let g := s.nextGen q
  let x := s.quarter q
  if g = 8192 then x.clean == some true
  else if g = 1 then x.gen == 0 || x.clean == some false
  else true

/-- Whether quarter `q` may be the `i`-th of a block. -/
def quarterFits (s : State) (n : Need) (i q : Nat) : Bool :=
  let x := s.quarter q
  x.owner == n.world && (s.worldSet n.world).contains q && x.draining.isNone && x.handover.isNone && s.genReady q &&
    (x.resident.isEmpty || x.part == some (nibble n.part i)) &&
    (!n.weft || !x.resident.any fun b => match s.block? b with
      | some k => k.weft.isSome
      | none => false) &&
    decide (s.segmentUsed q + roundUp (shareBytes n.scratch n.nq i) 4096 ≤ 65536 * nibble n.part i)

/-- The seats of a block on given quarters, in its order. [DESIGN CHOICE 47] -/
def fitOn (s : State) (n : Need) (qs : List Nat) : Option (List Seat) :=
  if ((List.range n.nq).zip qs).all fun p => s.quarterFits n p.1 p.2 then seatWarps qs 0 n.quotas (qs.map s.roomsOf)
  else none

/-- The first choice of quarters of a core, rising, that a block fits on. [DESIGN CHOICE 47] -/
def fitCore (s : State) (n : Need) (core : Nat) : Option (List Nat × List Seat) :=
  (((List.range 4).map (4 * core + ·)).sublists.filter fun l => l.length == n.nq).findSome? fun qs =>
    (s.fitOn n qs).map fun ss => (qs, ss)

end State

/-! ## A block's start (R147, R163, R301, R311) -/

def LDesc.need (d : LDesc) (world : Nat) : Need where
  world := world
  nq := d.nq
  part := d.part
  scratch := d.scratch * 4096
  weft := d.weft
  quotas := List.replicate d.pwarps d.pquota ++ List.replicate d.cwarps d.cquota

/-- Whether the warps of a descriptor fit an empty core (R146). -/
def LDesc.seatable (d : LDesc) : Bool :=
  (seatWarps (List.range d.nq) 0 (d.need 0).quotas (List.replicate d.nq emptyRooms)).isSome

def newWarp (d : LDesc) (param : W64) (gen w : Nat) (seat : Seat) (quota : Nat) : Warp :=
  let prod := decide (w < d.pwarps)
  { active := [(0, { pc := if prod then d.pentry else d.centry })]
    sregs := [(1, BitVec.ofNat 32 param.toNat)], stags := [(1, gen)]
    quota := quota, baseQuota := quota
    quarter := seat.quarter, lane := seat.lane, slot := seat.slot
    shuttle := d.pwarps == 0 || prod }

/-- Where a block comes from. -/
structure Origin where
  ctx : Nat
  launch : Option Nat := none
  graph : Option Nat := none
  node : Nat := 0
  bid : Nat
  group : List Nat := []
  depth : Nat := 0
  param : W64
deriving DecidableEq, Repr

def newBlock (s : State) (w : Nat) (d : LDesc) (o : Origin) (qs : List Nat) (seats : List Seat) : Block :=
  let gens := qs.map s.nextGen
  let quotas := (d.need w).quotas
  let n := quotas.length
  let weft : Weft := { pc := d.wentry, x := List.replicate 8 0#64 ++ [o.param, BitVec.ofNat 64 o.bid] ++ List.replicate 6 0#64 }
  let warps := ((List.range n).zip (seats.zip quotas)).map fun p =>
    (p.1, newWarp d o.param (gens.getD (p.1 % d.nq) 0) p.1 p.2.1 p.2.2)
  let sheds := (List.range 16).map fun i => (i, ({ first := 0, num := n, weft := d.weft } : Shed))
  { world := w, ctx := o.ctx, launch := o.launch, graph := o.graph, node := o.node, bid := BitVec.ofNat 32 o.bid
    reccount := o.group.length, recdepth := o.depth, group := o.group, param := o.param
    nq := d.nq, quarters := qs, gens := gens
    strict := d.strict && s.feature w 4, determ := d.determ && s.feature w 5, saveFault := d.saveFault && s.feature w 8
    part := d.part, scratchLen := d.scratch * 4096
    warps := warps, weft := if d.weft then some weft else none, sheds := sheds }

namespace State

/-- A block takes its quarters: generations advance, partitions are set (R188, R196). -/
def takeQuarters (s : State) (b : Nat) (part : Nat) (qs : List Nat) : State :=
  ((List.range qs.length).zip qs).foldl (fun s p => s.updQuarter p.2 fun x =>
    { x with gen := x.gen % 16383 + 1, resident := x.resident ++ [b], part := some (nibble part p.1) }) s

/-- The sequencer's parameter words (R301). A page that a service can back is backed for it; another fault is final. [DEDUCED 20] -/
def loadParams (s : State) (b : Nat) : State :=
  match s.block? b with
  | none => s
  | some k =>
    if k.weft.isNone then s
    else
      let try1 := s.devRead k.world k.ctx k.param 64
      let r := match try1.1 with
        | .error (.fault c a) =>
          if c = fcPageFault then
            match try1.2.serviceGlobal k.world k.ctx a.toNat with
            | .ok s1 => s1.devRead k.world k.ctx k.param 64
            | .final s1 _ => (try1.1, s1)
          else try1
        | _ => try1
      match r with
      | (.ok bs, s1) => s1.updWeft b fun y =>
          { y with x := ((List.range 8).map fun i => BitVec.ofNat 64 (leWord bs (8 * i) 8)) ++ y.x.drop 8 }
      | (.error (.fault c a), s1) => s1.weftFault b k.param { code := c, addr := a }
      | (.error .stall, s1) => s1

def startBlock (s : State) (w : Nat) (d : LDesc) (o : Origin) (qs : List Nat) (seats : List Seat) : State :=
  let b := AMap.fresh s.blocks
  let k := newBlock s w d o qs seats
  (({ s with blocks := AMap.set s.blocks b k }).takeQuarters b d.part qs).loadParams b

/-- A world past its quiesce limit places and resumes no block (R117). [DEDUCED 53] -/
def placing (s : State) (w : Nat) : Bool :=
  match s.world? w with
  | some x => !x.quiesceOver
  | none => true

/-- Whether a panel's reservations admit launch `i` on a core (R149). -/
def coreOpen (s : State) (core : Nat) (i : Option Nat) : Bool :=
  match (s.quarter (4 * core)).reserved with
  | none => true
  | some r => some r == i

def panelOk (d : LDesc) (own core : Nat) : Bool :=
  let p := core / 64
  if d.panels = 0 then p == own else d.panels.testBit p

/-- Whether the dispatcher of a core's panel can place the next block of launch `i` on that core. -/
def placeable (s : State) (i : Nat) (x : Launch) (core : Nat) : Bool :=
  decide (x.next < x.total) && s.placing x.world && panelOk x.desc x.panel core && s.coreOpen core (some i) &&
    (s.fitCore (x.desc.need x.world) core).isSome

/-- Whether an older launch can place its next block on a core of the panel: it goes first (R149). -/
def olderFits (s : State) (i core : Nat) : Bool :=
  (s.launches.filter fun p => decide (p.1 < i)).any fun p =>
    (List.range 64).any fun c => s.placeable p.1 p.2 (64 * (core / 64) + c)

end State

/-- The dispatcher of a core's panel places the next block of a launch, or of a graph (`id` 0, graph `n`). -/
def execBlockPlace (s : State) : Host.Outcome State Fault Refusal :=
  let core := s.args.unit
  if 512 ≤ core then .next s
  else if s.args.id = 0 then
    match s.readyBlks.find? fun r => r.graph == s.args.n, AMap.get? s.graphs s.args.n with
    | some r, some g =>
      let nd := AMap.getD g.nodes r.node {}
      if !s.placing g.world || !State.panelOk nd.desc g.panel core || !s.coreOpen core none then .next s
      else
        match s.fitCore (nd.desc.need g.world) core with
        | none => .next s
        | some (qs, seats) =>
          let s1 := { s with readyBlks := s.readyBlks.erase r }
          .next (s1.startBlock g.world nd.desc { ctx := g.ctx, graph := some r.graph, node := r.node, bid := r.bid
                                                 group := r.slots, depth := r.depth, param := g.param } qs seats)
    | _, _ => .next s
  else
    match AMap.get? s.launches s.args.id with
    | none => .next s
    | some x =>
      if !s.placeable s.args.id x core || s.olderFits s.args.id core then .next s
      else
        match s.fitCore (x.desc.need x.world) core with
        | none => .next s
        | some (qs, seats) =>
          let s1 := { s with
            launches := AMap.set s.launches s.args.id { x with next := x.next + 1, since := s.now }
            quarters := AMap.mapVals s.quarters fun q =>
              { q with reserved := if q.reserved == some s.args.id then none else q.reserved } }
          .next (s1.startBlock x.world x.desc { ctx := x.ctx, launch := some s.args.id, bid := x.next, param := x.param }
            qs seats)

/-! ## Reservations (R149) -/

namespace State

/-- Cores of a panel that could hold a launch's block once their warps leave: with their resident warps. -/
def reservable (s : State) (x : Launch) (panel : Nat) : List (Nat × Nat) :=
  ((List.range 64).map (64 * panel + ·)).filterMap fun core =>
    let qs := ((List.range 4).map (4 * core + ·)).filter fun q =>
      (s.quarter q).owner == x.world && (s.quarter q).draining.isNone
    let fits := (qs.sublists.filter fun l => l.length == x.desc.nq).any fun l =>
      ((List.range l.length).zip l).all fun p =>
        (s.quarter p.2).resident.isEmpty || (s.quarter p.2).part == some (nibble x.desc.part p.1)
    if fits then some (core, ((List.range 4).map fun i => s.residentWarps (4 * core + i)).sum) else none

end State

/-- The oldest launch of a panel has waited 50 us with its next block, and one core is kept for it. [DESIGN CHOICE 47] -/
def execPlacementReservation (s : State) : Host.Outcome State Fault Refusal :=
  let panel := s.args.unit
  if 8 ≤ panel || s.quarters.any fun q => q.1 / 256 == panel && q.2.reserved.isSome then .next s
  else
    match s.launches.find? fun p => decide (p.2.next < p.2.total) && !p.2.cancelled && State.panelOk p.2.desc p.2.panel (64 * panel) with
    | none => .next s
    | some (i, x) =>
      if s.now < x.since + 50000 then .next s
      else
        match s.reservable x panel with
        | [] => .next s
        | c :: r =>
          let core := (r.foldl (fun b c => if c.2 < b.2 then c else b) c).1
          .next ((List.range 4).foldl (fun s j => s.updQuarter (4 * core + j) fun q => { q with reserved := some i }) s)

/-! ## A block's end (R143, R164, R169, R211) -/

namespace State

/-- Takes a block off its quarters. -/
def leaveQuarters (s : State) (b : Nat) (qs : List Nat) : State :=
  qs.foldl (fun s q => (s.updQuarter q fun x =>
    { x with resident := x.resident.filter fun i => i != b
             quotaQ := (AMap.mapVals x.quotaQ fun l => l.filter fun r => r.1 != b).filter fun l => !l.2.isEmpty }).emptied q) s

/-- Whether a block has nothing left to do, its accesses of other devices answered (R143, R242, R303). -/
def blockDone (s : State) (b : Nat) (k : Block) : Bool :=
  s.copies.all (fun c => c.2.block != b) && (k.warps.all fun x => x.2.loads.isEmpty && x.2.accs.isEmpty) &&
    (k.run == .ended || ((k.warps.all fun x => x.2.ended) && (match k.weft with
      | some y => y.ended && y.mmas.isEmpty
      | none => true)))

/-- What an ended block gives back to its launch or graph. -/
def countEnd (s : State) (k : Block) : State :=
  match k.launch, k.graph with
  | some i, _ => ({ s with launches := AMap.modify s.launches i fun x => { x with left := x.left - 1 } }).settleLaunch i
  | none, some i =>
    -- DISCARDED changes only where a slot was left uncommitted (R170)
    (s.graphNote i (if k.uncommitted.isEmpty then [] else [0, 4]) fun g =>
      let g1 := (g.freeSlots k.node k.group).discardMany k.uncommitted
      { g1 with count := g1.count - 1 }).settleGraph i
  | none, none => s

end State

/-- A block ends: its reports, its counter, its quarters and everything on them. [DEDUCED 37] -/
def execBlockEnd (s : State) : Host.Outcome State Fault Refusal :=
  let b := s.args.block
  match s.block? b with
  | none => .next s
  | some k =>
    if !s.blockDone b k then .next s
    else
      let s1 := if k.run = .ended then s else s.scratchReports k
      let s2 := { s1 with blocks := AMap.erase s1.blocks b }.updWorld k.world fun x =>
        { x with backed := x.backed - k.privPages.length }
      .next ((s2.leaveQuarters b k.quarters).countEnd k)

/-! ## Node timers (R172, R173) -/

/-- A node's timer runs out: full groups first, then what is left as one partial group. -/
def execNodeTimerExpiry (s : State) : Host.Outcome State Fault Refusal :=
  let gi := s.args.id
  let n := s.args.n
  match AMap.get? s.graphs gi with
  | none => .next s
  | some g =>
    let d := AMap.getD g.nodes n {}
    match d.started with
    | none => .next s
    | some t =>
      if s.now < t + d.timer * 1000 then .next s
      else
        let s1 := s.launchGroups gi n
        match AMap.get? s1.graphs gi with
        | none => .next s1
        | some g1 =>
          let left := (AMap.getD g1.nodes n {}).pend.length
          if left = 0 then .next s1
          else
            let (r, g2) := g1.takeGroup gi n left s.now
            .next ({ s1 with readyBlks := s1.readyBlks ++ [r] }.graphNote gi [2, 3] fun _ =>
              { g2 with partials := g2.partials + 1 })

end Sys2Proof.Machine
end

