-- ==== Sys2Proof/Machine/Fault.lean ====
section
/-! DEFINITION. What happens to a block outside its instructions: quota requests (R185, R186), joins (R181), generation
scrubs (R193), the service of a fault (R209, R210), saving and resuming (R220 to R226), parked traps and breakpoints
(R219, R375), and a debugger's writes (R195). -/

namespace Sys2Proof.Machine

/-! ## Quota requests (R185, R186) -/

/-- A warp none of whose splits can go on before a quota request of its own is granted. [DEDUCED 45] -/
def Warp.quotaBlocked (x : Warp) : Bool :=
  let grow (q : Split) : Bool := match q.park with
    | .quota _ => true
    | _ => false
  x.active.any (fun p => grow p.2) && x.active.all fun p => grow p.2

namespace State

/-- Whether a queued request still has its parked split. -/
def requestLive (s : State) (r : Nat × Nat × Nat × Nat) : Bool :=
  match s.block? r.1, s.split? r.1 r.2.1 r.2.2.1 with
  | some k, some q => k.resident && q.park == .quota r.2.2.2
  | _, _ => false

def setQuotaQ (s : State) (q lane : Nat) (l : List (Nat × Nat × Nat × Nat)) : State :=
  s.updQuarter q fun x =>
    { x with quotaQ := if l.isEmpty then AMap.erase x.quotaQ lane else AMap.set x.quotaQ lane l }

/-- Every warp resident on a lane is blocked; a warp that has ended holds nothing back. [DEDUCED 45] -/
def laneBlocked (s : State) (q lane : Nat) : Bool :=
  (s.laneWarps q lane).all fun x => x.2.2.ended || x.2.2.quotaBlocked

end State

/-- The oldest request of a lane is granted, or faults where nothing can free a register for it. [DEDUCED 45] -/
def execQuotaGrant (s : State) : Host.Outcome State Fault Refusal :=
  let q := s.args.unit
  let lane := s.args.n
  match (AMap.getD (s.quarter q).quotaQ lane []).filter s.requestLive with
  | [] => .next (s.setQuotaQ q lane [])
  | r :: rs =>
    let s1 := s.setQuotaQ q lane rs
    if r.2.2.2 ≤ s.laneFree q lane then
      .next ((s1.updWarp r.1 r.2.1 fun x => { x with quota := x.quota + r.2.2.2 }).completeParked r.1 r.2.1 r.2.2.1)
    else if s.laneBlocked q lane then
      match s.split? r.1 r.2.1 r.2.2.1 with
      | some p => .next ((s1.updSplit r.1 r.2.1 r.2.2.1 fun p => { p with park := .ready }).laneFault r.1 r.2.1 p.pc
          { code := fcQuotaDeadlock })
      | none => .next s1
    else .next s

/-! ## Joins -/

/-- A split in the join form of waitf goes on when no other active split of its warp can come to it. [DEDUCED 45] -/
def execJoinRelease (s : State) : Host.Outcome State Fault Refusal :=
  let b := s.args.block
  let w := s.args.warp
  let sp := s.args.split
  match s.block? b, s.warp? b w with
  | some k, some x => if k.run == .running && x.joinFree sp then .next (s.completeParked b w sp) else .next s
  | _, _ => .next s

/-! ## Generation scrubs (R193) -/

/-- Whether a generation lies in the upper half (true) or in the lower half. -/
def inHalf (upper : Bool) (g : Nat) : Bool := if upper then decide (8192 ≤ g) else decide (1 ≤ g ∧ g < 8192)

namespace State

/-- The resident blocks of a quarter whose generation on it lies in a half. -/
def blocksInHalf (s : State) (q : Nat) (upper : Bool) : List Nat :=
  (s.quarter q).resident.filter fun b => match s.block? b with
    | some k => inHalf upper (k.gens.getD (k.quarters.idxOf q) 0)
    | none => false

/-- The half that a quarter's counter calls to be scrubbed. -/
def scrubDue (s : State) (q : Nat) : Option Bool :=
  let x := s.quarter q
  if x.scrub.isSome then none
  else if 7168 ≤ x.gen ∧ x.gen < 8192 ∧ x.clean ≠ some true then some true
  else if 15360 ≤ x.gen ∧ x.clean ≠ some false then some false
  else none

end State

/-- A scrub begins: blocks that still carry the old generations are asked to stop. A tag of a block that is gone reads as
null already, so nothing else changes. [DEDUCED 45] -/
def execGenerationScrub (s : State) : Host.Outcome State Fault Refusal :=
  let q := s.args.unit
  match s.scrubDue q with
  | none => .next s
  | some up =>
    .next ((s.blocksInHalf q up).foldl State.askPreempt (s.updQuarter q fun x => { x with scrub := some up }))

/-- The scrub ends once no resident block carries a generation of its half. -/
def execGenerationScrubEnd (s : State) : Host.Outcome State Fault Refusal :=
  let q := s.args.unit
  match (s.quarter q).scrub with
  | none => .next s
  | some up =>
    if (s.blocksInHalf q up).isEmpty then .next (s.updQuarter q fun x => { x with scrub := none, clean := some up }) else .next s

/-! ## The service of a fault (R209, R210) -/

/-- Firmware has serviced the recorded faults, or found one that is final after all. -/
def execFaultServiceDone (s : State) : Host.Outcome State Fault Refusal :=
  let b := s.args.block
  match s.block? b with
  | none => .next s
  | some k =>
    if k.service.isNone || k.run == .ended then .next s
    else
      match State.serviceAll b k.faults s with
      | (s1, some f) => .next (s1.terminate b f true)
      | (s1, none) =>
        match k.run with
        | .halted =>
          if k.warps.any (fun p => p.2.due && !(warpFoci b p.1 p.2).isEmpty) then .next s else .next (s1.resumeBlock b)
        | _ => .next (s1.updBlock b fun k => { k with service := none, faults := k.faults.filter fun f => f.code != fcPageFault })

def State.stallNs (s : State) (w : Nat) : Nat :=
  match s.world? w with
  | some x => x.stall * 1000
  | none => 40000

/-- A service outlasts the world's stall limit: the block is saved. [DESIGN CHOICE 3] -/
def execStallLimitExpiry (s : State) : Host.Outcome State Fault Refusal :=
  let b := s.args.block
  match s.block? b with
  | none => .next s
  | some k =>
    if k.run == .halted && k.service.isSome && decide (k.haltedAt + s.stallNs k.world < s.now) then
      .next (s.updBlock b fun k => { k with run := .saving })
    else .next s

/-! ## Translations (R215) -/

/-- A walk ends, and a quarter keeps the translation it found. -/
def execTranslationWalk (s : State) : Host.Outcome State Fault Refusal :=
  let w := s.args.world
  let c := s.args.ctx
  let va := s.args.addr.toNat
  match s.ctx? w c with
  | none => .next s
  | some x =>
    if (s.quarter s.args.unit).owner != w then .next s
    else
      match walk x.pt va with
      | .leaf _ l _ =>
        let t := (w, c, va / pageBytes l, leafSize l)
        .next (s.updQuarter s.args.unit fun q =>
          { q with tcache := ((q.tcache.filter fun u => u != t) ++ [t]).drop (q.tcache.length - 255) })
      | _ => .next s

/-! ## Forced saves (R220 to R222) -/


/-- The deadline of a request passes, in arithmetic cycles at the clock that ran: a cancel terminates the block, and any other cause saves it. [DESIGN CHOICE 3] [DEDUCED 44] [DESIGN CHOICE 48] -/
def execForcedSave (s : State) : Host.Outcome State Fault Refusal :=
  let b := s.args.block
  match s.block? b with
  | none => .next s
  | some k =>
    match k.preempt with
    | none => .next s
    | some (cause, t) =>
      let n := match s.world? k.world with
        | some x => x.deadline
        | none => 20000
      -- the device counts its arithmetic cycles in 1/1000
      if s.cycles < t + n * 1000 then .next s
      else
        match k.run with
        | .saving => .next s
        | .saved => .next s
        | .ended => .next s
        | _ =>
          match cause with
          | .cancel => .next (s.terminate b { code := fcCancel, wid := 0, pc := 0#64, addr := 0#64 } false)
          | .preempt => .next (s.beginSave b 256)

/-! ## Saving (R194, R222, R223) -/

/-- Whether a warp may still complete the instruction it had in progress. [DESIGN CHOICE 19] -/
def Warp.skidLeft (b w : Nat) (x : Warp) : Bool := x.due && !(warpFoci b w x).isEmpty

namespace State

/-- Whether a block that is being saved has come to rest. -/
def atRest (s : State) (b : Nat) (k : Block) : Bool :=
  (k.warps.all fun p => p.2.loads.isEmpty && p.2.accs.isEmpty && !p.2.skidLeft b p.1) && s.copies.all fun c => c.2.block != b

end State

/-- A warp at its save: an open region rolls back with PREEMPT, and a quota request leaves its queue to be issued again. [DEDUCED 44] -/
def Warp.forSave (gen : Nat) (x : Warp) : Warp :=
  let y := if x.region.isSome then (x.rollWhole gen (abortWord 6 0)).dropEmpty else x
  let again (q : Split) : Split := match q.park with
    | .quota _ => { q with park := .ready }
    | _ => q
  { y with active := AMap.mapVals y.active again, pending := y.pending.map again, due := false, skid := 0 }

/-- The context image is complete and the quarters are free; a block that was cancelled meanwhile has ended. [DEDUCED 44] -/
def execSaveComplete (s : State) : Host.Outcome State Fault Refusal :=
  let b := s.args.block
  match s.block? b with
  | none => .next s
  | some k =>
    if k.run != .saving || !s.atRest b k then .next s
    else
      let cancelled := match k.preempt with
        | some (.cancel, _) => true
        | _ => false
      let weft := k.weft.map fun y => { y with mmas := AMap.mapVals y.mmas fun l => l.map fun m => { m with tile := [] } }
      let s1 := s.updBlock b fun k =>
        { k with
          warps := k.warps.map fun p => (p.1, p.2.forSave (k.genOf p.1))
          weft := weft
          preempt := none
          run := if cancelled then .ended else .saved
          savedAt := s.now }
      .next ((s1.leaveQuarters b k.quarters).updBlock b fun k => { k with quarters := [] })

/-! ## Parked traps and breakpoints (R219, R375) -/

namespace State

/-- The split of a block that is parked with a token. -/
def tokenHolder (k : Block) (tok : BitVec 32) : Option (Nat × Nat × Split) :=
  k.warps.findSome? fun p => (p.2.active.find? fun q => q.2.park == .trap tok).map fun q => (p.1, q.1, q.2)

/-- Releases or terminates by a token that the block holds; `act` is 1 or 2. [DEDUCED 25] -/
def actOnToken (s : State) (b : Nat) (tok : BitVec 32) (act : Nat) : State :=
  match s.block? b with
  | none => s
  | some k =>
    match tokenHolder k tok with
    | none => s
    | some (w, sp, q) =>
      let isBrk := k.brk == some tok || k.faults.any fun f => f.code == fcBrk && f.wid == w && f.pc == q.pc
      if act = 2 then
        s.terminate b { code := if isBrk then fcBrk else fcTrap, wid := w, pc := q.pc, addr := 0#64 } true
      else
        let s1 := if k.brk == some tok then
            (let s2 := s.updBlock b fun k => { k with brk := none }
             match k.run with
             | .broken _ => s2.resumeBlock b
             | _ => s2)
          else s
        s1.completeParked b w sp

/-- A write of a token: at once, or when a saved block resumes. -/
def writeToken (s : State) (w : Nat) (tok : BitVec 32) (act : Nat) : State :=
  match s.blocks.find? fun p => p.2.world == w && p.2.run != .ended && (tokenHolder p.2 tok).isSome with
  | none => s
  | some (b, k) =>
    if k.run == .saved then s.updBlock b fun k => { k with acts := k.acts ++ [(tok, act)] }
    else s.actOnToken b tok act

end State

/-! ## Resuming (R224, R225) -/

/-- A block with its new quarters: every granule saved as its own takes the new generation, and every other is null. [DEDUCED 44] -/
def Block.regenerate (k : Block) (gens quarters : List Nat) (seats : List Seat) : Block :=
  let tag (i old : Nat) : Nat := if old = k.gens.getD i 0 && old != 0 then gens.getD i 0 else 0
  let warp (p : Nat × Warp) : Nat × Warp :=
    let i := p.1 % k.nq
    let seat := seats.getD p.1 { quarter := 0, lane := 0, slot := 0 }
    (p.1, { p.2 with
      phys := AMap.mapVals p.2.phys fun r => { r with tags := r.tags.map (tag i), pend := [false, false, false, false] }
      stags := AMap.mapVals p.2.stags (tag i)
      quarter := seat.quarter, lane := seat.lane, slot := seat.slot })
  { k with
    gens := gens, quarters := quarters
    warps := k.warps.map warp
    scratchTags := k.scratchTags.map fun g => (g.1, tag (k.shareOf (64 * g.1)) g.2)
    slots := k.slots.map fun x => (x.1, { x.2 with tags := x.2.tags.map (tag (x.1 / 16)) })
    pbTags := k.pbTags.map fun g => (g.1, g.2.map (tag (g.1 / 32)))
    run := match k.brk with
      | some t => .broken t
      | none => .running
    faults := k.faults.filter fun f => f.code == fcBrk }

def Block.need (k : Block) : Need where
  world := k.world
  nq := k.nq
  part := k.part
  scratch := k.scratchLen
  weft := k.weft.isSome
  quotas := k.warps.map fun p => p.2.quota

namespace State

/-- Among the saved blocks of a launch, the one saved first. -/
def firstSaved (s : State) (b : Nat) (k : Block) : Bool :=
  k.launch.isNone || !s.blocks.any fun p => p.1 != b && p.2.launch == k.launch && p.2.run == .saved && p.2.service.isNone &&
    (decide (p.2.savedAt < k.savedAt) || (p.2.savedAt == k.savedAt && decide (p.1 < b)))

end State

/-- A saved block takes quarters of a core again; what was written to its tokens meanwhile takes effect. [DEDUCED 44] -/
def execBlockResume (s : State) : Host.Outcome State Fault Refusal :=
  let b := s.args.block
  let core := s.args.unit
  match s.block? b with
  | none => .next s
  | some k =>
    if k.run != .saved || k.service.isSome || 512 ≤ core || !s.firstSaved b k || !s.placing k.world ||
        !s.coreOpen core none then .next s
    else
      match s.fitCore k.need core with
      | none => .next s
      | some (qs, seats) =>
        let gens := qs.map s.nextGen
        let s1 := (s.updBlock b fun k => { k.regenerate gens qs seats with acts := [] }).takeQuarters b k.part qs
        .next (k.acts.foldl (fun s a => s.actOnToken b a.1 a.2) s1)

/-! ## A debugger's requests (R96, R111, R112, R195) -/

def World.lockedIn (x : World) : Bool := x.tstate == .locked || x.tstate == .run

/-- Whether the request of a function may be looked at: one with the T bit only on the stream that was bound at lock; a
function in ERROR ignores it like every other (R96, R101 step 5). -/
def World.admits (x : World) (t : HostTag) : Bool :=
  !t.tbit || (x.tstate != .unlocked && t.stream.isSome && t.stream == x.stream)

namespace State

/-- Whether the policy of a world opens feature `n` to a request; one without the T bit needs bit 15 too. [DESIGN CHOICE 46] -/
def policyOpen (s : State) (w n : Nat) (tag : HostTag) : Bool :=
  match s.world? w with
  | some x => x.admits tag && x.popen.getLsbD n && (tag.tbit || x.popen.getLsbD 15)
  | none => false

end State

/-- One thread of a register, in place: its granule becomes the block's and is no longer pending. [DESIGN CHOICE 46] -/
def PhysReg.debugSet (r : PhysReg) (gen t : Nat) (v : W32) : PhysReg :=
  PhysReg.ofGranules fun g =>
    if g = t / 4 then
      (fun u => if u = t then v else if r.tags.getD g 0 == gen && !r.pend.getD g false then r.vals.get u else 0#32, gen, false)
    else (fun u => r.vals.get u, r.tags.getD g 0, r.pend.getD g false)

/-- Data that is still due no longer lands in a granule that a debugger has written. [DESIGN CHOICE 46] -/
def PendLoad.forget (l : PendLoad) (p g : Nat) : PendLoad :=
  let away := ~~~(maskOf fun t => t / 4 == g)
  { l with targets := l.targets.map fun x => if x.1 = p then (x.1, x.2.1 &&& away, x.2.2) else x
           heirs := l.heirs.map fun x => if x.1 = p then (x.1, x.2.1, x.2.2 &&& away) else x }

/-- A debugger's register write: none where mapping the name would pass the quota. [DESIGN CHOICE 46] -/
def Warp.debugReg (x : Warp) (gen n t : Nat) (v : W32) : Option Warp :=
  match AMap.get? x.rmap n with
  | some p =>
    some { x with phys := AMap.modify x.phys p fun r => r.debugSet gen t v
                  loads := AMap.mapVals x.loads fun l => l.forget p (t / 4) }
  | none =>
    if !x.quotaOk [n] then none
    else
      let p := x.newReg
      some { x with rmap := AMap.set x.rmap n p, phys := AMap.set x.phys p (PhysReg.debugSet {} gen t v) }

/-- What a debugger's write does to a halted block: none for a Completer Abort. [DESIGN CHOICE 46] -/
def Block.debug (k : Block) (d : DebugWrite) : Option Block :=
  match d with
  | .reg w n t v =>
    match AMap.get? k.warps w with
    | none => none
    | some x => if 128 ≤ n ∨ 16 ≤ t then none
      else (x.debugReg (k.genOf w) n t v).map fun y => { k with warps := AMap.set k.warps w y }
  | .ureg w n v =>
    match AMap.get? k.warps w with
    | none => none
    | some x => if n = 0 ∨ 64 ≤ n then none
      else some { k with warps := AMap.set k.warps w (x.writeUnis (k.genOf w) (x.region.isSome) n [v]) }
  | .scratch off bs =>
    if k.scratchLen < off + bs.length then none
    else some ((k.scratchWrite off bs).scratchHeal ((List.range bs.length).map (off + ·)))
  | .acc n i j v =>
    match AMap.get? k.slots n with
    | none => none
    | some x => if 32 ≤ i ∨ 128 ≤ j then none
      else
        let e := 128 * i + j
        let gen := k.gens.getD (n / 16) 0
        let tags := if x.tags.isEmpty then List.replicate 512 0 else x.tags
        let ws := if x.win.isEmpty then List.replicate 4096 0#64 else x.win
        -- a granule of another generation is the block's, and zero, first (R191)
        let ws1 := if tags.getD (e / 8) 0 == gen then ws
          else (List.range 8).foldl (fun ws t => ws.set (e / 8 * 8 + t) 0#64) ws
        some { k with slots := AMap.set k.slots n { x with win := ws1.set e v, tags := tags.set (e / 8) gen } }
  | _ => some k

/-- A granule as a debugger reads it: its bytes, its tag and P; zero where it is not the block's (R195). [DESIGN CHOICE 46] -/
def debugGranule (own pend : Bool) (tag : Nat) (bs : List Byte) : List Byte :=
  let zero := List.replicate bs.length 0#8
  (if own && !pend then bs else zero) ++ leBytes 2 (if own then tag else 0) ++ [if own && pend then 1#8 else 0#8]

/-- What a debugger reads of a halted block: none for a Completer Abort (R195, R289, R293). [DESIGN CHOICE 46] -/
def Block.debugRead (k : Block) (d : DebugWrite) : Option (List Byte) :=
  match d with
  | .readReg w n g =>
    match AMap.get? k.warps w with
    | none => none
    | some x =>
      if 128 ≤ n ∨ 4 ≤ g then none
      else
        let r := (x.reg? n).getD {}
        let tag := r.tags.getD g 0
        some (debugGranule ((x.reg? n).isSome && tag == k.genOf w) (r.pend.getD g false) tag
          ((granuleThreads g).flatMap fun t => leBytes 4 (r.vals.get t).toNat))
  | .readUreg w n =>
    match AMap.get? k.warps w with
    | none => none
    | some x =>
      if 64 ≤ n then none
      else
        let tag := AMap.getD x.stags n 0
        some (debugGranule (n != 0 && tag == k.genOf w) false tag (leBytes 4 (AMap.getD x.sregs n 0#32).toNat))
  | .readScratch off =>
    let o := off / 64 * 64
    if k.scratchLen < o + 64 || k.scratchPoisoned o 64 then none
    else some (debugGranule (k.granuleOwn o) false (k.genAt o) (k.scratchRead o 64))
  | .readAcc n g =>
    match AMap.get? k.slots n with
    | none => none
    | some x =>
      if 512 ≤ g then none
      else
        let tag := x.tags.getD g 0
        some (debugGranule (tag == k.gens.getD (n / 16) 0) false tag
          ((List.range 8).flatMap fun t => leBytes 8 (x.win.getD (8 * g + t) 0#64).toNat))
  | .readFlags n =>
    (AMap.get? k.slots n).map fun x =>
      leBytes 2 ((x.anchor.getD 0) % 65536).toNat ++
        [BitVec.ofNat 8 ((if x.anchor.isSome then 4 else 0) + (if x.overflow then 1 else 0) + (if x.inexact then 2 else 0))]
  | .readSticky =>
    k.weft.map fun y => leBytes 4 ((if y.povf then 1 else 0) + (if y.badWeight then 2 else 0))
  | _ => some []

/-- The policy bit that a request needs (R111). -/
def debugFeature : DebugWrite → Nat
  | .readReg _ _ _ => 0
  | .readUreg _ _ => 0
  | .readSticky => 0
  | .reg _ _ _ _ => 1
  | .ureg _ _ _ => 1
  | .readScratch _ => 2
  | .readAcc _ _ => 2
  | .readFlags _ => 2
  | .scratch _ _ => 3
  | .acc _ _ _ _ => 3
  | .readMem _ _ => 4
  | .singleStep => 6
  | .counter _ => 7
  | .trace => 8

/-- A request that names a world and not a halted block. -/
def debugOfWorld : DebugWrite → Bool
  | .readMem _ _ => true
  | .counter _ => true
  | .trace => true
  | _ => false

/-- A debugger's request about a world: its memory, a counter, which reads 0 while it is closed, or the trace, whose
contents no rule gives (R111, R112). [DESIGN CHOICE 46] -/
def State.debugWorld (s : State) (w : Nat) : State :=
  let opened := s.policyOpen w (debugFeature s.args.debug) s.args.tag
  match s.args.debug with
  | .readMem va n =>
    if !opened then s.send .unsupportedRequest
    else
      match s.devRead w s.args.ctx va n with
      | (.ok bs, s1) => s1.send (.success bs)
      | (.error _, s1) => s1.send .completerAbort
  | .counter _ =>
    if !opened then s.send (.success (List.replicate 8 0#8))
    else
      let (v, s1) := s.drawWord
      s1.send (.success (leBytes 8 v.toNat))
  | _ =>
    if !opened then s.send .unsupportedRequest
    else
      let (bs, s1) := s.drawBytes 64
      s1.send (.success bs)

/-- What a debugger asks of a halted block: a write, a read, or one instruction of a warp (R111, R195). [DESIGN CHOICE 46] -/
def State.debugBlock (s : State) (b : Nat) (k : Block) : State :=
  match s.args.debug with
  | .singleStep => (s.updWarp b s.args.warp fun x => { x with due := true }).send (.success [])
  | d =>
    if (match d with
      | .reg _ _ _ _ => true
      | .ureg _ _ _ => true
      | .scratch _ _ => true
      | .acc _ _ _ _ => true
      | _ => false) then
      match k.debug d with
      | none => s.send .completerAbort
      | some k1 => (s.updBlock b fun _ => k1).send (.success [])
    else
      match k.debugRead d with
      | none => s.send .completerAbort
      | some bs => s.send (.success bs)

/-- A debugger's request: of a world, or of a halted block (R96, R111, R112, R195). [DESIGN CHOICE 46] -/
def execDebuggerWrite (s : State) : Host.Outcome State Fault Refusal :=
  let b := s.args.block
  if debugOfWorld s.args.debug then .next (s.debugWorld s.args.world)
  else
    match s.block? b with
    | none => .next (s.send .unsupportedRequest)
    | some k =>
      let halted := match k.run with
        | .halted => true
        | .broken _ => true
        | _ => false
      if !halted || !s.policyOpen k.world (debugFeature s.args.debug) s.args.tag then .next (s.send .unsupportedRequest)
      else .next (s.debugBlock b k)

end Sys2Proof.Machine
end

