-- ==== Sys2Proof/Machine/Phys.lean ====
section
/-! DEFINITION. What the package does of itself: bring-up and power (R23 to R26), the ports' queues (R19, R20), reads and
writes that the ports serve (R44, R46, R51), the end of a heddle run (R28), and the patrol scrubber (R20, R21). -/

namespace Sys2Proof.Machine

/-! ## Bring-up and power -/

/-- The stage that a cause of R26 belongs to. [DEDUCED 68] -/
def stageOf (cause : BitVec 8) : Nat :=
  match cause.toNat with
  | 1 => 1
  | 2 => 2
  | 3 => 4
  | 4 => 5
  | 5 => 3
  | 6 => 3
  | _ => 6

/-- The root of trust accepts the firmware image only if both of its signatures verify (R25). -/
def firmwareOk : Bool :=
  Config.signatureOk (Config.firmware 0) (Config.firmware 1) && Config.signatureOk (Config.firmware 0) (Config.firmware 2)

/-- The cause, if any, for which the stage in progress fails: stage 1 fails exactly when the firmware image is refused, and
what a later stage meets is an input (R25, R26). [DEDUCED 68] -/
def stageFails (stage : Nat) (o : BootOutcome) : Option (BitVec 8) :=
  if stage = 1 then (if firmwareOk then none else some 1#8)
  else match o with
    | .ok => none
    | .failed c => if stageOf c = stage then some c else none

/-- What the end of a stage leaves: every metadata entry 0 after stage 3, the SRAM clear after stage 4, READY at stage 6
(R25). -/
def State.passStage (s : State) : State :=
  let s1 := { s with bootStage := s.bootStage + 1 }
  match s.bootStage with
  | 3 => { s1 with metas := [], fixMetas := [], unref := [] }
  | 4 => { s1 with lines := [], blocks := [] }
  | 6 => { s with bootReady := true, now := 0, epochAt := 0 }
  | _ => s1

/-- The device right after power has come back: at reset but for what lies outside it. [DEDUCED 68] -/
def State.powerCycle (s : State) : State :=
  { State.reset with tick := s.tick, freeCnt := s.freeCnt, inbox := s.inbox, outbox := s.outbox, hostMem := s.hostMem }

/-- Power-on begins stage 1 (also from FAILED or READY, after power has been off); then one stage ends at a time, until READY
or FAILED. [DEDUCED 68] -/
def execPowerOn (s : State) : Host.Outcome State Fault Refusal :=
  if s.bootReady || s.bootFailed then .next { s.powerCycle with bootStage := 1 }
  else if s.bootStage = 0 then .next { s with bootStage := 1 }
  else
    match stageFails s.bootStage s.args.boot with
    | some c => .next { s with bootFailed := true, bootCause := c }
    | none => .next s.passStage

/-! ## Soft errors of SRAM (R21, R22) -/

/-- A soft error in a word of an SRAM: counted in its unit's error log, and beyond correction the word is poisoned. A
register's, a queue table's or another word's poison has no reading that a rule gives. [DESIGN CHOICE 33] -/
def State.upset (s : State) (u : Upset) : State :=
  let old := AMap.getD s.sram u.unit (0, 0)
  let s1 := { s with sram := AMap.set s.sram u.unit (if u.corrected then (old.1 + 1, old.2) else (old.1, old.2 + 1)) }
  if u.corrected then s1
  else
    match u.word with
    | .scratch b w => s1.updBlock b fun k =>
        if k.scratchLen ≤ 8 * w || k.scratchPoison.contains w then k else { k with scratchPoison := k.scratchPoison ++ [w] }
    | .line key w => { s1 with lines := AMap.modify s1.lines key fun l => l.poisonWord (w % 32) }
    | .other => s1

/-- One measurement of the power manager, in watts. The 1 ms below 95 % of the cap is counted afresh after each raise.
[DESIGN CHOICE 7] -/
def execPowerMeasurement (s : State) : Host.Outcome State Fault Refusal :=
  let p := s.args.n
  if s.capW < p then .next { s with clockMHz := max 900 (s.clockMHz - 50), coolUs := 0 }
  else if 100 * p < 95 * s.capW then
    if 1000 ≤ s.coolUs + 10 then .next { s with clockMHz := min 1500 (s.clockMHz + 50), coolUs := 0 }
    else .next { s with coolUs := s.coolUs + 10 }
  else .next { s with coolUs := 0 }

/-! ## The queue of a port (R19) -/

/-- Block times that a class may wait. [DESIGN CHOICE 3] -/
def waitBound (cls : Nat) : Option Nat :=
  match cls with
  | 2 => some 4
  | 3 => some 16
  | 4 => some 64
  | 5 => some 256
  | _ => none

/-- Nanoseconds of one block transfer, as the worked example of R19 counts them. [DESIGN CHOICE 3] -/
def blockTimeNs : Nat := 10

namespace Port

/-- The request at the head of a class has waited as long as R19 lets it. -/
def atBound (p : Port) (now cls : Nat) : Bool :=
  p.bound.contains cls || match p.head cls, waitBound cls with
    | some r, some n => decide (r.since + n * blockTimeNs ≤ now)
    | _, _ => false

/-- The next request: those that have reached their bound in class order, then the lowest class. -/
def next (p : Port) (now : Nat) : Option PortReq :=
  let classes := [1, 2, 3, 4, 5]
  ((classes.filter fun c => p.atBound now c).findSome? p.head) <|> (classes.findSome? p.head)

/-- The wait of a class is counted from the moment its oldest request comes to the head (R19). -/
def newHead (cls now : Nat) : List PortReq → List PortReq
  | [] => []
  | r :: rs => if r.cls = cls then { r with since := now } :: rs else r :: newHead cls now rs

/-- The channel is free: the next request is granted. [DESIGN CHOICE 32] -/
def grant (p : Port) (now : Nat) : Port :=
  match p.next now with
  | none => { p with busy := none }
  | some r =>
    { p with busy := some r, waiting := newHead r.cls now (p.waiting.erase r), bound := p.bound.filter fun c => c != r.cls }

end Port

/-- The head of a class has waited as long as it may: the next transfer is its own. Its wait began when it came to the
head of its class (R19). [DESIGN CHOICE 32] -/
def execPortWaitBound (s : State) : Host.Outcome State Fault Refusal :=
  let c := s.args.n
  let p := AMap.getD s.ports s.args.unit {}
  match p.head c, waitBound c with
  | some r, some n =>
    if s.now < r.since + n * blockTimeNs || p.bound.contains c then .next s
    else .next (s.updPort s.args.unit fun p => { p with bound := p.bound ++ [c] })
  | _, _ => .next s

/-- A transfer ends. [DESIGN CHOICE 32] -/
def execBlockTransferDone (s : State) : Host.Outcome State Fault Refusal :=
  if !AMap.has s.ports s.args.unit then .next s else .next (s.updPort s.args.unit fun p => p.grant s.now)

/-! ## Blocks read and written at the ports -/

namespace State

/-- The block behind an address of a world, for an agent of the device. -/
def blockAt (s : State) (w c : Nat) (va : W64) (k : AccKind) : Option (BAcc × Nat) :=
  if 2 ^ 56 ≤ va.toNat then none
  else match s.resolve w c va.toNat k with
    | .place (.block a off) => some (a, off)
    | _ => none

/-- What the symbol code of a channel reports for a block: beyond correction it is marked poisoned (R21). [DESIGN CHOICE 33] -/
def eccReport (s : State) (l : BlkRef) (e : EccResult) : State :=
  match e with
  | .clean => s
  | .corrected => s.updPort (portOf l) fun p => { p with corrected := p.corrected + 1 }
  | .uncorrectable => (s.poisonBlock l).updPort (portOf l) fun p => { p with uncorrected := p.uncorrected + 1 }

/-- The pair images of a heddle once it has used one: at most eight, the last used first (R29). -/
def holdImage (l : List (Nat × Nat)) (i : Nat × Nat) : List (Nat × Nat) := (i :: l.filter fun j => j != i).take 8

/-- Runs that have been handed to a heddle of a port. -/
def runsAt (s : State) (p : Nat) : Nat := ((s.heddle.toList ++ s.heddles).filter fun r => r.port == p).length

/-- A run goes to a free one of its port's two heddles, else it waits (R28). The heddle loads the image of a pair that it does
not hold (R29). -/
def handRun (s : State) (r : HRun) : State :=
  if 2 ≤ s.runsAt r.port then { s with runq := s.runq ++ [r] }
  else
    let u := if (s.heddle.toList ++ s.heddles).any fun x => x.port == r.port && x.unit == 0 then 1 else 0
    let s1 := s.updPort r.port fun p => { p with images := AMap.set p.images u (holdImage (AMap.getD p.images u []) (r.world, r.slot)) }
    let r1 := { r with unit := u }
    if s1.heddle.isNone then { s1 with heddle := some r1 } else { s1 with heddles := s1.heddles ++ [r1] }

/-- A heddle of a port has become free: the port's waiting run of the lowest class, the oldest first, is handed to it (R28). -/
def handNext (s : State) (p : Nat) : State :=
  match [1, 2, 3, 4, 5].findSome? fun c => s.runq.find? fun r => r.port == p && r.cls == c with
  | none => s
  | some r => if 2 ≤ s.runsAt p then s else { s with runq := s.runq.erase r }.handRun r

/-- Another heddle's run comes to its turn. -/
def swapHeddle (s : State) (k : Nat) : State :=
  match s.heddles[k]? with
  | none => s
  | some r => { s with heddle := some r, heddles := s.heddles.eraseIdx k ++ s.heddle.toList }

/-- The decode of a stored block (R28, R51). [DESIGN CHOICE 31] [DEDUCED 64] -/
def startDecode (s : State) (a : BAcc) : Option HRun :=
  let m := s.metaOf a.loc
  let v := s.view a
  if m.scount = 0 || 8 ≤ m.scount then none
  else match s.checkBlock a v with
    | .good =>
      let sl := s.slotOf a.world m.pair
      let r := HRun.start sl.dec sl.decTab (s.plainSectors a v) 256
      some { r with purpose := .decode, world := a.world, ctx := a.ctx, slot := m.pair, va := a.va, port := portOf a.loc }
    | _ => none

/-- The encode of a dirty line: the write is accepted under the record as it stands now (R28, R33, R44). [DESIGN CHOICE 31]
[DEDUCED 64] -/
def startEncode (s : State) (a : BAcc) (l : Line) : Option HRun :=
  let v := s.view a
  let sl := s.slotOf a.world v.pair
  if !l.dirty || l.poison != 0#32 || (l.data.all fun b => b == 0#8) || !v.codec || sl.st != 1 then none
  else
    let r := HRun.start sl.enc sl.encTab l.data 224
    some { r with purpose := .encode, world := a.world, ctx := a.ctx, slot := v.pair, va := a.va, orig := l.data
                  port := portOf a.loc, cls := 2, view := some v }

/-- Whether some run serves a block of a world already. -/
def runsFor (s : State) (w c : Nat) (va : W64) : Bool :=
  (s.heddle.toList ++ s.heddles ++ s.runq).any fun r => r.world == w && r.ctx == c && r.va == va

/-- The record's view under which an accepted write is stored: its codec, pair and encryption as they stood when it was
accepted (R33), and the version that governs the block now (R79). -/
def keptView (s : State) (a : BAcc) (r : HRun) : RView :=
  match r.view with
  | none => s.view a
  | some v => { s.view a with codec := v.codec, pair := v.pair, encrypt := v.encrypt }

end State

/-- A demand read: the block's line is filled, after a decoder run where it holds an encoding. An all-zero block is read
without its channel (R15, R51), and a line that is there needs no read. -/
def execDemandRead (s : State) : Host.Outcome State Fault Refusal :=
  match s.blockAt s.args.world s.args.ctx s.args.addr .devRead with
  | none => .next s
  | some (a, _) =>
    let s0 := s.sweepUnder a
    if (s0.line? a).isSome || s0.runsFor a.world a.ctx a.va then .next s0
    else if (s0.metaOf a.loc).scount = 0 then .next (s0.fill a).2
    else
      let s1 := s0.eccReport a.loc s.args.ecc
      match s1.startDecode a with
      | some r => .next ((s1.portRequest a.loc (s1.metaOf a.loc).scount 1).handRun r)
      | none => .next (s1.fill a).2

/-- A demand write: the block's line leaves the panel cache, after encoder and decoder runs where its record asks for
them. [DEDUCED 65] -/
def execDemandWrite (s : State) : Host.Outcome State Fault Refusal :=
  match s.blockAt s.args.world s.args.ctx s.args.addr .devRead with
  | none => .next s
  | some (a, _) =>
    match s.line? a with
    | none => .next s
    | some l =>
      let s1 := s.sweepUnder a
      if s1.runsFor a.world a.ctx a.va then .next s1
      else match s1.startEncode a l with
        | some r => .next (s1.handRun r)
        | none => .next (s1.evict (State.lineKey a))

/-- A write of part of a block below the panel caches. -/
def execPartialWriteMerge (s : State) : Host.Outcome State Fault Refusal :=
  match s.blockAt s.args.world s.args.ctx s.args.addr .devWrite with
  | none => .next s
  | some (a, off) =>
    if 256 < off + s.args.bytes.length || s.args.bytes.isEmpty then .next s
    else
      let s0 := s.evictBlock a.loc
      let s1 := s0.portRequest a.loc (min 8 (s0.metaOf a.loc).scount) 2
      .next (s1.portPartial a off s.args.bytes).2

namespace State

/-- A decoder's result fills the line of the block it read. [DEDUCED 64] -/
def decodeDone (s : State) (a : BAcc) (r : HRun) : State :=
  let v := s.view a
  let m := s.metaOf a.loc
  let same := s.checkBlock a v == .good && m.pair == r.slot && m.scount * 32 == r.inp.length && s.plainSectors a v == r.inp &&
    (s.slotOf a.world m.pair).dec == r.code
  if (s.line? a).isSome || !same then s
  else
    let l : Line := { world := a.world, ctx := a.ctx, va := a.va, trec := a.trec, loc := a.loc, data := List.replicate 256 0#8 }
    match r.decOutcome with
    | some d => s.setLine a { l with data := d }
    | none =>
      (s.updSlot a.world m.pair fun x => { x with decErr := sat32 x.decErr }).setLine a
        { l with poison := BitVec.allOnes 32, cause := fcCodecDecode }

/-- Stores a line as its runs decided, under the record as the port saw it when it accepted the write, and drops the line
(R33). -/
def storeLine (s : State) (a : BAcc) (r : HRun) (c : Option (Nat × List Byte)) : State :=
  let s1 := (s.storeAs a (s.keptView a r) r.orig c).2
  { s1 with lines := AMap.erase s1.lines (lineKey a) }.portRequest a.loc (min 8 (s1.metaOf a.loc).scount) 2

/-- An encoder's result is checked by the decoder, or the block is stored raw. [DEDUCED 64] -/
def encodeDone (s : State) (a : BAcc) (r : HRun) : State :=
  match r.encOutcome with
  | .raw counted =>
    (if counted then s.updSlot a.world r.slot fun x => { x with encErr := sat16 x.encErr } else s).storeLine a r none
  | .sectors _ enc =>
    let sl := s.slotOf a.world r.slot
    let c := HRun.start sl.dec sl.decTab enc 256
    s.handRun { c with purpose := .check, world := r.world, ctx := r.ctx, slot := r.slot, va := r.va, orig := r.orig
                       port := r.port, cls := r.cls, view := r.view }

/-- The round-trip check decides how the block is stored. [DEDUCED 64] -/
def checkDone (s : State) (a : BAcc) (r : HRun) : State :=
  if r.decOutcome = some r.orig then s.storeLine a r (some (r.inp.length / 32, r.inp))
  else (s.countMismatch a.world r.slot).storeLine a r none

end State

namespace State

/-- The result of a run goes to the access that it serves. A run whose line has changed since gives nothing. [DEDUCED 64] -/
def runResult (s : State) (r : HRun) : State :=
  match s.blockAt r.world r.ctx r.va .devRead with
  | none => s
  | some (a, _) =>
    let s2 := s.sweepUnder a
    match r.purpose with
    | .decode => s2.decodeDone a r
    | _ =>
      match s2.line? a with
      | none => s2
      | some l =>
        if !l.dirty || l.data != r.orig || l.poison != 0#32 then s2
        else if r.purpose = .encode then s2.encodeDone a r
        else s2.checkDone a r

/-- A run begins again from its initial state, with its image loaded afresh, and its port counts it (R29). -/
def restartRun (s : State) (r : HRun) : State :=
  let s1 := s.updPort r.port fun p => { p with restarts := p.restarts + 1 }
  let n := HRun.start r.code r.tab r.inp r.outCap
  { s1 with heddle := some { n with purpose := r.purpose, world := r.world, ctx := r.ctx, slot := r.slot, va := r.va
                                    orig := r.orig, port := r.port, cls := r.cls, view := r.view, unit := r.unit } }

end State

/-- A heddle run has ended: its result goes to the access that it serves, and a heddle that is then free takes its port's next
waiting run. Where an error beyond correction was found in the pair cache during the run, it starts again (R29). [DESIGN CHOICE 31]
[DEDUCED 64] -/
def execHeddleRunDone (s : State) : Host.Outcome State Fault Refusal :=
  match s.heddle with
  | none => .next s
  | some r =>
    match r.fin with
    | .running => .next s
    | _ =>
      if s.args.ecc = .uncorrectable then .next (s.restartRun r)
      else .next ((State.runResult { s with heddle := none } r).handNext r.port)

/-! ## The patrol scrubber -/

namespace State

/-- The blocks whose sectors lie in a physical block: those of a fixed-class page, or the block of that number. [DESIGN CHOICE 33] -/
def blocksIn (s : State) (n : Nat) : List BlkRef :=
  let fixedBlocks := s.worlds.flatMap fun w => w.2.ctxs.flatMap fun c => c.2.pt.flatMap fun p =>
    let w0 := p.2.toNat % 2 ^ 64
    if bits w0 1 0 != 2 || w0.testBit 5 || w0.testBit 6 then []
    else
      let l := Leaf.ofEntry p.2
      let k := s.classOf w.1 c.1 l.trec
      if k = 0 || decide (256 * n + 256 ≤ l.paddr ∨ l.paddr + frameBytes k ≤ 256 * n) then []
      else ((List.range 256).filter fun i => decide (l.paddr + 32 * k * i < 256 * n + 256 ∧ 256 * n < l.paddr + 32 * k * (i + 1))).map
        fun i => ({ key := 2 * (l.mrun / 8 + i) + 1, fixc := k, base := l.paddr + 32 * k * i, metaAt := l.mrun + 8 * i } : BlkRef)
  if fixedBlocks.isEmpty then [{ key := 2 * n, base := 256 * n, metaAt := n }] else fixedBlocks

end State

/-- The patrol scrubber reads one physical block. [DESIGN CHOICE 33] -/
def execPatrolScrub (s : State) : Host.Outcome State Fault Refusal :=
  let n := s.args.n
  if State.physBytes ≤ 256 * n then .next s
  else
    let l : BlkRef := { key := 2 * n, base := 256 * n, metaAt := n }
    let s1 := s.portRequest l 8 5
    match s.args.ecc with
    | .uncorrectable =>
      .next ((s1.blocksIn n).foldl State.poisonBlock (s1.updPort (State.portOf l) fun p => { p with uncorrected := p.uncorrected + 1 }))
    | e => .next (s1.eccReport l e)

end Sys2Proof.Machine
end

