-- ==== Sys2Proof/Machine/Queue.lean ====
section
/-! DEFINITION. Queues and the clause engines (R119 to R141): the queue table, rounds, the effect of each packet type, the
completion of packets, and errors in an engine. -/

namespace Sys2Proof.Machine

/-! ## Packets (R127 to R130) -/

def pktOp (l : List Byte) : Nat := leWord l 1 1
def pktWord (l : List Byte) (off : Nat) : W64 := BitVec.ofNat 64 (leWord l off 8)
def pktByte (l : List Byte) (off : Nat) : Nat := leWord l off 1

/-- Offset and size of what a body lists; every other byte of 0x10 to 0x7f is reserved (R129). -/
def pktFields : Nat → List (Nat × Nat)
  | 2 => [(0x10, 1), (0x18, 48)]
  | 3 => [(0x10, 8), (0x18, 1), (0x20, 8)]
  | 4 => [(0x10, 1), (0x12, 2), (0x14, 4), (0x18, 8)]
  | 5 => [(0x10, 8), (0x18, 8), (0x20, 12)]
  | 6 => [(0x10, 8), (0x18, 8)]
  | 7 => [(0x10, 8), (0x18, 8), (0x20, 8), (0x28, 1), (0x2c, 2)]
  | 8 => [(0x10, 3), (0x18, 32)]
  | 9 => [(0x10, 1), (0x18, 8)]
  | 10 => [(0x10, 8)]
  | 11 => [(0x10, 8), (0x18, 4), (0x20, 64)]
  | _ => []

def offsetIf (bad : Bool) (off : Nat) : List Nat := if bad then [off] else []

/-- Offsets of the fields of a body that lie outside their ranges; `nrec` and `slots` bound INDEX and BSLOT. -/
def pktRange (op nrec slots : Nat) (l : List Byte) : List Nat :=
  let u (off n : Nat) : Nat := leWord l off n
  match op with
  | 2 => offsetIf (decide (u 0x10 1 > 6)) 0x10 ++
      (List.range 6).flatMap fun i => offsetIf (decide (u 0x10 1 ≤ i) && u (0x18 + 8 * i) 8 != 0) (0x18 + 8 * i)
  | 3 => offsetIf (decide (u 0x18 1 > 1)) 0x18
  | 4 => offsetIf (decide (u 0x10 1 > 3)) 0x10 ++ offsetIf (u 0x10 1 != 0 && u 0x18 8 != 0) 0x18
  | 5 =>
    let grid := (List.range 3).map fun i => u (0x20 + 4 * i) 4
    offsetIf (u 0x18 8 % 64 != 0) 0x18 ++
      ((List.range 3).flatMap fun i =>
        offsetIf (decide (grid.getD i 0 < 1 ∨ 2 ^ 20 < grid.getD i 0)) (0x20 + 4 * i)) ++
      offsetIf (decide (2 ^ 32 ≤ grid.foldl (· * ·) 1)) 0x20
  | 6 => offsetIf (u 0x18 8 % 64 != 0) 0x18
  | 7 =>
    let fl := u 0x28 1
    let len := u 0x20 8
    offsetIf (decide (3 < fl)) 0x28 ++
      (if fl % 2 = 0 then offsetIf (u 0x2c 2 != 0) 0x2c ++ offsetIf (decide (len < 1 ∨ 2 ^ 40 < len)) 0x20
       else
         offsetIf (decide (slots ≤ u 0x2c 2)) 0x2c ++
         (if fl / 2 % 2 = 0 then offsetIf (u 0x10 8 != 0) 0x10 ++ offsetIf (len != 0) 0x20
          else offsetIf (u 0x18 8 != 0) 0x18 ++ offsetIf (decide (len < 1 ∨ 65504 < len)) 0x20))
  | 8 => offsetIf (decide (u 0x10 2 < 1 ∨ nrec ≤ u 0x10 2)) 0x10 ++ offsetIf (decide (3 < u 0x12 1)) 0x12
  | 11 =>
    let len := u 0x18 4
    if len < 8 || 64 < len || len % 8 != 0 then [0x18]
    else (List.range 64).flatMap fun i => offsetIf (decide (len ≤ i) && u (0x20 + i) 1 != 0) (0x20 + i)
  | _ => []

/-- Offsets of every byte that gives BADPACKET (R130 step 1). [DEDUCED 50] [DEDUCED 70] -/
def pktBad (nrec slots : Nat) (l : List Byte) : List Nat :=
  let op := pktOp l
  let h := leWord l 0 4
  let header := offsetIf (bits h 7 1 != 0) 0 ++ offsetIf (bits h 23 18 != 0) 2 ++ offsetIf (bits h 31 24 != 0) 3
  if op < 1 || 11 < op then header ++ [1]
  else
    let listed (i : Nat) : Bool := (pktFields op).any fun f => decide (f.1 ≤ i ∧ i < f.1 + f.2)
    let reserved := ((List.range 0x70).map (0x10 + ·)).filter fun i => !listed i && pktByte l i != 0
    header ++ reserved ++ pktRange op nrec slots l

/-- Service priority within a round (R136). -/
def pktPriority (op : Nat) : Nat := if op = 1 then 12 else op

/-- The feature a type needs (R113). -/
def pktFeature (op : Nat) : Option Nat :=
  match op with
  | 6 => some 2
  | 9 => some 0
  | _ => none

/-- The header's bit `i`. -/
def pktBit (l : List Byte) (i : Nat) : Bool := (leWord l 0 4).testBit i

/-! ## The queue table (R119, R121, R132) -/

def QState.code : QState → Nat
  | .disabled => 0
  | .active => 1
  | .aborted => 2
  | .failed => 3

/-- The bytes of an entry from 0x18 on, all of which the device writes. -/
def Queue.entryTail (x : Queue) : List Byte :=
  leBytes 8 ((if x.phase then 2 ^ 32 else 0) + x.didx % 2 ^ 16 * 2 ^ 16 + x.ridx % 2 ^ 16) ++
    leBytes 8 (x.cause.toNat * 256 + x.st.code) ++ List.replicate 24 0#8

/-- The word at 0x10 of an entry with its RO fields at 0. -/
def entryMid (w2 : Nat) : Nat := bits w2 19 16 * 2 ^ 16 + bits w2 11 8 * 2 ^ 8

namespace State

def entryAddr (s : State) (w q : Nat) : W64 :=
  match s.world? w with
  | some x => x.qtbase + BitVec.ofNat 64 (64 * q)
  | none => 0#64

/-- Writes RIDX, DIDX, PHASE, QCAUSE and QSTATE of the live copy into the entry, and every other RO field of it as 0; false where
the write faults. -/
def putEntryTail (s : State) (w q : Nat) : Bool × State :=
  match s.queue? w q with
  | none => (true, s)
  | some x =>
    match s.devRead w 0 (s.entryAddr w q + 0x10#64) 8 with
    | (.error _, s1) => (false, s1)
    | (.ok l, s1) =>
      match s1.devWrite w 0 (s1.entryAddr w q + 0x10#64) (leBytes 8 (entryMid (leNat l)) ++ x.entryTail) with
      | (none, s2) => (true, s2)
      | (some _, s2) => (false, s2)

/-- The entry is written back, and QSIG is set to −1 with release at .sys (R134, R124). [DEDUCED 50] -/
def stopQueue (s : State) (w q : Nat) (st : QState) (cause : BitVec 8) : State :=
  match s.queue? w q with
  | none => s
  | some x =>
    let s1 := s.updQueue w q fun x =>
      { x with st := st, cause := cause, noRead := x.noRead || st == .failed
               head := if st = .failed then none else x.head }
    (s1.putEntryTail w q).2.setSignal w x.ctx x.qsig true (BitVec.allOnes 64)

/-- The effects of R134 on the queue; a FAILED or DISABLED queue stays as it is. -/
def abortQueue (s : State) (w q : Nat) (cause : BitVec 8) : State :=
  match s.queue? w q with
  | none => s
  | some x => if x.st = .active || x.st = .aborted then s.stopQueue w q .aborted cause else s

def failQueue (s : State) (w q : Nat) (cause : BitVec 8) : State := s.stopQueue w q .failed cause

/-- A write-back; one that faults aborts an ACTIVE queue (R132). -/
def syncEntry (s : State) (w q : Nat) : State :=
  match s.queue? w q, s.putEntryTail w q with
  | some x, (false, s1) => if x.st = .active then s1.abortQueue w q pcFault else s1
  | _, (_, s1) => s1

/-- Whether a world's queues run (R98, R100). -/
def worldRuns (s : State) (w : Nat) : Bool :=
  match s.world? w with
  | some x => x.tstate == .run && !x.frozen
  | none => false

def quiescing (s : State) (w : Nat) : Bool :=
  match s.world? w with
  | some x => x.quiescing
  | none => false

/-! ## Starting packets (R123 to R125, R135) -/

/-- The packet at RIDX starts: it leaves the ring, and the entry is written back. `f` completes its record. -/
def startPkt (s : State) (w q : Nat) (l : List Byte) (f : Pkt → Pkt) : State :=
  (s.updQueue w q fun x =>
    let slot := x.ring + BitVec.ofNat 64 (128 * x.ridx)
    let p : Pkt := { no := x.nextNo, idx := x.ridx, slot := slot, ctx := x.ctx, bytes := l
                     barrier := pktBit l 16, irq := pktBit l 17, compsig := pktWord l 8 }
    let wraps := decide (2 ^ x.log2n ≤ x.ridx + 1)
    { x with
      started := x.started ++ [f p]
      nextNo := x.nextNo + 1
      ridx := if wraps then 0 else x.ridx + 1
      phase := if wraps then !x.phase else x.phase
      head := none
      remSigs := [] }).syncEntry w q

/-- Whether a packet of a queue still holds back every later one (R127, R130, R134). -/
def Pkt.holds (p : Pkt) : Bool := !p.old && !p.written && (p.barrier || p.aborts)

/-- Whether a queue may be visited at all, and whether the packet `l` at its head may be served (R135, R138). [DEDUCED 50] -/
def Queue.visitable (x : Queue) : Bool :=
  !x.disabling && !x.noRead && (x.st == .aborted || x.st == .active) && !x.started.any Pkt.holds

def mayServe (s : State) (w : Nat) (x : Queue) (l : List Byte) : Bool :=
  !s.quiescing w || (x.st == .active && pktOp l == 2)

/-- A lane's visit to a queue: the packet it takes, once it is valid, read whole (R124, R125). [DESIGN CHOICE 49] -/
def visit (s : State) (w q : Nat) : Option (List Byte) × State :=
  match s.queue? w q with
  | none => (none, s)
  | some x =>
    if !s.worldRuns w || !Queue.visitable x then (none, s)
    else
      let take (l : List Byte) (s : State) : Option (List Byte) × State :=
        if s.mayServe w x l then (some l, s.updQueue w q fun x => { x with head := some l }) else (none, s)
      match x.head with
      | some l => take l s
      | none =>
        let slot := x.ring + BitVec.ofNat 64 (128 * x.ridx)
        match s.devRead w x.ctx slot 4 with
        | (.error (.fault _ _), s1) => (none, s1.failQueue w q pcFault)
        | (.error .stall, s1) => (none, s1)
        | (.ok h, s1) =>
          if (leNat h).testBit 0 != x.phase then (none, s1)
          else
            match s1.devRead w x.ctx slot 128 with
            | (.error (.fault _ _), s2) => (none, s2.failQueue w q pcFault)
            | (.error .stall, s2) => (none, s2)
            | (.ok l, s2) => take l s2

/-- What the round itself does with a packet it has taken: a faulty one is rejected, and the others, those that an ABORTED queue
skips among them, wait to be served with their type (R130, R134, R136). -/
def sortTaken (s : State) (w q : Nat) (l : List Byte) : Option (Nat × Nat × Nat) × State :=
  match s.queue? w q, s.world? w with
  | some x, some wd =>
    if x.st = .aborted then (some (pktPriority (pktOp l), w, q), s)
    else
      let nrec := match s.ctx? w x.ctx with
        | some c => c.nrec
        | none => 0
      match pktBad nrec wd.bbslots l with
      | o :: os =>
        let off := os.foldl min o
        (none, s.startPkt w q l fun p => { p with result := some (pcBadPacket, BitVec.ofNat 8 off), aborts := true })
      | [] =>
        let off := match pktFeature (pktOp l) with
          | some n => !s.feature w n
          | none => false
        if off then (none, s.startPkt w q l fun p => { p with result := some (pcFeatureOff, 0#8) })
        else (some (pktPriority (pktOp l), w, q), s)
  | _, _ => (none, s)

def engineOf (s : State) (e : Nat) : Engine := AMap.getD s.engines e {}
def updEngine (s : State) (e : Nat) (f : Engine → Engine) : State :=
  { s with engines := AMap.set s.engines e (f (s.engineOf e)) }

/-- The queues of one engine that still have a packet taken and to be served. -/
def liveTaken (s : State) (e : Nat) : List (Nat × Nat) :=
  (s.engineOf e).taken.filter fun p =>
    match s.queue? p.1 p.2 with
    | none => false
    | some x => s.worldRuns p.1 && (x.st == .active || x.st == .aborted) && !x.disabling && x.engine == e && (match x.head with
        | some l => s.mayServe p.1 x l
        | none => false)

/-- Queues of a lane, by world and number, from the one after `last` in rotation. -/
def laneQueues (s : State) (e lane last : Nat) : List (Nat × Nat) :=
  let all := s.worlds.flatMap fun w => (w.2.queues.filter fun q =>
    q.2.engine == e && q.2.lane == lane && q.2.st != .disabled).map fun q => (w.1, q.1)
  (all.filter fun p => decide (last < 64 * p.1 + p.2)) ++ (all.filter fun p => decide (64 * p.1 + p.2 ≤ last))

/-- One lane's turn: the first of its queues, in rotation, that has a packet. [DESIGN CHOICE 49] -/
def laneTurn (e lane : Nat) : List (Nat × Nat) → State → Option (Nat × Nat × Nat) × State
  | [], s => (none, s)
  | (w, q) :: r, s =>
    match s.visit w q with
    | (none, s1) => laneTurn e lane r s1
    | (some l, s1) =>
      (s1.updEngine e fun x => { x with rot := AMap.set x.rot lane (64 * w + q) }).sortTaken w q l

/-- The lanes take their packets, in lane order. [DESIGN CHOICE 49] -/
def lanesTake (e : Nat) : List Nat → State → List (Nat × Nat × Nat) × State
  | [], s => ([], s)
  | lane :: r, s =>
    let (t, s1) := laneTurn e lane (s.laneQueues e lane (AMap.getD (s.engineOf e).rot lane 0)) s
    let (ts, s2) := lanesTake e r s1
    (t.toList ++ ts, s2)

end State

/-- One round of a clause engine: the lanes take their packets, which are then served type by type. [DESIGN CHOICE 49] -/
def execClauseRound (s : State) : Host.Outcome State Fault Refusal :=
  let e := s.args.unit
  if 8 < e || (s.engineOf e).stopped || !(s.liveTaken e).isEmpty then .next s
  else
    let (ts, s1) := State.lanesTake e (List.range 64) s
    let order := ts.insertionSort fun a b => a.1 ≤ b.1
    .next (s1.updEngine e fun x => { x with taken := order.map fun t => t.2 })

/-! ## Serving packets -/

/-- What serving a packet comes to: held at RIDX, or started with what its record holds besides, and what follows. -/
inductive Served where
  | held
  | start (f : Pkt → Pkt) (post : State → State)

def Served.done (code detail : BitVec 8) : Served := .start (fun p => { p with result := some (code, detail) }) id

/-- A packet that aborts its queue once it has completed. -/
def Served.abort (code detail : BitVec 8) : Served :=
  .start (fun p => { p with result := some (code, detail), aborts := true }) id

def Served.ofFault (c : BitVec 8) : Served := .done State.pcFault c

/-- The effect of one packet of queue `q`. -/
abbrev PktAct := State → Nat → Nat → Queue → List Byte → Served × State

namespace State

/-- Serves a packet of queue `q`. [DESIGN CHOICE 49] -/
def perform (s : State) (w q : Nat) (x : Queue) (l : List Byte) (act : PktAct) : State :=
  match act s w q x l with
  | (.held, s1) => s1
  | (.start f post, s1) => post (s1.startPkt w q l f)

/-- The first packet an engine has still to serve, if it is this queue's and of this form, is served: skipped where the queue is
ABORTED (R134, R136). [DESIGN CHOICE 49] -/
def serve (s : State) (form : List Byte → Bool) (act : PktAct) : State :=
  let w := s.args.world
  let q := s.args.queue
  match s.queue? w q with
  | none => s
  | some x =>
    match s.liveTaken x.engine, x.head with
    | p :: r, some l =>
      if p != (w, q) || (x.st != .aborted && !form l) || (s.engineOf x.engine).stopped then s
      else
        let s1 := s.updEngine x.engine fun e => { e with taken := r }
        if x.st = .aborted then s1.startPkt w q l fun p => { p with result := some (pcSkipped, 0#8) } else s1.perform w q x l act
    | _, _ => s

end State

/-- The packet types, and a byte that tells their forms apart. -/
def isType (op : Nat) (l : List Byte) : Bool := pktOp l == op

/-! ### BARRIER (R133) -/

/-- What one signal of a BARRIER shows: its value, a positive one for STALE_KEY, a fault, or an answer still due. -/
inductive SigRead where
  | value (v : Int)
  | fault (code : BitVec 8)
  | due
deriving DecidableEq, Repr

namespace State

/-- Reads signal `k` of the BARRIER at a queue's head. -/
def readSignal (s : State) (w q : Nat) (x : Queue) (k : Nat) (va : W64) : SigRead × State :=
  if va.toNat % 8 != 0 then (.fault fcMisalign, s)
  else if 2 ^ 56 ≤ va.toNat then (.fault fcProtection, s)
  else
    match s.resolve w x.ctx va.toNat .devRead with
    | .fault f => (.fault f.code, s)
    | .stall => (.due, s)
    | .place (.remote y tw tva key) =>
      match AMap.get? x.remSigs k with
      | some (.value v) => (.value (sext 64 v.toNat), s)
      | some .stale => (.value 1, s)
      | some (.failed c) => (.fault c, s)
      | some .waiting => (.due, s)
      | none =>
        (.due, (s.updQueue w q fun x => { x with remSigs := AMap.set x.remSigs k .waiting }).sendRemote (.barrier w q x.nextNo k)
          { kind := .load, fromSys := s.sysNum, toSys := y, world := tw, va := tva, key := key, scope := 8, size := 8, data := [] })
    | .place p =>
      match s.readPlace w x.ctx p 8 with
      | (.ok bs, s1) => (.value (sext 64 (leNat bs)), s1)
      | (.error c, s1) => (.fault c, s1)

def readSignals (w q : Nat) (x : Queue) : List (Nat × W64) → State → List SigRead × State
  | [], s => ([], s)
  | (k, va) :: r, s =>
    let (v, s1) := s.readSignal w q x k va
    let (vs, s2) := readSignals w q x r s1
    (v :: vs, s2)

end State

/-- The first fault among the reads. -/
def firstSigFault : List SigRead → Option (BitVec 8)
  | [] => none
  | .fault c :: _ => some c
  | _ :: r => firstSigFault r

def sigNegative : SigRead → Bool
  | .value v => decide (v < 0)
  | _ => false

/-- An evaluation of a BARRIER: an abort for a negative value, whatever else was read, or for a fault; a release; or a wait.
[DEDUCED 52] -/
def actBarrier : PktAct := fun s w q x l =>
  let n := pktByte l 0x10
  let (vs, s1) := State.readSignals w q x ((List.range n).map fun k => (k, pktWord l (0x18 + 8 * k))) s
  if vs.contains .due then (.held, s1)
  else
    match (List.range n).find? fun k => sigNegative (vs.getD k .due) with
    | some k => (.abort State.pcAborted (BitVec.ofNat 8 k), s1)
    | none =>
      match firstSigFault vs with
      | some c => (.abort State.pcFault c, s1)
      | none =>
        if vs.all (· == .value 0) then (.done State.pcOk 0#8, s1)
        else (.held, s1.updQueue w q fun x => { x with remSigs := [] })

def execBarrier (s : State) : Host.Outcome State Fault Refusal := .next (s.serve (isType 2) actBarrier)

/-! ### SIGNAL, TIMESTAMP, WRITE, NOP (R131) -/

def actSignal : PktAct := fun s w q x l =>
  match s.updateSignal w x.ctx (pktWord l 0x10) (.packet w q x.nextNo) (pktByte l 0x18 == 1) (pktWord l 0x20) with
  | (.done, s1) => (.done State.pcOk 0#8, s1)
  | (.sent, s1) => (.start (fun p => { p with due := 1 }) id, s1)
  | (.stall, s1) => (.held, s1)
  | (.fault c, s1) => (.ofFault c, s1)

def execSignalAdd (s : State) : Host.Outcome State Fault Refusal :=
  .next (s.serve (fun l => isType 3 l && pktByte l 0x18 == 0) actSignal)

def execSignalSet (s : State) : Host.Outcome State Fault Refusal :=
  .next (s.serve (fun l => isType 3 l && pktByte l 0x18 == 1) actSignal)

namespace State

/-- Writes aligned 8-byte words in order, as far as a fault: how many have gone to another device. -/
def storeWords (w c : Nat) (who : RemWait) : Nat → List W64 → Nat → State → Nat × SigOut × State
  | _, [], n, s => (n, .done, s)
  | va, v :: vs, n, s =>
    if va % 8 != 0 then (n, .fault fcMisalign, s)
    else if 2 ^ 56 ≤ va then (n, .fault fcProtection, s)
    else
      match s.resolve w c va .devWrite with
      | .fault f => (n, .fault f.code, s)
      | .stall => (n, .stall, s)
      | .place (.remote y tw tva key) =>
        storeWords w c who (va + 8) vs (n + 1) (s.sendRemote who
          { kind := .store, fromSys := s.sysNum, toSys := y, world := tw, va := tva, key := key, scope := 8, size := 8
            data := leBytes 8 v.toNat })
      | .place p =>
        match s.writePlaces w c [(p, leBytes 8 v.toNat)] with
        | (some e, s1) => (n, .fault e.1, s1)
        | (none, s1) => storeWords w c who (va + 8) vs n s1

end State

def actWords (words : State → List Byte → List W64) : PktAct := fun s w q x l =>
  match State.storeWords w x.ctx (.packet w q x.nextNo) (pktWord l 0x10).toNat (words s l) 0 s with
  | (n, r, s1) =>
    match r with
    | .stall => (.held, s1)
    | .fault c => if n = 0 then (.ofFault c, s1) else (.start (fun p => { p with due := n, late := c }) id, s1)
    | _ => if n = 0 then (.done State.pcOk 0#8, s1) else (.start (fun p => { p with due := n }) id, s1)

def actTimestamp : PktAct := actWords fun s _ => [BitVec.ofNat 64 s.now]

def actWrite : PktAct := actWords fun _ l => (List.range (leWord l 0x18 4 / 8)).map fun i => pktWord l (0x20 + 8 * i)

def actNop : PktAct := fun s _ _ _ _ => (.done State.pcOk 0#8, s)

def execTimestamp (s : State) : Host.Outcome State Fault Refusal := .next (s.serve (isType 10) actTimestamp)
def execWritePacket (s : State) : Host.Outcome State Fault Refusal := .next (s.serve (isType 11) actWrite)
def execNopPacket (s : State) : Host.Outcome State Fault Refusal := .next (s.serve (isType 1) actNop)

/-! ### PHASE (R131, R142, R144) -/

namespace State

/-- A queue's current phase, if it has one, is closed. -/
def closePhase (s : State) (w q : Nat) : State :=
  match s.queue? w q with
  | none => s
  | some x =>
    match x.curPhase with
    | none => s
    | some i =>
      ({ s.updQueue w q (fun x => { x with curPhase := none }) with
          phases := AMap.modify s.phases i fun p => { p with isOpen := false } }).settlePhase i

def openPhase (s : State) (w q ctx : Nat) (l : List Byte) : State :=
  let s1 := s.closePhase w q
  let i := AMap.fresh s1.phases
  let p : Phase := { world := w, ctx := ctx, queue := q, job := leWord l 0x12 2, no := leWord l 0x14 4
                     psig := pktWord l 0x18, count := 0, isOpen := true }
  { s1 with phases := AMap.set s1.phases i p }.updQueue w q fun x => { x with curPhase := some i }

/-- Cancels phases that are open or incomplete: they close, their work is cancelled, and packet `no` waits for them. A phase
whose counter has reached zero keeps its completion (R144). -/
def cancelPhases (s : State) (w q no : Nat) (f : Phase → Bool) : State :=
  let hit := (s.phases.filter fun p => p.2.world == w && (p.2.isOpen || p.2.count != 0) && f p.2).map Prod.fst
  if hit.isEmpty then s.completePkt w q no pcOk 0#8
  else
    let s1 := hit.foldl (fun s i => { s with phases := AMap.modify s.phases i fun p =>
      { p with cancelled := true, isOpen := false, waiters := p.waiters ++ [(q, no)] } }) s
    let s2 := s1.updWorld w fun x => { x with queues := AMap.mapVals x.queues fun y =>
      { y with curPhase := y.curPhase.filter fun i => !hit.contains i } }
    let member (p : Option Nat) : Bool := match p with
      | some i => hit.contains i
      | none => false
    let s3 := (s2.launches.filter fun x => member x.2.phase).foldl (fun s x => s.cancelLaunch x.1) s2
    let s4 := (s3.graphs.filter fun x => member x.2.phase).foldl (fun s x => s.cancelGraph x.1) s3
    hit.foldl settlePhase s4

end State

/-- Phases that closing a queue's current phase completes: that one, where it has no work left. -/
def State.closesNow (s : State) (x : Queue) : Nat :=
  match x.curPhase with
  | some i => if (s.phases.filter fun p => p.1 == i && p.2.count == 0).isEmpty then 0 else 1
  | none => 0

/-- OPEN is held while the world's phases would exceed 256 once the queue's own has been closed (R131, R142). -/
def actPhaseOpen : PktAct := fun s w q x l =>
  if 256 ≤ (s.phases.filter fun p => p.2.world == w).length - s.closesNow x then (.held, s)
  else (.start (fun p => { p with result := some (State.pcOk, 0#8) }) fun s => s.openPhase w q x.ctx l, s)

def actPhaseClose : PktAct := fun s w q _ _ =>
  (.start (fun p => { p with result := some (State.pcOk, 0#8) }) fun s => s.closePhase w q, s)

def actCancelPhase : PktAct := fun s w q x l =>
  (.start id fun s => s.cancelPhases w q x.nextNo fun p => p.job == leWord l 0x12 2 && p.no == leWord l 0x14 4, s)

def actCancelJob : PktAct := fun s w q x l =>
  (.start id fun s => s.cancelPhases w q x.nextNo fun p => p.job == leWord l 0x12 2, s)

def phaseForm (k : Nat) (l : List Byte) : Bool := isType 4 l && pktByte l 0x10 == k

def execPhaseOpen (s : State) : Host.Outcome State Fault Refusal := .next (s.serve (phaseForm 0) actPhaseOpen)
def execPhaseClose (s : State) : Host.Outcome State Fault Refusal := .next (s.serve (phaseForm 1) actPhaseClose)
def execCancelPhase (s : State) : Host.Outcome State Fault Refusal := .next (s.serve (phaseForm 2) actCancelPhase)
def execCancelJob (s : State) : Host.Outcome State Fault Refusal := .next (s.serve (phaseForm 3) actCancelJob)

/-! ### LAUNCH (R145, R146, R149) -/

/-- A descriptor's fields from its 64 bytes. -/
def LDesc.ofBytes (l : List Byte) : LDesc :=
  let w3 := leWord l 0x18 8
  let w4 := leWord l 0x20 8
  { centry := pktWord l 0, pentry := pktWord l 8, wentry := pktWord l 0x10
    part := bits w3 63 48, panels := bits w3 47 40, nq := bits w3 34 32, pquota := bits w3 22 16, cquota := bits w3 14 8
    pwarps := bits w3 2 0, cwarps := bits w4 55 48, scratch := bits w4 41 32
    saveFault := w4.testBit 4, determ := w4.testBit 3, strict := w4.testBit 2, weft := w4.testBit 1 }

/-- Reserved fields of a descriptor that are not 0. [DEDUCED 70] -/
def ldescReserved (l : List Byte) : Bool :=
  let w3 := leWord l 0x18 8
  let w4 := leWord l 0x20 8
  bits w3 39 35 != 0 || bits w3 31 23 != 0 || bits w3 15 15 != 0 || bits w3 7 3 != 0 ||
    bits w4 63 56 != 0 || bits w4 47 42 != 0 || bits w4 31 5 != 0 || bits w4 0 0 != 0 || (l.drop 0x28).any (· != 0#8)

/-- Fields within their ranges, and the checks that need nothing but the descriptor (R145, R146). -/
def LDesc.shapeOk (d : LDesc) : Bool :=
  let idx := List.range 4
  decide (1 ≤ d.nq ∧ d.nq ≤ 4) && decide (d.pwarps ≤ 4) && decide (1 ≤ d.pwarps + d.cwarps ∧ d.pwarps + d.cwarps ≤ 128) &&
    decide (4 ≤ d.cquota ∧ d.cquota ≤ 64) &&
    (if d.pwarps = 0 then d.pquota == 0 && d.pentry == 0#64 else decide (4 ≤ d.pquota ∧ d.pquota ≤ 64)) &&
    decide (d.scratch ≤ 512) && (idx.all fun k => if k < d.nq then decide (nibble d.part k ≤ 8) else nibble d.part k == 0) &&
    (d.weft == (d.wentry != 0#64)) &&
    ((List.range d.nq).all fun k => decide (shareBytes (d.scratch * 4096) d.nq k ≤ nibble d.part k * 65536)) && d.seatable

namespace State

/-- Whether a panel that the descriptor allows has a core with NQ quarters of the world's set (R146). [DEDUCED 53] -/
def hasCore (s : State) (w own : Nat) (d : LDesc) : Bool :=
  match s.world? w with
  | none => false
  | some x => (List.range 512).any fun core => panelOk d own core &&
      decide (d.nq ≤ (x.quarterSet.filter fun q => q / 4 == core).length)

/-- Reads and checks a launch descriptor: its fields, or the completion it gives. [DEDUCED 53] -/
def readLDesc (s : State) (w c own : Nat) (va : W64) : Except (BitVec 8 × BitVec 8) LDesc × State :=
  if va.toNat % 64 != 0 then (.error (pcBadPacket, 0x10#8), s)
  else
    match s.devRead w c va 64 with
    | (.error (.fault f _), s1) => (.error (pcFault, f), s1)
    | (.error .stall, s1) => (.error (pcFault, fcPageFault), s1)
    | (.ok l, s1) =>
      let d := LDesc.ofBytes l
      if ldescReserved l || !d.shapeOk || !s1.hasCore w own d then (.error (pcBadPacket, 0x10#8), s1) else (.ok d, s1)

/-- Launches and graphs that a panel's dispatcher holds (R149, R162). [DEDUCED 53] -/
def dispatched (s : State) (panel : Nat) : Nat :=
  (s.launches.filter fun x => x.2.panel == panel).length + (s.graphs.filter fun x => x.2.panel == panel).length

/-- One more launch or graph of a phase. -/
def joinPhase (s : State) (p : Option Nat) : State :=
  match p with
  | none => s
  | some i => { s with phases := AMap.modify s.phases i fun x => { x with count := x.count + 1 } }

end State

def Served.rejected (c : BitVec 8 × BitVec 8) : Served :=
  if c.1 = State.pcBadPacket then .abort c.1 c.2 else .done c.1 c.2

def actLaunch : PktAct := fun s w q x l =>
  if 64 ≤ s.dispatched x.panel then (.held, s)
  else
    match s.readLDesc w x.ctx x.panel (pktWord l 0x10) with
    | (.error c, s1) => (.rejected c, s1)
    | (.ok d, s1) =>
      let n := leWord l 0x20 4 * leWord l 0x24 4 * leWord l 0x28 4
      let y : Launch := { world := w, ctx := x.ctx, queue := q, pkt := x.nextNo, panel := x.panel, desc := d
                          param := pktWord l 0x18, total := n, left := n, phase := x.curPhase, since := s1.now, taken := s1.now }
      -- the effect of fence.code comes before its first block (R252)
      (.start id id, ({ s1 with launches := AMap.set s1.launches (AMap.fresh s1.launches) y }.joinPhase x.curPhase).dropCode w)

def execLaunch (s : State) : Host.Outcome State Fault Refusal := .next (s.serve (isType 5) actLaunch)

/-! ### GRAPH (R159 to R164) -/

/-- The end of the queue that holds `cap` slots, and its start (R161). -/
def arenaNext (stop cap rsize maxDepth : Nat) : Nat × Nat :=
  if maxDepth = 0 then (0, stop) else (roundUp stop 256, roundUp stop 256 + 16 * rsize * cap)

/-- One node entry: the node without its launch descriptor and base, and whether its fields may stand (R160, R162). -/
def GNode.ofBytes (l : List Byte) : GNode × Bool :=
  let w1 := leWord l 8 8
  let w2 := leWord l 0x10 8
  let n : GNode := { cap := bits w1 63 44, group := bits w1 43 32, timer := bits w1 31 16, maxDepth := bits w1 15 12
                     rsize := bits w1 4 0, srcBlocks := bits w2 63 32, faultRef := w2.testBit 0 }
  let ranges := if n.maxDepth = 0 then n.cap == 0 && n.group == 0 && n.timer == 0 && n.rsize == 0
    else decide (1 ≤ n.cap ∧ 1 ≤ n.group ∧ n.group ≤ 2048 ∧ n.group ≤ n.cap ∧ 1 ≤ n.timer ∧ 1 ≤ n.rsize ∧ n.rsize ≤ 16)
  (n, bits w1 11 5 == 0 && bits w2 31 1 == 0 && (l.drop 0x18).all (· == 0#8) && decide (n.srcBlocks ≤ 2 ^ 20) && ranges)

namespace State

/-- One node before those that follow it. -/
def joinNode (n : GNode) (ok : Bool) (r : Except (BitVec 8) (List (GNode × Bool)) × State) :
    Except (BitVec 8) (List (GNode × Bool)) × State :=
  match r with
  | (.error f, s) => (.error f, s)
  | (.ok ns, s) => (.ok ((n, ok) :: ns), s)

/-- Reads the node entries and their launch descriptors: a read that faults decides first (R162). -/
def readNodes (w c own : Nat) (desc : W64) : List Nat → State → Except (BitVec 8) (List (GNode × Bool)) × State
  | [], s => (.ok [], s)
  | i :: is, s =>
    match s.devRead w c (desc + BitVec.ofNat 64 (64 + 64 * i)) 64 with
    | (.error (.fault f _), s1) => (.error f, s1)
    | (.error .stall, s1) => (.error fcPageFault, s1)
    | (.ok l, s1) =>
      let (n, ok) := GNode.ofBytes l
      match s1.readLDesc w c own (pktWord l 0) with
      | (.error (code, f), s2) =>
        if code = pcFault then (.error f, s2)
        else joinNode n false (readNodes w c own desc is s2)
      | (.ok d, s2) => joinNode { n with desc := d } ok (readNodes w c own desc is s2)

end State

/-- Places the record queues in the arena, from `stop` on: the nodes with their bases, and the end. -/
def placeQueues : Nat → List GNode → List GNode × Nat
  | stop, [] => ([], stop)
  | stop, n :: ns =>
    let (base, e) := arenaNext stop n.cap n.rsize n.maxDepth
    let (r, z) := placeQueues e ns
    ({ n with base := base } :: r, z)

/-- The source blocks of a graph in node order (R163). -/
def sourceBlocks (gi now : Nat) (ns : List (Nat × GNode)) : List ReadyBlk :=
  ns.flatMap fun n => (List.range n.2.srcBlocks).map fun b =>
    { graph := gi, node := n.1, bid := b, slots := [], depth := 0, since := now }

def actGraph : PktAct := fun s w q x l =>
  let desc := pktWord l 0x10
  if 64 ≤ s.dispatched x.panel then (.held, s)
  else if desc.toNat % 64 != 0 then (.abort State.pcBadPacket 0x10#8, s)
  else
    match s.devRead w x.ctx desc 64 with
    | (.error (.fault f _), s1) => (.ofFault f, s1)
    | (.error .stall, s1) => (.held, s1)
    | (.ok h, s1) =>
      let arena := pktWord h 0
      let gst := pktWord h 0x10
      let count := bits (leWord h 0x18 8) 6 0
      match State.readNodes w x.ctx x.panel desc (List.range (min count 64)) s1 with
      | (.error f, s2) => (.ofFault f, s2)
      | (.ok ns, s2) =>
        let (placed, stop) := placeQueues arena.toNat (ns.map Prod.fst)
        let headOk := arena.toNat % 4096 == 0 && gst.toNat % 64 == 0 && bits (leWord h 0x18 8) 63 7 == 0 &&
          (h.drop 0x20).all (· == 0#8) && decide (1 ≤ count ∧ count ≤ 64)
        let caps := (placed.map GNode.cap).sum
        if !headOk || !(ns.all Prod.snd) || decide (leWord h 8 8 < stop - arena.toNat) || decide (2 ^ 24 < caps) then
          (.abort State.pcBadPacket 0x10#8, s2)
        else
          match s2.devWrite w x.ctx gst (List.replicate 576 0#8) with
          | (some (.fault f _), s3) => (.ofFault f, s3)
          | (some .stall, s3) => (.held, s3)
          | (none, s3) =>
            let gi := AMap.fresh s3.graphs
            let nodes := (List.range placed.length).zip placed
            let src := sourceBlocks gi s3.now nodes
            let g : Graph := { world := w, ctx := x.ctx, queue := q, pkt := x.nextNo, panel := x.panel, arena := arena
                               gstatus := gst, param := pktWord l 0x18, nodes := nodes, count := src.length
                               phase := x.curPhase }
            let s4 := { s3 with graphs := AMap.set s3.graphs gi g, readyBlks := s3.readyBlks ++ src }.joinPhase x.curPhase
            (.start id fun s => s.settleGraph gi, s4.dropCode w)

def execGraph (s : State) : Host.Outcome State Fault Refusal := .next (s.serve (isType 6) actGraph)

/-! ### COPY (R131) and the bounce channel (R114, R115) -/

inductive RangeStop where
  | ok
  | bad (code : BitVec 8)
deriving DecidableEq, Repr

/-- COPY packets that a panel's shuttle holds. -/
def State.copiesOn (s : State) (panel : Nat) : Nat :=
  (s.copies.filter fun c => match c.2.pkt with
    | some (q, _) => (match s.queue? c.2.world q with
      | some x => x.panel == panel
      | none => false)
    | none => false).length

/-- Held where the shuttle's queue is full (R136). Else every page of both ranges is translated first, the source before the
destination; the bytes then land piece by piece. [DESIGN CHOICE 41] [DEDUCED 52] [DESIGN CHOICE 49] -/
def actCopy : PktAct := fun s w q x l =>
  if Config.copyQueue < s.copiesOn x.panel then (.held, s) else
  let src := pktWord l 0x10
  let dst := pktWord l 0x18
  let len := leWord l 0x20 8
  let range (a : W64) (k : AccKind) : RangeStop :=
    if 2 ^ 56 < a.toNat + len then .bad fcProtection
    else match s.pagesCheck w x.ctx k (len / 65536 + 2) a.toNat (a.toNat + len) with
      | .bad f => .bad f.code
      | _ => .ok
  match range src .engineRead, range dst .engineWrite with
  | .bad c, _ => (.ofFault c, s)
  | _, .bad c => (.ofFault c, s)
  | .ok, .ok =>
    let c : Copy := { world := w, ctx := x.ctx, block := 0, warp := 0, thread := 0, batch := 0, order := 0, pieces := []
                      bulk := [(src, dst, len)], pkt := some (q, x.nextNo) }
    (.start id id, { s with copies := AMap.set s.copies (AMap.fresh s.copies) c })

def execCopy (s : State) : Host.Outcome State Fault Refusal :=
  .next (s.serve (fun l => isType 7 l && pktByte l 0x28 % 2 == 0) actCopy)

namespace State

/-- The channel key of an epoch: the export secret of the session in which the epoch began, expanded with the world byte and the
epoch. [DEDUCED 54] -/
def bounceKeyOf (x : World) (w : Nat) : List Byte :=
  hkdfExpand (Config.exportSecret x.bbKey) (leBytes 1 w ++ leBytes 4 x.bbEpoch.toNat) 32

def bounceNonce (seq : W64) : List Byte := leBytes 12 seq.toNat

def slotAddr (x : World) (l : List Byte) : Nat := x.bbbase.toNat + 65536 * leWord l 0x2c 2

/-- The channel loses step; without feature 9 it stays OFF (R113). [DEDUCED 54] -/
def desync (s : State) (w : Nat) : State :=
  s.updWorld w fun x => { x with bbState := if x.featDrv.getLsbD 9 then 2 else x.bbState }

end State

def actBounceIn : PktAct := fun s w _ x l =>
  match s.world? w with
  | none => (.held, s)
  | some wd =>
    let a := State.slotAddr wd l
    let head := s.hostMem.readBytes a 16
    let len := leWord head 8 4
    -- no slot is read that no shared range backs (R98)
    let data := if 1 ≤ len ∧ len ≤ 65504 ∧ wd.shares a 65536 = true then
        gcmOpen (State.bounceKeyOf wd w) (State.bounceNonce wd.bbDseq) head (s.hostMem.readBytes (a + 32) len)
          (s.hostMem.readBytes (a + 16) 16)
      else none
    match data with
    | none => (.done State.pcDesync 0#8, s.desync w)
    | some pt =>
      if wd.bbState != 1 || leWord head 0 8 != wd.bbDseq.toNat || leWord head 12 4 != 0 then
        (.done State.pcDesync 0#8, s.desync w)
      else
        match s.devWrite w x.ctx (pktWord l 0x18) pt with
        | (some (.fault c _), s1) => (.ofFault c, s1)
        | (some .stall, s1) => (.held, s1)
        | (none, s1) => (.done State.pcOk 0#8, s1.updWorld w fun y => { y with bbDseq := y.bbDseq + 1#64 })

def actBounceOut : PktAct := fun s w _ x l =>
  match s.world? w with
  | none => (.held, s)
  | some wd =>
    if wd.bbState != 1 then (.done State.pcDesync 0#8, s)
    else if !wd.shares (State.slotAddr wd l) 65536 then (.ofFault fcProtection, s)
    else
      let len := leWord l 0x20 8
      match s.devRead w x.ctx (pktWord l 0x10) len with
      | (.error (.fault c _), s1) => (.ofFault c, s1)
      | (.error .stall, s1) => (.held, s1)
      | (.ok pt, s1) =>
        let head := leBytes 8 wd.bbDseq.toNat ++ leBytes 4 len ++ leBytes 4 1
        let (ct, tag) := gcmSeal (State.bounceKeyOf wd w) (State.bounceNonce wd.bbDseq) head pt
        let s2 := { s1 with hostMem := s1.hostMem.writeBytes (State.slotAddr wd l) (head ++ tag ++ ct) }
        (.done State.pcOk 0#8, s2.updWorld w fun y => { y with bbDseq := y.bbDseq + 1#64 })

def bounceForm (out : Nat) (l : List Byte) : Bool := isType 7 l && pktByte l 0x28 == 1 + 2 * out

def execBounceIn (s : State) : Host.Outcome State Fault Refusal := .next (s.serve (bounceForm 0) actBounceIn)
def execBounceOut (s : State) : Host.Outcome State Fault Refusal := .next (s.serve (bounceForm 1) actBounceOut)

/-! ### BIND (R32, R72, R77) -/

namespace State

/-- Writes the RW fields of a record: the state, or the status of a refusal. -/
def bindRecord (s : State) (w c i : Nat) (image : List Byte) : Except (BitVec 8) State :=
  match s.record? w c i with
  | none => .ok s
  | some dev =>
    let r := recordOfBytes image {}
    if recReserved r then .error pcBadBind
    else
      match s.installRecord w c i (overlay dev r) with
      | .ok s1 => .ok (s1.updCtx w c fun x => { x with win := AMap.erase x.win i })
      | .error .badBind => .error pcBadBind
      | .error .tidEnd => .error pcTidEnd

/-- A sweep that a packet asks for waits its turn; of a record that does not encrypt it completes at once (R77). -/
def askSweep (s : State) (w c i q no : Nat) : State :=
  if (match s.record? w c i with
      | some r => !r.encrypt && !s.confidential w
      | none => false) then s.completePkt w q no pcOk 0#8
  else s.updWorld w fun x => { x with sweeps := x.sweeps ++ [(c, i, some (q, no))] }

end State

/-- A BIND: with bit 0 the record, then with bit 1 the sweep, which the packet waits for. -/
def actBind : PktAct := fun s w q x l =>
  let i := leWord l 0x10 2
  let fl := pktByte l 0x12
  let r := if fl.testBit 0 then s.bindRecord w x.ctx i ((l.drop 0x18).take 32) else .ok s
  match r with
  | .error c => (.done c 0#8, s)
  | .ok s1 =>
    if fl.testBit 1 then (.start id fun s => s.askSweep w x.ctx i q x.nextNo, s1) else (.done State.pcOk 0#8, s1)

def execBindWrite (s : State) : Host.Outcome State Fault Refusal :=
  .next (s.serve (fun l => isType 8 l && pktByte l 0x12 != 2) actBind)

def execBindSweep (s : State) : Host.Outcome State Fault Refusal :=
  .next (s.serve (fun l => isType 8 l && pktByte l 0x12 == 2) actBind)

/-! ### LOAD_PAIR (R36, R37) -/

namespace State

/-- Whether a slot is busy: stored blocks name it, or a heddle run under it is in progress or waits. -/
def pairBusy (s : State) (w k : Nat) : Bool :=
  (s.slotOf w k).refs != 0 || (s.heddle.toList ++ s.heddles ++ s.runq).any fun r => r.world == w && r.slot == k

end State

/-- The lengths of an image's sections, or none where one is outside its range or a reserved byte is not zero. -/
def imageLens (h : List Byte) : Option (Nat × Nat × Nat × Nat) :=
  let e := leWord h 0 4
  let et := leWord h 4 4
  let d := leWord h 8 4
  let dt := leWord h 12 4
  let codeOk (n : Nat) : Bool := decide (1 ≤ n ∧ n ≤ 256)
  let tabOk (n : Nat) : Bool := decide (n ≤ 1024) && n % 4 == 0
  if codeOk e && codeOk d && tabOk et && tabOk dt && (h.drop 16).all (· == 0#8) then some (e, et, d, dt) else none

def wordsOf (l : List Byte) : List W32 := (List.range (l.length / 4)).map fun i => BitVec.ofNat 32 (leWord l (4 * i) 4)

/-- What an image gives: a slot, or the verifier's result. -/
def verifyImage (image : List Byte) (n : Nat × Nat × Nat × Nat) : Except (BitVec 8) PairSlot :=
  let body := image.drop 32
  let enc := wordsOf (body.take (4 * n.1))
  let encTab := (body.drop (4 * n.1)).take n.2.1
  let rest := body.drop (4 * n.1 + n.2.1)
  let dec := wordsOf (rest.take (4 * n.2.2.1))
  let decTab := (rest.drop (4 * n.2.2.1)).take n.2.2.2
  let r := if verify1 enc n.2.1 = 0 then verify1 dec n.2.2.2 else verify1 enc n.2.1
  if r = 0 then .ok { st := 1, enc := enc, dec := dec, encTab := encTab, decTab := decTab, phash := sha384 image }
  else .error (BitVec.ofNat 8 r)

def actLoadPair : PktAct := fun s w _ x l =>
  let k := pktByte l 0x10
  let va := pktWord l 0x18
  if s.pairBusy w k then (.done State.pcPairBusy 0#8, s)
  else
    match s.devRead w x.ctx va 32 with
    | (.error (.fault c _), s1) => (.ofFault c, s1)
    | (.error .stall, s1) => (.held, s1)
    | (.ok h, s1) =>
      match imageLens h with
      | none => (.done State.pcVerify 1#8, s1)
      | some n =>
        match s1.devRead w x.ctx va (32 + 4 * n.1 + n.2.1 + 4 * n.2.2.1 + n.2.2.2) with
        | (.error (.fault c _), s2) => (.ofFault c, s2)
        | (.error .stall, s2) => (.held, s2)
        | (.ok image, s2) =>
          match verifyImage image n with
          | .error c => (.done State.pcVerify c, s2)
          | .ok y => if s2.pairBusy w k then (.done State.pcPairBusy 0#8, s2)
            else (.done State.pcOk 0#8, s2.updSlot w k fun _ => y)

def actUnloadPair : PktAct := fun s w _ _ l =>
  let k := pktByte l 0x10
  if s.pairBusy w k then (.done State.pcPairBusy 0#8, s) else (.done State.pcOk 0#8, s.updSlot w k fun _ => {})

def execLoadPair (s : State) : Host.Outcome State Fault Refusal :=
  .next (s.serve (fun l => isType 9 l && pktWord l 0x18 != 0#64) actLoadPair)

def execUnloadPair (s : State) : Host.Outcome State Fault Refusal :=
  .next (s.serve (fun l => isType 9 l && pktWord l 0x18 == 0#64) actUnloadPair)

/-! ## Completion (R127, R132, R134, R122) -/

/-- Whether a packet has been skipped (R134). -/
def Pkt.skipped (p : Pkt) : Bool := p.result == some (State.pcSkipped, 0#8)

/-- Whether a started packet's turn to complete has come: one with the BARRIER bit after every earlier packet (R127), a skipped
one after every earlier skipped one (R134). -/
def Pkt.ready (earlier : List Pkt) (p : Pkt) : Bool :=
  p.result.isSome && !p.written && (!p.barrier || earlier.all fun e => e.written || e.old) &&
    (!p.skipped || earlier.all fun e => e.written || e.old || !e.skipped)

/-- The packets whose turn it is. -/
def readyPkts : List Pkt → List Pkt → List Pkt
  | _, [] => []
  | earlier, p :: r => (if p.ready earlier then [p] else []) ++ readyPkts (earlier ++ [p]) r

/-- How far DIDX moves, and what stays: a packet started before the last ENABLE neither holds DIDX back nor moves it. -/
def Pkt.drain : List Pkt → Nat × List Pkt
  | [] => (0, [])
  | p :: r =>
    if p.written then
      let (n, l) := Pkt.drain r
      (if p.old then n else n + 1, l)
    else if p.old then
      let (n, l) := Pkt.drain r
      (n, p :: l)
    else (0, p :: r.filter fun q => !(q.old && q.written))

namespace State

/-- A queue whose DISABLE waits becomes DISABLED when nothing that it started is left. -/
def settleDisable (s : State) (w q : Nat) : State :=
  match s.queue? w q with
  | none => s
  | some x =>
    if x.disabling && x.started.isEmpty then
      (s.updQueue w q fun x => { x with st := .disabled, disabling := false }).syncEntry w q
    else s

/-- The four steps of a completion, then the aborts that follow from it. A COMPSIG that is not 8-byte aligned is no BADPACKET: its
update fails like any other that faults. [DEDUCED 50] -/
def complete (s : State) (w q : Nat) (x : Queue) (p : Pkt) (code detail : BitVec 8) : State :=
  let (r1, s1) := s.devWrite w p.ctx (p.slot + 4#64) (leBytes 4 (code.toNat + 256 * detail.toNat))
  let (r2, s2) := if p.compsig = 0#64 then (SigOut.done, s1)
    else s1.updateSignal w p.ctx p.compsig (.compsig w q) (code != pcOk) (BitVec.allOnes 64)
  let s3 := s2.updQueue w q fun y =>
    let d := Pkt.drain (y.started.map fun e => if e.no = p.no then { e with written := true } else e)
    { y with started := d.2, didx := (y.didx + d.1) % 2 ^ y.log2n }
  let s4 := s3.syncEntry w q
  let s5 := if p.irq then s4.send (.msix w q) else s4
  let failed := r1.isSome || (match r2 with
    | .fault _ => true
    | _ => false)
  let s6 := if failed then s5.abortQueue w q pcFault
    else if p.aborts && !p.old && x.st = .active then s5.abortQueue w q code else s5
  s6.settleDisable w q

end State

/-- A packet that has its result completes; which of those that may is free. -/
def execPacketCompletion (s : State) : Host.Outcome State Fault Refusal :=
  let w := s.args.world
  let q := s.args.queue
  match s.queue? w q with
  | none => .next s
  | some x =>
    if (s.engineOf x.engine).stopped then .next s
    else
      let ps := readyPkts [] x.started
      let (v, s1) := s.drawWord
      match ps[v.toNat % ps.length]? with
      | some p => match p.result with
        | some (c, d) => .next (s1.complete w q x p c d)
        | none => .next s
      | none => .next s

/-! ## ENABLE and DISABLE (R120 to R122) -/

/-- Whether a write that a confidential world takes only with the T bit may take effect: one with the T bit comes on the
bound stream, one without it goes to a world that is not confidential (R96, R97, R120). [DEDUCED 57] -/
def World.trusts (x : World) (t : HostTag) : Bool := if t.tbit then t.stream.isSome && t.stream == x.stream else !x.conf

namespace State

/-- Queues on a lane of an engine, but for one. -/
def laneLoad (s : State) (e lane w q : Nat) : Nat :=
  (s.worlds.map fun x => (x.2.queues.filter fun y =>
    y.2.engine == e && y.2.lane == lane && y.2.st != .disabled && (x.1, y.1) != (w, q)).length).sum

/-- The emptiest lane of an engine, the lowest-numbered of equals, if it has room: the model's choice among those that have.
[DESIGN CHOICE 51] -/
def roomyLane (s : State) (e w q : Nat) : Option Nat :=
  let best := (List.range 64).foldl (fun (b : Nat × Nat) l =>
    let n := s.laneLoad e l w q
    if n < b.1 then (n, l) else b) (8, 0)
  if best.1 < 8 then some best.2 else none

/-- The panel that holds most of the quarters that a world owns at the moment, the lowest-numbered of equals. [DESIGN CHOICE 51] -/
def homePanel (s : State) (w : Nat) : Nat :=
  let count (p : Nat) : Nat := (s.quarters.filter fun q => q.1 / 256 == p && q.2.owner == w).length
  (List.range 8).foldl (fun b p => if count b < count p then p else b) 0

/-- Panel, engine and lane for a queue: the nearest panel with room (R121, R141). [DESIGN CHOICE 51] -/
def findLane (s : State) (w q : Nat) : Option (Nat × Nat × Nat) :=
  let home := s.homePanel w
  let dist (p : Nat) : Nat := (p - home) + (home - p)
  ((List.range 8).insertionSort fun a b => dist a ≤ dist b).findSome? fun p =>
    let e := if (s.engineOf p).moved then 8 else p
    (s.roomyLane e w q).map fun l => (p, e, l)

/-- Whether an entry may be enabled (R121 step 2). [DESIGN CHOICE 49] [DEDUCED 70] -/
def entryOk (s : State) (w : Nat) (l : List Byte) : Bool :=
  let w2 := leWord l 0x10 8
  let n := bits w2 19 16
  bits w2 63 20 == 0 && bits w2 15 12 == 0 && bits w2 7 0 == 0 && bits (leWord l 0x18 8) 63 33 == 0 &&
    bits (leWord l 0x20 8) 63 16 == 0 && bits (leWord l 0x20 8) 7 2 == 0 && (l.drop 0x28).all (· == 0#8) &&
    decide (1 ≤ n ∧ n ≤ 16) && leWord l 0 8 % 128 == 0 && (s.ctx? w (bits w2 11 8)).isSome

/-- Answers still due to a queue's BARRIER are no longer waited for. -/
def dropBarrierReads (s : State) (w q : Nat) : State :=
  { s with remote := s.remote.filter fun r => match r.2 with
      | .barrier w' q' _ _ => !(w' == w && q' == q)
      | _ => true }

/-- ENABLE fails: QSTATE stays, and QCAUSE says why. [DEDUCED 50] -/
def enableFails (s : State) (w q : Nat) (x : Queue) (cause : BitVec 8) : State :=
  let y := { x with cause := cause }
  let s1 := s.updWorld w fun d => { d with queues := AMap.set d.queues q y }
  (s1.devWrite w 0 (s1.entryAddr w q + 0x20#64) (leBytes 8 (cause.toNat * 256 + y.st.code))).2

end State

/-- QCMD ENABLE; a write that may not take effect is an Unsupported Request, but in ERROR it is ignored (R97, R101).
[DEDUCED 50] -/
def execEnable (s : State) : Host.Outcome State Fault Refusal :=
  let w := s.args.world
  let q := s.args.queue
  match s.world? w with
  | none => .next (s.send .unsupportedRequest)
  | some wd =>
    let x := AMap.getD wd.queues q {}
    if !wd.trusts s.args.tag && wd.tstate != .error then .next (s.send .unsupportedRequest)
    else if 64 ≤ q || wd.tstate != .run || !wd.trusts s.args.tag || x.st = .active then .next s
    else
      match s.devRead w 0 (s.entryAddr w q) 64 with
      | (.error _, s1) => .next (s1.enableFails w q x State.pcFault)
      | (.ok l, s1) =>
        if !s1.entryOk w l then .next (s1.enableFails w q x State.pcBadQueue)
        else
          match s1.findLane w q with
          | none => .next (s1.enableFails w q x State.pcNoRoom)
          | some (p, e, lane) =>
            let w2 := leWord l 0x10 8
            let y : Queue := { phase := true, curPhase := x.curPhase, ring := pktWord l 0, qsig := pktWord l 8, log2n := bits w2 19 16, ctx := bits w2 11 8
                               st := .active, panel := p, engine := e, lane := lane, nextNo := x.nextNo
                               started := x.started.map fun k => { k with old := true } }
            .next (((s1.dropBarrierReads w q).updWorld w fun d => { d with queues := AMap.set d.queues q y }).syncEntry w q)

/-- QCMD DISABLE: a BARRIER at the head is abandoned. [DEDUCED 50] -/
def execDisable (s : State) : Host.Outcome State Fault Refusal :=
  let w := s.args.world
  let q := s.args.queue
  match s.world? w with
  | none => .next (s.send .unsupportedRequest)
  | some wd =>
    let x := AMap.getD wd.queues q {}
    if !wd.trusts s.args.tag && wd.tstate != .error then .next (s.send .unsupportedRequest)
    else if wd.tstate != .run || !wd.trusts s.args.tag || x.st = .disabled then .next s
    else
      .next (((s.dropBarrierReads w q).updQueue w q fun x => { x with disabling := true, head := none, remSigs := [] }).settleDisable w q)

/-! ## Errors in an engine (R139 to R141) -/

/-- The effect of a packet of any type. -/
def actOf (l : List Byte) : PktAct :=
  match pktOp l with
  | 1 => actNop
  | 2 => actBarrier
  | 3 => actSignal
  | 4 => match pktByte l 0x10 with
    | 0 => actPhaseOpen
    | 1 => actPhaseClose
    | 2 => actCancelPhase
    | _ => actCancelJob
  | 5 => actLaunch
  | 6 => actGraph
  | 7 => match pktByte l 0x28 with
    | 1 => actBounceIn
    | 3 => actBounceOut
    | _ => actCopy
  | 8 => actBind
  | 9 => if pktWord l 0x18 = 0#64 then actUnloadPair else actLoadPair
  | 10 => actTimestamp
  | _ => actWrite

/-- Types that are performed again. [DESIGN CHOICE 51] -/
def redone (op : Nat) : Bool := op == 1 || op == 2 || op == 10 || op == 11

namespace State

/-- A packet whose performance had begun and was not committed: whether it had taken effect is free (R139). [DESIGN CHOICE 51] -/
def uncertain (s : State) (w q : Nat) (x : Queue) (l : List Byte) : State :=
  let (c, s1) := s.drawCoin
  let mark (s : State) : State := s.updQueue w q fun y => { y with started := y.started.map fun p =>
    if p.no = x.nextNo && !p.written then { p with result := some (pcUncertain, 0#8) } else p }
  let bare (s : State) : State := s.startPkt w q l fun p => { p with result := some (pcUncertain, 0#8) }
  let s2 := if !c then bare s1
    else
      let s3 := mark (s1.perform w q x l (actOf l))
      match s3.queue? w q with
      | some y => if y.nextNo = x.nextNo then bare s3 else s3
      | none => s3
  s2.failQueue w q pcUncertain

/-- The packets that the engine had taken: each had begun or not, which is free (R139 step 3). [DESIGN CHOICE 51] -/
def restartTaken (s : State) (e : Nat) : State :=
  (s.liveTaken e).foldl (fun s p =>
    match s.queue? p.1 p.2 with
    | none => s
    | some x => match x.head with
      | none => s
      | some l =>
        let (c, s1) := s.drawCoin
        if redone (pktOp l) || !c || x.st = .aborted then s1 else s1.uncertain p.1 p.2 x l) s |>.updEngine e fun x => { x with taken := [] }

/-- A failed engine's queues move to the spare, or are lost where it is in use (R141). [DESIGN CHOICE 51] -/
def takeOver (s : State) (e : Nat) : State :=
  let s1 := s.restartTaken e
  let inUse := s1.engines.any fun x => x.2.moved
  let mine := s1.worlds.flatMap fun w => (w.2.queues.filter fun q =>
    q.2.engine == e && (q.2.st == .active || q.2.st == .aborted || !q.2.started.isEmpty)).map fun q => (w.1, q.1)
  if inUse then
    (mine.foldl (fun s p => s.failQueue p.1 p.2 pcQueueLost) s1).updEngine e fun x => { x with stopped := false }
  else
    (mine.foldl (fun s p => s.updQueue p.1 p.2 fun x => { x with engine := 8 }) s1).updEngine e fun x =>
      { x with moved := true, stopped := false }

end State

/-- An uncorrectable error in an engine's instruction memory: it stops to reload, or gives way to the spare. [DESIGN CHOICE 51] -/
def execClauseEngineError (s : State) : Host.Outcome State Fault Refusal :=
  let e := s.args.unit
  let x := s.engineOf e
  if 8 < e || x.stopped then .next s
  else
    let again := match x.lastReload with
      | some t => decide (s.now < t + 1000000000)
      | none => false
    let s1 := s.updEngine e fun x => { x with lastReload := some s.now }
    if again && decide (e < 8) && !x.moved then .next (s1.takeOver e)
    else .next (s1.updEngine e fun x => { x with stopped := true })

/-- The reloaded engine runs again. [DESIGN CHOICE 51] -/
def execClauseEngineRestart (s : State) : Host.Outcome State Fault Refusal :=
  let e := s.args.unit
  if 8 < e || !(s.engineOf e).stopped then .next s
  else .next ((s.restartTaken e).updEngine e fun x => { x with stopped := false })

/-- An engine fails its self-check. -/
def execClauseSelfCheckFail (s : State) : Host.Outcome State Fault Refusal :=
  let e := s.args.unit
  if 8 ≤ e || (s.engineOf e).moved then .next s else .next (s.takeOver e)

/-- An uncorrectable error in the live copy of an entry: RING, QSIG and LOG2N come from the copy in memory. -/
def execQueueLost (s : State) : Host.Outcome State Fault Refusal :=
  let w := s.args.world
  let q := s.args.queue
  match s.queue? w q with
  | none => .next s
  | some x =>
    if x.st = .disabled then .next s
    else
      match s.devRead w 0 (s.entryAddr w q) 24 with
      | (.ok l, s1) =>
        let w2 := leWord l 0x10 8
        .next ((s1.updQueue w q fun x =>
          { x with ring := pktWord l 0, qsig := pktWord l 8, log2n := bits w2 19 16 }).failQueue w q State.pcQueueLost)
      | (.error _, s1) => .next (s1.failQueue w q State.pcQueueLost)

end Sys2Proof.Machine
end

