-- ==== Sys2Proof/Machine/Prot.lean ====
section
/-! DEFINITION. Sweeps (R77 to R80), the links of the fabric (R85, R86), and accesses between devices: what this device
does as a target and what an answer does at the requester (R88 to R91, R254). -/

namespace Sys2Proof.Machine

/-! ## Sweeps -/

/-- Whether a record is under ENCRYPT, which a confidential world has always (R71). -/
def State.encrypted (s : State) (w : Nat) (r : TRec) : Bool := r.encrypt || s.confidential w

/-- The world's sweep interval passes for a record, and firmware requests a sweep of it. -/
def execSweepIntervalExpiry (s : State) : Host.Outcome State Fault Refusal :=
  let w := s.args.world
  let c := s.args.ctx
  let i := s.args.n
  match s.world? w, s.record? w c i with
  | some x, some r =>
    if x.sweepInterval = 0 || !r.valid || !s.encrypted w r || s.now < r.validAt + x.sweepInterval * 1000000000 ||
        x.sweeps.any (fun q => q.1 == c && q.2.1 == i) then .next s
    else .next (s.updWorld w fun x => { x with sweeps := x.sweeps ++ [(c, i, none)] })
  | _, _ => .next s

namespace State

/-- The first request leaves the list, and its packet completes. [DESIGN CHOICE 30] -/
def endSweep (s : State) (w : Nat) (code : BitVec 8) : State :=
  match s.world? w with
  | none => s
  | some x =>
    match x.sweeps with
    | [] => s
    | (_, _, who) :: rest =>
      let s1 := s.updWorld w fun x => { x with sweeps := rest }
      match who with
      | some (q, idx) => s1.completePkt w q idx code 0#8
      | none => s1

def setSweep (r : TRec) (on : Bool) (p : Nat) : TRec :=
  { r with w0 := setField r.w0 9 9 (if on then 1 else 0), w3 := setField r.w3 39 0 p }

end State

/-- The oldest request of a world begins. [DESIGN CHOICE 30] -/
def execSweepStart (s : State) : Host.Outcome State Fault Refusal :=
  let w := s.args.world
  match s.world? w with
  | none => .next s
  | some x =>
    match x.sweeps with
    | [] => .next s
    | (c, i, _) :: _ =>
      match s.record? w c i with
      | none => .next (s.endSweep w State.pcOk)
      | some r =>
        if r.sweep then .next s
        else if !s.encrypted w r then .next (s.endSweep w State.pcOk)
        else if r.version = 0xffff then .next (s.endSweep w State.pcVersionEnd)
        else .next (s.setRecord w c i (State.setSweep r true 0))

/-- The sweep moves on by one block of a mapped page, or past a page that is not mapped; after the last block the record
takes its next version. The transfers of the block that it holds are granted as class 1 (R80). [DESIGN CHOICE 30] -/
def execSweepBlock (s : State) : Host.Outcome State Fault Refusal :=
  let w := s.args.world
  match s.world? w with
  | none => .next s
  | some x =>
    match x.sweeps with
    | [] => .next s
    | (c, i, _) :: _ =>
      match s.record? w c i with
      | none => .next s
      | some r =>
        if !r.sweep then .next s
        else
          let p := r.sweepPtr
          if 256 * r.pages ≤ p then
            let r1 := State.setSweep { r with w0 := setField r.w0 39 24 (r.version + 1), validAt := s.now } false 0
            .next ((s.setRecord w c i r1).endSweep w State.pcOk)
          else
            let va := r.base + 256 * p
            match s.blockAt w c (BitVec.ofNat 64 va) .devRead with
            | some (a, _) =>
              if a.trec = i then
                .next (((s.portRequest a.loc (min 8 (s.metaOf a.loc).scount) 1).reencrypt a r).advanceSweep w c i (p + 1))
              else .next (s.advanceSweep w c i ((p / 256 + 1) * 256))
            | none => .next (s.advanceSweep w c i ((p / 256 + 1) * 256))

/-! ## Links (R85, R86) -/

def execLinkDown (s : State) : Host.Outcome State Fault Refusal :=
  let p := s.args.unit
  if p < State.portCount && (s.linkAt p).up then .next (s.downLink p) else .next s

namespace State

/-- Once every link is up no member of a collective is cut off any more (R94). [DESIGN CHOICE 62] -/
def linksBack (s : State) : State :=
  if s.upPlanes.length = portCount then { s with colls := AMap.mapVals s.colls fun c => { c with linkDown := none } } else s

/-- The system number that the switch reports when the fabric is trained, if it reports one (R87). [DESIGN CHOICE 62] -/
def learnNumber (s : State) : State := if s.args.ok then { s with sysNum := s.args.m % 2 ^ 20 } else s

end State

/-- Fresh keys, and the plane is back in the hash; the device learns its number from the switch (R85 to R87). [DESIGN CHOICE 62] -/
def execLinkRetrain (s : State) : Host.Outcome State Fault Refusal :=
  let p := s.args.unit
  if p < State.portCount && !(s.linkAt p).up then
    .next ((s.updLink p fun l => { up := true, keyEpoch := l.keyEpoch + 1 }).linksBack.learnNumber)
  else .next s

/-- A frame arrives; one whose tag fails is dropped and sent again. [DESIGN CHOICE 71] -/
def execFrameReceive (s : State) : Host.Outcome State Fault Refusal :=
  let p := s.args.unit
  let l := s.linkAt p
  if !(p < State.portCount) || !l.up then .next s
  else if s.args.ok then
    let s1 := s.updLink p fun l => { l with rxFrames := l.rxFrames + 1, fails := 0 }
    if State.frameLimit ≤ l.rxFrames + 1 then .next (s1.downLink p) else .next s1
  else if 8 ≤ l.fails + 1 then .next (s.downLink p)
  else .next ((s.updLink p fun l => { l with fails := l.fails + 1 }).send (.frameResend p))

/-- A direction reaches its last frame: `ok` names the sending one. The frames that carry acknowledgements and fills are not
modelled one by one, so that the event sets the count. [DESIGN CHOICE 62] -/
def execFrameCountLimit (s : State) : Host.Outcome State Fault Refusal :=
  let p := s.args.unit
  if !(p < State.portCount) || !(s.linkAt p).up then .next s
  else
    .next ((s.updLink p fun l =>
      if s.args.ok then { l with txFrames := State.frameLimit } else { l with rxFrames := State.frameLimit }).downLink p)

/-! ## This device as a target (R88, R89, R91) -/

/-- What the target's checks come to. -/
inductive KeyCheck where
  | stale
  | refused
  | window
  | pass
deriving DecidableEq, Repr

def remWrites (k : RemKind) : Bool :=
  match k with
  | .load => false
  | .copyOut => false
  | _ => true

namespace State

/-- The key check on one address, in context 0 of the target world. Once the keys of a world are erased its accesses are refused
(R101); after the freeze point only a revoked key is told apart (R89). -/
def keyCheck (s : State) (q : RemoteReq) (va : Nat) : KeyCheck :=
  match s.world? q.world with
  | none => if (AMap.getD s.gone q.world []).contains q.key then .stale else .refused
  | some x =>
    if x.keys.isNone then .refused
    else if x.revoked.contains q.key then .stale
    else if x.frozen || 2 ^ 56 ≤ va then .refused
    else if recWinBase ≤ va then .window
    else match s.resolve q.world 0 va (if remWrites q.kind then .devWrite else .devRead) with
      | .place (.block a _) =>
        match s.recordOf a with
        | some r => if r.valid && r.exportBit && r.w1 == q.key then .pass else .refused
        | none => .refused
      | _ => .refused

/-- The check on every block of an access: the first failure decides. -/
def keyChecks (s : State) (q : RemoteReq) : List (Nat × Nat) → KeyCheck
  | [] => .pass
  | p :: ps => match s.keyCheck q p.1 with
    | .pass => keyChecks s q ps
    | r => r

def remLength (q : RemoteReq) : Nat :=
  match q.kind with
  | .load => q.size
  | .copyOut => q.size
  | .atomic _ _ => q.size
  | _ => q.data.length

def countRefused (s : State) (w : Nat) : State :=
  s.updWorld w fun x => { x with refused := if x.refused + 1 < 2 ^ 64 then x.refused + 1 else x.refused }

def stopAns : DevStop → RemoteAns
  | .fault c _ => .status c
  | .stall => .remoteKey

/-- Performs an access that has passed: the answer, and the state. [DEDUCED 61] -/
def performRemote (s : State) (q : RemoteReq) : RemoteAns × State :=
  match q.kind with
  | .load => read s q
  | .copyOut => read s q
  | .atomic op ty =>
    match s.resolve q.world 0 q.va.toNat .devWrite with
    | .place p =>
      match s.atomicPlace q.world 0 p q.size fun old =>
          some (atomicF op ty old (leNat (q.data.take q.size)) (leNat (q.data.drop q.size))) with
      | (.ok old, s1) => (.ok (leBytes q.size old), s1)
      | (.error e, s1) => (.status e.1, s1)
    | _ => (.remoteKey, s)
  | _ =>
    match s.devWrite q.world 0 q.va q.data with
    | (none, s1) => (.ok [], s1)
    | (some e, s1) => (stopAns e, s1)
where
  read (s : State) (q : RemoteReq) : RemoteAns × State :=
    match s.devRead q.world 0 q.va q.size with
    | (.ok bs, s1) => (.ok bs, s1)
    | (.error e, s1) => (stopAns e, s1)

/-- An answer goes out on the plane of its block. -/
def sendAns (s : State) (q : RemoteReq) (a : RemoteAns) : State := (s.send (.remoteAns q a)).onPlane q.va

/-- Checks, performs and answers an access. A refused access changes nothing but REFUSED. [DEDUCED 61] -/
def serveRemote (s : State) (q : RemoteReq) : State :=
  match s.keyChecks q (piecesOf q.va.toNat (remLength q)) with
  | .stale => s.sendAns q .staleKey
  | .refused => (s.countRefused q.world).sendAns q .remoteKey
  | .window => s.sendAns q (.status fcProtection)
  | .pass =>
    let (a, s1) := s.performRemote q
    s1.sendAns q a

end State

/-- An access of a device of the same domain reaches this one. [DESIGN CHOICE 71] -/
def execRemoteRequest (s : State) : Host.Outcome State Fault Refusal :=
  let q := s.args.req
  if domainOf q.fromSys != domainOf s.sysNum then .next s else .next (s.serveRemote q)

/-- A message of another domain reaches a receive ring; it is written whole before it is acknowledged. -/
def execCrossDomainMessage (s : State) : Host.Outcome State Fault Refusal :=
  let q := s.args.req
  if q.kind != .message || domainOf q.fromSys == domainOf s.sysNum then .next s else .next (s.serveRemote q)

/-! ## This device as the requester -/

/-- The bytes of an answer, but for those that the thread's own buffered stores cover (R261). -/
def PendLoad.forward (l : PendLoad) (t : Nat) (bs : List Byte) : List Byte :=
  (List.range bs.length).map fun j => match l.own.find? fun o => o.1 == t && o.2.1 == j with
    | some o => o.2.2
    | none => bs.getD j 0#8

/-- The words of one thread of a load arrive in the data that is still to be delivered. -/
def PendLoad.answer (l : PendLoad) (t : Nat) (ws : List W32) : PendLoad :=
  { l with
    uni := l.uni.map fun u => (u.1, ws)
    targets := ((List.range l.targets.length).zip l.targets).map fun p =>
      (p.2.1, p.2.2.1, Lanes.ofFn fun i => if l.once || i = t then ws.getD p.1 0#32 else p.2.2.2.get i) }

/-- A fault comes with an answer: the lowest thread's counts. [DEDUCED 61] -/
def PendLoad.spoil (l : PendLoad) (t : Nat) (code : BitVec 8) (va : W64) : PendLoad :=
  if l.faultThread ≤ t && l.fault.isSome then l else { l with fault := some (code, va), faultThread := t }

/-- A thread of an open region is doomed by a late fault (R264). [DEDUCED 61] -/
def Warp.doomLate (x : Warp) (t : Nat) (code : BitVec 8) : Warp :=
  { x with region := x.region.map fun r => r.doomThread t 5 code.toNat
           abortcode := match x.region with
             | some r => if r.doomed.getLsbD t then x.abortcode
                 else Lanes.ofFn fun i => if i = t then abortWord 5 code.toNat else x.abortcode.get i
             | none => x.abortcode }

namespace State

def loadFault (s : State) (b w id t : Nat) (code : BitVec 8) (va : W64) : State :=
  s.updWarp b w fun x =>
    match AMap.get? x.loads id with
    | none => x
    | some l =>
      if l.inTry && x.region.isSome then x.doomLate t code
      else { x with loads := AMap.set x.loads id (l.spoil t code va) }

/-- A fault of a store or red: held for its access, or, for a store of a commit, raised at the warp (R268). [DEDUCED 61] -/
def accLate (s : State) (b w id : Nat) (code : BitVec 8) (va : W64) : State :=
  match s.warp? b w with
  | none => s
  | some x =>
    if id = 0 then
      match x.active with
      | p :: _ => s.laneFault b w p.2.pc { code := code, addr := va }
      | [] => s
    else
      s.updWarp b w fun x => { x with accs := AMap.modify x.accs id fun a => { a with fault := a.fault <|> some (code, va) } }

end State

/-- The fault code of an answer, 0 where the access was performed. [DEDUCED 52] -/
def answerCode (a : RemoteAns) : BitVec 8 :=
  match a with
  | .ok _ => 0#8
  | .staleKey => fcStaleKey
  | .remoteKey => fcRemoteKey
  | .status c => c

/-- One answer less for a packet, which has its result once none is due. [DEDUCED 52] -/
def Pkt.answered (p : Pkt) (code : BitVec 8) : Pkt :=
  let late := if p.late = 0#8 then code else p.late
  { p with due := p.due - 1, late := late
           result := if p.due ≤ 1 && p.result.isNone then
               some (if late = 0#8 then (State.pcOk, 0#8) else (State.pcFault, late))
             else p.result }

/-- What a BARRIER learns of a remote signal (R133). [DEDUCED 52] -/
def RemSig.ofAnswer (a : RemoteAns) : RemSig :=
  match a with
  | .ok bs => .value (BitVec.ofNat 64 (leNat bs))
  | .staleKey => .stale
  | .remoteKey => .failed fcRemoteKey
  | .status c => .failed c

/-- An answer reaches this device and goes to the access that waits for it. -/
def execRemoteAnswer (s : State) : Host.Outcome State Fault Refusal :=
  match AMap.get? s.remote s.args.id with
  | none => .next s
  | some who =>
    let s1 := { s with remote := AMap.erase s.remote s.args.id, planes := AMap.erase s.planes s.args.id }
    match who with
    | .message _ _ => .next s1
    | .signal => .next s1
    | .packet w q no =>
      let settle (p : Pkt) : Pkt := if p.no = no then p.answered (answerCode s.args.ans) else p
      .next (s1.updQueue w q fun x => { x with started := x.started.map settle })
    | .compsig w q => if answerCode s.args.ans = 0#8 then .next s1 else .next (s1.abortQueue w q State.pcFault)
    | .barrier w q no k => .next (s1.updQueue w q fun x =>
        if x.nextNo = no && AMap.get? x.remSigs k = some .waiting then
          { x with remSigs := AMap.set x.remSigs k (RemSig.ofAnswer s.args.ans) }
        else x)
    | .load b w id t va =>
      match s.args.ans with
      | .ok bs => .next (s1.updWarp b w fun x =>
          { x with loads := AMap.modify x.loads id fun l => l.answer t (loadWords l.signed (l.forward t bs)) })
      | .staleKey => .next (s1.updWarp b w fun x => { x with rstatus := true })
      | .remoteKey => .next (s1.loadFault b w id t fcRemoteKey va)
      | .status c => .next (s1.loadFault b w id t c va)
    | .acc b w id _ va =>
      match s.args.ans with
      | .ok _ => .next s1
      | .staleKey => .next (s1.updWarp b w fun x => { x with rstatus := true })
      | .remoteKey => .next (s1.accLate b w id fcRemoteKey va)
      | .status c => .next (s1.accLate b w id c va)

end Sys2Proof.Machine
end

