-- ==== Sys2Proof/Machine/Host.lean ====
section
/-! DEFINITION. The host interface (R95 to R118): register and configuration writes, the memory aperture, the interface
states, the report, attestation, the debug policy, the call ring's registers, management commands and live migration. -/

namespace Sys2Proof.Config

/-- What the bytes of an image that another device has written bring, where they pass the checks (R117) [DESIGN CHOICE 60]. -/
opaque foreignImage : List Byte → Option Machine.MigImage

end Sys2Proof.Config

namespace Sys2Proof.Machine

/-! ## Requests of the host (R27, R96 to R98) -/

/-- A request that carries the T bit on the bound stream (R97). [DEDUCED 57] -/
def World.tOnly (x : World) (t : HostTag) : Bool := t.tbit && x.lockedIn && x.admits t

namespace State

/-- A request to the register block of a virtual function: refused before READY, where the function has no interface, or
where its T bit came on another stream; ignored in ERROR (R101 step 5). -/
def vfWrite (s : State) (w : Nat) (tag : HostTag) (f : World → State) : State :=
  match s.world? w with
  | none => s.send .unsupportedRequest
  | some x =>
    if !s.bootReady || !x.admits tag then s.send .unsupportedRequest
    else if x.tstate = .error then s
    else f x

end State

/-! ## Entering ERROR (R101, R138) -/

namespace State

/-- Every block of a world is terminated without a save. -/
def killBlocks (s : State) (w : Nat) : State :=
  (s.blocks.filter fun p => p.2.world == w).foldl (fun s p =>
    s.terminate p.1 { code := fcPreempt, wid := 0, pc := 0#64, addr := 0#64 } false) s

/-- The world's launches, graphs, phases and copies end; each phase's PSIG is set to −1 (R144). -/
def dropWork (s : State) (w : Nat) : State :=
  let s1 := (s.phases.filter fun p => p.2.world == w).foldl (fun s p =>
    s.setSignal w p.2.ctx p.2.psig true (BitVec.allOnes 64)) s
  let mine := (s1.graphs.filter fun p => p.2.world == w).map Prod.fst
  { s1 with
    phases := s1.phases.filter fun p => p.2.world != w
    launches := s1.launches.filter fun p => p.2.world != w
    readyBlks := s1.readyBlks.filter fun r => !mine.contains r.graph
    graphs := s1.graphs.filter fun p => p.2.world != w
    copies := s1.copies.filter fun p => p.2.world != w
    remote := s1.remote.filter fun r => match r.2 with
      | .packet v _ _ => v != w
      | .compsig v _ => v != w
      | .barrier v _ _ _ => v != w
      | _ => true }

/-- Every valid packet from RIDX on starts with IFACE_ERROR; `n` bounds their number. -/
def takeAllValid (w q : Nat) : Nat → State → State
  | 0, s => s
  | n + 1, s =>
    match s.queue? w q with
    | none => s
    | some x =>
      let slot := x.ring + BitVec.ofNat 64 (128 * x.ridx)
      -- a head that has been read is not read again (R125)
      let read : Except DevStop (List Byte) × State := match x.head with
        | some l => (.ok l, s)
        | none => s.devRead w x.ctx slot 128
      match read with
      | (.error _, s1) => s1
      | (.ok l, s1) =>
        if x.head.isNone && pktBit l 0 != x.phase then s1
        else takeAllValid w q n (s1.startPkt w q l fun p => { p with result := some (pcIfaceError, 0#8) })

/-- Every packet that has started and not completed completes with IFACE_ERROR, in order. [DEDUCED 56] -/
def completeAll (w q : Nat) : Nat → State → State
  | 0, s => s
  | n + 1, s =>
    match s.queue? w q with
    | none => s
    | some x =>
      match x.started.find? fun p => !p.written with
      | none => s
      | some p =>
        completeAll w q n (s.complete w q x p pcIfaceError 0#8)

/-- A queue in ERROR: FAILED, one that ran with IFACE_ERROR, its packets completed. [DEDUCED 56] -/
def errorQueue (s : State) (w q : Nat) : State :=
  match s.queue? w q with
  | none => s
  | some x =>
    let live := x.st = .active ∨ x.st = .aborted
    let s1 := if live then takeAllValid w q (2 ^ x.log2n) s else s
    let s2 := s1.updQueue w q fun y =>
      { y with st := .failed, cause := if live then pcIfaceError else y.cause, noRead := true, head := none, remSigs := []
               started := y.started.map fun p => { p with aborts := false } }
    match s2.queue? w q with
    | none => s2
    | some y => (completeAll w q y.started.length s2).putEntryTail w q |>.2

/-- The steps of R101 in their order, but for the ERROR cause and state: blocks and work, keys, queues, collectives. [DEDUCED 56] -/
def errorSteps (s : State) (w : Nat) : State :=
  let s1 := ((s.killBlocks w).dropWork w).updWorld w fun x =>
    { x with keys := none, sweeps := [], quiescing := false, quiesceOver := false, frozen := false }
  let qs := match s1.world? w with
    | none => []
    | some x => x.queues.map Prod.fst
  let s2 := qs.foldl (fun s q => s.errorQueue w q) s1
  (s2.colls.filter fun c => c.2.world == w).foldl (fun s c =>
    let (v, s') := s.drawWord
    s'.failColl c.1 2 (v.toNat % 256)) s2

/-- The quarters that a world owns and that stand empty are given back (R101 step 2, R150, R153). -/
def returnQuarters (s : State) (w : Nat) : State := (s.ownedBy w).foldl emptied s

/-- A locked interface enters ERROR with a cause; another is not touched. [DEDUCED 56] -/
def enterError (s : State) (w cause : Nat) : State :=
  match s.world? w with
  | none => s
  | some x =>
    if x.lockedIn then
      ((s.errorSteps w).updWorld w fun x => { x with tstate := .error, ecause := cause }).returnQuarters w
    else s

end State

/-! ## Register writes (R97, R100, R217) -/

/-- A write to an LK field before lock, by its offset; none where the offset names none. -/
def World.writeLk (x : World) (off : Nat) (v : W64) : Option World :=
  match off with
  | 0x008 => some { x with conf := v.getLsbD 0 }
  | 0x010 => some { x with qtbase := v }
  | 0x018 => some { x with evlog := v }
  | 0x050 => some { x with bbbase := v }
  | 0x058 => some { x with bbslots := bits v.toNat 15 0 }
  | 0x070 => some { x with featDrv := BitVec.ofNat 128 (x.featDrv.toNat / 2 ^ 64 * 2 ^ 64 + v.toNat) }
  | 0x078 => some { x with featDrv := BitVec.ofNat 128 (v.toNat * 2 ^ 64 + x.featDrv.toNat % 2 ^ 64) }
  | 0x2000 => some { x with crbase := v }
  | 0x2008 => some { x with crlog2n := bits v.toNat 3 0 }
  | _ =>
    if 0x020 ≤ off ∧ off < 0x050 ∧ off % 8 = 0 then
      let i := off - 0x020
      some { x with ownerDigest := x.ownerDigest.take i ++ leBytes 8 v.toNat ++ x.ownerDigest.drop (i + 8) }
    else none

/-- Features that FEAT_DEV offers, and whether a driver's word may be accepted (R113). -/
def featDev : BitVec 128 := 0xfff#128

def featOk (d : BitVec 128) : Bool :=
  d.toNat / 2 ^ 12 == 0 && (!d.getLsbD 1 || d.getLsbD 0) && (!d.getLsbD 7 || d.getLsbD 6)

/-- The size of a command block (R104). -/
def mcBytes : Nat := 512

/-- A write to the physical function's registers (R103). A command starts with the block's bytes, which the device reads
once; none where the host's memory does not answer (R104). [DEDUCED 59] -/
def State.pfWrite (s : State) (off : Nat) (v : W64) : State :=
  match off with
  | 0x100 => { s with mcAddr := v }
  | 0x108 =>
    if v.getLsbD 0 && !s.mcBusy && s.mcAddr.toNat % 512 == 0 then
      { s with mcBusy := true, mcResult := none, mcAt := s.mcAddr
               mcCmd := if s.args.reach = .ok then s.hostMem.readBytes s.mcAddr.toNat mcBytes else [] }
    else s
  | _ => s

/-- BOOT_STATUS (R26). -/
def State.bootStatus (s : State) : W64 :=
  BitVec.ofNat 64 ((if s.bootReady then 2 ^ 31 else 0) + (if s.bootFailed then 2 ^ 30 else 0) + s.bootCause.toNat * 2 ^ 16 +
    s.bootStage % 256)

/-- What a register of the physical function reads as: none where the read is an Unsupported Request, as it is for all but
BOOT_STATUS before READY (R4, R5, R26, R27, R103). An offset that no map lists reads as 0. [DESIGN CHOICE 74] -/
def State.pfRead (s : State) (off : Nat) : Option W64 :=
  if off = 0 then some s.bootStatus
  else if !s.bootReady then none
  else match off with
    | 0x100 => some s.mcAddr
    | 0x110 => some (BitVec.ofNat 64 (s.mcDone.toNat * 2 ^ 32 + (if s.mcBusy then 1 else 0)))
    | _ => some 0#64

/-- A write of 8 bytes to a function register that has no step of its own; function 0 is the physical one. -/
def execRegisterWrite (s : State) : Host.Outcome State Fault Refusal :=
  let w := s.args.world
  let off := s.args.n
  if w = 0 then
    .next (if s.bootReady then s.pfWrite off s.args.value else if off = 0 then s else s.send .unsupportedRequest)
  else
    .next (s.vfWrite w s.args.tag fun x =>
      match x.writeLk off s.args.value with
      | none => s
      | some y => if x.lockedIn then s.enterError w 1 else s.updWorld w fun _ => y)

/-- What a register of a function reads as, 0 the physical one; in ERROR all ones but for TSTATE and ECAUSE (R97, R101, R120,
R217). An offset that no map lists reads as 0 [DESIGN CHOICE 74]; FEAT_OK of a fresh interface reads as R113 has it, not as
the table's reset value [DESIGN CHOICE 74]. [DEDUCED 68] -/
def State.registerRead (s : State) (w off : Nat) : Option W64 :=
  if w = 0 then s.pfRead off
  else (s.world? w).map fun x =>
    let st : Nat := match x.tstate with
      | .unlocked => 0
      | .locked => 1
      | .run => 2
      | .error => 3
    if off = 0 then BitVec.ofNat 64 (x.ecause * 256 + st)
    else if x.tstate = .error then BitVec.allOnes 64
    else if 0x020 ≤ off ∧ off < 0x050 then BitVec.ofNat 64 (leWord x.ownerDigest (off - 0x020) 8)
    else if 0x1000 ≤ off ∧ off < 0x1200 then
      BitVec.ofNat 64 (QState.code ((AMap.getD x.queues ((off - 0x1000) / 8) {}).st))
    else match off with
      | 0x008 => if x.conf then 1#64 else 0#64
      | 0x010 => x.qtbase
      | 0x018 => x.evlog
      | 0x050 => x.bbbase
      | 0x058 => BitVec.ofNat 64 x.bbslots
      | 0x060 => BitVec.ofNat 64 featDev.toNat
      | 0x070 => BitVec.ofNat 64 x.featDrv.toNat
      | 0x078 => BitVec.ofNat 64 (x.featDrv.toNat / 2 ^ 64)
      | 0x080 => if featOk x.featDrv then 1#64 else 0#64
      | 0x088 => x.policyAddr
      | 0x090 => BitVec.ofNat 64 (x.presult * 2 ^ 32 + x.popen.toNat)
      | 0x098 => BitVec.ofNat 64 (x.bbEpoch.toNat * 2 ^ 32 + x.bbState)
      | 0x0a0 => x.bbDseq
      | 0x0b0 => x.bbLostFirst
      | 0x0b8 => x.bbLostLast
      | 0x2000 => x.crbase
      | 0x2008 => BitVec.ofNat 64 x.crlog2n
      | 0x2010 => BitVec.ofNat 64 x.crhead.toNat
      | 0x2018 => BitVec.ofNat 64 x.crtail.toNat
      | 0x2028 => x.crlost
      | _ => 0#64

namespace State

def fnConf (s : State) (f : Nat) : FnConf := AMap.getD s.fns f {}

/-- A configuration write to a function: applied while its interface is not locked, and the cause of ERROR after that (R100). -/
def confWrite (s : State) (f : Nat) (g : FnConf → FnConf) : State :=
  match s.world? f with
  | some x => if x.lockedIn then s.enterError f 1 else { s with fns := AMap.set s.fns f (g (s.fnConf f)) }
  | none => { s with fns := AMap.set s.fns f (g (s.fnConf f)) }

/-- As `confWrite`, but a write that changes nothing is none. -/
def confChange (s : State) (f : Nat) (g : FnConf → FnConf) : State :=
  if g (s.fnConf f) = s.fnConf f then s else s.confWrite f g

/-- A write to the SR-IOV fields of the physical function: while an interface is locked, every locked one enters ERROR. -/
def vfConfWrite (s : State) (g : FnConf → FnConf) : State :=
  if s.worlds.any fun p => p.2.lockedIn then s.worlds.foldl (fun s p => s.enterError p.1 1) s
  else { s with fns := AMap.set s.fns 0 (g (s.fnConf 0)) }

end State

/-- A configuration write to a function; before READY, and to a function that is not enabled, an Unsupported Request (R27).
[DESIGN CHOICE 55] -/
def execConfigWrite (s : State) : Host.Outcome State Fault Refusal :=
  let w := s.args.world
  let v := s.args.value
  if !s.bootReady || (w != 0 && (s.world? w).isNone) then .next (s.send .unsupportedRequest)
  else
    match s.args.cfg with
    | .bar => .next (s.confWrite w fun c => { c with bar := v })
    | .memSpace => .next (s.confChange w fun c => { c with memSpace := v.getLsbD 0 })
    | .busMaster => .next (s.confChange w fun c => { c with busMaster := v.getLsbD 0 })
    | .lkField => .next (s.enterError w 1)
    | .pfVfBar => .next (s.vfConfWrite fun c => { c with vfBar := v })
    | .pfNumVfs => .next (s.vfConfWrite fun c => { c with numVfs := v.toNat })
    | .other => .next s

def execIdeStreamFailure (s : State) : Host.Outcome State Fault Refusal := .next (s.enterError s.args.world 2)
def execKeyStoreError (s : State) : Host.Outcome State Fault Refusal := .next (s.enterError s.args.world 3)

/-! ## The memory aperture (R98, R253) -/

def apertureBytes : Nat := 2 ^ 36

namespace State

/-- Whether an aperture request may reach the world's memory. [DESIGN CHOICE 55] -/
def apertureOpen (s : State) (x : World) (tag : HostTag) (va n : Nat) : Bool :=
  s.bootReady && x.admits tag && !x.conf && decide (va + n ≤ apertureBytes)

/-- How a host access that met a fault completes (R50, R52, R75): data faults abort, an address that nothing answers is
unsupported. [DESIGN CHOICE 55] -/
def hostFault (c : BitVec 8) : OutMsg :=
  if c = fcPageFault || c = fcProtection || c = fcBadHandle then .unsupportedRequest else .completerAbort

/-- A host read; firmware backs or unseals the pages that it may. [DESIGN CHOICE 55] -/
def hostRead (w : Nat) (va : W64) (n : Nat) : Nat → State → State
  | 0, s => s.send .unsupportedRequest
  | fuel + 1, s =>
    match s.devRead w 0 va n with
    | (.ok bs, s1) => s1.send (.success bs)
    | (.error .stall, s1) => s1.send .completerAbort
    | (.error (.fault c a), s1) =>
      if c = fcPageFault then
        match s1.serviceGlobal w 0 a.toNat with
        | .ok s2 => hostRead w va n fuel s2
        | .final s2 code => s2.send (hostFault code)
      else s1.send (hostFault c)

/-- A posted host write. One that does not fit a fixed class is recorded (R50). [DESIGN CHOICE 55] -/
def hostWrite (w : Nat) (va : W64) (bs : List Byte) : Nat → State → State
  | 0, s => s.send .unsupportedRequest
  | fuel + 1, s =>
    match s.devWrite w 0 va bs with
    | (none, s1) => s1
    | (some .stall, s1) => s1.send .completerAbort
    | (some (.fault c a), s1) =>
      if c = fcPageFault then
        match s1.serviceGlobal w 0 a.toNat with
        | .ok s2 => hostWrite w va bs fuel s2
        | .final s2 code => s2.send (hostFault code)
      else if c = fcCodecFit then (s1.logEvent w a 3#8 0#8).send .completerAbort
      else s1.send (hostFault c)

end State

/-- A host read of `n` bytes through the aperture of a world. [DESIGN CHOICE 71] -/
def execHostMemoryRead (s : State) : Host.Outcome State Fault Refusal :=
  let w := s.args.world
  let n := s.args.n
  match s.world? w with
  | none => .next (s.send .unsupportedRequest)
  | some x =>
    if !s.apertureOpen x s.args.tag s.args.addr.toNat n then .next (s.send .unsupportedRequest)
    else if x.tstate = .error then .next (s.send (.success (List.replicate n 0xff#8)))
    else .next (State.hostRead w s.args.addr n (n / 65536 + 3) s)

def execHostMemoryWrite (s : State) : Host.Outcome State Fault Refusal :=
  let w := s.args.world
  let bs := s.args.bytes
  match s.world? w with
  | none => .next (s.send .unsupportedRequest)
  | some x =>
    if !s.apertureOpen x s.args.tag s.args.addr.toNat bs.length then .next (s.send .unsupportedRequest)
    else if x.tstate = .error then .next s
    else .next (State.hostWrite w s.args.addr bs (bs.length / 65536 + 3) s)

/-! ## The interface report (R107) and measurements (R110) -/

/-- A byte string of a fixed length. -/
def fit (n : Nat) (l : List Byte) : List Byte := l.take n ++ List.replicate (n - l.length) 0#8

def digestOf (i : Nat) : List Byte := fit 48 (Config.measurement i)

/-- The 2,048 bits of a quarter set. -/
def quarterBytes (qs : List Nat) : List Byte :=
  (List.range 256).map fun i =>
    BitVec.ofNat 8 ((List.range 8).foldl (fun a j => if qs.contains (8 * i + j) then a + 2 ^ j else a) 0)

/-- The device-specific part of a report. -/
def World.reportBytes (x : World) (w : Nat) : List Byte :=
  leBytes 2 1 ++ leBytes 1 w ++ leBytes 1 ((if x.conf then 1 else 0) + (if x.resumed then 2 else 0)) ++ leBytes 4 0 ++
    leBytes 32 x.nonce.toNat ++ leBytes 16 x.featDrv.toNat ++ fit 48 x.ownerDigest ++ digestOf 2 ++ digestOf 3 ++
    quarterBytes x.quarterSet ++ leBytes 2 x.sigma ++ leBytes 2 0 ++ leBytes 4 x.lambda ++
    leBytes 2 x.ranges.length ++ leBytes 6 0 ++
    x.ranges.flatMap fun r => leBytes 8 r.2.base.toNat ++ leBytes 8 r.2.len.toNat ++ leBytes 8 r.2.attr

/-- A measurement block; none where the index names none. -/
def State.measure (s : State) (i : Nat) : Option (List Byte) :=
  if 1 ≤ i ∧ i ≤ 6 then some (digestOf i)
  else if 0x41 ≤ i ∧ i ≤ 0x7f then
    some (match s.world? (i - 0x40) with
      | some x => if x.report.isEmpty then List.replicate 48 0#8 else sha384 x.report
      | none => List.replicate 48 0#8)
  else if 0x81 ≤ i ∧ i ≤ 0xbf then
    some (match s.world? (i - 0x80) with
      | some x => if x.policyDigest.isEmpty then List.replicate 48 0#8 else x.policyDigest
      | none => List.replicate 48 0#8)
  else none

/-! ## TDISP (R100) -/

namespace State

def drawNonce (s : State) : BitVec 256 × State :=
  let (bs, s1) := s.drawBytes 32
  (BitVec.ofNat 256 (leNat bs), s1)

/-- TDISP requests are accepted only inside a session with the host (R108). -/
def inSession (s : State) (peer : Nat) : Bool := s.bootReady && (AMap.getD s.sessions peer {}).established

/-- Answers a TDISP request about a function, where it may be looked at. -/
def tdisp (s : State) (w : Nat) (f : World → State) : State :=
  if !s.inSession 0 then s.send (.spdmError 0)
  else
    match s.world? w with
    | none => s.send (.tdispError false)
    | some x => f x

/-- A selective stream whose keys are in force. [DEDUCED 57] -/
def streamLive (s : State) (k : Option Nat) : Bool :=
  match k with
  | some i => AMap.getD s.ideKeys i 0 == 2
  | none => false

/-- What lock does: the stream is bound, the nonce drawn, the migration key derived, the report built. [DEDUCED 57] -/
def lockWorld (s : State) (w : Nat) (stream : Option Nat) : BitVec 256 × State :=
  let (n, s1) := s.drawNonce
  (n, s1.updWorld w fun x =>
    let y := { x with tstate := .locked, stream := stream, nonce := n, migKey := true, policySeq := 0, popen := 0#32
                      policyDigest := [] }
    { y with report := y.reportBytes w })

end State

def ringOk (x : World) : Bool := x.crbase == 0#64 || decide (4 ≤ x.crlog2n ∧ x.crlog2n ≤ 12)

def execLockInterfaceRequest (s : State) : Host.Outcome State Fault Refusal :=
  let w := s.args.world
  .next (s.tdisp w fun x =>
    if x.tstate = .unlocked && featOk x.featDrv && s.streamLive s.args.tag.stream && ringOk x then
      let (n, s1) := s.lockWorld w s.args.tag.stream
      s1.send (.tdispNonce n)
    else s.send (.tdispError false))

/-- RUN: the bounce channel, under a key of the session's secret `g`, and the call ring start afresh (R114, R217). -/
def World.startRun (x : World) (g : Nat) : World :=
  { x with tstate := .run
           bbState := if x.featDrv.getLsbD 9 && x.bbbase != 0#64 then 1 else 0
           bbEpoch := 0#32, bbDseq := 0#64, bbKey := g, crhead := 0#32, crtail := 0#32 }

/-- The export secret of the session with the host, which a channel key comes from (R114). -/
def State.exportGen (s : State) : Nat := (AMap.getD s.sessions 0 {}).keyGen

def execStartInterfaceRequest (s : State) : Host.Outcome State Fault Refusal :=
  let w := s.args.world
  .next (s.tdisp w fun x =>
    if x.tstate != .locked then s.send (.tdispError false)
    else if s.args.nonce != x.nonce then s.send (.tdispError true)
    else (s.updWorld w fun x => x.startRun s.exportGen).send .tdispOk)

namespace State

/-- The interface as it is created: new keys, empty slots, TIDs from 1, context 0. [DEDUCED 56] -/
def newWorld (s : State) : World × State :=
  ({ keys := some (s.freeCnt + 1), ctxs := [(0, {})] }, { s with freeCnt := s.freeCnt + 1 })

/-- Takes a world's blocks off their quarters, and its lines out of the caches. [DEDUCED 56] -/
def clearWorld (s : State) (w : Nat) : State :=
  let s1 := (s.blocks.filter fun p => p.2.world == w).foldl (fun s p =>
    { s with blocks := AMap.erase s.blocks p.1 }.leaveQuarters p.1 p.2.quarters) s
  { s1 with lines := s1.lines.filter fun l => l.2.world != w
            quarters := AMap.mapVals s1.quarters fun q => { q with tcache := q.tcache.filter fun t => t.1 != w } }

/-- Up to the release of the memory bindings: the ERROR steps if they have not been taken, and nothing left behind. [DEDUCED 56] -/
def stopWorld (s : State) (w : Nat) : State :=
  match s.world? w with
  | none => s
  | some x => ((if x.tstate = .error then s else s.errorSteps w).clearWorld w).returnQuarters w

end State

/-- The interface is created afresh; its quarter set, shares and limits stay. -/
def execStopInterfaceRequest (s : State) : Host.Outcome State Fault Refusal :=
  let w := s.args.world
  .next (s.tdisp w fun x =>
    let (y, s1) := (s.stopWorld w).newWorld
    (s1.updWorld w fun z =>
      { y with quarterSet := x.quarterSet, sigma := x.sigma, lambda := x.lambda, stall := x.stall, deadline := x.deadline
               quiesce := x.quiesce, sweepInterval := x.sweepInterval, allot := x.allot
               deficit := z.deficit, held := z.held }).send .tdispOk)

def execGetDeviceInterfaceReport (s : State) : Host.Outcome State Fault Refusal :=
  .next (s.tdisp s.args.world fun x =>
    if x.lockedIn then s.send (.tdispReport (if x.conf then 1 else 2) x.report) else s.send (.tdispError false))

/-! ## SPDM (R108 to R110) -/

namespace State

def updSession (s : State) (peer : Nat) (f : Session → Session) : State :=
  { s with sessions := AMap.set s.sessions peer (f (AMap.getD s.sessions peer {})) }

/-- Whether the device answers a requester: the host (0), or the peer device `peer - 1` where that has the lower system number,
since between two devices that one is the requester (R109). -/
def answers (s : State) (peer : Nat) : Bool := peer == 0 || decide (peer - 1 < s.sysNum)

/-- Answers an SPDM request `req` of a requester with response `code`, where the session is ready for it. [PRESUMED 58] -/
def spdmReply (s : State) (peer req code : Nat) (ok : Session → Bool) (payload : Session → List Byte)
    (f : Session → Session) : State :=
  if !s.bootReady then s.send .unsupportedRequest
  else
    let x := AMap.getD s.sessions peer {}
    if !s.answers peer || !ok x then s.send (.spdmError peer)
    else
      let p := payload x
      (s.updSession peer fun x =>
        let y := f x
        { y with transcript := y.transcript ++ [BitVec.ofNat 8 req, BitVec.ofNat 8 code] ++ p }).send (.spdm peer code p)

/-- A hybrid signature over a transcript hash (R109). [PRESUMED 58] -/
def hybridSig (l : List Byte) : List Byte := fit 64 (Config.signature 0 l) ++ fit 3309 (Config.signature 1 l)

end State

def execGetVersion (s : State) : Host.Outcome State Fault Refusal :=
  .next (s.spdmReply s.args.unit 0x84 0x04 (fun _ => true) (fun _ => [0x13#8]) fun x =>
    { version := true, keyGen := x.keyGen })

def execGetCapabilities (s : State) : Host.Outcome State Fault Refusal :=
  .next (s.spdmReply s.args.unit 0xe1 0x61 (fun x => x.version) (fun _ => []) fun x => { x with caps := true })

def execNegotiateAlgorithms (s : State) : Host.Outcome State Fault Refusal :=
  let a := s.args.algs
  .next (s.spdmReply s.args.unit 0xe3 0x63 (fun x => x.caps && a.sha384 && a.ecdhP384 && a.aes256gcm) (fun _ => []) fun x =>
    { x with algs := true })

def execGetDigests (s : State) : Host.Outcome State Fault Refusal :=
  .next (s.spdmReply s.args.unit 0x81 0x01 (fun x => x.algs)
    (fun _ => sha384 (Config.certChain 0) ++ sha384 (Config.certChain 1)) id)

def execGetCertificate (s : State) : Host.Outcome State Fault Refusal :=
  let n := s.args.n
  .next (s.spdmReply s.args.unit 0x82 0x02 (fun x => x.algs && decide (n ≤ 1)) (fun _ => Config.certChain n) id)

def execChallenge (s : State) : Host.Outcome State Fault Refusal :=
  let n := s.args.n
  let asked := leBytes 32 s.args.nonce.toNat
  let (own, s1) := s.drawBytes 32
  .next (s1.spdmReply s.args.unit 0x83 0x03 (fun x => x.algs && decide (n ≤ 1))
    (fun x => sha384 (Config.certChain n) ++ own ++ State.hybridSig (sha384 (x.transcript ++ asked ++ own))) id)

def execGetMeasurements (s : State) : Host.Outcome State Fault Refusal :=
  let m := s.measure s.args.n
  .next (s.spdmReply s.args.unit 0xe0 0x60 (fun x => x.algs && m.isSome) (fun _ => m.getD []) id)

def execKeyExchange (s : State) : Host.Outcome State Fault Refusal :=
  let g := s.freeCnt + 1
  let s1 := { s with freeCnt := g }
  .next (s1.spdmReply s.args.unit 0xe4 0x64 (fun x => x.algs)
    (fun x => Config.keyShare g ++ State.hybridSig (sha384 (x.transcript ++ s.args.bytes ++ Config.keyShare g))) fun x =>
      { x with keyEx := true, established := false, keyGen := g })

/-- Whether a peer device's hybrid field over the transcript is accepted: its two public keys and its two signatures, both of
which must verify (R109). [PRESUMED 58] -/
def Session.peerSigned (x : Session) (l : List Byte) : Bool :=
  let h := sha384 x.transcript
  let sigs := l.drop 1984
  Config.signatureOk (l.take 32) (h ++ sigs.take 64) && Config.signatureOk ((l.drop 32).take 1952) (h ++ (sigs.drop 64).take 3309)

def execFinish (s : State) : Host.Outcome State Fault Refusal :=
  .next (s.spdmReply s.args.unit 0xe5 0x65
    (fun x => x.keyEx && s.args.ok && (s.args.unit == 0 || x.peerSigned s.args.bytes)) (fun _ => []) fun x =>
    { x with established := true, keyEx := false, updates := 0 })

def execKeyUpdate (s : State) : Host.Outcome State Fault Refusal :=
  .next (s.spdmReply s.args.unit 0xe9 0x69 (fun x => x.established) (fun _ => []) fun x => { x with updates := x.updates + 1 })

def execHeartbeat (s : State) : Host.Outcome State Fault Refusal :=
  .next (s.spdmReply s.args.unit 0xe8 0x68 (fun x => x.established) (fun _ => []) id)

def execEndSession (s : State) : Host.Outcome State Fault Refusal :=
  .next (s.spdmReply s.args.unit 0xec 0x6c (fun x => x.established) (fun _ => []) fun x => { x with established := false })

/-- IDE key management: a stream's keys are programmed (1), then in force (2). -/
def execIdeKm (s : State) : Host.Outcome State Fault Refusal :=
  let k := s.args.n
  let st := AMap.getD s.ideKeys k 0
  let ok (x : Session) : Bool := x.established && decide (k < 64) && (match s.args.ide with
    | .setGo => st != 0
    | _ => true)
  let st1 := match s.args.ide with
    | .query => st
    | .keyProg => 1
    | .setGo => 2
    | .setStop => 0
  let x := AMap.getD s.sessions s.args.unit {}
  let s1 := if ok x then { s with ideKeys := AMap.set s.ideKeys k st1 } else s
  .next (s1.spdmReply s.args.unit 0xfe 0x7e ok (fun _ => [BitVec.ofNat 8 st1]) id)

/-! ## The debug policy (R111, R112) -/

def policyBytes : Nat := 5421

/-- The first check that a policy fails; 0 where it passes them all. [DEDUCED 57] -/
def policyCheck (x : World) (w : Nat) (p : List Byte) : Nat :=
  let keys := (p.drop 0xd6d).take 1984
  let edKey := keys.take 32
  let mlKey := keys.drop 32
  let msg := p.take 0x40
  let feats := leWord p 0x30 4
  let clean := leWord p 0 4 == 1 && leWord p 4 1 == w && leWord p 5 3 == 0 && leWord p 0x34 12 == 0 &&
    bits feats 14 9 == 0 && bits feats 31 16 == 0
  if !clean then 1
  else if (p.drop 8).take 32 != leBytes 32 x.nonce.toNat then 2
  else if leWord p 0x28 8 < x.policySeq then 3
  else if sha384 keys != x.ownerDigest then 4
  else if !(Config.signatureOk edKey (msg ++ (p.drop 0x40).take 64) && Config.signatureOk mlKey (msg ++ (p.drop 0x80).take 3309)) then 5
  else 0

/-- A write to POLICY_ADDR; in RUN the policy there is read and checked (R97, R112). [DEDUCED 57] -/
def execPolicyPresent (s : State) : Host.Outcome State Fault Refusal :=
  let w := s.args.world
  .next (s.vfWrite w s.args.tag fun x =>
    if !x.tOnly s.args.tag then s.send .unsupportedRequest
    else if !s.feature w 11 then s
    else if x.tstate != .run then s.updWorld w fun x => { x with policyAddr := s.args.addr }
    else
      let s1 := s.updWorld w fun x => { x with policyAddr := s.args.addr }
      let (r, s2) := s1.devRead w 0 s.args.addr policyBytes
      let p := match r with
        | .ok bs => bs
        | .error _ => []
      let res := policyCheck x w p
      let s3 := s2.updWorld w fun x => { x with presult := res }
      let s4 := if res = 0 then s3.updWorld w fun x =>
          { x with popen := BitVec.ofNat 32 (leWord p 0x30 4), policySeq := leWord p 0x28 8 + 1, policyDigest := sha384 p }
        else s3
      s4.logEvent w s.args.addr 4#8 (BitVec.ofNat 8 res))

/-! ## The bounce channel's RESYNC (R116) and the call ring's registers (R217 to R219) -/

/-- RESYNC with the host's counter `h`; the new epoch's key comes from the session's secret `g`. [DEDUCED 54] -/
def World.resync (x : World) (h : W64) (g : Nat) : World :=
  let d := x.bbDseq.toNat
  let lo := min h.toNat d
  let hi := max h.toNat d
  { x with bbLostFirst := BitVec.ofNat 64 lo, bbLostLast := BitVec.ofNat 64 hi, bbDseq := BitVec.ofNat 64 (hi + 1)
           bbEpoch := x.bbEpoch + 1#32, bbKey := g, bbState := 1 }

def execResync (s : State) : Host.Outcome State Fault Refusal :=
  let w := s.args.world
  .next (s.vfWrite w s.args.tag fun x =>
    if !x.tOnly s.args.tag then s.send .unsupportedRequest
    else if x.tstate != .run || x.bbState == 0 then s
    else s.updWorld w fun x => x.resync s.args.value s.exportGen)

namespace State

/-- A write to the call ring's registers, which a confidential world takes only under R97. -/
def ringWrite (s : State) (f : World → State) : State :=
  s.vfWrite s.args.world s.args.tag fun x => if x.trusts s.args.tag then f x else s.send .unsupportedRequest

def tokenOf (v : W64) : BitVec 32 := BitVec.ofNat 32 (v.toNat / 2 ^ 32)

end State

def execActionResume (s : State) : Host.Outcome State Fault Refusal :=
  .next (s.ringWrite fun _ => s.writeToken s.args.world (State.tokenOf s.args.value) 1)

def execActionTerminate (s : State) : Host.Outcome State Fault Refusal :=
  .next (s.ringWrite fun _ => s.writeToken s.args.world (State.tokenOf s.args.value) 2)

def execCrtailWrite (s : State) : Host.Outcome State Fault Refusal :=
  let w := s.args.world
  .next (s.ringWrite fun _ =>
    (s.updWorld w fun x => { x with crtail := BitVec.ofNat 32 s.args.value.toNat }).flushRing 4096 w)

/-! ## Management commands (R103 to R106) -/

/-- Codes of R104. -/
def mcOk : BitVec 8 := 0x00#8
def mcBadCmd : BitVec 8 := 0x01#8
def mcNoWorld : BitVec 8 := 0x02#8
def mcExists : BitVec 8 := 0x03#8
def mcLocked : BitVec 8 := 0x04#8
def mcBadState : BitVec 8 := 0x05#8
def mcFeatureOff : BitVec 8 := 0x06#8
def mcOvercommit : BitVec 8 := 0x07#8
def mcNoRoom : BitVec 8 := 0x08#8
def mcPeer : BitVec 8 := 0x09#8

def TState.code : TState → Nat
  | .unlocked => 0
  | .locked => 1
  | .run => 2
  | .error => 3

/-- A field of a command block: offset and size. -/
abbrev McField := Nat × Nat

/-- Offsets of the faulty bytes of a block: the header's, the bytes that the opcode does not list, and `extra`. [DEDUCED 59] -/
def mcBad (b : List Byte) (fields : List McField) (device : Bool) (extra : List Nat) : List Nat :=
  let world := leWord b 2 1
  let listed (i : Nat) : Bool := fields.any fun f => decide (f.1 ≤ i ∧ i < f.1 + f.2)
  offsetIf (if device then world != 0 else decide (world < 1 ∨ 63 < world)) 2 ++
    (([3] ++ (List.range 8).map (8 + ·) ++ (List.range 496).map (0x10 + ·)).filter fun i => !listed i && pktByte b i != 0) ++ extra

/-- What a command answers: a code and its detail, or nothing yet. -/
abbrev McAnswer := Option (BitVec 8 × Nat)

def ranged (b : List Byte) (f : McField) (lo hi : Nat) : List Nat :=
  offsetIf (decide (leWord b f.1 f.2 < lo ∨ hi < leWord b f.1 f.2)) f.1

namespace State

/-- Performs the command that MC_GO started, if it is of this opcode and none is being answered. -/
def command (s : State) (op : Nat) (fields : List McField) (device : Bool) (extra : Option World → List Byte → List Nat)
    (act : State → Nat → List Byte → McAnswer × State) : State :=
  let b := s.mcCmd
  let w := leWord b 2 1
  if !s.bootReady || !s.mcBusy || s.mcResult.isSome || leWord b 0 2 != op then s
  else
    match mcBad b fields device (extra (s.world? w) b) with
    | o :: os => { s with mcResult := some (mcBadCmd, os.foldl min o) }
    | [] =>
      match act s w b with
      | (some r, s1) => { s1 with mcResult := some r }
      | (none, s1) => s1

/-- A command on an interface that must be in CONFIG_UNLOCKED. -/
def unlockedOnly (s : State) (w : Nat) (f : World → McAnswer × State) : McAnswer × State :=
  match s.world? w with
  | none => (some (mcNoWorld, 0), s)
  | some x =>
    match x.tstate with
    | .unlocked => f x
    | .error => (some (mcBadState, 3), s)
    | _ => (some (mcLocked, 0), s)

end State

/-- CREATE_WORLD; whether firmware memory holds the tables of context 0 is free (R104, R106). [DEDUCED 59] -/
def execCreateWorld (s : State) : Host.Outcome State Fault Refusal :=
  let room := s.args.ok
  .next (s.command 1 [] false (fun _ _ => []) fun s w _ =>
    match s.world? w with
    | some _ => (some (mcExists, 0), s)
    | none =>
      if !room then (some (mcNoRoom, 0), s)
      else
        let (x, s1) := s.newWorld
        (some (mcOk, 0), { s1 with worlds := AMap.set s1.worlds w x, gone := AMap.erase s1.gone w }))

/-- The quarters a block names. -/
def quartersOf (b : List Byte) : List Nat :=
  (List.range 2048).filter fun i => (pktByte b (0x20 + i / 8)).testBit (i % 8)

/-- Whether shares would pass 1,024 on a quarter of the set (R151). -/
def State.overcommits (s : State) (w sigma : Nat) (qs : List Nat) : Bool :=
  qs.any fun q => decide (1024 < sigma + (s.worlds.map fun p =>
    if p.1 != w && p.2.quarterSet.contains q then p.2.sigma else 0).sum)

/-- BIND_QUARTERS. -/
def execBindQuarters (s : State) : Host.Outcome State Fault Refusal :=
  .next (s.command 2 [(0x10, 2), (0x14, 4), (0x20, 256)] false
    (fun _ b => ranged b (0x10, 2) 1 1024 ++ ranged b (0x14, 4) 1 1000000) fun s w b =>
      s.unlockedOnly w fun _ =>
        let qs := quartersOf b
        let sigma := leWord b 0x10 2
        if s.overcommits w sigma qs then (some (mcOvercommit, 0), s)
        else
          let s1 := s.updWorld w fun x => { x with quarterSet := qs, sigma := sigma, lambda := leWord b 0x14 4 }
          -- an empty quarter that has left its owner's set is given back at once (R150)
          (some (mcOk, 0), ((s1.ownedBy w).filter fun q => !qs.contains q).foldl State.emptied s1))

/-- The range a BIND_MEMORY block describes. -/
def rangeOfBlock (b : List Byte) : MemRange :=
  { base := pktWord b 0x18, len := pktWord b 0x20, attr := leWord b 0x28 8, host := pktWord b 0x30 }

/-- Faulty fields of a BIND_MEMORY block. [DEDUCED 59] -/
def bindMemoryBad (x : Option World) (b : List Byte) : List Nat :=
  let i := leWord b 0x10 1
  let r := rangeOfBlock b
  let lo := r.base.toNat
  let hi := r.base.toNat + r.len.toNat
  let others : AMap MemRange := match x with
    | some y => y.ranges.filter fun (p : Nat × MemRange) => p.1 != i
    | none => []
  let overlap := others.any fun p => decide (lo < p.2.base.toNat + p.2.len.toNat ∧ p.2.base.toNat < hi)
  ranged b (0x10, 1) 0 63 ++ ranged b (0x11, 1) 0 1 ++
    (if leWord b 0x11 1 = 1 then []
     else
      offsetIf (lo % 65536 != 0 || decide (2 ^ 56 ≤ lo ∨ recWinBase < hi) || overlap) 0x18 ++
      offsetIf (r.len.toNat % 65536 != 0 || r.len == 0#64) 0x20 ++ offsetIf (decide (3 < r.attr)) 0x28 ++
      offsetIf (if r.attr % 2 = 1 then r.host.toNat % 65536 != 0 else r.host != 0#64) 0x30)

/-- BIND_MEMORY. -/
def execBindMemory (s : State) : Host.Outcome State Fault Refusal :=
  .next (s.command 3 [(0x10, 1), (0x11, 1), (0x18, 8), (0x20, 8), (0x28, 8), (0x30, 8)] false bindMemoryBad fun s w b =>
    s.unlockedOnly w fun _ =>
      let i := leWord b 0x10 1
      (some (mcOk, 0), s.updWorld w fun x =>
        { x with ranges := if leWord b 0x11 1 = 1 then AMap.erase x.ranges i else AMap.set x.ranges i (rangeOfBlock b) }))

/-- CREATE_CONTEXT: contexts are no item that R102 freezes, so that a locked interface gives BADSTATE (R105); whether firmware
memory holds its tables is free (R106). [DEDUCED 59] -/
def execCreateContext (s : State) : Host.Outcome State Fault Refusal :=
  let room := s.args.ok
  .next (s.command 4 [(0x10, 1), (0x12, 2)] false
    (fun _ b => ranged b (0x10, 1) 1 15 ++ ranged b (0x12, 2) 2 65535) fun s w b =>
      let c := leWord b 0x10 1
      match s.world? w with
      | none => (some (mcNoWorld, 0), s)
      | some x =>
        if AMap.has x.ctxs c then (some (mcExists, 0), s)
        else if x.tstate != .unlocked then (some (mcBadState, x.tstate.code), s)
        else if !room then (some (mcNoRoom, 0), s)
        else (some (mcOk, 0), s.updWorld w fun x => { x with ctxs := AMap.set x.ctxs c { nrec := leWord b 0x12 2 } }))

/-- Whether the mask of a block has bit `i`. [DEDUCED 59] -/
def masked (b : List Byte) (i : Nat) : Bool := (pktByte b 0x10).testBit i

def rangedIf (c : Bool) (b : List Byte) (f : McField) (lo hi : Nat) : List Nat := if c then ranged b f lo hi else []

def World.setLimits (x : World) (b : List Byte) : World :=
  { x with stall := if masked b 0 then leWord b 0x14 4 else x.stall
           deadline := if masked b 1 then leWord b 0x18 4 else x.deadline
           quiesce := if masked b 2 then leWord b 0x1c 4 else x.quiesce
           sweepInterval := if masked b 3 then leWord b 0x20 4 else x.sweepInterval
           allot := if masked b 4 then leWord b 0x28 8 else x.allot }

/-- SET_LIMITS. -/
def execSetLimits (s : State) : Host.Outcome State Fault Refusal :=
  .next (s.command 5 [(0x10, 1), (0x14, 4), (0x18, 4), (0x1c, 4), (0x20, 4), (0x28, 8)] false
    (fun _ b => ranged b (0x10, 1) 0 31 ++ rangedIf (masked b 0) b (0x14, 4) 1 1000 ++
      rangedIf (masked b 1) b (0x18, 4) 1000 1000000 ++ rangedIf (masked b 2) b (0x1c, 4) 1000 1000000) fun s w b =>
      match s.world? w with
      | none => (some (mcNoWorld, 0), s)
      | some x =>
        if x.lockedIn && masked b 4 then (some (mcLocked, 0), s)
        else if x.tstate = .error then (some (mcBadState, 3), s)
        else (some (mcOk, 0), s.updWorld w fun x => x.setLimits b))

/-- SET_DEVICE. -/
def execSetDevice (s : State) : Host.Outcome State Fault Refusal :=
  .next (s.command 6 [(0x10, 1), (0x14, 4), (0x18, 4)] true
    (fun _ b => ranged b (0x10, 1) 0 3 ++ rangedIf (masked b 0) b (0x14, 4) 1800 3600 ++
      offsetIf (masked b 0 && leWord b 0x14 4 % 50 != 0) 0x14 ++ rangedIf (masked b 1) b (0x18, 4) 10 10000) fun s _ b =>
      (some (mcOk, 0), { s with
        capW := if masked b 0 then leWord b 0x14 4 else s.capW
        drainLimit := if masked b 1 then leWord b 0x18 4 else s.drainLimit }))

namespace State

/-- The interface and all that belongs to it is gone. -/
def removeWorld (s : State) (w : Nat) : State :=
  let s1 := s.stopWorld w
  { s1 with worlds := AMap.erase s1.worlds w }

end State

/-- DESTROY_WORLD. -/
def execDestroyWorld (s : State) : Host.Outcome State Fault Refusal :=
  .next (s.command 9 [] false (fun _ _ => []) fun s w _ =>
    match s.world? w with
    | none => (some (mcNoWorld, 0), s)
    | some _ => (some (mcOk, 0), s.removeWorld w))

/-- SET_ERROR. -/
def execSetError (s : State) : Host.Outcome State Fault Refusal :=
  .next (s.command 10 [] false (fun _ _ => []) fun s w _ =>
    match s.world? w with
    | none => (some (mcNoWorld, 0), s)
    | some x => if x.lockedIn then (some (mcOk, 0), s.enterError w 4) else (some (mcBadState, x.tstate.code), s))

/-- A command ends: STATUS, MC_DONE, MC_BUSY, the interrupt. An unassigned opcode ends with BADCMD; a block that could not be
read keeps its STATUS (R104). -/
def execMcCompletion (s : State) : Host.Outcome State Fault Refusal :=
  let op := leWord s.mcCmd 0 2
  let r := match s.mcResult with
    | some r => some r
    | none => if op < 1 || 10 < op then some (mcBadCmd, 0) else none
  match r with
  | none => .next s
  | some (c, d) =>
    if !s.bootReady || !s.mcBusy then .next s
    else
      let m := if s.mcCmd.isEmpty then s.hostMem
        else s.hostMem.writeBytes (s.mcAt.toNat + 4) (leBytes 4 (c.toNat + d % 65536 * 256))
      .next ({ s with hostMem := m, mcDone := s.mcDone + 1#32, mcBusy := false, mcResult := none }.send (.msix 0 0))

/-! ## Live migration (R89, R117) -/

namespace State

/-- Whether a world's blocks, copies and requests are at rest: all is saved, and the rest has run to its end unless the
quiesce limit has passed. -/
def quiesced (s : State) (w : Nat) (x : World) : Bool :=
  (s.blocks.all fun p => p.2.world != w || (p.2.run == .saved && p.2.service.isNone)) && (s.copies.all fun c => c.2.world != w) &&
    (s.remote.all fun r => match r.2 with
      | .packet v _ _ => v != w
      | .compsig v _ => v != w
      | .barrier v _ _ _ => v != w
      | _ => true) &&
    (x.quiesceOver || ((s.blocks.all fun p => p.2.world != w) && (s.launches.all fun l => l.2.world != w) &&
      s.graphs.all fun g => g.2.world != w))

/-- Keys that a world has exported. -/
def exportedKeys (x : World) : List W64 :=
  x.ctxs.flatMap fun c => (c.2.recs.filter fun r => r.2.valid && r.2.exportBit).map fun r => r.2.w1

end State

/-- At the quiesce limit the blocks that still run are pre-empted and saved. -/
def execQuiesceLimitExpiry (s : State) : Host.Outcome State Fault Refusal :=
  let w := s.args.world
  match s.world? w with
  | none => .next s
  | some x =>
    if !x.quiescing || x.quiesceOver || s.now < x.quiesceAt + x.quiesce * 1000 then .next s
    else
      let s1 := s.updWorld w fun x => { x with quiesceOver := true }
      .next ((s1.blocks.filter fun p => p.2.world == w).foldl (fun s p => s.askPreempt p.1) s1)

/-- The freeze point: the exported keys become revoked, the oldest of more than 256 dropped. -/
def execFreezePoint (s : State) : Host.Outcome State Fault Refusal :=
  let w := s.args.world
  match s.world? w with
  | none => .next s
  | some x =>
    if !x.quiescing || x.frozen || !s.quiesced w x then .next s
    else
      let keys := x.revoked ++ State.exportedKeys x
      .next (s.updWorld w fun x => { x with revoked := keys.drop (keys.length - 256), frozen := true })

namespace State

/-- The pages of a context that are in the device, by their addresses. -/
def residentPages (x : Ctx) : List Nat :=
  x.pt.filterMap fun p =>
    let w0 := p.2.toNat % 2 ^ 64
    if 4 * 2 ^ 48 ≤ p.1 && bits w0 1 0 == 2 && !w0.testBit 5 && !w0.testBit 6 then some ((p.1 - 4 * 2 ^ 48) * 65536) else none

/-- Every page of a world leaves the device. -/
def sealAll (s : State) (w : Nat) : State :=
  match s.world? w with
  | none => s
  | some x => x.ctxs.foldl (fun (s : State) c =>
      (residentPages c.2).foldl (fun (s : State) va => (s.sealPage w c.1 va).getD s) s) s

/-- The image of a frozen world whose pages are out. [DESIGN CHOICE 60] -/
def imageOf (s : State) (w : Nat) (x : World) : MigImage :=
  let mine := s.graphs.filter fun g => g.2.world == w
  let here : Nat × Nat := (w, x.keys.getD 0)
  let homes : AMap (Nat × Nat) :=
    (x.sealedPages.map Prod.fst).foldl (fun h p => if AMap.has h p then h else AMap.set h p here) x.sealHome
  { world := { x with sealHome := homes }
    blocks := s.blocks.filter fun p => p.2.world == w
    launches := s.launches.filter fun p => p.2.world == w
    graphs := mine
    readyBlks := s.readyBlks.filter fun r => AMap.has mine r.graph
    phases := s.phases.filter fun p => p.2.world == w }

/-- A world that has left: nothing of it stays but its revoked keys. [DESIGN CHOICE 60] -/
def departWorld (s : State) (w : Nat) (x : World) : State :=
  let s1 := { s with phases := s.phases.filter fun p => p.2.world != w
                     launches := s.launches.filter fun p => p.2.world != w
                     readyBlks := s.readyBlks.filter fun r => match AMap.get? s.graphs r.graph with
                       | some g => g.world != w
                       | none => true
                     graphs := s.graphs.filter fun p => p.2.world != w }.clearWorld w
  { s1 with worlds := AMap.erase s1.worlds w, gone := AMap.set s1.gone w x.revoked }

end State

/-- Faulty fields of a migration block. [DESIGN CHOICE 60] -/
def migrateBad (out : Bool) (b : List Byte) : List Nat :=
  offsetIf (decide (2 ^ 20 ≤ leWord b 0x10 4)) 0x12 ++ (if out then ranged b (0x14, 1) 1 63 else []) ++
    offsetIf (out && leWord b 0x18 8 % 4096 != 0) 0x18

/-- MIGRATE_OUT: the checks and the start of the quiesce; and once the world is frozen, the image and its departure. [DEDUCED 59] -/
def execMigrateOut (s : State) : Host.Outcome State Fault Refusal :=
  let a := s.args
  .next (s.command 7 [(0x10, 4), (0x14, 1), (0x18, 8), (0x20, 8)] false (fun _ b => migrateBad true b) fun s w b =>
    match s.world? w with
    | none => (some (mcNoWorld, 0), s)
    | some x =>
      if x.frozen then
        let s1 := s.sealAll w
        match s1.world? w with
        | none => (none, s1)
        | some y =>
          let bytes := (Config.image s1.freeCnt).take (leWord b 0x20 8)
          let s2 := { s1 with
            freeCnt := s1.freeCnt + 1
            images := AMap.set s1.images (AMap.fresh s1.images) (bytes, s1.imageOf w y)
            hostMem := s1.hostMem.writeBytes (leWord b 0x18 8) bytes }
          (some (mcOk, 0), (s2.departWorld w y).send (.migration w))
      else if x.quiescing then (none, s)
      else if x.tstate != .run then (some (mcBadState, x.tstate.code), s)
      else if !s.feature w 10 then (some (mcFeatureOff, 10), s)
      else if !a.ok then (some (mcNoRoom, 0), s)
      else
        match a.reach with
        | .noSession => (some (mcPeer, 1), s)
        | .refused => (some (mcPeer, 2), s)
        | .keyNotReceived => (some (mcPeer, 3), s)
        | .ok => (none, s.updWorld w fun x => { x with quiescing := true, quiesceAt := s.now, quiesceOver := false }))

/-- The migration key of a world arrives from the device `n`. -/
def execMigrationKeyArrival (s : State) : Host.Outcome State Fault Refusal :=
  let k := (s.args.world, s.args.n)
  if !s.inSession (s.args.n + 1) || s.migKeys.contains k then .next s
  else .next { s with migKeys := s.migKeys ++ [k] }

namespace State

/-- The image that stands in host memory: one that this device has written, or one of another device (R117). [DESIGN CHOICE 60] -/
def imageAt (s : State) (a n : Nat) : Option MigImage :=
  let bytes := s.hostMem.readBytes a n
  match s.images.reverse.find? fun p => p.2.1.isPrefixOf bytes with
  | some p => some p.2.2
  | none => Config.foreignImage bytes

/-- An image's numbers made fresh here: world `w`, and offsets for blocks, launches, graphs and phases; its interface takes new
keys (R69). [DESIGN CHOICE 60] -/
def landImage (s0 : State) (w : Nat) (m : MigImage) : State :=
  let s := { s0 with freeCnt := s0.freeCnt + 1 }
  let ob := AMap.fresh s.blocks
  let ol := AMap.fresh s.launches
  let og := AMap.fresh s.graphs
  let op := AMap.fresh s.phases
  let put {α : Type} (o : Nat) (f : α → α) (t : AMap α) (m : AMap α) : AMap α :=
    (m : List (Nat × α)).foldl (fun (t : AMap α) (p : Nat × α) => AMap.set t (p.1 + o) (f p.2)) t
  let recOwner (r : RecState × Nat) : RecState × Nat := match r with
    | (.allocated b, d) => (.allocated (b + ob), d)
    | x => x
  { s with
    blocks := put ob (fun k => { k with world := w, launch := k.launch.map (· + ol), graph := k.graph.map (· + og) }) s.blocks m.blocks
    launches := put ol (fun x => { x with world := w, phase := x.phase.map (· + op) }) s.launches m.launches
    graphs := put og (fun g => { g with world := w, phase := g.phase.map (· + op)
                                        nodes := AMap.mapVals g.nodes fun n => { n with recs := AMap.mapVals n.recs recOwner } })
      s.graphs m.graphs
    readyBlks := s.readyBlks ++ m.readyBlks.map fun r => { r with graph := r.graph + og }
    phases := put op (fun p => { p with world := w }) s.phases m.phases
    worlds := AMap.set s.worlds w
      { m.world with
        tstate := .locked, keys := some s.freeCnt, resumed := true, quiescing := false, quiesceOver := false, frozen := false
        popen := 0#32, policySeq := 0, policyDigest := [], reports := []
        queues := AMap.mapVals m.world.queues fun q => { q with curPhase := q.curPhase.map (· + op) } } }

/-- The private pages of a world that has arrived take frames here (R203). [DESIGN CHOICE 60] -/
def placePriv (s : State) (w : Nat) : State :=
  (s.blocks.filter fun b => b.2.world == w).foldl (fun s b =>
    (b.2.privPages.map Prod.fst).foldl (fun s p => match s.newFrame [] 65536 65536 with
      | some a => s.updBlock b.1 fun k => { k with privPages := AMap.set k.privPages p a }
      | none => s) (s.updBlock b.1 fun k => { k with privPages := [] })) s

/-- Each queue of a world that has arrived takes a clause-engine lane here. -/
def placeQueues (s : State) (w : Nat) : State :=
  match s.world? w with
  | none => s
  | some x => (x.queues.filter fun q => q.2.st != .disabled).foldl (fun s q =>
      match s.findLane w q.1 with
      | some (p, e, l) => s.updQueue w q.1 fun y => { y with panel := p, engine := e, lane := l }
      | none => s.failQueue w q.1 pcNoRoom) s

end State

/-- MIGRATE_IN: the interface comes from the image, locked with a fresh nonce. -/
def execMigrateIn (s : State) : Host.Outcome State Fault Refusal :=
  let a := s.args
  .next (s.command 8 [(0x10, 4), (0x18, 8), (0x20, 8)] false (fun _ b => migrateBad false b) fun s w b =>
    match s.imageAt (leWord b 0x18 8) (leWord b 0x20 8) with
    | none => (some (mcBadCmd, 0xffff), s)
    | some m =>
      if (s.world? w).isSome then (some (mcExists, 0), s)
      else if s.overcommits w m.world.sigma m.world.quarterSet then (some (mcOvercommit, 0), s)
      else if !a.ok then (some (mcNoRoom, 0), s)
      else if !s.migKeys.contains (w, leWord b 0x10 4) then (some (mcPeer, 3), s)
      else
        let s1 := ({ s with gone := AMap.erase s.gone w }.landImage w m).placePriv w |>.placeQueues w
        (some (mcOk, 0), (s1.lockWorld w m.world.stream).2))

end Sys2Proof.Machine
end

