-- ==== Sys2Proof/Machine/Trans.lean ====
section
/-! DEFINITION. The transducer instructions: each is one step of the heddle run in progress (R28, R42, R43, R55). -/

namespace Sys2Proof.Machine

/-- One step of the run in progress; without one there is nothing to run it. [DESIGN CHOICE 73] -/
def runHeddle (f : HRun → HRun) (s : State) : Host.Outcome State Fault Refusal :=
  match s.focus, s.heddle with
  | .heddle, some r =>
    match r.fin with
    | .running => .next { s with heddle := some (r.advance f) }
    | _ => .fault .noIssuer
  | _, _ => .fault .noIssuer

/-- Does nothing for one step. (R56) -/
def execTnop (st : State) : Host.Outcome State Fault Refusal :=
  runHeddle (tEffect (.tnop)) st

/-- Writes sign-extended imm14 into t[d]. (R57) -/
def execTli (d : BitVec 4) (i : BitVec 14) (st : State) : Host.Outcome State Fault Refusal :=
  runHeddle (tEffect (.tli d i)) st

/-- Copies t[a] into t[d]. (R57) -/
def execTmov (d : BitVec 4) (a : BitVec 4) (st : State) : Host.Outcome State Fault Refusal :=
  runHeddle (tEffect (.tmov d a)) st

/-- Copies ic, oc, inlen, l0, l1 or C into t[d]. (R57) -/
def execTmovSel (d : BitVec 4) (s : BitVec 4) (st : State) : Host.Outcome State Fault Refusal :=
  runHeddle (tEffect (.tmovSel d s)) st

/-- t[d] = wrap32(t[a] + src2). (R58) -/
def execTadd (d : BitVec 4) (a : BitVec 4) (b : BitVec 4) (c : BitVec 1) (i : BitVec 13) (st : State) : Host.Outcome State Fault Refusal :=
  runHeddle (tEffect (.tadd d a b c i)) st

/-- t[d] = wrap32(t[a] - src2). (R58) -/
def execTsub (d : BitVec 4) (a : BitVec 4) (b : BitVec 4) (c : BitVec 1) (i : BitVec 13) (st : State) : Host.Outcome State Fault Refusal :=
  runHeddle (tEffect (.tsub d a b c i)) st

/-- t[d] = t[a] AND src2. (R58) -/
def execTand (d : BitVec 4) (a : BitVec 4) (b : BitVec 4) (c : BitVec 1) (i : BitVec 13) (st : State) : Host.Outcome State Fault Refusal :=
  runHeddle (tEffect (.tand d a b c i)) st

/-- t[d] = t[a] OR src2. (R58) -/
def execTor (d : BitVec 4) (a : BitVec 4) (b : BitVec 4) (c : BitVec 1) (i : BitVec 13) (st : State) : Host.Outcome State Fault Refusal :=
  runHeddle (tEffect (.tor d a b c i)) st

/-- t[d] = t[a] XOR src2. (R58) -/
def execTxor (d : BitVec 4) (a : BitVec 4) (b : BitVec 4) (c : BitVec 1) (i : BitVec 13) (st : State) : Host.Outcome State Fault Refusal :=
  runHeddle (tEffect (.txor d a b c i)) st

/-- Shifts t[a] left by src2, or gives 0 for counts of 32 or more. (R58) -/
def execTshl (d : BitVec 4) (a : BitVec 4) (b : BitVec 4) (c : BitVec 1) (i : BitVec 13) (st : State) : Host.Outcome State Fault Refusal :=
  runHeddle (tEffect (.tshl d a b c i)) st

/-- Shifts t[a] right unsigned by src2, or gives 0 for counts of 32 or more. (R58) -/
def execTshr (d : BitVec 4) (a : BitVec 4) (b : BitVec 4) (c : BitVec 1) (i : BitVec 13) (st : State) : Host.Outcome State Fault Refusal :=
  runHeddle (tEffect (.tshr d a b c i)) st

/-- Sets C by comparing t[a] with src2 under the condition code. (R59) -/
def execTcmp (k : BitVec 4) (a : BitVec 4) (b : BitVec 4) (c : BitVec 1) (i : BitVec 13) (st : State) : Host.Outcome State Fault Refusal :=
  runHeddle (tEffect (.tcmp k a b c i)) st

/-- Branches forward unconditionally to an absolute index. (R60) -/
def execTbr (t : BitVec 8) (st : State) : Host.Outcome State Fault Refusal :=
  runHeddle (tEffect (.tbr t)) st

/-- Branches forward when C is 1. (R60) -/
def execTbrC (t : BitVec 8) (st : State) : Host.Outcome State Fault Refusal :=
  runHeddle (tEffect (.tbrC t)) st

/-- Branches forward when C is 0. (R60) -/
def execTbrNc (t : BitVec 8) (st : State) : Host.Outcome State Fault Refusal :=
  runHeddle (tEffect (.tbrNc t)) st

/-- Runs a loop body a static N times on counter lK. (R61) -/
def execTloop (k : BitVec 1) (h : BitVec 4) (n : BitVec 4) (e : BitVec 8) (st : State) : Host.Outcome State Fault Refusal :=
  runHeddle (tEffect (.tloop k h n e)) st

/-- Runs a loop body t[a] times, skipping it for 0 and erring above N. (R61) -/
def execTloopReg (k : BitVec 1) (a : BitVec 4) (h : BitVec 4) (n : BitVec 4) (e : BitVec 8) (st : State) : Host.Outcome State Fault Refusal :=
  runHeddle (tEffect (.tloopReg k a h n e)) st

/-- Reads src2 input bits at ic into t[d] and advances ic. (R62) -/
def execTget (d : BitVec 4) (b : BitVec 4) (c : BitVec 1) (i : BitVec 13) (st : State) : Host.Outcome State Fault Refusal :=
  runHeddle (tEffect (.tget d b c i)) st

/-- Reads src2 input bits at ic into t[d] without moving ic. (R62) -/
def execTpeek (d : BitVec 4) (b : BitVec 4) (c : BitVec 1) (i : BitVec 13) (st : State) : Host.Outcome State Fault Refusal :=
  runHeddle (tEffect (.tpeek d b c i)) st

/-- Writes the low src2 bits of t[a] at oc. (R63) -/
def execTout (a : BitVec 4) (b : BitVec 4) (c : BitVec 1) (i : BitVec 13) (st : State) : Host.Outcome State Fault Refusal :=
  runHeddle (tEffect (.tout a b c i)) st

/-- Copies src2 bytes from input to output. (R63) -/
def execTcopy (b : BitVec 4) (c : BitVec 1) (i : BitVec 13) (st : State) : Host.Outcome State Fault Refusal :=
  runHeddle (tEffect (.tcopy b c i)) st

/-- Writes src2 copies of t[a]'s low byte at oc. (R63) -/
def execTfill (a : BitVec 4) (b : BitVec 4) (c : BitVec 1) (i : BitVec 13) (st : State) : Host.Outcome State Fault Refusal :=
  runHeddle (tEffect (.tfill a b c i)) st

/-- Loads the constant-table word at index t[a] + base. (R64) -/
def execTtab (d : BitVec 4) (a : BitVec 4) (b : BitVec 8) (st : State) : Host.Outcome State Fault Refusal :=
  runHeddle (tEffect (.ttab d a b)) st

/-- Decodes up to min(8, t[a]) variable-length symbols through a 2^L-entry table. (R66) -/
def execTvld (d : BitVec 4) (a : BitVec 4) (l : BitVec 4) (b : BitVec 9) (st : State) : Host.Outcome State Fault Refusal :=
  runHeddle (tEffect (.tvld d a l b)) st

/-- Encodes up to min(8, t[a]) input bytes through a 256-entry code table. (R67) -/
def execTvle (d : BitVec 4) (a : BitVec 4) (b : BitVec 9) (st : State) : Host.Outcome State Fault Refusal :=
  runHeddle (tEffect (.tvle d a b)) st

/-- Advances ic by src2 bits. (R62) -/
def execTskip (b : BitVec 4) (c : BitVec 1) (i : BitVec 13) (st : State) : Host.Outcome State Fault Refusal :=
  runHeddle (tEffect (.tskip b c i)) st

/-- Rounds ic up to a multiple of 2^k. (R62) -/
def execTalignI (k : BitVec 14) (st : State) : Host.Outcome State Fault Refusal :=
  runHeddle (tEffect (.talignI k)) st

/-- Rounds oc up to a multiple of 2^k, writing zero bits. (R62) -/
def execTalignO (k : BitVec 14) (st : State) : Host.Outcome State Fault Refusal :=
  runHeddle (tEffect (.talignO k)) st

/-- Counts a run or the literal bytes before a run of k, capped at lim. (R65) -/
def execTcnt (d : BitVec 4) (a : BitVec 4) (m : BitVec 4) (l : BitVec 9) (st : State) : Host.Outcome State Fault Refusal :=
  runHeddle (tEffect (.tcnt d a m l)) st

/-- Ends the run successfully; a decode needs oc = 2,048. (R56) -/
def execTend (st : State) : Host.Outcome State Fault Refusal :=
  runHeddle (tEffect (.tend)) st

/-- Ends the run as a failure: raw store in an encode, decode error in a decode. (R56) -/
def execTfail (st : State) : Host.Outcome State Fault Refusal :=
  runHeddle (tEffect (.tfail)) st

end Sys2Proof.Machine
end

