-- ==== Sys2Proof/Machine/Dispatch.lean ====
section
/-! DEFINITION. What each instruction and each step of the device does: one arm per constructor of `Instr`. -/

namespace Sys2Proof.Machine

def exec (i : Instr) (s : State) : Host.Outcome State Fault Refusal :=
  match i with
  | .tnop => Sys2Proof.Machine.execTnop s
  | .tli d im => Sys2Proof.Machine.execTli d im s
  | .tmov d a => Sys2Proof.Machine.execTmov d a s
  | .tmovSel d sr => Sys2Proof.Machine.execTmovSel d sr s
  | .tadd d a b c im => Sys2Proof.Machine.execTadd d a b c im s
  | .tsub d a b c im => Sys2Proof.Machine.execTsub d a b c im s
  | .tand d a b c im => Sys2Proof.Machine.execTand d a b c im s
  | .tor d a b c im => Sys2Proof.Machine.execTor d a b c im s
  | .txor d a b c im => Sys2Proof.Machine.execTxor d a b c im s
  | .tshl d a b c im => Sys2Proof.Machine.execTshl d a b c im s
  | .tshr d a b c im => Sys2Proof.Machine.execTshr d a b c im s
  | .tcmp k a b c im => Sys2Proof.Machine.execTcmp k a b c im s
  | .tbr t => Sys2Proof.Machine.execTbr t s
  | .tbrC t => Sys2Proof.Machine.execTbrC t s
  | .tbrNc t => Sys2Proof.Machine.execTbrNc t s
  | .tloop k h n e => Sys2Proof.Machine.execTloop k h n e s
  | .tloopReg k a h n e => Sys2Proof.Machine.execTloopReg k a h n e s
  | .tget d b c im => Sys2Proof.Machine.execTget d b c im s
  | .tpeek d b c im => Sys2Proof.Machine.execTpeek d b c im s
  | .tout a b c im => Sys2Proof.Machine.execTout a b c im s
  | .tcopy b c im => Sys2Proof.Machine.execTcopy b c im s
  | .tfill a b c im => Sys2Proof.Machine.execTfill a b c im s
  | .ttab d a b => Sys2Proof.Machine.execTtab d a b s
  | .tvld d a l b => Sys2Proof.Machine.execTvld d a l b s
  | .tvle d a b => Sys2Proof.Machine.execTvle d a b s
  | .tskip b c im => Sys2Proof.Machine.execTskip b c im s
  | .talignI k => Sys2Proof.Machine.execTalignI k s
  | .talignO k => Sys2Proof.Machine.execTalignO k s
  | .tcnt d a m l => Sys2Proof.Machine.execTcnt d a m l s
  | .tend => Sys2Proof.Machine.execTend s
  | .tfail => Sys2Proof.Machine.execTfail s
  | .mma f g c q a sr b t => Sys2Proof.Machine.execMma f g c q a sr b t s
  | .scaccV q h r c => Sys2Proof.Machine.execScaccV q h r c s
  | .scaccU q h r c => Sys2Proof.Machine.execScaccU q h r c s
  | .accLd h a sr e => Sys2Proof.Machine.execAccLd h a sr e s
  | .accSt t m h a sr => Sys2Proof.Machine.execAccSt t m h a sr s
  | .accZero h => Sys2Proof.Machine.execAccZero h s
  | .accRel h => Sys2Proof.Machine.execAccRel h s
  | .wshedArrive n => Sys2Proof.Machine.execWshedArrive n s
  | .wshedWait n => Sys2Proof.Machine.execWshedWait n s
  | .wbobAwait n => Sys2Proof.Machine.execWbobAwait n s
  | .wbobRel n => Sys2Proof.Machine.execWbobRel n s
  | .xaddImm d a im => Sys2Proof.Machine.execXaddImm d a im s
  | .xaddShift d a b sr => Sys2Proof.Machine.execXaddShift d a b sr s
  | .wloop k n d => Sys2Proof.Machine.execWloop k n d s
  | .wloopReg k x d => Sys2Proof.Machine.execWloopReg k x d s
  | .wjump o => Sys2Proof.Machine.execWjump o s
  | .wend => Sys2Proof.Machine.execWend s
  | .nop => Sys2Proof.Machine.execNop s
  | .br o => Sys2Proof.Machine.execBr o s
  | .brp n p o => Sys2Proof.Machine.execBrp n p o s
  | .bru sr o => Sys2Proof.Machine.execBru sr o s
  | .call d o => Sys2Proof.Machine.execCall d o s
  | .callReg d a lit => Sys2Proof.Machine.execCallReg d a lit s
  | .ret a lit => Sys2Proof.Machine.execRet a lit s
  | .jmpi a lit => Sys2Proof.Machine.execJmpi a lit s
  | .exit => Sys2Proof.Machine.execExit s
  | .yield => Sys2Proof.Machine.execYield s
  | .waitf f => Sys2Proof.Machine.execWaitf f s
  | .waitfJoin => Sys2Proof.Machine.execWaitfJoin s
  | .mood a lit => Sys2Proof.Machine.execMood a lit s
  | .moodG p n lit => Sys2Proof.Machine.execMoodG p n lit s
  | .sread d sr => Sys2Proof.Machine.execSread d sr s
  | .vote d p lit => Sys2Proof.Machine.execVote d p lit s
  | .shfl d a b lit => Sys2Proof.Machine.execShfl d a b lit s
  | .wred d a b lit => Sys2Proof.Machine.execWred d a b lit s
  | .wscan d a b lit => Sys2Proof.Machine.execWscan d a b lit s
  | .vtos d a b lit => Sys2Proof.Machine.execVtos d a b lit s
  | .vrel a lit => Sys2Proof.Machine.execVrel a lit s
  | .quotaGrow a lit => Sys2Proof.Machine.execQuotaGrow a lit s
  | .quotaShrink a lit => Sys2Proof.Machine.execQuotaShrink a lit s
  | .trap im => Sys2Proof.Machine.execTrap im s
  | .brk im => Sys2Proof.Machine.execBrk im s
  | .addc d a b c lit => Sys2Proof.Machine.execAddc d a b c lit s
  | .subb d a b c lit => Sys2Proof.Machine.execSubb d a b c lit s
  | .add d a b lit => Sys2Proof.Machine.execAdd d a b lit s
  | .sub d a b lit => Sys2Proof.Machine.execSub d a b lit s
  | .mul d a b lit => Sys2Proof.Machine.execMul d a b lit s
  | .mulh d a b lit => Sys2Proof.Machine.execMulh d a b lit s
  | .mad d a b c lit => Sys2Proof.Machine.execMad d a b c lit s
  | .madw d a b c lit => Sys2Proof.Machine.execMadw d a b c lit s
  | .abs d a lit => Sys2Proof.Machine.execAbs d a lit s
  | .min d a b lit => Sys2Proof.Machine.execMin d a b lit s
  | .max d a b lit => Sys2Proof.Machine.execMax d a b lit s
  | .and d a b lit => Sys2Proof.Machine.execAnd d a b lit s
  | .or d a b lit => Sys2Proof.Machine.execOr d a b lit s
  | .xor d a b lit => Sys2Proof.Machine.execXor d a b lit s
  | .andn d a b lit => Sys2Proof.Machine.execAndn d a b lit s
  | .shl d a b lit => Sys2Proof.Machine.execShl d a b lit s
  | .shr d a b lit => Sys2Proof.Machine.execShr d a b lit s
  | .sra d a b lit => Sys2Proof.Machine.execSra d a b lit s
  | .rot d a b lit => Sys2Proof.Machine.execRot d a b lit s
  | .bfe d a b c lit => Sys2Proof.Machine.execBfe d a b c lit s
  | .bfi d a b c lit => Sys2Proof.Machine.execBfi d a b c lit s
  | .popc d a lit => Sys2Proof.Machine.execPopc d a lit s
  | .clz d a lit => Sys2Proof.Machine.execClz d a lit s
  | .brev d a lit => Sys2Proof.Machine.execBrev d a lit s
  | .perm d a b c lit => Sys2Proof.Machine.execPerm d a b c lit s
  | .sel d a b c lit => Sys2Proof.Machine.execSel d a b c lit s
  | .cmpEq d a b lit => Sys2Proof.Machine.execCmpEq d a b lit s
  | .cmpNe d a b lit => Sys2Proof.Machine.execCmpNe d a b lit s
  | .cmpLt d a b lit => Sys2Proof.Machine.execCmpLt d a b lit s
  | .cmpGe d a b lit => Sys2Proof.Machine.execCmpGe d a b lit s
  | .cmpLe d a b lit => Sys2Proof.Machine.execCmpLe d a b lit s
  | .cmpGt d a b lit => Sys2Proof.Machine.execCmpGt d a b lit s
  | .cmpLtu d a b lit => Sys2Proof.Machine.execCmpLtu d a b lit s
  | .cmpGeu d a b lit => Sys2Proof.Machine.execCmpGeu d a b lit s
  | .fadd d a b lit => Sys2Proof.Machine.execFadd d a b lit s
  | .fsub d a b lit => Sys2Proof.Machine.execFsub d a b lit s
  | .fmul d a b lit => Sys2Proof.Machine.execFmul d a b lit s
  | .ffma d a b c lit => Sys2Proof.Machine.execFfma d a b c lit s
  | .ffma4 d a b c lit => Sys2Proof.Machine.execFfma4 d a b c lit s
  | .fmin d a b lit => Sys2Proof.Machine.execFmin d a b lit s
  | .fmax d a b lit => Sys2Proof.Machine.execFmax d a b lit s
  | .fneg d a lit => Sys2Proof.Machine.execFneg d a lit s
  | .fabs d a lit => Sys2Proof.Machine.execFabs d a lit s
  | .fclass d a b lit => Sys2Proof.Machine.execFclass d a b lit s
  | .frnd d a lit => Sys2Proof.Machine.execFrnd d a lit s
  | .fscale d a b lit => Sys2Proof.Machine.execFscale d a b lit s
  | .fdot2 d a b c lit => Sys2Proof.Machine.execFdot2 d a b c lit s
  | .fcmpEq d a b lit => Sys2Proof.Machine.execFcmpEq d a b lit s
  | .fcmpNe d a b lit => Sys2Proof.Machine.execFcmpNe d a b lit s
  | .fcmpLt d a b lit => Sys2Proof.Machine.execFcmpLt d a b lit s
  | .fcmpGe d a b lit => Sys2Proof.Machine.execFcmpGe d a b lit s
  | .fcmpLe d a b lit => Sys2Proof.Machine.execFcmpLe d a b lit s
  | .fcmpGt d a b lit => Sys2Proof.Machine.execFcmpGt d a b lit s
  | .fcmpOrd d a b lit => Sys2Proof.Machine.execFcmpOrd d a b lit s
  | .fcmpUno d a b lit => Sys2Proof.Machine.execFcmpUno d a b lit s
  | .frcp d a lit => Sys2Proof.Machine.execFrcp d a lit s
  | .frsq d a lit => Sys2Proof.Machine.execFrsq d a lit s
  | .fsqrt d a lit => Sys2Proof.Machine.execFsqrt d a lit s
  | .fexp2 d a lit => Sys2Proof.Machine.execFexp2 d a lit s
  | .flog2 d a lit => Sys2Proof.Machine.execFlog2 d a lit s
  | .fsin d a lit => Sys2Proof.Machine.execFsin d a lit s
  | .fcos d a lit => Sys2Proof.Machine.execFcos d a lit s
  | .ftanh d a lit => Sys2Proof.Machine.execFtanh d a lit s
  | .cvt d a t sr lit => Sys2Proof.Machine.execCvt d a t sr lit s
  | .qscale d a lit => Sys2Proof.Machine.execQscale d a lit s
  | .qpack8 d a b lit => Sys2Proof.Machine.execQpack8 d a b lit s
  | .qunpack8 d a b lit => Sys2Proof.Machine.execQunpack8 d a b lit s
  | .pack d a b lit => Sys2Proof.Machine.execPack d a b lit s
  | .unpack d a lit => Sys2Proof.Machine.execUnpack d a lit s
  | .trpack d a lit => Sys2Proof.Machine.execTrpack d a lit s
  | .ld w d a f o => Sys2Proof.Machine.execLd w d a f o s
  | .ldXform w d a f o x => Sys2Proof.Machine.execLdXform w d a f o x s
  | .ldSpec w d a f o => Sys2Proof.Machine.execLdSpec w d a f o s
  | .ldSpecXform w d a f o x => Sys2Proof.Machine.execLdSpecXform w d a f o x s
  | .st w d a f o => Sys2Proof.Machine.execSt w d a f o s
  | .stXform w d a f o x => Sys2Proof.Machine.execStXform w d a f o x s
  | .ldxRow d a f o => Sys2Proof.Machine.execLdxRow d a f o s
  | .ldxRowXform d a f o x => Sys2Proof.Machine.execLdxRowXform d a f o x s
  | .ldxCol d a f o => Sys2Proof.Machine.execLdxCol d a f o s
  | .ldxColXform d a f o x => Sys2Proof.Machine.execLdxColXform d a f o x s
  | .stxRow d a f o => Sys2Proof.Machine.execStxRow d a f o s
  | .stxRowXform d a f o x => Sys2Proof.Machine.execStxRowXform d a f o x s
  | .stxCol d a f o => Sys2Proof.Machine.execStxCol d a f o s
  | .stxColXform d a f o x => Sys2Proof.Machine.execStxColXform d a f o x s
  | .prefetch a f o => Sys2Proof.Machine.execPrefetch a f o s
  | .prefetchXform a f o x => Sys2Proof.Machine.execPrefetchXform a f o x s
  | .cinv a f o => Sys2Proof.Machine.execCinv a f o s
  | .cinvXform a f o x => Sys2Proof.Machine.execCinvXform a f o x s
  | .cwb a f o => Sys2Proof.Machine.execCwb a f o s
  | .cwbXform a f o x => Sys2Proof.Machine.execCwbXform a f o x s
  | .atomAdd d a b x => Sys2Proof.Machine.execAtomAdd d a b x s
  | .atomMin d a b x => Sys2Proof.Machine.execAtomMin d a b x s
  | .atomMax d a b x => Sys2Proof.Machine.execAtomMax d a b x s
  | .atomAnd d a b x => Sys2Proof.Machine.execAtomAnd d a b x s
  | .atomOr d a b x => Sys2Proof.Machine.execAtomOr d a b x s
  | .atomXor d a b x => Sys2Proof.Machine.execAtomXor d a b x s
  | .atomExch d a b x => Sys2Proof.Machine.execAtomExch d a b x s
  | .atomCas d a b x => Sys2Proof.Machine.execAtomCas d a b x s
  | .atomFadd d a b x => Sys2Proof.Machine.execAtomFadd d a b x s
  | .red d a b x => Sys2Proof.Machine.execRed d a b x s
  | .fence sr o => Sys2Proof.Machine.execFence sr o s
  | .fenceRec => Sys2Proof.Machine.execFenceRec s
  | .fenceCode => Sys2Proof.Machine.execFenceCode s
  | .fenceMap w c lit => Sys2Proof.Machine.execFenceMap w c lit s
  | .shedArrive n => Sys2Proof.Machine.execShedArrive n s
  | .shedWait n => Sys2Proof.Machine.execShedWait n s
  | .shedSync n => Sys2Proof.Machine.execShedSync n s
  | .shedInit n v lit => Sys2Proof.Machine.execShedInit n v lit s
  | .cp d sr l lit => Sys2Proof.Machine.execCp d sr l lit s
  | .cp2d d a b c lit => Sys2Proof.Machine.execCp2d d a b c lit s
  | .cpGather d a b c lit => Sys2Proof.Machine.execCpGather d a b c lit s
  | .cpMcast d a b c lit => Sys2Proof.Machine.execCpMcast d a b c lit s
  | .cseal d => Sys2Proof.Machine.execCseal d s
  | .cwait d n lit => Sys2Proof.Machine.execCwait d n lit s
  | .bobInit d a b c lit => Sys2Proof.Machine.execBobInit d a b c lit s
  | .bobClaim d n => Sys2Proof.Machine.execBobClaim d n s
  | .bobExpect n c lit => Sys2Proof.Machine.execBobExpect n c lit s
  | .bobAwait d n => Sys2Proof.Machine.execBobAwait d n s
  | .bobRel n => Sys2Proof.Machine.execBobRel n s
  | .recAlloc d p n lit => Sys2Proof.Machine.execRecAlloc d p n lit s
  | .recCommit a lit => Sys2Proof.Machine.execRecCommit a lit s
  | .recRead d im k lit => Sys2Proof.Machine.execRecRead d im k lit s
  | .gcancelGraph => Sys2Proof.Machine.execGcancelGraph s
  | .gcancelLaunch => Sys2Proof.Machine.execGcancelLaunch s
  | .tryOpen o => Sys2Proof.Machine.execTryOpen o s
  | .commit => Sys2Proof.Machine.execCommit s
  | .commitRel sr => Sys2Proof.Machine.execCommitRel sr s
  | .abort im => Sys2Proof.Machine.execAbort im s
  | .tstat d => Sys2Proof.Machine.execTstat d s
  | .coll d a b c lit => Sys2Proof.Machine.execColl d a b c lit s
  | .powerOn => Sys2Proof.Machine.execPowerOn s
  | .powerMeasurement => Sys2Proof.Machine.execPowerMeasurement s
  | .demandRead => Sys2Proof.Machine.execDemandRead s
  | .demandWrite => Sys2Proof.Machine.execDemandWrite s
  | .partialWriteMerge => Sys2Proof.Machine.execPartialWriteMerge s
  | .heddleRunDone => Sys2Proof.Machine.execHeddleRunDone s
  | .portWaitBound => Sys2Proof.Machine.execPortWaitBound s
  | .blockTransferDone => Sys2Proof.Machine.execBlockTransferDone s
  | .patrolScrub => Sys2Proof.Machine.execPatrolScrub s
  | .sweepIntervalExpiry => Sys2Proof.Machine.execSweepIntervalExpiry s
  | .sweepStart => Sys2Proof.Machine.execSweepStart s
  | .sweepBlock => Sys2Proof.Machine.execSweepBlock s
  | .pageMigration => Sys2Proof.Machine.execPageMigration s
  | .sealOut => Sys2Proof.Machine.execSealOut s
  | .linkDown => Sys2Proof.Machine.execLinkDown s
  | .linkRetrain => Sys2Proof.Machine.execLinkRetrain s
  | .frameReceive => Sys2Proof.Machine.execFrameReceive s
  | .frameCountLimit => Sys2Proof.Machine.execFrameCountLimit s
  | .remoteRequest => Sys2Proof.Machine.execRemoteRequest s
  | .remoteAnswer => Sys2Proof.Machine.execRemoteAnswer s
  | .crossDomainMessage => Sys2Proof.Machine.execCrossDomainMessage s
  | .collectiveComplete => Sys2Proof.Machine.execCollectiveComplete s
  | .collectiveLinkTimeout => Sys2Proof.Machine.execCollectiveLinkTimeout s
  | .hostMemoryRead => Sys2Proof.Machine.execHostMemoryRead s
  | .hostMemoryWrite => Sys2Proof.Machine.execHostMemoryWrite s
  | .registerWrite => Sys2Proof.Machine.execRegisterWrite s
  | .configWrite => Sys2Proof.Machine.execConfigWrite s
  | .ideStreamFailure => Sys2Proof.Machine.execIdeStreamFailure s
  | .keyStoreError => Sys2Proof.Machine.execKeyStoreError s
  | .lockInterfaceRequest => Sys2Proof.Machine.execLockInterfaceRequest s
  | .startInterfaceRequest => Sys2Proof.Machine.execStartInterfaceRequest s
  | .stopInterfaceRequest => Sys2Proof.Machine.execStopInterfaceRequest s
  | .getDeviceInterfaceReport => Sys2Proof.Machine.execGetDeviceInterfaceReport s
  | .getVersion => Sys2Proof.Machine.execGetVersion s
  | .getCapabilities => Sys2Proof.Machine.execGetCapabilities s
  | .negotiateAlgorithms => Sys2Proof.Machine.execNegotiateAlgorithms s
  | .getDigests => Sys2Proof.Machine.execGetDigests s
  | .getCertificate => Sys2Proof.Machine.execGetCertificate s
  | .challenge => Sys2Proof.Machine.execChallenge s
  | .getMeasurements => Sys2Proof.Machine.execGetMeasurements s
  | .keyExchange => Sys2Proof.Machine.execKeyExchange s
  | .finish => Sys2Proof.Machine.execFinish s
  | .keyUpdate => Sys2Proof.Machine.execKeyUpdate s
  | .heartbeat => Sys2Proof.Machine.execHeartbeat s
  | .endSession => Sys2Proof.Machine.execEndSession s
  | .ideKm => Sys2Proof.Machine.execIdeKm s
  | .policyPresent => Sys2Proof.Machine.execPolicyPresent s
  | .resync => Sys2Proof.Machine.execResync s
  | .enable => Sys2Proof.Machine.execEnable s
  | .disable => Sys2Proof.Machine.execDisable s
  | .actionResume => Sys2Proof.Machine.execActionResume s
  | .actionTerminate => Sys2Proof.Machine.execActionTerminate s
  | .crtailWrite => Sys2Proof.Machine.execCrtailWrite s
  | .createWorld => Sys2Proof.Machine.execCreateWorld s
  | .bindQuarters => Sys2Proof.Machine.execBindQuarters s
  | .bindMemory => Sys2Proof.Machine.execBindMemory s
  | .createContext => Sys2Proof.Machine.execCreateContext s
  | .setLimits => Sys2Proof.Machine.execSetLimits s
  | .setDevice => Sys2Proof.Machine.execSetDevice s
  | .migrateOut => Sys2Proof.Machine.execMigrateOut s
  | .migrateIn => Sys2Proof.Machine.execMigrateIn s
  | .destroyWorld => Sys2Proof.Machine.execDestroyWorld s
  | .setError => Sys2Proof.Machine.execSetError s
  | .mcCompletion => Sys2Proof.Machine.execMcCompletion s
  | .quiesceLimitExpiry => Sys2Proof.Machine.execQuiesceLimitExpiry s
  | .freezePoint => Sys2Proof.Machine.execFreezePoint s
  | .clauseRound => Sys2Proof.Machine.execClauseRound s
  | .barrier => Sys2Proof.Machine.execBarrier s
  | .signalAdd => Sys2Proof.Machine.execSignalAdd s
  | .signalSet => Sys2Proof.Machine.execSignalSet s
  | .phaseOpen => Sys2Proof.Machine.execPhaseOpen s
  | .phaseClose => Sys2Proof.Machine.execPhaseClose s
  | .cancelPhase => Sys2Proof.Machine.execCancelPhase s
  | .cancelJob => Sys2Proof.Machine.execCancelJob s
  | .launch => Sys2Proof.Machine.execLaunch s
  | .graph => Sys2Proof.Machine.execGraph s
  | .copy => Sys2Proof.Machine.execCopy s
  | .bounceIn => Sys2Proof.Machine.execBounceIn s
  | .bounceOut => Sys2Proof.Machine.execBounceOut s
  | .bindWrite => Sys2Proof.Machine.execBindWrite s
  | .bindSweep => Sys2Proof.Machine.execBindSweep s
  | .loadPair => Sys2Proof.Machine.execLoadPair s
  | .unloadPair => Sys2Proof.Machine.execUnloadPair s
  | .timestamp => Sys2Proof.Machine.execTimestamp s
  | .writePacket => Sys2Proof.Machine.execWritePacket s
  | .nopPacket => Sys2Proof.Machine.execNopPacket s
  | .packetCompletion => Sys2Proof.Machine.execPacketCompletion s
  | .clauseEngineError => Sys2Proof.Machine.execClauseEngineError s
  | .clauseEngineRestart => Sys2Proof.Machine.execClauseEngineRestart s
  | .clauseSelfCheckFail => Sys2Proof.Machine.execClauseSelfCheckFail s
  | .queueLost => Sys2Proof.Machine.execQueueLost s
  | .blockPlace => Sys2Proof.Machine.execBlockPlace s
  | .placementReservation => Sys2Proof.Machine.execPlacementReservation s
  | .blockEnd => Sys2Proof.Machine.execBlockEnd s
  | .quarterHandover => Sys2Proof.Machine.execQuarterHandover s
  | .shareEpoch => Sys2Proof.Machine.execShareEpoch s
  | .drainLimitExpiry => Sys2Proof.Machine.execDrainLimitExpiry s
  | .nodeTimerExpiry => Sys2Proof.Machine.execNodeTimerExpiry s
  | .loadDataArrival => Sys2Proof.Machine.execLoadDataArrival s
  | .quotaGrant => Sys2Proof.Machine.execQuotaGrant s
  | .joinRelease => Sys2Proof.Machine.execJoinRelease s
  | .generationScrub => Sys2Proof.Machine.execGenerationScrub s
  | .copyPieceLand => Sys2Proof.Machine.execCopyPieceLand s
  | .copyComplete => Sys2Proof.Machine.execCopyComplete s
  | .faultServiceDone => Sys2Proof.Machine.execFaultServiceDone s
  | .stallLimitExpiry => Sys2Proof.Machine.execStallLimitExpiry s
  | .translationWalk => Sys2Proof.Machine.execTranslationWalk s
  | .forcedSave => Sys2Proof.Machine.execForcedSave s
  | .saveComplete => Sys2Proof.Machine.execSaveComplete s
  | .blockResume => Sys2Proof.Machine.execBlockResume s
  | .mmaComplete => Sys2Proof.Machine.execMmaComplete s
  | .memoryAccessCompletion => Sys2Proof.Machine.execMemoryAccessCompletion s
  | .generationScrubEnd => Sys2Proof.Machine.execGenerationScrubEnd s
  | .debuggerWrite => Sys2Proof.Machine.execDebuggerWrite s
  | .collectiveFailure => Sys2Proof.Machine.execCollectiveFailure s
  | .migrationKeyArrival => Sys2Proof.Machine.execMigrationKeyArrival s

end Sys2Proof.Machine
end

