-- ==== Sys2Proof/Machine/Step.lean ====
section
/-! DEFINITION. One step of the device, and the state in which its next step runs a given instruction. -/

namespace Sys2Proof.Machine

/-- What follows a step that has gone on: time passes and the next agent is chosen. -/
def goOn (r : Host.Outcome State Fault Refusal) : Host.Outcome State Fault Refusal :=
  match r with
  | .next t => .next t.reschedule
  | .fault f => .fault f
  | .refused x => .refused x

/-- An agent's turn: an instruction to execute, or one that has been dealt with already. -/
def takeTurn (n : Next) : Host.Outcome State Fault Refusal :=
  match n with
  | .run i s => exec i (s.ordered i)
  | .done s => .next s

/-- One step: the agent that the focus names moves. [DESIGN CHOICE 15] -/
def step (s : State) : Host.Outcome State Fault Refusal :=
  match s.focus with
  | .idle => goOn (.next s)
  | .input =>
    match s.inbox with
    | [] => goOn (.next s)
    | (i, a) :: rest => goOn (takeTurn (.run i { s with args := a, inbox := rest }))
  | .internal i a => goOn (takeTurn (.run i { s with args := s.physical i a }))
  | .lane _ _ _ => goOn (takeTurn s.laneNext)
  | .weft _ => goOn (takeTurn s.weftNext)
  | .heddle => goOn (takeTurn s.heddleNext)
  | .swap k => goOn (.next (s.swapHeddle k))
  | .upset u => goOn (.next (s.upset u))

/-- The state whose next step runs the instruction with bits `w`: a resident block, or a heddle run, about to issue it. [DEDUCED 1] -/
def State.withFetchWord (s : State) (nbits w : Nat) : State := s.placeWord nbits w

end Sys2Proof.Machine
end

