-- ==== Sys2Proof/Claim.lean ====
section
/-! DEFINITION. The words in which the statements speak of a step: what may differ between two states, how a lane
instruction issues, retires and leaves its results, and the arithmetic that the rules name, written apart from the
machine's own definitions. -/

namespace Sys2Proof.Machine

/-! ## What may differ -/

/-- `t` is `s` but for what a memory port, a fetch or a translation may change: memory and metadata, lines, port
counters, instruction-cache lines, the blocks a slot has let go, and the worlds' own counters and sweep pointers. -/
def State.PortKeeps (s t : State) : Prop :=
  { s with mem := t.mem, metas := t.metas, fixMetas := t.fixMetas, lines := t.lines, ports := t.ports, worlds := t.worlds,
           icache := t.icache, unref := t.unref } = t

/-- `t` is `s` but for what reading may change: besides what a port changes, which writes have been seen (R232) and the
count of the free values drawn. -/
def State.ReadKeeps (s t : State) : Prop :=
  { s with mem := t.mem, metas := t.metas, fixMetas := t.fixMetas, lines := t.lines, ports := t.ports, worlds := t.worlds,
           icache := t.icache, unref := t.unref, recent := t.recent, freeCnt := t.freeCnt } = t

/-- `t` is `s` but for block `b`. -/
def State.OnlyBlock (b : Nat) (s t : State) : Prop :=
  { s with blocks := t.blocks } = t ∧ ∀ c, c ≠ b → t.block? c = s.block? c

/-- `k'` is `k` but for its warps and the counters that a turn moves. -/
def Block.RunKeeps (k k' : Block) : Prop :=
  { k with warps := k'.warps, retired := k'.retired, cycles := k'.cycles, rot := k'.rot } = k'

/-- `y` is `x` but for its splits, the count of what a join retires, and physical registers that no name holds. -/
def Warp.SplitKeeps (x y : Warp) : Prop :=
  { x with active := y.active, pending := y.pending, retired := y.retired, phys := y.phys } = y ∧
    ∀ n, y.reg? n = x.reg? n

/-- `t` is `s` but for what the end of a step of warp `w` of block `b` may change: the splits of the warp, the sheds of
the block, and what a fetch may change. -/
def State.SettleKeeps (b w : Nat) (s t : State) : Prop :=
  { s with mem := t.mem, metas := t.metas, fixMetas := t.fixMetas, lines := t.lines, ports := t.ports, worlds := t.worlds,
           icache := t.icache, unref := t.unref, blocks := t.blocks } = t ∧
    (∀ c, c ≠ b → t.block? c = s.block? c) ∧
    match s.block? b with
    | none => t.block? b = none
    | some k => ∃ k', t.block? b = some k' ∧ { k with warps := k'.warps, sheds := k'.sheds } = k' ∧
        (∀ v, v ≠ w → AMap.get? k'.warps v = AMap.get? k.warps v) ∧
        match AMap.get? k.warps w with
        | none => AMap.get? k'.warps w = none
        | some x => ∃ x', AMap.get? k'.warps w = some x' ∧ x.SplitKeeps x'

/-- What follows a completed instruction before empty splits end and equal ones merge: it has retired, and its split
continues at `pc`. -/
def State.retireTo (s : State) (e : Env) (pc : W64) : State :=
  (s.retire e.b e.w e.sp).updSplit e.b e.w e.sp fun q => { q with pc := pc, park := .ready }

/-- The registers a load fills later, apart from those that took pending granules from it. -/
def Warp.loadsOnly (x : Warp) : AMap PendLoad := AMap.mapVals x.loads fun l => { l with heirs := [] }

end Sys2Proof.Machine

namespace Sys2Proof.Claim
open Sys2Proof.Machine

/-! ## Issue and completion of a lane instruction -/

/-- Split `e` issues from line `l` (the fetch leaves `s1`) an instruction after which it falls through to `pc`. -/
structure Issues (s : State) (e : Env) (l : FetchLine) (s1 : State) (pc : W64) : Prop where
  who : s.issuer? = some e
  line : s.issueLine e = (.ok l, s1)
  next : continuation l e.pc (laneLen (l.word (wordIndex e.pc))) = .ok pc

/-- A write of the names `ns` passes its quota and need not wait (R183); an idle split checks neither (R347). -/
def Room (e : Env) (ns : List Nat) : Prop :=
  ns = [] ∨ e.idle = true ∨ (e.wp.quotaOk ns = true ∧ e.wp.mustWait ns = false)

/-- In `r` split `e`'s instruction has retired and the split stands at `pc`; `x` is its warp (R334, R367). -/
structure Retired (e : Env) (s1 r : State) (x : Warp) (pc : W64) : Prop where
  rest : State.OnlyBlock e.b s1 r
  block : ∃ k, r.block? e.b = some k ∧ e.blk.RunKeeps k ∧ k.retired = e.blk.retired + 1 ∧
    AMap.get? k.warps e.w = some x ∧ ∀ v, v ≠ e.w → AMap.get? k.warps v = AMap.get? e.blk.warps v
  count : x.retired = e.wp.retired + 1
  split : AMap.get? x.active e.sp = some { e.split with pc := pc, park := .ready }
  splits : ∀ p, p ≠ e.sp → AMap.get? x.active p = AMap.get? e.wp.active p

/-- The issuer with its warp as it is afterwards. -/
def after (e : Env) (x : Warp) : Env := { e with wp := x }

/-- Nothing of a warp but registers, predicates, and what a turn moves has changed: flags, faults, pending splits, try
buffers, quotas, counters of copies and everything else. -/
def RegsOnly (x y : Warp) : Prop :=
  { x with rmap := y.rmap, phys := y.phys, loads := y.loads, sregs := y.sregs, stags := y.stags, preds := y.preds,
           region := y.region, retired := y.retired, skid := y.skid, due := y.due, splitPtr := y.splitPtr,
           polled := y.polled, active := y.active } = y

/-- Frame of an instruction that writes the vector names `ns`, the uniform names `us` and the predicates `ps` for the
active threads: every other register and predicate is unchanged, threads that are not active keep what they read. -/
structure Keeps (e : Env) (x : Warp) (ns us ps : List Nat) : Prop where
  only : RegsOnly e.wp x
  vecs : ∀ n, n ∉ ns → x.reg? n = e.wp.reg? n
  inactive : ∀ n t v, t < 16 → e.active.getLsbD t = false → e.vread n t = .ok v → (after e x).vread n t = .ok v
  unis : ∀ n, n ∉ us ∨ n = 0 → AMap.get? x.sregs n = AMap.get? e.wp.sregs n ∧ AMap.get? x.stags n = AMap.get? e.wp.stags n
  preds : ∀ p, p < 7 → p ∉ ps → x.preds.getD p 0#16 = e.wp.preds.getD p 0#16
  inactivePreds : ∀ p t, p < 7 → e.active.getLsbD t = false → (x.preds.getD p 0#16).getLsbD t = (e.wp.preds.getD p 0#16).getLsbD t
  loads : x.loadsOnly = e.wp.loadsOnly
  region : x.region = if us ≠ [] ∧ e.inTry = true ∧ e.idle = false then e.wp.region.map fun r => { r with uwrite := true }
    else e.wp.region

/-- Thread `t` of name `n` holds `v` in the block's generation. Where the write left threads of a granule out that still
waits for a load, the granule goes on waiting (R182). -/
def Holds (e : Env) (x : Warp) (n t : Nat) (v : W32) : Prop :=
  ∃ r, x.reg? n = some r ∧ r.tags.getD (t / 4) 0 = e.gen ∧ r.vals.get t = v ∧
    (r.pend.getD (t / 4) false = true → (∃ r0, e.wp.reg? n = some r0 ∧ r0.pend.getD (t / 4) false = true) ∧
      ∃ u, u < 16 ∧ u / 4 = t / 4 ∧ e.active.getLsbD u = false)

/-- A destination of `k` registers holds `v`: each word in its register, s0 discarding its word (R179, R338). -/
def Got (e : Env) (x : Warp) (d : BitVec 8) (k t v : Nat) : Prop :=
  ∀ j, j < k →
    let w := BitVec.ofNat 32 (v / 2 ^ (32 * j))
    if isS d then regNo d + j ≠ 0 → AMap.get? x.sregs (regNo d + j) = some w ∧ AMap.get? x.stags (regNo d + j) = some e.gen
    else Holds e x (regNo d + j) t w

/-- The uniform names that a destination of `k` registers writes. -/
def uniNames (d : BitVec 8) (k : Nat) : List Nat := if isS d then (List.range k).map (regNo d + ·) else []

/-- Instruction `i` completes with result `res e t v` of each thread in a destination `d` of `regs` registers: from every
state in which it issues, its fields are of the accepted classes (`ok`) and every thread that it runs for has its
result, it retires, its split falls through, the result stands in the destination and nothing else has changed. -/
def Yields (i : Instr) (d : BitVec 8) (regs : Env → Nat) (ok : Env → Prop) (res : Env → Nat → Nat → Prop) : Prop :=
  ∀ s e l s1 pc, Issues s e l s1 pc → i.wf = true → ok e → Room e (dstNames d (regs e)) →
    (∀ t, t ∈ e.runners d → ∃ v, res e t v) →
    ∃ r x, exec i s = .next (r.settleWarp e.b e.w) ∧ Retired e s1 r x pc ∧
      Keeps e x (dstNames d (regs e)) (uniNames d (regs e)) [] ∧
      ∀ t v, t ∈ e.runners d → res e t v → Got e x d (regs e) t v

/-- As `Yields`, for a predicate destination; p7 discards the result (R179, R377). -/
def Tests (i : Instr) (d : BitVec 8) (ok : Env → Prop) (res : Env → Nat → Bool → Prop) : Prop :=
  ∀ s e l s1 pc, Issues s e l s1 pc → i.wf = true → ok e →
    (∀ t, t ∈ e.act → ∃ v, res e t v) →
    ∃ r x, exec i s = .next (r.settleWarp e.b e.w) ∧ Retired e s1 r x pc ∧ Keeps e x [] [] [predNo d] ∧
      ∀ t v, t ∈ e.act → res e t v → predNo d ≠ 7 → (x.preds.getD (predNo d) 0#16).getLsbD t = v

/-- sread of selector `n` completes with `v` in its destination, read once and cleared in the same step: `c` is the issuer after
the clear. -/
def SpecialClears (d : BitVec 8) (n : Nat) (c : Env → Env) (v : Env → Nat) : Prop :=
  ∀ s e l s1 pc (sr : BitVec 8), Issues s e l s1 pc → sr.toNat = n → dstOk d (tyRegs e.ty) = true →
    Room e (dstNames d (tyRegs e.ty)) → e.inTry = false → e.idle = false →
    ∃ r x, exec (.sread d sr) s = .next (r.settleWarp e.b e.w) ∧ Retired (c e) (s1.updBlock e.b fun _ => (c e).blk) r x pc ∧
      Keeps (c e) x (dstNames d (tyRegs e.ty)) (uniNames d (tyRegs e.ty)) [] ∧
      ∀ t, t ∈ e.runners d → Got (c e) x d (tyRegs e.ty) t (v e)

/-! ## Other instructions of a lane -/

/-- Whenever `ok` holds, `i` completes: from the state its fetch leaves, `f` is what it does before it retires and its
split falls through. -/
def Does (i : Instr) (ok : Env → FetchLine → State → Prop) (f : Env → FetchLine → State → State) : Prop :=
  ∀ s e l s1 pc, Issues s e l s1 pc → i.wf = true → ok e l s1 →
    exec i s = .next (((f e l s1).retireTo e pc).settleWarp e.b e.w)

/-- As `Does`, and then `g` follows. -/
def DoesThen (i : Instr) (ok : Env → FetchLine → State → Prop) (f : Env → FetchLine → State → State)
    (g : Env → State → State) : Prop :=
  ∀ s e l s1 pc, Issues s e l s1 pc → i.wf = true → ok e l s1 →
    exec i s = .next (g e (((f e l s1).retireTo e pc).settleWarp e.b e.w))

/-- Split `e` issues from line `l`, whatever follows. -/
def Fetches (s : State) (e : Env) (l : FetchLine) (s1 : State) : Prop :=
  s.issuer? = some e ∧ s.issueLine e = (.ok l, s1)

/-- Whenever `ok` holds, `i` completes and `f` has set where its split stands. -/
def Jumps (i : Instr) (ok : Env → FetchLine → State → Prop) (f : Env → FetchLine → State → State) : Prop :=
  ∀ s e l s1, Fetches s e l s1 → i.wf = true → ok e l s1 →
    exec i s = .next (((f e l s1).retire e.b e.w e.sp).settleWarp e.b e.w)

/-- Whenever `ok` holds, `i` leaves its split parked as `p` after `f`. -/
def Parks (i : Instr) (ok : Env → FetchLine → State → Prop) (f : Env → FetchLine → State → State)
    (p : Env → State → Park) : Prop :=
  ∀ s e l s1, Fetches s e l s1 → i.wf = true → ok e l s1 →
    exec i s = .next ((((f e l s1).updSplit e.b e.w e.sp fun q => { q with park := p e s1 }).turnPassed e.b e.w e.sp).settleWarp
      e.b e.w)

/-- Whenever `ok` holds, the block takes fault `flt` of `i` (R205). -/
def Faults (i : Instr) (ok : Env → FetchLine → State → Prop) (flt : Env → FetchLine → State → Flt) : Prop :=
  ∀ s e l s1, Fetches s e l s1 → ok e l s1 → exec i s = .next (s1.laneFault e.b e.w e.pc (flt e l s1))

/-- The check of target `va`, and what it leaves of the state (R335). -/
def tgt (e : Env) (s : State) (va : W64) : Option Flt × State := s.targetFault e.blk.core e.blk.world e.blk.ctx 0 va

/-- The target at a word offset from the instruction. -/
def dest {n : Nat} (e : Env) (o : BitVec n) : W64 := e.pc + 4#64 * o.signExtend 64

/-- The instruction has retired; its warp, which it has made `y`, is now `x`: its counters and the turn have moved. -/
structure Turned (e : Env) (y : Warp) (s1 r : State) (x : Warp) : Prop where
  rest : State.OnlyBlock e.b s1 r
  block : ∃ k, r.block? e.b = some k ∧ e.blk.RunKeeps k ∧ k.retired = e.blk.retired + 1 ∧
    AMap.get? k.warps e.w = some x ∧ ∀ v, v ≠ e.w → AMap.get? k.warps v = AMap.get? e.blk.warps v
  count : x.retired = y.retired + 1
  active : x.active = y.active
  pending : x.pending = y.pending

/-- Threads of `m` whose next program counter among `nexts` is `pc`. -/
def goers (nexts : List (Nat × W64)) (pc : W64) : BitVec 16 := maskOf fun t => nexts.any fun p => p.1 == t && p.2 == pc

/-- `y` is warp `x` with split `sp` divided by the next program counters of its active threads (R180): the first group and
the inactive threads stay in its place, every other group is a new split with the mood and try state of the old one, in
a free active place while there is one and else at the end of the pending list. -/
structure Divided (x : Warp) (sp : Nat) (q : Split) (nexts : List (Nat × W64)) (pc0 : W64) (gs : List Split) (y : Warp) : Prop where
  rest : { x with active := y.active, pending := y.pending } = y
  own : AMap.get? y.active sp =
    some { q with pc := pc0, mask := q.mask &&& ~~~(gs.foldl (fun m g => m ||| g.mask) 0#16), park := .ready }
  groups : ∀ g, g ∈ gs → g = { q with pc := g.pc, mask := goers nexts g.pc, park := .ready } ∧ g.pc ≠ pc0 ∧
    ∃ t, (t, g.pc) ∈ nexts
  once : (gs.map Split.pc).Nodup
  all : ∀ p, p ∈ nexts → p.2 = pc0 ∨ ∃ g ∈ gs, g.pc = p.2
  others : ∀ k p, k ≠ sp → AMap.get? x.active k = some p → AMap.get? y.active k = some p
  placed : ∀ (j : Nat) g, gs[j]? = some g → match (freeActive x)[j]? with
    | some k => AMap.get? y.active k = some g
    | none => y.pending[x.pending.length + (j - (freeActive x).length)]? = some g
  waiting : ∀ (j : Nat) p, x.pending[j]? = some p → y.pending[j]? = some p
  count : y.pending.length = x.pending.length + (gs.length - (freeActive x).length)

/-! ## Accesses of a lane to memory -/

/-- The value of a `w`-bit pattern, in two's complement where `sg`. -/
def val (w : Nat) (sg : Bool) (x : Nat) : Int := if sg = true ∧ 2 ^ (w - 1) ≤ x then (x : Int) - 2 ^ w else x

/-- The names of a local load of `n` bytes are pending for its threads, its data `rs` follows, and the count of a flag is
raised (R192, R364, R408). -/
def pended (e : Env) (n f : Nat) (d : BitVec 8) (signed : Bool) (rs : List (Nat × List W32)) (s : State) : State :=
  s.updWarp e.b e.w fun x =>
    let load : PendLoad := { flag := f, split := e.sp, inTry := e.inTry, signed := signed }
    let y := if isS d then
        { x.writeUnis e.gen e.inTry (regNo d) ((rs.headD (0, [])).2.take (sizeRegs n)) with
          loads := AMap.set x.loads x.freshId load }
      else x.startLoad e.gen x.freshId (regNo d) (sizeRegs n) (maskOf fun t => rs.any fun r => r.1 == t) load rs
    y.raiseFlag f

/-- What the data `rs` of a local load of `n` bytes does: with no flag it stands in the registers at once, where no other
split of the warp could look at them meanwhile; with a flag it follows (R192, R408). -/
def landed (e : Env) (n f : Nat) (d : BitVec 8) (signed : Bool) (rs : List (Nat × List W32)) (s : State) : State :=
  if f = 15 then e.put s d (sizeRegs n) rs else pended e n f d signed rs s

/-- A release of `x` at .pod or .dom has nothing to wait for: no access of the world is unanswered by another device (R254). -/
def Acked (e : Env) (s : State) (x : BitVec 32) : Prop :=
  2 ≤ xOrd x → 6 ≤ xScope x → s.remoteDueOf (fun k => k.world == e.blk.world) = false

/-- No other split of the warp can read what a load without a flag has pending. -/
def Alone (e : Env) : Prop := e.blk.determ = true ∨ e.wp.active.length ≤ 1

/-- `i` is a cache instruction with its fields (R413); `pre` where it is a prefetch. A short form has an extended word of 0. -/
def CacheForm (i : Instr) (pre : Bool) (a : BitVec 8) (f o : BitVec 4) (x : BitVec 32) : Prop :=
  ((i = .prefetch a f o ∧ pre = true ∨ i = .cinv a f o ∧ pre = false ∨ i = .cwb a f o ∧ pre = false) ∧ x = 0#32) ∨
    (i = .prefetchXform a f o x ∧ pre = true ∨ i = .cinvXform a f o x ∧ pre = false ∧ xCache x = 0 ∨
      i = .cwbXform a f o x ∧ pre = false ∧ xCache x = 0) ∧ xOrd x = 0

/-- What the completion of a local store, red or cache instruction does: nothing without a flag; with one its count is
raised until the access completes (R408). -/
def counted (e : Env) (f : Nat) (s : State) : State :=
  if f = 15 then s
  else s.updWarp e.b e.w fun x =>
    { x.raiseFlag f with accs := AMap.set x.accs x.freshId { flag := f, split := e.sp } }

/-- The number that a load gives from its bytes: sign-extended to 32 bits in the signed widths (R409). -/
def Loaded (signed : Bool) (bs : List Byte) (v : Nat) : Prop :=
  if signed then v < 2 ^ 32 ∧ val 32 true v = val (8 * bs.length) true (leNat bs) else v = leNat bs

/-- The scope of a load that is an acquire (R230). -/
def acqOf (x : BitVec 32) : Option Nat := if xOrd x = 1 then some (xScope x) else none

/-- Each of the threads `ts` accesses its address `A t`, and every access reaches memory of the device. -/
def Reaches (e : Env) (s : State) (kind : AccKind) (size align : Nat) (ts : List Nat) (A : Nat → Nat) : Prop :=
  ∀ t, t ∈ ts → let x : ThAcc := { t := t, a := A t, r := s.reach e.blk e.w t kind (A t) size align }
    reaches x = true ∧ isRemote x = false

/-- The accesses of threads at their addresses. -/
def accs (e : Env) (s : State) (kind : AccKind) (size align : Nat) (ts : List Nat) (A : Nat → Nat) : List ThAcc :=
  ts.map fun t => { t := t, a := A t, r := s.reach e.blk e.w t kind (A t) size align }

/-- A rec.read finds a word for each thread that runs it: record `I`, word `K`, at address `A`, which reads as `B` (R450). -/
def RecordRead (d i k : BitVec 8) (lit : BitVec 32) (gi : Nat) (g : Graph) (I K A : Nat → Nat) (B : Nat → List Byte) (s2 : State)
    (e : Env) (s : State) : Prop :=
  s.feature e.blk.world 2 = true ∧ dstOk d 1 = true ∧ srcFor d i 1 = true ∧ srcFor d k 1 = true ∧
    ¬ (isLit i = true ∧ isLit k = true) ∧ e.inTry = false ∧ e.idle = false ∧ Room e (dstNames d 1) ∧ s.graphOf e.blk = some (gi, g) ∧
    (∀ t, t ∈ e.runners d → e.src32 (.word lit) i t = .ok (I t) ∧ e.src32 (.word lit) k t = .ok (K t) ∧ I t < e.blk.reccount ∧
      let node := AMap.getD g.nodes e.blk.node {}
      K t < 4 * node.rsize ∧ A t = wrapN 64 ((node.slotAddr (e.blk.group.getD (I t) 0)).toNat + 4 * K t)) ∧
    Reaches e s .load 4 4 (e.runners d) A ∧ s.anyHeld e.b 4 (accs e s .load 4 4 (e.runners d) A) = false ∧
    State.loadAll e none 4 (accs e s .load 4 4 (e.runners d) A) s =
      ((accs e s .load 4 4 (e.runners d) A).map fun x => (x, .ok (B x.t)), s2) ∧ ∀ t, t ∈ e.runners d → (B t).length = 4

/-- `t` is `s` but for what a store of warp `w` of block `b` may change: memory, the record window, host memory, and in the
block its scratchpad, its private memory and the record stores that the warp holds for fence.rec. -/
def StoreKeeps (b w : Nat) (s t : State) : Prop :=
  { s with mem := t.mem, metas := t.metas, fixMetas := t.fixMetas, lines := t.lines, ports := t.ports, worlds := t.worlds,
           icache := t.icache, unref := t.unref, hostMem := t.hostMem, blocks := t.blocks } = t ∧
    (∀ c, c ≠ b → t.block? c = s.block? c) ∧
    match s.block? b with
    | none => t.block? b = none
    | some k => ∃ k', t.block? b = some k' ∧
        { k with scratch := k'.scratch, scratchTags := k'.scratchTags, scratchPoison := k'.scratchPoison, priv := k'.priv,
                 warps := k'.warps } = k' ∧
        ∀ v, match AMap.get? k.warps v with
          | none => AMap.get? k'.warps v = none
          | some x => ∃ x', AMap.get? k'.warps v = some x' ∧ (if v = w then { x with recHeld := x'.recHeld } = x' else x' = x)

/-! ## Arithmetic of the rules -/

/-- Element `k` of a pattern of a TYPE. -/
def el (ty : Ty) (x k : Nat) : Nat := x / 2 ^ (k * tyWidth ty) % 2 ^ tyWidth ty

/-- The value of element `k`. -/
def ev (ty : Ty) (x k : Nat) : Int := val (tyWidth ty) (tySigned ty) (el ty x k)

def lo (ty : Ty) : Int := if tySigned ty then -(2 ^ (tyWidth ty - 1)) else 0
def hi (ty : Ty) : Int := if tySigned ty then 2 ^ (tyWidth ty - 1) - 1 else 2 ^ tyWidth ty - 1

/-- The element `r` holds the exact result `x`: clamped into the type under SAT, else modulo its width (R6, R275). -/
def Fits (ty : Ty) (sat : Bool) (x : Int) (r : Nat) : Prop :=
  r < 2 ^ tyWidth ty ∧
    if sat then val (tyWidth ty) (tySigned ty) r = max (lo ty) (min (hi ty) x)
    else (2 ^ tyWidth ty : Int) ∣ x - r

/-- `v` is a pattern of the type and every element of it satisfies `P`. -/
def Each (ty : Ty) (v : Nat) (P : Nat → Nat → Prop) : Prop :=
  v < 2 ^ tyBits ty ∧ ∀ k, k < tyBits ty / tyWidth ty → P k (el ty v k)

/-- Fields of a destination and sources of the mood's type (R336, R338, R339). -/
def Ok2 (ty : Ty → Bool) (d a b : BitVec 8) (e : Env) : Prop :=
  ty e.ty = true ∧ dstOk d (tyRegs e.ty) = true ∧ srcFor d a (tyRegs e.ty) = true ∧ srcFor d b (tyRegs e.ty) = true
def Ok1 (ty : Ty → Bool) (d a : BitVec 8) (e : Env) : Prop :=
  ty e.ty = true ∧ dstOk d (tyRegs e.ty) = true ∧ srcFor d a (tyRegs e.ty) = true
def Ok3 (ty : Ty → Bool) (d a b c : BitVec 8) (e : Env) : Prop := Ok2 ty d a b e ∧ srcFor d c (tyRegs e.ty) = true

/-- An instruction whose sources `as` and destination are of the mood's TYPE, which `ty` accepts: a field of another class
faults with BADOPERAND, and fields fit for one register under another TYPE with BADMOOD (R336, R346, R348). -/
def Rejects (i : Instr) (ty : Ty → Bool) (d : BitVec 8) (as : List (BitVec 8)) : Prop :=
  Faults i (fun e _ _ => ty e.ty = true ∧ (dstOk d (tyRegs e.ty) = false ∨ ∃ a ∈ as, srcFor d a (tyRegs e.ty) = false))
    (fun _ _ _ => { code := 0x02#8 }) ∧
  Faults i (fun e _ _ => i.wf = true ∧ ty e.ty = false ∧ dstOk d 1 = true ∧ ∀ a ∈ as, srcFor d a 1 = true)
    (fun _ _ _ => { code := 0x03#8 })

/-- Registers of a typed operand. -/
def tr (e : Env) : Nat := tyRegs e.ty

/-- Elements of a typed operand. -/
def cnt (e : Env) : Nat := tyBits e.ty / tyWidth e.ty

/-- A two-operand integer instruction whose exact result per element is `f`. -/
def IntPair (i : Instr) (d a b : BitVec 8) (lit : BitVec 32) (sat : Env → Bool) (f : Env → Int → Int → Int) : Prop :=
  Yields i d tr (Ok2 tyInt d a b) fun e t v => ∃ x y,
    e.srcTy e.ty (.word lit) a t = .ok x ∧ e.srcTy e.ty (.word lit) b t = .ok y ∧
    Each e.ty v fun k r => Fits e.ty (sat e) (f e (ev e.ty x k) (ev e.ty y k)) r

/-- A bitwise instruction. -/
def BitPair (i : Instr) (d a b : BitVec 8) (lit : BitVec 32) (f : Bool → Bool → Bool) : Prop :=
  Yields i d tr (Ok2 tyAny d a b) fun e t v => ∃ x y,
    e.srcTy e.ty (.word lit) a t = .ok x ∧ e.srcTy e.ty (.word lit) b t = .ok y ∧
    v < 2 ^ tyBits e.ty ∧ ∀ j, j < tyBits e.ty → v.testBit j = f (x.testBit j) (y.testBit j)

/-- A shift: `P` relates an element, its count and its result. -/
def Shift (i : Instr) (d a b : BitVec 8) (lit : BitVec 32) (P : Env → Nat → Nat → Nat → Prop) : Prop :=
  Yields i d tr (fun e => tyInt e.ty = true ∧ dstOk d (tyRegs e.ty) = true ∧ srcFor d a (tyRegs e.ty) = true ∧
      srcFor d b 1 = true) fun e t v => ∃ x y,
    e.srcTy e.ty (.word lit) a t = .ok x ∧ e.srcTy (if ty64 e.ty then 0 else e.ty) (.word lit) b t = .ok y ∧
    Each e.ty v fun k r => P e (el e.ty x k) (if ty64 e.ty then y else el e.ty y k) r

/-- A carry instruction: `P` relates the operands and the carry in to the result and the carry out (R384). -/
def Carries (i : Instr) (d a b c : BitVec 8) (lit : BitVec 24) (P : Nat → Nat → Bool → Nat → Bool → Prop) : Prop :=
  ∀ s e l s1 pc, Issues s e l s1 pc → i.wf = true → (e.ty = 0 ∨ e.ty = 1) → isV d = true → srcOk a 1 = true →
    srcOk b 1 = true → isP c = true → Room e (dstNames d 1) →
    (∀ t, t ∈ e.act → ∃ x y, e.srcTy e.ty (.lit24 lit) a t = .ok x ∧ e.srcTy e.ty (.lit24 lit) b t = .ok y) →
    ∃ r x, exec i s = .next (r.settleWarp e.b e.w) ∧ Retired e s1 r x pc ∧ Keeps e x (dstNames d 1) [] [predNo c] ∧
      ∀ t m n v co, t ∈ e.act → e.srcTy e.ty (.lit24 lit) a t = .ok m → e.srcTy e.ty (.lit24 lit) b t = .ok n →
        P m n (predNo c == 7 || (e.pred (predNo c)).getLsbD t) v co →
        Got e x d 1 t v ∧ (predNo c ≠ 7 → (x.preds.getD (predNo c) 0#16).getLsbD t = co)

/-- A compare: the thread's bit says whether `P` holds of its operands. -/
def Compare (i : Instr) (d a b : BitVec 8) (lit : BitVec 32) (ty : Ty → Bool) (P : Env → Nat → Nat → Prop) : Prop :=
  Tests i d (fun e => ty e.ty = true ∧ isP d = true ∧ srcOk a (tyRegs e.ty) = true ∧ srcOk b (tyRegs e.ty) = true)
    fun e t r => ∃ x y, e.srcTy e.ty (.word lit) a t = .ok x ∧ e.srcTy e.ty (.word lit) b t = .ok y ∧ (r = true ↔ P e x y)

/-- The floating value of element `k`, under FLUSH. -/
def fv (e : Env) (x k : Nat) : FVal := e.fval (el e.ty x k)

/-- The number that a finite value denotes. -/
def rat (neg : Bool) (m : Nat) (g : Int) : Rat := (if neg then -1 else 1) * m * 2 ^ g

/-- Order of values: false of a NaN (R280). -/
def FLt : FVal → FVal → Prop
  | .fin a m e, .fin b n g => rat a m e < rat b n g
  | .inf true, .inf false => True
  | .inf true, .fin .. => True
  | .fin .., .inf false => True
  | _, _ => False

/-- Equality of values: false of a NaN; zeros are equal (R280). -/
def FEq : FVal → FVal → Prop
  | .fin a m e, .fin b n g => rat a m e = rat b n g
  | .inf a, .inf b => a = b
  | _, _ => False

/-- A floating instruction of one source: `f` gives the exact value of each result, which is rounded once (R277). -/
def Float1 (i : Instr) (d a : BitVec 8) (lit : BitVec 32) (f : Env → FVal → FVal) : Prop :=
  Yields i d tr (Ok1 tyFloat d a) fun e t v => ∃ x, e.srcTy e.ty (.word lit) a t = .ok x ∧
    Each e.ty v fun k r => r = e.fres (f e (fv e x k))

/-- A floating instruction of two sources. -/
def Float2 (i : Instr) (d a b : BitVec 8) (lit : BitVec 32) (f : Env → FVal → FVal → FVal) : Prop :=
  Yields i d tr (Ok2 tyFloat d a b) fun e t v => ∃ x y,
    e.srcTy e.ty (.word lit) a t = .ok x ∧ e.srcTy e.ty (.word lit) b t = .ok y ∧
    Each e.ty v fun k r => r = e.fres (f e (fv e x k) (fv e y k))

/-- A sign operation: `f` gives the sign bit of the result; a NaN becomes the canonical one (R393). -/
def SignOp (i : Instr) (d a : BitVec 8) (lit : BitVec 32) (f : Bool → Bool) : Prop :=
  Yields i d tr (Ok1 tyFloat d a) fun e t v => ∃ x, e.srcTy e.ty (.word lit) a t = .ok x ∧
    Each e.ty v fun k r =>
      if fdecode e.fmt (el e.ty x k) = .nan then r = e.fmt.nanBits
      else ∀ j, j < tyWidth e.ty → r.testBit j =
        if j = tyWidth e.ty - 1 then f ((el e.ty x k).testBit j) else (el e.ty x k).testBit j

/-- A transcendental: each element widened exactly to f32, computed there and rounded into its format (R295, R398). -/
def Unit1 (i : Instr) (d a : BitVec 8) (lit : BitVec 32) (op : Nat) : Prop :=
  Yields i d tr (Ok1 tyFloat d a) fun e t v => ∃ x, e.srcTy e.ty (.word lit) a t = .ok x ∧
    Each e.ty v fun k r => r = e.fres (fdecode fmtF32 (transcF32 op (fencode fmtF32 0 (fv e x k))))

/-- `r` combines the elements `l`, at least one, by an operation of wred and wscan under an integer TYPE (R283, R371). -/
def Combined (ty : Ty) (sat : Bool) (op : Nat) (l : List Nat) (r : Nat) : Prop :=
  r < 2 ^ tyWidth ty ∧
    match op with
    | 0 => Fits ty sat (l.map (val (tyWidth ty) (tySigned ty))).sum r
    | 1 => r ∈ l ∧ ∀ y ∈ l, val (tyWidth ty) (tySigned ty) r ≤ val (tyWidth ty) (tySigned ty) y
    | 2 => r ∈ l ∧ ∀ y ∈ l, val (tyWidth ty) (tySigned ty) y ≤ val (tyWidth ty) (tySigned ty) r
    | 3 => ∀ j, r.testBit j = l.all fun y => y.testBit j
    | 4 => ∀ j, r.testBit j = l.any fun y => y.testBit j
    | _ => ∀ j, r.testBit j = decide ((l.filter fun y => y.testBit j).length % 2 = 1)

/-- The magnitudes of a quantisation block (R291): those of the elements of a pair, a NaN as 0, an infinity as the
largest finite f32. -/
def mag : FVal → Rat
  | .nan => 0
  | .inf _ => (2 - 2 ^ (-23 : Int)) * 2 ^ 127
  | .fin _ m g => rat false m g

/-- Element `k` of a pair under a floating TYPE. -/
def pfv (e : Env) (x k : Nat) : FVal := e.fval (x / 2 ^ (k * tyWidth e.ty) % 2 ^ tyWidth e.ty)

/-! ## A heddle run (R42, R43) -/

/-- Whenever `ok` holds of the run in progress, `i` is one step of it that leaves a run related to it by `P`. -/
def Steps (i : Instr) (ok : HRun → Prop) (P : HRun → HRun → Prop) : Prop :=
  ∀ s r, s.focus = .heddle → s.heddle = some r → r.fin = .running → r.steps < 4096 → ok r →
    ∃ r', exec i s = .next { s with heddle := some r' } ∧ P r r'

/-- The instruction at index `h` is a tloop on counter `k` whose body ends where run `r` stands. -/
def EndsHere (r : HRun) (h k : Nat) : Prop := h < r.pc ∧ ∃ w, r.code[h]? = some w ∧ loopOf w = some (k, r.pc)

/-- Run `r` goes on after its instruction (R61): at the next index, but where a loop's body ends here its counter falls by
one and the body starts again until the counter reaches 0. -/
def Falls (r r' : HRun) : Prop :=
  (∀ h k, EndsHere r h k → (∀ g j, g < h → ¬ EndsHere r g j) →
    let l := if k = 0 then r.l0 else r.l1
    r'.pc = (if 1 < l.toNat then h + 1 else r.pc + 1) ∧
      (if k = 0 then r'.l0 else r'.l1) = (if 1 < l.toNat then l - 1#32 else 0#32) ∧
      (if k = 0 then r'.l1 = r.l1 else r'.l0 = r.l0)) ∧
  ((∀ h k, ¬ EndsHere r h k) → r'.pc = r.pc + 1 ∧ r'.l0 = r.l0 ∧ r'.l1 = r.l1)

/-- The step has made of run `r` the run `x`, counted itself and gone on. -/
def Goes (r x r' : HRun) : Prop := { x with steps := r.steps + 1, pc := r'.pc, l0 := r'.l0, l1 := r'.l1 } = r' ∧ Falls r r'

/-- A register of a run, and src2 (R54). -/
def tv (r : HRun) (k : BitVec 4) : W32 := r.t.getD k.toNat 0#32
def sv (r : HRun) (b : BitVec 4) (c : BitVec 1) (i : BitVec 13) : W32 := if c = 1#1 then i.setWidth 32 else tv r b

/-- `i` writes a value to register `d` of the run and goes on. -/
def TSets (i : Instr) (d : BitVec 4) (ok : HRun → Prop) (v : HRun → W32) : Prop :=
  Steps i ok fun r r' => Goes r { r with t := r.t.set d.toNat (v r) } r'

/-- The number in the bits of the input from bit `p` on, the lowest first; bits past the input are 0 (R42). -/
def BitsAt (r : HRun) (p n v : Nat) : Prop := v < 2 ^ n ∧ ∀ j, j < n → v.testBit j = (r.inp.getD ((p + j) / 8) 0#8).getLsbD ((p + j) % 8)

/-- The `k` bytes from `p` on lie in the input and are equal. -/
def RunAt (l : List Byte) (p k : Nat) : Prop := p + k ≤ l.length ∧ ∀ j, j < k → l.getD (p + j) 0#8 = l.getD p 0#8

/-- The low bits of a value, the lowest first. -/
def lows (n v : Nat) : List Bool := (List.range n).map fun j => v.testBit j

/-- The length and the value of a table entry of tvld and tvle. -/
def entLen (e : Nat) : Nat := e / 4096 % 16
def lens (es : List Nat) : Nat := (es.map entLen).sum

/-- The 16-bit entry at an index of the constant table. -/
def TabAt (r : HRun) (k e : Nat) : Prop := 2 * k + 2 ≤ r.tab.length ∧ e = (r.tab.getD (2 * k) 0#8).toNat + 256 * (r.tab.getD (2 * k + 1) 0#8).toNat

/-- `i` ends the run with an error: an overflow of the output where `ovf` (R43). -/
def Errs (i : Instr) (ovf : Bool) (ok : HRun → Prop) : Prop :=
  Steps i ok fun r r' => r'.fin = .error ovf ∧ r'.steps = r.steps + 1

/-! ## Copies -/

/-- The copies that an instruction starts: those of plans with bytes to move. -/
def started (ps : List CopyPlan) : List CopyPlan := ps.filter fun p => !p.segs.isEmpty

/-- Every plan passes the checks of R424 in `s`, there is room for the copies, and the warp's earlier accesses have been
performed (R246). -/
def CopiesGo (e : Env) (s : State) (ps : List CopyPlan) : Prop :=
  (∀ p, p ∈ ps → s.segsCheck e.blk p.bids.isNone p.segs = .ok ∧ e.srcUninit s p.segs = false) ∧
    s.copyRoom e.blk ((started ps).flatMap (planSegs s e)) (started ps).length = true ∧ s.remoteDue e.b e.w = false

/-- `i` starts the copy that `plan` gives each thread, once for uniform operands (`once`), provided each plan is
what its operands say (`ok`), the checks pass and there is room. -/
def Copies (i : Instr) (once : Bool) (fields : Prop) (ok : Env → State → Nat → CopyPlan → Prop) : Prop :=
  ∀ plan : Nat → CopyPlan, Does i (fun e _ s => fields ∧ e.wp.shuttle = true ∧ e.inTry = false ∧ e.idle = false ∧
      (∀ t, t ∈ e.onceIf once → (plan t).thread = t ∧ ok e s t (plan t)) ∧ CopiesGo e s ((e.onceIf once).map plan))
    fun e _ s => (started ((e.onceIf once).map plan)).foldl e.startCopy s

/-- No address lies in the private window. -/
def CopyAddrs (as : List Nat) : Prop := ∀ a, a ∈ as → inPrivWin a = false

/-! ## The weft sequencer -/

/-- The sequencer `e` issues from line `l`, whose fetch leaves `s1`. -/
def WIssues (s : State) (e : WEnv) (l : FetchLine) (s1 : State) : Prop :=
  s.weftIssuer? = some (e.b, e.blk, e.wf) ∧ s.weftLine e.blk e.wf = (.ok l, s1)

/-- Whenever `ok` holds, `i` completes: `f` is what it does before it retires and the stream continues after it. -/
def WDoes (i : Instr) (ok : WEnv → FetchLine → State → Prop) (f : WEnv → FetchLine → State → State) : Prop :=
  ∀ s e l s1, WIssues s e l s1 → i.wf = true → ok e l s1 →
    exec i s = .next (((f e l s1).weftRetire e.b).weftContinue e.b e.wf l)

/-- Whenever `ok` holds, `i` parks the sequencer. -/
def WParks (i : Instr) (ok : WEnv → FetchLine → State → Prop) (p : WEnv → Park) : Prop :=
  ∀ s e l s1, WIssues s e l s1 → i.wf = true → ok e l s1 →
    exec i s = .next ((s1.updWeft e.b fun y => { y with park := p e }).updBlock e.b fun k => { k with rot := 0 })

/-- Whenever `ok` holds, `i` halts the block with a fault of the sequencer. -/
def WFaults (i : Instr) (ok : WEnv → FetchLine → State → Prop) (flt : WEnv → Flt) : Prop :=
  ∀ s e l s1, WIssues s e l s1 → i.wf = true → ok e l s1 → exec i s = .next (s1.weftFault e.b e.wf.pc (flt e))

/-- Slot `n` with content `x` is the one of handle `h`: the one it holds, or else the lowest free one, which it takes. -/
def SlotOf (e : WEnv) (h : BitVec 4) (n : Nat) (x : AccSlot) : Prop := e.slotFor h = some (n, x)

/-- The terms that the scales of rows and columns make of partial sums: none where a scale is 0 (R292). -/
def termsOf (ps : List Int) (ra cb : Nat → Nat) : List (Option (Int × Int)) :=
  (ps.zip (List.range 4096)).map fun p =>
    let a := ra (p.2 / 128)
    let b := cb (p.2 % 128)
    if a = 0 ∨ b = 0 then none else some (p.1, (a : Int) - 512 + ((b : Int) - 512))

/-! ## The host interface -/

/-- A request with tag `t` to function `w` is looked at by its interface `x`: after bring-up, on the bound stream where it
has the T bit, and not in ERROR (R27, R96, R101). -/
def Admitted (s : State) (w : Nat) (t : HostTag) (x : World) : Prop :=
  s.world? w = some x ∧ s.bootReady = true ∧ x.tstate ≠ .error ∧
    (t.tbit = true → (x.tstate = .locked ∨ x.tstate = .run) ∧ t.stream.isSome = true ∧ t.stream = x.stream)

/-- The management command whose block `b` was read at MC_GO has opcode `op`, passes the checks of its block, and has not been
answered. -/
structure Commanded (s : State) (op : Nat) (fields : List McField) (device : Bool) (extra : List Nat) (b : List Byte) : Prop where
  ready : s.bootReady = true
  busy : s.mcBusy = true
  unanswered : s.mcResult = none
  block : s.mcCmd = b
  code : leWord b 0 2 = op
  clean : mcBad b fields device extra = []

/-- `t` is `s` but for world `w`. -/
def OnlyWorld (w : Nat) (s t : State) : Prop :=
  { s with worlds := t.worlds } = t ∧ ∀ v, v ≠ w → t.world? v = s.world? v

/-! ## Queues -/

/-- The clause engine of queue `x` is about to serve the packet `l` at its head; it has `r` to serve after it (R136). -/
structure Serves (s : State) (x : Queue) (l : List Byte) (r : List (Nat × Nat)) : Prop where
  queue : s.queue? s.args.world s.args.queue = some x
  first : s.liveTaken x.engine = (s.args.world, s.args.queue) :: r
  head : x.head = some l
  active : x.st ≠ .aborted
  going : (s.engineOf x.engine).stopped = false

/-- Step `i` serves a packet of the form `form`: whenever `ok` holds of the state in which the engine has taken it, of its
queue and of its bytes, `out` is the next state. -/
def Acts (i : Instr) (form : List Byte → Prop) (ok : State → Queue → List Byte → Prop)
    (out : State → Nat → Nat → Queue → List Byte → State) : Prop :=
  ∀ s x l r, Serves s x l r → form l →
    let s1 := s.updEngine x.engine fun e => { e with taken := r }
    ok s1 x l → exec i s = .next (out s1 s.args.world s.args.queue x l)

/-- The packet starts and has its result. -/
def completed (s : State) (w q : Nat) (l : List Byte) (code detail : BitVec 8) : State :=
  s.startPkt w q l fun p => { p with result := some (code, detail) }

/-- As `completed`, and the queue aborts when the packet has completed. -/
def aborting (s : State) (w q : Nat) (l : List Byte) (code detail : BitVec 8) : State :=
  s.startPkt w q l fun p => { p with result := some (code, detail), aborts := true }

/-! ## One step -/

/-- `u` is `t` where the lane of the warp that has just moved goes on from that warp's slot: once it has issued, or all its
splits have been offered (R155). -/
def LaneTurned (t u : State) : Prop :=
  (∀ b w p k x, t.focus = .lane b w p → t.block? b = some k → t.warp? b w = some x → x.polled = 0 →
    u = t.updQuarter (quarterOf k w) fun q => { q with slotPtr := AMap.set q.slotPtr x.lane x.slot }) ∧
  ((∀ b w p x, t.focus = .lane b w p → t.warp? b w = some x → x.polled ≠ 0) → u = t)

/-- The step goes on after `o`: a fault or a refusal stands; otherwise time and arithmetic cycles pass, and one of the
agents able to move moves next. -/
def Follows (o r : Host.Outcome State Fault Refusal) : Prop :=
  match o with
  | .next t => ∃ dt f u, LaneTurned t u ∧
      (let cs := t.cycles + dt * t.clockMHz
       r = .next { u with tick := t.tick + 1, now := t.now + dt, cycles := cs, focus := f }) ∧ (f ∈ u.candidates ∨ (u.candidates = [] ∧ f = .idle))
  | .fault x => r = .fault x
  | .refused x => r = .refused x

/-- A run within its bounds (R42, R43): sixteen registers, cursors inside the buffers, at most 4,096 steps. -/
structure Bounded (r : HRun) : Prop where
  regs : r.t.length = 16
  input : r.ic ≤ 8 * r.inp.length
  output : r.out.length ≤ 8 * r.outCap
  steps : r.steps ≤ 4096

/-- `r'` is a run of the transducer of `r`, over the same buffers and for the same access. -/
def SameRun (r r' : HRun) : Prop :=
  { r with out := r'.out, t := r'.t, ic := r'.ic, l0 := r'.l0, l1 := r'.l1, c := r'.c, pc := r'.pc, steps := r'.steps,
           fin := r'.fin } = r'

end Sys2Proof.Claim
end

