-- ==== Sys2Proof/Certificates/Slice0/Obligations.lean ====
section
/-! DEFINITION. The statements for the provers. -/

open Sys2Proof Sys2Proof.Machine Sys2Proof.Claim

/-! ## Lane: integers -/

/-- Each integer instruction forms the exact sum, difference, product, high half, product plus addend, magnitude, minimum or
maximum of every element of its operands in the mood's TYPE and narrows it once: clamped under SAT, else modulo the element's
width (R381). It completes from every state in which it issues with readable sources, and changes nothing but its
destination. A field of another class faults with BADOPERAND, another TYPE with BADMOOD. -/
def Obligations.IntegerPairsCompute : Prop :=
  (∀ d a b lit,
    IntPair (.add d a b lit) d a b lit (fun e => e.sat) (fun _ x y => x + y) ∧
    IntPair (.sub d a b lit) d a b lit (fun e => e.sat) (fun _ x y => x - y) ∧
    IntPair (.mul d a b lit) d a b lit (fun e => e.sat) (fun _ x y => x * y) ∧
    IntPair (.mulh d a b lit) d a b lit (fun _ => false) (fun e x y => x * y / 2 ^ tyWidth e.ty) ∧
    IntPair (.min d a b lit) d a b lit (fun _ => false) (fun _ x y => min x y) ∧
    IntPair (.max d a b lit) d a b lit (fun _ => false) (fun _ x y => max x y) ∧
    Rejects (.add d a b lit) tyInt d [a, b] ∧ Rejects (.sub d a b lit) tyInt d [a, b] ∧
    Rejects (.mul d a b lit) tyInt d [a, b] ∧ Rejects (.mulh d a b lit) tyInt d [a, b] ∧
    Rejects (.min d a b lit) tyInt d [a, b] ∧ Rejects (.max d a b lit) tyInt d [a, b]) ∧
  (∀ d a b c lit, Yields (.mad d a b c lit) d tr (Ok3 tyInt d a b c) (fun e t v => ∃ x y z,
      e.srcTy e.ty (.lit24 lit) a t = .ok x ∧ e.srcTy e.ty (.lit24 lit) b t = .ok y ∧ e.srcTy e.ty (.lit24 lit) c t = .ok z ∧
      Each e.ty v fun k r => Fits e.ty e.sat (ev e.ty x k * ev e.ty y k + ev e.ty z k) r) ∧
    Rejects (.mad d a b c lit) tyInt d [a, b, c]) ∧
  ∀ d a lit, Yields (.abs d a lit) d tr (Ok1 tyInt d a) (fun e t v => ∃ x, e.srcTy e.ty (.word lit) a t = .ok x ∧
      Each e.ty v fun k r => Fits e.ty e.sat |ev e.ty x k| r) ∧
    Rejects (.abs d a lit) tyInt d [a]

/-- popc, clz and brev count ones, count leading zeros and reverse the bits of each element of the pattern (R387); madw adds
a signed 32-bit product to a 64-bit addend modulo 2^64 (R385). -/
def Obligations.IntegerOthersCompute : Prop :=
  (∀ d a b c lit, Yields (.madw d a b c lit) d (fun _ => 2)
    (fun _ => dstOk d 2 = true ∧ srcFor d a 1 = true ∧ srcFor d b 1 = true ∧ srcFor d c 2 = true) fun e t v => ∃ x y z,
    e.src32 (.lit24 lit) a t = .ok x ∧ e.src32 (.lit24 lit) b t = .ok y ∧ e.src64 (.lit24 lit) c t = .ok z ∧
    v < 2 ^ 64 ∧ (2 ^ 64 : Int) ∣ val 32 true (x % 2 ^ 32) * val 32 true (y % 2 ^ 32) + z - v) ∧
  (∀ d a lit, Yields (.popc d a lit) d tr (Ok1 tyInt d a) fun e t v => ∃ x, e.srcTy e.ty (.word lit) a t = .ok x ∧
    Each e.ty v fun k r => r = ((List.range (tyWidth e.ty)).filter fun i => (el e.ty x k).testBit i).length) ∧
  (∀ d a lit, Yields (.clz d a lit) d tr (Ok1 tyInt d a) fun e t v => ∃ x, e.srcTy e.ty (.word lit) a t = .ok x ∧
    Each e.ty v fun k r => r ≤ tyWidth e.ty ∧ el e.ty x k < 2 ^ (tyWidth e.ty - r) ∧
      (r < tyWidth e.ty → 2 ^ (tyWidth e.ty - r - 1) ≤ el e.ty x k)) ∧
  ∀ d a lit, Yields (.brev d a lit) d tr (Ok1 tyInt d a) fun e t v => ∃ x, e.srcTy e.ty (.word lit) a t = .ok x ∧
    Each e.ty v fun k r => ∀ i, i < tyWidth e.ty → r.testBit i = (el e.ty x k).testBit (tyWidth e.ty - 1 - i)

/-- and, or, xor and andn act bit by bit under every TYPE; sel takes a or b by the thread's bit of predicate c. Shifts: left
is the exact product with 2^n, narrowed (so it saturates under SAT and gives zero past the width without it); logical right
is the quotient of the pattern; arithmetic right is the floor of the value; rotation moves bit i to bit i + n modulo the
width. The count is the element of b, or the whole 32-bit operand under i64 and n64 (R382, R383, R389). -/
def Obligations.BitsAndShiftsCompute : Prop :=
  (∀ d a b lit,
    BitPair (.and d a b lit) d a b lit (fun x y => x && y) ∧ BitPair (.or d a b lit) d a b lit (fun x y => x || y) ∧
    BitPair (.xor d a b lit) d a b lit (fun x y => x ^^ y) ∧ BitPair (.andn d a b lit) d a b lit (fun x y => x && !y) ∧
    ∀ c lit24, Yields (.sel d a b c lit24) d tr
      (fun e => tyAny e.ty = true ∧ isV d = true ∧ aligned d (tyRegs e.ty) = true ∧ srcOk a (tyRegs e.ty) = true ∧
        srcOk b (tyRegs e.ty) = true ∧ isP c = true) fun e t v => ∃ x y,
      e.srcTy e.ty (.lit24 lit24) a t = .ok x ∧ e.srcTy e.ty (.lit24 lit24) b t = .ok y ∧
      v = if predNo c = 7 ∨ (e.pred (predNo c)).getLsbD t = true then x else y) ∧
  ∀ d a b lit,
    Shift (.shl d a b lit) d a b lit (fun e x n r => Fits e.ty e.sat (val (tyWidth e.ty) (tySigned e.ty) x * 2 ^ n) r) ∧
    Shift (.shr d a b lit) d a b lit (fun _ x n r => r = x / 2 ^ n) ∧
    Shift (.sra d a b lit) d a b lit (fun e x n r => r < 2 ^ tyWidth e.ty ∧
      val (tyWidth e.ty) true r = val (tyWidth e.ty) true x / 2 ^ n) ∧
    Shift (.rot d a b lit) d a b lit (fun e x n r => r < 2 ^ tyWidth e.ty ∧
      ∀ i, i < tyWidth e.ty → r.testBit ((i + n) % tyWidth e.ty) = x.testBit i)

/-- bfe takes the field of c bits at b, both bounded by the width, zero- or sign-extended by the TYPE; bfi puts the low
bits of a into that field of b; perm builds each byte from a selected byte, or from its sign (R386, R388). -/
def Obligations.FieldsCompute : Prop :=
  ∀ d a b c lit,
    Yields (.bfe d a b c lit) d tr (fun e => tyWord e.ty = true ∧ dstOk d (tyRegs e.ty) = true ∧
        srcFor d a (tyRegs e.ty) = true ∧ srcFor d b 1 = true ∧ srcFor d c 1 = true) (fun e t v => ∃ x p l,
      e.srcTy e.ty (.lit24 lit) a t = .ok x ∧ e.src32 (.lit24 lit) b t = .ok p ∧ e.src32 (.lit24 lit) c t = .ok l ∧
      let w := tyWidth e.ty
      let n := min l (w - min p w)
      v < 2 ^ w ∧ ∀ i, i < w → v.testBit i = if i < n then x.testBit (p + i)
        else tySigned e.ty && decide (0 < n) && x.testBit (p + n - 1)) ∧
    Yields (.bfi d a b c lit) d tr (fun e => tyWord e.ty = true ∧ dstOk d (tyRegs e.ty) = true ∧
        srcFor d a (tyRegs e.ty) = true ∧ srcFor d b (tyRegs e.ty) = true ∧ srcFor d c 1 = true) (fun e t v => ∃ x y z,
      e.srcTy e.ty (.lit24 lit) a t = .ok x ∧ e.srcTy e.ty (.lit24 lit) b t = .ok y ∧ e.src32 (.lit24 lit) c t = .ok z ∧
      let w := tyWidth e.ty
      let p := min (z % 256) w
      let n := min (z / 256 % 256) (w - p)
      v < 2 ^ w ∧ ∀ i, i < w → v.testBit i = if p ≤ i ∧ i < p + n then x.testBit (i - p) else y.testBit i) ∧
    Yields (.perm d a b c lit) d (fun _ => 1)
      (fun _ => dstOk d 1 = true ∧ srcFor d a 1 = true ∧ srcFor d b 1 = true ∧ srcFor d c 1 = true) fun e t v => ∃ x y z,
      e.src32 (.lit24 lit) a t = .ok x ∧ e.src32 (.lit24 lit) b t = .ok y ∧ e.src32 (.lit24 lit) c t = .ok z ∧
      v < 2 ^ 32 ∧ ∀ k, k < 4 →
        let i := z / 16 ^ k % 16
        let s := (if i % 8 < 4 then x / 256 ^ (i % 8) else y / 256 ^ (i % 8 - 4)) % 256
        v / 256 ^ k % 256 = if i < 8 then s else if 128 ≤ s then 255 else 0

/-- addc adds both operands and the thread's bit of c and leaves the carry-out in c; subb subtracts with the borrow (R384). -/
def Obligations.CarriesChain : Prop :=
  ∀ d a b c lit,
    Carries (.addc d a b c lit) d a b c lit (fun x y ci v co => v < 2 ^ 32 ∧ x + y + ci.toNat = v + 2 ^ 32 * co.toNat) ∧
    Carries (.subb d a b c lit) d a b c lit (fun x y ci v co => v < 2 ^ 32 ∧ x + 2 ^ 32 * co.toNat = v + y + ci.toNat)

/-- A compare gives each active thread's bit of its predicate: whether the condition holds in every element, signed or
unsigned as the TYPE says, and as unsigned for ltu and geu; fcmp compares numbers, ordered conditions being false of a NaN
and ne and uno true; fclass tests the class of every element as stored (R377, R390, R394, R395). -/
def Obligations.ComparesTest : Prop :=
  ∀ d a b lit,
    Compare (.cmpEq d a b lit) d a b lit tyInt (fun e x y => ∀ k, k < cnt e → ev e.ty x k = ev e.ty y k) ∧
    Compare (.cmpNe d a b lit) d a b lit tyInt (fun e x y => ∀ k, k < cnt e → ev e.ty x k ≠ ev e.ty y k) ∧
    Compare (.cmpLt d a b lit) d a b lit tyInt (fun e x y => ∀ k, k < cnt e → ev e.ty x k < ev e.ty y k) ∧
    Compare (.cmpGe d a b lit) d a b lit tyInt (fun e x y => ∀ k, k < cnt e → ev e.ty y k ≤ ev e.ty x k) ∧
    Compare (.cmpLe d a b lit) d a b lit tyInt (fun e x y => ∀ k, k < cnt e → ev e.ty x k ≤ ev e.ty y k) ∧
    Compare (.cmpGt d a b lit) d a b lit tyInt (fun e x y => ∀ k, k < cnt e → ev e.ty y k < ev e.ty x k) ∧
    Compare (.cmpLtu d a b lit) d a b lit tyInt (fun e x y => ∀ k, k < cnt e → el e.ty x k < el e.ty y k) ∧
    Compare (.cmpGeu d a b lit) d a b lit tyInt (fun e x y => ∀ k, k < cnt e → el e.ty y k ≤ el e.ty x k) ∧
    Compare (.fcmpEq d a b lit) d a b lit tyFloat (fun e x y => ∀ k, k < cnt e → FEq (fv e x k) (fv e y k)) ∧
    Compare (.fcmpNe d a b lit) d a b lit tyFloat (fun e x y => ∀ k, k < cnt e → ¬ FEq (fv e x k) (fv e y k)) ∧
    Compare (.fcmpLt d a b lit) d a b lit tyFloat (fun e x y => ∀ k, k < cnt e → FLt (fv e x k) (fv e y k)) ∧
    Compare (.fcmpGe d a b lit) d a b lit tyFloat
      (fun e x y => ∀ k, k < cnt e → FLt (fv e y k) (fv e x k) ∨ FEq (fv e x k) (fv e y k)) ∧
    Compare (.fcmpLe d a b lit) d a b lit tyFloat
      (fun e x y => ∀ k, k < cnt e → FLt (fv e x k) (fv e y k) ∨ FEq (fv e x k) (fv e y k)) ∧
    Compare (.fcmpGt d a b lit) d a b lit tyFloat (fun e x y => ∀ k, k < cnt e → FLt (fv e y k) (fv e x k)) ∧
    Compare (.fcmpOrd d a b lit) d a b lit tyFloat (fun e x y => ∀ k, k < cnt e → fv e x k ≠ .nan ∧ fv e y k ≠ .nan) ∧
    Compare (.fcmpUno d a b lit) d a b lit tyFloat (fun e x y => ∀ k, k < cnt e → fv e x k = .nan ∨ fv e y k = .nan) ∧
    Tests (.fclass d a b lit) d (fun e => tyFloat e.ty = true ∧ isP d = true ∧ srcOk a 1 = true ∧ srcOk b 1 = true)
      fun e t r => ∃ x m, e.srcTy e.ty (.word lit) a t = .ok x ∧ e.src32 (.word lit) b t = .ok m ∧
        (r = true ↔ ∀ k, k < cnt e → m.testBit (fclassBit e.fmt (el e.ty x k)) = true)

/-! ## Lane: floating point, conversion, across the warp -/

/-- Every floating instruction forms its exact result from the elements read under FLUSH and rounds it once by ROUND,
with FLUSH and SAT (R277 to R281, R391 to R393, R396 to R398); fdot2 sums two products and an f32 addend; fscale takes the
whole signed count; ffma4 reads its destination as a source. -/
def Obligations.FloatsCompute : Prop :=
  ∀ d a b lit,
    Float2 (.fadd d a b lit) d a b lit (fun e x y => e.fsum [x, y]) ∧
    Float2 (.fsub d a b lit) d a b lit (fun e x y => e.fsum [x, y.negate]) ∧
    Float2 (.fmul d a b lit) d a b lit (fun _ x y => fmulV x y) ∧
    Float2 (.fmin d a b lit) d a b lit (fun _ x y => fminmaxV false x y) ∧
    Float2 (.fmax d a b lit) d a b lit (fun _ x y => fminmaxV true x y) ∧
    Float1 (.frnd d a lit) d a lit (fun e x => froundInt e.fenv.mode x) ∧
    Float1 (.fsqrt d a lit) d a lit (fun _ x => fsqrtV x) ∧
    SignOp (.fneg d a lit) d a lit (fun g => !g) ∧ SignOp (.fabs d a lit) d a lit (fun _ => false) ∧
    Yields (.fscale d a b lit) d tr (fun e => Ok1 tyFloat d a e ∧ srcFor d b 1 = true) (fun e t v => ∃ x n,
      e.srcTy e.ty (.word lit) a t = .ok x ∧ e.src32 (.word lit) b t = .ok n ∧
      Each e.ty v fun k r => r = e.fres (fscaleV (val 32 true n) (fv e x k))) ∧
    ∀ c l24,
      Yields (.ffma d a b c l24) d tr (Ok3 tyFloat d a b c) (fun e t v => ∃ x y z, e.srcTy e.ty (.lit24 l24) a t = .ok x ∧
        e.srcTy e.ty (.lit24 l24) b t = .ok y ∧ e.srcTy e.ty (.lit24 l24) c t = .ok z ∧
        Each e.ty v fun k r => r = e.fres (e.fsum [fmulV (fv e x k) (fv e y k), fv e z k])) ∧
      Yields (.ffma4 d a b c l24) d tr (Ok3 tyFloat d a b c) (fun e t v => ∃ x y z w, e.srcTy e.ty (.lit24 l24) a t = .ok x ∧
        e.srcTy e.ty (.lit24 l24) b t = .ok y ∧ e.srcTy e.ty (.lit24 l24) c t = .ok z ∧
        e.srcTy e.ty (.lit24 l24) d t = .ok w ∧
        Each e.ty v fun k r => r = e.fres (e.fsum [fmulV (fv e x k) (fv e y k), fmulV (fv e z k) (fv e w k)])) ∧
      Yields (.fdot2 d a b c l24) d tr (Ok3 tyHalf d a b c) fun e t v => ∃ x y z, e.srcTy e.ty (.lit24 l24) a t = .ok x ∧
        e.srcTy e.ty (.lit24 l24) b t = .ok y ∧ e.srcTy 2 (.lit24 l24) c t = .ok z ∧
        v = fresult fmtF32 e.fenv (e.fsum [fmulV (fv e x 0) (fv e y 0), fmulV (fv e x 1) (fv e y 1), fread fmtF32 e.fenv.flush z])

/-- A product and a sum of finite values are exact, a product with or a sum of infinities is the infinity or NaN that R277
names, and a NaN gives a NaN: no rounding happens before the one at the end (R277, R280, R391). -/
def Obligations.ProductsAndSumsExact : Prop :=
  (∀ n m g n' m' g', ∃ k j h, fmulV (.fin n m g) (.fin n' m' g') = .fin k j h ∧
    rat k j h = rat n m g * rat n' m' g' ∧ k = (n != n')) ∧
  (∀ mode (l : List (Bool × Nat × Int)), ∃ k j h,
    fsumV mode (l.map fun t => .fin t.1 t.2.1 t.2.2) = .fin k j h ∧ rat k j h = (l.map fun t => rat t.1 t.2.1 t.2.2).sum ∧
    (l ≠ [] → (∀ t ∈ l, t.2.1 = 0 ∧ t.1 = true) → k = true) ∧ ((∀ t ∈ l, t.2.1 = 0 ∧ t.1 = false) → l ≠ [] → k = false) ∧
    (rat k j h = 0 → (∃ t ∈ l, t.2.1 ≠ 0) ∨ ((∃ t ∈ l, t.1 = true) ∧ ∃ t ∈ l, t.1 = false) → k = decide (mode = 2))) ∧
  (∀ v, fmulV .nan v = .nan ∧ fmulV v .nan = .nan) ∧
  (∀ a n m g, fmulV (.inf a) (.fin n m g) = (if m = 0 then .nan else .inf (a != n)) ∧
    fmulV (.fin n m g) (.inf a) = (if m = 0 then .nan else .inf (n != a))) ∧
  (∀ mode l, .nan ∈ l → fsumV mode l = .nan) ∧
  ∀ mode l a, .nan ∉ l → .inf a ∈ l → fsumV mode l = if .inf (!a) ∈ l then .nan else .inf a

/-- Every transcendental computes each element in f32 and rounds the result into the element's format. The special values
of R295 hold whatever the unit's free results are: a NaN gives the canonical NaN in every operation; the infinities, the
zeros and the negative operands give what the table says; fexp2 is exact for the integers it can represent as normal
numbers, flog2 for powers of two. The operations are numbered 0 fexp2, 1 flog2, 2 frcp, 3 frsq, 4 fsin, 5 fcos, 6 ftanh
(R295, R398).
The model's choice in it: log entry 5. -/
def Obligations.TranscendentalsCompute : Prop :=
  (∀ d a lit,
    Unit1 (.fexp2 d a lit) d a lit 0 ∧ Unit1 (.flog2 d a lit) d a lit 1 ∧ Unit1 (.frcp d a lit) d a lit 2 ∧
    Unit1 (.frsq d a lit) d a lit 3 ∧ Unit1 (.fsin d a lit) d a lit 4 ∧ Unit1 (.fcos d a lit) d a lit 5 ∧
    Unit1 (.ftanh d a lit) d a lit 6) ∧
  (∀ op b, op < 7 → fdecode fmtF32 b = .nan → transcF32 op b = 0x7fc00000) ∧
  (∀ b s, fdecode fmtF32 b = .inf s →
    transcF32 0 b = (if s then 0 else 0x7f800000) ∧ transcF32 1 b = (if s then 0x7fc00000 else 0x7f800000) ∧
    transcF32 2 b = (if s then 0x80000000 else 0) ∧ transcF32 3 b = (if s then 0x7fc00000 else 0) ∧
    transcF32 4 b = 0x7fc00000 ∧ transcF32 5 b = 0x7fc00000 ∧ transcF32 6 b = (if s then 0xbf800000 else 0x3f800000)) ∧
  (∀ b s g, b < 2 ^ 32 → fdecode fmtF32 b = .fin s 0 g →
    transcF32 0 b = 0x3f800000 ∧ transcF32 1 b = 0xff800000 ∧ transcF32 2 b = (if s then 0xff800000 else 0x7f800000) ∧
    transcF32 3 b = (if s then 0xff800000 else 0x7f800000) ∧ transcF32 4 b = (if s then 0x80000000 else 0) ∧
    transcF32 5 b = 0x3f800000 ∧ transcF32 6 b = (if s then 0x80000000 else 0)) ∧
  (∀ b m g, fdecode fmtF32 b = .fin true m g → m ≠ 0 → transcF32 1 b = 0x7fc00000 ∧ transcF32 3 b = 0x7fc00000) ∧
  (∀ b s m g (n : Int), fdecode fmtF32 b = .fin s m g → rat s m g = n → -126 ≤ n → n ≤ 127 →
    transcF32 0 b = (n + 127).toNat * 2 ^ 23) ∧
  (∀ b s m g, fdecode fmtF32 b = .fin s m g → 128 ≤ rat s m g → transcF32 0 b = 0x7f800000) ∧
  ∀ b m g (n : Int), fdecode fmtF32 b = .fin false m g → rat false m g = 2 ^ n →
    transcF32 1 b = fencode fmtF32 0 (.fin (n < 0) n.natAbs 0)


/-- cvt converts each element by the rule of its pair of TYPE codes; pack narrows a and b into the two halves of one
register and unpack widens the elements of one register over a pair (R399 to R401).
The model's choice in it: log entry 22. -/
def Obligations.ConversionsCompute : Prop :=
  (∀ d a (t sr : BitVec 4) lit, Yields (.cvt d a t sr lit) d (fun _ => tyRegs t.toNat)
    (fun _ => t.toNat ≤ 10 ∧ sr.toNat ≤ 10 ∧ tyBits t.toNat / tyWidth t.toNat = tyBits sr.toNat / tyWidth sr.toNat ∧
      dstOk d (tyRegs t.toNat) = true ∧ srcFor d a (tyRegs sr.toNat) = true) fun e th v => ∃ x,
    e.srcTy sr.toNat (.word lit) a th = .ok x ∧ Each t.toNat v fun k r =>
      match tyFloat t.toNat, tyFloat sr.toNat with
      | false, false => Fits t.toNat e.sat (Claim.ev sr.toNat x k) r
      | true, false => r = fresult (tyFmt t.toNat) e.fenv (.fin (Claim.ev sr.toNat x k < 0) (Claim.ev sr.toNat x k).natAbs 0)
      | false, true => val (tyWidth t.toNat) (tySigned t.toNat) r =
          ftoInt e.fenv.mode (lo t.toNat) (hi t.toNat) (fread (tyFmt sr.toNat) e.fenv.flush (el sr.toNat x k))
      | true, true => r = fresult (tyFmt t.toNat) e.fenv (fread (tyFmt sr.toNat) e.fenv.flush (el sr.toNat x k))) ∧
  (∀ d a b lit, Yields (.pack d a b lit) d (fun _ => 1)
    (fun e => tyNarrow e.ty = true ∧ dstOk d 1 = true ∧ srcFor d a 1 = true ∧ srcFor d b 1 = true) fun e t v => ∃ x y,
    e.srcTy (wideTy e.ty) (.word lit) a t = .ok x ∧ e.srcTy (wideTy e.ty) (.word lit) b t = .ok y ∧
    Each e.ty v fun k r =>
      let n := cnt e / 2
      let s := if k < n then x else y
      let j := if k < n then k else k - n
      if tyFloat e.ty then r = e.fres (fread fmtF32 e.fenv.flush s) else Fits e.ty e.sat (Claim.ev (wideTy e.ty) s j) r) ∧
  ∀ d a lit, Yields (.unpack d a lit) d (fun _ => 2)
    (fun e => tyNarrow e.ty = true ∧ dstOk d 2 = true ∧ srcFor d a 1 = true) fun e t v => ∃ x,
    e.srcTy e.ty (.word lit) a t = .ok x ∧ v < 2 ^ 64 ∧ ∀ k, k < cnt e →
      let w := tyWidth (wideTy e.ty)
      let r := v / 2 ^ (k * w) % 2 ^ w
      if tyFloat e.ty then r = fresult fmtF32 e.fenv (fv e x k) else val w (tySigned e.ty) r = Claim.ev e.ty x k

/-- trpack codes five bytes by sign in base 3; qscale gives the scale of the block's largest magnitude, 0 or the one x with
127.5 × 2^(x−513) ≤ m < 127.5 × 2^(x−512); qpack8 rounds each element over 2^(x−512) into −127 to 127; qunpack8 multiplies
each byte by 2^(x−512) and rounds once, without SAT (R402 to R405, R291).
The model's choice in it: log entry 21. -/
def Obligations.QuantisationComputes : Prop :=
  (∀ d a lit, Yields (.trpack d a lit) d (fun _ => 1) (fun _ => dstOk d 1 = true ∧ srcFor d a 2 = true) fun e t v => ∃ x,
    e.src64 (.word lit) a t = .ok x ∧
    let c (i : Nat) : Nat := let g := x / 256 ^ i % 256; if g = 0 then 0 else if g < 128 then 1 else 2
    v = c 0 + 3 * c 1 + 9 * c 2 + 27 * c 3 + 81 * c 4) ∧
  (∀ d a lit, Yields (.qscale d a lit) d (fun _ => 1)
    (fun e => tyFloat e.ty = true ∧ dstOk d 1 = true ∧ srcFor d a 2 = true) fun e _ v => ∃ X : Nat → Nat,
    (∀ u, u ∈ e.runners d → e.src64 (.word lit) a u = .ok (X u)) ∧
    (((∀ u k, u ∈ e.runners d → k < 2 * cnt e → mag (pfv e (X u) k) = 0) ∧ v = 0) ∨
      ∃ u k, u ∈ e.runners d ∧ k < 2 * cnt e ∧
        (∀ u' k', u' ∈ e.runners d → k' < 2 * cnt e → mag (pfv e (X u') k') ≤ mag (pfv e (X u) k)) ∧
        255 / 2 * 2 ^ ((v : Int) - 513) ≤ mag (pfv e (X u) k) ∧ mag (pfv e (X u) k) < 255 / 2 * 2 ^ ((v : Int) - 512))) ∧
  (∀ d a b lit, Yields (.qpack8 d a b lit) d (fun _ => 1)
    (fun e => tyFloat e.ty = true ∧ dstOk d 1 = true ∧ srcFor d a 2 = true ∧ srcFor d b 1 = true) fun e t v => ∃ x n,
    e.src64 (.word lit) a t = .ok x ∧ e.src32 (.word lit) b t = .ok n ∧ v < 2 ^ 32 ∧
    ∀ j, j < 4 → val 8 true (v / 256 ^ j % 256) =
      if n % 1024 = 0 ∨ 2 * cnt e ≤ j then 0 else qelem (n % 1024) (pfv e x j)) ∧
  ∀ d a b lit, Yields (.qunpack8 d a b lit) d (fun _ => 2)
    (fun e => tyFloat e.ty = true ∧ dstOk d 2 = true ∧ srcFor d a 1 = true ∧ srcFor d b 1 = true) fun e t v => ∃ x n,
    e.src32 (.word lit) a t = .ok x ∧ e.src32 (.word lit) b t = .ok n ∧ v < 2 ^ 64 ∧
    ∀ k, k < 2 * cnt e →
      let g := val 8 true (x / 256 ^ k % 256)
      v / 2 ^ (k * tyWidth e.ty) % 2 ^ tyWidth e.ty = if n % 1024 = 0 ∨ g = 0 then 0
        else fresult e.fmt { e.fenv with sat := false } (.fin (g < 0) g.natAbs (n % 1024 - 512))

/-- vote gives the ballot of the active threads; shfl and vtos take the value that another thread holds, active or not;
wred combines the active threads' values and wscan gives each active thread the combination up to and including its own:
integers exactly, narrowed once, floating values in the order of R283 (R368 to R371).
The model's choice in it: log entry 23. -/
def Obligations.CrossWarpComputes : Prop :=
  (∀ d p lit, Yields (.vote d p lit) d (fun _ => 1) (fun _ => dstOk d 1 = true ∧ isP p = true) fun e _ v =>
    v < 2 ^ 16 ∧ ∀ t, t < 16 → v.testBit t = (e.active.getLsbD t && (e.pred (predNo p)).getLsbD t)) ∧
  (∀ d a b lit, Yields (.shfl d a b lit) d tr (fun e => isV d = true ∧ aligned d (tyRegs e.ty) = true ∧
      srcVOk a (tyRegs e.ty) = true ∧ srcOk b 1 = true) fun e t v => ∃ i,
    e.src32 (.word lit) b t = .ok i ∧ e.srcTy e.ty .none a (i % 16) = .ok v) ∧
  (∀ d a b lit, Yields (.vtos d a b lit) d tr (fun e => isS d = true ∧ aligned d (tyRegs e.ty) = true ∧
      srcVOk a (tyRegs e.ty) = true ∧ srcUOk b 1 = true) fun e t v => ∃ i,
    e.src32 (.word lit) b t = .ok i ∧ e.srcTy e.ty .none a (i % 16) = .ok v) ∧
  (∀ d a b lit, Yields (.wred d a b lit) d tr (fun e => dstOk d (tyRegs e.ty) = true ∧ srcVOk a (tyRegs e.ty) = true ∧
      redBOk b = true ∧ redMoodOk b e.ty = true) fun e _ v => ∃ X : Nat → Nat,
    (∀ u, u ∈ e.act → e.srcTy e.ty .none a u = .ok (X u)) ∧ Each e.ty v fun k r =>
      if tyFloat e.ty then ∃ y, treeRed (e.fcomb (redOp b))
          ((List.range 16).map fun u => if u ∈ e.act then some (el e.ty (X u) k) else none) = some y ∧ r = e.fclamp y
      else Combined e.ty e.sat (redOp b) (e.act.map fun u => el e.ty (X u) k) r) ∧
  ∀ d a b lit, Yields (.wscan d a b lit) d tr (fun e => isV d = true ∧ aligned d (tyRegs e.ty) = true ∧
      srcVOk a (tyRegs e.ty) = true ∧ redBOk b = true ∧ redMoodOk b e.ty = true) fun e t v => ∃ X : Nat → Nat,
    (∀ u, u ∈ e.act → e.srcTy e.ty .none a u = .ok (X u)) ∧ Each e.ty v fun k r =>
      let l := (e.act.filter fun u => decide (u ≤ t)).map fun u => el e.ty (X u) k
      if tyFloat e.ty then ∃ y ys, l = y :: ys ∧ r = e.fclamp (ys.foldl (e.fcomb (redOp b)) y)
      else Combined e.ty e.sat (redOp b) l r

/-- sread completes with the value of each special register in its destination; selectors 13 and 14 clear theirs as they
read, whatever else they leave (R340, R367). With no active thread nothing is read or cleared. Selectors 13 and 14 roll a
try region back (R266), and selectors above 14 fault with BADOPERAND.
The model's choice in it: log entry 69. -/
def Obligations.SpecialsRead : Prop :=
  (∀ d sr, sr.toNat ≤ 12 → Yields (.sread d sr) d tr (fun e => dstOk d (tyRegs e.ty) = true) fun e t v =>
    v = match sr.toNat with
      | 0 => t
      | 1 => e.w
      | 2 => e.blk.bid.toNat
      | 3 => e.split.mask.toNat * 65536 + e.active.toNat
      | 4 => if e.blk.determ then e.blk.retired else e.blk.cycles
      | 5 => e.wp.retired
      | 6 => e.blk.reccount
      | 7 => e.blk.recdepth
      | 8 => e.blk.world
      | 9 => e.blk.genOf e.w
      | 10 => (e.wp.abortcode.get t).toNat
      | 11 => e.wp.abortmask.toNat
      | _ => e.wp.faultMask.toNat) ∧
  (∀ d, SpecialClears d 13 (fun e => after e { e.wp with rstatus := false }) fun e => if e.wp.rstatus then 1 else 0) ∧
  (∀ d, SpecialClears d 14
    (fun e => { e with blk := { e.blk with weft := e.blk.weft.map fun y => { y with povf := false, badWeight := false } } })
    fun e => match e.blk.weft with
      | some y => (if y.povf then 1 else 0) + (if y.badWeight then 2 else 0)
      | none => 0) ∧
  (∀ d sr, Does (.sread d sr) (fun e _ _ => e.idle = true ∧ sr.toNat ≤ 14 ∧ dstOk d (tyRegs e.ty) = true ∧
    (sr.toNat ≤ 12 ∨ e.inTry = false)) fun _ _ s => s) ∧
  (∀ d (sr : BitVec 8) s e l s1 pc, Issues s e l s1 pc → sr.toNat ≤ 12 ∨ (sr.toNat ≤ 14 ∧ e.inTry = false) →
    dstOk d (tyRegs e.ty) = true → Room e (dstNames d (tyRegs e.ty)) →
    ∃ (r : State) (x : Warp), exec (.sread d sr) s = .next (r.settleWarp e.b e.w) ∧ r.warp? e.b e.w = some x ∧
      AMap.get? x.active e.sp = some { e.split with pc := pc, park := .ready }) ∧
  (∀ d (sr : BitVec 8) s e l s1, Fetches s e l s1 → sr.toNat = 13 ∨ sr.toNat = 14 → dstOk d (tyRegs e.ty) = true →
    e.inTry = true → e.wp.regionLoads = false → exec (.sread d sr) s = .next (((s1.updWarp e.b e.w fun x =>
      x.rollWhole e.gen (abortWord 7 0x0d)).turnTaken e.b e.w e.sp).settleWarp e.b e.w)) ∧
  ∀ d (sr : BitVec 8), 14 < sr.toNat → Faults (.sread d sr) (fun _ _ _ => True) fun _ _ _ => { code := 0x02#8 }

/-! ## Lane: control, mood, registers, traps -/

/-- A completed lane instruction counts in its block and its warp, and moves its own split; every other block, warp and
split is unchanged (R155, R334, R367). -/
def Obligations.RetirementMoves : Prop :=
  ∀ s e pc k x q, s.block? e.b = some k → AMap.get? k.warps e.w = some x → AMap.get? x.active e.sp = some q →
    State.OnlyBlock e.b s (s.retireTo e pc) ∧ ∃ k' x', (s.retireTo e pc).block? e.b = some k' ∧ k.RunKeeps k' ∧
      k'.retired = k.retired + 1 ∧ (∀ v, v ≠ e.w → AMap.get? k'.warps v = AMap.get? k.warps v) ∧
      AMap.get? k'.warps e.w = some x' ∧
      { x with retired := x.retired + 1, skid := x'.skid, due := false, splitPtr := e.sp, polled := 0, active := x'.active } = x' ∧
      AMap.get? x'.active e.sp = some { q with pc := pc, park := .ready } ∧
      ∀ p, p ≠ e.sp → AMap.get? x'.active p = AMap.get? x.active p

/-- What each of these completes without changing anything but the turn, and at a fence with an acquire half which writes its
warp's later reads may still miss: nop; brk where the policy keeps breakpoints closed;
yield with no request; waitf at a flag whose count is zero with no fault held; waitf in the join form once every other
split is parked; a fence with nothing left to wait for; bru on zero; fence.code, which lets every instruction-cache line of
the world go (R252). A fence with a release half waits while another device has yet to answer
an access that it covers (R254). waitf parks while its flag's count is not zero, and raises the fault held against the flag
once it is (R181, R206, R354, R357, R363, R365, R375, R417).
The model's choices in it: log entries 11, 25 and 43. -/
def Obligations.WaitingAndPassing : Prop :=
  (Does .nop (fun _ _ _ => True) (fun _ _ s => s) ∧
  (∀ n, Does (.brk n) (fun e _ s => s.breakOpen e.blk.world = false) fun _ _ s => s) ∧
  Does .yield (fun e _ _ => e.blk.preempt = none) (fun _ _ s => s) ∧
  (∀ f : BitVec 8, Does (.waitf f) (fun e _ _ => e.wp.flags.getD f.toNat 0 = 0 ∧ e.wp.flagFault.getD f.toNat none = none)
    fun _ _ s => s) ∧
  Does .waitfJoin (fun e _ _ => ∀ p, p ∈ e.wp.active → p.1 = e.sp ∨ p.2.park ≠ .ready) (fun _ _ s => s) ∧
  (∀ (sc : BitVec 4) (o : BitVec 2), Does (.fence sc o) (fun e _ s => e.inTry = false ∧
      (sc.toNat < 2 ∨ o.getLsbD 1 = false ∨ s.remoteDue e.b e.w = false ∧
        (6 ≤ sc.toNat → s.remoteDueOf (fun k => k.world == e.blk.world) = false)))
      fun e _ s => if o.getLsbD 0 then s.learn e sc.toNat else s) ∧
  (∀ (sc : BitVec 4) (o : BitVec 2), Parks (.fence sc o) (fun e _ s => e.inTry = false ∧ 2 ≤ sc.toNat ∧ o.getLsbD 1 = true ∧
      (if 6 ≤ sc.toNat then s.remoteDueOf (fun k => k.world == e.blk.world) = true else s.remoteDue e.b e.w = true))
    (fun _ _ s => s) fun _ _ => .fence) ∧
  Does .fenceCode (fun e _ _ => e.inTry = false)
    (fun e _ s => { s with icache := s.icache.filter fun p => p.1 / 2 ^ 72 % 64 != e.blk.world }) ∧
  ∀ sr o, Does (.bru sr o) (fun e _ s => (tgt e s (dest e o)).1 = none ∧ e.sread sr.toNat = .ok 0#32)
    fun e _ s => (tgt e s (dest e o)).2) ∧
  (∀ f : BitVec 8, Parks (.waitf f) (fun e _ _ => e.wp.flags.getD f.toNat 0 ≠ 0) (fun _ _ s => s) fun _ _ => .waitf) ∧
  ∀ s e l s1 (f : BitVec 8) c a, Fetches s e l s1 → f.toNat ≤ 11 → e.wp.flags.getD f.toNat 0 = 0 →
    e.wp.flagFault.getD f.toNat none = some (c, a) →
    exec (.waitf f) s = .next ((s1.updWarp e.b e.w fun x => { x with flagFault := x.flagFault.set f.toNat none }).laneFault
      e.b e.w e.pc { code := c, addr := a })


/-- br, and bru on a register that is not zero, move the whole split to the target; call also writes the address after
it into its pair; the target is a TARGET-marked word (R335, R355, R357 to R359). -/
def Obligations.BranchesMove : Prop :=
  (∀ o s e l s1, Fetches s e l s1 → (tgt e s1 (dest e o)).1 = none →
    ∃ r x, exec (.br o) s = .next (r.settleWarp e.b e.w) ∧ Retired e (tgt e s1 (dest e o)).2 r x (dest e o) ∧
      Keeps e x [] [] []) ∧
  (∀ sr o v s e l s1, Fetches s e l s1 → (tgt e s1 (dest e o)).1 = none → e.sread sr.toNat = .ok v → v ≠ 0#32 →
    ∃ r x, exec (.bru sr o) s = .next (r.settleWarp e.b e.w) ∧ Retired e (tgt e s1 (dest e o)).2 r x (dest e o) ∧
      Keeps e x [] [] []) ∧
  ∀ d o s e l s1, Fetches s e l s1 → (tgt e s1 (dest e o)).1 = none → dstOk d 2 = true → Room e (dstNames d 2) →
    e.idle = false →
    ∃ r x, exec (.call d o) s = .next (r.settleWarp e.b e.w) ∧ Retired e (tgt e s1 (dest e o)).2 r x (dest e o) ∧
      Keeps e x (dstNames d 2) (uniNames d 2) [] ∧ ∀ t, t ∈ e.runners d → Got e x d 2 t (linkOf l e.pc 1).toNat

/-- brp, ret, jmpi and the register form of call continue each active thread at its own address: the split divides by them
(R180, R356, R360, R361). With no active thread nothing happens. -/
def Obligations.ThreadsScatter : Prop :=
  (∀ n p o s e l s1 c y, Fetches s e l s1 → (tgt e s1 (dest e o)).1 = none → e.idle = false →
    continuation l e.pc 1 = .ok c →
    e.wp.divide e.sp (e.act.map fun t => (t, if (e.pred p.toNat).getLsbD t = (n == 0#1) then dest e o else c)) = some y →
    ∃ r x, exec (.brp n p o) s = .next (r.settleWarp e.b e.w) ∧ Turned e y (tgt e s1 (dest e o)).2 r x ∧
      Keeps (after e y) x [] [] []) ∧
  (∀ a lit i, i = .ret a lit ∨ i = .jmpi a lit → ∀ s e l s1 s2 y (v : Nat → Nat), Fetches s e l s1 → i.wf = true →
    pairOk a = true → e.idle = false → (∀ t, t ∈ e.act → e.pread a t = .ok (v t)) →
    State.targetsFault e.blk.core e.blk.world e.blk.ctx (e.act.map fun t => (t, BitVec.ofNat 64 (v t))) s1 = (none, s2) →
    e.wp.divide e.sp (e.act.map fun t => (t, BitVec.ofNat 64 (v t))) = some y →
    ∃ r x, exec i s = .next (r.settleWarp e.b e.w) ∧ Turned e y s2 r x ∧ Keeps (after e y) x [] [] []) ∧
  (∀ d a lit s e l s1 s2 y (v : Nat → Nat), Fetches s e l s1 → (Instr.callReg d a lit).wf = true →
    dstOk d 2 = true → pairOk a = true → (isS d = true → isS a = true) → Room e (dstNames d 2) → e.idle = false →
    (∀ t, t ∈ e.act → e.pread a t = .ok (v t)) →
    State.targetsFault e.blk.core e.blk.world e.blk.ctx (e.act.map fun t => (t, BitVec.ofNat 64 (v t))) s1 = (none, s2) →
    e.wp.divide e.sp (e.act.map fun t => (t, BitVec.ofNat 64 (v t))) = some y →
    ∃ r x, exec (.callReg d a lit) s = .next (r.settleWarp e.b e.w) ∧ Turned e y s2 r x ∧
      Keeps (after e y) x (dstNames d 2) (uniNames d 2) [] ∧
      ∀ t, t ∈ e.runners d → Got (after e y) x d 2 t (linkOf l e.pc 1).toNat) ∧
  (∀ n p o, Does (.brp n p o) (fun e _ s => e.idle = true ∧ (tgt e s (dest e o)).1 = none) fun e _ s => (tgt e s (dest e o)).2) ∧
  (∀ a lit, Does (.ret a lit) (fun e _ _ => e.idle = true ∧ pairOk a = true) fun _ _ s => s) ∧
  (∀ a lit, Does (.jmpi a lit) (fun e _ _ => e.idle = true ∧ pairOk a = true) fun _ _ s => s) ∧
  ∀ d a lit, Does (.callReg d a lit)
    (fun e _ _ => e.idle = true ∧ dstOk d 2 = true ∧ pairOk a = true ∧ (isS d = true → isS a = true)) fun _ _ s => s

/-- The division of a split (R180): with a place for every further group it is as `Divided` says, the first group being
that of the lowest thread; without one there is none, and the instruction faults with DIVERGE. -/
def Obligations.DivisionFollows : Prop :=
  ∀ (x : Warp) sp q nexts t0 pc0, AMap.get? x.active sp = some q → sp < 4 → nexts.head? = some (t0, pc0) →
    (nexts.map Prod.fst).Pairwise (· < ·) → (∀ p, p ∈ nexts → p.1 < 16) →
    ∃ gs : List Split,
      if gs.length ≤ x.places then ∃ y, x.divide sp nexts = some y ∧ Divided x sp q nexts pc0 gs y
      else x.divide sp nexts = none ∧ (gs.map Split.pc).Nodup ∧ ∀ g, g ∈ gs → g.pc ≠ pc0 ∧ ∃ t, (t, g.pc) ∈ nexts

/-- exit ends the issuing split; outside a region it is legal (R362). yield acts on a request: the save begins, or the
block ends with CANCEL (R363, R221).
The model's choice in it: log entry 44. -/
def Obligations.SplitsEnd : Prop :=
  Jumps .exit (fun e _ _ => e.inTry = false) (fun e _ s => s.updSplit e.b e.w e.sp fun q => { q with mask := 0#16 }) ∧
  DoesThen .yield (fun e _ _ => ∃ t, e.blk.preempt = some (.preempt, t)) (fun _ _ s => s) (fun e s => s.beginSave e.b e.w) ∧
  DoesThen .yield (fun e _ _ => ∃ t, e.blk.preempt = some (.cancel, t)) (fun _ _ s => s)
    fun e s => s.terminate e.b { code := fcCancel, wid := e.w, pc := e.pc, addr := 0#64 } false

/-- trap parks its split under a token and writes a trap record with its immediate; brk, where the policy has opened
breakpoints, does so with a breakpoint record and halts the block. Without a call ring both end the block after the
instruction has completed (R218, R219, R374, R375).
The model's choice in it: log entry 25. -/
def Obligations.TrapsReport : Prop :=
  (∀ n s e l s1, Fetches s e l s1 → e.inTry = false → s1.ringBase e.blk.world ≠ 0#64 →
    let tok := s1.freshToken.1
    let s2 := s1.freshToken.2
    exec (.trap n) s = .next ((((s2.pushTrap e.blk.world (s2.ringRecord e.blk 1 0x18#8 n e.w 0 e.pc 0#64 tok)).updSplit e.b e.w
      e.sp fun q => { q with park := .trap tok }).turnPassed e.b e.w e.sp).settleWarp e.b e.w)) ∧
  (∀ n, DoesThen (.trap n) (fun e _ s => e.inTry = false ∧ s.ringBase e.blk.world = 0#64) (fun _ _ s => s)
    fun e s => s.terminate e.b { code := 0x18#8, wid := e.w, pc := e.pc, addr := 0#64 } true) ∧
  (∀ n, DoesThen (.brk n) (fun e _ s => s.breakOpen e.blk.world = true ∧ s.ringBase e.blk.world = 0#64) (fun _ _ s => s)
    fun e s => s.terminate e.b { code := 0x19#8, wid := e.w, pc := e.pc, addr := 0#64, detail := n } true) ∧
  ∀ n s e l s1, Fetches s e l s1 → s1.breakOpen e.blk.world = true → s1.ringBase e.blk.world ≠ 0#64 →
    e.blk.run = .running →
    let tok := s1.freshToken.1
    let s2 := s1.freshToken.2
    let fr : FaultRec := { code := 0x19#8, wid := e.w, pc := e.pc, addr := 0#64, detail := n, skid := false }
    let s3 := ((s2.pushTrap e.blk.world (s2.ringRecord e.blk 3 0x19#8 n e.w 0 e.pc 0#64 tok)).updSplit e.b e.w e.sp
      fun q => { q with park := .trap tok }).updBlock e.b fun k => { k with faults := k.faults ++ [fr] }
    let s4 := s3.updBlock e.b fun k => { k with run := .broken tok, brk := some tok, haltedAt := s3.now }
    exec (.brk n) s = .next ((s4.haltSiblings e.b e.w e.blk.determ).turnPassed e.b e.w e.sp)

/-- mood writes the whole register and mood.g the guard alone, whatever the guard says; vrel unmaps a name; quota.grow
takes registers that its lane has free, or queues for them and parks, and quota.shrink gives them back down to its floor (R346, R366, R184 to R187). -/
def Obligations.MoodAndQuotaChange : Prop :=
  (∀ a lit s e l s1 pc v, Issues s e l s1 pc → (Instr.mood a lit).wf = true → srcUOk a 1 = true →
    e.srcU (.word lit) a = .ok v → v < 2 ^ 12 → v / 16 % 16 ≤ 10 →
    exec (.mood a lit) s = .next (((s1.updSplit e.b e.w e.sp fun q => { q with mood := BitVec.ofNat 32 v }).retireTo e pc).settleWarp
      e.b e.w)) ∧
  (∀ p n lit, Does (.moodG p n lit) (fun _ _ _ => isP p = true) fun e _ s => s.updSplit e.b e.w e.sp fun q =>
    { q with mood := (q.mood &&& 0xfffffff0#32) ||| (BitVec.ofNat 32 (n.toNat % 2) <<< 3) ||| (p.setWidth 32 &&& 7#32) }) ∧
  (∀ a lit, Does (.vrel a lit) (fun _ _ _ => isV a = true) fun e _ s =>
    s.updWarp e.b e.w fun x => ({ x with rmap := AMap.erase x.rmap (regNo a) }).gc) ∧
  (∀ (x : Warp) n m, (x.rmap.map Prod.fst).Nodup → ({ x with rmap := AMap.erase x.rmap n } : Warp).gc.reg? m = if m = n then none else x.reg? m) ∧
  (∀ a lit s e l s1 n, Fetches s e l s1 → (Instr.quotaGrow a lit).wf = true → srcUOk a 1 = true → e.inTry = false →
    e.srcU (.word lit) a = .ok n → n ≠ 0 →
    e.wp.quota + n + s1.othersBase (quarterOf e.blk e.w) e.wp.lane e.b e.w ≤ 64 →
    AMap.getD (s1.quarter (quarterOf e.blk e.w)).quotaQ e.wp.lane [] ≠ [] ∨
      64 < n + (s1.laneWarps (quarterOf e.blk e.w) e.wp.lane).foldl (fun a x => a + x.2.2.quota) 0 →
    let queue (x : Quarter) := AMap.set x.quotaQ e.wp.lane (AMap.getD x.quotaQ e.wp.lane [] ++ [(e.b, e.w, e.sp, n)])
    exec (.quotaGrow a lit) s = .next ((((s1.updQuarter (quarterOf e.blk e.w) fun x =>
        { x with quotaQ := queue x }).updSplit e.b e.w e.sp
      fun q => { q with park := .quota n }).turnPassed e.b e.w e.sp).settleWarp e.b e.w)) ∧
  (∀ a lit n, Does (.quotaGrow a lit) (fun e _ s => srcUOk a 1 = true ∧ e.inTry = false ∧ e.srcU (.word lit) a = .ok n ∧ 0 < n ∧
      e.wp.quota + n + s.othersBase (quarterOf e.blk e.w) e.wp.lane e.b e.w ≤ 64 ∧
      AMap.getD (s.quarter (quarterOf e.blk e.w)).quotaQ e.wp.lane [] = [] ∧
      n + (s.laneWarps (quarterOf e.blk e.w) e.wp.lane).foldl (fun a x => a + x.2.2.quota) 0 ≤ 64)
    fun e _ s => s.updWarp e.b e.w fun x => { x with quota := x.quota + n }) ∧
  (∀ a lit, Does (.quotaGrow a lit) (fun e _ _ => srcUOk a 1 = true ∧ e.inTry = false ∧ e.srcU (.word lit) a = .ok 0)
    fun _ _ s => s) ∧
  (∀ a lit s e l s1 pc n, Issues s e l s1 pc → (Instr.quotaShrink a lit).wf = true → srcUOk a 1 = true → e.inTry = false →
    e.srcU (.word lit) a = .ok n →
    exec (.quotaShrink a lit) s = .next (((if n = 0 then s1 else s1.updWarp e.b e.w fun x =>
      { x with quota := max (x.quota - n) (max x.baseQuota (x.rmap.length + 2)) }).retireTo e pc).settleWarp e.b e.w))

/-! ## Lane: memory -/

/-- Results written to a destination stand in it, whatever its size, and nothing else of the warp changes: a vector write
is for the threads named, a uniform write is the first one (R179, R182, R338, R339). -/
def Obligations.ResultsStand : Prop :=
  ∀ (s : State) (e : Env) d k (rs : List (Nat × List W32)) (blk : Block), s.block? e.b = some blk → AMap.get? blk.warps e.w = some e.wp → k ≠ 0 →
    isV d = true ∨ isS d = true → rs.map Prod.fst = e.act ∨ (isS d = true ∧ rs.map Prod.fst = e.act.take 1) →
    (∀ r, r ∈ rs → r.2.length = k) →
    State.OnlyBlock e.b s (e.put s d k rs) ∧ ∃ x k', (e.put s d k rs).block? e.b = some k' ∧
      { blk with warps := k'.warps } = k' ∧ AMap.get? k'.warps e.w = some x ∧
      (∀ v, v ≠ e.w → AMap.get? k'.warps v = AMap.get? blk.warps v) ∧ Keeps e x (dstNames d k) (uniNames d k) [] ∧
      ∀ t ws v, (t, ws) ∈ rs → t ∈ e.runners d → (∀ j, j < k → ws.getD j 0#32 = BitVec.ofNat 32 (v / 2 ^ (32 * j))) →
        Got e x d k t v

/-- Every load gives each thread the bytes at its address, or where a plain store races with it those that the store replaced
and that this agent may still read (R232, R233), sign-extended in the signed widths (R407, R409, R410): without a
flag at once, or where another split of the warp could read the granules meanwhile, as a pending load for whose data the split
waits (R192); under a flag as a pending load. In a region ld.spec is recorded with the granules it read (R263). With no
active thread nothing is read (R347).
The model's choices in it: log entries 11 and 34. -/
def Obligations.LoadsRead : Prop :=
  (∀ (i : Instr) (w : BitVec 3) (d a : BitVec 8) (f o : BitVec 4) (x : BitVec 32) (spec : Bool),
    ((i = .ld w d a f o ∧ x = 0#32 ∧ spec = false) ∨ (i = .ldXform w d a f o x ∧ xOrd x ≤ 1 ∧ spec = false) ∨
      (i = .ldSpec w d a f o ∧ x = 0#32 ∧ spec = true) ∨ (i = .ldSpecXform w d a f o x ∧ xOrd x = 0 ∧ spec = true)) →
    ∀ s e l s1 pc s2 (A : Nat → Nat) (B : Nat → List Byte), Issues s e l s1 pc → i.wf = true →
    let n := widthBytes w
    let k := sizeRegs n
    dstOk d k = true → addrOk a = true → (isS d = true → isS a = true) → Room e (dstNames d k) → e.idle = false →
    (spec = true → s1.feature e.blk.world 3 = true) →
    (spec = true → e.inTry = true → ∀ r, e.wp.region = some r → r.alias_.length < 16) → e.wp.flagFull f.toNat = false →
    (∀ t, t ∈ e.runners d → e.addrOf a ((o.toNat * n : Nat) + xBoff x) t = .ok (A t)) →
    Reaches e s1 .load n n (e.runners d) A →
    let xs := accs e s1 .load n n (e.runners d) A
    s1.anyHeld e.b n xs = false → State.loadAll e (acqOf x) n xs s1 = (xs.map fun x => (x, .ok (B x.t)), s2) →
    (∀ t, t ∈ e.runners d → (B t).length = n) →
    let noted := fun y : Warp => { y with region := y.region.map fun r =>
      { r with alias_ := r.alias_ ++ [(e.runners d).map fun t => (t, A t / 32)] } }
    let c := if spec && e.inTry then after e (noted e.wp) else e
    let s3 := if spec && e.inTry then s2.updWarp e.b e.w noted else s2
    State.ReadKeeps s1 s2 ∧
    (f = 15#4 → Alone e → ∃ r y, exec i s = .next (r.settleWarp e.b e.w) ∧ Retired c s2 r y pc ∧
      Keeps c y (dstNames d k) (uniNames d k) [] ∧
      ∀ t v, t ∈ e.runners d → Loaded (widthSigned w) (B t) v → Got c y d k t v) ∧
    (f ≠ 15#4 ∨ ¬ Alone e → ∃ rs, rs.map Prod.fst = e.runners d ∧
      (∀ t ws v, (t, ws) ∈ rs → Loaded (widthSigned w) (B t) v →
        ∀ j, j < k → ws.getD j 0#32 = BitVec.ofNat 32 (v / 2 ^ (32 * j))) ∧
      let u := pended e n f.toNat d (widthSigned w) rs s3
      exec i s = .next (if f ≠ 15#4 then (u.retireTo e pc).settleWarp e.b e.w
        else ((u.updSplit e.b e.w e.sp fun q => { q with park := .sync e.wp.freshId }).turnPassed e.b e.w e.sp).settleWarp e.b e.w))) ∧
  (∀ (e : Env) n xs (s : State), s.recent = [] → State.loadAll e none n xs s = State.readAll e n xs s) ∧
  (∀ me skip k now (rs : List RaceWrite), let r := raceRead me skip k now rs
    (r.1 = now ∨ ∃ w, w ∈ rs ∧ w.byte = k ∧ me ∉ w.seen ∧ r.1 = w.old) ∧
    (∀ p q w, rs = p ++ w :: q → (∀ v, v ∈ p → v.byte ≠ k) → w.byte = k → me ∈ w.seen → r.1 = now) ∧
    r.2.map (fun w => (w.byte, w.old, w.piece)) = rs.map fun w => (w.byte, w.old, w.piece)) ∧
  ∀ (i : Instr) (w : BitVec 3) (d a : BitVec 8) (f o : BitVec 4) (x : BitVec 32) (spec : Bool),
    ((i = .ld w d a f o ∧ spec = false) ∨ (i = .ldXform w d a f o x ∧ xOrd x ≤ 1 ∧ spec = false) ∨
      (i = .ldSpec w d a f o ∧ spec = true) ∨ (i = .ldSpecXform w d a f o x ∧ xOrd x = 0 ∧ spec = true)) →
    Does i (fun e _ s => e.idle = true ∧ dstOk d (sizeRegs (widthBytes w)) = true ∧ addrOk a = true ∧
      (isS d = true → isS a = true) ∧ (spec = true → s.feature e.blk.world 3 = true)) fun _ _ s => s

/-- Every store writes each thread's bytes to its address: outside a region to memory, in a region to the store buffer;
data and address that are uniform are stored once (R407, R411, R260, R339). A release at .pod or .dom waits while another
device has yet to answer an access of the world (R254). A store to memory is listed among the writes that racing reads may miss
(R233), and nothing else changes with that list. With no active thread nothing is stored (R347).
The model's choice in it: log entry 11. -/
def Obligations.StoresWrite : Prop :=
  (∀ (i : Instr) (w : BitVec 3) (d a : BitVec 8) (f o : BitVec 4) (x : BitVec 32),
    ((i = .st w d a f o ∧ x = 0#32) ∨ (i = .stXform w d a f o x ∧ (xOrd x = 0 ∨ xOrd x = 2))) →
    ∀ s e l s1 pc (A : Nat → Nat) (B : Nat → List Byte), Issues s e l s1 pc → i.wf = true →
    let n := widthBytes w
    let ts := e.onceIf (isS a && !isV d)
    storeDataOk w d = true → addrOk a = true → e.idle = false → e.wp.flagFull f.toNat = false →
    (∀ t, t ∈ ts → e.addrOf a ((o.toNat * n : Nat) + xBoff x) t = .ok (A t)) →
    (∀ t, t ∈ ts → e.storeBytes d n t = .ok (B t)) → Reaches e s1 .store n n ts A →
    let xs := accs e s1 .store n n ts A
    let ws := xs.map fun x => (x, B x.t)
    (e.inTry = false → s1.anyHeld e.b n xs = false → ¬ Acked e s1 x → exec i s = .next (((s1.updSplit e.b e.w e.sp fun q =>
      { q with park := .fence }).turnPassed e.b e.w e.sp).settleWarp e.b e.w)) ∧
    (∀ s2, e.inTry = false → s1.anyHeld e.b n xs = false → Acked e s1 x → s1.writeAll e ws = (none, s2) →
      StoreKeeps e.b e.w s1 s2 ∧
      exec i s = .next (((counted e f.toNat (s2.noteStores s1 e none ws)).retireTo e pc).settleWarp e.b e.w)) ∧
    (∀ r, e.inTry = true → xOrd x ≠ 2 → e.wp.region = some r → r.buf.length + (n + 7) / 8 ≤ 16 → aliasHits r ws = [] →
      exec i s = .next (((counted e f.toNat (s1.updWarp e.b e.w fun y =>
        { y with region := y.region.map fun r => { r with buf := r.buf ++ bufEntries ws n } })).retireTo e pc).settleWarp
        e.b e.w))) ∧
  (∀ (s old : State) e f ws, { s with recent := (s.noteStores old e f ws).recent } = s.noteStores old e f ws) ∧
  (∀ (e : Env) d n t (ws : Nat → W32), isV d = true ∨ isS d = true → (∀ k, k < sizeRegs n → e.rread d k t = .ok (ws k)) →
    n = 1 ∨ n = 2 ∨ n = 4 ∨ n = 8 ∨ n = 16 →
    ∃ bs, e.storeBytes d n t = .ok bs ∧ bs.length = n ∧
      ∀ j, j < n → bs.getD j 0#8 = (ws (j / 4)).extractLsb' (8 * (j % 4)) 8) ∧
  (∀ (i : Instr) (w : BitVec 3) (d a : BitVec 8) (f o : BitVec 4) (x : BitVec 32),
    (i = .st w d a f o ∨ (i = .stXform w d a f o x ∧ (xOrd x = 0 ∨ xOrd x = 2))) →
    Does i (fun e _ _ => e.idle = true ∧ storeDataOk w d = true ∧ addrOk a = true ∧ (xOrd x ≠ 2 ∨ e.inTry = false))
      fun _ _ s => s) ∧
  ∀ (e : Env) (d : BitVec 8) n t i, opnd d = .imm i → ∃ bs, e.storeBytes d n t = .ok bs ∧ bs.length = n ∧
    (2 ^ (8 * n) : Int) ∣ i - leNat bs

/-- What a store changes, byte by byte: a line of the panel cache that it writes holds the bytes where they were stored and
its old bytes elsewhere, and no other line changes; a line that is absent is first filled; host memory, the scratchpad
and private memory answer alike: the stored bytes at their addresses, the old ones elsewhere (R3, R191, R203, R407).
The model's choice in it: log entry 11. -/
def Obligations.MemoryAnswers : Prop :=
  (∀ (s : State) w c (a : BAcc) off (bs : List Byte) (l : Line), s.line? a = some l → a.loc.fixc = 0 → l.data.length = 256 → off + bs.length ≤ 256 →
    ∃ l' s', s.writePlaces w c [(.block a off, bs)] = (none, s') ∧ { s with lines := s'.lines } = s' ∧
      s'.line? a = some l' ∧ (∀ j, l'.data.getD j 0#8 = if off ≤ j ∧ j < off + bs.length then bs.getD (j - off) 0#8
        else l.data.getD j 0#8) ∧ l'.data.length = 256 ∧
      (∀ j, j < 32 → l'.poison.getLsbD j = true → l.poison.getLsbD j = true) ∧
      ∀ b, State.lineKey b ≠ State.lineKey a → s'.line? b = s.line? b) ∧
  (∀ (s : State) w c (a : BAcc) off (bs : List Byte), s.writePlaces w c [(.block a off, bs)] = (s.fill a).2.writePlaces w c [(.block a off, bs)]) ∧
  (∀ (s : State) w c (a : BAcc) off n (l : Line), s.line? a = some l → l.poisoned off n = false →
    s.readPlace w c (.block a off) n = (.ok ((l.data.drop off).take n), s)) ∧
  (∀ (s : State) w c pa (bs : List Byte), Memory.wf s.hostMem = true → ∃ s', s.writePlaces w c [(.host pa, bs)] = (none, s') ∧
    { s with hostMem := s'.hostMem } = s' ∧
    ∀ b, s'.hostMem.read b = if pa ≤ b ∧ b < pa + bs.length then bs.getD (b - pa) 0#8 else s.hostMem.read b) ∧
  (∀ (k : Block) off (bs : List Byte) j, Memory.wf k.scratch = true → (k.scratchWrite off bs).scratchRead j 1 =
    if off ≤ j ∧ j < off + bs.length then [bs.getD (j - off) 0#8] else k.scratchRead j 1) ∧
  ∀ (k : Block) w t u o o' (bs : List Byte), Memory.wf (AMap.getD k.priv w []) = true → t < 16 → u < 16 →
    (k.privWrite w t o bs).privRead w u o' 1 =
      if u = t ∧ o ≤ o' ∧ o' < o + bs.length then [bs.getD (o' - o) 0#8] else k.privRead w u o' 1

/-- The tile forms move words 2t and 2t + 1 of a row, or of a column 128 bytes apart, between the scratchpad and the
register pair of each active thread t (R412); a load without a flag waits for its data where another split of the warp could read
the granules meanwhile (R192). With no active thread nothing moves (R347).
The model's choices in it: log entries 11 and 34. -/
def Obligations.TilesMove : Prop :=
  (∀ (i : Instr) (store col : Bool) (d a : BitVec 8) (f o : BitVec 4) (x : BitVec 32),
    (((i = .ldxRow d a f o ∧ store = false ∧ col = false ∨ i = .ldxCol d a f o ∧ store = false ∧ col = true ∨
        i = .stxRow d a f o ∧ store = true ∧ col = false ∨ i = .stxCol d a f o ∧ store = true ∧ col = true) ∧ x = 0#32) ∨
      ((i = .ldxRowXform d a f o x ∧ store = false ∧ col = false ∨ i = .ldxColXform d a f o x ∧ store = false ∧ col = true ∨
        i = .stxRowXform d a f o x ∧ store = true ∧ col = false ∨ i = .stxColXform d a f o x ∧ store = true ∧ col = true) ∧
        xOrd x = 0 ∧ xCache x = 0)) →
    ∀ s e l s1 pc off, Issues s e l s1 pc → i.wf = true → isV d = true → aligned d 2 = true →
    isS a = true → aligned a 2 = true → e.idle = false → e.wp.flagFull f.toNat = false →
    e.tileBase col a ((o.toNat * 128 : Nat) + xBoff x) = .ok off →
    let at_ (t h : Nat) : Nat := off + (if col then 128 else 4) * (2 * t + h)
    (∀ t h, t ∈ e.act → h < 2 → s1.scratchOutside e.blk (at_ t h) 4 = false ∧ s1.scratchHeld e.b (at_ t h) 4 = false) →
    (∀ (B : Nat → Nat → List Byte) s2, store = false → Room e (dstNames d 2) →
      State.loadAll e none 4 (tileWords col off e.act) s1 = ((e.act.flatMap fun t => (List.range 2).map fun h =>
        ({ t := t, a := scratchBase + at_ t h, r := .scratch (at_ t h) }, .ok (B t h))), s2) →
      let rs := e.act.map fun t => (t, [BitVec.ofNat 32 (leNat (B t 0)), BitVec.ofNat 32 (leNat (B t 1))])
      (f ≠ 15#4 ∨ Alone e → exec i s = .next (((landed e 8 f.toNat d false rs s2).retireTo e pc).settleWarp e.b e.w)) ∧
      (f = 15#4 → ¬ Alone e → exec i s = .next ((((pended e 8 f.toNat d false rs s2).updSplit e.b e.w e.sp fun q =>
          { q with park := .sync e.wp.freshId }).turnPassed e.b e.w e.sp).settleWarp e.b e.w))) ∧
    (∀ W : Nat → Nat → W32, store = true → e.inTry = false →
      (∀ t h, t ∈ e.act → h < 2 → e.rread d h t = .ok (W t h)) →
      let ws := e.act.flatMap fun t => [(at_ t 0, leBytes 4 (W t 0).toNat), (at_ t 1, leBytes 4 (W t 1).toNat)]
      let s2 := s1.updBlock e.b fun k => ws.foldl (fun k p => k.scratchWrite p.1 p.2)
        (k.scratchHeal (ws.flatMap fun p => (List.range 4).map (p.1 + ·)))
      exec i s = .next (((counted e f.toNat (s2.noteStores s1 e none (tileStores ws))).retireTo e pc).settleWarp e.b e.w))) ∧
  ∀ (i : Instr) (store : Bool) (d a : BitVec 8) (f o : BitVec 4) (x : BitVec 32),
    ((i = .ldxRow d a f o ∨ i = .ldxCol d a f o) ∧ store = false ∨ (i = .stxRow d a f o ∨ i = .stxCol d a f o) ∧ store = true ∨
      ((i = .ldxRowXform d a f o x ∨ i = .ldxColXform d a f o x) ∧ store = false ∨
        (i = .stxRowXform d a f o x ∨ i = .stxColXform d a f o x) ∧ store = true) ∧ xOrd x = 0 ∧ xCache x = 0) →
    Does i (fun e _ _ => e.idle = true ∧ isV d = true ∧ aligned d 2 = true ∧ isS a = true ∧ aligned a 2 = true ∧
      (store = true → e.inTry = false)) fun _ _ s => s

/-- prefetch, cinv and cwb complete from every state in which they issue, whatever the addresses of their threads (R413), and
each thread's address that leads to a block of memory is prefetched into its line; every line already present is as before.
cinv and cwb change nothing but the count of a flag. With no active thread nothing happens (R347).
The model's choice in it: log entry 43. -/
def Obligations.CachesObey : Prop :=
  (∀ (i : Instr) (pre : Bool) (a : BitVec 8) (f o : BitVec 4) (x : BitVec 32),
    CacheForm i pre a f o x → ∀ s e l s1 pc (A : Nat → Nat), Issues s e l s1 pc → i.wf = true → addrOk a = true →
    e.idle = false → (pre = false → e.inTry = false) → e.wp.flagFull f.toNat = false →
    (∀ t, t ∈ e.onceIf (isS a) → e.addrOf a ((o.toNat * 256 : Nat) + xBoff x) t = .ok (A t)) →
    ∃ s2, State.PortKeeps s1 s2 ∧ (pre = false → s2 = s1) ∧ (∀ b l, s1.line? b = some l → s2.line? b = some l) ∧
      (pre = true → ∀ t b off, t ∈ e.onceIf (isS a) → s1.reach e.blk e.w t .load (A t) 1 1 = .go (.block b off) →
        (s2.line? b).isSome = true) ∧
      exec i s = .next (((counted e f.toNat s2).retireTo e pc).settleWarp e.b e.w)) ∧
  ∀ (i : Instr) (pre : Bool) (a : BitVec 8) (f o : BitVec 4) (x : BitVec 32), CacheForm i pre a f o x →
    Does i (fun e _ _ => e.idle = true ∧ addrOk a = true ∧ (pre = false → e.inTry = false)) fun _ _ s => s

/-- The atomics replace the value at each thread's address, in ascending thread order, by the operation's value of it and
the operands, and the nine with a destination give the old values to it; with uniform operands they run once (R415, R416). A
release at .pod or .dom waits while another device has yet to answer an access of the world (R254).
The model's choices in it: log entries 11 and 35. -/
def Obligations.AtomicsExchange : Prop :=
  (∀ (i : Instr) (op : Nat) (ret : Bool) (d a b : BitVec 8) (x : BitVec 32),
    ((i = .atomAdd d a b x ∧ op = 0 ∨ i = .atomMin d a b x ∧ op = 1 ∨ i = .atomMax d a b x ∧ op = 2 ∨
        i = .atomAnd d a b x ∧ op = 3 ∨ i = .atomOr d a b x ∧ op = 4 ∨ i = .atomXor d a b x ∧ op = 5 ∨
        i = .atomFadd d a b x ∧ op = 6 ∨ i = .atomExch d a b x ∧ op = 7 ∨ i = .atomCas d a b x ∧ op = 8) ∧
        ret = true ∧ atmRop x = 0 ∨
      i = .red d a b x ∧ op = atmRop x ∧ op ≤ 6 ∧ ret = false ∧ d = 0#8 ∧ (xOrd x = 0 ∨ xOrd x = 2)) →
    ∀ s e l s1 pc (A B C : Nat → Nat) olds s2, Issues s e l s1 pc → i.wf = true →
    let ty := atmTy x
    let n := atmSize ty
    let k := sizeRegs n
    let c := atmC x
    let wide := ty == 2 || ty == 3
    let once := isS a && !isV b && (op != 8 || !isV c)
    let ts := e.onceIf (once || (ret && isS d))
    atmTypeOk op ty = true → addrOk a = true → atmSrcOk k b = true → (if op = 8 then atmSrcOk k c = true else c = 0#8) →
    (ret = true → dstOk d k = true ∧ Room e (dstNames d k) ∧
      (isS d = true → isS a = true ∧ isV b = false ∧ (op = 8 → isV c = false))) →
    e.idle = false → e.inTry = false →
    (∀ t, t ∈ ts → e.addrOf a ((x.toNat % 16 * n : Nat) : Int) t = .ok (A t)) → (∀ t, t ∈ ts → e.atomSrc wide b t = .ok (B t)) →
    (∀ t, t ∈ ts → (if op = 8 then e.atomSrc wide c t = .ok (C t) else C t = 0)) → Reaches e s1 .atomic n n ts A →
    let xs := accs e s1 .atomic n n ts A
    s1.anyHeld e.b n xs = false → (¬ Acked e s1 x → exec i s = .next (((s1.updSplit e.b e.w e.sp fun q =>
      { q with park := .fence }).turnPassed e.b e.w e.sp).settleWarp e.b e.w)) ∧
    (Acked e s1 x → firstDataFault (State.readAll e n xs s1).1 = none →
    State.atomicAll e n (fun t old => atomicF op ty old (B t) (C t)) xs s1 = (.ok olds, s2) →
    let res : List (Nat × List W32) :=
      if once && !isS d then match olds with
        | (_, v) :: _ => e.act.map fun t => (t, wordsFor k v)
        | [] => []
      else olds.map fun r => (r.1, wordsFor k r.2)
    olds.map Prod.fst = ts ∧
    let s3 := s2.noteAtomics e (if xOrd x % 2 = 1 then some (xScope x) else none) n xs
    exec i s = .next (((if ret then e.put s3 d k res else s3).retireTo e pc).settleWarp e.b e.w))) ∧
  (∀ ty old b c, ty ≤ 3 → let w := if ty = 2 ∨ ty = 3 then 64 else 32
    let sg := ty == 0 || ty == 2
    old < 2 ^ w → b < 2 ^ w →
    (2 ^ w : Int) ∣ old + b - atomicF 0 ty old b c ∧ atomicF 0 ty old b c < 2 ^ w ∧
    val w sg (atomicF 1 ty old b c) = min (val w sg old) (val w sg b) ∧
    val w sg (atomicF 2 ty old b c) = max (val w sg old) (val w sg b) ∧
    (∀ j, (atomicF 3 ty old b c).testBit j = (old.testBit j && b.testBit j)) ∧
    (∀ j, (atomicF 4 ty old b c).testBit j = (old.testBit j || b.testBit j)) ∧
    (∀ j, (atomicF 5 ty old b c).testBit j = (old.testBit j != b.testBit j)) ∧
    atomicF 7 ty old b c = b ∧ atomicF 8 ty old b c = if old = b then c else old) ∧
  ∀ old b c, atomicF 6 4 old b c = fencode fmtF32 0 (fsumV 0 [fdecode fmtF32 old, fdecode fmtF32 b])

/-! ## Transducers -/

/-- The moves, the arithmetic and the comparison of a heddle run (R56 to R59): each writes its register, or C, counts one step and
goes on; all else of the run and of the machine is unchanged. -/
def Obligations.HeddleComputes : Prop :=
  Steps .tnop (fun _ => True) (fun r r' => Goes r r r') ∧
  (∀ d i, TSets (.tli d i) d (fun _ => True) fun _ => i.signExtend 32) ∧
  (∀ d a, TSets (.tmov d a) d (fun _ => True) fun r => tv r a) ∧
  (∀ d x, TSets (.tmovSel d x) d (fun _ => x.toNat ≤ 5) fun r => match x.toNat with
    | 0 => BitVec.ofNat 32 r.ic
    | 1 => BitVec.ofNat 32 r.out.length
    | 2 => BitVec.ofNat 32 (8 * r.inp.length)
    | 3 => r.l0
    | 4 => r.l1
    | _ => if r.c then 1#32 else 0#32) ∧
  (∀ d a b c i, TSets (.tadd d a b c i) d (fun _ => True) fun r => tv r a + sv r b c i) ∧
  (∀ d a b c i, TSets (.tsub d a b c i) d (fun _ => True) fun r => tv r a - sv r b c i) ∧
  (∀ d a b c i, TSets (.tand d a b c i) d (fun _ => True) fun r => tv r a &&& sv r b c i) ∧
  (∀ d a b c i, TSets (.tor d a b c i) d (fun _ => True) fun r => tv r a ||| sv r b c i) ∧
  (∀ d a b c i, TSets (.txor d a b c i) d (fun _ => True) fun r => tv r a ^^^ sv r b c i) ∧
  (∀ d a b c i, TSets (.tshl d a b c i) d (fun _ => True) fun r => tv r a <<< (sv r b c i).toNat) ∧
  (∀ d a b c i, TSets (.tshr d a b c i) d (fun _ => True) fun r => tv r a >>> (sv r b c i).toNat) ∧
  ∀ k a b c i, Steps (.tcmp k a b c i) (fun _ => k.toNat ≤ 5) fun r r' => Goes r { r with c := match k.toNat with
    | 0 => tv r a == sv r b c i
    | 1 => tv r a != sv r b c i
    | 2 => (tv r a).ult (sv r b c i)
    | 3 => !(tv r a).ult (sv r b c i)
    | 4 => (tv r a).slt (sv r b c i)
    | _ => !(tv r a).slt (sv r b c i) } r'

/-- Branches, loops and the two ends of a heddle run (R56, R60, R61): a taken branch continues at its target; a loop of N
passes enters its body with the counter at N, and one of no passes continues after the body; tend and tfail end the run. -/
def Obligations.HeddleBranches : Prop :=
  (∀ t, Steps (.tbr t) (fun _ => True) fun r r' => r' = { r with steps := r.steps + 1, pc := t.toNat }) ∧
  (∀ t, Steps (.tbrC t) (fun r => r.c = true) fun r r' => r' = { r with steps := r.steps + 1, pc := t.toNat }) ∧
  (∀ t, Steps (.tbrC t) (fun r => r.c = false) fun r r' => Goes r r r') ∧
  (∀ t, Steps (.tbrNc t) (fun r => r.c = false) fun r r' => r' = { r with steps := r.steps + 1, pc := t.toNat }) ∧
  (∀ t, Steps (.tbrNc t) (fun r => r.c = true) fun r r' => Goes r r r') ∧
  (∀ k h n e, Steps (.tloop k h n e) (fun _ => True) fun r r' =>
    let v := BitVec.ofNat 32 (16 * h.toNat + n.toNat + 1)
    r' = { r with steps := r.steps + 1, pc := r.pc + 1, l0 := if k = 0#1 then v else r.l0, l1 := if k = 0#1 then r.l1 else v }) ∧
  (∀ k a h n e, Steps (.tloopReg k a h n e) (fun r => (tv r a).toNat ≤ 16 * h.toNat + n.toNat + 1 ∧ tv r a ≠ 0#32) fun r r' =>
    r' = { r with steps := r.steps + 1, pc := r.pc + 1, l0 := if k = 0#1 then tv r a else r.l0,
                  l1 := if k = 0#1 then r.l1 else tv r a }) ∧
  (∀ k a h n e, Steps (.tloopReg k a h n e) (fun r => tv r a = 0#32) fun r r' =>
    r' = { r with steps := r.steps + 1, pc := e.toNat + 1 }) ∧
  Steps .tend (fun _ => True) (fun r r' => r' = { r with steps := r.steps + 1, fin := .tend }) ∧
  Steps .tfail (fun _ => True) (fun r r' => r' = { r with steps := r.steps + 1, fin := .tfail })

/-- What a heddle run reads (R62, R64, R65): tget and tpeek take bits of the input, tskip and talign.i move its cursor, ttab
takes a word of the constant table, tcnt counts a run of equal bytes, or the bytes before a run of k. -/
def Obligations.HeddleReads : Prop :=
  (∀ d b c i, Steps (.tget d b c i) (fun r => (sv r b c i).toNat ≤ 32 ∧ r.ic + (sv r b c i).toNat ≤ 8 * r.inp.length) fun r r' =>
    ∃ v, BitsAt r r.ic (sv r b c i).toNat v ∧
      Goes r { r with t := r.t.set d.toNat (BitVec.ofNat 32 v), ic := r.ic + (sv r b c i).toNat } r') ∧
  (∀ d b c i, Steps (.tpeek d b c i) (fun r => (sv r b c i).toNat ≤ 32 ∧ r.ic + (sv r b c i).toNat ≤ 8 * r.inp.length) fun r r' =>
    ∃ v, BitsAt r r.ic (sv r b c i).toNat v ∧ Goes r { r with t := r.t.set d.toNat (BitVec.ofNat 32 v) } r') ∧
  (∀ b c i, Steps (.tskip b c i) (fun r => r.ic + (sv r b c i).toNat ≤ 8 * r.inp.length) fun r r' =>
    Goes r { r with ic := r.ic + (sv r b c i).toNat } r') ∧
  (∀ k p, Steps (.talignI k) (fun r => r.ic ≤ p ∧ p < r.ic + 2 ^ k.toNat ∧ 2 ^ k.toNat ∣ p ∧ p ≤ 8 * r.inp.length) fun r r' =>
    Goes r { r with ic := p } r') ∧
  (∀ d a b, Steps (.ttab d a b) (fun r => 4 * ((tv r a).toNat + b.toNat) + 4 ≤ r.tab.length) fun r r' =>
    ∃ v : W32, Goes r { r with t := r.t.set d.toNat v } r' ∧
      ∀ j, j < 4 → v.extractLsb' (8 * j) 8 = r.tab.getD (4 * ((tv r a).toNat + b.toNat) + j) 0#8) ∧
  ∀ d a m lim, Steps (.tcnt d a m lim) (fun r => r.ic % 8 = 0) fun r r' =>
    let p := r.ic / 8 + (tv r a).toNat
    ∃ v, v ≤ lim.toNat ∧ Goes r { r with t := r.t.set d.toNat (BitVec.ofNat 32 v) } r' ∧
      if m = 0#4 then (v = 0 ∨ RunAt r.inp p v) ∧ (v = lim.toNat ∨ ¬ RunAt r.inp p (v + 1))
      else (∀ j, j < v → p + j < r.inp.length ∧ ¬ RunAt r.inp (p + j) m.toNat) ∧
        (v = lim.toNat ∨ r.inp.length ≤ p + v ∨ RunAt r.inp (p + v) m.toNat)

/-- What a heddle run writes (R62, R63, R66, R67): tout the low bits of a register, tcopy bytes of the input, tfill copies of a byte,
talign.o zeros; tvld the symbols that a decode table gives for the bits of the input; tvle the codes that an encode
table gives for its bytes. -/
def Obligations.HeddleWrites : Prop :=
  (∀ a b c i, Steps (.tout a b c i) (fun r => (sv r b c i).toNat ≤ 32 ∧ r.out.length + (sv r b c i).toNat ≤ 8 * r.outCap)
    fun r r' => Goes r { r with out := r.out ++ lows (sv r b c i).toNat (tv r a).toNat } r') ∧
  (∀ b c i, Steps (.tcopy b c i) (fun r => (sv r b c i).toNat ≤ 32 ∧ r.ic % 8 = 0 ∧ r.out.length % 8 = 0 ∧
      r.ic + 8 * (sv r b c i).toNat ≤ 8 * r.inp.length ∧ r.out.length + 8 * (sv r b c i).toNat ≤ 8 * r.outCap) fun r r' =>
    Goes r { r with ic := r.ic + 8 * (sv r b c i).toNat, out := r.out ++
      (((r.inp.drop (r.ic / 8)).take (sv r b c i).toNat).flatMap fun x => lows 8 x.toNat) } r') ∧
  (∀ a b c i, Steps (.tfill a b c i) (fun r => (sv r b c i).toNat ≤ 32 ∧ r.out.length % 8 = 0 ∧
      r.out.length + 8 * (sv r b c i).toNat ≤ 8 * r.outCap) fun r r' =>
    Goes r { r with out := r.out ++
      ((List.replicate (sv r b c i).toNat (tv r a)).flatMap fun x => lows 8 x.toNat) } r') ∧
  (∀ k n, Steps (.talignO k) (fun r => n < 2 ^ k.toNat ∧ 2 ^ k.toNat ∣ r.out.length + n ∧ r.out.length + n ≤ 8 * r.outCap)
    fun r r' => Goes r { r with out := r.out ++ List.replicate n false } r') ∧
  (∀ d a l b (es : List Nat), Steps (.tvld d a l b) (fun r => r.out.length % 8 = 0 ∧ 1 ≤ l.toNat ∧ l.toNat ≤ 9 ∧
      es.length ≤ min 8 (tv r a).toNat ∧ (es.length = min 8 (tv r a).toNat ∨ 64 ≤ lens es) ∧
      r.ic + lens es ≤ 8 * r.inp.length ∧ r.out.length + 8 * es.length ≤ 8 * r.outCap ∧
      ∀ j, j < es.length → let o := lens (es.take j)
        o < 64 ∧ 1 ≤ entLen (es.getD j 0) ∧ entLen (es.getD j 0) ≤ l.toNat ∧
          ∃ v, BitsAt r (r.ic + o) l.toNat v ∧ TabAt r (b.toNat + v) (es.getD j 0)) fun r r' =>
    Goes r { r with t := r.t.set d.toNat (BitVec.ofNat 32 es.length), ic := r.ic + lens es,
                    out := r.out ++ es.flatMap (lows 8) } r') ∧
  ∀ d a b (es : List Nat), Steps (.tvle d a b) (fun r => r.ic % 8 = 0 ∧
      es.length ≤ min 8 (tv r a).toNat ∧ (es.length = min 8 (tv r a).toNat ∨ 8 * r.inp.length ≤ r.ic + 8 * es.length) ∧
      r.ic + 8 * es.length ≤ 8 * r.inp.length ∧ r.out.length + lens es ≤ 8 * r.outCap ∧
      ∀ j, j < es.length → 1 ≤ entLen (es.getD j 0) ∧ entLen (es.getD j 0) ≤ 12 ∧
        TabAt r (b.toNat + (r.inp.getD (r.ic / 8 + j) 0#8).toNat) (es.getD j 0)) fun r r' =>
    Goes r { r with t := r.t.set d.toNat (BitVec.ofNat 32 es.length), ic := r.ic + 8 * es.length,
                    out := r.out ++ es.flatMap fun e => lows (entLen e) e } r'

/-- The errors that end a heddle run (R43): a read past the input, a write past the output (an overflow), a byte-wise instruction
at a cursor that is no multiple of 8, a count above 32, a loop count above the bound, a table index outside the table, and
any instruction past 4,096 steps. -/
def Obligations.HeddleErrs : Prop :=
  (∀ d b c i, Errs (.tget d b c i) false fun r => 32 < (sv r b c i).toNat ∨ 8 * r.inp.length < r.ic + (sv r b c i).toNat) ∧
  (∀ d b c i, Errs (.tpeek d b c i) false fun r => 32 < (sv r b c i).toNat ∨ 8 * r.inp.length < r.ic + (sv r b c i).toNat) ∧
  (∀ b c i, Errs (.tskip b c i) false fun r => 8 * r.inp.length < r.ic + (sv r b c i).toNat) ∧
  (∀ a b c i, Errs (.tout a b c i) true fun r => (sv r b c i).toNat ≤ 32 ∧ 8 * r.outCap < r.out.length + (sv r b c i).toNat) ∧
  (∀ a b c i, Errs (.tout a b c i) false fun r => 32 < (sv r b c i).toNat) ∧
  (∀ b c i, Errs (.tcopy b c i) false fun r => 32 < (sv r b c i).toNat ∨ r.ic % 8 ≠ 0 ∨ r.out.length % 8 ≠ 0 ∨
    8 * r.inp.length < r.ic + 8 * (sv r b c i).toNat) ∧
  (∀ a b c i, Errs (.tfill a b c i) false fun r => 32 < (sv r b c i).toNat ∨ r.out.length % 8 ≠ 0) ∧
  (∀ a b c i, Errs (.tfill a b c i) true fun r => (sv r b c i).toNat ≤ 32 ∧ r.out.length % 8 = 0 ∧
    8 * r.outCap < r.out.length + 8 * (sv r b c i).toNat) ∧
  (∀ d a m lim, Errs (.tcnt d a m lim) false fun r => r.ic % 8 ≠ 0) ∧
  (∀ d a l b, Errs (.tvld d a l b) false fun r => r.out.length % 8 ≠ 0) ∧
  (∀ d a b, Errs (.tvle d a b) false fun r => r.ic % 8 ≠ 0) ∧
  (∀ k a h n e, Errs (.tloopReg k a h n e) false fun r => 16 * h.toNat + n.toNat + 1 < (tv r a).toNat) ∧
  (∀ d a b, Errs (.ttab d a b) false fun r => r.tab.length < 4 * ((tv r a).toNat + b.toNat) + 4) ∧
  ∀ w i s r, decodeTrans w = .ok i → s.focus = .heddle → s.heddle = some r → r.fin = .running → 4096 ≤ r.steps →
    exec i s = .next { s with heddle := some { r with fin := .error false } }

/-! ## Lane: fences, sheds, copies, bobbins, records, regions -/

/-- fence.rec installs what the warp wrote through the window; fence.map drops the translations of a context, for
firmware alone, once no access under them is unanswered by another device; the sheds: an arrival sets the warp's bit or waits for a clear one, a wait waits for the phase at which
the warp has arrived, and a phase completes once every participant that has not ended has arrived (R216, R419 to R422).
The model's choice in it: log entry 43. -/
def Obligations.ShedsSynchronise : Prop :=
  Does .fenceRec (fun e _ _ => e.inTry = false) (fun e _ s => s.fenceRecords e.b e.w) ∧
  (∀ w c lit wn cn, Does (.fenceMap w c lit) (fun e _ s => srcUOk w 1 = true ∧ srcUOk c 1 = true ∧ e.inTry = false ∧
      e.srcU (.word lit) w = .ok wn ∧ e.srcU (.word lit) c = .ok cn ∧ wn ≤ 63 ∧ cn ≤ 15 ∧ e.blk.world = 0 ∧
      s.remoteDueOf (fun k => k.world == wn && k.ctx == cn) = false) fun _ _ s => s.dropTranslations wn cn) ∧
  (∀ w c lit wn cn, Parks (.fenceMap w c lit) (fun e _ s => srcUOk w 1 = true ∧ srcUOk c 1 = true ∧ e.inTry = false ∧
      e.srcU (.word lit) w = .ok wn ∧ e.srcU (.word lit) c = .ok cn ∧ wn ≤ 63 ∧ cn ≤ 15 ∧ e.blk.world = 0 ∧
      s.remoteDueOf (fun k => k.world == wn && k.ctx == cn) = true) (fun _ _ s => s) fun _ _ => .fence) ∧
  (∀ w c lit wn cn, Faults (.fenceMap w c lit) (fun e _ _ => (Instr.fenceMap w c lit).wf = true ∧ srcUOk w 1 = true ∧
      srcUOk c 1 = true ∧ e.inTry = false ∧ e.srcU (.word lit) w = .ok wn ∧ e.srcU (.word lit) c = .ok cn ∧ wn ≤ 63 ∧
      cn ≤ 15 ∧ e.blk.world ≠ 0) fun _ _ _ => { code := fcProtection }) ∧
  (∀ (s : State) w c i q, AMap.get? s.quarters i = some q → ∃ q', AMap.get? (s.dropTranslations w c).quarters i = some q' ∧
    { q with tcache := q'.tcache } = q' ∧ ∀ t, t ∈ q'.tcache ↔ t ∈ q.tcache ∧ ¬ (t.1 = w ∧ t.2.1 = c)) ∧
  (∀ n : BitVec 8, Does (.shedArrive n) (fun e _ _ => e.inTry = false ∧ (e.blk.shed n.toNat).has e.w = true ∧
      e.w ∉ (e.blk.shed n.toNat).arrived) fun e _ s => s.shedArrive e.b e.w n.toNat) ∧
  (∀ n : BitVec 8, Parks (.shedArrive n) (fun e _ _ => e.inTry = false ∧ (e.blk.shed n.toNat).has e.w = true ∧
      e.w ∈ (e.blk.shed n.toNat).arrived) (fun _ _ s => s) fun e _ => .shedArrive n.toNat (e.blk.shed n.toNat).k.toNat) ∧
  (∀ n : BitVec 8, Does (.shedWait n) (fun e _ _ => e.inTry = false ∧
      shedStill e.split.park n.toNat (e.blk.shed n.toNat) e.w = false) fun _ _ s => s) ∧
  (∀ n : BitVec 8, Parks (.shedWait n) (fun e _ _ => e.inTry = false ∧
      shedStill e.split.park n.toNat (e.blk.shed n.toNat) e.w = true) (fun _ _ s => s)
    fun e _ => .shedWait n.toNat (e.blk.shed n.toNat).k.toNat) ∧
  (∀ p n x w, shedStill p n x w = true ↔ (∀ m k, p = .shedWait m k → m = n ∧ k = x.k.toNat) ∧
    ((∀ m k, p ≠ .shedWait m k) → w ∈ x.arrived)) ∧
  (∀ n : BitVec 8, Does (.shedSync n) (fun e _ s => e.inTry = false ∧ (e.blk.shed n.toNat).has e.w = true ∧
      (∀ m k, e.split.park ≠ .shedWait m k) ∧ e.w ∉ (e.blk.shed n.toNat).arrived ∧
      ((s.shedArrive e.b e.w n.toNat).shedOf e.b n.toNat).k ≠ (e.blk.shed n.toNat).k)
    fun e _ s => s.shedArrive e.b e.w n.toNat) ∧
  (∀ n : BitVec 8, Parks (.shedSync n) (fun e _ s => e.inTry = false ∧ (e.blk.shed n.toNat).has e.w = true ∧
      (∀ m k, e.split.park ≠ .shedWait m k) ∧ e.w ∉ (e.blk.shed n.toNat).arrived ∧
      ((s.shedArrive e.b e.w n.toNat).shedOf e.b n.toNat).k = (e.blk.shed n.toNat).k)
    (fun e _ s => s.shedArrive e.b e.w n.toNat) fun e _ => .shedWait n.toNat (e.blk.shed n.toNat).k.toNat) ∧
  (∀ n : BitVec 8, Does (.shedSync n) (fun e _ _ => e.inTry = false ∧ (e.blk.shed n.toNat).has e.w = true ∧
      ∃ m k, e.split.park = .shedWait m k ∧ k ≠ (e.blk.shed n.toNat).k.toNat) fun _ _ s => s) ∧
  (∀ n v lit y, Does (.shedInit n v lit) (fun e _ _ => srcUOk v 1 = true ∧ e.inTry = false ∧ e.srcU (.word lit) v = .ok y ∧
      y < 2 ^ 17 ∧ y % 256 + y / 256 % 256 ≤ e.blk.warps.length ∧ (y / 256 % 256 ≠ 0 ∨ y.testBit 16 = true) ∧
      (y.testBit 16 = true → e.blk.weft.isSome = true) ∧ (e.blk.shed n.toNat).arrived = [] ∧
      (e.blk.shed n.toNat).weftArrived = false)
    fun e _ s =>
      let x := { e.blk.shed n.toNat with first := y % 256, num := y / 256 % 256, weft := y.testBit 16 }
      s.updBlock e.b fun k => { k with sheds := AMap.set k.sheds n.toNat x }) ∧
  ∀ (k : Block) n x, AMap.get? k.sheds n = some x →
    let done := (∀ i, i < x.num → x.first + i ∈ x.arrived ∨ ∀ v, AMap.get? k.warps (x.first + i) = some v → v.ended = true) ∧
      (x.weft = true → x.weftArrived = true ∨ ∀ v, k.weft = some v → v.ended = true) ∧ (x.arrived ≠ [] ∨ x.weftArrived = true)
    ∃ y, AMap.get? k.settleSheds.sheds n = some y ∧ (¬ done → y = x) ∧
      (done → y = { x with arrived := [], weftArrived := false, k := x.k + 1#32 })

/-- The copy instructions put one copy of each thread in flight, with the segments that its operands give; cseal closes the
open batches and answers their numbers; cwait waits for its batches and answers whether a target was gone (R424 to R427).
The model's choices in it: log entries 41 and 42. -/
def Obligations.CopiesStart : Prop :=
  (∀ d sr l lit, Copies (.cp d sr l lit) (isS d && isS sr && !isV l)
    (pairOk d = true ∧ pairOk sr = true ∧ srcOk l 1 = true) fun e _ t p => ∃ dst src n, e.pread d t = .ok dst ∧
      e.pread sr t = .ok src ∧ e.src32 (.word lit) l t = .ok n ∧ CopyAddrs [src, dst] ∧ (∀ x, x ∈ [src, dst, n] → 4 ∣ x) ∧
      n ≤ 2 ^ 20 ∧ p.bids = none ∧ p.segs = if n = 0 then [] else [(src, dst, n)]) ∧
  (∀ d a b c lit, Copies (.cp2d d a b c lit) (isS d && isS a && isS c)
    (pairOk d = true ∧ pairOk a = true ∧ b = 0#8 ∧ dstOk c 4 = true) fun e _ t p => ∃ dst src rb rows ss ds,
      e.pread d t = .ok dst ∧ e.pread a t = .ok src ∧ e.group4 c t = .ok [rb, rows, ss, ds] ∧ CopyAddrs [src, dst] ∧
      (∀ x, x ∈ [src, dst, rb, ss, ds] → 4 ∣ x) ∧ 4 ≤ rb ∧ rb ≤ 65536 ∧ 1 ≤ rows ∧ rows ≤ 4096 ∧ rows * rb ≤ 2 ^ 20 ∧
      p.bids = none ∧ p.segs = (List.range rows).map fun i : Nat =>
        (wrapN 64 (src + i * sext 32 ss), wrapN 64 (dst + i * sext 32 ds), rb)) ∧
  (∀ d a b c lit, Copies (.cpGather d a b c lit) (isS d && isS a && isS c)
    (pairOk d = true ∧ pairOk a = true ∧ b = 0#8 ∧ dstOk c 4 = true) fun e s t p => ∃ dst src size count lo hi idx,
      e.pread d t = .ok dst ∧ e.pread a t = .ok src ∧ e.group4 c t = .ok [size, count, lo, hi] ∧ CopyAddrs [src, dst] ∧
      (∀ x, x ∈ [src, dst, size] → 4 ∣ x) ∧ 4 ≤ size ∧ size ≤ 256 ∧ 1 ≤ count ∧ count ≤ 256 ∧
      e.readTable s (lo + 2 ^ 32 * hi) count = .ok idx ∧ p.bids = none ∧ p.segs = (List.range idx.length).map fun i =>
        ((src + idx.getD i 0 * size) % 2 ^ 64, (dst + i * size) % 2 ^ 64, size)) ∧
  (∀ d a b c lit, Copies (.cpMcast d a b c lit) (isS d && isS a && !isV b && isS c)
    (pairOk d = true ∧ pairOk a = true ∧ srcOk b 1 = true ∧ dstOk c 4 = true) fun e _ t p => ∃ dst src bid n b1 b2 b3,
      e.pread d t = .ok dst ∧ e.pread a t = .ok src ∧ e.src32 (.lit24 lit) b t = .ok bid ∧
      e.group4 c t = .ok [n, b1, b2, b3] ∧ CopyAddrs [src, dst] ∧ (∀ x, x ∈ [src, dst, n] → 4 ∣ x) ∧ 4 ≤ n ∧ n ≤ 2 ^ 20 ∧
      let bids := [b1, b2, b3, bid].filter fun x => x != 0xffffffff
      bids ≠ [] ∧ e.blk.bid.toNat ∉ bids ∧ inScratchWin dst = true ∧ inScratchWin (dst + n - 4) = true ∧
      p.bids = some bids ∧ p.segs = [(src, dst, n)]) ∧
  (∀ (e : Env) (s : State) (p : CopyPlan), p.bids = none → ∃ id c, AMap.get? s.copies id = none ∧
    e.startCopy s p = { s with copies := AMap.set s.copies id c } ∧ c.world = e.blk.world ∧ c.ctx = e.blk.ctx ∧ c.block = e.b ∧
    c.warp = e.w ∧ c.thread = p.thread ∧ c.batch = e.wp.batch.getD p.thread 1 ∧ c.status = 0#8 ∧ c.bulk = [] ∧
    ∀ a b, (a, b) ∈ c.pieces ↔ ∃ src dst n i, (src, dst, n) ∈ p.segs ∧ i < n / 4 ∧ a = BitVec.ofNat 64 (src + 4 * i) ∧
      b = BitVec.ofNat 64 (dst + 4 * i)) ∧
  (∀ d, Does (.cseal d) (fun e _ _ => dstOk d 1 = true ∧ e.wp.shuttle = true ∧ e.inTry = false ∧ e.idle = false ∧
      Room e (dstNames d 1) ∧ ∀ t, t ∈ e.runners d → e.wp.batch.getD t 1 < 0xffffffff)
    fun e _ s =>
      let up (l : List Nat) := (List.range 16).map fun t => l.getD t 1 + (if t ∈ e.runners d then 1 else 0)
      e.put (s.updWarp e.b e.w fun x => { x with batch := up x.batch }) d 1
      ((e.runners d).map fun t => (t, [BitVec.ofNat 32 (e.wp.batch.getD t 1)]))) ∧
  (∀ d n lit (N : Nat → Nat), let M (e : Env) (t : Nat) := min (N t) (e.wp.batch.getD t 1 - 1)
    Does (.cwait d n lit) (fun e _ s => dstOk d 1 = true ∧ srcFor d n 1 = true ∧ e.wp.shuttle = true ∧ e.inTry = false ∧
      e.idle = false ∧ Room e (dstNames d 1) ∧ (∀ t, t ∈ e.runners d → e.src32 (.word lit) n t = .ok (N t)) ∧
      (∀ t, t ∈ e.runners d → s.copyDue e.b e.w t (M e t) = false) ∧
      ∀ t c, t ∈ e.runners d → c ∈ e.wp.copyStats → c.thread = t → c.batch ≤ M e t → c.reported = true ∨ copyFault c.code = false)
    fun e _ s =>
      let rest (l : List CopyStat) := l.filter fun c => decide (¬ ∃ t, t ∈ e.runners d ∧ c.thread = t ∧ c.batch ≤ M e t)
      e.put (s.updWarp e.b e.w fun x => { x with copyStats := rest x.copyStats }) d 1
      ((e.runners d).map fun t => (t, [if ∃ c, c ∈ e.wp.copyStats ∧ c.thread = t ∧ c.batch ≤ M e t ∧ c.reported = false ∧
        c.code = fcTargetGone then 0x1d#32 else 0#32]))) ∧
  ∀ d n lit (N : Nat → Nat), Parks (.cwait d n lit) (fun e _ s => dstOk d 1 = true ∧ srcFor d n 1 = true ∧ e.wp.shuttle = true ∧
      e.inTry = false ∧ e.idle = false ∧ Room e (dstNames d 1) ∧ (∀ t, t ∈ e.runners d → e.src32 (.word lit) n t = .ok (N t)) ∧
      ∃ t, t ∈ e.runners d ∧ s.copyDue e.b e.w t (min (N t) (e.wp.batch.getD t 1 - 1)) = true) (fun _ _ s => s) fun _ _ => .cwait

/-- Bobbins: bob.init sets one up with free slots; bob.claim takes the slot at the claim pointer and gives its address;
bob.expect adds to the bytes expected of it and arms it; bob.await reads the status of the warp's slot once it is filled;
bob.rel counts a release, the last of which frees the slot, and moves the warp's pointer on. A claimed slot is filled
once it is armed and its bytes have landed (R428 to R432). -/
def Obligations.BobbinsTurn : Prop :=
  (∀ d a b c lit base size nslot w3, Does (.bobInit d a b c lit) (fun e _ s => d = 0#8 ∧ b = 0#8 ∧ lit = 0#24 ∧ isS c = true ∧
      aligned c 4 = true ∧ e.inTry = false ∧ e.group4 c 0 = .ok [base, size, nslot, w3] ∧
      bobInitOk s e a.toNat [base, size, nslot, w3] = true)
    fun e _ s =>
      let x : Bobbin :=
        { base := base, size := size, nslot := nslot, rels := w3 / 256 % 256, weft := w3.testBit 0
          slots := List.replicate nslot {} }
      s.updBlock e.b fun k => { k with bobs := AMap.set k.bobs a.toNat x }) ∧
  (∀ d n x, Does (.bobClaim d n) (fun e _ _ => isS d = true ∧ aligned d 2 = true ∧ e.inTry = false ∧
      e.blk.bob? n.toNat = some x ∧ (x.slot x.claimPtr).st = .free)
    fun e _ s =>
      let slots := x.slots.set x.claimPtr { st := .claimed, lap := (x.slot x.claimPtr).lap + 1 }
      let y := { x with slots := slots, claimPtr := (x.claimPtr + 1) % x.nslot, last := some x.claimPtr }
      (s.updBlock e.b fun k => k.updBob n.toNat fun _ => y).updWarp e.b e.w fun v =>
      v.writeUnis e.gen e.inTry (regNo d) (words2 (scratchBase + x.base + x.size * x.claimPtr))) ∧
  (∀ d n x, Parks (.bobClaim d n) (fun e _ _ => isS d = true ∧ aligned d 2 = true ∧ e.inTry = false ∧
      e.blk.bob? n.toNat = some x ∧ (x.slot x.claimPtr).st ≠ .free) (fun _ _ s => s) fun _ _ => .bobClaim) ∧
  (∀ n c lit v x i, Does (.bobExpect n c lit) (fun e _ _ => srcUOk c 1 = true ∧ e.inTry = false ∧ e.srcU (.word lit) c = .ok v ∧
      e.blk.bob? n.toNat = some x ∧ x.last = some i ∧ (x.slot i).st = .claimed ∧ v ≠ 0 ∧ (x.slot i).c + v ≤ x.size)
    fun e _ s => s.updBlock e.b fun k => k.updBob n.toNat fun x =>
      x.updSlot i fun y => ({ y with c := y.c + v, armed := true }).settle) ∧
  (∀ n c lit v x i, Does (.bobExpect n c lit) (fun e _ _ => srcUOk c 1 = true ∧ e.inTry = false ∧ e.srcU (.word lit) c = .ok v ∧
      e.blk.bob? n.toNat = some x ∧ x.last = some i ∧ (x.slot i).st = .filled ∧ (x.slot i).err = true) fun _ _ s => s) ∧
  (∀ d n x, Does (.bobAwait d n) (fun e _ _ => isS d = true ∧ e.inTry = false ∧ e.blk.bob? n.toNat = some x ∧ x.weft = false ∧
      (x.slot (AMap.getD x.ptr e.w 0)).st = .filled)
    fun e _ s => s.updWarp e.b e.w fun v =>
      v.writeUni e.gen e.inTry (regNo d) ((x.slot (AMap.getD x.ptr e.w 0)).status.setWidth 32)) ∧
  (∀ d n x, Parks (.bobAwait d n) (fun e _ _ => isS d = true ∧ e.inTry = false ∧ e.blk.bob? n.toNat = some x ∧ x.weft = false ∧
      (x.slot (AMap.getD x.ptr e.w 0)).st ≠ .filled) (fun _ _ s => s) fun _ _ => .bobAwait) ∧
  (∀ n x, Does (.bobRel n) (fun e _ _ => e.inTry = false ∧ e.blk.bob? n.toNat = some x ∧ x.weft = false ∧
      (x.slot (AMap.getD x.ptr e.w 0)).st = .filled)
    fun e _ s =>
      let i := AMap.getD x.ptr e.w 0
      s.updBlock e.b fun k => k.updBob n.toNat fun v =>
        let y : BobSlot := if v.rels ≤ (v.slot i).rels + 1 then { lap := (v.slot i).lap }
          else { v.slot i with rels := (v.slot i).rels + 1 }
        { v with slots := v.slots.set i y, ptr := AMap.set v.ptr e.w ((i + 1) % v.nslot) }) ∧
  ∀ y : BobSlot, y.settle = if y.st = .claimed ∧ y.armed = true ∧ y.c = 0 then { y with st := .filled } else y

/-- Records: rec.alloc gives each thread the lowest free slot of its node, or none, in one step; rec.commit publishes the
slots of its threads; rec.read loads a word of a record of the block's group, and waits for it where another split of the
warp could read the register meanwhile (R192); gcancel cancels the block's own graph or
launch once it has completed (R166 to R169, R448 to R451).
The model's choices in it: log entries 37 and 38. -/
def Obligations.RecordsPass : Prop :=
  (∀ d p n lit gi (g : Graph) (N : Nat → Nat) rs g1, Does (.recAlloc d p n lit) (fun e _ s => s.feature e.blk.world 2 = true ∧
      isV d = true ∧ aligned d 2 = true ∧ isP p = true ∧ srcOk n 1 = true ∧ e.inTry = false ∧ e.idle = false ∧
      Room e (dstNames d 2) ∧ s.graphOf e.blk = some (gi, g) ∧ (∀ t, t ∈ e.act → e.src32 (.word lit) n t = .ok (N t)) ∧
      (∀ t, t ∈ e.act → N t < g.nodes.length) ∧ g.cancelled = false ∧
      Graph.grantAll e.b (e.blk.recdepth + 1) (e.act.map fun t => (t, N t)) g = (rs, g1) ∧ faultingRefusal g rs = none)
    fun e _ s =>
      let held := rs.filterMap fun r => match r.2.2 with
        | .slot k => some (r.2.1, k)
        | _ => none
      let s2 := (s.graphNote gi (refusalWords rs) fun _ => g1.refuseAll rs).updBlock e.b fun k =>
        { k with uncommitted := k.uncommitted ++ held }
      (e.put s2 d 2 (rs.map fun r => (r.1, words2 (grantAddr g r.2.1 r.2.2).toNat))).updWarp e.b e.w fun x =>
        x.writePred e.active (predNo p) (maskOf fun t => rs.any fun r => r.1 == t && granted r.2.2)) ∧
  (∀ (g : Graph) b depth n, let d := AMap.getD g.nodes n {}
    (d.maxDepth < depth → g.grant b depth n = (.depth, g)) ∧
    (depth ≤ d.maxDepth → (∀ k, k < d.cap → AMap.get? d.recs k ≠ none) → d.recs.Pairwise (fun x y => x.1 < y.1) →
      g.grant b depth n = (.full, g)) ∧
    ∀ k, depth ≤ d.maxDepth → k < d.cap → AMap.get? d.recs k = none → (∀ j, j < k → AMap.get? d.recs j ≠ none) →
      d.recs.Pairwise (fun x y => x.1 < y.1) → (g.grant b depth n).1 = .slot k ∧ (g.grant b depth n).2.count = g.count + 1) ∧
  (∀ a lit gi (g : Graph) (A : Nat → Nat) ks, Does (.recCommit a lit) (fun e _ s => s.feature e.blk.world 2 = true ∧ isV a = true ∧
      aligned a 2 = true ∧ e.inTry = false ∧ e.idle = false ∧ s.graphOf e.blk = some (gi, g) ∧ g.cancelled = false ∧
      (∀ t, t ∈ e.act → e.pread a t = .ok (A t)) ∧ ks.length = e.act.length ∧ ks.Nodup ∧
      ks = e.act.filterMap fun t => e.blk.uncommitted.find? fun q =>
        ((AMap.getD g.nodes q.1 {}).slotAddr q.2).toNat == A t)
    fun e _ s =>
      let s1 := s.updBlock e.b fun k => { k with uncommitted := k.uncommitted.filter fun q => !ks.contains q }
      (ks.map Prod.fst).dedup.foldl (fun s n => s.launchGroups gi n)
        (s1.graphNote gi [1] fun g => ks.foldl (fun g q => g.publish q.1 s.now [q.2]) g)) ∧
  (∀ d i k lit gi (g : Graph) I K A B (s2 : State),
    let rs (e : Env) := (e.runners d).map fun t => (t, [BitVec.ofNat 32 (leNat (B t))])
    Does (.recRead d i k lit) (fun e _ s => RecordRead d i k lit gi g I K A B s2 e s ∧ Alone e) (fun e _ _ => e.put s2 d 1 (rs e)) ∧
    Parks (.recRead d i k lit) (fun e _ s => RecordRead d i k lit gi g I K A B s2 e s ∧ ¬ Alone e)
      (fun e _ _ => pended e 4 15 d false (rs e) s2) fun e _ => .sync e.wp.freshId) ∧
  (∀ gi g, DoesThen .gcancelGraph (fun e _ s => s.feature e.blk.world 2 = true ∧ e.inTry = false ∧ s.graphOf e.blk = some (gi, g))
    (fun _ _ s => s) fun _ s => s.cancelGraph gi) ∧
  ∀ i, DoesThen .gcancelLaunch (fun e _ s => s.feature e.blk.world 2 = true ∧ e.inTry = false ∧ e.blk.launch = some i)
    (fun _ _ s => s) fun _ s => s.cancelLaunch i

/-- Regions: try.open checkpoints the warp and enters the region; a commit outside a region passes; the one at which every
split of a region without a doomed thread has arrived writes the buffered stores and closes the region; abort rolls the
threads back; tstat reads the state of the region (R257 to R273, R452 to R455).
The model's choice in it: log entry 36. -/
def Obligations.RegionsOpenAndClose : Prop :=
  (∀ o s e l s1 pc, Issues s e l s1 pc → s1.feature e.blk.world 3 = true → e.inTry = false → e.wp.region = none →
    (tgt e s1 (dest e o)).1 = none →
    let r : Region :=
      { mask := e.split.mask, fallback := dest e o, mood := e.split.mood, rmap := e.wp.rmap, preds := e.wp.preds
        sregs := e.wp.sregs, stags := e.wp.stags }
    exec (.tryOpen o) s = .next (((((tgt e s1 (dest e o)).2.updWarp e.b e.w fun x =>
      { x with region := some r, abortmask := 0#16
               abortcode := setCodes x.abortcode e.split.mask fun _ => 0#32 }).updSplit e.b e.w e.sp fun q =>
      { q with inTry := true }).retireTo e pc).settleWarp e.b e.w)) ∧
  (∀ i, (i = .commit ∨ ∃ sc, i = .commitRel sc) → Does i (fun e _ s => s.feature e.blk.world 3 = true ∧ e.inTry = false ∧
      (e.split.park = .fence → s.remoteDue e.b e.w = false ∧ s.remoteDueOf (fun k => k.world == e.blk.world) = false))
    fun _ _ s => s) ∧
  (∀ i, (i = .commit ∨ ∃ sc, i = .commitRel sc) → ∀ s e l s1 s2 (x : Warp) r, Fetches s e l s1 → i.wf = true →
    s1.feature e.blk.world 3 = true → e.inTry = true →
    (s1.updSplit e.b e.w e.sp fun q => { q with park := .commit }).warp? e.b e.w = some x → x.region = some r →
    x.allAtCommit = true → x.regionLoads = false → x.doomedNow = 0#16 →
    let s0 := s1.updSplit e.b e.w e.sp fun q => { q with park := .commit }
    let ws := e.commitStores s0 r
    (∀ p, p ∈ ws → reaches p.1 = true ∧ isRemote p.1 = false ∧ s0.anyHeld e.b 8 [p.1] = false) →
    s0.writeAll e ws = (none, s2) → s2.commitFaults e x 0#16 = [] →
    (∀ sc : BitVec 4, i = .commitRel sc → 6 ≤ sc.toNat → s2.remoteDueOf (fun k => k.world == e.blk.world) = false) →
    exec i s = .next ((((s2.leaveCommit e none).updWarp e.b e.w fun x => x.commitThreads e.gen 0#16 r).retire e.b e.w e.sp).settleWarp
      e.b e.w)) ∧
  (∀ n, Does (.abort n) (fun e _ s => s.feature e.blk.world 3 = true ∧ e.idle = false ∧ (e.wp.region = none ∨ e.inTry = false))
    fun _ _ s => s) ∧
  (∀ n : BitVec 8, Jumps (.abort n) (fun e _ s => s.feature e.blk.world 3 = true ∧ e.idle = false ∧ e.inTry = true ∧
      e.wp.regionLoads = false ∧ ∃ r, e.wp.region = some r ∧ r.uwrite = true)
    fun e _ s => s.updWarp e.b e.w fun x => x.rollWhole e.gen (abortWord 1 n.toNat)) ∧
  (∀ (n : BitVec 8) y, Jumps (.abort n) (fun e _ s => s.feature e.blk.world 3 = true ∧ e.idle = false ∧ e.inTry = true ∧
      e.wp.regionLoads = false ∧ (∃ r, e.wp.region = some r ∧ r.uwrite = false) ∧ e.active = e.split.mask ∧
      e.wp.abortThreads e.gen e.sp e.active n.toNat = some y) fun e _ s => s.updWarp e.b e.w fun _ => y) ∧
  (∀ (n : BitVec 8) y, Does (.abort n) (fun e _ s => s.feature e.blk.world 3 = true ∧ e.idle = false ∧ e.inTry = true ∧
      e.wp.regionLoads = false ∧ (∃ r, e.wp.region = some r ∧ r.uwrite = false) ∧ e.active ≠ e.split.mask ∧
      e.wp.abortThreads e.gen e.sp e.active n.toNat = some y) fun e _ s => s.updWarp e.b e.w fun _ => y) ∧
  ∀ d, Does (.tstat d) (fun e _ s => s.feature e.blk.world 3 = true ∧ isS d = true) fun e _ s => s.updWarp e.b e.w fun x =>
    x.writeUni e.gen e.inTry (regNo d) (match e.wp.region with
      | none => 0#32
      | some r => BitVec.ofNat 32 (r.doomed.toNat * 65536 + (if r.uwrite then 2048 else 0) + 1024 + r.alias_.length * 32 +
          r.buf.length))

/-! ## The weft stream -/

/-- Addresses and control of the weft stream: xadd, wloop, wjump and wend; after an instruction the stream goes on at the next
one, but where a counter loops there it goes back to that loop's first instruction while passes are left (R303, R334,
R444 to R446).
The model's choice in it: log entry 40. -/
def Obligations.WeftGoesOn : Prop :=
  (∀ d a i, WDoes (.xaddImm d a i) (fun _ _ _ => True) fun e _ s =>
    s.updWeft e.b fun y => { y with x := y.x.set d.toNat (e.x a + i.signExtend 64) }) ∧
  (∀ d a b sh, WDoes (.xaddShift d a b sh) (fun _ _ _ => True) fun e _ s =>
    s.updWeft e.b fun y => { y with x := y.x.set d.toNat (e.x a + e.x b <<< sh.toNat) }) ∧
  (∀ i k (c : WEnv → W32) dist, (∃ n : BitVec 12, i = .wloop k n dist ∧ c = fun _ => BitVec.ofNat 32 (n.toNat + 1)) ∨
      (∃ x, i = .wloopReg k x dist ∧ c = fun e => (e.x x).setWidth 32) →
    (∀ s e l s1 pc, WIssues s e l s1 → i.wf = true → c e ≠ 0#32 → continuation l e.wf.pc 1 = .ok pc →
      let stop := e.wf.pc + 4#64 * dist.setWidth 64
      ∀ s2, s1.targetFault e.blk.core e.blk.world e.blk.ctx 1 stop = (none, s2) →
      exec i s = .next (((s2.updWeft e.b fun y =>
        { y with w := y.w.set k.toNat { count := c e, first := linkOf l e.wf.pc 1, stop := stop, age := y.starts + 1 }
                 starts := y.starts + 1 }).weftRetire e.b).updWeft e.b fun y => { y with pc := pc, park := .ready })) ∧
    (∀ s e l s1 pc, WIssues s e l s1 → i.wf = true → c e = 0#32 →
      let stop := e.wf.pc + 4#64 * dist.setWidth 64
      ∀ s2 le s3, s1.targetFault e.blk.core e.blk.world e.blk.ctx 1 stop = (none, s2) →
      s2.fetchLine e.blk.core e.blk.world e.blk.ctx stop = (.ok le, s3) →
      continuation le stop 1 = .ok pc →
      exec i s = .next (((s3.updWeft e.b fun y =>
        { y with w := y.w.set k.toNat { y.w.getD k.toNat {} with count := 0#32 } }).weftRetire e.b).updWeft e.b fun y =>
          { y with pc := pc, park := .ready }))) ∧
  (∀ o s e l s1 s2, WIssues s e l s1 → (Instr.wjump o).wf = true →
    s1.targetFault e.blk.core e.blk.world e.blk.ctx 1 (e.wf.pc + 4#64 * o.signExtend 64) = (none, s2) →
    exec (.wjump o) s = .next ((s2.weftRetire e.b).updWeft e.b fun y =>
      { y with pc := e.wf.pc + 4#64 * o.signExtend 64, park := .ready })) ∧
  (∀ s e l s1, WIssues s e l s1 → wflagsOf e.blk = 0 → exec .wend s = .next
    (((((List.range 16).foldl (fun s h => s.relSlot e.b h) s1).updWeft e.b fun y =>
      { y with ended := true, park := .ready }).weftRetire e.b).updBlock e.b Block.settleSheds)) ∧
  (∀ (s : State) b (x : Weft) l pc, (∀ k, k < 8 → (x.w.getD k {}).count ≠ 0#32 → (x.w.getD k {}).stop ≠ x.pc) → continuation l x.pc 1 = .ok pc →
    s.weftContinue b x l = s.updWeft b fun y => { y with pc := pc, w := x.w, park := .ready }) ∧
  ∀ (s : State) b (x : Weft) l k, k < 8 → (x.w.getD k {}).stop = x.pc → 1 < (x.w.getD k {}).count.toNat →
    (∀ j, j < 8 → j ≠ k → (x.w.getD j {}).count ≠ 0#32 → (x.w.getD j {}).stop ≠ x.pc) →
    let v := x.w.getD k {}
    s.weftContinue b x l = s.updWeft b fun y =>
      { y with pc := v.first, w := x.w.set k { v with count := v.count - 1#32 }, park := .ready }

/-- Where the sequencer meets the warps: its bit in a shed, the phase it waits for, and the slots of the bobbins that it
consumes; each stops with WEFT where the shed or the bobbin leaves it out (R305, R311, R312, R442, R443). An arrival and a release
wait while an array step before them still reads (R238, R248). -/
def Obligations.WeftMeets : Prop :=
  (∀ n : BitVec 4, WDoes (.wshedArrive n) (fun e _ _ => (e.blk.shed n.toNat).weft = true ∧
      (e.blk.shed n.toNat).weftArrived = false ∧ ∀ m, m ∈ e.wf.mmas → m.2 = [])
    fun e _ s =>
      let set (k : Block) := AMap.modify k.sheds n.toNat fun x => { x with weftArrived := true }
      s.updBlock e.b fun k => ({ k with sheds := set k } : Block).settleSheds) ∧
  (∀ n : BitVec 4, WParks (.wshedArrive n) (fun e _ _ => (e.blk.shed n.toNat).weft = true ∧
      (e.blk.shed n.toNat).weftArrived = true) fun e => .shedArrive n.toNat (e.blk.shed n.toNat).k.toNat) ∧
  (∀ n : BitVec 4, WParks (.wshedArrive n) (fun e _ _ => (e.blk.shed n.toNat).weft = true ∧
      (e.blk.shed n.toNat).weftArrived = false ∧ ∃ m, m ∈ e.wf.mmas ∧ m.2 ≠ []) fun _ => .ready) ∧
  (∀ n : BitVec 4, WDoes (.wshedWait n) (fun e _ _ => (e.blk.shed n.toNat).weft = true ∧
      weftStill e.wf.park n.toNat (e.blk.shed n.toNat) = false) fun _ _ s => s) ∧
  (∀ n : BitVec 4, WParks (.wshedWait n) (fun e _ _ => (e.blk.shed n.toNat).weft = true ∧
      weftStill e.wf.park n.toNat (e.blk.shed n.toNat) = true) fun e => .shedWait n.toNat (e.blk.shed n.toNat).k.toNat) ∧
  (∀ p n x, weftStill p n x = true ↔ (∀ m k, p = .shedWait m k → m = n ∧ k = x.k.toNat) ∧
    ((∀ m k, p ≠ .shedWait m k) → x.weftArrived = true)) ∧
  (∀ (n : BitVec 4) i, i = .wshedArrive n ∨ i = .wshedWait n →
    WFaults i (fun e _ _ => (e.blk.shed n.toNat).weft = false) fun _ => { code := fcWeft, detail := 5#8 }) ∧
  (∀ (n : BitVec 3) x, WDoes (.wbobAwait n) (fun e _ _ => e.blk.bob? n.toNat = some x ∧ x.weft = true ∧
      (x.slot (AMap.getD x.ptr weftPtr 0)).st = .filled ∧ (x.slot (AMap.getD x.ptr weftPtr 0)).err = false) fun _ _ s => s) ∧
  (∀ (n : BitVec 3) x, WFaults (.wbobAwait n) (fun e _ _ => e.blk.bob? n.toNat = some x ∧ x.weft = true ∧
      (x.slot (AMap.getD x.ptr weftPtr 0)).st = .filled ∧ (x.slot (AMap.getD x.ptr weftPtr 0)).err = true)
    fun _ => { code := (x.slot (AMap.getD x.ptr weftPtr 0)).status }) ∧
  (∀ (n : BitVec 3) x, WParks (.wbobAwait n) (fun e _ _ => e.blk.bob? n.toNat = some x ∧ x.weft = true ∧
      (x.slot (AMap.getD x.ptr weftPtr 0)).st ≠ .filled) fun _ => .bobAwait) ∧
  (∀ (n : BitVec 3) x, WDoes (.wbobRel n) (fun e _ _ => e.blk.bob? n.toNat = some x ∧ x.weft = true ∧
      (x.slot (AMap.getD x.ptr weftPtr 0)).st = .filled ∧ ∀ m, m ∈ e.wf.mmas → m.2 = [])
    fun e _ s =>
      let i := AMap.getD x.ptr weftPtr 0
      s.updBlock e.b fun k => k.updBob n.toNat fun v =>
        let y : BobSlot := if v.rels ≤ (v.slot i).rels + 1 then { lap := (v.slot i).lap }
          else { v.slot i with rels := (v.slot i).rels + 1 }
        { v with slots := v.slots.set i y, ptr := AMap.set v.ptr weftPtr ((i + 1) % v.nslot) }) ∧
  (∀ (n : BitVec 3) x, WParks (.wbobRel n) (fun e _ _ => e.blk.bob? n.toNat = some x ∧ x.weft = true ∧
      (x.slot (AMap.getD x.ptr weftPtr 0)).st = .filled ∧ ∃ m, m ∈ e.wf.mmas ∧ m.2 ≠ []) fun _ => .ready) ∧
  ∀ (n : BitVec 3) i, i = .wbobAwait n ∨ i = .wbobRel n →
    WFaults i (fun e _ _ => ∀ x, e.blk.bob? n.toNat = some x → x.weft = false) fun _ => { code := fcWeft, detail := 4#8 }

/-- The matrix arrays: mma captures its operands as a step of its array; a row of the oldest step is the partial row it
accumulates on, or 0, plus the exact sum of activations times weights, kept modulo 2^32 with POVF where it does not fit;
the last row ends the step (R284, R288, R298, R307, R436). The B tile of the step behind it is fetched meanwhile (R299).
The model's choice in it: log entry 40. -/
def Obligations.ArraysMultiply : Prop :=
  (∀ (f : BitVec 2) (g c : BitVec 1) (q : BitVec 2) a sa bb sb, WDoes (.mma f g c q a sa bb sb) (fun e _ _ => q.toNat < e.blk.nq ∧
      (AMap.getD e.wf.mmas q.toNat []).length < 2)
    fun e _ s =>
      let run : MmaRun := { pc := e.wf.pc, f := f.toNat, g := g.toNat, acc := c == 1#1, a := e.x a, sa := e.x sa
                            b := e.x bb, sb := e.x sb }
      s.updWeft e.b fun y => { y with mmas := AMap.set y.mmas q.toNat (AMap.getD e.wf.mmas q.toNat [] ++ [run]) }) ∧
  (∀ (f : BitVec 2) (g c : BitVec 1) (q : BitVec 2) a sa bb sb, WFaults (.mma f g c q a sa bb sb) (fun e _ _ => e.blk.nq ≤ q.toNat)
    fun _ => { code := fcWeft, detail := 2#8 }) ∧
  (∀ (s : State) k r rs tile s1 row s2 base, let b := s.args.block
    let q := s.args.n
    s.block? b = some k → k.run = .running → s.args.m ≠ 1 → s.mmasOf b q = r :: rs → s.mmaTile k b r = (.ok tile, s1) →
    (s1.updWeft b fun y => y.setMma q (some { r with tile := tile })).weftFetch k b
      (r.a + r.sa * BitVec.ofNat 64 r.row).toNat (if r.g = 0 then 64 else 128) 1 = (.ok row, s2) →
    (r.acc = true → k.partialRow q r.row = .ok base) → (r.acc = false → base = List.replicate 128 0#32) →
    exec .mmaComplete s = .next ((s2.mmaRow b q r.row (rowSums r.f r.g (base.map fun w => w.toInt) row tile)).updWeft b fun y =>
      y.setMma q (if 31 ≤ r.row then none else some { r with row := r.row + 1, tile := tile }))) ∧
  (∀ (s : State) k r r1 tile s1, let b := s.args.block
    let q := s.args.n
    s.block? b = some k → k.run = .running → s.args.m = 1 → s.mmasOf b q = [r, r1] → s.mmaTile k b r1 = (.ok tile, s1) →
    exec .mmaComplete s = .next (s1.updWeft b fun y => { y with mmas := AMap.set y.mmas q [r, { r1 with tile := tile }] })) ∧
  (∀ f g base a tile j, base.length = 128 → j < 128 → (rowSums f g base a tile).getD j 0 = base.getD j 0 +
    ((List.range 64).map fun k => actAt g a k * weightAt f ((tile.drop (bRowBytes f * k)).take (bRowBytes f)) j).sum) ∧
  (∀ (s : State) b q i sums k y, s.block? b = some k → k.weft = some y → ∃ k', (s.mmaRow b q i sums).block? b = some k' ∧
    AMap.get? k'.pbuf (32 * q + i) = some (sums.map fun p => BitVec.ofInt 32 p) ∧
    AMap.get? k'.pbTags (32 * q + i) = some (List.replicate 32 (k.gens.getD q 0)) ∧
    k'.weft = some { y with povf := y.povf || sums.any fun p => decide (p < -(2 ^ 31) ∨ 2 ^ 31 - 1 < p) }) ∧
  ∀ (v : BitVec 8) (row : List Byte) j, j < 128 → row.getD (j / 5) 0#8 = v →
    weightAt 0 row j = if 243 ≤ v.toNat then 0 else if v.toNat / 3 ^ (j % 5) % 3 = 2 then -1 else ((v.toNat / 3 ^ (j % 5) % 3 : Nat) : Int)

/-- Accumulator slots: scacc and acc.ld add terms to the windows of a handle's slot, acc.st writes them out, acc.zero takes
or clears a slot, acc.rel frees it; a term adds the floor of P times 2^d to the window, saturating (R292, R294, R309,
R310, R437 to R440).
The model's choice in it: log entry 20. -/
def Obligations.AccumulatorsAdd : Prop :=
  (∀ (q : BitVec 2) h r c n x ps, WDoes (.scaccU q h r c) (fun e _ _ => q.toNat < e.blk.nq ∧ AMap.getD e.wf.mmas q.toNat [] = [] ∧
      SlotOf e h n x ∧ e.blk.partials q.toNat = .ok ps)
    fun e _ s => s.putSlot e.b h n (x.add (e.blk.gens.getD (n / 16) 0)
      (termsOf ps (fun _ => (e.x r).toNat % 1024) fun _ => (e.x c).toNat % 1024))) ∧
  (∀ (q : BitVec 2) h r c n x ps ra cb (s1 s2 : State), WDoes (.scaccV q h r c) (fun e _ s => q.toNat < e.blk.nq ∧
      AMap.getD e.wf.mmas q.toNat [] = [] ∧ SlotOf e h n x ∧ e.blk.partials q.toNat = .ok ps ∧
      s.weftCheck e.blk e.b (e.x r).toNat 64 2 false = .ok () ∧ s.weftCheck e.blk e.b (e.x c).toNat 256 2 false = .ok () ∧
      s.weftRead e.b (e.x r).toNat 64 = (.ok ra, s1) ∧ s1.weftRead e.b (e.x c).toNat 256 = (.ok cb, s2))
    fun e _ _ => s2.putSlot e.b h n (x.add (e.blk.gens.getD (n / 16) 0) (termsOf ps
      (fun i => leNat ((ra.drop (2 * i)).take 2) % 1024) fun j => leNat ((cb.drop (2 * j)).take 2) % 1024))) ∧
  (∀ h a st ex n x rows (s1 : State), WDoes (.accLd h a st ex) (fun e _ s => SlotOf e h n x ∧
      s.weftChecks e.blk e.b 512 4 false (rowAddrs (e.x a) (e.x st) 32) = .ok () ∧
      State.weftRows e.b 512 (rowAddrs (e.x a) (e.x st) 32) s = (.ok rows, s1))
    fun e _ _ => s1.putSlot e.b h n (x.add (e.blk.gens.getD (n / 16) 0) (rows.flatMap fun row => (List.range 128).map fun j =>
      some (val 32 true (leNat ((row.drop (4 * j)).take 4) % 2 ^ 32), ((e.x ex).setWidth 16).toInt)))) ∧
  (∀ (t m : BitVec 2) h a st n (s1 : State), WDoes (.accSt t m h a st) (fun e _ s => AMap.get? e.wf.handles h.toNat = some n ∧
      let size := if t = 1#2 ∨ t = 2#2 then 2 else 4
      let x := AMap.getD e.blk.slots n {}
      s.weftChecks e.blk e.b (128 * size) size true (rowAddrs (e.x a) (e.x st) 32) = .ok () ∧
      State.weftWrite e.b (((rowAddrs (e.x a) (e.x st) 32).zip (List.range 32)).map fun p =>
        (p.1, (((x.windows.drop (128 * p.2)).take 128).map (accBytes t.toNat m.toNat x)).flatten)) s = (.ok (), s1))
    fun _ _ _ => s1) ∧
  (∀ t m h a st, WFaults (.accSt t m h a st) (fun e _ _ => AMap.get? e.wf.handles h.toNat = none)
    fun _ => { code := fcWeft, detail := 3#8 }) ∧
  (∀ h n x, WDoes (.accZero h) (fun e _ _ => SlotOf e h n x) fun e _ s => s.putSlot e.b h n {}) ∧
  (∀ h, WFaults (.accZero h) (fun e _ _ => e.slotFor h = none) fun _ => { code := fcAccFull }) ∧
  (∀ h : BitVec 4, WDoes (.accRel h) (fun _ _ _ => True) fun e _ s => s.relSlot e.b h.toNat) ∧
  (∀ (s : State) b h k y n, s.block? b = some k → k.weft = some y → AMap.get? y.handles h = some n →
    s.relSlot b h = ((s.updBlock b fun k => { k with slots := AMap.erase k.slots n }).updWeft b fun y =>
      { y with handles := AMap.erase y.handles h })) ∧
  (∀ (w : W64) (p d : Int), ∃ t : Int, (t : Rat) ≤ p * 2 ^ d ∧ (p : Rat) * 2 ^ d < t + 1 ∧
    (accTerm w p d).1.toInt = max (-(2 ^ 63)) (min (2 ^ 63 - 1) (w.toInt + t)) ∧
    ((accTerm w p d).2.1 = true ↔ 2 ^ 63 - 1 < w.toInt + t ∨ w.toInt + t < -(2 ^ 63)) ∧
    ((accTerm w p d).2.2 = true ↔ (t : Rat) ≠ p * 2 ^ d)) ∧
  ∀ (x : AccSlot) gen ts, (x.anchor = none → (∀ t, t ∈ ts → t = none) → x.add gen ts = x) ∧
    (∀ a, x.anchor = some a → (x.add gen ts).anchor = some a ∧ (x.add gen ts).tags = List.replicate 512 gen ∧
      (x.add gen ts).win = (x.windows.zip ts).map fun p => match p.2 with
        | none => p.1
        | some (m, e) => (accTerm p.1 m (e - a)).1) ∧
    ∀ m e, x.anchor = none → ts.findSome? id = some (m, e) →
      (x.add gen ts).anchor = some (max (-32768) (min 32767 (e - 16))) ∧ (x.add gen ts).tags = List.replicate 512 gen

/-! ## Events of a block -/

/-- What comes to a block from outside its instructions: data of a load stands in the registers that waited for it, an
access completes and lowers its flag, a quota request at the head of its queue is granted, a join is released, and the
generations of a half are scrubbed (R181, R183, R185, R192, R193, R362).
The model's choices in it: log entries 34 and 45. -/
def Obligations.ArrivalsLand : Prop :=
  (∀ (s : State) k x l, let b := s.args.block
    let w := s.args.warp
    let id := s.args.id
    s.block? b = some k → s.warp? b w = some x → AMap.get? x.loads id = some l → s.awaitsLoad b w id = false → l.flag ≠ 15 →
    exec .loadDataArrival s = .next (s.updWarp b w fun y => y.deliver (k.genOf w) id l.inTry)) ∧
  (∀ (x : Warp) gen id f (l : PendLoad) p m (v : Lanes) n r, AMap.get? x.loads id = some l → l.fault = none → l.heirs = [] →
    l.uni = none → l.targets = [(p, m, v)] → l.prevs.length = 1 → AMap.get? x.rmap n = some p → x.reg? n = some r →
    ∃ r', (x.deliver gen id f).reg? n = some r' ∧ r'.tags = r.tags ∧
      ∀ t, t < 16 → r'.vals.get t = if m.getLsbD t then v.get t else r.vals.get t) ∧
  (∀ (s : State) x l, let b := s.args.block
    let w := s.args.warp
    let id := s.args.id
    s.warp? b w = some x → AMap.get? x.accs id = some l → s.awaitsAcc b w id = false → l.flag ≠ 15 →
    exec .memoryAccessCompletion s = .next (s.updWarp b w fun y => { y.lowerFlag l.flag l.fault with accs := AMap.erase y.accs id })) ∧
  (∀ (x : Warp) f fault, f ≤ 11 → x.flags.length = 12 → x.flagFault.length = 12 →
    (x.lowerFlag f fault).flags.getD f 0 = x.flags.getD f 0 - 1 ∧
    (x.lowerFlag f fault).flagFault.getD f none = (match x.flagFault.getD f none with
      | some old => some old
      | none => fault) ∧
    ∀ g, g ≠ f → (x.lowerFlag f fault).flags.getD g 0 = x.flags.getD g 0 ∧
      (x.lowerFlag f fault).flagFault.getD g none = x.flagFault.getD g none) ∧
  (∀ (s : State) b w sp n rs, let q := s.args.unit
    let lane := s.args.n
    (AMap.getD (s.quarter q).quotaQ lane []).filter s.requestLive = (b, w, sp, n) :: rs → n ≤ s.laneFree q lane →
    exec .quotaGrant s = .next (((s.setQuotaQ q lane rs).updWarp b w fun x => { x with quota := x.quota + n }).completeParked b w sp)) ∧
  (∀ (s : State) b w sp n rs p, let q := s.args.unit
    let lane := s.args.n
    (AMap.getD (s.quarter q).quotaQ lane []).filter s.requestLive = (b, w, sp, n) :: rs → s.laneFree q lane < n →
    s.laneBlocked q lane = true → s.split? b w sp = some p →
    exec .quotaGrant s = .next (((s.setQuotaQ q lane rs).updSplit b w sp fun p => { p with park := .ready }).laneFault b w p.pc
      { code := fcQuotaDeadlock })) ∧
  (∀ (s : State) k x q, let b := s.args.block
    let w := s.args.warp
    let sp := s.args.split
    s.block? b = some k → s.warp? b w = some x → k.run = .running → AMap.get? x.active sp = some q → q.park = .join →
    (∀ p, p ∈ x.active → p.1 ≠ sp → p.2.park ≠ .ready) → exec .joinRelease s = .next (s.completeParked b w sp)) ∧
  (∀ (s : State) up, let q := s.args.unit
    (s.quarter q).scrub = none → (up = true ∧ 7168 ≤ (s.quarter q).gen ∧ (s.quarter q).gen < 8192 ∨
      up = false ∧ 15360 ≤ (s.quarter q).gen) → (s.quarter q).clean ≠ some up →
    exec .generationScrub s = .next ((s.blocksInHalf q up).foldl State.askPreempt (s.updQuarter q fun x => { x with scrub := some up }))) ∧
  (∀ (s : State) b k, s.block? b = some k → (s.askPreempt b).block? b = some { k with preempt := match k.preempt with
    | some c => some c
    | none => some (.preempt, s.cycles) }) ∧
  ∀ (s : State) up, let q := s.args.unit
    (s.quarter q).scrub = some up → (∀ b, b ∈ (s.quarter q).resident → ∀ k, s.block? b = some k →
      inHalf up (k.gens.getD (k.quarters.idxOf q) 0) = false) →
    exec .generationScrubEnd s = .next (s.updQuarter q fun x => { x with scrub := none, clean := some up })

/-- How a fault is served and how a block stops and goes on: service clears the recorded page faults and the block runs
again, or a final fault ends it; a service that takes too long, a yield limit or a request whose deadline has passed saves
the block; a saved block takes the quarters of a core again; a debugger's requests act where the policy has opened their feature
to the request (R96, R111, R112, R195, R206, R209, R210, R215, R220 to R225).
The model's choices in it: log entries 26, 27, 44 and 48. -/
def Obligations.BlocksStopAndResume : Prop :=
  (∀ (s : State) k s1, let b := s.args.block
    s.block? b = some k → k.service.isSome = true → k.run = .halted → State.serviceAll b k.faults s = (s1, none) →
    (∀ p, p ∈ k.warps → p.2.due = false) → exec .faultServiceDone s = .next (s1.resumeBlock b)) ∧
  (∀ (s : State) k s1 f, let b := s.args.block
    s.block? b = some k → k.service.isSome = true → k.run ≠ .ended → State.serviceAll b k.faults s = (s1, some f) →
    exec .faultServiceDone s = .next (s1.terminate b f true)) ∧
  (∀ (s : State) k x, let b := s.args.block
    s.block? b = some k → s.world? k.world = some x → k.run = .halted → k.service.isSome = true →
    k.haltedAt + x.stall * 1000 < s.now → exec .stallLimitExpiry s = .next (s.updBlock b fun k => { k with run := .saving })) ∧
  (∀ (s : State) x p l t, let w := s.args.world
    let c := s.args.ctx
    let va := s.args.addr.toNat
    s.ctx? w c = some x → (s.quarter s.args.unit).owner = w → walk x.pt va = .leaf p l t →
    exec .translationWalk s = .next (s.updQuarter s.args.unit fun q =>
      let u := (w, c, va / pageBytes l, leafSize l)
      { q with tcache := ((q.tcache.filter fun v => v != u) ++ [u]).drop (q.tcache.length - 255) })) ∧
  (∀ (s : State) k cause t x, let b := s.args.block
    s.block? b = some k → k.preempt = some (cause, t) → s.world? k.world = some x → t + x.deadline * 1000 ≤ s.cycles →
    k.run ≠ .saving → k.run ≠ .saved → k.run ≠ .ended →
    exec .forcedSave s = .next (if cause = .cancel then s.terminate b { code := fcCancel, wid := 0, pc := 0#64, addr := 0#64 } false
      else s.beginSave b 256)) ∧
  (∀ (s : State) k, let b := s.args.block
    s.block? b = some k → k.run = .saving → (∀ p, p ∈ k.warps → p.2.loads = [] ∧ p.2.accs = [] ∧ p.2.due = false) →
    (∀ c, c ∈ s.copies → c.2.block ≠ b) →
    ∃ t, exec .saveComplete s = .next t ∧ ∃ k', t.block? b = some k' ∧ k'.quarters = [] ∧ k'.preempt = none ∧
      k'.savedAt = s.now ∧ (∀ t, k.preempt = some (.cancel, t) → k'.run = .ended) ∧
      ((∀ t, k.preempt ≠ some (.cancel, t)) → k'.run = .saved) ∧
      k'.warps = k.warps.map (fun p => (p.1, p.2.forSave (k.genOf p.1))) ∧ k'.sheds = k.sheds ∧ k'.bobs = k.bobs ∧
      k'.scratch = k.scratch ∧ k'.slots = k.slots ∧ k'.pbuf = k.pbuf ∧ k'.retired = k.retired ∧ k'.rot = k.rot) ∧
  (∀ (gen : Nat) (x : Warp), x.region = none → (x.forSave gen).rmap = x.rmap ∧ (x.forSave gen).phys = x.phys ∧
    (x.forSave gen).sregs = x.sregs ∧ (x.forSave gen).preds = x.preds ∧ (x.forSave gen).flags = x.flags ∧
    (x.forSave gen).quota = x.quota ∧ (x.forSave gen).due = false) ∧
  (∀ (s : State) k qs seats, let b := s.args.block
    let core := s.args.unit
    s.block? b = some k → k.run = .saved → k.service = none → core < 512 → s.firstSaved b k = true → s.placing k.world = true →
    s.coreOpen core none = true → s.fitCore k.need core = some (qs, seats) → k.acts = [] →
    exec .blockResume s = .next ((s.updBlock b fun k => { k.regenerate (qs.map s.nextGen) qs seats with acts := [] }).takeQuarters b k.part qs)) ∧
  (∀ (k : Block) gens qs seats, k.brk = none → (k.regenerate gens qs seats).run = .running ∧
    (k.regenerate gens qs seats).gens = gens ∧ (k.regenerate gens qs seats).quarters = qs ∧
    (k.regenerate gens qs seats).scratch = k.scratch ∧ (k.regenerate gens qs seats).retired = k.retired) ∧
  (∀ (s : State) k k1 n, let b := s.args.block
    s.block? b = some k → k.run = .halted → debugFeature s.args.debug = n → (n = 1 ∨ n = 3) →
    s.policyOpen k.world n s.args.tag = true → k.debug s.args.debug = some k1 →
    exec .debuggerWrite s = .next ((s.updBlock b fun _ => k1).send (.success []))) ∧
  (∀ (s : State) k bs n, let b := s.args.block
    s.block? b = some k → k.run = .halted → debugFeature s.args.debug = n → (n = 0 ∨ n = 2) →
    s.policyOpen k.world n s.args.tag = true → k.debugRead s.args.debug = some bs →
    exec .debuggerWrite s = .next (s.send (.success bs))) ∧
  (∀ (s : State) k, let b := s.args.block
    s.block? b = some k → k.run = .halted → s.args.debug = .singleStep → s.policyOpen k.world 6 s.args.tag = true →
    exec .debuggerWrite s = .next ((s.updWarp b s.args.warp fun x => { x with due := true }).send (.success []))) ∧
  (∀ (s : State) k, let b := s.args.block
    s.block? b = some k → debugOfWorld s.args.debug = false →
    (k.run = .running ∨ s.policyOpen k.world (debugFeature s.args.debug) s.args.tag = false) →
    exec .debuggerWrite s = .next (s.send .unsupportedRequest)) ∧
  (∀ (s : State) n, s.args.debug = .counter n → s.policyOpen s.args.world 7 s.args.tag = false →
    exec .debuggerWrite s = .next (s.send (.success (List.replicate 8 0#8)))) ∧
  ∀ (s : State) w n tag x, s.world? w = some x → (s.policyOpen w n tag = true ↔ x.popen.getLsbD n = true ∧
    (tag.tbit = false → x.popen.getLsbD 15 = true) ∧
    (tag.tbit = true → x.tstate ≠ .unlocked ∧ tag.stream.isSome = true ∧ tag.stream = x.stream))

/-- The dispatchers and the share controller: a block of a launch or of a graph is placed where it fits, ends and gives its
quarters back; quarters are marked draining at an epoch, and change owner when they are empty (R143, R147, R149, R151 to
R153, R171 to R173, R188).
The model's choices in it: log entries 20, 45 and 47. -/
def Obligations.BlocksArePlaced : Prop :=
  (∀ (s : State) x qs seats, let core := s.args.unit
    let i := s.args.id
    core < 512 → i ≠ 0 → AMap.get? s.launches i = some x → x.next < x.total → s.placing x.world = true →
    State.panelOk x.desc x.panel core = true → s.coreOpen core (some i) = true →
    (∀ j y c, (j, y) ∈ s.launches → j < i → c < 64 → s.placeable j y (64 * (core / 64) + c) = false) → s.fitCore (x.desc.need x.world) core = some (qs, seats) →
    ∃ r : State, exec .blockPlace s = .next (r.startBlock x.world x.desc { ctx := x.ctx, launch := some i, bid := x.next, param := x.param } qs seats) ∧
      AMap.get? r.launches i = some { x with next := x.next + 1, since := s.now } ∧ r.blocks = s.blocks ∧ r.mem = s.mem) ∧
  (∀ (s : State) g r qs seats, let core := s.args.unit
    core < 512 → s.args.id = 0 → s.readyBlks.find? (fun r => r.graph == s.args.n) = some r → AMap.get? s.graphs s.args.n = some g →
    s.placing g.world = true → let d := (AMap.getD g.nodes r.node {}).desc
    State.panelOk d g.panel core = true → s.coreOpen core none = true → s.fitCore (d.need g.world) core = some (qs, seats) →
    exec .blockPlace s = .next ({ s with readyBlks := s.readyBlks.erase r }.startBlock g.world d
      { ctx := g.ctx, graph := some r.graph, node := r.node, bid := r.bid, group := r.slots, depth := r.depth, param := g.param } qs seats)) ∧
  (∀ (s : State) w d o qs seats, let k := newBlock s w d o qs seats
    k.run = .running ∧ k.gens = qs.map s.nextGen ∧ (∀ n, n < 16 → k.shed n = { first := 0, num := (d.need w).quotas.length, weft := d.weft }) ∧
      (d.weft = true → ∃ y, k.weft = some y ∧ y.pc = d.wentry ∧ y.x.getD 8 0 = o.param ∧ y.x.getD 9 0 = BitVec.ofNat 64 o.bid) ∧
      ∀ p, p ∈ k.warps → ∃ q, p.2.active = [(0, q)] ∧ q.pc = (if p.1 < d.pwarps then d.pentry else d.centry) ∧
        AMap.get? p.2.sregs 1 = some (o.param.setWidth 32)) ∧
  (∀ (s : State) q, (s.quarter q).gen ≤ 16383 →
    s.nextGen q = if (s.quarter q).gen = 16383 then 1 else (s.quarter q).gen + 1) ∧
  (∀ (s : State) i x c r, let panel := s.args.unit
    panel < 8 → (∀ q, q ∈ s.quarters → q.1 / 256 = panel → q.2.reserved = none) →
    s.launches.find? (fun p => decide (p.2.next < p.2.total) && !p.2.cancelled && State.panelOk p.2.desc p.2.panel (64 * panel)) = some (i, x) →
    x.since + 50000 ≤ s.now → s.reservable x panel = c :: r →
    ∃ core, (∃ n, (core, n) ∈ c :: r ∧ ∀ y, y ∈ c :: r → n ≤ y.2) ∧ exec .placementReservation s =
      .next ((List.range 4).foldl (fun s j => s.updQuarter (4 * core + j) fun q => { q with reserved := some i }) s)) ∧
  (∀ (s : State) k, let b := s.args.block
    s.block? b = some k → k.run = .running → (∀ p, p ∈ k.warps → p.2.ended = true) →
    (∀ y, k.weft = some y → y.ended = true ∧ y.mmas = []) → (∀ c, c ∈ s.copies → c.2.block ≠ b) →
    (∀ p, p ∈ k.warps → p.2.loads = [] ∧ p.2.accs = []) →
    let r := s.scratchReports k
    let r1 := { r with blocks := AMap.erase r.blocks b }.updWorld k.world fun x => { x with backed := x.backed - k.privPages.length }
    exec .blockEnd s = .next ((r1.leaveQuarters b k.quarters).countEnd k)) ∧
  (∀ (s : State) (w : Nat), let q := s.args.unit
    (s.quarter q).resident = [] → (s.quarter q).handover = some w →
    exec .quarterHandover s = .next ((s.updWorld (s.quarter q).owner fun y =>
        { y with held := y.held + (s.now - max (s.quarter q).since s.epochAt) }).updQuarter q fun x =>
      { x with owner := w, handover := none, draining := none, tcache := [], segWorld := w, part := none, since := s.now })) ∧
  (∀ (s : State), let q := s.args.unit
    let x := s.quarter q
    x.resident = [] → x.handover = none → q ∉ s.worldSet x.owner → x.owner ≠ 0 → s.nextOwner q = none →
    exec .quarterHandover s = .next ((s.updWorld x.owner fun y =>
        { y with held := y.held + (s.now - max x.since s.epochAt) }).updQuarter q fun x =>
      { x with owner := 0, handover := none, draining := none, tcache := [], segWorld := 0, part := none, since := s.now })) ∧
  (∀ (s : State), s.epochAt + 100000 ≤ s.now → exec .shareEpoch s = .next
    ((s.updateDeficits.worlds.map Prod.fst).foldl State.markDraining { s.updateDeficits with epochAt := s.now })) ∧
  (∀ (s : State) w x, s.world? w = some x → AMap.get? s.updateDeficits.worlds w = some { x with
    held := 0
    deficit := max (-x.entitled) (min x.entitled (x.deficit + x.entitled - 1024 *
      (((s.quarters.filter fun q => q.2.owner == w).foldl (fun a q => a + (s.now - max q.2.since s.epochAt)) x.held : Nat) : Int))) }) ∧
  (∀ (s : State) w x, let q := s.args.unit
    (s.quarter q).draining = some w → s.world? w = some x →
    (s.quarter q).drainAt + min (s.drainLimit * 1000) (x.lambda * 500) ≤ s.now →
    exec .drainLimitExpiry s = .next ((s.quarter q).resident.foldl State.askPreempt s)) ∧
  ∀ (s : State) g t, let gi := s.args.id
    let n := s.args.n
    AMap.get? s.graphs gi = some g → (AMap.getD g.nodes n {}).started = some t → t + (AMap.getD g.nodes n {}).timer * 1000 ≤ s.now →
    0 < (AMap.getD g.nodes n {}).pend.length → (AMap.getD g.nodes n {}).pend.length < (AMap.getD g.nodes n {}).group →
    ∃ r g2, g.takeGroup gi n (AMap.getD g.nodes n {}).pend.length s.now = (r, g2) ∧
      r.slots = (AMap.getD g.nodes n {}).pend ∧ r.graph = gi ∧ r.node = n ∧
      exec .nodeTimerExpiry s = .next ({ s with readyBlks := s.readyBlks ++ [r] }.graphNote gi [2, 3] fun _ =>
        { g2 with partials := g2.partials + 1 })

/-! ## The device of itself -/

/-- Bring-up, power, the ports and the scrubber: power-on passes the six stages in order to READY, or ends FAILED with its cause
until power comes back, where stage 1 fails exactly when one of the firmware image's two signatures does not verify; a
measurement moves the clock by 50 MHz between 900 and 1,500 MHz, a free channel goes to a request that has reached its bound or
else to the lowest class, an all-zero block is read without its channel, any other through a decoder where it holds an
encoding, a write goes through an encoder, whose runs are then judged or restarted, and the scrubber poisons what is beyond
correction (R19 to R21, R23, R25, R26, R28, R29, R44, R46, R51).
The model's choices in it: log entries 31, 32, 33, 64 and 68. -/
def Obligations.DeviceRunsItself : Prop :=
  (∀ (s : State), s.bootReady = true ∨ s.bootFailed = true →
    exec .powerOn s = .next { State.reset with
      bootStage := 1, tick := s.tick, freeCnt := s.freeCnt, inbox := s.inbox, outbox := s.outbox, hostMem := s.hostMem }) ∧
  (∀ (s : State), s.bootReady = false → s.bootFailed = false → s.bootStage = 0 → exec .powerOn s = .next { s with bootStage := 1 }) ∧
  (∀ (s : State), s.bootReady = false → s.bootFailed = false → s.bootStage = 1 →
    exec .powerOn s = .next (if Config.signatureOk (Config.firmware 0) (Config.firmware 1) = true ∧
        Config.signatureOk (Config.firmware 0) (Config.firmware 2) = true then { s with bootStage := 2 }
      else { s with bootFailed := true, bootCause := 1#8 })) ∧
  (∀ (s : State), s.bootReady = false → s.bootFailed = false → 2 ≤ s.bootStage → s.bootStage ≤ 6 →
    (∀ c, s.args.boot = .failed c → stageOf c ≠ s.bootStage) →
    exec .powerOn s = .next (if s.bootStage = 6 then { s with bootReady := true, now := 0, epochAt := 0 }
      else if s.bootStage = 4 then { s with bootStage := 5, lines := [], blocks := [] }
      else if s.bootStage = 3 then { s with bootStage := 4, metas := [], fixMetas := [], unref := [] }
      else { s with bootStage := s.bootStage + 1 })) ∧
  (∀ (s : State) c, s.bootReady = false → s.bootFailed = false → 2 ≤ s.bootStage →
    s.args.boot = .failed c → stageOf c = s.bootStage →
    exec .powerOn s = .next { s with bootFailed := true, bootCause := c }) ∧
  (∀ (s : State), let p := s.args.n
    ∃ t, exec .powerMeasurement s = .next t ∧ { s with clockMHz := t.clockMHz, coolUs := t.coolUs } = t ∧
      (s.capW < p → t.clockMHz = max 900 (s.clockMHz - 50) ∧ t.coolUs = 0) ∧
      (p ≤ s.capW → 100 * p < 95 * s.capW → 1000 ≤ s.coolUs + 10 → t.clockMHz = min 1500 (s.clockMHz + 50) ∧ t.coolUs = 0) ∧
      (p ≤ s.capW → 100 * p < 95 * s.capW → s.coolUs + 10 < 1000 → t.clockMHz = s.clockMHz ∧ t.coolUs = s.coolUs + 10) ∧
      (p ≤ s.capW → 95 * s.capW ≤ 100 * p → t.clockMHz = s.clockMHz ∧ t.coolUs = 0)) ∧
  (∀ (s : State) r n, let p := AMap.getD s.ports s.args.unit {}
    p.head s.args.n = some r → waitBound s.args.n = some n → r.since + n * 10 ≤ s.now → s.args.n ∉ p.bound →
    exec .portWaitBound s = .next (s.updPort s.args.unit fun p => { p with bound := p.bound ++ [s.args.n] })) ∧
  ([waitBound 2, waitBound 3, waitBound 4, waitBound 5, waitBound 1] = [some 4, some 16, some 64, some 256, none]) ∧
  (∀ (s : State) p, AMap.get? s.ports s.args.unit = some p →
    exec .blockTransferDone s = .next (s.updPort s.args.unit fun p => p.grant s.now)) ∧
  (∀ (p : Port) now, (p.grant now).busy = p.next now ∧ ∀ r, p.next now = some r →
    (p.grant now).waiting = Port.newHead r.cls now (p.waiting.erase r) ∧ r ∈ p.waiting ∧
    ((p.atBound now r.cls = true ∧ ∀ q, q ∈ p.waiting → p.atBound now q.cls = true → 1 ≤ q.cls → q.cls ≤ 5 → r.cls ≤ q.cls) ∨
      (∀ q, q ∈ p.waiting → p.atBound now q.cls = true → ¬(1 ≤ q.cls ∧ q.cls ≤ 5)) ∧
        ∀ q, q ∈ p.waiting → 1 ≤ q.cls → q.cls ≤ 5 → r.cls ≤ q.cls)) ∧
  (∀ (p : Port) now cls r n, p.head cls = some r → waitBound cls = some n → r.since + n * 10 ≤ now → p.atBound now cls = true) ∧
  (∀ (now cls : Nat) (l₁ l₂ : List PortReq) r, (∀ q, q ∈ l₁ → q.cls ≠ cls) → r.cls = cls →
    Port.newHead cls now (l₁ ++ r :: l₂) = l₁ ++ { r with since := now } :: l₂) ∧
  (∀ (s : State) a off, s.blockAt s.args.world s.args.ctx s.args.addr .devRead = some (a, off) →
    let s0 := s.sweepUnder a
    ((s0.line? a).isSome = true ∨ s0.runsFor a.world a.ctx a.va = true → exec .demandRead s = .next s0) ∧
    (s0.line? a = none → s0.runsFor a.world a.ctx a.va = false →
      ((s0.metaOf a.loc).scount = 0 → exec .demandRead s = .next (s0.fill a).2) ∧
      ((s0.metaOf a.loc).scount ≠ 0 → let s1 := s0.eccReport a.loc s.args.ecc
        exec .demandRead s = .next (match s1.startDecode a with
          | some r => (s1.portRequest a.loc (s1.metaOf a.loc).scount 1).handRun r
          | none => (s1.fill a).2)))) ∧
  (∀ (s : State) a off l, s.blockAt s.args.world s.args.ctx s.args.addr .devRead = some (a, off) → s.line? a = some l →
    let s1 := s.sweepUnder a
    (s1.runsFor a.world a.ctx a.va = true → exec .demandWrite s = .next s1) ∧
    (s1.runsFor a.world a.ctx a.va = false → exec .demandWrite s = .next (match s1.startEncode a l with
      | some r => s1.handRun r
      | none => s1.evict (State.lineKey a)))) ∧
  (∀ (s : State) (r : HRun), (2 ≤ s.runsAt r.port → s.handRun r = { s with runq := s.runq ++ [r] }) ∧
    (s.runsAt r.port < 2 → (s.handRun r).runq = s.runq ∧
      ∃ u, u < 2 ∧ (s.heddle = none → (s.handRun r).heddle = some { r with unit := u } ∧ (s.handRun r).heddles = s.heddles) ∧
        (∀ x, s.heddle = some x → (s.handRun r).heddle = s.heddle ∧ (s.handRun r).heddles = s.heddles ++ [{ r with unit := u }]))) ∧
  (∀ (s : State) a off, s.blockAt s.args.world s.args.ctx s.args.addr .devWrite = some (a, off) →
    off + s.args.bytes.length ≤ 256 → s.args.bytes ≠ [] →
    let s0 := s.evictBlock a.loc
    exec .partialWriteMerge s = .next (((s0.portRequest a.loc (min 8 (s0.metaOf a.loc).scount) 2).portPartial a off s.args.bytes).2)) ∧
  (∀ (s : State) r, s.heddle = some r → r.fin ≠ .running →
    (s.args.ecc ≠ .uncorrectable → exec .heddleRunDone s = .next ((State.runResult { s with heddle := none } r).handNext r.port)) ∧
    (s.args.ecc = .uncorrectable → ∃ r1, exec .heddleRunDone s =
        .next { s.updPort r.port (fun p => { p with restarts := p.restarts + 1 }) with heddle := some r1 } ∧
      r1.pc = 0 ∧ r1.fin = .running ∧ r1.steps = 0 ∧ r1.ic = 0 ∧ r1.out = [] ∧ r1.code = r.code ∧ r1.tab = r.tab ∧ r1.inp = r.inp ∧
      r1.purpose = r.purpose ∧ r1.world = r.world ∧ r1.ctx = r.ctx ∧ r1.va = r.va ∧ r1.slot = r.slot ∧ r1.port = r.port)) ∧
  (∀ (s : State) (r : HRun) a off, r.purpose = .decode → s.blockAt r.world r.ctx r.va .devRead = some (a, off) →
    s.runResult r = (s.sweepUnder a).decodeDone a r) ∧
  (∀ (s : State) (r : HRun) a off l, r.purpose ≠ .decode → s.blockAt r.world r.ctx r.va .devRead = some (a, off) →
    let s2 := s.sweepUnder a
    s2.line? a = some l → l.dirty = true → l.data = r.orig → l.poison = 0#32 →
    s.runResult r = if r.purpose = .encode then s2.encodeDone a r else s2.checkDone a r) ∧
  (∀ (s : State) a r, (r.decOutcome = some r.orig → s.checkDone a r = s.storeLine a r (some (r.inp.length / 32, r.inp))) ∧
    (r.decOutcome ≠ some r.orig → s.checkDone a r = (s.countMismatch a.world r.slot).storeLine a r none)) ∧
  (∀ (s : State), 256 * s.args.n < State.physBytes → s.args.ecc ≠ .uncorrectable →
    ∃ t, exec .patrolScrub s = .next t ∧ { s with ports := t.ports } = t) ∧
  ∀ (s : State), 256 * s.args.n < State.physBytes → s.args.ecc = .uncorrectable →
    let l : BlkRef := { key := 2 * s.args.n, base := 256 * s.args.n, metaAt := s.args.n }
    let s1 := s.portRequest l 8 5
    exec .patrolScrub s = .next ((s1.blocksIn s.args.n).foldl State.poisonBlock
      (s1.updPort (State.portOf l) fun p => { p with uncorrected := p.uncorrected + 1 }))

/-- Sweeps, moving pages, and links: a sweep re-encrypts a tensor block by block to its next version, a page moves to
another frame, a page is sealed out to host memory, and a link goes down and comes back with fresh keys (R77 to R83, R89).
The model's choices in it: log entries 28, 29, 30 and 62. -/
def Obligations.SweepsAndPages : Prop :=
  (∀ (s : State) x r, let w := s.args.world
    s.world? w = some x → s.record? w s.args.ctx s.args.n = some r → x.sweepInterval ≠ 0 → r.valid = true →
    s.encrypted w r = true → r.validAt + x.sweepInterval * 1000000000 ≤ s.now →
    (∀ q, q ∈ x.sweeps → ¬(q.1 = s.args.ctx ∧ q.2.1 = s.args.n)) →
    exec .sweepIntervalExpiry s = .next (s.updWorld w fun x => { x with sweeps := x.sweeps ++ [(s.args.ctx, s.args.n, none)] })) ∧
  (∀ (s : State) x c i who rest r, let w := s.args.world
    s.world? w = some x → x.sweeps = (c, i, who) :: rest → s.record? w c i = some r → r.sweep = false →
    exec .sweepStart s = .next (if s.encrypted w r = false then s.endSweep w State.pcOk
      else if r.version = 0xffff then s.endSweep w State.pcVersionEnd
      else s.setRecord w c i (State.setSweep r true 0))) ∧
  (∀ (s : State) x c i who rest r a off, let w := s.args.world
    s.world? w = some x → x.sweeps = (c, i, who) :: rest → s.record? w c i = some r → r.sweep = true → r.sweepPtr < 256 * r.pages →
    s.blockAt w c (BitVec.ofNat 64 (r.base + 256 * r.sweepPtr)) .devRead = some (a, off) → a.trec = i →
    exec .sweepBlock s = .next (((s.portRequest a.loc (min 8 (s.metaOf a.loc).scount) 1).reencrypt a r).advanceSweep w c i (r.sweepPtr + 1))) ∧
  (∀ (s : State) x c i who rest r, let w := s.args.world
    s.world? w = some x → x.sweeps = (c, i, who) :: rest → s.record? w c i = some r → r.sweep = true → r.sweepPtr < 256 * r.pages →
    s.blockAt w c (BitVec.ofNat 64 (r.base + 256 * r.sweepPtr)) .devRead = none →
    exec .sweepBlock s = .next (s.advanceSweep w c i ((r.sweepPtr / 256 + 1) * 256))) ∧
  (∀ (s : State) x c i who rest r, let w := s.args.world
    s.world? w = some x → x.sweeps = (c, i, who) :: rest → s.record? w c i = some r → r.sweep = true → 256 * r.pages ≤ r.sweepPtr →
    ∃ r1, exec .sweepBlock s = .next ((s.setRecord w c i r1).endSweep w State.pcOk) ∧ r1.sweep = false ∧ r1.sweepPtr = 0 ∧
      (r.version < 0xffff → r1.version = r.version + 1) ∧ r1.validAt = s.now ∧ r1.tid = r.tid ∧ r1.pair = r.pair ∧ r1.pages = r.pages) ∧
  (∀ (s : State) l, let w := s.args.world
    let c := s.args.ctx
    let va := s.args.addr.toNat / 65536 * 65536
    let n : Leaf := { trec := 0, paddr := s.args.page.paddr, wr := l.wr, ex := l.ex, mrun := s.args.page.mrun }
    s.leafOf w c va = some l → s.args.page.trec = 0 → s.args.page.paddr % 65536 = 0 → s.args.page.mrun % 2048 = 0 →
    State.frameFree s.usedFrames n.paddr (State.frameBytes 0) = true → s.classOf w c 0 = 0 →
    let src := s.pageBlocks w c va l
    let dst := s.pageBlocks w c va n
    let s1 := src.foldl (fun s a => s.evictBlock a.loc) s
    exec .pageMigration s = .next (match State.moveBlocks (src.zip dst) (dst.foldl State.clearBlock s1) with
      | none => s1.logEvent w (BitVec.ofNat 64 va) 2#8 0#8
      | some s3 => (s3.freeBlocks src).setEntry w c va n.entry)) ∧
  (∀ (s : State) l x, let w := s.args.world
    let c := s.args.ctx
    let va := s.args.addr.toNat / 65536 * 65536
    s.leafOf w c va = some l → s.world? w = some x → x.conf = false → s.copyOnPage w c va = false →
    let as := s.pageBlocks w c va l
    ∀ page bad s2, State.plainPage (as.zip (List.range 256)) (as.foldl (fun s a => s.evictBlock a.loc) s) = (page, bad, s2) →
    exec .sealOut s = .next ((s2.freeBlocks as).putOut w c va l 0 page bad)) ∧
  (∀ (s : State) l x key, let w := s.args.world
    let c := s.args.ctx
    let va := s.args.addr.toNat / 65536 * 65536
    let as := s.pageBlocks w c va l
    let s1 := as.foldl (fun s a => s.evictBlock a.loc) s
    s.leafOf w c va = some l → s.world? w = some x → x.conf = true → s.copyOnPage w c va = false → s1.migKeyOf w = some key →
    let aad := s1.sealHeader w c va x.sealSeq.toNat l
    let out := gcmSeal key (State.sealNonce w x.sealSeq.toNat) aad ((as.map fun a => s1.sectors a.loc (s1.metaOf a.loc).scount).flatten)
    exec .sealOut s = .next (((as.foldl State.clearBlock s1).putOut w c va l x.sealSeq.toNat (aad ++ out.1 ++ out.2) []).updWorld w
      fun x => { x with sealSeq := x.sealSeq + 1#64 })) ∧
  (∀ (s : State), let p := s.args.unit
    p < State.portCount → (s.linkAt p).up = true →
    ∃ t, exec .linkDown s = .next t ∧ (t.linkAt p).up = false ∧ (t.linkAt p).keyEpoch = (s.linkAt p).keyEpoch ∧
      (∀ q, q ≠ p → t.linkAt q = s.linkAt q) ∧ t.outbox = s.outbox ++ [.frameResend p] ∧
      (∀ id q h, AMap.get? s.planes id = some (q, h) → q ≠ p → AMap.get? t.planes id = some (q, h)) ∧
      (∀ id h, AMap.get? s.planes id = some (p, h) →
        AMap.get? t.planes id = some ((t.upPlanes[h % t.upPlanes.length]?).getD p, h)) ∧
      (∀ i c, AMap.get? s.colls i = some c → AMap.get? t.colls i = some { c with linkDown := c.linkDown <|> some s.now }) ∧
      { s with links := t.links, outbox := t.outbox, planes := t.planes, colls := t.colls } = t) ∧
  ∀ (s : State), let p := s.args.unit
    p < State.portCount → (s.linkAt p).up = false →
    ∃ t, exec .linkRetrain s = .next t ∧ (t.linkAt p).up = true ∧ (t.linkAt p).keyEpoch = (s.linkAt p).keyEpoch + 1 ∧
      (t.linkAt p).txFrames = 0 ∧ (t.linkAt p).rxFrames = 0 ∧
      (∀ q, q ≠ p → t.linkAt q = s.linkAt q) ∧ t.sysNum = (if s.args.ok then s.args.m % 2 ^ 20 else s.sysNum) ∧
      ((∀ q, q < State.portCount → q ≠ p → (s.linkAt q).up = true) → ∀ i c, AMap.get? t.colls i = some c → c.linkDown = none) ∧
      { s with links := t.links, sysNum := t.sysNum, colls := t.colls } = t

/-! ## The fabric -/

/-- Frames, remote accesses and collectives: a bad frame is sent again and the eighth takes the link down; an access of
another device is performed only where its key passes, and is refused otherwise with no effect but a count; an answer goes
to what waits for it; coll hands a checked collective to the engine, whose completion writes the result and counts the
signal down, and whose failure sets the signal to −1 with its cause (R86, R88, R89, R91 to R94, R206, R456 to R458).
The model's choices in it: log entries 39, 61 and 62. -/
def Obligations.FabricAnswers : Prop :=
  (∀ (s : State), let p := s.args.unit
    p < State.portCount → (s.linkAt p).up = true → s.args.ok = true →
    let s1 := s.updLink p fun l => { l with rxFrames := l.rxFrames + 1, fails := 0 }
    exec .frameReceive s = .next (if (s.linkAt p).rxFrames + 1 < 2 ^ 40 then s1 else s1.downLink p)) ∧
  (∀ (s : State), let p := s.args.unit
    p < State.portCount → (s.linkAt p).up = true → s.args.ok = false → exec .frameReceive s = .next (
      if (s.linkAt p).fails < 7 then (s.updLink p fun l => { l with fails := l.fails + 1 }).send (.frameResend p)
      else s.downLink p)) ∧
  (∀ (s : State), let p := s.args.unit
    p < State.portCount → (s.linkAt p).up = true → ∃ t, exec .frameCountLimit s = .next t ∧ (t.linkAt p).up = false) ∧
  (∀ (s : State) (p : Nat), p < State.portCount →
    ((s.linkAt p).txFrames + 1 < 2 ^ 40 → ((s.frameOut p).linkAt p).txFrames = (s.linkAt p).txFrames + 1 ∧
      ((s.frameOut p).linkAt p).up = (s.linkAt p).up) ∧
    (2 ^ 40 ≤ (s.linkAt p).txFrames + 1 → ((s.frameOut p).linkAt p).up = false)) ∧
  (∀ (s : State), domainOf s.args.req.fromSys = domainOf s.sysNum → exec .remoteRequest s = .next (s.serveRemote s.args.req)) ∧
  (∀ (s : State), domainOf s.args.req.fromSys ≠ domainOf s.sysNum → s.args.req.kind = .message →
    exec .crossDomainMessage s = .next (s.serveRemote s.args.req)) ∧
  (∀ (s : State) (q : RemoteReq), let check := s.keyChecks q (piecesOf q.va.toNat (State.remLength q))
    (check = .stale → s.serveRemote q = s.sendAns q .staleKey) ∧
    (check = .refused → s.serveRemote q = (s.countRefused q.world).sendAns q .remoteKey) ∧
    (check = .pass → s.serveRemote q = (s.performRemote q).2.sendAns q (s.performRemote q).1)) ∧
  (∀ (s : State) (q : RemoteReq) a, (s.sendAns q a).outbox.contains (.remoteAns q a) = true) ∧
  (∀ (s : State) (q : RemoteReq) x va, s.world? q.world = some x →
    (x.keys = none → s.keyCheck q va = .refused) ∧
    (x.keys.isSome = true → q.key ∈ x.revoked → s.keyCheck q va = .stale) ∧
    (x.keys.isSome = true → q.key ∉ x.revoked → x.frozen = true → s.keyCheck q va = .refused)) ∧
  (∀ (s : State) (q : RemoteReq) x va, s.world? q.world = some x → q.key ∉ x.revoked → s.keyCheck q va = .pass →
    x.keys.isSome = true ∧ ∃ a off r, s.resolve q.world 0 va (if remWrites q.kind then .devWrite else .devRead) = .place (.block a off) ∧
      s.recordOf a = some r ∧ r.valid = true ∧ r.exportBit = true ∧ r.w1 = q.key) ∧
  (∀ (s : State) b w id t va bs, AMap.get? s.remote s.args.id = some (.load b w id t va) → s.args.ans = .ok bs →
    exec .remoteAnswer s = .next ({ s with remote := AMap.erase s.remote s.args.id, planes := AMap.erase s.planes s.args.id }.updWarp b w
      fun x => { x with loads := AMap.modify x.loads id fun l => l.answer t (loadWords l.signed (l.forward t bs)) })) ∧
  (∀ (l : PendLoad) t (bs : List Byte) j, j < bs.length →
    (l.forward t bs).length = bs.length ∧ (l.forward t bs).getD j 0#8 =
      ((l.own.find? fun o => o.1 == t && o.2.1 == j).map fun o => o.2.2).getD (bs.getD j 0#8)) ∧
  (∀ (s : State) b w id t va, (AMap.get? s.remote s.args.id = some (.load b w id t va) ∨
      AMap.get? s.remote s.args.id = some (.acc b w id t va)) → s.args.ans = .staleKey →
    exec .remoteAnswer s = .next ({ s with remote := AMap.erase s.remote s.args.id, planes := AMap.erase s.planes s.args.id }.updWarp b w
      fun x => { x with rstatus := true })) ∧
  (∀ d a b c lit va bs hd gb n (s1 s2 s3 s4 : State), Does (.coll d a b c lit) (fun e _ s =>
      let w := e.blk.world
      let m := groupMembers n gb
      s.feature w 7 = true ∧ isS a = true ∧ aligned a 2 = true ∧ e.inTry = false ∧ e.pread a 0 = .ok va ∧ va % 64 = 0 ∧
      s.devRead w e.blk.ctx (BitVec.ofNat 64 va) 64 = (.ok bs, s1) ∧
      s1.devRead w e.blk.ctx (BitVec.ofNat 64 (CollDesc.ofBytes bs).group) 64 = (.ok hd, s2) ∧
      n = bits (leWord hd 0 8) 12 0 ∧ 2 ≤ n ∧ n ≤ 4096 ∧
      s2.devRead w e.blk.ctx (BitVec.ofNat 64 (CollDesc.ofBytes bs).group) (64 + 4 * n) = (.ok gb, s3) ∧
      (CollDesc.ofBytes bs).ok n = true ∧ groupClean n gb = true ∧ (∀ i, i ∈ m → domainOf i = domainOf s.sysNum) ∧
      (m.filter fun i => i == s.sysNum).length = 1 ∧ s3.collPages w e.blk.ctx (CollDesc.ofBytes bs) n = .ok false ∧
      s3.collCount w < 64 ∧ s3.startColl e.blk (CollDesc.ofBytes bs) m (leWord gb 8 8) = .ok s4)
    fun _ _ _ => s4) ∧
  (∀ (s : State) x own (s1 s2 : State), let id := s.args.id
    AMap.get? s.colls id = some x → s.args.contribs.length = x.members.length → (∀ c, c ∈ s.args.contribs → c.length = x.len) →
    s.devRead x.world x.ctx x.src x.len = (.ok own, s1) →
    s1.devWrite x.world x.ctx x.dst (collResult x (s.args.contribs.set x.self own)) = (none, s2) →
    let s3 := (s2.devAtomic x.world x.ctx x.sig fun v => v + (2 ^ 64 - 1)).2
    exec .collectiveComplete s = .next { s3 with colls := AMap.erase s3.colls id }) ∧
  (∀ (x : Coll) ds, (x.op = 6 → collResult x ds = ds.flatten) ∧ (x.op = 7 → collResult x ds = ds.getD x.root []) ∧
    ∀ a b, x.op < 6 → ds = [a, b] → collResult x ds = collPair x.op x.ty a b) ∧
  (∀ op ty (a b : List Byte) i, a.length = b.length → collElem ty * (i + 1) ≤ a.length →
    leWord (collPair op ty a b) (collElem ty * i) (collElem ty) =
      collCombine op ty (leWord a (collElem ty * i) (collElem ty)) (leWord b (collElem ty * i) (collElem ty)) % 2 ^ (8 * collElem ty)) ∧
  (∀ (s : State) x t, AMap.get? s.colls s.args.id = some x → x.linkDown = some t → t + 100000 < s.now →
    exec .collectiveLinkTimeout s = .next (s.failColl s.args.id 1 s.args.m)) ∧
  (∀ (s : State), 2 ≤ s.args.n → s.args.n ≤ 4 → exec .collectiveFailure s = .next (s.failColl s.args.id s.args.n s.args.m)) ∧
  ∀ (s : State) id cause step x, AMap.get? s.colls id = some x →
    ∃ (junk : List Byte) (s1 : State), { s with freeCnt := s1.freeCnt } = s1 ∧ junk.length = collOut x.op x.members.length x.len ∧
      let put (a : W64) (bs : List Byte) (s : State) := (s.devWrite x.world x.ctx a bs).2
      let s4 := put (x.group + 10#64) [BitVec.ofNat 8 step] (put (x.group + 8#64) [BitVec.ofNat 8 cause] (put x.dst junk s1))
      let s5 := (s4.devAtomic x.world x.ctx x.sig fun _ => 2 ^ 64 - 1).2
      s.failColl id cause step = { s5 with colls := AMap.erase s5.colls id }

/-! ## The host -/

/-- The host's requests: reads and writes of a world's memory through the aperture; register writes, of which one to a
field that is frozen, like a configuration write of a locked interface, a stream failure or a key-store error, enters ERROR
with its cause; the debug policy; RESYNC of the bounce channel; the call ring's registers (R96 to R98, R100, R101, R103, R112, R116,
R217 to R219).
The model's choices in it: log entries 54, 55, 56 and 57. -/
def Obligations.HostReaches : Prop :=
  (∀ (s : State) x, let w := s.args.world
    Admitted s w s.args.tag x → x.conf = false → s.args.addr.toNat + s.args.n ≤ 2 ^ 36 →
    exec .hostMemoryRead s = .next (State.hostRead w s.args.addr s.args.n (s.args.n / 65536 + 3) s)) ∧
  (∀ (s : State) w va n fuel bs s1, s.devRead w 0 va n = (.ok bs, s1) → State.hostRead w va n (fuel + 1) s = s1.send (.success bs)) ∧
  (∀ (s : State) x, let w := s.args.world
    let bs := s.args.bytes
    Admitted s w s.args.tag x → x.conf = false → s.args.addr.toNat + bs.length ≤ 2 ^ 36 →
    exec .hostMemoryWrite s = .next (State.hostWrite w s.args.addr bs (bs.length / 65536 + 3) s)) ∧
  (∀ (s : State) w va bs fuel s1, s.devWrite w 0 va bs = (none, s1) → State.hostWrite w va bs (fuel + 1) s = s1) ∧
  (∀ (s : State) x, s.world? s.args.world = some x → x.conf = true →
    exec .hostMemoryRead s = .next (s.send .unsupportedRequest) ∧ exec .hostMemoryWrite s = .next (s.send .unsupportedRequest)) ∧
  (∀ (s : State) x y, let w := s.args.world
    w ≠ 0 → Admitted s w s.args.tag x → x.tstate = .unlocked → x.writeLk s.args.n s.args.value = some y →
    exec .registerWrite s = .next (s.updWorld w fun _ => y)) ∧
  (∀ (s : State) x y, let w := s.args.world
    w ≠ 0 → Admitted s w s.args.tag x → (x.tstate = .locked ∨ x.tstate = .run) → x.writeLk s.args.n s.args.value = some y →
    exec .registerWrite s = .next (s.enterError w 1)) ∧
  (∀ (s : State), s.args.world = 0 → s.bootReady = true → s.args.n = 0x108 → s.args.value.getLsbD 0 = true → s.mcBusy = false →
    s.mcAddr.toNat % 512 = 0 → exec .registerWrite s = .next { s with
      mcBusy := true, mcResult := none, mcAt := s.mcAddr
      mcCmd := if s.args.reach = .ok then s.hostMem.readBytes s.mcAddr.toNat 512 else [] }) ∧
  (∀ (s : State), (∃ v, s.registerRead 0 0 = some v ∧ v.toNat = (if s.bootReady then 2 ^ 31 else 0) + (if s.bootFailed then 2 ^ 30 else 0) +
      s.bootCause.toNat * 2 ^ 16 + s.bootStage % 256) ∧
    (s.bootReady = false → ∀ off, off ≠ 0 → s.registerRead 0 off = none) ∧
    (s.bootReady = true → s.registerRead 0 0x100 = some s.mcAddr ∧ s.registerRead 0 0x108 = some 0#64 ∧
      ∃ v, s.registerRead 0 0x110 = some v ∧ v.toNat = s.mcDone.toNat * 2 ^ 32 + if s.mcBusy then 1 else 0)) ∧
  (∀ (s : State) w x off, w ≠ 0 → s.world? w = some x → x.tstate = .error →
    s.registerRead w off = some (if off = 0 then BitVec.ofNat 64 (x.ecause * 256 + 3) else BitVec.allOnes 64)) ∧
  (∀ (s : State), s.bootReady = false → exec .configWrite s = .next (s.send .unsupportedRequest)) ∧
  (∀ (s : State) x, let w := s.args.world
    let c := AMap.getD s.fns w {}
    let b := s.args.value.getLsbD 0
    s.bootReady = true → s.world? w = some x →
    (s.args.cfg = .lkField → exec .configWrite s = .next (s.enterError w 1)) ∧
    ((x.tstate = .locked ∨ x.tstate = .run) → (s.args.cfg = .bar ∨ (s.args.cfg = .memSpace ∧ c.memSpace ≠ b) ∨
      (s.args.cfg = .busMaster ∧ c.busMaster ≠ b)) → exec .configWrite s = .next (s.enterError w 1)) ∧
    ((x.tstate = .unlocked ∨ x.tstate = .error) → s.args.cfg = .bar →
      exec .configWrite s = .next { s with fns := AMap.set s.fns w { c with bar := s.args.value } }) ∧
    ((x.tstate = .unlocked ∨ x.tstate = .error) → s.args.cfg = .memSpace → c.memSpace ≠ b →
      exec .configWrite s = .next { s with fns := AMap.set s.fns w { c with memSpace := b } }) ∧
    ((x.tstate = .unlocked ∨ x.tstate = .error) → s.args.cfg = .busMaster → c.busMaster ≠ b →
      exec .configWrite s = .next { s with fns := AMap.set s.fns w { c with busMaster := b } })) ∧
  (∀ (s : State), exec .ideStreamFailure s = .next (s.enterError s.args.world 2) ∧
    exec .keyStoreError s = .next (s.enterError s.args.world 3)) ∧
  (∀ (s : State) w cause x, s.world? w = some x → (x.tstate = .locked ∨ x.tstate = .run) →
    s.enterError w cause = ((s.errorSteps w).updWorld w fun x => { x with tstate := .error, ecause := cause }).returnQuarters w ∧
    ∀ y, (s.enterError w cause).world? w = some y → y.tstate = .error ∧ y.ecause = cause ∧ y.keys = none ∧ y.sweeps = [] ∧
      y.quiescing = false ∧ y.frozen = false) ∧
  (∀ (s : State) w cause x, s.world? w = some x → x.tstate = .unlocked ∨ x.tstate = .error → s.enterError w cause = s) ∧
  (∀ (s : State) x p s2, let w := s.args.world
    let r := (s.updWorld w fun x => { x with policyAddr := s.args.addr })
    Admitted s w s.args.tag x → s.args.tag.tbit = true → x.tstate = .run → s.feature w 11 = true →
    r.devRead w 0 s.args.addr 5421 = (.ok p, s2) → let res := policyCheck x w p
    let s3 := s2.updWorld w fun x => { x with presult := res }
    exec .policyPresent s = .next ((if res = 0 then s3.updWorld w fun x =>
        { x with popen := BitVec.ofNat 32 (leWord p 0x30 4), policySeq := leWord p 0x28 8 + 1, policyDigest := sha384 p }
      else s3).logEvent w s.args.addr 4#8 (BitVec.ofNat 8 res))) ∧
  (∀ (s : State) x, let w := s.args.world
    Admitted s w s.args.tag x → s.args.tag.tbit = true → x.tstate = .run → x.bbState ≠ 0 →
    ∃ (t : State) (y : World), exec .resync s = .next t ∧ OnlyWorld w s t ∧ t.world? w = some y ∧ y.bbState = 1 ∧ y.bbEpoch = x.bbEpoch + 1#32 ∧
      (y.bbLostFirst.toNat = min s.args.value.toNat x.bbDseq.toNat) ∧ (y.bbLostLast.toNat = max s.args.value.toNat x.bbDseq.toNat) ∧
      y.bbDseq = y.bbLostLast + 1#64 ∧ y.bbKey = (AMap.getD s.sessions 0 {}).keyGen) ∧
  (∀ (s : State) x, let w := s.args.world
    let tok : BitVec 32 := s.args.value.extractLsb' 32 32
    Admitted s w s.args.tag x → (x.conf = true → s.args.tag.tbit = true) →
    exec .actionResume s = .next (s.writeToken w tok 1) ∧ exec .actionTerminate s = .next (s.writeToken w tok 2) ∧
    exec .crtailWrite s = .next ((s.updWorld w fun x => { x with crtail := s.args.value.setWidth 32 }).flushRing 4096 w)) ∧
  ∀ (s : State) w tok act b k wid sp q, s.blocks.find? (fun p => p.2.world == w && p.2.run != .ended && (State.tokenHolder p.2 tok).isSome) =
      some (b, k) → s.block? b = some k → k.run = .running → k.brk ≠ some tok → State.tokenHolder k tok = some (wid, sp, q) →
    (act = 1 → s.writeToken w tok act = s.completeParked b wid sp) ∧
    (act = 2 → (∀ f, f ∈ k.faults → f.code ≠ 0x19#8) → s.writeToken w tok act =
      s.terminate b { code := 0x18#8, wid := wid, pc := q.pc, addr := 0#64 } true)

/-- TDISP: an interface moves between its states as R100 says, each request answered; lock draws a nonce and builds the
report, start takes that nonce, stop makes the interface afresh (R100, R107, R108).
The model's choice in it: log entry 57. -/
def Obligations.InterfacesMove : Prop :=
  (∀ (s : State) x, let w := s.args.world
    s.inSession 0 = true → s.world? w = some x → x.tstate = .unlocked → featOk x.featDrv = true →
    s.streamLive s.args.tag.stream = true → (x.crbase = 0#64 ∨ 4 ≤ x.crlog2n ∧ x.crlog2n ≤ 12) →
    ∃ (t : State) (y : World), exec .lockInterfaceRequest s = .next (t.send (.tdispNonce y.nonce)) ∧ t.world? w = some y ∧ y.tstate = .locked ∧
      y.stream = s.args.tag.stream ∧ y.migKey = true ∧ y.popen = 0#32 ∧ y.policySeq = 0 ∧ y.policyDigest = [] ∧
      y.report = { y with report := x.report }.reportBytes w ∧ y.keys = x.keys ∧ y.featDrv = x.featDrv ∧ y.quarterSet = x.quarterSet ∧
      ∀ v, v ≠ w → t.world? v = s.world? v) ∧
  (∀ (s : State) x, s.inSession 0 = true → s.world? s.args.world = some x →
    (x.tstate ≠ .unlocked ∨ featOk x.featDrv = false ∨ s.streamLive s.args.tag.stream = false ∨ ringOk x = false) →
    exec .lockInterfaceRequest s = .next (s.send (.tdispError false))) ∧
  (∀ (s : State) x, let w := s.args.world
    s.inSession 0 = true → s.world? w = some x → x.tstate = .locked → s.args.nonce = x.nonce →
    ∃ (t : State) (y : World), exec .startInterfaceRequest s = .next (t.send .tdispOk) ∧ OnlyWorld w s t ∧ t.world? w = some y ∧ y.tstate = .run ∧
      { x with tstate := .run, bbState := y.bbState, bbEpoch := 0#32, bbDseq := 0#64, bbKey := (AMap.getD s.sessions 0 {}).keyGen,
               crhead := 0#32, crtail := 0#32 } = y ∧
      (y.bbState = 1 ↔ x.featDrv.getLsbD 9 = true ∧ x.bbbase ≠ 0#64)) ∧
  (∀ (s : State) x, s.inSession 0 = true → s.world? s.args.world = some x → x.tstate = .locked → s.args.nonce ≠ x.nonce →
    exec .startInterfaceRequest s = .next (s.send (.tdispError true))) ∧
  (∀ (s : State) x, let w := s.args.world
    s.inSession 0 = true → s.world? w = some x → ∃ t : State, exec .stopInterfaceRequest s = .next (t.send .tdispOk) ∧
      { ((if x.tstate = .error then s else s.errorSteps w).clearWorld w).returnQuarters w with
        worlds := t.worlds, freeCnt := t.freeCnt } = t ∧
      (∀ p, p ∈ t.lines → p.2.world ≠ w) ∧ ∀ y, t.world? w = some y → y.tstate = .unlocked ∧ y.ecause = 0 ∧ y.featDrv = 0#128 ∧
        y.popen = 0#32 ∧ y.slots = [] ∧ y.nextTid = 1 ∧ y.ranges = [] ∧ y.queues = [] ∧ y.ctxs = [(0, {})] ∧ y.keys.isSome = true ∧
        y.quarterSet = x.quarterSet ∧ y.sigma = x.sigma ∧ y.allot = x.allot) ∧
  (∀ (s : State) x, s.inSession 0 = true → s.world? s.args.world = some x → (x.tstate = .locked ∨ x.tstate = .run) →
    exec .getDeviceInterfaceReport s = .next (s.send (.tdispReport (if x.conf then 1 else 2) x.report))) ∧
  (∀ (s : State) x, s.inSession 0 = true → s.world? s.args.world = some x → (x.tstate = .unlocked ∨ x.tstate = .error) →
    exec .getDeviceInterfaceReport s = .next (s.send (.tdispError false))) ∧
  ∀ (x : World) w, (x.reportBytes w).length = 0x1d8 + 24 * x.ranges.length ∧ leWord (x.reportBytes w) 0 2 = 1 ∧
    leWord (x.reportBytes w) 2 1 = w % 256 ∧ (leWord (x.reportBytes w) 3 1 = (if x.conf then 1 else 0) + if x.resumed then 2 else 0) ∧
    leWord (x.reportBytes w) 8 32 = x.nonce.toNat ∧ leWord (x.reportBytes w) 0x28 16 = x.featDrv.toNat ∧
    leWord (x.reportBytes w) 0x1c8 2 = x.sigma % 65536 ∧ leWord (x.reportBytes w) 0x1cc 4 = x.lambda % 2 ^ 32 ∧
    leWord (x.reportBytes w) 0x1d0 2 = x.ranges.length % 65536

/-- SPDM: each request is answered where the session has come far enough, and moves the session on; signatures are hybrid;
measurements are SHA-384 digests; a stream's keys are programmed and then put in force; a migration key comes inside a
session (R96, R108 to R110, R117).
The model's choices in it: log entries 6 and 58. -/
def Obligations.SessionsProve : Prop :=
  (∀ (s : State) req code (ok : Session → Bool) (pay : Session → List Byte) (f : Session → Session) peer,
    s.bootReady = true → let x := AMap.getD s.sessions peer {}
    ((peer ≠ 0 ∧ s.sysNum ≤ peer - 1) → s.spdmReply peer req code ok pay f = s.send (.spdmError peer)) ∧
    (ok x = true → (peer = 0 ∨ peer - 1 < s.sysNum) → ∃ t : State, s.spdmReply peer req code ok pay f = t.send (.spdm peer code (pay x)) ∧
      AMap.getD t.sessions peer {} = { f x with transcript := (f x).transcript ++ [BitVec.ofNat 8 req, BitVec.ofNat 8 code] ++ pay x } ∧
      (∀ p, p ≠ peer → AMap.getD t.sessions p {} = AMap.getD s.sessions p {}) ∧ { s with sessions := t.sessions } = t) ∧
    (ok x = false → s.spdmReply peer req code ok pay f = s.send (.spdmError peer))) ∧
  (∀ (s : State), let p := s.args.unit
    let n := s.args.n
    exec .getVersion s = .next (s.spdmReply p 0x84 0x04 (fun _ => true) (fun _ => [0x13#8]) fun x => { version := true, keyGen := x.keyGen }) ∧
    exec .getCapabilities s = .next (s.spdmReply p 0xe1 0x61 (fun x => x.version) (fun _ => []) fun x => { x with caps := true }) ∧
    exec .negotiateAlgorithms s = .next (s.spdmReply p 0xe3 0x63
      (fun x => x.caps && s.args.algs.sha384 && s.args.algs.ecdhP384 && s.args.algs.aes256gcm) (fun _ => []) fun x => { x with algs := true }) ∧
    exec .getDigests s = .next (s.spdmReply p 0x81 0x01 (fun x => x.algs)
      (fun _ => sha384 (Config.certChain 0) ++ sha384 (Config.certChain 1)) id) ∧
    exec .getCertificate s = .next (s.spdmReply p 0x82 0x02 (fun x => x.algs && decide (n ≤ 1)) (fun _ => Config.certChain n) id) ∧
    exec .getMeasurements s = .next (s.spdmReply p 0xe0 0x60 (fun x => x.algs && (s.measure n).isSome) (fun _ => (s.measure n).getD []) id) ∧
    exec .finish s = .next (s.spdmReply p 0xe5 0x65 (fun x => x.keyEx && s.args.ok && (p == 0 || x.peerSigned s.args.bytes)) (fun _ => [])
      fun x => { x with established := true, keyEx := false, updates := 0 }) ∧
    exec .keyUpdate s = .next (s.spdmReply p 0xe9 0x69 (fun x => x.established) (fun _ => []) fun x => { x with updates := x.updates + 1 }) ∧
    exec .heartbeat s = .next (s.spdmReply p 0xe8 0x68 (fun x => x.established) (fun _ => []) id) ∧
    exec .endSession s = .next (s.spdmReply p 0xec 0x6c (fun x => x.established) (fun _ => []) fun x => { x with established := false })) ∧
  (∀ (s : State), ∃ own s1, { s with freeCnt := s.freeCnt + 1 } = s1 ∧ own.length = 32 ∧
    exec .challenge s = .next (s1.spdmReply s.args.unit 0x83 0x03 (fun x => x.algs && decide (s.args.n ≤ 1))
      (fun x => sha384 (Config.certChain s.args.n) ++ own ++
        State.hybridSig (sha384 (x.transcript ++ leBytes 32 s.args.nonce.toNat ++ own))) id)) ∧
  (∀ (s : State), let g := s.freeCnt + 1
    exec .keyExchange s = .next ({ s with freeCnt := g }.spdmReply s.args.unit 0xe4 0x64 (fun x => x.algs)
      (fun x => Config.keyShare g ++ State.hybridSig (sha384 (x.transcript ++ s.args.bytes ++ Config.keyShare g)))
      fun x => { x with keyEx := true, established := false, keyGen := g })) ∧
  (∀ (x : Session) l, x.peerSigned l = true ↔
    Config.signatureOk (l.take 32) (sha384 x.transcript ++ (l.drop 1984).take 64) = true ∧
    Config.signatureOk ((l.drop 32).take 1952) (sha384 x.transcript ++ ((l.drop 1984).drop 64).take 3309) = true) ∧
  (∀ l, (State.hybridSig l).length = 64 + 3309) ∧
  (∀ (s : State), s.bootReady = true → (AMap.getD s.sessions s.args.unit {}).established = true →
    (s.args.unit = 0 ∨ s.args.unit - 1 < s.sysNum) → s.args.n < 64 → s.args.ide = .keyProg →
    ∃ t : State, exec .ideKm s = .next (t.send (.spdm s.args.unit 0x7e [1#8])) ∧ AMap.getD t.ideKeys s.args.n 0 = 1) ∧
  (∀ (s : State), s.bootReady = true → (AMap.getD s.sessions s.args.unit {}).established = true →
    (s.args.unit = 0 ∨ s.args.unit - 1 < s.sysNum) → s.args.n < 64 → s.args.ide = .setGo →
    AMap.getD s.ideKeys s.args.n 0 ≠ 0 →
    ∃ t : State, exec .ideKm s = .next (t.send (.spdm s.args.unit 0x7e [2#8])) ∧ AMap.getD t.ideKeys s.args.n 0 = 2) ∧
  (∀ (s : State), let k := (s.args.world, s.args.n)
    s.inSession (s.args.n + 1) = true → k ∉ s.migKeys → exec .migrationKeyArrival s = .next { s with migKeys := s.migKeys ++ [k] }) ∧
  ∀ (s : State) n x, 1 ≤ n → n ≤ 63 → s.world? n = some x →
    s.measure (0x40 + n) = some (if x.report = [] then List.replicate 48 0#8 else sha384 x.report) ∧
    s.measure (0x80 + n) = some (if x.policyDigest = [] then List.replicate 48 0#8 else x.policyDigest)

/-- Management commands: one whose block passes its checks has the effect of R105 and its answer; its completion writes
STATUS, counts MC_DONE and sends the interrupt; a migration quiesces, freezes and leaves (R103 to R106, R117).
The model's choices in it: log entries 59 and 60. -/
def Obligations.CommandsManage : Prop :=
  (∀ (s : State) b, let w := leWord b 2 1
    Commanded s 1 [] false [] b → s.world? w = none → s.args.ok = true → ∃ (t : State) (y : World), exec .createWorld s = .next t ∧ t.mcResult = some (0#8, 0) ∧
      t.world? w = some y ∧ y.tstate = .unlocked ∧ y.keys.isSome = true ∧ y.slots = [] ∧ y.nextTid = 1 ∧ y.ctxs = [(0, { nrec := 4096 })] ∧
      y.quarterSet = [] ∧ y.ranges = [] ∧ y.stall = 40 ∧ y.deadline = 20000 ∧ y.quiesce = 10000 ∧ y.sweepInterval = 0 ∧ y.allot = 0 ∧
      ∀ v, v ≠ w → t.world? v = s.world? v) ∧
  (∀ (s : State) b x, let w := leWord b 2 1
    Commanded s 1 [] false [] b → s.world? w = some x → exec .createWorld s = .next { s with mcResult := some (3#8, 0) }) ∧
  (∀ (s : State) b, Commanded s 1 [] false [] b → s.world? (leWord b 2 1) = none → s.args.ok = false →
    exec .createWorld s = .next { s with mcResult := some (8#8, 0) }) ∧
  (∀ (s : State) b x, let w := leWord b 2 1
    Commanded s 2 [(0x10, 2), (0x14, 4), (0x20, 256)] false (ranged b (0x10, 2) 1 1024 ++ ranged b (0x14, 4) 1 1000000) b →
    s.world? w = some x → x.tstate = .unlocked → exec .bindQuarters s = .next (
      if s.overcommits w (leWord b 0x10 2) (quartersOf b) then { s with mcResult := some (7#8, 0) }
      else
        let s1 := s.updWorld w fun x => { x with quarterSet := quartersOf b, sigma := leWord b 0x10 2, lambda := leWord b 0x14 4 }
        { ((s1.ownedBy w).filter fun q => !(quartersOf b).contains q).foldl State.emptied s1 with mcResult := some (0#8, 0) })) ∧
  (∀ (s : State) b x, let w := leWord b 2 1
    let i := leWord b 0x10 1
    Commanded s 3 [(0x10, 1), (0x11, 1), (0x18, 8), (0x20, 8), (0x28, 8), (0x30, 8)] false (bindMemoryBad (s.world? w) b) b →
    s.world? w = some x → x.tstate = .unlocked → exec .bindMemory s = .next { s.updWorld w fun x =>
        { x with ranges := if leWord b 0x11 1 = 1 then AMap.erase x.ranges i else AMap.set x.ranges i (rangeOfBlock b) } with
      mcResult := some (0#8, 0) }) ∧
  (∀ (s : State) b x, let w := leWord b 2 1
    Commanded s 4 [(0x10, 1), (0x12, 2)] false (ranged b (0x10, 1) 1 15 ++ ranged b (0x12, 2) 2 65535) b →
    s.world? w = some x → AMap.get? x.ctxs (leWord b 0x10 1) = none → exec .createContext s = .next (
      if x.tstate = .unlocked then
        if s.args.ok then
          { s.updWorld w fun x => { x with ctxs := AMap.set x.ctxs (leWord b 0x10 1) { nrec := leWord b 0x12 2 } } with
            mcResult := some (0#8, 0) }
        else { s with mcResult := some (8#8, 0) }
      else { s with mcResult := some (5#8, x.tstate.code) })) ∧
  (∀ (s : State) b x, let w := leWord b 2 1
    Commanded s 5 [(0x10, 1), (0x14, 4), (0x18, 4), (0x1c, 4), (0x20, 4), (0x28, 8)] false
      (ranged b (0x10, 1) 0 31 ++ rangedIf (masked b 0) b (0x14, 4) 1 1000 ++ rangedIf (masked b 1) b (0x18, 4) 1000 1000000 ++
        rangedIf (masked b 2) b (0x1c, 4) 1000 1000000) b →
    s.world? w = some x → x.tstate ≠ .error → (x.tstate = .unlocked ∨ masked b 4 = false) →
    exec .setLimits s = .next { s.updWorld w fun x => x.setLimits b with mcResult := some (0#8, 0) }) ∧
  (∀ (s : State) b, Commanded s 6 [(0x10, 1), (0x14, 4), (0x18, 4)] true
      (ranged b (0x10, 1) 0 3 ++ rangedIf (masked b 0) b (0x14, 4) 1800 3600 ++
        offsetIf (masked b 0 && leWord b 0x14 4 % 50 != 0) 0x14 ++ rangedIf (masked b 1) b (0x18, 4) 10 10000) b →
    exec .setDevice s = .next { s with
      mcResult := some (0#8, 0), capW := if masked b 0 then leWord b 0x14 4 else s.capW
      drainLimit := if masked b 1 then leWord b 0x18 4 else s.drainLimit }) ∧
  (∀ (s : State) b x, let w := leWord b 2 1
    Commanded s 9 [] false [] b → s.world? w = some x → 
      let s1 := ((if x.tstate = .error then s else s.errorSteps w).clearWorld w).returnQuarters w
      exec .destroyWorld s = .next { s1 with worlds := AMap.erase s1.worlds w, mcResult := some (0#8, 0) }) ∧
  (∀ (s : State) w, (∀ p, p ∈ (s.clearWorld w).lines → p.2.world ≠ w) ∧
    ∀ q, q ∈ (s.clearWorld w).quarters → ∀ t, t ∈ q.2.tcache → t.1 ≠ w) ∧
  (∀ (s : State) b x, let w := leWord b 2 1
    Commanded s 10 [] false [] b → s.world? w = some x → (x.tstate = .locked ∨ x.tstate = .run) →
    exec .setError s = .next { s.enterError w 4 with mcResult := some (0#8, 0) }) ∧
  (∀ (s : State) c d, s.bootReady = true → s.mcBusy = true → s.mcResult = some (c, d) → ∃ t : State, exec .mcCompletion s = .next t ∧
    t.mcBusy = false ∧ t.mcDone = s.mcDone + 1#32 ∧ t.mcResult = none ∧ t.outbox = s.outbox ++ [.msix 0 0] ∧
    (s.mcCmd ≠ [] → t.hostMem = s.hostMem.writeBytes (s.mcAt.toNat + 4) (leBytes 4 (c.toNat + d % 65536 * 256))) ∧
    (s.mcCmd = [] → t.hostMem = s.hostMem) ∧ t.mem = s.mem ∧ t.worlds = s.worlds) ∧
  (∀ (s : State) b x, let w := leWord b 2 1
    Commanded s 7 [(0x10, 4), (0x14, 1), (0x18, 8), (0x20, 8)] false (migrateBad true b) b → s.world? w = some x →
    x.tstate = .run → x.frozen = false → x.quiescing = false → s.feature w 10 = true → s.args.ok = true → s.args.reach = .ok →
    exec .migrateOut s = .next (s.updWorld w fun x => { x with quiescing := true, quiesceAt := s.now, quiesceOver := false })) ∧
  (∀ (s : State) b x y, let w := leWord b 2 1
    Commanded s 7 [(0x10, 4), (0x14, 1), (0x18, 8), (0x20, 8)] false (migrateBad true b) b → s.world? w = some x →
    x.frozen = true → (s.sealAll w).world? w = some y → ∃ (t : State) (bytes : List Byte), exec .migrateOut s = .next t ∧
      t.mcResult = some (0#8, 0) ∧ t.world? w = none ∧ AMap.get? t.gone w = some y.revoked ∧ bytes.length ≤ leWord b 0x20 8 ∧
      t.hostMem = (s.sealAll w).hostMem.writeBytes (leWord b 0x18 8) bytes) ∧
  (∀ (s : State) x, let w := s.args.world
    s.world? w = some x → x.quiescing = true → x.quiesceOver = false → x.quiesceAt + x.quiesce * 1000 ≤ s.now →
    exec .quiesceLimitExpiry s = .next (let s1 := s.updWorld w fun x => { x with quiesceOver := true }
      (s1.blocks.filter fun p => p.2.world == w).foldl (fun s p => s.askPreempt p.1) s1)) ∧
  (∀ (s : State) x, let w := s.args.world
    s.world? w = some x → x.quiescing = true → x.frozen = false → s.quiesced w x = true → ∃ (t : State) (y : World), exec .freezePoint s = .next t ∧
      OnlyWorld w s t ∧ t.world? w = some y ∧ y.frozen = true ∧ y.revoked.length ≤ 256 ∧ y.revoked <:+ x.revoked ++ State.exportedKeys x ∧
      ((x.revoked ++ State.exportedKeys x).length ≤ 256 → y.revoked = x.revoked ++ State.exportedKeys x)) ∧
  (∀ (s : State) b, Commanded s 8 [(0x10, 4), (0x18, 8), (0x20, 8)] false (migrateBad false b) b →
    ∃ t : State, exec .migrateIn s = .next t ∧
      (s.imageAt (leWord b 0x18 8) (leWord b 0x20 8) = none → t = { s with mcResult := some (1#8, 0xffff) })) ∧
  ∀ (s : State) b m, let w := leWord b 2 1
    Commanded s 8 [(0x10, 4), (0x18, 8), (0x20, 8)] false (migrateBad false b) b →
    s.imageAt (leWord b 0x18 8) (leWord b 0x20 8) = some m →
    s.args.ok = true → s.world? w = none → s.overcommits w m.world.sigma m.world.quarterSet = false →
    (w, leWord b 0x10 4) ∈ s.migKeys → ∃ t : State, exec .migrateIn s = .next t ∧ t.mcResult = some (0#8, 0) ∧
      t = { (({ s with gone := AMap.erase s.gone w }.landImage w m).placePriv w |>.placeQueues w |>.lockWorld w m.world.stream).2 with
        mcResult := some (0#8, 0) }

/-! ## Queues and packets -/

/-- The life of a queue: ENABLE reads and checks its entry and makes it ACTIVE, DISABLE stops it once what it started has
completed; a round takes a packet for each lane and serves them by type; a packet that is valid, faulty, without its
feature or of an aborted queue is treated as R124, R130 and R134 say; a completion writes STATUS, COMPSIG and DIDX and
sends the interrupt; errors of an engine or of an entry stop or move its queues (R119 to R125, R130, R132, R134 to R136,
R139 to R141).
The model's choices in it: log entries 49, 50 and 51. -/
def Obligations.QueuesTurn : Prop :=
  (∀ (s : State) wd l s1 p e lane, let w := s.args.world
    let q := s.args.queue
    let x := AMap.getD wd.queues q {}
    s.world? w = some wd → q < 64 → wd.tstate = .run → wd.trusts s.args.tag = true → x.st ≠ .active →
    s.devRead w 0 (s.entryAddr w q) 64 = (.ok l, s1) → s1.entryOk w l = true → s1.findLane w q = some (p, e, lane) →
    ∃ (y : Queue) (t : State), { s1 with remote := t.remote } = t ∧ (∀ r k no, r ∈ t.remote → r.2 ≠ .barrier w q no k) ∧
      exec .enable s = .next ((t.updWorld w fun d => { d with queues := AMap.set d.queues q y }).syncEntry w q) ∧
      y.st = .active ∧ y.ridx = 0 ∧ y.didx = 0 ∧ y.phase = true ∧ y.curPhase = x.curPhase ∧ y.ring = pktWord l 0 ∧ y.qsig = pktWord l 8 ∧
      y.log2n = bits (leWord l 0x10 8) 19 16 ∧ y.ctx = bits (leWord l 0x10 8) 11 8 ∧ y.engine = e ∧ y.lane = lane) ∧
  (∀ (s : State) wd, let w := s.args.world
    s.world? w = some wd → wd.trusts s.args.tag = true → (AMap.getD wd.queues s.args.queue {}).st = .active → exec .enable s = .next s) ∧
  (∀ (s : State) wd l s1, let w := s.args.world
    let q := s.args.queue
    let x := AMap.getD wd.queues q {}
    s.world? w = some wd → q < 64 → wd.tstate = .run → wd.trusts s.args.tag = true → x.st ≠ .active →
    s.devRead w 0 (s.entryAddr w q) 64 = (.ok l, s1) → s1.entryOk w l = false →
    exec .enable s = .next (s1.enableFails w q x State.pcBadQueue)) ∧
  (∀ (s : State) wd x, let w := s.args.world
    let q := s.args.queue
    s.world? w = some wd → s.queue? w q = some x → wd.tstate = .run → wd.trusts s.args.tag = true → x.st ≠ .disabled →
    ∃ t : State, { s with remote := t.remote } = t ∧
      exec .disable s = .next ((t.updQueue w q fun x => { x with disabling := true, head := none, remSigs := [] }).settleDisable w q)) ∧
  (∀ (s : State) w q x, s.queue? w q = some x → x.disabling = true →
    s.settleDisable w q = if x.started = [] then (s.updQueue w q fun x => { x with st := .disabled, disabling := false }).syncEntry w q
      else s) ∧
  (∀ (s : State) ts s1, let e := s.args.unit
    e ≤ 8 → (s.engineOf e).stopped = false → s.liveTaken e = [] → State.lanesTake e (List.range 64) s = (ts, s1) →
    ∃ order : List (Nat × Nat × Nat), order.Perm ts ∧ order.Pairwise (fun a b => a.1 ≤ b.1) ∧
      exec .clauseRound s = .next (s1.updEngine e fun x => { x with taken := order.map fun t => t.2 })) ∧
  (∀ (s : State) w q x h s1, let slot := x.ring + BitVec.ofNat 64 (128 * x.ridx)
    s.queue? w q = some x → s.worldRuns w = true → State.Queue.visitable x = true → x.head = none → s.devRead w x.ctx slot 4 = (.ok h, s1) →
    ((leNat h).testBit 0 ≠ x.phase → s.visit w q = (none, s1)) ∧
    ∀ l s2, (leNat h).testBit 0 = x.phase → s1.devRead w x.ctx slot 128 = (.ok l, s2) → s2.mayServe w x l = true →
      s.visit w q = (some l, s2.updQueue w q fun x => { x with head := some l })) ∧
  (∀ (s : State) w q x wd c l, s.queue? w q = some x → s.world? w = some wd → s.ctx? w x.ctx = some c →
    (x.st = .aborted → s.sortTaken w q l = (some (pktPriority (pktOp l), w, q), s)) ∧
    (x.st ≠ .aborted → ∀ o os, pktBad c.nrec wd.bbslots l = o :: os →
      s.sortTaken w q l = (none, aborting s w q l 1#8 (BitVec.ofNat 8 (os.foldl min o)))) ∧
    (x.st ≠ .aborted → pktBad c.nrec wd.bbslots l = [] →
      (∀ n, pktFeature (pktOp l) = some n → s.feature w n = false → s.sortTaken w q l = (none, completed s w q l 8#8 0#8)) ∧
      ((∀ n, pktFeature (pktOp l) = some n → s.feature w n = true) → s.sortTaken w q l = (some (pktPriority (pktOp l), w, q), s)))) ∧
  (∀ (s : State) x l r (form : List Byte → Bool) act, let w := s.args.world
    let q := s.args.queue
    s.queue? w q = some x → s.liveTaken x.engine = (w, q) :: r → x.head = some l → (s.engineOf x.engine).stopped = false → x.st = .aborted →
    s.serve form act = completed (s.updEngine x.engine fun e => { e with taken := r }) w q l 2#8 0#8) ∧
  (∀ ps p, p ∈ readyPkts [] ps → p.skipped = true → ∃ before after, ps = before ++ p :: after ∧
    ∀ e, e ∈ before → e.skipped = true → e.written = true ∨ e.old = true) ∧
  (∀ (s : State) x p c d, let w := s.args.world
    let q := s.args.queue
    s.queue? w q = some x → (s.engineOf x.engine).stopped = false → readyPkts [] x.started = [p] → p.result = some (c, d) →
    ∃ s1 : State, { s with freeCnt := s1.freeCnt } = s1 ∧ exec .packetCompletion s = .next (s1.complete w q x p c d)) ∧
  (∀ (s : State) w q x (p : Pkt) c d s1 s2, s.devWrite w p.ctx (p.slot + 4#64) (leBytes 4 (c.toNat + 256 * d.toNat)) = (none, s1) →
    (if p.compsig = 0#64 then (State.SigOut.done, s1) else s1.updateSignal w p.ctx p.compsig (.compsig w q) (c != 0#8) (BitVec.allOnes 64)) =
      (.done, s2) → p.aborts = false →
    let s3 := (s2.updQueue w q fun y =>
      let n := Pkt.drain (y.started.map fun e => if e.no = p.no then { e with written := true } else e)
      { y with started := n.2, didx := (y.didx + n.1) % 2 ^ y.log2n }).syncEntry w q
    s.complete w q x p c d = (if p.irq then s3.send (.msix w q) else s3).settleDisable w q) ∧
  (∀ (s : State), let e := s.args.unit
    e ≤ 8 → (s.engineOf e).stopped = false → ((s.engineOf e).lastReload = none ∨ e = 8) →
    ∃ t : State, exec .clauseEngineError s = .next t ∧ (t.engineOf e).stopped = true ∧ (t.engineOf e).lastReload = some s.now ∧
      { s with engines := t.engines } = t) ∧
  (∀ (s : State), let e := s.args.unit
    e ≤ 8 → (s.engineOf e).stopped = true → ∃ t : State, exec .clauseEngineRestart s = .next t ∧ (t.engineOf e).stopped = false ∧
      (t.engineOf e).taken = []) ∧
  (∀ (s : State), let e := s.args.unit
    e < 8 → (s.engineOf e).moved = false → exec .clauseSelfCheckFail s = .next (s.takeOver e)) ∧
  ∀ (s : State) x l s1, let w := s.args.world
    let q := s.args.queue
    s.queue? w q = some x → x.st ≠ .disabled → s.devRead w 0 (s.entryAddr w q) 24 = (.ok l, s1) →
    exec .queueLost s = .next ((s1.updQueue w q fun x =>
      { x with ring := pktWord l 0, qsig := pktWord l 8, log2n := bits (leWord l 0x10 8) 19 16 }).failQueue w q State.pcQueueLost)

/-- The effect of each packet type (R131): a barrier releases, aborts or waits as its signals say; a signal is added to or
set; phases open, close and are cancelled; launches and graphs are handed on; a copy starts; the bounce channel carries one
slot; records are bound; a pair is loaded or unloaded; a time or words are written (R36, R37, R114, R115, R131, R133, R142,
R144, R146, R162).
The model's choices in it: log entries 37, 52, 53 and 54. -/
def Obligations.PacketsAct : Prop :=
  (∀ (vs : List SigRead) (s1 : State),
    let rd (s : State) (x : Queue) (l : List Byte) := State.readSignals s.args.world s.args.queue x ((List.range (pktByte l 0x10)).map fun k => (k, pktWord l (0x18 + 8 * k))) s
    let form (l : List Byte) : Prop := pktOp l = 2
    Acts .barrier form (fun s x l => rd s x l = (vs, s1) ∧ ∀ v, v ∈ vs → v = .value 0) (fun _ w q _ l => completed s1 w q l 0#8 0#8) ∧
    (∀ k, Acts .barrier form (fun s x l => rd s x l = (vs, s1) ∧ (∀ v, v ∈ vs → v ≠ .due) ∧ k < vs.length ∧
        vs.length = pktByte l 0x10 ∧ sigNegative (vs.getD k .due) = true ∧ ∀ j, j < k → sigNegative (vs.getD j .due) = false)
      fun _ w q _ l => aborting s1 w q l 3#8 (BitVec.ofNat 8 k)) ∧
    (∀ c, Acts .barrier form (fun s x l => rd s x l = (vs, s1) ∧ (∀ v, v ∈ vs → v ≠ .due ∧ sigNegative v = false) ∧
        vs.length = pktByte l 0x10 ∧ firstSigFault vs = some c) fun _ w q _ l => aborting s1 w q l 4#8 c) ∧
    Acts .barrier form (fun s x l => rd s x l = (vs, s1) ∧ (∀ v, v ∈ vs → ∃ n, v = .value n ∧ 0 ≤ n) ∧ (∃ n, 0 < n ∧ .value n ∈ vs) ∧
        vs.length = pktByte l 0x10) fun _ w q _ _ => s1.updQueue w q fun x => { x with remSigs := [] }) ∧
  (∀ (s1 : State), (∀ b i, (b = false ∧ i = .signalAdd) ∨ (b = true ∧ i = .signalSet) →
    Acts i (fun l => pktOp l = 3 ∧ pktByte l 0x18 = if b then 1 else 0)
      (fun s x l => s.updateSignal s.args.world x.ctx (pktWord l 0x10) (.packet s.args.world s.args.queue x.nextNo) b (pktWord l 0x20) =
        (.done, s1)) fun _ w q _ l => completed s1 w q l 0#8 0#8)) ∧
  (∀ (s : State) w c va who set v p old s1, va.toNat % 8 = 0 → va.toNat < 2 ^ 56 → s.resolve w c va.toNat .devWrite = .place p →
    (∀ y tw tva key, p ≠ .remote y tw tva key) →
    s.atomicPlace w c p 8 (fun old => some (if set then BitVec.toNat v else (old + BitVec.toNat v) % 2 ^ 64)) = (.ok old, s1) →
    s.updateSignal w c va who set v = (.done, s1)) ∧
  Acts .nopPacket (fun l => pktOp l = 1) (fun _ _ _ => True) (fun s w q _ l => completed s w q l 0#8 0#8) ∧
  (∀ (s1 : State), Acts .timestamp (fun l => pktOp l = 10) (fun s x l => State.storeWords s.args.world x.ctx
      (.packet s.args.world s.args.queue x.nextNo) (pktWord l 0x10).toNat [BitVec.ofNat 64 s.now] 0 s = (0, .done, s1))
    fun _ w q _ l => completed s1 w q l 0#8 0#8) ∧
  (∀ (s1 : State), Acts .writePacket (fun l => pktOp l = 11) (fun s x l => State.storeWords s.args.world x.ctx
      (.packet s.args.world s.args.queue x.nextNo) (pktWord l 0x10).toNat
      ((List.range (leWord l 0x18 4 / 8)).map fun i => pktWord l (0x20 + 8 * i)) 0 s = (0, .done, s1))
    fun _ w q _ l => completed s1 w q l 0#8 0#8) ∧
  Acts .phaseOpen (fun l => pktOp l = 4 ∧ pktByte l 0x10 = 0)
    (fun s x _ => let n := (s.phases.filter fun p => p.2.world == s.args.world).length
      n < 256 ∨ n = 256 ∧ ∃ i p, x.curPhase = some i ∧ (i, p) ∈ s.phases ∧ p.count = 0)
    (fun s w q x l => (completed s w q l 0#8 0#8).openPhase w q x.ctx l) ∧
  Acts .phaseClose (fun l => pktOp l = 4 ∧ pktByte l 0x10 = 1) (fun _ _ _ => True)
    (fun s w q _ l => (completed s w q l 0#8 0#8).closePhase w q) ∧
  Acts .cancelPhase (fun l => pktOp l = 4 ∧ pktByte l 0x10 = 2) (fun _ _ _ => True)
    (fun s w q x l => (s.startPkt w q l id).cancelPhases w q x.nextNo fun p => p.job == leWord l 0x12 2 && p.no == leWord l 0x14 4) ∧
  Acts .cancelJob (fun l => pktOp l = 4 ∧ pktByte l 0x10 = 3) (fun _ _ _ => True)
    (fun s w q x l => (s.startPkt w q l id).cancelPhases w q x.nextNo fun p => p.job == leWord l 0x12 2) ∧
  (∀ (s : State) w q ctx l, ∃ i, ((s.openPhase w q ctx l).phases = AMap.set (s.closePhase w q).phases i
      { world := w, ctx := ctx, queue := q, job := leWord l 0x12 2, no := leWord l 0x14 4, psig := pktWord l 0x18, count := 0, isOpen := true }) ∧
    i = AMap.fresh (s.closePhase w q).phases ∧
    ∀ x, (s.openPhase w q ctx l).queue? w q = some x → x.curPhase = some i) ∧
  (∀ d (s1 : State), Acts .launch (fun l => pktOp l = 5) (fun s x l => s.dispatched x.panel < 64 ∧
      s.readLDesc s.args.world x.ctx x.panel (pktWord l 0x10) = (.ok d, s1))
    fun _ w q x l =>
      let n := leWord l 0x20 4 * leWord l 0x24 4 * leWord l 0x28 4
      let y : Launch := { world := w, ctx := x.ctx, queue := q, pkt := x.nextNo, panel := x.panel, desc := d, param := pktWord l 0x18
                          total := n, left := n, phase := x.curPhase, since := s1.now, taken := s1.now }
      (({ s1 with launches := AMap.set s1.launches (AMap.fresh s1.launches) y }.joinPhase x.curPhase).dropCode w).startPkt w q l id) ∧
  (∀ (s : State) w core v a off, w < 64 → v < 64 → { s with icache := (s.dropCode w).icache } = s.dropCode w ∧
    (off < 256 → a.loc.key < 2 ^ 63 → AMap.get? (s.dropCode w).icache (State.codeKey core v a off) =
      if v = w then none else AMap.get? s.icache (State.codeKey core v a off))) ∧
  (∀ c d (s1 : State), Acts .launch (fun l => pktOp l = 5) (fun s x l => s.dispatched x.panel < 64 ∧
      s.readLDesc s.args.world x.ctx x.panel (pktWord l 0x10) = (.error (c, d), s1))
    fun _ w q _ l => if c = 1#8 then aborting s1 w q l c d else completed s1 w q l c d) ∧
  (∀ h ns placed stop (s1 s2 s3 : State), Acts .graph (fun l => pktOp l = 6) (fun s x l =>
      let desc := pktWord l 0x10
      let count := bits (leWord h 0x18 8) 6 0
      s.dispatched x.panel < 64 ∧ desc.toNat % 64 = 0 ∧ s.devRead s.args.world x.ctx desc 64 = (.ok h, s1) ∧
      State.readNodes s.args.world x.ctx x.panel desc (List.range (min count 64)) s1 = (.ok ns, s2) ∧
      placeQueues (pktWord h 0).toNat (ns.map Prod.fst) = (placed, stop) ∧ (pktWord h 0).toNat % 4096 = 0 ∧
      (pktWord h 0x10).toNat % 64 = 0 ∧ bits (leWord h 0x18 8) 63 7 = 0 ∧ (∀ b, b ∈ h.drop 0x20 → b = 0#8) ∧ 1 ≤ count ∧ count ≤ 64 ∧
      (∀ n, n ∈ ns → n.2 = true) ∧ stop - (pktWord h 0).toNat ≤ leWord h 8 8 ∧ (placed.map GNode.cap).sum ≤ 2 ^ 24 ∧
      s2.devWrite s.args.world x.ctx (pktWord h 0x10) (List.replicate 576 0#8) = (none, s3))
    fun _ w q x l =>
      let gi := AMap.fresh s3.graphs
      let nodes := (List.range placed.length).zip placed
      let src := sourceBlocks gi s3.now nodes
      let g : Graph := { world := w, ctx := x.ctx, queue := q, pkt := x.nextNo, panel := x.panel, arena := pktWord h 0
                         gstatus := pktWord h 0x10, param := pktWord l 0x18, nodes := nodes, count := src.length, phase := x.curPhase }
      ((({ s3 with graphs := AMap.set s3.graphs gi g, readyBlks := s3.readyBlks ++ src }.joinPhase x.curPhase).dropCode w).startPkt w q l id).settleGraph gi) ∧
  Acts .copy (fun l => pktOp l = 7 ∧ pktByte l 0x28 % 2 = 0) (fun s x l =>
      let ok (a : W64) (k : AccKind) : Prop := a.toNat + leWord l 0x20 8 ≤ 2 ^ 56 ∧ ∀ f, s.pagesCheck s.args.world x.ctx k
        (leWord l 0x20 8 / 65536 + 2) a.toNat (a.toNat + leWord l 0x20 8) ≠ .bad f
      s.copiesOn x.panel ≤ Config.copyQueue ∧ ok (pktWord l 0x10) .engineRead ∧ ok (pktWord l 0x18) .engineWrite)
    (fun s w q x l =>
      let c : Copy := { world := w, ctx := x.ctx, block := 0, warp := 0, thread := 0, batch := 0, order := 0, pieces := []
                        bulk := [(pktWord l 0x10, pktWord l 0x18, leWord l 0x20 8)], pkt := some (q, x.nextNo) }
      { s with copies := AMap.set s.copies (AMap.fresh s.copies) c }.startPkt w q l id) ∧
  (∀ wd head pt (s1 : State), let len := leWord head 8 4
    Acts .bounceIn (fun l => pktOp l = 7 ∧ pktByte l 0x28 = 1) (fun s x l =>
      let a := State.slotAddr wd l
      s.world? s.args.world = some wd ∧ wd.bbState = 1 ∧ head = s.hostMem.readBytes a 16 ∧ 1 ≤ len ∧ len ≤ 65504 ∧
      wd.shares a 65536 = true ∧ gcmOpen (State.bounceKeyOf wd s.args.world) (State.bounceNonce wd.bbDseq) head (s.hostMem.readBytes (a + 32) len)
        (s.hostMem.readBytes (a + 16) 16) = some pt ∧ leWord head 0 8 = wd.bbDseq.toNat ∧ leWord head 12 4 = 0 ∧
      s.devWrite s.args.world x.ctx (pktWord l 0x18) pt = (none, s1))
    fun _ w q _ l => completed (s1.updWorld w fun y => { y with bbDseq := y.bbDseq + 1#64 }) w q l 0#8 0#8) ∧
  (∀ wd, Acts .bounceIn (fun l => pktOp l = 7 ∧ pktByte l 0x28 = 1) (fun s _ l => s.world? s.args.world = some wd ∧
      leWord (s.hostMem.readBytes (State.slotAddr wd l) 16) 0 8 ≠ wd.bbDseq.toNat)
    fun s w q _ l => completed (s.updWorld w fun x => { x with bbState := if x.featDrv.getLsbD 9 then 2 else x.bbState }) w q l State.pcDesync 0#8) ∧
  (∀ wd pt (s1 : State), Acts .bounceOut (fun l => pktOp l = 7 ∧ pktByte l 0x28 = 3) (fun s x l =>
      s.world? s.args.world = some wd ∧ wd.bbState = 1 ∧ wd.shares (State.slotAddr wd l) 65536 = true ∧
      s.devRead s.args.world x.ctx (pktWord l 0x10) (leWord l 0x20 8) = (.ok pt, s1))
    fun _ w q _ l =>
      let head := leBytes 8 wd.bbDseq.toNat ++ leBytes 4 (leWord l 0x20 8) ++ leBytes 4 1
      let out := gcmSeal (State.bounceKeyOf wd w) (State.bounceNonce wd.bbDseq) head pt
      completed ({ s1 with hostMem := s1.hostMem.writeBytes (State.slotAddr wd l) (head ++ out.2 ++ out.1) }.updWorld w fun y =>
        { y with bbDseq := y.bbDseq + 1#64 }) w q l 0#8 0#8) ∧
  (∀ (s1 : State), let bind (s : State) (x : Queue) (l : List Byte) := s.bindRecord s.args.world x.ctx (leWord l 0x10 2) ((l.drop 0x18).take 32)
    Acts .bindWrite (fun l => pktOp l = 8 ∧ pktByte l 0x12 = 1) (fun s x l => bind s x l = .ok s1)
      (fun _ w q _ l => completed s1 w q l 0#8 0#8) ∧
    (∀ c, Acts .bindWrite (fun l => pktOp l = 8 ∧ pktByte l 0x12 = 1) (fun s x l => bind s x l = .error c)
      fun s w q _ l => completed s w q l c 0#8) ∧
    Acts .bindWrite (fun l => pktOp l = 8 ∧ pktByte l 0x12 = 3) (fun s x l => bind s x l = .ok s1) fun _ w q x l =>
      (s1.startPkt w q l id).askSweep w x.ctx (leWord l 0x10 2) q x.nextNo) ∧
  Acts .bindSweep (fun l => pktOp l = 8 ∧ pktByte l 0x12 = 2) (fun _ _ _ => True) (fun s w q x l =>
    (s.startPkt w q l id).askSweep w x.ctx (leWord l 0x10 2) q x.nextNo) ∧
  (∀ (s : State) w c i q no r, s.record? w c i = some r → s.askSweep w c i q no =
    if r.encrypt = true ∨ s.confidential w = true then s.updWorld w fun d => { d with sweeps := d.sweeps ++ [(c, i, some (q, no))] }
    else s.completePkt w q no 0#8 0#8) ∧
  (∀ h n image y (s1 s2 : State), Acts .loadPair (fun l => pktOp l = 9 ∧ pktWord l 0x18 ≠ 0#64) (fun s x l =>
      s.pairBusy s.args.world (pktByte l 0x10) = false ∧ s.devRead s.args.world x.ctx (pktWord l 0x18) 32 = (.ok h, s1) ∧
      imageLens h = some n ∧
      s1.devRead s.args.world x.ctx (pktWord l 0x18) (32 + 4 * n.1 + n.2.1 + 4 * n.2.2.1 + n.2.2.2) = (.ok image, s2) ∧
      verifyImage image n = .ok y ∧ s2.pairBusy s.args.world (pktByte l 0x10) = false)
    fun _ w q _ l => completed (s2.updSlot w (pktByte l 0x10) fun _ => y) w q l 0#8 0#8) ∧
  Acts .unloadPair (fun l => pktOp l = 9 ∧ pktWord l 0x18 = 0#64) (fun s _ l => s.pairBusy s.args.world (pktByte l 0x10) = false)
    fun s w q _ l => completed (s.updSlot w (pktByte l 0x10) fun _ => {}) w q l 0#8 0#8

/-- Copies in flight: a piece is read from its source and written to its destination, a source that cannot be read spoils
the copy, and a copy none of whose pieces is left ends with its status, at its packet or for its warp's next cwait (R53,
R204, R424).
The model's choice in it: log entry 41. -/
def Obligations.CopiesLand : Prop :=
  (∀ (s : State) c src dst n rest bs s1 c1 s2, let id := s.args.id
    AMap.get? s.copies id = some c → c.takePiece s.drawWord.1.toNat = some ((src, dst, n), rest) →
    s.drawWord.2.pieceRead id c src n = (.data bs false, s1) → s1.pieceWrite c dst bs false = some (c1, s2) →
    let s3 := s2.landSlots c dst false
    exec .copyPieceLand s = .next { s3 with copies := AMap.set s3.copies id { c1 with
      pieces := rest.pieces, bulk := rest.bulk
      landed := if n = 4 ∧ dst.toNat % 4 = 0 then c.landed ++ [dst] else c.landed } }) ∧
  (∀ (s : State) c src dst n rest code s1, let id := s.args.id
    AMap.get? s.copies id = some c → c.takePiece s.drawWord.1.toNat = some ((src, dst, n), rest) →
    s.drawWord.2.pieceRead id c src n = (.failed code, s1) → exec .copyPieceLand s = .next (s1.failCopy id c code src)) ∧
  (∀ (s : State) c, let id := s.args.id
    AMap.get? s.copies id = some c → c.pieces = [] → c.bulk = [] → c.pkt = none → (c.slotCopy = true ∨ c.status = 0#8) →
    exec .copyComplete s = .next { s with copies := AMap.erase s.copies id }) ∧
  (∀ (s : State) c, let id := s.args.id
    AMap.get? s.copies id = some c → c.pieces = [] → c.bulk = [] → c.pkt = none → c.slotCopy = false → c.status ≠ 0#8 →
    let st : CopyStat := { thread := c.thread, batch := c.batch, order := c.order, code := c.status, addr := c.errAddr }
    exec .copyComplete s = .next ({ s with copies := AMap.erase s.copies id }.updWarp c.block c.warp fun x =>
      { x with copyStats := x.copyStats ++ [st] })) ∧
  ∀ (s : State) c q no, let id := s.args.id
    AMap.get? s.copies id = some c → c.pieces = [] → c.bulk = [] → c.pkt = some (q, no) →
    exec .copyComplete s = .next ({ s with copies := AMap.erase s.copies id }.completePkt c.world q no
      (if c.status = 0#8 then 0#8 else 4#8) c.status)

/-! ## Fetch, encoding, steps, reset -/

/-- A step runs what its agent decodes: the instruction of a split or of a sequencer, the word of a heddle run, the input
that has arrived first, or a step of the device itself; then time passes and an agent able to move is next (R333, R351,
R352). A line that fails its checks, and a word that is no instruction, give their fault; a parked split that only an event
releases passes its turn. Before a step that may order what agents have done, no write can be missed any more.
The model's choices in it: log entries 2, 3, 11 and 18. -/
def Obligations.StepRunsDecoded : Prop :=
  (∀ s e l s1 i, Fetches s e l s1 → e.split.park.passes = false →
    decodeLane (l.word (wordIndex e.pc)) (l.word (wordIndex e.pc + 1)) = .ok i → Follows (exec i (s.ordered i)) (step s)) ∧
  (∀ s e l s1 x, Fetches s e l s1 → e.split.park.passes = false →
    decodeLane (l.word (wordIndex e.pc)) (l.word (wordIndex e.pc + 1)) = .error x →
    Follows (.next (s1.laneFault e.b e.w e.pc { code := if x = .badOpcode then 0x01#8 else 0x02#8 })) (step s)) ∧
  (∀ (s : State) e f s1, s.issuer? = some e → e.split.park.passes = false → s.issueLine e = (.error f, s1) →
    Follows (.next (s1.laneFault e.b e.w e.pc f)) (step s)) ∧
  (∀ (s : State) e, s.issuer? = some e → e.split.park.passes = true → Follows (.next (s.turnPassed e.b e.w e.sp)) (step s)) ∧
  (∀ s e l s1 i, WIssues s e l s1 → decodeWeft (l.word (wordIndex e.wf.pc)) = .ok i → i.wf = true →
    Follows (exec i (s.ordered i)) (step s)) ∧
  (∀ s e l s1, WIssues s e l s1 →
    (∀ i, decodeWeft (l.word (wordIndex e.wf.pc)) = .ok i → i.wf = false) →
    Follows (.next (s1.weftFault e.b e.wf.pc { code := 0x1c#8, detail := 1#8 })) (step s)) ∧
  (∀ (s : State) b k x f s1, s.weftIssuer? = some (b, k, x) → s.weftLine k x = (.error f, s1) →
    Follows (.next (s1.weftFault b x.pc f)) (step s)) ∧
  (∀ (s : State) r w i, s.focus = .heddle → s.heddle = some r → r.code[r.pc]? = some w → decodeTrans w = .ok i →
    Follows (exec i (s.ordered i)) (step s)) ∧
  (∀ (s : State) r, s.focus = .heddle → s.heddle = some r → (∀ w i, r.code[r.pc]? = some w → decodeTrans w ≠ .ok i) →
    Follows (.next { s with heddle := some { r with fin := .error false } }) (step s)) ∧
  (∀ (s : State) i a rest, s.focus = .input → s.inbox = (i, a) :: rest →
    Follows (exec i (State.ordered { s with args := a, inbox := rest } i)) (step s)) ∧
  (∀ (s : State) i a, s.focus = .internal i a → Follows (exec i (State.ordered { s with args := s.physical i a } i)) (step s)) ∧
  (∀ (s : State) k r, s.focus = .swap k → s.heddles[k]? = some r →
    Follows (.next { s with heddle := some r, heddles := s.heddles.eraseIdx k ++ s.heddle.toList }) (step s)) ∧
  (∀ (s : State) i, { s with recent := (s.ordered i).recent } = s.ordered i ∧ (s.recent = [] → s.ordered i = s)) ∧
  ∀ (s : State) u, s.focus = .upset u → Follows (.next (s.upset u)) (step s)

/-- The encoder and the decoders agree: every well-formed instruction that has words is the one decoded from the words that
encode it, with every operand at every value; where a lane instruction has one word, whatever word follows; and its length
is the one that its first word gives (R54, R332, R337, R341 to R344, R352). A step of the device has no words.
The model's choices in it: log entries 16 and 72. -/
def Obligations.DecodeOfEncode : Prop :=
  ∀ i : Instr, i.wf = true → match i.set with
    | none => encode i = none
    | some .lane => ∃ w ws, encode i = some (w :: ws) ∧ ws.length + 1 = laneLen w ∧
        ∀ next, decodeLane w (ws.headD next) = .ok i
    | some .weft => ∃ w, encode i = some [w] ∧ decodeWeft w = .ok i
    | some .trans => ∃ w, encode i = some [w] ∧ decodeTrans w = .ok i

/-- Every step of a heddle keeps its run within its bounds: whatever the word at its pc, the run keeps its sixteen registers,
reads no bit past its input, writes none past its output and makes at most 4,096 steps; it stays a run of the same
transducer over the same input and tables, and a step of it changes nothing else of the machine but the time (R42, R43). -/
def Obligations.HeddleRunsStayBounded : Prop :=
  (∀ (s t : State) r, s.focus = .heddle → s.heddle = some r → Bounded r → step s = .next t →
    ∃ r' : HRun, t.heddle = some r' ∧ Bounded r' ∧ SameRun r r' ∧
      { s with heddle := t.heddle, tick := t.tick, now := t.now, cycles := t.cycles, focus := t.focus } = t) ∧
  ∀ code tab inp cap, Bounded (HRun.start code tab inp cap)

/-- What the spec gives for reset: BOOT_STATUS and the management registers are 0, the cap is 3,600 W, the drain limit
200 µs, the clock 1,500 MHz; every quarter belongs to world 0 and every metadata entry is 0; no interface, queue, block,
copy or run is there, and memory is in its canonical form. An interface starts with its registers at 0, a warp's split with
the mood 7 (R23, R25, R26, R97, R103, R147, R150, R153).
The model's choices in it: log entries 13 and 14. -/
def Obligations.ResetHolds : Prop :=
  (State.reset.bootReady = false ∧ State.reset.bootFailed = false ∧ State.reset.bootCause = 0#8 ∧ State.reset.bootStage = 0) ∧
  (State.reset.mcAddr = 0#64 ∧ State.reset.mcBusy = false ∧ State.reset.mcDone = 0#32 ∧ State.reset.mcResult = none) ∧
  (State.reset.capW = 3600 ∧ State.reset.drainLimit = 200 ∧ State.reset.clockMHz = 1500) ∧
  ((∀ q, (AMap.getD State.reset.quarters q {}).owner = 0) ∧ (∀ b, AMap.getD State.reset.metas b 0#64 = 0#64) ∧ Memory.wf State.reset.mem = true ∧
    Memory.wf State.reset.hostMem = true) ∧
  (State.reset.worlds = [] ∧ State.reset.blocks = [] ∧ State.reset.launches = [] ∧ State.reset.graphs = [] ∧
    State.reset.copies = [] ∧ State.reset.heddle = none ∧ State.reset.lines = [] ∧ State.reset.inbox = []) ∧
  (∀ x : World, x = {} → x.tstate = .unlocked ∧ x.ecause = 0 ∧ x.conf = false ∧ x.qtbase = 0#64 ∧ x.evlog = 0#64 ∧
    x.bbbase = 0#64 ∧ x.bbslots = 0 ∧ x.featDrv = 0#128 ∧ x.policyAddr = 0#64 ∧ x.presult = 0 ∧ x.popen = 0#32 ∧
    x.bbEpoch = 0#32 ∧ x.bbState = 0 ∧ x.bbDseq = 0#64 ∧ x.bbLostFirst = 0#64 ∧ x.bbLostLast = 0#64) ∧
  (∀ q : Queue, q = {} → q.ring = 0#64 ∧ q.qsig = 0#64 ∧ q.log2n = 0 ∧ q.ctx = 0 ∧ q.ridx = 0 ∧ q.didx = 0 ∧
    q.phase = false ∧ q.cause = 0#8 ∧ q.st = .disabled) ∧
  ∀ p : Split, p = {} → p.mood = 7#32

/-- Words that the spec writes out decode to the instructions that it names beside them (R349 to R354, R54): of the lane
set from TURNSTILE and the rules' own examples, of the weft stream from GATESCAN, and of the transducers from the layout. -/
def Obligations.WordsDecode : Prop :=
  (∀ w1, decodeLane 0x00000000#32 w1 = .ok .nop ∧ decodeLane 0x0d010100#32 w1 = .ok (.sread 0x01#8 0x01#8) ∧
    decodeLane 0x458281f0#32 w1 = .ok (.ld 5#3 0x82#8 0x81#8 15#4 0#4) ∧
    decodeLane 0x38e100c0#32 w1 = .ok (.cmpEq 0xe1#8 0x00#8 0xc0#8 0#32) ∧
    decodeLane 0x200701c1#32 w1 = .ok (.add 0x07#8 0x01#8 0xc1#8 0#32) ∧
    decodeLane 0x02200003#32 w1 = .ok (.brp 0#1 2#3 3#20) ∧ decodeLane 0x010ffffb#32 w1 = .ok (.br 0xffffb#20) ∧
    decodeLane 0x64010cf4#32 w1 = .ok (.st 4#3 0x01#8 0x0c#8 15#4 4#4) ∧ decodeLane 0x08000000#32 w1 = .ok .exit) ∧
  (decodeLane 0xb7060480#32 0x07000500#32 = .ok (.atomCas 0x06#8 0x04#8 0x80#8 0x07000500#32) ∧
    decodeLane 0x6c8004f0#32 0x00000520#32 = .ok (.stXform 4#3 0x80#8 0x04#8 15#4 0#4 0x00000520#32) ∧
    decodeLane 0x250402ff#32 0x00020496#32 = .ok (.madw 0x04#8 0x02#8 0xff#8 0x96#8 516#24) ∧
    decodeLane 0x89e105ff#32 0x00000042#32 = .ok (.fclass 0xe1#8 0x05#8 0xff#8 0x42#32)) ∧
  (decodeWeft 0x32826c00#32 = .ok (.xaddShift 10#4 0#4 9#4 11#4) ∧ decodeWeft 0x2eec0004#32 = .ok (.xaddImm 11#4 11#4 4#18) ∧
    decodeWeft 0x060ac120#32 = .ok (.mma 2#2 0#1 0#1 0#2 10#4 12#4 1#4 2#4) ∧
    decodeWeft 0x0800dd00#32 = .ok (.scaccU 0#2 0#4 13#4 13#4) ∧ decodeWeft 0x1300be00#32 = .ok (.accSt 3#2 0#2 0#4 11#4 14#4) ∧
    decodeWeft 0x3c000000#32 = .ok .wend) ∧
  decodeTrans 0x60000000#32 = .ok .tend ∧ decodeTrans 0x0c8c2005#32 = .ok (.tadd 2#4 3#4 0#4 1#1 5#13)
end

