-- ==== Sys2Proof/Laws/Map.lean ====
section
/-! SUPPORT. What the operations on number-keyed maps (Sys2Proof/Word.lean) do, said once for each. -/

namespace Sys2Proof.AMap
variable {α β : Type}

@[simp] theorem get?_nil (i : Nat) : get? ([] : AMap α) i = none := rfl

theorem get?_cons (k : Nat) (v : α) (m : AMap α) (i : Nat) :
    get? ((k, v) :: m) i = if k = i then some v else get? m i := rfl

@[simp] theorem get?_set_self (m : AMap α) (i : Nat) (v : α) : get? (set m i v) i = some v := by
  induction m with
  | nil => simp [set, get?]
  | cons p m ih =>
    obtain ⟨k, u⟩ := p
    rw [set]
    split
    · simp [get?]
    · split
      · simp [get?]
      · have : k ≠ i := by omega
        simp [get?, this, ih]

@[simp] theorem get?_set_ne (m : AMap α) {i j : Nat} (v : α) (h : j ≠ i) : get? (set m i v) j = get? m j := by
  induction m with
  | nil => simp [set, get?, Ne.symm h]
  | cons p m ih =>
    obtain ⟨k, u⟩ := p
    rw [set]
    split
    · simp [get?, Ne.symm h]
    · split
      · subst i; simp [get?, Ne.symm h]
      · simp [get?, ih]

theorem get?_set (m : AMap α) (i j : Nat) (v : α) :
    get? (set m i v) j = if j = i then some v else get? m j := by
  split
  · subst j; simp
  · simp [*]

theorem get?_modify (m : AMap α) (i j : Nat) (f : α → α) :
    get? (modify m i f) j = if j = i then (get? m i).map f else get? m j := by
  unfold modify
  cases h : get? m i with
  | none => by_cases hj : j = i <;> simp [hj, h]
  | some v => simp [get?_set]

@[simp] theorem get?_modify_self (m : AMap α) (i : Nat) (f : α → α) : get? (modify m i f) i = (get? m i).map f := by
  simp [get?_modify]

@[simp] theorem get?_modify_ne (m : AMap α) {i j : Nat} (f : α → α) (h : j ≠ i) :
    get? (modify m i f) j = get? m j := by
  simp [get?_modify, h]

theorem get?_erase_ne (m : AMap α) {i j : Nat} (h : j ≠ i) : get? (erase m i) j = get? m j := by
  induction m with
  | nil => rfl
  | cons p m ih =>
    obtain ⟨k, u⟩ := p
    rw [erase]
    split
    · subst i; simp [get?, Ne.symm h]
    · simp [get?, ih]

theorem get?_mapVals (m : AMap α) (f : α → β) (i : Nat) : get? (mapVals m f) i = (get? m i).map f := by
  induction m with
  | nil => rfl
  | cons p m ih =>
    obtain ⟨k, u⟩ := p
    by_cases h : k = i
    · simp [mapVals, get?, h]
    · have ih' : get? (m.map fun p => (p.1, f p.2)) i = (get? m i).map f := ih
      simp [mapVals, get?, h, ih']

/-- A filter on keys keeps every entry whose key it lets through. -/
theorem get?_filter_key (m : AMap α) (q : Nat → Bool) (i : Nat) (h : q i = true) :
    get? (m.filter fun p => q p.1) i = get? m i := by
  induction m with
  | nil => rfl
  | cons p m ih =>
    obtain ⟨k, u⟩ := p
    by_cases hk : k = i
    · subst k; simp [h, get?]
    · by_cases hq : q k = true
      · simp [hq, get?, hk, ih]
      · simp [hq, get?, hk, ih]

theorem get?_mem {m : AMap α} {i : Nat} {v : α} (h : get? m i = some v) : (i, v) ∈ m := by
  induction m with
  | nil => simp at h
  | cons p m ih =>
    obtain ⟨k, u⟩ := p
    by_cases hk : k = i
    · subst k; simp [get?] at h; simp [h]
    · simp only [get?, hk, if_false] at h; simp [ih h]

/-- `fresh` lies above every key. -/
theorem lt_fresh {m : AMap α} {p : Nat × α} (h : p ∈ m) : p.1 < fresh m := by
  have step : ∀ (l : AMap α) (a : Nat), a ≤ l.foldl (fun acc p => max acc (p.1 + 1)) a := by
    intro l
    induction l with
    | nil => intro a; simp
    | cons q l ih => intro a; exact le_trans (le_max_left _ _) (ih _)
  have main : ∀ (l : AMap α) (a : Nat), p ∈ l → p.1 < l.foldl (fun acc p => max acc (p.1 + 1)) a := by
    intro l
    induction l with
    | nil => intro a hp; simp at hp
    | cons q l ih =>
      intro a hp
      rcases List.mem_cons.mp hp with rfl | hp
      · exact lt_of_lt_of_le (Nat.lt_succ_self _) (le_trans (le_max_right a (p.1 + 1)) (step l _))
      · exact ih _ hp
  exact main m 1 h

theorem get?_fresh (m : AMap α) : get? m (fresh m) = none := by
  cases h : get? m (fresh m) with
  | none => rfl
  | some v => exact absurd (lt_fresh (get?_mem h)) (lt_irrefl _)

end Sys2Proof.AMap
end

