-- ==== Sys2Proof/Laws/State.lean ====
section
/-! SUPPORT. Each update of the state, field by field: what it leaves as it was. -/

namespace Sys2Proof.Machine.State

/-! ### updWorld -/

@[simp] theorem updWorld_focus (s : State) (w : Nat) (f : World → World) : (s.updWorld w f).focus = s.focus := rfl
@[simp] theorem updWorld_args (s : State) (w : Nat) (f : World → World) : (s.updWorld w f).args = s.args := rfl
@[simp] theorem updWorld_inbox (s : State) (w : Nat) (f : World → World) : (s.updWorld w f).inbox = s.inbox := rfl
@[simp] theorem updWorld_outbox (s : State) (w : Nat) (f : World → World) : (s.updWorld w f).outbox = s.outbox := rfl
@[simp] theorem updWorld_tick (s : State) (w : Nat) (f : World → World) : (s.updWorld w f).tick = s.tick := rfl
@[simp] theorem updWorld_freeCnt (s : State) (w : Nat) (f : World → World) : (s.updWorld w f).freeCnt = s.freeCnt := rfl
@[simp] theorem updWorld_bootReady (s : State) (w : Nat) (f : World → World) : (s.updWorld w f).bootReady = s.bootReady := rfl
@[simp] theorem updWorld_bootFailed (s : State) (w : Nat) (f : World → World) : (s.updWorld w f).bootFailed = s.bootFailed := rfl
@[simp] theorem updWorld_bootCause (s : State) (w : Nat) (f : World → World) : (s.updWorld w f).bootCause = s.bootCause := rfl
@[simp] theorem updWorld_bootStage (s : State) (w : Nat) (f : World → World) : (s.updWorld w f).bootStage = s.bootStage := rfl
@[simp] theorem updWorld_clockMHz (s : State) (w : Nat) (f : World → World) : (s.updWorld w f).clockMHz = s.clockMHz := rfl
@[simp] theorem updWorld_capW (s : State) (w : Nat) (f : World → World) : (s.updWorld w f).capW = s.capW := rfl
@[simp] theorem updWorld_coolUs (s : State) (w : Nat) (f : World → World) : (s.updWorld w f).coolUs = s.coolUs := rfl
@[simp] theorem updWorld_drainLimit (s : State) (w : Nat) (f : World → World) : (s.updWorld w f).drainLimit = s.drainLimit := rfl
@[simp] theorem updWorld_now (s : State) (w : Nat) (f : World → World) : (s.updWorld w f).now = s.now := rfl
@[simp] theorem updWorld_cycles (s : State) (w : Nat) (f : World → World) : (s.updWorld w f).cycles = s.cycles := rfl
@[simp] theorem updWorld_fns (s : State) (w : Nat) (f : World → World) : (s.updWorld w f).fns = s.fns := rfl
@[simp] theorem updWorld_mcAddr (s : State) (w : Nat) (f : World → World) : (s.updWorld w f).mcAddr = s.mcAddr := rfl
@[simp] theorem updWorld_mcAt (s : State) (w : Nat) (f : World → World) : (s.updWorld w f).mcAt = s.mcAt := rfl
@[simp] theorem updWorld_mcCmd (s : State) (w : Nat) (f : World → World) : (s.updWorld w f).mcCmd = s.mcCmd := rfl
@[simp] theorem updWorld_mcBusy (s : State) (w : Nat) (f : World → World) : (s.updWorld w f).mcBusy = s.mcBusy := rfl
@[simp] theorem updWorld_mcDone (s : State) (w : Nat) (f : World → World) : (s.updWorld w f).mcDone = s.mcDone := rfl
@[simp] theorem updWorld_mcResult (s : State) (w : Nat) (f : World → World) : (s.updWorld w f).mcResult = s.mcResult := rfl
@[simp] theorem updWorld_mem (s : State) (w : Nat) (f : World → World) : (s.updWorld w f).mem = s.mem := rfl
@[simp] theorem updWorld_metas (s : State) (w : Nat) (f : World → World) : (s.updWorld w f).metas = s.metas := rfl
@[simp] theorem updWorld_fixMetas (s : State) (w : Nat) (f : World → World) : (s.updWorld w f).fixMetas = s.fixMetas := rfl
@[simp] theorem updWorld_lines (s : State) (w : Nat) (f : World → World) : (s.updWorld w f).lines = s.lines := rfl
@[simp] theorem updWorld_ports (s : State) (w : Nat) (f : World → World) : (s.updWorld w f).ports = s.ports := rfl
@[simp] theorem updWorld_heddle (s : State) (w : Nat) (f : World → World) : (s.updWorld w f).heddle = s.heddle := rfl
@[simp] theorem updWorld_heddles (s : State) (w : Nat) (f : World → World) : (s.updWorld w f).heddles = s.heddles := rfl
@[simp] theorem updWorld_runq (s : State) (w : Nat) (f : World → World) : (s.updWorld w f).runq = s.runq := rfl
@[simp] theorem updWorld_unref (s : State) (w : Nat) (f : World → World) : (s.updWorld w f).unref = s.unref := rfl
@[simp] theorem updWorld_sram (s : State) (w : Nat) (f : World → World) : (s.updWorld w f).sram = s.sram := rfl
@[simp] theorem updWorld_icache (s : State) (w : Nat) (f : World → World) : (s.updWorld w f).icache = s.icache := rfl
@[simp] theorem updWorld_hostMem (s : State) (w : Nat) (f : World → World) : (s.updWorld w f).hostMem = s.hostMem := rfl
@[simp] theorem updWorld_recent (s : State) (w : Nat) (f : World → World) : (s.updWorld w f).recent = s.recent := rfl
@[simp] theorem updWorld_sysNum (s : State) (w : Nat) (f : World → World) : (s.updWorld w f).sysNum = s.sysNum := rfl
@[simp] theorem updWorld_links (s : State) (w : Nat) (f : World → World) : (s.updWorld w f).links = s.links := rfl
@[simp] theorem updWorld_remote (s : State) (w : Nat) (f : World → World) : (s.updWorld w f).remote = s.remote := rfl
@[simp] theorem updWorld_planes (s : State) (w : Nat) (f : World → World) : (s.updWorld w f).planes = s.planes := rfl
@[simp] theorem updWorld_colls (s : State) (w : Nat) (f : World → World) : (s.updWorld w f).colls = s.colls := rfl
@[simp] theorem updWorld_sessions (s : State) (w : Nat) (f : World → World) : (s.updWorld w f).sessions = s.sessions := rfl
@[simp] theorem updWorld_ideKeys (s : State) (w : Nat) (f : World → World) : (s.updWorld w f).ideKeys = s.ideKeys := rfl
@[simp] theorem updWorld_migKeys (s : State) (w : Nat) (f : World → World) : (s.updWorld w f).migKeys = s.migKeys := rfl
@[simp] theorem updWorld_images (s : State) (w : Nat) (f : World → World) : (s.updWorld w f).images = s.images := rfl
@[simp] theorem updWorld_gone (s : State) (w : Nat) (f : World → World) : (s.updWorld w f).gone = s.gone := rfl
@[simp] theorem updWorld_engines (s : State) (w : Nat) (f : World → World) : (s.updWorld w f).engines = s.engines := rfl
@[simp] theorem updWorld_phases (s : State) (w : Nat) (f : World → World) : (s.updWorld w f).phases = s.phases := rfl
@[simp] theorem updWorld_launches (s : State) (w : Nat) (f : World → World) : (s.updWorld w f).launches = s.launches := rfl
@[simp] theorem updWorld_graphs (s : State) (w : Nat) (f : World → World) : (s.updWorld w f).graphs = s.graphs := rfl
@[simp] theorem updWorld_readyBlks (s : State) (w : Nat) (f : World → World) : (s.updWorld w f).readyBlks = s.readyBlks := rfl
@[simp] theorem updWorld_epochAt (s : State) (w : Nat) (f : World → World) : (s.updWorld w f).epochAt = s.epochAt := rfl
@[simp] theorem updWorld_quarters (s : State) (w : Nat) (f : World → World) : (s.updWorld w f).quarters = s.quarters := rfl
@[simp] theorem updWorld_blocks (s : State) (w : Nat) (f : World → World) : (s.updWorld w f).blocks = s.blocks := rfl
@[simp] theorem updWorld_copies (s : State) (w : Nat) (f : World → World) : (s.updWorld w f).copies = s.copies := rfl

/-! ### updBlock -/

@[simp] theorem updBlock_focus (s : State) (b : Nat) (f : Block → Block) : (s.updBlock b f).focus = s.focus := rfl
@[simp] theorem updBlock_args (s : State) (b : Nat) (f : Block → Block) : (s.updBlock b f).args = s.args := rfl
@[simp] theorem updBlock_inbox (s : State) (b : Nat) (f : Block → Block) : (s.updBlock b f).inbox = s.inbox := rfl
@[simp] theorem updBlock_outbox (s : State) (b : Nat) (f : Block → Block) : (s.updBlock b f).outbox = s.outbox := rfl
@[simp] theorem updBlock_tick (s : State) (b : Nat) (f : Block → Block) : (s.updBlock b f).tick = s.tick := rfl
@[simp] theorem updBlock_freeCnt (s : State) (b : Nat) (f : Block → Block) : (s.updBlock b f).freeCnt = s.freeCnt := rfl
@[simp] theorem updBlock_bootReady (s : State) (b : Nat) (f : Block → Block) : (s.updBlock b f).bootReady = s.bootReady := rfl
@[simp] theorem updBlock_bootFailed (s : State) (b : Nat) (f : Block → Block) : (s.updBlock b f).bootFailed = s.bootFailed := rfl
@[simp] theorem updBlock_bootCause (s : State) (b : Nat) (f : Block → Block) : (s.updBlock b f).bootCause = s.bootCause := rfl
@[simp] theorem updBlock_bootStage (s : State) (b : Nat) (f : Block → Block) : (s.updBlock b f).bootStage = s.bootStage := rfl
@[simp] theorem updBlock_clockMHz (s : State) (b : Nat) (f : Block → Block) : (s.updBlock b f).clockMHz = s.clockMHz := rfl
@[simp] theorem updBlock_capW (s : State) (b : Nat) (f : Block → Block) : (s.updBlock b f).capW = s.capW := rfl
@[simp] theorem updBlock_coolUs (s : State) (b : Nat) (f : Block → Block) : (s.updBlock b f).coolUs = s.coolUs := rfl
@[simp] theorem updBlock_drainLimit (s : State) (b : Nat) (f : Block → Block) : (s.updBlock b f).drainLimit = s.drainLimit := rfl
@[simp] theorem updBlock_now (s : State) (b : Nat) (f : Block → Block) : (s.updBlock b f).now = s.now := rfl
@[simp] theorem updBlock_cycles (s : State) (b : Nat) (f : Block → Block) : (s.updBlock b f).cycles = s.cycles := rfl
@[simp] theorem updBlock_fns (s : State) (b : Nat) (f : Block → Block) : (s.updBlock b f).fns = s.fns := rfl
@[simp] theorem updBlock_mcAddr (s : State) (b : Nat) (f : Block → Block) : (s.updBlock b f).mcAddr = s.mcAddr := rfl
@[simp] theorem updBlock_mcAt (s : State) (b : Nat) (f : Block → Block) : (s.updBlock b f).mcAt = s.mcAt := rfl
@[simp] theorem updBlock_mcCmd (s : State) (b : Nat) (f : Block → Block) : (s.updBlock b f).mcCmd = s.mcCmd := rfl
@[simp] theorem updBlock_mcBusy (s : State) (b : Nat) (f : Block → Block) : (s.updBlock b f).mcBusy = s.mcBusy := rfl
@[simp] theorem updBlock_mcDone (s : State) (b : Nat) (f : Block → Block) : (s.updBlock b f).mcDone = s.mcDone := rfl
@[simp] theorem updBlock_mcResult (s : State) (b : Nat) (f : Block → Block) : (s.updBlock b f).mcResult = s.mcResult := rfl
@[simp] theorem updBlock_mem (s : State) (b : Nat) (f : Block → Block) : (s.updBlock b f).mem = s.mem := rfl
@[simp] theorem updBlock_metas (s : State) (b : Nat) (f : Block → Block) : (s.updBlock b f).metas = s.metas := rfl
@[simp] theorem updBlock_fixMetas (s : State) (b : Nat) (f : Block → Block) : (s.updBlock b f).fixMetas = s.fixMetas := rfl
@[simp] theorem updBlock_lines (s : State) (b : Nat) (f : Block → Block) : (s.updBlock b f).lines = s.lines := rfl
@[simp] theorem updBlock_ports (s : State) (b : Nat) (f : Block → Block) : (s.updBlock b f).ports = s.ports := rfl
@[simp] theorem updBlock_heddle (s : State) (b : Nat) (f : Block → Block) : (s.updBlock b f).heddle = s.heddle := rfl
@[simp] theorem updBlock_heddles (s : State) (b : Nat) (f : Block → Block) : (s.updBlock b f).heddles = s.heddles := rfl
@[simp] theorem updBlock_runq (s : State) (b : Nat) (f : Block → Block) : (s.updBlock b f).runq = s.runq := rfl
@[simp] theorem updBlock_unref (s : State) (b : Nat) (f : Block → Block) : (s.updBlock b f).unref = s.unref := rfl
@[simp] theorem updBlock_sram (s : State) (b : Nat) (f : Block → Block) : (s.updBlock b f).sram = s.sram := rfl
@[simp] theorem updBlock_icache (s : State) (b : Nat) (f : Block → Block) : (s.updBlock b f).icache = s.icache := rfl
@[simp] theorem updBlock_hostMem (s : State) (b : Nat) (f : Block → Block) : (s.updBlock b f).hostMem = s.hostMem := rfl
@[simp] theorem updBlock_recent (s : State) (b : Nat) (f : Block → Block) : (s.updBlock b f).recent = s.recent := rfl
@[simp] theorem updBlock_sysNum (s : State) (b : Nat) (f : Block → Block) : (s.updBlock b f).sysNum = s.sysNum := rfl
@[simp] theorem updBlock_links (s : State) (b : Nat) (f : Block → Block) : (s.updBlock b f).links = s.links := rfl
@[simp] theorem updBlock_remote (s : State) (b : Nat) (f : Block → Block) : (s.updBlock b f).remote = s.remote := rfl
@[simp] theorem updBlock_planes (s : State) (b : Nat) (f : Block → Block) : (s.updBlock b f).planes = s.planes := rfl
@[simp] theorem updBlock_colls (s : State) (b : Nat) (f : Block → Block) : (s.updBlock b f).colls = s.colls := rfl
@[simp] theorem updBlock_sessions (s : State) (b : Nat) (f : Block → Block) : (s.updBlock b f).sessions = s.sessions := rfl
@[simp] theorem updBlock_ideKeys (s : State) (b : Nat) (f : Block → Block) : (s.updBlock b f).ideKeys = s.ideKeys := rfl
@[simp] theorem updBlock_migKeys (s : State) (b : Nat) (f : Block → Block) : (s.updBlock b f).migKeys = s.migKeys := rfl
@[simp] theorem updBlock_images (s : State) (b : Nat) (f : Block → Block) : (s.updBlock b f).images = s.images := rfl
@[simp] theorem updBlock_gone (s : State) (b : Nat) (f : Block → Block) : (s.updBlock b f).gone = s.gone := rfl
@[simp] theorem updBlock_worlds (s : State) (b : Nat) (f : Block → Block) : (s.updBlock b f).worlds = s.worlds := rfl
@[simp] theorem updBlock_engines (s : State) (b : Nat) (f : Block → Block) : (s.updBlock b f).engines = s.engines := rfl
@[simp] theorem updBlock_phases (s : State) (b : Nat) (f : Block → Block) : (s.updBlock b f).phases = s.phases := rfl
@[simp] theorem updBlock_launches (s : State) (b : Nat) (f : Block → Block) : (s.updBlock b f).launches = s.launches := rfl
@[simp] theorem updBlock_graphs (s : State) (b : Nat) (f : Block → Block) : (s.updBlock b f).graphs = s.graphs := rfl
@[simp] theorem updBlock_readyBlks (s : State) (b : Nat) (f : Block → Block) : (s.updBlock b f).readyBlks = s.readyBlks := rfl
@[simp] theorem updBlock_epochAt (s : State) (b : Nat) (f : Block → Block) : (s.updBlock b f).epochAt = s.epochAt := rfl
@[simp] theorem updBlock_quarters (s : State) (b : Nat) (f : Block → Block) : (s.updBlock b f).quarters = s.quarters := rfl
@[simp] theorem updBlock_copies (s : State) (b : Nat) (f : Block → Block) : (s.updBlock b f).copies = s.copies := rfl

/-! ### updWarp -/

@[simp] theorem updWarp_focus (s : State) (b w : Nat) (f : Warp → Warp) : (s.updWarp b w f).focus = s.focus := rfl
@[simp] theorem updWarp_args (s : State) (b w : Nat) (f : Warp → Warp) : (s.updWarp b w f).args = s.args := rfl
@[simp] theorem updWarp_inbox (s : State) (b w : Nat) (f : Warp → Warp) : (s.updWarp b w f).inbox = s.inbox := rfl
@[simp] theorem updWarp_outbox (s : State) (b w : Nat) (f : Warp → Warp) : (s.updWarp b w f).outbox = s.outbox := rfl
@[simp] theorem updWarp_tick (s : State) (b w : Nat) (f : Warp → Warp) : (s.updWarp b w f).tick = s.tick := rfl
@[simp] theorem updWarp_freeCnt (s : State) (b w : Nat) (f : Warp → Warp) : (s.updWarp b w f).freeCnt = s.freeCnt := rfl
@[simp] theorem updWarp_bootReady (s : State) (b w : Nat) (f : Warp → Warp) : (s.updWarp b w f).bootReady = s.bootReady := rfl
@[simp] theorem updWarp_bootFailed (s : State) (b w : Nat) (f : Warp → Warp) : (s.updWarp b w f).bootFailed = s.bootFailed := rfl
@[simp] theorem updWarp_bootCause (s : State) (b w : Nat) (f : Warp → Warp) : (s.updWarp b w f).bootCause = s.bootCause := rfl
@[simp] theorem updWarp_bootStage (s : State) (b w : Nat) (f : Warp → Warp) : (s.updWarp b w f).bootStage = s.bootStage := rfl
@[simp] theorem updWarp_clockMHz (s : State) (b w : Nat) (f : Warp → Warp) : (s.updWarp b w f).clockMHz = s.clockMHz := rfl
@[simp] theorem updWarp_capW (s : State) (b w : Nat) (f : Warp → Warp) : (s.updWarp b w f).capW = s.capW := rfl
@[simp] theorem updWarp_coolUs (s : State) (b w : Nat) (f : Warp → Warp) : (s.updWarp b w f).coolUs = s.coolUs := rfl
@[simp] theorem updWarp_drainLimit (s : State) (b w : Nat) (f : Warp → Warp) : (s.updWarp b w f).drainLimit = s.drainLimit := rfl
@[simp] theorem updWarp_now (s : State) (b w : Nat) (f : Warp → Warp) : (s.updWarp b w f).now = s.now := rfl
@[simp] theorem updWarp_cycles (s : State) (b w : Nat) (f : Warp → Warp) : (s.updWarp b w f).cycles = s.cycles := rfl
@[simp] theorem updWarp_fns (s : State) (b w : Nat) (f : Warp → Warp) : (s.updWarp b w f).fns = s.fns := rfl
@[simp] theorem updWarp_mcAddr (s : State) (b w : Nat) (f : Warp → Warp) : (s.updWarp b w f).mcAddr = s.mcAddr := rfl
@[simp] theorem updWarp_mcAt (s : State) (b w : Nat) (f : Warp → Warp) : (s.updWarp b w f).mcAt = s.mcAt := rfl
@[simp] theorem updWarp_mcCmd (s : State) (b w : Nat) (f : Warp → Warp) : (s.updWarp b w f).mcCmd = s.mcCmd := rfl
@[simp] theorem updWarp_mcBusy (s : State) (b w : Nat) (f : Warp → Warp) : (s.updWarp b w f).mcBusy = s.mcBusy := rfl
@[simp] theorem updWarp_mcDone (s : State) (b w : Nat) (f : Warp → Warp) : (s.updWarp b w f).mcDone = s.mcDone := rfl
@[simp] theorem updWarp_mcResult (s : State) (b w : Nat) (f : Warp → Warp) : (s.updWarp b w f).mcResult = s.mcResult := rfl
@[simp] theorem updWarp_mem (s : State) (b w : Nat) (f : Warp → Warp) : (s.updWarp b w f).mem = s.mem := rfl
@[simp] theorem updWarp_metas (s : State) (b w : Nat) (f : Warp → Warp) : (s.updWarp b w f).metas = s.metas := rfl
@[simp] theorem updWarp_fixMetas (s : State) (b w : Nat) (f : Warp → Warp) : (s.updWarp b w f).fixMetas = s.fixMetas := rfl
@[simp] theorem updWarp_lines (s : State) (b w : Nat) (f : Warp → Warp) : (s.updWarp b w f).lines = s.lines := rfl
@[simp] theorem updWarp_ports (s : State) (b w : Nat) (f : Warp → Warp) : (s.updWarp b w f).ports = s.ports := rfl
@[simp] theorem updWarp_heddle (s : State) (b w : Nat) (f : Warp → Warp) : (s.updWarp b w f).heddle = s.heddle := rfl
@[simp] theorem updWarp_heddles (s : State) (b w : Nat) (f : Warp → Warp) : (s.updWarp b w f).heddles = s.heddles := rfl
@[simp] theorem updWarp_runq (s : State) (b w : Nat) (f : Warp → Warp) : (s.updWarp b w f).runq = s.runq := rfl
@[simp] theorem updWarp_unref (s : State) (b w : Nat) (f : Warp → Warp) : (s.updWarp b w f).unref = s.unref := rfl
@[simp] theorem updWarp_sram (s : State) (b w : Nat) (f : Warp → Warp) : (s.updWarp b w f).sram = s.sram := rfl
@[simp] theorem updWarp_icache (s : State) (b w : Nat) (f : Warp → Warp) : (s.updWarp b w f).icache = s.icache := rfl
@[simp] theorem updWarp_hostMem (s : State) (b w : Nat) (f : Warp → Warp) : (s.updWarp b w f).hostMem = s.hostMem := rfl
@[simp] theorem updWarp_recent (s : State) (b w : Nat) (f : Warp → Warp) : (s.updWarp b w f).recent = s.recent := rfl
@[simp] theorem updWarp_sysNum (s : State) (b w : Nat) (f : Warp → Warp) : (s.updWarp b w f).sysNum = s.sysNum := rfl
@[simp] theorem updWarp_links (s : State) (b w : Nat) (f : Warp → Warp) : (s.updWarp b w f).links = s.links := rfl
@[simp] theorem updWarp_remote (s : State) (b w : Nat) (f : Warp → Warp) : (s.updWarp b w f).remote = s.remote := rfl
@[simp] theorem updWarp_planes (s : State) (b w : Nat) (f : Warp → Warp) : (s.updWarp b w f).planes = s.planes := rfl
@[simp] theorem updWarp_colls (s : State) (b w : Nat) (f : Warp → Warp) : (s.updWarp b w f).colls = s.colls := rfl
@[simp] theorem updWarp_sessions (s : State) (b w : Nat) (f : Warp → Warp) : (s.updWarp b w f).sessions = s.sessions := rfl
@[simp] theorem updWarp_ideKeys (s : State) (b w : Nat) (f : Warp → Warp) : (s.updWarp b w f).ideKeys = s.ideKeys := rfl
@[simp] theorem updWarp_migKeys (s : State) (b w : Nat) (f : Warp → Warp) : (s.updWarp b w f).migKeys = s.migKeys := rfl
@[simp] theorem updWarp_images (s : State) (b w : Nat) (f : Warp → Warp) : (s.updWarp b w f).images = s.images := rfl
@[simp] theorem updWarp_gone (s : State) (b w : Nat) (f : Warp → Warp) : (s.updWarp b w f).gone = s.gone := rfl
@[simp] theorem updWarp_worlds (s : State) (b w : Nat) (f : Warp → Warp) : (s.updWarp b w f).worlds = s.worlds := rfl
@[simp] theorem updWarp_engines (s : State) (b w : Nat) (f : Warp → Warp) : (s.updWarp b w f).engines = s.engines := rfl
@[simp] theorem updWarp_phases (s : State) (b w : Nat) (f : Warp → Warp) : (s.updWarp b w f).phases = s.phases := rfl
@[simp] theorem updWarp_launches (s : State) (b w : Nat) (f : Warp → Warp) : (s.updWarp b w f).launches = s.launches := rfl
@[simp] theorem updWarp_graphs (s : State) (b w : Nat) (f : Warp → Warp) : (s.updWarp b w f).graphs = s.graphs := rfl
@[simp] theorem updWarp_readyBlks (s : State) (b w : Nat) (f : Warp → Warp) : (s.updWarp b w f).readyBlks = s.readyBlks := rfl
@[simp] theorem updWarp_epochAt (s : State) (b w : Nat) (f : Warp → Warp) : (s.updWarp b w f).epochAt = s.epochAt := rfl
@[simp] theorem updWarp_quarters (s : State) (b w : Nat) (f : Warp → Warp) : (s.updWarp b w f).quarters = s.quarters := rfl
@[simp] theorem updWarp_copies (s : State) (b w : Nat) (f : Warp → Warp) : (s.updWarp b w f).copies = s.copies := rfl

/-! ### updQuarter -/

@[simp] theorem updQuarter_focus (s : State) (q : Nat) (f : Quarter → Quarter) : (s.updQuarter q f).focus = s.focus := rfl
@[simp] theorem updQuarter_args (s : State) (q : Nat) (f : Quarter → Quarter) : (s.updQuarter q f).args = s.args := rfl
@[simp] theorem updQuarter_inbox (s : State) (q : Nat) (f : Quarter → Quarter) : (s.updQuarter q f).inbox = s.inbox := rfl
@[simp] theorem updQuarter_outbox (s : State) (q : Nat) (f : Quarter → Quarter) : (s.updQuarter q f).outbox = s.outbox := rfl
@[simp] theorem updQuarter_tick (s : State) (q : Nat) (f : Quarter → Quarter) : (s.updQuarter q f).tick = s.tick := rfl
@[simp] theorem updQuarter_freeCnt (s : State) (q : Nat) (f : Quarter → Quarter) : (s.updQuarter q f).freeCnt = s.freeCnt := rfl
@[simp] theorem updQuarter_bootReady (s : State) (q : Nat) (f : Quarter → Quarter) : (s.updQuarter q f).bootReady = s.bootReady := rfl
@[simp] theorem updQuarter_bootFailed (s : State) (q : Nat) (f : Quarter → Quarter) : (s.updQuarter q f).bootFailed = s.bootFailed := rfl
@[simp] theorem updQuarter_bootCause (s : State) (q : Nat) (f : Quarter → Quarter) : (s.updQuarter q f).bootCause = s.bootCause := rfl
@[simp] theorem updQuarter_bootStage (s : State) (q : Nat) (f : Quarter → Quarter) : (s.updQuarter q f).bootStage = s.bootStage := rfl
@[simp] theorem updQuarter_clockMHz (s : State) (q : Nat) (f : Quarter → Quarter) : (s.updQuarter q f).clockMHz = s.clockMHz := rfl
@[simp] theorem updQuarter_capW (s : State) (q : Nat) (f : Quarter → Quarter) : (s.updQuarter q f).capW = s.capW := rfl
@[simp] theorem updQuarter_coolUs (s : State) (q : Nat) (f : Quarter → Quarter) : (s.updQuarter q f).coolUs = s.coolUs := rfl
@[simp] theorem updQuarter_drainLimit (s : State) (q : Nat) (f : Quarter → Quarter) : (s.updQuarter q f).drainLimit = s.drainLimit := rfl
@[simp] theorem updQuarter_now (s : State) (q : Nat) (f : Quarter → Quarter) : (s.updQuarter q f).now = s.now := rfl
@[simp] theorem updQuarter_cycles (s : State) (q : Nat) (f : Quarter → Quarter) : (s.updQuarter q f).cycles = s.cycles := rfl
@[simp] theorem updQuarter_fns (s : State) (q : Nat) (f : Quarter → Quarter) : (s.updQuarter q f).fns = s.fns := rfl
@[simp] theorem updQuarter_mcAddr (s : State) (q : Nat) (f : Quarter → Quarter) : (s.updQuarter q f).mcAddr = s.mcAddr := rfl
@[simp] theorem updQuarter_mcAt (s : State) (q : Nat) (f : Quarter → Quarter) : (s.updQuarter q f).mcAt = s.mcAt := rfl
@[simp] theorem updQuarter_mcCmd (s : State) (q : Nat) (f : Quarter → Quarter) : (s.updQuarter q f).mcCmd = s.mcCmd := rfl
@[simp] theorem updQuarter_mcBusy (s : State) (q : Nat) (f : Quarter → Quarter) : (s.updQuarter q f).mcBusy = s.mcBusy := rfl
@[simp] theorem updQuarter_mcDone (s : State) (q : Nat) (f : Quarter → Quarter) : (s.updQuarter q f).mcDone = s.mcDone := rfl
@[simp] theorem updQuarter_mcResult (s : State) (q : Nat) (f : Quarter → Quarter) : (s.updQuarter q f).mcResult = s.mcResult := rfl
@[simp] theorem updQuarter_mem (s : State) (q : Nat) (f : Quarter → Quarter) : (s.updQuarter q f).mem = s.mem := rfl
@[simp] theorem updQuarter_metas (s : State) (q : Nat) (f : Quarter → Quarter) : (s.updQuarter q f).metas = s.metas := rfl
@[simp] theorem updQuarter_fixMetas (s : State) (q : Nat) (f : Quarter → Quarter) : (s.updQuarter q f).fixMetas = s.fixMetas := rfl
@[simp] theorem updQuarter_lines (s : State) (q : Nat) (f : Quarter → Quarter) : (s.updQuarter q f).lines = s.lines := rfl
@[simp] theorem updQuarter_ports (s : State) (q : Nat) (f : Quarter → Quarter) : (s.updQuarter q f).ports = s.ports := rfl
@[simp] theorem updQuarter_heddle (s : State) (q : Nat) (f : Quarter → Quarter) : (s.updQuarter q f).heddle = s.heddle := rfl
@[simp] theorem updQuarter_heddles (s : State) (q : Nat) (f : Quarter → Quarter) : (s.updQuarter q f).heddles = s.heddles := rfl
@[simp] theorem updQuarter_runq (s : State) (q : Nat) (f : Quarter → Quarter) : (s.updQuarter q f).runq = s.runq := rfl
@[simp] theorem updQuarter_unref (s : State) (q : Nat) (f : Quarter → Quarter) : (s.updQuarter q f).unref = s.unref := rfl
@[simp] theorem updQuarter_sram (s : State) (q : Nat) (f : Quarter → Quarter) : (s.updQuarter q f).sram = s.sram := rfl
@[simp] theorem updQuarter_icache (s : State) (q : Nat) (f : Quarter → Quarter) : (s.updQuarter q f).icache = s.icache := rfl
@[simp] theorem updQuarter_hostMem (s : State) (q : Nat) (f : Quarter → Quarter) : (s.updQuarter q f).hostMem = s.hostMem := rfl
@[simp] theorem updQuarter_recent (s : State) (q : Nat) (f : Quarter → Quarter) : (s.updQuarter q f).recent = s.recent := rfl
@[simp] theorem updQuarter_sysNum (s : State) (q : Nat) (f : Quarter → Quarter) : (s.updQuarter q f).sysNum = s.sysNum := rfl
@[simp] theorem updQuarter_links (s : State) (q : Nat) (f : Quarter → Quarter) : (s.updQuarter q f).links = s.links := rfl
@[simp] theorem updQuarter_remote (s : State) (q : Nat) (f : Quarter → Quarter) : (s.updQuarter q f).remote = s.remote := rfl
@[simp] theorem updQuarter_planes (s : State) (q : Nat) (f : Quarter → Quarter) : (s.updQuarter q f).planes = s.planes := rfl
@[simp] theorem updQuarter_colls (s : State) (q : Nat) (f : Quarter → Quarter) : (s.updQuarter q f).colls = s.colls := rfl
@[simp] theorem updQuarter_sessions (s : State) (q : Nat) (f : Quarter → Quarter) : (s.updQuarter q f).sessions = s.sessions := rfl
@[simp] theorem updQuarter_ideKeys (s : State) (q : Nat) (f : Quarter → Quarter) : (s.updQuarter q f).ideKeys = s.ideKeys := rfl
@[simp] theorem updQuarter_migKeys (s : State) (q : Nat) (f : Quarter → Quarter) : (s.updQuarter q f).migKeys = s.migKeys := rfl
@[simp] theorem updQuarter_images (s : State) (q : Nat) (f : Quarter → Quarter) : (s.updQuarter q f).images = s.images := rfl
@[simp] theorem updQuarter_gone (s : State) (q : Nat) (f : Quarter → Quarter) : (s.updQuarter q f).gone = s.gone := rfl
@[simp] theorem updQuarter_worlds (s : State) (q : Nat) (f : Quarter → Quarter) : (s.updQuarter q f).worlds = s.worlds := rfl
@[simp] theorem updQuarter_engines (s : State) (q : Nat) (f : Quarter → Quarter) : (s.updQuarter q f).engines = s.engines := rfl
@[simp] theorem updQuarter_phases (s : State) (q : Nat) (f : Quarter → Quarter) : (s.updQuarter q f).phases = s.phases := rfl
@[simp] theorem updQuarter_launches (s : State) (q : Nat) (f : Quarter → Quarter) : (s.updQuarter q f).launches = s.launches := rfl
@[simp] theorem updQuarter_graphs (s : State) (q : Nat) (f : Quarter → Quarter) : (s.updQuarter q f).graphs = s.graphs := rfl
@[simp] theorem updQuarter_readyBlks (s : State) (q : Nat) (f : Quarter → Quarter) : (s.updQuarter q f).readyBlks = s.readyBlks := rfl
@[simp] theorem updQuarter_epochAt (s : State) (q : Nat) (f : Quarter → Quarter) : (s.updQuarter q f).epochAt = s.epochAt := rfl
@[simp] theorem updQuarter_blocks (s : State) (q : Nat) (f : Quarter → Quarter) : (s.updQuarter q f).blocks = s.blocks := rfl
@[simp] theorem updQuarter_copies (s : State) (q : Nat) (f : Quarter → Quarter) : (s.updQuarter q f).copies = s.copies := rfl

/-! ### updPort -/

@[simp] theorem updPort_focus (s : State) (c : Nat) (f : Port → Port) : (s.updPort c f).focus = s.focus := rfl
@[simp] theorem updPort_args (s : State) (c : Nat) (f : Port → Port) : (s.updPort c f).args = s.args := rfl
@[simp] theorem updPort_inbox (s : State) (c : Nat) (f : Port → Port) : (s.updPort c f).inbox = s.inbox := rfl
@[simp] theorem updPort_outbox (s : State) (c : Nat) (f : Port → Port) : (s.updPort c f).outbox = s.outbox := rfl
@[simp] theorem updPort_tick (s : State) (c : Nat) (f : Port → Port) : (s.updPort c f).tick = s.tick := rfl
@[simp] theorem updPort_freeCnt (s : State) (c : Nat) (f : Port → Port) : (s.updPort c f).freeCnt = s.freeCnt := rfl
@[simp] theorem updPort_bootReady (s : State) (c : Nat) (f : Port → Port) : (s.updPort c f).bootReady = s.bootReady := rfl
@[simp] theorem updPort_bootFailed (s : State) (c : Nat) (f : Port → Port) : (s.updPort c f).bootFailed = s.bootFailed := rfl
@[simp] theorem updPort_bootCause (s : State) (c : Nat) (f : Port → Port) : (s.updPort c f).bootCause = s.bootCause := rfl
@[simp] theorem updPort_bootStage (s : State) (c : Nat) (f : Port → Port) : (s.updPort c f).bootStage = s.bootStage := rfl
@[simp] theorem updPort_clockMHz (s : State) (c : Nat) (f : Port → Port) : (s.updPort c f).clockMHz = s.clockMHz := rfl
@[simp] theorem updPort_capW (s : State) (c : Nat) (f : Port → Port) : (s.updPort c f).capW = s.capW := rfl
@[simp] theorem updPort_coolUs (s : State) (c : Nat) (f : Port → Port) : (s.updPort c f).coolUs = s.coolUs := rfl
@[simp] theorem updPort_drainLimit (s : State) (c : Nat) (f : Port → Port) : (s.updPort c f).drainLimit = s.drainLimit := rfl
@[simp] theorem updPort_now (s : State) (c : Nat) (f : Port → Port) : (s.updPort c f).now = s.now := rfl
@[simp] theorem updPort_cycles (s : State) (c : Nat) (f : Port → Port) : (s.updPort c f).cycles = s.cycles := rfl
@[simp] theorem updPort_fns (s : State) (c : Nat) (f : Port → Port) : (s.updPort c f).fns = s.fns := rfl
@[simp] theorem updPort_mcAddr (s : State) (c : Nat) (f : Port → Port) : (s.updPort c f).mcAddr = s.mcAddr := rfl
@[simp] theorem updPort_mcAt (s : State) (c : Nat) (f : Port → Port) : (s.updPort c f).mcAt = s.mcAt := rfl
@[simp] theorem updPort_mcCmd (s : State) (c : Nat) (f : Port → Port) : (s.updPort c f).mcCmd = s.mcCmd := rfl
@[simp] theorem updPort_mcBusy (s : State) (c : Nat) (f : Port → Port) : (s.updPort c f).mcBusy = s.mcBusy := rfl
@[simp] theorem updPort_mcDone (s : State) (c : Nat) (f : Port → Port) : (s.updPort c f).mcDone = s.mcDone := rfl
@[simp] theorem updPort_mcResult (s : State) (c : Nat) (f : Port → Port) : (s.updPort c f).mcResult = s.mcResult := rfl
@[simp] theorem updPort_mem (s : State) (c : Nat) (f : Port → Port) : (s.updPort c f).mem = s.mem := rfl
@[simp] theorem updPort_metas (s : State) (c : Nat) (f : Port → Port) : (s.updPort c f).metas = s.metas := rfl
@[simp] theorem updPort_fixMetas (s : State) (c : Nat) (f : Port → Port) : (s.updPort c f).fixMetas = s.fixMetas := rfl
@[simp] theorem updPort_lines (s : State) (c : Nat) (f : Port → Port) : (s.updPort c f).lines = s.lines := rfl
@[simp] theorem updPort_heddle (s : State) (c : Nat) (f : Port → Port) : (s.updPort c f).heddle = s.heddle := rfl
@[simp] theorem updPort_heddles (s : State) (c : Nat) (f : Port → Port) : (s.updPort c f).heddles = s.heddles := rfl
@[simp] theorem updPort_runq (s : State) (c : Nat) (f : Port → Port) : (s.updPort c f).runq = s.runq := rfl
@[simp] theorem updPort_unref (s : State) (c : Nat) (f : Port → Port) : (s.updPort c f).unref = s.unref := rfl
@[simp] theorem updPort_sram (s : State) (c : Nat) (f : Port → Port) : (s.updPort c f).sram = s.sram := rfl
@[simp] theorem updPort_icache (s : State) (c : Nat) (f : Port → Port) : (s.updPort c f).icache = s.icache := rfl
@[simp] theorem updPort_hostMem (s : State) (c : Nat) (f : Port → Port) : (s.updPort c f).hostMem = s.hostMem := rfl
@[simp] theorem updPort_recent (s : State) (c : Nat) (f : Port → Port) : (s.updPort c f).recent = s.recent := rfl
@[simp] theorem updPort_sysNum (s : State) (c : Nat) (f : Port → Port) : (s.updPort c f).sysNum = s.sysNum := rfl
@[simp] theorem updPort_links (s : State) (c : Nat) (f : Port → Port) : (s.updPort c f).links = s.links := rfl
@[simp] theorem updPort_remote (s : State) (c : Nat) (f : Port → Port) : (s.updPort c f).remote = s.remote := rfl
@[simp] theorem updPort_planes (s : State) (c : Nat) (f : Port → Port) : (s.updPort c f).planes = s.planes := rfl
@[simp] theorem updPort_colls (s : State) (c : Nat) (f : Port → Port) : (s.updPort c f).colls = s.colls := rfl
@[simp] theorem updPort_sessions (s : State) (c : Nat) (f : Port → Port) : (s.updPort c f).sessions = s.sessions := rfl
@[simp] theorem updPort_ideKeys (s : State) (c : Nat) (f : Port → Port) : (s.updPort c f).ideKeys = s.ideKeys := rfl
@[simp] theorem updPort_migKeys (s : State) (c : Nat) (f : Port → Port) : (s.updPort c f).migKeys = s.migKeys := rfl
@[simp] theorem updPort_images (s : State) (c : Nat) (f : Port → Port) : (s.updPort c f).images = s.images := rfl
@[simp] theorem updPort_gone (s : State) (c : Nat) (f : Port → Port) : (s.updPort c f).gone = s.gone := rfl
@[simp] theorem updPort_worlds (s : State) (c : Nat) (f : Port → Port) : (s.updPort c f).worlds = s.worlds := rfl
@[simp] theorem updPort_engines (s : State) (c : Nat) (f : Port → Port) : (s.updPort c f).engines = s.engines := rfl
@[simp] theorem updPort_phases (s : State) (c : Nat) (f : Port → Port) : (s.updPort c f).phases = s.phases := rfl
@[simp] theorem updPort_launches (s : State) (c : Nat) (f : Port → Port) : (s.updPort c f).launches = s.launches := rfl
@[simp] theorem updPort_graphs (s : State) (c : Nat) (f : Port → Port) : (s.updPort c f).graphs = s.graphs := rfl
@[simp] theorem updPort_readyBlks (s : State) (c : Nat) (f : Port → Port) : (s.updPort c f).readyBlks = s.readyBlks := rfl
@[simp] theorem updPort_epochAt (s : State) (c : Nat) (f : Port → Port) : (s.updPort c f).epochAt = s.epochAt := rfl
@[simp] theorem updPort_quarters (s : State) (c : Nat) (f : Port → Port) : (s.updPort c f).quarters = s.quarters := rfl
@[simp] theorem updPort_blocks (s : State) (c : Nat) (f : Port → Port) : (s.updPort c f).blocks = s.blocks := rfl
@[simp] theorem updPort_copies (s : State) (c : Nat) (f : Port → Port) : (s.updPort c f).copies = s.copies := rfl

/-! ### setLine -/

@[simp] theorem setLine_focus (s : State) (a : BAcc) (l : Line) : (s.setLine a l).focus = s.focus := rfl
@[simp] theorem setLine_args (s : State) (a : BAcc) (l : Line) : (s.setLine a l).args = s.args := rfl
@[simp] theorem setLine_inbox (s : State) (a : BAcc) (l : Line) : (s.setLine a l).inbox = s.inbox := rfl
@[simp] theorem setLine_outbox (s : State) (a : BAcc) (l : Line) : (s.setLine a l).outbox = s.outbox := rfl
@[simp] theorem setLine_tick (s : State) (a : BAcc) (l : Line) : (s.setLine a l).tick = s.tick := rfl
@[simp] theorem setLine_freeCnt (s : State) (a : BAcc) (l : Line) : (s.setLine a l).freeCnt = s.freeCnt := rfl
@[simp] theorem setLine_bootReady (s : State) (a : BAcc) (l : Line) : (s.setLine a l).bootReady = s.bootReady := rfl
@[simp] theorem setLine_bootFailed (s : State) (a : BAcc) (l : Line) : (s.setLine a l).bootFailed = s.bootFailed := rfl
@[simp] theorem setLine_bootCause (s : State) (a : BAcc) (l : Line) : (s.setLine a l).bootCause = s.bootCause := rfl
@[simp] theorem setLine_bootStage (s : State) (a : BAcc) (l : Line) : (s.setLine a l).bootStage = s.bootStage := rfl
@[simp] theorem setLine_clockMHz (s : State) (a : BAcc) (l : Line) : (s.setLine a l).clockMHz = s.clockMHz := rfl
@[simp] theorem setLine_capW (s : State) (a : BAcc) (l : Line) : (s.setLine a l).capW = s.capW := rfl
@[simp] theorem setLine_coolUs (s : State) (a : BAcc) (l : Line) : (s.setLine a l).coolUs = s.coolUs := rfl
@[simp] theorem setLine_drainLimit (s : State) (a : BAcc) (l : Line) : (s.setLine a l).drainLimit = s.drainLimit := rfl
@[simp] theorem setLine_now (s : State) (a : BAcc) (l : Line) : (s.setLine a l).now = s.now := rfl
@[simp] theorem setLine_cycles (s : State) (a : BAcc) (l : Line) : (s.setLine a l).cycles = s.cycles := rfl
@[simp] theorem setLine_fns (s : State) (a : BAcc) (l : Line) : (s.setLine a l).fns = s.fns := rfl
@[simp] theorem setLine_mcAddr (s : State) (a : BAcc) (l : Line) : (s.setLine a l).mcAddr = s.mcAddr := rfl
@[simp] theorem setLine_mcAt (s : State) (a : BAcc) (l : Line) : (s.setLine a l).mcAt = s.mcAt := rfl
@[simp] theorem setLine_mcCmd (s : State) (a : BAcc) (l : Line) : (s.setLine a l).mcCmd = s.mcCmd := rfl
@[simp] theorem setLine_mcBusy (s : State) (a : BAcc) (l : Line) : (s.setLine a l).mcBusy = s.mcBusy := rfl
@[simp] theorem setLine_mcDone (s : State) (a : BAcc) (l : Line) : (s.setLine a l).mcDone = s.mcDone := rfl
@[simp] theorem setLine_mcResult (s : State) (a : BAcc) (l : Line) : (s.setLine a l).mcResult = s.mcResult := rfl
@[simp] theorem setLine_mem (s : State) (a : BAcc) (l : Line) : (s.setLine a l).mem = s.mem := rfl
@[simp] theorem setLine_metas (s : State) (a : BAcc) (l : Line) : (s.setLine a l).metas = s.metas := rfl
@[simp] theorem setLine_fixMetas (s : State) (a : BAcc) (l : Line) : (s.setLine a l).fixMetas = s.fixMetas := rfl
@[simp] theorem setLine_ports (s : State) (a : BAcc) (l : Line) : (s.setLine a l).ports = s.ports := rfl
@[simp] theorem setLine_heddle (s : State) (a : BAcc) (l : Line) : (s.setLine a l).heddle = s.heddle := rfl
@[simp] theorem setLine_heddles (s : State) (a : BAcc) (l : Line) : (s.setLine a l).heddles = s.heddles := rfl
@[simp] theorem setLine_runq (s : State) (a : BAcc) (l : Line) : (s.setLine a l).runq = s.runq := rfl
@[simp] theorem setLine_unref (s : State) (a : BAcc) (l : Line) : (s.setLine a l).unref = s.unref := rfl
@[simp] theorem setLine_sram (s : State) (a : BAcc) (l : Line) : (s.setLine a l).sram = s.sram := rfl
@[simp] theorem setLine_icache (s : State) (a : BAcc) (l : Line) : (s.setLine a l).icache = s.icache := rfl
@[simp] theorem setLine_hostMem (s : State) (a : BAcc) (l : Line) : (s.setLine a l).hostMem = s.hostMem := rfl
@[simp] theorem setLine_recent (s : State) (a : BAcc) (l : Line) : (s.setLine a l).recent = s.recent := rfl
@[simp] theorem setLine_sysNum (s : State) (a : BAcc) (l : Line) : (s.setLine a l).sysNum = s.sysNum := rfl
@[simp] theorem setLine_links (s : State) (a : BAcc) (l : Line) : (s.setLine a l).links = s.links := rfl
@[simp] theorem setLine_remote (s : State) (a : BAcc) (l : Line) : (s.setLine a l).remote = s.remote := rfl
@[simp] theorem setLine_planes (s : State) (a : BAcc) (l : Line) : (s.setLine a l).planes = s.planes := rfl
@[simp] theorem setLine_colls (s : State) (a : BAcc) (l : Line) : (s.setLine a l).colls = s.colls := rfl
@[simp] theorem setLine_sessions (s : State) (a : BAcc) (l : Line) : (s.setLine a l).sessions = s.sessions := rfl
@[simp] theorem setLine_ideKeys (s : State) (a : BAcc) (l : Line) : (s.setLine a l).ideKeys = s.ideKeys := rfl
@[simp] theorem setLine_migKeys (s : State) (a : BAcc) (l : Line) : (s.setLine a l).migKeys = s.migKeys := rfl
@[simp] theorem setLine_images (s : State) (a : BAcc) (l : Line) : (s.setLine a l).images = s.images := rfl
@[simp] theorem setLine_gone (s : State) (a : BAcc) (l : Line) : (s.setLine a l).gone = s.gone := rfl
@[simp] theorem setLine_worlds (s : State) (a : BAcc) (l : Line) : (s.setLine a l).worlds = s.worlds := rfl
@[simp] theorem setLine_engines (s : State) (a : BAcc) (l : Line) : (s.setLine a l).engines = s.engines := rfl
@[simp] theorem setLine_phases (s : State) (a : BAcc) (l : Line) : (s.setLine a l).phases = s.phases := rfl
@[simp] theorem setLine_launches (s : State) (a : BAcc) (l : Line) : (s.setLine a l).launches = s.launches := rfl
@[simp] theorem setLine_graphs (s : State) (a : BAcc) (l : Line) : (s.setLine a l).graphs = s.graphs := rfl
@[simp] theorem setLine_readyBlks (s : State) (a : BAcc) (l : Line) : (s.setLine a l).readyBlks = s.readyBlks := rfl
@[simp] theorem setLine_epochAt (s : State) (a : BAcc) (l : Line) : (s.setLine a l).epochAt = s.epochAt := rfl
@[simp] theorem setLine_quarters (s : State) (a : BAcc) (l : Line) : (s.setLine a l).quarters = s.quarters := rfl
@[simp] theorem setLine_blocks (s : State) (a : BAcc) (l : Line) : (s.setLine a l).blocks = s.blocks := rfl
@[simp] theorem setLine_copies (s : State) (a : BAcc) (l : Line) : (s.setLine a l).copies = s.copies := rfl

/-! ### send -/

@[simp] theorem send_focus (s : State) (m : OutMsg) : (s.send m).focus = s.focus := rfl
@[simp] theorem send_args (s : State) (m : OutMsg) : (s.send m).args = s.args := rfl
@[simp] theorem send_inbox (s : State) (m : OutMsg) : (s.send m).inbox = s.inbox := rfl
@[simp] theorem send_tick (s : State) (m : OutMsg) : (s.send m).tick = s.tick := rfl
@[simp] theorem send_freeCnt (s : State) (m : OutMsg) : (s.send m).freeCnt = s.freeCnt := rfl
@[simp] theorem send_bootReady (s : State) (m : OutMsg) : (s.send m).bootReady = s.bootReady := rfl
@[simp] theorem send_bootFailed (s : State) (m : OutMsg) : (s.send m).bootFailed = s.bootFailed := rfl
@[simp] theorem send_bootCause (s : State) (m : OutMsg) : (s.send m).bootCause = s.bootCause := rfl
@[simp] theorem send_bootStage (s : State) (m : OutMsg) : (s.send m).bootStage = s.bootStage := rfl
@[simp] theorem send_clockMHz (s : State) (m : OutMsg) : (s.send m).clockMHz = s.clockMHz := rfl
@[simp] theorem send_capW (s : State) (m : OutMsg) : (s.send m).capW = s.capW := rfl
@[simp] theorem send_coolUs (s : State) (m : OutMsg) : (s.send m).coolUs = s.coolUs := rfl
@[simp] theorem send_drainLimit (s : State) (m : OutMsg) : (s.send m).drainLimit = s.drainLimit := rfl
@[simp] theorem send_now (s : State) (m : OutMsg) : (s.send m).now = s.now := rfl
@[simp] theorem send_cycles (s : State) (m : OutMsg) : (s.send m).cycles = s.cycles := rfl
@[simp] theorem send_fns (s : State) (m : OutMsg) : (s.send m).fns = s.fns := rfl
@[simp] theorem send_mcAddr (s : State) (m : OutMsg) : (s.send m).mcAddr = s.mcAddr := rfl
@[simp] theorem send_mcAt (s : State) (m : OutMsg) : (s.send m).mcAt = s.mcAt := rfl
@[simp] theorem send_mcCmd (s : State) (m : OutMsg) : (s.send m).mcCmd = s.mcCmd := rfl
@[simp] theorem send_mcBusy (s : State) (m : OutMsg) : (s.send m).mcBusy = s.mcBusy := rfl
@[simp] theorem send_mcDone (s : State) (m : OutMsg) : (s.send m).mcDone = s.mcDone := rfl
@[simp] theorem send_mcResult (s : State) (m : OutMsg) : (s.send m).mcResult = s.mcResult := rfl
@[simp] theorem send_mem (s : State) (m : OutMsg) : (s.send m).mem = s.mem := rfl
@[simp] theorem send_metas (s : State) (m : OutMsg) : (s.send m).metas = s.metas := rfl
@[simp] theorem send_fixMetas (s : State) (m : OutMsg) : (s.send m).fixMetas = s.fixMetas := rfl
@[simp] theorem send_lines (s : State) (m : OutMsg) : (s.send m).lines = s.lines := rfl
@[simp] theorem send_ports (s : State) (m : OutMsg) : (s.send m).ports = s.ports := rfl
@[simp] theorem send_heddle (s : State) (m : OutMsg) : (s.send m).heddle = s.heddle := rfl
@[simp] theorem send_heddles (s : State) (m : OutMsg) : (s.send m).heddles = s.heddles := rfl
@[simp] theorem send_runq (s : State) (m : OutMsg) : (s.send m).runq = s.runq := rfl
@[simp] theorem send_unref (s : State) (m : OutMsg) : (s.send m).unref = s.unref := rfl
@[simp] theorem send_sram (s : State) (m : OutMsg) : (s.send m).sram = s.sram := rfl
@[simp] theorem send_icache (s : State) (m : OutMsg) : (s.send m).icache = s.icache := rfl
@[simp] theorem send_hostMem (s : State) (m : OutMsg) : (s.send m).hostMem = s.hostMem := rfl
@[simp] theorem send_recent (s : State) (m : OutMsg) : (s.send m).recent = s.recent := rfl
@[simp] theorem send_sysNum (s : State) (m : OutMsg) : (s.send m).sysNum = s.sysNum := rfl
@[simp] theorem send_links (s : State) (m : OutMsg) : (s.send m).links = s.links := rfl
@[simp] theorem send_remote (s : State) (m : OutMsg) : (s.send m).remote = s.remote := rfl
@[simp] theorem send_planes (s : State) (m : OutMsg) : (s.send m).planes = s.planes := rfl
@[simp] theorem send_colls (s : State) (m : OutMsg) : (s.send m).colls = s.colls := rfl
@[simp] theorem send_sessions (s : State) (m : OutMsg) : (s.send m).sessions = s.sessions := rfl
@[simp] theorem send_ideKeys (s : State) (m : OutMsg) : (s.send m).ideKeys = s.ideKeys := rfl
@[simp] theorem send_migKeys (s : State) (m : OutMsg) : (s.send m).migKeys = s.migKeys := rfl
@[simp] theorem send_images (s : State) (m : OutMsg) : (s.send m).images = s.images := rfl
@[simp] theorem send_gone (s : State) (m : OutMsg) : (s.send m).gone = s.gone := rfl
@[simp] theorem send_worlds (s : State) (m : OutMsg) : (s.send m).worlds = s.worlds := rfl
@[simp] theorem send_engines (s : State) (m : OutMsg) : (s.send m).engines = s.engines := rfl
@[simp] theorem send_phases (s : State) (m : OutMsg) : (s.send m).phases = s.phases := rfl
@[simp] theorem send_launches (s : State) (m : OutMsg) : (s.send m).launches = s.launches := rfl
@[simp] theorem send_graphs (s : State) (m : OutMsg) : (s.send m).graphs = s.graphs := rfl
@[simp] theorem send_readyBlks (s : State) (m : OutMsg) : (s.send m).readyBlks = s.readyBlks := rfl
@[simp] theorem send_epochAt (s : State) (m : OutMsg) : (s.send m).epochAt = s.epochAt := rfl
@[simp] theorem send_quarters (s : State) (m : OutMsg) : (s.send m).quarters = s.quarters := rfl
@[simp] theorem send_blocks (s : State) (m : OutMsg) : (s.send m).blocks = s.blocks := rfl
@[simp] theorem send_copies (s : State) (m : OutMsg) : (s.send m).copies = s.copies := rfl

/-! ### The part that each update changes -/

@[simp] theorem updWorld_worlds (s : State) (w : Nat) (f : World → World) :
    (s.updWorld w f).worlds = AMap.modify s.worlds w f := rfl
@[simp] theorem updBlock_blocks (s : State) (b : Nat) (f : Block → Block) :
    (s.updBlock b f).blocks = AMap.modify s.blocks b f := rfl
@[simp] theorem updQuarter_quarters (s : State) (q : Nat) (f : Quarter → Quarter) :
    (s.updQuarter q f).quarters = AMap.set s.quarters q (f (s.quarter q)) := rfl
@[simp] theorem setLine_lines (s : State) (a : BAcc) (l : Line) :
    (s.setLine a l).lines = AMap.set s.lines (lineKey a) l := rfl
@[simp] theorem send_outbox (s : State) (m : OutMsg) : (s.send m).outbox = s.outbox ++ [m] := rfl

end Sys2Proof.Machine.State
end

