-- ==== Sys2Proof/Laws/Port.lean ====
section
/-! SUPPORT. What the memory ports and a fetch may change: memory and metadata, lines, port counters, and the worlds'
own counters and sweep pointers; no block, no copy, no queue. -/

namespace Sys2Proof.Machine.State

namespace PortKeeps

theorem refl (s : State) : PortKeeps s s := rfl

theorem trans {s t u : State} (h1 : PortKeeps s t) (h2 : PortKeeps t u) : PortKeeps s u := by
  unfold PortKeeps at *; rw [← h2, ← h1]

theorem blocks {s t : State} (h : PortKeeps s t) : t.blocks = s.blocks := by rw [← h]
theorem block? {s t : State} (h : PortKeeps s t) (b : Nat) : t.block? b = s.block? b := by
  unfold State.block?; rw [h.blocks]
theorem tick {s t : State} (h : PortKeeps s t) : t.tick = s.tick := by rw [← h]
theorem focus {s t : State} (h : PortKeeps s t) : t.focus = s.focus := by rw [← h]
theorem hostMem {s t : State} (h : PortKeeps s t) : t.hostMem = s.hostMem := by rw [← h]
theorem heddle {s t : State} (h : PortKeeps s t) : t.heddle = s.heddle := by rw [← h]

end PortKeeps

theorem updWorld_keeps (s : State) (w : Nat) (f : World → World) : PortKeeps s (s.updWorld w f) := rfl
theorem updPort_keeps (s : State) (c : Nat) (f : Port → Port) : PortKeeps s (s.updPort c f) := rfl
theorem portRequest_keeps (s : State) (l : BlkRef) (n cls : Nat) : PortKeeps s (s.portRequest l n cls) := by
  unfold portRequest
  generalize physBlocks l n = bs
  induction bs generalizing s with
  | nil => exact .refl s
  | cons b bs ih => exact (updPort_keeps s _ _).trans (ih _)

theorem portRequest_lines (s : State) (l : BlkRef) (n cls : Nat) : (s.portRequest l n cls).lines = s.lines := by
  unfold portRequest
  generalize physBlocks l n = bs
  induction bs generalizing s with
  | nil => rfl
  | cons b bs ih => exact ih _

theorem setLine_keeps (s : State) (a : BAcc) (l : Line) : PortKeeps s (s.setLine a l) := rfl
theorem setMeta_keeps (s : State) (l : BlkRef) (m : MetaEnt) : PortKeeps s (s.setMeta l m) := by
  unfold setMeta; dsimp only; split <;> rfl
theorem integrityFail_keeps (s : State) (a : BAcc) : PortKeeps s (s.integrityFail a) :=
  (setMeta_keeps _ _ _).trans (updWorld_keeps _ _ _)

theorem moveRefs_keeps (s : State) (w : Nat) (o n : MetaEnt) : PortKeeps s (s.moveRefs w o n) := by
  unfold moveRefs
  simp only
  split
  · exact .refl s
  · split <;> split <;> rfl

theorem reencrypt_keeps (s : State) (a : BAcc) (r : TRec) : PortKeeps s (s.reencrypt a r) := by
  unfold reencrypt
  simp only
  split
  · exact .refl s
  · split
    · exact (updPort_keeps _ _ _).trans (setMeta_keeps _ _ _)
    · exact integrityFail_keeps s a
    · exact .refl s
    · split
      · exact .refl s
      · exact (setMeta_keeps s _ _).trans rfl

theorem advanceSweep_keeps (s : State) (w c i p : Nat) : PortKeeps s (s.advanceSweep w c i p) := by
  unfold advanceSweep
  split
  · exact .refl s
  · exact updWorld_keeps _ _ _

theorem sweepUnder_keeps (s : State) (a : BAcc) : PortKeeps s (s.sweepUnder a) := by
  unfold sweepUnder
  split
  · exact .refl s
  · split
    · exact (reencrypt_keeps s a _).trans (advanceSweep_keeps _ _ _ _ _)
    · exact .refl s

theorem portRead_keeps (s : State) (a : BAcc) : PortKeeps s (s.portRead a).2 := by
  unfold portRead
  simp only
  refine (sweepUnder_keeps s a).trans ?_
  split
  · exact .refl _
  · exact updPort_keeps _ _ _
  · exact integrityFail_keeps _ a
  · split
    · exact .refl _
    · split
      · exact .refl _
      · split
        · exact .refl _
        · exact updWorld_keeps _ _ _

/-- A fill: the line, and a state that differs from `s` only as a port may change it. A block whose line is present
changes nothing. -/
theorem fill_keeps (s : State) (a : BAcc) : PortKeeps s (s.fill a).2 := by
  unfold fill
  split
  · exact .refl s
  · simp only
    have h := portRead_keeps s a
    split
    · rename_i d s1 hd; rw [hd] at h; exact (h.trans (setLine_keeps _ _ _)).trans (portRequest_keeps _ _ _ _)
    · rename_i c s1 hd; rw [hd] at h; exact (h.trans (setLine_keeps _ _ _)).trans (portRequest_keeps _ _ _ _)

theorem fill_hit {s : State} {a : BAcc} {l : Line} (h : s.line? a = some l) : s.fill a = (l, s) := by
  unfold fill; rw [h]

/-! What a port does to the lines: nothing but the line that it fills (R18). -/

theorem setMeta_lines (s : State) (l : BlkRef) (m : MetaEnt) : (s.setMeta l m).lines = s.lines := by
  unfold setMeta; dsimp only; split <;> rfl

theorem sweepUnder_lines (s : State) (a : BAcc) : (s.sweepUnder a).lines = s.lines := by
  have hi : ∀ r, (s.reencrypt a r).lines = s.lines := by
    intro r
    unfold reencrypt
    simp only
    split
    · rfl
    · split
      · exact (setMeta_lines _ _ _).trans rfl
      · exact setMeta_lines s _ _
      · rfl
      · split
        · rfl
        · exact setMeta_lines s _ _
  unfold sweepUnder
  split
  · rfl
  · split
    · rename_i r _ _
      refine Eq.trans ?_ (hi r)
      unfold advanceSweep
      split <;> rfl
    · rfl

theorem portRead_lines (s : State) (a : BAcc) : (s.portRead a).2.lines = s.lines := by
  refine Eq.trans ?_ (sweepUnder_lines s a)
  unfold portRead
  simp only
  split
  · rfl
  · rfl
  · exact setMeta_lines _ _ _
  · split
    · rfl
    · split
      · rfl
      · split <;> rfl

/-- A fill leaves every line that is present as it was. -/
theorem fill_present {s : State} {a b : BAcc} {l : Line} (h : s.line? b = some l) : (s.fill a).2.line? b = some l := by
  unfold fill
  split
  · exact h
  · rename_i hn
    have hne : lineKey b ≠ lineKey a := by
      intro he
      unfold line? at h hn
      rw [he, hn] at h
      cases h
    have hp := portRead_lines s a
    have key : ∀ (s1 : State) (x : Line) (n : Nat), s1.lines = s.lines →
        ((s1.setLine a x).portRequest a.loc n 1).line? b = some l := by
      intro s1 x n h1
      unfold line?
      rw [portRequest_lines]
      unfold setLine
      rw [AMap.get?_set_ne _ _ hne, h1]
      exact h
    simp only
    split
    · rename_i d s1 hd; rw [hd] at hp; exact key _ _ _ hp
    · rename_i c s1 hd; rw [hd] at hp; exact key _ _ _ hp

theorem readPlace_keeps (s : State) (w c : Nat) (p : Place) (n : Nat) : PortKeeps s (s.readPlace w c p n).2 := by
  unfold readPlace
  split
  · exact .refl s
  · exact .refl s
  · exact .refl s
  · exact .refl s
  · rename_i a off
    have h := fill_keeps s a
    simp only
    split <;> exact h

theorem keepCode_keeps (s : State) (core w : Nat) (p : Place) (bs : List Byte) : PortKeeps s (s.keepCode core w p bs) := by
  unfold keepCode
  split <;> rfl

theorem fetchLine_keeps (s : State) (core w c : Nat) (pc : W64) : PortKeeps s (s.fetchLine core w c pc).2 := by
  unfold fetchLine
  split
  · exact .refl s
  · split
    · exact .refl s
    · exact .refl s
    · rename_i p _
      split
      · exact .refl s
      · have h := readPlace_keeps s w c p 128
        split
        · rename_i e s1 he; rw [he] at h; exact h
        · rename_i bs s1 he; rw [he] at h; exact h.trans (keepCode_keeps _ _ _ _ _)

theorem issueLine_keeps (s : State) (e : Env) : PortKeeps s (s.issueLine e).2 := by
  unfold issueLine
  have h := fetchLine_keeps s e.blk.core e.blk.world e.blk.ctx e.pc
  split
  · rename_i f s1 he; rw [he] at h; exact h
  · rename_i l s1 he
    rw [he] at h
    split
    · exact h
    · split <;> exact h

theorem targetFault_keeps (s : State) (core w c kind : Nat) (va : W64) : PortKeeps s (s.targetFault core w c kind va).2 := by
  unfold targetFault
  split
  · exact .refl s
  · have h := fetchLine_keeps s core w c va
    split
    · rename_i f s1 he; rw [he] at h; exact h
    · rename_i l s1 he
      rw [he] at h
      split <;> exact h

end Sys2Proof.Machine.State
end

