-- ==== Sys2Proof/Laws/Regs.lean ====
section
/-! SUPPORT. Masks, threads, and what a write of a register does to every register's reading (R182, R184, R190). -/

namespace Sys2Proof

theorem foldl_bits (f : Nat → Bool) (n : Nat) :
    ((List.range n).foldl (fun acc t => if f t then acc + 2 ^ t else acc) 0) < 2 ^ n ∧
    ∀ j, ((List.range n).foldl (fun acc t => if f t then acc + 2 ^ t else acc) 0).testBit j = (decide (j < n) && f j) := by
  induction n with
  | zero => simp
  | succ n ih =>
    obtain ⟨hlt, hb⟩ := ih
    rw [List.range_succ, List.foldl_append]
    generalize (List.range n).foldl (fun acc t => if f t then acc + 2 ^ t else acc) 0 = a at *
    simp only [List.foldl_cons, List.foldl_nil]
    split
    · rename_i hf
      refine ⟨by rw [Nat.pow_succ]; omega, fun j => ?_⟩
      rw [Nat.add_comm]
      rcases lt_trichotomy j n with h | h | h
      · have h2 : j < n + 1 := by omega
        rw [Nat.testBit_two_pow_add_gt h, hb]; simp [h, h2]
      · subst h
        have h1 := hb j
        rw [Nat.testBit_two_pow_add_eq, h1]; simp [hf]
      · have h1 : ¬ j < n + 1 := by omega
        have h2 : 2 ^ n + a < 2 ^ j := by
          have h3 : 2 ^ n + a < 2 ^ (n + 1) := by rw [Nat.pow_succ]; omega
          exact lt_of_lt_of_le h3 (Nat.pow_le_pow_right (by norm_num) h)
        rw [Nat.testBit_lt_two_pow h2]; simp [h1]
    · rename_i hf
      refine ⟨by rw [Nat.pow_succ]; omega, fun j => ?_⟩
      rw [hb]
      by_cases h : j = n
      · subst h; simp [hf]
      · have : (j < n) = (j < n + 1) := by apply propext; omega
        simp [this]

/-- A mask holds exactly the threads of its condition. -/
@[simp] theorem getLsbD_maskOf (f : Nat → Bool) (t : Nat) : (maskOf f).getLsbD t = (decide (t < 16) && f t) := by
  obtain ⟨_, hb⟩ := foldl_bits f 16
  unfold maskOf
  rw [BitVec.getLsbD_ofNat, hb]
  by_cases h : t < 16 <;> simp [h]

@[simp] theorem mem_threadsOf (m : BitVec 16) (t : Nat) : t ∈ threadsOf m ↔ t < 16 ∧ m.getLsbD t = true := by
  simp [threadsOf]

theorem threadsOf_eq_nil (m : BitVec 16) : threadsOf m = [] ↔ m = 0#16 := by
  constructor
  · intro h
    apply BitVec.eq_of_getLsbD_eq
    intro i hi
    have : i ∉ threadsOf m := by rw [h]; simp
    simp at this
    simpa using this hi
  · rintro rfl; decide

@[simp] theorem Lanes.get_ofFn (f : Nat → W32) (t : Nat) : (Lanes.ofFn f).get t = if t < 16 then f t else 0#32 := by
  unfold Lanes.get Lanes.ofFn
  by_cases h : t < 16
  · simp [List.getD, h]
  · simp [List.getD, h]

end Sys2Proof

namespace Sys2Proof.Machine

/-! ## Granules of a physical register -/

theorem mem_granuleThreads (t : Nat) : t ∈ granuleThreads (t / 4) := by
  simp only [granuleThreads, List.mem_map, List.mem_range]
  exact ⟨t % 4, by omega, by omega⟩

@[simp] theorem PhysReg.ofGranules_val (fn : Nat → (Nat → W32) × Nat × Bool) {t : Nat} (h : t < 16) :
    (PhysReg.ofGranules fn).vals.get t = (fn (t / 4)).1 t := by
  simp [PhysReg.ofGranules, h]

@[simp] theorem PhysReg.ofGranules_tag (fn : Nat → (Nat → W32) × Nat × Bool) {t : Nat} (h : t < 16) :
    (PhysReg.ofGranules fn).tags.getD (t / 4) 0 = (fn (t / 4)).2.1 := by
  have h4 : t / 4 < 4 := by omega
  simp [PhysReg.ofGranules, List.getD, h4]

@[simp] theorem PhysReg.ofGranules_pend (fn : Nat → (Nat → W32) × Nat × Bool) {t : Nat} (h : t < 16) :
    (PhysReg.ofGranules fn).pend.getD (t / 4) false = (fn (t / 4)).2.2 := by
  have h4 : t / 4 < 4 := by omega
  simp [PhysReg.ofGranules, List.getD, h4]

/-! ## What a warp holds of a name -/

/-- A name reads the same where the warp maps it to the same register. -/
theorem vread_eq_of_reg? {e e' : Env} {n t : Nat} (hs : e'.blk.strict = e.blk.strict) (hg : e'.gen = e.gen)
    (h : e'.wp.reg? n = e.wp.reg? n) : e'.vread n t = e.vread n t := by
  unfold Env.vread
  rw [h, hs, hg]

theorem Warp.mem_rmap {x : Warp} {n p : Nat} (h : AMap.get? x.rmap n = some p) : p ∈ x.held := by
  unfold Warp.held
  simp only [List.mem_append]
  exact .inl (.inl (List.mem_map.mpr ⟨(n, p), AMap.get?_mem h, rfl⟩))

theorem Warp.le_foldl_max {l : List Nat} {p a : Nat} (h : p ∈ l ∨ p ≤ a) : p ≤ l.foldl max a := by
  induction l generalizing a with
  | nil => simpa using h
  | cons b l ih =>
    simp only [List.foldl_cons]
    refine ih ?_
    rcases h with h | h
    · rcases List.mem_cons.mp h with rfl | h
      · exact .inr (Nat.le_max_right _ _)
      · exact .inl h
    · exact .inr (le_trans h (Nat.le_max_left _ _))

/-- A new register's number is not held. -/
theorem Warp.newReg_ne {x : Warp} {p : Nat} (h : p ∈ x.held) : p ≠ x.newReg := by
  have := Warp.le_foldl_max (a := 0) (.inl h)
  unfold Warp.newReg
  omega

theorem Warp.gc_phys {x : Warp} {p : Nat} (h : p ∈ x.held) : AMap.get? x.gc.phys p = AMap.get? x.phys p := by
  have := AMap.get?_filter_key x.phys (fun k => x.held.contains k) p (by simpa using h)
  simpa [Warp.gc] using this

theorem Warp.gc_reg? (x : Warp) (n : Nat) : x.gc.reg? n = x.reg? n := by
  unfold Warp.reg?
  have : x.gc.rmap = x.rmap := rfl
  rw [this]
  cases h : AMap.get? x.rmap n with
  | none => rfl
  | some p => exact Warp.gc_phys (Warp.mem_rmap h)

theorem Warp.addHeirs_rmap (x : Warp) (a b : Nat) (m : BitVec 16) : (x.addHeirs a b m).rmap = x.rmap := by
  unfold Warp.addHeirs; split <;> rfl
theorem Warp.addHeirs_phys (x : Warp) (a b : Nat) (m : BitVec 16) : (x.addHeirs a b m).phys = x.phys := by
  unfold Warp.addHeirs; split <;> rfl
theorem Warp.addHeirs_reg? (x : Warp) (a b : Nat) (m : BitVec 16) (n : Nat) : (x.addHeirs a b m).reg? n = x.reg? n := by
  unfold Warp.reg?; rw [Warp.addHeirs_rmap, Warp.addHeirs_phys]

/-- Only the heirs of loads differ. -/
theorem Warp.addHeirs_rest (x : Warp) (a b : Nat) (m : BitVec 16) :
    { x with loads := (x.addHeirs a b m).loads } = x.addHeirs a b m := by
  unfold Warp.addHeirs; split <;> rfl

theorem Warp.addHeirs_loadsOnly (x : Warp) (a b : Nat) (m : BitVec 16) : (x.addHeirs a b m).loadsOnly = x.loadsOnly := by
  unfold Warp.addHeirs
  split
  · rfl
  · simp only [Warp.loadsOnly, AMap.mapVals, List.map_map]
    refine List.map_congr_left fun p _ => ?_
    simp only [Function.comp]
    split <;> rfl

theorem Warp.writeVec_rest (x : Warp) (g : Nat) (m : BitVec 16) (n : Nat) (v : Lanes) :
    { x with rmap := (x.writeVec g m n v).rmap, phys := (x.writeVec g m n v).phys, loads := (x.writeVec g m n v).loads } =
      x.writeVec g m n v := by
  unfold Warp.writeVec
  simp only
  split
  · unfold Warp.gc Warp.addHeirs
    split <;> rfl
  · rfl

theorem Warp.writeVec_loadsOnly (x : Warp) (g : Nat) (m : BitVec 16) (n : Nat) (v : Lanes) :
    (x.writeVec g m n v).loadsOnly = x.loadsOnly := by
  unfold Warp.writeVec
  simp only
  split
  · exact Warp.addHeirs_loadsOnly _ _ _ _
  · rfl

/-- A write gives its name the renamed register and leaves every other name its register. -/
theorem Warp.writeVec_reg? (x : Warp) (g : Nat) (m : BitVec 16) (n : Nat) (v : Lanes) (j : Nat) :
    (x.writeVec g m n v).reg? j = if j = n then some (renamed g (x.reg? n) m v) else x.reg? j := by
  have key : Warp.reg? { x with
        rmap := AMap.set x.rmap n x.newReg
        phys := AMap.set x.phys x.newReg (renamed g (x.reg? n) m v) } j =
      if j = n then some (renamed g (x.reg? n) m v) else x.reg? j := by
    by_cases hj : j = n
    · subst j; simp [Warp.reg?]
    · rw [if_neg hj]
      unfold Warp.reg?
      simp only [AMap.get?_set_ne _ _ hj]
      cases hq : AMap.get? x.rmap j with
      | none => rfl
      | some q => exact AMap.get?_set_ne _ _ (Warp.newReg_ne (Warp.mem_rmap hq))
  unfold Warp.writeVec
  simp only
  split
  · rw [Warp.gc_reg?, Warp.addHeirs_reg?, key]
  · exact key

/-! ## The renamed register (R182) -/

theorem renamed_active {g : Nat} {prev : Option PhysReg} {m : BitVec 16} {v : Lanes} {t : Nat} (ht : t < 16)
    (hm : m.getLsbD t = true) :
    (renamed g prev m v).tags.getD (t / 4) 0 = g ∧ (renamed g prev m v).vals.get t = v.get t := by
  have hany : ((granuleThreads (t / 4)).any fun i => m.getLsbD i) = true :=
    List.any_eq_true.mpr ⟨t, mem_granuleThreads t, hm⟩
  unfold renamed
  rw [PhysReg.ofGranules_tag _ ht, PhysReg.ofGranules_val _ ht]
  cases prev <;> simp [hany, hm]

/-- A granule is pending after a write only where it was pending before and the write left some of its threads out. -/
theorem renamed_pend {g : Nat} {prev : Option PhysReg} {m : BitVec 16} {v : Lanes} {t : Nat} (ht : t < 16)
    (hm : m.getLsbD t = true) :
    (renamed g prev m v).pend.getD (t / 4) false =
      (!((granuleThreads (t / 4)).all fun i => m.getLsbD i) && (match prev with
        | none => false
        | some r => r.tags.getD (t / 4) 0 == g && r.pend.getD (t / 4) false)) := by
  have hany : ((granuleThreads (t / 4)).any fun i => m.getLsbD i) = true :=
    List.any_eq_true.mpr ⟨t, mem_granuleThreads t, hm⟩
  unfold renamed
  rw [PhysReg.ofGranules_pend _ ht]
  cases prev <;> simp [hany, Bool.and_assoc]

/-- What a thread reads of a mapped name. -/
theorem vread_some {e : Env} {n t : Nat} {r : PhysReg} (h : e.wp.reg? n = some r) : e.vread n t =
    if r.tags.getD (t / 4) 0 != e.gen then (if e.blk.strict then .error fcUninit else .ok 0#32)
    else if r.pend.getD (t / 4) false then (if e.blk.strict then .error fcUnwaited else .ok 0#32)
    else .ok (r.vals.get t) := by
  unfold Env.vread
  rw [h]

/-- What a thread reads of a name that is not mapped. -/
theorem vread_none {e : Env} {n t : Nat} (h : e.wp.reg? n = none) :
    e.vread n t = if e.blk.strict then .error fcUninit else .ok 0#32 := by
  unfold Env.vread
  rw [h]

/-- A thread that a write leaves out reads what it read before. -/
theorem vread_renamed_inactive {e e' : Env} {n t : Nat} {m : BitVec 16} {lanes : Lanes} {v : W32} (ht : t < 16)
    (hm : m.getLsbD t = false) (hs : e'.blk.strict = e.blk.strict) (hg : e'.gen = e.gen)
    (h : e'.wp.reg? n = some (renamed e.gen (e.wp.reg? n) m lanes)) (hv : e.vread n t = .ok v) :
    e'.vread n t = .ok v := by
  have hall : ((granuleThreads (t / 4)).all fun i => m.getLsbD i) = false := by
    rw [List.all_eq_false]; exact ⟨t, mem_granuleThreads t, by simp [hm]⟩
  rw [vread_some h, hs, hg]
  rw [renamed, PhysReg.ofGranules_tag _ ht, PhysReg.ofGranules_val _ ht, PhysReg.ofGranules_pend _ ht]
  cases hr : e.wp.reg? n with
  | none =>
    rw [vread_none hr] at hv
    cases hst : e.blk.strict <;> cases ((granuleThreads (t / 4)).any fun i => m.getLsbD i) <;> simp [hst, hm] at hv ⊢ <;>
      exact hv
  | some r =>
    rw [vread_some hr] at hv
    simp only [bne] at hv ⊢
    cases hst : e.blk.strict <;> cases ((granuleThreads (t / 4)).any fun i => m.getLsbD i) <;>
      cases hown : (r.tags.getD (t / 4) 0 == e.gen) <;> cases hpend : r.pend.getD (t / 4) false <;>
      simp only [hst, hown, hpend, hm, hall, beq_self_eq_true, Bool.false_eq_true, if_false, if_true, Bool.not_false,
        Bool.not_true, Bool.and_true, Bool.and_false] at hv ⊢ <;> first | exact hv | cases hv

/-- A thread that a write covers reads the value written, unless its granule still waits for a load. -/
theorem vread_renamed_active {e' : Env} {n t : Nat} {m : BitVec 16} {lanes : Lanes} {prev : Option PhysReg} (ht : t < 16)
    (hm : m.getLsbD t = true) (h : e'.wp.reg? n = some (renamed e'.gen prev m lanes))
    (hp : (renamed e'.gen prev m lanes).pend.getD (t / 4) false = false) : e'.vread n t = .ok (lanes.get t) := by
  obtain ⟨h1, h2⟩ := renamed_active (g := e'.gen) (prev := prev) (v := lanes) ht hm
  rw [vread_some h, h1, h2, hp]
  simp

/-! ## Groups of registers -/

theorem Warp.writeVecs_rest (x : Warp) (g : Nat) (m : BitVec 16) (n : Nat) (rs : List (Nat × List W32)) (k : Nat) :
    { x with rmap := (x.writeVecs g m n rs k).rmap, phys := (x.writeVecs g m n rs k).phys,
             loads := (x.writeVecs g m n rs k).loads } = x.writeVecs g m n rs k := by
  induction k with
  | zero => rfl
  | succ k ih =>
    rw [Warp.writeVecs]
    have h := Warp.writeVec_rest (x.writeVecs g m n rs k) g m (n + k) (lanesOf rs k)
    rw [← h, ← ih]

theorem Warp.writeVecs_spec (x : Warp) (g : Nat) (m : BitVec 16) (n : Nat) (rs : List (Nat × List W32))
    (k : Nat) : (x.writeVecs g m n rs k).loadsOnly = x.loadsOnly ∧ ∀ j, (x.writeVecs g m n rs k).reg? j =
      if n ≤ j ∧ j < n + k then some (renamed g (x.reg? j) m (lanesOf rs (j - n))) else x.reg? j := by
  induction k with
  | zero => exact ⟨rfl, fun j => by rw [if_neg (by omega)]; rfl⟩
  | succ k ih =>
    obtain ⟨hg, hr⟩ := ih
    refine ⟨(Warp.writeVec_loadsOnly _ _ _ _ _).trans hg, fun j => ?_⟩
    rw [Warp.writeVecs, Warp.writeVec_reg?]
    by_cases hj : j = n + k
    · subst j
      rw [if_pos rfl, if_pos (by omega), hr, if_neg (by omega)]
      congr 3; omega
    · rw [if_neg hj, hr]
      by_cases h : n ≤ j ∧ j < n + k
      · rw [if_pos h, if_pos (by omega)]
      · rw [if_neg h, if_neg (by omega)]

theorem Warp.writeUni_rest (x : Warp) (g : Nat) (t : Bool) (n : Nat) (v : W32) :
    { x with sregs := (x.writeUni g t n v).sregs, stags := (x.writeUni g t n v).stags,
             region := (x.writeUni g t n v).region } = x.writeUni g t n v := by
  unfold Warp.writeUni
  cases t <;> by_cases h : n = 0 <;> simp [h]

theorem Warp.writeUnis_rest (x : Warp) (g : Nat) (t : Bool) (n : Nat) (vs : List W32) :
    { x with sregs := (x.writeUnis g t n vs).sregs, stags := (x.writeUnis g t n vs).stags,
             region := (x.writeUnis g t n vs).region } = x.writeUnis g t n vs := by
  induction vs generalizing x n with
  | nil => rfl
  | cons v vs ih =>
    rw [Warp.writeUnis]
    rw [← ih (x.writeUni g t n v) (n + 1), ← Warp.writeUni_rest x g t n v]

/-- A uniform write marks an open region (R267) and stores its words; s0 discards its word (R179). -/
theorem Warp.writeUnis_spec (x : Warp) (g : Nat) (t : Bool) (n : Nat) (vs : List W32) :
    (x.writeUnis g t n vs).region =
      (if t = true ∧ vs ≠ [] then x.region.map fun r => { r with uwrite := true } else x.region) ∧
    ∀ j, (AMap.get? (x.writeUnis g t n vs).sregs j, AMap.get? (x.writeUnis g t n vs).stags j) =
      if n ≤ j ∧ j < n + vs.length ∧ j ≠ 0 then (vs[j - n]?, some g)
      else (AMap.get? x.sregs j, AMap.get? x.stags j) := by
  induction vs generalizing x n with
  | nil => exact ⟨by simp [Warp.writeUnis], fun j => by rw [if_neg (by simp; omega)]; rfl⟩
  | cons v vs ih =>
    obtain ⟨h1, h2⟩ := ih (x.writeUni g t n v) (n + 1)
    constructor
    · rw [Warp.writeUnis, h1]
      by_cases ht : t = true
      · by_cases hv : vs = [] <;> cases hx : x.region <;> simp [ht, hv, Warp.writeUni] <;> split <;> simp [hx]
      · simp [ht, Warp.writeUni]; split <;> rfl
    · intro j
      rw [Warp.writeUnis, h2]
      by_cases hj : n + 1 ≤ j ∧ j < n + 1 + vs.length ∧ j ≠ 0
      · rw [if_pos hj, if_pos (by simp only [List.length_cons]; omega)]
        have : j - n = (j - (n + 1)) + 1 := by omega
        rw [this, List.getElem?_cons_succ]
      · rw [if_neg hj]
        by_cases hn : j = n
        · subst j
          by_cases h0 : n = 0
          · subst n; rw [if_neg (by omega)]
            cases t <;> simp [Warp.writeUni]
          · rw [if_pos (by simp only [List.length_cons]; omega)]
            cases t <;> simp [Warp.writeUni, h0]
        · rw [if_neg (by simp only [List.length_cons]; omega)]
          by_cases h0 : n = 0
          · cases t <;> simp [Warp.writeUni, h0]
          · cases t <;> simp [Warp.writeUni, h0, AMap.get?_set_ne _ _ hn]

end Sys2Proof.Machine
end

