-- ==== Sys2Proof/Laws/Issue.lean ====
section
/-! SUPPORT. The issue of one lane instruction, said once: an instruction that passes its checks acts (R347, R348); one
that completes retires and its split goes on (R334, R367); a fault is taken by its block (R205). -/

namespace Sys2Proof.Machine

/-- An instruction that passes every check of R348 acts, or does nothing where it is guarded and no thread is active. -/
theorem LaneSpec.run_pass {sp : LaneSpec} {e : Env} {l : FetchLine} {s s1 : State}
    (hf : sp.featOff e s = false) (ho : sp.opOk = true) (hm : sp.moodOk = true)
    (ht : sp.checkTarget e s = (none, s1))
    (hi : e.inTry = true → sp.illegal = none) (hsh : sp.shuttle = true → e.wp.shuttle = true) (hp : sp.pre = none)
    (hr : sp.dsts = [] ∨ (sp.guarded && e.idle) = true ∨ (e.wp.quotaOk sp.dsts = true ∧ e.wp.mustWait sp.dsts = false)) :
    sp.run e l s = if sp.guarded && e.idle then .ok s1 else sp.act s1 l := by
  have hill : (if e.inTry = true then sp.illegal else none) = none := by
    by_cases h : e.inTry = true
    · rw [if_pos h, hi h]
    · rw [if_neg h]
  have hshut : (sp.shuttle && !e.wp.shuttle) = false := by
    cases h : sp.shuttle with
    | false => rfl
    | true => simp [hsh h]
  unfold LaneSpec.run
  simp only [hf, ho, hm, ht, hill, hshut, hp, Bool.not_true, Bool.false_eq_true, if_false]
  by_cases hg : (sp.guarded && e.idle) = true
  · simp only [hg, if_true]
  · simp only [hg]
    rcases hr with h | h | ⟨h1, h2⟩
    · simp [h]
    · exact absurd h hg
    · simp [h1, h2]

theorem runLane_ok {sp : Env → LaneSpec} {s s1 s2 : State} {e : Env} {l : FetchLine} {pc : W64}
    (hi : s.issuer? = some e) (hl : s.issueLine e = (.ok l, s1))
    (hc : continuation l e.pc (laneLen (l.word (wordIndex e.pc))) = .ok pc) (hr : (sp e).run e l s1 = .ok s2) :
    runLane sp s = .next ((s2.retireTo e pc).settleWarp e.b e.w) := by
  unfold runLane
  simp only [hi, hl, hr, State.finish, State.continueSplit, hc, State.retireTo]

theorem runLane_jump {sp : Env → LaneSpec} {s s1 s2 : State} {e : Env} {l : FetchLine}
    (hi : s.issuer? = some e) (hl : s.issueLine e = (.ok l, s1)) (hr : (sp e).run e l s1 = .jump s2) :
    runLane sp s = .next ((s2.retire e.b e.w e.sp).settleWarp e.b e.w) := by
  unfold runLane
  simp only [hi, hl, hr, State.finish]

theorem runLane_park {sp : Env → LaneSpec} {s s1 s2 : State} {e : Env} {l : FetchLine} {p : Park}
    (hi : s.issuer? = some e) (hl : s.issueLine e = (.ok l, s1)) (hr : (sp e).run e l s1 = .park s2 p) :
    runLane sp s = .next (((s2.updSplit e.b e.w e.sp fun q => { q with park := p }).turnPassed e.b e.w e.sp).settleWarp e.b e.w) := by
  unfold runLane
  simp only [hi, hl, hr, State.finish]

/-- A fault of an instruction is taken by its block (R205). -/
theorem runLane_fault {sp : Env → LaneSpec} {s s1 s2 : State} {e : Env} {l : FetchLine} {f : Flt}
    (hi : s.issuer? = some e) (hl : s.issueLine e = (.ok l, s1)) (hr : (sp e).run e l s1 = .fault s2 f) :
    runLane sp s = .next (s2.laneFault e.b e.w e.pc f) := by
  unfold runLane
  simp only [hi, hl, hr, State.finish]

/-- A fault of the fetch is taken by its block. -/
theorem runLane_fetchFault {sp : Env → LaneSpec} {s s1 : State} {e : Env} {f : Flt} (hi : s.issuer? = some e)
    (hl : s.issueLine e = (.error f, s1)) : runLane sp s = .next (s1.laneFault e.b e.w e.pc f) := by
  unfold runLane
  simp only [hi, hl]

/-! ## The issuer -/

theorem issuer_spec {s : State} {e : Env} (h : s.issuer? = some e) :
    s.focus = .lane e.b e.w e.sp ∧ s.block? e.b = some e.blk ∧ AMap.get? e.blk.warps e.w = some e.wp ∧
      AMap.get? e.wp.active e.sp = some e.split := by
  unfold State.issuer? at h
  split at h
  · rename_i b w sp hf
    unfold State.envAt at h
    split at h
    · cases h
    · rename_i k hk
      split at h
      · cases h
      · rename_i x hx
        split at h
        · cases h
        · rename_i q hq
          cases h
          exact ⟨hf, hk, hx, hq⟩
  · cases h

/-! ## One block updated -/

theorem block?_updBlock (s : State) (b c : Nat) (f : Block → Block) :
    (s.updBlock b f).block? c = if c = b then (s.block? b).map f else s.block? c := by
  simp [State.block?, State.updBlock, AMap.get?_modify]

theorem block?_updWarp (s : State) (b w c : Nat) (f : Warp → Warp) :
    (s.updWarp b w f).block? c =
      if c = b then (s.block? b).map fun k => { k with warps := AMap.modify k.warps w f } else s.block? c :=
  block?_updBlock s b c _

theorem Block.RunKeeps.trans {k k' k'' : Block} (h1 : k.RunKeeps k') (h2 : k'.RunKeeps k'') : k.RunKeeps k'' := by
  unfold Block.RunKeeps at *; rw [← h2, ← h1]

theorem updWarp_runs {s : State} {b w : Nat} {f : Warp → Warp} {k : Block} (hk : s.block? b = some k) :
    ∃ k', (s.updWarp b w f).block? b = some k' ∧ k.RunKeeps k' ∧ k'.retired = k.retired ∧
      ∀ v, AMap.get? k'.warps v = if v = w then (AMap.get? k.warps w).map f else AMap.get? k.warps v :=
  ⟨{ k with warps := AMap.modify k.warps w f }, by simp [block?_updWarp, hk], rfl, rfl, fun v => AMap.get?_modify k.warps w v f⟩

theorem turnTaken_runs {s : State} {b w sp : Nat} {k : Block} (hk : s.block? b = some k) :
    ∃ k', (s.turnTaken b w sp).block? b = some k' ∧ k.RunKeeps k' ∧ k'.retired = k.retired ∧
      ∀ v, AMap.get? k'.warps v = if v = w then (AMap.get? k.warps w).map (fun x => { x with splitPtr := sp, polled := 0 })
        else AMap.get? k.warps v := by
  obtain ⟨k1, h1, h2, h3, h4⟩ := updWarp_runs (w := w) (f := fun x => { x with splitPtr := sp, polled := 0 }) hk
  refine ⟨{ k1 with rot := (w + 1) % (k1.warps.length + 1) }, ?_, h2.trans rfl, h3, h4⟩
  simp only [State.turnTaken, block?_updBlock, if_true, h1, Option.map_some]

theorem retire_runs {s : State} {b w sp : Nat} {k : Block} (hk : s.block? b = some k) :
    ∃ k', (s.retire b w sp).block? b = some k' ∧ k.RunKeeps k' ∧ k'.retired = k.retired + 1 ∧
      ∀ v, AMap.get? k'.warps v = if v = w then (AMap.get? k.warps w).map (fun x =>
          { x with retired := x.retired + 1, skid := if x.due then 1 else x.skid, due := false, splitPtr := sp, polled := 0 })
        else AMap.get? k.warps v := by
  obtain ⟨k1, h1, e1, r1, w1⟩ : ∃ k1, (s.updBlock b fun k =>
      { k with retired := k.retired + 1, cycles := k.cycles + Config.cycles s.tick }).block? b = some k1 ∧
      k.RunKeeps k1 ∧ k1.retired = k.retired + 1 ∧ k1.warps = k.warps :=
    ⟨{ k with retired := k.retired + 1, cycles := k.cycles + Config.cycles s.tick }, by
      simp only [block?_updBlock, if_true, hk, Option.map_some], rfl, rfl, rfl⟩
  obtain ⟨k2, h2, e2, r2, w2⟩ := updWarp_runs (w := w)
    (f := fun x => { x with retired := x.retired + 1, skid := if x.due then 1 else x.skid, due := false }) h1
  obtain ⟨k3, h3, e3, r3, w3⟩ := turnTaken_runs (w := w) (sp := sp) h2
  refine ⟨k3, h3, (e1.trans e2).trans e3, by omega, fun v => ?_⟩
  rw [w3, w2, w2, w1, if_pos rfl]
  by_cases h : v = w
  · rw [if_pos h, if_pos h]; cases AMap.get? k.warps w <;> rfl
  · rw [if_neg h, if_neg h, if_neg h]

/-- The block after its instruction has retired and its split has moved on: its counters, and in the issuing warp the
counters and the split. -/
theorem block?_retireTo {s : State} {e : Env} {pc : W64} {k : Block} (hk : s.block? e.b = some k) :
    ∃ k', (s.retireTo e pc).block? e.b = some k' ∧ k.RunKeeps k' ∧ k'.retired = k.retired + 1 ∧
      ∀ w, AMap.get? k'.warps w = if w = e.w then (AMap.get? k.warps e.w).map fun x =>
        { x with retired := x.retired + 1, skid := if x.due then 1 else x.skid, due := false, splitPtr := e.sp,
                 polled := 0, active := AMap.modify x.active e.sp fun q => { q with pc := pc, park := .ready } }
        else AMap.get? k.warps w := by
  obtain ⟨k1, h1, e1, r1, w1⟩ := retire_runs (w := e.w) (sp := e.sp) hk
  obtain ⟨k2, h2, e2, r2, w2⟩ := updWarp_runs (w := e.w)
    (f := fun x => { x with active := AMap.modify x.active e.sp fun q => { q with pc := pc, park := .ready } }) h1
  refine ⟨k2, h2, e1.trans e2, by omega, fun v => ?_⟩
  rw [w2, w1, w1, if_pos rfl]
  by_cases h : v = e.w
  · rw [if_pos h, if_pos h]; cases AMap.get? k.warps e.w <;> rfl
  · rw [if_neg h, if_neg h, if_neg h]

theorem State.OnlyBlock.trans {b : Nat} {s t u : State} (h1 : OnlyBlock b s t) (h2 : OnlyBlock b t u) : OnlyBlock b s u := by
  refine ⟨?_, fun c hc => (h2.2 c hc).trans (h1.2 c hc)⟩
  have h := h1.1
  rw [← h2.1, ← h1.1]

theorem updBlock_only (s : State) (b : Nat) (f : Block → Block) : State.OnlyBlock b s (s.updBlock b f) :=
  ⟨rfl, fun c hc => by rw [block?_updBlock, if_neg hc]⟩
theorem updWarp_only (s : State) (b w : Nat) (f : Warp → Warp) : State.OnlyBlock b s (s.updWarp b w f) := updBlock_only s b _
theorem updSplit_only (s : State) (b w p : Nat) (f : Split → Split) : State.OnlyBlock b s (s.updSplit b w p f) :=
  updWarp_only s b w _
theorem turnTaken_only (s : State) (b w p : Nat) : State.OnlyBlock b s (s.turnTaken b w p) :=
  (updWarp_only s b w _).trans (updBlock_only _ b _)
theorem turnPassed_only (s : State) (b w p : Nat) : State.OnlyBlock b s (s.turnPassed b w p) :=
  (updWarp_only s b w _).trans (updBlock_only _ b _)
theorem retire_only (s : State) (b w p : Nat) : State.OnlyBlock b s (s.retire b w p) :=
  ((updBlock_only s b _).trans (updWarp_only _ b w _)).trans (turnTaken_only _ b w p)

/-- A completed instruction changes only its own block. -/
theorem retireTo_only (s : State) (e : Env) (pc : W64) : State.OnlyBlock e.b s (s.retireTo e pc) :=
  (retire_only s e.b e.w e.sp).trans (updSplit_only _ e.b e.w e.sp _)

/-! ## The results of an instruction's threads -/

theorem eachThread_ok {α : Type} {f : Nat → Except (BitVec 8) α} {ts : List Nat} (h : ∀ t ∈ ts, ∃ v, f t = .ok v) :
    ∃ rs, eachThread f ts = .ok rs ∧ rs.map Prod.fst = ts ∧ ∀ r ∈ rs, f r.1 = .ok r.2 := by
  induction ts with
  | nil => exact ⟨[], rfl, rfl, by simp⟩
  | cons t ts ih =>
    obtain ⟨v, hv⟩ := h t (by simp)
    obtain ⟨rs, h1, h2, h3⟩ := ih fun u hu => h u (by simp [hu])
    refine ⟨(t, v) :: rs, by simp [eachThread, hv, h1], by simp [h2], ?_⟩
    intro r hr
    rcases List.mem_cons.mp hr with rfl | hr
    · exact hv
    · exact h3 r hr

/-- The lowest failing thread names the fault. -/
theorem eachThread_error {α : Type} {f : Nat → Except (BitVec 8) α} {t : Nat} {ts us : List Nat} {c : BitVec 8}
    (h : ∀ u ∈ ts, ∃ v, f u = .ok v) (hc : f t = .error c) : eachThread f (ts ++ t :: us) = .error c := by
  induction ts with
  | nil => simp [eachThread, hc]
  | cons u ts ih =>
    obtain ⟨v, hv⟩ := h u (by simp)
    simp [eachThread, hv, ih fun w hw => h w (by simp [hw])]

theorem lanesOf_get {rs : List (Nat × List W32)} {k t : Nat} {ws : List W32} (ht : t < 16)
    (hd : (rs.map Prod.fst).Nodup) (h : (t, ws) ∈ rs) : (lanesOf rs k).get t = ws.getD k 0#32 := by
  unfold lanesOf
  rw [Lanes.get_ofFn, if_pos ht]
  have : rs.find? (fun r => r.1 == t) = some (t, ws) := by
    induction rs with
    | nil => simp at h
    | cons r rs ih =>
      simp only [List.map_cons, List.nodup_cons] at hd
      by_cases hr : r.1 = t
      · rcases List.mem_cons.mp h with rfl | h
        · simp
        · exact absurd (List.mem_map.mpr ⟨(t, ws), h, rfl⟩) (by rw [← hr]; exact hd.1)
      · rcases List.mem_cons.mp h with rfl | h
        · simp at hr
        · simp [hr, ih hd.2 h]
  rw [this]

end Sys2Proof.Machine
end

