-- ==== Sys2Proof/Laws/Settle.lean ====
section
/-! SUPPORT. What the end of a step of a warp may change: which splits hold its threads (R180, R181), the sheds of its
block (R420), and what a fetch may change; no register, predicate, flag or memory byte of another kind. -/

namespace Sys2Proof.Machine

namespace Warp

theorem SplitKeeps.refl (x : Warp) : SplitKeeps x x := ⟨rfl, fun _ => rfl⟩

theorem SplitKeeps.trans {x y z : Warp} (h1 : SplitKeeps x y) (h2 : SplitKeeps y z) : SplitKeeps x z := by
  refine ⟨?_, fun n => (h2.2 n).trans (h1.2 n)⟩
  have h := h1.1
  rw [← h2.1, ← h1.1]

/-- Only the splits and the count differ. -/
theorem SplitKeeps.of_splits {x y : Warp} (h : { x with active := y.active, pending := y.pending, retired := y.retired } = y) :
    SplitKeeps x y := by
  refine ⟨?_, fun n => ?_⟩
  · rw [← h]
  · rw [← h]; rfl

theorem promote_rest (n : Nat) (x : Warp) :
    { x with active := (promote n x).active, pending := (promote n x).pending } = promote n x := by
  induction n generalizing x with
  | zero => rfl
  | succ n ih =>
    rw [promote]
    split
    · rename_i q qs k ks h1 h2
      rw [← ih { x with active := AMap.set x.active k q, pending := qs }]
    · rfl

theorem dropEmpty_keeps (x : Warp) : SplitKeeps x x.dropEmpty := by
  refine .of_splits ?_
  unfold dropEmpty
  rw [← promote_rest]

theorem bringCommit_keeps (x : Warp) : SplitKeeps x x.bringCommit := by
  refine .of_splits ?_
  unfold bringCommit
  split
  · rfl
  · split <;> rfl

theorem gc_keeps (x : Warp) : SplitKeeps x x.gc := ⟨rfl, x.gc_reg?⟩

end Warp

namespace State

theorem SettleKeeps.of_port {b w : Nat} {s t : State} (h : PortKeeps s t) : SettleKeeps b w s t := by
  have hb := h.blocks
  refine ⟨?_, fun c _ => h.block? c, ?_⟩
  · unfold PortKeeps at h; rw [← h]
  · rw [h.block? b]
    cases hk : s.block? b with
    | none => rfl
    | some k =>
      refine ⟨k, rfl, rfl, fun _ _ => rfl, ?_⟩
      cases hx : AMap.get? k.warps w with
      | none => rfl
      | some x => exact ⟨x, rfl, .refl x⟩

theorem SettleKeeps.trans {b w : Nat} {s t u : State} (h1 : SettleKeeps b w s t) (h2 : SettleKeeps b w t u) :
    SettleKeeps b w s u := by
  obtain ⟨a1, o1, m1⟩ := h1
  obtain ⟨a2, o2, m2⟩ := h2
  refine ⟨?_, fun c hc => (o2 c hc).trans (o1 c hc), ?_⟩
  · rw [← a2, ← a1]
  · cases hk : s.block? b with
    | none =>
      simp only [hk] at m1
      simpa only [m1] using m2
    | some k =>
      simp only [hk] at m1
      obtain ⟨k1, hk1, e1, v1, x1⟩ := m1
      simp only [hk1] at m2
      obtain ⟨k2, hk2, e2, v2, x2⟩ := m2
      refine ⟨k2, hk2, by rw [← e2, ← e1], fun v hv => (v2 v hv).trans (v1 v hv), ?_⟩
      cases hx : AMap.get? k.warps w with
      | none => simp only [hx] at x1; simpa only [x1] using x2
      | some x =>
        simp only [hx] at x1
        obtain ⟨y, hy, hxy⟩ := x1
        simp only [hy] at x2
        obtain ⟨z, hz, hyz⟩ := x2
        exact ⟨z, hz, hxy.trans hyz⟩

theorem updWarp_settles (s : State) (b w : Nat) (f : Warp → Warp) (hf : ∀ x, Warp.SplitKeeps x (f x)) :
    SettleKeeps b w s (s.updWarp b w f) := by
  refine ⟨rfl, fun c hc => by rw [block?_updWarp, if_neg hc], ?_⟩
  cases hk : s.block? b with
  | none => simp [block?_updWarp, hk]
  | some k =>
    refine ⟨{ k with warps := AMap.modify k.warps w f }, by simp [block?_updWarp, hk], rfl,
      fun v hv => AMap.get?_modify_ne _ _ hv, ?_⟩
    cases hx : AMap.get? k.warps w with
    | none => simp [hx]
    | some x => exact ⟨f x, by simp [hx], hf x⟩

theorem settleSheds_settles (s : State) (b w : Nat) : SettleKeeps b w s (s.updBlock b Block.settleSheds) := by
  refine ⟨rfl, fun c hc => by rw [block?_updBlock, if_neg hc], ?_⟩
  cases hk : s.block? b with
  | none => simp [block?_updBlock, hk]
  | some k =>
    refine ⟨k.settleSheds, by simp [block?_updBlock, hk], rfl, fun _ _ => rfl, ?_⟩
    cases hx : AMap.get? k.warps w with
    | none => exact hx
    | some x => exact ⟨x, hx, .refl x⟩

theorem mergeSplits_settles (b w n : Nat) (s : State) : SettleKeeps b w s (mergeSplits b w n s) := by
  induction n generalizing s with
  | zero => exact .of_port (.refl s)
  | succ n ih =>
    rw [mergeSplits]
    split
    · split
      · exact .of_port (.refl s)
      · rename_i k x _ _ _ i p j q _
        dsimp only
        refine .trans (.trans (.of_port ?_) (updWarp_settles _ b w _ fun y => ?_)) (ih _)
        · split
          · exact fetchLine_keeps s k.core k.world k.ctx p.pc
          · exact .refl s
        · exact .trans (.of_splits rfl) (Warp.dropEmpty_keeps _)
    · exact .of_port (.refl s)

/-- The end of a step of a warp changes only which splits hold its threads, and its block's sheds. -/
theorem settleWarp_settles (s : State) (b w : Nat) : SettleKeeps b w s (s.settleWarp b w) := by
  unfold settleWarp
  exact .trans (.trans (updWarp_settles s b w _ fun x =>
      .trans (.trans (Warp.dropEmpty_keeps x) (Warp.bringCommit_keeps _)) (Warp.gc_keeps _))
    (mergeSplits_settles b w 8 _)) (settleSheds_settles _ b w)

end State

end Sys2Proof.Machine
end

