-- ==== Sys2Proof/Laws/Lane.lean ====
section
/-! SUPPORT. A register-only lane instruction, said once: what its write leaves of the warp, and that it completes. -/

namespace Sys2Proof.Machine
open Claim

/-! ## The write of a result -/

/-- What the write of per-thread results does to the warp. -/
def Env.putWarp (e : Env) (d : BitVec 8) (k : Nat) (rs : List (Nat × List W32)) (x : Warp) : Warp :=
  if isS d then
    match rs with
    | [] => x
    | (_, ws) :: _ => x.writeUnis e.gen e.inTry (regNo d) (ws.take k)
  else if rs.isEmpty then x
  else x.writeVecs e.gen (maskOf fun t => rs.any fun r => r.1 == t) (regNo d) rs k

theorem Env.put_eq (e : Env) (s : State) (d : BitVec 8) (k : Nat) (rs : List (Nat × List W32)) :
    e.put s d k rs = s.updWarp e.b e.w (e.putWarp d k rs) := rfl

theorem regsOnly_refl (x : Warp) : RegsOnly x x := rfl
theorem regsOnly_trans {x y z : Warp} (h1 : RegsOnly x y) (h2 : RegsOnly y z) : RegsOnly x z := by
  unfold RegsOnly at *; rw [← h2, ← h1]

theorem not_isS_of_isV {d : BitVec 8} (h : isV d = true) : isS d = false := by
  simp only [isV, decide_eq_true_eq] at h
  simp only [isS, decide_eq_false_iff_not]
  omega

theorem mem_dstNames {d : BitVec 8} {k n : Nat} (h : isV d = true) : n ∈ dstNames d k ↔ regNo d ≤ n ∧ n < regNo d + k := by
  simp only [dstNames, h, if_true, List.mem_map, List.mem_range]
  constructor
  · rintro ⟨j, hj, rfl⟩; omega
  · intro hn; exact ⟨n - regNo d, by omega, by omega⟩

theorem mem_uniNames {d : BitVec 8} {k n : Nat} (h : isS d = true) : n ∈ uniNames d k ↔ regNo d ≤ n ∧ n < regNo d + k := by
  simp only [uniNames, h, if_true, List.mem_map, List.mem_range]
  constructor
  · rintro ⟨j, hj, rfl⟩; omega
  · intro hn; exact ⟨n - regNo d, by omega, by omega⟩

/-- The active threads of the issuer. -/
theorem mem_act {e : Env} {t : Nat} : t ∈ e.act ↔ t < 16 ∧ e.active.getLsbD t = true := mem_threadsOf _ _

theorem act_eq_nil {e : Env} : e.act = [] ↔ e.idle = true := by
  rw [Env.act, threadsOf_eq_nil]; simp [Env.idle]

theorem mask_of_runners {e : Env} {rs : List (Nat × List W32)} (h : rs.map Prod.fst = e.act) :
    (maskOf fun t => rs.any fun r => r.1 == t) = e.active := by
  refine BitVec.eq_of_getLsbD_eq fun i hi => ?_
  rw [getLsbD_maskOf]
  have : (rs.any fun r => r.1 == i) = true ↔ i ∈ e.act := by
    rw [← h]; simp
  rw [mem_act] at this
  by_cases hb : e.active.getLsbD i = true
  · rw [hb]; simp [hi, this.mpr ⟨hi, hb⟩]
  · have hn : ¬ (rs.any fun r => r.1 == i) = true := fun hc => hb (this.mp hc).2
    simp only [Bool.not_eq_true] at hb hn
    rw [hb, hn]; simp

/-- A write to a vector group: frame and values. -/
theorem putWarp_vec {e : Env} {d : BitVec 8} {k : Nat} {rs : List (Nat × List W32)} (hd : isV d = true)
    (hrs : rs.map Prod.fst = e.act) :
    Keeps e (e.putWarp d k rs e.wp) (dstNames d k) [] [] ∧
      ∀ t ws j, (t, ws) ∈ rs → j < k → Holds e (e.putWarp d k rs e.wp) (regNo d + j) t (ws.getD j 0#32) := by
  have hs := not_isS_of_isV hd
  by_cases hne : rs = []
  · subst hne
    have hx : e.putWarp d k [] e.wp = e.wp := by simp [Env.putWarp, hs]
    rw [hx]
    exact ⟨{ only := rfl, vecs := fun _ _ => rfl, inactive := fun _ _ _ _ _ h => h, unis := fun _ _ => ⟨rfl, rfl⟩,
             preds := fun _ _ _ => rfl, inactivePreds := fun _ _ _ _ => rfl, loads := rfl, region := by simp },
      fun t ws j h => by simp at h⟩
  · have hx : e.putWarp d k rs e.wp = e.wp.writeVecs e.gen e.active (regNo d) rs k := by
      simp only [Env.putWarp, hs, mask_of_runners hrs, Bool.false_eq_true, if_false, List.isEmpty_iff, hne]
    rw [hx]
    obtain ⟨hl, hr⟩ := Warp.writeVecs_spec e.wp e.gen e.active (regNo d) rs k
    have hrest := Warp.writeVecs_rest e.wp e.gen e.active (regNo d) rs k
    generalize e.wp.writeVecs e.gen e.active (regNo d) rs k = y at *
    refine ⟨{ only := ?_, vecs := ?_, inactive := ?_, unis := ?_, preds := ?_, inactivePreds := ?_, loads := hl, region := ?_ }, ?_⟩
    · unfold RegsOnly; rw [← hrest]
    · intro n hn
      rw [mem_dstNames hd] at hn
      rw [hr, if_neg hn]
    · intro n t v ht ha hv
      by_cases hn : regNo d ≤ n ∧ n < regNo d + k
      · exact vread_renamed_inactive (e := e) (e' := after e y) ht ha rfl rfl (lanes := lanesOf rs (n - regNo d))
          (by have := hr n; rw [if_pos hn] at this; exact this) hv
      · rw [← hv]
        exact vread_eq_of_reg? rfl rfl (by have := hr n; rw [if_neg hn] at this; exact this)
    · intro n _; rw [← hrest]; exact ⟨rfl, rfl⟩
    · intro p _ _; rw [← hrest]
    · intro p t _ _; rw [← hrest]
    · rw [← hrest]; simp
    · intro t ws j hm hj
      have hmem : t ∈ e.act := by rw [← hrs]; exact List.mem_map.mpr ⟨(t, ws), hm, rfl⟩
      obtain ⟨ht, ha⟩ := mem_act.mp hmem
      have h1 := hr (regNo d + j)
      rw [if_pos (by omega)] at h1
      have hj2 : regNo d + j - regNo d = j := by omega
      rw [hj2] at h1
      refine ⟨_, h1, (renamed_active ht ha).1, ?_, ?_⟩
      · rw [(renamed_active ht ha).2]
        exact lanesOf_get ht (by rw [hrs]; exact (List.nodup_range (n := 16)).filter _) hm
      · intro hp
        rw [renamed_pend ht ha] at hp
        simp only [Bool.and_eq_true, Bool.not_eq_true'] at hp
        obtain ⟨hall, hprev⟩ := hp
        constructor
        · cases hreg : e.wp.reg? (regNo d + j) with
          | none => rw [hreg] at hprev; simp at hprev
          | some r0 =>
            rw [hreg] at hprev
            simp only [Bool.and_eq_true] at hprev
            exact ⟨r0, rfl, hprev.2⟩
        · rw [List.all_eq_false] at hall
          obtain ⟨u, hu, hact⟩ := hall
          simp only [granuleThreads, List.mem_map, List.mem_range] at hu
          obtain ⟨i, hi, rfl⟩ := hu
          exact ⟨4 * (t / 4) + i, by omega, by omega, by simpa using hact⟩

/-- A write to a uniform group: frame and values. -/
theorem putWarp_uni {e : Env} {d : BitVec 8} {k : Nat} {rs : List (Nat × List W32)} (hd : isS d = true) (hk : k ≠ 0)
    (hrs : rs.map Prod.fst = e.act.take 1) (hlen : ∀ r ∈ rs, r.2.length = k) :
    Keeps e (e.putWarp d k rs e.wp) [] (uniNames d k) [] ∧
      ∀ t ws j, (t, ws) ∈ rs → j < k → regNo d + j ≠ 0 →
        AMap.get? (e.putWarp d k rs e.wp).sregs (regNo d + j) = some (ws.getD j 0#32) ∧
        AMap.get? (e.putWarp d k rs e.wp).stags (regNo d + j) = some e.gen := by
  cases rs with
  | nil =>
    have hidle : e.idle = true := by
      rw [← act_eq_nil]
      cases h : e.act with
      | nil => rfl
      | cons a l => rw [h] at hrs; simp at hrs
    have hx : e.putWarp d k [] e.wp = e.wp := by simp [Env.putWarp, hd]
    rw [hx]
    exact ⟨{ only := rfl, vecs := fun _ _ => rfl, inactive := fun _ _ _ _ _ h => h, unis := fun _ _ => ⟨rfl, rfl⟩,
             preds := fun _ _ _ => rfl, inactivePreds := fun _ _ _ _ => rfl, loads := rfl, region := by simp [hidle] },
      fun t ws j h => by simp at h⟩
  | cons r rs =>
    obtain ⟨t0, ws0⟩ := r
    have hnil : rs = [] := by
      have h1 := congrArg List.length hrs
      simp only [List.map_cons, List.length_cons, List.length_map, List.length_take] at h1
      cases rs with
      | nil => rfl
      | cons a l => simp only [List.length_cons] at h1; omega
    subst hnil
    have hact : e.idle = false := by
      cases h : e.idle with
      | false => rfl
      | true => rw [act_eq_nil.mpr h] at hrs; simp at hrs
    have hl0 : ws0.length = k := hlen (t0, ws0) (by simp)
    have hx : e.putWarp d k [(t0, ws0)] e.wp = e.wp.writeUnis e.gen e.inTry (regNo d) ws0 := by
      simp [Env.putWarp, hd, ← hl0]
    rw [hx]
    obtain ⟨hreg, hspec⟩ := Warp.writeUnis_spec e.wp e.gen e.inTry (regNo d) ws0
    have hrest := Warp.writeUnis_rest e.wp e.gen e.inTry (regNo d) ws0
    generalize e.wp.writeUnis e.gen e.inTry (regNo d) ws0 = y at *
    have hne : uniNames d k ≠ [] := by
      intro h
      have := (mem_uniNames (n := regNo d) (k := k) hd).mpr ⟨le_refl _, by omega⟩
      rw [h] at this; simp at this
    refine ⟨{ only := ?_, vecs := ?_, inactive := ?_, unis := ?_, preds := ?_, inactivePreds := ?_, loads := ?_, region := ?_ }, ?_⟩
    · unfold RegsOnly; rw [← hrest]
    · intro n _; rw [← hrest]; rfl
    · intro n t v _ _ hv
      rw [← hv]
      refine vread_eq_of_reg? rfl rfl ?_
      show y.reg? n = e.wp.reg? n
      rw [← hrest]; rfl
    · intro n hn
      have h := hspec n
      rw [if_neg] at h
      · exact Prod.mk.inj h
      · rintro ⟨h1, h2, h3⟩
        rcases hn with hn | hn
        · exact hn ((mem_uniNames hd).mpr ⟨h1, by omega⟩)
        · exact h3 hn
    · intro p _ _; rw [← hrest]
    · intro p t _ _; rw [← hrest]
    · rw [← hrest]; rfl
    · rw [hreg]
      have hw : ws0 ≠ [] := by rintro rfl; simp at hl0; omega
      by_cases ht : e.inTry = true <;> simp [ht, hw, hne, hact]
    · intro t ws j hm hj h0
      simp only [List.mem_singleton, Prod.mk.injEq] at hm
      obtain ⟨rfl, rfl⟩ := hm
      have h := hspec (regNo d + j)
      rw [if_pos ⟨by omega, by omega, h0⟩] at h
      have hj2 : regNo d + j - regNo d = j := by omega
      rw [hj2] at h
      obtain ⟨ha, hb⟩ := Prod.mk.inj h
      refine ⟨?_, hb⟩
      rw [ha, List.getElem?_eq_getElem (by omega)]
      simp [List.getD, List.getElem?_eq_getElem (show j < ws.length by omega)]

theorem putWarp_turn (e : Env) (d : BitVec 8) (k : Nat) (rs : List (Nat × List W32)) (x : Warp) :
    (e.putWarp d k rs x).retired = x.retired ∧ (e.putWarp d k rs x).active = x.active := by
  unfold Env.putWarp
  split
  · split
    · exact ⟨rfl, rfl⟩
    · rw [← Warp.writeUnis_rest]; exact ⟨rfl, rfl⟩
  · split
    · exact ⟨rfl, rfl⟩
    · rw [← Warp.writeVecs_rest]; exact ⟨rfl, rfl⟩

/-! ## Completion -/

/-- The warp after a turn that retires. -/
def turned (e : Env) (pc : W64) (y : Warp) : Warp :=
  { y with retired := y.retired + 1, skid := if y.due then 1 else y.skid, due := false, splitPtr := e.sp, polled := 0,
           active := AMap.modify y.active e.sp fun q => { q with pc := pc, park := .ready } }

theorem turned_reg? (e : Env) (pc : W64) (y : Warp) (n : Nat) : (turned e pc y).reg? n = y.reg? n := rfl
theorem turned_preds (e : Env) (pc : W64) (y : Warp) : (turned e pc y).preds = y.preds := rfl

/-- So far an instruction has changed its own warp only, to `y`. -/
structure Changed (e : Env) (s1 s2 : State) (y : Warp) : Prop where
  rest : State.OnlyBlock e.b s1 s2
  block : ∃ k, s2.block? e.b = some k ∧ e.blk.RunKeeps k ∧ k.retired = e.blk.retired ∧
    AMap.get? k.warps e.w = some y ∧ ∀ v, v ≠ e.w → AMap.get? k.warps v = AMap.get? e.blk.warps v

theorem changed_start {e : Env} {s1 : State} (hk : s1.block? e.b = some e.blk) (hw : AMap.get? e.blk.warps e.w = some e.wp) :
    Changed e s1 s1 e.wp :=
  ⟨⟨rfl, fun _ _ => rfl⟩, e.blk, hk, rfl, rfl, hw, fun _ _ => rfl⟩

theorem changed_upd {e : Env} {s1 s2 : State} {y : Warp} (h : Changed e s1 s2 y) (g : Warp → Warp) :
    Changed e s1 (s2.updWarp e.b e.w g) (g y) := by
  obtain ⟨hr, k, hk, h1, h2, h3, h4⟩ := h
  obtain ⟨k1, a1, a2, a3, a4⟩ := updWarp_runs (w := e.w) (f := g) hk
  refine ⟨hr.trans (updWarp_only s2 e.b e.w g), k1, a1, h1.trans a2, a3.trans h2, ?_, fun v hv => ?_⟩
  · rw [a4, if_pos rfl, h3]; rfl
  · rw [a4, if_neg hv, h4 v hv]

theorem changed_retired {e : Env} {s1 s2 : State} {y : Warp} {pc : W64} (h : Changed e s1 s2 y)
    (hs : AMap.get? e.wp.active e.sp = some e.split) (hr : y.retired = e.wp.retired) (ha : y.active = e.wp.active) :
    Retired e s1 (s2.retireTo e pc) (turned e pc y) pc := by
  obtain ⟨ho, k, hk, h1, h2, h3, h4⟩ := h
  obtain ⟨k2, a1, a2, a3, a4⟩ := block?_retireTo (pc := pc) hk
  refine { rest := ho.trans (retireTo_only _ e pc), block := ⟨k2, a1, h1.trans a2, by omega, ?_, fun v hv => ?_⟩,
           count := by simp [turned, hr], split := by simp [turned, ha, hs], splits := ?_ }
  · rw [a4, if_pos rfl, h3]; rfl
  · rw [a4, if_neg hv, h4 v hv]
  · intro p hp; simp [turned, ha, hp]

theorem retired_updWarp {s1 : State} {e : Env} {pc : W64} {g : Warp → Warp} (hk : s1.block? e.b = some e.blk)
    (hw : AMap.get? e.blk.warps e.w = some e.wp) (hs : AMap.get? e.wp.active e.sp = some e.split)
    (hr : (g e.wp).retired = e.wp.retired) (ha : (g e.wp).active = e.wp.active) :
    Retired e s1 ((s1.updWarp e.b e.w g).retireTo e pc) (turned e pc (g e.wp)) pc :=
  changed_retired (changed_upd (changed_start hk hw) g) hs hr ha

/-- A turn changes no register. -/
theorem keeps_turned {e : Env} {y : Warp} {ns us ps : List Nat} (pc : W64) (h : Keeps e y ns us ps) :
    Keeps e (Machine.turned e pc y) ns us ps where
  only := regsOnly_trans h.only rfl
  vecs := h.vecs
  inactive := h.inactive
  unis := h.unis
  preds := h.preds
  inactivePreds := h.inactivePreds
  loads := h.loads
  region := h.region

/-- A turn of an instruction that does nothing else. -/
theorem retired_same {s1 : State} {e : Env} {pc : W64} (hk : s1.block? e.b = some e.blk)
    (hw : AMap.get? e.blk.warps e.w = some e.wp) (hs : AMap.get? e.wp.active e.sp = some e.split) :
    Retired e s1 (s1.retireTo e pc) (turned e pc e.wp) pc :=
  changed_retired (changed_start hk hw) hs rfl rfl

theorem keeps_refl (e : Env) (ns ps : List Nat) : Keeps e e.wp ns [] ps where
  only := rfl
  vecs _ _ := rfl
  inactive _ _ _ _ _ h := h
  unis _ _ := ⟨rfl, rfl⟩
  preds _ _ _ := rfl
  inactivePreds _ _ _ _ := rfl
  loads := rfl
  region := by simp

theorem keeps_idle {e : Env} (h : e.idle = true) (ns us ps : List Nat) : Keeps e e.wp ns us ps where
  only := rfl
  vecs _ _ := rfl
  inactive _ _ _ _ _ h := h
  unis _ _ := ⟨rfl, rfl⟩
  preds _ _ _ := rfl
  inactivePreds _ _ _ _ := rfl
  loads := rfl
  region := by simp [h]

/-- What the fetch of an issuing split leaves. -/
theorem issues_block {s : State} {e : Env} {l : FetchLine} {s1 : State} {pc : W64} (h : Issues s e l s1 pc) :
    s1.block? e.b = some e.blk ∧ AMap.get? e.blk.warps e.w = some e.wp ∧ AMap.get? e.wp.active e.sp = some e.split := by
  obtain ⟨_, h1, h2, h3⟩ := issuer_spec h.who
  have hp := State.issueLine_keeps s e
  rw [h.line] at hp
  exact ⟨(hp.block? e.b).trans h1, h2, h3⟩

/-- A checked instruction without feature, static target, try or shuttle conditions. -/
structure Plain (sp : LaneSpec) : Prop where
  feat : sp.feat = none
  opOk : sp.opOk = true
  moodOk : sp.moodOk = true
  target : sp.target = none
  illegal : sp.illegal = none
  shuttle : sp.shuttle = false
  pre : sp.pre = none

theorem Plain.run {sp : LaneSpec} {e : Env} {l : FetchLine} {s : State} (h : Plain sp)
    (hr : Room e sp.dsts) (hg : sp.guarded = true) : sp.run e l s = if e.idle = true then .ok s else sp.act s l := by
  rw [LaneSpec.run_pass (s1 := s) (by simp [LaneSpec.featOff, h.feat]) h.opOk h.moodOk
    (by simp [LaneSpec.checkTarget, h.target]) (fun _ => h.illegal) (by simp [h.shuttle]) h.pre]
  · simp [hg]
  · rcases hr with h1 | h1 | h1
    · exact .inl h1
    · exact .inr (.inl (by simp [hg, h1]))
    · exact .inr (.inr h1)

theorem wordsFor_getD {k v j : Nat} (hk : k = 1 ∨ k = 2) (hj : j < k) :
    (wordsFor k v).getD j 0#32 = BitVec.ofNat 32 (v / 2 ^ (32 * j)) ∧ (wordsFor k v).length = k := by
  rcases hk with rfl | rfl
  · have : j = 0 := by omega
    subst this; simp [wordsFor]
  · have : j = 0 ∨ j = 1 := by omega
    rcases this with rfl | rfl <;> simp [wordsFor, words2]

/-- The writing of results, from a state in which the instruction has so far changed only its own warp: it succeeds when
every thread has its result, and leaves the results in the destination and nothing else. -/
theorem result_done {c : Env} {s1 s2 : State} {d : BitVec 8} {k : Nat} {f : Nat → Except (BitVec 8) Nat} {pc : W64}
    (hch : Changed c s1 s2 c.wp) (hs : AMap.get? c.wp.active c.sp = some c.split) (hk : k = 1 ∨ k = 2)
    (hd : isV d = true ∨ isS d = true) (hres : ∀ t, t ∈ c.runners d → ∃ v, f t = .ok v) (l : FetchLine) :
    ∃ s3 x, c.result d k f s2 l = .ok s3 ∧ Retired c s1 (s3.retireTo c pc) x pc ∧
      Keeps c x (dstNames d k) (uniNames d k) [] ∧ ∀ t v, t ∈ c.runners d → f t = .ok v → Got c x d k t v := by
  obtain ⟨rs, hrs, hmap, hval⟩ := eachThread_ok (f := f) (ts := c.runners d) hres
  have hmem : ∀ t v, t ∈ c.runners d → f t = .ok v → (t, wordsFor k v) ∈ rs.map fun r => (r.1, wordsFor k r.2) := by
    intro t v ht hv
    rw [← hmap] at ht
    obtain ⟨r, hr, rfl⟩ := List.mem_map.mp ht
    have h1 := hval r hr
    rw [hv] at h1
    cases h1
    exact List.mem_map.mpr ⟨r, hr, rfl⟩
  have heq : c.result d k f s2 l = .ok (s2.updWarp c.b c.w (c.putWarp d k (rs.map fun r => (r.1, wordsFor k r.2)))) := by
    rw [Env.result, hrs]; rfl
  have hlen : ∀ r ∈ rs.map (fun r => (r.1, wordsFor k r.2)), r.2.length = k := by
    intro r hr
    obtain ⟨q, _, rfl⟩ := List.mem_map.mp hr
    exact (wordsFor_getD (j := 0) hk (by omega)).2
  have hfst : (rs.map fun r => (r.1, wordsFor k r.2)).map Prod.fst = c.runners d := by
    rw [List.map_map, ← hmap]; rfl
  generalize (rs.map fun r => (r.1, wordsFor k r.2)) = ws at *
  refine ⟨_, turned c pc (c.putWarp d k ws c.wp), heq,
    changed_retired (changed_upd hch _) hs (putWarp_turn _ _ _ _ _).1 (putWarp_turn _ _ _ _ _).2, ?_⟩
  by_cases hdv : isV d = true
  · have hu : uniNames d k = [] := by simp [uniNames, not_isS_of_isV hdv]
    rw [hu]
    have hfst2 : ws.map Prod.fst = c.act := by rw [hfst, Env.runners, not_isS_of_isV hdv]; simp
    obtain ⟨hkeep, hgot⟩ := putWarp_vec (k := k) hdv hfst2
    refine ⟨keeps_turned pc hkeep, ?_⟩
    intro t v ht hv j hj
    simp only [not_isS_of_isV hdv, Bool.false_eq_true, if_false]
    have h := hgot t _ j (hmem t v ht hv) hj
    rw [(wordsFor_getD hk hj).1] at h
    exact h
  · have hds2 : isS d = true := hd.resolve_left hdv
    have hn : dstNames d k = [] := by simp [dstNames, hdv]
    rw [hn]
    have hfst2 : ws.map Prod.fst = c.act.take 1 := by rw [hfst, Env.runners, hds2]; simp
    obtain ⟨hkeep, hgot⟩ := putWarp_uni (k := k) hds2 (by omega) hfst2 hlen
    refine ⟨keeps_turned pc hkeep, ?_⟩
    intro t v ht hv j hj
    simp only [hds2, if_true]
    intro h0
    have h := hgot t _ j (hmem t v ht hv) hj h0
    rw [(wordsFor_getD hk hj).1] at h
    exact h

/-- A register-only instruction completes with its results (R376): `act` is the shared writing of results wherever the
instruction has a thread to run for. -/
theorem yields_of_act {i : Instr} {d : BitVec 8} {regs : Env → Nat} {ok : Env → Prop} {res : Env → Nat → Nat → Prop}
    (sp : Env → LaneSpec) (f : Env → Nat → Except (BitVec 8) Nat) (hx : ∀ s, exec i s = runLane sp s)
    (hp : ∀ e, i.wf = true → ok e → Plain (sp e) ∧ (sp e).guarded = true ∧ (sp e).dsts = dstNames d (regs e) ∧
      (∀ s l, (∀ t, t ∈ e.runners d → ∃ v, res e t v) → e.runners d ≠ [] → (sp e).act s l = e.result d (regs e) (f e) s l) ∧
      (regs e = 1 ∨ regs e = 2) ∧ (isV d = true ∨ isS d = true))
    (hf : ∀ e t v, ok e → res e t v → f e t = .ok v) : Yields i d regs ok res := by
  intro s e l s1 pc hi hwf hok hroom hres
  obtain ⟨hpl, hg, hds, hact, hk, hd⟩ := hp e hwf hok
  obtain ⟨hb, hw, hs⟩ := issues_block hi
  have hrun := hpl.run (l := l) (s := s1) (hds ▸ hroom) hg
  by_cases hid : e.idle = true
  · rw [if_pos hid] at hrun
    refine ⟨s1.retireTo e pc, turned e pc e.wp, ?_, retired_same hb hw hs, keeps_turned pc (keeps_idle hid _ _ _), ?_⟩
    · rw [hx, runLane_ok hi.who hi.line hi.next hrun]
    · intro t v ht
      exfalso
      have : e.act = [] := act_eq_nil.mpr hid
      unfold Env.runners at ht
      split at ht <;> simp [this] at ht
  · have hne : e.runners d ≠ [] := by
      intro h
      apply hid
      rw [← act_eq_nil]
      unfold Env.runners at h
      split at h
      · simpa using h
      · exact h
    rw [if_neg hid, hact s1 l hres hne] at hrun
    obtain ⟨s3, x, h1, h2, h3, h4⟩ := result_done (pc := pc) (f := f e) (changed_start hb hw) hs hk hd
      (fun t ht => by obtain ⟨v, hv⟩ := hres t ht; exact ⟨v, hf e t v hok hv⟩) l
    rw [h1] at hrun
    exact ⟨_, x, by rw [hx, runLane_ok hi.who hi.line hi.next hrun], h2, h3, fun t v ht hv => h4 t v ht (hf e t v hok hv)⟩

/-- A register-only instruction completes with its results (R376). -/
theorem yields_of {i : Instr} {d : BitVec 8} {regs : Env → Nat} {ok : Env → Prop} {res : Env → Nat → Nat → Prop}
    (sp : Env → LaneSpec) (f : Env → Nat → Except (BitVec 8) Nat) (hx : ∀ s, exec i s = runLane sp s)
    (hp : ∀ e, i.wf = true → ok e → Plain (sp e) ∧ (sp e).guarded = true ∧ (sp e).dsts = dstNames d (regs e) ∧
      (sp e).act = e.result d (regs e) (f e) ∧ (regs e = 1 ∨ regs e = 2) ∧ (isV d = true ∨ isS d = true))
    (hf : ∀ e t v, ok e → res e t v → f e t = .ok v) : Yields i d regs ok res := by
  refine yields_of_act sp f hx (fun e hw ho => ?_) hf
  obtain ⟨h1, h2, h3, h4, h5, h6⟩ := hp e hw ho
  exact ⟨h1, h2, h3, fun _ _ _ _ => by rw [h4], h5, h6⟩

/-! ## Predicate results -/

theorem writePred_get (x : Warp) (a : BitVec 16) (n : Nat) (v : BitVec 16) (p : Nat) (hp : p < 7) :
    (x.writePred a n v).preds.getD p 0#16 =
      if p = n then (x.preds.getD p 0#16 &&& ~~~a) ||| (v &&& a) else x.preds.getD p 0#16 := by
  unfold Warp.writePred
  split
  · rename_i h; rw [if_neg (by omega)]
  · rw [List.getD_eq_getElem?_getD, List.getElem?_map, List.getElem?_range hp]
    simp only [Option.map_some, Option.getD_some]

theorem writePred_rest (x : Warp) (a : BitVec 16) (n : Nat) (v : BitVec 16) :
    { x with preds := (x.writePred a n v).preds } = x.writePred a n v := by
  unfold Warp.writePred; split <;> rfl

theorem writePred_reg? (x : Warp) (a : BitVec 16) (n : Nat) (v : BitVec 16) (j : Nat) :
    (x.writePred a n v).reg? j = x.reg? j := by
  unfold Warp.writePred; split <;> rfl

/-- A predicate write after other writes: frame. -/
theorem keeps_pred {e : Env} {y : Warp} {ns us ps : List Nat} (h : Keeps e y ns us ps) (n : Nat) (v : BitVec 16) :
    Keeps e (y.writePred e.active n v) ns us (n :: ps) := by
  have hrest := writePred_rest y e.active n v
  have hget := writePred_get y e.active n v
  generalize y.writePred e.active n v = z at *
  refine { only := regsOnly_trans h.only ?_, vecs := ?_, inactive := ?_, unis := ?_, preds := ?_, inactivePreds := ?_, loads := ?_, region := ?_ }
  · unfold RegsOnly; rw [← hrest]
  · intro m hm; rw [← hrest]; exact h.vecs m hm
  · intro m t w ht ha hv
    rw [← h.inactive m t w ht ha hv]
    refine vread_eq_of_reg? rfl rfl ?_
    show z.reg? m = y.reg? m
    rw [← hrest]; rfl
  · intro m hm; rw [← hrest]; exact h.unis m hm
  · intro p hp hn
    simp only [List.mem_cons, not_or] at hn
    rw [hget p hp, if_neg hn.1]; exact h.preds p hp hn.2
  · intro p t hp ha
    rw [hget p hp]
    split
    · rw [← h.inactivePreds p t hp ha]
      have hlt : (y.preds.getD p 0#16).getLsbD t = true → t < 16 := BitVec.lt_of_getLsbD
      simp [ha]
      simpa using hlt
    · exact h.inactivePreds p t hp ha
  · rw [← hrest]; exact h.loads
  · rw [← hrest]; exact h.region

/-- A predicate write: frame. -/
theorem writePred_keeps (e : Env) (n : Nat) (v : BitVec 16) : Keeps e (e.wp.writePred e.active n v) [] [] [n] :=
  keeps_pred (keeps_refl e [] []) n v

theorem isP_lt {d : BitVec 8} (h : isP d = true) : predNo d ≤ 7 := by
  simp only [isP, decide_eq_true_eq] at h
  unfold predNo; omega

/-- A compare completes with its predicate bits (R377). -/
theorem tests_of {i : Instr} {d : BitVec 8} {ok : Env → Prop} {res : Env → Nat → Bool → Prop}
    (sp : Env → LaneSpec) (f : Env → Nat → Except (BitVec 8) Bool) (hx : ∀ s, exec i s = runLane sp s)
    (hp : ∀ e, i.wf = true → ok e → Plain (sp e) ∧ (sp e).guarded = true ∧ (sp e).dsts = [] ∧
      (sp e).act = e.predResult d (f e) ∧ isP d = true)
    (hf : ∀ e t v, ok e → res e t v → f e t = .ok v) : Tests i d ok res := by
  intro s e l s1 pc hi hwf hok hres
  obtain ⟨hpl, hg, hds, hact, hd⟩ := hp e hwf hok
  obtain ⟨hb, hw, hs⟩ := issues_block hi
  have hrun := hpl.run (e := e) (l := l) (s := s1) (.inl hds) hg
  by_cases hid : e.idle = true
  · rw [if_pos hid] at hrun
    refine ⟨s1.retireTo e pc, turned e pc e.wp, ?_, retired_same hb hw hs, keeps_turned pc (keeps_idle hid _ _ _), ?_⟩
    · rw [hx, runLane_ok hi.who hi.line hi.next hrun]
    · intro t v ht
      rw [act_eq_nil.mpr hid] at ht
      simp at ht
  · rw [if_neg hid, hact] at hrun
    obtain ⟨rs, hrs, hmap, hval⟩ := eachThread_ok (f := f e) (ts := e.act) fun t ht => by
      obtain ⟨v, hv⟩ := hres t ht
      exact ⟨v, hf e t v hok hv⟩
    have hrun2 : (sp e).run e l s1 = .ok (s1.updWarp e.b e.w fun x =>
        x.writePred e.active (predNo d) (maskOf fun t => rs.any fun r => r.1 == t && r.2)) := by
      rw [hrun, Env.predResult, hrs]
    refine ⟨_, _, by rw [hx, runLane_ok hi.who hi.line hi.next hrun2],
      retired_updWarp hb hw hs (g := fun x =>
        x.writePred e.active (predNo d) (maskOf fun t => rs.any fun r => r.1 == t && r.2)) (by rw [← writePred_rest])
        (by rw [← writePred_rest]), keeps_turned pc (writePred_keeps e _ _), ?_⟩
    intro t v ht hv h7
    have hle := isP_lt hd
    obtain ⟨ht16, hta⟩ := mem_act.mp ht
    have hr : ∀ r ∈ rs, r.1 = t → r.2 = v := by
      intro r hr hrt
      have h1 := hval r hr
      rw [hrt, hf e t v hok hv] at h1
      cases h1; rfl
    have hex : ∃ r ∈ rs, r.1 = t := by
      rw [← hmap] at ht
      obtain ⟨r, hm, rfl⟩ := List.mem_map.mp ht
      exact ⟨r, hm, rfl⟩
    obtain ⟨r, hrm, hrt⟩ := hex
    have hany : (rs.any fun r => r.1 == t && r.2) = v := by
      rcases Bool.eq_false_or_eq_true v with h | h
      · rw [h]; exact List.any_eq_true.mpr ⟨r, hrm, by simp [hrt, hr r hrm hrt, h]⟩
      · rw [h, List.any_eq_false]
        intro q hq hc
        simp only [Bool.and_eq_true, beq_iff_eq] at hc
        rw [hr q hq hc.1, h] at hc
        exact absurd hc.2 (by simp)
    rw [turned_preds, writePred_get _ _ _ _ _ (by omega), if_pos rfl]
    simp only [BitVec.getLsbD_or, BitVec.getLsbD_and, BitVec.getLsbD_not, hta, ht16, getLsbD_maskOf, decide_true,
      Bool.true_and, Bool.not_true, Bool.and_false, Bool.false_or, Bool.and_true, hany]

end Sys2Proof.Machine
end

