-- ==== Sys2Proof/Laws/Ctrl.lean ====
section
/-! SUPPORT. What an instruction comes to, said once for each outcome: completing, jumping, parking, and what its turn
leaves of the warp. -/

namespace Sys2Proof.Machine
open Claim

theorem does_of {i : Instr} {ok : Env → FetchLine → State → Prop} {f : Env → FetchLine → State → State} (sp : Env → LaneSpec)
    (hx : ∀ s, exec i s = runLane sp s)
    (h : ∀ e l s, i.wf = true → ok e l s → (sp e).run e l s = .ok (f e l s)) : Does i ok f := by
  intro s e l s1 pc hi hw ho
  rw [hx, runLane_ok hi.who hi.line hi.next (h e l s1 hw ho)]

theorem doesThen_of {i : Instr} {ok : Env → FetchLine → State → Prop} {f : Env → FetchLine → State → State}
    {g : Env → State → State} (sp : Env → LaneSpec) (hx : ∀ s, exec i s = runLane sp s)
    (h : ∀ e l s, i.wf = true → ok e l s → (sp e).run e l s = .okThen (f e l s) (g e)) : DoesThen i ok f g := by
  intro s e l s1 pc hi hw ho
  rw [hx]
  unfold runLane
  simp only [hi.who, hi.line, h e l s1 hw ho, State.finish, State.continueSplit, hi.next, State.retireTo]

theorem jumps_of {i : Instr} {ok : Env → FetchLine → State → Prop} {f : Env → FetchLine → State → State} (sp : Env → LaneSpec)
    (hx : ∀ s, exec i s = runLane sp s)
    (h : ∀ e l s, i.wf = true → ok e l s → (sp e).run e l s = .jump (f e l s)) : Jumps i ok f := by
  intro s e l s1 hi hw ho
  rw [hx, runLane_jump hi.1 hi.2 (h e l s1 hw ho)]

theorem parks_of {i : Instr} {ok : Env → FetchLine → State → Prop} {f : Env → FetchLine → State → State}
    {p : Env → State → Park} (sp : Env → LaneSpec) (hx : ∀ s, exec i s = runLane sp s)
    (h : ∀ e l s, i.wf = true → ok e l s → (sp e).run e l s = .park (f e l s) (p e s)) : Parks i ok f p := by
  intro s e l s1 hi hw ho
  rw [hx, runLane_park hi.1 hi.2 (h e l s1 hw ho)]

/-- An instruction without conditions acts. -/
theorem run_plainSpec {ill : Option Nat} {act : Env → State → FetchLine → Eff} {e : Env} {l : FetchLine} {s : State}
    (h : ill = none ∨ e.inTry = false) : (plainSpec ill act e).run e l s = act e s l := by
  rw [LaneSpec.run_pass (s1 := s) rfl rfl rfl rfl (fun ht => ?_) (by intro hc; cases hc) rfl (.inl rfl)]
  · simp [plainSpec]
  · rcases h with h | h
    · exact h
    · rw [h] at ht; cases ht

/-- What the fetch of a split leaves. -/
theorem fetches_block {s : State} {e : Env} {l : FetchLine} {s1 : State} (h : Fetches s e l s1) :
    s1.block? e.b = some e.blk ∧ AMap.get? e.blk.warps e.w = some e.wp ∧ AMap.get? e.wp.active e.sp = some e.split := by
  obtain ⟨_, h1, h2, h3⟩ := issuer_spec h.1
  have hp := State.issueLine_keeps s e
  rw [h.2] at hp
  exact ⟨(hp.block? e.b).trans h1, h2, h3⟩

/-- The warp after a turn of an instruction that has set its split itself. -/
def spent (e : Env) (y : Warp) : Warp :=
  { y with retired := y.retired + 1, skid := if y.due then 1 else y.skid, due := false, splitPtr := e.sp, polled := 0 }

theorem changed_turned {e : Env} {s1 s2 : State} {y : Warp} (h : Changed e s1 s2 y) :
    Turned e y s1 (s2.retire e.b e.w e.sp) (spent e y) := by
  obtain ⟨ho, k, hk, h1, h2, h3, h4⟩ := h
  obtain ⟨k2, a1, a2, a3, a4⟩ := retire_runs (w := e.w) (sp := e.sp) hk
  refine { rest := ho.trans (retire_only _ _ _ _), block := ⟨k2, a1, h1.trans a2, by omega, ?_, fun v hv => ?_⟩,
           count := rfl, active := rfl, pending := rfl }
  · rw [a4, if_pos rfl, h3]; rfl
  · rw [a4, if_neg hv, h4 v hv]

/-- As a turn moves nothing else, a jump of the whole split is a retirement at its target. -/
theorem turned_moved {e : Env} {s1 r : State} {y x : Warp} {pc : W64} (h : Turned e y s1 r x)
    (hr : y.retired = e.wp.retired)
    (hy : AMap.get? y.active e.sp = some { e.split with pc := pc, park := .ready })
    (ho : ∀ p, p ≠ e.sp → AMap.get? y.active p = AMap.get? e.wp.active p) : Retired e s1 r x pc where
  rest := h.rest
  block := h.block
  count := by rw [h.count, hr]
  split := by rw [h.active, hy]
  splits p hp := by rw [h.active, ho p hp]

theorem keeps_spent {c e : Env} {y : Warp} {ns us ps : List Nat} (h : Keeps c y ns us ps) : Keeps c (spent e y) ns us ps where
  only := regsOnly_trans h.only rfl
  vecs := h.vecs
  inactive := h.inactive
  unis := h.unis
  preds := h.preds
  inactivePreds := h.inactivePreds
  loads := h.loads
  region := h.region

/-- The warp with its split at a target. -/
def movedTo (e : Env) (pc : W64) (y : Warp) : Warp :=
  { y with active := AMap.modify y.active e.sp fun q => { q with pc := pc, park := .ready } }

theorem keeps_movedTo {e : Env} {y : Warp} {ns us ps : List Nat} (pc : W64) (h : Keeps e y ns us ps) :
    Keeps e (movedTo e pc y) ns us ps where
  only := regsOnly_trans h.only rfl
  vecs := h.vecs
  inactive := h.inactive
  unis := h.unis
  preds := h.preds
  inactivePreds := h.inactivePreds
  loads := h.loads
  region := h.region

theorem changed_moved {e : Env} {s1 s2 : State} {y : Warp} {pc : W64} (h : Changed e s1 s2 y) :
    Changed e s1 (e.moveTo s2 pc) (movedTo e pc y) := changed_upd h _

/-- A jump of the whole split after its warp has become `y`. -/
theorem retired_moved {e : Env} {s1 s2 : State} {y : Warp} {pc : W64} (h : Changed e s1 s2 y)
    (hs : AMap.get? e.wp.active e.sp = some e.split) (hr : y.retired = e.wp.retired) (ha : y.active = e.wp.active) :
    Retired e s1 ((e.moveTo s2 pc).retire e.b e.w e.sp) (spent e (movedTo e pc y)) pc := by
  refine turned_moved (changed_turned (changed_moved h)) hr ?_ ?_
  · simp [movedTo, ha, hs]
  · intro p hp; simp [movedTo, ha, hp]

/-! ## Results -/

theorem putWarp_take {e : Env} {d : BitVec 8} {k : Nat} {rs : List (Nat × List W32)} (hd : isS d = true) (x : Warp) :
    e.putWarp d k rs x = e.putWarp d k (rs.take 1) x := by
  cases rs with
  | nil => rfl
  | cons r rs => simp [Env.putWarp, hd]

theorem nodup_fst_unique {rs : List (Nat × List W32)} (h : (rs.map Prod.fst).Nodup) {t : Nat} {a b : List W32}
    (ha : (t, a) ∈ rs) (hb : (t, b) ∈ rs) : a = b := by
  induction rs with
  | nil => cases ha
  | cons r rs ih =>
    simp only [List.map_cons, List.nodup_cons, List.mem_map, not_exists, not_and] at h
    rcases List.mem_cons.mp ha with ha | ha
    · rcases List.mem_cons.mp hb with hb | hb
      · exact (Prod.mk.inj (ha.trans hb.symm)).2
      · exact (h.1 _ hb (by rw [← ha])).elim
    · rcases List.mem_cons.mp hb with hb | hb
      · exact (h.1 _ ha (by rw [← hb])).elim
      · exact ih h.2 ha hb

/-- A write of results leaves them in the destination and nothing else. -/
theorem put_got {e : Env} {d : BitVec 8} {k : Nat} {rs : List (Nat × List W32)} (hk : k ≠ 0)
    (hd : isV d = true ∨ isS d = true) (hfst : rs.map Prod.fst = e.act ∨ (isS d = true ∧ rs.map Prod.fst = e.act.take 1))
    (hlen : ∀ r ∈ rs, r.2.length = k) :
    Keeps e (e.putWarp d k rs e.wp) (dstNames d k) (uniNames d k) [] ∧
      ∀ t ws v, (t, ws) ∈ rs → t ∈ e.runners d → (∀ j, j < k → ws.getD j 0#32 = BitVec.ofNat 32 (v / 2 ^ (32 * j))) →
        Got e (e.putWarp d k rs e.wp) d k t v := by
  by_cases hv : isV d = true
  · have hns := not_isS_of_isV hv
    have hf : rs.map Prod.fst = e.act := hfst.resolve_right (by simp [hns])
    rw [show uniNames d k = [] by simp [uniNames, hns]]
    obtain ⟨h1, h2⟩ := putWarp_vec (k := k) hv hf
    refine ⟨h1, ?_⟩
    intro t ws v hm _ hw j hj
    simp only [hns, Bool.false_eq_true, if_false]
    rw [← hw j hj]
    exact h2 t ws j hm hj
  · have hs := hd.resolve_left hv
    rw [show dstNames d k = [] by simp [dstNames, hv], putWarp_take hs]
    have hf : (rs.take 1).map Prod.fst = e.act.take 1 := by
      rw [List.map_take]
      rcases hfst with h | ⟨_, h⟩
      · rw [h]
      · rw [h]; simp
    obtain ⟨h1, h2⟩ := putWarp_uni (k := k) hs hk hf (fun r hr => hlen r (List.mem_of_mem_take hr))
    refine ⟨h1, ?_⟩
    intro t ws v hm ht hw j hj
    simp only [hs, if_true]
    intro h0
    rw [← hw j hj]
    have hnd : (rs.map Prod.fst).Nodup := by
      rcases hfst with h | ⟨_, h⟩
      · rw [h]; exact (List.nodup_range (n := 16)).filter _
      · rw [h]; exact ((List.nodup_range (n := 16)).filter _).sublist (List.take_sublist _ _)
    have hin : ∃ ws', (t, ws') ∈ rs.take 1 := by
      simp only [Env.runners, hs, if_true] at ht
      rw [← hf] at ht
      obtain ⟨r, hr, rfl⟩ := List.mem_map.mp ht
      exact ⟨r.2, hr⟩
    obtain ⟨ws', h'⟩ := hin
    have : ws' = ws := nodup_fst_unique hnd (List.mem_of_mem_take h') hm
    subst this
    exact h2 t ws' j h' hj h0

theorem sext_eq_toInt {n : Nat} (o : BitVec n) : sext n o.toNat = o.toInt := by
  unfold sext
  rw [BitVec.toInt_eq_toNat_cond]
  have := o.isLt
  dsimp only
  rw [Nat.mod_eq_of_lt this]
  by_cases h0 : n = 0
  · subst h0
    simp only [pow_zero] at this
    simp [show o.toNat = 0 by omega]
  · have h2 : 2 ^ n = 2 * 2 ^ (n - 1) := by
      conv => lhs; rw [show n = (n - 1) + 1 by omega, Nat.pow_succ]
      ring
    by_cases hc : o.toNat < 2 ^ (n - 1)
    · rw [if_pos hc, if_pos (by omega)]
    · rw [if_neg hc, if_neg (by omega)]

theorem ofNat_wrapN (z : Int) : BitVec.ofNat 64 (wrapN 64 z) = BitVec.ofInt 64 z := by
  apply BitVec.eq_of_toNat_eq
  simp only [wrapN, BitVec.toNat_ofNat, BitVec.toNat_ofInt]
  have h := Int.emod_nonneg z (b := ((2 ^ 64 : Nat) : Int)) (by norm_num)
  have h2 := Int.emod_lt_of_pos z (b := ((2 ^ 64 : Nat) : Int)) (by norm_num)
  rw [Nat.mod_eq_of_lt]
  omega

theorem targetOf_dest {n : Nat} (e : Env) (o : BitVec n) : targetOf e.pc (sext n o.toNat) = dest e o := by
  unfold targetOf dest
  rw [ofNat_wrapN, sext_eq_toInt, BitVec.ofInt_add, BitVec.ofInt_mul]
  congr 1
  exact BitVec.eq_of_toNat_eq (by simp)

end Sys2Proof.Machine
end

