-- ==== Sys2Proof/Laws/Agents.lean ====
section
/-! SUPPORT. Register writes, management commands and packets that are accepted, and what follows a step (R96, R103, R130). -/

namespace Sys2Proof.Machine
open Claim

theorem admits_of {s : State} {w t x} (h : Admitted s w t x) : x.admits t = true := by
  unfold World.admits
  obtain ⟨-, -, -, h⟩ := h
  cases ht : t.tbit
  · rfl
  · obtain ⟨h1, h2, h3⟩ := h ht
    rw [h3] at h2
    rcases h1 with h1 | h1 <;> simp [h1, h2, h3]

theorem vfWrite_of {s : State} {w t x f} (h : Admitted s w t x) : s.vfWrite w t f = f x := by
  unfold State.vfWrite
  rw [h.1]
  dsimp only
  rw [admits_of h, h.2.1, if_neg (by simp), if_neg h.2.2.1]

theorem command_of {s : State} {op fields device extra act b} {ex : List Nat} (h : Commanded s op fields device ex b)
    (he : extra (s.world? (leWord b 2 1)) b = ex) : s.command op fields device extra act = (match act s (leWord b 2 1) b with
      | (some r, s1) => { s1 with mcResult := some r }
      | (none, s1) => s1) := by
  unfold State.command
  rw [h.block]
  dsimp only
  rw [h.ready, h.busy, h.unanswered, h.code, if_neg (by simp), he, h.clean]
  all_goals rfl

theorem acts_of {i : Instr} {form : List Byte → Prop} {g : List Byte → Bool} {ok : State → Queue → List Byte → Prop}
    {out : State → Nat → Nat → Queue → List Byte → State} (act : PktAct)
    (hx : ∀ s, exec i s = .next (s.serve g act)) (hg : ∀ l, form l → g l = true)
    (h : ∀ s x l, ok s x l → form l → s.perform s.args.world s.args.queue x l act = out s s.args.world s.args.queue x l) : Acts i form ok out := by
  intro s x l r hs hf s1 hok
  rw [hx]
  congr 1
  unfold State.serve
  dsimp only
  rw [hs.queue]; dsimp only; rw [hs.first, hs.head]; dsimp only
  rw [if_neg (by simp [hg l hf, hs.going]), if_neg hs.active]
  exact h s1 x l hok hf

theorem laneTurned_slotTurn (t : State) : LaneTurned t t.slotTurn := by
  unfold State.slotTurn
  constructor
  · intro b w p k x hf hb hw hp
    rw [hf]; dsimp only
    rw [hb, hw]; dsimp only
    rw [if_pos hp]
  · intro h
    split
    · rename_i b w p hf
      split
      · rename_i k x hk hx
        rw [if_neg (h b w p x hf hx)]
      · rfl
    · rfl

theorem follows_goOn (o) : Follows o (goOn o) := by
  cases o with
  | next t =>
    refine ⟨Config.elapsed t.tick, t.slotTurn.candidates.getD (Config.choice t.tick % t.slotTurn.candidates.length) .idle, t.slotTurn,
      laneTurned_slotTurn t, rfl, ?_⟩
    by_cases h : t.slotTurn.candidates = []
    · right; refine ⟨h, ?_⟩; rw [h]; simp
    · left
      have hl : 0 < t.slotTurn.candidates.length := List.length_pos_iff.mpr h
      rw [List.getD_eq_getElem _ _ (Nat.mod_lt _ hl)]
      exact List.getElem_mem _
  | fault x => rfl
  | refused x => rfl

end Sys2Proof.Machine
end

