-- ==== Sys2Proof/Laws/Elems.lean ====
section
/-! SUPPORT. Elements of a pattern (R274, R345) and what a source reads (R337): every value fits its type, an elementwise
map is determined by its elements, and wrapping or clamping gives the one pattern that holds an exact result (R6, R275). -/

namespace Sys2Proof.Machine
open Claim

theorem tyWidth_pos (ty : Ty) : 0 < tyWidth ty := by unfold tyWidth; split_ifs <;> omega

/-- The elements of a type fill the operand. -/
theorem tyWidth_dvd (ty : Ty) : tyBits ty / tyWidth ty * tyWidth ty = tyBits ty := by
  unfold tyBits tyWidth; split_ifs <;> rfl

theorem cnt_pos (ty : Ty) : 0 < tyBits ty / tyWidth ty := by unfold tyBits tyWidth; split_ifs <;> decide

theorem el_lt (ty : Ty) (x k : Nat) : el ty x k < 2 ^ tyWidth ty := Nat.mod_lt _ (by positivity)

theorem elems_eq (ty : Ty) (x : Nat) : elems ty x = (List.range (tyBits ty / tyWidth ty)).map (el ty x) := by
  unfold elems el
  simp only [Nat.shiftRight_eq_div_pow]

/-! ## Packing -/

theorem packElems_lt (w : Nat) (l : List Nat) : packElems w l < 2 ^ (l.length * w) := by
  induction l with
  | nil => simp [packElems]
  | cons x l ih =>
    have h : x % 2 ^ w < 2 ^ w := Nat.mod_lt _ (by positivity)
    simp only [packElems, List.length_cons, Nat.add_mul, Nat.one_mul, Nat.pow_add]
    have h2 : packElems w l + 1 ≤ 2 ^ (l.length * w) := ih
    calc x % 2 ^ w + 2 ^ w * packElems w l < 2 ^ w * (packElems w l + 1) := by rw [Nat.mul_add]; omega
      _ ≤ 2 ^ w * 2 ^ (l.length * w) := Nat.mul_le_mul_left _ h2
      _ = 2 ^ (l.length * w) * 2 ^ w := Nat.mul_comm _ _

/-- Digit `k` of a packed list. -/
theorem packElems_digit (w : Nat) (l : List Nat) (k : Nat) (hk : k < l.length) :
    packElems w l / 2 ^ (k * w) % 2 ^ w = l.getD k 0 % 2 ^ w := by
  induction l generalizing k with
  | nil => simp at hk
  | cons x l ih =>
    cases k with
    | zero => simp [packElems, Nat.add_mul_mod_self_left]
    | succ k =>
      have h : x % 2 ^ w < 2 ^ w := Nat.mod_lt _ (by positivity)
      have hd : packElems w (x :: l) / 2 ^ w = packElems w l := by
        rw [packElems, Nat.add_mul_div_left _ _ (by positivity), Nat.div_eq_of_lt h, Nat.zero_add]
      rw [Nat.add_mul, Nat.one_mul, Nat.add_comm (k * w) w, Nat.pow_add, ← Nat.div_div_eq_div_mul, hd]
      simpa using ih k (by simpa using hk)

/-- Two patterns of `n` digits with the same digits are equal. -/
theorem digits_ext (w n u v : Nat) (hu : u < 2 ^ (n * w)) (hv : v < 2 ^ (n * w))
    (h : ∀ k, k < n → u / 2 ^ (k * w) % 2 ^ w = v / 2 ^ (k * w) % 2 ^ w) : u = v := by
  induction n generalizing u v with
  | zero => simp at hu hv; omega
  | succ n ih =>
    have h0 := h 0 (by omega)
    simp only [Nat.zero_mul, Nat.pow_zero, Nat.div_one] at h0
    have hq : u / 2 ^ w = v / 2 ^ w := by
      refine ih _ _ ?_ ?_ fun k hk => ?_
      · rw [Nat.div_lt_iff_lt_mul (by positivity), ← Nat.pow_add]; convert hu using 2; ring
      · rw [Nat.div_lt_iff_lt_mul (by positivity), ← Nat.pow_add]; convert hv using 2; ring
      · have := h (k + 1) (by omega)
        rw [Nat.add_mul, Nat.one_mul, Nat.add_comm (k * w) w, Nat.pow_add, ← Nat.div_div_eq_div_mul,
          ← Nat.div_div_eq_div_mul] at this
        exact this
    have h1 := Nat.div_add_mod u (2 ^ w)
    have h2 := Nat.div_add_mod v (2 ^ w)
    rw [hq, h0] at h1
    omega

/-- A packed map of the elements is the pattern with those elements. -/
theorem ofElems_eq {ty : Ty} {v : Nat} (g : Nat → Nat) (hv : v < 2 ^ tyBits ty)
    (h : ∀ k, k < tyBits ty / tyWidth ty → el ty v k = g k) :
    ofElems ty ((List.range (tyBits ty / tyWidth ty)).map g) = v := by
  have hb := tyWidth_dvd ty
  refine digits_ext (tyWidth ty) (tyBits ty / tyWidth ty) _ _ ?_ ?_ fun k hk => ?_
  · simpa [ofElems] using packElems_lt (tyWidth ty) ((List.range (tyBits ty / tyWidth ty)).map g)
  · rw [hb]; exact hv
  · rw [ofElems, packElems_digit _ _ _ (by simpa using hk)]
    have h2 := h k hk
    have h3 := el_lt ty v k
    simp only [List.getD, List.getElem?_map, List.getElem?_range hk, Option.map_some, Option.getD_some]
    rw [← h2, Nat.mod_eq_of_lt h3]; rfl

theorem map1_of_each {ty : Ty} {f : Nat → Nat} {x v : Nat} (hv : v < 2 ^ tyBits ty)
    (h : ∀ k, k < tyBits ty / tyWidth ty → f (el ty x k) = el ty v k) : map1 ty f x = v := by
  unfold map1
  rw [elems_eq, List.map_map]
  exact ofElems_eq _ hv fun k hk => (h k hk).symm

theorem zipWith_range (f : Nat → Nat → Nat) (g h : Nat → Nat) (n : Nat) :
    List.zipWith f ((List.range n).map g) ((List.range n).map h) = (List.range n).map fun k => f (g k) (h k) := by
  rw [List.zipWith_map, List.zipWith_self]

theorem map2_of_each {ty : Ty} {f : Nat → Nat → Nat} {x y v : Nat} (hv : v < 2 ^ tyBits ty)
    (h : ∀ k, k < tyBits ty / tyWidth ty → f (el ty x k) (el ty y k) = el ty v k) : map2 ty f x y = v := by
  unfold map2
  rw [elems_eq, elems_eq, zipWith_range]
  exact ofElems_eq _ hv fun k hk => (h k hk).symm

theorem map3_of_each {ty : Ty} {f : Nat → Nat → Nat → Nat} {x y z v : Nat} (hv : v < 2 ^ tyBits ty)
    (h : ∀ k, k < tyBits ty / tyWidth ty → f (el ty x k) (el ty y k) (el ty z k) = el ty v k) : map3 ty f x y z = v := by
  unfold map3
  rw [elems_eq, elems_eq, elems_eq, List.zipWith_map, List.zipWith_self, List.zipWith_map, List.zipWith_self]
  exact ofElems_eq _ hv fun k hk => (h k hk).symm

theorem all2_eq {ty : Ty} {f : Nat → Nat → Bool} {x y : Nat} :
    all2 ty f x y = true ↔ ∀ k, k < tyBits ty / tyWidth ty → f (el ty x k) (el ty y k) = true := by
  unfold all2
  rw [elems_eq, elems_eq, List.zipWith_map, List.zipWith_self]
  simp

/-! ## Values of elements -/

theorem sext_eq_val {w x : Nat} (hx : x < 2 ^ w) : sext w x = val w true x := by
  unfold sext val
  simp only [Nat.mod_eq_of_lt hx, true_and]
  by_cases h : x < 2 ^ (w - 1)
  · rw [if_pos h, if_neg (by omega)]
  · rw [if_neg h, if_pos (by omega)]; push_cast; rfl

theorem elemInt_eq {ty : Ty} {x : Nat} (hx : x < 2 ^ tyWidth ty) : elemInt ty x = val (tyWidth ty) (tySigned ty) x := by
  unfold elemInt
  cases h : tySigned ty with
  | true => simp only [if_true]; exact sext_eq_val hx
  | false => simp [val, Nat.mod_eq_of_lt hx]

theorem val_range {w x : Nat} {sg : Bool} (hw : 0 < w) (hx : x < 2 ^ w) :
    (sg = true → -(2 ^ (w - 1)) ≤ val w sg x ∧ val w sg x < 2 ^ (w - 1)) ∧ (sg = false → 0 ≤ val w sg x ∧ val w sg x < 2 ^ w) := by
  obtain ⟨n, rfl⟩ : ∃ n, w = n + 1 := ⟨w - 1, by omega⟩
  have hp : (2 : Nat) ^ (n + 1) = 2 * 2 ^ n := by rw [Nat.pow_succ]; omega
  have hpi : (2 : Int) ^ (n + 1) = 2 * 2 ^ n := by rw [pow_succ]; ring
  have hc : ((2 ^ n : Nat) : Int) = 2 ^ n := by push_cast; rfl
  simp only [Nat.add_sub_cancel]
  unfold val
  simp only [Nat.add_sub_cancel]
  constructor <;> intro hs <;> subst hs <;> simp only [true_and, false_and, Bool.false_eq_true, if_false]
  · split <;> (constructor <;> omega)
  · constructor <;> omega

/-- A value determines its pattern modulo the width. -/
theorem val_mod (w : Nat) (sg : Bool) (x : Nat) : (2 ^ w : Int) ∣ (x : Int) - val w sg x := by
  unfold val
  split
  · exact ⟨1, by ring⟩
  · simp

theorem wrapN_eq {w : Nat} {x : Int} {r : Nat} (hr : r < 2 ^ w) (h : (2 ^ w : Int) ∣ x - r) : wrapN w x = r := by
  unfold wrapN
  have hc : ((2 ^ w : Nat) : Int) = 2 ^ w := by push_cast; rfl
  rw [hc]
  have h1 : x % 2 ^ w = (r : Int) % 2 ^ w := Int.emod_eq_emod_iff_emod_sub_eq_zero.mpr (Int.emod_eq_zero_of_dvd h)
  rw [h1, Int.emod_eq_of_lt (by omega) (by rw [← hc]; exact_mod_cast hr)]
  simp

theorem wrapN_lt (w : Nat) (x : Int) : wrapN w x < 2 ^ w := by
  unfold wrapN
  have h0 : (0 : Int) < ((2 ^ w : Nat) : Int) := by positivity
  have h1 := Int.emod_nonneg x (ne_of_gt h0)
  have h2 := Int.emod_lt_of_pos x h0
  omega

/-- Narrowing gives the one pattern that holds the exact result. -/
theorem narrowI_eq {ty : Ty} {sat : Bool} {x : Int} {r : Nat} (h : Fits ty sat x r) : narrowI ty sat x = r := by
  obtain ⟨hr, h⟩ := h
  unfold narrowI
  cases sat with
  | false => exact wrapN_eq hr (by simpa using h)
  | true =>
    simp only [if_true] at h ⊢
    have hlo : tyMin ty = lo ty := by
      unfold tyMin lo; split <;> push_cast <;> rfl
    have hhi : tyMax ty = hi ty := by
      unfold tyMax hi; split <;> push_cast <;> rfl
    unfold clampI
    rw [hlo, hhi, ← h]
    refine wrapN_eq hr ?_
    have := val_mod (tyWidth ty) (tySigned ty) r
    exact (dvd_sub_comm).mp this

theorem val_inj {w x y : Nat} {sg : Bool} (hx : x < 2 ^ w) (hy : y < 2 ^ w) : val w sg x = val w sg y ↔ x = y := by
  constructor
  · intro h
    have h1 := val_mod w sg x
    have h2 := val_mod w sg y
    rw [h] at h1
    have h3 : (2 ^ w : Int) ∣ (x : Int) - y := by
      have := dvd_sub h1 h2
      simpa using this
    have hc : ((2 ^ w : Nat) : Int) = 2 ^ w := by push_cast; rfl
    have := wrapN_eq (x := (x : Int)) hy h3
    have h5 := wrapN_eq (w := w) (x := (x : Int)) hx (by simp)
    omega
  · rintro rfl; rfl

/-! ## What a source reads -/

theorem immElems_lt (ty : Ty) (i : Int) : immElems ty i < 2 ^ tyBits ty := by
  unfold immElems
  simp only
  split <;>
  · unfold ofElems
    refine lt_of_lt_of_eq (packElems_lt _ _) ?_
    rw [List.length_replicate, tyWidth_dvd]

theorem pread_lt {e : Env} {f : BitVec 8} {t x : Nat} (h : e.pread f t = .ok x) : x < 2 ^ 64 := by
  unfold Env.pread at h
  split at h
  · cases h
  · rename_i lo _
    split at h
    · cases h
    · rename_i hi _
      cases h
      have := lo.isLt
      have := hi.isLt
      omega

/-- A source fits its type. -/
theorem srcTy_lt {e : Env} {ty : Ty} {l : Lit} {f : BitVec 8} {t x : Nat} (h : e.srcTy ty l f t = .ok x) : x < 2 ^ tyBits ty := by
  unfold Env.srcTy at h
  split at h
  · cases h; exact immElems_lt ty _
  · unfold tyBits
    cases h64 : ty64 ty with
    | true =>
      simp only [h64, if_true] at h ⊢
      cases h
      cases l with
      | none => simp [Lit.w64]
      | word v => exact wrapN_lt 64 _
      | lit24 v => exact wrapN_lt 64 _
    | false =>
      simp only [h64, Bool.false_eq_true, if_false] at h ⊢
      cases h
      cases l with
      | none => simp [Lit.w32]
      | word v => exact v.isLt
      | lit24 v =>
        simp only [Lit.w32]
        split
        · have := v.isLt; omega
        · exact wrapN_lt 32 _
  · unfold tyBits
    cases h64 : ty64 ty with
    | true => simp only [h64, if_true] at h ⊢; exact pread_lt h
    | false =>
      simp only [h64, Bool.false_eq_true, if_false] at h ⊢
      split at h
      · rename_i v _; cases h; exact v.isLt
      · cases h

theorem src32_lt {e : Env} {l : Lit} {f : BitVec 8} {t x : Nat} (h : e.src32 l f t = .ok x) : x < 2 ^ 32 := srcTy_lt h
theorem src64_lt {e : Env} {l : Lit} {f : BitVec 8} {t x : Nat} (h : e.src64 l f t = .ok x) : x < 2 ^ 64 := srcTy_lt h

end Sys2Proof.Machine
end

