-- ==== Sys2Proof/Laws/Alu.lean ====
section
/-! SUPPORT. The shapes of the register-only instructions (R376): each passes its checks where its fields are of the
accepted classes, and acts through `Env.result` or `Env.predResult`. -/

namespace Sys2Proof.Machine
open Claim

theorem dst_cases {d : BitVec 8} {k : Nat} (h : dstOk d k = true) : isV d = true ∨ isS d = true := by
  unfold dstOk at h; simp only [Bool.and_eq_true, Bool.or_eq_true] at h; exact h.1
theorem tr12 (e : Env) : tyRegs e.ty = 1 ∨ tyRegs e.ty = 2 := by unfold tyRegs; split <;> simp

theorem plain2 {i : Instr} {ok : Ty → Bool} {f : Env → Nat → Nat → Nat} {d a b : BitVec 8} {lit : BitVec 32} {e : Env}
    (hw : i.wf = true) (h : Ok2 ok d a b e) :
    let sp := alu2 i.wf ok f d a b lit e
    Plain sp ∧ sp.guarded = true ∧ sp.dsts = dstNames d (tr e) ∧ sp.act = e.result d (tr e) (fun t => do
      let x ← e.srcTy e.ty (.word lit) a t
      let y ← e.srcTy e.ty (.word lit) b t
      pure (f e x y)) ∧ (tr e = 1 ∨ tr e = 2) ∧ (isV d = true ∨ isS d = true) := by
  obtain ⟨h1, h2, h3, h4⟩ := h
  have hk : typedRegs ok e = tyRegs e.ty := by simp [typedRegs, h1]
  exact ⟨⟨rfl, by simp [alu2, hk, hw, h2, h3, h4], h1, rfl, rfl, rfl, rfl⟩, rfl, by simp [alu2, hk, tr], by simp [alu2, hk, tr],
    tr12 e, dst_cases h2⟩

theorem plain1 {i : Instr} {ok : Ty → Bool} {f : Env → Nat → Nat} {d a : BitVec 8} {lit : BitVec 32} {e : Env}
    (hw : i.wf = true) (h : Ok1 ok d a e) :
    let sp := alu1 i.wf ok f d a lit e
    Plain sp ∧ sp.guarded = true ∧ sp.dsts = dstNames d (tr e) ∧ sp.act = e.result d (tr e) (fun t => do
      let x ← e.srcTy e.ty (.word lit) a t
      pure (f e x)) ∧ (tr e = 1 ∨ tr e = 2) ∧ (isV d = true ∨ isS d = true) := by
  obtain ⟨h1, h2, h3⟩ := h
  have hk : typedRegs ok e = tyRegs e.ty := by simp [typedRegs, h1]
  exact ⟨⟨rfl, by simp [alu1, hk, hw, h2, h3], h1, rfl, rfl, rfl, rfl⟩, rfl, by simp [alu1, hk, tr], by simp [alu1, hk, tr],
    tr12 e, dst_cases h2⟩

theorem plain3 {i : Instr} {ok : Ty → Bool} {f : Env → Nat → Nat → Nat → Nat} {d a b c : BitVec 8} {lit : BitVec 24} {e : Env}
    (hw : i.wf = true) (h : Ok3 ok d a b c e) :
    let sp := alu3 i.wf ok f d a b c lit e
    Plain sp ∧ sp.guarded = true ∧ sp.dsts = dstNames d (tr e) ∧ sp.act = e.result d (tr e) (fun t => do
      let x ← e.srcTy e.ty (.lit24 lit) a t
      let y ← e.srcTy e.ty (.lit24 lit) b t
      let z ← e.srcTy e.ty (.lit24 lit) c t
      pure (f e x y z)) ∧ (tr e = 1 ∨ tr e = 2) ∧ (isV d = true ∨ isS d = true) := by
  obtain ⟨⟨h1, h2, h3, h4⟩, h5⟩ := h
  have hk : typedRegs ok e = tyRegs e.ty := by simp [typedRegs, h1]
  exact ⟨⟨rfl, by simp [alu3, hk, hw, h2, h3, h4, h5], h1, rfl, rfl, rfl, rfl⟩, rfl, by simp [alu3, hk, tr], by simp [alu3, hk, tr],
    tr12 e, dst_cases h2⟩

theorem plainShift {i : Instr} {f : Env → Nat → Nat → Nat} {d a b : BitVec 8} {lit : BitVec 32} {e : Env}
    (hw : i.wf = true) (h1 : tyInt e.ty = true) (h2 : dstOk d (tyRegs e.ty) = true) (h3 : srcFor d a (tyRegs e.ty) = true)
    (h4 : srcFor d b 1 = true) :
    let sp := aluShift i.wf f d a b lit e
    Plain sp ∧ sp.guarded = true ∧ sp.dsts = dstNames d (tr e) ∧ sp.act = e.result d (tr e) (fun t => do
      let x ← e.srcTy e.ty (.word lit) a t
      let n ← e.srcTy (if ty64 e.ty then 0 else e.ty) (.word lit) b t
      pure (shiftMap e.ty (f e) x n)) ∧ (tr e = 1 ∨ tr e = 2) ∧ (isV d = true ∨ isS d = true) := by
  have hk : typedRegs tyInt e = tyRegs e.ty := by simp [typedRegs, h1]
  exact ⟨⟨rfl, by simp [aluShift, hk, hw, h2, h3, h4], h1, rfl, rfl, rfl, rfl⟩, rfl, by simp [aluShift, hk, tr],
    by simp [aluShift, hk, tr], tr12 e, dst_cases h2⟩

theorem plainCmp {i : Instr} {ok : Ty → Bool} {f : Env → Nat → Nat → Bool} {d a b : BitVec 8} {lit : BitVec 32} {e : Env}
    (hw : i.wf = true) (h1 : ok e.ty = true) (h2 : isP d = true) (h3 : srcOk a (tyRegs e.ty) = true)
    (h4 : srcOk b (tyRegs e.ty) = true) :
    let sp := aluCmp i.wf ok f d a b lit e
    Plain sp ∧ sp.guarded = true ∧ sp.dsts = [] ∧ sp.act = e.predResult d (fun t => do
      let x ← e.srcTy e.ty (.word lit) a t
      let y ← e.srcTy e.ty (.word lit) b t
      pure (f e x y)) ∧ isP d = true := by
  have hk : typedRegs ok e = tyRegs e.ty := by simp [typedRegs, h1]
  exact ⟨⟨rfl, by simp [aluCmp, hk, hw, h2, h3, h4], h1, rfl, rfl, rfl, rfl⟩, rfl, rfl, rfl, h2⟩

/-- A compare from its function of the operands. -/
theorem compare_of {i : Instr} {d a b : BitVec 8} {lit : BitVec 32} {ty : Ty → Bool} {P : Env → Nat → Nat → Prop}
    (f : Env → Nat → Nat → Bool) (hx : ∀ s, exec i s = runLane (aluCmp i.wf ty f d a b lit) s)
    (hf : ∀ e x y, f e x y = true ↔ P e x y) : Compare i d a b lit ty P := by
  refine tests_of _ (fun e t => do
      let x ← e.srcTy e.ty (.word lit) a t
      let y ← e.srcTy e.ty (.word lit) b t
      pure (f e x y)) hx (fun e hw h => plainCmp hw h.1 h.2.1 h.2.2.1 h.2.2.2) ?_
  rintro e t v _ ⟨x, y, h1, h2, h3⟩
  simp only [h1, h2, bind, Except.bind, pure, Except.pure]
  congr 1
  rw [← hf] at h3
  cases hv : v <;> cases hq : f e x y <;> simp [hv, hq] at h3 ⊢

end Sys2Proof.Machine
end

