-- ==== Sys2Proof/Laws/Bits.lean ====
section
/-! SUPPORT. Concatenated fields of an instruction word: their numbers, the fields read back, and the length of a lane
instruction (R332) from its four bytes. -/

namespace Sys2Proof

/-- A concatenation as a number. -/
theorem append_toNat {n m : Nat} (x : BitVec n) (y : BitVec m) : (x ++ y).toNat = x.toNat * 2 ^ m + y.toNat := by
  rw [BitVec.toNat_append, ← Nat.shiftLeft_add_eq_or_of_lt y.isLt, Nat.shiftLeft_eq]

theorem bits_eq (v hi lo : Nat) : bits v hi lo = v / 2 ^ lo % 2 ^ (hi + 1 - lo) := by
  rw [bits, Nat.shiftRight_eq_div_pow]

/-- A field read from a word, from the word's number. -/
theorem fld_eq {w : W32} {lo n : Nat} {x : BitVec n} (h : w.toNat / 2 ^ lo % 2 ^ n = x.toNat) : fld w lo n = x := by
  apply BitVec.eq_of_toNat_eq
  rw [fld, BitVec.extractLsb'_toNat, Nat.shiftRight_eq_div_pow, h]

/-- A field inside the low part of a concatenation, or inside its high part. -/
theorem field_low {v w lo n : Nat} {x : BitVec v} {y : BitVec w} (h : lo + n ≤ w) :
    (x ++ y).extractLsb' lo n = y.extractLsb' lo n := BitVec.extractLsb'_append_eq_of_add_le h

theorem field_high {v w lo n : Nat} {x : BitVec v} {y : BitVec w} (h : w ≤ lo) :
    (x ++ y).extractLsb' lo n = x.extractLsb' (lo - w) n := BitVec.extractLsb'_append_eq_of_le h

end Sys2Proof

namespace Sys2Proof.Machine

/-- The length of a lane instruction from its opcode and its operand fields a and b. -/
def lenOf (op a b : Nat) : Nat :=
  if isG4Op op || isAtmOp op || isMemXOp op then 2
  else if (g3FieldA op && a == 0xff) || (g3FieldB op && b == 0xff) then 2
  else 1

theorem laneLen_eq {w : W32} {op a b : Nat} (ho : w.toNat / 2 ^ 24 = op) (ha : w.toNat / 2 ^ 8 % 2 ^ 8 = a)
    (hb : w.toNat % 2 ^ 8 = b) : laneLen w = lenOf op a b := by
  have h : w.toNat < 2 ^ 32 := w.isLt
  have h1 : bits w.toNat 31 24 = op := by rw [bits_eq]; omega
  have h2 : bits w.toNat 15 8 = a := by rw [bits_eq]; omega
  have h3 : bits w.toNat 7 0 = b := by rw [bits_eq]; omega
  simp only [laneLen, h1, h2, h3, lenOf]

/-- The length of a lane instruction from its fields as they are decoded. -/
theorem laneLen_fields (w : W32) : laneLen w = lenOf (fld w 24 8).toNat (fld w 8 8).toNat (fld w 0 8).toNat := by
  apply laneLen_eq <;> simp [fld, Nat.shiftRight_eq_div_pow]
  omega

end Sys2Proof.Machine
end

