-- ==== Sys2Proof/Laws/Ciphers.lean ====
section
/-! SUPPORT. Laws of the ciphers: how long their results are, and that what GCM seals it opens. -/

namespace Sys2Proof.Machine

theorem xorBytes_length (a b : List Byte) : (xorBytes a b).length = min a.length b.length := by simp [xorBytes]

theorem leBytes_len (n v : Nat) : (leBytes n v).length = n := by
  induction n generalizing v with
  | zero => rfl
  | succ n ih => simp [leBytes, ih]

theorem beBytes_length (n v : Nat) : (beBytes n v).length = n := by simp [beBytes, leBytes_len]

/-! ## SHA-384 and HKDF-Expand -/

theorem shaRound_length (h : List W64) (kw : W64 × W64) (hh : h.length = 8) : (shaRound h kw).length = 8 := by
  unfold shaRound
  split
  · rfl
  · exact hh

theorem shaRounds_length (ws : List (W64 × W64)) (h : List W64) (hh : h.length = 8) : (ws.foldl shaRound h).length = 8 := by
  induction ws generalizing h with
  | nil => exact hh
  | cons w ws ih => exact ih _ (shaRound_length h w hh)

theorem shaBlocks_length (bs : List (List Byte)) (h : List W64) (hh : h.length = 8) : (bs.foldl shaBlock h).length = 8 := by
  induction bs generalizing h with
  | nil => exact hh
  | cons b bs ih => exact ih _ (by simp [shaBlock, shaRounds_length, hh])

theorem flatten_length (k : Nat) (l : List (List Byte)) (h : ∀ x, x ∈ l → x.length = k) : l.flatten.length = k * l.length := by
  induction l with
  | nil => simp
  | cons x l ih =>
    rw [List.flatten_cons, List.length_append, ih fun y hy => h y (by simp [hy]), h x (by simp), List.length_cons, Nat.mul_succ, Nat.add_comm]

theorem sha384_length (msg : List Byte) : (sha384 msg).length = 48 := by
  unfold sha384
  simp only
  rw [flatten_length 8 _ fun x hx => by
    obtain ⟨w, -, rfl⟩ := List.mem_map.1 hx
    exact beBytes_length 8 _]
  simp [shaBlocks_length _ shaH0 (by decide)]

theorem hkdfExpand_length (prk info : List Byte) (n : Nat) (h : n ≤ 48) : (hkdfExpand prk info n).length = n := by
  simp [hkdfExpand, hmac384, sha384_length, h]

/-! ## AES-256 -/

theorem chunks_length (k n : Nat) (l : List Byte) : (chunks k n l).length = n := by
  induction n generalizing l with
  | zero => rfl
  | succ n ih => simp [chunks, ih]

theorem chunks_each (k n : Nat) (l : List Byte) (h : k * n ≤ l.length) : ∀ x, x ∈ chunks k n l → x.length = k := by
  induction n generalizing l with
  | zero => simp [chunks]
  | succ n ih =>
    rw [Nat.mul_succ] at h
    intro x hx
    simp only [chunks, List.mem_cons] at hx
    rcases hx with rfl | hx
    · simp; omega
    · exact ih _ (by simp; omega) x hx

theorem aesExpand_each (n i : Nat) (rc : Byte) (last : List (List Byte)) (h8 : last.length = 8)
    (h : ∀ x, x ∈ last → x.length = 4) :
    (aesExpand n i rc last).length = n ∧ ∀ x, x ∈ aesExpand n i rc last → x.length = 4 := by
  induction n generalizing i rc last with
  | zero => simp [aesExpand]
  | succ n ih =>
    have hp : (last.headD []).length = 4 := by
      cases last with
      | nil => simp at h8
      | cons a l => exact h a (by simp)
    have h7 : (last.getD 7 []).length = 4 := by
      rw [List.getD_eq_getElem last [] (by omega)]
      exact h _ (List.getElem_mem _)
    have ht : ∀ t : List Byte, t.length = 4 → (xorBytes (last.getD 7 []) t).length = 4 := fun t ht => by
      rw [xorBytes_length, h7, ht]; rfl
    have hm : ((last.headD []).drop 1 ++ (last.headD []).take 1).length = 4 := by simp only [List.length_append, List.length_drop, List.length_take, hp]; rfl
    have hw : ∀ w : List Byte, w.length = 4 → (w :: last.take 7).length = 8 ∧ ∀ x, x ∈ w :: last.take 7 → x.length = 4 := by
      intro w hw
      refine ⟨by simp [h8], fun x hx => ?_⟩
      simp only [List.mem_cons] at hx
      rcases hx with rfl | hx
      · exact hw
      · exact h x (List.mem_of_mem_take hx)
    unfold aesExpand
    simp only
    generalize hq : (if i % 8 = 0 then _ else if i % 8 = 4 then _ else _ : List Byte) = t
    have h4 : t.length = 4 := by
      subst hq
      split
      · split
        · rename_i b bs hb
          have := congrArg List.length hb
          simp only [List.length_map, hm, List.length_cons] at this ⊢
          omega
        · rename_i hb
          have := congrArg List.length hb
          simp only [List.length_map, hm, List.length_nil] at this
          omega
      · split
        · simp only [List.length_map, hp]
        · exact hp
    have g := hw _ (ht t h4)
    have r := ih (i + 1) (if i % 8 = 0 then xtime rc else rc) _ g.1 g.2
    refine ⟨by rw [List.length_cons, r.1], fun x hx => ?_⟩
    simp only [List.mem_cons] at hx
    rcases hx with rfl | hx
    · exact ht t h4
    · exact r.2 x hx

theorem aesRounds_length (ks : List (List Byte)) (st : List Byte) (hk : ∀ k, k ∈ ks → k.length = 16) (hn : ks ≠ []) :
    (aesRounds ks st).length = 16 := by
  induction ks generalizing st with
  | nil => exact absurd rfl hn
  | cons k ks ih =>
    cases ks with
    | nil => simp [aesRounds, xorBytes_length, shiftRows, hk k (by simp)]
    | cons k2 ks => exact ih _ (fun x hx => hk x (by simp [hx])) (by simp)

/-- A block under a 32-byte key has 16 bytes. -/
theorem aesEncrypt_length (key blk : List Byte) (hk : key.length = 32) : (aesEncrypt key blk).length = 16 := by
  have hkw := chunks_each 4 8 key (by omega)
  have he := aesExpand_each 52 8 1#8 (chunks 4 8 key).reverse (by simp [chunks_length]) (fun x hx => hkw x (by simpa using hx))
  have hf : (chunks 4 8 key ++ aesExpand 52 8 1#8 (chunks 4 8 key).reverse).flatten.length = 240 := by
    rw [flatten_length 4]
    · simp [chunks_length, he.1]
    · intro x hx
      rcases List.mem_append.1 hx with hx | hx
      · exact hkw x hx
      · exact he.2 x hx
  have hc := chunks_each 16 15 _ (by omega : 16 * 15 ≤ (chunks 4 8 key ++ aesExpand 52 8 1#8 (chunks 4 8 key).reverse).flatten.length)
  unfold aesEncrypt
  simp only
  split
  · rename_i k0 ks hks
    rw [hks] at hc
    refine aesRounds_length ks _ (fun k h => hc k (by simp [h])) ?_
    rintro rfl
    have := congrArg List.length hks
    simp [chunks_length] at this
  · rename_i hks
    have := congrArg List.length hks
    simp [chunks_length] at this

/-! ## GCM -/

theorem gctr_length (key nonce : List Byte) (n c : Nat) (l : List Byte) (hk : key.length = 32) (hn : l.length ≤ 16 * n) :
    (gctr key nonce n c l).length = l.length := by
  induction n generalizing c l with
  | zero => simp [gctr]; omega
  | succ n ih =>
    have hd : (l.drop 16).length ≤ 16 * n := by simp; omega
    simp only [gctr, List.length_append, xorBytes_length, aesEncrypt_length key _ hk, ih (c + 1) (l.drop 16) hd, List.length_take, List.length_drop]
    omega

theorem xorBytes_xorBytes (a k : List Byte) (h : a.length ≤ k.length) : xorBytes (xorBytes a k) k = a := by
  induction a generalizing k with
  | nil => simp [xorBytes]
  | cons x a ih =>
    cases k with
    | nil => simp at h
    | cons y k =>
      have := ih k (by simpa using h)
      simp only [xorBytes, List.zipWith_cons_cons] at this ⊢
      rw [this, BitVec.xor_assoc, BitVec.xor_self, BitVec.xor_zero]

/-- The key stream applied twice gives the message back. -/
theorem gctr_gctr (key nonce : List Byte) (n c : Nat) (l : List Byte) (hk : key.length = 32) (hn : l.length ≤ 16 * n) :
    gctr key nonce n c (gctr key nonce n c l) = l := by
  induction n generalizing c l with
  | zero => simp at hn; simp [gctr, hn]
  | succ n ih =>
    have hd : (l.drop 16).length ≤ 16 * n := by simp; omega
    have ha := aesEncrypt_length key (nonce ++ beBytes 4 c) hk
    have hx : (xorBytes (l.take 16) (aesEncrypt key (nonce ++ beBytes 4 c))).length = min 16 l.length := by
      rw [xorBytes_length, ha]; simp
    have hl := gctr_length key nonce n (c + 1) (l.drop 16) hk hd
    have hsplit : ∀ z, z = gctr key nonce n (c + 1) (l.drop 16) →
        (xorBytes (l.take 16) (aesEncrypt key (nonce ++ beBytes 4 c)) ++ z).take 16 = xorBytes (l.take 16) (aesEncrypt key (nonce ++ beBytes 4 c)) ∧
        (xorBytes (l.take 16) (aesEncrypt key (nonce ++ beBytes 4 c)) ++ z).drop 16 = z := by
      rintro z rfl
      by_cases h16 : 16 ≤ l.length
      · exact ⟨List.take_left' (by omega), List.drop_left' (by omega)⟩
      · have hz : gctr key nonce n (c + 1) (l.drop 16) = [] := by
          apply List.eq_nil_of_length_eq_zero; rw [hl]; simp; omega
        rw [hz]
        exact ⟨by rw [List.append_nil]; exact List.take_of_length_le (by omega), by simp; omega⟩
    have hs := hsplit _ rfl
    simp only [gctr]
    rw [hs.1, hs.2, ih (c + 1) _ hd, xorBytes_xorBytes _ _ (by rw [ha]; simp), List.take_append_drop]

/-- A tag has 16 bytes. -/
theorem gcmTag_length (key nonce aad ct : List Byte) (hk : key.length = 32) : (gcmTag key nonce aad ct).length = 16 := by
  simp [gcmTag, xorBytes_length, beBytes_length, aesEncrypt_length key _ hk]

theorem gcmSeal_fst (key nonce aad pt : List Byte) : (gcmSeal key nonce aad pt).1 = gctr key nonce ((pt.length + 15) / 16) 2 pt := by
  simp only [gcmSeal]
theorem gcmSeal_snd (key nonce aad pt : List Byte) :
    (gcmSeal key nonce aad pt).2 = gcmTag key nonce aad (gctr key nonce ((pt.length + 15) / 16) 2 pt) := by
  simp only [gcmSeal]

theorem gcmSeal_length (key nonce aad pt : List Byte) (hk : key.length = 32) :
    (gcmSeal key nonce aad pt).1.length = pt.length ∧ (gcmSeal key nonce aad pt).2.length = 16 := by
  rw [gcmSeal_fst, gcmSeal_snd]
  exact ⟨gctr_length _ _ _ _ _ hk (by omega), gcmTag_length _ _ _ _ hk⟩

/-- What was sealed opens under the same key, nonce and associated data. -/
theorem gcmOpen_gcmSeal (key nonce aad pt : List Byte) (hk : key.length = 32) :
    gcmOpen key nonce aad (gcmSeal key nonce aad pt).1 (gcmSeal key nonce aad pt).2 = some pt := by
  have hl := gctr_length key nonce ((pt.length + 15) / 16) 2 pt hk (by omega)
  have hg := gctr_gctr key nonce ((pt.length + 15) / 16) 2 pt hk (by omega)
  rw [gcmSeal_fst, gcmSeal_snd]
  unfold gcmOpen
  rw [if_pos rfl, hl, hg]

end Sys2Proof.Machine
end

