-- ==== Sys2Proof/Laws/Lsu.lean ====
section
/-! SUPPORT. Lane accesses, said once: where every thread of one reaches memory, none faults, waits or is switched off;
what reading leaves of the state. -/

namespace Sys2Proof.Machine
open Claim

theorem eachThread_eq {α : Type} {f : Nat → Except (BitVec 8) α} {ts : List Nat} {A : Nat → α}
    (h : ∀ t, t ∈ ts → f t = .ok (A t)) : eachThread f ts = .ok (ts.map fun t => (t, A t)) := by
  induction ts with
  | nil => rfl
  | cons t ts ih =>
    unfold eachThread
    rw [h t (by simp), ih fun u hu => h u (by simp [hu])]
    rfl

theorem reachAll_eq (e : Env) (s : State) (kind : AccKind) (m : MemOp) (ts : List Nat) (A : Nat → Nat) :
    e.reachAll s kind m (ts.map fun t => (t, A t)) = accs e s kind m.size m.align ts A := by
  unfold Env.reachAll accs
  rw [List.map_map]; rfl

theorem accs_spec {e : Env} {s : State} {kind : AccKind} {n al : Nat} {ts : List Nat} {A : Nat → Nat}
    (h : Reaches e s kind n al ts A) : ∀ x, x ∈ accs e s kind n al ts A → reaches x = true ∧ isRemote x = false := by
  intro x hx
  obtain ⟨t, ht, rfl⟩ := List.mem_map.mp hx
  exact h t ht

theorem raisedFault_none {tr : Bool} {xs : List ThAcc} (h : ∀ x, x ∈ xs → reaches x = true) : raisedFault tr xs = none := by
  induction xs with
  | nil => rfl
  | cons x xs ih =>
    have hx := h x (by simp)
    unfold raisedFault
    split
    · rename_i f hf; simp [reaches, hf] at hx
    · exact ih fun y hy => h y (by simp [hy])

theorem anyStall_false {xs : List ThAcc} (h : ∀ x, x ∈ xs → reaches x = true) : anyStall xs = false := by
  unfold anyStall
  rw [List.any_eq_false]
  intro x hx
  have := h x hx
  intro hc
  simp only [beq_iff_eq] at hc
  simp [reaches, hc] at this

theorem switchOut_none {e : Env} {s : State} {xs : List ThAcc} (h : ∀ x, x ∈ xs → reaches x = true) : e.switchOut s xs = s := by
  unfold Env.switchOut
  have : xs.find? isOff = none := by
    rw [List.find?_eq_none]
    intro x hx hc
    have := h x hx
    simp only [isOff, beq_iff_eq] at hc
    simp [reaches, hc] at this
  rw [this]

theorem doomFaults_none {e : Env} {s : State} {xs : List ThAcc} (h : ∀ x, x ∈ xs → reaches x = true) : e.doomFaults s xs = s := by
  unfold Env.doomFaults
  induction xs generalizing s with
  | nil => rfl
  | cons x xs ih =>
    rw [List.foldl_cons]
    have hx := h x (by simp)
    obtain ⟨t, a, r⟩ := x
    cases r
    case bad f => cases hx
    all_goals exact ih fun y hy => h y (by simp [hy])

theorem filter_local {xs : List ThAcc} (h : ∀ x, x ∈ xs → reaches x = true ∧ isRemote x = false) :
    xs.filter (fun x => reaches x && !isRemote x) = xs := by
  rw [List.filter_eq_self]
  intro x hx
  simp [h x hx]

theorem filter_reaches {xs : List ThAcc} (h : ∀ x, x ∈ xs → reaches x = true) : xs.filter reaches = xs := by
  rw [List.filter_eq_self]; exact h

theorem filter_remote {xs : List ThAcc} (h : ∀ x, x ∈ xs → reaches x = true ∧ isRemote x = false) : xs.filter isRemote = [] := by
  rw [List.filter_eq_nil_iff]
  intro x hx
  simp [h x hx]

theorem filter_bad {xs : List ThAcc} (h : ∀ x, x ∈ xs → reaches x = true ∧ isRemote x = false) :
    xs.filter (fun x => isBad x || isRemote x) = [] := by
  rw [List.filter_eq_nil_iff]
  intro x hx
  have h1 := (h x hx).1
  have h2 := (h x hx).2
  rw [h2, Bool.or_false]
  intro hb
  unfold isBad at hb
  unfold reaches at h1
  cases hr : x.r <;> rw [hr] at hb h1 <;> cases hb <;> cases h1

/-! ## Reading -/

theorem readReach_keeps (s : State) (e : Env) (x : ThAcc) (i n : Nat) : State.PortKeeps s (s.readReach e x i n).2 := by
  unfold State.readReach
  split
  · exact State.readPlace_keeps _ _ _ _ _
  · split
    · exact .refl s
    · split
      · exact .refl s
      · split <;> exact .refl s
  · split <;> exact .refl s
  · exact .refl s

theorem readForwarded_keeps (s : State) (e : Env) (buf : List BufEntry) (x : ThAcc) (n : Nat) :
    State.PortKeeps s (s.readForwarded e buf x n).2 := by
  induction n with
  | zero => exact .refl s
  | succ n ih =>
    unfold State.readForwarded
    split
    · rename_i h; rw [h] at ih; exact ih
    · rename_i bs s1 h
      rw [h] at ih
      split
      · exact ih
      · have h2 := readReach_keeps s1 e x n 1
        split
        · rename_i h3; rw [h3] at h2; exact ih.trans h2
        · rename_i h3; rw [h3] at h2; exact ih.trans h2

theorem readThread_keeps (s : State) (e : Env) (x : ThAcc) (n : Nat) : State.PortKeeps s (s.readThread e x n).2 := by
  unfold State.readThread
  split
  · exact readForwarded_keeps _ _ _ _ _
  · exact readReach_keeps _ _ _ _ _

theorem readAll_keeps (e : Env) (n : Nat) (xs : List ThAcc) (s : State) : State.PortKeeps s (State.readAll e n xs s).2 := by
  induction xs generalizing s with
  | nil => exact .refl s
  | cons x xs ih => exact (readThread_keeps s e x n).trans (ih _)

/-! ## Racing reads (R231 to R235) -/

theorem ReadKeeps.refl (s : State) : State.ReadKeeps s s := rfl

theorem ReadKeeps.trans {s t u : State} (h1 : State.ReadKeeps s t) (h2 : State.ReadKeeps t u) : State.ReadKeeps s u := by
  unfold State.ReadKeeps at *; rw [← h2, ← h1]

theorem ReadKeeps.of_port {s t : State} (h : State.PortKeeps s t) : State.ReadKeeps s t := by
  unfold State.PortKeeps at h; unfold State.ReadKeeps; rw [← h]

theorem RaceWrite.note_same (r : RaceWrite) (me : Nat × Option Nat) :
    (r.note me).byte = r.byte ∧ (r.note me).old = r.old ∧ (r.note me).piece = r.piece := by
  unfold RaceWrite.note
  split <;> exact ⟨rfl, rfl, rfl⟩

/-- What a racing read of a byte can give: the newest value, or the one before a write that its agent has not seen; the list
of writes changes only in who has seen them. -/
theorem raceRead_spec (me : Nat × Option Nat) (skip : Nat → Bool) (k : RaceByte) (now : Byte) (rs : List RaceWrite) :
    ((raceRead me skip k now rs).1 = now ∨
      ∃ w, w ∈ rs ∧ w.byte = k ∧ me ∉ w.seen ∧ (raceRead me skip k now rs).1 = w.old) ∧
    (raceRead me skip k now rs).2.map (fun w => (w.byte, w.old, w.piece)) = rs.map fun w => (w.byte, w.old, w.piece) := by
  induction rs generalizing now with
  | nil => exact ⟨.inl rfl, rfl⟩
  | cons r rs ih =>
    unfold raceRead
    split
    · rename_i hk
      split
      · obtain ⟨h1, h2, h3⟩ := RaceWrite.note_same r me
        exact ⟨.inl rfl, by simp [h1, h2, h3]⟩
      · rename_i hs
        have hme : me ∉ r.seen := fun h => hs (by simp [h])
        obtain ⟨h1, h2⟩ := ih r.old
        refine ⟨.inr ?_, by simp [h2]⟩
        rcases h1 with h1 | ⟨w, hw, hb, hm, h1⟩
        · exact ⟨r, by simp, hk, hme, h1⟩
        · exact ⟨w, by simp [hw], hb, hm, h1⟩
    · obtain ⟨h1, h2⟩ := ih now
      refine ⟨?_, by simp [h2]⟩
      rcases h1 with h1 | ⟨w, hw, hb, hm, h1⟩
      · exact .inl h1
      · exact .inr ⟨w, by simp [hw], hb, hm, h1⟩

theorem raceAll_keeps (e : Env) (n : Nat) (rs : List (ThAcc × Except (BitVec 8) (List Byte))) (s : State) :
    State.ReadKeeps s (State.raceAll e n rs s).2 := by
  induction rs generalizing s with
  | nil => exact .refl s
  | cons p rs ih =>
    obtain ⟨x, r⟩ := p
    cases r with
    | error c => exact ih s
    | ok bs =>
      unfold State.raceAll
      dsimp only
      split
      · exact ih s
      · exact ReadKeeps.trans (by cases s; rfl) (ih _)

theorem raceAll_quiet (e : Env) (n : Nat) (rs : List (ThAcc × Except (BitVec 8) (List Byte))) {s : State} (h : s.recent = []) :
    State.raceAll e n rs s = (rs, s) := by
  induction rs with
  | nil => rfl
  | cons p rs ih =>
    obtain ⟨x, r⟩ := p
    cases r with
    | error c => unfold State.raceAll; rw [ih]
    | ok bs =>
      unfold State.raceAll
      dsimp only
      rw [if_pos (by rw [h]; rfl), ih]

theorem learn_keeps (s : State) (e : Env) (scope : Nat) : State.ReadKeeps s (s.learn e scope) := rfl

/-- What the loads of an instruction change. -/
theorem loadAll_keeps (e : Env) (acq : Option Nat) (n : Nat) (xs : List ThAcc) (s : State) :
    State.ReadKeeps s (State.loadAll e acq n xs s).2 := by
  unfold State.loadAll
  dsimp only
  have h := ReadKeeps.trans (ReadKeeps.of_port (readAll_keeps e n xs s)) (raceAll_keeps e n (State.readAll e n xs s).1 _)
  split
  · exact ReadKeeps.trans h (learn_keeps _ _ _)
  · exact h

/-- Where no write can be missed, loads read what memory holds. -/
theorem loadAll_quiet (e : Env) (n : Nat) (xs : List ThAcc) {s : State} (h : s.recent = []) :
    State.loadAll e none n xs s = State.readAll e n xs s := by
  unfold State.loadAll
  dsimp only
  have hk : (State.readAll e n xs s).2.recent = [] := by
    have := readAll_keeps e n xs s
    unfold State.PortKeeps at this
    rw [← this]; exact h
  rw [raceAll_quiet _ _ _ hk]

theorem forget_recent (s : State) (ks : List RaceByte) : { s with recent := (s.forget ks).recent } = s.forget ks := rfl

theorem noteStores_recent (s old : State) (e : Env) (f : Option (BitVec 8 × W64)) (ws : List (ThAcc × List Byte)) :
    { s with recent := (s.noteStores old e f ws).recent } = s.noteStores old e f ws := by
  unfold State.noteStores
  split <;> rfl

theorem ordered_recent (s : State) (i : Instr) :
    { s with recent := (s.ordered i).recent } = s.ordered i ∧ (s.recent = [] → s.ordered i = s) := by
  unfold State.ordered
  split
  · exact ⟨rfl, fun _ => rfl⟩
  · exact ⟨rfl, fun h => by cases s; cases h; rfl⟩

theorem runners_sub {e : Env} {d : BitVec 8} {t : Nat} (h : t ∈ e.runners d) : t ∈ e.act := by
  unfold Env.runners at h
  split at h
  · exact List.mem_of_mem_take h
  · exact h

theorem act_sorted (e : Env) : e.act.Pairwise (· < ·) := by
  have : (List.range 16).Pairwise (· < ·) := List.pairwise_lt_range
  exact this.filter _

theorem runners_sorted (e : Env) (d : BitVec 8) : (e.runners d).Pairwise (· < ·) := by
  unfold Env.runners
  split
  · exact (act_sorted e).sublist (List.take_sublist _ _)
  · exact act_sorted e

theorem runners_ne {e : Env} (d : BitVec 8) (h : e.idle = false) : e.runners d ≠ [] := by
  intro hc
  have : e.act = [] := by
    unfold Env.runners at hc
    split at hc
    · simpa using hc
    · exact hc
  rw [act_eq_nil] at this
  rw [this] at h; cases h

theorem sort_sorted {rs : List (Nat × List W32)} (h : (rs.map Prod.fst).Pairwise (· < ·)) :
    (rs.insertionSort fun p q => p.1 ≤ q.1) = rs := by
  rw [List.pairwise_map] at h
  exact (h.imp fun hab => le_of_lt hab).insertionSort_eq

/-! ## Loaded values -/

theorem leNat_lt (bs : List Byte) : leNat bs < 2 ^ (8 * bs.length) := by
  induction bs with
  | nil => simp [leNat]
  | cons b bs ih =>
    unfold leNat
    have := b.isLt
    simp only [List.length_cons]
    rw [show 8 * (bs.length + 1) = 8 * bs.length + 8 by ring, pow_add]
    omega

/-! ## Where the data of an access lands -/

theorem putWarp_congr {e c : Env} (h1 : c.gen = e.gen) (h2 : c.inTry = e.inTry) : c.putWarp = e.putWarp := by
  funext d k rs x
  unfold Env.putWarp
  rw [h1, h2]

theorem mask_ne {rs : List (Nat × List W32)} (hne : rs ≠ []) (h16 : ∀ r ∈ rs, r.1 < 16) :
    (maskOf fun t => rs.any fun r => r.1 == t) ≠ 0#16 := by
  cases rs with
  | nil => exact absurd rfl hne
  | cons r rs =>
    intro hc
    have h := congrArg (fun m => m.getLsbD r.1) hc
    simp only [getLsbD_maskOf] at h
    simp [h16 r (by simp)] at h

theorem updWarp_congr {s : State} {b w : Nat} {x : Warp} {f g : Warp → Warp} (h : s.warp? b w = some x) (hfg : f x = g x) :
    s.updWarp b w f = s.updWarp b w g := by
  unfold State.warp? at h
  cases hb : s.block? b with
  | none => rw [hb] at h; cases h
  | some k =>
    rw [hb] at h
    unfold State.updWarp State.updBlock
    have hb' : AMap.get? s.blocks b = some k := hb
    have h' : AMap.get? k.warps w = some x := h
    have gen : ∀ {α : Type} (m : AMap α) (i : Nat) (v : α) (F G : α → α), AMap.get? m i = some v → F v = G v →
        AMap.modify m i F = AMap.modify m i G := by
      intro α m i v F G h1 h2
      unfold AMap.modify
      rw [h1]
      dsimp only
      rw [h2]
    rw [gen s.blocks b k _ (fun k => { k with warps := AMap.modify k.warps w g }) hb' (by rw [gen k.warps w x f g h' hfg])]

theorem warp?_of {s : State} {b w : Nat} {k : Block} {x : Warp} (h : s.block? b = some k) (hx : AMap.get? k.warps w = some x) :
    s.warp? b w = some x := by
  unfold State.warp?; rw [h]; exact hx

theorem atOnce_iff {e : Env} : e.atOnce = true ↔ Alone e := by
  simp [Env.atOnce, Alone]

theorem ownBytes_nil (e : Env) (n : Nat) : e.ownBytes n [] = [] := by
  unfold Env.ownBytes
  split <;> rfl

theorem landLoad_sync {e : Env} {s : State} {m : MemOp} {d : BitVec 8} {xs : List ThAcc} {rs : List (Nat × List W32)} {sg : Bool}
    (hx : xs.filter isRemote = []) (hf : m.flag = 15) (ha : Alone e) :
    e.landLoad s m d xs rs none sg = .ok (landed e m.size m.flag d sg rs s) := by
  unfold Env.landLoad
  simp [hx, hf, landed, atOnce_iff.mpr ha]

/-- A local load that does not end at once is pending; without a flag its split waits for it. -/
theorem landLoad_pended {e : Env} {s : State} {m : MemOp} {d : BitVec 8} {xs : List ThAcc} {rs : List (Nat × List W32)} {sg : Bool}
    {x : Warp} (hx : xs.filter isRemote = []) (hf : m.flag ≠ 15 ∨ ¬ Alone e) (hw : s.warp? e.b e.w = some x) (hne : rs ≠ [])
    (h16 : ∀ r ∈ rs, r.1 < 16) : e.landLoad s m d xs rs none sg =
      if m.flag = 15 then .park (pended e m.size m.flag d sg rs s) (.sync x.freshId) else .ok (pended e m.size m.flag d sg rs s) := by
  have hc : (decide (m.flag = 15) && e.atOnce) = false := by
    rcases hf with h | h
    · simp [h]
    · rw [← atOnce_iff, Bool.not_eq_true] at h; simp [h]
  have hp : s.updWarp e.b e.w (fun y => ((if isS d then
        { y.writeUnis e.gen e.inTry (regNo d) (Env.landLoad.lanesOfFirst rs (sizeRegs m.size)) with
          loads := AMap.set y.loads x.freshId { flag := m.flag, split := e.sp, inTry := e.inTry, signed := sg } }
      else y.startLoad e.gen x.freshId (regNo d) (sizeRegs m.size) (maskOf fun t => rs.any fun r => r.1 == t)
        { flag := m.flag, split := e.sp, inTry := e.inTry, signed := sg } rs : Warp)).raiseFlag m.flag) =
      pended e m.size m.flag d sg rs s := by
    refine updWarp_congr hw ?_
    by_cases hd : isS d = true
    · simp only [hd, if_true]
      cases rs with
      | nil => exact absurd rfl hne
      | cons r rs => rfl
    · simp only [hd]
      rfl
  unfold Env.landLoad
  simp only [hx, List.isEmpty_nil, Bool.and_true, hc, Bool.false_eq_true, if_false, hw, Bool.not_true, List.map_nil,
    Option.isNone_none, if_true, mask_ne hne h16, ownBytes_nil]
  unfold State.sendRemotes
  simp only [List.foldl_nil]
  rw [← hp]

theorem landLoad_async {e : Env} {s : State} {m : MemOp} {d : BitVec 8} {xs : List ThAcc} {rs : List (Nat × List W32)} {sg : Bool}
    {x : Warp} (hx : xs.filter isRemote = []) (hf : m.flag ≠ 15) (hw : s.warp? e.b e.w = some x) (hne : rs ≠ [])
    (h16 : ∀ r ∈ rs, r.1 < 16) : e.landLoad s m d xs rs none sg = .ok (landed e m.size m.flag d sg rs s) := by
  rw [landLoad_pended hx (.inl hf) hw hne h16, if_neg hf]
  unfold landed
  rw [if_neg hf]

/-- A store waits where it is a release that the world's accesses on other devices hold back (R254). -/
theorem relWaits_iff {e : Env} {s : State} {m : MemOp} {x : BitVec 32} (hr : m.rel = decide (2 ≤ xOrd x)) (hs : m.scope = xScope x) :
    e.relWaits s m = true ↔ ¬ Acked e s x := by
  unfold Env.relWaits Acked State.releaseDue
  rw [hr, hs]
  by_cases h1 : 2 ≤ xOrd x
  · by_cases h2 : 6 ≤ xScope x <;> simp [h1, h2]
  · simp [h1]

theorem modify_modify {α : Type} (m : AMap α) (i : Nat) (f g : α → α) :
    AMap.modify (AMap.modify m i f) i g = AMap.modify m i (fun x => g (f x)) := by
  unfold AMap.modify
  cases h : AMap.get? m i with
  | none => simp only [h]
  | some v =>
    simp only [AMap.get?_set_self]
    have : ∀ (m : AMap α) (u w : α), AMap.set (AMap.set m i u) i w = AMap.set m i w := by
      intro m u w
      induction m with
      | nil => simp [AMap.set]
      | cons p m ih =>
        obtain ⟨k, x⟩ := p
        by_cases h1 : i < k
        · simp [AMap.set, h1]
        · by_cases h2 : i = k
          · subst h2; simp [AMap.set]
          · simp only [AMap.set, h1, if_false, h2, ih]
    exact this _ _ _

theorem updWarp_updWarp (s : State) (b w : Nat) (f g : Warp → Warp) :
    (s.updWarp b w f).updWarp b w g = s.updWarp b w fun x => g (f x) := by
  unfold State.updWarp State.updBlock
  dsimp only
  rw [modify_modify]
  simp only [modify_modify]

theorem zip_ws {e : Env} {s : State} {kind : AccKind} {n al : Nat} {ts : List Nat} {A : Nat → Nat} {B : Nat → List Byte} :
    (accs e s kind n al ts A).zip ((ts.map fun t => (t, B t)).map Prod.snd) = (accs e s kind n al ts A).map fun x => (x, B x.t) := by
  unfold accs
  induction ts with
  | nil => rfl
  | cons t ts ih => simp only [List.map_cons, List.zip_cons_cons, ih]

theorem landAcc_counted {e : Env} {s : State} {m : MemOp} {kind : RemKind} {ws : List (ThAcc × List Byte)} {x : Warp}
    (hr : (ws.filter fun p => isRemote p.1) = []) (hw : s.warp? e.b e.w = some x) :
    e.landAcc s m kind ws none = .ok (counted e m.flag s) := by
  unfold Env.landAcc counted
  simp only [hr, List.isEmpty_nil, Bool.and_true, hw]
  by_cases hf : m.flag = 15
  · simp [hf]
  · simp only [hf, decide_false, Bool.false_eq_true, if_false, Bool.not_true]
    unfold State.sendRemotes
    simp only [List.foldl_nil]
    refine congrArg Eff.ok (updWarp_congr hw ?_)
    rfl

theorem leBytes_spec (n x : Nat) : (leBytes n x).length = n ∧ ∀ j, j < n → (leBytes n x).getD j 0#8 = BitVec.ofNat 8 (x / 256 ^ j) := by
  induction n generalizing x with
  | zero => simp [leBytes]
  | succ n ih =>
    obtain ⟨h1, h2⟩ := ih (x / 256)
    unfold leBytes
    refine ⟨by simp [h1], ?_⟩
    intro j hj
    cases j with
    | zero => simp
    | succ j =>
      rw [List.getD_cons_succ, h2 j (by omega), Nat.div_div_eq_div_mul, pow_succ, Nat.mul_comm 256]

theorem mapM_ok {α β ε : Type} {f : α → Except ε β} {g : α → β} (l : List α) (h : ∀ a, a ∈ l → f a = .ok (g a)) :
    l.mapM f = .ok (l.map g) := by
  induction l with
  | nil => rfl
  | cons a l ih =>
    rw [List.mapM_cons, h a (by simp), ih fun b hb => h b (by simp [hb])]
    rfl

end Sys2Proof.Machine
end

