-- ==== Sys2Proof/Laws/Copies.lean ====
section
/-! SUPPORT. Instructions whose checks pass, and copies that start (R348, R424). -/

namespace Sys2Proof.Machine
open Claim

/-- Direct run of a spec whose checks pass. -/
theorem run_of {sp : LaneSpec} {e : Env} {l : FetchLine} {s : State} (hf : sp.featOff e s = false) (ho : sp.opOk = true)
    (hm : sp.moodOk = true) (ht : sp.target = none) (hi : sp.illegal = none ∨ e.inTry = false)
    (hsh : sp.shuttle = false ∨ e.wp.shuttle = true) (hp : sp.pre = none)
    (hg : sp.guarded = false ∨ e.idle = false) (hr : sp.dsts = [] ∨ (Room e sp.dsts ∧ e.idle = false)) : sp.run e l s = sp.act s l := by
  have hg' : (sp.guarded && e.idle) = false := by rcases hg with h | h <;> simp [h]
  rw [LaneSpec.run_pass (s1 := s) hf ho hm ?_ ?_ ?_ hp ?_, hg']
  · rfl
  · unfold LaneSpec.checkTarget; rw [ht]
  · intro h; rcases hi with hi | hi
    · exact hi
    · rw [hi] at h; cases h
  · intro h; rcases hsh with hs | hs
    · rw [hs] at h; cases h
    · exact hs
  · rcases hr with h | ⟨h | h | h, h0⟩
    · exact .inl h
    · exact .inl h
    · rw [h] at h0; cases h0
    · exact .inr (.inr h)

theorem plansOf_ok {f : Nat → Except Flt CopyPlan} {g : Nat → CopyPlan} {ts : List Nat} (h : ∀ t, t ∈ ts → f t = .ok (g t)) :
    plansOf f ts = .ok (ts.map g) := by
  induction ts with
  | nil => rfl
  | cons t ts ih =>
    unfold plansOf
    rw [h t (by simp), ih fun u hu => h u (by simp [hu])]
    rfl

theorem checkPlans_ok {e : Env} {s : State} {ps : List CopyPlan}
    (h : ∀ p, p ∈ ps → s.segsCheck e.blk p.bids.isNone p.segs = .ok ∧ e.srcUninit s p.segs = false) :
    e.checkPlans s ps = .ok (ps.map fun p => (p, .ok)) := by
  induction ps with
  | nil => rfl
  | cons p ps ih =>
    unfold Env.checkPlans
    obtain ⟨h1, h2⟩ := h p (by simp)
    rw [h1, h2, ih fun q hq => h q (by simp [hq])]
    simp

theorem issueCopies_ok {e : Env} {s : State} {ps : List CopyPlan} (h : CopiesGo e s ps) :
    e.issueCopies s ps = .ok ((started ps).foldl e.startCopy s) := by
  unfold Env.issueCopies
  rw [checkPlans_ok h.1]
  dsimp only
  have h1 : ∀ ps : List CopyPlan, ((ps.map fun p => (p, RangeCheck.ok)).filter fun r => r.2 == .ok && !r.1.segs.isEmpty).map Prod.fst = started ps := by
    intro ps
    unfold started
    induction ps with
    | nil => rfl
    | cons p ps ih =>
      simp only [List.map_cons, List.filter_cons, beq_self_eq_true, Bool.true_and]
      split <;> simp [ih]
  have h2 : ((ps.map fun p => (p, RangeCheck.ok)).filterMap fun r => match r.2 with
        | .off a => some ({ t := r.1.thread, a := a, r := .off } : ThAcc)
        | _ => none) = [] := by
    rw [List.filterMap_eq_nil_iff]
    intro r hr
    obtain ⟨p, _, rfl⟩ := List.mem_map.mp hr
    rfl
  rw [h1, h.2.1, h.2.2, if_neg (by simp)]
  exact congrArg (fun xs : List ThAcc => Eff.ok ((started ps).foldl e.startCopy (e.switchOut s ((xs ++ []).insertionSort fun x y =>
    x.t ≤ y.t)))) h2

theorem misalign_none {as : List Nat} (h : ∀ x, x ∈ as → 4 ∣ x) : alignCheck as = none := by
  unfold alignCheck
  have : (as.find? fun a => a % 4 != 0) = none := by
    rw [List.find?_eq_none]
    intro x hx
    have := Nat.mod_eq_zero_of_dvd (h x hx)
    simp [this]
  rw [this]; rfl

theorem priv_none {as : List Nat} (h : CopyAddrs as) : privCheck as = none := by
  unfold privCheck
  have : as.find? inPrivWin = none := by
    rw [List.find?_eq_none]
    intro x hx
    simp [h x hx]
  rw [this]; rfl

theorem planEq {p : CopyPlan} {t : Nat} {segs : List (Nat × Nat × Nat)} {b : Option (List Nat)} (h1 : p.thread = t) (h2 : p.segs = segs) (h3 : p.bids = b) :
    p = { thread := t, segs := segs, bids := b } := by
  cases p; simp only at h1 h2 h3; subst h1 h2 h3; rfl

theorem firstCopyFault_none {l : List CopyStat} {ms : List (Nat × Nat)}
    (h : ∀ p c, p ∈ ms → c ∈ l → c.thread = p.1 → c.batch ≤ p.2 → c.reported = true ∨ copyFault c.code = false) : firstCopyFault l ms = none := by
  induction ms with
  | nil => rfl
  | cons p ms ih =>
    obtain ⟨t, m⟩ := p
    unfold firstCopyFault
    have : (l.filter fun c => covers t m c && !c.reported && copyFault c.code) = [] := by
      rw [List.filter_eq_nil_iff]
      intro c hc
      simp only [covers, Bool.and_eq_true, decide_eq_true_eq, beq_iff_eq, Bool.not_eq_true', not_and]
      rintro ⟨⟨h1, h2⟩, h3⟩
      rcases h (t, m) c (by simp) hc h1 h2 with h4 | h4
      · rw [h3] at h4; cases h4
      · simp [h4]
    rw [this]
    simpa using ih fun p c hp => h p c (by simp [hp])

end Sys2Proof.Machine
end

