-- ==== Sys2Proof/Laws/Numbers.lean ====
section
/-! SUPPORT. Integer patterns and the integer shapes: counting and reversing bits, fields, carries, reductions (R371, R381 to R387). -/

namespace Sys2Proof.Machine
open Claim

theorem intPair_of {i : Instr} {d a b : BitVec 8} {lit : BitVec 32} {sat : Env → Bool} {f : Env → Int → Int → Int}
    {g : Env → Int → Int → Int}
    (hx : ∀ s, exec i s = runLane (alu2 i.wf tyInt (fun e => int2 e.ty (sat e) (g e)) d a b lit) s)
    (hg : ∀ e x y, g e x y = f e x y) :
    IntPair i d a b lit sat f := by
  refine yields_of _ (fun e t => do
      let x ← e.srcTy e.ty (.word lit) a t
      let y ← e.srcTy e.ty (.word lit) b t
      pure (int2 e.ty (sat e) (g e) x y)) hx (fun e hw h => plain2 hw h) ?_
  rintro e t v _ ⟨x, y, h1, h2, h3⟩
  simp only [h1, h2, bind, Except.bind, pure, Except.pure]
  congr 1
  refine map2_of_each h3.1 fun k hk => ?_
  have := narrowI_eq (h3.2 k hk)
  rw [elemInt_eq (el_lt _ _ _), elemInt_eq (el_lt _ _ _), hg]
  exact this

theorem popcN_eq (w x : Nat) : popcN w x = ((List.range w).filter fun i => x.testBit i).length := by
  induction w generalizing x with
  | zero => rfl
  | succ w ih =>
    rw [popcN, ih, List.range_succ_eq_map, List.filter_cons, List.filter_map]
    have h : (fun i => Nat.testBit x i) ∘ Nat.succ = fun i => (x / 2).testBit i := by
      funext i; simp [Nat.testBit_succ]
    rw [h]
    have h0 : x.testBit 0 = decide (x % 2 = 1) := Nat.testBit_zero x
    rcases Nat.mod_two_eq_zero_or_one x with hx | hx <;> simp [h0, hx]
    omega

theorem clzN_spec (w x : Nat) (hx : x < 2 ^ w) : clzN w x ≤ w ∧ x < 2 ^ (w - clzN w x) ∧ (clzN w x < w → 2 ^ (w - clzN w x - 1) ≤ x) := by
  induction w with
  | zero => simp [clzN]; simpa using hx
  | succ w ih =>
    rw [clzN]
    by_cases h : x.testBit w = true
    · have h2 : 2 ^ w ≤ x := Nat.ge_two_pow_of_testBit h
      simp only [h, if_true, Nat.sub_zero, Nat.add_sub_cancel]
      exact ⟨by omega, hx, fun _ => h2⟩
    · have h3 : x < 2 ^ w := by
        by_contra hc
        have : x / 2 ^ w % 2 = 0 := by
          have := Nat.testBit_eq_decide_div_mod_eq (x := x) (i := w)
          rw [this] at h; simp at h; omega
        have h4 : x / 2 ^ w = 1 := by
          have a1 : x / 2 ^ w < 2 := by rw [Nat.div_lt_iff_lt_mul (by positivity)]; rw [Nat.pow_succ] at hx; omega
          have a2 : 1 ≤ x / 2 ^ w := by rw [Nat.le_div_iff_mul_le (by positivity)]; omega
          omega
        omega
      obtain ⟨i1, i2, i3⟩ := ih h3
      simp only [h, Bool.false_eq_true, if_false]
      have e1 : w + 1 - (1 + clzN w x) = w - clzN w x := by omega
      rw [e1]
      exact ⟨by omega, i2, fun hh => i3 (by omega)⟩

theorem clz_unique {w x r : Nat} (h1 : r ≤ w) (h2 : x < 2 ^ (w - r)) (h3 : r < w → 2 ^ (w - r - 1) ≤ x) (hx : x < 2 ^ w) : clzN w x = r := by
  obtain ⟨i1, i2, i3⟩ := clzN_spec w x hx
  rcases lt_trichotomy (clzN w x) r with h | h | h
  · have := i3 (by omega)
    have := Nat.pow_le_pow_right (n := 2) (by norm_num) (show w - r ≤ w - clzN w x - 1 by omega)
    omega
  · exact h
  · have := h3 (by omega)
    have := Nat.pow_le_pow_right (n := 2) (by norm_num) (show w - clzN w x ≤ w - r - 1 by omega)
    omega

theorem brevN_lt (w x : Nat) : brevN w x < 2 ^ w := by
  induction w generalizing x with
  | zero => simp [brevN]
  | succ w ih =>
    rw [brevN, Nat.pow_succ]
    have := ih (x / 2)
    have h : x % 2 < 2 := Nat.mod_lt _ (by norm_num)
    have h2 : x % 2 * 2 ^ w ≤ 1 * 2 ^ w := Nat.mul_le_mul_right _ (by omega)
    omega

theorem brevN_bit (w x i : Nat) (hi : i < w) : (brevN w x).testBit i = x.testBit (w - 1 - i) := by
  induction w generalizing x with
  | zero => omega
  | succ w ih =>
    rw [brevN]
    have hl := brevN_lt w (x / 2)
    by_cases h : i = w
    · subst h
      have : i + 1 - 1 - i = 0 := by omega
      rw [this, Nat.mul_comm, Nat.testBit_eq_decide_div_mod_eq, Nat.mul_add_div (by positivity), Nat.div_eq_of_lt hl, Nat.testBit_zero]
      simp
    · rw [Nat.mul_comm, Nat.testBit_two_pow_mul_add _ hl, if_pos (by omega), ih _ (by omega), Nat.testBit_div_two]
      congr 1; omega

theorem testBit_ext {w u v : Nat} (hu : u < 2 ^ w) (hv : v < 2 ^ w) (h : ∀ i, i < w → u.testBit i = v.testBit i) : u = v := by
  refine Nat.eq_of_testBit_eq fun i => ?_
  by_cases hi : i < w
  · exact h i hi
  · have := Nat.pow_le_pow_right (n := 2) (by norm_num) (show w ≤ i by omega)
    rw [Nat.testBit_lt_two_pow (by omega), Nat.testBit_lt_two_pow (by omega)]

theorem bitPair_of {i : Instr} {d a b : BitVec 8} {lit : BitVec 32} {f : Bool → Bool → Bool} {g : Env → Nat → Nat → Nat}
    (hx : ∀ s, exec i s = runLane (alu2 i.wf tyAny g d a b lit) s)
    (hg : ∀ e x y, x < 2 ^ tyBits e.ty → y < 2 ^ tyBits e.ty → g e x y < 2 ^ tyBits e.ty ∧
      ∀ j, j < tyBits e.ty → (g e x y).testBit j = f (x.testBit j) (y.testBit j)) :
    BitPair i d a b lit f := by
  refine yields_of _ _ hx (fun e hw h => plain2 hw h) ?_
  rintro e t v _ ⟨x, y, h1, h2, h3, h4⟩
  simp only [h1, h2, bind, Except.bind, pure, Except.pure]
  congr 1
  obtain ⟨a1, a2⟩ := hg e x y (srcTy_lt h1) (srcTy_lt h2)
  exact testBit_ext a1 h3 fun i hi => by rw [a2 i hi, h4 i hi]

theorem shift_of {i : Instr} {d a b : BitVec 8} {lit : BitVec 32} {P : Env → Nat → Nat → Nat → Prop} {f : Env → Nat → Nat → Nat}
    (hx : ∀ s, exec i s = runLane (aluShift i.wf f d a b lit) s)
    (hf : ∀ e x n r, x < 2 ^ tyWidth e.ty → r < 2 ^ tyWidth e.ty → P e x n r → f e x n = r) : Shift i d a b lit P := by
  refine yields_of _ _ hx (fun e hw h => plainShift hw h.1 h.2.1 h.2.2.1 h.2.2.2) ?_
  rintro e t v _ ⟨x, y, h1, h2, h3, h4⟩
  simp only [h1, h2, bind, Except.bind, pure, Except.pure]
  congr 1
  unfold shiftMap
  cases h64 : ty64 e.ty with
  | true =>
    simp only [h64, if_true] at h4 ⊢
    have hw : tyWidth e.ty = 64 := by simp [tyWidth, h64]
    have hb : tyBits e.ty = 64 := by simp [tyBits, h64]
    have h5 := h4 0 (by rw [hw, hb]; norm_num)
    have hel : ∀ u, u < 2 ^ tyBits e.ty → el e.ty u 0 = u := by
      intro u hu
      simp only [el, Nat.zero_mul, Nat.pow_zero, Nat.div_one, hw]
      rw [hb] at hu; exact Nat.mod_eq_of_lt hu
    rw [hel x (srcTy_lt h1), hel v h3] at h5
    exact hf e x y v (by rw [hw, ← hb]; exact srcTy_lt h1) (by rw [hw, ← hb]; exact h3) h5
  | false =>
    simp only [h64, Bool.false_eq_true, if_false] at h4 ⊢
    refine map2_of_each h3 fun k hk => hf e _ _ _ (el_lt _ _ _) (el_lt _ _ _) (h4 k hk)

theorem tyWidth_half (ty : Ty) : 2 ^ (tyWidth ty - 1) * 2 = 2 ^ tyWidth ty := by
  obtain ⟨n, hn⟩ : ∃ n, tyWidth ty = n + 1 := ⟨tyWidth ty - 1, by have := tyWidth_pos ty; omega⟩
  rw [hn, Nat.add_sub_cancel, Nat.pow_succ]

theorem tyWord_bits {ty : Ty} (h : tyWord ty = true) : tyBits ty = tyWidth ty := by
  unfold tyWord at h
  simp only [Bool.or_eq_true, beq_iff_eq] at h
  unfold tyBits tyWidth
  rcases h with (rfl | rfl) | h <;> simp_all [ty64]

theorem bfeW_spec {w : Nat} (hw : 0 < w) (sg : Bool) (a b c : Nat) :
    bfeW w sg a b c < 2 ^ w ∧ ∀ i, i < w → (bfeW w sg a b c).testBit i =
      if i < min c (w - min b w) then a.testBit (b + i)
      else sg && decide (0 < min c (w - min b w)) && a.testBit (b + min c (w - min b w) - 1) := by
  unfold bfeW
  simp only
  set p := min b w with hp
  set l := min c (w - p) with hl
  have hlw : l ≤ w := by omega
  set f := a / 2 ^ p % 2 ^ l with hf
  have hfl : f < 2 ^ l := Nat.mod_lt _ (by positivity)
  have hfw : f < 2 ^ w := lt_of_lt_of_le hfl (Nat.pow_le_pow_right (by norm_num) hlw)
  have hfb : ∀ i, f.testBit i = (decide (i < l) && a.testBit (p + i)) := by
    intro i; rw [hf, Nat.testBit_mod_two_pow, Nat.testBit_div_two_pow]; congr 2; omega
  by_cases h0 : l = 0
  · rw [if_pos h0]
    exact ⟨by positivity, fun i hi => by simp [h0]⟩
  · rw [if_neg h0]
    have hpb : p = b := by omega
    cases sg with
    | false =>
      simp only [Bool.false_eq_true, if_false, Bool.false_and]
      refine ⟨hfw, fun i hi => ?_⟩
      rw [hfb, hpb]; by_cases h : i < l <;> simp [h]
    | true =>
      simp only [if_true, Bool.true_and]
      refine ⟨wrapN_lt _ _, fun i hi => ?_⟩
      have htop : a.testBit (b + l - 1) = f.testBit (l - 1) := by
        rw [hfb]; simp [show l - 1 < l by omega, ← hpb, show p + l - 1 = p + (l - 1) by omega]
      rw [htop]
      have hs : sext l f = val l true f := sext_eq_val hfl
      rw [hs]
      have hbit : f.testBit (l - 1) = decide (2 ^ (l - 1) ≤ f) := by
        rw [Nat.testBit_eq_decide_div_mod_eq]
        have : 2 ^ (l - 1) * 2 = 2 ^ l := by rw [← Nat.pow_succ]; congr 1; omega
        have hlt : f / 2 ^ (l - 1) < 2 := by rw [Nat.div_lt_iff_lt_mul (by positivity)]; omega
        by_cases hc : 2 ^ (l - 1) ≤ f
        · have : 1 ≤ f / 2 ^ (l - 1) := by rw [Nat.le_div_iff_mul_le (by positivity)]; omega
          have : f / 2 ^ (l - 1) = 1 := by omega
          simp [this, hc]
        · rw [Nat.div_eq_of_lt (by omega)]; simp [hc]
      unfold val
      by_cases hc : 2 ^ (l - 1) ≤ f
      · rw [if_pos ⟨rfl, hc⟩]
        have hw2 : wrapN w ((f : Int) - 2 ^ l) = f + (2 ^ w - 2 ^ l) := by
          have hle : 2 ^ l ≤ 2 ^ w := Nat.pow_le_pow_right (by norm_num) hlw
          refine wrapN_eq (by omega) ⟨-1, ?_⟩
          push_cast [hle]; ring
        rw [hw2]
        have he : f + (2 ^ w - 2 ^ l) = 2 ^ l * (2 ^ (w - l) - 1) + f := by
          rw [Nat.mul_sub, ← Nat.pow_add, show l + (w - l) = w by omega]; omega
        rw [he, Nat.testBit_two_pow_mul_add _ hfl, hbit]
        by_cases hi2 : i < l
        · rw [if_pos hi2, if_pos hi2, hfb, hpb]; simp [hi2]
        · rw [if_neg hi2, if_neg hi2, Nat.testBit_two_pow_sub_one]
          simp [hc, show 0 < l by omega, show i - l < w - l by omega]
      · rw [if_neg (by rintro ⟨-, h⟩; exact hc h)]
        rw [wrapN_eq (r := f) hfw (by simp), hfb, hbit, hpb]
        by_cases hi2 : i < l <;> simp [hi2, hc]

theorem bfiW_spec {w a b c : Nat} (hb : b < 2 ^ w) :
    bfiW w a b c < 2 ^ w ∧ ∀ i, i < w → (bfiW w a b c).testBit i =
      if min (c % 256) w ≤ i ∧ i < min (c % 256) w + min (c / 256 % 256) (w - min (c % 256) w) then
        a.testBit (i - min (c % 256) w) else b.testBit i := by
  have h1 : bits c 7 0 = c % 256 := by simp [bits]
  have h2 : bits c 15 8 = c / 256 % 256 := by simp [bits, Nat.shiftRight_eq_div_pow]
  unfold bfiW
  simp only [h1, h2]
  set p := min (c % 256) w with hp
  set l := min (c / 256 % 256) (w - p) with hl
  by_cases h0 : l = 0
  · rw [if_pos h0]
    exact ⟨hb, fun i hi => by rw [h0, if_neg (by omega)]⟩
  · rw [if_neg h0]
    -- b = high * 2^(p+l) + mid * 2^p + low
    set g := b / 2 ^ p % 2 ^ l with hg
    set f := a % 2 ^ l with hf
    have hfl : f < 2 ^ l := Nat.mod_lt _ (by positivity)
    have hlow : b % 2 ^ p < 2 ^ p := Nat.mod_lt _ (by positivity)
    have hdec : b = 2 ^ p * (2 ^ l * (b / 2 ^ (p + l)) + g) + b % 2 ^ p := by
      rw [Nat.pow_add, ← Nat.div_div_eq_div_mul, hg, Nat.div_add_mod, Nat.div_add_mod]
    have hval : b - g * 2 ^ p + f * 2 ^ p = 2 ^ p * (2 ^ l * (b / 2 ^ (p + l)) + f) + b % 2 ^ p := by
      have e1 : 2 ^ p * (2 ^ l * (b / 2 ^ (p + l)) + g) = 2 ^ p * (2 ^ l * (b / 2 ^ (p + l))) + g * 2 ^ p := by ring
      have e2 : 2 ^ p * (2 ^ l * (b / 2 ^ (p + l)) + f) = 2 ^ p * (2 ^ l * (b / 2 ^ (p + l))) + f * 2 ^ p := by ring
      omega
    have hbits : ∀ i, (b - g * 2 ^ p + f * 2 ^ p).testBit i = if p ≤ i ∧ i < p + l then a.testBit (i - p) else b.testBit i := by
      intro i
      rw [hval, Nat.testBit_two_pow_mul_add _ hlow]
      by_cases hi1 : i < p
      · rw [if_pos hi1, if_neg (by omega), Nat.testBit_mod_two_pow]; simp [hi1]
      · rw [if_neg hi1, Nat.testBit_two_pow_mul_add _ hfl]
        by_cases hi2 : i - p < l
        · rw [if_pos hi2, if_pos (by omega), hf, Nat.testBit_mod_two_pow]; simp [hi2]
        · rw [if_neg hi2, if_neg (by omega), Nat.testBit_div_two_pow]; congr 1; omega
    refine ⟨?_, fun i _ => hbits i⟩
    refine Nat.lt_pow_two_of_testBit _ fun i hi => ?_
    rw [hbits, if_neg (by omega)]
    exact Nat.testBit_lt_two_pow (lt_of_lt_of_le hb (Nat.pow_le_pow_right (by norm_num) hi))

theorem any_val {rs : List (Nat × Nat × Bool)} {t : Nat} {co : Bool} (hex : ∃ r ∈ rs, r.1 = t) (hr : ∀ r ∈ rs, r.1 = t → r.2.2 = co) :
    (rs.any fun r => r.1 == t && r.2.2) = co := by
  obtain ⟨r, hrm, hrt⟩ := hex
  rcases Bool.eq_false_or_eq_true co with h | h
  · rw [h]; exact List.any_eq_true.mpr ⟨r, hrm, by simp [hrt, hr r hrm hrt, h]⟩
  · rw [h, List.any_eq_false]
    intro q hq hc
    simp only [Bool.and_eq_true, beq_iff_eq] at hc
    rw [hr q hq hc.1, h] at hc
    exact absurd hc.2 (by simp)

theorem carries_of {i : Instr} {d a b c : BitVec 8} {lit : BitVec 24} {P : Nat → Nat → Bool → Nat → Bool → Prop}
    {f : Nat → Nat → Bool → Nat × Bool} (hx : ∀ s, exec i s = runLane (aluCarry i.wf f d a b c lit) s)
    (hf : ∀ x y ci v co, x < 2 ^ 32 → y < 2 ^ 32 → P x y ci v co → f x y ci = (v, co)) : Carries i d a b c lit P := by
  intro s e l s1 pc hi hwf hty hd ha hb hc hroom hsrc
  obtain ⟨hbk, hw, hs⟩ := issues_block hi
  set sp := aluCarry i.wf f d a b c lit e with hsp
  have hpl : Plain sp := ⟨rfl, by simp [hsp, aluCarry, hwf, hd, ha, hb, hc], by
    rcases hty with h | h <;> simp [hsp, aluCarry, h], rfl, rfl, rfl, rfl⟩
  have hrun := hpl.run (e := e) (l := l) (s := s1) (by exact hroom) rfl
  by_cases hid : e.idle = true
  · rw [if_pos hid] at hrun
    refine ⟨s1.retireTo e pc, turned e pc e.wp, ?_, retired_same hbk hw hs, keeps_turned pc (keeps_idle hid _ _ _), ?_⟩
    · rw [hx, runLane_ok hi.who hi.line hi.next hrun]
    · intro t m n v co ht
      rw [act_eq_nil.mpr hid] at ht
      simp at ht
  · rw [if_neg hid] at hrun
    set fn := fun t => (do
      let x ← e.srcTy e.ty (.lit24 lit) a t
      let y ← e.srcTy e.ty (.lit24 lit) b t
      pure (f x y ((e.pred (predNo c)).getLsbD t)) : Except (BitVec 8) (Nat × Bool)) with hfn
    obtain ⟨rs, hrs, hmap, hval⟩ := eachThread_ok (f := fn) (ts := e.act) fun t ht => by
      obtain ⟨x, y, h1, h2⟩ := hsrc t ht
      exact ⟨f x y ((e.pred (predNo c)).getLsbD t), by simp [hfn, h1, h2, bind, Except.bind, pure, Except.pure]⟩
    set ws := rs.map fun r => (r.1, wordsFor 1 r.2.1) with hws
    have hfst : ws.map Prod.fst = e.act := by rw [hws, List.map_map, ← hmap]; rfl
    obtain ⟨hkeep, hgot⟩ := putWarp_vec (k := 1) hd hfst
    have hrun2 : sp.run e l s1 = .ok ((s1.updWarp e.b e.w (e.putWarp d 1 ws)).updWarp e.b e.w fun x =>
        x.writePred e.active (predNo c) (maskOf fun t => rs.any fun r => r.1 == t && r.2.2)) := by
      rw [hrun]
      show Env.carryResult e d c fn s1 l = _
      rw [Env.carryResult, hrs]; rfl
    set M := maskOf fun t => rs.any fun r => r.1 == t && r.2.2 with hM
    have hpt := putWarp_turn e d 1 ws e.wp
    refine ⟨_, _, by rw [hx, runLane_ok hi.who hi.line hi.next hrun2],
      changed_retired (changed_upd (changed_upd (changed_start hbk hw) (e.putWarp d 1 ws)) fun x => x.writePred e.active (predNo c) M) hs
        ?_ ?_, keeps_turned pc (keeps_pred hkeep _ _), ?_⟩
    · rw [← writePred_rest]; exact hpt.1
    · rw [← writePred_rest]; exact hpt.2
    · intro t m n v co ht h1 h2 hP
      obtain ⟨ht16, hta⟩ := mem_act.mp ht
      have hp7 : (predNo c == 7 || (e.pred (predNo c)).getLsbD t) = (e.pred (predNo c)).getLsbD t := by
        by_cases h7 : predNo c = 7
        · have : t = t % 16 := by omega
          simp only [h7, Env.pred, if_true, beq_self_eq_true, Bool.true_or]
          rw [show (0xffff#16) = BitVec.allOnes 16 from rfl, BitVec.getLsbD_allOnes]
          exact (decide_eq_true ht16).symm
        · simp [h7]
      rw [hp7] at hP
      have hfv := hf m n _ v co (by
          have := srcTy_lt h1; rcases hty with h | h <;> simpa [h, tyBits, ty64] using this) (by
          have := srcTy_lt h2; rcases hty with h | h <;> simpa [h, tyBits, ty64] using this) hP
      have hfe : fn t = .ok (v, co) := by simp [hfn, h1, h2, hfv, bind, Except.bind, pure, Except.pure]
      have hr : ∀ r ∈ rs, r.1 = t → r.2 = (v, co) := by
        intro r hr hrt
        have h3 := hval r hr
        rw [hrt, hfe] at h3
        exact (Except.ok.inj h3).symm
      have hex : ∃ r ∈ rs, r.1 = t := by
        rw [← hmap] at ht
        obtain ⟨r, hm, rfl⟩ := List.mem_map.mp ht
        exact ⟨r, hm, rfl⟩
      constructor
      · intro j hj
        obtain rfl : j = 0 := by omega
        simp only [not_isS_of_isV hd, Bool.false_eq_true, if_false]
        obtain ⟨r, hm, hrt⟩ := hex
        have h5 := hgot t (wordsFor 1 v) 0 (List.mem_map.mpr ⟨r, hm, by rw [hr r hm hrt, hrt]⟩) (by omega)
        rw [(wordsFor_getD (.inl rfl) (by omega)).1] at h5
        obtain ⟨q, q1, q2, q3, q4⟩ := h5
        refine ⟨q, ?_, q2, q3, q4⟩
        rw [← q1]
        rw [turned_reg?, writePred_reg?]
      · intro h7
        have hle := isP_lt hc
        rw [turned_preds, writePred_get _ _ _ _ _ (by omega), if_pos rfl]
        have hany := any_val hex (fun r hr2 hrt => by rw [hr r hr2 hrt])
        simp only [BitVec.getLsbD_or, BitVec.getLsbD_and, BitVec.getLsbD_not, hta, ht16, hM, getLsbD_maskOf, decide_true,
          Bool.true_and, Bool.not_true, Bool.and_false, Bool.false_or, Bool.and_true, hany]

theorem tyMin_eq (ty : Ty) : tyMin ty = lo ty := by unfold tyMin lo; split <;> push_cast <;> rfl

theorem tyMax_eq (ty : Ty) : tyMax ty = hi ty := by unfold tyMax hi; split <;> push_cast <;> rfl

theorem getD_map_range (g : Nat → Nat) (n k : Nat) (hk : k < n) : ((List.range n).map g).getD k 0 = g k := by
  simp only [List.getD, List.getElem?_map, List.getElem?_range hk, Option.map_some, Option.getD_some]

theorem narrow_cases {ty : Nat} (h : tyNarrow ty = true) : ty = 3 ∨ ty = 4 ∨ ty = 5 ∨ ty = 6 ∨ ty = 7 ∨ ty = 8 := by
  have h2 : 3 ≤ ty ∧ ty ≤ 8 := of_decide_eq_true h
  omega

theorem not_isV_of_isS {d : BitVec 8} (h : isS d = true) : isV d = false := by
  simp only [isS, decide_eq_true_eq] at h
  simp only [isV, decide_eq_false_iff_not]
  omega

theorem dst_isS {d : BitVec 8} (k : Nat) (h : isS d = true) : dstNames d k = [] := by
  simp [dstNames, not_isV_of_isS h]

theorem isV_dst {d : BitVec 8} (h : isV d = true) : isV d = true ∨ isS d = true := .inl h

theorem fold_pick {α : Type} [LinearOrder α] (val : Nat → α) (l : List Nat) (x0 : Nat) :
    let r := l.foldl (fun a x => if val x < val a then x else a) x0
    (r = x0 ∨ r ∈ l) ∧ val r ≤ val x0 ∧ ∀ y ∈ l, val r ≤ val y := by
  induction l generalizing x0 with
  | nil => simp
  | cons x l ih =>
    simp only [List.foldl_cons]
    obtain ⟨h1, h2, h3⟩ := ih (if val x < val x0 then x else x0)
    by_cases h : val x < val x0
    · simp only [h, if_true] at h1 h2 h3 ⊢
      refine ⟨?_, le_trans h2 (le_of_lt h), fun y hy => ?_⟩
      · rcases h1 with h1 | h1
        · right; rw [h1]; simp
        · right; simp [h1]
      · rcases List.mem_cons.mp hy with rfl | hy
        · exact h2
        · exact h3 y hy
    · simp only [h, if_false] at h1 h2 h3 ⊢
      refine ⟨?_, h2, fun y hy => ?_⟩
      · rcases h1 with h1 | h1
        · exact .inl h1
        · right; simp [h1]
      · rcases List.mem_cons.mp hy with rfl | hy
        · exact le_trans h2 (not_lt.mp h)
        · exact h3 y hy

theorem sum_fold (l : List Int) (a : Int) : l.foldl (· + ·) a = a + l.sum := by
  induction l generalizing a with
  | nil => simp
  | cons x l ih => simp only [List.foldl_cons, List.sum_cons]; rw [ih]; ring

theorem fold_bit (f : Nat → Nat → Nat) (g : Bool → Bool → Bool) (hf : ∀ a b j, (f a b).testBit j = g (a.testBit j) (b.testBit j))
    (l : List Nat) (a j : Nat) : (l.foldl f a).testBit j = (l.map fun y => y.testBit j).foldl g (a.testBit j) := by
  induction l generalizing a with
  | nil => rfl
  | cons x l ih => simp only [List.foldl_cons, List.map_cons]; rw [ih, hf]

theorem red_eq {ty : Ty} {sat : Bool} {op : Nat} {l : List Nat} {r : Nat} (hop : op ≤ 5)
    (hlt : ∀ y ∈ l, y < 2 ^ tyWidth ty) (h : Combined ty sat op l r) : redInts ty sat op l = r := by
  obtain ⟨hr, h⟩ := h
  by_cases hl : l = []
  · subst hl
    unfold redInts
    match op, hop with
    | 0, _ => simp only at h; exact narrowI_eq h
    | 1, _ => simp at h
    | 2, _ => simp at h
    | 3, _ =>
      simp only [List.all_nil] at h
      have := h (tyWidth ty)
      rw [Nat.testBit_lt_two_pow hr] at this; simp at this
    | 4, _ =>
      refine Nat.eq_of_testBit_eq fun j => ?_
      rw [h j]; simp
    | 5, _ =>
      refine Nat.eq_of_testBit_eq fun j => ?_
      rw [h j]; simp
  obtain ⟨x, xs, rfl⟩ := List.exists_cons_of_ne_nil hl
  have hx := hlt x (by simp)
  unfold redInts
  have hvi : ∀ y ∈ x :: xs, elemInt ty y = val (tyWidth ty) (tySigned ty) y := fun y hy => elemInt_eq (hlt y hy)
  match op, hop with
  | 0, _ =>
    simp only at h ⊢
    rw [sum_fold, Int.zero_add, List.map_congr_left hvi]
    exact narrowI_eq h
  | 1, _ =>
    simp only [List.headD_cons] at h ⊢
    obtain ⟨h1, h2, h3⟩ := fold_pick (elemInt ty) (x :: xs) x
    generalize (x :: xs).foldl (fun a x => if elemInt ty x < elemInt ty a then x else a) x = q at *
    have hq : q ∈ x :: xs := by rcases h1 with h1 | h1; rw [h1]; simp; exact h1
    have e1 := h3 r h.1
    rw [hvi q hq, hvi r h.1] at e1
    exact (val_inj (hlt q hq) hr).mp (le_antisymm e1 (h.2 q hq))
  | 2, _ =>
    simp only [List.headD_cons] at h ⊢
    obtain ⟨h1, h2, h3⟩ := fold_pick (α := Intᵒᵈ) (fun y => OrderDual.toDual (elemInt ty y)) (x :: xs) x
    have hfe : (x :: xs).foldl (fun a x => if elemInt ty a < elemInt ty x then x else a) x =
      (x :: xs).foldl (fun a x => if OrderDual.toDual (elemInt ty x) < OrderDual.toDual (elemInt ty a) then x else a) x := rfl
    rw [hfe]
    generalize (x :: xs).foldl (fun a x => if OrderDual.toDual (elemInt ty x) < OrderDual.toDual (elemInt ty a) then x else a) x = q at *
    have hq : q ∈ x :: xs := by rcases h1 with h1 | h1; rw [h1]; simp; exact h1
    have e1 : elemInt ty r ≤ elemInt ty q := h3 r h.1
    rw [hvi q hq, hvi r h.1] at e1
    exact (val_inj (hlt q hq) hr).mp (le_antisymm (h.2 q hq) e1)
  | 3, _ =>
    simp only [List.headD_cons] at h ⊢
    refine Nat.eq_of_testBit_eq fun j => ?_
    rw [h j, fold_bit _ (· && ·) (fun a b j => Nat.testBit_and a b j)]
    have : ∀ (l : List Bool) a, l.foldl (· && ·) a = (a && l.all id) := by
      intro l; induction l with
      | nil => simp
      | cons b l ih => intro a; simp only [List.foldl_cons, List.all_cons]; rw [ih, Bool.and_assoc]; rfl
    rw [this, List.all_map]
    simp [Function.comp_def, ← Bool.and_assoc]
  | 4, _ =>
    simp only [List.headD_cons] at h ⊢
    refine Nat.eq_of_testBit_eq fun j => ?_
    rw [h j, fold_bit _ (· || ·) (fun a b j => Nat.testBit_or a b j)]
    have : ∀ (l : List Bool) a, l.foldl (· || ·) a = (a || l.any id) := by
      intro l; induction l with
      | nil => simp
      | cons b l ih => intro a; simp only [List.foldl_cons, List.any_cons]; rw [ih, Bool.or_assoc]; rfl
    rw [this, List.any_map]
    simp [Function.comp_def, ← Bool.or_assoc]
  | 5, _ =>
    simp only [List.headD_cons, List.tail_cons] at h ⊢
    refine Nat.eq_of_testBit_eq fun j => ?_
    rw [h j, fold_bit _ (· ^^ ·) (fun a b j => Nat.testBit_xor a b j)]
    have : ∀ (l : List Bool) a, l.foldl (· ^^ ·) a = (a ^^ decide ((l.filter id).length % 2 = 1)) := by
      intro l; induction l with
      | nil => simp
      | cons b l ih =>
        intro a; simp only [List.foldl_cons]; rw [ih]
        cases b
        · simp
        · simp only [List.filter_cons, id, if_true, List.length_cons]
          have h2 : (decide (((l.filter id).length + 1) % 2 = 1)) = !decide ((l.filter id).length % 2 = 1) := by
            by_cases hc : (l.filter id).length % 2 = 1
            · simp [hc]; omega
            · simp [hc]; omega
          rw [h2]; cases a <;> simp
    rw [this, List.filter_map, List.length_map]
    simp only [List.filter_cons, Function.comp_def, id]
    cases hb : x.testBit j
    · simp
    · simp only [if_true, List.length_cons]
      by_cases hc : (xs.filter fun y => y.testBit j).length % 2 = 1
      · simp [hc]; omega
      · simp [hc]; omega

theorem redOp_le {b : BitVec 8} (h : redBOk b = true) : redOp b ≤ 5 := by
  unfold redBOk at h; simp only [decide_eq_true_eq] at h; unfold redOp; omega

theorem find_act {e : Env} {rs : List (Nat × Nat)} {X : Nat → Nat} (hmap : rs.map Prod.fst = e.act)
    (hX : ∀ r ∈ rs, r.2 = X r.1) (g : Nat → Nat) (u : Nat) :
    ((rs.find? fun r => r.1 == u).map fun r => g r.2) = if u ∈ e.act then some (g (X u)) else none := by
  by_cases h : u ∈ e.act
  · rw [if_pos h]
    rw [← hmap] at h
    obtain ⟨r, hr, rfl⟩ := List.mem_map.mp h
    cases hf : rs.find? (fun q => q.1 == r.1) with
    | none =>
      have := List.find?_eq_none.mp hf r hr
      simp at this
    | some q =>
      have h1 := List.find?_some hf
      have h2 := List.mem_of_find?_eq_some hf
      simp only [beq_iff_eq] at h1
      simp only [Option.map_some]
      rw [hX q h2, h1]
  · rw [if_neg h]
    have : rs.find? (fun q => q.1 == u) = none := by
      rw [List.find?_eq_none]
      intro q hq hc
      simp only [beq_iff_eq] at hc
      apply h; rw [← hmap]; exact List.mem_map.mpr ⟨q, hq, hc⟩
    rw [this]; rfl

theorem map_act {e : Env} {rs : List (Nat × Nat)} {X : Nat → Nat} (hmap : rs.map Prod.fst = e.act)
    (hX : ∀ r ∈ rs, r.2 = X r.1) : rs = e.act.map fun u => (u, X u) := by
  rw [← hmap, List.map_map]
  conv_lhs => rw [← List.map_id rs]
  refine List.map_congr_left fun r hr => ?_
  simp only [id, Function.comp]
  rw [← hX r hr]

end Sys2Proof.Machine
end

