-- ==== Sys2Proof/Laws/Floats.lean ====
section
/-! SUPPORT. Floating-point values as rationals: comparisons, rounding far outside a format, exact sums, quantisation (R276 to R296). -/

namespace Sys2Proof.Machine
open Claim

theorem scaled_rat (n : Bool) (m : Nat) (e q : Int) (h : q ≤ e) : (scaled n m e q : ℚ) = rat n m e * 2 ^ (-q) := by
  unfold scaled rat
  have h1 : ((2 : ℚ) ^ (e - q).toNat) = 2 ^ e * 2 ^ (-q) := by
    rw [← zpow_add₀ (by norm_num), ← zpow_natCast]
    congr 1
    omega
  cases n
  · simp only [Bool.false_eq_true, if_false]; push_cast; rw [h1]; ring
  · simp only [if_true]; push_cast; rw [h1]; ring

theorem scaled_lt {a b : Bool} {m n : Nat} {e g : Int} : scaled a m e (min e g) < scaled b n g (min e g) ↔ rat a m e < rat b n g := by
  have hp : (0 : ℚ) < 2 ^ (-(min e g)) := by positivity
  rw [← Int.cast_lt (R := ℚ), scaled_rat _ _ _ _ (min_le_left _ _), scaled_rat _ _ _ _ (min_le_right _ _), mul_lt_mul_iff_left₀ hp]

theorem flt_iff (x y : FVal) : fltV x y = true ↔ FLt x y := by
  cases x with
  | nan => cases y <;> simp [fltV, FLt]
  | inf a =>
    cases y with
    | nan => cases a <;> simp [fltV, FLt]
    | inf b => cases a <;> cases b <;> simp [fltV, FLt]
    | fin b n g => cases a <;> simp [fltV, FLt]
  | fin a m e =>
    cases y with
    | nan => simp [fltV, FLt]
    | inf b => cases b <;> simp [fltV, FLt]
    | fin b n g => simp only [fltV, FLt, decide_eq_true_eq]; exact scaled_lt

theorem feq_iff (x y : FVal) : feqV x y = true ↔ FEq x y := by
  cases x with
  | nan => cases y <;> simp [feqV, FEq]
  | inf a =>
    cases y with
    | nan => cases a <;> simp [feqV, FEq]
    | inf b => cases a <;> cases b <;> simp [feqV, FEq, fltV]
    | fin b n g => cases a <;> simp [feqV, FEq, fltV]
  | fin a m e =>
    cases y with
    | nan => simp [feqV, FEq]
    | inf b => cases b <;> simp [feqV, FEq, fltV]
    | fin b n g =>
      simp only [feqV, FEq, fltV, Bool.and_eq_true, Bool.not_eq_true', decide_eq_false_iff_not]
      rw [scaled_lt, scaled_lt]
      constructor
      · rintro ⟨h1, h2⟩; exact le_antisymm (not_lt.mp h2) (not_lt.mp h1)
      · rintro h; rw [h]; exact ⟨lt_irrefl _, lt_irrefl _⟩

theorem FLt_not_nan {x y : FVal} (h : FLt x y) : x ≠ .nan ∧ y ≠ .nan := by
  constructor <;> rintro rfl
  · cases y <;> simp [FLt] at h
  · cases x with
    | nan => simp [FLt] at h
    | inf a => cases a <;> simp [FLt] at h
    | fin a m e => simp [FLt] at h

theorem FEq_not_nan {x y : FVal} (h : FEq x y) : x ≠ .nan ∧ y ≠ .nan := by
  constructor <;> rintro rfl
  · cases y <;> simp [FEq] at h
  · cases x <;> simp [FEq] at h

theorem isNan_iff (x : FVal) : x.isNan = true ↔ x = .nan := by cases x <;> simp [FVal.isNan]

theorem isNan_or {x y : FVal} (h : x ≠ .nan ∧ y ≠ .nan) : (x.isNan || y.isNan) = false := by
  have := isNan_iff x; have := isNan_iff y
  cases hx : x.isNan <;> cases hy : y.isNan <;> simp_all

theorem isNan_or_iff {x y : FVal} : (x.isNan || y.isNan) = true ↔ x = .nan ∨ y = .nan := by
  rw [Bool.or_eq_true, isNan_iff, isNan_iff]

theorem isNan_nor {x y : FVal} : (!(x.isNan || y.isNan)) = true ↔ x ≠ .nan ∧ y ≠ .nan := by
  have := @isNan_or_iff x y
  cases h : (x.isNan || y.isNan) <;> simp [h] at this ⊢ <;> tauto

theorem fcmp_lt {x y : FVal} : (!(x.isNan || y.isNan) && fltV x y) = true ↔ FLt x y := by
  rw [Bool.and_eq_true, isNan_nor, flt_iff]
  exact ⟨fun h => h.2, fun h => ⟨FLt_not_nan h, h⟩⟩

theorem fcmp_eq {x y : FVal} : (!(x.isNan || y.isNan) && feqV x y) = true ↔ FEq x y := by
  rw [Bool.and_eq_true, isNan_nor, feq_iff]
  exact ⟨fun h => h.2, fun h => ⟨FEq_not_nan h, h⟩⟩

theorem nan_comm (x y : FVal) : (x.isNan || y.isNan) = (y.isNan || x.isNan) := Bool.or_comm _ _

theorem FEq_comm {x y : FVal} : FEq x y ↔ FEq y x := by
  cases x <;> cases y <;> simp [FEq, eq_comm]

theorem icmp {P : Nat → Nat → Prop} {f : Nat → Nat → Bool} {ty : Ty} {x y : Nat}
    (h : ∀ u v, u < 2 ^ tyWidth ty → v < 2 ^ tyWidth ty → (f u v = true ↔ P u v)) :
    all2 ty f x y = true ↔ ∀ k, k < tyBits ty / tyWidth ty → P (el ty x k) (el ty y k) := by
  rw [all2_eq]
  exact ⟨fun g k hk => (h _ _ (el_lt _ _ _) (el_lt _ _ _)).mp (g k hk), fun g k hk => (h _ _ (el_lt _ _ _) (el_lt _ _ _)).mpr (g k hk)⟩

theorem float2_of {i : Instr} {d a b : BitVec 8} {lit : BitVec 32} {f : Env → FVal → FVal → FVal}
    (hx : ∀ s, exec i s = runLane (alu2 i.wf tyFloat (fop2 f) d a b lit) s) : Float2 i d a b lit f := by
  refine yields_of _ _ hx (fun e hw h => plain2 hw h) ?_
  rintro e t v _ ⟨x, y, h1, h2, h3⟩
  simp only [h1, h2, bind, Except.bind, pure, Except.pure]
  congr 1
  exact map2_of_each h3.1 fun k hk => (h3.2 k hk).symm

theorem float1_of {i : Instr} {d a : BitVec 8} {lit : BitVec 32} {f : Env → FVal → FVal}
    (hx : ∀ s, exec i s = runLane (alu1 i.wf tyFloat (fop1 f) d a lit) s) : Float1 i d a lit f := by
  refine yields_of _ _ hx (fun e hw h => plain1 hw h) ?_
  rintro e t v _ ⟨x, h1, h3⟩
  simp only [h1, bind, Except.bind, pure, Except.pure]
  congr 1
  exact map1_of_each h3.1 fun k hk => (h3.2 k hk).symm

theorem fmt_width {ty : Ty} (h : tyFloat ty = true) : 1 + (tyFmt ty).eb + (tyFmt ty).fb = tyWidth ty ∧
    ((tyFmt ty) = fmtF32 ∨ (tyFmt ty) = fmtF16 ∨ (tyFmt ty) = fmtBf16) := by
  unfold tyFloat at h
  simp only [Bool.or_eq_true, beq_iff_eq] at h
  rcases h with (rfl | rfl) | rfl <;> decide

theorem signOp_of {i : Instr} {d a : BitVec 8} {lit : BitVec 32} {f : Bool → Bool} {g : FFmt → Nat → Nat}
    (hx : ∀ s, exec i s = runLane (alu1 i.wf tyFloat (fsignOp g) d a lit) s)
    (hg : ∀ (F : FFmt) x, x < 2 ^ (1 + F.eb + F.fb) → g F x < 2 ^ (1 + F.eb + F.fb) ∧ ∀ j, j < 1 + F.eb + F.fb →
      (g F x).testBit j = if j = F.eb + F.fb then f (x.testBit j) else x.testBit j) : SignOp i d a lit f := by
  refine yields_of _ _ hx (fun e hw h => plain1 hw h) ?_
  rintro e t v ⟨hty, -⟩ ⟨x, h1, h3⟩
  simp only [h1, bind, Except.bind, pure, Except.pure]
  congr 1
  refine map1_of_each h3.1 fun k hk => ?_
  have h4 := h3.2 k hk
  dsimp only at h4
  have hw := (fmt_width hty).1
  by_cases hn : fdecode e.fmt (el e.ty x k) = .nan
  · rw [if_pos hn] at h4
    simp only [hn, FVal.isNan, if_true]
    exact h4.symm
  · rw [if_neg hn] at h4
    have hnn : (fdecode e.fmt (el e.ty x k)).isNan = false := by
      cases h : fdecode e.fmt (el e.ty x k) with
      | nan => exact absurd h hn
      | inf _ => rfl
      | fin _ _ _ => rfl
    simp only [hnn, Bool.false_eq_true, if_false]
    have hlt : el e.ty x k < 2 ^ (1 + e.fmt.eb + e.fmt.fb) := by rw [Env.fmt, hw]; exact el_lt _ _ _
    obtain ⟨a1, a2⟩ := hg e.fmt _ hlt
    refine testBit_ext a1 (by rw [Env.fmt, hw]; exact el_lt _ _ _) fun j hj => ?_
    rw [a2 j hj, h4 j (by rw [← hw]; exact hj)]
    have : tyWidth e.ty - 1 = e.fmt.eb + e.fmt.fb := by rw [← hw]; simp only [Env.fmt]; omega
    rw [this]

theorem roundAt_small {mode : RMode} {neg : Bool} {m : Nat} {e q : Int} {s : Nat} (hm : 0 < m) (hlt : 2 * m < 2 ^ s)
    (hs : (s : Int) ≤ q - e) : roundAt mode neg m e q = match mode with
      | 0 => 0
      | 1 => 0
      | 2 => if neg then 1 else 0
      | _ => if neg then 0 else 1 := by
  unfold roundAt
  have h1 : ¬ q ≤ e := by
    intro h
    have : s = 0 := by omega
    subst this; simp at hlt; omega
  rw [if_neg h1]
  have h2 : m < 2 ^ (q - e).toNat := by
    have : 2 ^ s ≤ 2 ^ (q - e).toNat := Nat.pow_le_pow_right (by norm_num) (by omega)
    omega
  have h3 : 2 * m < 2 ^ (q - e).toNat := by
    have : 2 ^ s ≤ 2 ^ (q - e).toNat := Nat.pow_le_pow_right (by norm_num) (by omega)
    omega
  have hr : m % 2 ^ (q - e).toNat = m := Nat.mod_eq_of_lt h2
  have hd : m / 2 ^ (q - e).toNat = 0 := Nat.div_eq_of_lt h2
  simp only [hr, hd]
  match mode with
  | 0 => simp; omega
  | 1 => simp
  | 2 => cases neg <;> simp; omega
  | n + 3 => cases neg <;> simp; omega

/-- Far below the format's range the pattern does not depend on the exponent. -/
theorem fencode_tiny {f : FFmt} {mode : RMode} {neg : Bool} {m : Nat} {e e' : Int} (hm : 0 < m)
    (h : (Nat.log2 m : Int) + e + 2 < f.emin - f.fb) (h' : (Nat.log2 m : Int) + e' + 2 < f.emin - f.fb) :
    fencode f mode (.fin neg m e) = fencode f mode (.fin neg m e') := by
  have hl : m < 2 ^ (Nat.log2 m + 1) := Nat.lt_log2_self
  have key : ∀ e : Int, (Nat.log2 m : Int) + e + 2 < f.emin - f.fb →
      max ((Nat.log2 m : Int) + e) f.emin - f.fb = f.emin - f.fb ∧
      roundAt mode neg m e (f.emin - f.fb) = match mode with
      | 0 => 0
      | 1 => 0
      | 2 => if neg then 1 else 0
      | _ => if neg then 0 else 1 := by
    intro e he
    refine ⟨by omega, roundAt_small (s := Nat.log2 m + 2) hm ?_ (by omega)⟩
    rw [Nat.pow_succ]; omega
  unfold fencode
  simp only [(key e h).1, (key e h).2, (key e' h').1, (key e' h').2]

theorem roundAt_ge {mode : RMode} {neg : Bool} {m : Nat} {e q : Int} (fb : Nat) (h : (Nat.log2 m : Int) + e - q = fb) (hm : 0 < m) :
    2 ^ fb ≤ roundAt mode neg m e q := by
  have hl : 2 ^ Nat.log2 m ≤ m := Nat.log2_self_le (by omega)
  unfold roundAt
  split
  · rename_i hq
    calc 2 ^ fb = 2 ^ Nat.log2 m * 2 ^ (e - q).toNat := by rw [← Nat.pow_add]; congr 1; omega
      _ ≤ _ := Nat.mul_le_mul_right _ hl
  · rename_i hq
    have : 2 ^ fb ≤ m / 2 ^ (q - e).toNat := by
      rw [Nat.le_div_iff_mul_le (by positivity), ← Nat.pow_add]
      refine le_trans (Nat.pow_le_pow_right (by norm_num) ?_) hl
      omega
    have key : ∀ c : Bool, 2 ^ fb ≤ if c = true then m / 2 ^ (q - e).toNat + 1 else m / 2 ^ (q - e).toNat := by
      intro c; split <;> omega
    exact key _

/-- Far above the format's range it overflows. -/
theorem fencode_huge {f : FFmt} {mode : RMode} {neg : Bool} {m : Nat} {e : Int} (hm : 0 < m) (heb : 1 ≤ f.eb)
    (h : f.emax + 1 ≤ (Nat.log2 m : Int) + e) :
    fencode f mode (.fin neg m e) = (if neg then f.signBit else 0) + overflowBits f mode neg := by
  have hb : f.bias = 2 ^ (f.eb - 1) - 1 := rfl
  have hp : (0 : Int) < 2 ^ (f.eb - 1) := by positivity
  have hmax : max ((Nat.log2 m : Int) + e) f.emin = (Nat.log2 m : Int) + e := by
    simp only [FFmt.emin, FFmt.emax] at *; omega
  unfold fencode
  simp only [show m ≠ 0 by omega, if_false, hmax]
  have hge := roundAt_ge (mode := mode) (neg := neg) (m := m) (e := e) (q := (Nat.log2 m : Int) + e - f.fb) f.fb (by omega) hm
  have hp2 : 0 < 2 ^ f.fb := by positivity
  rw [if_neg (by omega)]
  have hbody : f.infBits ≤ ((Nat.log2 m : Int) + e - f.fb - (f.emin - f.fb)).toNat * 2 ^ f.fb + roundAt mode neg m e ((Nat.log2 m : Int) + e - f.fb) := by
    have h1 : 2 ^ f.eb - 2 ≤ ((Nat.log2 m : Int) + e - f.fb - (f.emin - f.fb)).toNat := by
      have hpow : (2 : Int) ^ f.eb = 2 * 2 ^ (f.eb - 1) := by rw [← pow_succ']; congr 1; omega
      have hpn : ((2 ^ f.eb : Nat) : Int) = 2 ^ f.eb := by push_cast; rfl
      simp only [FFmt.emin, FFmt.emax] at *
      omega
    have h2 : f.infBits = (2 ^ f.eb - 2) * 2 ^ f.fb + 2 ^ f.fb := by
      unfold FFmt.infBits
      have : 2 ≤ 2 ^ f.eb := by
        calc 2 = 2 ^ 1 := rfl
          _ ≤ _ := Nat.pow_le_pow_right (by norm_num) heb
      have h3 : 2 ^ f.eb - 1 = (2 ^ f.eb - 2) + 1 := by omega
      rw [h3]; ring
    rw [h2]
    have := Nat.mul_le_mul_right (2 ^ f.fb) h1
    omega
  rw [if_pos hbody]

theorem fscale_clamp {f : FFmt} (hf : f = fmtF32 ∨ f = fmtF16 ∨ f = fmtBf16) {env : FEnv} {x : Nat} (n : Int) :
    fresult f env (fscaleV (clampI (-1000) 1000 n) (fread f env.flush x)) = fresult f env (fscaleV n (fread f env.flush x)) := by
  have hrange : ∀ neg m e, fread f env.flush x = .fin neg m e → m = 0 ∨ (0 < m ∧ Nat.log2 m ≤ 23 ∧ -149 ≤ e ∧ e ≤ 120) := by
    intro neg m e h
    have hdec : ∀ neg m e, fdecode f x = .fin neg m e → m = 0 ∨ (0 < m ∧ Nat.log2 m ≤ 23 ∧ -149 ≤ e ∧ e ≤ 120) := by
      intro neg m e h
      unfold fdecode at h
      simp only at h
      have hlog : ∀ m, 0 < m → m < 2 ^ 24 → Nat.log2 m ≤ 23 := by
        intro m h0 hm
        have := Nat.log2_self_le (show m ≠ 0 by omega)
        by_contra hc
        have : 2 ^ 24 ≤ 2 ^ Nat.log2 m := Nat.pow_le_pow_right (by norm_num) (by omega)
        omega
      split at h
      · split at h <;> cases h
      · have hex : ∀ hi lo, bits x hi lo < 2 ^ (hi + 1 - lo) := fun hi lo => Nat.mod_lt _ (by positivity)
        split at h
        · cases h
          rcases Nat.eq_zero_or_pos (bits x (f.fb - 1) 0) with h0 | h0
          · exact .inl h0
          · right
            have := hex (f.fb - 1) 0
            rcases hf with rfl | rfl | rfl <;> simp [fmtF32, fmtF16, fmtBf16, FFmt.emin, FFmt.bias] at * <;>
              exact ⟨h0, hlog _ h0 (by omega)⟩
        · cases h
          right
          have h1 := hex (f.fb - 1) 0
          have h2 := hex (f.eb + f.fb - 1) f.fb
          rcases hf with rfl | rfl | rfl <;> simp [fmtF32, fmtF16, fmtBf16, FFmt.emin, FFmt.bias] at * <;>
            exact ⟨hlog _ (by omega) (by omega), by omega, by omega⟩
    unfold fread at h
    split at h
    · cases h; exact .inl rfl
    · exact hdec _ _ _ h
  cases hv : fread f env.flush x with
  | nan => rfl
  | inf s => rfl
  | fin neg m e =>
    simp only [fscaleV]
    unfold fresult
    congr 1
    rcases hrange neg m e hv with rfl | ⟨h0, h1, h2, h3⟩
    · simp [fencode]
    · have hfm : f.emin - f.fb ≥ -149 ∧ f.emax ≤ 127 ∧ 1 ≤ f.eb := by rcases hf with rfl | rfl | rfl <;> decide
      have hl0 : (0 : Int) ≤ Nat.log2 m := by omega
      unfold clampI
      rcases lt_trichotomy n (-1000) with h | h | h
      · rw [min_eq_right (by omega), max_eq_left (by omega)]
        exact fencode_tiny h0 (by omega) (by omega)
      · subst h; rfl
      · by_cases hh : n ≤ 1000
        · rw [min_eq_right hh, max_eq_right (by omega)]
        · rw [min_eq_left (by omega), max_eq_right (by norm_num)]
          rw [fencode_huge h0 hfm.2.2 (by omega), fencode_huge h0 hfm.2.2 (by omega)]

abbrev F3 (t : Bool × Nat × Int) : FVal := .fin t.1 t.2.1 t.2.2

theorem minfold (l : List (Bool × Nat × Int)) (a : Int) :
    let q := (l.map F3).foldl (fun acc t => match t with | .fin _ _ e => min acc e | _ => acc) a
    q ≤ a ∧ ∀ t ∈ l, q ≤ t.2.2 := by
  induction l generalizing a with
  | nil => simp
  | cons t l ih =>
    obtain ⟨h1, h2⟩ := ih (min a t.2.2)
    simp only [List.map_cons, List.foldl_cons]
    refine ⟨le_trans h1 (min_le_left _ _), fun u hu => ?_⟩
    rcases List.mem_cons.mp hu with rfl | hu
    · exact le_trans h1 (min_le_right _ _)
    · exact h2 u hu

theorem sumfold (l : List (Bool × Nat × Int)) (q : Int) (a : Int) (h : ∀ t ∈ l, q ≤ t.2.2) :
    (((l.map F3).foldl (fun acc t => match t with | .fin n m e => acc + scaled n m e q | _ => acc) a : Int) : ℚ) =
      a + (l.map fun t => rat t.1 t.2.1 t.2.2).sum * 2 ^ (-q) := by
  induction l generalizing a with
  | nil => simp
  | cons t l ih =>
    simp only [List.map_cons, List.foldl_cons, List.sum_cons]
    rw [ih _ fun u hu => h u (by simp [hu])]
    push_cast
    rw [scaled_rat _ _ _ _ (h t (by simp))]
    ring

theorem rat_floor {m : Nat} {g : Int} {k : Nat} (h : (k : ℚ) ≤ rat false m g) : k ≤ roundAt 1 false m g 0 := by
  unfold rat at h
  simp only [Bool.false_eq_true, if_false, one_mul] at h
  unfold roundAt
  split
  · rename_i hg
    have : (2 : ℚ) ^ g = ((2 ^ (g - 0).toNat : Nat) : ℚ) := by
      push_cast; rw [← zpow_natCast]; congr 1; omega
    rw [this] at h
    exact_mod_cast h
  · rename_i hg
    simp only [Bool.false_eq_true, if_false]
    rw [Nat.le_div_iff_mul_le (by positivity)]
    have : (2 : ℚ) ^ g = 1 / ((2 ^ (0 - g).toNat : Nat) : ℚ) := by
      push_cast; rw [← zpow_natCast, one_div, ← zpow_neg]; congr 1; omega
    rw [this, mul_one_div, le_div_iff₀ (by positivity)] at h
    exact_mod_cast h

theorem rat_int {m : Nat} {g : Int} {k : Nat} (h : rat false m g = k) : roundAt 1 false m g 0 = k := by
  unfold rat at h
  simp only [Bool.false_eq_true, if_false, one_mul] at h
  unfold roundAt
  split
  · rename_i hg
    have : (2 : ℚ) ^ g = ((2 ^ (g - 0).toNat : Nat) : ℚ) := by
      push_cast; rw [← zpow_natCast]; congr 1; omega
    rw [this] at h
    exact_mod_cast h
  · rename_i hg
    simp only [Bool.false_eq_true, if_false]
    have : (2 : ℚ) ^ g = 1 / ((2 ^ (0 - g).toNat : Nat) : ℚ) := by
      push_cast; rw [← zpow_natCast, one_div, ← zpow_neg]; congr 1; omega
    rw [this, mul_one_div, div_eq_iff (by positivity)] at h
    have h2 : m = k * 2 ^ (0 - g).toNat := by exact_mod_cast h
    rw [h2, Nat.mul_div_cancel _ (by positivity)]

theorem enc_pow (n : Int) (h1 : -126 ≤ n) (h2 : n ≤ 127) : fencode fmtF32 0 (.fin false 1 n) = (n + 127).toNat * 2 ^ 23 := by
  obtain ⟨k, hk⟩ : ∃ k : Nat, n = (k : Int) - 126 := ⟨(n + 126).toNat, by omega⟩
  subst hk
  have hk2 : k < 254 := by omega
  unfold fencode
  have hl : Nat.log2 1 = 0 := by decide
  have e1 : fmtF32.emin = -126 := by decide
  have e2 : fmtF32.fb = 23 := rfl
  simp only [hl, e1, e2]
  have hq : max (((0 : Nat) : Int) + ((k : Int) - 126)) (-126) - ((23 : Nat) : Int) = (k : Int) - 149 := by omega
  rw [hq]
  have hr : roundAt 0 false 1 ((k : Int) - 126) ((k : Int) - 149) = 2 ^ 23 := by
    unfold roundAt
    rw [if_pos (by omega)]
    have : ((k : Int) - 126 - ((k : Int) - 149)).toNat = 23 := by omega
    rw [this]; norm_num
  rw [hr]
  have e3 : ((k : Int) - 149 - (-126 - ((23 : Nat) : Int))).toNat = k := by omega
  rw [e3]
  have e4 : fmtF32.infBits = 255 * 2 ^ 23 := by decide
  have e5 : ((k : Int) - 126 + 127).toNat = k + 1 := by omega
  rw [e4, e5]
  simp only [one_ne_zero, if_false, Bool.false_eq_true]
  rw [if_neg (by norm_num), if_neg (by nlinarith)]
  ring

theorem float_cases {ty : Nat} (h : tyFloat ty = true) : ty = 2 ∨ ty = 3 ∨ ty = 4 := by
  unfold tyFloat at h; simp only [Bool.or_eq_true, beq_iff_eq] at h; tauto

theorem float_bits {ty : Nat} (h : tyFloat ty = true) : tyBits ty = 32 ∧ tyRegs ty = 1 := by
  rcases float_cases h with rfl | rfl | rfl <;> exact ⟨rfl, rfl⟩

theorem pairElems_eq {e : Env} (h : tyFloat e.ty = true) {x : Nat} (hx : x < 2 ^ 64) :
    pairElems e x = (List.range (2 * cnt e)).map fun k => x / 2 ^ (k * tyWidth e.ty) % 2 ^ tyWidth e.ty := by
  unfold pairElems
  rw [elems_eq, elems_eq, Nat.two_mul, List.range_add, List.map_append, List.map_map]
  have hc : cnt e * tyWidth e.ty = 32 := by unfold cnt; rw [tyWidth_dvd]; exact (float_bits h).1
  congr 1
  · refine List.map_congr_left fun k hk => ?_
    have hk2 : k < cnt e := by simpa [cnt] using hk
    unfold el
    have hle : k * tyWidth e.ty + tyWidth e.ty ≤ 32 := by
      rw [← hc, ← Nat.succ_mul]; exact Nat.mul_le_mul_right _ hk2
    have h1 : x % 2 ^ 32 / 2 ^ (k * tyWidth e.ty) % 2 ^ tyWidth e.ty = x / 2 ^ (k * tyWidth e.ty) % 2 ^ tyWidth e.ty := by
      refine Nat.eq_of_testBit_eq fun i => ?_
      simp only [Nat.testBit_mod_two_pow, Nat.testBit_div_two_pow]
      by_cases hi : i < tyWidth e.ty
      · simp [hi, show i + k * tyWidth e.ty < 32 by omega]
      · simp [hi]
    exact h1
  · refine List.map_congr_left fun k hk => ?_
    simp only [Function.comp, el]
    rw [Nat.add_mul, hc, Nat.pow_add, Nat.div_div_eq_div_mul]

theorem rat_nonneg (m : Nat) (g : Int) : 0 ≤ rat false m g := by
  unfold rat; simp; positivity

theorem qmag_fin (v : FVal) : ∃ m g, qmag v = .fin false m g ∧ rat false m g = mag v := by
  cases v with
  | nan => exact ⟨0, 0, rfl, by simp [rat, mag]⟩
  | inf s =>
    refine ⟨2 ^ 24 - 1, 104, by show fdecode fmtF32 fmtF32.maxBits = _; decide, ?_⟩
    simp only [rat, mag]; norm_num
  | fin s m g => exact ⟨m, g, rfl, rfl⟩

theorem fltV_fin {a b : Bool} {m n : Nat} {e g : Int} : fltV (.fin a m e) (.fin b n g) = true ↔ rat a m e < rat b n g := by
  have hp : (0 : ℚ) < 2 ^ (-(min e g)) := by positivity
  simp only [fltV, decide_eq_true_eq]
  rw [← Int.cast_lt (R := ℚ), scaled_rat _ _ _ _ (min_le_left _ _), scaled_rat _ _ _ _ (min_le_right _ _), mul_lt_mul_iff_left₀ hp]

/-- A magnitude within the range of the formats, or zero. -/
def InRange (m : Nat) (g : Int) : Prop := m = 0 ∨ -155 ≤ (Nat.log2 m : Int) + g - 6

theorem maxFold (vs : List FVal) (m0 : Nat) (g0 : Int) (h0 : InRange m0 g0) (hv : ∀ v ∈ vs, ∀ m g, qmag v = .fin false m g → InRange m g) :
    ∃ m g, vs.foldl (fun m v => if fltV m (qmag v) then qmag v else m) (.fin false m0 g0) = .fin false m g ∧ InRange m g ∧
      rat false m0 g0 ≤ rat false m g ∧ (∀ v ∈ vs, mag v ≤ rat false m g) ∧
      ((m = m0 ∧ g = g0) ∨ ∃ v ∈ vs, mag v = rat false m g) := by
  induction vs generalizing m0 g0 with
  | nil => exact ⟨m0, g0, rfl, h0, le_refl _, by simp, .inl ⟨rfl, rfl⟩⟩
  | cons v vs ih =>
    obtain ⟨m1, g1, hq, hm⟩ := qmag_fin v
    simp only [List.foldl_cons, hq]
    have hr1 := hv v (by simp) m1 g1 hq
    by_cases hlt : fltV (.fin false m0 g0) (.fin false m1 g1) = true
    · rw [if_pos hlt]
      have hl := fltV_fin.mp hlt
      obtain ⟨m, g, a1, a2, a3, a4, a5⟩ := ih m1 g1 hr1 fun w hw => hv w (by simp [hw])
      refine ⟨m, g, a1, a2, by linarith, fun w hw => ?_, ?_⟩
      · rcases List.mem_cons.mp hw with rfl | hw
        · rw [← hm]; exact a3
        · exact a4 w hw
      · right
        rcases a5 with ⟨rfl, rfl⟩ | ⟨w, hw, he⟩
        · exact ⟨v, by simp, hm.symm⟩
        · exact ⟨w, by simp [hw], he⟩
    · rw [if_neg hlt]
      have hl : ¬ rat false m0 g0 < rat false m1 g1 := fun h => hlt (fltV_fin.mpr h)
      obtain ⟨m, g, a1, a2, a3, a4, a5⟩ := ih m0 g0 h0 fun w hw => hv w (by simp [hw])
      refine ⟨m, g, a1, a2, a3, fun w hw => ?_, ?_⟩
      · rcases List.mem_cons.mp hw with rfl | hw
        · rw [← hm]; linarith
        · exact a4 w hw
      · rcases a5 with h | ⟨w, hw, he⟩
        · exact .inl h
        · exact .inr ⟨w, by simp [hw], he⟩

theorem qscale_spec {m : Nat} {g : Int} (hm : m ≠ 0) (hr : InRange m g) :
    255 / 2 * (2 : ℚ) ^ (((qscaleOf (.fin false m g) : Nat) : Int) - 513) ≤ rat false m g ∧
    rat false m g < 255 / 2 * (2 : ℚ) ^ (((qscaleOf (.fin false m g) : Nat) : Int) - 512) := by
  have hr2 : -155 ≤ (Nat.log2 m : Int) + g - 6 := hr.resolve_left hm
  have h1 : 2 ^ Nat.log2 m ≤ m := Nat.log2_self_le hm
  have h2 : m < 2 ^ (Nat.log2 m + 1) := Nat.lt_log2_self
  unfold qscaleOf
  simp only [if_neg hm]
  obtain ⟨k0, hk0⟩ : ∃ k0 : Int, k0 = (Nat.log2 m : Int) + g - 6 := ⟨_, rfl⟩
  rw [← hk0] at hr2 ⊢
  have hlow : 64 * (2 : ℚ) ^ k0 ≤ rat false m g := by
    have e1 : 64 * (2 : ℚ) ^ k0 = 2 ^ Nat.log2 m * 2 ^ g := by
      rw [← zpow_natCast, ← zpow_add₀ (by norm_num), show (64 : ℚ) = 2 ^ (6 : Int) by norm_num, ← zpow_add₀ (by norm_num)]
      congr 1; omega
    rw [e1]; unfold rat; simp only [Bool.false_eq_true, if_false, one_mul]
    have : ((2 ^ Nat.log2 m : Nat) : ℚ) ≤ m := by exact_mod_cast h1
    push_cast at this
    exact mul_le_mul_of_nonneg_right this (by positivity)
  have hupp : rat false m g < 128 * (2 : ℚ) ^ k0 := by
    have e1 : 128 * (2 : ℚ) ^ k0 = 2 ^ (Nat.log2 m + 1) * 2 ^ g := by
      rw [← zpow_natCast, ← zpow_add₀ (by norm_num), show (128 : ℚ) = 2 ^ (7 : Int) by norm_num, ← zpow_add₀ (by norm_num)]
      congr 1; push_cast; omega
    rw [e1]; unfold rat; simp only [Bool.false_eq_true, if_false, one_mul]
    have : (m : ℚ) < ((2 ^ (Nat.log2 m + 1) : Nat) : ℚ) := by exact_mod_cast h2
    push_cast at this
    exact mul_lt_mul_of_pos_right this (by positivity)
  have hp : (0 : ℚ) < 2 ^ k0 := by positivity
  have hpred : ∀ c : Int, (2 : ℚ) ^ (c - 1) = 2 ^ c / 2 := by intro c; rw [zpow_sub₀ (by norm_num)]; simp
  have hhalf : rat false 255 (k0 - 1) = 255 / 2 * 2 ^ k0 := by
    unfold rat; simp only [Bool.false_eq_true, if_false, one_mul]; rw [hpred]; push_cast; ring
  by_cases hl : fltV (.fin false m g) (.fin false 255 (k0 - 1)) = true
  · have := fltV_fin.mp hl
    rw [hhalf] at this
    simp only [hl, if_true]
    have e1 : (((k0 + 512).toNat : Nat) : Int) = k0 + 512 := by omega
    rw [e1, show k0 + 512 - 513 = k0 - 1 by ring, show k0 + 512 - 512 = k0 by ring, hpred]
    exact ⟨by linarith, this⟩
  · have : ¬ rat false m g < rat false 255 (k0 - 1) := fun h => hl (fltV_fin.mpr h)
    rw [hhalf] at this
    simp only [hl, Bool.false_eq_true, if_false]
    have e1 : (((k0 + 513).toNat : Nat) : Int) = k0 + 513 := by omega
    rw [e1, show k0 + 513 - 513 = k0 by ring, show k0 + 513 - 512 = k0 + 1 by ring, zpow_add₀ (by norm_num)]
    exact ⟨by linarith, by norm_num; linarith⟩

theorem qscale_unique {v u : Nat} {M : ℚ} (h1 : 255 / 2 * (2 : ℚ) ^ ((v : Int) - 513) ≤ M) (h2 : M < 255 / 2 * (2 : ℚ) ^ ((v : Int) - 512))
    (h3 : 255 / 2 * (2 : ℚ) ^ ((u : Int) - 513) ≤ M) (h4 : M < 255 / 2 * (2 : ℚ) ^ ((u : Int) - 512)) : v = u := by
  have key : ∀ a b : Nat, 255 / 2 * (2 : ℚ) ^ ((a : Int) - 513) ≤ M → M < 255 / 2 * (2 : ℚ) ^ ((b : Int) - 512) → a ≤ b := by
    intro a b ha hb
    by_contra hc
    have : (2 : ℚ) ^ ((b : Int) - 512) ≤ 2 ^ ((a : Int) - 513) := zpow_le_zpow_right₀ (by norm_num) (by omega)
    linarith
  exact le_antisymm (key v u h1 h4) (key u v h3 h2)

theorem fval_range {e : Env} (h : tyFloat e.ty = true) (x m : Nat) (g : Int) (hq : qmag (e.fval x) = .fin false m g) : InRange m g := by
  have hfin : ∀ neg m g, e.fval x = .fin neg m g → InRange m g := by
    intro neg m g hv
    unfold Env.fval fread at hv
    split at hv
    · cases hv; exact .inl rfl
    · unfold fdecode at hv
      simp only at hv
      have hl : ∀ m : Nat, (0 : Int) ≤ Nat.log2 m := fun m => by omega
      split at hv
      · split at hv <;> cases hv
      · split at hv
        · cases hv
          rcases Nat.eq_zero_or_pos (bits x (e.fmt.fb - 1) 0) with h0 | h0
          · exact .inl h0
          · right
            have := hl (bits x (e.fmt.fb - 1) 0)
            rcases float_cases h with h | h | h <;> (simp only [Env.fmt, h] at *; simp [tyFmt, fmtF32, fmtF16, fmtBf16, FFmt.emin, FFmt.bias] at *; omega)
        · cases hv
          right
          have := hl (2 ^ e.fmt.fb + bits x (e.fmt.fb - 1) 0)
          rcases float_cases h with h | h | h <;> (simp only [Env.fmt, h] at *; simp [tyFmt, fmtF32, fmtF16, fmtBf16, FFmt.emin, FFmt.bias] at *; omega)
  cases hv : e.fval x with
  | nan => rw [hv] at hq; cases hq; exact .inl rfl
  | inf s =>
    rw [hv] at hq
    have : qmag (.inf s) = .fin false (2 ^ 24 - 1) 104 := by show fdecode fmtF32 fmtF32.maxBits = _; decide
    rw [this] at hq
    cases hq
    right; decide
  | fin neg a b => rw [hv] at hq; cases hq; exact hfin neg _ _ hv

theorem qelem_range (k : Nat) (v : FVal) : -127 ≤ qelem k v ∧ qelem k v ≤ 127 := by
  unfold qelem
  split
  · omega
  · split <;> omega
  · dsimp only; omega

end Sys2Proof.Machine
end

