-- ==== Sys2Proof/Laws/Flow.lean ====
section
/-! SUPPORT. Targets, division of a split by its next program counters, stays (R180, R181, R335, R355 to R362). -/

namespace Sys2Proof.Machine
open Claim

theorem run_target {sp : LaneSpec} {e : Env} {l : FetchLine} {s : State} {n : Nat} {o : BitVec n}
    (hf : sp.featOff e s = false) (ho : sp.opOk = true) (hm : sp.moodOk = true)
    (ht : sp.target = some (sext n o.toNat)) (hgood : (tgt e s (dest e o)).1 = none)
    (hi : sp.illegal = none ∨ e.inTry = false) (hsh : sp.shuttle = false) (hp : sp.pre = none)
    (hr : sp.dsts = [] ∨ (sp.guarded && e.idle) = true ∨ (e.wp.quotaOk sp.dsts = true ∧ e.wp.mustWait sp.dsts = false)) :
    sp.run e l s = if sp.guarded && e.idle then .ok (tgt e s (dest e o)).2 else sp.act (tgt e s (dest e o)).2 l := by
  refine LaneSpec.run_pass hf ho hm ?_ ?_ ?_ hp hr
  · unfold LaneSpec.checkTarget
    rw [ht]
    dsimp only
    rw [targetOf_dest, ← hgood]
    rfl
  · intro h
    rcases hi with hi | hi
    · exact hi
    · rw [hi] at h; cases h
  · rw [hsh]; intro h; cases h

theorem bru_run {sr : BitVec 6} {o : BitVec 18} {e : Env} {l : FetchLine} {s : State} {v : W32}
    (h : (tgt e s (dest e o)).1 = none) (hv : e.sread sr.toNat = .ok v) :
    LaneSpec.run { target := some (branchOff 18 o.toNat), guarded := false
                   act := fun s _ => match e.sread sr.toNat with
                     | .error c => .fault s { code := c }
                     | .ok v => if v = 0#32 then .ok s else .jump (e.moveTo s (targetOf e.pc (branchOff 18 o.toNat))) } e l s =
      if v = 0#32 then .ok (tgt e s (dest e o)).2 else .jump (e.moveTo (tgt e s (dest e o)).2 (dest e o)) := by
  rw [run_target (o := o) rfl rfl rfl rfl h (.inl rfl) rfl rfl (.inl rfl)]
  simp only [Bool.false_and, Bool.false_eq_true, if_false, hv]
  rw [← targetOf_dest]; rfl

theorem tgt_keeps (e : Env) (s : State) (va : W64) : State.PortKeeps s (tgt e s va).2 := State.targetFault_keeps _ _ _ _ _ _

/-- A fetch and a target check leave the issuing block in place. -/
theorem changed_port {s : State} {e : Env} {l : FetchLine} {s1 s2 : State} (h : Fetches s e l s1) (hp : State.PortKeeps s1 s2) :
    Changed e s2 s2 e.wp ∧ AMap.get? e.wp.active e.sp = some e.split := by
  obtain ⟨hb, hw, hs⟩ := fetches_block h
  exact ⟨changed_start ((hp.block? e.b).trans hb) hw, hs⟩

theorem movesTo {i : Instr} {s : State} {e : Env} {l : FetchLine} {s1 s2 : State} {pc : W64} (sp : Env → LaneSpec)
    (hx : exec i s = runLane sp s) (hi : Fetches s e l s1) (hp : State.PortKeeps s1 s2)
    (hr : (sp e).run e l s1 = .jump (e.moveTo s2 pc)) :
    ∃ r x, exec i s = .next (r.settleWarp e.b e.w) ∧ Retired e s2 r x pc ∧ Keeps e x [] [] [] := by
  obtain ⟨hch, hs⟩ := changed_port hi hp
  refine ⟨_, _, by rw [hx, runLane_jump hi.1 hi.2 hr], retired_moved hch hs rfl rfl, ?_⟩
  exact keeps_spent (keeps_movedTo pc (keeps_refl e [] []))

theorem put_link {e : Env} {d : BitVec 8} {v : Nat} (hd : dstOk d 2 = true) :
    let z := e.putWarp d 2 (e.act.map fun t => (t, words2 v)) e.wp
    Keeps e z (dstNames d 2) (uniNames d 2) [] ∧ ∀ t, t ∈ e.runners d → Got e z d 2 t v := by
  have hw : ∀ j, j < 2 → (words2 v).getD j 0#32 = BitVec.ofNat 32 (v / 2 ^ (32 * j)) := fun j hj =>
    (wordsFor_getD (v := v) (.inr rfl) hj).1
  obtain ⟨h1, h2⟩ := put_got (e := e) (d := d) (k := 2) (rs := e.act.map fun t => (t, words2 v)) (by decide) (dst_cases hd)
    (.inl (by simp [Function.comp_def])) (by intro r hr; obtain ⟨t, _, rfl⟩ := List.mem_map.mp hr; rfl)
  refine ⟨h1, fun t ht => h2 t (words2 v) v ?_ ht hw⟩
  refine List.mem_map.mpr ⟨t, ?_, rfl⟩
  unfold Env.runners at ht
  split at ht
  · exact List.mem_of_mem_take ht
  · exact ht

/-- `Got` looks only at the registers. -/
theorem got_congr {e : Env} {x y : Warp} {d : BitVec 8} {k t v : Nat} (h : Got e x d k t v)
    (hr : ∀ n, y.reg? n = x.reg? n) (hs : y.sregs = x.sregs) (ht : y.stags = x.stags) : Got e y d k t v := by
  intro j hj
  have := h j hj
  simp only at this ⊢
  rw [hs, ht]
  split
  · rename_i hd; rw [if_pos hd] at this; exact this
  · rename_i hd
    rw [if_neg hd] at this
    obtain ⟨r, a1, a2⟩ := this
    exact ⟨r, by rw [hr]; exact a1, a2⟩

theorem addSplit_rest (x : Warp) (q : Split) : { x with active := (x.addSplit q).active, pending := (x.addSplit q).pending } = x.addSplit q := by
  unfold Warp.addSplit; split <;> rfl

theorem foldAdd_rest (f : Split → Split) (gs : List (W64 × BitVec 16)) (F : Warp → W64 × BitVec 16 → Warp)
    (hF : ∀ x g, { x with active := (F x g).active, pending := (F x g).pending } = F x g) (x : Warp) :
    { x with active := (gs.foldl F x).active, pending := (gs.foldl F x).pending } = gs.foldl F x := by
  induction gs generalizing x with
  | nil => rfl
  | cons g gs ih =>
    rw [List.foldl_cons, ← ih (F x g)]
    rw [← hF x g]

theorem divide_rest {x y : Warp} {sp : Nat} {ns : List (Nat × W64)} (h : x.divide sp ns = some y) :
    { x with active := y.active, pending := y.pending } = y := by
  unfold Warp.divide at h
  split at h
  · cases h; rfl
  · cases h; rfl
  · rename_i pc0 m gs q _ _
    simp only at h
    split at h
    · cases h
    · cases h
      have := foldAdd_rest id gs (fun x g => x.addSplit { q with pc := g.1, mask := g.2, park := .ready }) (fun x g => addSplit_rest x _)
        { x with active := AMap.set x.active sp { q with pc := pc0, mask := q.mask &&& ~~~(gs.foldl (fun m g => m ||| g.2) 0#16), park := .ready } }
      exact this

theorem scatter_eq {e : Env} {s : State} {y : Warp} {ns : List (Nat × W64)} (hw : s.warp? e.b e.w = some e.wp)
    (hd : e.wp.divide e.sp ns = some y) : e.scatter s ns none = .jump (s.updWarp e.b e.w fun _ => y) := by
  unfold Env.scatter
  rw [hw]
  dsimp only
  rw [hd]

theorem targetsFault_keeps (core w c : Nat) (ts : List (Nat × W64)) (s : State) : State.PortKeeps s (State.targetsFault core w c ts s).2 := by
  induction ts generalizing s with
  | nil => exact State.PortKeeps.refl s
  | cons t ts ih =>
    unfold State.targetsFault
    have h := State.targetFault_keeps s core w c 0 t.2
    split
    · rename_i h1; rw [h1] at h; exact h
    · rename_i s1 h1
      rw [h1] at h
      exact h.trans (ih s1)

theorem changed_block {s : State} {e : Env} {l : FetchLine} {s1 s2 : State} (h : Fetches s e l s1) (hp : State.PortKeeps s1 s2) :
    s2.block? e.b = some e.blk ∧ Changed e s2 s2 e.wp ∧ AMap.get? e.wp.active e.sp = some e.split := by
  obtain ⟨hb, hw, hs⟩ := fetches_block h
  exact ⟨(hp.block? e.b).trans hb, changed_start ((hp.block? e.b).trans hb) hw, hs⟩

theorem pairTargets_ok {e : Env} {a : BitVec 8} {v : Nat → Nat} (h : ∀ t, t ∈ e.act → e.pread a t = .ok (v t)) :
    e.pairTargets a = .ok (e.act.map fun t => (t, BitVec.ofNat 64 (v t))) := by
  unfold Env.pairTargets
  obtain ⟨rs, h1, h2, h3⟩ := eachThread_ok (f := fun t => e.pread a t) (ts := e.act) (fun t ht => ⟨_, h t ht⟩)
  rw [h1]
  dsimp only
  congr 1
  rw [← h2, List.map_map]
  refine List.map_congr_left fun r hr => ?_
  have := h3 r hr
  rw [h r.1 (by rw [← h2]; exact List.mem_map_of_mem hr)] at this
  show (r.1, _) = (r.1, _)
  rw [Except.ok.inj this]

theorem jumpTo_none {e : Env} {a : BitVec 8} {v : Nat → Nat} {s1 s2 : State} {y : Warp} {l : FetchLine}
    (hv : ∀ t, t ∈ e.act → e.pread a t = .ok (v t))
    (ht : State.targetsFault e.blk.core e.blk.world e.blk.ctx (e.act.map fun t => (t, BitVec.ofNat 64 (v t))) s1 = (none, s2))
    (hw : s2.warp? e.b e.w = some e.wp)
    (hd : e.wp.divide e.sp (e.act.map fun t => (t, BitVec.ofNat 64 (v t))) = some y) :
    e.jumpTo a none s1 l = .jump (s2.updWarp e.b e.w fun _ => y) := by
  unfold Env.jumpTo
  simp only [pairTargets_ok hv, ht]
  exact scatter_eq hw hd

theorem run_guarded {sp : LaneSpec} {e : Env} {l : FetchLine} {s : State} (h : Plain sp)
    (hr : Room e sp.dsts) (hg : sp.guarded = true) (hid : e.idle = false) : sp.run e l s = sp.act s l := by
  rw [h.run hr hg, hid]; rfl

theorem turned_scatter {i : Instr} {s : State} {e : Env} {l : FetchLine} {s1 s2 : State} {y : Warp} (sp : Env → LaneSpec)
    (hx : exec i s = runLane sp s) (hi : Fetches s e l s1) (hp : State.PortKeeps s1 s2)
    (hr : (sp e).run e l s1 = .jump (s2.updWarp e.b e.w fun _ => y)) :
    ∃ r x, exec i s = .next (r.settleWarp e.b e.w) ∧ Turned e y s2 r x ∧ Keeps (after e y) x [] [] [] := by
  obtain ⟨hb, hch, hs⟩ := changed_block hi hp
  refine ⟨_, _, by rw [hx, runLane_jump hi.1 hi.2 hr], changed_turned (changed_upd hch fun _ => y), ?_⟩
  exact keeps_spent (keeps_refl (after e y) [] [])

theorem getLsbD_bit {t j : Nat} (ht : t < 16) : (BitVec.ofNat 16 (2 ^ t)).getLsbD j = decide (j = t) := by
  rw [BitVec.getLsbD_ofNat]
  by_cases h : j = t
  · subst h; simp [ht]
  · simp [h, Nat.testBit_two_pow_of_ne (Ne.symm h)]

theorem getLsbD_goers {ns : List (Nat × W64)} {pc : W64} {j : Nat} (hj : j < 16) :
    (goers ns pc).getLsbD j = ns.any fun p => p.1 == j && p.2 == pc := by
  unfold goers; rw [getLsbD_maskOf]; simp [hj]

theorem goers_cons {t : Nat} {pc p : W64} {ns : List (Nat × W64)} (ht : t < 16) :
    goers ((t, pc) :: ns) p = if pc = p then BitVec.ofNat 16 (2 ^ t) ||| goers ns p else goers ns p := by
  refine BitVec.eq_of_getLsbD_eq fun j hj => ?_
  rw [getLsbD_goers hj, List.any_cons]
  by_cases h : pc = p
  · rw [if_pos h, BitVec.getLsbD_or, getLsbD_bit ht, getLsbD_goers hj]
    simp [h, eq_comm, Bool.beq_eq_decide_eq]
  · rw [if_neg h, getLsbD_goers hj]; simp [h]

theorem goers_none {ns : List (Nat × W64)} {p : W64} (h : ∀ x ∈ ns, x.2 ≠ p) : goers ns p = 0#16 := by
  refine BitVec.eq_of_getLsbD_eq fun j hj => ?_
  rw [getLsbD_goers hj]
  simp only [BitVec.getLsbD_zero]
  rw [List.any_eq_false]
  intro x hx
  simp [h x hx]

theorem groupsOf_spec (ns : List (Nat × W64)) (h : ∀ p ∈ ns, p.1 < 16) :
    ((groupsOf ns).map Prod.fst).Nodup ∧ (∀ g ∈ groupsOf ns, g.2 = goers ns g.1 ∧ ∃ t, (t, g.1) ∈ ns) ∧
      (∀ p ∈ ns, ∃ g ∈ groupsOf ns, g.1 = p.2) ∧ (groupsOf ns).head?.map Prod.fst = ns.head?.map Prod.snd := by
  induction ns with
  | nil => simp [groupsOf]
  | cons x ns ih =>
    obtain ⟨t, pc⟩ := x
    have ht : t < 16 := h (t, pc) (by simp)
    obtain ⟨h1, h2, h3, h4⟩ := ih fun p hp => h p (by simp [hp])
    have hgo : groupsOf ((t, pc) :: ns) = match (groupsOf ns).find? (fun g => g.1 == pc) with
        | some g => (pc, g.2 ||| BitVec.ofNat 16 (2 ^ t)) :: (groupsOf ns).filter fun g => g.1 != pc
        | none => (pc, BitVec.ofNat 16 (2 ^ t)) :: groupsOf ns := by
      rfl
    rw [hgo]
    cases hf : (groupsOf ns).find? fun g => g.1 == pc with
    | none =>
      have hno : ∀ g ∈ groupsOf ns, g.1 ≠ pc := by
        intro g hg
        have := List.find?_eq_none.mp hf g hg
        simpa using this
      have hns : ∀ p ∈ ns, p.2 ≠ pc := by
        intro p hp hc
        obtain ⟨g, hg, he⟩ := h3 p hp
        exact hno g hg (he.trans hc)
      dsimp only
      refine ⟨?_, ?_, ?_, by simp⟩
      · simp only [List.map_cons, List.nodup_cons, List.mem_map, not_exists, not_and]
        exact ⟨fun g hg => hno g hg, h1⟩
      · intro g hg
        rcases List.mem_cons.mp hg with rfl | hg
        · refine ⟨?_, t, by simp⟩
          rw [goers_cons ht, if_pos rfl, goers_none hns]; simp
        · obtain ⟨a, u, hu⟩ := h2 g hg
          refine ⟨?_, u, by simp [hu]⟩
          rw [goers_cons ht, if_neg (Ne.symm (hno g hg)), a]
      · intro p hp
        rcases List.mem_cons.mp hp with rfl | hp
        · exact ⟨_, List.mem_cons_self, rfl⟩
        · obtain ⟨g, hg, he⟩ := h3 p hp
          exact ⟨g, List.mem_cons_of_mem _ hg, he⟩
    | some g0 =>
      have hm := List.mem_of_find?_eq_some hf
      have hp0 : g0.1 = pc := by simpa using List.find?_some hf
      dsimp only
      refine ⟨?_, ?_, ?_, by simp⟩
      · simp only [List.map_cons, List.nodup_cons, List.mem_map, not_exists, not_and, List.mem_filter, bne_iff_ne]
        exact ⟨fun g hg => hg.2, (List.filter_sublist.map Prod.fst).nodup h1⟩
      · intro g hg
        rcases List.mem_cons.mp hg with rfl | hg
        · refine ⟨?_, t, by simp⟩
          rw [goers_cons ht, if_pos rfl, (h2 g0 hm).1, hp0, BitVec.or_comm]
        · simp only [List.mem_filter, bne_iff_ne] at hg
          obtain ⟨a, u, hu⟩ := h2 g hg.1
          refine ⟨?_, u, by simp [hu]⟩
          rw [goers_cons ht, if_neg (Ne.symm hg.2), a]
      · intro p hp
        rcases List.mem_cons.mp hp with rfl | hp
        · exact ⟨_, List.mem_cons_self, rfl⟩
        · obtain ⟨g, hg, he⟩ := h3 p hp
          by_cases hc : g.1 = pc
          · exact ⟨_, List.mem_cons_self, by rw [← he, hc]⟩
          · exact ⟨g, List.mem_cons_of_mem _ (by simp [hg, hc]), he⟩

theorem freeActive_set {x : Warp} {k : Nat} {ks : List Nat} {q : Split} (h : freeActive x = k :: ks) :
    freeActive { x with active := AMap.set x.active k q } = ks := by
  have hnd : (freeActive x).Nodup := (List.nodup_range (n := 4)).filter _
  have : freeActive { x with active := AMap.set x.active k q } = (freeActive x).filter fun j => j != k := by
    unfold freeActive
    rw [List.filter_filter]
    refine List.filter_congr fun j _ => ?_
    unfold AMap.has
    rw [AMap.get?_set]
    by_cases hj : j = k
    · simp [hj]
    · simp [hj]
  rw [this, h]
  rw [h] at hnd
  simp only [List.nodup_cons] at hnd
  rw [List.filter_cons]
  simp only [bne_self_eq_false, Bool.false_eq_true, if_false]
  refine List.filter_eq_self.mpr fun j hj => ?_
  simp only [bne_iff_ne, ne_eq]
  rintro rfl
  exact hnd.1 hj

theorem free_get? {x : Warp} {k : Nat} (h : k ∈ freeActive x) : AMap.get? x.active k = none := by
  unfold freeActive AMap.has at h
  simp only [List.mem_filter] at h
  cases hg : AMap.get? x.active k with
  | none => rfl
  | some v => rw [hg] at h; simp at h

theorem addSplits (qs : List Split) (z : Warp) :
    let y := qs.foldl Warp.addSplit z
    (∀ k p, AMap.get? z.active k = some p → AMap.get? y.active k = some p) ∧
    (∀ (j : Nat) g, qs[j]? = some g → match (freeActive z)[j]? with
      | some k => AMap.get? y.active k = some g
      | none => y.pending[z.pending.length + (j - (freeActive z).length)]? = some g) ∧
    (∀ (j : Nat) p, z.pending[j]? = some p → y.pending[j]? = some p) ∧
    y.pending.length = z.pending.length + (qs.length - (freeActive z).length) := by
  induction qs generalizing z with
  | nil => simp
  | cons g qs ih =>
    cases hf : freeActive z with
    | nil =>
      have hz : z.addSplit g = { z with pending := z.pending ++ [g] } := by unfold Warp.addSplit; rw [hf]
      have hf2 : freeActive { z with pending := z.pending ++ [g] } = [] := hf
      obtain ⟨i1, i2, i3, i4⟩ := ih { z with pending := z.pending ++ [g] }
      simp only [List.foldl_cons, hz]
      rw [hf2] at i2 i4
      refine ⟨i1, ?_, ?_, ?_⟩
      · intro j g' hj
        simp only [List.getElem?_nil, List.length_nil, Nat.sub_zero]
        cases j with
        | zero =>
          simp only [List.getElem?_cons_zero, Option.some.injEq] at hj
          subst hj
          exact i3 z.pending.length g (by simp)
        | succ j =>
          simp only [List.getElem?_cons_succ] at hj
          have := i2 j g' hj
          simp only [List.getElem?_nil, List.length_nil, Nat.sub_zero, List.length_append, List.length_cons] at this
          rw [show z.pending.length + (j + 1) = z.pending.length + (0 + 1) + j by omega]
          exact this
      · intro j p hj
        refine i3 j p ?_
        have hl : j < z.pending.length := by
          by_contra hc
          rw [List.getElem?_eq_none (by omega)] at hj; cases hj
        simp only [List.getElem?_append, hl, if_true, hj]
      · simp only [List.length_append, List.length_cons, List.length_nil] at i4 ⊢; omega
    | cons k ks =>
      have hz : z.addSplit g = { z with active := AMap.set z.active k g } := by unfold Warp.addSplit; rw [hf]
      obtain ⟨i1, i2, i3, i4⟩ := ih { z with active := AMap.set z.active k g }
      rw [freeActive_set hf] at i2 i4
      simp only [List.foldl_cons, hz]
      have hk : AMap.get? z.active k = none := free_get? (by rw [hf]; simp)
      refine ⟨?_, ?_, i3, ?_⟩
      · intro j p hj
        refine i1 j p ?_
        rw [AMap.get?_set, if_neg]
        · exact hj
        · rintro rfl; rw [hk] at hj; cases hj
      · intro j g' hj
        cases j with
        | zero =>
          simp only [List.getElem?_cons_zero, Option.some.injEq] at hj ⊢
          subst hj
          exact i1 k g (by simp [AMap.get?_set])
        | succ j =>
          simp only [List.getElem?_cons_succ, List.length_cons] at hj ⊢
          have := i2 j g' hj
          rw [show j + 1 - (ks.length + 1) = j - ks.length by omega]
          exact this
      · simp only [List.length_cons] at i4 ⊢; omega

theorem foldl_map' {α β γ : Type} (f : α → β) (g : γ → β → γ) (l : List α) (c : γ) :
    (l.map f).foldl g c = l.foldl (fun c a => g c (f a)) c := by
  rw [List.foldl_map]

theorem runLane_stay {sp : Env → LaneSpec} {s s1 s2 : State} {e : Env} {l : FetchLine}
    (hi : Fetches s e l s1) (hr : (sp e).run e l s1 = .stay s2) : runLane sp s = .next (s2.turnPassed e.b e.w e.sp) := by
  unfold runLane
  simp only [hi.1, hi.2, hr, State.finish]

theorem erase_self {α : Type} {m : AMap α} {n : Nat} (h : (m.map Prod.fst).Nodup) : AMap.get? (AMap.erase m n) n = none := by
  induction m with
  | nil => rfl
  | cons p m ih =>
    obtain ⟨k, v⟩ := p
    simp only [List.map_cons, List.nodup_cons] at h
    unfold AMap.erase
    split
    · rename_i hk
      subst hk
      cases hg : AMap.get? m k with
      | none => rfl
      | some w => exact absurd (List.mem_map.mpr ⟨_, AMap.get?_mem hg, rfl⟩) h.1
    · rename_i hk
      rw [AMap.get?_cons, if_neg hk]
      exact ih h.2

theorem withGuard_eq {m : W32} {p : BitVec 8} {n : Nat} (h : isP p = true) : withGuard m (predNo p) n =
    (m &&& 0xfffffff0#32) ||| (BitVec.ofNat 32 (n % 2) <<< 3) ||| (p.setWidth 32 &&& 7#32) := by
  unfold withGuard
  have hp : predNo p % 8 = p.toNat % 8 := by
    simp only [isP, decide_eq_true_eq] at h
    unfold predNo; omega
  rw [hp]
  have e1 : m.toNat / 16 * 16 + n % 2 * 8 + p.toNat % 8 = 2 ^ 4 * (m.toNat / 2 ^ 4) + (2 ^ 3 * (n % 2) + p.toNat % 2 ^ 3) := by
    norm_num; omega
  rw [e1]
  refine BitVec.eq_of_getLsbD_eq fun j hj => ?_
  rw [BitVec.getLsbD_ofNat, Nat.testBit_two_pow_mul_add _ (by omega), Nat.testBit_two_pow_mul_add _ (by omega)]
  simp only [BitVec.getLsbD_or, BitVec.getLsbD_and, BitVec.getLsbD_ofNat, BitVec.getLsbD_shiftLeft, BitVec.getLsbD_setWidth, Nat.testBit_mod_two_pow, Nat.testBit_div_two_pow]
  have hb : ∀ j, p.toNat.testBit j = p.getLsbD j := fun j => rfl
  have hm : ∀ j, m.toNat.testBit j = m.getLsbD j := fun j => rfl
  rw [hb, hm]
  by_cases h3 : j < 3
  · have : j = 0 ∨ j = 1 ∨ j = 2 := by omega
    rcases this with rfl | rfl | rfl <;> simp [Nat.testBit] 
  · by_cases h4 : j = 3
    · subst h4; simp [Nat.testBit, hj]
    · have h5 : ¬ j < 4 := by omega
      have h7 : (7 : Nat).testBit j = false := Nat.testBit_lt_two_pow (by
        calc (7 : Nat) < 2 ^ 3 := by norm_num
          _ ≤ 2 ^ j := Nat.pow_le_pow_right (by norm_num) (by omega))
      have hn : (n % 2).testBit (j - 3) = false := Nat.testBit_lt_two_pow (by
        calc n % 2 < 2 ^ 1 := by omega
          _ ≤ 2 ^ (j - 3) := Nat.pow_le_pow_right (by norm_num) (by omega))
      have hf : (4294967280 : Nat).testBit j = true := by
        have ones : ∀ i : Fin 32, 3 < i.val → (4294967280 : Nat).testBit i.val = true := by decide
        exact ones ⟨j, hj⟩ (by show 3 < j; omega)
      simp only [h5, h7, hn, hf, hj, if_false, decide_true, Bool.true_and, Bool.and_false, Bool.or_false, Bool.and_true, h3, decide_false, Bool.false_and]
      rw [show j - 4 + 4 = j by omega]

end Sys2Proof.Machine
end

