-- ==== Sys2Proof/Laws/HeddleRun.lean ====
section
/-! SUPPORT. Steps of a heddle run: loops, cursors, emitted bits, the loops of tvld and tvle (R42, R43, R61 to R67). -/

namespace Sys2Proof.Machine
open Claim

theorem loopEndingAt_some {i n : Nat} {ws : List W32} {h k : Nat} (hh : loopEndingAt i n ws = some (h, k)) :
    ∃ j, h = n + j ∧ h < i ∧ (∃ w, ws[j]? = some w ∧ loopOf w = some (k, i)) ∧
      ∀ g, g < j → ¬ (n + g < i ∧ ∃ k w, ws[g]? = some w ∧ loopOf w = some (k, i)) := by
  induction ws generalizing n with
  | nil => simp [loopEndingAt] at hh
  | cons w ws ih =>
    have rest : loopEndingAt i (n+1) ws = some (h, k) → (¬ (n < i ∧ ∃ k, loopOf w = some (k, i))) → ∃ j, h = n + j ∧ h < i ∧ (∃ w', (w :: ws)[j]? = some w' ∧ loopOf w' = some (k, i)) ∧
        ∀ g, g < j → ¬ (n + g < i ∧ ∃ k w', (w :: ws)[g]? = some w' ∧ loopOf w' = some (k, i)) := fun h1 h2 => by
      obtain ⟨j, hj, hlt, hw, hall⟩ := ih h1
      refine (⟨j + 1, by omega, hlt, by simpa using hw, ?_⟩ : ∃ j, h = n + j ∧ h < i ∧ (∃ w', (w :: ws)[j]? = some w' ∧ loopOf w' = some (k, i)) ∧
        ∀ g, g < j → ¬ (n + g < i ∧ ∃ k w', (w :: ws)[g]? = some w' ∧ loopOf w' = some (k, i)))
      intro g hg
      cases g with
      | zero =>
        rintro ⟨h3, k', w', h4, h5⟩
        simp only [List.getElem?_cons_zero, Option.some.injEq] at h4
        subst h4
        exact h2 ⟨by omega, k', h5⟩
      | succ g =>
        rintro ⟨h3, k', w', h4, h5⟩
        simp only [List.getElem?_cons_succ] at h4
        exact hall g (by omega) ⟨by omega, k', w', h4, h5⟩
    unfold loopEndingAt at hh
    split at hh
    · rename_i k0 e hl
      split at hh
      · rename_i hc
        simp only [Bool.and_eq_true, decide_eq_true_eq] at hc
        simp only [Option.some.injEq, Prod.mk.injEq] at hh
        obtain ⟨rfl, rfl⟩ := hh
        obtain ⟨rfl, h2⟩ := hc
        exact ⟨0, rfl, h2, ⟨w, by simp, hl⟩, by omega⟩
      · rename_i hc
        refine rest hh ?_
        rintro ⟨h1, k', h2⟩
        rw [hl] at h2
        simp only [Option.some.injEq, Prod.mk.injEq] at h2
        simp [h2.2, h1] at hc
    · rename_i hl
      refine rest hh ?_
      rintro ⟨_, k', h2⟩
      rw [hl] at h2; cases h2

theorem loopEndingAt_none {i n : Nat} {ws : List W32} (hh : loopEndingAt i n ws = none) :
    ∀ g, ¬ (n + g < i ∧ ∃ k w, ws[g]? = some w ∧ loopOf w = some (k, i)) := by
  induction ws generalizing n with
  | nil => simp
  | cons w ws ih =>
    have rest : loopEndingAt i (n+1) ws = none → (¬ (n < i ∧ ∃ k, loopOf w = some (k, i))) → ∀ g, ¬ (n + g < i ∧ ∃ k w', (w :: ws)[g]? = some w' ∧ loopOf w' = some (k, i)) := fun h1 h2 => by
      have hall := ih h1
      refine (?_ : ∀ g, ¬ (n + g < i ∧ ∃ k w', (w :: ws)[g]? = some w' ∧ loopOf w' = some (k, i)))
      intro g
      cases g with
      | zero =>
        rintro ⟨h3, k', w', h4, h5⟩
        simp only [List.getElem?_cons_zero, Option.some.injEq] at h4
        subst h4
        exact h2 ⟨by omega, k', h5⟩
      | succ g =>
        rintro ⟨h3, k', w', h4, h5⟩
        simp only [List.getElem?_cons_succ] at h4
        exact hall g ⟨by omega, k', w', h4, h5⟩
    unfold loopEndingAt at hh
    split at hh
    · rename_i k0 e hl
      split at hh
      · cases hh
      · rename_i hc
        refine rest hh ?_
        rintro ⟨h1, k', h2⟩
        rw [hl] at h2
        simp only [Option.some.injEq, Prod.mk.injEq] at h2
        simp [h2.2, h1] at hc
    · rename_i hl
      refine rest hh ?_
      rintro ⟨_, k', h2⟩
      rw [hl] at h2; cases h2

theorem next_goes {r x : HRun} (hf : x.fin = .running) (hp : x.pc = r.pc) (hc : x.code = r.code) (h0 : x.l0 = r.l0) (h1 : x.l1 = r.l1) :
    Goes r x ({ x with steps := r.steps + 1 } : HRun).next := by
  obtain ⟨_, _, _, _, _, _, _, _, _, _, _, _, fin, _, _, _, _, _, _⟩ := x
  dsimp only at hf hp hc h0 h1
  subst hf hp hc h0 h1
  unfold HRun.next
  dsimp only
  cases hl : loopEndingAt r.pc 0 r.code with
  | none =>
    refine ⟨rfl, ?_, fun _ => ⟨rfl, rfl, rfl⟩⟩
    intro h k he _
    obtain ⟨h2, w, h3, h4⟩ := he
    exact absurd ⟨by omega, k, w, h3, h4⟩ (loopEndingAt_none hl h)
  | some p =>
    obtain ⟨h, k⟩ := p
    obtain ⟨j, hj, hlt, ⟨w, hw, hlw⟩, hall⟩ := loopEndingAt_some hl
    have hj' : h = j := by omega
    subst hj'
    refine ⟨rfl, ?_, ?_⟩
    · intro h' k' he hmin
      obtain ⟨h2, w', h3, h4⟩ := he
      have : h' = h := by
        rcases lt_trichotomy h' h with hx | hx | hx
        · exact absurd ⟨by omega, k', w', h3, h4⟩ (hall h' hx)
        · exact hx
        · exact absurd ⟨by omega, w, hw, hlw⟩ (hmin h k hx)
      subst this
      have : w' = w := by rw [hw] at h3; exact (Option.some.inj h3).symm
      subst this
      have : k' = k := by rw [hlw] at h4; simp at h4; exact h4.symm
      subst this
      by_cases hk : k' = 0
      · simp only [hk, if_true, decide_eq_true_eq, and_self, and_true]
      · simp only [hk, if_false, decide_eq_true_eq, and_self, and_true]
    · intro hno
      exact absurd ⟨by omega, w, hw, hlw⟩ (hno h k)

theorem steps_of {i : Instr} {ok : HRun → Prop} {P : HRun → HRun → Prop} (he : exec i = runHeddle (tEffect i))
    (h : ∀ r : HRun, r.fin = .running → ok r → P r (tEffect i { r with steps := r.steps + 1 })) : Steps i ok P := by
  intro s r h1 h2 h3 h4 h5
  refine ⟨tEffect i { r with steps := r.steps + 1 }, ?_, h r h3 h5⟩
  rw [he]
  unfold runHeddle
  rw [h1, h2]
  dsimp only
  split
  · unfold HRun.advance
    rw [if_neg (by omega)]
  · rename_i h; exact absurd h3 h

theorem ofNat_getT (r : HRun) (k : BitVec 4) : BitVec.ofNat 32 (r.getT k) = tv r k := by simp [HRun.getT, tv]

theorem getT_tv (r : HRun) (k : BitVec 4) : r.getT k = (tv r k).toNat := rfl

theorem src2_sv (r : HRun) (b : BitVec 4) (c : BitVec 1) (i : BitVec 13) : r.src2 b c i = (sv r b c i).toNat := by
  unfold HRun.src2 sv
  split
  · simp; omega
  · rfl

theorem src2_steps (r : HRun) (n : Nat) (b : BitVec 4) (c : BitVec 1) (i : BitVec 13) : ({r with steps := n} : HRun).src2 b c i = r.src2 b c i := rfl

theorem getT_steps (r : HRun) (n : Nat) (k : BitVec 4) : ({r with steps := n} : HRun).getT k = r.getT k := rfl

theorem sets_of {i : Instr} {d : BitVec 4} {ok : HRun → Prop} {v : HRun → W32} (he : exec i = runHeddle (tEffect i))
    (h : ∀ r : HRun, r.fin = .running → ok r → ∃ x, tEffect i { r with steps := r.steps + 1 } = (({ r with steps := r.steps + 1 } : HRun).setT d x).next ∧ BitVec.ofNat 32 x = v r) : TSets i d ok v := by
  refine steps_of he fun r hf ho => ?_
  obtain ⟨x, h1, h2⟩ := h r hf ho
  rw [h1]
  have := next_goes (r := r) (x := { r with t := r.t.set d.toNat (v r) }) hf rfl rfl rfl rfl
  rw [← h2] at this ⊢
  exact this

theorem arith_of {i : Instr} {d a b : BitVec 4} {c : BitVec 1} {j : BitVec 13} {f : Nat → Nat → Nat} {g : W32 → W32 → W32}
    (he : exec i = runHeddle (tEffect i)) (ht : tEffect i = tArith f d a b c j)
    (hfg : ∀ x y : W32, BitVec.ofNat 32 (f x.toNat y.toNat) = g x y) : TSets i d (fun _ => True) fun r => g (tv r a) (sv r b c j) := by
  refine sets_of he fun r hf _ => ⟨f (r.getT a) (r.src2 b c j), ?_, ?_⟩
  · rw [ht]; rfl
  · rw [src2_sv]; exact hfg _ _

theorem jump_of {i : Instr} {ok : HRun → Prop} {F : HRun → HRun} (he : exec i = runHeddle (tEffect i))
    (h : ∀ r : HRun, r.fin = .running → ok r → tEffect i { r with steps := r.steps + 1 } = F r) : Steps i ok fun r r' => r' = F r :=
  steps_of he h

theorem goes_of {i : Instr} {ok : HRun → Prop} {F : HRun → HRun} (he : exec i = runHeddle (tEffect i))
    (hF : ∀ r : HRun, (F r).fin = r.fin ∧ (F r).pc = r.pc ∧ (F r).code = r.code ∧ (F r).l0 = r.l0 ∧ (F r).l1 = r.l1)
    (h : ∀ r : HRun, r.fin = .running → ok r → tEffect i { r with steps := r.steps + 1 } = ({ F r with steps := r.steps + 1 } : HRun).next) :
    Steps i ok fun r r' => Goes r (F r) r' := by
  refine steps_of he fun r hf ho => ?_
  rw [h r hf ho]
  obtain ⟨h1, h2, h3, h4, h5⟩ := hF r
  exact next_goes (by rw [h1]; exact hf) h2 h3 h4 h5

theorem tbranch_of {i : Instr} {t : BitVec 8} {ok : HRun → Prop} {c : HRun → Bool} (he : exec i = runHeddle (tEffect i))
    (ht : ∀ r, tEffect i r = tBranch (c r) t r) (hc : ∀ (r : HRun) n, c { r with steps := n } = c r) (h : ∀ r, ok r → c r = true) :
    Steps i ok fun r r' => r' = { r with steps := r.steps + 1, pc := t.toNat } := by
  refine jump_of he fun r hf ho => ?_
  rw [ht]; unfold tBranch; rw [hc, h r ho]; rfl

theorem tbranch_no {i : Instr} {t : BitVec 8} {ok : HRun → Prop} {c : HRun → Bool} (he : exec i = runHeddle (tEffect i))
    (ht : ∀ r, tEffect i r = tBranch (c r) t r) (hc : ∀ (r : HRun) n, c { r with steps := n } = c r) (h : ∀ r, ok r → c r = false) :
    Steps i ok fun r r' => Goes r r r' := by
  refine goes_of (F := fun r => r) he (fun _ => ⟨rfl, rfl, rfl, rfl, rfl⟩) fun r hf ho => ?_
  rw [ht]; unfold tBranch; rw [hc, h r ho]; rfl

theorem inField_bitsAt (r : HRun) (p n : Nat) : BitsAt r p n (r.inField p n) := by
  unfold HRun.inField BitsAt
  induction n with
  | zero => simp
  | succ n ih =>
    rw [List.range_succ, List.foldl_append, List.foldl_cons, List.foldl_nil]
    obtain ⟨h1, h2⟩ := ih
    generalize (List.range n).foldl (fun acc j => if r.inBit (p + j) then acc + 2 ^ j else acc) 0 = v at h1 h2 ⊢
    have hb : r.inBit (p + n) = (r.inp.getD ((p + n) / 8) 0#8).getLsbD ((p + n) % 8) := rfl
    by_cases hc : r.inBit (p + n) = true
    · rw [if_pos hc]
      refine ⟨by rw [pow_succ]; omega, fun j hj => ?_⟩
      by_cases hjn : j = n
      · subst hjn
        rw [← hb, hc, Nat.add_comm, Nat.testBit_two_pow_add_eq, Nat.testBit_lt_two_pow h1]; rfl
      · rw [Nat.add_comm, Nat.testBit_two_pow_add_gt (by omega)]
        exact h2 j (by omega)
    · rw [if_neg hc]
      refine ⟨by rw [pow_succ]; omega, fun j hj => ?_⟩
      by_cases hjn : j = n
      · subst hjn
        rw [← hb, Nat.testBit_lt_two_pow h1]; simp [hc]
      · exact h2 j (by omega)

theorem roundUp_eq {x k p : Nat} (hk : 0 < k) (h1 : x ≤ p) (h2 : p < x + k) (h3 : k ∣ p) : roundUp x k = p := by
  unfold roundUp
  rw [if_neg (by omega)]
  obtain ⟨q, rfl⟩ := h3
  have : (x + k - 1) / k = q := by
    rw [Nat.div_eq_iff hk]
    constructor
    · rw [Nat.mul_comm] at h2; omega
    · rw [Nat.mul_comm] at h1; omega
  rw [this, Nat.mul_comm]

theorem tread_run (r : HRun) (m : Bool) (d b : BitVec 4) (c : BitVec 1) (i : BitVec 13)
    (h : (sv r b c i).toNat ≤ 32 ∧ r.ic + (sv r b c i).toNat ≤ 8 * r.inp.length) :
    tRead m d b c i { r with steps := r.steps + 1 } = ({ r with steps := r.steps + 1, t := r.t.set d.toNat (BitVec.ofNat 32 (r.inField r.ic (sv r b c i).toNat)), ic := if m then r.ic + (sv r b c i).toNat else r.ic } : HRun).next := by
  unfold tRead
  rw [src2_steps, src2_sv]
  have h2 : r.ic + (sv r b c i).toNat ≤ ({ r with steps := r.steps + 1 } : HRun).inBits := h.2
  have h3 : ¬ (decide ((sv r b c i).toNat > 32) || decide (({ r with steps := r.steps + 1 } : HRun).ic + (sv r b c i).toNat > ({ r with steps := r.steps + 1 } : HRun).inBits)) = true := by
    simp; exact ⟨h.1, h2⟩
  dsimp only
  rw [if_neg h3]
  rfl

theorem wordByte (l : List Byte) (k : Nat) (h : 4 * k + 4 ≤ l.length) (j : Nat) (hj : j < 4) :
    (BitVec.ofNat 32 (leNat ((l.drop (4 * k)).take 4))).extractLsb' (8 * j) 8 = l.getD (4 * k + j) 0#8 := by
  have h1 : ∀ j, j < 4 → ((l.drop (4 * k)).take 4).getD j 0#8 = l.getD (4 * k + j) 0#8 := by
    intro j hj
    rw [List.getD_eq_getElem _ _ (by simp; omega), List.getD_eq_getElem _ _ (by omega)]
    simp
  have h2 : ((l.drop (4 * k)).take 4).length = 4 := by simp; omega
  rw [← h1 j hj]
  generalize (l.drop (4 * k)).take 4 = q at h2
  match q, h2 with
  | [b0, b1, b2, b3], _ =>
    have e0 := b0.isLt; have e1 := b1.isLt; have e2 := b2.isLt; have e3 := b3.isLt
    apply BitVec.eq_of_toNat_eq
    have : j = 0 ∨ j = 1 ∨ j = 2 ∨ j = 3 := by omega
    rcases this with rfl | rfl | rfl | rfl <;> simp [leNat, Nat.shiftRight_eq_div_pow] <;> omega

theorem takeWhile_run (b : Byte) (l : List Byte) (k : Nat) :
    k ≤ (l.takeWhile fun x => x == b).length ↔ k ≤ l.length ∧ ∀ j, j < k → l.getD j 0#8 = b := by
  induction l generalizing k with
  | nil => simp; intro h; subst h; simp
  | cons c l ih =>
    cases k with
    | zero => simp
    | succ k =>
      rw [List.takeWhile_cons]
      by_cases hc : c = b
      · subst hc
        simp only [beq_self_eq_true, if_true, List.length_cons, Nat.add_le_add_iff_right, ih]
        constructor
        · rintro ⟨h1, h2⟩
          refine ⟨h1, fun j hj => ?_⟩
          cases j with
          | zero => rfl
          | succ j => exact h2 j (by omega)
        · rintro ⟨h1, h2⟩
          exact ⟨h1, fun j hj => h2 (j + 1) (by omega)⟩
      · have hn : (c == b) = false := by simp [hc]
        rw [hn]
        simp only [Bool.false_eq_true, if_false, List.length_nil]
        constructor
        · intro h; omega
        · rintro ⟨_, h2⟩; exact absurd (h2 0 (by omega)) hc

theorem runAt_iff (l : List Byte) (p k : Nat) (hk : 0 < k) : RunAt l p k ↔ k ≤ runLen (l.drop p) := by
  have hg : ∀ j, (l.drop p).getD j 0#8 = l.getD (p + j) 0#8 := by
    intro j; simp [List.getD_eq_getElem?_getD]
  unfold RunAt
  cases hd : l.drop p with
  | nil =>
    have : l.length ≤ p := by simpa using hd
    simp only [runLen]; constructor
    · rintro ⟨h, _⟩; omega
    · intro h; omega
  | cons b bs =>
    have hlen : l.length = p + (bs.length + 1) := by
      have := congrArg List.length hd; simp at this; omega
    have hb : l.getD p 0#8 = b := by rw [← Nat.add_zero p, ← hg, hd]; rfl
    obtain ⟨k, rfl⟩ : ∃ m, k = m + 1 := ⟨k - 1, by omega⟩
    have h1 := takeWhile_run b bs k
    simp only [runLen]
    rw [show (k + 1 ≤ 1 + (bs.takeWhile fun x => x == b).length ↔ k ≤ (bs.takeWhile fun x => x == b).length) by omega, h1, hb]
    constructor
    · rintro ⟨h2, h3⟩
      refine ⟨by omega, fun j hj => ?_⟩
      have := h3 (j + 1) (by omega)
      rw [← hg, hd] at this; exact this
    · rintro ⟨h2, h3⟩
      refine ⟨by omega, fun j hj => ?_⟩
      rw [← hg, hd]
      cases j with
      | zero => rfl
      | succ j => exact h3 j (by omega)

theorem litLen_le (k n : Nat) (l : List Byte) : litLen k n l ≤ n := by
  induction n generalizing l with
  | zero => simp [litLen]
  | succ n ih =>
    cases l with
    | nil => simp [litLen]
    | cons b l => unfold litLen; split; · have := ih l; omega
                  · omega

theorem runLen_spec (l : List Byte) (p lim : Nat) :
    (min lim (runLen (l.drop p)) = 0 ∨ RunAt l p (min lim (runLen (l.drop p)))) ∧
      (min lim (runLen (l.drop p)) = lim ∨ ¬ RunAt l p (min lim (runLen (l.drop p)) + 1)) := by
  constructor
  · by_cases h : min lim (runLen (l.drop p)) = 0
    · exact .inl h
    · exact .inr ((runAt_iff _ _ _ (by omega)).mpr (min_le_right _ _))
  · rw [runAt_iff _ _ _ (by omega)]
    rcases Nat.lt_or_ge (runLen (l.drop p)) lim with h | h
    · right; rw [min_eq_right (le_of_lt h)]; omega
    · left; exact min_eq_left h

theorem litLen_spec (k lim : Nat) (hk : 0 < k) (l : List Byte) (p : Nat) :
    (∀ j, j < litLen k lim (l.drop p) → p + j < l.length ∧ ¬ RunAt l (p + j) k) ∧
      (litLen k lim (l.drop p) = lim ∨ l.length ≤ p + litLen k lim (l.drop p) ∨ RunAt l (p + litLen k lim (l.drop p)) k) := by
  induction lim generalizing p with
  | zero => simp [litLen]
  | succ n ih =>
    cases hd : l.drop p with
    | nil =>
      have : l.length ≤ p := by simpa using hd
      simp only [litLen]
      exact ⟨fun j hj => by omega, .inr (.inl (by omega))⟩
    | cons b bs =>
      have hlen : l.length = p + (bs.length + 1) := by
        have := congrArg List.length hd; simp at this; omega
      have hb : bs = l.drop (p + 1) := by rw [← List.drop_drop, hd]; rfl
      have hr := runAt_iff l p k hk
      rw [hd] at hr
      unfold litLen
      split
      · rename_i hlt
        obtain ⟨h1, h2⟩ := ih (p + 1)
        rw [← hb] at h1 h2
        constructor
        · intro j hj
          cases j with
          | zero => exact ⟨by omega, fun hc => by have := hr.mp hc; omega⟩
          | succ j =>
            have := h1 j (by omega)
            rw [show p + (j + 1) = p + 1 + j by omega]; exact this
        · rcases h2 with h2 | h2 | h2
          · left; omega
          · right; left; omega
          · right; right; rw [← Nat.add_assoc]; exact h2
      · rename_i hlt
        exact ⟨fun j hj => by omega, .inr (.inr (hr.mpr (by omega)))⟩

theorem emit_ok (r : HRun) (n v : Nat) (h : r.out.length + n ≤ 8 * r.outCap) : r.emit n v = { r with out := r.out ++ lows n v } := by
  unfold HRun.emit lows
  rw [if_neg (by omega)]

theorem emit_over (r : HRun) (n v : Nat) (h : 8 * r.outCap < r.out.length + n) : r.emit n v = { r with fin := .error true } := by
  unfold HRun.emit
  rw [if_pos (by omega)]; rfl

theorem lows_zero (n : Nat) : lows n 0 = List.replicate n false := by
  unfold lows
  induction n with
  | zero => rfl
  | succ n ih => rw [List.range_succ, List.map_append, ih]; simp [List.replicate_succ']

theorem lows_add (m n v : Nat) : lows (m + n) v = lows m v ++ lows n (v / 2 ^ m) := by
  unfold lows
  rw [List.range_add, List.map_append, List.map_map]
  congr 1
  refine List.map_congr_left fun j _ => ?_
  simp [Nat.testBit_div_two_pow, Nat.add_comm]

theorem lows_leNat (bs : List Byte) : lows (8 * bs.length) (leNat bs) = bs.flatMap fun x => lows 8 x.toNat := by
  induction bs with
  | nil => rfl
  | cons b bs ih =>
    rw [List.flatMap_cons, ← ih, List.length_cons, show 8 * (bs.length + 1) = 8 + 8 * bs.length by ring, lows_add]
    have hb := b.isLt
    rw [show leNat (b :: bs) = b.toNat + 256 * leNat bs from rfl]
    congr 1
    · unfold lows
      refine List.map_congr_left fun j hj => ?_
      have := List.mem_range.mp hj
      rw [show b.toNat + 256 * leNat bs = leNat bs * 2 ^ 8 + b.toNat by ring]
      rw [Nat.mul_comm, Nat.testBit_two_pow_mul_add _ (by simpa using hb)]
      rw [if_pos this]
    · congr 1; show (b.toNat + 256 * leNat bs) / 256 = leNat bs; omega

theorem testBit_leNat (bs : List Byte) (j : Nat) : (leNat bs).testBit j = (bs.getD (j / 8) 0#8).getLsbD (j % 8) := by
  induction bs generalizing j with
  | nil => simp [leNat]
  | cons b bs ih =>
    have hb := b.isLt
    unfold leNat
    rw [show b.toNat + 256 * leNat bs = 2 ^ 8 * leNat bs + b.toNat by ring, Nat.testBit_two_pow_mul_add _ (by simpa using hb)]
    split
    · rename_i h
      rw [Nat.div_eq_of_lt h, Nat.mod_eq_of_lt h]; rfl
    · rename_i h
      rw [ih, show j / 8 = (j - 8) / 8 + 1 by omega, show j % 8 = (j - 8) % 8 by omega]; rfl

theorem bitsAt_inj {r : HRun} {p n v w : Nat} (h1 : BitsAt r p n v) (h2 : BitsAt r p n w) : v = w := by
  apply Nat.eq_of_testBit_eq
  intro j
  by_cases hj : j < n
  · rw [h1.2 j hj, h2.2 j hj]
  · rw [Nat.testBit_lt_two_pow (lt_of_lt_of_le h1.1 (Nat.pow_le_pow_right (by norm_num) (by omega))),
      Nat.testBit_lt_two_pow (lt_of_lt_of_le h2.1 (Nat.pow_le_pow_right (by norm_num) (by omega)))]

theorem tabHalf_of {r : HRun} {k e : Nat} (h : TabAt r k e) : r.tabHalf k = some e := by
  unfold HRun.tabHalf
  rw [if_pos h.1]
  have h2 : ((r.tab.drop (2 * k)).take 2).length = 2 := by simp; have := h.1; omega
  have h1 : ∀ j, j < 2 → ((r.tab.drop (2 * k)).take 2).getD j 0#8 = r.tab.getD (2 * k + j) 0#8 := by
    intro j hj
    have := h.1
    rw [List.getD_eq_getElem _ _ (by simp; omega), List.getD_eq_getElem _ _ (by omega)]
    simp
  have e0 := h1 0 (by omega)
  have e1 := h1 1 (by omega)
  rw [Nat.add_zero] at e0
  rw [h.2, ← e1, ← e0]
  generalize (r.tab.drop (2 * k)).take 2 = q at h2
  match q, h2 with
  | [b0, b1], _ => simp [leNat]

theorem bits_entLen (e : Nat) : bits e 15 12 = entLen e := by
  unfold bits entLen
  rw [Nat.shiftRight_eq_div_pow]
  norm_num

theorem lows_mod (n m v : Nat) (h : n ≤ m) : lows n (v % 2 ^ m) = lows n v := by
  unfold lows
  refine List.map_congr_left fun j hj => ?_
  have := List.mem_range.mp hj
  rw [Nat.testBit_mod_two_pow]; simp; intro; omega

theorem vldLoop_spec (l base : Nat) (hl : l ≤ 9) (es : List Nat) (k o n : Nat) (r : HRun) (hf : r.fin = .running)
    (hk : es.length ≤ k) (hend : es.length = k ∨ 64 ≤ o + lens es)
    (hout : r.out.length + 8 * es.length ≤ 8 * r.outCap)
    (hc : ∀ j, j < es.length → let p := o + lens (es.take j)
        p < 64 ∧ 1 ≤ entLen (es.getD j 0) ∧ entLen (es.getD j 0) ≤ l ∧
          ∃ v, BitsAt r (r.ic + p) l v ∧ TabAt r (base + v) (es.getD j 0)) :
    vldLoop l base k o n r = (o + lens es, n + es.length, { r with out := r.out ++ es.flatMap (lows 8) }) := by
  induction es generalizing k o n r with
  | nil =>
    have : k = 0 ∨ 64 ≤ o := by rcases hend with h | h; · left; simpa using h.symm
                                · right; simpa [lens] using h
    cases k with
    | zero => simp [vldLoop, lens]
    | succ k =>
      have h64 : ¬ o < 64 := by omega
      unfold vldLoop
      rw [if_neg h64]; simp [lens]
  | cons e es ih =>
    obtain ⟨k, rfl⟩ : ∃ m, k = m + 1 := ⟨k - 1, by simp at hk; omega⟩
    obtain ⟨c1, c2, c3, v, c4, c5⟩ := hc 0 (by simp)
    simp only [List.take_zero, List.getD_cons_zero] at c1 c2 c3 c4 c5
    have hl0 : lens [] = 0 := rfl
    rw [hl0, Nat.add_zero] at c1 c4
    have hv : r.inField (r.ic + o) l = v := bitsAt_inj (inField_bitsAt _ _ _) c4
    unfold vldLoop
    rw [if_pos c1, if_pos (by omega), hv, tabHalf_of c5]
    dsimp only
    rw [bits_entLen]
    have hn : ¬ (decide (entLen e = 0) || decide (entLen e > l)) = true := by simp; omega
    rw [if_neg hn, emit_ok _ _ _ (by simp at hout; omega)]
    simp only [hf]
    have hle : lens (e :: es) = entLen e + lens es := by simp [lens]
    have e2 : lows 8 (bits e 7 0) = lows 8 e := lows_mod 8 8 e (le_refl _)
    have := ih k (o + entLen e) (n + 1) { r with out := r.out ++ lows 8 (bits e 7 0) } hf (by simpa using hk)
      (by rw [hle] at hend; simp at hend; omega) (by simp [lows] at hout ⊢; omega) (by
        intro j hj
        obtain ⟨d1, d2, d3, d4⟩ := hc (j + 1) (by simpa using hj)
        rw [List.take_succ_cons, show lens (e :: es.take j) = entLen e + lens (es.take j) by simp [lens], ← Nat.add_assoc] at d1
        rw [List.take_succ_cons, show lens (e :: es.take j) = entLen e + lens (es.take j) by simp [lens], ← Nat.add_assoc o] at d4
        exact ⟨d1, d2, d3, d4⟩)
    rw [hf] at this
    rw [this, e2]
    simp [lens, List.append_assoc]
    omega

theorem vleLoop_spec (base : Nat) (es : List Nat) (k n : Nat) (r : HRun) (hf : r.fin = .running) (h8 : r.ic % 8 = 0)
    (hk : es.length ≤ k) (hend : es.length = k ∨ 8 * r.inp.length ≤ r.ic + 8 * es.length)
    (hin : r.ic + 8 * es.length ≤ 8 * r.inp.length)
    (hout : r.out.length + lens es ≤ 8 * r.outCap)
    (hc : ∀ j, j < es.length → 1 ≤ entLen (es.getD j 0) ∧ entLen (es.getD j 0) ≤ 12 ∧
        TabAt r (base + (r.inp.getD (r.ic / 8 + j) 0#8).toNat) (es.getD j 0)) :
    vleLoop base k n r = (n + es.length, { r with ic := r.ic + 8 * es.length, out := r.out ++ es.flatMap fun e => lows (entLen e) e }) := by
  induction es generalizing k n r with
  | nil =>
    have : k = 0 ∨ 8 * r.inp.length ≤ r.ic := by rcases hend with h | h; · left; simpa using h.symm
                                                 · right; simpa using h
    cases k with
    | zero => simp [vleLoop]
    | succ k =>
      have h64 : ¬ r.ic < r.inBits := by show ¬ r.ic < 8 * r.inp.length; omega
      unfold vleLoop
      rw [if_neg h64]; simp
  | cons e es ih =>
    obtain ⟨k, rfl⟩ : ∃ m, k = m + 1 := ⟨k - 1, by simp at hk; omega⟩
    obtain ⟨c2, c3, c5⟩ := hc 0 (by simp)
    simp only [List.getD_cons_zero, Nat.add_zero] at c2 c3 c5
    have hlt : r.ic < r.inBits := by show r.ic < 8 * r.inp.length; simp at hin; omega
    have hv : r.inField r.ic 8 = (r.inp.getD (r.ic / 8) 0#8).toNat := by
      refine bitsAt_inj (inField_bitsAt _ _ _) ⟨(r.inp.getD (r.ic / 8) 0#8).isLt, fun j hj => ?_⟩
      have : (r.ic + j) / 8 = r.ic / 8 ∧ (r.ic + j) % 8 = j := by omega
      rw [this.1, this.2]; rfl
    have hle : lens (e :: es) = entLen e + lens es := by simp [lens]
    unfold vleLoop
    rw [if_pos hlt, hv, tabHalf_of c5]
    dsimp only
    rw [bits_entLen]
    have hn : ¬ (decide (entLen e = 0) || decide (entLen e > 12)) = true := by simp; omega
    rw [if_neg hn, emit_ok _ _ _ (by rw [hle] at hout; omega)]
    simp only [hf]
    have e2 : lows (entLen e) (e % 2 ^ entLen e) = lows (entLen e) e := lows_mod _ _ e (le_refl _)
    have hll : ∀ n v, (lows n v).length = n := by intro n v; simp [lows]
    have := ih k (n + 1) { r with out := r.out ++ lows (entLen e) (e % 2 ^ entLen e), ic := r.ic + 8 } hf (by show (r.ic + 8) % 8 = 0; omega) (by simpa using hk)
      (by simp at hend ⊢; omega) (by simp at hin ⊢; omega) (by rw [hle] at hout; simp [hll]; omega) (by
        intro j hj
        have := hc (j + 1) (by simpa using hj)
        show _ ∧ _ ∧ TabAt _ (base + (r.inp.getD ((r.ic + 8) / 8 + j) 0#8).toNat) _
        rw [show (r.ic + 8) / 8 + j = r.ic / 8 + (j + 1) by omega]
        exact this)
    rw [hf] at this
    rw [this, e2]
    simp [List.append_assoc]
    omega

theorem errs_of {i : Instr} {ovf : Bool} {ok : HRun → Prop} (he : exec i = runHeddle (tEffect i))
    (h : ∀ r : HRun, r.fin = .running → ok r → (tEffect i { r with steps := r.steps + 1 }) = { r with steps := r.steps + 1, fin := .error ovf }) : Errs i ovf ok := by
  refine steps_of he fun r hf ho => ?_
  rw [h r hf ho]; exact ⟨rfl, rfl⟩

end Sys2Proof.Machine
end

