-- ==== Sys2Proof/Safety.lean ====
section
/-! DEFINITION. What counts as a safe state: memory in canonical form. -/

namespace Sys2Proof.Machine

/-- Every memory of the device is in canonical form. -/
def State.memoryWf (s : State) : Prop := Memory.wf s.mem = true ∧ Memory.wf s.hostMem = true

end Sys2Proof.Machine
end

