-- ==== Sys2Proof/Laws/Memory.lean ====
section
/-! SUPPORT. Memory: reads after writes, and the canonical form kept by every operation that writes (R3). -/

namespace Sys2Proof.Machine.Memory

theorem wf_cons {a : Nat} {b : Byte} {m : Memory} (h : wf ((a, b) :: m) = true) : wf m = true := by
  cases m with
  | nil => rfl
  | cons p m => obtain ⟨a', b'⟩ := p; simp [wf] at h; exact h.2

/-- In a canonical memory the first address lies below every other one. -/
theorem wf_head_lt {a : Nat} {b : Byte} {m : Memory} (h : wf ((a, b) :: m) = true) :
    ∀ p ∈ m, a < p.1 := by
  induction m generalizing a b with
  | nil => simp
  | cons p m ih =>
    obtain ⟨a', b'⟩ := p
    have h2 : a < a' := by simp [wf] at h; exact h.1.2
    intro q hq
    rcases List.mem_cons.mp hq with rfl | hq
    · exact h2
    · exact lt_trans h2 (ih (wf_cons h) q hq)

/-- The canonical form, unrolled by one entry. -/
theorem wf_cons_iff {a : Nat} {b : Byte} {m : Memory} :
    wf ((a, b) :: m) = true ↔ b ≠ unlisted ∧ (∀ p ∈ m, a < p.1) ∧ wf m = true := by
  constructor
  · intro h
    refine ⟨?_, wf_head_lt h, wf_cons h⟩
    cases m with
    | nil => simpa [wf] using h
    | cons p m => obtain ⟨a', b'⟩ := p; simp [wf] at h; exact h.1.1
  · rintro ⟨hb, hlt, hm⟩
    cases m with
    | nil => simpa [wf] using hb
    | cons p m =>
      obtain ⟨a', b'⟩ := p
      simp [wf, hb, hm]
      exact hlt (a', b') (by simp)

theorem mem_set {m : Memory} {i : Nat} {v : Byte} {p : Nat × Byte} (h : p ∈ AMap.set m i v) : p = (i, v) ∨ p ∈ m := by
  induction m with
  | nil => simpa [AMap.set] using h
  | cons q m ih =>
    obtain ⟨k, u⟩ := q
    rw [AMap.set] at h
    split at h
    · simpa using h
    · split at h
      · rcases List.mem_cons.mp h with rfl | h
        · exact .inl rfl
        · exact .inr (by simp [h])
      · rcases List.mem_cons.mp h with rfl | h
        · exact .inr (by simp)
        · rcases ih h with h | h
          · exact .inl h
          · exact .inr (by simp [h])

theorem wf_set {m : Memory} (h : wf m = true) (i : Nat) {v : Byte} (hv : v ≠ unlisted) : wf (AMap.set m i v) = true := by
  induction m with
  | nil => simpa [AMap.set, wf] using hv
  | cons q m ih =>
    obtain ⟨k, u⟩ := q
    obtain ⟨hu, hlt, hm⟩ := wf_cons_iff.mp h
    rw [AMap.set]
    split
    · rename_i hik
      refine wf_cons_iff.mpr ⟨hv, ?_, h⟩
      intro p hp
      rcases List.mem_cons.mp hp with rfl | hp
      · exact hik
      · exact lt_trans hik (hlt p hp)
    · split
      · subst i; exact wf_cons_iff.mpr ⟨hv, hlt, hm⟩
      · refine wf_cons_iff.mpr ⟨hu, ?_, ih hm⟩
        intro p hp
        rcases mem_set hp with rfl | hp
        · show k < i; omega
        · exact hlt p hp

theorem mem_erase {m : Memory} {i : Nat} {p : Nat × Byte} (h : p ∈ AMap.erase m i) : p ∈ m := by
  induction m with
  | nil => simp [AMap.erase] at h
  | cons q m ih =>
    obtain ⟨k, u⟩ := q
    rw [AMap.erase] at h
    split at h
    · simp [h]
    · rcases List.mem_cons.mp h with rfl | h
      · simp
      · simp [ih h]

theorem wf_erase {m : Memory} (h : wf m = true) (i : Nat) : wf (AMap.erase m i) = true := by
  induction m with
  | nil => rfl
  | cons q m ih =>
    obtain ⟨k, u⟩ := q
    obtain ⟨hu, hlt, hm⟩ := wf_cons_iff.mp h
    rw [AMap.erase]
    split
    · exact hm
    · exact wf_cons_iff.mpr ⟨hu, fun p hp => hlt p (mem_erase hp), ih hm⟩

theorem wf_write {m : Memory} (h : wf m = true) (a : Nat) (b : Byte) : wf (m.write a b) = true := by
  unfold write
  split
  · exact wf_erase h a
  · exact wf_set h a (by assumption)

theorem wf_writeBytes {m : Memory} (h : wf m = true) (a : Nat) (bs : List Byte) : wf (m.writeBytes a bs) = true := by
  induction bs generalizing m a with
  | nil => exact h
  | cons b bs ih => exact ih (wf_write h a b) (a + 1)

theorem get?_erase_self {m : Memory} (h : wf m = true) (i : Nat) : AMap.get? (AMap.erase m i) i = none := by
  induction m with
  | nil => rfl
  | cons q m ih =>
    obtain ⟨k, u⟩ := q
    obtain ⟨-, hlt, hm⟩ := wf_cons_iff.mp h
    rw [AMap.erase]
    split
    · subst i
      cases hg : AMap.get? m k with
      | none => rfl
      | some v => exact absurd (hlt _ (AMap.get?_mem hg)) (lt_irrefl _)
    · simp [AMap.get?, *]

/-- A byte written is read back, and no other byte changes. -/
theorem read_write {m : Memory} (h : wf m = true) (a x : Nat) (b : Byte) :
    (m.write a b).read x = if x = a then b else m.read x := by
  unfold write read AMap.getD
  by_cases hb : b = unlisted
  · by_cases hx : x = a
    · subst x; simp [hb, get?_erase_self h]
    · simp [hb, hx, AMap.get?_erase_ne m hx]
  · by_cases hx : x = a
    · subst x; simp [hb]
    · simp [hb, hx]

/-- After writing bytes from `a` on, an address inside reads its byte and every other one reads as before. -/
theorem read_writeBytes {m : Memory} (h : wf m = true) (a x : Nat) (bs : List Byte) :
    (m.writeBytes a bs).read x = if a ≤ x ∧ x < a + bs.length then bs.getD (x - a) 0#8 else m.read x := by
  induction bs generalizing m a with
  | nil => simp [writeBytes]
  | cons b bs ih =>
    rw [writeBytes, ih (wf_write h a b), read_write h]
    by_cases hx : x = a
    · subst x; simp
    · by_cases h1 : a + 1 ≤ x ∧ x < a + 1 + bs.length
      · have h2 : a ≤ x ∧ x < a + (b :: bs).length := by simp; omega
        have h3 : x - a = (x - (a + 1)) + 1 := by omega
        simp only [if_pos h1, if_pos h2, h3, List.getD_cons_succ]
      · have h2 : ¬(a ≤ x ∧ x < a + (b :: bs).length) := by simp; omega
        rw [if_neg h1, if_neg h2, if_neg hx]

end Sys2Proof.Machine.Memory
end

