-- ==== Sys2Proof/Laws/Store.lean ====
section
/-! SUPPORT. Stores, said once: what the writes of one instruction may change (R22, R50, R106, R191, R203). -/

namespace Sys2Proof.Machine
open Claim

namespace State

theorem updSlot_keeps (s : State) (w k : Nat) (f : PairSlot → PairSlot) : PortKeeps s (s.updSlot w k f) := rfl

theorem mem_keeps (s : State) (m : Memory) (l : List Nat) : PortKeeps s { s with mem := m, unref := l } := rfl

theorem poisonBlock_keeps (s : State) (l : BlkRef) : PortKeeps s (s.poisonBlock l) := by
  unfold poisonBlock
  exact setMeta_keeps _ _ _

theorem putBlock_keeps (s : State) (a : BAcc) (v : RView) (n p : Nat) (d : List Byte) (b : Bool) :
    PortKeeps s (s.putBlock a v n p d b) := by
  unfold putBlock
  dsimp only
  split
  · split
    · exact poisonBlock_keeps _ _
    · exact ((setMeta_keeps s a.loc _).trans (moveRefs_keeps _ a.world _ _)).trans (mem_keeps _ _ _)
  · exact ((setMeta_keeps s a.loc _).trans (moveRefs_keeps _ a.world _ _)).trans (mem_keeps _ _ _)

theorem encodeBlock_keeps (s : State) (w : Nat) (v : RView) (d : List Byte) : PortKeeps s (s.encodeBlock w v d).2 := by
  unfold encodeBlock
  dsimp only
  split
  · exact .refl s
  · split
    · dsimp only
      split
      · exact updSlot_keeps _ _ _ _
      · exact .refl s
    · split
      · split
        · exact .refl s
        · exact updSlot_keeps _ _ _ _
      · exact updSlot_keeps _ _ _ _

theorem storeAs_keeps (s : State) (a : BAcc) (v : RView) (d : List Byte) (r : Option (Nat × List Byte)) :
    PortKeeps s (s.storeAs a v d r).2 := by
  unfold storeAs
  split
  · split
    · exact putBlock_keeps _ _ _ _ _ _ _
    · exact .refl s
  · split
    · exact .refl s
    · exact putBlock_keeps _ _ _ _ _ _ _

theorem portWrite_keeps (s : State) (a : BAcc) (d : List Byte) : PortKeeps s (s.portWrite a d).2 := by
  unfold portWrite
  dsimp only
  refine (sweepUnder_keeps s a).trans ?_
  split
  · exact putBlock_keeps _ _ _ _ _ _ _
  · exact (encodeBlock_keeps _ _ _ _).trans (storeAs_keeps _ _ _ _ _)

/-- `t` is `s` but for what writes of global memory may change. -/
def GlobalKeeps (s t : State) : Prop :=
  { s with mem := t.mem, metas := t.metas, fixMetas := t.fixMetas, lines := t.lines, ports := t.ports, worlds := t.worlds,
           icache := t.icache, unref := t.unref, hostMem := t.hostMem } = t

theorem GlobalKeeps.refl (s : State) : GlobalKeeps s s := rfl
theorem GlobalKeeps.trans {s t u : State} (h1 : GlobalKeeps s t) (h2 : GlobalKeeps t u) : GlobalKeeps s u := by
  unfold GlobalKeeps at *; rw [← h2, ← h1]
theorem PortKeeps.global {s t : State} (h : PortKeeps s t) : GlobalKeeps s t := by
  unfold PortKeeps at h; unfold GlobalKeeps; rw [← h]
theorem GlobalKeeps.blocks {s t : State} (h : GlobalKeeps s t) : t.blocks = s.blocks := by rw [← h]
theorem GlobalKeeps.block? {s t : State} (h : GlobalKeeps s t) (b : Nat) : t.block? b = s.block? b := by
  unfold State.block?; rw [h.blocks]

theorem windowStore_keeps (s : State) (w c o : Nat) (bs : List Byte) : PortKeeps s (s.windowStore w c o bs) := by
  unfold windowStore
  dsimp only
  split
  · exact .refl s
  · exact updWorld_keeps _ _ _

theorem patchPlace_keeps (s : State) (w c : Nat) (t : Touched) (p : Place) (bs : List Byte) :
    GlobalKeeps s (s.patchPlace w c t p bs).2 := by
  unfold patchPlace
  split
  · rfl
  · exact .refl s
  · exact (windowStore_keeps _ _ _ _ _).global
  · exact .refl s
  · exact ((fill_keeps s _).trans (setLine_keeps _ _ _)).global

theorem settle_keeps (s : State) (t : Touched) : PortKeeps s (s.settle t).2 := by
  induction t generalizing s with
  | nil => exact .refl s
  | cons x t ih =>
    obtain ⟨k, a, old, offs⟩ := x
    unfold settle
    split
    · exact ih s
    · dsimp only
      split
      · exact (setLine_keeps _ _ _).trans (ih _)
      · split
        · exact (setLine_keeps _ _ _).trans (ih _)
        · rename_i l hl _ _
          have h := portWrite_keeps s a (l.heal offs).data
          split
          · rename_i s1 h1; rw [h1] at h; exact h.trans ((setLine_keeps _ _ _).trans (ih _))
          · rename_i s1 h1; rw [h1] at h; exact h.trans ((setLine_keeps _ _ _).trans (ih _))

theorem patches_keeps (w c : Nat) (ws : List (Place × List Byte)) (t : Touched) (s : State) :
    GlobalKeeps s (ws.foldl (fun (acc : Touched × State) p => acc.2.patchPlace w c acc.1 p.1 p.2) (t, s)).2 := by
  induction ws generalizing t s with
  | nil => exact .refl s
  | cons x ws ih =>
    rw [List.foldl_cons]
    exact (patchPlace_keeps s w c t x.1 x.2).trans (ih _ _)

theorem writePlaces_keeps (s : State) (w c : Nat) (ws : List (Place × List Byte)) : GlobalKeeps s (s.writePlaces w c ws).2 := by
  unfold writePlaces
  exact (patches_keeps w c ws [] s).trans (settle_keeps _ _).global

end State

/-! ## A block's own memories -/

/-- `k'` is `k` but for its memories and warps. -/
def Block.MemKeeps (k k' : Block) : Prop :=
  { k with scratch := k'.scratch, scratchTags := k'.scratchTags, scratchPoison := k'.scratchPoison, priv := k'.priv,
           warps := k'.warps } = k'

/-- `k'` is `k` but for what a store of warp `w` may change. -/
def Block.StoreKeeps (w : Nat) (k k' : Block) : Prop :=
  k.MemKeeps k' ∧
    ∀ v, match AMap.get? k.warps v with
      | none => AMap.get? k'.warps v = none
      | some x => ∃ x', AMap.get? k'.warps v = some x' ∧ (if v = w then { x with recHeld := x'.recHeld } = x' else x' = x)

theorem Block.StoreKeeps.of_warps {w : Nat} {k k' : Block}
    (h : k.MemKeeps k') (hw : k'.warps = k.warps) : k.StoreKeeps w k' := by
  refine ⟨h, fun v => ?_⟩
  rw [hw]
  cases AMap.get? k.warps v with
  | none => rfl
  | some x => exact ⟨x, rfl, by split <;> rfl⟩

theorem Block.StoreKeeps.refl (w : Nat) (k : Block) : k.StoreKeeps w k := .of_warps rfl rfl

theorem Block.StoreKeeps.trans {w : Nat} {k k' k'' : Block} (h1 : k.StoreKeeps w k') (h2 : k'.StoreKeeps w k'') :
    k.StoreKeeps w k'' := by
  refine ⟨?_, fun v => ?_⟩
  · have a := h1.1
    have b := h2.1
    unfold Block.MemKeeps at *
    rw [← b, ← a]
  have a := h1.2 v
  have b := h2.2 v
  cases hx : AMap.get? k.warps v with
  | none =>
    rw [hx] at a
    dsimp only at a
    rw [a] at b
    exact b
  | some x =>
    rw [hx] at a
    obtain ⟨x', a1, a2⟩ := a
    rw [a1] at b
    obtain ⟨x'', b1, b2⟩ := b
    refine ⟨x'', b1, ?_⟩
    by_cases hv : v = w
    · rw [if_pos hv] at a2 b2 ⊢
      rw [← b2, ← a2]
    · rw [if_neg hv] at a2 b2 ⊢
      rw [b2, a2]

theorem scratchPut_keeps (w : Nat) (k : Block) (o : Nat) (b : Byte) : k.StoreKeeps w (k.scratchPut o b) := by
  unfold Block.scratchPut
  split <;> exact .of_warps rfl rfl

theorem scratchWrite_keeps (w : Nat) (k : Block) (o : Nat) (bs : List Byte) : k.StoreKeeps w (k.scratchWrite o bs) := by
  induction bs generalizing k o with
  | nil => exact .refl w k
  | cons b bs ih => exact (scratchPut_keeps w k o b).trans (ih _ _)

theorem storeKeeps_of_block {b w : Nat} {s t : State} (h : { s with blocks := t.blocks } = t)
    (ho : ∀ c, c ≠ b → t.block? c = s.block? c) {k k' : Block} (hk : s.block? b = some k) (hk' : t.block? b = some k')
    (hkk : k.StoreKeeps w k') : StoreKeeps b w s t := by
  refine ⟨by rw [← h], ho, ?_⟩
  rw [hk]
  exact ⟨k', hk', hkk.1, hkk.2⟩

theorem storeKeeps_trans {b w : Nat} {s t u : State} (h1 : StoreKeeps b w s t) (h2 : StoreKeeps b w t u) : StoreKeeps b w s u := by
  obtain ⟨a1, a2, a3⟩ := h1
  obtain ⟨b1, b2, b3⟩ := h2
  refine ⟨by rw [← b1, ← a1], fun c hc => (b2 c hc).trans (a2 c hc), ?_⟩
  cases hk : s.block? b with
  | none =>
    rw [hk] at a3
    dsimp only at a3
    rw [a3] at b3
    exact b3
  | some k =>
    rw [hk] at a3
    obtain ⟨k', e1, e2, e3⟩ := a3
    rw [e1] at b3
    obtain ⟨k'', f1, f2, f3⟩ := b3
    obtain ⟨g1, g2⟩ := Block.StoreKeeps.trans (w := w) (k := k) (k' := k') (k'' := k'') ⟨e2, e3⟩ ⟨f2, f3⟩
    exact ⟨k'', f1, g1, g2⟩

theorem storeKeeps_of_global {b w : Nat} {s t : State} (h : State.GlobalKeeps s t) : StoreKeeps b w s t := by
  refine ⟨by unfold State.GlobalKeeps at h; rw [← h], fun c _ => h.block? c, ?_⟩
  cases hk : s.block? b with
  | none => dsimp only; rw [h.block?, hk]
  | some k =>
    obtain ⟨g1, g2⟩ := Block.StoreKeeps.refl w k
    exact ⟨k, by rw [h.block?, hk], g1, g2⟩

theorem storeKeeps_refl (b w : Nat) (s : State) : StoreKeeps b w s s := storeKeeps_of_global (State.GlobalKeeps.refl s)

theorem updBlock_storeKeeps {b w : Nat} (s : State) {f : Block → Block} (hf : ∀ k : Block, k.StoreKeeps w (f k)) :
    StoreKeeps b w s (s.updBlock b f) := by
  cases hk : s.block? b with
  | none =>
    refine ⟨by cases s; rfl, fun c hc => by rw [block?_updBlock, if_neg hc], ?_⟩
    rw [hk]
    dsimp only
    rw [block?_updBlock, if_pos rfl, hk]; rfl
  | some k =>
    exact storeKeeps_of_block (by cases s; rfl) (fun c hc => by rw [block?_updBlock, if_neg hc]) hk (by rw [block?_updBlock, if_pos rfl, hk]; rfl) (hf k)

theorem warpRec_keeps {w : Nat} (k : Block) (g : Warp → Warp) (hg : ∀ x, { x with recHeld := (g x).recHeld } = g x) :
    k.StoreKeeps w { k with warps := AMap.modify k.warps w g } := by
  refine ⟨rfl, fun v => ?_⟩
  dsimp only
  rw [AMap.get?_modify]
  by_cases hv : v = w
  · subst hv
    simp only [if_true]
    cases AMap.get? k.warps v with
    | none => rfl
    | some x => exact ⟨g x, rfl, hg x⟩
  · simp only [if_neg hv]
    cases AMap.get? k.warps v with
    | none => rfl
    | some x => exact ⟨x, rfl, rfl⟩

theorem writeAll_keeps (s : State) (e : Env) (ws : List (ThAcc × List Byte)) : StoreKeeps e.b e.w s (s.writeAll e ws).2 := by
  unfold State.writeAll
  dsimp only
  generalize (ws.flatMap fun p => match p.1.r with
    | .scratch o => (List.range p.2.length).map (o + ·)
    | _ => []) = offs
  generalize (ws.filterMap fun p => match p.1.r with
    | .go (.remote _ _ _ _) => none
    | .go pl => some (pl, p.2)
    | _ => none) = places
  have h0 : StoreKeeps e.b e.w s (s.writePlaces e.blk.world e.blk.ctx places).2 := storeKeeps_of_global (State.writePlaces_keeps _ _ _ _)
  refine storeKeeps_trans h0 ?_
  have h1 : StoreKeeps e.b e.w (s.writePlaces e.blk.world e.blk.ctx places).2
      ((s.writePlaces e.blk.world e.blk.ctx places).2.updBlock e.b fun k => k.scratchHeal offs) :=
    updBlock_storeKeeps _ fun k => .of_warps rfl rfl
  refine storeKeeps_trans h1 ?_
  generalize ((s.writePlaces e.blk.world e.blk.ctx places).2.updBlock e.b fun k => k.scratchHeal offs) = t
  induction ws generalizing t with
  | nil => exact storeKeeps_refl _ _ t
  | cons p ws ih =>
    rw [List.foldl_cons]
    refine storeKeeps_trans ?_ (ih _)
    split
    · exact updBlock_storeKeeps _ fun k => scratchWrite_keeps _ _ _ _
    · exact updBlock_storeKeeps _ fun k => .of_warps rfl rfl
    · exact updBlock_storeKeeps _ fun k => warpRec_keeps k _ fun x => rfl
    · exact storeKeeps_refl _ _ t

end Sys2Proof.Machine
end

