-- ==== Sys2Proof/Laws/Lines.lean ====
section
/-! SUPPORT. What a line, a scratchpad and private memory hold after a write (R18, R189, R203). -/

namespace Sys2Proof.Machine
open Claim

theorem foldBits (c : Nat → Bool) (n : Nat) :
    (List.range n).foldl (fun acc k => if c k then acc + 2 ^ k else acc) 0 < 2 ^ n ∧
    ∀ j, ((List.range n).foldl (fun acc k => if c k then acc + 2 ^ k else acc) 0).testBit j = (decide (j < n) && c j) := by
  induction n with
  | zero => simp
  | succ n ih =>
    obtain ⟨h1, h2⟩ := ih
    rw [List.range_succ, List.foldl_append]
    simp only [List.foldl_cons, List.foldl_nil]
    generalize (List.range n).foldl (fun acc k => if c k then acc + 2 ^ k else acc) 0 = y at *
    by_cases hc : c n = true
    · rw [if_pos hc]
      refine ⟨by rw [pow_succ]; omega, fun j => ?_⟩
      rw [show y + 2 ^ n = 2 ^ n * 1 + y by ring, Nat.testBit_two_pow_mul_add _ h1]
      by_cases hj : j < n
      · rw [if_pos hj, h2]; simp [hj]; omega
      · rw [if_neg hj]
        by_cases he : j = n
        · subst he; simp [hc]
        · have : ¬ j < n + 1 := by omega
          have h1b : (1 : Nat).testBit (j - n) = false := Nat.testBit_lt_two_pow (Nat.one_lt_two_pow (by omega))
          simp [this, h1b]
    · rw [if_neg hc]
      refine ⟨by rw [pow_succ]; omega, fun j => ?_⟩
      rw [h2]
      by_cases he : j = n
      · subst he; simp at hc; simp [hc]
      · by_cases hj : j < n
        · have : j < n + 1 := by omega
          simp [hj, this]
        · have : ¬ j < n + 1 := by omega
          simp [hj, this]

theorem heal_poison (l : Line) (w : List Nat) (j : Nat) (h : (l.heal w).poison.getLsbD j = true) : l.poison.getLsbD j = true := by
  unfold Line.heal at h
  dsimp only at h
  have := (foldBits (fun k => l.poison.getLsbD k && !((List.range 8).all fun j => w.contains (8 * k + j))) 32).2 j
  rw [BitVec.getLsbD_ofNat, this] at h
  simp only [Bool.and_eq_true] at h
  exact h.2.2.1

theorem patch_data (l : Line) (off : Nat) (bs : List Byte) (hl : l.data.length = 256) (ho : off + bs.length ≤ 256) :
    (l.patch off bs).data.length = 256 ∧
    ∀ j, (l.patch off bs).data.getD j 0#8 = if off ≤ j ∧ j < off + bs.length then bs.getD (j - off) 0#8 else l.data.getD j 0#8 := by
  unfold Line.patch
  dsimp only
  refine ⟨by simp [hl]; omega, fun j => ?_⟩
  have ht : (l.data.take off).length = off := by simp [hl]; omega
  simp only [List.getD_eq_getElem?_getD]
  by_cases h1 : j < off
  · rw [if_neg (by omega)]
    rw [List.append_assoc, List.getElem?_append_left (by omega), List.getElem?_take_of_lt h1]
  · by_cases h2 : j < off + bs.length
    · rw [if_pos ⟨by omega, h2⟩, List.append_assoc, List.getElem?_append_right (by omega), ht,
        List.getElem?_append_left (by omega)]
    · rw [if_neg (by omega), List.getElem?_append_right (by simp [ht]; omega)]
      simp only [List.length_append, ht, List.getElem?_drop]
      congr 2; omega

theorem write_hit {s : State} {w c : Nat} {a : BAcc} {off : Nat} {bs : List Byte} {l : Line} (hl : s.line? a = some l)
    (hf : a.loc.fixc = 0) : s.writePlaces w c [(.block a off, bs)] =
      (none, (s.setLine a (l.patch off bs)).setLine a ((l.patch off bs).heal ((List.range bs.length).map (off + ·)))) := by
  unfold State.writePlaces State.patchPlace
  simp only [List.foldl_cons, List.foldl_nil, State.fill_hit hl, AMap.get?_nil]
  unfold State.settle
  simp only [AMap.set]
  have : (s.setLine a (l.patch off bs)).line? a = some (l.patch off bs) := by simp [State.setLine, State.line?]
  rw [this]
  simp only [hf, if_true]
  rfl

theorem fill_line (s : State) (a : BAcc) : (s.fill a).2.line? a = some (s.fill a).1 := by
  unfold State.fill
  split
  · rename_i l h; exact h
  · dsimp only
    split <;> (unfold State.line?; rw [State.portRequest_lines]; exact AMap.get?_set_self _ _ _)

theorem shareOf_granule (k : Block) {x y : Nat} (h : x / 64 = y / 64) : k.shareOf x = k.shareOf y := by
  unfold Block.shareOf
  have hs : ∃ m, k.share = 64 * m := ⟨k.scratchLen / (64 * k.nq), by unfold Block.share; ring⟩
  obtain ⟨m, hm⟩ := hs
  rw [hm]
  have : ∀ z : Nat, z / (64 * m) = z / 64 / m := fun z => (Nat.div_div_eq_div_mul z 64 m).symm
  rw [this, this, h]

theorem read1 (k : Block) (j : Nat) : k.scratchRead j 1 = [if k.granuleOwn j then k.scratch.read j else 0#8] := by
  unfold Block.scratchRead
  simp

theorem scratchPut_wf {k : Block} {o : Nat} {b : Byte} (h : Memory.wf k.scratch = true) : Memory.wf (k.scratchPut o b).scratch = true := by
  unfold Block.scratchPut
  split
  · exact Memory.wf_write h _ _
  · exact Memory.wf_write (Memory.wf_writeBytes h _ _) _ _

theorem genAt_eq {k k' : Block} (h1 : k'.gens = k.gens) (h2 : k'.scratchLen = k.scratchLen) (h3 : k'.nq = k.nq) (o : Nat) : k'.genAt o = k.genAt o := by
  unfold Block.genAt Block.shareOf Block.share
  rw [h1, h2, h3]

theorem scratchPut_read {k : Block} {o : Nat} {b : Byte} (h : Memory.wf k.scratch = true) (j : Nat) :
    (k.scratchPut o b).scratchRead j 1 = if j = o then [b] else k.scratchRead j 1 := by
  rw [read1, read1]
  by_cases hown : k.granuleOwn o = true
  · have e1 : k.scratchPut o b = { k with scratch := k.scratch.write o b } := by unfold Block.scratchPut; rw [if_pos hown]
    rw [e1]
    have e2 : ∀ j, Block.granuleOwn { k with scratch := k.scratch.write o b } j = k.granuleOwn j := fun j => rfl
    rw [e2]
    dsimp only
    rw [Memory.read_write h]
    by_cases hj : j = o
    · subst hj; simp [hown]
    · simp [hj]
  · have e1 : k.scratchPut o b =
        { k with
          scratch := (k.scratch.writeBytes (o / 64 * 64) (List.replicate 64 0#8)).write o b
          scratchTags := AMap.set k.scratchTags (o / 64) (k.genAt o) } := by
      unfold Block.scratchPut; rw [if_neg hown]
    generalize hk : k.scratchPut o b = k' at *
    have hg : ∀ x, k'.genAt x = k.genAt x := by intro x; subst e1; rfl
    have hsc : k'.scratch.read j = if j = o then b else if o / 64 = j / 64 then 0#8 else k.scratch.read j := by
      subst e1
      dsimp only
      rw [Memory.read_write (Memory.wf_writeBytes h _ _), Memory.read_writeBytes h]
      by_cases hj : j = o
      · simp [hj]
      · rw [if_neg hj, if_neg hj]
        by_cases hq : o / 64 = j / 64
        · rw [if_pos hq, if_pos (by simp; omega)]
          rw [List.getD_eq_getElem?_getD, List.getElem?_replicate]
          split <;> rfl
        · rw [if_neg hq, if_neg (by simp; omega)]
    have hown' : k'.granuleOwn j = if o / 64 = j / 64 then true else k.granuleOwn j := by
      unfold Block.granuleOwn
      rw [hg]
      have ht : k'.scratchTags = AMap.set k.scratchTags (o / 64) (k.genAt o) := by subst e1; rfl
      rw [ht]
      unfold AMap.getD
      rw [AMap.get?_set]
      by_cases hq : o / 64 = j / 64
      · rw [if_pos hq.symm, if_pos hq]
        have : k.genAt o = k.genAt j := by unfold Block.genAt; rw [shareOf_granule k hq]
        simp [this]
      · rw [if_neg (Ne.symm hq), if_neg hq]
    rw [hsc, hown']
    by_cases hj : j = o
    · subst hj; simp
    · simp only [hj, if_false]
      by_cases hq : o / 64 = j / 64
      · simp only [hq, if_true]
        have : k.granuleOwn j = false := by
          rw [Bool.not_eq_true] at hown
          rw [← hown]
          unfold Block.granuleOwn Block.genAt
          rw [shareOf_granule k hq, hq]
        rw [this]; rfl
      · simp [hq]

theorem scratchWrite_read {k : Block} {o : Nat} {bs : List Byte} (h : Memory.wf k.scratch = true) (j : Nat) :
    (k.scratchWrite o bs).scratchRead j 1 = if o ≤ j ∧ j < o + bs.length then [bs.getD (j - o) 0#8] else k.scratchRead j 1 := by
  induction bs generalizing k o with
  | nil => simp [Block.scratchWrite]
  | cons b bs ih =>
    unfold Block.scratchWrite
    rw [ih (scratchPut_wf h), scratchPut_read h]
    simp only [List.length_cons]
    by_cases h1 : o + 1 ≤ j ∧ j < o + 1 + bs.length
    · rw [if_pos h1, if_pos ⟨by omega, by omega⟩, show j - o = (j - (o + 1)) + 1 by omega, List.getD_cons_succ]
    · rw [if_neg h1]
      by_cases h2 : j = o
      · subst h2; rw [if_pos rfl, if_pos ⟨le_refl _, by omega⟩]; simp
      · rw [if_neg h2, if_neg (by omega)]

theorem privAddr_inj {o t o' u : Nat} (ht : t < 16) (hu : u < 16) (h : privAddr o t = privAddr o' u) : o = o' ∧ t = u := by
  unfold privAddr at h; omega

theorem privFold {m : Memory} (hm : Memory.wf m = true) {t u o o' : Nat} (ht : t < 16) (hu : u < 16) (bs : List Byte) (n : Nat) :
    Memory.wf ((List.range n).foldl (fun m i => m.write (privAddr (o + i) t) (bs.getD i 0#8)) m) = true ∧
    ((List.range n).foldl (fun m i => m.write (privAddr (o + i) t) (bs.getD i 0#8)) m).read (privAddr o' u) =
      if u = t ∧ o ≤ o' ∧ o' < o + n then bs.getD (o' - o) 0#8 else m.read (privAddr o' u) := by
  induction n with
  | zero =>
    refine ⟨hm, ?_⟩
    rw [if_neg (by omega)]; rfl
  | succ n ih =>
    obtain ⟨h1, h2⟩ := ih
    rw [List.range_succ, List.foldl_append]
    simp only [List.foldl_cons, List.foldl_nil]
    refine ⟨Memory.wf_write h1 _ _, ?_⟩
    rw [Memory.read_write h1, h2]
    by_cases h : privAddr o' u = privAddr (o + n) t
    · obtain ⟨a, b⟩ := privAddr_inj hu ht h
      subst a b
      rw [if_pos rfl, if_pos ⟨rfl, by omega, by omega⟩, show o + n - o = n by omega]
    · rw [if_neg h]
      by_cases hc : u = t ∧ o ≤ o' ∧ o' < o + n
      · rw [if_pos hc, if_pos ⟨hc.1, hc.2.1, by omega⟩]
      · rw [if_neg hc, if_neg]
        rintro ⟨a, b, c⟩
        subst a
        have : o' = o + n := by
          by_contra hne
          exact hc ⟨rfl, b, by omega⟩
        subst this
        exact h rfl

end Sys2Proof.Machine
end

