-- ==== Sys2Proof/Laws/Loads.lean ====
section
/-! SUPPORT. Loads whose data has arrived, the bytes of stores, tiles and atomics (R363 to R365, R408 to R419). -/

namespace Sys2Proof.Machine
open Claim

theorem loadWords_len {w : BitVec 3} {bs : List Byte} (hw : w.toNat ≤ 6) (hl : bs.length = widthBytes w) (sg : Bool) :
    (loadWords sg bs).length = sizeRegs (widthBytes w) := by
  unfold loadWords
  dsimp only
  rw [hl]
  unfold sizeRegs
  split <;> simp

theorem loadWords_val {w : BitVec 3} {bs : List Byte} {v : Nat} (hw : w.toNat ≤ 6) (hl : bs.length = widthBytes w)
    (hv : Loaded (widthSigned w) bs v) {j : Nat} (hj : j < sizeRegs (widthBytes w)) :
    (loadWords (widthSigned w) bs).getD j 0#32 = BitVec.ofNat 32 (v / 2 ^ (32 * j)) := by
  have hlt := leNat_lt bs
  rw [hl] at hlt
  unfold loadWords
  dsimp only
  rw [hl]
  unfold sizeRegs at hj
  unfold Loaded at hv
  by_cases h4 : widthBytes w ≤ 4
  · rw [if_pos h4] at hj ⊢
    have : j = 0 := by omega
    subst this
    simp only [List.getD_cons_zero, Nat.mul_zero, pow_zero, Nat.div_one]
    by_cases hs : widthSigned w = true
    · rw [if_pos hs] at hv ⊢
      obtain ⟨h1, h2⟩ := hv
      rw [hl] at h2
      rw [sext_eq_val hlt, ← h2]
      rw [wrapN_eq h1]
      have := val_mod 32 true v
      have h3 : val 32 true v - v = -(v - val 32 true v) := by ring
      rw [h3]
      exact (dvd_neg).mpr this
    · rw [if_neg hs] at hv ⊢
      rw [hv]
  · rw [if_neg h4] at hj ⊢
    have hs : widthSigned w = false := by
      unfold widthBytes at h4
      unfold widthSigned
      have : w.toNat = 5 ∨ w.toNat = 6 := by
        have : w.toNat < 8 := w.isLt
        rcases (show w.toNat = 0 ∨ w.toNat = 1 ∨ w.toNat = 2 ∨ w.toNat = 3 ∨ w.toNat = 4 ∨ w.toNat = 5 ∨ w.toNat = 6 by omega) with h | h | h | h | h | h | h <;>
          first | (rw [h] at h4; norm_num at h4; done) | omega
      rcases this with h | h
      · have : w = 5#3 := BitVec.eq_of_toNat_eq h
        subst this; decide
      · have : w = 6#3 := BitVec.eq_of_toNat_eq h
        subst this; decide
    rw [hs] at hv
    simp only [Bool.false_eq_true, if_false] at hv
    rw [hv]
    simp [hj]

theorem loadResults_eq {sg : Bool} {n : Nat} {xs : List ThAcc} {B : Nat → List Byte} :
    loadResults sg n (xs.map fun x => (x, .ok (B x.t))) = xs.map fun x => (x.t, loadWords sg (B x.t)) := by
  unfold loadResults
  rw [List.map_map]; rfl

theorem firstDataFault_none {xs : List ThAcc} {B : Nat → List Byte} : firstDataFault (xs.map fun x => (x, .ok (B x.t))) = none := by
  induction xs with
  | nil => rfl
  | cons x xs ih => exact ih

theorem doomData_none {e : Env} {s : State} {xs : List ThAcc} {B : Nat → List Byte} :
    e.doomData s (xs.map fun x => (x, .ok (B x.t))) = s := by
  unfold Env.doomData
  induction xs generalizing s with
  | nil => rfl
  | cons x xs ih => exact ih

theorem filter_ok_none {xs : List ThAcc} {B : Nat → List Byte} (f : ThAcc × Except (BitVec 8) (List Byte) → Bool)
    (hf : ∀ x bs, f (x, .ok bs) = false) : (xs.map fun x => (x, (.ok (B x.t) : Except (BitVec 8) (List Byte)))).filter f = [] := by
  rw [List.filter_eq_nil_iff]
  intro p hp
  obtain ⟨x, _, rfl⟩ := List.mem_map.mp hp
  simp [hf]

/-- A load whose threads all reach memory and all have their data. -/
theorem loadFrom_ok {e : Env} {m : MemOp} {spec sg : Bool} {d : BitVec 8} {s s2 : State} {ts : List Nat} {A : Nat → Nat}
    {B : Nat → List Byte} (hf : e.wp.flagFull m.flag = false)
    (ha : spec = true → e.inTry = true → ∀ r, e.wp.region = some r → r.alias_.length < 16)
    (hr : Reaches e s .load m.size m.align ts A)
    (hh : s.anyHeld e.b m.size (accs e s .load m.size m.align ts A) = false)
    (hd : State.loadAll e m.acqScope m.size (accs e s .load m.size m.align ts A) s =
      ((accs e s .load m.size m.align ts A).map fun x => (x, .ok (B x.t)), s2))
    (hts : ts.Pairwise (· < ·)) :
    e.loadFrom m spec sg d (ts.map fun t => (t, A t)) s =
      e.landLoad (if spec && e.inTry then s2.updWarp e.b e.w (fun y => { y with region := y.region.map fun r =>
        { r with alias_ := r.alias_ ++ [ts.map fun t => (t, A t / 32)] } }) else s2) m d
        (accs e s .load m.size m.align ts A) (ts.map fun t => (t, loadWords sg (B t))) none sg := by
  have hsp := accs_spec hr
  have hre := fun x hx => (hsp x hx).1
  unfold Env.loadFrom
  rw [hf]
  simp only [Bool.false_eq_true, if_false]
  rw [if_neg]
  · simp only [reachAll_eq]
    generalize hxs : accs e s .load m.size m.align ts A = xs at *
    simp only [raisedFault_none hre, anyStall_false hre, hh, Bool.or_false, Bool.false_eq_true, if_false, filter_local hsp, hd]
    rw [filter_ok_none _ (fun _ _ => rfl)]
    have hnil : firstDataFault [] = none := rfl
    rw [hnil]
    dsimp only
    simp only [switchOut_none hre, doomFaults_none hre, doomData_none, firstDataFault_none, ite_self, filter_bad hsp, List.map_nil,
      List.append_nil, loadResults_eq, List.map_map]
    have hmap : xs.map (fun x => (x.t, loadWords sg (B x.t))) = ts.map fun t => (t, loadWords sg (B t)) := by
      rw [← hxs]; unfold accs; rw [List.map_map]; rfl
    rw [hmap, sort_sorted (by rw [List.map_map]; simpa [Function.comp_def] using hts)]
    rfl
  · intro hc
    simp only [Bool.and_eq_true] at hc
    obtain ⟨⟨h1, h2⟩, h3⟩ := hc
    cases hreg : e.wp.region with
    | none => rw [hreg] at h3; cases h3
    | some r =>
      rw [hreg] at h3
      have := ha h1 h2 r hreg
      simp only [decide_eq_true_eq] at h3
      omega

theorem loadSpec_run {i : Instr} {spec ordOk : Bool} {w : BitVec 3} {d a : BitVec 8} {f o : BitVec 4} {x : BitVec 32} {e : Env}
    {l : FetchLine} {s : State} (hwf : i.wf = true) (ho : ordOk = true) (hd : dstOk d (sizeRegs (widthBytes w)) = true)
    (ha : addrOk a = true) (hs : isS d = true → isS a = true) (hr : Room e (dstNames d (sizeRegs (widthBytes w))))
    (hid : e.idle = false) (hfeat : spec = true → s.feature e.blk.world 3 = true) :
    (loadSpec i.wf spec ordOk w d a f o x e).run e l s = e.load (widthOp w f o x) spec (widthSigned w) d a s l := by
  refine (LaneSpec.run_pass (s1 := s) ?_ ?_ rfl rfl (fun _ => rfl) (by intro h; cases h) rfl ?_).trans ?_
  · unfold LaneSpec.featOff loadSpec
    cases spec with
    | false => rfl
    | true => simp [hfeat rfl]
  · unfold loadSpec
    simp only [hwf, ho, hd, ha, Bool.and_true, Bool.true_and]
    by_cases h : isS d = true
    · simp [hs h]
    · simp [h]
  · rcases hr with h | h | h
    · exact .inl h
    · rw [h] at hid; cases hid
    · exact .inr (.inr h)
  · unfold loadSpec
    simp [hid]

theorem bufEntries_length (ws : List (ThAcc × List Byte)) (n : Nat) : (bufEntries ws n).length = (n + 7) / 8 := by
  simp [bufEntries]

theorem warp?_stored {s t : State} {e : Env} (h : StoreKeeps e.b e.w s t) (hb : s.block? e.b = some e.blk)
    (hw : AMap.get? e.blk.warps e.w = some e.wp) : ∃ x, t.warp? e.b e.w = some x := by
  obtain ⟨_, _, h3⟩ := h
  rw [hb] at h3
  obtain ⟨k', h4, _, h6⟩ := h3
  have := h6 e.w
  rw [hw] at this
  obtain ⟨x', h7, _⟩ := this
  exact ⟨x', warp?_of h4 h7⟩

theorem storeSpec_run {i : Instr} {w : BitVec 3} {d a : BitVec 8} {f o : BitVec 4} {x : BitVec 32} {e : Env}
    {l : FetchLine} {s : State} (hwf : i.wf = true) (hd : storeDataOk w d = true)
    (ha : addrOk a = true) (ho : xOrd x = 0 ∨ xOrd x = 2) (hid : e.idle = false) (ht : e.inTry = true → xOrd x ≠ 2) :
    (storeSpec i.wf w d a f o x e).run e l s = e.store (widthOp w f o x) d a s l := by
  refine (LaneSpec.run_pass (s1 := s) rfl ?_ rfl rfl ?_ (by intro h; cases h) rfl (.inl rfl)).trans ?_
  · unfold storeSpec
    simp only [hwf, hd, ha, Bool.and_true, Bool.true_and]
    rcases ho with h | h <;> simp [h]
  · intro h
    have := ht h
    unfold storeSpec
    simp [this]
  · unfold storeSpec
    simp [hid]

theorem opnd_reg {d : BitVec 8} (h : isV d = true ∨ isS d = true) : ∀ i, opnd d ≠ .imm i := by
  intro i
  unfold opnd
  simp only [isV, isS, decide_eq_true_eq] at h
  dsimp only
  rcases h with h | h
  · rw [if_pos h]; intro hc; cases hc
  · rw [if_neg (by omega), if_pos h.2]; intro hc; cases hc

theorem leNat_leBytes (n x : Nat) : leNat (leBytes n x) = x % 256 ^ n := by
  induction n generalizing x with
  | zero => simp [leBytes, leNat, Nat.mod_one]
  | succ n ih =>
    unfold leBytes leNat
    rw [ih, BitVec.toNat_ofNat, show (2 : Nat) ^ 8 = 256 by norm_num, pow_succ, Nat.mul_comm (256 ^ n), Nat.mod_mul]

theorem byteOf (ws : List Nat) (h : ∀ x ∈ ws, x < 2 ^ 32) (j : Nat) (hj : j < 4 * ws.length) :
    packElems 32 ws / 256 ^ j % 256 = ws.getD (j / 4) 0 / 256 ^ (j % 4) % 256 := by
  have hd := packElems_digit 32 ws (j / 4) (by omega)
  have hlt : ws.getD (j / 4) 0 < 2 ^ 32 := by
    rw [List.getD_eq_getElem _ _ (by omega)]
    exact h _ (List.getElem_mem _)
  rw [Nat.mod_eq_of_lt hlt] at hd
  rw [← hd]
  have e1 : (256 : Nat) ^ j = 2 ^ (j / 4 * 32) * 256 ^ (j % 4) := by
    rw [show (256 : Nat) = 2 ^ 8 by norm_num, ← pow_mul, ← pow_mul, ← pow_add]
    congr 1; omega
  rw [e1, ← Nat.div_div_eq_div_mul]
  generalize packElems 32 ws / 2 ^ (j / 4 * 32) = y
  have : j % 4 = 0 ∨ j % 4 = 1 ∨ j % 4 = 2 ∨ j % 4 = 3 := by omega
  rcases this with h | h | h | h <;> rw [h] <;> norm_num <;> omega

theorem flagFull_eq {x : Warp} {f g : Nat} (h : f = g) : x.flagFull f = x.flagFull g := by rw [h]

theorem tileAccs_eq {e : Env} {s : State} {col : Bool} {off : Nat}
    (h : ∀ t h, t ∈ e.act → h < 2 → s.scratchOutside e.blk (off + (if col then 128 else 4) * (2 * t + h)) 4 = false ∧
      s.scratchHeld e.b (off + (if col then 128 else 4) * (2 * t + h)) 4 = false) :
    e.tileAccs s col off = (e.act.map fun t => { t := t, a := scratchBase + tileOff col off t 0, r := .scratch (tileOff col off t 0) }) ∧
    e.tileHeld s col off (e.act.map fun t => { t := t, a := scratchBase + tileOff col off t 0, r := .scratch (tileOff col off t 0) }) = false := by
  constructor
  · unfold Env.tileAccs
    refine List.map_congr_left fun t ht => ?_
    have h0 := (h t 0 ht (by decide)).1
    have h1 := (h t 1 ht (by decide)).1
    have h0' : s.scratchOutside e.blk (tileOff col off t 0) 4 = false := h0
    have h1' : s.scratchOutside e.blk (tileOff col off t 1) 4 = false := h1
    simp only [h0', h1', Bool.or_false, Bool.false_and, Bool.false_eq_true, if_false]
  · unfold Env.tileHeld
    rw [List.any_eq_false]
    intro x hx
    obtain ⟨t, ht, rfl⟩ := List.mem_map.mp hx
    have h0 : s.scratchHeld e.b (tileOff col off t 0) 4 = false := (h t 0 ht (by decide)).2
    have h1 : s.scratchHeld e.b (tileOff col off t 1) 4 = false := (h t 1 ht (by decide)).2
    simp [h0, h1]

theorem atomicAll_congr {e : Env} {n : Nat} {f g : Nat → Nat → Nat} {xs : List ThAcc} (h : ∀ x, x ∈ xs → f x.t = g x.t) (s : State) :
    State.atomicAll e n f xs s = State.atomicAll e n g xs s := by
  induction xs generalizing s with
  | nil => rfl
  | cons x xs ih =>
    unfold State.atomicAll
    rw [h x (by simp)]
    have ih' := fun s => ih (fun y hy => h y (by simp [hy])) s
    simp only [ih']

theorem atomicAll_fst {e : Env} {n : Nat} {f : Nat → Nat → Nat} {xs : List ThAcc} {s s2 : State} {olds : List (Nat × Nat)}
    (h : State.atomicAll e n f xs s = (.ok olds, s2)) : olds.map Prod.fst = xs.map ThAcc.t := by
  induction xs generalizing s olds s2 with
  | nil => unfold State.atomicAll at h; simp only [Prod.mk.injEq, Except.ok.injEq] at h; rw [← h.1]; rfl
  | cons x xs ih =>
    unfold State.atomicAll at h
    split at h
    · simp at h
    · split at h
      · simp at h
      · rename_i hx
        simp only [Prod.mk.injEq, Except.ok.injEq] at h
        rw [← h.1]
        simp [ih hx]

theorem valOf {ts : List Nat} {B : Nat → Nat} {t : Nat} (h : t ∈ ts) :
    (((ts.map fun t => (t, B t)).find? fun p => p.1 == t).map Prod.snd).getD 0 = B t := by
  induction ts with
  | nil => cases h
  | cons u ts ih =>
    rw [List.map_cons, List.find?_cons]
    by_cases hu : u = t
    · subst hu; simp
    · have : t ∈ ts := by simpa [Ne.symm hu] using h
      have hu' : ((u, B u).1 == t) = false := by simp [hu]
      rw [hu']
      exact ih this

theorem onceIf_sorted (e : Env) (c : Bool) : (e.onceIf c).Pairwise (· < ·) := by
  unfold Env.onceIf
  split
  · exact (act_sorted e).sublist (List.take_sublist _ _)
  · exact act_sorted e

theorem sext_val (w : Nat) (hw : w = 32 ∨ w = 64) (x : Nat) (hx : x < 2 ^ w) : sext w x = val w true x := by
  unfold sext val
  rcases hw with rfl | rfl <;> simp <;> split <;> split <;> omega

end Sys2Proof.Machine
end

