-- ==== Sys2Proof/Laws/PerInstr.lean ====
section
/-! SUPPORT. For every instruction: the encoder gives words to exactly the instructions of a set, one or two of them, and
the length that the fetch reads from a lane word (R332) is the number of words encoded. -/

namespace Sys2Proof.Laws

/-- The words of an encoding: none for a step of the device; as many as its first word says. -/
def Encoding.Statement (i : Instr) : Prop :=
  match encode i with
  | none => i.set = none
  | some ws => i.set ≠ none ∧ (i.wf = true → ws.length = if i.set = some .lane then Machine.laneLen (ws.headD 0#32) else 1)

theorem byte_ff {n : BitVec 8} : (n.toNat == 255) = (n == 0xff#8) := by
  by_cases h : n = 0xff#8
  · subst h; rfl
  · have : n.toNat ≠ 255 := fun h' => h (BitVec.eq_of_toNat_eq h')
    simp [h, this]

/-- An instruction with a literal word where field `a` or field `b` is 0xff. -/
theorem Encoding.g3 {w : W32} {op : Nat} {a b : BitVec 8} {lit : W32} {p q : Bool}
    (ho : w.toNat / 2 ^ 24 = op) (ha : w.toNat / 2 ^ 8 % 2 ^ 8 = a.toNat) (hb : w.toNat % 2 ^ 8 = b.toNat)
    (h : Machine.lenOf op a.toNat b.toNat = if (p && a.toNat == 255) || (q && b.toNat == 255) then 2 else 1) :
    (w :: if (p && a == 0xff#8) || (q && b == 0xff#8) then [lit] else []).length = Machine.laneLen w := by
  rw [Machine.laneLen_eq ho ha hb, h, byte_ff, byte_ff]
  split <;> rfl

theorem Encoding.fixed {w : W32} {op a b n : Nat} {ws : List W32} (ho : w.toNat / 2 ^ 24 = op)
    (ha : w.toNat / 2 ^ 8 % 2 ^ 8 = a) (hb : w.toNat % 2 ^ 8 = b) (h : Machine.lenOf op a b = n)
    (hl : (w :: ws).length = n) : (w :: ws).length = Machine.laneLen w := by
  rw [Machine.laneLen_eq ho ha hb, h, hl]

theorem Encoding.powerOn : Encoding.Statement .powerOn := rfl
theorem Encoding.powerMeasurement : Encoding.Statement .powerMeasurement := rfl
theorem Encoding.demandRead : Encoding.Statement .demandRead := rfl
theorem Encoding.demandWrite : Encoding.Statement .demandWrite := rfl
theorem Encoding.partialWriteMerge : Encoding.Statement .partialWriteMerge := rfl
theorem Encoding.heddleRunDone : Encoding.Statement .heddleRunDone := rfl
theorem Encoding.portWaitBound : Encoding.Statement .portWaitBound := rfl
theorem Encoding.blockTransferDone : Encoding.Statement .blockTransferDone := rfl
theorem Encoding.patrolScrub : Encoding.Statement .patrolScrub := rfl
theorem Encoding.sweepIntervalExpiry : Encoding.Statement .sweepIntervalExpiry := rfl
theorem Encoding.sweepStart : Encoding.Statement .sweepStart := rfl
theorem Encoding.sweepBlock : Encoding.Statement .sweepBlock := rfl
theorem Encoding.pageMigration : Encoding.Statement .pageMigration := rfl
theorem Encoding.sealOut : Encoding.Statement .sealOut := rfl
theorem Encoding.linkDown : Encoding.Statement .linkDown := rfl
theorem Encoding.linkRetrain : Encoding.Statement .linkRetrain := rfl
theorem Encoding.frameReceive : Encoding.Statement .frameReceive := rfl
theorem Encoding.frameCountLimit : Encoding.Statement .frameCountLimit := rfl
theorem Encoding.remoteRequest : Encoding.Statement .remoteRequest := rfl
theorem Encoding.remoteAnswer : Encoding.Statement .remoteAnswer := rfl
theorem Encoding.crossDomainMessage : Encoding.Statement .crossDomainMessage := rfl
theorem Encoding.collectiveComplete : Encoding.Statement .collectiveComplete := rfl
theorem Encoding.collectiveLinkTimeout : Encoding.Statement .collectiveLinkTimeout := rfl
theorem Encoding.hostMemoryRead : Encoding.Statement .hostMemoryRead := rfl
theorem Encoding.hostMemoryWrite : Encoding.Statement .hostMemoryWrite := rfl
theorem Encoding.registerWrite : Encoding.Statement .registerWrite := rfl
theorem Encoding.configWrite : Encoding.Statement .configWrite := rfl
theorem Encoding.ideStreamFailure : Encoding.Statement .ideStreamFailure := rfl
theorem Encoding.keyStoreError : Encoding.Statement .keyStoreError := rfl
theorem Encoding.lockInterfaceRequest : Encoding.Statement .lockInterfaceRequest := rfl
theorem Encoding.startInterfaceRequest : Encoding.Statement .startInterfaceRequest := rfl
theorem Encoding.stopInterfaceRequest : Encoding.Statement .stopInterfaceRequest := rfl
theorem Encoding.getDeviceInterfaceReport : Encoding.Statement .getDeviceInterfaceReport := rfl
theorem Encoding.getVersion : Encoding.Statement .getVersion := rfl
theorem Encoding.getCapabilities : Encoding.Statement .getCapabilities := rfl
theorem Encoding.negotiateAlgorithms : Encoding.Statement .negotiateAlgorithms := rfl
theorem Encoding.getDigests : Encoding.Statement .getDigests := rfl
theorem Encoding.getCertificate : Encoding.Statement .getCertificate := rfl
theorem Encoding.challenge : Encoding.Statement .challenge := rfl
theorem Encoding.getMeasurements : Encoding.Statement .getMeasurements := rfl
theorem Encoding.keyExchange : Encoding.Statement .keyExchange := rfl
theorem Encoding.finish : Encoding.Statement .finish := rfl
theorem Encoding.keyUpdate : Encoding.Statement .keyUpdate := rfl
theorem Encoding.heartbeat : Encoding.Statement .heartbeat := rfl
theorem Encoding.endSession : Encoding.Statement .endSession := rfl
theorem Encoding.ideKm : Encoding.Statement .ideKm := rfl
theorem Encoding.policyPresent : Encoding.Statement .policyPresent := rfl
theorem Encoding.resync : Encoding.Statement .resync := rfl
theorem Encoding.enable : Encoding.Statement .enable := rfl
theorem Encoding.disable : Encoding.Statement .disable := rfl
theorem Encoding.actionResume : Encoding.Statement .actionResume := rfl
theorem Encoding.actionTerminate : Encoding.Statement .actionTerminate := rfl
theorem Encoding.crtailWrite : Encoding.Statement .crtailWrite := rfl
theorem Encoding.createWorld : Encoding.Statement .createWorld := rfl
theorem Encoding.bindQuarters : Encoding.Statement .bindQuarters := rfl
theorem Encoding.bindMemory : Encoding.Statement .bindMemory := rfl
theorem Encoding.createContext : Encoding.Statement .createContext := rfl
theorem Encoding.setLimits : Encoding.Statement .setLimits := rfl
theorem Encoding.setDevice : Encoding.Statement .setDevice := rfl
theorem Encoding.migrateOut : Encoding.Statement .migrateOut := rfl
theorem Encoding.migrateIn : Encoding.Statement .migrateIn := rfl
theorem Encoding.destroyWorld : Encoding.Statement .destroyWorld := rfl
theorem Encoding.setError : Encoding.Statement .setError := rfl
theorem Encoding.mcCompletion : Encoding.Statement .mcCompletion := rfl
theorem Encoding.quiesceLimitExpiry : Encoding.Statement .quiesceLimitExpiry := rfl
theorem Encoding.freezePoint : Encoding.Statement .freezePoint := rfl
theorem Encoding.clauseRound : Encoding.Statement .clauseRound := rfl
theorem Encoding.barrier : Encoding.Statement .barrier := rfl
theorem Encoding.signalAdd : Encoding.Statement .signalAdd := rfl
theorem Encoding.signalSet : Encoding.Statement .signalSet := rfl
theorem Encoding.phaseOpen : Encoding.Statement .phaseOpen := rfl
theorem Encoding.phaseClose : Encoding.Statement .phaseClose := rfl
theorem Encoding.cancelPhase : Encoding.Statement .cancelPhase := rfl
theorem Encoding.cancelJob : Encoding.Statement .cancelJob := rfl
theorem Encoding.launch : Encoding.Statement .launch := rfl
theorem Encoding.graph : Encoding.Statement .graph := rfl
theorem Encoding.copy : Encoding.Statement .copy := rfl
theorem Encoding.bounceIn : Encoding.Statement .bounceIn := rfl
theorem Encoding.bounceOut : Encoding.Statement .bounceOut := rfl
theorem Encoding.bindWrite : Encoding.Statement .bindWrite := rfl
theorem Encoding.bindSweep : Encoding.Statement .bindSweep := rfl
theorem Encoding.loadPair : Encoding.Statement .loadPair := rfl
theorem Encoding.unloadPair : Encoding.Statement .unloadPair := rfl
theorem Encoding.timestamp : Encoding.Statement .timestamp := rfl
theorem Encoding.writePacket : Encoding.Statement .writePacket := rfl
theorem Encoding.nopPacket : Encoding.Statement .nopPacket := rfl
theorem Encoding.packetCompletion : Encoding.Statement .packetCompletion := rfl
theorem Encoding.clauseEngineError : Encoding.Statement .clauseEngineError := rfl
theorem Encoding.clauseEngineRestart : Encoding.Statement .clauseEngineRestart := rfl
theorem Encoding.clauseSelfCheckFail : Encoding.Statement .clauseSelfCheckFail := rfl
theorem Encoding.queueLost : Encoding.Statement .queueLost := rfl
theorem Encoding.blockPlace : Encoding.Statement .blockPlace := rfl
theorem Encoding.placementReservation : Encoding.Statement .placementReservation := rfl
theorem Encoding.blockEnd : Encoding.Statement .blockEnd := rfl
theorem Encoding.quarterHandover : Encoding.Statement .quarterHandover := rfl
theorem Encoding.shareEpoch : Encoding.Statement .shareEpoch := rfl
theorem Encoding.drainLimitExpiry : Encoding.Statement .drainLimitExpiry := rfl
theorem Encoding.nodeTimerExpiry : Encoding.Statement .nodeTimerExpiry := rfl
theorem Encoding.loadDataArrival : Encoding.Statement .loadDataArrival := rfl
theorem Encoding.quotaGrant : Encoding.Statement .quotaGrant := rfl
theorem Encoding.joinRelease : Encoding.Statement .joinRelease := rfl
theorem Encoding.generationScrub : Encoding.Statement .generationScrub := rfl
theorem Encoding.copyPieceLand : Encoding.Statement .copyPieceLand := rfl
theorem Encoding.copyComplete : Encoding.Statement .copyComplete := rfl
theorem Encoding.faultServiceDone : Encoding.Statement .faultServiceDone := rfl
theorem Encoding.stallLimitExpiry : Encoding.Statement .stallLimitExpiry := rfl
theorem Encoding.translationWalk : Encoding.Statement .translationWalk := rfl
theorem Encoding.forcedSave : Encoding.Statement .forcedSave := rfl
theorem Encoding.saveComplete : Encoding.Statement .saveComplete := rfl
theorem Encoding.blockResume : Encoding.Statement .blockResume := rfl
theorem Encoding.mmaComplete : Encoding.Statement .mmaComplete := rfl
theorem Encoding.tnop : Encoding.Statement .tnop := by
  exact ⟨Option.some_ne_none _, fun _ => rfl⟩
theorem Encoding.tli (d : BitVec 4) (i : BitVec 14) : Encoding.Statement (.tli d i) := by
  exact ⟨Option.some_ne_none _, fun _ => rfl⟩
theorem Encoding.tmov (d : BitVec 4) (a : BitVec 4) : Encoding.Statement (.tmov d a) := by
  exact ⟨Option.some_ne_none _, fun _ => rfl⟩
theorem Encoding.tmovSel (d : BitVec 4) (s : BitVec 4) : Encoding.Statement (.tmovSel d s) := by
  exact ⟨Option.some_ne_none _, fun _ => rfl⟩
theorem Encoding.tadd (d : BitVec 4) (a : BitVec 4) (b : BitVec 4) (c : BitVec 1) (i : BitVec 13) : Encoding.Statement (.tadd d a b c i) := by
  exact ⟨Option.some_ne_none _, fun _ => rfl⟩
theorem Encoding.tsub (d : BitVec 4) (a : BitVec 4) (b : BitVec 4) (c : BitVec 1) (i : BitVec 13) : Encoding.Statement (.tsub d a b c i) := by
  exact ⟨Option.some_ne_none _, fun _ => rfl⟩
theorem Encoding.tand (d : BitVec 4) (a : BitVec 4) (b : BitVec 4) (c : BitVec 1) (i : BitVec 13) : Encoding.Statement (.tand d a b c i) := by
  exact ⟨Option.some_ne_none _, fun _ => rfl⟩
theorem Encoding.tor (d : BitVec 4) (a : BitVec 4) (b : BitVec 4) (c : BitVec 1) (i : BitVec 13) : Encoding.Statement (.tor d a b c i) := by
  exact ⟨Option.some_ne_none _, fun _ => rfl⟩
theorem Encoding.txor (d : BitVec 4) (a : BitVec 4) (b : BitVec 4) (c : BitVec 1) (i : BitVec 13) : Encoding.Statement (.txor d a b c i) := by
  exact ⟨Option.some_ne_none _, fun _ => rfl⟩
theorem Encoding.tshl (d : BitVec 4) (a : BitVec 4) (b : BitVec 4) (c : BitVec 1) (i : BitVec 13) : Encoding.Statement (.tshl d a b c i) := by
  exact ⟨Option.some_ne_none _, fun _ => rfl⟩
theorem Encoding.tshr (d : BitVec 4) (a : BitVec 4) (b : BitVec 4) (c : BitVec 1) (i : BitVec 13) : Encoding.Statement (.tshr d a b c i) := by
  exact ⟨Option.some_ne_none _, fun _ => rfl⟩
theorem Encoding.tcmp (k : BitVec 4) (a : BitVec 4) (b : BitVec 4) (c : BitVec 1) (i : BitVec 13) : Encoding.Statement (.tcmp k a b c i) := by
  exact ⟨Option.some_ne_none _, fun _ => rfl⟩
theorem Encoding.tbr (t : BitVec 8) : Encoding.Statement (.tbr t) := by
  exact ⟨Option.some_ne_none _, fun _ => rfl⟩
theorem Encoding.tbrC (t : BitVec 8) : Encoding.Statement (.tbrC t) := by
  exact ⟨Option.some_ne_none _, fun _ => rfl⟩
theorem Encoding.tbrNc (t : BitVec 8) : Encoding.Statement (.tbrNc t) := by
  exact ⟨Option.some_ne_none _, fun _ => rfl⟩
theorem Encoding.tloop (k : BitVec 1) (h : BitVec 4) (n : BitVec 4) (e : BitVec 8) : Encoding.Statement (.tloop k h n e) := by
  exact ⟨Option.some_ne_none _, fun _ => rfl⟩
theorem Encoding.tloopReg (k : BitVec 1) (a : BitVec 4) (h : BitVec 4) (n : BitVec 4) (e : BitVec 8) : Encoding.Statement (.tloopReg k a h n e) := by
  exact ⟨Option.some_ne_none _, fun _ => rfl⟩
theorem Encoding.tget (d : BitVec 4) (b : BitVec 4) (c : BitVec 1) (i : BitVec 13) : Encoding.Statement (.tget d b c i) := by
  exact ⟨Option.some_ne_none _, fun _ => rfl⟩
theorem Encoding.tpeek (d : BitVec 4) (b : BitVec 4) (c : BitVec 1) (i : BitVec 13) : Encoding.Statement (.tpeek d b c i) := by
  exact ⟨Option.some_ne_none _, fun _ => rfl⟩
theorem Encoding.tout (a : BitVec 4) (b : BitVec 4) (c : BitVec 1) (i : BitVec 13) : Encoding.Statement (.tout a b c i) := by
  exact ⟨Option.some_ne_none _, fun _ => rfl⟩
theorem Encoding.tcopy (b : BitVec 4) (c : BitVec 1) (i : BitVec 13) : Encoding.Statement (.tcopy b c i) := by
  exact ⟨Option.some_ne_none _, fun _ => rfl⟩
theorem Encoding.tfill (a : BitVec 4) (b : BitVec 4) (c : BitVec 1) (i : BitVec 13) : Encoding.Statement (.tfill a b c i) := by
  exact ⟨Option.some_ne_none _, fun _ => rfl⟩
theorem Encoding.ttab (d : BitVec 4) (a : BitVec 4) (b : BitVec 8) : Encoding.Statement (.ttab d a b) := by
  exact ⟨Option.some_ne_none _, fun _ => rfl⟩
theorem Encoding.tvld (d : BitVec 4) (a : BitVec 4) (l : BitVec 4) (b : BitVec 9) : Encoding.Statement (.tvld d a l b) := by
  exact ⟨Option.some_ne_none _, fun _ => rfl⟩
theorem Encoding.tvle (d : BitVec 4) (a : BitVec 4) (b : BitVec 9) : Encoding.Statement (.tvle d a b) := by
  exact ⟨Option.some_ne_none _, fun _ => rfl⟩
theorem Encoding.tskip (b : BitVec 4) (c : BitVec 1) (i : BitVec 13) : Encoding.Statement (.tskip b c i) := by
  exact ⟨Option.some_ne_none _, fun _ => rfl⟩
theorem Encoding.talignI (k : BitVec 14) : Encoding.Statement (.talignI k) := by
  exact ⟨Option.some_ne_none _, fun _ => rfl⟩
theorem Encoding.talignO (k : BitVec 14) : Encoding.Statement (.talignO k) := by
  exact ⟨Option.some_ne_none _, fun _ => rfl⟩
theorem Encoding.tcnt (d : BitVec 4) (a : BitVec 4) (m : BitVec 4) (l : BitVec 9) : Encoding.Statement (.tcnt d a m l) := by
  exact ⟨Option.some_ne_none _, fun _ => rfl⟩
theorem Encoding.tend : Encoding.Statement .tend := by
  exact ⟨Option.some_ne_none _, fun _ => rfl⟩
theorem Encoding.tfail : Encoding.Statement .tfail := by
  exact ⟨Option.some_ne_none _, fun _ => rfl⟩
theorem Encoding.mma (f : BitVec 2) (g : BitVec 1) (c : BitVec 1) (q : BitVec 2) (a : BitVec 4) (s : BitVec 4) (b : BitVec 4) (t : BitVec 4) : Encoding.Statement (.mma f g c q a s b t) := by
  exact ⟨Option.some_ne_none _, fun _ => rfl⟩
theorem Encoding.scaccV (q : BitVec 2) (h : BitVec 4) (r : BitVec 4) (c : BitVec 4) : Encoding.Statement (.scaccV q h r c) := by
  exact ⟨Option.some_ne_none _, fun _ => rfl⟩
theorem Encoding.scaccU (q : BitVec 2) (h : BitVec 4) (r : BitVec 4) (c : BitVec 4) : Encoding.Statement (.scaccU q h r c) := by
  exact ⟨Option.some_ne_none _, fun _ => rfl⟩
theorem Encoding.accLd (h : BitVec 4) (a : BitVec 4) (s : BitVec 4) (e : BitVec 4) : Encoding.Statement (.accLd h a s e) := by
  exact ⟨Option.some_ne_none _, fun _ => rfl⟩
theorem Encoding.accSt (t : BitVec 2) (m : BitVec 2) (h : BitVec 4) (a : BitVec 4) (s : BitVec 4) : Encoding.Statement (.accSt t m h a s) := by
  exact ⟨Option.some_ne_none _, fun _ => rfl⟩
theorem Encoding.accZero (h : BitVec 4) : Encoding.Statement (.accZero h) := by
  exact ⟨Option.some_ne_none _, fun _ => rfl⟩
theorem Encoding.accRel (h : BitVec 4) : Encoding.Statement (.accRel h) := by
  exact ⟨Option.some_ne_none _, fun _ => rfl⟩
theorem Encoding.wshedArrive (n : BitVec 4) : Encoding.Statement (.wshedArrive n) := by
  exact ⟨Option.some_ne_none _, fun _ => rfl⟩
theorem Encoding.wshedWait (n : BitVec 4) : Encoding.Statement (.wshedWait n) := by
  exact ⟨Option.some_ne_none _, fun _ => rfl⟩
theorem Encoding.wbobAwait (n : BitVec 3) : Encoding.Statement (.wbobAwait n) := by
  exact ⟨Option.some_ne_none _, fun _ => rfl⟩
theorem Encoding.wbobRel (n : BitVec 3) : Encoding.Statement (.wbobRel n) := by
  exact ⟨Option.some_ne_none _, fun _ => rfl⟩
theorem Encoding.xaddImm (d : BitVec 4) (a : BitVec 4) (i : BitVec 18) : Encoding.Statement (.xaddImm d a i) := by
  exact ⟨Option.some_ne_none _, fun _ => rfl⟩
theorem Encoding.xaddShift (d : BitVec 4) (a : BitVec 4) (b : BitVec 4) (s : BitVec 4) : Encoding.Statement (.xaddShift d a b s) := by
  exact ⟨Option.some_ne_none _, fun _ => rfl⟩
theorem Encoding.wloop (k : BitVec 3) (n : BitVec 12) (d : BitVec 10) : Encoding.Statement (.wloop k n d) := by
  exact ⟨Option.some_ne_none _, fun _ => rfl⟩
theorem Encoding.wloopReg (k : BitVec 3) (x : BitVec 4) (d : BitVec 10) : Encoding.Statement (.wloopReg k x d) := by
  exact ⟨Option.some_ne_none _, fun _ => rfl⟩
theorem Encoding.wjump (o : BitVec 26) : Encoding.Statement (.wjump o) := by
  exact ⟨Option.some_ne_none _, fun _ => rfl⟩
theorem Encoding.wend : Encoding.Statement .wend := by
  exact ⟨Option.some_ne_none _, fun _ => rfl⟩
theorem Encoding.nop : Encoding.Statement .nop := by
  refine ⟨Option.some_ne_none _, fun _ => ?_⟩
  exact Encoding.fixed (w := 0x0#32) (ws := []) (op := 0) (n := 1) (by decide) rfl rfl rfl rfl
theorem Encoding.br (o : BitVec 20) : Encoding.Statement (.br o) := by
  refine ⟨Option.some_ne_none _, fun _ => ?_⟩
  exact Encoding.fixed (w := 0x10#12 ++ o) (ws := []) (op := 1) (n := 1) (by simp only [append_toNat, BitVec.toNat_ofNat]; have := o.isLt; omega) rfl rfl rfl rfl
theorem Encoding.brp (n : BitVec 1) (p : BitVec 3) (o : BitVec 20) : Encoding.Statement (.brp n p o) := by
  refine ⟨Option.some_ne_none _, fun _ => ?_⟩
  exact Encoding.fixed (w := 0x2#8 ++ n ++ p ++ o) (ws := []) (op := 2) (n := 1) (by simp only [append_toNat, BitVec.toNat_ofNat]; have := n.isLt; have := p.isLt; have := o.isLt; omega) rfl rfl rfl rfl
theorem Encoding.bru (s : BitVec 6) (o : BitVec 18) : Encoding.Statement (.bru s o) := by
  refine ⟨Option.some_ne_none _, fun _ => ?_⟩
  exact Encoding.fixed (w := 0x3#8 ++ s ++ o) (ws := []) (op := 3) (n := 1) (by simp only [append_toNat, BitVec.toNat_ofNat]; have := s.isLt; have := o.isLt; omega) rfl rfl rfl rfl
theorem Encoding.call (d : BitVec 8) (o : BitVec 16) : Encoding.Statement (.call d o) := by
  refine ⟨Option.some_ne_none _, fun _ => ?_⟩
  exact Encoding.fixed (w := 0x4#8 ++ d ++ o) (ws := []) (op := 4) (n := 1) (by simp only [append_toNat, BitVec.toNat_ofNat]; have := d.isLt; have := o.isLt; omega) rfl rfl rfl rfl
theorem Encoding.callReg (d : BitVec 8) (a : BitVec 8) (lit : BitVec 32) : Encoding.Statement (.callReg d a lit) := by
  refine ⟨Option.some_ne_none _, fun _ => ?_⟩
  have h := Encoding.g3 (w := 0x5#8 ++ d ++ a ++ 0x0#8) (op := 5) (a := a) (b := 0x0#8) (lit := lit) (p := true) (q := false)
    (by simp only [append_toNat, BitVec.toNat_ofNat]; have := d.isLt; have := a.isLt; have := lit.isLt; omega)
    (by simp only [append_toNat, BitVec.toNat_ofNat]; have := d.isLt; have := a.isLt; have := lit.isLt; omega)
    (by simp only [append_toNat, BitVec.toNat_ofNat]; have := d.isLt; have := a.isLt; have := lit.isLt; omega)
    rfl
  simp only [Bool.true_and, Bool.false_and, Bool.or_false] at h
  exact h
theorem Encoding.ret (a : BitVec 8) (lit : BitVec 32) : Encoding.Statement (.ret a lit) := by
  refine ⟨Option.some_ne_none _, fun _ => ?_⟩
  have h := Encoding.g3 (w := 0x600#16 ++ a ++ 0x0#8) (op := 6) (a := a) (b := 0x0#8) (lit := lit) (p := true) (q := false)
    (by simp only [append_toNat, BitVec.toNat_ofNat]; have := a.isLt; have := lit.isLt; omega)
    (by simp only [append_toNat, BitVec.toNat_ofNat]; have := a.isLt; have := lit.isLt; omega)
    (by simp only [append_toNat, BitVec.toNat_ofNat]; have := a.isLt; have := lit.isLt; omega)
    rfl
  simp only [Bool.true_and, Bool.false_and, Bool.or_false] at h
  exact h
theorem Encoding.jmpi (a : BitVec 8) (lit : BitVec 32) : Encoding.Statement (.jmpi a lit) := by
  refine ⟨Option.some_ne_none _, fun _ => ?_⟩
  have h := Encoding.g3 (w := 0x700#16 ++ a ++ 0x0#8) (op := 7) (a := a) (b := 0x0#8) (lit := lit) (p := true) (q := false)
    (by simp only [append_toNat, BitVec.toNat_ofNat]; have := a.isLt; have := lit.isLt; omega)
    (by simp only [append_toNat, BitVec.toNat_ofNat]; have := a.isLt; have := lit.isLt; omega)
    (by simp only [append_toNat, BitVec.toNat_ofNat]; have := a.isLt; have := lit.isLt; omega)
    rfl
  simp only [Bool.true_and, Bool.false_and, Bool.or_false] at h
  exact h
theorem Encoding.exit : Encoding.Statement .exit := by
  refine ⟨Option.some_ne_none _, fun _ => ?_⟩
  exact Encoding.fixed (w := 0x8000000#32) (ws := []) (op := 8) (n := 1) (by decide) rfl rfl rfl rfl
theorem Encoding.yield : Encoding.Statement .yield := by
  refine ⟨Option.some_ne_none _, fun _ => ?_⟩
  exact Encoding.fixed (w := 0x9000000#32) (ws := []) (op := 9) (n := 1) (by decide) rfl rfl rfl rfl
theorem Encoding.waitf (f : BitVec 8) : Encoding.Statement (.waitf f) := by
  refine ⟨Option.some_ne_none _, fun _ => ?_⟩
  exact Encoding.fixed (w := 0xa0000#24 ++ f) (ws := []) (op := 10) (n := 1) (by simp only [append_toNat, BitVec.toNat_ofNat]; have := f.isLt; omega) rfl rfl rfl rfl
theorem Encoding.waitfJoin : Encoding.Statement .waitfJoin := by
  refine ⟨Option.some_ne_none _, fun _ => ?_⟩
  exact Encoding.fixed (w := 0xa000010#32) (ws := []) (op := 10) (n := 1) (by decide) rfl rfl rfl rfl
theorem Encoding.mood (a : BitVec 8) (lit : BitVec 32) : Encoding.Statement (.mood a lit) := by
  refine ⟨Option.some_ne_none _, fun _ => ?_⟩
  have h := Encoding.g3 (w := 0xb00#16 ++ a ++ 0x0#8) (op := 11) (a := a) (b := 0x0#8) (lit := lit) (p := true) (q := false)
    (by simp only [append_toNat, BitVec.toNat_ofNat]; have := a.isLt; have := lit.isLt; omega)
    (by simp only [append_toNat, BitVec.toNat_ofNat]; have := a.isLt; have := lit.isLt; omega)
    (by simp only [append_toNat, BitVec.toNat_ofNat]; have := a.isLt; have := lit.isLt; omega)
    rfl
  simp only [Bool.true_and, Bool.false_and, Bool.or_false] at h
  exact h
theorem Encoding.moodG (p : BitVec 8) (n : BitVec 8) (lit : BitVec 32) : Encoding.Statement (.moodG p n lit) := by
  refine ⟨Option.some_ne_none _, fun _ => ?_⟩
  have h := Encoding.g3 (w := 0xc00#16 ++ p ++ n) (op := 12) (a := p) (b := n) (lit := lit) (p := true) (q := false)
    (by simp only [append_toNat, BitVec.toNat_ofNat]; have := p.isLt; have := n.isLt; have := lit.isLt; omega)
    (by simp only [append_toNat, BitVec.toNat_ofNat]; have := p.isLt; have := n.isLt; have := lit.isLt; omega)
    (by simp only [append_toNat, BitVec.toNat_ofNat]; have := p.isLt; have := n.isLt; have := lit.isLt; omega)
    rfl
  simp only [Bool.true_and, Bool.false_and, Bool.or_false] at h
  exact h
theorem Encoding.sread (d : BitVec 8) (s : BitVec 8) : Encoding.Statement (.sread d s) := by
  refine ⟨Option.some_ne_none _, fun _ => ?_⟩
  exact Encoding.fixed (w := 0xd#8 ++ d ++ s ++ 0x0#8) (ws := []) (op := 13) (n := 1) (by simp only [append_toNat, BitVec.toNat_ofNat]; have := d.isLt; have := s.isLt; omega) rfl rfl rfl rfl
theorem Encoding.vote (d : BitVec 8) (p : BitVec 8) (lit : BitVec 32) : Encoding.Statement (.vote d p lit) := by
  refine ⟨Option.some_ne_none _, fun _ => ?_⟩
  have h := Encoding.g3 (w := 0xe#8 ++ d ++ p ++ 0x0#8) (op := 14) (a := p) (b := 0x0#8) (lit := lit) (p := true) (q := false)
    (by simp only [append_toNat, BitVec.toNat_ofNat]; have := d.isLt; have := p.isLt; have := lit.isLt; omega)
    (by simp only [append_toNat, BitVec.toNat_ofNat]; have := d.isLt; have := p.isLt; have := lit.isLt; omega)
    (by simp only [append_toNat, BitVec.toNat_ofNat]; have := d.isLt; have := p.isLt; have := lit.isLt; omega)
    rfl
  simp only [Bool.true_and, Bool.false_and, Bool.or_false] at h
  exact h
theorem Encoding.shfl (d : BitVec 8) (a : BitVec 8) (b : BitVec 8) (lit : BitVec 32) : Encoding.Statement (.shfl d a b lit) := by
  refine ⟨Option.some_ne_none _, fun _ => ?_⟩
  have h := Encoding.g3 (w := 0xf#8 ++ d ++ a ++ b) (op := 15) (a := a) (b := b) (lit := lit) (p := true) (q := true)
    (by simp only [append_toNat, BitVec.toNat_ofNat]; have := d.isLt; have := a.isLt; have := b.isLt; have := lit.isLt; omega)
    (by simp only [append_toNat, BitVec.toNat_ofNat]; have := d.isLt; have := a.isLt; have := b.isLt; have := lit.isLt; omega)
    (by simp only [append_toNat, BitVec.toNat_ofNat]; have := d.isLt; have := a.isLt; have := b.isLt; have := lit.isLt; omega)
    rfl
  simp only [Bool.true_and] at h
  exact h
theorem Encoding.wred (d : BitVec 8) (a : BitVec 8) (b : BitVec 8) (lit : BitVec 32) : Encoding.Statement (.wred d a b lit) := by
  refine ⟨Option.some_ne_none _, fun _ => ?_⟩
  have h := Encoding.g3 (w := 0x10#8 ++ d ++ a ++ b) (op := 16) (a := a) (b := b) (lit := lit) (p := true) (q := true)
    (by simp only [append_toNat, BitVec.toNat_ofNat]; have := d.isLt; have := a.isLt; have := b.isLt; have := lit.isLt; omega)
    (by simp only [append_toNat, BitVec.toNat_ofNat]; have := d.isLt; have := a.isLt; have := b.isLt; have := lit.isLt; omega)
    (by simp only [append_toNat, BitVec.toNat_ofNat]; have := d.isLt; have := a.isLt; have := b.isLt; have := lit.isLt; omega)
    rfl
  simp only [Bool.true_and] at h
  exact h
theorem Encoding.wscan (d : BitVec 8) (a : BitVec 8) (b : BitVec 8) (lit : BitVec 32) : Encoding.Statement (.wscan d a b lit) := by
  refine ⟨Option.some_ne_none _, fun _ => ?_⟩
  have h := Encoding.g3 (w := 0x11#8 ++ d ++ a ++ b) (op := 17) (a := a) (b := b) (lit := lit) (p := true) (q := true)
    (by simp only [append_toNat, BitVec.toNat_ofNat]; have := d.isLt; have := a.isLt; have := b.isLt; have := lit.isLt; omega)
    (by simp only [append_toNat, BitVec.toNat_ofNat]; have := d.isLt; have := a.isLt; have := b.isLt; have := lit.isLt; omega)
    (by simp only [append_toNat, BitVec.toNat_ofNat]; have := d.isLt; have := a.isLt; have := b.isLt; have := lit.isLt; omega)
    rfl
  simp only [Bool.true_and] at h
  exact h
theorem Encoding.vtos (d : BitVec 8) (a : BitVec 8) (b : BitVec 8) (lit : BitVec 32) : Encoding.Statement (.vtos d a b lit) := by
  refine ⟨Option.some_ne_none _, fun _ => ?_⟩
  have h := Encoding.g3 (w := 0x12#8 ++ d ++ a ++ b) (op := 18) (a := a) (b := b) (lit := lit) (p := true) (q := true)
    (by simp only [append_toNat, BitVec.toNat_ofNat]; have := d.isLt; have := a.isLt; have := b.isLt; have := lit.isLt; omega)
    (by simp only [append_toNat, BitVec.toNat_ofNat]; have := d.isLt; have := a.isLt; have := b.isLt; have := lit.isLt; omega)
    (by simp only [append_toNat, BitVec.toNat_ofNat]; have := d.isLt; have := a.isLt; have := b.isLt; have := lit.isLt; omega)
    rfl
  simp only [Bool.true_and] at h
  exact h
theorem Encoding.vrel (a : BitVec 8) (lit : BitVec 32) : Encoding.Statement (.vrel a lit) := by
  refine ⟨Option.some_ne_none _, fun _ => ?_⟩
  have h := Encoding.g3 (w := 0x1300#16 ++ a ++ 0x0#8) (op := 19) (a := a) (b := 0x0#8) (lit := lit) (p := true) (q := false)
    (by simp only [append_toNat, BitVec.toNat_ofNat]; have := a.isLt; have := lit.isLt; omega)
    (by simp only [append_toNat, BitVec.toNat_ofNat]; have := a.isLt; have := lit.isLt; omega)
    (by simp only [append_toNat, BitVec.toNat_ofNat]; have := a.isLt; have := lit.isLt; omega)
    rfl
  simp only [Bool.true_and, Bool.false_and, Bool.or_false] at h
  exact h
theorem Encoding.quotaGrow (a : BitVec 8) (lit : BitVec 32) : Encoding.Statement (.quotaGrow a lit) := by
  refine ⟨Option.some_ne_none _, fun _ => ?_⟩
  have h := Encoding.g3 (w := 0x1400#16 ++ a ++ 0x0#8) (op := 20) (a := a) (b := 0x0#8) (lit := lit) (p := true) (q := false)
    (by simp only [append_toNat, BitVec.toNat_ofNat]; have := a.isLt; have := lit.isLt; omega)
    (by simp only [append_toNat, BitVec.toNat_ofNat]; have := a.isLt; have := lit.isLt; omega)
    (by simp only [append_toNat, BitVec.toNat_ofNat]; have := a.isLt; have := lit.isLt; omega)
    rfl
  simp only [Bool.true_and, Bool.false_and, Bool.or_false] at h
  exact h
theorem Encoding.quotaShrink (a : BitVec 8) (lit : BitVec 32) : Encoding.Statement (.quotaShrink a lit) := by
  refine ⟨Option.some_ne_none _, fun _ => ?_⟩
  have h := Encoding.g3 (w := 0x1500#16 ++ a ++ 0x0#8) (op := 21) (a := a) (b := 0x0#8) (lit := lit) (p := true) (q := false)
    (by simp only [append_toNat, BitVec.toNat_ofNat]; have := a.isLt; have := lit.isLt; omega)
    (by simp only [append_toNat, BitVec.toNat_ofNat]; have := a.isLt; have := lit.isLt; omega)
    (by simp only [append_toNat, BitVec.toNat_ofNat]; have := a.isLt; have := lit.isLt; omega)
    rfl
  simp only [Bool.true_and, Bool.false_and, Bool.or_false] at h
  exact h
theorem Encoding.trap (i : BitVec 8) : Encoding.Statement (.trap i) := by
  refine ⟨Option.some_ne_none _, fun _ => ?_⟩
  exact Encoding.fixed (w := 0x160000#24 ++ i) (ws := []) (op := 22) (n := 1) (by simp only [append_toNat, BitVec.toNat_ofNat]; have := i.isLt; omega) rfl rfl rfl rfl
theorem Encoding.brk (i : BitVec 8) : Encoding.Statement (.brk i) := by
  refine ⟨Option.some_ne_none _, fun _ => ?_⟩
  exact Encoding.fixed (w := 0x170000#24 ++ i) (ws := []) (op := 23) (n := 1) (by simp only [append_toNat, BitVec.toNat_ofNat]; have := i.isLt; omega) rfl rfl rfl rfl
theorem Encoding.addc (d : BitVec 8) (a : BitVec 8) (b : BitVec 8) (c : BitVec 8) (lit : BitVec 24) : Encoding.Statement (.addc d a b c lit) := by
  refine ⟨Option.some_ne_none _, fun _ => ?_⟩
  exact Encoding.fixed (w := 0x1e#8 ++ d ++ a ++ b) (ws := [lit ++ c]) (op := 30) (n := 2) (by simp only [append_toNat, BitVec.toNat_ofNat]; have := d.isLt; have := a.isLt; have := b.isLt; have := c.isLt; have := lit.isLt; omega) rfl rfl rfl rfl
theorem Encoding.subb (d : BitVec 8) (a : BitVec 8) (b : BitVec 8) (c : BitVec 8) (lit : BitVec 24) : Encoding.Statement (.subb d a b c lit) := by
  refine ⟨Option.some_ne_none _, fun _ => ?_⟩
  exact Encoding.fixed (w := 0x1f#8 ++ d ++ a ++ b) (ws := [lit ++ c]) (op := 31) (n := 2) (by simp only [append_toNat, BitVec.toNat_ofNat]; have := d.isLt; have := a.isLt; have := b.isLt; have := c.isLt; have := lit.isLt; omega) rfl rfl rfl rfl
theorem Encoding.add (d : BitVec 8) (a : BitVec 8) (b : BitVec 8) (lit : BitVec 32) : Encoding.Statement (.add d a b lit) := by
  refine ⟨Option.some_ne_none _, fun _ => ?_⟩
  have h := Encoding.g3 (w := 0x20#8 ++ d ++ a ++ b) (op := 32) (a := a) (b := b) (lit := lit) (p := true) (q := true)
    (by simp only [append_toNat, BitVec.toNat_ofNat]; have := d.isLt; have := a.isLt; have := b.isLt; have := lit.isLt; omega)
    (by simp only [append_toNat, BitVec.toNat_ofNat]; have := d.isLt; have := a.isLt; have := b.isLt; have := lit.isLt; omega)
    (by simp only [append_toNat, BitVec.toNat_ofNat]; have := d.isLt; have := a.isLt; have := b.isLt; have := lit.isLt; omega)
    rfl
  simp only [Bool.true_and] at h
  exact h
theorem Encoding.sub (d : BitVec 8) (a : BitVec 8) (b : BitVec 8) (lit : BitVec 32) : Encoding.Statement (.sub d a b lit) := by
  refine ⟨Option.some_ne_none _, fun _ => ?_⟩
  have h := Encoding.g3 (w := 0x21#8 ++ d ++ a ++ b) (op := 33) (a := a) (b := b) (lit := lit) (p := true) (q := true)
    (by simp only [append_toNat, BitVec.toNat_ofNat]; have := d.isLt; have := a.isLt; have := b.isLt; have := lit.isLt; omega)
    (by simp only [append_toNat, BitVec.toNat_ofNat]; have := d.isLt; have := a.isLt; have := b.isLt; have := lit.isLt; omega)
    (by simp only [append_toNat, BitVec.toNat_ofNat]; have := d.isLt; have := a.isLt; have := b.isLt; have := lit.isLt; omega)
    rfl
  simp only [Bool.true_and] at h
  exact h
theorem Encoding.mul (d : BitVec 8) (a : BitVec 8) (b : BitVec 8) (lit : BitVec 32) : Encoding.Statement (.mul d a b lit) := by
  refine ⟨Option.some_ne_none _, fun _ => ?_⟩
  have h := Encoding.g3 (w := 0x22#8 ++ d ++ a ++ b) (op := 34) (a := a) (b := b) (lit := lit) (p := true) (q := true)
    (by simp only [append_toNat, BitVec.toNat_ofNat]; have := d.isLt; have := a.isLt; have := b.isLt; have := lit.isLt; omega)
    (by simp only [append_toNat, BitVec.toNat_ofNat]; have := d.isLt; have := a.isLt; have := b.isLt; have := lit.isLt; omega)
    (by simp only [append_toNat, BitVec.toNat_ofNat]; have := d.isLt; have := a.isLt; have := b.isLt; have := lit.isLt; omega)
    rfl
  simp only [Bool.true_and] at h
  exact h
theorem Encoding.mulh (d : BitVec 8) (a : BitVec 8) (b : BitVec 8) (lit : BitVec 32) : Encoding.Statement (.mulh d a b lit) := by
  refine ⟨Option.some_ne_none _, fun _ => ?_⟩
  have h := Encoding.g3 (w := 0x23#8 ++ d ++ a ++ b) (op := 35) (a := a) (b := b) (lit := lit) (p := true) (q := true)
    (by simp only [append_toNat, BitVec.toNat_ofNat]; have := d.isLt; have := a.isLt; have := b.isLt; have := lit.isLt; omega)
    (by simp only [append_toNat, BitVec.toNat_ofNat]; have := d.isLt; have := a.isLt; have := b.isLt; have := lit.isLt; omega)
    (by simp only [append_toNat, BitVec.toNat_ofNat]; have := d.isLt; have := a.isLt; have := b.isLt; have := lit.isLt; omega)
    rfl
  simp only [Bool.true_and] at h
  exact h
theorem Encoding.mad (d : BitVec 8) (a : BitVec 8) (b : BitVec 8) (c : BitVec 8) (lit : BitVec 24) : Encoding.Statement (.mad d a b c lit) := by
  refine ⟨Option.some_ne_none _, fun _ => ?_⟩
  exact Encoding.fixed (w := 0x24#8 ++ d ++ a ++ b) (ws := [lit ++ c]) (op := 36) (n := 2) (by simp only [append_toNat, BitVec.toNat_ofNat]; have := d.isLt; have := a.isLt; have := b.isLt; have := c.isLt; have := lit.isLt; omega) rfl rfl rfl rfl
theorem Encoding.madw (d : BitVec 8) (a : BitVec 8) (b : BitVec 8) (c : BitVec 8) (lit : BitVec 24) : Encoding.Statement (.madw d a b c lit) := by
  refine ⟨Option.some_ne_none _, fun _ => ?_⟩
  exact Encoding.fixed (w := 0x25#8 ++ d ++ a ++ b) (ws := [lit ++ c]) (op := 37) (n := 2) (by simp only [append_toNat, BitVec.toNat_ofNat]; have := d.isLt; have := a.isLt; have := b.isLt; have := c.isLt; have := lit.isLt; omega) rfl rfl rfl rfl
theorem Encoding.abs (d : BitVec 8) (a : BitVec 8) (lit : BitVec 32) : Encoding.Statement (.abs d a lit) := by
  refine ⟨Option.some_ne_none _, fun _ => ?_⟩
  have h := Encoding.g3 (w := 0x26#8 ++ d ++ a ++ 0x0#8) (op := 38) (a := a) (b := 0x0#8) (lit := lit) (p := true) (q := false)
    (by simp only [append_toNat, BitVec.toNat_ofNat]; have := d.isLt; have := a.isLt; have := lit.isLt; omega)
    (by simp only [append_toNat, BitVec.toNat_ofNat]; have := d.isLt; have := a.isLt; have := lit.isLt; omega)
    (by simp only [append_toNat, BitVec.toNat_ofNat]; have := d.isLt; have := a.isLt; have := lit.isLt; omega)
    rfl
  simp only [Bool.true_and, Bool.false_and, Bool.or_false] at h
  exact h
theorem Encoding.min (d : BitVec 8) (a : BitVec 8) (b : BitVec 8) (lit : BitVec 32) : Encoding.Statement (.min d a b lit) := by
  refine ⟨Option.some_ne_none _, fun _ => ?_⟩
  have h := Encoding.g3 (w := 0x27#8 ++ d ++ a ++ b) (op := 39) (a := a) (b := b) (lit := lit) (p := true) (q := true)
    (by simp only [append_toNat, BitVec.toNat_ofNat]; have := d.isLt; have := a.isLt; have := b.isLt; have := lit.isLt; omega)
    (by simp only [append_toNat, BitVec.toNat_ofNat]; have := d.isLt; have := a.isLt; have := b.isLt; have := lit.isLt; omega)
    (by simp only [append_toNat, BitVec.toNat_ofNat]; have := d.isLt; have := a.isLt; have := b.isLt; have := lit.isLt; omega)
    rfl
  simp only [Bool.true_and] at h
  exact h
theorem Encoding.max (d : BitVec 8) (a : BitVec 8) (b : BitVec 8) (lit : BitVec 32) : Encoding.Statement (.max d a b lit) := by
  refine ⟨Option.some_ne_none _, fun _ => ?_⟩
  have h := Encoding.g3 (w := 0x28#8 ++ d ++ a ++ b) (op := 40) (a := a) (b := b) (lit := lit) (p := true) (q := true)
    (by simp only [append_toNat, BitVec.toNat_ofNat]; have := d.isLt; have := a.isLt; have := b.isLt; have := lit.isLt; omega)
    (by simp only [append_toNat, BitVec.toNat_ofNat]; have := d.isLt; have := a.isLt; have := b.isLt; have := lit.isLt; omega)
    (by simp only [append_toNat, BitVec.toNat_ofNat]; have := d.isLt; have := a.isLt; have := b.isLt; have := lit.isLt; omega)
    rfl
  simp only [Bool.true_and] at h
  exact h
theorem Encoding.and (d : BitVec 8) (a : BitVec 8) (b : BitVec 8) (lit : BitVec 32) : Encoding.Statement (.and d a b lit) := by
  refine ⟨Option.some_ne_none _, fun _ => ?_⟩
  have h := Encoding.g3 (w := 0x29#8 ++ d ++ a ++ b) (op := 41) (a := a) (b := b) (lit := lit) (p := true) (q := true)
    (by simp only [append_toNat, BitVec.toNat_ofNat]; have := d.isLt; have := a.isLt; have := b.isLt; have := lit.isLt; omega)
    (by simp only [append_toNat, BitVec.toNat_ofNat]; have := d.isLt; have := a.isLt; have := b.isLt; have := lit.isLt; omega)
    (by simp only [append_toNat, BitVec.toNat_ofNat]; have := d.isLt; have := a.isLt; have := b.isLt; have := lit.isLt; omega)
    rfl
  simp only [Bool.true_and] at h
  exact h
theorem Encoding.or (d : BitVec 8) (a : BitVec 8) (b : BitVec 8) (lit : BitVec 32) : Encoding.Statement (.or d a b lit) := by
  refine ⟨Option.some_ne_none _, fun _ => ?_⟩
  have h := Encoding.g3 (w := 0x2a#8 ++ d ++ a ++ b) (op := 42) (a := a) (b := b) (lit := lit) (p := true) (q := true)
    (by simp only [append_toNat, BitVec.toNat_ofNat]; have := d.isLt; have := a.isLt; have := b.isLt; have := lit.isLt; omega)
    (by simp only [append_toNat, BitVec.toNat_ofNat]; have := d.isLt; have := a.isLt; have := b.isLt; have := lit.isLt; omega)
    (by simp only [append_toNat, BitVec.toNat_ofNat]; have := d.isLt; have := a.isLt; have := b.isLt; have := lit.isLt; omega)
    rfl
  simp only [Bool.true_and] at h
  exact h
theorem Encoding.xor (d : BitVec 8) (a : BitVec 8) (b : BitVec 8) (lit : BitVec 32) : Encoding.Statement (.xor d a b lit) := by
  refine ⟨Option.some_ne_none _, fun _ => ?_⟩
  have h := Encoding.g3 (w := 0x2b#8 ++ d ++ a ++ b) (op := 43) (a := a) (b := b) (lit := lit) (p := true) (q := true)
    (by simp only [append_toNat, BitVec.toNat_ofNat]; have := d.isLt; have := a.isLt; have := b.isLt; have := lit.isLt; omega)
    (by simp only [append_toNat, BitVec.toNat_ofNat]; have := d.isLt; have := a.isLt; have := b.isLt; have := lit.isLt; omega)
    (by simp only [append_toNat, BitVec.toNat_ofNat]; have := d.isLt; have := a.isLt; have := b.isLt; have := lit.isLt; omega)
    rfl
  simp only [Bool.true_and] at h
  exact h
theorem Encoding.andn (d : BitVec 8) (a : BitVec 8) (b : BitVec 8) (lit : BitVec 32) : Encoding.Statement (.andn d a b lit) := by
  refine ⟨Option.some_ne_none _, fun _ => ?_⟩
  have h := Encoding.g3 (w := 0x2c#8 ++ d ++ a ++ b) (op := 44) (a := a) (b := b) (lit := lit) (p := true) (q := true)
    (by simp only [append_toNat, BitVec.toNat_ofNat]; have := d.isLt; have := a.isLt; have := b.isLt; have := lit.isLt; omega)
    (by simp only [append_toNat, BitVec.toNat_ofNat]; have := d.isLt; have := a.isLt; have := b.isLt; have := lit.isLt; omega)
    (by simp only [append_toNat, BitVec.toNat_ofNat]; have := d.isLt; have := a.isLt; have := b.isLt; have := lit.isLt; omega)
    rfl
  simp only [Bool.true_and] at h
  exact h
theorem Encoding.shl (d : BitVec 8) (a : BitVec 8) (b : BitVec 8) (lit : BitVec 32) : Encoding.Statement (.shl d a b lit) := by
  refine ⟨Option.some_ne_none _, fun _ => ?_⟩
  have h := Encoding.g3 (w := 0x2d#8 ++ d ++ a ++ b) (op := 45) (a := a) (b := b) (lit := lit) (p := true) (q := true)
    (by simp only [append_toNat, BitVec.toNat_ofNat]; have := d.isLt; have := a.isLt; have := b.isLt; have := lit.isLt; omega)
    (by simp only [append_toNat, BitVec.toNat_ofNat]; have := d.isLt; have := a.isLt; have := b.isLt; have := lit.isLt; omega)
    (by simp only [append_toNat, BitVec.toNat_ofNat]; have := d.isLt; have := a.isLt; have := b.isLt; have := lit.isLt; omega)
    rfl
  simp only [Bool.true_and] at h
  exact h
theorem Encoding.shr (d : BitVec 8) (a : BitVec 8) (b : BitVec 8) (lit : BitVec 32) : Encoding.Statement (.shr d a b lit) := by
  refine ⟨Option.some_ne_none _, fun _ => ?_⟩
  have h := Encoding.g3 (w := 0x2e#8 ++ d ++ a ++ b) (op := 46) (a := a) (b := b) (lit := lit) (p := true) (q := true)
    (by simp only [append_toNat, BitVec.toNat_ofNat]; have := d.isLt; have := a.isLt; have := b.isLt; have := lit.isLt; omega)
    (by simp only [append_toNat, BitVec.toNat_ofNat]; have := d.isLt; have := a.isLt; have := b.isLt; have := lit.isLt; omega)
    (by simp only [append_toNat, BitVec.toNat_ofNat]; have := d.isLt; have := a.isLt; have := b.isLt; have := lit.isLt; omega)
    rfl
  simp only [Bool.true_and] at h
  exact h
theorem Encoding.sra (d : BitVec 8) (a : BitVec 8) (b : BitVec 8) (lit : BitVec 32) : Encoding.Statement (.sra d a b lit) := by
  refine ⟨Option.some_ne_none _, fun _ => ?_⟩
  have h := Encoding.g3 (w := 0x2f#8 ++ d ++ a ++ b) (op := 47) (a := a) (b := b) (lit := lit) (p := true) (q := true)
    (by simp only [append_toNat, BitVec.toNat_ofNat]; have := d.isLt; have := a.isLt; have := b.isLt; have := lit.isLt; omega)
    (by simp only [append_toNat, BitVec.toNat_ofNat]; have := d.isLt; have := a.isLt; have := b.isLt; have := lit.isLt; omega)
    (by simp only [append_toNat, BitVec.toNat_ofNat]; have := d.isLt; have := a.isLt; have := b.isLt; have := lit.isLt; omega)
    rfl
  simp only [Bool.true_and] at h
  exact h
theorem Encoding.rot (d : BitVec 8) (a : BitVec 8) (b : BitVec 8) (lit : BitVec 32) : Encoding.Statement (.rot d a b lit) := by
  refine ⟨Option.some_ne_none _, fun _ => ?_⟩
  have h := Encoding.g3 (w := 0x30#8 ++ d ++ a ++ b) (op := 48) (a := a) (b := b) (lit := lit) (p := true) (q := true)
    (by simp only [append_toNat, BitVec.toNat_ofNat]; have := d.isLt; have := a.isLt; have := b.isLt; have := lit.isLt; omega)
    (by simp only [append_toNat, BitVec.toNat_ofNat]; have := d.isLt; have := a.isLt; have := b.isLt; have := lit.isLt; omega)
    (by simp only [append_toNat, BitVec.toNat_ofNat]; have := d.isLt; have := a.isLt; have := b.isLt; have := lit.isLt; omega)
    rfl
  simp only [Bool.true_and] at h
  exact h
theorem Encoding.bfe (d : BitVec 8) (a : BitVec 8) (b : BitVec 8) (c : BitVec 8) (lit : BitVec 24) : Encoding.Statement (.bfe d a b c lit) := by
  refine ⟨Option.some_ne_none _, fun _ => ?_⟩
  exact Encoding.fixed (w := 0x31#8 ++ d ++ a ++ b) (ws := [lit ++ c]) (op := 49) (n := 2) (by simp only [append_toNat, BitVec.toNat_ofNat]; have := d.isLt; have := a.isLt; have := b.isLt; have := c.isLt; have := lit.isLt; omega) rfl rfl rfl rfl
theorem Encoding.bfi (d : BitVec 8) (a : BitVec 8) (b : BitVec 8) (c : BitVec 8) (lit : BitVec 24) : Encoding.Statement (.bfi d a b c lit) := by
  refine ⟨Option.some_ne_none _, fun _ => ?_⟩
  exact Encoding.fixed (w := 0x32#8 ++ d ++ a ++ b) (ws := [lit ++ c]) (op := 50) (n := 2) (by simp only [append_toNat, BitVec.toNat_ofNat]; have := d.isLt; have := a.isLt; have := b.isLt; have := c.isLt; have := lit.isLt; omega) rfl rfl rfl rfl
theorem Encoding.popc (d : BitVec 8) (a : BitVec 8) (lit : BitVec 32) : Encoding.Statement (.popc d a lit) := by
  refine ⟨Option.some_ne_none _, fun _ => ?_⟩
  have h := Encoding.g3 (w := 0x33#8 ++ d ++ a ++ 0x0#8) (op := 51) (a := a) (b := 0x0#8) (lit := lit) (p := true) (q := false)
    (by simp only [append_toNat, BitVec.toNat_ofNat]; have := d.isLt; have := a.isLt; have := lit.isLt; omega)
    (by simp only [append_toNat, BitVec.toNat_ofNat]; have := d.isLt; have := a.isLt; have := lit.isLt; omega)
    (by simp only [append_toNat, BitVec.toNat_ofNat]; have := d.isLt; have := a.isLt; have := lit.isLt; omega)
    rfl
  simp only [Bool.true_and, Bool.false_and, Bool.or_false] at h
  exact h
theorem Encoding.clz (d : BitVec 8) (a : BitVec 8) (lit : BitVec 32) : Encoding.Statement (.clz d a lit) := by
  refine ⟨Option.some_ne_none _, fun _ => ?_⟩
  have h := Encoding.g3 (w := 0x34#8 ++ d ++ a ++ 0x0#8) (op := 52) (a := a) (b := 0x0#8) (lit := lit) (p := true) (q := false)
    (by simp only [append_toNat, BitVec.toNat_ofNat]; have := d.isLt; have := a.isLt; have := lit.isLt; omega)
    (by simp only [append_toNat, BitVec.toNat_ofNat]; have := d.isLt; have := a.isLt; have := lit.isLt; omega)
    (by simp only [append_toNat, BitVec.toNat_ofNat]; have := d.isLt; have := a.isLt; have := lit.isLt; omega)
    rfl
  simp only [Bool.true_and, Bool.false_and, Bool.or_false] at h
  exact h
theorem Encoding.brev (d : BitVec 8) (a : BitVec 8) (lit : BitVec 32) : Encoding.Statement (.brev d a lit) := by
  refine ⟨Option.some_ne_none _, fun _ => ?_⟩
  have h := Encoding.g3 (w := 0x35#8 ++ d ++ a ++ 0x0#8) (op := 53) (a := a) (b := 0x0#8) (lit := lit) (p := true) (q := false)
    (by simp only [append_toNat, BitVec.toNat_ofNat]; have := d.isLt; have := a.isLt; have := lit.isLt; omega)
    (by simp only [append_toNat, BitVec.toNat_ofNat]; have := d.isLt; have := a.isLt; have := lit.isLt; omega)
    (by simp only [append_toNat, BitVec.toNat_ofNat]; have := d.isLt; have := a.isLt; have := lit.isLt; omega)
    rfl
  simp only [Bool.true_and, Bool.false_and, Bool.or_false] at h
  exact h
theorem Encoding.perm (d : BitVec 8) (a : BitVec 8) (b : BitVec 8) (c : BitVec 8) (lit : BitVec 24) : Encoding.Statement (.perm d a b c lit) := by
  refine ⟨Option.some_ne_none _, fun _ => ?_⟩
  exact Encoding.fixed (w := 0x36#8 ++ d ++ a ++ b) (ws := [lit ++ c]) (op := 54) (n := 2) (by simp only [append_toNat, BitVec.toNat_ofNat]; have := d.isLt; have := a.isLt; have := b.isLt; have := c.isLt; have := lit.isLt; omega) rfl rfl rfl rfl
theorem Encoding.sel (d : BitVec 8) (a : BitVec 8) (b : BitVec 8) (c : BitVec 8) (lit : BitVec 24) : Encoding.Statement (.sel d a b c lit) := by
  refine ⟨Option.some_ne_none _, fun _ => ?_⟩
  exact Encoding.fixed (w := 0x37#8 ++ d ++ a ++ b) (ws := [lit ++ c]) (op := 55) (n := 2) (by simp only [append_toNat, BitVec.toNat_ofNat]; have := d.isLt; have := a.isLt; have := b.isLt; have := c.isLt; have := lit.isLt; omega) rfl rfl rfl rfl
theorem Encoding.cmpEq (d : BitVec 8) (a : BitVec 8) (b : BitVec 8) (lit : BitVec 32) : Encoding.Statement (.cmpEq d a b lit) := by
  refine ⟨Option.some_ne_none _, fun _ => ?_⟩
  have h := Encoding.g3 (w := 0x38#8 ++ d ++ a ++ b) (op := 56) (a := a) (b := b) (lit := lit) (p := true) (q := true)
    (by simp only [append_toNat, BitVec.toNat_ofNat]; have := d.isLt; have := a.isLt; have := b.isLt; have := lit.isLt; omega)
    (by simp only [append_toNat, BitVec.toNat_ofNat]; have := d.isLt; have := a.isLt; have := b.isLt; have := lit.isLt; omega)
    (by simp only [append_toNat, BitVec.toNat_ofNat]; have := d.isLt; have := a.isLt; have := b.isLt; have := lit.isLt; omega)
    rfl
  simp only [Bool.true_and] at h
  exact h
theorem Encoding.cmpNe (d : BitVec 8) (a : BitVec 8) (b : BitVec 8) (lit : BitVec 32) : Encoding.Statement (.cmpNe d a b lit) := by
  refine ⟨Option.some_ne_none _, fun _ => ?_⟩
  have h := Encoding.g3 (w := 0x39#8 ++ d ++ a ++ b) (op := 57) (a := a) (b := b) (lit := lit) (p := true) (q := true)
    (by simp only [append_toNat, BitVec.toNat_ofNat]; have := d.isLt; have := a.isLt; have := b.isLt; have := lit.isLt; omega)
    (by simp only [append_toNat, BitVec.toNat_ofNat]; have := d.isLt; have := a.isLt; have := b.isLt; have := lit.isLt; omega)
    (by simp only [append_toNat, BitVec.toNat_ofNat]; have := d.isLt; have := a.isLt; have := b.isLt; have := lit.isLt; omega)
    rfl
  simp only [Bool.true_and] at h
  exact h
theorem Encoding.cmpLt (d : BitVec 8) (a : BitVec 8) (b : BitVec 8) (lit : BitVec 32) : Encoding.Statement (.cmpLt d a b lit) := by
  refine ⟨Option.some_ne_none _, fun _ => ?_⟩
  have h := Encoding.g3 (w := 0x3a#8 ++ d ++ a ++ b) (op := 58) (a := a) (b := b) (lit := lit) (p := true) (q := true)
    (by simp only [append_toNat, BitVec.toNat_ofNat]; have := d.isLt; have := a.isLt; have := b.isLt; have := lit.isLt; omega)
    (by simp only [append_toNat, BitVec.toNat_ofNat]; have := d.isLt; have := a.isLt; have := b.isLt; have := lit.isLt; omega)
    (by simp only [append_toNat, BitVec.toNat_ofNat]; have := d.isLt; have := a.isLt; have := b.isLt; have := lit.isLt; omega)
    rfl
  simp only [Bool.true_and] at h
  exact h
theorem Encoding.cmpGe (d : BitVec 8) (a : BitVec 8) (b : BitVec 8) (lit : BitVec 32) : Encoding.Statement (.cmpGe d a b lit) := by
  refine ⟨Option.some_ne_none _, fun _ => ?_⟩
  have h := Encoding.g3 (w := 0x3b#8 ++ d ++ a ++ b) (op := 59) (a := a) (b := b) (lit := lit) (p := true) (q := true)
    (by simp only [append_toNat, BitVec.toNat_ofNat]; have := d.isLt; have := a.isLt; have := b.isLt; have := lit.isLt; omega)
    (by simp only [append_toNat, BitVec.toNat_ofNat]; have := d.isLt; have := a.isLt; have := b.isLt; have := lit.isLt; omega)
    (by simp only [append_toNat, BitVec.toNat_ofNat]; have := d.isLt; have := a.isLt; have := b.isLt; have := lit.isLt; omega)
    rfl
  simp only [Bool.true_and] at h
  exact h
theorem Encoding.cmpLe (d : BitVec 8) (a : BitVec 8) (b : BitVec 8) (lit : BitVec 32) : Encoding.Statement (.cmpLe d a b lit) := by
  refine ⟨Option.some_ne_none _, fun _ => ?_⟩
  have h := Encoding.g3 (w := 0x3c#8 ++ d ++ a ++ b) (op := 60) (a := a) (b := b) (lit := lit) (p := true) (q := true)
    (by simp only [append_toNat, BitVec.toNat_ofNat]; have := d.isLt; have := a.isLt; have := b.isLt; have := lit.isLt; omega)
    (by simp only [append_toNat, BitVec.toNat_ofNat]; have := d.isLt; have := a.isLt; have := b.isLt; have := lit.isLt; omega)
    (by simp only [append_toNat, BitVec.toNat_ofNat]; have := d.isLt; have := a.isLt; have := b.isLt; have := lit.isLt; omega)
    rfl
  simp only [Bool.true_and] at h
  exact h
theorem Encoding.cmpGt (d : BitVec 8) (a : BitVec 8) (b : BitVec 8) (lit : BitVec 32) : Encoding.Statement (.cmpGt d a b lit) := by
  refine ⟨Option.some_ne_none _, fun _ => ?_⟩
  have h := Encoding.g3 (w := 0x3d#8 ++ d ++ a ++ b) (op := 61) (a := a) (b := b) (lit := lit) (p := true) (q := true)
    (by simp only [append_toNat, BitVec.toNat_ofNat]; have := d.isLt; have := a.isLt; have := b.isLt; have := lit.isLt; omega)
    (by simp only [append_toNat, BitVec.toNat_ofNat]; have := d.isLt; have := a.isLt; have := b.isLt; have := lit.isLt; omega)
    (by simp only [append_toNat, BitVec.toNat_ofNat]; have := d.isLt; have := a.isLt; have := b.isLt; have := lit.isLt; omega)
    rfl
  simp only [Bool.true_and] at h
  exact h
theorem Encoding.cmpLtu (d : BitVec 8) (a : BitVec 8) (b : BitVec 8) (lit : BitVec 32) : Encoding.Statement (.cmpLtu d a b lit) := by
  refine ⟨Option.some_ne_none _, fun _ => ?_⟩
  have h := Encoding.g3 (w := 0x3e#8 ++ d ++ a ++ b) (op := 62) (a := a) (b := b) (lit := lit) (p := true) (q := true)
    (by simp only [append_toNat, BitVec.toNat_ofNat]; have := d.isLt; have := a.isLt; have := b.isLt; have := lit.isLt; omega)
    (by simp only [append_toNat, BitVec.toNat_ofNat]; have := d.isLt; have := a.isLt; have := b.isLt; have := lit.isLt; omega)
    (by simp only [append_toNat, BitVec.toNat_ofNat]; have := d.isLt; have := a.isLt; have := b.isLt; have := lit.isLt; omega)
    rfl
  simp only [Bool.true_and] at h
  exact h
theorem Encoding.cmpGeu (d : BitVec 8) (a : BitVec 8) (b : BitVec 8) (lit : BitVec 32) : Encoding.Statement (.cmpGeu d a b lit) := by
  refine ⟨Option.some_ne_none _, fun _ => ?_⟩
  have h := Encoding.g3 (w := 0x3f#8 ++ d ++ a ++ b) (op := 63) (a := a) (b := b) (lit := lit) (p := true) (q := true)
    (by simp only [append_toNat, BitVec.toNat_ofNat]; have := d.isLt; have := a.isLt; have := b.isLt; have := lit.isLt; omega)
    (by simp only [append_toNat, BitVec.toNat_ofNat]; have := d.isLt; have := a.isLt; have := b.isLt; have := lit.isLt; omega)
    (by simp only [append_toNat, BitVec.toNat_ofNat]; have := d.isLt; have := a.isLt; have := b.isLt; have := lit.isLt; omega)
    rfl
  simp only [Bool.true_and] at h
  exact h
theorem Encoding.fadd (d : BitVec 8) (a : BitVec 8) (b : BitVec 8) (lit : BitVec 32) : Encoding.Statement (.fadd d a b lit) := by
  refine ⟨Option.some_ne_none _, fun _ => ?_⟩
  have h := Encoding.g3 (w := 0x80#8 ++ d ++ a ++ b) (op := 128) (a := a) (b := b) (lit := lit) (p := true) (q := true)
    (by simp only [append_toNat, BitVec.toNat_ofNat]; have := d.isLt; have := a.isLt; have := b.isLt; have := lit.isLt; omega)
    (by simp only [append_toNat, BitVec.toNat_ofNat]; have := d.isLt; have := a.isLt; have := b.isLt; have := lit.isLt; omega)
    (by simp only [append_toNat, BitVec.toNat_ofNat]; have := d.isLt; have := a.isLt; have := b.isLt; have := lit.isLt; omega)
    rfl
  simp only [Bool.true_and] at h
  exact h
theorem Encoding.fsub (d : BitVec 8) (a : BitVec 8) (b : BitVec 8) (lit : BitVec 32) : Encoding.Statement (.fsub d a b lit) := by
  refine ⟨Option.some_ne_none _, fun _ => ?_⟩
  have h := Encoding.g3 (w := 0x81#8 ++ d ++ a ++ b) (op := 129) (a := a) (b := b) (lit := lit) (p := true) (q := true)
    (by simp only [append_toNat, BitVec.toNat_ofNat]; have := d.isLt; have := a.isLt; have := b.isLt; have := lit.isLt; omega)
    (by simp only [append_toNat, BitVec.toNat_ofNat]; have := d.isLt; have := a.isLt; have := b.isLt; have := lit.isLt; omega)
    (by simp only [append_toNat, BitVec.toNat_ofNat]; have := d.isLt; have := a.isLt; have := b.isLt; have := lit.isLt; omega)
    rfl
  simp only [Bool.true_and] at h
  exact h
theorem Encoding.fmul (d : BitVec 8) (a : BitVec 8) (b : BitVec 8) (lit : BitVec 32) : Encoding.Statement (.fmul d a b lit) := by
  refine ⟨Option.some_ne_none _, fun _ => ?_⟩
  have h := Encoding.g3 (w := 0x82#8 ++ d ++ a ++ b) (op := 130) (a := a) (b := b) (lit := lit) (p := true) (q := true)
    (by simp only [append_toNat, BitVec.toNat_ofNat]; have := d.isLt; have := a.isLt; have := b.isLt; have := lit.isLt; omega)
    (by simp only [append_toNat, BitVec.toNat_ofNat]; have := d.isLt; have := a.isLt; have := b.isLt; have := lit.isLt; omega)
    (by simp only [append_toNat, BitVec.toNat_ofNat]; have := d.isLt; have := a.isLt; have := b.isLt; have := lit.isLt; omega)
    rfl
  simp only [Bool.true_and] at h
  exact h
theorem Encoding.ffma (d : BitVec 8) (a : BitVec 8) (b : BitVec 8) (c : BitVec 8) (lit : BitVec 24) : Encoding.Statement (.ffma d a b c lit) := by
  refine ⟨Option.some_ne_none _, fun _ => ?_⟩
  exact Encoding.fixed (w := 0x83#8 ++ d ++ a ++ b) (ws := [lit ++ c]) (op := 131) (n := 2) (by simp only [append_toNat, BitVec.toNat_ofNat]; have := d.isLt; have := a.isLt; have := b.isLt; have := c.isLt; have := lit.isLt; omega) rfl rfl rfl rfl
theorem Encoding.ffma4 (d : BitVec 8) (a : BitVec 8) (b : BitVec 8) (c : BitVec 8) (lit : BitVec 24) : Encoding.Statement (.ffma4 d a b c lit) := by
  refine ⟨Option.some_ne_none _, fun _ => ?_⟩
  exact Encoding.fixed (w := 0x84#8 ++ d ++ a ++ b) (ws := [lit ++ c]) (op := 132) (n := 2) (by simp only [append_toNat, BitVec.toNat_ofNat]; have := d.isLt; have := a.isLt; have := b.isLt; have := c.isLt; have := lit.isLt; omega) rfl rfl rfl rfl
theorem Encoding.fmin (d : BitVec 8) (a : BitVec 8) (b : BitVec 8) (lit : BitVec 32) : Encoding.Statement (.fmin d a b lit) := by
  refine ⟨Option.some_ne_none _, fun _ => ?_⟩
  have h := Encoding.g3 (w := 0x85#8 ++ d ++ a ++ b) (op := 133) (a := a) (b := b) (lit := lit) (p := true) (q := true)
    (by simp only [append_toNat, BitVec.toNat_ofNat]; have := d.isLt; have := a.isLt; have := b.isLt; have := lit.isLt; omega)
    (by simp only [append_toNat, BitVec.toNat_ofNat]; have := d.isLt; have := a.isLt; have := b.isLt; have := lit.isLt; omega)
    (by simp only [append_toNat, BitVec.toNat_ofNat]; have := d.isLt; have := a.isLt; have := b.isLt; have := lit.isLt; omega)
    rfl
  simp only [Bool.true_and] at h
  exact h
theorem Encoding.fmax (d : BitVec 8) (a : BitVec 8) (b : BitVec 8) (lit : BitVec 32) : Encoding.Statement (.fmax d a b lit) := by
  refine ⟨Option.some_ne_none _, fun _ => ?_⟩
  have h := Encoding.g3 (w := 0x86#8 ++ d ++ a ++ b) (op := 134) (a := a) (b := b) (lit := lit) (p := true) (q := true)
    (by simp only [append_toNat, BitVec.toNat_ofNat]; have := d.isLt; have := a.isLt; have := b.isLt; have := lit.isLt; omega)
    (by simp only [append_toNat, BitVec.toNat_ofNat]; have := d.isLt; have := a.isLt; have := b.isLt; have := lit.isLt; omega)
    (by simp only [append_toNat, BitVec.toNat_ofNat]; have := d.isLt; have := a.isLt; have := b.isLt; have := lit.isLt; omega)
    rfl
  simp only [Bool.true_and] at h
  exact h
theorem Encoding.fneg (d : BitVec 8) (a : BitVec 8) (lit : BitVec 32) : Encoding.Statement (.fneg d a lit) := by
  refine ⟨Option.some_ne_none _, fun _ => ?_⟩
  have h := Encoding.g3 (w := 0x87#8 ++ d ++ a ++ 0x0#8) (op := 135) (a := a) (b := 0x0#8) (lit := lit) (p := true) (q := false)
    (by simp only [append_toNat, BitVec.toNat_ofNat]; have := d.isLt; have := a.isLt; have := lit.isLt; omega)
    (by simp only [append_toNat, BitVec.toNat_ofNat]; have := d.isLt; have := a.isLt; have := lit.isLt; omega)
    (by simp only [append_toNat, BitVec.toNat_ofNat]; have := d.isLt; have := a.isLt; have := lit.isLt; omega)
    rfl
  simp only [Bool.true_and, Bool.false_and, Bool.or_false] at h
  exact h
theorem Encoding.fabs (d : BitVec 8) (a : BitVec 8) (lit : BitVec 32) : Encoding.Statement (.fabs d a lit) := by
  refine ⟨Option.some_ne_none _, fun _ => ?_⟩
  have h := Encoding.g3 (w := 0x88#8 ++ d ++ a ++ 0x0#8) (op := 136) (a := a) (b := 0x0#8) (lit := lit) (p := true) (q := false)
    (by simp only [append_toNat, BitVec.toNat_ofNat]; have := d.isLt; have := a.isLt; have := lit.isLt; omega)
    (by simp only [append_toNat, BitVec.toNat_ofNat]; have := d.isLt; have := a.isLt; have := lit.isLt; omega)
    (by simp only [append_toNat, BitVec.toNat_ofNat]; have := d.isLt; have := a.isLt; have := lit.isLt; omega)
    rfl
  simp only [Bool.true_and, Bool.false_and, Bool.or_false] at h
  exact h
theorem Encoding.fclass (d : BitVec 8) (a : BitVec 8) (b : BitVec 8) (lit : BitVec 32) : Encoding.Statement (.fclass d a b lit) := by
  refine ⟨Option.some_ne_none _, fun _ => ?_⟩
  have h := Encoding.g3 (w := 0x89#8 ++ d ++ a ++ b) (op := 137) (a := a) (b := b) (lit := lit) (p := true) (q := true)
    (by simp only [append_toNat, BitVec.toNat_ofNat]; have := d.isLt; have := a.isLt; have := b.isLt; have := lit.isLt; omega)
    (by simp only [append_toNat, BitVec.toNat_ofNat]; have := d.isLt; have := a.isLt; have := b.isLt; have := lit.isLt; omega)
    (by simp only [append_toNat, BitVec.toNat_ofNat]; have := d.isLt; have := a.isLt; have := b.isLt; have := lit.isLt; omega)
    rfl
  simp only [Bool.true_and] at h
  exact h
theorem Encoding.frnd (d : BitVec 8) (a : BitVec 8) (lit : BitVec 32) : Encoding.Statement (.frnd d a lit) := by
  refine ⟨Option.some_ne_none _, fun _ => ?_⟩
  have h := Encoding.g3 (w := 0x8a#8 ++ d ++ a ++ 0x0#8) (op := 138) (a := a) (b := 0x0#8) (lit := lit) (p := true) (q := false)
    (by simp only [append_toNat, BitVec.toNat_ofNat]; have := d.isLt; have := a.isLt; have := lit.isLt; omega)
    (by simp only [append_toNat, BitVec.toNat_ofNat]; have := d.isLt; have := a.isLt; have := lit.isLt; omega)
    (by simp only [append_toNat, BitVec.toNat_ofNat]; have := d.isLt; have := a.isLt; have := lit.isLt; omega)
    rfl
  simp only [Bool.true_and, Bool.false_and, Bool.or_false] at h
  exact h
theorem Encoding.fscale (d : BitVec 8) (a : BitVec 8) (b : BitVec 8) (lit : BitVec 32) : Encoding.Statement (.fscale d a b lit) := by
  refine ⟨Option.some_ne_none _, fun _ => ?_⟩
  have h := Encoding.g3 (w := 0x8b#8 ++ d ++ a ++ b) (op := 139) (a := a) (b := b) (lit := lit) (p := true) (q := true)
    (by simp only [append_toNat, BitVec.toNat_ofNat]; have := d.isLt; have := a.isLt; have := b.isLt; have := lit.isLt; omega)
    (by simp only [append_toNat, BitVec.toNat_ofNat]; have := d.isLt; have := a.isLt; have := b.isLt; have := lit.isLt; omega)
    (by simp only [append_toNat, BitVec.toNat_ofNat]; have := d.isLt; have := a.isLt; have := b.isLt; have := lit.isLt; omega)
    rfl
  simp only [Bool.true_and] at h
  exact h
theorem Encoding.fdot2 (d : BitVec 8) (a : BitVec 8) (b : BitVec 8) (c : BitVec 8) (lit : BitVec 24) : Encoding.Statement (.fdot2 d a b c lit) := by
  refine ⟨Option.some_ne_none _, fun _ => ?_⟩
  exact Encoding.fixed (w := 0x8c#8 ++ d ++ a ++ b) (ws := [lit ++ c]) (op := 140) (n := 2) (by simp only [append_toNat, BitVec.toNat_ofNat]; have := d.isLt; have := a.isLt; have := b.isLt; have := c.isLt; have := lit.isLt; omega) rfl rfl rfl rfl
theorem Encoding.fcmpEq (d : BitVec 8) (a : BitVec 8) (b : BitVec 8) (lit : BitVec 32) : Encoding.Statement (.fcmpEq d a b lit) := by
  refine ⟨Option.some_ne_none _, fun _ => ?_⟩
  have h := Encoding.g3 (w := 0x90#8 ++ d ++ a ++ b) (op := 144) (a := a) (b := b) (lit := lit) (p := true) (q := true)
    (by simp only [append_toNat, BitVec.toNat_ofNat]; have := d.isLt; have := a.isLt; have := b.isLt; have := lit.isLt; omega)
    (by simp only [append_toNat, BitVec.toNat_ofNat]; have := d.isLt; have := a.isLt; have := b.isLt; have := lit.isLt; omega)
    (by simp only [append_toNat, BitVec.toNat_ofNat]; have := d.isLt; have := a.isLt; have := b.isLt; have := lit.isLt; omega)
    rfl
  simp only [Bool.true_and] at h
  exact h
theorem Encoding.fcmpNe (d : BitVec 8) (a : BitVec 8) (b : BitVec 8) (lit : BitVec 32) : Encoding.Statement (.fcmpNe d a b lit) := by
  refine ⟨Option.some_ne_none _, fun _ => ?_⟩
  have h := Encoding.g3 (w := 0x91#8 ++ d ++ a ++ b) (op := 145) (a := a) (b := b) (lit := lit) (p := true) (q := true)
    (by simp only [append_toNat, BitVec.toNat_ofNat]; have := d.isLt; have := a.isLt; have := b.isLt; have := lit.isLt; omega)
    (by simp only [append_toNat, BitVec.toNat_ofNat]; have := d.isLt; have := a.isLt; have := b.isLt; have := lit.isLt; omega)
    (by simp only [append_toNat, BitVec.toNat_ofNat]; have := d.isLt; have := a.isLt; have := b.isLt; have := lit.isLt; omega)
    rfl
  simp only [Bool.true_and] at h
  exact h
theorem Encoding.fcmpLt (d : BitVec 8) (a : BitVec 8) (b : BitVec 8) (lit : BitVec 32) : Encoding.Statement (.fcmpLt d a b lit) := by
  refine ⟨Option.some_ne_none _, fun _ => ?_⟩
  have h := Encoding.g3 (w := 0x92#8 ++ d ++ a ++ b) (op := 146) (a := a) (b := b) (lit := lit) (p := true) (q := true)
    (by simp only [append_toNat, BitVec.toNat_ofNat]; have := d.isLt; have := a.isLt; have := b.isLt; have := lit.isLt; omega)
    (by simp only [append_toNat, BitVec.toNat_ofNat]; have := d.isLt; have := a.isLt; have := b.isLt; have := lit.isLt; omega)
    (by simp only [append_toNat, BitVec.toNat_ofNat]; have := d.isLt; have := a.isLt; have := b.isLt; have := lit.isLt; omega)
    rfl
  simp only [Bool.true_and] at h
  exact h
theorem Encoding.fcmpGe (d : BitVec 8) (a : BitVec 8) (b : BitVec 8) (lit : BitVec 32) : Encoding.Statement (.fcmpGe d a b lit) := by
  refine ⟨Option.some_ne_none _, fun _ => ?_⟩
  have h := Encoding.g3 (w := 0x93#8 ++ d ++ a ++ b) (op := 147) (a := a) (b := b) (lit := lit) (p := true) (q := true)
    (by simp only [append_toNat, BitVec.toNat_ofNat]; have := d.isLt; have := a.isLt; have := b.isLt; have := lit.isLt; omega)
    (by simp only [append_toNat, BitVec.toNat_ofNat]; have := d.isLt; have := a.isLt; have := b.isLt; have := lit.isLt; omega)
    (by simp only [append_toNat, BitVec.toNat_ofNat]; have := d.isLt; have := a.isLt; have := b.isLt; have := lit.isLt; omega)
    rfl
  simp only [Bool.true_and] at h
  exact h
theorem Encoding.fcmpLe (d : BitVec 8) (a : BitVec 8) (b : BitVec 8) (lit : BitVec 32) : Encoding.Statement (.fcmpLe d a b lit) := by
  refine ⟨Option.some_ne_none _, fun _ => ?_⟩
  have h := Encoding.g3 (w := 0x94#8 ++ d ++ a ++ b) (op := 148) (a := a) (b := b) (lit := lit) (p := true) (q := true)
    (by simp only [append_toNat, BitVec.toNat_ofNat]; have := d.isLt; have := a.isLt; have := b.isLt; have := lit.isLt; omega)
    (by simp only [append_toNat, BitVec.toNat_ofNat]; have := d.isLt; have := a.isLt; have := b.isLt; have := lit.isLt; omega)
    (by simp only [append_toNat, BitVec.toNat_ofNat]; have := d.isLt; have := a.isLt; have := b.isLt; have := lit.isLt; omega)
    rfl
  simp only [Bool.true_and] at h
  exact h
theorem Encoding.fcmpGt (d : BitVec 8) (a : BitVec 8) (b : BitVec 8) (lit : BitVec 32) : Encoding.Statement (.fcmpGt d a b lit) := by
  refine ⟨Option.some_ne_none _, fun _ => ?_⟩
  have h := Encoding.g3 (w := 0x95#8 ++ d ++ a ++ b) (op := 149) (a := a) (b := b) (lit := lit) (p := true) (q := true)
    (by simp only [append_toNat, BitVec.toNat_ofNat]; have := d.isLt; have := a.isLt; have := b.isLt; have := lit.isLt; omega)
    (by simp only [append_toNat, BitVec.toNat_ofNat]; have := d.isLt; have := a.isLt; have := b.isLt; have := lit.isLt; omega)
    (by simp only [append_toNat, BitVec.toNat_ofNat]; have := d.isLt; have := a.isLt; have := b.isLt; have := lit.isLt; omega)
    rfl
  simp only [Bool.true_and] at h
  exact h
theorem Encoding.fcmpOrd (d : BitVec 8) (a : BitVec 8) (b : BitVec 8) (lit : BitVec 32) : Encoding.Statement (.fcmpOrd d a b lit) := by
  refine ⟨Option.some_ne_none _, fun _ => ?_⟩
  have h := Encoding.g3 (w := 0x96#8 ++ d ++ a ++ b) (op := 150) (a := a) (b := b) (lit := lit) (p := true) (q := true)
    (by simp only [append_toNat, BitVec.toNat_ofNat]; have := d.isLt; have := a.isLt; have := b.isLt; have := lit.isLt; omega)
    (by simp only [append_toNat, BitVec.toNat_ofNat]; have := d.isLt; have := a.isLt; have := b.isLt; have := lit.isLt; omega)
    (by simp only [append_toNat, BitVec.toNat_ofNat]; have := d.isLt; have := a.isLt; have := b.isLt; have := lit.isLt; omega)
    rfl
  simp only [Bool.true_and] at h
  exact h
theorem Encoding.fcmpUno (d : BitVec 8) (a : BitVec 8) (b : BitVec 8) (lit : BitVec 32) : Encoding.Statement (.fcmpUno d a b lit) := by
  refine ⟨Option.some_ne_none _, fun _ => ?_⟩
  have h := Encoding.g3 (w := 0x97#8 ++ d ++ a ++ b) (op := 151) (a := a) (b := b) (lit := lit) (p := true) (q := true)
    (by simp only [append_toNat, BitVec.toNat_ofNat]; have := d.isLt; have := a.isLt; have := b.isLt; have := lit.isLt; omega)
    (by simp only [append_toNat, BitVec.toNat_ofNat]; have := d.isLt; have := a.isLt; have := b.isLt; have := lit.isLt; omega)
    (by simp only [append_toNat, BitVec.toNat_ofNat]; have := d.isLt; have := a.isLt; have := b.isLt; have := lit.isLt; omega)
    rfl
  simp only [Bool.true_and] at h
  exact h
theorem Encoding.frcp (d : BitVec 8) (a : BitVec 8) (lit : BitVec 32) : Encoding.Statement (.frcp d a lit) := by
  refine ⟨Option.some_ne_none _, fun _ => ?_⟩
  have h := Encoding.g3 (w := 0x98#8 ++ d ++ a ++ 0x0#8) (op := 152) (a := a) (b := 0x0#8) (lit := lit) (p := true) (q := false)
    (by simp only [append_toNat, BitVec.toNat_ofNat]; have := d.isLt; have := a.isLt; have := lit.isLt; omega)
    (by simp only [append_toNat, BitVec.toNat_ofNat]; have := d.isLt; have := a.isLt; have := lit.isLt; omega)
    (by simp only [append_toNat, BitVec.toNat_ofNat]; have := d.isLt; have := a.isLt; have := lit.isLt; omega)
    rfl
  simp only [Bool.true_and, Bool.false_and, Bool.or_false] at h
  exact h
theorem Encoding.frsq (d : BitVec 8) (a : BitVec 8) (lit : BitVec 32) : Encoding.Statement (.frsq d a lit) := by
  refine ⟨Option.some_ne_none _, fun _ => ?_⟩
  have h := Encoding.g3 (w := 0x99#8 ++ d ++ a ++ 0x0#8) (op := 153) (a := a) (b := 0x0#8) (lit := lit) (p := true) (q := false)
    (by simp only [append_toNat, BitVec.toNat_ofNat]; have := d.isLt; have := a.isLt; have := lit.isLt; omega)
    (by simp only [append_toNat, BitVec.toNat_ofNat]; have := d.isLt; have := a.isLt; have := lit.isLt; omega)
    (by simp only [append_toNat, BitVec.toNat_ofNat]; have := d.isLt; have := a.isLt; have := lit.isLt; omega)
    rfl
  simp only [Bool.true_and, Bool.false_and, Bool.or_false] at h
  exact h
theorem Encoding.fsqrt (d : BitVec 8) (a : BitVec 8) (lit : BitVec 32) : Encoding.Statement (.fsqrt d a lit) := by
  refine ⟨Option.some_ne_none _, fun _ => ?_⟩
  have h := Encoding.g3 (w := 0x9a#8 ++ d ++ a ++ 0x0#8) (op := 154) (a := a) (b := 0x0#8) (lit := lit) (p := true) (q := false)
    (by simp only [append_toNat, BitVec.toNat_ofNat]; have := d.isLt; have := a.isLt; have := lit.isLt; omega)
    (by simp only [append_toNat, BitVec.toNat_ofNat]; have := d.isLt; have := a.isLt; have := lit.isLt; omega)
    (by simp only [append_toNat, BitVec.toNat_ofNat]; have := d.isLt; have := a.isLt; have := lit.isLt; omega)
    rfl
  simp only [Bool.true_and, Bool.false_and, Bool.or_false] at h
  exact h
theorem Encoding.fexp2 (d : BitVec 8) (a : BitVec 8) (lit : BitVec 32) : Encoding.Statement (.fexp2 d a lit) := by
  refine ⟨Option.some_ne_none _, fun _ => ?_⟩
  have h := Encoding.g3 (w := 0x9b#8 ++ d ++ a ++ 0x0#8) (op := 155) (a := a) (b := 0x0#8) (lit := lit) (p := true) (q := false)
    (by simp only [append_toNat, BitVec.toNat_ofNat]; have := d.isLt; have := a.isLt; have := lit.isLt; omega)
    (by simp only [append_toNat, BitVec.toNat_ofNat]; have := d.isLt; have := a.isLt; have := lit.isLt; omega)
    (by simp only [append_toNat, BitVec.toNat_ofNat]; have := d.isLt; have := a.isLt; have := lit.isLt; omega)
    rfl
  simp only [Bool.true_and, Bool.false_and, Bool.or_false] at h
  exact h
theorem Encoding.flog2 (d : BitVec 8) (a : BitVec 8) (lit : BitVec 32) : Encoding.Statement (.flog2 d a lit) := by
  refine ⟨Option.some_ne_none _, fun _ => ?_⟩
  have h := Encoding.g3 (w := 0x9c#8 ++ d ++ a ++ 0x0#8) (op := 156) (a := a) (b := 0x0#8) (lit := lit) (p := true) (q := false)
    (by simp only [append_toNat, BitVec.toNat_ofNat]; have := d.isLt; have := a.isLt; have := lit.isLt; omega)
    (by simp only [append_toNat, BitVec.toNat_ofNat]; have := d.isLt; have := a.isLt; have := lit.isLt; omega)
    (by simp only [append_toNat, BitVec.toNat_ofNat]; have := d.isLt; have := a.isLt; have := lit.isLt; omega)
    rfl
  simp only [Bool.true_and, Bool.false_and, Bool.or_false] at h
  exact h
theorem Encoding.fsin (d : BitVec 8) (a : BitVec 8) (lit : BitVec 32) : Encoding.Statement (.fsin d a lit) := by
  refine ⟨Option.some_ne_none _, fun _ => ?_⟩
  have h := Encoding.g3 (w := 0x9d#8 ++ d ++ a ++ 0x0#8) (op := 157) (a := a) (b := 0x0#8) (lit := lit) (p := true) (q := false)
    (by simp only [append_toNat, BitVec.toNat_ofNat]; have := d.isLt; have := a.isLt; have := lit.isLt; omega)
    (by simp only [append_toNat, BitVec.toNat_ofNat]; have := d.isLt; have := a.isLt; have := lit.isLt; omega)
    (by simp only [append_toNat, BitVec.toNat_ofNat]; have := d.isLt; have := a.isLt; have := lit.isLt; omega)
    rfl
  simp only [Bool.true_and, Bool.false_and, Bool.or_false] at h
  exact h
theorem Encoding.fcos (d : BitVec 8) (a : BitVec 8) (lit : BitVec 32) : Encoding.Statement (.fcos d a lit) := by
  refine ⟨Option.some_ne_none _, fun _ => ?_⟩
  have h := Encoding.g3 (w := 0x9e#8 ++ d ++ a ++ 0x0#8) (op := 158) (a := a) (b := 0x0#8) (lit := lit) (p := true) (q := false)
    (by simp only [append_toNat, BitVec.toNat_ofNat]; have := d.isLt; have := a.isLt; have := lit.isLt; omega)
    (by simp only [append_toNat, BitVec.toNat_ofNat]; have := d.isLt; have := a.isLt; have := lit.isLt; omega)
    (by simp only [append_toNat, BitVec.toNat_ofNat]; have := d.isLt; have := a.isLt; have := lit.isLt; omega)
    rfl
  simp only [Bool.true_and, Bool.false_and, Bool.or_false] at h
  exact h
theorem Encoding.ftanh (d : BitVec 8) (a : BitVec 8) (lit : BitVec 32) : Encoding.Statement (.ftanh d a lit) := by
  refine ⟨Option.some_ne_none _, fun _ => ?_⟩
  have h := Encoding.g3 (w := 0x9f#8 ++ d ++ a ++ 0x0#8) (op := 159) (a := a) (b := 0x0#8) (lit := lit) (p := true) (q := false)
    (by simp only [append_toNat, BitVec.toNat_ofNat]; have := d.isLt; have := a.isLt; have := lit.isLt; omega)
    (by simp only [append_toNat, BitVec.toNat_ofNat]; have := d.isLt; have := a.isLt; have := lit.isLt; omega)
    (by simp only [append_toNat, BitVec.toNat_ofNat]; have := d.isLt; have := a.isLt; have := lit.isLt; omega)
    rfl
  simp only [Bool.true_and, Bool.false_and, Bool.or_false] at h
  exact h
theorem Encoding.cvt (d : BitVec 8) (a : BitVec 8) (t : BitVec 4) (s : BitVec 4) (lit : BitVec 32) : Encoding.Statement (.cvt d a t s lit) := by
  refine ⟨Option.some_ne_none _, fun _ => ?_⟩
  have h := Encoding.g3 (w := 0xa0#8 ++ d ++ a ++ t ++ s) (op := 160) (a := a) (b := (t ++ s)) (lit := lit) (p := true) (q := false)
    (by simp only [append_toNat, BitVec.toNat_ofNat]; have := d.isLt; have := a.isLt; have := t.isLt; have := s.isLt; have := lit.isLt; omega)
    (by simp only [append_toNat, BitVec.toNat_ofNat]; have := d.isLt; have := a.isLt; have := t.isLt; have := s.isLt; have := lit.isLt; omega)
    (by simp only [append_toNat, BitVec.toNat_ofNat]; have := d.isLt; have := a.isLt; have := t.isLt; have := s.isLt; have := lit.isLt; omega)
    rfl
  simp only [Bool.true_and, Bool.false_and, Bool.or_false] at h
  exact h
theorem Encoding.qscale (d : BitVec 8) (a : BitVec 8) (lit : BitVec 32) : Encoding.Statement (.qscale d a lit) := by
  refine ⟨Option.some_ne_none _, fun _ => ?_⟩
  have h := Encoding.g3 (w := 0xa1#8 ++ d ++ a ++ 0x0#8) (op := 161) (a := a) (b := 0x0#8) (lit := lit) (p := true) (q := false)
    (by simp only [append_toNat, BitVec.toNat_ofNat]; have := d.isLt; have := a.isLt; have := lit.isLt; omega)
    (by simp only [append_toNat, BitVec.toNat_ofNat]; have := d.isLt; have := a.isLt; have := lit.isLt; omega)
    (by simp only [append_toNat, BitVec.toNat_ofNat]; have := d.isLt; have := a.isLt; have := lit.isLt; omega)
    rfl
  simp only [Bool.true_and, Bool.false_and, Bool.or_false] at h
  exact h
theorem Encoding.qpack8 (d : BitVec 8) (a : BitVec 8) (b : BitVec 8) (lit : BitVec 32) : Encoding.Statement (.qpack8 d a b lit) := by
  refine ⟨Option.some_ne_none _, fun _ => ?_⟩
  have h := Encoding.g3 (w := 0xa2#8 ++ d ++ a ++ b) (op := 162) (a := a) (b := b) (lit := lit) (p := true) (q := true)
    (by simp only [append_toNat, BitVec.toNat_ofNat]; have := d.isLt; have := a.isLt; have := b.isLt; have := lit.isLt; omega)
    (by simp only [append_toNat, BitVec.toNat_ofNat]; have := d.isLt; have := a.isLt; have := b.isLt; have := lit.isLt; omega)
    (by simp only [append_toNat, BitVec.toNat_ofNat]; have := d.isLt; have := a.isLt; have := b.isLt; have := lit.isLt; omega)
    rfl
  simp only [Bool.true_and] at h
  exact h
theorem Encoding.qunpack8 (d : BitVec 8) (a : BitVec 8) (b : BitVec 8) (lit : BitVec 32) : Encoding.Statement (.qunpack8 d a b lit) := by
  refine ⟨Option.some_ne_none _, fun _ => ?_⟩
  have h := Encoding.g3 (w := 0xa3#8 ++ d ++ a ++ b) (op := 163) (a := a) (b := b) (lit := lit) (p := true) (q := true)
    (by simp only [append_toNat, BitVec.toNat_ofNat]; have := d.isLt; have := a.isLt; have := b.isLt; have := lit.isLt; omega)
    (by simp only [append_toNat, BitVec.toNat_ofNat]; have := d.isLt; have := a.isLt; have := b.isLt; have := lit.isLt; omega)
    (by simp only [append_toNat, BitVec.toNat_ofNat]; have := d.isLt; have := a.isLt; have := b.isLt; have := lit.isLt; omega)
    rfl
  simp only [Bool.true_and] at h
  exact h
theorem Encoding.pack (d : BitVec 8) (a : BitVec 8) (b : BitVec 8) (lit : BitVec 32) : Encoding.Statement (.pack d a b lit) := by
  refine ⟨Option.some_ne_none _, fun _ => ?_⟩
  have h := Encoding.g3 (w := 0xa4#8 ++ d ++ a ++ b) (op := 164) (a := a) (b := b) (lit := lit) (p := true) (q := true)
    (by simp only [append_toNat, BitVec.toNat_ofNat]; have := d.isLt; have := a.isLt; have := b.isLt; have := lit.isLt; omega)
    (by simp only [append_toNat, BitVec.toNat_ofNat]; have := d.isLt; have := a.isLt; have := b.isLt; have := lit.isLt; omega)
    (by simp only [append_toNat, BitVec.toNat_ofNat]; have := d.isLt; have := a.isLt; have := b.isLt; have := lit.isLt; omega)
    rfl
  simp only [Bool.true_and] at h
  exact h
theorem Encoding.unpack (d : BitVec 8) (a : BitVec 8) (lit : BitVec 32) : Encoding.Statement (.unpack d a lit) := by
  refine ⟨Option.some_ne_none _, fun _ => ?_⟩
  have h := Encoding.g3 (w := 0xa5#8 ++ d ++ a ++ 0x0#8) (op := 165) (a := a) (b := 0x0#8) (lit := lit) (p := true) (q := false)
    (by simp only [append_toNat, BitVec.toNat_ofNat]; have := d.isLt; have := a.isLt; have := lit.isLt; omega)
    (by simp only [append_toNat, BitVec.toNat_ofNat]; have := d.isLt; have := a.isLt; have := lit.isLt; omega)
    (by simp only [append_toNat, BitVec.toNat_ofNat]; have := d.isLt; have := a.isLt; have := lit.isLt; omega)
    rfl
  simp only [Bool.true_and, Bool.false_and, Bool.or_false] at h
  exact h
theorem Encoding.trpack (d : BitVec 8) (a : BitVec 8) (lit : BitVec 32) : Encoding.Statement (.trpack d a lit) := by
  refine ⟨Option.some_ne_none _, fun _ => ?_⟩
  have h := Encoding.g3 (w := 0xa6#8 ++ d ++ a ++ 0x0#8) (op := 166) (a := a) (b := 0x0#8) (lit := lit) (p := true) (q := false)
    (by simp only [append_toNat, BitVec.toNat_ofNat]; have := d.isLt; have := a.isLt; have := lit.isLt; omega)
    (by simp only [append_toNat, BitVec.toNat_ofNat]; have := d.isLt; have := a.isLt; have := lit.isLt; omega)
    (by simp only [append_toNat, BitVec.toNat_ofNat]; have := d.isLt; have := a.isLt; have := lit.isLt; omega)
    rfl
  simp only [Bool.true_and, Bool.false_and, Bool.or_false] at h
  exact h
theorem Encoding.ld (w : BitVec 3) (d : BitVec 8) (a : BitVec 8) (f : BitVec 4) (o : BitVec 4) : Encoding.Statement (.ld w d a f o) := by
  refine ⟨Option.some_ne_none _, fun hwf => ?_⟩
  have hl : ∀ a b, Machine.lenOf (64 + w.toNat) a b = 1 := by
    intro a b
    have h7 : w.toNat < 8 := w.isLt
    have hw : (decide (w.toNat ≤ 6) && flagOk f) = true := hwf
    simp only [Bool.and_eq_true, decide_eq_true_eq] at hw
    generalize w.toNat = x at *
    interval_cases x <;> rfl
  exact Encoding.fixed (op := (64 + w.toNat)) (n := 1) (by simp only [append_toNat, BitVec.toNat_ofNat]; have := w.isLt; have := d.isLt; have := a.isLt; have := f.isLt; have := o.isLt; omega) rfl rfl (hl _ _) rfl
theorem Encoding.ldXform (w : BitVec 3) (d : BitVec 8) (a : BitVec 8) (f : BitVec 4) (o : BitVec 4) (x : BitVec 32) : Encoding.Statement (.ldXform w d a f o x) := by
  refine ⟨Option.some_ne_none _, fun hwf => ?_⟩
  have hl : ∀ a b, Machine.lenOf (72 + w.toNat) a b = 2 := by
    intro a b
    have h7 : w.toNat < 8 := w.isLt
    have hw : (decide (w.toNat ≤ 6) && flagOk f && extOk x) = true := hwf
    simp only [Bool.and_eq_true, decide_eq_true_eq] at hw
    generalize w.toNat = x at *
    interval_cases x <;> first | rfl | (exfalso; revert hw; simp)
  exact Encoding.fixed (op := (72 + w.toNat)) (n := 2) (by simp only [append_toNat, BitVec.toNat_ofNat]; have := w.isLt; have := d.isLt; have := a.isLt; have := f.isLt; have := o.isLt; have := x.isLt; omega) rfl rfl (hl _ _) rfl
theorem Encoding.ldSpec (w : BitVec 3) (d : BitVec 8) (a : BitVec 8) (f : BitVec 4) (o : BitVec 4) : Encoding.Statement (.ldSpec w d a f o) := by
  refine ⟨Option.some_ne_none _, fun hwf => ?_⟩
  have hl : ∀ a b, Machine.lenOf (80 + w.toNat) a b = 1 := by
    intro a b
    have h7 : w.toNat < 8 := w.isLt
    have hw : (decide (w.toNat ≤ 5) && flagOk f) = true := hwf
    simp only [Bool.and_eq_true, decide_eq_true_eq] at hw
    generalize w.toNat = x at *
    interval_cases x <;> rfl
  exact Encoding.fixed (op := (80 + w.toNat)) (n := 1) (by simp only [append_toNat, BitVec.toNat_ofNat]; have := w.isLt; have := d.isLt; have := a.isLt; have := f.isLt; have := o.isLt; omega) rfl rfl (hl _ _) rfl
theorem Encoding.ldSpecXform (w : BitVec 3) (d : BitVec 8) (a : BitVec 8) (f : BitVec 4) (o : BitVec 4) (x : BitVec 32) : Encoding.Statement (.ldSpecXform w d a f o x) := by
  refine ⟨Option.some_ne_none _, fun hwf => ?_⟩
  have hl : ∀ a b, Machine.lenOf (88 + w.toNat) a b = 2 := by
    intro a b
    have h7 : w.toNat < 8 := w.isLt
    have hw : (decide (w.toNat ≤ 5) && flagOk f && extOk x) = true := hwf
    simp only [Bool.and_eq_true, decide_eq_true_eq] at hw
    generalize w.toNat = x at *
    interval_cases x <;> first | rfl | (exfalso; revert hw; simp)
  exact Encoding.fixed (op := (88 + w.toNat)) (n := 2) (by simp only [append_toNat, BitVec.toNat_ofNat]; have := w.isLt; have := d.isLt; have := a.isLt; have := f.isLt; have := o.isLt; have := x.isLt; omega) rfl rfl (hl _ _) rfl
theorem Encoding.st (w : BitVec 3) (d : BitVec 8) (a : BitVec 8) (f : BitVec 4) (o : BitVec 4) : Encoding.Statement (.st w d a f o) := by
  refine ⟨Option.some_ne_none _, fun hwf => ?_⟩
  have hl : ∀ a b, Machine.lenOf (96 + w.toNat) a b = 1 := by
    intro a b
    have h7 : w.toNat < 8 := w.isLt
    have hw : (stWidthOk w && flagOk f) = true := hwf
    simp only [stWidthOk, Bool.and_eq_true, decide_eq_true_eq] at hw
    generalize w.toNat = x at *
    interval_cases x <;> rfl
  exact Encoding.fixed (op := (96 + w.toNat)) (n := 1) (by simp only [append_toNat, BitVec.toNat_ofNat]; have := w.isLt; have := d.isLt; have := a.isLt; have := f.isLt; have := o.isLt; omega) rfl rfl (hl _ _) rfl
theorem Encoding.stXform (w : BitVec 3) (d : BitVec 8) (a : BitVec 8) (f : BitVec 4) (o : BitVec 4) (x : BitVec 32) : Encoding.Statement (.stXform w d a f o x) := by
  refine ⟨Option.some_ne_none _, fun hwf => ?_⟩
  have hl : ∀ a b, Machine.lenOf (104 + w.toNat) a b = 2 := by
    intro a b
    have h7 : w.toNat < 8 := w.isLt
    have hw : (stWidthOk w && flagOk f && extOk x) = true := hwf
    simp only [stWidthOk, Bool.and_eq_true, decide_eq_true_eq] at hw
    generalize w.toNat = x at *
    interval_cases x <;> first | rfl | (exfalso; revert hw; simp)
  exact Encoding.fixed (op := (104 + w.toNat)) (n := 2) (by simp only [append_toNat, BitVec.toNat_ofNat]; have := w.isLt; have := d.isLt; have := a.isLt; have := f.isLt; have := o.isLt; have := x.isLt; omega) rfl rfl (hl _ _) rfl
theorem Encoding.ldxRow (d : BitVec 8) (a : BitVec 8) (f : BitVec 4) (o : BitVec 4) : Encoding.Statement (.ldxRow d a f o) := by
  refine ⟨Option.some_ne_none _, fun _ => ?_⟩
  exact Encoding.fixed (w := 0x70#8 ++ d ++ a ++ f ++ o) (ws := []) (op := 112) (n := 1) (by simp only [append_toNat, BitVec.toNat_ofNat]; have := d.isLt; have := a.isLt; have := f.isLt; have := o.isLt; omega) rfl rfl rfl rfl
theorem Encoding.ldxRowXform (d : BitVec 8) (a : BitVec 8) (f : BitVec 4) (o : BitVec 4) (x : BitVec 32) : Encoding.Statement (.ldxRowXform d a f o x) := by
  refine ⟨Option.some_ne_none _, fun _ => ?_⟩
  exact Encoding.fixed (w := 0x78#8 ++ d ++ a ++ f ++ o) (ws := [x]) (op := 120) (n := 2) (by simp only [append_toNat, BitVec.toNat_ofNat]; have := d.isLt; have := a.isLt; have := f.isLt; have := o.isLt; have := x.isLt; omega) rfl rfl rfl rfl
theorem Encoding.ldxCol (d : BitVec 8) (a : BitVec 8) (f : BitVec 4) (o : BitVec 4) : Encoding.Statement (.ldxCol d a f o) := by
  refine ⟨Option.some_ne_none _, fun _ => ?_⟩
  exact Encoding.fixed (w := 0x71#8 ++ d ++ a ++ f ++ o) (ws := []) (op := 113) (n := 1) (by simp only [append_toNat, BitVec.toNat_ofNat]; have := d.isLt; have := a.isLt; have := f.isLt; have := o.isLt; omega) rfl rfl rfl rfl
theorem Encoding.ldxColXform (d : BitVec 8) (a : BitVec 8) (f : BitVec 4) (o : BitVec 4) (x : BitVec 32) : Encoding.Statement (.ldxColXform d a f o x) := by
  refine ⟨Option.some_ne_none _, fun _ => ?_⟩
  exact Encoding.fixed (w := 0x79#8 ++ d ++ a ++ f ++ o) (ws := [x]) (op := 121) (n := 2) (by simp only [append_toNat, BitVec.toNat_ofNat]; have := d.isLt; have := a.isLt; have := f.isLt; have := o.isLt; have := x.isLt; omega) rfl rfl rfl rfl
theorem Encoding.stxRow (d : BitVec 8) (a : BitVec 8) (f : BitVec 4) (o : BitVec 4) : Encoding.Statement (.stxRow d a f o) := by
  refine ⟨Option.some_ne_none _, fun _ => ?_⟩
  exact Encoding.fixed (w := 0x72#8 ++ d ++ a ++ f ++ o) (ws := []) (op := 114) (n := 1) (by simp only [append_toNat, BitVec.toNat_ofNat]; have := d.isLt; have := a.isLt; have := f.isLt; have := o.isLt; omega) rfl rfl rfl rfl
theorem Encoding.stxRowXform (d : BitVec 8) (a : BitVec 8) (f : BitVec 4) (o : BitVec 4) (x : BitVec 32) : Encoding.Statement (.stxRowXform d a f o x) := by
  refine ⟨Option.some_ne_none _, fun _ => ?_⟩
  exact Encoding.fixed (w := 0x7a#8 ++ d ++ a ++ f ++ o) (ws := [x]) (op := 122) (n := 2) (by simp only [append_toNat, BitVec.toNat_ofNat]; have := d.isLt; have := a.isLt; have := f.isLt; have := o.isLt; have := x.isLt; omega) rfl rfl rfl rfl
theorem Encoding.stxCol (d : BitVec 8) (a : BitVec 8) (f : BitVec 4) (o : BitVec 4) : Encoding.Statement (.stxCol d a f o) := by
  refine ⟨Option.some_ne_none _, fun _ => ?_⟩
  exact Encoding.fixed (w := 0x73#8 ++ d ++ a ++ f ++ o) (ws := []) (op := 115) (n := 1) (by simp only [append_toNat, BitVec.toNat_ofNat]; have := d.isLt; have := a.isLt; have := f.isLt; have := o.isLt; omega) rfl rfl rfl rfl
theorem Encoding.stxColXform (d : BitVec 8) (a : BitVec 8) (f : BitVec 4) (o : BitVec 4) (x : BitVec 32) : Encoding.Statement (.stxColXform d a f o x) := by
  refine ⟨Option.some_ne_none _, fun _ => ?_⟩
  exact Encoding.fixed (w := 0x7b#8 ++ d ++ a ++ f ++ o) (ws := [x]) (op := 123) (n := 2) (by simp only [append_toNat, BitVec.toNat_ofNat]; have := d.isLt; have := a.isLt; have := f.isLt; have := o.isLt; have := x.isLt; omega) rfl rfl rfl rfl
theorem Encoding.prefetch (a : BitVec 8) (f : BitVec 4) (o : BitVec 4) : Encoding.Statement (.prefetch a f o) := by
  refine ⟨Option.some_ne_none _, fun _ => ?_⟩
  exact Encoding.fixed (w := 0x7400#16 ++ a ++ f ++ o) (ws := []) (op := 116) (n := 1) (by simp only [append_toNat, BitVec.toNat_ofNat]; have := a.isLt; have := f.isLt; have := o.isLt; omega) rfl rfl rfl rfl
theorem Encoding.prefetchXform (a : BitVec 8) (f : BitVec 4) (o : BitVec 4) (x : BitVec 32) : Encoding.Statement (.prefetchXform a f o x) := by
  refine ⟨Option.some_ne_none _, fun _ => ?_⟩
  exact Encoding.fixed (w := 0x7c00#16 ++ a ++ f ++ o) (ws := [x]) (op := 124) (n := 2) (by simp only [append_toNat, BitVec.toNat_ofNat]; have := a.isLt; have := f.isLt; have := o.isLt; have := x.isLt; omega) rfl rfl rfl rfl
theorem Encoding.cinv (a : BitVec 8) (f : BitVec 4) (o : BitVec 4) : Encoding.Statement (.cinv a f o) := by
  refine ⟨Option.some_ne_none _, fun _ => ?_⟩
  exact Encoding.fixed (w := 0x7500#16 ++ a ++ f ++ o) (ws := []) (op := 117) (n := 1) (by simp only [append_toNat, BitVec.toNat_ofNat]; have := a.isLt; have := f.isLt; have := o.isLt; omega) rfl rfl rfl rfl
theorem Encoding.cinvXform (a : BitVec 8) (f : BitVec 4) (o : BitVec 4) (x : BitVec 32) : Encoding.Statement (.cinvXform a f o x) := by
  refine ⟨Option.some_ne_none _, fun _ => ?_⟩
  exact Encoding.fixed (w := 0x7d00#16 ++ a ++ f ++ o) (ws := [x]) (op := 125) (n := 2) (by simp only [append_toNat, BitVec.toNat_ofNat]; have := a.isLt; have := f.isLt; have := o.isLt; have := x.isLt; omega) rfl rfl rfl rfl
theorem Encoding.cwb (a : BitVec 8) (f : BitVec 4) (o : BitVec 4) : Encoding.Statement (.cwb a f o) := by
  refine ⟨Option.some_ne_none _, fun _ => ?_⟩
  exact Encoding.fixed (w := 0x7600#16 ++ a ++ f ++ o) (ws := []) (op := 118) (n := 1) (by simp only [append_toNat, BitVec.toNat_ofNat]; have := a.isLt; have := f.isLt; have := o.isLt; omega) rfl rfl rfl rfl
theorem Encoding.cwbXform (a : BitVec 8) (f : BitVec 4) (o : BitVec 4) (x : BitVec 32) : Encoding.Statement (.cwbXform a f o x) := by
  refine ⟨Option.some_ne_none _, fun _ => ?_⟩
  exact Encoding.fixed (w := 0x7e00#16 ++ a ++ f ++ o) (ws := [x]) (op := 126) (n := 2) (by simp only [append_toNat, BitVec.toNat_ofNat]; have := a.isLt; have := f.isLt; have := o.isLt; have := x.isLt; omega) rfl rfl rfl rfl
theorem Encoding.atomAdd (d : BitVec 8) (a : BitVec 8) (b : BitVec 8) (x : BitVec 32) : Encoding.Statement (.atomAdd d a b x) := by
  refine ⟨Option.some_ne_none _, fun _ => ?_⟩
  exact Encoding.fixed (w := 0xb0#8 ++ d ++ a ++ b) (ws := [x]) (op := 176) (n := 2) (by simp only [append_toNat, BitVec.toNat_ofNat]; have := d.isLt; have := a.isLt; have := b.isLt; have := x.isLt; omega) rfl rfl rfl rfl
theorem Encoding.atomMin (d : BitVec 8) (a : BitVec 8) (b : BitVec 8) (x : BitVec 32) : Encoding.Statement (.atomMin d a b x) := by
  refine ⟨Option.some_ne_none _, fun _ => ?_⟩
  exact Encoding.fixed (w := 0xb1#8 ++ d ++ a ++ b) (ws := [x]) (op := 177) (n := 2) (by simp only [append_toNat, BitVec.toNat_ofNat]; have := d.isLt; have := a.isLt; have := b.isLt; have := x.isLt; omega) rfl rfl rfl rfl
theorem Encoding.atomMax (d : BitVec 8) (a : BitVec 8) (b : BitVec 8) (x : BitVec 32) : Encoding.Statement (.atomMax d a b x) := by
  refine ⟨Option.some_ne_none _, fun _ => ?_⟩
  exact Encoding.fixed (w := 0xb2#8 ++ d ++ a ++ b) (ws := [x]) (op := 178) (n := 2) (by simp only [append_toNat, BitVec.toNat_ofNat]; have := d.isLt; have := a.isLt; have := b.isLt; have := x.isLt; omega) rfl rfl rfl rfl
theorem Encoding.atomAnd (d : BitVec 8) (a : BitVec 8) (b : BitVec 8) (x : BitVec 32) : Encoding.Statement (.atomAnd d a b x) := by
  refine ⟨Option.some_ne_none _, fun _ => ?_⟩
  exact Encoding.fixed (w := 0xb3#8 ++ d ++ a ++ b) (ws := [x]) (op := 179) (n := 2) (by simp only [append_toNat, BitVec.toNat_ofNat]; have := d.isLt; have := a.isLt; have := b.isLt; have := x.isLt; omega) rfl rfl rfl rfl
theorem Encoding.atomOr (d : BitVec 8) (a : BitVec 8) (b : BitVec 8) (x : BitVec 32) : Encoding.Statement (.atomOr d a b x) := by
  refine ⟨Option.some_ne_none _, fun _ => ?_⟩
  exact Encoding.fixed (w := 0xb4#8 ++ d ++ a ++ b) (ws := [x]) (op := 180) (n := 2) (by simp only [append_toNat, BitVec.toNat_ofNat]; have := d.isLt; have := a.isLt; have := b.isLt; have := x.isLt; omega) rfl rfl rfl rfl
theorem Encoding.atomXor (d : BitVec 8) (a : BitVec 8) (b : BitVec 8) (x : BitVec 32) : Encoding.Statement (.atomXor d a b x) := by
  refine ⟨Option.some_ne_none _, fun _ => ?_⟩
  exact Encoding.fixed (w := 0xb5#8 ++ d ++ a ++ b) (ws := [x]) (op := 181) (n := 2) (by simp only [append_toNat, BitVec.toNat_ofNat]; have := d.isLt; have := a.isLt; have := b.isLt; have := x.isLt; omega) rfl rfl rfl rfl
theorem Encoding.atomExch (d : BitVec 8) (a : BitVec 8) (b : BitVec 8) (x : BitVec 32) : Encoding.Statement (.atomExch d a b x) := by
  refine ⟨Option.some_ne_none _, fun _ => ?_⟩
  exact Encoding.fixed (w := 0xb6#8 ++ d ++ a ++ b) (ws := [x]) (op := 182) (n := 2) (by simp only [append_toNat, BitVec.toNat_ofNat]; have := d.isLt; have := a.isLt; have := b.isLt; have := x.isLt; omega) rfl rfl rfl rfl
theorem Encoding.atomCas (d : BitVec 8) (a : BitVec 8) (b : BitVec 8) (x : BitVec 32) : Encoding.Statement (.atomCas d a b x) := by
  refine ⟨Option.some_ne_none _, fun _ => ?_⟩
  exact Encoding.fixed (w := 0xb7#8 ++ d ++ a ++ b) (ws := [x]) (op := 183) (n := 2) (by simp only [append_toNat, BitVec.toNat_ofNat]; have := d.isLt; have := a.isLt; have := b.isLt; have := x.isLt; omega) rfl rfl rfl rfl
theorem Encoding.atomFadd (d : BitVec 8) (a : BitVec 8) (b : BitVec 8) (x : BitVec 32) : Encoding.Statement (.atomFadd d a b x) := by
  refine ⟨Option.some_ne_none _, fun _ => ?_⟩
  exact Encoding.fixed (w := 0xb8#8 ++ d ++ a ++ b) (ws := [x]) (op := 184) (n := 2) (by simp only [append_toNat, BitVec.toNat_ofNat]; have := d.isLt; have := a.isLt; have := b.isLt; have := x.isLt; omega) rfl rfl rfl rfl
theorem Encoding.red (d : BitVec 8) (a : BitVec 8) (b : BitVec 8) (x : BitVec 32) : Encoding.Statement (.red d a b x) := by
  refine ⟨Option.some_ne_none _, fun _ => ?_⟩
  exact Encoding.fixed (w := 0xb9#8 ++ d ++ a ++ b) (ws := [x]) (op := 185) (n := 2) (by simp only [append_toNat, BitVec.toNat_ofNat]; have := d.isLt; have := a.isLt; have := b.isLt; have := x.isLt; omega) rfl rfl rfl rfl
theorem Encoding.fence (s : BitVec 4) (o : BitVec 2) : Encoding.Statement (.fence s o) := by
  refine ⟨Option.some_ne_none _, fun _ => ?_⟩
  exact Encoding.fixed (w := 0xba0000#24 ++ s ++ 0x0#2 ++ o) (ws := []) (op := 186) (n := 1) (by simp only [append_toNat, BitVec.toNat_ofNat]; have := s.isLt; have := o.isLt; omega) rfl rfl rfl rfl
theorem Encoding.fenceRec : Encoding.Statement .fenceRec := by
  refine ⟨Option.some_ne_none _, fun _ => ?_⟩
  exact Encoding.fixed (w := 0xbb000000#32) (ws := []) (op := 187) (n := 1) (by decide) rfl rfl rfl rfl
theorem Encoding.fenceCode : Encoding.Statement .fenceCode := by
  refine ⟨Option.some_ne_none _, fun _ => ?_⟩
  exact Encoding.fixed (w := 0xbc000000#32) (ws := []) (op := 188) (n := 1) (by decide) rfl rfl rfl rfl
theorem Encoding.fenceMap (w : BitVec 8) (c : BitVec 8) (lit : BitVec 32) : Encoding.Statement (.fenceMap w c lit) := by
  refine ⟨Option.some_ne_none _, fun _ => ?_⟩
  have h := Encoding.g3 (w := 0xbd00#16 ++ w ++ c) (op := 189) (a := w) (b := c) (lit := lit) (p := true) (q := true)
    (by simp only [append_toNat, BitVec.toNat_ofNat]; have := w.isLt; have := c.isLt; have := lit.isLt; omega)
    (by simp only [append_toNat, BitVec.toNat_ofNat]; have := w.isLt; have := c.isLt; have := lit.isLt; omega)
    (by simp only [append_toNat, BitVec.toNat_ofNat]; have := w.isLt; have := c.isLt; have := lit.isLt; omega)
    rfl
  simp only [Bool.true_and] at h
  exact h
theorem Encoding.shedArrive (n : BitVec 8) : Encoding.Statement (.shedArrive n) := by
  refine ⟨Option.some_ne_none _, fun _ => ?_⟩
  exact Encoding.fixed (w := 0xc000#16 ++ n ++ 0x0#8) (ws := []) (op := 192) (n := 1) (by simp only [append_toNat, BitVec.toNat_ofNat]; have := n.isLt; omega) rfl rfl rfl rfl
theorem Encoding.shedWait (n : BitVec 8) : Encoding.Statement (.shedWait n) := by
  refine ⟨Option.some_ne_none _, fun _ => ?_⟩
  exact Encoding.fixed (w := 0xc100#16 ++ n ++ 0x0#8) (ws := []) (op := 193) (n := 1) (by simp only [append_toNat, BitVec.toNat_ofNat]; have := n.isLt; omega) rfl rfl rfl rfl
theorem Encoding.shedSync (n : BitVec 8) : Encoding.Statement (.shedSync n) := by
  refine ⟨Option.some_ne_none _, fun _ => ?_⟩
  exact Encoding.fixed (w := 0xc200#16 ++ n ++ 0x0#8) (ws := []) (op := 194) (n := 1) (by simp only [append_toNat, BitVec.toNat_ofNat]; have := n.isLt; omega) rfl rfl rfl rfl
theorem Encoding.shedInit (n : BitVec 8) (v : BitVec 8) (lit : BitVec 32) : Encoding.Statement (.shedInit n v lit) := by
  refine ⟨Option.some_ne_none _, fun _ => ?_⟩
  have h := Encoding.g3 (w := 0xc300#16 ++ n ++ v) (op := 195) (a := n) (b := v) (lit := lit) (p := false) (q := true)
    (by simp only [append_toNat, BitVec.toNat_ofNat]; have := n.isLt; have := v.isLt; have := lit.isLt; omega)
    (by simp only [append_toNat, BitVec.toNat_ofNat]; have := n.isLt; have := v.isLt; have := lit.isLt; omega)
    (by simp only [append_toNat, BitVec.toNat_ofNat]; have := n.isLt; have := v.isLt; have := lit.isLt; omega)
    rfl
  simp only [Bool.true_and, Bool.false_and, Bool.false_or] at h
  exact h
theorem Encoding.cp (d : BitVec 8) (s : BitVec 8) (l : BitVec 8) (lit : BitVec 32) : Encoding.Statement (.cp d s l lit) := by
  refine ⟨Option.some_ne_none _, fun _ => ?_⟩
  have h := Encoding.g3 (w := 0xc4#8 ++ d ++ s ++ l) (op := 196) (a := s) (b := l) (lit := lit) (p := true) (q := true)
    (by simp only [append_toNat, BitVec.toNat_ofNat]; have := d.isLt; have := s.isLt; have := l.isLt; have := lit.isLt; omega)
    (by simp only [append_toNat, BitVec.toNat_ofNat]; have := d.isLt; have := s.isLt; have := l.isLt; have := lit.isLt; omega)
    (by simp only [append_toNat, BitVec.toNat_ofNat]; have := d.isLt; have := s.isLt; have := l.isLt; have := lit.isLt; omega)
    rfl
  simp only [Bool.true_and] at h
  exact h
theorem Encoding.cp2d (d : BitVec 8) (a : BitVec 8) (b : BitVec 8) (c : BitVec 8) (lit : BitVec 24) : Encoding.Statement (.cp2d d a b c lit) := by
  refine ⟨Option.some_ne_none _, fun _ => ?_⟩
  exact Encoding.fixed (w := 0xc5#8 ++ d ++ a ++ b) (ws := [lit ++ c]) (op := 197) (n := 2) (by simp only [append_toNat, BitVec.toNat_ofNat]; have := d.isLt; have := a.isLt; have := b.isLt; have := c.isLt; have := lit.isLt; omega) rfl rfl rfl rfl
theorem Encoding.cpGather (d : BitVec 8) (a : BitVec 8) (b : BitVec 8) (c : BitVec 8) (lit : BitVec 24) : Encoding.Statement (.cpGather d a b c lit) := by
  refine ⟨Option.some_ne_none _, fun _ => ?_⟩
  exact Encoding.fixed (w := 0xc6#8 ++ d ++ a ++ b) (ws := [lit ++ c]) (op := 198) (n := 2) (by simp only [append_toNat, BitVec.toNat_ofNat]; have := d.isLt; have := a.isLt; have := b.isLt; have := c.isLt; have := lit.isLt; omega) rfl rfl rfl rfl
theorem Encoding.cpMcast (d : BitVec 8) (a : BitVec 8) (b : BitVec 8) (c : BitVec 8) (lit : BitVec 24) : Encoding.Statement (.cpMcast d a b c lit) := by
  refine ⟨Option.some_ne_none _, fun _ => ?_⟩
  exact Encoding.fixed (w := 0xc7#8 ++ d ++ a ++ b) (ws := [lit ++ c]) (op := 199) (n := 2) (by simp only [append_toNat, BitVec.toNat_ofNat]; have := d.isLt; have := a.isLt; have := b.isLt; have := c.isLt; have := lit.isLt; omega) rfl rfl rfl rfl
theorem Encoding.cseal (d : BitVec 8) : Encoding.Statement (.cseal d) := by
  refine ⟨Option.some_ne_none _, fun _ => ?_⟩
  exact Encoding.fixed (w := 0xc8#8 ++ d ++ 0x0#16) (ws := []) (op := 200) (n := 1) (by simp only [append_toNat, BitVec.toNat_ofNat]; have := d.isLt; omega) rfl rfl rfl rfl
theorem Encoding.cwait (d : BitVec 8) (n : BitVec 8) (lit : BitVec 32) : Encoding.Statement (.cwait d n lit) := by
  refine ⟨Option.some_ne_none _, fun _ => ?_⟩
  have h := Encoding.g3 (w := 0xc9#8 ++ d ++ n ++ 0x0#8) (op := 201) (a := n) (b := 0x0#8) (lit := lit) (p := true) (q := false)
    (by simp only [append_toNat, BitVec.toNat_ofNat]; have := d.isLt; have := n.isLt; have := lit.isLt; omega)
    (by simp only [append_toNat, BitVec.toNat_ofNat]; have := d.isLt; have := n.isLt; have := lit.isLt; omega)
    (by simp only [append_toNat, BitVec.toNat_ofNat]; have := d.isLt; have := n.isLt; have := lit.isLt; omega)
    rfl
  simp only [Bool.true_and, Bool.false_and, Bool.or_false] at h
  exact h
theorem Encoding.bobInit (d : BitVec 8) (a : BitVec 8) (b : BitVec 8) (c : BitVec 8) (lit : BitVec 24) : Encoding.Statement (.bobInit d a b c lit) := by
  refine ⟨Option.some_ne_none _, fun _ => ?_⟩
  exact Encoding.fixed (w := 0xca#8 ++ d ++ a ++ b) (ws := [lit ++ c]) (op := 202) (n := 2) (by simp only [append_toNat, BitVec.toNat_ofNat]; have := d.isLt; have := a.isLt; have := b.isLt; have := c.isLt; have := lit.isLt; omega) rfl rfl rfl rfl
theorem Encoding.bobClaim (d : BitVec 8) (n : BitVec 8) : Encoding.Statement (.bobClaim d n) := by
  refine ⟨Option.some_ne_none _, fun _ => ?_⟩
  exact Encoding.fixed (w := 0xcb#8 ++ d ++ n ++ 0x0#8) (ws := []) (op := 203) (n := 1) (by simp only [append_toNat, BitVec.toNat_ofNat]; have := d.isLt; have := n.isLt; omega) rfl rfl rfl rfl
theorem Encoding.bobExpect (n : BitVec 8) (c : BitVec 8) (lit : BitVec 32) : Encoding.Statement (.bobExpect n c lit) := by
  refine ⟨Option.some_ne_none _, fun _ => ?_⟩
  have h := Encoding.g3 (w := 0xcc00#16 ++ n ++ c) (op := 204) (a := n) (b := c) (lit := lit) (p := false) (q := true)
    (by simp only [append_toNat, BitVec.toNat_ofNat]; have := n.isLt; have := c.isLt; have := lit.isLt; omega)
    (by simp only [append_toNat, BitVec.toNat_ofNat]; have := n.isLt; have := c.isLt; have := lit.isLt; omega)
    (by simp only [append_toNat, BitVec.toNat_ofNat]; have := n.isLt; have := c.isLt; have := lit.isLt; omega)
    rfl
  simp only [Bool.true_and, Bool.false_and, Bool.false_or] at h
  exact h
theorem Encoding.bobAwait (d : BitVec 8) (n : BitVec 8) : Encoding.Statement (.bobAwait d n) := by
  refine ⟨Option.some_ne_none _, fun _ => ?_⟩
  exact Encoding.fixed (w := 0xcd#8 ++ d ++ n ++ 0x0#8) (ws := []) (op := 205) (n := 1) (by simp only [append_toNat, BitVec.toNat_ofNat]; have := d.isLt; have := n.isLt; omega) rfl rfl rfl rfl
theorem Encoding.bobRel (n : BitVec 8) : Encoding.Statement (.bobRel n) := by
  refine ⟨Option.some_ne_none _, fun _ => ?_⟩
  exact Encoding.fixed (w := 0xce00#16 ++ n ++ 0x0#8) (ws := []) (op := 206) (n := 1) (by simp only [append_toNat, BitVec.toNat_ofNat]; have := n.isLt; omega) rfl rfl rfl rfl
theorem Encoding.recAlloc (d : BitVec 8) (p : BitVec 8) (n : BitVec 8) (lit : BitVec 32) : Encoding.Statement (.recAlloc d p n lit) := by
  refine ⟨Option.some_ne_none _, fun _ => ?_⟩
  have h := Encoding.g3 (w := 0xd0#8 ++ d ++ p ++ n) (op := 208) (a := p) (b := n) (lit := lit) (p := true) (q := true)
    (by simp only [append_toNat, BitVec.toNat_ofNat]; have := d.isLt; have := p.isLt; have := n.isLt; have := lit.isLt; omega)
    (by simp only [append_toNat, BitVec.toNat_ofNat]; have := d.isLt; have := p.isLt; have := n.isLt; have := lit.isLt; omega)
    (by simp only [append_toNat, BitVec.toNat_ofNat]; have := d.isLt; have := p.isLt; have := n.isLt; have := lit.isLt; omega)
    rfl
  simp only [Bool.true_and] at h
  exact h
theorem Encoding.recCommit (a : BitVec 8) (lit : BitVec 32) : Encoding.Statement (.recCommit a lit) := by
  refine ⟨Option.some_ne_none _, fun _ => ?_⟩
  have h := Encoding.g3 (w := 0xd100#16 ++ a ++ 0x0#8) (op := 209) (a := a) (b := 0x0#8) (lit := lit) (p := true) (q := false)
    (by simp only [append_toNat, BitVec.toNat_ofNat]; have := a.isLt; have := lit.isLt; omega)
    (by simp only [append_toNat, BitVec.toNat_ofNat]; have := a.isLt; have := lit.isLt; omega)
    (by simp only [append_toNat, BitVec.toNat_ofNat]; have := a.isLt; have := lit.isLt; omega)
    rfl
  simp only [Bool.true_and, Bool.false_and, Bool.or_false] at h
  exact h
theorem Encoding.recRead (d : BitVec 8) (i : BitVec 8) (k : BitVec 8) (lit : BitVec 32) : Encoding.Statement (.recRead d i k lit) := by
  refine ⟨Option.some_ne_none _, fun _ => ?_⟩
  have h := Encoding.g3 (w := 0xd2#8 ++ d ++ i ++ k) (op := 210) (a := i) (b := k) (lit := lit) (p := true) (q := true)
    (by simp only [append_toNat, BitVec.toNat_ofNat]; have := d.isLt; have := i.isLt; have := k.isLt; have := lit.isLt; omega)
    (by simp only [append_toNat, BitVec.toNat_ofNat]; have := d.isLt; have := i.isLt; have := k.isLt; have := lit.isLt; omega)
    (by simp only [append_toNat, BitVec.toNat_ofNat]; have := d.isLt; have := i.isLt; have := k.isLt; have := lit.isLt; omega)
    rfl
  simp only [Bool.true_and] at h
  exact h
theorem Encoding.gcancelGraph : Encoding.Statement .gcancelGraph := by
  refine ⟨Option.some_ne_none _, fun _ => ?_⟩
  exact Encoding.fixed (w := 0xd3000000#32) (ws := []) (op := 211) (n := 1) (by decide) rfl rfl rfl rfl
theorem Encoding.gcancelLaunch : Encoding.Statement .gcancelLaunch := by
  refine ⟨Option.some_ne_none _, fun _ => ?_⟩
  exact Encoding.fixed (w := 0xd3000001#32) (ws := []) (op := 211) (n := 1) (by decide) rfl rfl rfl rfl
theorem Encoding.tryOpen (o : BitVec 20) : Encoding.Statement (.tryOpen o) := by
  refine ⟨Option.some_ne_none _, fun _ => ?_⟩
  exact Encoding.fixed (w := 0xd40#12 ++ o) (ws := []) (op := 212) (n := 1) (by simp only [append_toNat, BitVec.toNat_ofNat]; have := o.isLt; omega) rfl rfl rfl rfl
theorem Encoding.commit : Encoding.Statement .commit := by
  refine ⟨Option.some_ne_none _, fun _ => ?_⟩
  exact Encoding.fixed (w := 0xd5000000#32) (ws := []) (op := 213) (n := 1) (by decide) rfl rfl rfl rfl
theorem Encoding.commitRel (s : BitVec 4) : Encoding.Statement (.commitRel s) := by
  refine ⟨Option.some_ne_none _, fun _ => ?_⟩
  exact Encoding.fixed (w := 0xd60000#24 ++ s ++ 0x2#4) (ws := []) (op := 214) (n := 1) (by simp only [append_toNat, BitVec.toNat_ofNat]; have := s.isLt; omega) rfl rfl rfl rfl
theorem Encoding.abort (i : BitVec 8) : Encoding.Statement (.abort i) := by
  refine ⟨Option.some_ne_none _, fun _ => ?_⟩
  exact Encoding.fixed (w := 0xd70000#24 ++ i) (ws := []) (op := 215) (n := 1) (by simp only [append_toNat, BitVec.toNat_ofNat]; have := i.isLt; omega) rfl rfl rfl rfl
theorem Encoding.tstat (d : BitVec 8) : Encoding.Statement (.tstat d) := by
  refine ⟨Option.some_ne_none _, fun _ => ?_⟩
  exact Encoding.fixed (w := 0xd8#8 ++ d ++ 0x0#16) (ws := []) (op := 216) (n := 1) (by simp only [append_toNat, BitVec.toNat_ofNat]; have := d.isLt; omega) rfl rfl rfl rfl
theorem Encoding.coll (d : BitVec 8) (a : BitVec 8) (b : BitVec 8) (c : BitVec 8) (lit : BitVec 24) : Encoding.Statement (.coll d a b c lit) := by
  refine ⟨Option.some_ne_none _, fun _ => ?_⟩
  exact Encoding.fixed (w := 0xd9#8 ++ d ++ a ++ b) (ws := [lit ++ c]) (op := 217) (n := 2) (by simp only [append_toNat, BitVec.toNat_ofNat]; have := d.isLt; have := a.isLt; have := b.isLt; have := c.isLt; have := lit.isLt; omega) rfl rfl rfl rfl
theorem Encoding.memoryAccessCompletion : Encoding.Statement .memoryAccessCompletion := rfl
theorem Encoding.generationScrubEnd : Encoding.Statement .generationScrubEnd := rfl
theorem Encoding.debuggerWrite : Encoding.Statement .debuggerWrite := rfl
theorem Encoding.collectiveFailure : Encoding.Statement .collectiveFailure := rfl
theorem Encoding.migrationKeyArrival : Encoding.Statement .migrationKeyArrival := rfl

end Sys2Proof.Laws
end

