-- ==== Sys2Proof/Laws/Records.lean ====
section
/-! SUPPORT. The lowest free places of a map (R161). -/

namespace Sys2Proof.Machine
open Claim

theorem feat_of {sp : LaneSpec} {e : Env} {s : State} {k : Nat} (h : sp.feat = some k) (hs : s.feature e.blk.world k = true) : sp.featOff e s = false := by
  unfold LaneSpec.featOff
  rw [h]; simp [hs]

theorem lowestFree_spec {α : Type} (k : Nat) (l : List (Nat × α)) (hs : l.Pairwise fun x y => x.1 < y.1) (hk : ∀ p ∈ l, k ≤ p.1) :
    k ≤ lowestFree k (l.map Prod.fst) ∧ lowestFree k (l.map Prod.fst) ∉ l.map Prod.fst ∧
      ∀ j, k ≤ j → j < lowestFree k (l.map Prod.fst) → j ∈ l.map Prod.fst := by
  induction l generalizing k with
  | nil => exact ⟨le_refl _, by simp, fun j h1 h2 => by simp [lowestFree] at h2; omega⟩
  | cons p l ih =>
    rw [List.pairwise_cons] at hs
    have hkp := hk p (by simp)
    simp only [List.map_cons, lowestFree]
    split
    · rename_i h
      subst h
      obtain ⟨h1, h2, h3⟩ := ih (p.1 + 1) hs.2 (fun q hq => hs.1 q hq)
      refine ⟨by omega, ?_, fun j hj1 hj2 => ?_⟩
      · simp only [List.mem_cons, not_or]; exact ⟨by omega, h2⟩
      · by_cases hj : j = p.1
        · simp [hj]
        · exact List.mem_cons_of_mem _ (h3 j (by omega) hj2)
    · rename_i h
      refine ⟨le_refl _, ?_, fun j hj1 hj2 => by omega⟩
      simp only [List.mem_cons, not_or]
      refine ⟨fun hc => h hc.symm, ?_⟩
      intro hc
      obtain ⟨q, hq, hq2⟩ := List.mem_map.mp hc
      have := hs.1 q hq
      omega

theorem get?_none_iff {α : Type} (m : AMap α) (i : Nat) : AMap.get? m i = none ↔ i ∉ m.map Prod.fst := by
  induction m with
  | nil => simp [AMap.get?]
  | cons p m ih =>
    obtain ⟨k, v⟩ := p
    rw [AMap.get?_cons]
    by_cases h : i = k
    · subst h; simp
    · have h' : ¬ k = i := fun hc => h hc.symm
      simp [h, h', ih]

end Sys2Proof.Machine
end

