-- ==== Sys2Proof/Laws/WeftRun.lean ====
section
/-! SUPPORT. Instructions of the weft sequencer whose checks pass (R434, R435). -/

namespace Sys2Proof.Machine
open Claim

theorem runWeft_ok {ok : Bool} {act : WEnv → State → FetchLine → WEff} {s s1 s2 : State} {e : WEnv} {l : FetchLine}
    (h : WIssues s e l s1) (ho : ok = true) (ha : act e s1 l = .ok s2) : runWeft ok act s = .next ((s2.weftRetire e.b).weftContinue e.b e.wf l) := by
  unfold runWeft
  rw [h.1]
  dsimp only
  rw [h.2]
  dsimp only
  rw [if_pos ho]
  have : act { b := e.b, blk := e.blk, wf := e.wf } s1 l = .ok s2 := ha
  rw [this]
  rfl

theorem runWeft_eff {ok : Bool} {act : WEnv → State → FetchLine → WEff} {s s1 : State} {e : WEnv} {l : FetchLine} {r : WEff}
    (h : WIssues s e l s1) (ho : ok = true) (ha : act e s1 l = r) : runWeft ok act s = .next (State.weftFinish e.b e.wf l r) := by
  unfold runWeft
  rw [h.1]
  dsimp only
  rw [h.2]
  dsimp only
  rw [if_pos ho]
  have : act { b := e.b, blk := e.blk, wf := e.wf } s1 l = r := ha
  rw [this]

theorem wdoes_of {i : Instr} {ok : WEnv → FetchLine → State → Prop} {f : WEnv → FetchLine → State → State} (act : WEnv → State → FetchLine → WEff)
    (hx : exec i = runWeft i.wf act) (h : ∀ e l s, ok e l s → act e s l = .ok (f e l s)) : WDoes i ok f := by
  intro s e l s1 hi hw ho
  rw [congrFun hx s, runWeft_ok hi hw (h e l s1 ho)]

theorem wparks_of {i : Instr} {ok : WEnv → FetchLine → State → Prop} {p : WEnv → Park} (act : WEnv → State → FetchLine → WEff)
    (hx : exec i = runWeft i.wf act) (h : ∀ e l s, ok e l s → act e s l = .park s (p e)) : WParks i ok p := by
  intro s e l s1 hi hw ho
  rw [congrFun hx s, runWeft_eff hi hw (h e l s1 ho)]
  rfl

theorem wfaults_of {i : Instr} {ok : WEnv → FetchLine → State → Prop} {p : WEnv → Flt} (act : WEnv → State → FetchLine → WEff)
    (hx : exec i = runWeft i.wf act) (h : ∀ e l s, ok e l s → act e s l = .fault s (p e)) : WFaults i ok p := by
  intro s e l s1 hi hw ho
  rw [congrFun hx s, runWeft_eff hi hw (h e l s1 ho)]
  rfl

theorem wtarget_eq (pc : W64) (d : BitVec 10) : targetOf pc d.toNat = pc + 4#64 * d.setWidth 64 := by
  unfold targetOf
  rw [ofNat_wrapN]
  apply BitVec.eq_of_toNat_eq
  simp [BitVec.toNat_add, BitVec.toNat_mul]
  omega

theorem wtargetI_eq (pc : W64) (o : BitVec 26) : targetOf pc (sext 26 o.toNat) = pc + 4#64 * o.signExtend 64 := by
  unfold targetOf
  rw [ofNat_wrapN, sext_eq_toInt, BitVec.ofInt_add, BitVec.ofInt_mul]
  congr 1
  exact BitVec.eq_of_toNat_eq (by simp)

end Sys2Proof.Machine
end

