-- ==== Sys2Proof/Tests/Slice0.lean ====
section
/-! SUPPORT. Tests: ill-formed terms, words of the spec decoded, results that the spec works out, and for every statement
with hypotheses a state and operands that meet them. Expected values are the spec's or worked out by hand from its rules. -/

set_option maxRecDepth 100000

namespace Sys2Proof.Claim
open Machine

/-! ## Small states -/

/-- A device about to run one instruction. -/
def placed (nbits w : Nat) : State := State.reset.withFetchWord nbits w

def noEnv : Env := { b := 0, w := 0, sp := 0, blk := {}, wp := {}, split := {} }

/-- The split that issues in a state, its line, what its fetch leaves, and where it goes on. -/
def envOf (s : State) : Env := (s.issuer?).getD noEnv
def lineOf (s : State) : FetchLine := match (s.issueLine (envOf s)).1 with
  | .ok l => l
  | .error _ => []
def leftOf (s : State) : State := (s.issueLine (envOf s)).2
def pcOf (s : State) : W64 :=
  match continuation (lineOf s) (envOf s).pc (laneLen ((lineOf s).word (wordIndex (envOf s).pc))) with
  | .ok a => a
  | .error a => a

/-- Whether a split issues in `s`, and whether it may fall through. -/
def issuesNow (s : State) : Bool :=
  s.issuer?.isSome && (match (s.issueLine (envOf s)).1 with
    | .ok _ => true
    | .error _ => false)
def goesOn (s : State) : Bool :=
  match continuation (lineOf s) (envOf s).pc (laneLen ((lineOf s).word (wordIndex (envOf s).pc))) with
  | .ok _ => true
  | .error _ => false

theorem fetches_now {s : State} (h : issuesNow s = true) : Fetches s (envOf s) (lineOf s) (leftOf s) := by
  simp only [issuesNow, Bool.and_eq_true] at h
  refine ⟨?_, ?_⟩
  · unfold envOf
    cases hh : s.issuer? with
    | none => rw [hh] at h; exact absurd h.1 (by simp)
    | some e => rfl
  · have h2 := h.2
    unfold lineOf leftOf
    cases hh : s.issueLine (envOf s) with
    | mk r t => cases r with
      | error x => rw [hh] at h2; exact absurd h2 (by simp)
      | ok l => rfl

theorem issues_now {s : State} (h : issuesNow s = true) (g : goesOn s = true) :
    Issues s (envOf s) (lineOf s) (leftOf s) (pcOf s) := by
  have hf := fetches_now h
  refine ⟨hf.1, hf.2, ?_⟩
  unfold pcOf
  unfold goesOn at g
  split at g
  · rename_i a ha; rw [ha]
  · exact absurd g (by simp)

/-- A state with the warp or the split of its issuer changed. -/
def setWarp (s : State) (f : Warp → Warp) : State := s.updWarp 1 0 f
def setSplit (s : State) (f : Split → Split) : State := s.updSplit 1 0 0 f
def setBlock (s : State) (f : Block → Block) : State := s.updBlock 1 f
def setWorld (s : State) (f : World → World) : State := s.updWorld 1 f

/-- Uniform registers of the placed warp, and its mood. -/
def withRegs (s : State) (mood : W32) (rs : AMap W32) : State :=
  setSplit (setWarp s fun x => { x with sregs := rs, stags := rs.map fun p => (p.1, 1) }) fun q => { q with mood := mood }

/-- Vector register `n` of the placed warp. -/
def withVec (s : State) (n : Nat) (vs : Lanes) : State :=
  setWarp s fun x => { x with rmap := AMap.set x.rmap n n, phys := AMap.set x.phys n { vals := vs, tags := [1, 1, 1, 1] } }

/-- The state after one step, and what its warp holds. -/
def stepped (s : State) : State := match step s with
  | .next t => t
  | _ => State.reset
def warpAt (s : State) : Warp := ((stepped s).warp? 1 0).getD {}
def vAt (s : State) (n t : Nat) : W32 := match (warpAt s).reg? n with
  | some r => r.vals.get t
  | none => 0#32
def uAt (s : State) (n : Nat) : W32 := AMap.getD (warpAt s).sregs n 0#32
def pAt (s : State) (p : Nat) : BitVec 16 := (warpAt s).preds.getD p 0#16
def pcAfter (s : State) : W64 := ((stepped s).split? 1 0 0).elim 0#64 Split.pc
def codeAfter (s : State) : Option (BitVec 8) := match (stepped s).block? 1 with
  | some k => k.faults.head?.map FaultRec.code
  | none => none
/-! ## Well-formedness: an ill-formed term for each check, which the check refuses -/

/-- A flag 12, a store width 1, a scope 9, a reserved bit of an ATM word. -/
theorem test_wf_flag : (Instr.ld 4#3 2#8 4#8 12#4 0#4).wf = false := by decide
theorem test_wf_loadWidth : (Instr.ld 7#3 2#8 4#8 15#4 0#4).wf = false := by decide
theorem test_wf_storeWidth : (Instr.st 1#3 2#8 4#8 15#4 0#4).wf = false := by decide
theorem test_wf_scope : (Instr.stXform 4#3 2#8 4#8 15#4 0#4 0x900#32).wf = false := by decide
theorem test_wf_atm : (Instr.atomAdd 2#8 4#8 5#8 0x1000#32).wf = false := by decide
/-- Two literals in one word, a literal that no field names. -/
theorem test_wf_twoLiterals : (Instr.add 1#8 0xff#8 0xff#8 0#32).wf = false := by decide
theorem test_wf_unnamedLiteral : (Instr.abs 1#8 2#8 1#32).wf = false := by decide
theorem test_wf_lit24 : (Instr.mad 1#8 2#8 3#8 4#8 1#24).wf = false := by decide
/-- Raw fields past their lists. -/
theorem test_wf_selector : (Instr.sread 1#8 15#8).wf = false := by decide
theorem test_wf_waitFlag : (Instr.waitf 12#8).wf = false := by decide
theorem test_wf_guardSign : (Instr.moodG 0xe1#8 2#8 0#32).wf = false := by decide
theorem test_wf_convert : (Instr.cvt 1#8 2#8 11#4 0#4 0#32).wf = false := by decide
theorem test_wf_fence : (Instr.fence 5#4 0#2).wf = false := by decide
theorem test_wf_commitScope : (Instr.commitRel 9#4).wf = false := by decide
theorem test_wf_shed : (Instr.shedArrive 16#8).wf = false := by decide
theorem test_wf_shedInit : (Instr.shedInit 16#8 1#8 0#32).wf = false := by decide
theorem test_wf_bobbin : (Instr.bobRel 8#8).wf = false := by decide
theorem test_wf_bobbinInit : (Instr.bobInit 0#8 8#8 0#8 0x84#8 0#24).wf = false := by decide
theorem test_wf_coll : (Instr.coll 1#8 2#8 0#8 0#8 0#24).wf = false := by decide
/-- The transducer and weft fields. -/
theorem test_wf_src2 : (Instr.tadd 1#4 2#4 3#4 1#1 5#13).wf = false := by decide
theorem test_wf_count : (Instr.tget 1#4 0#4 1#1 33#13).wf = false := by decide
theorem test_wf_special : (Instr.tmovSel 1#4 6#4).wf = false := by decide
theorem test_wf_condition : (Instr.tcmp 6#4 1#4 0#4 1#1 0#13).wf = false := by decide
theorem test_wf_window : (Instr.tvld 1#4 2#4 10#4 0#9).wf = false := by decide
theorem test_wf_alignment : (Instr.talignI 9#14).wf = false := by decide
theorem test_wf_countMode : (Instr.tcnt 1#4 0#4 1#4 5#9).wf = false := by decide
theorem test_wf_format : (Instr.mma 3#2 0#1 0#1 0#2 0#4 0#4 0#4 0#4).wf = false := by decide
theorem test_wf_loopBody : (Instr.wloop 0#3 1#12 0#10).wf = false := by decide

/-! ## Words of the spec and what they stand for -/

/-- Control words of R354 to R366 and TURNSTILE. -/
theorem test_decode_control :
    decodeLane 0x04140006#32 0#32 = .ok (.call 0x14#8 6#16) ∧ decodeLane 0x0a000003#32 0#32 = .ok (.waitf 3#8) ∧
    decodeLane 0x0a000010#32 0#32 = .ok .waitfJoin ∧ decodeLane 0x0b008400#32 0#32 = .ok (.mood 0x84#8 0#32) ∧
    decodeLane 0x0b00ff00#32 0x27#32 = .ok (.mood 0xff#8 0x27#32) ∧ decodeLane 0x0c00e100#32 0#32 = .ok (.moodG 0xe1#8 0#8 0#32) ∧
    decodeLane 0x09000000#32 0#32 = .ok .yield := by decide

/-- Words of the cross-warp rules (R368 to R371). -/
theorem test_decode_cross :
    decodeLane 0x0e90e200#32 0#32 = .ok (.vote 0x90#8 0xe2#8 0#32) ∧
    decodeLane 0x0f020304#32 0#32 = .ok (.shfl 2#8 3#8 4#8 0#32) ∧
    decodeLane 0x128609c5#32 0#32 = .ok (.vtos 0x86#8 9#8 0xc5#8 0#32) ∧
    decodeLane 0x108503c0#32 0#32 = .ok (.wred 0x85#8 3#8 0xc0#8 0#32) ∧
    decodeLane 0x110707c2#32 0#32 = .ok (.wscan 7#8 7#8 0xc2#8 0#32) := by decide

/-- Arithmetic words of R380 and R384. -/
theorem test_decode_arithmetic :
    decodeLane 0x220100ff#32 0x25#32 = .ok (.mul 1#8 0#8 0xff#8 0x25#32) ∧
    decodeLane 0x2108c008#32 0#32 = .ok (.sub 8#8 0xc0#8 8#8 0#32) ∧
    decodeLane 0x24030102#32 0x64ff#32 = .ok (.mad 3#8 1#8 2#8 0xff#8 100#24) ∧
    decodeLane 0x1e060204#32 0xe2#32 = .ok (.addc 6#8 2#8 4#8 0xe2#8 0#24) ∧
    decodeLane 0x3ee203ff#32 0x40#32 = .ok (.cmpLtu 0xe2#8 3#8 0xff#8 64#32) := by decide

/-- Memory words of TURNSTILE, and bob.init of R429. -/
theorem test_decode_memory :
    decodeLane 0x440904f2#32 0#32 = .ok (.ld 4#3 9#8 4#8 15#4 2#4) ∧
    decodeLane 0x640a0cf5#32 0#32 = .ok (.st 4#3 10#8 12#8 15#4 5#4) ∧
    decodeLane 0xca000100#32 0x88#32 = .ok (.bobInit 0#8 1#8 0#8 0x88#8 0#24) := by decide

/-- Weft words of R436 to R446. -/
theorem test_decode_weft :
    decodeWeft 0x06402130#32 = .ok (.mma 2#2 0#1 1#1 0#2 0#4 2#4 1#4 3#4) ∧
    decodeWeft 0x10004500#32 = .ok (.accSt 0#2 0#2 0#4 4#4 5#4) ∧ decodeWeft 0x18000000#32 = .ok (.accRel 0#4) ∧
    decodeWeft 0x1c000000#32 = .ok (.wshedArrive 0#4) ∧ decodeWeft 0x20020000#32 = .ok (.wshedWait 2#4) ∧
    decodeWeft 0x24010000#32 = .ok (.wbobAwait 1#3) ∧ decodeWeft 0x28010000#32 = .ok (.wbobRel 1#3) := by decide

theorem test_decode_weft_loops :
    decodeWeft 0x2c8bffff#32 = .ok (.xaddImm 2#4 2#4 0x3ffff#18) ∧ decodeWeft 0x34000803#32 = .ok (.wloop 0#3 2#12 3#10) ∧
    decodeWeft 0x34c01c05#32 = .ok (.wloopReg 1#3 7#4 5#10) ∧ decodeWeft 0x3bfffffa#32 = .ok (.wjump 0x3fffffa#26) := by decide

/-- The encoder of RUNLEN as the assembler writes it: steps 4 to 7, 11, 12, 19 and 22. -/
theorem test_decode_trans :
    decodeTrans 0x3003de13#32 = .ok (.tloop 0#1 15#4 15#4 19#8) ∧ decodeTrans 0x08402000#32 = .ok (.tmovSel 1#4 0#4) ∧
    decodeTrans 0x28042800#32 = .ok (.tcmp 0#4 1#4 0#4 1#1 2048#13) ∧ decodeTrans 0x2c400014#32 = .ok (.tbrC 20#8) ∧
    decodeTrans 0x0cc8201f#32 = .ok (.tadd 3#4 2#4 0#4 1#1 31#13) ∧ decodeTrans 0x3c0c2008#32 = .ok (.tout 3#4 0#4 1#1 8#13) ∧
    decodeTrans 0x5d80c020#32 = .ok (.tcnt 6#4 0#4 3#4 32#9) ∧ decodeTrans 0x40018000#32 = .ok (.tcopy 6#4 0#1 0#13) := by decide

/-- Words that no table lists are refused by name. -/
theorem test_decode_refused :
    decodeLane 0xfe000000#32 0#32 = .error .badOpcode ∧ decodeLane 0x00000001#32 0#32 = .error .badOperand ∧
    decodeWeft 0x00000000#32 = .error .weftIllegal ∧ decodeTrans 0x68000000#32 = .error .transOpcode := by decide

/-! ## Results that the spec works out -/

/-- add under one mood of two uniform words. -/
def adding (mood : W32) : State := withRegs (placed 32 0x20038182) mood [(1, 0x7fffff80#32), (2, 0xff#32)]

/-- The table of R381: the same bits under six types, without and with SAT. -/
theorem test_add_types : vAt (adding 0x007#32) 3 9 = 0x8000007f#32 ∧ vAt (adding 0x017#32) 3 9 = 0x8000007f#32 ∧
    vAt (adding 0x057#32) 3 9 = 0x7fff007f#32 ∧ vAt (adding 0x067#32) 3 9 = 0x7fff007f#32 ∧
    vAt (adding 0x077#32) 3 9 = 0x7fffff7f#32 ∧ vAt (adding 0x087#32) 3 9 = 0x7fffff7f#32 := by decide
theorem test_add_sat : vAt (adding 0x407#32) 3 9 = 0x7fffffff#32 ∧ vAt (adding 0x417#32) 3 9 = 0x8000007f#32 ∧
    vAt (adding 0x457#32) 3 9 = 0x7fff007f#32 ∧ vAt (adding 0x467#32) 3 9 = 0x7fffffff#32 ∧
    vAt (adding 0x477#32) 3 9 = 0x7fffff80#32 ∧ vAt (adding 0x487#32) 3 9 = 0x7fffffff#32 := by decide
theorem test_add_badmood : codeAfter (adding 0x027#32) = some 0x03#8 := by decide

/-- R384: the 64-bit sum takes two instructions; each leaves its carry in p2. -/
theorem test_addc : let s := withVec (withVec (placed 64 0xe21e060204) 2 (List.replicate 16 0xffffffff#32)) 4 (List.replicate 16 1#32)
    vAt s 6 3 = 0#32 ∧ pAt s 2 = 0xffff#16 := by decide
theorem test_addc_carry : let s := setWarp (withVec (withVec (placed 64 0xe21e070305) 3 (List.replicate 16 1#32)) 5
      (List.replicate 16 2#32)) fun x => { x with preds := [0#16, 0#16, 0xffff#16, 0#16, 0#16, 0#16, 0#16] }
    vAt s 7 3 = 4#32 ∧ pAt s 2 = 0#16 := by decide

/-- R371: 2^24 and three ones in threads 0 to 3. -/
def summing (w : Nat) (mood : W32) : State :=
  setSplit (withVec (placed 32 w) 3 ([0x4b800000#32, 0x3f800000#32, 0x3f800000#32, 0x3f800000#32] ++ List.replicate 12 0#32))
    fun q => { q with mask := 0xf#16, mood := mood }
theorem test_wred_tree : uAt (summing 0x108503c0 0x027#32) 5 = 0x4b800001#32 ∧
    uAt (summing 0x108503c0 0x327#32) 5 = 0x4b800002#32 := by decide
theorem test_wscan_order : (List.range 5).map (vAt (summing 0x110803c0 0x027#32) 8) =
    [0x4b800000#32, 0x4b800000#32, 0x4b800000#32, 0x4b800000#32, 0#32] := by decide

/-- R402 and R399. -/
theorem test_trpack : vAt (withRegs (placed 32 0xa6048200) 7#32 [(2, 0xff01#32), (3, 1#32)]) 4 0 = 0x58#32 := by decide
theorem test_cvt : vAt (withRegs (placed 32 0xa0028302) 0x007#32 [(3, 0xc0200000#32)]) 2 0 = 0xfffffffe#32 ∧
    vAt (withRegs (placed 32 0xa0028302) 0x207#32 [(3, 0xc0200000#32)]) 2 0 = 0xfffffffd#32 := by decide

/-- R388 by hand: nibbles 4, a, 9, 3 select s4, the sign of s2, the sign of s1 and s3. -/
theorem test_perm : vAt (withRegs (placed 64 0x0039a4ff36048182) 7#32 [(1, 0x1283f477#32), (2, 0x665544cc#32)]) 4 0 =
    0x12ffffcc#32 := by decide

/-- R386 by hand: eight bits from bit 4, sign-extended under i32. -/
theorem test_bfe : vAt (withRegs (placed 64 0xc8310481c4) 7#32 [(1, 0xabcd9e5f#32)]) 4 0 = 0xffffffe5#32 ∧
    vAt (withRegs (placed 64 0xc8310481c4) 0x17#32 [(1, 0xabcd9e5f#32)]) 4 0 = 0xe5#32 := by decide

/-- A branch to itself stays; one to a word that is no target faults with BADTARGET (R335). -/
theorem test_br : pcAfter (placed 32 0x01000000) = 0x100008#64 ∧ codeAfter (placed 32 0x01000001) = some 0x04#8 := by decide

/-- R391: the exact result is rounded once. -/
theorem test_ffma : vAt (withRegs (placed 64 0x8283048181) 0x27#32 [(1, 0x3f800800#32), (2, 0xbf801000#32)]) 4 0 =
    0x33800000#32 := by decide

/-! ## States that meet the hypotheses of the statements -/

def roomNow (e : Env) (ns : List Nat) : Bool := ns == [] || e.idle || (e.wp.quotaOk ns && !e.wp.mustWait ns)

theorem room_now {e : Env} {ns : List Nat} (h : roomNow e ns = true) : Room e ns := by
  unfold roomNow at h; unfold Room; simp at h; tauto

/-- The placed split issues `i`, which falls through. -/
def Ready (s : State) (i : Instr) : Prop :=
  Issues s (envOf s) (lineOf s) (leftOf s) (pcOf s) ∧ i.wf = true

theorem ready_now {s : State} {i : Instr} (h : (issuesNow s && goesOn s && i.wf) = true) : Ready s i := by
  simp only [Bool.and_eq_true] at h
  exact ⟨issues_now h.1.1 h.1.2, h.2⟩

/-- The hypotheses of `Yields`. -/
def Yielding (s : State) (i : Instr) (d : BitVec 8) (regs : Env → Nat) (ok : Env → Prop) (res : Env → Nat → Nat → Prop) : Prop :=
  Ready s i ∧ ok (envOf s) ∧ Room (envOf s) (dstNames d (regs (envOf s))) ∧
    ∀ t, t ∈ (envOf s).runners d → ∃ v, res (envOf s) t v

theorem yielding_now {s : State} {i : Instr} {d : BitVec 8} {regs : Env → Nat} {ok : Env → Prop} {res : Env → Nat → Nat → Prop}
    (v : Nat → Nat) (h : (issuesNow s && goesOn s && i.wf && roomNow (envOf s) (dstNames d (regs (envOf s)))) = true)
    (ho : ok (envOf s)) (hv : ∀ t, t ∈ (envOf s).runners d → res (envOf s) t (v t)) : Yielding s i d regs ok res := by
  simp only [Bool.and_eq_true] at h
  exact ⟨ready_now (by simp [h.1.1.1, h.1.1.2, h.1.2]), ho, room_now h.2, fun t ht => ⟨_, hv t ht⟩⟩

/-- O1: add v7, v1, 1 with v1 unmapped, which reads as 0 (R184), gives 1 in every thread. -/
theorem wit_integerPairs : Yielding (placed 32 0x200701c1) (.add 7#8 1#8 0xc1#8 0#32) 7#8 tr (Ok2 tyInt 7#8 1#8 0xc1#8)
    fun e t v => ∃ x y, e.srcTy e.ty (.word 0#32) 1#8 t = .ok x ∧ e.srcTy e.ty (.word 0#32) 0xc1#8 t = .ok y ∧
      Each e.ty v fun k r => Fits e.ty e.sat (ev e.ty x k + ev e.ty y k) r := by
  refine yielding_now (fun _ => 1) (by decide) (by unfold Ok2; decide) fun t ht => ⟨0, 1, ?_⟩
  revert t; unfold Each Fits; decide

/-- O1: mad under i64 with SAT, whose fields are pairs. -/
theorem wit_integerPairs_mad : Yielding (withRegs (placed 64 0x8424048284) 0x497#32 [(2, 3#32), (4, 5#32)])
    (.mad 4#8 0x82#8 0x84#8 0x84#8 0#24) 4#8 tr (Ok3 tyInt 4#8 0x82#8 0x84#8 0x84#8)
    fun e t v => ∃ x y z, e.srcTy e.ty (.lit24 0#24) 0x82#8 t = .ok x ∧ e.srcTy e.ty (.lit24 0#24) 0x84#8 t = .ok y ∧
      e.srcTy e.ty (.lit24 0#24) 0x84#8 t = .ok z ∧
      Each e.ty v fun k r => Fits e.ty e.sat (ev e.ty x k * ev e.ty y k + ev e.ty z k) r := by
  refine yielding_now (fun _ => 20) (by decide) (by unfold Ok3 Ok2; decide) fun t ht => ⟨3, 5, 5, ?_⟩
  revert t; unfold Each Fits; decide

/-- O1: a predicate is no source of add (BADOPERAND), and a floating TYPE none of its types (BADMOOD). -/
theorem wit_integerPairs_rejects : let s := placed 32 0x200701e1
    Fetches s (envOf s) (lineOf s) (leftOf s) ∧ tyInt (envOf s).ty = true ∧ srcFor 7#8 0xe1#8 (tyRegs (envOf s).ty) = false :=
  ⟨fetches_now (by decide), by decide, by decide⟩
theorem wit_integerPairs_badmood : let s := adding 0x27#32
    Fetches s (envOf s) (lineOf s) (leftOf s) ∧ tyInt (envOf s).ty = false ∧ dstOk 3#8 1 = true ∧ srcFor 3#8 0x81#8 1 = true ∧
      srcFor 3#8 0x82#8 1 = true :=
  ⟨fetches_now (by decide), by decide, by decide, by decide, by decide⟩

/-- O2: popc, and madw with a pair as addend. -/
theorem wit_integerOthers : Yielding (withRegs (placed 32 0x33048100) 7#32 [(1, 0xff#32)]) (.popc 4#8 0x81#8 0#32) 4#8 tr
    (Ok1 tyInt 4#8 0x81#8) fun e t v => ∃ x, e.srcTy e.ty (.word 0#32) 0x81#8 t = .ok x ∧
      Each e.ty v fun k r => r = ((List.range (tyWidth e.ty)).filter fun i => (el e.ty x k).testBit i).length := by
  refine yielding_now (fun _ => 8) (by decide) (by unfold Ok1; decide) fun t ht => ⟨0xff, ?_⟩
  revert t; unfold Each; decide
theorem wit_integerOthers_madw : Yielding (withRegs (placed 64 0x8225048181) 7#32 [(1, 0xffffffff#32), (2, 7#32)])
    (.madw 4#8 0x81#8 0x81#8 0x82#8 0#24) 4#8 (fun _ => 2)
    (fun _ => dstOk 4#8 2 = true ∧ srcFor 4#8 0x81#8 1 = true ∧ srcFor 4#8 0x81#8 1 = true ∧ srcFor 4#8 0x82#8 2 = true)
    fun e t v => ∃ x y z, e.src32 (.lit24 0#24) 0x81#8 t = .ok x ∧ e.src32 (.lit24 0#24) 0x81#8 t = .ok y ∧
      e.src64 (.lit24 0#24) 0x82#8 t = .ok z ∧
      v < 2 ^ 64 ∧ (2 ^ 64 : Int) ∣ val 32 true (x % 2 ^ 32) * val 32 true (y % 2 ^ 32) + z - v := by
  refine yielding_now (fun _ => 8) (by decide) (by decide) fun t ht => ⟨0xffffffff, 0xffffffff, 7, ?_⟩
  revert t; decide

/-- O3: and, sel with p2, and shl past the width. -/
theorem wit_bitsAndShifts : Yielding (withRegs (placed 32 0x29048182) 0x27#32 [(1, 12#32), (2, 10#32)])
    (.and 4#8 0x81#8 0x82#8 0#32) 4#8 tr (Ok2 tyAny 4#8 0x81#8 0x82#8) fun e t v => ∃ x y,
      e.srcTy e.ty (.word 0#32) 0x81#8 t = .ok x ∧ e.srcTy e.ty (.word 0#32) 0x82#8 t = .ok y ∧
      v < 2 ^ tyBits e.ty ∧ ∀ j, j < tyBits e.ty → v.testBit j = (x.testBit j && y.testBit j) := by
  refine yielding_now (fun _ => 8) (by decide) (by unfold Ok2; decide) fun t ht => ⟨12, 10, ?_⟩
  revert t; decide
theorem wit_bitsAndShifts_sel : Yielding (withRegs (placed 64 0xe237048182) 7#32 [(1, 12#32), (2, 10#32)])
    (.sel 4#8 0x81#8 0x82#8 0xe2#8 0#24) 4#8 tr
    (fun e => tyAny e.ty = true ∧ isV 4#8 = true ∧ aligned 4#8 (tyRegs e.ty) = true ∧ srcOk 0x81#8 (tyRegs e.ty) = true ∧
      srcOk 0x82#8 (tyRegs e.ty) = true ∧ isP 0xe2#8 = true) fun e t v => ∃ x y,
      e.srcTy e.ty (.lit24 0#24) 0x81#8 t = .ok x ∧ e.srcTy e.ty (.lit24 0#24) 0x82#8 t = .ok y ∧
      v = if predNo 0xe2#8 = 7 ∨ (e.pred (predNo 0xe2#8)).getLsbD t = true then x else y := by
  refine yielding_now (fun _ => 10) (by decide) (by decide) fun t ht => ⟨12, 10, ?_⟩
  revert t; decide
theorem wit_bitsAndShifts_shl : Yielding (withRegs (placed 32 0x2d048182) 7#32 [(1, 1#32), (2, 32#32)])
    (.shl 4#8 0x81#8 0x82#8 0#32) 4#8 tr (fun e => tyInt e.ty = true ∧ dstOk 4#8 (tyRegs e.ty) = true ∧
      srcFor 4#8 0x81#8 (tyRegs e.ty) = true ∧ srcFor 4#8 0x82#8 1 = true) fun e t v => ∃ x y,
      e.srcTy e.ty (.word 0#32) 0x81#8 t = .ok x ∧
      e.srcTy (if ty64 e.ty then 0 else e.ty) (.word 0#32) 0x82#8 t = .ok y ∧ Each e.ty v fun k r =>
        Fits e.ty e.sat (val (tyWidth e.ty) (tySigned e.ty) (el e.ty x k) * 2 ^ (if ty64 e.ty then y else el e.ty y k)) r := by
  refine yielding_now (fun _ => 0) (by decide) (by decide) fun t ht => ⟨1, 32, ?_⟩
  revert t; unfold Each Fits; decide

/-- O4: bfe of a field that runs past the top, p = 28 and l cut to 4. -/
theorem wit_fields : Yielding (withRegs (placed 64 0xc831048182) 7#32 [(1, 0xf0000000#32), (2, 28#32)])
    (.bfe 4#8 0x81#8 0x82#8 0xc8#8 0#24) 4#8 tr (fun e => tyWord e.ty = true ∧ dstOk 4#8 (tyRegs e.ty) = true ∧
      srcFor 4#8 0x81#8 (tyRegs e.ty) = true ∧ srcFor 4#8 0x82#8 1 = true ∧ srcFor 4#8 0xc8#8 1 = true) fun e t v => ∃ x p l,
      e.srcTy e.ty (.lit24 0#24) 0x81#8 t = .ok x ∧ e.src32 (.lit24 0#24) 0x82#8 t = .ok p ∧
      e.src32 (.lit24 0#24) 0xc8#8 t = .ok l ∧
      let w := tyWidth e.ty
      let n := min l (w - min p w)
      v < 2 ^ w ∧ ∀ i, i < w → v.testBit i = if i < n then x.testBit (p + i)
        else tySigned e.ty && decide (0 < n) && x.testBit (p + n - 1) := by
  refine yielding_now (fun _ => 0xffffffff) (by decide) (by decide) fun t ht => ⟨0xf0000000, 28, 8, ?_⟩
  revert t; decide

/-- O5: addc with p7, whose carry-in is 1. -/
theorem wit_carries : let s := withRegs (placed 64 0xe71e048182) 7#32 [(1, 0xffffffff#32), (2, 0#32)]
    Ready s (.addc 4#8 0x81#8 0x82#8 0xe7#8 0#24) ∧ (envOf s).ty = 0 ∧ isP 0xe7#8 = true ∧ Room (envOf s) (dstNames 4#8 1) ∧
      ∀ t, t ∈ (envOf s).act → ∃ x y, (envOf s).srcTy (envOf s).ty (.lit24 0#24) 0x81#8 t = .ok x ∧
        (envOf s).srcTy (envOf s).ty (.lit24 0#24) 0x82#8 t = .ok y := by
  refine ⟨ready_now (by decide), by decide, by decide, room_now (by decide), fun t ht => ⟨0xffffffff, 0, ?_⟩⟩
  revert t; decide

/-- The hypotheses of `Tests`. -/
def Testing (s : State) (i : Instr) (ok : Env → Prop) (res : Env → Nat → Bool → Prop) : Prop :=
  Ready s i ∧ ok (envOf s) ∧ ∀ t, t ∈ (envOf s).act → ∃ v, res (envOf s) t v

/-- O6: cmp.ltu p2, v3, 64, of GATESCAN step 56. -/
theorem wit_compares : Testing (placed 64 0x403ee203ff) (.cmpLtu 0xe2#8 3#8 0xff#8 64#32)
    (fun e => tyInt e.ty = true ∧ isP 0xe2#8 = true ∧ srcOk 3#8 (tyRegs e.ty) = true ∧ srcOk 0xff#8 (tyRegs e.ty) = true)
    fun e t r => ∃ x y, e.srcTy e.ty (.word 64#32) 3#8 t = .ok x ∧ e.srcTy e.ty (.word 64#32) 0xff#8 t = .ok y ∧
      (r = true ↔ ∀ k, k < cnt e → el e.ty x k < el e.ty y k) := by
  refine ⟨ready_now (by decide), by decide, fun t ht => ⟨true, 0, 64, ?_⟩⟩
  revert t; decide
theorem wit_compares_fcmp : Testing (withRegs (placed 32 0x92e18182) 0x27#32 [(1, 0x7fc00000#32), (2, 0x3f800000#32)])
    (.fcmpLt 0xe1#8 0x81#8 0x82#8 0#32)
    (fun e => tyFloat e.ty = true ∧ isP 0xe1#8 = true ∧ srcOk 0x81#8 (tyRegs e.ty) = true ∧ srcOk 0x82#8 (tyRegs e.ty) = true)
    fun e t r => ∃ x y, e.srcTy e.ty (.word 0#32) 0x81#8 t = .ok x ∧ e.srcTy e.ty (.word 0#32) 0x82#8 t = .ok y ∧
      (r = true ↔ ∀ k, k < cnt e → FLt (fv e x k) (fv e y k)) := by
  classical
  refine ⟨ready_now (by decide), by decide, fun t ht => ⟨_, 0x7fc00000, 0x3f800000, ?_, ?_, decide_eq_true_iff⟩⟩ <;>
    revert t <;> decide
theorem wit_compares_fclass : Testing (withRegs (placed 32 0x89e18182) 0x27#32 [(1, 0x7f800001#32), (2, 1#32)])
    (.fclass 0xe1#8 0x81#8 0x82#8 0#32)
    (fun e => tyFloat e.ty = true ∧ isP 0xe1#8 = true ∧ srcOk 0x81#8 1 = true ∧ srcOk 0x82#8 1 = true)
    fun e t r => ∃ x m, e.srcTy e.ty (.word 0#32) 0x81#8 t = .ok x ∧ e.src32 (.word 0#32) 0x82#8 t = .ok m ∧
      (r = true ↔ ∀ k, k < cnt e → m.testBit (fclassBit e.fmt (el e.ty x k)) = true) := by
  refine ⟨ready_now (by decide), by decide, fun t ht => ⟨_, 0x7f800001, 1, ?_, ?_, decide_eq_true_iff⟩⟩ <;>
    revert t <;> decide

/-- O7: 1 + 1 under f32, and the example of R391 for ffma. -/
theorem wit_floats : Yielding (withRegs (placed 32 0x80048182) 0x27#32 [(1, 0x3f800000#32), (2, 0x3f800000#32)])
    (.fadd 4#8 0x81#8 0x82#8 0#32) 4#8 tr (Ok2 tyFloat 4#8 0x81#8 0x82#8) fun e t v => ∃ x y,
      e.srcTy e.ty (.word 0#32) 0x81#8 t = .ok x ∧ e.srcTy e.ty (.word 0#32) 0x82#8 t = .ok y ∧
      Each e.ty v fun k r => r = e.fres (e.fsum [fv e x k, fv e y k]) := by
  refine yielding_now (fun _ => 0x40000000) (by decide) (by unfold Ok2; decide) fun t ht => ⟨0x3f800000, 0x3f800000, ?_⟩
  revert t; unfold Each; decide
theorem wit_floats_ffma : Yielding (withRegs (placed 64 0x8283048181) 0x27#32 [(1, 0x3f800800#32), (2, 0xbf801000#32)])
    (.ffma 4#8 0x81#8 0x81#8 0x82#8 0#24) 4#8 tr (Ok3 tyFloat 4#8 0x81#8 0x81#8 0x82#8) fun e t v => ∃ x y z,
      e.srcTy e.ty (.lit24 0#24) 0x81#8 t = .ok x ∧ e.srcTy e.ty (.lit24 0#24) 0x81#8 t = .ok y ∧
      e.srcTy e.ty (.lit24 0#24) 0x82#8 t = .ok z ∧
      Each e.ty v fun k r => r = e.fres (e.fsum [fmulV (fv e x k) (fv e y k), fv e z k]) := by
  refine yielding_now (fun _ => 0x33800000) (by decide) (by unfold Ok3 Ok2; decide)
    fun t ht => ⟨0x3f800800, 0x3f800800, 0xbf801000, ?_⟩
  revert t; unfold Each; decide
theorem wit_floats_fneg : Yielding (withRegs (placed 32 0x87048100) 0x27#32 [(1, 0#32)])
    (.fneg 4#8 0x81#8 0#32) 4#8 tr (Ok1 tyFloat 4#8 0x81#8) fun e t v => ∃ x,
      e.srcTy e.ty (.word 0#32) 0x81#8 t = .ok x ∧ Each e.ty v fun k r =>
        if fdecode e.fmt (el e.ty x k) = .nan then r = e.fmt.nanBits
        else ∀ j, j < tyWidth e.ty → r.testBit j =
          if j = tyWidth e.ty - 1 then !((el e.ty x k).testBit j) else (el e.ty x k).testBit j := by
  refine yielding_now (fun _ => 0x80000000) (by decide) (by unfold Ok1; decide) fun t ht => ⟨0, ?_⟩
  revert t; unfold Each; decide

/-- O9: fexp2 of 1.0; values at the ends of its clauses: a NaN, −∞, −0 and the integers −126 and 127. -/
theorem wit_transcendentals : Yielding (withRegs (placed 32 0x9b048100) 0x27#32 [(1, 0x3f800000#32)])
    (.fexp2 4#8 0x81#8 0#32) 4#8 tr (Ok1 tyFloat 4#8 0x81#8) fun e t v => ∃ x,
      e.srcTy e.ty (.word 0#32) 0x81#8 t = .ok x ∧ Each e.ty v fun k r =>
        r = e.fres (fdecode fmtF32 (transcF32 0 (fencode fmtF32 0 (fv e x k)))) := by
  refine yielding_now (fun _ => 0x40000000) (by decide) (by unfold Ok1; decide) fun t ht => ⟨0x3f800000, ?_⟩
  revert t; unfold Each; decide
theorem wit_transcendentals_values : fdecode fmtF32 0x7f800001 = .nan ∧ fdecode fmtF32 0xff800000 = .inf true ∧
    (∃ g, fdecode fmtF32 0x80000000 = .fin true 0 g) ∧ (∃ m g, fdecode fmtF32 0x80000001 = .fin true m g ∧ m ≠ 0) ∧
    transcF32 0 0xc2fc0000 = 0x00800000 ∧ transcF32 0 0x42fe0000 = 0x7f000000 ∧ transcF32 1 0x3f800000 = 0 := by
  refine ⟨by decide, by decide, ⟨_, rfl⟩, ⟨_, _, rfl, by decide⟩, by decide, by decide, by decide⟩

/-- O8: lists with a NaN, with one infinity, and with both. -/
theorem wit_products : (FVal.nan ∈ [FVal.fin false 1 0, .nan]) ∧
    (FVal.nan ∉ [FVal.inf true, .fin false 1 0] ∧ FVal.inf true ∈ [FVal.inf true, .fin false 1 0] ∧
      FVal.inf false ∉ [FVal.inf true, .fin false 1 0]) ∧ FVal.nan ∉ [FVal.inf true, .inf false] := by decide

/-- O10: cvt.i32.f32 of −2.5 (R399), pack and unpack. -/
theorem wit_conversions : Yielding (withRegs (placed 32 0xa0028302) 0x7#32 [(3, 0xc0200000#32)])
    (.cvt 2#8 0x83#8 0#4 2#4 0#32) 2#8 (fun _ => tyRegs 0) (fun _ => dstOk 2#8 (tyRegs 0) = true ∧ srcFor 2#8 0x83#8 (tyRegs 2) = true)
    fun e t v => ∃ x, e.srcTy 2 (.word 0#32) 0x83#8 t = .ok x ∧ Each 0 v fun k r =>
      val (tyWidth 0) (tySigned 0) r = ftoInt e.fenv.mode (lo 0) (hi 0) (fread (tyFmt 2) e.fenv.flush (el 2 x k)) := by
  refine yielding_now (fun _ => 0xfffffffe) (by decide) (by decide) fun t ht => ⟨0xc0200000, ?_⟩
  revert t; unfold Each; decide
theorem wit_conversions_pack : Yielding (withRegs (placed 32 0xa4048182) 0x57#32 [(1, 0x12345#32), (2, 0xffffffff#32)])
    (.pack 4#8 0x81#8 0x82#8 0#32) 4#8 (fun _ => 1) (fun e => tyNarrow e.ty = true ∧ dstOk 4#8 1 = true ∧
      srcFor 4#8 0x81#8 1 = true ∧ srcFor 4#8 0x82#8 1 = true) fun e t v => ∃ x y,
      e.srcTy (wideTy e.ty) (.word 0#32) 0x81#8 t = .ok x ∧ e.srcTy (wideTy e.ty) (.word 0#32) 0x82#8 t = .ok y ∧
      Each e.ty v fun k r =>
        let n := cnt e / 2
        let s := if k < n then x else y
        let j := if k < n then k else k - n
        if tyFloat e.ty then r = e.fres (fread fmtF32 e.fenv.flush s) else Fits e.ty e.sat (Claim.ev (wideTy e.ty) s j) r := by
  refine yielding_now (fun _ => 0xffff2345) (by decide) (by decide) fun t ht => ⟨0x12345, 0xffffffff, ?_⟩
  revert t; unfold Each Fits; decide
theorem wit_conversions_unpack : Yielding (withRegs (placed 32 0xa5048200) 0x77#32 [(2, 0x80ff017f#32)])
    (.unpack 4#8 0x82#8 0#32) 4#8 (fun _ => 2) (fun e => tyNarrow e.ty = true ∧ dstOk 4#8 2 = true ∧ srcFor 4#8 0x82#8 1 = true)
    fun e t v => ∃ x, e.srcTy e.ty (.word 0#32) 0x82#8 t = .ok x ∧ v < 2 ^ 64 ∧ ∀ k, k < cnt e →
      let w := tyWidth (wideTy e.ty)
      let r := v / 2 ^ (k * w) % 2 ^ w
      if tyFloat e.ty then r = fencode fmtF32 0 (fv e x k) else val w (tySigned e.ty) r = Claim.ev e.ty x k := by
  refine yielding_now (fun _ => 0xff80ffff0001007f) (by decide) (by decide) fun t ht => ⟨0x80ff017f, ?_⟩
  revert t; decide

/-- O11: trpack of the weights of R402; qpack8 and qunpack8 at the scale 512, where a step is 1. -/
theorem wit_quantisation : Yielding (withRegs (placed 32 0xa6048200) 7#32 [(2, 0xff01#32), (3, 1#32)])
    (.trpack 4#8 0x82#8 0#32) 4#8 (fun _ => 1) (fun _ => dstOk 4#8 1 = true ∧ srcFor 4#8 0x82#8 2 = true) fun e t v => ∃ x,
      e.src64 (.word 0#32) 0x82#8 t = .ok x ∧
      let c (i : Nat) : Nat := let g := x / 256 ^ i % 256; if g = 0 then 0 else if g < 128 then 1 else 2
      v = c 0 + 3 * c 1 + 9 * c 2 + 27 * c 3 + 81 * c 4 := by
  refine yielding_now (fun _ => 0x58) (by decide) (by decide) fun t ht => ⟨0x10000ff01, ?_⟩
  revert t; decide
theorem wit_quantisation_qpack8 : Yielding (withRegs (placed 32 0xa2048284) 0x27#32 [(2, 0x40400000#32), (3, 0xbf800000#32), (4, 512#32)])
    (.qpack8 4#8 0x82#8 0x84#8 0#32) 4#8 (fun _ => 1) (fun e => tyFloat e.ty = true ∧ dstOk 4#8 1 = true ∧
      srcFor 4#8 0x82#8 2 = true ∧ srcFor 4#8 0x84#8 1 = true) fun e t v => ∃ x n,
      e.src64 (.word 0#32) 0x82#8 t = .ok x ∧ e.src32 (.word 0#32) 0x84#8 t = .ok n ∧ v < 2 ^ 32 ∧
      ∀ j, j < 4 → val 8 true (v / 256 ^ j % 256) =
        if n % 1024 = 0 ∨ 2 * cnt e ≤ j then 0 else qelem (n % 1024) (pfv e x j) := by
  refine yielding_now (fun _ => 0xff03) (by decide) (by decide) fun t ht => ⟨0xbf80000040400000, 512, ?_⟩
  revert t; decide
theorem wit_quantisation_qscale : let s := withRegs (placed 32 0xa1048200) 0x27#32 [(2, 0x42ff0000#32), (3, 0#32)]
    Ready s (.qscale 4#8 0x82#8 0#32) ∧ tyFloat (envOf s).ty = true ∧ dstOk 4#8 1 = true ∧ srcFor 4#8 0x82#8 2 = true ∧
    Room (envOf s) (dstNames 4#8 1) ∧ (∀ u, u ∈ (envOf s).runners 4#8 → (envOf s).src64 (.word 0#32) 0x82#8 u = .ok 0x42ff0000) ∧
    vAt s 4 5 = 513#32 := by
  exact ⟨ready_now (by decide), by decide, by decide, by decide, room_now (by decide), by decide, by decide⟩

/-- O12: vote s16, p2 of R368; shfl with the index −13, whose low bits are 3; wred.add and wscan.add of R371. -/
theorem wit_crossWarp : Yielding (placed 32 0x0e90e200) (.vote 0x90#8 0xe2#8 0#32) 0x90#8 (fun _ => 1)
    (fun _ => dstOk 0x90#8 1 = true ∧ isP 0xe2#8 = true) fun e _ v =>
      v < 2 ^ 16 ∧ ∀ t, t < 16 → v.testBit t = (e.active.getLsbD t && (e.pred (predNo 0xe2#8)).getLsbD t) := by
  refine yielding_now (fun _ => 0) (by decide) (by decide) fun t ht => ?_
  revert t; decide
theorem wit_crossWarp_shfl : Yielding (placed 32 0x0f0203d3) (.shfl 2#8 3#8 0xd3#8 0#32) 2#8 tr
    (fun e => isV 2#8 = true ∧ aligned 2#8 (tyRegs e.ty) = true ∧ srcVOk 3#8 (tyRegs e.ty) = true ∧ srcOk 0xd3#8 1 = true)
    fun e t v => ∃ i, e.src32 (.word 0#32) 0xd3#8 t = .ok i ∧ e.srcTy e.ty .none 3#8 (i % 16) = .ok v := by
  refine yielding_now (fun _ => 0) (by decide) (by decide) fun t ht => ⟨0xfffffff3, ?_⟩
  revert t; decide
theorem wit_crossWarp_wred : let s := summing 0x108503c0 0x027#32
    let X : Nat → Nat := fun u => if u = 0 then 0x4b800000 else 0x3f800000
    Ready s (.wred 0x85#8 3#8 0xc0#8 0#32) ∧ dstOk 0x85#8 (tyRegs (envOf s).ty) = true ∧ srcVOk 3#8 (tyRegs (envOf s).ty) = true ∧
      redBOk 0xc0#8 = true ∧ redMoodOk 0xc0#8 (envOf s).ty = true ∧
      (∀ u, u ∈ (envOf s).act → (envOf s).srcTy (envOf s).ty .none 3#8 u = .ok (X u)) ∧
      treeRed ((envOf s).fcomb (redOp 0xc0#8)) ((List.range 16).map fun u => if u ∈ (envOf s).act then some (el (envOf s).ty (X u) 0) else none) =
        some 0x4b800001 := by
  exact ⟨ready_now (by decide), by decide, by decide, by decide, by decide, by decide, by decide⟩

/-- O13: sread of the highest selector of its first clause, and of 13 and 14. -/
theorem wit_specials : Yielding (placed 32 0x0d040c00) (.sread 4#8 12#8) 4#8 tr (fun e => dstOk 4#8 (tyRegs e.ty) = true)
    fun e _ v => v = e.wp.faultMask.toNat := by
  exact yielding_now (fun _ => 0) (by decide) (by decide) (by decide)
theorem wit_specials_clearing : ∀ w, w = 0x0d040d00 ∨ w = 0x0d040e00 →
    let s := setWarp (placed 32 w) fun x => { x with rstatus := true }
    Issues s (envOf s) (lineOf s) (leftOf s) (pcOf s) ∧ dstOk 4#8 (tyRegs (envOf s).ty) = true ∧
      Room (envOf s) (dstNames 4#8 (tyRegs (envOf s).ty)) ∧ (envOf s).inTry = false ∧ (envOf s).idle = false := by
  rintro w (rfl | rfl) <;>
    exact ⟨issues_now (by decide) (by decide), by decide, room_now (by decide), by decide, by decide⟩
theorem test_sread_clears : let s := setWarp (placed 32 0x0d040d00) fun x => { x with rstatus := true }
    vAt s 4 0 = 1#32 ∧ (warpAt s).rstatus = false := by decide

/-- The hypotheses of `Does`, and those of `Jumps`, `Parks` and `Faults`. -/
def Doing (s : State) (i : Instr) (ok : Env → FetchLine → State → Prop) : Prop := Ready s i ∧ ok (envOf s) (lineOf s) (leftOf s)
def Issuing (s : State) (i : Instr) (ok : Env → FetchLine → State → Prop) : Prop :=
  Fetches s (envOf s) (lineOf s) (leftOf s) ∧ i.wf = true ∧ ok (envOf s) (lineOf s) (leftOf s)

theorem doing_now {s : State} {i : Instr} {ok : Env → FetchLine → State → Prop} (h : (issuesNow s && goesOn s && i.wf) = true)
    (ho : ok (envOf s) (lineOf s) (leftOf s)) : Doing s i ok := ⟨ready_now h, ho⟩
theorem issuing_now {s : State} {i : Instr} {ok : Env → FetchLine → State → Prop} (h : (issuesNow s && i.wf) = true)
    (ho : ok (envOf s) (lineOf s) (leftOf s)) : Issuing s i ok := by
  simp only [Bool.and_eq_true] at h
  exact ⟨fetches_now h.1, h.2, ho⟩

/-- O14. -/
theorem wit_retirement : let s := placed 32 0
    ∃ k x q, s.block? 1 = some k ∧ AMap.get? k.warps 0 = some x ∧ AMap.get? x.active 0 = some q := ⟨_, _, _, rfl, rfl, rfl⟩

/-- O15: each instruction that passes, waitf at a count and at a held fault. -/
theorem wit_waiting_nop : Doing (placed 32 0) .nop fun _ _ _ => True := doing_now (by decide) trivial
theorem wit_waiting_brk : Doing (placed 32 0x17000005) (.brk 5#8) fun e _ s => s.breakOpen e.blk.world = false :=
  doing_now (by decide) (by decide)
theorem wit_waiting_yield : Doing (placed 32 0x09000000) .yield fun e _ _ => e.blk.preempt = none := doing_now (by decide) (by decide)
theorem wit_waiting_waitf : Doing (placed 32 0x0a00000b) (.waitf 11#8) fun e _ _ =>
    e.wp.flags.getD 11 0 = 0 ∧ e.wp.flagFault.getD 11 none = none := doing_now (by decide) (by decide)
theorem wit_waiting_join : Doing (placed 32 0x0a000010) .waitfJoin fun e _ _ =>
    ∀ p, p ∈ e.wp.active → p.1 = e.sp ∨ p.2.park ≠ .ready := doing_now (by decide) (by decide)
theorem wit_waiting_fence : Doing (placed 32 0xba000082) (.fence 8#4 2#2) fun e _ s => e.inTry = false ∧ s.remoteDue e.b e.w = false :=
  doing_now (by decide) (by decide)
theorem wit_waiting_bru : Doing (placed 32 0x03040000) (.bru 1#6 0#18) fun e _ s =>
    (tgt e s (dest e 0#18)).1 = none ∧ e.sread 1 = .ok 0#32 := doing_now (by decide) (by decide)
theorem wit_waiting_parks : Issuing (setWarp (placed 32 0x0a000000) fun x => { x with flags := [1, 0, 0, 0, 0, 0, 0, 0, 0, 0, 0, 0] })
    (.waitf 0#8) fun e _ _ => e.wp.flags.getD 0 0 ≠ 0 := issuing_now (by decide) (by decide)
theorem wit_waiting_fault : Issuing (setWarp (placed 32 0x0a00000b) fun x =>
      { x with flagFault := List.replicate 11 none ++ [some (0x0a#8, 0#64)] })
    (.waitf 11#8) fun e _ _ => e.wp.flags.getD 11 0 = 0 ∧ e.wp.flagFault.getD 11 none = some (0x0a#8, 0#64) :=
  issuing_now (by decide) (by decide)

/-- O16: a branch, bru and call to the placed word itself, which is a target. -/
theorem wit_branches_br : Issuing (placed 32 0x01000000) (.br 0#20) fun e _ s => (tgt e s (dest e 0#20)).1 = none :=
  issuing_now (by decide) (by decide)
theorem wit_branches_bru : Issuing (withRegs (placed 32 0x03040000) 7#32 [(1, 5#32)]) (.bru 1#6 0#18) fun e _ s =>
    (tgt e s (dest e 0#18)).1 = none ∧ e.sread 1 = .ok 5#32 := issuing_now (by decide) (by decide)
theorem wit_branches_call : Issuing (placed 32 0x04140000) (.call 0x14#8 0#16) fun e _ s => (tgt e s (dest e 0#16)).1 = none ∧
    dstOk 0x14#8 2 = true ∧ Room e (dstNames 0x14#8 2) ∧ e.idle = false :=
  issuing_now (by decide) ⟨by decide, by decide, room_now (by decide), by decide⟩
/-- The placed line holds one instruction, so what follows it is word 2 of the next line (R334). -/
theorem test_call : vAt (placed 32 0x04140000) 0x14 7 = 0x100088#32 ∧ pcAfter (placed 32 0x04140000) = 0x100008#64 := by decide

/-- O17: brp on p1, set for threads 0 and 1; ret and the register form of call through s20; the idle forms. -/
def parting : State := setWarp (placed 32 0x02100000) fun x => { x with preds := [0#16, 3#16, 0#16, 0#16, 0#16, 0#16, 0#16] }
theorem wit_scatter_brp : Issuing parting (.brp 0#1 1#3 0#20) fun e l s => (tgt e s (dest e 0#20)).1 = none ∧ e.idle = false ∧
    (∃ c, continuation l e.pc 1 = .ok c) ∧ ∃ y, e.wp.divide e.sp (e.act.map fun t =>
      (t, if (e.pred 1).getLsbD t = (0#1 == 0#1) then dest e 0#20 else 0x100088#64)) = some y :=
  issuing_now (by decide) ⟨by decide, by decide, ⟨_, rfl⟩, Option.isSome_iff_exists.mp (by decide)⟩
theorem test_brp_divides : (warpAt parting).active.map (fun p => (p.2.pc, p.2.mask)) =
    [(0x100008#64, 3#16), (0x100088#64, 0xfffc#16)] := by decide
def returning (w : Nat) : State := withRegs (placed 32 w) 7#32 [(20, 0x100008#32), (21, 0#32)]
theorem wit_scatter_ret : Issuing (returning 0x06009400) (.ret 0x94#8 0#32) fun e _ s => pairOk 0x94#8 = true ∧ e.idle = false ∧
    (∀ t, t ∈ e.act → e.pread 0x94#8 t = .ok 0x100008) ∧
    (State.targetsFault e.blk.core e.blk.world e.blk.ctx (e.act.map fun t => (t, BitVec.ofNat 64 0x100008)) s).1 = none ∧
    ∃ y, e.wp.divide e.sp (e.act.map fun t => (t, BitVec.ofNat 64 0x100008)) = some y :=
  issuing_now (by decide) ⟨by decide, by decide, by decide, by decide, Option.isSome_iff_exists.mp (by decide)⟩
theorem wit_scatter_callReg : Issuing (returning 0x05969400) (.callReg 0x96#8 0x94#8 0#32) fun e _ s => dstOk 0x96#8 2 = true ∧
    pairOk 0x94#8 = true ∧ isS 0x94#8 = true ∧ Room e (dstNames 0x96#8 2) ∧ e.idle = false ∧
    (∀ t, t ∈ e.act → e.pread 0x94#8 t = .ok 0x100008) ∧
    (State.targetsFault e.blk.core e.blk.world e.blk.ctx (e.act.map fun t => (t, BitVec.ofNat 64 0x100008)) s).1 = none ∧
    ∃ y, e.wp.divide e.sp (e.act.map fun t => (t, BitVec.ofNat 64 0x100008)) = some y :=
  issuing_now (by decide) ⟨by decide, by decide, by decide, room_now (by decide), by decide, by decide, by decide,
    Option.isSome_iff_exists.mp (by decide)⟩
theorem wit_scatter_idle : Doing (withRegs (placed 32 0x06009400) 0#32 []) (.ret 0x94#8 0#32)
    fun e _ _ => e.idle = true ∧ pairOk 0x94#8 = true := doing_now (by decide) (by decide)

/-- O18. -/
theorem wit_division : let x : Warp := (envOf parting).wp
    let nexts : List (Nat × W64) := [(0, 0#64), (1, 4#64), (15, 0#64)]
    ∃ q, AMap.get? x.active 0 = some q ∧ nexts.head? = some (0, 0#64) ∧ (nexts.map Prod.fst).Pairwise (· < ·) ∧
      ∀ p, p ∈ nexts → p.1 < 16 := ⟨_, rfl, by decide, by decide, by decide⟩

/-- O19. -/
theorem wit_splitsEnd : Issuing (placed 32 0x08000000) .exit fun e _ _ => e.inTry = false := issuing_now (by decide) (by decide)
theorem wit_splitsEnd_yield : ∀ c, Doing (setBlock (placed 32 0x09000000) fun k => { k with preempt := some (c, 0) }) .yield
    fun e _ _ => ∃ t, e.blk.preempt = some (c, t) := by
  intro c; cases c <;> exact doing_now (by decide) ⟨0, rfl⟩

/-- O20: with no call ring and with one; breakpoints that the policy opens. -/
def ringing (w : Nat) : State := setWorld (placed 32 w) fun x => { x with crbase := 0x300000#64, crlog2n := 4, popen := 0x20#32 }
theorem wit_traps : Issuing (ringing 0x16000005) (.trap 5#8) fun e _ s => e.inTry = false ∧ s.ringBase e.blk.world ≠ 0#64 :=
  issuing_now (by decide) (by decide)
theorem wit_traps_noRing : Doing (placed 32 0x16000005) (.trap 5#8) fun e _ s => e.inTry = false ∧ s.ringBase e.blk.world = 0#64 :=
  doing_now (by decide) (by decide)
theorem wit_traps_brk : Issuing (ringing 0x17000005) (.brk 5#8) fun e _ s => s.breakOpen e.blk.world = true ∧
    s.ringBase e.blk.world ≠ 0#64 ∧ e.blk.run = .running := issuing_now (by decide) (by decide)
theorem wit_traps_brk_noRing : Doing (setWorld (placed 32 0x17000005) fun x => { x with popen := 0x20#32 }) (.brk 5#8)
    fun e _ s => s.breakOpen e.blk.world = true ∧ s.ringBase e.blk.world = 0#64 := doing_now (by decide) (by decide)

/-- O21: the mood of R366's example, mood.g p1, vrel, and both quota instructions. -/
theorem wit_mood : Doing (placed 64 0x270b00ff00) (.mood 0xff#8 0x27#32) fun e _ _ => srcUOk 0xff#8 1 = true ∧
    e.srcU (.word 0x27#32) 0xff#8 = .ok 0x27 ∧ 0x27 < 2 ^ 12 ∧ 0x27 / 16 % 16 ≤ 10 := doing_now (by decide) (by decide)
theorem wit_mood_guard : Doing (placed 32 0x0c00e100) (.moodG 0xe1#8 0#8 0#32) fun _ _ _ => isP 0xe1#8 = true :=
  doing_now (by decide) (by decide)
theorem wit_mood_vrel : Doing (placed 32 0x13000300) (.vrel 3#8 0#32) fun _ _ _ => isV 3#8 = true := doing_now (by decide) (by decide)
theorem wit_mood_unmaps : let x := (envOf (withVec (placed 32 0) 3 Lanes.zero)).wp
    (x.rmap.map Prod.fst).Nodup ∧ x.rmap ≠ [] := by decide
theorem wit_mood_grow : Issuing (setWarp (placed 32 0x1400c400) fun x => { x with quota := 60 }) (.quotaGrow 0xc4#8 0#32) fun e _ s =>
    srcUOk 0xc4#8 1 = true ∧ e.inTry = false ∧ e.srcU (.word 0#32) 0xc4#8 = .ok 4 ∧
    e.wp.quota + 4 + s.othersBase (quarterOf e.blk e.w) e.wp.lane e.b e.w ≤ 64 := issuing_now (by decide) (by decide)
theorem wit_mood_growNone : Doing (placed 32 0x1400c000) (.quotaGrow 0xc0#8 0#32) fun e _ _ => srcUOk 0xc0#8 1 = true ∧
    e.inTry = false ∧ e.srcU (.word 0#32) 0xc0#8 = .ok 0 := doing_now (by decide) (by decide)
theorem wit_mood_shrink : Doing (placed 32 0x1500c400) (.quotaShrink 0xc4#8 0#32) fun e _ _ => srcUOk 0xc4#8 1 = true ∧
    e.inTry = false ∧ e.srcU (.word 0#32) 0xc4#8 = .ok 4 := doing_now (by decide) (by decide)
theorem test_quota_shrink : (warpAt (placed 32 0x1500c400)).quota = 60 := by decide

/-- O22: a pair written for every thread. -/
theorem wit_results : let s := placed 32 0
    let rs : List (Nat × List W32) := (envOf s).act.map fun t => (t, [5#32, 6#32])
    ∃ k, s.block? (envOf s).b = some k ∧ AMap.get? k.warps (envOf s).w = some (envOf s).wp ∧ isV 6#8 = true ∧
      rs.map Prod.fst = (envOf s).act ∧ ∀ r, r ∈ rs → r.2.length = 2 := ⟨_, rfl, by decide, by decide, by decide, by decide⟩

/-- s2 and s3 address the placed line, or the scratchpad. -/
def loading (nbits w : Nat) : State := withRegs (placed nbits w) 7#32 [(2, 0x100000#32), (3, 0#32), (4, 0xabcd#32)]
def inRegion (s : State) : State := setSplit (setWarp s fun x => { x with region := some {
    mask := 0xffff#16, fallback := 0x100008#64, mood := 7#32, rmap := [], preds := x.preds, sregs := x.sregs, stags := x.stags } })
  fun q => { q with inTry := true }

/-- O23: a load of the placed line's first word, without a flag, under flag 0, and by ld.spec in a region. -/
theorem wit_loads : ∀ q, q = (placed 32 0, 15#4) ∨ q = (placed 32 0, 0#4) →
    let s := loading 32 (if q.2 = 15#4 then 0x440982f0 else 0x44098200)
    let e := envOf s
    let xs := accs e (leftOf s) .load 4 4 (e.runners 9#8) fun _ => 0x100000
    Ready s (.ld 4#3 9#8 0x82#8 q.2 0#4) ∧ dstOk 9#8 1 = true ∧ addrOk 0x82#8 = true ∧ Room e (dstNames 9#8 1) ∧ e.idle = false ∧
      e.wp.flagFull q.2.toNat = false ∧ (∀ t, t ∈ e.runners 9#8 → e.addrOf 0x82#8 0 t = .ok 0x100000) ∧
      Reaches e (leftOf s) .load 4 4 (e.runners 9#8) (fun _ => 0x100000) ∧ (leftOf s).anyHeld e.b 4 xs = false ∧
      (State.loadAll e none 4 xs (leftOf s)).1 = xs.map fun x => (x, .ok [1#8, 0#8, 0#8, 0#8]) := by
  rintro q (rfl | rfl) <;>
    exact ⟨ready_now (by decide), by decide, by decide, room_now (by decide), by decide, by decide, by decide,
      by unfold Reaches; decide, by decide, by decide⟩
theorem wit_loads_spec : let s := inRegion (loading 32 0x540982f0)
    let e := envOf s
    let xs := accs e (leftOf s) .load 4 4 (e.runners 9#8) fun _ => 0x100000
    Ready s (.ldSpec 4#3 9#8 0x82#8 15#4 0#4) ∧ (leftOf s).feature e.blk.world 3 = true ∧ e.inTry = true ∧
      (∃ r, e.wp.region = some r ∧ r.alias_.length < 16) ∧ Room e (dstNames 9#8 1) ∧
      (State.loadAll e none 4 xs (leftOf s)).1 = xs.map fun x => (x, .ok [1#8, 0#8, 0#8, 0#8]) :=
  ⟨ready_now (by decide), by decide, by decide, ⟨_, rfl, by decide⟩, room_now (by decide), by decide⟩

theorem test_ld : vAt (loading 32 0x440982f0) 9 15 = 1#32 := by decide

/-- O24: a store of s4 to the placed line, outside a region and in one. -/
theorem wit_stores : ∀ f : State → State, f = id ∨ f = inRegion → let s := f (loading 32 0x648482f0)
    let e := envOf s
    let xs := accs e (leftOf s) .store 4 4 (e.onceIf true) fun _ => 0x100000
    Ready s (.st 4#3 0x84#8 0x82#8 15#4 0#4) ∧ storeDataOk 4#3 0x84#8 = true ∧ addrOk 0x82#8 = true ∧ e.idle = false ∧
      (∀ t, t ∈ e.onceIf true → e.addrOf 0x82#8 0 t = .ok 0x100000) ∧
      (∀ t, t ∈ e.onceIf true → e.storeBytes 0x84#8 4 t = .ok [0xcd#8, 0xab#8, 0#8, 0#8]) ∧
      Reaches e (leftOf s) .store 4 4 (e.onceIf true) (fun _ => 0x100000) ∧
      (e.inTry = false → (leftOf s).anyHeld e.b 4 xs = false ∧
        ((leftOf s).writeAll e (xs.map fun x => (x, [0xcd#8, 0xab#8, 0#8, 0#8]))).1 = none) ∧
      (e.inTry = true → ∃ r, e.wp.region = some r ∧ r.buf.length + 1 ≤ 16 ∧
        aliasHits r (xs.map fun x => (x, [0xcd#8, 0xab#8, 0#8, 0#8])) = []) := by
  rintro f (rfl | rfl)
  · exact ⟨ready_now (by decide), by decide, by decide, by decide, by decide, by decide, by unfold Reaches; decide, by decide,
      fun h => absurd h (by decide)⟩
  · exact ⟨ready_now (by decide), by decide, by decide, by decide, by decide, by decide, by unfold Reaches; decide,
      fun h => absurd h (by decide), fun _ => ⟨_, rfl, by decide, by decide⟩⟩

/-- O25: the last four bytes of a resident line of 256 bytes; an empty host memory, scratchpad and private memory. -/
theorem wit_memory : ∃ a l, (placed 32 0).line? a = some l ∧ a.loc = placedLoc ∧ l.loc.fixc = 0 ∧ l.data.length = 256 ∧ 252 + 4 ≤ 256 ∧
    l.poisoned 252 4 = false ∧ Memory.wf (placed 32 0).hostMem = true ∧ Memory.wf (envOf (placed 32 0)).blk.scratch = true ∧
    Memory.wf (AMap.getD (envOf (placed 32 0)).blk.priv 0 []) = true :=
  ⟨{ world := 1, ctx := 0, trec := 0, va := BitVec.ofNat 64 placedVa, loc := placedLoc }, _, rfl, rfl, by decide⟩

/-- O26: rows and columns of a scratchpad of 8,192 bytes. -/
def tiling (w : Nat) : State := (setBlock (withRegs (placed 32 w) 7#32 [(2, 0#32), (3, 0x01000000#32)]) fun k =>
  { k with scratchLen := 8192 }).updQuarter 0 fun q => { q with segWorld := 1 }
theorem wit_tiles : ∀ q, q = (Instr.ldxRow 4#8 0x82#8 15#4 0#4, 0x700482f0, false) ∨ q = (.ldxCol 4#8 0x82#8 15#4 0#4, 0x710482f0, true) ∨
      q = (.stxRow 4#8 0x82#8 15#4 0#4, 0x720482f0, false) ∨ q = (.stxCol 4#8 0x82#8 15#4 0#4, 0x730482f0, true) →
    let s := tiling q.2.1
    let e := envOf s
    Ready s q.1 ∧ isV 4#8 = true ∧ aligned 4#8 2 = true ∧ isS 0x82#8 = true ∧ aligned 0x82#8 2 = true ∧ e.idle = false ∧ e.inTry = false ∧
      e.tileBase q.2.2 0x82#8 0 = .ok 0 ∧ Room e (dstNames 4#8 2) ∧
      (∀ t h, t ∈ e.act → h < 2 → (leftOf s).scratchOutside e.blk ((if q.2.2 then 128 else 4) * (2 * t + h)) 4 = false ∧
        (leftOf s).scratchHeld e.b ((if q.2.2 then 128 else 4) * (2 * t + h)) 4 = false) := by
  rintro q (rfl | rfl | rfl | rfl) <;>
    exact ⟨ready_now (by decide), by decide, by decide, by decide, by decide, by decide, by decide, by decide, room_now (by decide),
      fun t h ht hh => by revert t; interval_cases h <;> decide⟩

/-- O27: prefetch and cinv of the placed line. -/
theorem wit_caches : ∀ q, q = (Instr.prefetch 0x82#8 15#4 0#4, 0x740082f0) ∨ q = (.cinv 0x82#8 15#4 0#4, 0x750082f0) →
    let s := loading 32 q.2
    let e := envOf s
    Ready s q.1 ∧ addrOk 0x82#8 = true ∧ e.idle = false ∧ e.inTry = false ∧ e.wp.flagFull 15 = false ∧
      ∀ t, t ∈ e.onceIf true → e.addrOf 0x82#8 0 t = .ok 0x100000 := by
  rintro q (rfl | rfl) <;> exact ⟨ready_now (by decide), by decide, by decide, by decide, by decide, by decide⟩

/-- O28: atom.add and red of 1 at the placed line's first word, which is 1. -/
theorem wit_atomics : let s := loading 64 0xb00982c1
    let e := envOf s
    let xs := accs e (leftOf s) .atomic 4 4 (e.onceIf true) fun _ => 0x100000
    Ready s (.atomAdd 9#8 0x82#8 0xc1#8 0#32) ∧ atmTypeOk 0 0 = true ∧ addrOk 0x82#8 = true ∧ atmSrcOk 1 0xc1#8 = true ∧
      dstOk 9#8 1 = true ∧ Room e (dstNames 9#8 1) ∧ e.idle = false ∧ e.inTry = false ∧
      (∀ t, t ∈ e.onceIf true → e.addrOf 0x82#8 0 t = .ok 0x100000 ∧ e.atomSrc false 0xc1#8 t = .ok 1) ∧
      Reaches e (leftOf s) .atomic 4 4 (e.onceIf true) (fun _ => 0x100000) ∧ (leftOf s).anyHeld e.b 4 xs = false ∧
      firstDataFault (State.readAll e 4 xs (leftOf s)).1 = none ∧
      (State.atomicAll e 4 (fun _ old => atomicF 0 0 old 1 0) xs (leftOf s)).1 = .ok [(0, 1)] :=
  ⟨ready_now (by decide), by decide, by decide, by decide, by decide, room_now (by decide), by decide, by decide, by decide,
    by unfold Reaches; decide, by decide, by decide, by decide⟩
theorem test_atom_add : vAt (loading 64 0xb00982c1) 9 15 = 1#32 := by decide

/-- The hypotheses of `Steps`. -/
def Running (ok : HRun → Prop) : Prop :=
  ∃ s : State, ∃ r, s.focus = .heddle ∧ s.heddle = some r ∧ r.fin = .running ∧ r.steps < 4096 ∧ ok r

theorem running_now {ok : HRun → Prop} (r : HRun) (h : (r.fin == .running && decide (r.steps < 4096)) = true) (ho : ok r) : Running ok := by
  simp only [Bool.and_eq_true, beq_iff_eq, decide_eq_true_eq] at h
  exact ⟨{ State.reset with focus := .heddle, heddle := some r }, r, rfl, rfl, h.1, h.2, ho⟩

/-- A run over four bytes of input, a table of zeros but for its first entry, which gives the symbol 65 two bits, and 16
bytes of output. -/
def r0 : HRun := HRun.start [] (0x41#8 :: 0x20#8 :: List.replicate 30 0#8) [0#8, 7#8, 7#8, 7#8] 16

/-- O29. -/
theorem wit_heddle : Running fun _ => (5#4).toNat ≤ 5 := running_now { r0 with steps := 4095 } (by decide) (by decide)

/-- O30: C set and clear; a loop of 256 passes, the bound, and one of none. -/
theorem wit_heddle_branches : Running (fun r => r.c = true) ∧ Running (fun r => r.c = false) ∧
    Running (fun r => (tv r 1#4).toNat ≤ 16 * 15 + 15 + 1 ∧ tv r 1#4 ≠ 0#32) ∧ Running (fun r => tv r 1#4 = 0#32) :=
  ⟨running_now { r0 with c := true } (by decide) rfl, running_now { r0 with c := false } (by decide) rfl,
    running_now { r0 with t := 0#32 :: 256#32 :: List.replicate 14 0#32 } (by decide) (by decide),
    running_now r0 (by decide) (by decide)⟩

/-- O31: the last 32 bits of the input, an alignment that moves the cursor by 7, the last word of the table, a count. -/
theorem wit_heddle_reads : Running (fun r => (sv r 0#4 1#1 32#13).toNat ≤ 32 ∧ r.ic + (sv r 0#4 1#1 32#13).toNat ≤ 8 * r.inp.length) ∧
    Running (fun r => r.ic + (sv r 0#4 1#1 31#13).toNat ≤ 8 * r.inp.length) ∧
    Running (fun r => r.ic ≤ 8 ∧ 8 < r.ic + 2 ^ 3 ∧ 2 ^ 3 ∣ 8 ∧ 8 ≤ 8 * r.inp.length) ∧
    Running (fun r => 4 * ((tv r 0#4).toNat + 7) + 4 ≤ r.tab.length) ∧ Running (fun r => r.ic % 8 = 0) :=
  ⟨running_now r0 (by decide) (by decide), running_now { r0 with ic := 1 } (by decide) (by decide),
    running_now { r0 with ic := 1 } (by decide) (by decide), running_now r0 (by decide) (by decide), running_now r0 (by decide) (by decide)⟩

/-- O32: each clause, filling the output to its end where it may. -/
theorem wit_heddle_writes : Running (fun r => (sv r 0#4 1#1 32#13).toNat ≤ 32 ∧ r.out.length + (sv r 0#4 1#1 32#13).toNat ≤ 8 * r.outCap) ∧
    Running (fun r => (sv r 0#4 1#1 4#13).toNat ≤ 32 ∧ r.ic % 8 = 0 ∧ r.out.length % 8 = 0 ∧
      r.ic + 8 * (sv r 0#4 1#1 4#13).toNat ≤ 8 * r.inp.length ∧ r.out.length + 8 * (sv r 0#4 1#1 4#13).toNat ≤ 8 * r.outCap) ∧
    Running (fun r => (sv r 0#4 1#1 16#13).toNat ≤ 32 ∧ r.out.length % 8 = 0 ∧ r.out.length + 8 * (sv r 0#4 1#1 16#13).toNat ≤ 8 * r.outCap) ∧
    Running (fun r => 7 < 2 ^ 3 ∧ 2 ^ 3 ∣ r.out.length + 7 ∧ r.out.length + 7 ≤ 8 * r.outCap) :=
  ⟨running_now { r0 with outCap := 4 } (by decide) (by decide), running_now { r0 with outCap := 4 } (by decide) (by decide),
    running_now r0 (by decide) (by decide), running_now { r0 with out := [true], outCap := 1 } (by decide) (by decide)⟩

/-- O32: tvld of one symbol, two bits long, and tvle of the byte 0. -/
theorem wit_heddle_tables : Running (fun r => r.out.length % 8 = 0 ∧ 1 ≤ (2#4).toNat ∧ (2#4).toNat ≤ 9 ∧
      [0x2041].length = min 8 (tv r 1#4).toNat ∧ r.ic + lens [0x2041] ≤ 8 * r.inp.length ∧ r.out.length + 8 ≤ 8 * r.outCap ∧
      lens ([0x2041].take 0) < 64 ∧ 1 ≤ entLen 0x2041 ∧ entLen 0x2041 ≤ 2 ∧ ∃ v, BitsAt r (r.ic + 0) 2 v ∧ TabAt r (0 + v) 0x2041) ∧
    Running (fun r => r.ic % 8 = 0 ∧ [0x2041].length = min 8 (tv r 1#4).toNat ∧ r.ic + 8 ≤ 8 * r.inp.length ∧
      r.out.length + lens [0x2041] ≤ 8 * r.outCap ∧ 1 ≤ entLen 0x2041 ∧ entLen 0x2041 ≤ 12 ∧
      TabAt r (0 + (r.inp.getD (r.ic / 8 + 0) 0#8).toNat) 0x2041) :=
  let r := { r0 with t := 0#32 :: 1#32 :: List.replicate 14 0#32 }
  ⟨running_now r (by decide) ⟨by decide, by decide, by decide, by decide, by decide, by decide, by decide, by decide, by decide,
      0, ⟨by decide, by decide⟩, by unfold TabAt; decide⟩,
    running_now r (by decide) ⟨by decide, by decide, by decide, by decide, by decide, by decide, by unfold TabAt; decide⟩⟩

/-- O33: a read of the whole input and one bit more, the same for the output, and a run of 4,096 steps. -/
theorem wit_heddle_errs : Running (fun r => 8 * r.inp.length < r.ic + (sv r 0#4 1#1 32#13).toNat) ∧
    Running (fun r => 32 < (sv r 0#4 1#1 33#13).toNat) ∧
    Running (fun r => (sv r 0#4 1#1 1#13).toNat ≤ 32 ∧ 8 * r.outCap < r.out.length + (sv r 0#4 1#1 1#13).toNat) ∧
    Running (fun r => r.ic % 8 ≠ 0) ∧ Running (fun r => r.out.length % 8 ≠ 0) ∧
    Running (fun r => 16 * 15 + 15 + 1 < (tv r 1#4).toNat) ∧ Running (fun r => r.tab.length < 4 * ((tv r 0#4).toNat + 8) + 4) ∧
    Running (fun r => (sv r 0#4 1#1 1#13).toNat ≤ 32 ∧ r.out.length % 8 = 0 ∧ 8 * r.outCap < r.out.length + 8 * (sv r 0#4 1#1 1#13).toNat) :=
  ⟨running_now { r0 with ic := 1 } (by decide) (by decide), running_now r0 (by decide) (by decide),
    running_now { r0 with outCap := 0 } (by decide) (by decide), running_now { r0 with ic := 1 } (by decide) (by decide),
    running_now { r0 with out := [true] } (by decide) (by decide),
    running_now { r0 with t := 0#32 :: 257#32 :: List.replicate 14 0#32 } (by decide) (by decide),
    running_now r0 (by decide) (by decide), running_now { r0 with outCap := 0 } (by decide) (by decide)⟩
theorem wit_heddle_steps : decodeTrans 0x60000000#32 = .ok .tend ∧ 4096 ≤ ({ r0 with steps := 4096 } : HRun).steps ∧
    ({ r0 with steps := 4096 } : HRun).fin = .running := by decide

/-- One step of a run: a register sum and what it leaves of the rest; a loop of two passes back to its body. -/
def heddleAfter (s : State) : HRun := ((stepped s).heddle).getD r0
theorem test_tadd : let r := heddleAfter (State.reset.placeRun 0x0c8c2005#32)
    r.t.getD 2 0#32 = 5#32 ∧ r.pc = 1 ∧ r.steps = 1 := by decide
theorem test_tloop : let r : HRun := { r0 with code := [0x30010001#32, 0x00000000#32], pc := 1, l0 := 2#32 }
    let t := heddleAfter { State.reset with focus := .heddle, heddle := some r }
    t.l0 = 1#32 ∧ t.pc = 1 := by decide

/-- O60: a run at its start. -/
theorem wit_bounded : State.focus { State.reset with focus := .heddle, heddle := some r0 } = .heddle ∧ Bounded r0 :=
  ⟨rfl, by decide, by decide, by decide, by decide⟩

/-! ## Sheds, copies, bobbins, records, regions -/

/-- O34: the fences; fence.map by firmware (world 0) and by another world. -/
theorem wit_sheds_fenceRec : Doing (placed 32 0xbb000000) .fenceRec fun e _ _ => e.inTry = false := doing_now (by decide) (by decide)
theorem wit_sheds_fenceMap : Issuing (placed 32 0xbd00c1c0) (.fenceMap 0xc1#8 0xc0#8 0#32) fun e _ _ => srcUOk 0xc1#8 1 = true ∧
    srcUOk 0xc0#8 1 = true ∧ e.inTry = false ∧ e.srcU (.word 0#32) 0xc1#8 = .ok 1 ∧ e.srcU (.word 0#32) 0xc0#8 = .ok 0 ∧
    e.blk.world ≠ 0 := issuing_now (by decide) (by decide)
def firmware (w : Nat) : State :=
  let s := placed 32 w
  { s with worlds := [(0, placedWorld)], blocks := [(1, { placedBlock 0 false with world := 0 })],
           lines := s.lines.map fun p => (p.1 - 1, { p.2 with world := 0 }) }
theorem wit_sheds_fenceMap0 : Doing (firmware 0xbd00c1c0) (.fenceMap 0xc1#8 0xc0#8 0#32) fun e _ _ => e.inTry = false ∧
    e.srcU (.word 0#32) 0xc1#8 = .ok 1 ∧ e.srcU (.word 0#32) 0xc0#8 = .ok 0 ∧ e.blk.world = 0 := doing_now (by decide) (by decide)

/-- O34: shed 3, of one warp; its phase 5, with the warp's arrival and without. -/
def shedding (w : Nat) (arrived : List Nat) (p : Park) : State :=
  setSplit (setBlock (placed 32 w) fun k => { k with sheds := [(3, { first := 0, num := 1, weft := false, arrived := arrived, k := 5#32 })] })
    fun q => { q with park := p }
theorem wit_sheds_arrive : Doing (shedding 0xc0000300 [] .ready) (.shedArrive 3#8) (fun e _ _ => e.inTry = false ∧
      (e.blk.shed 3).has e.w = true ∧ e.w ∉ (e.blk.shed 3).arrived) ∧
    Issuing (shedding 0xc0000300 [0] .ready) (.shedArrive 3#8) (fun e _ _ => e.inTry = false ∧
      (e.blk.shed 3).has e.w = true ∧ e.w ∈ (e.blk.shed 3).arrived) :=
  ⟨doing_now (by decide) (by decide), issuing_now (by decide) (by decide)⟩
theorem wit_sheds_wait : Doing (shedding 0xc1000300 [] (.shedWait 3 4)) (.shedWait 3#8) (fun e _ _ => e.inTry = false ∧
      shedStill e.split.park 3 (e.blk.shed 3) e.w = false) ∧
    Issuing (shedding 0xc1000300 [] (.shedWait 3 5)) (.shedWait 3#8) (fun e _ _ => e.inTry = false ∧
      shedStill e.split.park 3 (e.blk.shed 3) e.w = true) := ⟨doing_now (by decide) (by decide), issuing_now (by decide) (by decide)⟩
theorem wit_sheds_sync : Doing (shedding 0xc2000300 [] .ready) (.shedSync 3#8) (fun e _ s => e.inTry = false ∧
      (e.blk.shed 3).has e.w = true ∧ (∀ m k, e.split.park ≠ .shedWait m k) ∧ e.w ∉ (e.blk.shed 3).arrived ∧
      ((s.shedArrive e.b e.w 3).shedOf e.b 3).k ≠ (e.blk.shed 3).k) ∧
    Doing (shedding 0xc2000300 [] (.shedWait 3 4)) (.shedSync 3#8) (fun e _ _ => e.inTry = false ∧
      (e.blk.shed 3).has e.w = true ∧ ∃ m k, e.split.park = .shedWait m k ∧ k ≠ (e.blk.shed 3).k.toNat) :=
  ⟨doing_now (by decide) ⟨by decide, by decide, fun m k => by
      rw [show (envOf (shedding 0xc2000300 [] .ready)).split.park = .ready by decide]; exact fun h => Park.noConfusion h,
      by decide, by decide⟩,
    doing_now (by decide) ⟨by decide, by decide, 3, 4, by decide, by decide⟩⟩
theorem wit_sheds_syncParks : Issuing (setBlock (placed 32 0xc2000300) fun k =>
      { k with warps := k.warps ++ [(1, {  active := [(0, {})] })], sheds := [(3, { first := 0, num := 2, weft := false })] }) (.shedSync 3#8)
    fun e _ s => e.inTry = false ∧ (e.blk.shed 3).has e.w = true ∧ e.w ∉ (e.blk.shed 3).arrived ∧
      ((s.shedArrive e.b e.w 3).shedOf e.b 3).k = (e.blk.shed 3).k := issuing_now (by decide) (by decide)
theorem wit_sheds_init : Doing (withRegs (placed 32 0xc3000381) 7#32 [(1, 0x100#32)]) (.shedInit 3#8 0x81#8 0#32) fun e _ _ => srcUOk 0x81#8 1 = true ∧
    e.inTry = false ∧ e.srcU (.word 0#32) 0x81#8 = .ok 0x100 ∧ 0x100 % 256 + 0x100 / 256 % 256 ≤ e.blk.warps.length ∧
    (e.blk.shed 3).arrived = [] ∧ (e.blk.shed 3).weftArrived = false := doing_now (by decide) (by decide)
theorem test_shed_sync : ((stepped (shedding 0xc2000300 [] .ready)).shedOf 1 3).k = 6#32 := by decide

/-- O35: a copy of four bytes within the placed line by each form; a multicast to block 1 of the launch. -/
def copying (nbits w : Nat) (g : AMap W32) : State := setBlock (withRegs (placed nbits w) 7#32
    ([(2, 0x100010#32), (3, 0#32), (4, 0x100000#32), (5, 0#32)] ++ g)) fun k => { k with scratchLen := 4096, launch := some 1 }
def onePlan (dst : Nat) (bids : Option (List Nat)) : CopyPlan := { thread := 0, segs := [(0x100000, dst, 4)], bids := bids }
theorem wit_copies : let s := copying 32 0xc48284c4 []
    Ready s (.cp 0x82#8 0x84#8 0xc4#8 0#32) ∧ (envOf s).wp.shuttle = true ∧ (envOf s).inTry = false ∧ (envOf s).idle = false ∧
    (∀ t, t ∈ (envOf s).onceIf true → t = 0 ∧ (envOf s).pread 0x82#8 t = .ok 0x100010 ∧ (envOf s).pread 0x84#8 t = .ok 0x100000 ∧
      (envOf s).src32 (.word 0#32) 0xc4#8 t = .ok 4) ∧ CopyAddrs [0x100000, 0x100010] ∧
    CopiesGo (envOf s) (leftOf s) [onePlan 0x100010 none] :=
  ⟨ready_now (by decide), by decide, by decide, by decide, by decide, by unfold CopyAddrs; decide, by unfold CopiesGo; decide⟩
theorem wit_copies_2d : let s := copying 64 0x88c5828400 [(8, 4#32), (9, 1#32), (10, 0#32), (11, 0#32)]
    Ready s (.cp2d 0x82#8 0x84#8 0#8 0x88#8 0#24) ∧ (envOf s).group4 0x88#8 0 = .ok [4, 1, 0, 0] ∧
    CopiesGo (envOf s) (leftOf s) [onePlan 0x100010 none] := ⟨ready_now (by decide), by decide, by unfold CopiesGo; decide⟩
theorem wit_copies_gather : let s := (copying 64 0x88c6828400 [(8, 4#32), (9, 1#32), (10, 0#32), (11, 0x01000000#32)]).updQuarter 0 fun q => { q with segWorld := 1 }
    Ready s (.cpGather 0x82#8 0x84#8 0#8 0x88#8 0#24) ∧ (envOf s).group4 0x88#8 0 = .ok [4, 1, 0, 0x01000000] ∧
    (envOf s).readTable (leftOf s) 0x0100000000000000 1 = .ok [0] ∧ CopiesGo (envOf s) (leftOf s) [onePlan 0x100010 none] :=
  ⟨ready_now (by decide), by decide, by decide, by unfold CopiesGo; decide⟩
theorem wit_copies_mcast : let s0 := copying 64 0x88c78284c1 [(8, 4#32), (9, 0xffffffff#32), (10, 0xffffffff#32), (11, 0xffffffff#32),
      (2, 0#32), (3, 0x01000000#32)]
    let s := { s0 with blocks := s0.blocks ++ [(2, { (envOf s0).blk with bid := 1#32 })] }
    Ready s (.cpMcast 0x82#8 0x84#8 0xc1#8 0x88#8 0#24) ∧ (envOf s).group4 0x88#8 0 = .ok [4, 0xffffffff, 0xffffffff, 0xffffffff] ∧
    (envOf s).src32 (.lit24 0#24) 0xc1#8 0 = .ok 1 ∧ (envOf s).blk.bid.toNat ∉ [1] ∧ inScratchWin 0x0100000000000000 = true ∧
    CopiesGo (envOf s) (leftOf s) [onePlan 0x0100000000000000 (some [1])] :=
  ⟨ready_now (by decide), by decide, by decide, by decide, by decide, by unfold CopiesGo; decide⟩
theorem wit_copies_cseal : Doing (placed 32 0xc8020000) (.cseal 2#8) fun e _ _ => dstOk 2#8 1 = true ∧ e.wp.shuttle = true ∧
    e.inTry = false ∧ e.idle = false ∧ Room e (dstNames 2#8 1) ∧ ∀ t, t ∈ e.runners 2#8 → e.wp.batch.getD t 1 < 0xffffffff :=
  doing_now (by decide) ⟨by decide, by decide, by decide, by decide, room_now (by decide), by decide⟩
theorem wit_copies_cwait : Doing (placed 32 0xc902c100) (.cwait 2#8 0xc1#8 0#32) fun e _ s => dstOk 2#8 1 = true ∧
    srcFor 2#8 0xc1#8 1 = true ∧ e.wp.shuttle = true ∧ e.inTry = false ∧ e.idle = false ∧ Room e (dstNames 2#8 1) ∧
    (∀ t, t ∈ e.runners 2#8 → e.src32 (.word 0#32) 0xc1#8 t = .ok 1) ∧
    (∀ t, t ∈ e.runners 2#8 → s.copyDue e.b e.w t (min 1 (e.wp.batch.getD t 1 - 1)) = false) ∧ e.wp.copyStats = [] :=
  doing_now (by decide) ⟨by decide, by decide, by decide, by decide, by decide, room_now (by decide), by decide, by decide, by decide⟩
theorem wit_copies_cwaitParks : let c : Copy := { world := 1, ctx := 0, block := 1, warp := 0, thread := 0, batch := 1, order := 0, pieces := [(0#64, 0#64)] }
    let s := { setWarp (placed 32 0xc902c100) fun x => { x with batch := List.replicate 16 2 } with copies := [(0, c)] }
    Fetches s (envOf s) (lineOf s) (leftOf s) ∧ Room (envOf s) (dstNames 2#8 1) ∧
    ∃ t, t ∈ (envOf s).runners 2#8 ∧ (leftOf s).copyDue (envOf s).b (envOf s).w t (min 1 ((envOf s).wp.batch.getD t 1 - 1)) = true :=
  ⟨fetches_now (by decide), room_now (by decide), 0, by decide, by decide⟩
theorem test_cseal : vAt (placed 32 0xc8020000) 2 15 = 1#32 ∧ (warpAt (placed 32 0xc8020000)).batch = List.replicate 16 2 := by decide

/-- O36: bobbin 1 of two slots of 64 bytes, and its slots free, claimed and filled. -/
def bob1 (x : BobSlot) (last : Option Nat) : Bobbin :=
  { base := 0, size := 64, nslot := 2, rels := 1, weft := false, last := last, slots := [x, {}] }
def bobbing (w : Nat) (x : BobSlot) (last : Option Nat) : State :=
  setBlock (placed 32 w) fun k => { k with scratchLen := 4096, bobs := [(1, bob1 x last)] }
theorem wit_bobbins_init : Doing (setBlock (withRegs (placed 64 0x88ca000100) 7#32
      [(8, 0#32), (9, 64#32), (10, 16#32), (11, 0x100#32)]) fun k => { k with scratchLen := 1024 }) (.bobInit 0#8 1#8 0#8 0x88#8 0#24)
    fun e _ s => isS 0x88#8 = true ∧ aligned 0x88#8 4 = true ∧ e.inTry = false ∧ e.group4 0x88#8 0 = .ok [0, 64, 16, 0x100] ∧
      bobInitOk s e 1 [0, 64, 16, 0x100] = true := doing_now (by decide) (by decide)
theorem wit_bobbins_claim : Doing (bobbing 0xcb820100 {} none) (.bobClaim 0x82#8 1#8) (fun e _ _ => e.inTry = false ∧
      ∃ x, e.blk.bob? 1 = some x ∧ (x.slot x.claimPtr).st = .free) ∧
    Issuing (bobbing 0xcb820100 { st := .claimed } none) (.bobClaim 0x82#8 1#8) (fun e _ _ => e.inTry = false ∧
      ∃ x, e.blk.bob? 1 = some x ∧ (x.slot x.claimPtr).st ≠ .free) :=
  ⟨doing_now (by decide) ⟨by decide, bob1 {} none, by decide⟩, issuing_now (by decide) ⟨by decide, bob1 { st := .claimed } none, by decide⟩⟩
theorem wit_bobbins_expect : Doing (bobbing 0xcc0001c4 { st := .claimed, c := 60 } (some 0)) (.bobExpect 1#8 0xc4#8 0#32) (fun e _ _ =>
      e.inTry = false ∧ e.srcU (.word 0#32) 0xc4#8 = .ok 4 ∧ ∃ x, e.blk.bob? 1 = some x ∧ x.last = some 0 ∧
        (x.slot 0).st = .claimed ∧ (x.slot 0).c + 4 ≤ x.size) ∧
    Doing (bobbing 0xcc0001c4 { st := .filled, err := true } (some 0)) (.bobExpect 1#8 0xc4#8 0#32) (fun e _ _ => e.inTry = false ∧
      ∃ x, e.blk.bob? 1 = some x ∧ x.last = some 0 ∧ (x.slot 0).st = .filled ∧ (x.slot 0).err = true) :=
  ⟨doing_now (by decide) ⟨by decide, by decide, bob1 { st := .claimed, c := 60 } (some 0), by decide⟩, doing_now (by decide) ⟨by decide, bob1 { st := .filled, err := true } (some 0), by decide⟩⟩
theorem wit_bobbins_await : Doing (bobbing 0xcd820100 { st := .filled } none) (.bobAwait 0x82#8 1#8) (fun e _ _ => e.inTry = false ∧
      ∃ x, e.blk.bob? 1 = some x ∧ x.weft = false ∧ (x.slot (AMap.getD x.ptr e.w 0)).st = .filled) ∧
    Issuing (bobbing 0xcd820100 {} none) (.bobAwait 0x82#8 1#8) (fun e _ _ => e.inTry = false ∧
      ∃ x, e.blk.bob? 1 = some x ∧ x.weft = false ∧ (x.slot (AMap.getD x.ptr e.w 0)).st ≠ .filled) :=
  ⟨doing_now (by decide) ⟨by decide, bob1 { st := .filled } none, by decide⟩, issuing_now (by decide) ⟨by decide, bob1 {} none, by decide⟩⟩
theorem wit_bobbins_rel : Doing (bobbing 0xce000100 { st := .filled } none) (.bobRel 1#8) fun e _ _ => e.inTry = false ∧
    ∃ x, e.blk.bob? 1 = some x ∧ x.weft = false ∧ (x.slot (AMap.getD x.ptr e.w 0)).st = .filled :=
  doing_now (by decide) ⟨by decide, bob1 { st := .filled } none, by decide⟩

/-- O37: graph 5 with one node of records of 64 bytes, one of which lies at the placed line. -/
def graph1 : Graph :=
  { world := 1, ctx := 0, queue := 0, pkt := 0, panel := 0, arena := 0x100000#64, gstatus := 0x100000#64, param := 0#64
    nodes := [(0, { cap := 16, group := 4, maxDepth := 1, rsize := 16, base := 0x100000 })], count := 1 }
def recording (w : Nat) : State :=
  let s := withVec (withVec (setBlock (placed 32 w) fun k => { k with graph := some 5, reccount := 1, group := [0], uncommitted := [(0, 0)] }) 4
    (List.replicate 16 0x100000#32)) 5 Lanes.zero
  { s with graphs := [(5, graph1)] }
theorem wit_records_alloc : Doing (recording 0xd004e1c0) (.recAlloc 4#8 0xe1#8 0xc0#8 0#32) fun e _ s =>
    s.feature e.blk.world 2 = true ∧ isV 4#8 = true ∧ aligned 4#8 2 = true ∧ isP 0xe1#8 = true ∧ srcOk 0xc0#8 1 = true ∧
    e.inTry = false ∧ e.idle = false ∧ Room e (dstNames 4#8 2) ∧ s.graphOf e.blk = some (5, graph1) ∧
    (∀ t, t ∈ e.act → e.src32 (.word 0#32) 0xc0#8 t = .ok 0) ∧ 0 < graph1.nodes.length ∧ graph1.cancelled = false ∧
    faultingRefusal graph1 (Graph.grantAll e.b (e.blk.recdepth + 1) (e.act.map fun t => (t, 0)) graph1).1 = none :=
  doing_now (by decide) ⟨by decide, by decide, by decide, by decide, by decide, by decide, by decide, room_now (by decide), by decide,
    by decide, by decide, by decide, by decide⟩
theorem wit_records_grant : let d := AMap.getD graph1.nodes 0 {}
    d.maxDepth < 2 ∧ 1 ≤ d.maxDepth ∧ 0 < d.cap ∧ AMap.get? d.recs 0 = none ∧ d.recs.Pairwise (fun x y => x.1 < y.1) := by decide
theorem wit_records_commit : let s := setSplit (recording 0xd1000400) fun q => { q with mask := 1#16 }
    Doing s (.recCommit 4#8 0#32) fun e _ s => s.feature e.blk.world 2 = true ∧ isV 4#8 = true ∧ aligned 4#8 2 = true ∧
    e.inTry = false ∧ e.idle = false ∧ s.graphOf e.blk = some (5, graph1) ∧ (∀ t, t ∈ e.act → e.pread 4#8 t = .ok 0x100000) ∧
    [(0, 0)].length = e.act.length ∧ [(0, 0)] = e.act.filterMap fun _ => e.blk.uncommitted.find? fun q =>
      ((AMap.getD graph1.nodes q.1 {}).slotAddr q.2).toNat == 0x100000 := doing_now (by decide) (by decide)
theorem wit_records_read : let s := recording 0xd204c0c0
    let e := envOf s
    let xs := accs e (leftOf s) .load 4 4 (e.runners 4#8) fun _ => 0x100000
    Ready s (.recRead 4#8 0xc0#8 0xc0#8 0#32) ∧ (leftOf s).feature e.blk.world 2 = true ∧ Room e (dstNames 4#8 1) ∧
      (leftOf s).graphOf e.blk = some (5, graph1) ∧ 0 < e.blk.reccount ∧
      0x100000 = wrapN 64 (((AMap.getD graph1.nodes e.blk.node {}).slotAddr (e.blk.group.getD 0 0)).toNat + 4 * 0) ∧
      Reaches e (leftOf s) .load 4 4 (e.runners 4#8) (fun _ => 0x100000) ∧ (leftOf s).anyHeld e.b 4 xs = false ∧
      (State.loadAll e none 4 xs (leftOf s)).1 = xs.map fun x => (x, .ok [1#8, 0#8, 0#8, 0#8]) :=
  ⟨ready_now (by decide), by decide, room_now (by decide), by decide, by decide, by decide, by unfold Reaches; decide, by decide, by decide⟩
theorem wit_records_cancel : Doing (recording 0xd3000000) .gcancelGraph (fun e _ s => s.feature e.blk.world 2 = true ∧ e.inTry = false ∧
      s.graphOf e.blk = some (5, graph1)) ∧
    Doing (setBlock (placed 32 0xd3000001) fun k => { k with launch := some 6 }) .gcancelLaunch (fun e _ s => s.feature e.blk.world 2 = true ∧ e.inTry = false ∧ e.blk.launch = some 6) :=
  ⟨doing_now (by decide) (by decide), doing_now (by decide) (by decide)⟩

/-- O38: try; commit and abort outside a region; a commit of the only split; an abort after a uniform write, of a whole
split and of the threads of a guard. -/
theorem wit_regions_open : Doing (placed 32 0xd4000000) (.tryOpen 0#20) fun e _ s => s.feature e.blk.world 3 = true ∧
    e.inTry = false ∧ e.wp.region = none ∧ (tgt e s (dest e 0#20)).1 = none := doing_now (by decide) (by decide)
theorem wit_regions_pass : Doing (placed 32 0xd5000000) .commit (fun e _ s => s.feature e.blk.world 3 = true ∧ e.inTry = false ∧
      (e.split.park = .fence → s.remoteDue e.b e.w = false ∧ s.remoteDueOf (fun k => k.world == e.blk.world) = false)) ∧
    Doing (placed 32 0xd7000003) (.abort 3#8) (fun e _ s => s.feature e.blk.world 3 = true ∧ e.idle = false ∧ e.wp.region = none) :=
  ⟨doing_now (by decide) (by decide), doing_now (by decide) (by decide)⟩
theorem wit_regions_commit : Issuing (inRegion (placed 32 0xd6000082)) (.commitRel 8#4) fun e _ s1 =>
    s1.feature e.blk.world 3 = true ∧ e.inTry = true ∧
    let s0 := s1.updSplit e.b e.w e.sp fun q => { q with park := .commit }
    ∃ x r, s0.warp? e.b e.w = some x ∧ x.region = some r ∧ x.allAtCommit = true ∧ x.regionLoads = false ∧ x.doomedNow = 0#16 ∧
      (∀ p, p ∈ e.commitStores s0 r → reaches p.1 = true ∧ isRemote p.1 = false ∧ s0.anyHeld e.b 8 [p.1] = false) ∧
      (s0.writeAll e (e.commitStores s0 r)).1 = none ∧ (s0.writeAll e (e.commitStores s0 r)).2.commitFaults e x 0#16 = [] ∧
      (s0.writeAll e (e.commitStores s0 r)).2.remoteDueOf (fun k => k.world == e.blk.world) = false :=
  issuing_now (by decide) ⟨by decide, by decide, _, _, rfl, rfl, by decide, by decide, by decide, by decide, by decide, by decide, by decide⟩
def aborter (uw : Bool) (mood : W32) : State := setSplit (setWarp (inRegion (placed 32 0xd7000003)) fun x =>
  { x with region := x.region.map fun r => { r with uwrite := uw }, preds := [0#16, 1#16, 0#16, 0#16, 0#16, 0#16, 0#16] })
  fun q => { q with mood := mood }
theorem wit_regions_abort : Issuing (aborter true 7#32) (.abort 3#8) (fun e _ s => s.feature e.blk.world 3 = true ∧ e.idle = false ∧
      e.inTry = true ∧ e.wp.regionLoads = false ∧ ∃ r, e.wp.region = some r ∧ r.uwrite = true) ∧
    Issuing (aborter false 7#32) (.abort 3#8) (fun e _ s => s.feature e.blk.world 3 = true ∧ e.inTry = true ∧ e.wp.regionLoads = false ∧
      (∃ r, e.wp.region = some r ∧ r.uwrite = false) ∧ e.active = e.split.mask ∧
      ∃ y, e.wp.abortThreads e.gen e.sp e.active 3 = some y) ∧
    Doing (aborter false 1#32) (.abort 3#8) (fun e _ s => s.feature e.blk.world 3 = true ∧ e.idle = false ∧ e.inTry = true ∧
      e.wp.regionLoads = false ∧ (∃ r, e.wp.region = some r ∧ r.uwrite = false) ∧ e.active ≠ e.split.mask ∧
      ∃ y, e.wp.abortThreads e.gen e.sp e.active 3 = some y) :=
  ⟨issuing_now (by decide) ⟨by decide, by decide, by decide, by decide, _, rfl, rfl⟩,
    issuing_now (by decide) ⟨by decide, by decide, by decide, ⟨_, rfl, rfl⟩, by decide, Option.isSome_iff_exists.mp (by decide)⟩,
    doing_now (by decide) ⟨by decide, by decide, by decide, by decide, ⟨_, rfl, rfl⟩, by decide, Option.isSome_iff_exists.mp (by decide)⟩⟩
theorem wit_regions_tstat : Doing (placed 32 0xd8840000) (.tstat 0x84#8) fun e _ s => s.feature e.blk.world 3 = true ∧
    isS 0x84#8 = true := doing_now (by decide) (by decide)
theorem test_tstat : uAt (inRegion (placed 32 0xd8840000)) 4 = 0x400#32 := by decide

/-! ## The weft stream -/

/-- A device about to run one weft instruction. -/
def placedWeft (w : Nat) : State := State.reset.placeCode 1 (leBytes 4 w) fun b => .weft b

def noWEnv : WEnv := { b := 0, blk := {}, wf := {} }
def wenvOf (s : State) : WEnv := match s.weftIssuer? with
  | some p => { b := p.1, blk := p.2.1, wf := p.2.2 }
  | none => noWEnv
def wlineOf (s : State) : FetchLine := match (s.weftLine (wenvOf s).blk (wenvOf s).wf).1 with
  | .ok l => l
  | .error _ => []
def wleftOf (s : State) : State := (s.weftLine (wenvOf s).blk (wenvOf s).wf).2
def weftNow (s : State) : Bool := s.weftIssuer?.isSome && (match (s.weftLine (wenvOf s).blk (wenvOf s).wf).1 with
  | .ok _ => true
  | .error _ => false)

/-- The hypotheses of `WDoes`, `WParks` and `WFaults`. -/
def WIssuing (s : State) (i : Instr) (ok : WEnv → FetchLine → State → Prop) : Prop :=
  WIssues s (wenvOf s) (wlineOf s) (wleftOf s) ∧ i.wf = true ∧ ok (wenvOf s) (wlineOf s) (wleftOf s)

theorem wissuing_now {s : State} {i : Instr} {ok : WEnv → FetchLine → State → Prop} (h : (weftNow s && i.wf) = true)
    (ho : ok (wenvOf s) (wlineOf s) (wleftOf s)) : WIssuing s i ok := by
  simp only [weftNow, Bool.and_eq_true] at h
  refine ⟨⟨?_, ?_⟩, h.2, ho⟩
  · unfold wenvOf
    cases hh : s.weftIssuer? with
    | none => rw [hh] at h; exact absurd h.1.1 (by simp)
    | some e => rfl
  · have h2 := h.1.2
    unfold wlineOf wleftOf
    cases hh : s.weftLine (wenvOf s).blk (wenvOf s).wf with
    | mk r t => cases r with
      | error x => rw [hh] at h2; exact absurd h2 (by simp)
      | ok l => rfl

def setWeft (s : State) (f : Weft → Weft) : State := s.updWeft 1 f
/-- The placed line with a second instruction, both marked as targets. -/
def twoWords (s : State) : State :=
  { s with lines := s.lines.map fun p => (p.1, { p.2 with data := leBytes 4 0x40000003 ++ leBytes 4 3 ++ p.2.data.drop 8 }) }

/-- O39. -/
theorem wit_weft_xadd : WIssuing (placedWeft 0x2c480005) (.xaddImm 1#4 2#4 5#18) fun _ _ _ => True := wissuing_now (by decide) trivial
theorem wit_weft_wloop : WIssuing (twoWords (placedWeft 0x34000401)) (.wloop 0#3 1#12 1#10) fun e l s =>
    BitVec.ofNat 32 ((1#12).toNat + 1) ≠ 0#32 ∧ (∃ pc, continuation l e.wf.pc 1 = .ok pc) ∧
    (s.targetFault e.blk.core e.blk.world e.blk.ctx 1 (e.wf.pc + 4#64 * (1#10).setWidth 64)).1 = none :=
  wissuing_now (by decide) ⟨by decide, ⟨_, rfl⟩, by decide⟩
theorem wit_weft_wloopReg : WIssuing (twoWords (placedWeft 0x34400401)) (.wloopReg 0#3 1#4 1#10) fun e _ s =>
    (e.x 1#4).setWidth 32 = 0#32 ∧ (s.targetFault e.blk.core e.blk.world e.blk.ctx 1 (e.wf.pc + 4#64 * (1#10).setWidth 64)).1 = none ∧
    ∃ le pc, (s.fetchLine e.blk.core e.blk.world e.blk.ctx (e.wf.pc + 4#64 * (1#10).setWidth 64)).1 = .ok le ∧
      continuation le (e.wf.pc + 4#64 * (1#10).setWidth 64) 1 = .ok pc :=
  wissuing_now (by decide) ⟨by decide, by decide, _, _, rfl, rfl⟩
theorem wit_weft_wjump : WIssuing (placedWeft 0x38000000) (.wjump 0#26) fun e _ s =>
    (s.targetFault e.blk.core e.blk.world e.blk.ctx 1 (e.wf.pc + 4#64 * (0#26).signExtend 64)).1 = none := wissuing_now (by decide) (by decide)
theorem wit_weft_wend : WIssuing (placedWeft 0x3c000000) .wend fun e _ _ => wflagsOf e.blk = 0 := wissuing_now (by decide) (by decide)
theorem wit_weft_continue : let x : Weft := { pc := 0x100008#64, w := { count := 2#32, first := 4#64, stop := 0x100008#64 } :: List.replicate 7 {} }
    (x.w.getD 0 {}).stop = x.pc ∧ 1 < (x.w.getD 0 {}).count.toNat ∧
    ∀ j, j < 8 → j ≠ 0 → (x.w.getD j {}).count ≠ 0#32 → (x.w.getD j {}).stop ≠ x.pc := by decide
theorem test_xadd : let s := setWeft (placedWeft 0x2c4bffff) fun y => { y with x := y.x.set 2 5#64 }
    ((stepped s).block? 1).elim 0#64 (fun k => (k.weft.getD {}).x.getD 1 0#64) = 4#64 := by decide

/-- O40: shed 3 with the weft's bit clear, set, and without the weft; bobbin 1 of the weft, filled, in error and free. -/
def wshedding (w : Nat) (weft arrived : Bool) (p : Park) : State := setWeft (setBlock (placedWeft w) fun k =>
  { k with sheds := [(3, { first := 0, num := 1, weft := weft, weftArrived := arrived })] }) fun y => { y with park := p }
theorem wit_meets_shed : WIssuing (wshedding 0x1c030000 true false .ready) (.wshedArrive 3#4) (fun e _ _ =>
      (e.blk.shed 3).weft = true ∧ (e.blk.shed 3).weftArrived = false) ∧
    WIssuing (wshedding 0x1c030000 true true .ready) (.wshedArrive 3#4) (fun e _ _ =>
      (e.blk.shed 3).weft = true ∧ (e.blk.shed 3).weftArrived = true) ∧
    WIssuing (wshedding 0x20030000 true false .ready) (.wshedWait 3#4) (fun e _ _ =>
      (e.blk.shed 3).weft = true ∧ weftStill e.wf.park 3 (e.blk.shed 3) = false) ∧
    WIssuing (wshedding 0x20030000 true true .ready) (.wshedWait 3#4) (fun e _ _ =>
      (e.blk.shed 3).weft = true ∧ weftStill e.wf.park 3 (e.blk.shed 3) = true) ∧
    WIssuing (wshedding 0x20030000 false false .ready) (.wshedWait 3#4) (fun e _ _ => (e.blk.shed 3).weft = false) :=
  ⟨wissuing_now (by decide) (by decide), wissuing_now (by decide) (by decide), wissuing_now (by decide) (by decide),
    wissuing_now (by decide) (by decide), wissuing_now (by decide) (by decide)⟩
def wbob (x : BobSlot) (weft : Bool) : Bobbin := { base := 0, size := 64, nslot := 1, rels := 1, weft := weft, slots := [x] }
def wbobbing (w : Nat) (x : BobSlot) (weft : Bool) : State := setBlock (placedWeft w) fun k => { k with bobs := [(1, wbob x weft)] }
theorem wit_meets_bobbin : (∀ err, WIssuing (wbobbing 0x24010000 { st := .filled, err := err } true) (.wbobAwait 1#3) fun e _ _ =>
      ∃ x, e.blk.bob? 1 = some x ∧ x.weft = true ∧ (x.slot (AMap.getD x.ptr weftPtr 0)).st = .filled ∧
        (x.slot (AMap.getD x.ptr weftPtr 0)).err = err) ∧
    WIssuing (wbobbing 0x24010000 {} true) (.wbobAwait 1#3) (fun e _ _ => ∃ x, e.blk.bob? 1 = some x ∧ x.weft = true ∧
      (x.slot (AMap.getD x.ptr weftPtr 0)).st ≠ .filled) ∧
    WIssuing (wbobbing 0x28010000 { st := .filled } true) (.wbobRel 1#3) (fun e _ _ => ∃ x, e.blk.bob? 1 = some x ∧ x.weft = true ∧
      (x.slot (AMap.getD x.ptr weftPtr 0)).st = .filled) ∧
    WIssuing (wbobbing 0x28010000 {} false) (.wbobRel 1#3) (fun e _ _ => ∃ x, e.blk.bob? 1 = some x ∧ x.weft = false) :=
  ⟨fun err => by cases err <;> exact wissuing_now (by decide) (⟨wbob { st := .filled, err := _ } true, rfl, rfl, rfl, rfl⟩), wissuing_now (by decide) ⟨wbob {} true, by decide⟩,
    wissuing_now (by decide) ⟨wbob { st := .filled } true, by decide⟩, wissuing_now (by decide) ⟨wbob {} false, by decide⟩⟩

/-- O41: an mma on array 0 of the one that the block has, and on array 1. -/
theorem wit_arrays : WIssuing (placedWeft 0x04012340) (.mma 0#2 0#1 0#1 0#2 1#4 2#4 3#4 4#4) (fun e _ _ => 0 < e.blk.nq ∧
      (AMap.getD e.wf.mmas 0 []).length < 2) ∧
    WIssuing (placedWeft 0x04112340) (.mma 0#2 0#1 0#1 1#2 1#4 2#4 3#4 4#4) (fun e _ _ => e.blk.nq ≤ 1) :=
  ⟨wissuing_now (by decide) (by decide), wissuing_now (by decide) (by decide)⟩
def multiplying : State :=
  let r : MmaRun := { pc := 0#64, f := 0, g := 0, acc := false, a := 0x100000#64, sa := 0#64, b := 0x100000#64, sb := 0#64 }
  let s := setWeft (placedWeft 0x38000000) fun y => { y with mmas := [(0, [r])] }
  { s with args := { block := 1, n := 0 } }
theorem wit_arrays_row : ∃ k r tile row, let s := multiplying
    s.block? 1 = some k ∧ k.run = .running ∧ s.mmasOf 1 0 = [r] ∧ (s.mmaTile k 1 r).1 = .ok tile ∧
    (((s.mmaTile k 1 r).2.updWeft 1 fun y => y.setMma 0 (some { r with tile := tile })).weftFetch k 1
      (r.a + r.sa * BitVec.ofNat 64 r.row).toNat 64 1).1 = .ok row ∧ r.acc = false := ⟨_, _, _, _, rfl, rfl, rfl, rfl, rfl, rfl⟩

/-- O42: each form on handle 0, which takes slot 0; a handle that holds none; a full set of slots. -/
theorem wit_slots_zero : WIssuing (placedWeft 0x14000000) (.accZero 0#4) (fun e _ _ => ∃ n x, SlotOf e 0#4 n x) ∧
    WIssuing (placedWeft 0x10001200) (.accSt 0#2 0#2 0#4 1#4 2#4) (fun e _ _ => AMap.get? e.wf.handles 0 = none) ∧
    WIssuing (placedWeft 0x18000000) (.accRel 0#4) (fun _ _ _ => True) ∧
    WIssuing (setBlock (placedWeft 0x14000000) fun k => { k with slots := (List.range 64).map fun n => (n, {}) }) (.accZero 0#4)
      (fun e _ _ => e.slotFor 0#4 = none) :=
  ⟨wissuing_now (by decide) ⟨_, _, rfl⟩, wissuing_now (by decide) (by decide), wissuing_now (by decide) trivial,
    wissuing_now (by decide) (by decide)⟩
theorem wit_slots_scacc : WIssuing (placedWeft 0x08001200) (.scaccU 0#2 0#4 1#4 2#4) fun e _ _ => 0 < e.blk.nq ∧
    AMap.getD e.wf.mmas 0 [] = [] ∧ (∃ n x, SlotOf e 0#4 n x) ∧ ∃ ps, e.blk.partials 0 = .ok ps :=
  wissuing_now (by decide) ⟨by decide, by decide, ⟨_, _, rfl⟩, _, rfl⟩
theorem wit_slots_scaccV : WIssuing (setWeft (placedWeft 0x0a001200) fun y => { y with x := List.replicate 16 0x100000#64 })
    (.scaccV 0#2 0#4 1#4 2#4) fun e _ s => 0 < e.blk.nq ∧ (∃ n x, SlotOf e 0#4 n x) ∧
    s.weftCheck e.blk e.b (e.x 1#4).toNat 64 2 false = .ok () ∧ s.weftCheck e.blk e.b (e.x 2#4).toNat 256 2 false = .ok () ∧
    (∃ ra, (s.weftRead e.b (e.x 1#4).toNat 64).1 = .ok ra) ∧ ∃ cb, (s.weftRead e.b (e.x 2#4).toNat 256).1 = .ok cb :=
  wissuing_now (by decide) ⟨by decide, ⟨_, _, rfl⟩, by decide, by decide, ⟨_, rfl⟩, _, rfl⟩

/-! ## Steps of the device -/

def withArgs (s : State) (a : EvArgs) : State := { s with args := a }
/-- The placed device, and the reset device with world 1. -/
def p0 : State := placed 32 0
def d0 (x : World) : State := { State.reset with bootReady := true, worlds := [(1, x)] }

/-- O43: each arrival for the placed warp. -/
theorem wit_arrivals_load : let s := withArgs (setWarp p0 fun x => { x with loads := [(3, { flag := 0 })] }) { block := 1, id := 3 }
    ∃ k x l, s.block? 1 = some k ∧ s.warp? 1 0 = some x ∧ AMap.get? x.loads 3 = some l ∧ s.awaitsLoad 1 0 3 = false ∧ l.flag ≠ 15 :=
  ⟨_, _, _, rfl, rfl, rfl, by decide, by decide⟩
theorem wit_arrivals_deliver : let l : PendLoad := { flag := 0, targets := [(7, 3#16, Lanes.zero)], prevs := [(2, none)] }
    let x : Warp := { rmap := [(2, 7)], phys := [(7, {})], loads := [(3, l)] }
    AMap.get? x.loads 3 = some l ∧ l.fault = none ∧ l.heirs = [] ∧ l.uni = none ∧ l.prevs.length = 1 ∧ AMap.get? x.rmap 2 = some 7 ∧
      (x.reg? 2).isSome = true := by decide
theorem wit_arrivals_access : let s := withArgs (setWarp p0 fun x => { x with accs := [(3, { flag := 11 })] }) { block := 1, id := 3 }
    ∃ x l, s.warp? 1 0 = some x ∧ AMap.get? x.accs 3 = some l ∧ s.awaitsAcc 1 0 3 = false ∧ l.flag ≠ 15 ∧ l.flag ≤ 11 ∧
      x.flags.length = 12 ∧ x.flagFault.length = 12 := ⟨_, _, rfl, rfl, by decide, by decide, by decide, by decide, by decide⟩
def asking (quota n : Nat) : State := withArgs ((setSplit (setWarp (setBlock p0 fun k => { k with warps := k.warps }) fun x => { x with quota := quota })
    fun q => { q with park := .quota n }).updQuarter 0 fun q => { q with quotaQ := [(0, [(1, 0, 0, n)])], resident := [1] }) { unit := 0, n := 0 }
theorem wit_arrivals_quota : ((AMap.getD ((asking 60 4).quarter 0).quotaQ 0 []).filter (asking 60 4).requestLive = [(1, 0, 0, 4)] ∧
      4 ≤ (asking 60 4).laneFree 0 0) ∧
    ((AMap.getD ((asking 60 5).quarter 0).quotaQ 0 []).filter (asking 60 5).requestLive = [(1, 0, 0, 5)] ∧
      (asking 60 5).laneFree 0 0 < 5 ∧ (asking 60 5).laneBlocked 0 0 = true ∧ ((asking 60 5).split? 1 0 0).isSome = true) := by decide
theorem wit_arrivals_join : let s := withArgs (setSplit p0 fun q => { q with park := .join }) { block := 1 }
    ∃ k x q, s.block? 1 = some k ∧ s.warp? 1 0 = some x ∧ k.run = .running ∧ AMap.get? x.active 0 = some q ∧ q.park = .join ∧
      ∀ p, p ∈ x.active → p.1 ≠ 0 → p.2.park ≠ .ready := ⟨_, _, _, rfl, rfl, rfl, rfl, rfl, by decide⟩
def aged (g : Nat) (sc : Option Bool) : State := State.reset.updQuarter 0 fun q => { q with gen := g, scrub := sc }
theorem wit_arrivals_scrub : ((aged 7168 none).quarter 0).scrub = none ∧ 7168 ≤ ((aged 7168 none).quarter 0).gen ∧
    ((aged 8191 none).quarter 0).gen < 8192 ∧ ((aged 7168 none).quarter 0).clean ≠ some true ∧ 15360 ≤ ((aged 15360 none).quarter 0).gen ∧
    ((aged 0 (some true)).quarter 0).scrub = some true ∧ ((aged 0 (some true)).quarter 0).resident = [] := by decide

/-- O44: a halted block whose faults are served; a limit on its stall; a request past its deadline; a save; a resumption. -/
def halted (f : Block → Block) (x : World → World) (n : Nat) : State :=
  let s := setBlock p0 fun k => f { k with run := .halted, service := some 0#64, haltedAt := 0 }
  { setWorld s x with args := { block := 1 }, now := n }
theorem wit_stops_service : let s := halted id id 0
    ∃ k, s.block? 1 = some k ∧ k.service.isSome = true ∧ k.run = .halted ∧ (State.serviceAll 1 k.faults s).2 = none ∧
      ∀ p, p ∈ k.warps → p.2.due = false := ⟨_, rfl, by decide, by decide, by decide, by decide⟩
theorem wit_stops_final : let s := halted (fun k => { k with faults := [{ code := fcPageFault, wid := 0, pc := 0#64, addr := 0x900000#64 }] }) id 0
    ∃ k f, s.block? 1 = some k ∧ k.service.isSome = true ∧ k.run ≠ .ended ∧ (State.serviceAll 1 k.faults s).2 = some f :=
  ⟨_, _, rfl, by decide, by decide, rfl⟩
theorem wit_stops_stall : let s := halted id id 40001
    ∃ k x, s.block? 1 = some k ∧ s.world? k.world = some x ∧ k.run = .halted ∧ k.service.isSome = true ∧ k.haltedAt + x.stall * 1000 < s.now :=
  ⟨_, _, rfl, rfl, by decide, by decide, by decide⟩
theorem wit_stops_walk : let s := withArgs (p0.updQuarter 0 fun q => { q with owner := 1 }) { world := 1, addr := 0x100000#64 }
    ∃ x p l t, s.ctx? 1 0 = some x ∧ (s.quarter 0).owner = 1 ∧ walk x.pt 0x100000 = .leaf p l t := ⟨_, _, _, _, rfl, by decide, rfl⟩
theorem wit_stops_deadline : ∀ c, let s := { setBlock p0 fun k => { k with preempt := some (c, 0) } with args := { block := 1 }, cycles := 20000000 }
    ∃ k x, s.block? 1 = some k ∧ k.preempt = some (c, 0) ∧ s.world? k.world = some x ∧ 0 + x.deadline * 1000 ≤ s.cycles ∧
      k.run ≠ .saving ∧ k.run ≠ .saved ∧ k.run ≠ .ended := by
  intro c; cases c <;> exact ⟨_, _, rfl, rfl, rfl, by decide, by decide, by decide, by decide⟩
theorem wit_stops_save : let s := { setBlock p0 fun k => { k with run := .saving } with args := { block := 1 } }
    ∃ k, s.block? 1 = some k ∧ k.run = .saving ∧ (∀ p, p ∈ k.warps → p.2.loads = [] ∧ p.2.accs = [] ∧ p.2.due = false) ∧
      (∀ c, c ∈ s.copies → c.2.block ≠ 1) ∧ ∀ p, p ∈ k.warps → p.2.region = none := ⟨_, rfl, by decide, by decide, by decide, by decide⟩
theorem wit_stops_resume : let s := { (setWorld (setBlock p0 fun k => { k with run := .saved }) fun x => { x with quarterSet := [0] }).updQuarter 0 fun q => { q with owner := 1 } with args := { block := 1, unit := 0 } }
    ∃ k qs seats, s.block? 1 = some k ∧ k.run = .saved ∧ k.service = none ∧ s.firstSaved 1 k = true ∧ s.placing k.world = true ∧
      s.coreOpen 0 none = true ∧ s.fitCore k.need 0 = some (qs, seats) ∧ k.acts = [] ∧ k.brk = none :=
  ⟨_, _, _, rfl, by decide, by decide, by decide, by decide, by decide, rfl, by decide, by decide⟩
/-- A halted block whose policy opens the debugger's features to requests without the T bit. -/
def debugged (d : DebugWrite) : State := 
  { halted (fun k => { k with weft := some {}, slots := [(0, {})] }) (fun x => { x with popen := 0x81ff#32 }) 0 with
    args := { block := 1, debug := d } }
theorem wit_stops_debugger : ∀ d, d = .scratch 0 [] ∨ d = .reg 0 127 15 5#32 → ∃ k k1, (debugged d).block? 1 = some k ∧ k.run = .halted ∧
    (debugFeature d = 1 ∨ debugFeature d = 3) ∧ (debugged d).policyOpen k.world (debugFeature d) (debugged d).args.tag = true ∧
    k.debug d = some k1 := by
  rintro d (rfl | rfl) <;> exact ⟨_, _, rfl, by decide, by decide, by decide, rfl⟩
theorem wit_stops_debuggerReads : ∀ d, d = .readReg 0 127 3 ∨ d = .readSticky ∨ d = .readFlags 0 → ∃ k bs,
    (debugged d).block? 1 = some k ∧ k.run = .halted ∧ (debugFeature d = 0 ∨ debugFeature d = 2) ∧
    (debugged d).policyOpen k.world (debugFeature d) (debugged d).args.tag = true ∧ k.debugRead d = some bs := by
  rintro d (rfl | rfl | rfl) <;> exact ⟨_, _, rfl, by decide, by decide, by decide, rfl⟩
theorem wit_stops_debuggerStep : ∃ k, (debugged .singleStep).block? 1 = some k ∧ k.run = .halted ∧
    (debugged .singleStep).policyOpen k.world 6 (debugged .singleStep).args.tag = true := ⟨_, rfl, by decide, by decide⟩
theorem wit_stops_debuggerClosed : (∃ k, p0.block? 1 = some k ∧ debugOfWorld (.reg 0 0 0 0#32) = false ∧ k.run = .running) ∧
    (setWorld p0 id).policyOpen 1 7 p0.args.tag = false ∧ p0.world? 1 = some placedWorld := ⟨⟨_, rfl, rfl, rfl⟩, by decide, rfl⟩

/-- O45: a launch of one block for world 1, which owns quarter 0; the same block made ready by a graph. -/
def launch1 : Launch := { world := 1, ctx := 0, queue := 0, pkt := 0, panel := 0, desc := {}, param := 0#64, total := 1, left := 1 }
def launching (n : Nat) : State := { (d0 { quarterSet := [0] }).updQuarter 0 fun q => { q with owner := 1 } with launches := [(3, launch1)], now := n }
theorem wit_placed_launch : let s := withArgs (launching 0) { unit := 0, id := 3 }
    ∃ qs seats, AMap.get? s.launches 3 = some launch1 ∧ launch1.next < launch1.total ∧ s.placing 1 = true ∧
      State.panelOk launch1.desc launch1.panel 0 = true ∧ s.coreOpen 0 (some 3) = true ∧
      (∀ j y c, (j, y) ∈ s.launches → j < 3 → c < 64 → s.placeable j y (64 * (0 / 64) + c) = false) ∧
      s.fitCore (launch1.desc.need 1) 0 = some (qs, seats) :=
  ⟨_, _, by decide, by decide, by decide, by decide, by decide, fun j y c h hj _ => by
    simp [withArgs, launching] at h; omega, rfl⟩
/-- An older launch whose next block fits nowhere, as its world is in ERROR. -/
theorem wit_placed_older : let s := { launching 0 with launches := [(2, { launch1 with world := 2 }), (3, launch1)] }
    ∀ c, c < 64 → s.placeable 2 { launch1 with world := 2 } (64 * (0 / 64) + c) = false := by decide
theorem wit_placed_graph : let r : ReadyBlk := { graph := 5, node := 0, bid := 0, slots := [0], depth := 0, since := 0 }
    let s := { withArgs (launching 0) { unit := 0, id := 0, n := 5 } with readyBlks := [r], graphs := [(5, graph1)] }
    ∃ qs seats, s.readyBlks.find? (fun r => r.graph == 5) = some r ∧ AMap.get? s.graphs 5 = some graph1 ∧ s.placing 1 = true ∧
      s.coreOpen 0 none = true ∧ s.fitCore (((AMap.getD graph1.nodes 0 {}).desc).need 1) 0 = some (qs, seats) :=
  ⟨_, _, by decide, by decide, by decide, by decide, rfl⟩
theorem wit_placed_gen : ((aged 16383 none).quarter 0).gen ≤ 16383 ∧ (aged 16383 none).nextGen 0 = 1 ∧ (aged 16382 none).nextGen 0 = 16383 := by decide
theorem wit_placed_reserve : let s := launching 50000
    (∀ q, q ∈ s.quarters → q.1 / 256 = 0 → q.2.reserved = none) ∧
    s.launches.find? (fun p => decide (p.2.next < p.2.total) && !p.2.cancelled && State.panelOk p.2.desc p.2.panel (64 * 0)) = some (3, launch1) ∧
    launch1.since + 50000 ≤ s.now ∧ s.reservable launch1 0 = [(0, 0)] := by decide
theorem wit_placed_end : let s := withArgs (setWarp p0 fun x => { x with active := [], pending := [] }) { block := 1 }
    ∃ k, s.block? 1 = some k ∧ k.run = .running ∧ (∀ p, p ∈ k.warps → p.2.ended = true) ∧ k.weft = none ∧ s.copies = [] ∧
      ∀ p, p ∈ k.warps → p.2.loads = [] ∧ p.2.accs = [] :=
  ⟨_, rfl, by decide, by decide, by decide, by decide⟩
theorem wit_placed_handover : let s := (d0 {}).updQuarter 0 fun q => { q with handover := some 1 }
    (s.quarter 0).resident = [] ∧ (s.quarter 0).handover = some 1 := by decide
theorem wit_placed_epoch : ({ d0 {} with now := 100000 } : State).epochAt + 100000 ≤ 100000 ∧ (d0 {}).world? 1 = some {} := by decide
theorem wit_placed_drain : let s := { (d0 { lambda := 1 }).updQuarter 0 fun q => { q with draining := some 1 } with now := 500 }
    ∃ x, (s.quarter 0).draining = some 1 ∧ s.world? 1 = some x ∧ (s.quarter 0).drainAt + min (s.drainLimit * 1000) (x.lambda * 500) ≤ s.now :=
  ⟨_, by decide, rfl, by decide⟩
theorem wit_placed_timer : let g := { graph1 with nodes := [(0, { group := 4, timer := 2, pend := [0], started := some 0 })] }
    let s := { d0 {} with graphs := [(5, g)], now := 2000, args := { id := 5, n := 0 } }
    AMap.get? s.graphs 5 = some g ∧ (AMap.getD g.nodes 0 {}).started = some 0 ∧ 0 + (AMap.getD g.nodes 0 {}).timer * 1000 ≤ s.now ∧
      0 < (AMap.getD g.nodes 0 {}).pend.length ∧ (AMap.getD g.nodes 0 {}).pend.length < (AMap.getD g.nodes 0 {}).group := by decide

/-- O46: power measurements at each side of the cap's bounds; a request at its bound; reads and writes of the placed block. -/
theorem wit_device_power : State.reset.bootStage = 0 ∧ (d0 {}).capW = 3600 ∧ 3600 < 3601 ∧ 3419 ≤ (d0 {}).capW ∧ 100 * 3419 < 95 * (d0 {}).capW ∧
    95 * (d0 {}).capW ≤ 100 * 3420 ∧ 1000 ≤ ({ d0 {} with coolUs := 990 } : State).coolUs + 10 ∧ (d0 {}).coolUs + 10 < 1000 := by decide
theorem wit_device_wait : let r : PortReq := { cls := 2, blk := 0, since := 0 }
    let s := { (d0 {}) with ports := [(0, { waiting := [r] })], now := 40 }
    (AMap.getD s.ports 0 {}).head 2 = some r ∧ waitBound 2 = some 4 ∧ r.since + 4 * 10 ≤ s.now ∧ 2 ∉ (AMap.getD s.ports 0 {}).bound ∧
      (AMap.getD s.ports 0 {}).next s.now = some r ∧ Port.newHead 2 5 [{ r with cls := 1 }, r] = [{ r with cls := 1 }, { r with since := 5 }] := by decide
def atPlaced (s : State) : State := withArgs s { world := 1, addr := 0x100000#64, bytes := [1#8] }
theorem wit_device_access : ∃ a l, (atPlaced p0).blockAt 1 0 0x100000#64 .devRead = some (a, 0) ∧ (atPlaced p0).line? a = some l ∧
    (atPlaced p0).blockAt 1 0 0x100000#64 .devWrite = some (a, 0) ∧ 0 + (atPlaced p0).args.bytes.length ≤ 256 := ⟨_, _, rfl, rfl, by decide, by decide⟩
def recordTable : AMap (BitVec 128) := AMap.set placedTable (ptKey 4 placedVa) (BitVec.ofNat 128 (placedPa + 0x302 + 2 ^ 48))
def ctxOf (pt : AMap (BitVec 128)) (w0 : W64) (ptr : Nat) : AMap Ctx :=
  [(0, { pt := pt, recs := [(1, { w0 := w0, w1 := 0x77#64, w2 := 0x100000#64, w3 := BitVec.ofNat 64 (2 ^ 40 + ptr) })] })]
def dirtyLine : Line := { placedLine 0 [] 1 with trec := 1, dirty := true }
/-- The placed page under record 1, valid, exported with key 0x77 and compressed, with one dirty line. -/
def compressed : State :=
  let s := setWorld p0 fun x => { x with ctxs := ctxOf recordTable 0x8500#64 0, keys := some 0 }
  { s with lines := [(placedLoc.key * 64 + 1, dirtyLine)] }
theorem wit_device_run : ∀ p, let r : HRun := { r0 with fin := .tend, purpose := p, world := 1, va := 0x100000#64, orig := (placedLine 0 [] 1).data }
    let s := { compressed with heddle := some r }
    ∃ a l, s.heddle = some r ∧ r.fin ≠ .running ∧ State.blockAt { s with heddle := none } r.world r.ctx r.va .devRead = some (a, 0) ∧
      (State.sweepUnder { s with heddle := none } a).line? a = some l ∧ l.dirty = true ∧ l.data = r.orig ∧ l.poison = 0#32 ∧
      ((State.sweepUnder { s with heddle := none } a).view a).codec = true ∧ ((State.sweepUnder { s with heddle := none } a).view a).pair = r.slot := by
  intro p; cases p <;> exact ⟨_, dirtyLine, rfl, by decide, rfl, by decide, by decide, by decide, by decide, by decide, by decide⟩
theorem wit_device_scrub : 256 * (State.physBytes / 256 - 1) < State.physBytes := by decide

/-- O47: record 1 of world 1, encrypted, at version 0, whose sweep is due; under way at its first block and at its end. -/
def sweeping (pt : AMap (BitVec 128)) (w0 : W64) (ptr : Nat) (due : List (Nat × Nat × Option (Nat × Nat))) : State :=
  let s := setWorld compressed fun x => { x with ctxs := ctxOf pt w0 ptr, sweepInterval := 1, sweeps := due }
  { s with args := { world := 1, ctx := 0, n := 1 }, now := 1000000000 }
theorem wit_sweeps_due : let s := sweeping recordTable 0xd00#64 0 []
    ∃ x r, s.world? 1 = some x ∧ s.record? 1 0 1 = some r ∧ x.sweepInterval ≠ 0 ∧ r.valid = true ∧ s.encrypted 1 r = true ∧
      r.validAt + x.sweepInterval * 1000000000 ≤ s.now ∧ x.sweeps = [] := ⟨_, _, rfl, rfl, by decide, by decide, by decide, by decide, by decide⟩
theorem wit_sweeps_start : let s := sweeping recordTable 0xd00#64 0 [(0, 1, none)]
    ∃ x r, s.world? 1 = some x ∧ x.sweeps = [(0, 1, none)] ∧ s.record? 1 0 1 = some r ∧ r.sweep = false := ⟨_, _, rfl, by decide, rfl, by decide⟩
theorem wit_sweeps_block : let s := sweeping recordTable 0xf00#64 0 [(0, 1, none)]
    ∃ x r a, s.world? 1 = some x ∧ x.sweeps = [(0, 1, none)] ∧ s.record? 1 0 1 = some r ∧ r.sweep = true ∧ r.sweepPtr < 256 * r.pages ∧
      s.blockAt 1 0 (BitVec.ofNat 64 (r.base + 256 * r.sweepPtr)) .devRead = some (a, 0) ∧ a.trec = 1 :=
  ⟨_, _, _, rfl, by decide, rfl, by decide, by decide, rfl, rfl⟩
theorem wit_sweeps_hole : let s := sweeping [] 0xf00#64 0 [(0, 1, none)]
    ∃ x r, s.world? 1 = some x ∧ x.sweeps = [(0, 1, none)] ∧ s.record? 1 0 1 = some r ∧ r.sweep = true ∧ r.sweepPtr < 256 * r.pages ∧
      s.blockAt 1 0 (BitVec.ofNat 64 (r.base + 256 * r.sweepPtr)) .devRead = none := ⟨_, _, rfl, by decide, rfl, by decide, by decide, by decide⟩
theorem wit_sweeps_end : let s := sweeping recordTable 0xf00#64 256 [(0, 1, none)]
    ∃ x r, s.world? 1 = some x ∧ x.sweeps = [(0, 1, none)] ∧ s.record? 1 0 1 = some r ∧ r.sweep = true ∧ 256 * r.pages ≤ r.sweepPtr :=
  ⟨_, _, rfl, by decide, rfl, by decide, by decide⟩
theorem wit_pages_move : let s := withArgs p0 { world := 1, addr := 0x100000#64, page := { paddr := 0x20000 } }
    ∃ l, s.leafOf 1 0 0x100000 = some l ∧ s.args.page.trec = 0 ∧ s.args.page.paddr % 65536 = 0 ∧ s.args.page.mrun % 2048 = 0 ∧
      State.frameFree s.usedFrames 0x20000 (State.frameBytes 0) = true ∧ s.classOf 1 0 0 = 0 :=
  ⟨_, rfl, by decide, by decide, by decide, by decide, by decide⟩
theorem wit_pages_seal : ∀ conf, let s := withArgs (setWorld p0 fun x => { x with conf := conf, migKey := true, keys := some 0 }) { world := 1, addr := 0x100000#64 }
    ∃ l x key, s.leafOf 1 0 0x100000 = some l ∧ s.world? 1 = some x ∧ x.conf = conf ∧ s.copyOnPage 1 0 0x100000 = false ∧ s.migKeyOf 1 = some key := by
  intro conf; cases conf <;> exact ⟨_, _, _, rfl, rfl, by decide, by decide, rfl⟩
theorem wit_links : State.portCount - 1 < State.portCount ∧ (State.reset.linkAt (State.portCount - 1)).up = true ∧
    ((State.reset.updLink 0 fun l => { l with up := false }).linkAt 0).up = false := by decide

/-- O48: frames good and bad, the eighth bad one; requests from the domain and from outside it. -/
theorem wit_fabric_frames : (State.reset.linkAt 0).up = true ∧ (State.reset.linkAt 0).rxFrames + 1 < 2 ^ 40 ∧ (State.reset.linkAt 0).fails < 7 ∧
    ((State.reset.updLink 0 fun l => { l with fails := 7 }).linkAt 0).fails = 7 := by decide
theorem wit_fabric_domains : domainOf 0 = domainOf State.reset.sysNum ∧ ∃ n, domainOf n ≠ domainOf State.reset.sysNum := ⟨by decide, 2 ^ 19, by decide⟩
def asks (key : W64) : RemoteReq := { kind := .load, fromSys := 0, toSys := 0, world := 1, va := 0x100000#64, key := key, scope := 0, size := 4, data := [] }
theorem wit_fabric_keys : compressed.keyCheck (asks 0x77#64) 0x100000 = .pass ∧ compressed.keyCheck (asks 0x78#64) 0x100000 = .refused ∧
    ((setWorld compressed fun x => { x with revoked := [0x78#64] }).keyCheck (asks 0x78#64) 0x100000) = .stale ∧
    (∃ x, compressed.world? 1 = some x ∧ 0x77#64 ∉ x.revoked) := ⟨by decide, by decide, by decide, _, rfl, by decide⟩
theorem wit_fabric_answers : let s := { State.reset with remote := [(4, .load 1 0 3 0 0#64)], args := { id := 4, ans := .ok [0#8] } }
    AMap.get? s.remote 4 = some (.load 1 0 3 0 0#64) ∧ s.args.ans = .ok [0#8] := by decide
/-- A collective of two systems, whose descriptor and group stand in a line of their own. -/
def collLine : Line :=
  { world := 1, ctx := 0, va := 0x100100#64, trec := 0, loc := { key := 2 * 0x101, base := 0x10100, metaAt := 0x101 }
    data := leBytes 8 0x100180 ++ leBytes 8 0x100200 ++ leBytes 8 0x100300 ++ leBytes 8 0x100400 ++ leBytes 8 0x400000000 ++
      List.replicate 88 0#8 ++ leBytes 8 2 ++ List.replicate 56 0#8 ++ leBytes 8 0x100000000 ++ List.replicate 56 0#8 }
def collecting : State :=
  let s := withRegs (placed 64 0xd9008200) 7#32 [(2, 0x100100#32), (3, 0#32)]
  { s with lines := s.lines ++ [(2 * 0x101 * 64 + 1, collLine)] }
theorem wit_fabric_coll : let bs := collLine.data.take 64
    let gb := (collLine.data.drop 128).take 72
    Doing collecting (.coll 0#8 0x82#8 0#8 0#8 0#24) fun e _ s => s.feature e.blk.world 7 = true ∧ isS 0x82#8 = true ∧
      aligned 0x82#8 2 = true ∧ e.inTry = false ∧ e.pread 0x82#8 0 = .ok 0x100100 ∧
      (s.devRead e.blk.world e.blk.ctx 0x100100#64 64).1 = .ok bs ∧ (CollDesc.ofBytes bs).group = 0x100180 ∧
      (s.devRead e.blk.world e.blk.ctx 0x100180#64 72).1 = .ok gb ∧ bits (leWord gb 0 8) 12 0 = 2 ∧ (CollDesc.ofBytes bs).ok 2 = true ∧
      groupClean 2 gb = true ∧ groupMembers 2 gb = [0, 1] ∧ domainOf 1 = domainOf s.sysNum ∧ s.sysNum = 0 ∧
      s.collPages e.blk.world e.blk.ctx (CollDesc.ofBytes bs) 2 = .ok false ∧ s.collCount e.blk.world < 64 ∧
      ∃ s4, s.startColl e.blk (CollDesc.ofBytes bs) [0, 1] (leWord gb 8 8) = .ok s4 :=
  by
  refine doing_now (by decide) ?_
  repeat' first | decide | exact ⟨_, rfl⟩ | apply And.intro
def coll1 : Coll := { world := 1, ctx := 0, group := 0x100000#64, src := 0x100000#64, dst := 0x100010#64, sig := 0x100020#64, len := 4, root := 0, ty := 0
                      op := 0, members := [0, 1], self := 0, seq := 0, linkDown := some 0 }
theorem wit_fabric_complete : let s := { p0 with colls := [(2, coll1)], now := 100001, args := { id := 2, contribs := [[0#8, 0#8, 0#8, 0#8], [5#8, 0#8, 0#8, 0#8]] } }
    AMap.get? s.colls 2 = some coll1 ∧ s.args.contribs.length = coll1.members.length ∧ (∀ c, c ∈ s.args.contribs → c.length = coll1.len) ∧
      (s.devRead 1 0 coll1.src 4).1 = .ok [1#8, 0#8, 0#8, 0#8] ∧
      ((s.devRead 1 0 coll1.src 4).2.devWrite 1 0 coll1.dst (collResult coll1 (s.args.contribs.set 0 [1#8, 0#8, 0#8, 0#8]))).1 = none ∧
      coll1.linkDown = some 0 ∧ 0 + 100000 < s.now := by decide

/-! ## The host, sessions and commands -/

/-- O49: a request to an interface in each state; a write to CONF (R97), and one to MC_CTRL. -/
def asked (x : World) (a : EvArgs) : State := withArgs (d0 x) { a with world := 1 }
theorem wit_host_memory : let s := withArgs p0 { world := 1, addr := 0x100000#64, n := 4, bytes := [1#8] }
    ∃ x, Admitted s 1 s.args.tag x ∧ x.conf = false ∧ s.args.addr.toNat + s.args.n ≤ 2 ^ 36 ∧ s.args.addr.toNat + s.args.bytes.length ≤ 2 ^ 36 ∧
      (s.devRead 1 0 0x100000#64 4).1 = .ok [1#8, 0#8, 0#8, 0#8] ∧ (s.devWrite 1 0 0x100000#64 [1#8]).1 = none :=
  ⟨placedWorld, ⟨rfl, rfl, by decide, by decide⟩, by decide, by decide, by decide, by decide, by decide⟩
theorem wit_host_conf : ∃ x, (d0 { conf := true }).world? 1 = some x ∧ x.conf = true := ⟨_, rfl, rfl⟩
theorem wit_host_registers : ∀ st, st ≠ .error → let s := asked { tstate := st } { n := 0x008, value := 1#64 }
    ∃ x y, s.args.world ≠ 0 ∧ Admitted s 1 s.args.tag x ∧ x.tstate = st ∧ x.writeLk s.args.n s.args.value = some y := by
  intro st hst
  cases st <;> first | exact absurd rfl hst | exact ⟨_, _, by decide, ⟨rfl, rfl, by decide, by decide⟩, rfl, rfl⟩
theorem wit_host_mcCtrl : let s := { State.reset with bootReady := true, mcAddr := 0x1000#64, args := { world := 0, n := 0x108, value := 1#64 } }
    s.args.value.getLsbD 0 = true ∧ s.mcBusy = false ∧ s.mcAddr.toNat % 512 = 0 := by decide
theorem wit_host_error : ∀ st, ∃ x, (d0 { tstate := st }).world? 1 = some x ∧ x.tstate = st := fun _ => ⟨_, rfl, rfl⟩
/-- A request with the T bit on the stream to which the placed interface is bound. -/
def bound (x : World → World) (a : EvArgs) : State :=
  withArgs (setWorld p0 fun y => x { y with stream := some 3 }) { a with world := 1, tag := { tbit := true, stream := some 3 } }
theorem wit_host_bound : let s := bound (fun y => { y with bbState := 1 }) { addr := 0x100000#64 }
    ∃ x, Admitted s 1 s.args.tag x ∧ s.args.tag.tbit = true ∧ x.tstate = .run ∧ s.feature 1 11 = true ∧ x.bbState ≠ 0 ∧
      ∃ p, ((s.updWorld 1 fun x => { x with policyAddr := s.args.addr }).devRead 1 0 s.args.addr 5421).1 = .ok p :=
  ⟨{ placedWorld with stream := some 3, bbState := 1 }, ⟨rfl, rfl, by decide, by decide⟩, by decide, by decide, by decide, by decide, _, rfl⟩
theorem wit_host_token : let s := setSplit p0 fun q => { q with park := .trap 9#32 }
    ∃ b k q, s.blocks.find? (fun p => p.2.world == 1 && p.2.run != .ended && (State.tokenHolder p.2 9#32).isSome) = some (b, k) ∧
      s.block? b = some k ∧ k.run = .running ∧ k.brk ≠ some 9#32 ∧ State.tokenHolder k 9#32 = some (0, 0, q) ∧ ∀ f, f ∈ k.faults → f.code ≠ 0x19#8 :=
  ⟨1, _, _, rfl, rfl, by decide, by decide, rfl, by decide⟩

/-- O50: an established session, a live stream, and an interface in each state that its requests ask for. -/
def trusted (x : World) (a : EvArgs) : State := { asked x { a with tag := { tbit := false, stream := some 3 } } with
    sessions := [(0, { established := true })], ideKeys := [(3, 2)] }
theorem wit_tdisp_lock : let s := trusted {} {}
    s.inSession 0 = true ∧ s.world? 1 = some {} ∧ featOk ({} : World).featDrv = true ∧ s.streamLive s.args.tag.stream = true := by decide
theorem wit_tdisp_rings : ringOk { crbase := 64#64, crlog2n := 4 } = true ∧ ringOk { crbase := 64#64, crlog2n := 12 } = true ∧
    ringOk { crbase := 64#64, crlog2n := 13 } = false ∧ featOk 0x1000#128 = false := by decide
theorem wit_tdisp_start : ∀ n, let s := trusted { tstate := .locked, nonce := 5#256 } { nonce := n }
    s.inSession 0 = true ∧ ∃ x, s.world? 1 = some x ∧ x.tstate = .locked ∧ (s.args.nonce = x.nonce ↔ n = 5#256) :=
  fun _ => ⟨rfl, _, rfl, rfl, Iff.rfl⟩
theorem wit_tdisp_report : ∀ st, let s := trusted { tstate := st } {}
    s.inSession 0 = true ∧ ∃ x, s.world? 1 = some x ∧ x.tstate = st := fun _ => ⟨rfl, _, rfl, rfl⟩

/-- O51: stages of a session; a stream whose keys are to be programmed and put in force; a migration key. -/
theorem wit_sessions : let s := { trusted {} { n := 63, ide := .setGo } with ideKeys := [(63, 1)] }
    s.bootReady = true ∧ (AMap.getD s.sessions 0 {}).established = true ∧ s.args.n < 64 ∧ AMap.getD s.ideKeys 63 0 ≠ 0 ∧
      ({ s with sessions := [(64, { established := true })] } : State).inSession (63 + 1) = true ∧ (1, 63) ∉ s.migKeys ∧
      s.world? 1 = some {} := by decide

/-- O52: a command block at 0x1000 for each opcode. -/
def commanding (cells : List (Nat × Byte)) (x : World) : State :=
  { d0 x with mcBusy := true, mcAddr := 0x1000#64, hostMem := cells.map fun c => (0x1000 + c.1, c.2), mcAt := 0x1000#64, mcCmd := Memory.readBytes (cells.map fun c => (0x1000 + c.1, c.2)) 0x1000 512, args := { ok := true, reach := .ok } }
def blockOf (cells : List (Nat × Byte)) : List Byte := (commanding cells {}).mcCmd
theorem wit_commands_create : Commanded (commanding [(0, 1#8), (2, 63#8)] {}) 1 [] false [] (blockOf [(0, 1#8), (2, 63#8)]) ∧
    (commanding [(0, 1#8), (2, 63#8)] {}).world? 63 = none ∧ leWord (blockOf [(0, 1#8), (2, 63#8)]) 2 1 = 63 :=
  ⟨⟨rfl, rfl, rfl, by decide, by decide, by decide⟩, by decide, by decide⟩
theorem wit_commands_exists : Commanded (commanding [(0, 1#8), (2, 1#8)] {}) 1 [] false [] (blockOf [(0, 1#8), (2, 1#8)]) ∧
    (commanding [(0, 1#8), (2, 1#8)] {}).world? 1 = some {} := ⟨⟨rfl, rfl, rfl, by decide, by decide, by decide⟩, by decide⟩
theorem wit_commands_quarters : let c := [(0, 2#8), (2, 1#8), (0x10, 1#8), (0x14, 1#8)]
    let b := blockOf c
    Commanded (commanding c {}) 2 [(0x10, 2), (0x14, 4), (0x20, 256)] false (ranged b (0x10, 2) 1 1024 ++ ranged b (0x14, 4) 1 1000000) b :=
  ⟨rfl, rfl, rfl, by decide, by decide, by decide⟩
theorem wit_commands_memory : let c := [(0, 3#8), (2, 1#8), (0x10, 63#8), (0x11, 1#8)]
    let b := blockOf c
    Commanded (commanding c {}) 3 [(0x10, 1), (0x11, 1), (0x18, 8), (0x20, 8), (0x28, 8), (0x30, 8)] false
      (bindMemoryBad ((commanding c {}).world? 1) b) b := ⟨rfl, rfl, rfl, by decide, by decide, by decide⟩
theorem wit_commands_context : let c := [(0, 4#8), (2, 1#8), (0x10, 15#8), (0x12, 2#8)]
    let b := blockOf c
    Commanded (commanding c {}) 4 [(0x10, 1), (0x12, 2)] false (ranged b (0x10, 1) 1 15 ++ ranged b (0x12, 2) 2 65535) b ∧
      AMap.get? ({} : World).ctxs 15 = none := ⟨⟨rfl, rfl, rfl, by decide, by decide, by decide⟩, by decide⟩
theorem wit_commands_limits : let c := [(0, 5#8), (2, 1#8), (0x10, 1#8), (0x14, 1#8)]
    let b := blockOf c
    Commanded (commanding c {}) 5 [(0x10, 1), (0x14, 4), (0x18, 4), (0x1c, 4), (0x20, 4), (0x28, 8)] false
      (ranged b (0x10, 1) 0 31 ++ rangedIf (masked b 0) b (0x14, 4) 1 1000 ++ rangedIf (masked b 1) b (0x18, 4) 1000 1000000 ++
        rangedIf (masked b 2) b (0x1c, 4) 1000 1000000) b := ⟨rfl, rfl, rfl, by decide, by decide, by decide⟩
theorem wit_commands_device : let c := [(0, 6#8), (0x10, 1#8), (0x14, 0x10#8), (0x15, 0x0e#8)]
    let b := blockOf c
    Commanded (commanding c {}) 6 [(0x10, 1), (0x14, 4), (0x18, 4)] true (ranged b (0x10, 1) 0 3 ++ rangedIf (masked b 0) b (0x14, 4) 1800 3600 ++
      offsetIf (masked b 0 && leWord b 0x14 4 % 50 != 0) 0x14 ++ rangedIf (masked b 1) b (0x18, 4) 10 10000) b :=
  ⟨rfl, rfl, rfl, by decide, by decide, by decide⟩
theorem wit_commands_world : ∀ q : Nat × Byte, q = (9, 9#8) ∨ q = (10, 10#8) →
    Commanded (commanding [(0, q.2), (2, 1#8)] { tstate := .run }) q.1 [] false [] (blockOf [(0, q.2), (2, 1#8)]) := by
  rintro q (rfl | rfl) <;> exact ⟨rfl, rfl, rfl, by decide, by decide, by decide⟩
theorem wit_commands_out : let c := [(0, 7#8), (2, 1#8), (0x14, 1#8)]
    let b := blockOf c
    let s := commanding c { tstate := .run, featDrv := 0xfff#128 }
    Commanded s 7 [(0x10, 4), (0x14, 1), (0x18, 8), (0x20, 8)] false (migrateBad true b) b ∧ s.feature 1 10 = true ∧ s.args.ok = true ∧
      s.args.reach = .ok := ⟨⟨rfl, rfl, rfl, by decide, by decide, by decide⟩, by decide⟩
theorem wit_commands_in : let c := [(0, 8#8), (2, 2#8)]
    let b := blockOf c
    let s := { commanding c {} with images := [(1, ([], { world := {} }))], migKeys := [(2, 0)] }
    Commanded s 8 [(0x10, 4), (0x18, 8), (0x20, 8)] false (migrateBad false b) b ∧ s.imageAt (leWord b 0x18 8) (leWord b 0x20 8) = some { world := {} } ∧
      s.args.ok = true ∧ s.world? 2 = none ∧ s.overcommits 2 1 [] = false ∧ (2, leWord b 0x10 4) ∈ s.migKeys :=
  ⟨⟨rfl, rfl, rfl, by decide, by decide, by decide⟩, by decide⟩
theorem wit_commands_done : let s := { commanding [] {} with mcResult := some (3#8, 0) }
    s.bootReady = true ∧ s.mcBusy = true ∧ s.mcResult = some (3#8, 0) := by decide
theorem wit_commands_freeze : let s := withArgs { d0 { quiescing := true } with now := 10000000 } { world := 1 }
    ∃ x, s.world? 1 = some x ∧ x.quiescing = true ∧ x.quiesceOver = false ∧ x.quiesceAt + x.quiesce * 1000 ≤ s.now ∧ x.frozen = false ∧
      s.quiesced 1 x = true := ⟨_, rfl, by decide, by decide, by decide, by decide, by decide⟩
theorem test_command_exists : (stepped { commanding [(0, 1#8), (2, 1#8)] {} with focus := .internal .createWorld {} }).mcResult = some (3#8, 0) := by decide

/-! ## Queues, packets, copies -/

/-- `n` bytes, zero but for the cells given. -/
def bytesOf (n : Nat) (cells : List (Nat × Byte)) : List Byte := (List.range n).map fun i => AMap.getD cells i 0#8
/-- The placed device with queue 0 of world 1, and the placed line holding `cells` from 0x100000. -/
def queued (x : Queue) (cells : List (Nat × Byte)) : State :=
  let s := setWorld p0 fun d => { d with queues := [(0, x)], qtbase := 0x100000#64, quarterSet := [0], bbslots := 4, bbState := 1 }
  { s with lines := s.lines.map (fun p => (p.1, { p.2 with data := bytesOf 256 cells })), args := { world := 1 } }
def entryCells : List (Nat × Byte) := [(0x12, 4#8)]
def active : Queue := { st := .active, ring := 0x100080#64, log2n := 4 }
def stateOf (s : State) (q : Queue → Prop) : Prop := ∃ x, s.queue? 1 0 = some x ∧ q x

/-- O53. -/
theorem wit_queues_enable : let s := queued {} entryCells
    ∃ wd p e lane, s.world? 1 = some wd ∧ 0 < 64 ∧ wd.tstate = .run ∧ wd.trusts s.args.tag = true ∧ (AMap.getD wd.queues 0 {}).st ≠ .active ∧
      (s.devRead 1 0 (s.entryAddr 1 0) 64).1 = .ok (bytesOf 64 entryCells) ∧
      (s.devRead 1 0 (s.entryAddr 1 0) 64).2.entryOk 1 (bytesOf 64 entryCells) = true ∧
      (s.devRead 1 0 (s.entryAddr 1 0) 64).2.findLane 1 0 = some (p, e, lane) :=
  ⟨_, 0, 0, 0, rfl, by decide, by decide, by decide, by decide, by decide, by decide, by decide⟩
theorem wit_queues_refuse : let s := queued {} []
    (s.devRead 1 0 (s.entryAddr 1 0) 64).1 = .ok (bytesOf 64 []) ∧ (s.devRead 1 0 (s.entryAddr 1 0) 64).2.entryOk 1 (bytesOf 64 []) = false := by decide
theorem wit_queues_disable : (stateOf (queued active []) fun x => x.st ≠ .disabled) ∧
    stateOf (queued { active with disabling := true } []) fun x => x.disabling = true ∧ x.started = [] :=
  ⟨⟨_, rfl, by decide⟩, _, rfl, by decide⟩
theorem wit_queues_round : let s := queued active []
    s.args.unit ≤ 8 ∧ (s.engineOf s.args.unit).stopped = false ∧ s.liveTaken s.args.unit = [] ∧ (8 ≤ 8 ∧ (s.engineOf 8).taken = []) := by decide
/-- A NOP at the head of the ring, of either phase. -/
theorem wit_queues_visit : ∀ ph, let s := queued { active with phase := ph } [(0x80, 1#8), (0x81, 1#8)]
    ∃ x, s.queue? 1 0 = some x ∧ s.worldRuns 1 = true ∧ State.Queue.visitable x = true ∧ x.head = none ∧ x.phase = ph ∧
      (s.devRead 1 0 (x.ring + BitVec.ofNat 64 (128 * x.ridx)) 4).1 = .ok (bytesOf 4 [(0, 1#8), (1, 1#8)]) ∧
      ((leNat (bytesOf 4 [(0, 1#8), (1, 1#8)])).testBit 0 = x.phase ↔ ph = true) ∧
      (s.devRead 1 0 (x.ring + BitVec.ofNat 64 (128 * x.ridx)) 128).1 = .ok (bytesOf 128 [(0, 1#8), (1, 1#8)]) ∧
      s.mayServe 1 x (bytesOf 128 [(0, 1#8), (1, 1#8)]) = true := by
  intro ph; cases ph <;> exact ⟨_, rfl, by decide, by decide, by decide, by decide, by decide, by decide, by decide, by decide⟩
theorem wit_queues_sort : (stateOf (queued { active with st := .aborted } []) fun x => x.st = .aborted) ∧ pktBad 2 4 (bytesOf 128 []) = [1] ∧
    pktBad 2 4 (bytesOf 128 [(1, 1#8)]) = [] ∧ pktFeature 1 = none ∧ pktBad 2 4 (bytesOf 128 [(1, 6#8)]) = [] ∧ pktFeature 6 = some 2 ∧
    (queued active []).feature 1 2 = true ∧ (setWorld (queued active []) fun d => { d with featDrv := 0#128 }).feature 1 2 = false ∧
    ((queued active []).ctx? 1 0).isSome = true :=
  ⟨⟨_, rfl, by decide⟩, by decide, by decide, by decide, by decide, by decide, by decide, by decide, by decide⟩
def pkt0 : Pkt := { no := 0, idx := 0, slot := 0x100080#64, ctx := 0, bytes := [], barrier := false, irq := false, compsig := 0#64, result := some (0#8, 0#8) }
theorem wit_queues_complete : let s := queued { active with started := [pkt0] } []
    ∃ x, s.queue? 1 0 = some x ∧ (s.engineOf x.engine).stopped = false ∧ readyPkts [] x.started = [pkt0] ∧ pkt0.result = some (0#8, 0#8) ∧
      (s.devWrite 1 0 (pkt0.slot + 4#64) (leBytes 4 0)).1 = none ∧ pkt0.compsig = 0#64 ∧ pkt0.aborts = false :=
  ⟨_, rfl, by decide, by decide, by decide, by decide, by decide, by decide⟩
theorem wit_queues_engine : (State.reset.engineOf 8).stopped = false ∧ (State.reset.engineOf 7).lastReload = none ∧
    ((State.reset.updEngine 8 fun x => { x with stopped := true }).engineOf 8).stopped = true ∧ (State.reset.engineOf 7).moved = false := by decide
theorem wit_queues_lost : let s := queued active entryCells
    (stateOf s fun x => x.st ≠ .disabled) ∧ (s.devRead 1 0 (s.entryAddr 1 0) 24).1 = .ok (bytesOf 24 entryCells) := ⟨⟨_, rfl, by decide⟩, by decide⟩

/-- O54: queue 0 with a packet that its engine has taken. -/
def served (l : List Byte) : Queue := { active with head := some l }
def serving (l : List Byte) (cells : List (Nat × Byte)) : State := { queued (served l) cells with engines := [(0, { taken := [(1, 0)] })] }
def packet (op : Byte) (body : List (Nat × Byte)) : List Byte := bytesOf 128 ((0, 1#8) :: (1, op) :: body)
/-- The hypotheses of `Acts`, of a packet that the checks pass. -/
def Acting (s : State) (l : List Byte) (form : List Byte → Prop) (ok : State → Queue → List Byte → Prop) : Prop :=
  ∃ x r, Serves s x l r ∧ form l ∧ pktBad 256 4 l = [] ∧ ok (s.updEngine x.engine fun e => { e with taken := r }) x l
theorem acting_now {l : List Byte} {cells : List (Nat × Byte)} {form : List Byte → Prop} {ok : State → Queue → List Byte → Prop}
    (hf : form l) (hb : pktBad 256 4 l = []) (ho : ok ((serving l cells).updEngine 0 fun e => { e with taken := [] }) (served l) l) :
    Acting (serving l cells) l form ok := ⟨served l, [], ⟨rfl, rfl, rfl, by simp [served, active], rfl⟩, hf, hb, ho⟩

theorem wit_packets_nop : Acting (serving (packet 1#8 []) []) (packet 1#8 []) (fun l => pktOp l = 1) fun _ _ _ => True :=
  acting_now (by decide) (by decide) trivial
/-- A BARRIER over a signal of the value 0, −1 or 1, and over one at an odd address. -/
def waits (a : Byte) : List Byte := packet 2#8 [(0x10, 1#8), (0x18, a), (0x1a, 0x10#8)]
def allOnes8 : List (Nat × Byte) := (List.range 8).map fun i => (i, 255#8)
def reads (s : State) (x : Queue) (l : List Byte) : List SigRead × State :=
  State.readSignals s.args.world s.args.queue x ((List.range (pktByte l 0x10)).map fun k => (k, pktWord l (0x18 + 8 * k))) s
theorem wit_packets_barrier :
    Acting (serving (waits 0#8) []) (waits 0#8) (fun l => pktOp l = 2) (fun s x l => (reads s x l).1 = [.value 0]) ∧
    Acting (serving (waits 0#8) allOnes8) (waits 0#8) (fun l => pktOp l = 2) (fun s x l => (reads s x l).1 = [.value (-1)] ∧ 1 = pktByte l 0x10) ∧
    Acting (serving (waits 0#8) [(0, 1#8)]) (waits 0#8) (fun l => pktOp l = 2) (fun s x l => (reads s x l).1 = [.value 1] ∧ 1 = pktByte l 0x10) ∧
    Acting (serving (waits 1#8) []) (waits 1#8) (fun l => pktOp l = 2) (fun s x l => (reads s x l).1 = [.fault fcMisalign]) ∧
    firstSigFault [.fault fcMisalign] = some fcMisalign ∧ sigNegative (.value (-1)) = true :=
  ⟨acting_now (by decide) (by decide) (by decide), acting_now (by decide) (by decide) (by decide), acting_now (by decide) (by decide) (by decide),
    acting_now (by decide) (by decide) (by decide), by decide, by decide⟩
def signals (b : Byte) : List Byte := packet 3#8 [(0x12, 0x10#8), (0x18, b), (0x20, 1#8)]
theorem wit_packets_signal : ∀ b, Acting (serving (signals (if b then 1#8 else 0#8)) []) (signals (if b then 1#8 else 0#8))
    (fun l => pktOp l = 3 ∧ pktByte l 0x18 = if b then 1 else 0) fun s x l =>
      (s.updateSignal s.args.world x.ctx (pktWord l 0x10) (.packet s.args.world s.args.queue x.nextNo) b (pktWord l 0x20)).1 = .done := by
  intro b; cases b <;> exact acting_now (by decide) (by decide) (by decide)
theorem wit_packets_update : let s := queued active []
    (0x100000#64).toNat % 8 = 0 ∧ ∃ p, s.resolve 1 0 0x100000 .devWrite = .place p ∧ (∀ y tw tva key, p ≠ .remote y tw tva key) ∧
      (s.atomicPlace 1 0 p 8 fun old => some ((old + 1) % 2 ^ 64)).1 = .ok 0 := ⟨by decide, _, rfl, by simp, rfl⟩
theorem wit_packets_words : Acting (serving (packet 10#8 [(0x12, 0x10#8)]) []) (packet 10#8 [(0x12, 0x10#8)]) (fun l => pktOp l = 10) (fun s x l =>
      (State.storeWords s.args.world x.ctx (.packet s.args.world s.args.queue x.nextNo) (pktWord l 0x10).toNat [BitVec.ofNat 64 s.now] 0 s).1 = 0 ∧
      (State.storeWords s.args.world x.ctx (.packet s.args.world s.args.queue x.nextNo) (pktWord l 0x10).toNat [BitVec.ofNat 64 s.now] 0 s).2.1 = .done) ∧
    Acting (serving (packet 11#8 [(0x12, 0x10#8), (0x18, 16#8)]) []) (packet 11#8 [(0x12, 0x10#8), (0x18, 16#8)]) (fun l => pktOp l = 11) fun s x l =>
      let ws := (List.range (leWord l 0x18 4 / 8)).map fun i => pktWord l (0x20 + 8 * i)
      (State.storeWords s.args.world x.ctx (.packet s.args.world s.args.queue x.nextNo) (pktWord l 0x10).toNat ws 0 s).1 = 0 ∧
      (State.storeWords s.args.world x.ctx (.packet s.args.world s.args.queue x.nextNo) (pktWord l 0x10).toNat ws 0 s).2.1 = .done :=
  ⟨acting_now (by decide) (by decide) (by decide), acting_now (by decide) (by decide) (by decide)⟩
theorem wit_packets_phase : ∀ k : Byte, k = 0#8 ∨ k = 1#8 ∨ k = 2#8 ∨ k = 3#8 → let l := packet 4#8 [(0x10, k)]
    Acting (serving l []) l (fun l => pktOp l = 4 ∧ pktByte l 0x10 = k.toNat) fun s _ _ =>
      (s.phases.filter fun p => p.2.world == s.args.world).length < 256 := by
  rintro k (rfl | rfl | rfl | rfl) <;> exact acting_now (by decide) (by decide) (by decide)
/-- A launch of one block, whose descriptor lies at 0x100080 or is not aligned; and a graph with one node of that launch. -/
def launches (a : Byte) : List Byte := packet 5#8 [(0x10, a), (0x12, 0x10#8), (0x20, 1#8), (0x24, 1#8), (0x28, 1#8)]
def descCells : List (Nat × Byte) := [(0x99, 4#8), (0x9c, 1#8), (0xa6, 1#8)]
theorem wit_packets_launch :
    Acting (serving (launches 0x80#8) descCells) (launches 0x80#8) (fun l => pktOp l = 5) (fun s x l => s.dispatched x.panel < 64 ∧
      ∃ d s1, s.readLDesc s.args.world x.ctx x.panel (pktWord l 0x10) = (.ok d, s1)) ∧
    Acting (serving (launches 1#8) descCells) (launches 1#8) (fun l => pktOp l = 5) (fun s x l => s.dispatched x.panel < 64 ∧
      s.readLDesc s.args.world x.ctx x.panel (pktWord l 0x10) = (.error (1#8, 0x10#8), s)) :=
  ⟨acting_now (by decide) (by decide) ⟨by decide, _, _, rfl⟩, acting_now (by decide) (by decide) ⟨by decide, by rfl⟩⟩
def graphs : List Byte := packet 6#8 [(0x12, 0x10#8)]
def graphCells : List (Nat × Byte) := (0x11, 1#8) :: (0x12, 0x10#8) :: (0x18, 1#8) :: (0x40, 0x80#8) :: (0x42, 0x10#8) :: descCells
def graphHead : List Byte := bytesOf 64 [(0x11, 1#8), (0x12, 0x10#8), (0x18, 1#8)]
def graphNode : GNode := { desc := LDesc.ofBytes (bytesOf 64 [(0x19, 4#8), (0x1c, 1#8), (0x26, 1#8)]) }
theorem wit_packets_graph : Acting (serving graphs graphCells) graphs (fun l => pktOp l = 6) fun s x l =>
    let s1 := (s.devRead s.args.world x.ctx (pktWord l 0x10) 64).2
    let ns := State.readNodes s.args.world x.ctx x.panel (pktWord l 0x10) [0] s1
    s.dispatched x.panel < 64 ∧ (pktWord l 0x10).toNat % 64 = 0 ∧ (s.devRead s.args.world x.ctx (pktWord l 0x10) 64).1 = .ok graphHead ∧
    bits (leWord graphHead 0x18 8) 6 0 = 1 ∧ ns.1 = .ok [(graphNode, true)] ∧
    placeQueues (pktWord graphHead 0).toNat [graphNode] = ([graphNode], 0) ∧ (pktWord graphHead 0).toNat % 4096 = 0 ∧
    (pktWord graphHead 0x10).toNat % 64 = 0 ∧ bits (leWord graphHead 0x18 8) 63 7 = 0 ∧ (∀ b, b ∈ graphHead.drop 0x20 → b = 0#8) ∧
    0 ≤ leWord graphHead 8 8 ∧ graphNode.cap ≤ 2 ^ 24 ∧
    (ns.2.devWrite s.args.world x.ctx (pktWord graphHead 0x10) (List.replicate 576 0#8)).1 = none :=
  by
  refine acting_now (by decide) (by decide) ?_
  repeat' first | decide | apply And.intro
def copies : List Byte := packet 7#8 [(0x12, 0x10#8), (0x18, 16#8), (0x1a, 0x10#8), (0x20, 16#8)]
theorem wit_packets_copy : Acting (serving copies []) copies (fun l => pktOp l = 7 ∧ pktByte l 0x28 % 2 = 0) fun s x l =>
    let ok (a : W64) (k : AccKind) : Prop := a.toNat + leWord l 0x20 8 ≤ 2 ^ 56 ∧
      s.pagesCheck s.args.world x.ctx k (leWord l 0x20 8 / 65536 + 2) a.toNat (a.toNat + leWord l 0x20 8) = .ok
    ok (pktWord l 0x10) .engineRead ∧ ok (pktWord l 0x18) .engineWrite :=
  acting_now (by decide) (by decide) (by decide)
def desyncs : List Byte := packet 7#8 [(0x28, 1#8)]
theorem wit_packets_desync : Acting (setWorld (serving desyncs []) fun d => { d with bbDseq := 5#64 }) desyncs (fun l => pktOp l = 7 ∧ pktByte l 0x28 = 1)
    fun s _ l => ∃ wd, s.world? s.args.world = some wd ∧ leWord (s.hostMem.readBytes (State.slotAddr wd l) 16) 0 8 ≠ wd.bbDseq.toNat :=
  ⟨served desyncs, [], ⟨rfl, rfl, rfl, by decide, rfl⟩, by decide, by decide, _, rfl, by decide⟩
def sends : List Byte := packet 7#8 [(0x12, 0x10#8), (0x20, 16#8), (0x28, 3#8)]
theorem wit_packets_out : Acting (serving sends []) sends (fun l => pktOp l = 7 ∧ pktByte l 0x28 = 3) fun s x l => ∃ wd, s.world? s.args.world = some wd ∧
    wd.bbState = 1 ∧ (s.devRead s.args.world x.ctx (pktWord l 0x10) (leWord l 0x20 8)).1 = .ok (List.replicate 16 0#8) :=
  acting_now (by decide) (by decide) ⟨_, rfl, by decide, by decide⟩
/-- A BIND of record 1: written, refused, or swept. -/
def binds (fl b : Byte) : List Byte := packet 8#8 [(0x10, 1#8), (0x12, fl), (0x18, b)]
def binding (l : List Byte) : State := setWorld (serving l []) fun d => { d with ctxs := [(0, { pt := placedTable, recs := [(1, {})], nrec := 256 })] }
theorem wit_packets_bind : ∀ fl : Byte, fl = 1#8 ∨ fl = 3#8 → Acting (binding (binds fl 0#8)) (binds fl 0#8) (fun l => pktOp l = 8 ∧ pktByte l 0x12 = fl.toNat)
    fun s x l => ∃ s1, s.bindRecord s.args.world x.ctx (leWord l 0x10 2) ((l.drop 0x18).take 32) = .ok s1 := by
  rintro fl (rfl | rfl) <;> exact ⟨served _, [], ⟨rfl, rfl, rfl, by decide, rfl⟩, by decide, by decide, _, rfl⟩
theorem wit_packets_badBind : Acting (binding (binds 1#8 0xff#8)) (binds 1#8 0xff#8) (fun l => pktOp l = 8 ∧ pktByte l 0x12 = 1)
    fun s x l => ∃ c, s.bindRecord s.args.world x.ctx (leWord l 0x10 2) ((l.drop 0x18).take 32) = .error c :=
  ⟨served _, [], ⟨rfl, rfl, rfl, by decide, rfl⟩, by decide, by decide, _, rfl⟩
theorem wit_packets_sweep : Acting (binding (binds 2#8 0#8)) (binds 2#8 0#8) (fun l => pktOp l = 8 ∧ pktByte l 0x12 = 2) fun _ _ _ => True :=
  ⟨served _, [], ⟨rfl, rfl, rfl, by decide, rfl⟩, by decide, by decide, trivial⟩
/-- A pair of two programs of one `tend` each. -/
def pairs (a : Byte) : List Byte := packet 9#8 [(0x10, 1#8), (0x1a, a)]
def imageCells : List (Nat × Byte) := [(0, 1#8), (8, 1#8), (0x23, 0x60#8), (0x27, 0x60#8)]
theorem wit_packets_pair : Acting (serving (pairs 0x10#8) imageCells) (pairs 0x10#8) (fun l => pktOp l = 9 ∧ pktWord l 0x18 ≠ 0#64) fun s x l =>
    s.pairBusy s.args.world (pktByte l 0x10) = false ∧ (s.devRead s.args.world x.ctx (pktWord l 0x18) 32).1 = .ok (bytesOf 32 imageCells) ∧
    imageLens (bytesOf 32 imageCells) = some (1, 0, 1, 0) ∧
    ((s.devRead s.args.world x.ctx (pktWord l 0x18) 32).2.devRead s.args.world x.ctx (pktWord l 0x18) 40).1 = .ok (bytesOf 40 imageCells) ∧
    ∃ y, verifyImage (bytesOf 40 imageCells) (1, 0, 1, 0) = .ok y :=
  acting_now (by decide) (by decide) ⟨by decide, by decide, by decide, by decide, _, rfl⟩
theorem wit_packets_unload : Acting (serving (pairs 0#8) []) (pairs 0#8) (fun l => pktOp l = 9 ∧ pktWord l 0x18 = 0#64) fun s _ l =>
    s.pairBusy s.args.world (pktByte l 0x10) = false := acting_now (by decide) (by decide) (by decide)

/-- O55: a copy of one piece from the placed line to the bytes beside it, or from an unmapped address; copies at their end. -/
def copy1 (src : W64) : Copy := { world := 1, ctx := 0, block := 1, warp := 0, thread := 0, batch := 0, order := 0, pieces := [(src, 0x100040#64)] }
def copyingOne (c : Copy) : State := { p0 with copies := [(0, c)], args := {} }
theorem takePiece_one (src : W64) (v : Nat) : (copy1 src).takePiece v = some ((src, 0x100040#64, 4), { copy1 src with pieces := [] }) := by
  simp [Copy.takePiece, copy1, Nat.mod_one]
theorem wit_copies_land : let s := copyingOne (copy1 0x100000#64)
    ∃ s1 c1 s2, AMap.get? s.copies 0 = some (copy1 0x100000#64) ∧
      (copy1 0x100000#64).takePiece s.drawWord.1.toNat = some ((0x100000#64, 0x100040#64, 4), { copy1 0x100000#64 with pieces := [] }) ∧
      s.drawWord.2.pieceRead 0 (copy1 0x100000#64) 0x100000#64 4 = (.data [1#8, 0#8, 0#8, 0#8] false, s1) ∧
      s1.pieceWrite (copy1 0x100000#64) 0x100040#64 [1#8, 0#8, 0#8, 0#8] false = some (c1, s2) :=
  ⟨_, _, _, rfl, takePiece_one _ _, rfl, rfl⟩
theorem wit_copies_end : ∀ c : Copy, c = { copy1 0#64 with pieces := [] } ∨ c = { copy1 0#64 with pieces := [], status := 2#8 } ∨
      c = { copy1 0#64 with pieces := [], status := 2#8, slotCopy := true } ∨ c = { copy1 0#64 with pieces := [], pkt := some (0, 0) } →
    AMap.get? (copyingOne c).copies (copyingOne c).args.id = some c ∧ c.pieces = [] ∧ c.bulk = [] := by
  rintro c (rfl | rfl | rfl | rfl) <;> exact ⟨rfl, rfl, rfl⟩

/-! ## One step -/

/-- O56: what a step finds at its agent's turn. -/
theorem wit_step_lane : issuesNow (placed 32 0x200701c1) = true ∧ (envOf (placed 32 0x200701c1)).split.park.passes = false ∧
    decodeLane ((lineOf (placed 32 0x200701c1)).word (wordIndex (envOf (placed 32 0x200701c1)).pc)) 0#32 = .ok (.add 0x07#8 0x01#8 0xc1#8 0#32) := by decide
theorem wit_step_badWord : issuesNow (placed 32 0xff000000) = true ∧ decodeLane ((lineOf (placed 32 0xff000000)).word 2) 0#32 = .error .badOpcode := by decide
theorem wit_step_noLine : let s := setSplit p0 fun q => { q with pc := 0x900008#64 }
    ∃ e f, s.issuer? = some e ∧ e.split.park.passes = false ∧ (s.issueLine e).1 = .error f := ⟨_, _, rfl, rfl, rfl⟩
theorem wit_step_parked : ∃ e, (setSplit p0 fun q => { q with park := .join }).issuer? = some e ∧ e.split.park.passes = true := ⟨_, rfl, rfl⟩
theorem wit_step_weft : weftNow (placedWeft 0x3c000000) = true ∧ decodeWeft ((wlineOf (placedWeft 0x3c000000)).word 2) = .ok .wend ∧
    weftNow (placedWeft 0xff000000) = true ∧ ∀ i, decodeWeft ((wlineOf (placedWeft 0xff000000)).word 2) ≠ .ok i := ⟨by decide, by decide, by decide, nofun⟩
theorem wit_step_noWeftLine : let s := setWeft (placedWeft 0) fun y => { y with pc := 0x900008#64 }
    ∃ b k x f, s.weftIssuer? = some (b, k, x) ∧ (s.weftLine k x).1 = .error f := ⟨_, _, _, _, rfl, rfl⟩
theorem wit_step_heddle : let s := State.reset.placeRun 0x60000000#32
    ∃ r, s.focus = .heddle ∧ s.heddle = some r ∧ r.code[r.pc]? = some 0x60000000#32 ∧ decodeTrans 0x60000000#32 = .ok .tend := ⟨_, rfl, rfl, rfl, by decide⟩
theorem wit_step_heddlePast : let s := { State.reset with focus := .heddle, heddle := some r0 }
    ∃ r, s.focus = .heddle ∧ s.heddle = some r ∧ ∀ w i, r.code[r.pc]? = some w → decodeTrans w ≠ .ok i := ⟨r0, rfl, rfl, nofun⟩
theorem wit_step_input : let s := { State.reset with focus := .input, inbox := [(.powerOn, {})] }
    s.focus = .input ∧ s.inbox = (.powerOn, {}) :: [] := ⟨rfl, rfl⟩
theorem wit_step_internal : ({ State.reset with focus := .internal .patrolScrub {} } : State).focus = .internal .patrolScrub {} := rfl

/-- O57: an instruction of each set. -/
theorem wit_encode : (Instr.add 0x07#8 0x01#8 0xc1#8 0#32).wf = true ∧ Instr.wend.wf = true ∧ Instr.tend.wf = true ∧ Instr.patrolScrub.wf = true ∧
    Instr.patrolScrub.set = none ∧ Instr.tend.set = some .trans ∧ Instr.wend.set = some .weft ∧ (Instr.add 0x07#8 0x01#8 0xc1#8 0#32).set = some .lane := by decide

/-! ## A sealed slot -/

/-- A list read back from where it was written. -/
theorem read_back (bs : List Byte) (k n : Nat) (h : k + n ≤ bs.length) :
    (Memory.writeBytes [] 0 bs).readBytes k n = (bs.drop k).take n := by
  apply List.ext_getElem
  · simp [Memory.readBytes]; omega
  · intro i h1 h2
    simp only [Memory.readBytes, List.length_map, List.length_range] at h1
    simp only [Memory.readBytes, List.getElem_map, List.getElem_range, List.getElem_take, List.getElem_drop]
    rw [Memory.read_writeBytes (by rfl)]
    rw [if_pos ⟨Nat.zero_le _, by omega⟩, List.getD_eq_getElem _ _ (by omega)]
    congr 1

theorem read_parts (h t c : List Byte) (hh : h.length = 16) (ht : t.length = 16) (hc : c.length = 1) :
    let m := Memory.writeBytes [] 0 (h ++ t ++ c)
    m.readBytes 0 16 = h ∧ m.readBytes 16 16 = t ∧ m.readBytes 32 1 = c := by
  have hl : (h ++ t ++ c).length = 33 := by simp [hh, ht, hc]
  refine ⟨?_, ?_, ?_⟩
  · rw [read_back _ 0 16 (by omega), List.drop_zero, List.append_assoc, List.take_left' hh]
  · rw [read_back _ 16 16 (by omega), List.append_assoc, List.drop_left' hh, List.take_left' ht]
  · rw [read_back _ 32 1 (by omega), List.drop_left' (by simp [hh, ht]), List.take_of_length_le (by omega)]

/-- A packet that brings slot 0 to 0x100000; the slot holds `t` and `c` behind its head. -/
def brings : List Byte := packet 7#8 [(0x1a, 0x10#8), (0x28, 1#8)]
def slotHead : List Byte := leBytes 8 0 ++ leBytes 4 1 ++ leBytes 4 0
def bringing (t c : List Byte) : State := { serving brings [] with hostMem := Memory.writeBytes [] 0 (slotHead ++ t ++ c) }
theorem slot_sealed (wd : World) : ∃ t c : List Byte, t.length = 16 ∧ c.length = 1 ∧
    gcmOpen (State.bounceKeyOf wd 1) (State.bounceNonce 0#64) slotHead c t = some [5#8] := by
  have hk : (State.bounceKeyOf wd 1).length = 32 := hkdfExpand_length _ _ _ (by decide)
  have hl := gcmSeal_length (State.bounceKeyOf wd 1) (State.bounceNonce 0#64) slotHead [5#8] hk
  exact ⟨_, _, hl.2, hl.1, gcmOpen_gcmSeal _ _ _ _ hk⟩
def bringWorld : World := { placedWorld with queues := [(0, served brings)], qtbase := 0x100000#64, quarterSet := [0], bbslots := 4, bbState := 1 }
theorem bringing_now (t c : List Byte) (ht : t.length = 16) (hc : c.length = 1)
    (ho : gcmOpen (State.bounceKeyOf bringWorld 1) (State.bounceNonce 0#64) slotHead c t = some [5#8]) (e : Nat) (f : Engine → Engine) :
    let s := (bringing t c).updEngine e f
    s.hostMem.readBytes 0 16 = slotHead ∧ gcmOpen (State.bounceKeyOf bringWorld 1) (State.bounceNonce 0#64) slotHead
      (s.hostMem.readBytes 32 1) (s.hostMem.readBytes 16 16) = some [5#8] := by
  have hr := read_parts slotHead t c (by decide) ht hc
  have hm : ((bringing t c).updEngine e f).hostMem = Memory.writeBytes [] 0 (slotHead ++ t ++ c) := by simp only [bringing, State.updEngine]
  simp only [hm, hr.1, hr.2.1, hr.2.2, ho, and_self]
theorem bringing_rest (t c : List Byte) (f : Engine → Engine) : let s := (bringing t c).updEngine 0 f
    s.args.world = 1 ∧ s.world? 1 = some bringWorld ∧ (s.devWrite 1 0 0x100000#64 [5#8]).1 = none := ⟨rfl, rfl, rfl⟩
theorem bringing_packet : leWord slotHead 8 4 = 1 ∧ leWord slotHead 0 8 = 0 ∧ leWord slotHead 12 4 = 0 ∧ State.slotAddr bringWorld brings = 0 ∧
    pktWord brings 0x18 = 0x100000#64 ∧ pktOp brings = 7 ∧ pktByte brings 0x28 = 1 ∧ pktBad 256 4 brings = [] := by decide
theorem bringing_serves (t c : List Byte) : Serves (bringing t c) (served brings) brings [] := ⟨rfl, rfl, rfl, by simp [served, active], rfl⟩
theorem wit_packets_bounce : ∃ s x r wd pt, Serves s x brings r ∧ pktOp brings = 7 ∧ pktByte brings 0x28 = 1 ∧
    let s1 := s.updEngine x.engine fun e => { e with taken := r }
    s1.world? 1 = some wd ∧ wd.bbState = 1 ∧ State.slotAddr wd brings = 0 ∧ wd.shares 0 65536 = true ∧ s1.hostMem.readBytes 0 16 = slotHead ∧ leWord slotHead 8 4 = 1 ∧
    gcmOpen (State.bounceKeyOf wd 1) (State.bounceNonce wd.bbDseq) slotHead (s1.hostMem.readBytes 32 1) (s1.hostMem.readBytes 16 16) = some pt ∧
    leWord slotHead 0 8 = wd.bbDseq.toNat ∧ leWord slotHead 12 4 = 0 ∧ (s1.devWrite 1 x.ctx (pktWord brings 0x18) pt).1 = none := by
  obtain ⟨t, c, ht, hc, ho⟩ := slot_sealed bringWorld
  have hp := bringing_packet
  have hn := bringing_now t c ht hc ho 0 fun e => { e with taken := [] }
  have hs := bringing_rest t c fun e => { e with taken := [] }
  refine ⟨bringing t c, served brings, [], bringWorld, [5#8], bringing_serves t c, hp.2.2.2.2.2.1, hp.2.2.2.2.2.2.1, hs.2.1, rfl, hp.2.2.2.1, rfl, hn.1, hp.1, hn.2,
    hp.2.1, hp.2.2.1, ?_⟩
  rw [hp.2.2.2.2.1]
  exact hs.2.2

/-! ## Waiting for other devices, other splits and other arrays -/

/-- A remote access of the placed warp is unanswered; a second split stands beside the one that issues. -/
def unanswered (s : State) : State := { s with remote := [(4, .acc 1 0 7 0 0#64)] }
def twoSplits (s : State) : State := setWarp s fun x => { x with active := x.active ++ [(1, {})] }
/-- No thread passes the guard. -/
def guarded (nbits w : Nat) : State := withRegs (placed nbits w) 0#32 []

/-- O13: no active thread, a region, and a selector past the last. -/
theorem wit_specials_idle : Doing (guarded 32 0x0d040e00) (.sread 4#8 14#8) fun e _ _ => e.idle = true ∧ dstOk 4#8 (tyRegs e.ty) = true ∧
    e.inTry = false := doing_now (by decide) (by decide)
theorem wit_specials_region : let s := inRegion (placed 32 0x0d040e00)
    Fetches s (envOf s) (lineOf s) (leftOf s) ∧ dstOk 4#8 (tyRegs (envOf s).ty) = true ∧ (envOf s).inTry = true ∧
      (envOf s).wp.regionLoads = false := ⟨fetches_now (by decide), by decide, by decide, by decide⟩
theorem wit_specials_past : let s := placed 32 0x0d040f00
    Fetches s (envOf s) (lineOf s) (leftOf s) ∧ 14 < (15#8).toNat := ⟨fetches_now (by decide), by decide⟩

/-- O15: fences whose release half covers an unanswered access: of the warp at .block, of the world at .dom; and fence.code. -/
theorem wit_waiting_fences : Issuing (unanswered (placed 32 0xba000022)) (.fence 2#4 2#2) (fun e _ s => e.inTry = false ∧
      s.remoteDue e.b e.w = true) ∧
    Issuing (unanswered (placed 32 0xba000082)) (.fence 8#4 2#2) (fun e _ s => e.inTry = false ∧
      s.remoteDueOf (fun k => k.world == e.blk.world) = true) ∧
    Doing (unanswered (placed 32 0xba000081)) (.fence 8#4 1#2) (fun e _ _ => e.inTry = false) ∧
    Doing (placed 32 0xba000082) (.fence 8#4 2#2) fun e _ s => e.inTry = false ∧ s.remoteDue e.b e.w = false ∧
      s.remoteDueOf (fun k => k.world == e.blk.world) = false :=
  ⟨issuing_now (by decide) (by decide), issuing_now (by decide) (by decide), doing_now (by decide) (by decide), doing_now (by decide) (by decide)⟩
theorem wit_waiting_code : Doing (placed 32 0xbc000000) .fenceCode fun e _ _ => e.inTry = false := doing_now (by decide) (by decide)

/-- O21: quota.grow with room in the lane; behind another request. -/
theorem wit_mood_grows : Doing (setWarp (placed 32 0x1400c400) fun x => { x with quota := 60 }) (.quotaGrow 0xc4#8 0#32) fun e _ s =>
    srcUOk 0xc4#8 1 = true ∧ e.inTry = false ∧ e.srcU (.word 0#32) 0xc4#8 = .ok 4 ∧
    e.wp.quota + 4 + s.othersBase (quarterOf e.blk e.w) e.wp.lane e.b e.w ≤ 64 ∧
    AMap.getD (s.quarter (quarterOf e.blk e.w)).quotaQ e.wp.lane [] = [] ∧
    4 + (s.laneWarps (quarterOf e.blk e.w) e.wp.lane).foldl (fun a x => a + x.2.2.quota) 0 ≤ 64 := doing_now (by decide) (by decide)
theorem wit_mood_growWaits : Issuing ((setWarp (placed 32 0x1400c400) fun x => { x with quota := 60 }).updQuarter 0 fun q =>
      { q with quotaQ := [(0, [(2, 0, 0, 1)])] }) (.quotaGrow 0xc4#8 0#32) fun e _ s => srcUOk 0xc4#8 1 = true ∧ e.inTry = false ∧
    e.srcU (.word 0#32) 0xc4#8 = .ok 4 ∧ e.wp.quota + 4 + s.othersBase (quarterOf e.blk e.w) e.wp.lane e.b e.w ≤ 64 ∧
    AMap.getD (s.quarter (quarterOf e.blk e.w)).quotaQ e.wp.lane [] ≠ [] := issuing_now (by decide) (by decide)

/-- O23: a load beside another split, and one with no active thread. -/
theorem wit_loads_beside : let s := twoSplits (loading 32 0x440982f0)
    let e := envOf s
    let xs := accs e (leftOf s) .load 4 4 (e.runners 9#8) fun _ => 0x100000
    Ready s (.ld 4#3 9#8 0x82#8 15#4 0#4) ∧ ¬ Alone e ∧ Room e (dstNames 9#8 1) ∧ e.idle = false ∧ (leftOf s).anyHeld e.b 4 xs = false ∧
      Reaches e (leftOf s) .load 4 4 (e.runners 9#8) (fun _ => 0x100000) ∧
      (State.loadAll e none 4 xs (leftOf s)).1 = xs.map fun x => (x, .ok [1#8, 0#8, 0#8, 0#8]) :=
  ⟨ready_now (by decide), by unfold Alone; decide, room_now (by decide), by decide, by decide, by unfold Reaches; decide, by decide⟩
theorem wit_loads_idle : Doing (guarded 32 0x440982f0) (.ld 4#3 9#8 0x82#8 15#4 0#4) fun e _ _ => e.idle = true ∧ dstOk 9#8 1 = true ∧
    addrOk 0x82#8 = true := doing_now (by decide) (by decide)

/-- O24: a release at .dom while the world waits for an answer, and with none due; a store with no active thread. -/
def releases : Instr := .stXform 4#3 0x84#8 0x82#8 15#4 0#4 0x820#32
theorem wit_stores_release : ∀ f : State → State, f = id ∨ f = unanswered → let s := f (loading 64 0x8206c8482f0)
    let e := envOf s
    let xs := accs e (leftOf s) .store 4 4 (e.onceIf true) fun _ => 0x100000
    Ready s releases ∧ xOrd 0x820#32 = 2 ∧ 6 ≤ xScope 0x820#32 ∧ e.idle = false ∧ e.inTry = false ∧ (leftOf s).anyHeld e.b 4 xs = false ∧
      ((leftOf s).remoteDueOf (fun k => k.world == e.blk.world) = true ↔ f = unanswered) := by
  rintro f (rfl | rfl)
  · refine ⟨ready_now (by decide), by decide, by decide, by decide, by decide, by decide, ?_⟩
    refine ⟨fun h => absurd h (by decide), fun h => ?_⟩
    have := congrFun h p0; revert this; decide
  · exact ⟨ready_now (by decide), by decide, by decide, by decide, by decide, by decide, fun _ => rfl, fun _ => by decide⟩
theorem wit_stores_idle : Doing (guarded 32 0x648482f0) (.st 4#3 0x84#8 0x82#8 15#4 0#4) fun e _ _ => e.idle = true ∧
    storeDataOk 4#3 0x84#8 = true ∧ addrOk 0x82#8 = true := doing_now (by decide) (by decide)

/-- O26: a row load beside another split, and a column store with no active thread. -/
theorem wit_tiles_beside : let s := twoSplits (tiling 0x700482f0)
    let e := envOf s
    Ready s (.ldxRow 4#8 0x82#8 15#4 0#4) ∧ ¬ Alone e ∧ e.idle = false ∧ Room e (dstNames 4#8 2) ∧
      (State.loadAll e none 4 (tileWords false 0 e.act) (leftOf s)).1 = e.act.flatMap fun t => (List.range 2).map fun h =>
        ({ t := t, a := scratchBase + 4 * (2 * t + h), r := .scratch (4 * (2 * t + h)) }, .ok [0#8, 0#8, 0#8, 0#8]) :=
  ⟨ready_now (by decide), by unfold Alone; decide, by decide, room_now (by decide), by decide⟩
theorem wit_tiles_idle : Doing (guarded 32 0x730482f0) (.stxCol 4#8 0x82#8 15#4 0#4) fun e _ _ => e.idle = true ∧ isV 4#8 = true ∧
    aligned 4#8 2 = true ∧ isS 0x82#8 = true ∧ aligned 0x82#8 2 = true ∧ e.inTry = false := doing_now (by decide) (by decide)

/-- O27: a prefetch of the placed block, whose line is present; cwb with no active thread. -/
theorem wit_caches_line : let s := loading 32 0x740082f0
    let e := envOf s
    ∃ b l, CacheForm (.prefetch 0x82#8 15#4 0#4) true 0x82#8 15#4 0#4 0#32 ∧ 0 ∈ e.onceIf (isS 0x82#8) ∧
      (leftOf s).reach e.blk e.w 0 .load 0x100000 1 1 = .go (.block b 0) ∧ (leftOf s).line? b = some l :=
  ⟨_, _, by unfold CacheForm; simp, by decide, rfl, rfl⟩
theorem wit_caches_idle : Doing (guarded 32 0x760082f0) (.cwb 0x82#8 15#4 0#4) fun e _ _ => e.idle = true ∧ addrOk 0x82#8 = true ∧
    e.inTry = false := doing_now (by decide) (by decide)

/-- O28: an atomic with a release at .dom while the world waits for an answer, and with none due. -/
theorem wit_atomics_release : ∀ due : Bool, let s := (if due then unanswered else id) (loading 64 0x820b00982c1)
    let e := envOf s
    let xs := accs e (leftOf s) .atomic 4 4 (e.onceIf true) fun _ => 0x100000
    Ready s (.atomAdd 9#8 0x82#8 0xc1#8 0x820#32) ∧ xOrd 0x820#32 = 2 ∧ 6 ≤ xScope 0x820#32 ∧ e.idle = false ∧ e.inTry = false ∧
      (leftOf s).anyHeld e.b 4 xs = false ∧ (leftOf s).remoteDueOf (fun k => k.world == e.blk.world) = due := by
  intro due; cases due <;> exact ⟨ready_now (by decide), by decide, by decide, by decide, by decide, by decide, by decide⟩

/-- O34: fence.map while an access of the context is unanswered. -/
theorem wit_sheds_fenceMapParks : Issuing (unanswered (firmware 0xbd00c0c0)) (.fenceMap 0xc0#8 0xc0#8 0#32) fun e _ s => e.inTry = false ∧
    e.srcU (.word 0#32) 0xc0#8 = .ok 0 ∧ e.blk.world = 0 ∧ s.remoteDueOf (fun k => k.world == 0 && k.ctx == 0) = true :=
  issuing_now (by decide) (by decide)

/-- O37: rec.read alone and beside another split. -/
theorem wit_records_beside : ∀ two : Bool, let s := (if two then twoSplits else id) (recording 0xd204c0c0)
    Ready s (.recRead 4#8 0xc0#8 0xc0#8 0#32) ∧ (Alone (envOf s) ↔ two = false) := by
  intro two; cases two <;> exact ⟨ready_now (by decide), by unfold Alone; decide⟩

/-- O40: a step of an array still under way, and none. -/
def feeding (s : State) (ms : AMap (List MmaRun)) : State := setWeft s fun y => { y with mmas := ms }
def mma0 : MmaRun := { pc := 0#64, f := 0, g := 0, acc := false, a := 0x100000#64, sa := 0#64, b := 0x100000#64, sb := 0#64 }
theorem wit_meets_arrays : ∀ ms, ms = [(0, [mma0])] ∨ ms = [(0, [])] →
    WIssuing (feeding (wshedding 0x1c030000 true false .ready) ms) (.wshedArrive 3#4) (fun e _ _ => (e.blk.shed 3).weft = true ∧
      (e.blk.shed 3).weftArrived = false ∧ e.wf.mmas = ms) ∧
    WIssuing (feeding (wbobbing 0x28010000 { st := .filled } true) ms) (.wbobRel 1#3) (fun e _ _ => (∃ x, e.blk.bob? 1 = some x ∧
      x.weft = true ∧ (x.slot (AMap.getD x.ptr weftPtr 0)).st = .filled) ∧ e.wf.mmas = ms) := by
  rintro ms (rfl | rfl) <;> exact ⟨wissuing_now (by decide) (by decide), wissuing_now (by decide) ⟨⟨wbob { st := .filled } true, by decide⟩, by decide⟩⟩

/-- O41: the tile of the step behind the oldest one is fetched. -/
theorem wit_arrays_ahead : ∃ k tile, let s := { feeding (placedWeft 0x38000000) [(0, [mma0, mma0])] with args := { block := 1, n := 0, m := 1 } }
    s.block? 1 = some k ∧ k.run = .running ∧ s.args.m = 1 ∧ s.mmasOf 1 0 = [mma0, mma0] ∧ (s.mmaTile k 1 mma0).1 = .ok tile :=
  ⟨_, _, rfl, rfl, rfl, rfl, rfl⟩

/-- O45: an empty quarter whose owner's set no longer names it, and that no other set names. -/
theorem wit_placed_return : let s := (d0 {}).updQuarter 0 fun q => { q with owner := 1 }
    (s.quarter 0).resident = [] ∧ (s.quarter 0).handover = none ∧ 0 ∉ s.worldSet (s.quarter 0).owner ∧ (s.quarter 0).owner ≠ 0 ∧
      s.nextOwner 0 = none := by decide

/-! ## The device, its links, the host and its queues -/

/-- O46: a device READY, FAILED, at power-on and in each stage; a stage that ends well and one that fails. -/
theorem wit_device_boot : (d0 {}).bootReady = true ∧ ({ State.reset with bootFailed := true } : State).bootFailed = true ∧
    State.reset.bootReady = false ∧ State.reset.bootFailed = false ∧ State.reset.bootStage = 0 ∧
    (∀ n : Nat, n < 7 → ({ State.reset with bootStage := n } : State).bootReady = false ∧
      ({ State.reset with bootStage := n } : State).bootFailed = false ∧ ({ State.reset with bootStage := n } : State).bootStage = n) ∧
    (∀ n : Nat, n < 7 → stageOf 1#8 = n → n = 1) ∧ stageOf 2#8 = 2 ∧ stageOf 6#8 = 3 ∧ stageOf 3#8 = 4 ∧ stageOf 4#8 = 5 ∧ stageOf 7#8 = 6 := by decide
/-- The placed block without its line, and the same block with two sectors stored. -/
def unlined (m : MetaEnt) : State := { atPlaced p0 with lines := [] }.setMeta placedLoc m
theorem wit_device_reads : (∃ a off, (unlined {}).blockAt 1 0 0x100000#64 .devRead = some (a, off) ∧ (unlined {}).line? a = none ∧
      (unlined {}).runsFor 1 0 a.va = false ∧ ((unlined {}).metaOf a.loc).scount = 0) ∧
    ∃ a off, (unlined { scount := 2 }).blockAt 1 0 0x100000#64 .devRead = some (a, off) ∧ (unlined { scount := 2 }).line? a = none ∧
      (unlined { scount := 2 }).runsFor 1 0 a.va = false ∧ ((unlined { scount := 2 }).metaOf a.loc).scount ≠ 0 :=
  ⟨⟨_, _, rfl, by decide, by decide, by decide⟩, _, _, rfl, by decide, by decide, by decide⟩
theorem wit_device_writes : ∀ run : Bool, let s := { atPlaced p0 with
      runq := if run then [{ r0 with world := 1, ctx := 0, va := 0x100000#64 }] else [] }
    ∃ a off l, s.blockAt 1 0 0x100000#64 .devRead = some (a, off) ∧ s.line? a = some l ∧ (s.sweepUnder a).runsFor a.world a.ctx a.va = run := by
  intro run; cases run <;> exact ⟨_, _, _, rfl, rfl, by decide⟩
theorem wit_device_hands : (d0 {}).runsAt 5 < 2 ∧ ({ d0 {} with heddle := some r0, heddles := [r0] } : State).runsAt r0.port = 2 := by decide
theorem wit_device_ends : ∀ e : EccResult, let r : HRun := { r0 with fin := .tend }
    let s := { d0 {} with heddle := some r, args := { ecc := e } }
    s.heddle = some r ∧ r.fin ≠ .running ∧ s.args.ecc = e := fun _ => ⟨rfl, by decide, rfl⟩

/-- O47: a remote access over the plane of the link that goes down, a collective under way, and a link that comes back. -/
def linked (up : Bool) : State := { (d0 {}).updLink 0 (fun l => { l with up := up }) with planes := [(4, (0, 7)), (5, (1, 8))], colls := [(2, coll1)] }
theorem wit_links_down : State.linkAt (linked true) 0 = State.linkAt State.reset 0 ∧ (linked true).args.unit = 0 ∧ ((linked true).linkAt 0).up = true ∧
    AMap.get? (linked true).planes 4 = some (0, 7) ∧ AMap.get? (linked true).planes 5 = some (1, 8) ∧ AMap.get? (linked true).colls 2 = some coll1 := by decide
theorem wit_links_back : ((linked false).linkAt 0).up = false ∧ (∀ q, q < State.portCount → q ≠ 0 → ((linked false).linkAt q).up = true) := by decide

/-- O48: the last frame that a link may send, and one before it; an interface whose keys are erased, and one that is frozen. -/
theorem wit_fabric_counts : 0 < State.portCount ∧ (State.reset.linkAt 0).txFrames + 1 < 2 ^ 40 ∧
    2 ^ 40 ≤ ((State.reset.updLink 0 fun l => { l with txFrames := 2 ^ 40 - 1 }).linkAt 0).txFrames + 1 := by decide
theorem wit_fabric_erased : (∃ x, (d0 {}).world? 1 = some x ∧ x.keys = none) ∧
    (∃ x, (d0 { keys := some 0, revoked := [0x78#64] }).world? 1 = some x ∧ x.keys.isSome = true ∧ 0x78#64 ∈ x.revoked) ∧
    ∃ x, (d0 { keys := some 0, frozen := true }).world? 1 = some x ∧ x.keys.isSome = true ∧ 0x78#64 ∉ x.revoked ∧ x.frozen = true :=
  ⟨⟨_, rfl, rfl⟩, ⟨_, rfl, rfl, by decide⟩, _, rfl, rfl, by decide, rfl⟩
/-- A region's own byte in place of the target's. -/
theorem test_forward : ({ flag := 15, own := [(3, 1, 9#8)] } : PendLoad).forward 3 [1#8, 2#8] = [1#8, 9#8] := by decide

/-- O49: an interface in ERROR; configuration writes before READY, and to an interface that is and is not locked. -/
theorem wit_host_errorReads : ∃ x, (d0 { tstate := .error }).world? 1 = some x ∧ x.tstate = .error ∧ (1 : Nat) ≠ 0 := ⟨_, rfl, rfl, by decide⟩
theorem wit_host_config : ∀ st : TState, ∀ c : ConfigKind, let s := asked { tstate := st } { cfg := c, value := 1#64 }
    ∃ x, State.reset.bootReady = false ∧ s.bootReady = true ∧ s.world? 1 = some x ∧ x.tstate = st ∧ s.args.cfg = c ∧
      (AMap.getD s.fns 1 {}).memSpace ≠ s.args.value.getLsbD 0 ∧ (AMap.getD s.fns 1 {}).busMaster ≠ s.args.value.getLsbD 0 :=
  by
  intro st c; cases st <;> cases c <;> exact ⟨_, rfl, rfl, rfl, rfl, rfl, by decide, by decide⟩
theorem wit_host_mcUnread : ∀ p : PeerReach, let s := { d0 {} with mcAddr := 0x1000#64, args := { world := 0, n := 0x108, value := 1#64, reach := p } }
    s.bootReady = true ∧ s.args.value.getLsbD 0 = true ∧ s.mcBusy = false ∧ s.mcAddr.toNat % 512 = 0 ∧ s.args.reach = p :=
  by
  intro p; cases p <;> exact ⟨rfl, rfl, rfl, by decide, rfl⟩

/-- O51: a peer whose number is higher than the device's, and one whose number is lower. -/
theorem wit_sessions_peers : (3 : Nat) ≠ 0 ∧ State.reset.sysNum ≤ 3 - 1 ∧ ({ State.reset with sysNum := 3 } : State).sysNum = 3 ∧ 3 - 1 < 3 := by decide

/-- O52: no room; an existing context; a command whose block could not be read; a frozen world. -/
theorem wit_commands_noRoom : let s := { commanding [(0, 1#8), (2, 63#8)] {} with args := { ok := false } }
    Commanded s 1 [] false [] (blockOf [(0, 1#8), (2, 63#8)]) ∧ s.world? (leWord (blockOf [(0, 1#8), (2, 63#8)]) 2 1) = none ∧ s.args.ok = false :=
  ⟨⟨rfl, rfl, rfl, by decide, by decide, by decide⟩, by decide, by decide⟩
theorem wit_commands_states : ∀ st : TState, ∃ x, (commanding [(0, 4#8), (2, 1#8), (0x10, 15#8), (0x12, 2#8)] { tstate := st }).world? 1 = some x ∧
    x.tstate = st ∧ AMap.get? x.ctxs 15 = none := fun _ => ⟨_, rfl, rfl, rfl⟩
theorem wit_commands_blocks : let s := { commanding [] {} with mcResult := some (1#8, 0) }
    s.mcCmd ≠ [] ∧ s.bootReady = true ∧ s.mcBusy = true ∧ ({ s with mcCmd := [] } : State).mcCmd = [] := by decide
theorem wit_commands_frozen : let c := [(0, 7#8), (2, 1#8), (0x14, 1#8)]
    let s := commanding c { tstate := .run, frozen := true }
    ∃ x y, Commanded s 7 [(0x10, 4), (0x14, 1), (0x18, 8), (0x20, 8)] false (migrateBad true (blockOf c)) (blockOf c) ∧ s.world? 1 = some x ∧
      x.frozen = true ∧ (s.sealAll 1).world? 1 = some y := ⟨_, _, ⟨rfl, rfl, rfl, by decide, by decide, by decide⟩, rfl, rfl, rfl⟩

/-- O53: a packet that the engine has taken of a queue that has aborted since; a skipped packet behind one that has ended. -/
theorem wit_queues_skip : let s := { queued { served (packet 1#8 []) with st := .aborted } [] with engines := [(0, { taken := [(1, 0)] })] }
    ∃ x, s.queue? 1 0 = some x ∧ s.liveTaken x.engine = [(1, 0)] ∧ x.head = some (packet 1#8 []) ∧ (s.engineOf x.engine).stopped = false ∧
      x.st = .aborted := ⟨_, rfl, by decide, rfl, by decide, rfl⟩
theorem wit_queues_order : let p := { pkt0 with no := 1, result := some (2#8, 0#8) }
    p ∈ readyPkts [] [{ pkt0 with result := some (2#8, 0#8), written := true }, p] ∧ p ∉ readyPkts [] [{ pkt0 with result := some (2#8, 0#8) }, p] := by decide

/-- O54: a barrier over a fault and a negative value; OPEN with 256 phases, of which the queue's own has no work left. -/
def phases256 : AMap Phase := (List.range 256).map fun i =>
  (i, { world := 1, ctx := 0, queue := 0, job := 0, no := i, psig := 0#64, count := if i = 7 then 0 else 1, isOpen := true })
theorem wit_packets_negative : firstSigFault [SigRead.fault 1#8, SigRead.value (-1)] = some 1#8 ∧
    sigNegative ([SigRead.fault 1#8, SigRead.value (-1)].getD 1 .due) = true ∧ sigNegative ([SigRead.fault 1#8, SigRead.value (-1)].getD 0 .due) = false ∧
    ∀ v, v ∈ [SigRead.fault 1#8, SigRead.value (-1)] → v ≠ .due := by decide
theorem wit_packets_full : let s := { serving (packet 4#8 []) [] with phases := phases256 }
    (s.phases.filter fun p => p.2.world == s.args.world).length = 256 ∧ ∃ p, (7, p) ∈ s.phases ∧ p.count = 0 :=
  ⟨by decide, { world := 1, ctx := 0, queue := 0, job := 0, no := 7, psig := 0#64, count := 0, isOpen := true }, by decide, rfl⟩
theorem wit_packets_sweeps : let s := binding (binds 2#8 0#8)
    ∃ r, s.record? 1 0 1 = some r ∧ r.encrypt = false ∧ s.confidential 1 = false := ⟨_, rfl, by decide, by decide⟩
theorem wit_packets_copies : (serving copies []).copiesOn 0 ≤ Config.copyQueue := by
  have : (serving copies []).copiesOn 0 = 0 := by decide
  omega
theorem wit_packets_shares : placedWorld.shares 0 65536 = true ∧
    ({ conf := true, ranges := [(0, { base := 0#64, len := 65536#64, attr := 1, host := 0#64 })] } : World).shares 0 65536 = true ∧
    ({ conf := true } : World).shares 0 65536 = false := by decide

/-- O56: another heddle's turn, and an upset of a stored word. -/
theorem wit_step_swap : let s := { State.reset with focus := .swap 0, heddles := [r0] }
    s.focus = .swap 0 ∧ s.heddles[0]? = some r0 := ⟨rfl, rfl⟩

/-! ## Racing accesses -/

/-- A byte of the placed line that warp 0 of block 1 has written over 7, and what warp 0 of block 2 may read of it. -/
def raced : RaceWrite := { byte := .line 5 0, old := 7#8, piece := 3, seen := [(1, some 0)] }
theorem test_race_old : (raceRead (2, some 0) (fun _ => true) (.line 5 0) 9#8 [raced]).1 = 7#8 := by decide
theorem test_race_own : (raceRead (1, some 0) (fun _ => true) (.line 5 0) 9#8 [raced]).1 = 9#8 := by decide
/-- Once the new value has been read, the old one is not (R232). -/
theorem test_race_forward : (raceRead (2, some 0) (fun _ => true) (.line 5 0) 9#8
    (raceRead (2, some 0) (fun _ => false) (.line 5 0) 9#8 [raced]).2).1 = 9#8 := by decide
theorem wit_loads_quiet : (placed 32 0).recent = [] := rfl
theorem wit_loads_seen : [raced] = [] ++ raced :: [] ∧ raced.byte = .line 5 0 ∧ (1, some 0) ∈ raced.seen := by decide

/-- An acquire at .dev takes up every write; one at .blk none of another block (R228, R234). -/
theorem test_race_learn : let s : State := { placed 32 0 with recent := [raced] }
    let e := { envOf (placed 32 0) with b := 2 }
    (s.learn e 5).recent.all (fun r => r.seen.contains e.agent) = true ∧ (s.learn e 2).recent = [raced] := by decide
/-- A nop orders nothing, the end of a warp does. -/
theorem test_race_ordered : let s : State := { State.reset with recent := [raced] }
    (s.ordered .nop).recent = [raced] ∧ (s.ordered .exit).recent = [] := by decide

/-- A store lists the four bytes that it replaced, as one piece. -/
theorem test_race_store : let s := loading 32 0x648482f0
    let e := envOf s
    let ws := (accs e (leftOf s) .store 4 4 [0] fun _ => 0x100000).map fun x => (x, [0xcd#8, 0xab#8, 0#8, 0#8])
    ((leftOf s).noteStores (leftOf s) e none ws).recent.map (fun r => (r.old, r.piece)) =
      [(0#8, 0), (0#8, 0), (0#8, 0), (1#8, 0)] := by decide

end Sys2Proof.Claim
end

section
/-! PROOFS. What a store changes, byte by byte, at each kind of place (R3, R18, R191, R203). -/

namespace Sys2Proof.Machine

namespace State

theorem line?_setLine_same (s : State) (a : BAcc) (l : Line) : (s.setLine a l).line? a = some l :=
  AMap.get?_set_self s.lines (lineKey a) l

theorem line?_setLine_ne (s : State) {a b : BAcc} (l : Line) (h : lineKey b ≠ lineKey a) :
    (s.setLine a l).line? b = s.line? b :=
  AMap.get?_set_ne s.lines l h

/-- Filling twice is filling once: the second time the line is present. -/
theorem fill_fill (s : State) (a : BAcc) : (s.fill a).2.fill a = s.fill a :=
  fill_hit (fill_line s a)

/-- A store into a block is the store after its line has been filled (R18). -/
theorem writePlaces_block_fill (s : State) (w c : Nat) (a : BAcc) (off : Nat) (bs : List Byte) :
    s.writePlaces w c [(.block a off, bs)] = (s.fill a).2.writePlaces w c [(.block a off, bs)] := by
  simp only [writePlaces, List.foldl_cons, List.foldl_nil, patchPlace, fill_fill]

/-- A store into a present line of an ordinary block: the bytes stored and its old bytes around them, no new poison, and
every other line and the rest of the state as before. -/
theorem writePlaces_block_bytes (s : State) (w c : Nat) (a : BAcc) (off : Nat) (bs : List Byte) (l : Line)
    (hl : s.line? a = some l) (hf : a.loc.fixc = 0) (hd : l.data.length = 256) (ho : off + bs.length ≤ 256) :
    ∃ l' s', s.writePlaces w c [(.block a off, bs)] = (none, s') ∧ { s with lines := s'.lines } = s' ∧
      s'.line? a = some l' ∧ (∀ j, l'.data.getD j 0#8 = if off ≤ j ∧ j < off + bs.length then bs.getD (j - off) 0#8
        else l.data.getD j 0#8) ∧ l'.data.length = 256 ∧
      (∀ j, j < 32 → l'.poison.getLsbD j = true → l.poison.getLsbD j = true) ∧
      ∀ b, lineKey b ≠ lineKey a → s'.line? b = s.line? b := by
  obtain ⟨hlen, hbytes⟩ := patch_data l off bs hd ho
  refine ⟨(l.patch off bs).heal _, _, write_hit hl hf, rfl, line?_setLine_same _ _ _, hbytes, hlen,
    fun j _ => heal_poison (l.patch off bs) _ j, fun b hb => ?_⟩
  rw [line?_setLine_ne _ _ hb, line?_setLine_ne _ _ hb]

/-- A read of a present line where no word of it is poisoned gives its bytes and changes nothing. -/
theorem readPlace_block_hit (s : State) (w c : Nat) (a : BAcc) (off n : Nat) (l : Line) (hl : s.line? a = some l)
    (hp : l.poisoned off n = false) : s.readPlace w c (.block a off) n = (.ok ((l.data.drop off).take n), s) := by
  simp [readPlace, fill_hit hl, hp, Line.read]

theorem writePlaces_host (s : State) (w c pa : Nat) (bs : List Byte) :
    s.writePlaces w c [(.host pa, bs)] = (none, { s with hostMem := s.hostMem.writeBytes pa bs }) := rfl

end State

/-- A byte of private memory after a store of thread `t` of warp `w`: the stored one at its offsets, for that thread alone
(R203). -/
theorem privWrite_read (k : Block) (w t u o o' : Nat) (bs : List Byte)
    (hm : Memory.wf (AMap.getD k.priv w []) = true) (ht : t < 16) (hu : u < 16) :
    (k.privWrite w t o bs).privRead w u o' 1 =
      if u = t ∧ o ≤ o' ∧ o' < o + bs.length then [bs.getD (o' - o) 0#8] else k.privRead w u o' 1 := by
  obtain ⟨-, hread⟩ := privFold hm ht hu (o := o) (o' := o') bs bs.length
  have hbyte (k : Block) : k.privRead w u o' 1 = [(AMap.getD k.priv w []).read (privAddr o' u)] := rfl
  have hpriv : AMap.getD (k.privWrite w t o bs).priv w [] = (List.range bs.length).foldl
      (fun m i => m.write (privAddr (o + i) t) (bs.getD i 0#8)) (AMap.getD k.priv w []) := by
    simp [Block.privWrite, AMap.getD]
  rw [hbyte, hbyte, hpriv, hread]
  split <;> rfl

end Sys2Proof.Machine

namespace Sys2Proof.Claim
open Machine

/-- Settles O25, place by place: a present line, a line to be filled, a read back, host memory, the scratchpad, private
memory. -/
theorem memoryAnswers : Obligations.MemoryAnswers :=
  ⟨State.writePlaces_block_bytes,
    State.writePlaces_block_fill,
    State.readPlace_block_hit,
    fun s w c pa bs hm => ⟨_, State.writePlaces_host s w c pa bs, rfl, fun b => Memory.read_writeBytes hm pa b bs⟩,
    fun _ _ _ j hm => scratchWrite_read hm j,
    privWrite_read⟩

end Sys2Proof.Claim
end

section
/-! PROOFS. Bring-up, power, the queues of the ports, what the ports read and write, heddle runs and the patrol scrubber (R19 to
R21, R23, R25, R26, R28, R29, R44, R46, R51). -/

namespace Sys2Proof.Machine
open State

/-! ## Bring-up (R25, R26) -/

theorem exec_powerOn (s : State) : exec .powerOn s = execPowerOn s := rfl

theorem powerOn_again (s : State) (h : s.bootReady = true ∨ s.bootFailed = true) :
    exec .powerOn s = .next { s.powerCycle with bootStage := 1 } := by
  simp [exec_powerOn, execPowerOn, h]

theorem powerOn_begin (s : State) (hr : s.bootReady = false) (hf : s.bootFailed = false) (h0 : s.bootStage = 0) :
    exec .powerOn s = .next { s with bootStage := 1 } := by
  simp [exec_powerOn, execPowerOn, hr, hf, h0]

/-- The stage in progress ends well. -/
theorem powerOn_pass {s : State} (hr : s.bootReady = false) (hf : s.bootFailed = false) (h0 : s.bootStage ≠ 0)
    (h : stageFails s.bootStage s.args.boot = none) : exec .powerOn s = .next s.passStage := by
  simp [exec_powerOn, execPowerOn, hr, hf, h0, h]

/-- The stage in progress fails. -/
theorem powerOn_fail {s : State} {c : BitVec 8} (hr : s.bootReady = false) (hf : s.bootFailed = false) (h0 : s.bootStage ≠ 0)
    (h : stageFails s.bootStage s.args.boot = some c) :
    exec .powerOn s = .next { s with bootFailed := true, bootCause := c } := by
  simp [exec_powerOn, execPowerOn, hr, hf, h0, h]

theorem stageFails_one (o : BootOutcome) : stageFails 1 o = if firmwareOk then none else some 1#8 := rfl

theorem stageFails_eq_none {n : Nat} {o : BootOutcome} (hn : n ≠ 1) (h : ∀ c, o = .failed c → stageOf c ≠ n) :
    stageFails n o = none := by
  cases o with
  | ok => simp [stageFails, hn]
  | failed c => simp [stageFails, hn, h c rfl]

theorem stageFails_failed {n : Nat} {c : BitVec 8} (hn : n ≠ 1) (h : stageOf c = n) : stageFails n (.failed c) = some c := by
  simp [stageFails, hn, h]

theorem firmwareOk_iff : firmwareOk = true ↔ Config.signatureOk (Config.firmware 0) (Config.firmware 1) = true ∧
    Config.signatureOk (Config.firmware 0) (Config.firmware 2) = true := by
  simp [firmwareOk]

theorem passStage_eq (s : State) : s.passStage =
    if s.bootStage = 6 then { s with bootReady := true, now := 0, epochAt := 0 }
    else if s.bootStage = 4 then { s with bootStage := 5, lines := [], blocks := [] }
    else if s.bootStage = 3 then { s with bootStage := 4, metas := [], fixMetas := [], unref := [] }
    else { s with bootStage := s.bootStage + 1 } := by
  unfold State.passStage
  split
  case h_1 h => simp [h]
  case h_2 h => simp [h]
  case h_3 h => simp [h]
  case h_4 h3 h4 h6 => rw [if_neg h6, if_neg h4, if_neg h3]

/-- Stage 1 passes exactly when both signatures of the firmware image verify. -/
theorem powerOn_firmware (s : State) (hr : s.bootReady = false) (hf : s.bootFailed = false) (h1 : s.bootStage = 1) :
    exec .powerOn s = .next (if Config.signatureOk (Config.firmware 0) (Config.firmware 1) = true ∧
        Config.signatureOk (Config.firmware 0) (Config.firmware 2) = true then { s with bootStage := 2 }
      else { s with bootFailed := true, bootCause := 1#8 }) := by
  have h0 : s.bootStage ≠ 0 := by omega
  have hs : stageFails s.bootStage s.args.boot = if firmwareOk then none else some 1#8 := by rw [h1, stageFails_one]
  by_cases hk : firmwareOk = true
  · rw [if_pos (firmwareOk_iff.mp hk), powerOn_pass hr hf h0 (by rw [hs, if_pos hk]), passStage_eq]
    simp [h1]
  · rw [if_neg (mt firmwareOk_iff.mpr hk), powerOn_fail hr hf h0 (by rw [hs, if_neg hk])]

theorem powerOn_laterStage (s : State) (hr : s.bootReady = false) (hf : s.bootFailed = false) (h2 : 2 ≤ s.bootStage)
    (h : ∀ c, s.args.boot = .failed c → stageOf c ≠ s.bootStage) : exec .powerOn s = .next s.passStage :=
  powerOn_pass hr hf (by omega) (stageFails_eq_none (by omega) h)

theorem powerOn_laterFailure (s : State) (c : BitVec 8) (hr : s.bootReady = false) (hf : s.bootFailed = false)
    (h2 : 2 ≤ s.bootStage) (ho : s.args.boot = .failed c) (h : stageOf c = s.bootStage) :
    exec .powerOn s = .next { s with bootFailed := true, bootCause := c } :=
  powerOn_fail hr hf (by omega) (by rw [ho, stageFails_failed (by omega) h])

/-! ## Power (R23) -/

/-- What a measurement makes of the clock and of the time below 95 % of the cap: it lowers the clock above the cap, raises it
after 1 ms below 95 % of it, and else counts that time or clears it. -/
theorem powerMeasurement_cases (s : State) :
    ∃ t, exec .powerMeasurement s = .next t ∧ { s with clockMHz := t.clockMHz, coolUs := t.coolUs } = t ∧
      (s.capW < s.args.n → t.clockMHz = max 900 (s.clockMHz - 50) ∧ t.coolUs = 0) ∧
      (s.args.n ≤ s.capW → 100 * s.args.n < 95 * s.capW → 1000 ≤ s.coolUs + 10 →
        t.clockMHz = min 1500 (s.clockMHz + 50) ∧ t.coolUs = 0) ∧
      (s.args.n ≤ s.capW → 100 * s.args.n < 95 * s.capW → s.coolUs + 10 < 1000 →
        t.clockMHz = s.clockMHz ∧ t.coolUs = s.coolUs + 10) ∧
      (s.args.n ≤ s.capW → 95 * s.capW ≤ 100 * s.args.n → t.clockMHz = s.clockMHz ∧ t.coolUs = 0) := by
  change ∃ t, execPowerMeasurement s = .next t ∧ _
  unfold execPowerMeasurement
  dsimp only
  split
  case isTrue hover =>
    exact ⟨_, rfl, rfl, fun _ => ⟨rfl, rfl⟩, fun _ => by omega, fun _ => by omega, fun _ => by omega⟩
  case isFalse hover =>
    split
    case isTrue hcool =>
      split
      case isTrue hlong => exact ⟨_, rfl, rfl, fun _ => by omega, fun _ _ _ => ⟨rfl, rfl⟩, fun _ _ => by omega, fun _ => by omega⟩
      case isFalse hlong => exact ⟨_, rfl, rfl, fun _ => by omega, fun _ _ => by omega, fun _ _ _ => ⟨rfl, rfl⟩, fun _ => by omega⟩
    case isFalse hcool =>
      exact ⟨_, rfl, rfl, fun _ => by omega, fun _ _ => by omega, fun _ _ => by omega, fun _ _ => ⟨rfl, rfl⟩⟩

/-! ## The queue of a port (R19) -/

namespace Port

theorem head_spec {p : Port} {cls : Nat} {r : PortReq} (h : p.head cls = some r) : r ∈ p.waiting ∧ r.cls = cls :=
  ⟨List.mem_of_find?_eq_some h, by simpa using List.find?_some h⟩

theorem head_ne_none {p : Port} {q : PortReq} (h : q ∈ p.waiting) : p.head q.cls ≠ none := fun hn => by
  simpa using List.find?_eq_none.mp hn q h

/-- The first head that a rising list of classes has is a waiting request of the lowest of these classes. -/
theorem findSome?_head {p : Port} {cs : List Nat} {r : PortReq} (hs : cs.Pairwise (· < ·)) (h : cs.findSome? p.head = some r) :
    r ∈ p.waiting ∧ r.cls ∈ cs ∧ ∀ q, q ∈ p.waiting → q.cls ∈ cs → r.cls ≤ q.cls := by
  obtain ⟨cs₁, c, cs₂, rfl, hc, hnone⟩ := List.findSome?_eq_some_iff.mp h
  obtain ⟨hr, rfl⟩ := head_spec hc
  obtain ⟨-, hrise, -⟩ := List.pairwise_append.mp hs
  refine ⟨hr, by simp, fun q hq hmem => ?_⟩
  rcases List.mem_append.mp hmem with hmem | hmem
  · exact absurd (hnone _ hmem) (head_ne_none hq)
  · rcases List.mem_cons.mp hmem with heq | hmem
    · exact heq.ge
    · exact (List.rel_of_pairwise_cons hrise hmem).le

theorem not_mem_of_findSome?_head {p : Port} {cs : List Nat} {q : PortReq} (h : cs.findSome? p.head = none)
    (hq : q ∈ p.waiting) : q.cls ∉ cs := fun hmem => head_ne_none hq (List.findSome?_eq_none_iff.mp h _ hmem)

theorem mem_classes {c : Nat} : c ∈ [1, 2, 3, 4, 5] ↔ 1 ≤ c ∧ c ≤ 5 := by
  simp only [List.mem_cons, List.not_mem_nil, or_false]
  omega

/-- The next request waits, and it is the lowest of those that have reached their bound, or the lowest of all where none
has. -/
theorem next_spec {p : Port} {now : Nat} {r : PortReq} (h : p.next now = some r) : r ∈ p.waiting ∧
    ((p.atBound now r.cls = true ∧ ∀ q, q ∈ p.waiting → p.atBound now q.cls = true → 1 ≤ q.cls → q.cls ≤ 5 → r.cls ≤ q.cls) ∨
      (∀ q, q ∈ p.waiting → p.atBound now q.cls = true → ¬(1 ≤ q.cls ∧ q.cls ≤ 5)) ∧
        ∀ q, q ∈ p.waiting → 1 ≤ q.cls → q.cls ≤ 5 → r.cls ≤ q.cls) := by
  have hs : [1, 2, 3, 4, 5].Pairwise (· < ·) := by decide
  unfold next at h
  rcases (Option.orElse_eq_some _ _ _).mp h with hb | ⟨hb, hl⟩
  · obtain ⟨hr, hmem, hlow⟩ := findSome?_head (hs.filter _) hb
    refine ⟨hr, .inl ⟨(List.mem_filter.mp hmem).2, fun q hq ha h1 h5 => hlow q hq ?_⟩⟩
    exact List.mem_filter.mpr ⟨mem_classes.mpr ⟨h1, h5⟩, ha⟩
  · obtain ⟨hr, -, hlow⟩ := findSome?_head hs hl
    refine ⟨hr, .inr ⟨fun q hq ha hc => ?_, fun q hq h1 h5 => hlow q hq (mem_classes.mpr ⟨h1, h5⟩)⟩⟩
    exact not_mem_of_findSome?_head hb hq (List.mem_filter.mpr ⟨mem_classes.mpr hc, ha⟩)

theorem grant_busy (p : Port) (now : Nat) : (p.grant now).busy = p.next now := by
  unfold grant
  split
  case h_1 h => exact h.symm
  case h_2 r h => exact h.symm

theorem grant_waiting {p : Port} {now : Nat} {r : PortReq} (h : p.next now = some r) :
    (p.grant now).waiting = newHead r.cls now (p.waiting.erase r) := by
  simp [grant, h]

theorem atBound_of_waited (p : Port) (now cls : Nat) (r : PortReq) (n : Nat) (hr : p.head cls = some r)
    (hn : waitBound cls = some n) (hw : r.since + n * 10 ≤ now) : p.atBound now cls = true := by
  simp [atBound, hr, hn, blockTimeNs, hw]

theorem newHead_append (now cls : Nat) (l₁ l₂ : List PortReq) (r : PortReq) (h : ∀ q, q ∈ l₁ → q.cls ≠ cls) (hr : r.cls = cls) :
    newHead cls now (l₁ ++ r :: l₂) = l₁ ++ { r with since := now } :: l₂ := by
  induction l₁ with
  | nil => simp [newHead, hr]
  | cons q l₁ ih =>
    obtain ⟨hq, hl⟩ := List.forall_mem_cons.mp h
    simp [newHead, hq, ih hl]

end Port

theorem portWaitBound_reached (s : State) (r : PortReq) (n : Nat) (hr : (AMap.getD s.ports s.args.unit {}).head s.args.n = some r)
    (hn : waitBound s.args.n = some n) (hw : r.since + n * 10 ≤ s.now) (hb : s.args.n ∉ (AMap.getD s.ports s.args.unit {}).bound) :
    exec .portWaitBound s = .next (s.updPort s.args.unit fun p => { p with bound := p.bound ++ [s.args.n] }) := by
  change execPortWaitBound s = _
  have hd : ¬s.now < r.since + n * blockTimeNs := Nat.not_lt.mpr hw
  simp [execPortWaitBound, hr, hn, hd, hb]

theorem blockTransferDone_grants (s : State) (p : Port) (h : AMap.get? s.ports s.args.unit = some p) :
    exec .blockTransferDone s = .next (s.updPort s.args.unit fun p => p.grant s.now) := by
  change execBlockTransferDone s = _
  simp [execBlockTransferDone, AMap.has, h]

/-! ## Blocks read and written at the ports (R44, R46, R51) -/

section
variable {s : State} {a : BAcc} {off : Nat}

theorem exec_demandRead (s : State) : exec .demandRead s = execDemandRead s := rfl

theorem demandRead_served (h : s.blockAt s.args.world s.args.ctx s.args.addr .devRead = some (a, off))
    (hp : ((s.sweepUnder a).line? a).isSome = true ∨ (s.sweepUnder a).runsFor a.world a.ctx a.va = true) :
    exec .demandRead s = .next (s.sweepUnder a) := by
  simp [exec_demandRead, execDemandRead, h, hp]

theorem demandRead_zero (h : s.blockAt s.args.world s.args.ctx s.args.addr .devRead = some (a, off))
    (hl : (s.sweepUnder a).line? a = none) (hr : (s.sweepUnder a).runsFor a.world a.ctx a.va = false)
    (hz : ((s.sweepUnder a).metaOf a.loc).scount = 0) : exec .demandRead s = .next ((s.sweepUnder a).fill a).2 := by
  simp [exec_demandRead, execDemandRead, h, hl, hr, hz]

theorem demandRead_stored (h : s.blockAt s.args.world s.args.ctx s.args.addr .devRead = some (a, off))
    (hl : (s.sweepUnder a).line? a = none) (hr : (s.sweepUnder a).runsFor a.world a.ctx a.va = false)
    (hz : ((s.sweepUnder a).metaOf a.loc).scount ≠ 0) : let s1 := (s.sweepUnder a).eccReport a.loc s.args.ecc
    exec .demandRead s = .next (match s1.startDecode a with
      | some r => (s1.portRequest a.loc (s1.metaOf a.loc).scount 1).handRun r
      | none => (s1.fill a).2) := by
  simp only [exec_demandRead, execDemandRead, h, hl, hr, hz]
  cases ((s.sweepUnder a).eccReport a.loc s.args.ecc).startDecode a <;> rfl

theorem exec_demandWrite (s : State) : exec .demandWrite s = execDemandWrite s := rfl

theorem demandWrite_served {l : Line} (h : s.blockAt s.args.world s.args.ctx s.args.addr .devRead = some (a, off))
    (hl : s.line? a = some l) (hr : (s.sweepUnder a).runsFor a.world a.ctx a.va = true) :
    exec .demandWrite s = .next (s.sweepUnder a) := by
  simp [exec_demandWrite, execDemandWrite, h, hl, hr]

theorem demandWrite_leaves {l : Line} (h : s.blockAt s.args.world s.args.ctx s.args.addr .devRead = some (a, off))
    (hl : s.line? a = some l) (hr : (s.sweepUnder a).runsFor a.world a.ctx a.va = false) :
    exec .demandWrite s = .next (match (s.sweepUnder a).startEncode a l with
      | some r => (s.sweepUnder a).handRun r
      | none => (s.sweepUnder a).evict (lineKey a)) := by
  simp only [exec_demandWrite, execDemandWrite, h, hl, hr]
  cases (s.sweepUnder a).startEncode a l <;> rfl

end

theorem partialWriteMerge_merges (s : State) (a : BAcc) (off : Nat)
    (h : s.blockAt s.args.world s.args.ctx s.args.addr .devWrite = some (a, off)) (hlen : off + s.args.bytes.length ≤ 256)
    (hne : s.args.bytes ≠ []) : let s0 := s.evictBlock a.loc
    exec .partialWriteMerge s =
      .next (((s0.portRequest a.loc (min 8 (s0.metaOf a.loc).scount) 2).portPartial a off s.args.bytes).2) := by
  change execPartialWriteMerge s = _
  simp [execPartialWriteMerge, h, hne, Nat.not_lt.mpr hlen]

/-! ## Heddle runs (R28, R29) -/

section
variable {s : State} {r : HRun}

theorem handRun_waits (h : 2 ≤ s.runsAt r.port) : s.handRun r = { s with runq := s.runq ++ [r] } := by
  simp [handRun, h]

/-- The heddle of a port that takes its next run: the second where the first has one. -/
def freeUnit (s : State) (p : Nat) : Nat :=
  if (s.heddle.toList ++ s.heddles).any fun x => x.port == p && x.unit == 0 then 1 else 0

theorem freeUnit_lt (s : State) (p : Nat) : freeUnit s p < 2 := by
  unfold freeUnit
  split <;> omega

/-- A run handed to a free heddle of its port becomes the run in progress where there is none. -/
theorem handRun_first (h : s.runsAt r.port < 2) (hh : s.heddle = none) : (s.handRun r).runq = s.runq ∧
    (s.handRun r).heddle = some { r with unit := freeUnit s r.port } ∧ (s.handRun r).heddles = s.heddles := by
  simp [handRun, Nat.not_le.mpr h, hh, freeUnit]

/-- A run handed to a free heddle of its port joins the others where a run is in progress. -/
theorem handRun_joins {x : HRun} (h : s.runsAt r.port < 2) (hh : s.heddle = some x) : (s.handRun r).runq = s.runq ∧
    (s.handRun r).heddle = s.heddle ∧ (s.handRun r).heddles = s.heddles ++ [{ r with unit := freeUnit s r.port }] := by
  simp [handRun, Nat.not_le.mpr h, hh, freeUnit]

theorem handRun_starts (h : s.runsAt r.port < 2) : (s.handRun r).runq = s.runq ∧
    ∃ u, u < 2 ∧ (s.heddle = none → (s.handRun r).heddle = some { r with unit := u } ∧ (s.handRun r).heddles = s.heddles) ∧
      ∀ x, s.heddle = some x → (s.handRun r).heddle = s.heddle ∧ (s.handRun r).heddles = s.heddles ++ [{ r with unit := u }] := by
  refine ⟨?_, freeUnit s r.port, freeUnit_lt s _, fun hn => (handRun_first h hn).2, fun x hx => (handRun_joins h hx).2⟩
  cases hh : s.heddle with
  | none => exact (handRun_first h hh).1
  | some x => exact (handRun_joins h hh).1

theorem exec_heddleRunDone (s : State) : exec .heddleRunDone s = execHeddleRunDone s := rfl

theorem heddleRunDone_ended (h : s.heddle = some r) (hf : r.fin ≠ .running) : exec .heddleRunDone s =
    if s.args.ecc = .uncorrectable then .next (s.restartRun r)
    else .next ((runResult { s with heddle := none } r).handNext r.port) := by
  rw [exec_heddleRunDone, execHeddleRunDone, h]
  cases hfin : r.fin with
  | running => exact absurd hfin hf
  | tend => simp only [hfin]
  | tfail => simp only [hfin]
  | error ovf => simp only [hfin]

theorem heddleRunDone_served (h : s.heddle = some r) (hf : r.fin ≠ .running) (he : s.args.ecc ≠ .uncorrectable) :
    exec .heddleRunDone s = .next ((runResult { s with heddle := none } r).handNext r.port) :=
  (heddleRunDone_ended h hf).trans (if_neg he)

theorem heddleRunDone_restarts (h : s.heddle = some r) (hf : r.fin ≠ .running) (he : s.args.ecc = .uncorrectable) :
    exec .heddleRunDone s = .next (s.restartRun r) := (heddleRunDone_ended h hf).trans (if_pos he)

/-- A run that starts again is at its first instruction, with nothing read or written, for the same access. -/
theorem restartRun_fresh (s : State) (r : HRun) : ∃ r1,
    s.restartRun r = { s.updPort r.port (fun p => { p with restarts := p.restarts + 1 }) with heddle := some r1 } ∧
      r1.pc = 0 ∧ r1.fin = .running ∧ r1.steps = 0 ∧ r1.ic = 0 ∧ r1.out = [] ∧ r1.code = r.code ∧ r1.tab = r.tab ∧ r1.inp = r.inp ∧
      r1.purpose = r.purpose ∧ r1.world = r.world ∧ r1.ctx = r.ctx ∧ r1.va = r.va ∧ r1.slot = r.slot ∧ r1.port = r.port :=
  ⟨_, rfl, rfl, rfl, rfl, rfl, rfl, rfl, rfl, rfl, rfl, rfl, rfl, rfl, rfl, rfl⟩

theorem runResult_decode {a : BAcc} {off : Nat} (hp : r.purpose = .decode)
    (h : s.blockAt r.world r.ctx r.va .devRead = some (a, off)) : s.runResult r = (s.sweepUnder a).decodeDone a r := by
  simp [runResult, h, hp]

theorem runResult_write {a : BAcc} {off : Nat} {l : Line} (hp : r.purpose ≠ .decode)
    (h : s.blockAt r.world r.ctx r.va .devRead = some (a, off)) (hl : (s.sweepUnder a).line? a = some l)
    (hd : l.dirty = true) (ho : l.data = r.orig) (hq : l.poison = 0#32) :
    s.runResult r = if r.purpose = .encode then (s.sweepUnder a).encodeDone a r else (s.sweepUnder a).checkDone a r := by
  cases hpu : r.purpose with
  | decode => exact absurd hpu hp
  | encode => simp [runResult, h, hpu, hl, hd, ho, hq]
  | check => simp [runResult, h, hpu, hl, hd, ho, hq]

end

theorem checkDone_encoded {s : State} {a : BAcc} {r : HRun} (h : r.decOutcome = some r.orig) :
    s.checkDone a r = s.storeLine a r (some (r.inp.length / 32, r.inp)) := if_pos h

theorem checkDone_raw {s : State} {a : BAcc} {r : HRun} (h : r.decOutcome ≠ some r.orig) :
    s.checkDone a r = (s.countMismatch a.world r.slot).storeLine a r none := if_neg h

/-! ## The patrol scrubber (R20, R21) -/

/-- A request at a port changes nothing but the ports. -/
theorem portRequest_ports (s : State) (l : BlkRef) (n cls : Nat) :
    { s with ports := (s.portRequest l n cls).ports } = s.portRequest l n cls := by
  unfold portRequest
  induction physBlocks l n generalizing s with
  | nil => rfl
  | cons b bs ih => rw [List.foldl_cons, ← ih]; rfl

theorem eccReport_ports (s : State) (l : BlkRef) {e : EccResult} (he : e ≠ .uncorrectable) :
    { s with ports := (s.eccReport l e).ports } = s.eccReport l e := by
  cases e with
  | clean => rfl
  | corrected => rfl
  | uncorrectable => exact absurd rfl he

/-- The block that the scrubber reads. -/
def scrubbed (s : State) : BlkRef := { key := 2 * s.args.n, base := 256 * s.args.n, metaAt := s.args.n }

theorem exec_patrolScrub (s : State) : exec .patrolScrub s = execPatrolScrub s := rfl

theorem patrolScrub_correctable {s : State} (hn : 256 * s.args.n < physBytes) (he : s.args.ecc ≠ .uncorrectable) :
    exec .patrolScrub s = .next ((s.portRequest (scrubbed s) 8 5).eccReport (scrubbed s) s.args.ecc) := by
  rw [exec_patrolScrub, execPatrolScrub, if_neg (Nat.not_le.mpr hn)]
  cases hecc : s.args.ecc with
  | clean => rfl
  | corrected => rfl
  | uncorrectable => exact absurd hecc he

theorem patrolScrub_counts (s : State) (hn : 256 * s.args.n < physBytes) (he : s.args.ecc ≠ .uncorrectable) :
    ∃ t, exec .patrolScrub s = .next t ∧ { s with ports := t.ports } = t := by
  refine ⟨_, patrolScrub_correctable hn he, ?_⟩
  rw [← eccReport_ports _ _ he, ← portRequest_ports]

theorem patrolScrub_poisons (s : State) (hn : 256 * s.args.n < physBytes) (he : s.args.ecc = .uncorrectable) :
    let s1 := s.portRequest (scrubbed s) 8 5
    exec .patrolScrub s = .next ((s1.blocksIn s.args.n).foldl poisonBlock
      (s1.updPort (portOf (scrubbed s)) fun p => { p with uncorrected := p.uncorrected + 1 })) := by
  rw [exec_patrolScrub, execPatrolScrub, if_neg (Nat.not_le.mpr hn), he]
  rfl

end Sys2Proof.Machine

namespace Sys2Proof.Claim
open Machine State

/-- Settles O46, agent by agent: bring-up, the power manager, the queue of a port, reads and writes at the ports, heddle runs,
the patrol scrubber. -/
theorem deviceRunsItself : Obligations.DeviceRunsItself :=
  ⟨powerOn_again,
    powerOn_begin,
    powerOn_firmware,
    fun s hr hf h2 _ ho => passStage_eq s ▸ powerOn_laterStage s hr hf h2 ho,
    powerOn_laterFailure,
    powerMeasurement_cases,
    portWaitBound_reached,
    rfl,
    blockTransferDone_grants,
    fun p now => ⟨Port.grant_busy p now, fun _ h => ⟨Port.grant_waiting h, Port.next_spec h⟩⟩,
    Port.atBound_of_waited,
    Port.newHead_append,
    fun _ _ _ h => ⟨demandRead_served h, fun hl hr => ⟨demandRead_zero h hl hr, demandRead_stored h hl hr⟩⟩,
    fun _ _ _ _ h hl => ⟨demandWrite_served h hl, demandWrite_leaves h hl⟩,
    fun _ _ => ⟨handRun_waits, handRun_starts⟩,
    partialWriteMerge_merges,
    fun s r h hf => ⟨heddleRunDone_served h hf, fun he => by
      rw [heddleRunDone_restarts h hf he]
      obtain ⟨r1, hr1, hfresh⟩ := restartRun_fresh s r
      exact ⟨r1, congrArg _ hr1, hfresh⟩⟩,
    fun _ _ _ _ hp h => runResult_decode hp h,
    fun _ _ _ _ _ hp h => runResult_write hp h,
    fun _ _ _ => ⟨checkDone_encoded, checkDone_raw⟩,
    patrolScrub_counts,
    patrolScrub_poisons⟩

end Sys2Proof.Claim
end

section
/-! PROOFS. What reset leaves (R23, R25, R26, R97, R103, R147, R150, R153). -/

namespace Sys2Proof.Machine.State

theorem reset_boot : reset.bootReady = false ∧ reset.bootFailed = false ∧ reset.bootCause = 0#8 ∧ reset.bootStage = 0 :=
  ⟨rfl, rfl, rfl, rfl⟩

theorem reset_mc : reset.mcAddr = 0#64 ∧ reset.mcBusy = false ∧ reset.mcDone = 0#32 ∧ reset.mcResult = none := ⟨rfl, rfl, rfl, rfl⟩

theorem reset_power : reset.capW = 3600 ∧ reset.drainLimit = 200 ∧ reset.clockMHz = 1500 := ⟨rfl, rfl, rfl⟩

/-- No quarter and no metadata entry is listed, and each that is not listed is at its default. -/
theorem reset_maps : (∀ q, (AMap.getD reset.quarters q {}).owner = 0) ∧ (∀ b, AMap.getD reset.metas b 0#64 = 0#64) ∧
    Memory.wf reset.mem = true ∧ Memory.wf reset.hostMem = true := ⟨fun _ => rfl, fun _ => rfl, rfl, rfl⟩

theorem reset_empty : reset.worlds = [] ∧ reset.blocks = [] ∧ reset.launches = [] ∧ reset.graphs = [] ∧
    reset.copies = [] ∧ reset.heddle = none ∧ reset.lines = [] ∧ reset.inbox = [] := ⟨rfl, rfl, rfl, rfl, rfl, rfl, rfl, rfl⟩

end Sys2Proof.Machine.State

namespace Sys2Proof.Claim
open Machine

/-- Settles O59: the fields of the reset state, then the defaults of an interface, a queue and a split. -/
theorem resetHolds : Obligations.ResetHolds := by
  refine ⟨State.reset_boot, State.reset_mc, State.reset_power, State.reset_maps, State.reset_empty, ?interface, ?queue, ?split⟩
  case interface => rintro _ rfl; and_intros <;> rfl
  case queue => rintro _ rfl; and_intros <;> rfl
  case split => rintro _ rfl; rfl

end Sys2Proof.Claim
end

section
/-! PROOFS. A field written into a 64-bit word, and the record fields that the end of a sweep writes (R30, R78). -/

namespace Sys2Proof

theorem testBit_bits (v hi lo i : Nat) : (bits v hi lo).testBit i = (decide (i < hi + 1 - lo) && v.testBit (lo + i)) := by
  rw [bits, Nat.testBit_mod_two_pow, Nat.testBit_shiftRight]

/-- A word cut at the two ends of a field. -/
theorem eq_cut_bits (w : Nat) {hi lo : Nat} (h : lo ≤ hi) :
    w = 2 ^ lo * (2 ^ (hi + 1 - lo) * (w / 2 ^ (hi + 1)) + bits w hi lo) + w % 2 ^ lo := by
  have hd : w / 2 ^ (hi + 1) = w / 2 ^ lo / 2 ^ (hi + 1 - lo) := by
    rw [Nat.div_div_eq_div_mul, ← pow_add, Nat.add_sub_cancel' (by omega)]
  rw [hd, bits_eq, Nat.div_add_mod, Nat.div_add_mod]

namespace Machine

theorem setField_toNat (w : W64) {hi lo : Nat} (v : Nat) (h : lo ≤ hi) (hh : hi < 64) : (setField w hi lo v).toNat =
    2 ^ lo * (2 ^ (hi + 1 - lo) * (w.toNat / 2 ^ (hi + 1)) + v % 2 ^ (hi + 1 - lo)) + w.toNat % 2 ^ lo := by
  have hv : v % 2 ^ (hi + 1 - lo) < 2 ^ (hi + 1 - lo) := Nat.mod_lt _ (by positivity)
  have hlow : w.toNat % 2 ^ lo < 2 ^ lo := Nat.mod_lt _ (by positivity)
  have hhigh : w.toNat / 2 ^ (hi + 1) < 2 ^ (63 - hi) := by
    rw [Nat.div_lt_iff_lt_mul (by positivity), ← pow_add, show 63 - hi + (hi + 1) = 64 by omega]
    exact w.isLt
  have hcut := eq_cut_bits w.toNat h
  rw [setField, BitVec.toNat_ofNat]
  generalize w.toNat / 2 ^ (hi + 1) = a at *
  generalize bits w.toNat hi lo = b at *
  generalize w.toNat % 2 ^ lo = c at *
  generalize v % 2 ^ (hi + 1 - lo) = x at *
  have hfit : 2 ^ lo * (2 ^ (hi + 1 - lo) * a + x) + c < 2 ^ 64 := calc
    2 ^ lo * (2 ^ (hi + 1 - lo) * a + x) + c < 2 ^ lo * (2 ^ (hi + 1 - lo) * a + x) + 2 ^ lo := by omega
    _ = 2 ^ lo * (2 ^ (hi + 1 - lo) * a + (x + 1)) := by ring
    _ ≤ 2 ^ lo * (2 ^ (hi + 1 - lo) * (a + 1)) := by gcongr; rw [Nat.mul_succ]; omega
    _ ≤ 2 ^ lo * (2 ^ (hi + 1 - lo) * 2 ^ (63 - hi)) := by gcongr; omega
    _ = 2 ^ 64 := by rw [← pow_add, ← pow_add]; congr 1; omega
  rw [← Nat.mod_eq_of_lt hfit, hcut]
  congr 1
  rw [Nat.mul_add, Nat.mul_add, Nat.mul_comm b, Nat.mul_comm x]
  omega

/-- The bits of a field are those written, and every other bit stays. -/
theorem testBit_setField (w : W64) {hi lo : Nat} (v i : Nat) (h : lo ≤ hi) (hh : hi < 64) :
    (setField w hi lo v).toNat.testBit i = if lo ≤ i ∧ i ≤ hi then v.testBit (i - lo) else w.toNat.testBit i := by
  have cut (x : Nat) (hx : x < 2 ^ (hi + 1 - lo)) :
      (2 ^ lo * (2 ^ (hi + 1 - lo) * (w.toNat / 2 ^ (hi + 1)) + x) + w.toNat % 2 ^ lo).testBit i =
        if lo ≤ i ∧ i ≤ hi then x.testBit (i - lo) else w.toNat.testBit i := by
    rw [Nat.testBit_two_pow_mul_add _ (Nat.mod_lt _ (by positivity)), Nat.testBit_two_pow_mul_add _ hx,
      Nat.testBit_mod_two_pow, Nat.testBit_div_two_pow]
    by_cases h1 : i < lo
    · simp [h1, Nat.not_le.mpr h1]
    · by_cases h2 : i - lo < hi + 1 - lo
      · rw [if_neg h1, if_pos h2, if_pos (by omega)]
      · rw [if_neg h1, if_neg h2, if_neg (by omega)]
        congr 1
        omega
  rw [setField_toNat w v h hh, cut _ (Nat.mod_lt _ (by positivity)), Nat.testBit_mod_two_pow]
  split
  case isTrue hi' => rw [decide_eq_true (by omega), Bool.true_and]
  case isFalse => rfl

theorem bits_setField_same (w : W64) {hi lo : Nat} (v : Nat) (h : lo ≤ hi) (hh : hi < 64) :
    bits (setField w hi lo v).toNat hi lo = v % 2 ^ (hi + 1 - lo) := by
  refine Nat.eq_of_testBit_eq fun i => ?_
  rw [testBit_bits, testBit_setField w v _ h hh, Nat.testBit_mod_two_pow]
  by_cases hi' : i < hi + 1 - lo
  · rw [if_pos (by omega), Nat.add_sub_cancel_left]
  · simp [hi']

theorem bits_setField_apart (w : W64) {hi lo h' l' : Nat} (v : Nat) (h : lo ≤ hi) (hh : hi < 64) (hd : hi < l' ∨ h' < lo) :
    bits (setField w hi lo v).toNat h' l' = bits w.toNat h' l' := by
  refine Nat.eq_of_testBit_eq fun i => ?_
  rw [testBit_bits, testBit_bits, testBit_setField w v _ h hh]
  by_cases hi' : i < h' + 1 - l'
  · rw [if_neg (by omega)]
  · simp [hi']

end Machine
end Sys2Proof
end

section
/-! PROOFS. Links and planes: what a link that goes down, or comes back, or carries one more frame leaves (R85, R86, R94). -/

namespace Sys2Proof.Machine.State

@[simp] theorem linkAt_updLink (s : State) {p : Nat} (f : Link → Link) (hp : p < portCount) :
    (s.updLink p f).linkAt p = f (s.linkAt p) := by
  simp [updLink, linkAt, AMap.getD, hp]

@[simp] theorem linkAt_updLink_ne (s : State) {p q : Nat} (f : Link → Link) (h : q ≠ p) :
    (s.updLink p f).linkAt q = s.linkAt q := by
  unfold updLink
  split <;> simp [linkAt, AMap.getD, h]

/-- An update of a link changes the links alone. -/
theorem updLink_links (s : State) (p : Nat) (f : Link → Link) : { s with links := (s.updLink p f).links } = s.updLink p f := by
  unfold updLink
  split <;> rfl

/-! ## A link goes down -/

@[simp] theorem linkAt_downLink (s : State) {p : Nat} (hp : p < portCount) :
    (s.downLink p).linkAt p = { s.linkAt p with up := false, fails := 0 } := linkAt_updLink s _ hp

@[simp] theorem linkAt_downLink_ne (s : State) {p q : Nat} (h : q ≠ p) : (s.downLink p).linkAt q = s.linkAt q :=
  linkAt_updLink_ne s _ h

theorem downLink_outbox (s : State) (p : Nat) : (s.downLink p).outbox = s.outbox ++ [.frameResend p] := by
  change (s.updLink p _).outbox ++ _ = _
  rw [← updLink_links]

theorem downLink_planes (s : State) (p : Nat) : (s.downLink p).planes =
    AMap.mapVals s.planes fun x => if x.1 = p then (((s.downLink p).planeAt x.2).getD p, x.2) else x := by
  rw [downLink, ← updLink_links]
  rfl

theorem downLink_colls (s : State) (p : Nat) : (s.downLink p).colls =
    AMap.mapVals s.colls fun c => { c with linkDown := c.linkDown <|> some s.now } := by
  rw [downLink, ← updLink_links]
  rfl

/-- What was in flight on another plane stays there. -/
theorem planes_downLink_other (s : State) {p id q h : Nat} (hid : AMap.get? s.planes id = some (q, h)) (hq : q ≠ p) :
    AMap.get? (s.downLink p).planes id = some (q, h) := by
  rw [downLink_planes, AMap.get?_mapVals, hid, Option.map_some, if_neg hq]

/-- What was in flight on the plane is sent again on one of those that are left, by its hash. -/
theorem planes_downLink_same (s : State) {p id h : Nat} (hid : AMap.get? s.planes id = some (p, h)) :
    AMap.get? (s.downLink p).planes id = some (((s.downLink p).planeAt h).getD p, h) := by
  rw [downLink_planes, AMap.get?_mapVals, hid, Option.map_some, if_pos rfl]

theorem colls_downLink (s : State) {p i : Nat} {c : Coll} (hc : AMap.get? s.colls i = some c) :
    AMap.get? (s.downLink p).colls i = some { c with linkDown := c.linkDown <|> some s.now } := by
  rw [downLink_colls, AMap.get?_mapVals, hc, Option.map_some]

theorem downLink_keeps (s : State) (p : Nat) : { s with
    links := (s.downLink p).links, outbox := (s.downLink p).outbox, planes := (s.downLink p).planes
    colls := (s.downLink p).colls } = s.downLink p := by
  unfold downLink
  rw [← updLink_links]
  rfl

/-! ## A link comes back -/

theorem linksBack_colls (s : State) : { s with colls := s.linksBack.colls } = s.linksBack := by
  unfold linksBack
  split <;> rfl

theorem learnNumber_eq (s : State) : s.learnNumber = { s with sysNum := if s.args.ok then s.args.m % 2 ^ 20 else s.sysNum } := by
  unfold learnNumber
  split <;> rfl

/-- Every plane is in the hash where every link is up. -/
theorem upPlanes_length (s : State) (h : ∀ q, q < portCount → (s.linkAt q).up = true) : s.upPlanes.length = portCount := by
  rw [upPlanes, List.filter_eq_self.mpr fun q hq => h q (List.mem_range.mp hq), List.length_range]

theorem linksBack_clear (s : State) (h : ∀ q, q < portCount → (s.linkAt q).up = true) {i : Nat} {c : Coll}
    (hc : AMap.get? s.linksBack.colls i = some c) : c.linkDown = none := by
  rw [linksBack, if_pos (upPlanes_length s h), AMap.get?_mapVals] at hc
  obtain ⟨x, -, rfl⟩ := Option.map_eq_some_iff.mp hc
  rfl

/-- The state after link `p` has been trained again. -/
def retrained (s : State) (p : Nat) : State :=
  (s.updLink p fun l => { up := true, keyEpoch := l.keyEpoch + 1 }).linksBack.learnNumber

theorem retrained_eq (s : State) (p : Nat) : s.retrained p =
    let s1 := s.updLink p fun l => { up := true, keyEpoch := l.keyEpoch + 1 }
    { s1 with colls := s1.linksBack.colls, sysNum := if s.args.ok then s.args.m % 2 ^ 20 else s.sysNum } := by
  rw [retrained, learnNumber_eq, ← linksBack_colls, ← updLink_links]

theorem linkAt_retrained (s : State) (p q : Nat) :
    (s.retrained p).linkAt q = (s.updLink p fun l => { up := true, keyEpoch := l.keyEpoch + 1 }).linkAt q := by
  rw [retrained_eq]
  rfl

theorem retrained_keeps (s : State) (p : Nat) : { s with
    links := (s.retrained p).links, sysNum := (s.retrained p).sysNum, colls := (s.retrained p).colls } = s.retrained p := by
  rw [retrained_eq, ← updLink_links]

theorem retrained_clear (s : State) {p : Nat} (hp : p < portCount)
    (h : ∀ q, q < portCount → q ≠ p → (s.linkAt q).up = true) {i : Nat} {c : Coll} (hc : AMap.get? (s.retrained p).colls i = some c) : c.linkDown = none := by
  rw [retrained_eq] at hc
  refine linksBack_clear _ (fun q hq => ?_) hc
  by_cases hqp : q = p
  · subst q
    rw [linkAt_updLink s _ hp]
  · rw [linkAt_updLink_ne s _ hqp]
    exact h q hq hqp

/-! ## A frame goes out -/

theorem frameOut_counts (s : State) {p : Nat} (hp : p < portCount) (h : (s.linkAt p).txFrames + 1 < 2 ^ 40) :
    ((s.frameOut p).linkAt p).txFrames = (s.linkAt p).txFrames + 1 ∧ ((s.frameOut p).linkAt p).up = (s.linkAt p).up := by
  have hlim : ¬frameLimit ≤ (s.linkAt p).txFrames + 1 := Nat.not_le.mpr h
  simp [frameOut, hp, hlim]

theorem frameOut_last (s : State) {p : Nat} (hp : p < portCount) (h : 2 ^ 40 ≤ (s.linkAt p).txFrames + 1) :
    ((s.frameOut p).linkAt p).up = false := by
  have hlim : frameLimit ≤ (s.linkAt p).txFrames + 1 := h
  simp [frameOut, hp, hlim]

end Sys2Proof.Machine.State
end

section
/-! PROOFS. Sweeps, pages that move and pages that leave, and the two events of a link (R77 to R85, R89). -/

namespace Sys2Proof.Machine
open State

/-! ## Sweeps (R77 to R80) -/

theorem sweepIntervalExpiry_requests (s : State) (x : World) (r : TRec) (hx : s.world? s.args.world = some x)
    (hr : s.record? s.args.world s.args.ctx s.args.n = some r) (hi : x.sweepInterval ≠ 0) (hv : r.valid = true)
    (he : s.encrypted s.args.world r = true) (hd : r.validAt + x.sweepInterval * 1000000000 ≤ s.now)
    (hn : ∀ q, q ∈ x.sweeps → ¬(q.1 = s.args.ctx ∧ q.2.1 = s.args.n)) : exec .sweepIntervalExpiry s =
      .next (s.updWorld s.args.world fun x => { x with sweeps := x.sweeps ++ [(s.args.ctx, s.args.n, none)] }) := by
  have hasked : (x.sweeps.any fun q => q.1 == s.args.ctx && q.2.1 == s.args.n) = false := by
    simpa [List.any_eq_false] using hn
  change execSweepIntervalExpiry s = _
  simp only [execSweepIntervalExpiry, hx, hr, hasked, hv, he, Nat.not_lt.mpr hd, hi, Bool.not_true,
    decide_false, Bool.or_false, Bool.false_eq_true, if_false]

/-- The record that a sweep leaves: out of its sweep, at its next version, valid from `now`. -/
theorem endOfSweep_fields (r : TRec) (now : Nat) :
    let r1 := setSweep { r with w0 := setField r.w0 39 24 (r.version + 1), validAt := now } false 0
    r1.sweep = false ∧ r1.sweepPtr = 0 ∧ (r.version < 0xffff → r1.version = r.version + 1) ∧ r1.validAt = now ∧
      r1.tid = r.tid ∧ r1.pair = r.pair ∧ r1.pages = r.pages := by
  have apart (h' l' : Nat) (hd : 39 < l' ∨ h' < 24 ∧ 9 < l') :
      bits (setField (setField r.w0 39 24 (r.version + 1)) 9 9 0).toNat h' l' = bits r.w0.toNat h' l' := by
    rw [bits_setField_apart _ _ (by omega) (by omega) (by omega), bits_setField_apart _ _ (by omega) (by omega) (by omega)]
  refine ⟨?sweep, ?ptr, fun hv => ?version, rfl, apart 63 40 (by omega), apart 23 16 (by omega), ?pages⟩
  case sweep => exact (testBit_setField _ 0 9 (by omega) (by omega)).trans (by simp)
  case ptr => exact bits_setField_same r.w3 0 (by omega) (by omega)
  case pages => exact bits_setField_apart r.w3 0 (by omega) (by omega) (by omega)
  case version => calc
      bits (setField (setField r.w0 39 24 (r.version + 1)) 9 9 0).toNat 39 24
      _ = bits (setField r.w0 39 24 (r.version + 1)).toNat 39 24 := bits_setField_apart _ _ (by omega) (by omega) (by omega)
      _ = (r.version + 1) % 2 ^ 16 := bits_setField_same _ _ (by omega) (by omega)
      _ = r.version + 1 := Nat.mod_eq_of_lt (by omega)

section
variable (s : State) (x : World) (c i : Nat) (who : Option (Nat × Nat)) (rest : List (Nat × Nat × Option (Nat × Nat)))
  (r : TRec) (a : BAcc) (off : Nat) (hx : s.world? s.args.world = some x) (hq : x.sweeps = (c, i, who) :: rest)
  (hr : s.record? s.args.world c i = some r)
include hx hq hr

theorem sweepStart_begins (hs : r.sweep = false) : exec .sweepStart s = .next (
    if s.encrypted s.args.world r = false then s.endSweep s.args.world pcOk
    else if r.version = 0xffff then s.endSweep s.args.world pcVersionEnd
    else s.setRecord s.args.world c i (setSweep r true 0)) := by
  change execSweepStart s = _
  simp only [execSweepStart, hx, hq, hr, hs, Bool.false_eq_true, if_false, Bool.not_eq_true']
  split
  · rfl
  · split <;> rfl

theorem sweepBlock_block (hs : r.sweep = true) (hp : r.sweepPtr < 256 * r.pages)
    (hb : s.blockAt s.args.world c (BitVec.ofNat 64 (r.base + 256 * r.sweepPtr)) .devRead = some (a, off)) (ha : a.trec = i) :
    exec .sweepBlock s = .next (((s.portRequest a.loc (min 8 (s.metaOf a.loc).scount) 1).reencrypt a r).advanceSweep
      s.args.world c i (r.sweepPtr + 1)) := by
  change execSweepBlock s = _
  simp only [execSweepBlock, hx, hq, hr, hs, Nat.not_le.mpr hp, hb, ha, Bool.not_true, Bool.false_eq_true, if_false, if_true]

theorem sweepBlock_unmapped (hs : r.sweep = true) (hp : r.sweepPtr < 256 * r.pages)
    (hb : s.blockAt s.args.world c (BitVec.ofNat 64 (r.base + 256 * r.sweepPtr)) .devRead = none) :
    exec .sweepBlock s = .next (s.advanceSweep s.args.world c i ((r.sweepPtr / 256 + 1) * 256)) := by
  change execSweepBlock s = _
  simp only [execSweepBlock, hx, hq, hr, hs, Nat.not_le.mpr hp, hb, Bool.not_true, Bool.false_eq_true, if_false]

theorem sweepBlock_ends (hs : r.sweep = true) (hp : 256 * r.pages ≤ r.sweepPtr) :
    ∃ r1, exec .sweepBlock s = .next ((s.setRecord s.args.world c i r1).endSweep s.args.world pcOk) ∧ r1.sweep = false ∧
      r1.sweepPtr = 0 ∧ (r.version < 0xffff → r1.version = r.version + 1) ∧ r1.validAt = s.now ∧ r1.tid = r.tid ∧
      r1.pair = r.pair ∧ r1.pages = r.pages := by
  refine ⟨_, ?_, endOfSweep_fields r s.now⟩
  change execSweepBlock s = _
  simp only [execSweepBlock, hx, hq, hr, hs, hp, Bool.not_true, Bool.false_eq_true, if_false, if_true]

end

/-! ## Pages that move (R81 to R83) -/

/-- The page that the event names, of the context it names. -/
def argPage (s : State) : Nat := s.args.addr.toNat / 65536 * 65536

/-- The leaf of a page without a record in the frame that the event names. -/
def movedLeaf (s : State) (l : Leaf) : Leaf :=
  { trec := 0, paddr := s.args.page.paddr, wr := l.wr, ex := l.ex, mrun := s.args.page.mrun }

theorem pageMigration_moves (s : State) (l : Leaf) (hl : s.leafOf s.args.world s.args.ctx (argPage s) = some l)
    (ht : s.args.page.trec = 0) (hp : s.args.page.paddr % 65536 = 0) (hm : s.args.page.mrun % 2048 = 0)
    (hf : frameFree s.usedFrames s.args.page.paddr (frameBytes 0) = true) (hk : s.classOf s.args.world s.args.ctx 0 = 0) :
    let src := s.pageBlocks s.args.world s.args.ctx (argPage s) l
    let dst := s.pageBlocks s.args.world s.args.ctx (argPage s) (movedLeaf s l)
    let s1 := src.foldl (fun s a => s.evictBlock a.loc) s
    exec .pageMigration s = .next (match moveBlocks (src.zip dst) (dst.foldl clearBlock s1) with
      | none => s1.logEvent s.args.world (BitVec.ofNat 64 (argPage s)) 2#8 0#8
      | some s3 => (s3.freeBlocks src).setEntry s.args.world s.args.ctx (argPage s) (movedLeaf s l).entry) := by
  have hpa : s.args.page.paddr / 8192 * 8192 = s.args.page.paddr :=
    Nat.div_mul_cancel ((by decide : 8192 ∣ 65536).trans (Nat.dvd_of_mod_eq_zero hp))
  have hma : s.args.page.mrun / 2048 * 2048 = s.args.page.mrun := Nat.div_mul_cancel (Nat.dvd_of_mod_eq_zero hm)
  change execPageMigration s = _
  rw [argPage] at hl
  rw [execPageMigration, hl, ht, hpa, hma]
  refine (if_neg ?_).trans ?_
  · simp [hk, hf, hp]
  · simp only [movedLeaf, argPage]
    cases moveBlocks _ _ <;> rfl

/-! ## Pages that leave (R84) -/

theorem sealOut_leaves {s t : State} (h : s.sealPage s.args.world s.args.ctx (argPage s) = some t) :
    exec .sealOut s = .next t := by
  change execSealOut s = _
  rw [argPage] at h
  rw [execSealOut, h]

section
variable {s : State} {w c va : Nat} {l : Leaf} {x : World}

theorem sealPage_plain {page : List Byte} {bad : List Nat} {s2 : State} (hl : s.leafOf w c va = some l)
    (hx : s.world? w = some x) (hc : x.conf = false) (hcopy : s.copyOnPage w c va = false)
    (hp : plainPage ((s.pageBlocks w c va l).zip (List.range 256))
      ((s.pageBlocks w c va l).foldl (fun s a => s.evictBlock a.loc) s) = (page, bad, s2)) :
    s.sealPage w c va = some ((s2.freeBlocks (s.pageBlocks w c va l)).putOut w c va l 0 page bad) := by
  rw [sealPage, hl, hx]
  refine (if_neg (by simp [hcopy])).trans ((if_neg (by simp [hc])).trans ?_)
  rw [hp]

theorem sealPage_sealed {key : List Byte} {as : List BAcc} {s1 : State} (hl : s.leafOf w c va = some l)
    (hx : s.world? w = some x) (hc : x.conf = true) (hcopy : s.copyOnPage w c va = false) (has : s.pageBlocks w c va l = as)
    (hs : as.foldl (fun s a => s.evictBlock a.loc) s = s1) (hk : s1.migKeyOf w = some key) :
    let aad := s1.sealHeader w c va x.sealSeq.toNat l
    let out := gcmSeal key (sealNonce w x.sealSeq.toNat) aad ((as.map fun a => s1.sectors a.loc (s1.metaOf a.loc).scount).flatten)
    s.sealPage w c va = some (((as.foldl clearBlock s1).putOut w c va l x.sealSeq.toNat (aad ++ out.1 ++ out.2) []).updWorld w
      fun x => { x with sealSeq := x.sealSeq + 1#64 }) := by
  intro aad out
  rw [sealPage, hl, hx]
  refine (if_neg (by simp [hcopy])).trans ((if_pos hc).trans ?_)
  rw [has, hs, hk]

end

/-! ## Links (R85, R86) -/

theorem linkDown_leaves (s : State) (hp : s.args.unit < portCount) (hu : (s.linkAt s.args.unit).up = true) :
    exec .linkDown s = .next (s.downLink s.args.unit) := by
  change execLinkDown s = _
  simp [execLinkDown, hp, hu]

theorem linkRetrain_trains (s : State) (hp : s.args.unit < portCount) (hu : (s.linkAt s.args.unit).up = false) :
    exec .linkRetrain s = .next (s.retrained s.args.unit) := by
  change execLinkRetrain s = _
  simp [execLinkRetrain, retrained, hp, hu]

end Sys2Proof.Machine

namespace Sys2Proof.Claim
open Machine State

/-- Settles O47: the steps of a sweep by the place of its pointer, the move of a page, the two ways for a page to leave, and
what a link that goes down or comes back changes. -/
theorem sweepsAndPages : Obligations.SweepsAndPages := by
  refine ⟨sweepIntervalExpiry_requests, sweepStart_begins, sweepBlock_block, sweepBlock_unmapped, sweepBlock_ends,
    pageMigration_moves, ?plain, ?sealed, ?down, ?back⟩
  case plain =>
    intro s l x w c va hl hx hc hcopy as page bad s2 hp
    exact sealOut_leaves (sealPage_plain hl hx hc hcopy hp)
  case sealed =>
    intro s l x key w c va as s1 hl hx hc hcopy hk aad out
    exact sealOut_leaves (sealPage_sealed hl hx hc hcopy rfl rfl hk)
  case down =>
    intro s p hp hu
    refine ⟨s.downLink p, linkDown_leaves s hp hu, ?_, ?_, fun q hq => linkAt_downLink_ne s hq, downLink_outbox s p,
      fun _ _ _ hid hq => planes_downLink_other s hid hq, fun _ _ hid => planes_downLink_same s hid,
      fun _ _ hc => colls_downLink s hc, downLink_keeps s p⟩ <;> rw [linkAt_downLink s hp]
  case back =>
    intro s p hp hu
    have hlink : (s.retrained p).linkAt p = { up := true, keyEpoch := (s.linkAt p).keyEpoch + 1 } := by
      rw [linkAt_retrained, linkAt_updLink s _ hp]
    refine ⟨s.retrained p, linkRetrain_trains s hp hu, by rw [hlink], by rw [hlink], by rw [hlink], by rw [hlink],
      fun q hq => by rw [linkAt_retrained, linkAt_updLink_ne s _ hq], by rw [retrained_eq],
      fun h _ _ hc => retrained_clear s hp h hc, retrained_keeps s p⟩

end Sys2Proof.Claim
end

section
/-! PROOFS. Frames, accesses between devices and their answers, and collectives (R86 to R94, R206, R261, R456 to R458). -/

namespace Sys2Proof.Machine
open State Claim

/-! ## Frames (R86) -/

theorem exec_frameReceive (s : State) : exec .frameReceive s = execFrameReceive s := rfl

section
variable (s : State) (hp : s.args.unit < portCount) (hu : (s.linkAt s.args.unit).up = true)
include hp hu

theorem frameReceive_counts (hok : s.args.ok = true) :
    let s1 := s.updLink s.args.unit fun l => { l with rxFrames := l.rxFrames + 1, fails := 0 }
    exec .frameReceive s =
      .next (if (s.linkAt s.args.unit).rxFrames + 1 < 2 ^ 40 then s1 else s1.downLink s.args.unit) := by
  rw [exec_frameReceive, execFrameReceive]
  simp only [hp, hu, hok, decide_true, Bool.not_true, Bool.or_self, Bool.false_eq_true, if_false, if_true]
  by_cases h : (s.linkAt s.args.unit).rxFrames + 1 < 2 ^ 40
  · have hlim : ¬frameLimit ≤ (s.linkAt s.args.unit).rxFrames + 1 := Nat.not_le.mpr h
    rw [if_pos h, if_neg hlim]
  · have hlim : frameLimit ≤ (s.linkAt s.args.unit).rxFrames + 1 := Nat.not_lt.mp h
    rw [if_neg h, if_pos hlim]

theorem frameReceive_resends (hok : s.args.ok = false) : exec .frameReceive s = .next (
    if (s.linkAt s.args.unit).fails < 7 then
      (s.updLink s.args.unit fun l => { l with fails := l.fails + 1 }).send (.frameResend s.args.unit)
    else s.downLink s.args.unit) := by
  rw [exec_frameReceive, execFrameReceive]
  simp only [hp, hu, hok, decide_true, Bool.not_true, Bool.or_self, Bool.false_eq_true, if_false]
  by_cases h : (s.linkAt s.args.unit).fails < 7
  · rw [if_pos h, if_neg (by omega)]
  · rw [if_neg h, if_pos (by omega)]

theorem frameCountLimit_downs : ∃ t, exec .frameCountLimit s = .next t ∧ (t.linkAt s.args.unit).up = false := by
  change ∃ t, execFrameCountLimit s = .next t ∧ _
  simp only [execFrameCountLimit, hp, hu, decide_true, Bool.not_true, Bool.or_self, Bool.false_eq_true, if_false]
  exact ⟨_, rfl, by rw [linkAt_downLink _ hp]⟩

end

/-! ## This device as a target (R88, R89, R91) -/

theorem remoteRequest_serves (s : State) (h : domainOf s.args.req.fromSys = domainOf s.sysNum) :
    exec .remoteRequest s = .next (s.serveRemote s.args.req) := by
  change execRemoteRequest s = _
  simp [execRemoteRequest, h]

theorem crossDomainMessage_serves (s : State) (h : domainOf s.args.req.fromSys ≠ domainOf s.sysNum)
    (hm : s.args.req.kind = .message) : exec .crossDomainMessage s = .next (s.serveRemote s.args.req) := by
  change execCrossDomainMessage s = _
  simp [execCrossDomainMessage, h, hm]

section
variable {s : State} {q : RemoteReq}

theorem serveRemote_stale (h : s.keyChecks q (piecesOf q.va.toNat (remLength q)) = .stale) :
    s.serveRemote q = s.sendAns q .staleKey := by
  rw [serveRemote, h]

theorem serveRemote_refused (h : s.keyChecks q (piecesOf q.va.toNat (remLength q)) = .refused) :
    s.serveRemote q = (s.countRefused q.world).sendAns q .remoteKey := by
  rw [serveRemote, h]

theorem serveRemote_pass (h : s.keyChecks q (piecesOf q.va.toNat (remLength q)) = .pass) :
    s.serveRemote q = (s.performRemote q).2.sendAns q (s.performRemote q).1 := by
  rw [serveRemote, h]

end

/-- A frame that goes out takes back no message. -/
theorem mem_outbox_frameOut {s : State} {m : OutMsg} (p : Nat) (h : m ∈ s.outbox) : m ∈ (s.frameOut p).outbox := by
  unfold frameOut
  dsimp only
  split
  · rw [downLink_outbox, ← updLink_links]
    exact List.mem_append_left _ h
  · rw [← updLink_links]
    exact h

theorem mem_outbox_onPlane {s : State} {m : OutMsg} (va : W64) (h : m ∈ s.outbox) : m ∈ (s.onPlane va).outbox := by
  unfold onPlane
  split
  · exact mem_outbox_frameOut _ h
  · exact h

theorem sendAns_sends (s : State) (q : RemoteReq) (a : RemoteAns) : (s.sendAns q a).outbox.contains (.remoteAns q a) = true :=
  List.contains_iff_mem.mpr (mem_outbox_onPlane q.va (by simp))

section
variable (s : State) (q : RemoteReq) (x : World) (va : Nat) (hx : s.world? q.world = some x)
include hx

theorem keyCheck_erased (hk : x.keys = none) : s.keyCheck q va = .refused := by
  simp [keyCheck, hx, hk]

theorem keyCheck_revoked (hk : x.keys.isSome = true) (hr : q.key ∈ x.revoked) : s.keyCheck q va = .stale := by
  simp [keyCheck, hx, Option.isSome_iff_ne_none.mp hk, hr]

theorem keyCheck_frozen (hk : x.keys.isSome = true) (hr : q.key ∉ x.revoked) (hf : x.frozen = true) :
    s.keyCheck q va = .refused := by
  simp [keyCheck, hx, Option.isSome_iff_ne_none.mp hk, hr, hf]

/-- A check that passes has found a block of a record that other devices may reach under the key given (R88). -/
theorem keyCheck_pass (hr : q.key ∉ x.revoked) (h : s.keyCheck q va = .pass) : x.keys.isSome = true ∧
    ∃ a off r, s.resolve q.world 0 va (if remWrites q.kind then .devWrite else .devRead) = .place (.block a off) ∧
      s.recordOf a = some r ∧ r.valid = true ∧ r.exportBit = true ∧ r.w1 = q.key := by
  rw [keyCheck, hx] at h
  dsimp only at h
  split at h
  case isTrue => cases h
  case isFalse hkeys =>
    rw [if_neg (by simpa using hr)] at h
    split at h
    case isTrue => cases h
    case isFalse =>
      split at h
      case isTrue => cases h
      case isFalse =>
        split at h
        case h_2 => cases h
        case h_1 a off hplace =>
          split at h
          case h_2 => cases h
          case h_1 r hrec =>
            split at h
            case isFalse => cases h
            case isTrue hall =>
              obtain ⟨⟨hvalid, hexport⟩, hkey⟩ : (r.valid = true ∧ r.exportBit = true) ∧ r.w1 = q.key := by
                simpa using hall
              exact ⟨by simpa [Option.isSome_iff_ne_none] using hkeys, a, off, r, hplace, hrec, hvalid, hexport, hkey⟩

end

/-! ## This device as the requester (R206, R261) -/

section
variable (s : State) (b w id t : Nat) (va : W64)

theorem remoteAnswer_loads (bs : List Byte) (h : AMap.get? s.remote s.args.id = some (.load b w id t va))
    (ha : s.args.ans = .ok bs) : exec .remoteAnswer s = .next (
      { s with remote := AMap.erase s.remote s.args.id, planes := AMap.erase s.planes s.args.id }.updWarp b w
        fun x => { x with loads := AMap.modify x.loads id fun l => l.answer t (loadWords l.signed (l.forward t bs)) }) := by
  change execRemoteAnswer s = _
  simp only [execRemoteAnswer, h, ha]

theorem remoteAnswer_stale (h : AMap.get? s.remote s.args.id = some (.load b w id t va) ∨
      AMap.get? s.remote s.args.id = some (.acc b w id t va)) (ha : s.args.ans = .staleKey) :
    exec .remoteAnswer s = .next (
      { s with remote := AMap.erase s.remote s.args.id, planes := AMap.erase s.planes s.args.id }.updWarp b w
        fun x => { x with rstatus := true }) := by
  change execRemoteAnswer s = _
  rcases h with h | h <;> simp only [execRemoteAnswer, h, ha]

end

theorem forward_length (l : PendLoad) (t : Nat) (bs : List Byte) : (l.forward t bs).length = bs.length := by
  simp [PendLoad.forward]

theorem forward_byte (l : PendLoad) (t : Nat) (bs : List Byte) (j : Nat) (hj : j < bs.length) : (l.forward t bs).getD j 0#8 =
    ((l.own.find? fun o => o.1 == t && o.2.1 == j).map fun o => o.2.2).getD (bs.getD j 0#8) := by
  rw [List.getD_eq_getElem _ _ (by rwa [forward_length])]
  simp only [PendLoad.forward, List.getElem_map, List.getElem_range]
  cases l.own.find? fun o => o.1 == t && o.2.1 == j <;> rfl

/-! ## Collectives: the instruction (R456 to R458) -/

/-- What coll finds where it hands its collective to the engine, in the order in which it looks (R458). -/
structure CollPasses (e : Env) (va n : Nat) (bs hd gb : List Byte) (s s1 s2 s3 s4 : State) : Prop where
  aligned : va % 64 = 0
  desc : s.devRead e.blk.world e.blk.ctx (BitVec.ofNat 64 va) 64 = (.ok bs, s1)
  head : s1.devRead e.blk.world e.blk.ctx (BitVec.ofNat 64 (CollDesc.ofBytes bs).group) 64 = (.ok hd, s2)
  count : n = bits (leWord hd 0 8) 12 0
  least : 2 ≤ n
  most : n ≤ 4096
  record : s2.devRead e.blk.world e.blk.ctx (BitVec.ofNat 64 (CollDesc.ofBytes bs).group) (64 + 4 * n) = (.ok gb, s3)
  fields : (CollDesc.ofBytes bs).ok n = true
  clean : groupClean n gb = true
  domain : ∀ i, i ∈ groupMembers n gb → domainOf i = domainOf s.sysNum
  self : ((groupMembers n gb).filter fun i => i == s.sysNum).length = 1
  pages : s3.collPages e.blk.world e.blk.ctx (CollDesc.ofBytes bs) n = .ok false
  room : s3.collCount e.blk.world < 64
  start : s3.startColl e.blk (CollDesc.ofBytes bs) (groupMembers n gb) (leWord gb 8 8) = .ok s4

theorem CollPasses.act {e : Env} {va n : Nat} {bs hd gb : List Byte} {s s1 s2 s3 s4 : State}
    (h : CollPasses e va n bs hd gb s s1 s2 s3 s4) : e.collAct va s = .ok s4 := by
  have hrange : ¬(n < 2 ∨ 4096 < n) := by have := h.least; have := h.most; omega
  have hdom : ((groupMembers n gb).any fun m => domainOf m != domainOf s.sysNum) = false := by
    simpa [List.any_eq_false] using h.domain
  have hroom : ¬s3.collCount e.blk.world ≥ 64 := Nat.not_le.mpr h.room
  simp only [Env.collAct, h.aligned, h.desc, h.head, ← h.count, hrange, h.record, h.fields, h.clean, hdom, h.self,
    h.pages, hroom, h.start, bne_self_eq_false, Bool.not_true, Bool.or_self, Bool.false_eq_true, if_false]

/-! ## Collectives: the engine (R92 to R94) -/

theorem collectiveComplete_writes (s : State) (x : Coll) (own : List Byte) (s1 s2 : State)
    (hx : AMap.get? s.colls s.args.id = some x) (hn : s.args.contribs.length = x.members.length)
    (hl : ∀ c, c ∈ s.args.contribs → c.length = x.len) (hr : s.devRead x.world x.ctx x.src x.len = (.ok own, s1))
    (hw : s1.devWrite x.world x.ctx x.dst (collResult x (s.args.contribs.set x.self own)) = (none, s2)) :
    let s3 := (s2.devAtomic x.world x.ctx x.sig fun v => v + (2 ^ 64 - 1)).2
    exec .collectiveComplete s = .next { s3 with colls := AMap.erase s3.colls s.args.id } := by
  have hwhole : (s.args.contribs.length == x.members.length && s.args.contribs.all fun c => c.length == x.len) = true := by
    simpa [hn] using hl
  change execCollectiveComplete s = _
  simp only [execCollectiveComplete, hx, hwhole, hr, hw, Bool.not_true, Bool.false_eq_true, if_false]

theorem collResult_gather {x : Coll} (ds : List (List Byte)) (h : x.op = 6) : collResult x ds = ds.flatten := if_pos h

theorem collResult_broadcast {x : Coll} (ds : List (List Byte)) (h : x.op = 7) : collResult x ds = ds.getD x.root [] := by
  simp [collResult, h]

/-- Two members combine in one step. -/
theorem collResult_pair {x : Coll} (a b : List Byte) (h : x.op < 6) : collResult x [a, b] = collPair x.op x.ty a b := by
  have h6 : x.op ≠ 6 := by omega
  have h7 : x.op ≠ 7 := by omega
  have hpow : collPow [a, b].length = 2 := show collPow 2 = 2 by decide
  have hfold : collFold x.op x.ty [a, b] = [a, b] := by
    rw [collFold, hpow]
    rfl
  rw [collResult, if_neg h6, if_neg h7, hfold]
  rfl

/-- One of several pieces of equal length that stand in a row. -/
theorem flatten_piece (k : Nat) (l : List (List Byte)) (h : ∀ x, x ∈ l → x.length = k) (i : Nat) (hi : i < l.length) :
    (l.flatten.drop (k * i)).take k = l[i] := by
  induction l generalizing i with
  | nil => simp at hi
  | cons x l ih =>
    obtain ⟨hx, hl⟩ := List.forall_mem_cons.mp h
    cases i with
    | zero => simp [← hx]
    | succ i =>
      rw [List.flatten_cons, Nat.mul_succ, Nat.add_comm, ← hx, List.drop_length_add_append, hx]
      exact ih hl i (Nat.lt_of_succ_lt_succ hi)

theorem collElem_pos (ty : Nat) : 0 < collElem ty := by
  unfold collElem
  split <;> omega

/-- Each element of a combination is that of the two elements, cut to its size. -/
theorem collPair_element (op ty : Nat) (a b : List Byte) (i : Nat) (h : collElem ty * (i + 1) ≤ a.length) :
    leWord (collPair op ty a b) (collElem ty * i) (collElem ty) =
      collCombine op ty (leWord a (collElem ty * i) (collElem ty)) (leWord b (collElem ty * i) (collElem ty)) %
        2 ^ (8 * collElem ty) := by
  have hi : i < a.length / collElem ty := by
    rw [Nat.lt_iff_add_one_le, Nat.le_div_iff_mul_le (collElem_pos ty), Nat.mul_comm]
    exact h
  rw [leWord, collPair, flatten_piece (collElem ty) _ (by simp [leBytes_len]) i (by simpa using hi), List.getElem_map,
    List.getElem_range, leNat_leBytes, show 256 = 2 ^ 8 by norm_num, ← pow_mul]

theorem collectiveLinkTimeout_fails (s : State) (x : Coll) (t : Nat) (hx : AMap.get? s.colls s.args.id = some x)
    (hd : x.linkDown = some t) (ht : t + 100000 < s.now) :
    exec .collectiveLinkTimeout s = .next (s.failColl s.args.id 1 s.args.m) := by
  change execCollectiveLinkTimeout s = _
  simp only [execCollectiveLinkTimeout, hx, hd, Nat.not_le.mpr ht, if_false]

theorem collectiveFailure_fails (s : State) (h2 : 2 ≤ s.args.n) (h4 : s.args.n ≤ 4) :
    exec .collectiveFailure s = .next (s.failColl s.args.id s.args.n s.args.m) := if_pos ⟨h2, h4⟩

theorem drawBytes_length (s : State) (n : Nat) : (s.drawBytes n).1.length = n := by
  simp only [drawBytes, List.length_append, List.length_take, List.length_replicate]
  omega

end Sys2Proof.Machine

namespace Sys2Proof.Claim
open Machine State

theorem coll_starts (d a b c : BitVec 8) (lit : BitVec 24) (va n : Nat) (bs hd gb : List Byte) (s1 s2 s3 s4 : State) :
    Does (.coll d a b c lit) (fun e _ s => s.feature e.blk.world 7 = true ∧ isS a = true ∧ aligned a 2 = true ∧
      e.inTry = false ∧ e.pread a 0 = .ok va ∧ CollPasses e va n bs hd gb s s1 s2 s3 s4) fun _ _ _ => s4 := by
  refine does_of _ (fun _ => rfl) fun e l s hwf h => ?_
  obtain ⟨hfeat, ha, hal, htry, hva, hpass⟩ := h
  rw [LaneSpec.run_pass (s1 := s) (by simp [LaneSpec.featOff, hfeat]) (by simp [hwf, ha, hal]) rfl rfl (by simp [htry])
    (by simp) rfl (.inl rfl)]
  simp [hva, hpass.act]

/-- Settles O48: frames, this device as a target, the answers that it waits for, and a collective from its instruction to its
completion or failure. -/
theorem fabricAnswers : Obligations.FabricAnswers := by
  refine ⟨frameReceive_counts, frameReceive_resends, frameCountLimit_downs,
    fun s _ hp => ⟨frameOut_counts s hp, frameOut_last s hp⟩, remoteRequest_serves, crossDomainMessage_serves,
    fun _ _ => ⟨serveRemote_stale, serveRemote_refused, serveRemote_pass⟩, sendAns_sends,
    fun s q x va hx => ⟨keyCheck_erased s q x va hx, keyCheck_revoked s q x va hx, keyCheck_frozen s q x va hx⟩,
    keyCheck_pass, remoteAnswer_loads, fun l t bs j hj => ⟨forward_length l t bs, forward_byte l t bs j hj⟩,
    remoteAnswer_stale, ?coll, collectiveComplete_writes,
    fun _ ds => ⟨collResult_gather ds, collResult_broadcast ds, fun a b h hds => hds ▸ collResult_pair a b h⟩,
    fun op ty a b i _ => collPair_element op ty a b i, collectiveLinkTimeout_fails, collectiveFailure_fails, ?fails⟩
  case coll =>
    intro d a b c lit va bs hd gb n s1 s2 s3 s4 s e l s0 pc hi hw h
    obtain ⟨hfeat, ha, hal, htry, hva, h64, hdesc, hhead, hn, hleast, hmost, hrec, hfields, hclean, hdom, hself, hpages, hroom,
      hstart⟩ := h
    have hpass : CollPasses e va n bs hd gb s0 s1 s2 s3 s4 :=
      ⟨h64, hdesc, hhead, hn, hleast, hmost, hrec, hfields, hclean, hdom, hself, hpages, hroom, hstart⟩
    exact coll_starts d a b c lit va n bs hd gb s1 s2 s3 s4 s e l s0 pc hi hw ⟨hfeat, ha, hal, htry, hva, hpass⟩
  case fails =>
    intro s id cause step x hx
    refine ⟨_, (s.drawBytes (collOut x.op x.members.length x.len)).2, rfl, drawBytes_length s _, ?_⟩
    rw [failColl, hx]

end Sys2Proof.Claim
end

section
/-! PROOFS. Blocks that stop and go on, and a debugger's requests (R96, R111, R112, R195, R206, R209, R210, R215, R220 to R225). -/

namespace Sys2Proof.Machine
open State

/-! ## What giving quarters back leaves -/

namespace State

/-- An emptied quarter changes nothing but itself. -/
theorem emptied_quarters (s : State) (q : Nat) : { s with quarters := (s.emptied q).quarters } = s.emptied q := by
  unfold emptied
  split <;> rfl

/-- Updates that change the quarters alone do so together. -/
theorem foldl_quarters {α : Type} (f : State → α → State) (hf : ∀ s a, { s with quarters := (f s a).quarters } = f s a)
    (l : List α) (s : State) : { s with quarters := (l.foldl f s).quarters } = l.foldl f s := by
  induction l generalizing s with
  | nil => rfl
  | cons a l ih => rw [List.foldl_cons, ← ih (f s a), ← hf s a]

theorem leaveQuarters_quarters (s : State) (b : Nat) (qs : List Nat) :
    { s with quarters := (s.leaveQuarters b qs).quarters } = s.leaveQuarters b qs :=
  foldl_quarters _ (fun s q => by rw [← emptied_quarters]; rfl) qs s

theorem returnQuarters_quarters (s : State) (w : Nat) :
    { s with quarters := (s.returnQuarters w).quarters } = s.returnQuarters w :=
  foldl_quarters _ emptied_quarters _ s

@[simp] theorem returnQuarters_world? (s : State) (v w : Nat) : (s.returnQuarters v).world? w = s.world? w := by
  rw [← returnQuarters_quarters]
  rfl

@[simp] theorem returnQuarters_lines (s : State) (w : Nat) : (s.returnQuarters w).lines = s.lines := by
  rw [← returnQuarters_quarters]

theorem leaveQuarters_worlds (s : State) (b : Nat) (qs : List Nat) : (s.leaveQuarters b qs).worlds = s.worlds := by
  rw [← leaveQuarters_quarters]

theorem leaveQuarters_blocks (s : State) (b : Nat) (qs : List Nat) : (s.leaveQuarters b qs).blocks = s.blocks := by
  rw [← leaveQuarters_quarters]

end State

/-! ## The service of a fault (R209, R210) -/

section
variable {s s1 : State} {k : Block} (hk : s.block? s.args.block = some k)
include hk

theorem faultServiceDone_resumes (hs : k.service.isSome = true) (hr : k.run = .halted)
    (hall : State.serviceAll s.args.block k.faults s = (s1, none)) (hdue : ∀ p, p ∈ k.warps → p.2.due = false) :
    exec .faultServiceDone s = .next (s1.resumeBlock s.args.block) := by
  have hrest : (k.warps.any fun p => p.2.due && !(warpFoci s.args.block p.1 p.2).isEmpty) = false :=
    List.any_eq_false.mpr fun p hp => by simp [hdue p hp]
  have hserved : k.service.isNone = false := by simpa using hs
  change execFaultServiceDone s = _
  simp only [execFaultServiceDone, hk, hserved, hr, hall, hrest]
  rfl

theorem faultServiceDone_ends {f : FaultRec} (hs : k.service.isSome = true) (hr : k.run ≠ .ended)
    (hall : State.serviceAll s.args.block k.faults s = (s1, some f)) :
    exec .faultServiceDone s = .next (s1.terminate s.args.block f true) := by
  have hserved : k.service.isNone = false := by simpa using hs
  change execFaultServiceDone s = _
  simp [execFaultServiceDone, hk, hserved, hr, hall]

theorem stallLimitExpiry_saves {x : World} (hx : s.world? k.world = some x) (hr : k.run = .halted)
    (hs : k.service.isSome = true) (ht : k.haltedAt + x.stall * 1000 < s.now) :
    exec .stallLimitExpiry s = .next (s.updBlock s.args.block fun k => { k with run := .saving }) := by
  change execStallLimitExpiry s = _
  simp [execStallLimitExpiry, State.stallNs, hk, hx, hr, hs, ht]

/-! ## Saving (R220 to R223) -/

theorem forcedSave_acts {x : World} {cause : Cause} {t : Nat} (hp : k.preempt = some (cause, t))
    (hx : s.world? k.world = some x) (ht : t + x.deadline * 1000 ≤ s.cycles) (h1 : k.run ≠ .saving) (h2 : k.run ≠ .saved)
    (h3 : k.run ≠ .ended) : exec .forcedSave s = .next (if cause = .cancel
      then s.terminate s.args.block { code := fcCancel, wid := 0, pc := 0#64, addr := 0#64 } false
      else s.beginSave s.args.block 256) := by
  have hlate : ¬ s.cycles < t + x.deadline * 1000 := Nat.not_lt.mpr ht
  change execForcedSave s = _
  simp only [execForcedSave, hk, hp, hx, hlate, if_false]
  cases hr : k.run with
  | saving => exact absurd hr h1
  | saved => exact absurd hr h2
  | ended => exact absurd hr h3
  | running => cases cause <;> rfl
  | halted => cases cause <;> rfl
  | broken _ => cases cause <;> rfl

/-- The block of a completed save. -/
theorem saveComplete_saves (hr : k.run = .saving)
    (hw : ∀ p, p ∈ k.warps → p.2.loads = [] ∧ p.2.accs = [] ∧ p.2.due = false)
    (hc : ∀ c, c ∈ s.copies → c.2.block ≠ s.args.block) : ∃ t, exec .saveComplete s = .next t ∧
      t.block? s.args.block = some { k with
        warps := k.warps.map fun p => (p.1, p.2.forSave (k.genOf p.1))
        weft := k.weft.map fun y => { y with mmas := AMap.mapVals y.mmas fun l => l.map fun m => { m with tile := [] } }
        preempt := none
        run := match k.preempt with
          | some (.cancel, _) => .ended
          | _ => .saved
        savedAt := s.now
        quarters := [] } := by
  have hrest : s.atRest s.args.block k = true := by
    simp only [State.atRest, Warp.skidLeft, Bool.and_eq_true, List.all_eq_true]
    refine ⟨fun p hp => ?_, fun c hcm => by simpa using hc c hcm⟩
    obtain ⟨hl, ha, hd⟩ := hw p hp
    simp [hl, ha, hd]
  change ∃ t, execSaveComplete s = .next t ∧ _
  simp only [execSaveComplete, hk, hr, hrest]
  refine ⟨_, rfl, ?_⟩
  rw [block?_updBlock, if_pos rfl, State.block?, leaveQuarters_blocks, ← State.block?, block?_updBlock, if_pos rfl, hk]
  rcases hp : k.preempt with _ | ⟨_ | _, _⟩ <;> rfl

end

theorem forSave_keeps (gen : Nat) (x : Warp) (h : x.region = none) : (x.forSave gen).rmap = x.rmap ∧
    (x.forSave gen).phys = x.phys ∧ (x.forSave gen).sregs = x.sregs ∧ (x.forSave gen).preds = x.preds ∧
    (x.forSave gen).flags = x.flags ∧ (x.forSave gen).quota = x.quota ∧ (x.forSave gen).due = false := by
  simp [Warp.forSave, h]

/-! ## Resuming (R224, R225) -/

theorem blockResume_takes {s : State} {k : Block} {qs : List Nat} {seats : List Seat} (hk : s.block? s.args.block = some k)
    (hr : k.run = .saved) (hs : k.service = none) (hcore : s.args.unit < 512) (hfirst : s.firstSaved s.args.block k = true)
    (hplace : s.placing k.world = true) (hopen : s.coreOpen s.args.unit none = true)
    (hfit : s.fitCore k.need s.args.unit = some (qs, seats)) (hacts : k.acts = []) :
    exec .blockResume s = .next ((s.updBlock s.args.block fun k =>
      { k.regenerate (qs.map s.nextGen) qs seats with acts := [] }).takeQuarters s.args.block k.part qs) := by
  change execBlockResume s = _
  simp [execBlockResume, hk, hr, hs, Nat.not_le.mpr hcore, hfirst, hplace, hopen, hfit, hacts]

theorem regenerate_runs (k : Block) (gens qs : List Nat) (seats : List Seat) (h : k.brk = none) :
    (k.regenerate gens qs seats).run = .running ∧ (k.regenerate gens qs seats).gens = gens ∧
    (k.regenerate gens qs seats).quarters = qs ∧ (k.regenerate gens qs seats).scratch = k.scratch ∧
    (k.regenerate gens qs seats).retired = k.retired := by
  simp [Block.regenerate, h]

/-! ## Translations (R215) -/

theorem translationWalk_keeps {s : State} {x : Ctx} {p l : Nat} {e : BitVec 128} (hx : s.ctx? s.args.world s.args.ctx = some x)
    (ho : (s.quarter s.args.unit).owner = s.args.world) (hl : walk x.pt s.args.addr.toNat = .leaf p l e) :
    exec .translationWalk s = .next (s.updQuarter s.args.unit fun q =>
      let u := (s.args.world, s.args.ctx, s.args.addr.toNat / pageBytes l, leafSize l)
      { q with tcache := ((q.tcache.filter fun v => v != u) ++ [u]).drop (q.tcache.length - 255) }) := by
  change execTranslationWalk s = _
  simp [execTranslationWalk, hx, ho, hl]

/-! ## A debugger's requests (R96, R111, R112, R195) -/

theorem exec_debuggerWrite (s : State) : exec .debuggerWrite s = execDebuggerWrite s := rfl

/-- A request that the policy opens reaches a halted block. -/
theorem debuggerWrite_reaches {s : State} {k : Block} (hk : s.block? s.args.block = some k) (hr : k.run = .halted)
    (hb : debugOfWorld s.args.debug = false)
    (ho : s.policyOpen k.world (debugFeature s.args.debug) s.args.tag = true) :
    exec .debuggerWrite s = .next (s.debugBlock s.args.block k) := by
  simp [exec_debuggerWrite, execDebuggerWrite, hb, hk, hr, ho]

theorem debuggerWrite_writes {s : State} {k k1 : Block} {n : Nat} (hk : s.block? s.args.block = some k) (hr : k.run = .halted)
    (hf : debugFeature s.args.debug = n) (hn : n = 1 ∨ n = 3) (ho : s.policyOpen k.world n s.args.tag = true)
    (hw : k.debug s.args.debug = some k1) :
    exec .debuggerWrite s = .next ((s.updBlock s.args.block fun _ => k1).send (.success [])) := by
  subst hf
  cases hd : s.args.debug
  case reg | ureg | scratch | acc =>
    rw [debuggerWrite_reaches hk hr (by rw [hd]; rfl) ho]
    simp only [State.debugBlock, hd] at hw ⊢
    rw [hw]
    rfl
  all_goals simp [hd, debugFeature] at hn

theorem debuggerWrite_reads {s : State} {k : Block} {bs : List Byte} {n : Nat} (hk : s.block? s.args.block = some k)
    (hr : k.run = .halted) (hf : debugFeature s.args.debug = n) (hn : n = 0 ∨ n = 2)
    (ho : s.policyOpen k.world n s.args.tag = true) (hb : k.debugRead s.args.debug = some bs) :
    exec .debuggerWrite s = .next (s.send (.success bs)) := by
  subst hf
  cases hd : s.args.debug
  case readReg | readUreg | readScratch | readAcc | readFlags | readSticky =>
    rw [debuggerWrite_reaches hk hr (by rw [hd]; rfl) ho]
    simp only [State.debugBlock, hd] at hb ⊢
    rw [hb]
    rfl
  all_goals simp [hd, debugFeature] at hn

theorem debuggerWrite_steps {s : State} {k : Block} (hk : s.block? s.args.block = some k) (hr : k.run = .halted)
    (hd : s.args.debug = .singleStep) (ho : s.policyOpen k.world 6 s.args.tag = true) :
    exec .debuggerWrite s =
      .next ((s.updWarp s.args.block s.args.warp fun x => { x with due := true }).send (.success [])) := by
  rw [debuggerWrite_reaches hk hr (by rw [hd]; rfl) (by rw [hd]; exact ho)]
  simp only [State.debugBlock, hd]

theorem debuggerWrite_refuses {s : State} {k : Block} (hk : s.block? s.args.block = some k)
    (hb : debugOfWorld s.args.debug = false)
    (h : k.run = .running ∨ s.policyOpen k.world (debugFeature s.args.debug) s.args.tag = false) :
    exec .debuggerWrite s = .next (s.send .unsupportedRequest) := by
  rcases h with h | h <;> simp [exec_debuggerWrite, execDebuggerWrite, hb, hk, h]

theorem debuggerWrite_counterClosed {s : State} {n : Nat} (hd : s.args.debug = .counter n)
    (hc : s.policyOpen s.args.world 7 s.args.tag = false) :
    exec .debuggerWrite s = .next (s.send (.success (List.replicate 8 0#8))) := by
  simp [exec_debuggerWrite, execDebuggerWrite, State.debugWorld, hd, debugOfWorld, debugFeature, hc]

theorem policyOpen_iff {s : State} {w n : Nat} {tag : HostTag} {x : World} (hx : s.world? w = some x) :
    s.policyOpen w n tag = true ↔ x.popen.getLsbD n = true ∧ (tag.tbit = false → x.popen.getLsbD 15 = true) ∧
      (tag.tbit = true → x.tstate ≠ .unlocked ∧ tag.stream.isSome = true ∧ tag.stream = x.stream) := by
  cases ht : tag.tbit
  case false => simp [State.policyOpen, World.admits, hx, ht]
  case true => simp [State.policyOpen, World.admits, hx, ht, and_assoc, and_comm (b := x.popen.getLsbD n = true)]

end Sys2Proof.Machine

namespace Sys2Proof.Claim
open Machine

/-- Settles O44: the service of a fault, translations, saving and resuming, and a debugger's requests. -/
theorem blocksStopAndResume : Obligations.BlocksStopAndResume := by
  refine ⟨fun _ _ _ => faultServiceDone_resumes, fun _ _ _ _ hk => faultServiceDone_ends hk, fun _ _ _ hk hx => stallLimitExpiry_saves hk hx,
    fun _ _ _ _ _ => translationWalk_keeps, fun _ _ _ _ _ hk hp hx => forcedSave_acts hk hp hx, ?saved, forSave_keeps,
    fun _ _ _ _ => blockResume_takes, regenerate_runs, fun _ _ _ _ => debuggerWrite_writes,
    fun _ _ _ _ => debuggerWrite_reads, fun _ _ => debuggerWrite_steps, fun _ _ => debuggerWrite_refuses,
    fun _ _ => debuggerWrite_counterClosed, fun _ _ _ _ _ => policyOpen_iff⟩
  case saved =>
    intro s k b hk hr hw hc
    obtain ⟨t, ht, hb⟩ := saveComplete_saves hk hr hw hc
    refine ⟨t, ht, _, hb, rfl, rfl, rfl, fun u hu => by rw [hu], fun hu => ?_, rfl, rfl, rfl, rfl, rfl, rfl, rfl, rfl⟩
    rcases hp : k.preempt with _ | ⟨_ | _, u⟩
    · rfl
    · rfl
    · exact absurd hp (hu u)

end Sys2Proof.Claim
end

section
/-! PROOFS. What accesses of memory, updates of queues and the end of a collective leave of an interface: its keys, the sweeps
it has asked for, and whether it quiesces or is frozen (R69, R77, R101, R117). -/

namespace Sys2Proof.Machine

/-- An interface reduced to the fields that ERROR clears (R101). -/
def World.trust (x : World) : World :=
  { keys := x.keys, sweeps := x.sweeps, quiescing := x.quiescing, quiesceOver := x.quiesceOver, frozen := x.frozen }

namespace State

def trust (s : State) (w : Nat) : Option World := (s.world? w).map World.trust

theorem trust_of_worlds {s t : State} (h : t.worlds = s.worlds) (w : Nat) : t.trust w = s.trust w := by
  rw [trust, trust, world?, world?, h]

theorem trust_updWorld (s : State) (v w : Nat) {f : World → World} (hf : ∀ x, (f x).trust = x.trust) :
    (s.updWorld v f).trust w = s.trust w := by
  rw [trust, trust, world?, world?, updWorld_worlds, AMap.get?_modify]
  split
  case isTrue h => subst h; cases AMap.get? s.worlds w <;> simp [hf]
  case isFalse => rfl

@[simp] theorem trust_ite (c : Prop) [Decidable c] (s t : State) (w : Nat) :
    (if c then s else t).trust w = if c then s.trust w else t.trust w := apply_ite (fun u : State => u.trust w) c s t

@[simp] theorem trust_updCtx (s : State) (v c w : Nat) (f : Ctx → Ctx) : (s.updCtx v c f).trust w = s.trust w :=
  trust_updWorld s v w fun _ => rfl
@[simp] theorem trust_updSlot (s : State) (v k w : Nat) (f : PairSlot → PairSlot) : (s.updSlot v k f).trust w = s.trust w :=
  trust_updWorld s v w fun _ => rfl
@[simp] theorem trust_updQueue (s : State) (v q w : Nat) (f : Queue → Queue) : (s.updQueue v q f).trust w = s.trust w :=
  trust_updWorld s v w fun _ => rfl
@[simp] theorem trust_updPort (s : State) (c w : Nat) (f : Port → Port) : (s.updPort c f).trust w = s.trust w := rfl
theorem trust_mem (s : State) (m : Memory) (w : Nat) : ({ s with mem := m } : State).trust w = s.trust w := rfl
@[simp] theorem trust_setLine (s : State) (a : BAcc) (l : Line) (w : Nat) : (s.setLine a l).trust w = s.trust w := rfl
@[simp] theorem trust_send (s : State) (m : OutMsg) (w : Nat) : (s.send m).trust w = s.trust w := rfl

/-! ## The ports (R44 to R52, R69 to R79) -/

theorem setMeta_worlds (s : State) (l : BlkRef) (m : MetaEnt) : (s.setMeta l m).worlds = s.worlds := by
  unfold setMeta
  dsimp only
  split <;> rfl

@[simp] theorem trust_setMeta (s : State) (l : BlkRef) (m : MetaEnt) (w : Nat) : (s.setMeta l m).trust w = s.trust w :=
  trust_of_worlds (setMeta_worlds s l m) w

@[simp] theorem trust_poisonBlock (s : State) (l : BlkRef) (w : Nat) : (s.poisonBlock l).trust w = s.trust w :=
  trust_setMeta s l _ w

theorem trust_countMacErr (s : State) (v w : Nat) : (s.countMacErr v).trust w = s.trust w :=
  trust_updWorld s v w fun _ => rfl

@[simp] theorem trust_integrityFail (s : State) (a : BAcc) (w : Nat) : (s.integrityFail a).trust w = s.trust w :=
  (trust_countMacErr (s.poisonBlock a.loc) a.world w).trans (trust_poisonBlock s a.loc w)

@[simp] theorem trust_moveRefs (s : State) (v : Nat) (o n : MetaEnt) (w : Nat) : (s.moveRefs v o n).trust w = s.trust w := by
  unfold moveRefs
  dsimp only
  split
  · rfl
  · simp

@[simp] theorem trust_reencrypt (s : State) (a : BAcc) (r : TRec) (w : Nat) : (s.reencrypt a r).trust w = s.trust w := by
  unfold reencrypt
  dsimp only
  split
  · rfl
  · split
    · exact trust_poisonBlock _ _ w
    · exact trust_integrityFail s a w
    · rfl
    · split
      · rfl
      · exact (trust_mem (s.setMeta a.loc _) _ w).trans (trust_setMeta s _ _ w)

@[simp] theorem trust_advanceSweep (s : State) (v c i p w : Nat) : (s.advanceSweep v c i p).trust w = s.trust w := by
  unfold advanceSweep
  split
  · rfl
  · exact trust_updCtx _ _ _ w _

@[simp] theorem trust_sweepUnder (s : State) (a : BAcc) (w : Nat) : (s.sweepUnder a).trust w = s.trust w := by
  unfold sweepUnder
  split
  · rfl
  · split <;> simp

@[simp] theorem trust_portRead (s : State) (a : BAcc) (w : Nat) : (s.portRead a).2.trust w = s.trust w := by
  rw [← trust_sweepUnder s a w]
  unfold portRead
  dsimp only
  split
  · rfl
  · rfl
  · exact trust_integrityFail _ a w
  · split
    · rfl
    · split
      · rfl
      · split
        · rfl
        · exact trust_updSlot _ _ _ w _

@[simp] theorem trust_portRequest (s : State) (l : BlkRef) (n cls w : Nat) : (s.portRequest l n cls).trust w = s.trust w := by
  unfold portRequest
  generalize physBlocks l n = bs
  induction bs generalizing s with
  | nil => rfl
  | cons b bs ih => exact (ih _).trans (trust_updPort s _ w _)

@[simp] theorem trust_fill (s : State) (a : BAcc) (w : Nat) : (s.fill a).2.trust w = s.trust w := by
  unfold fill
  split
  · rfl
  · rw [← trust_portRead s a w]
    rcases s.portRead a with ⟨_ | d, s1⟩ <;> exact (trust_portRequest _ _ _ _ w).trans (trust_setLine _ _ _ w)

@[simp] theorem trust_putBlock (s : State) (a : BAcc) (v : RView) (n p : Nat) (d : List Byte) (b : Bool) (w : Nat) :
    (s.putBlock a v n p d b).trust w = s.trust w := by
  have stored (m o : MetaEnt) : ((s.setMeta a.loc m).moveRefs a.world o m).trust w = s.trust w := by simp
  unfold putBlock
  dsimp only
  split
  · split
    · exact trust_poisonBlock s _ w
    · exact stored _ _
  · exact stored _ _

@[simp] theorem trust_encodeBlock (s : State) (x : Nat) (v : RView) (d : List Byte) (w : Nat) :
    (s.encodeBlock x v d).2.trust w = s.trust w := by
  unfold encodeBlock countMismatch
  dsimp only
  split
  · rfl
  · split
    · dsimp only
      split <;> simp
    · split
      · split <;> simp
      · simp

@[simp] theorem trust_storeAs (s : State) (a : BAcc) (v : RView) (d : List Byte) (r : Option (Nat × List Byte)) (w : Nat) :
    (s.storeAs a v d r).2.trust w = s.trust w := by
  unfold storeAs
  split <;> split <;> simp

@[simp] theorem trust_portWrite (s : State) (a : BAcc) (d : List Byte) (w : Nat) : (s.portWrite a d).2.trust w = s.trust w := by
  unfold portWrite
  dsimp only
  split <;> simp

/-! ## Accesses of the device (R22, R50, R131) -/

@[simp] theorem trust_readPlace (s : State) (v c : Nat) (p : Place) (n w : Nat) :
    (s.readPlace v c p n).2.trust w = s.trust w := by
  unfold readPlace
  split
  case h_5 a _ =>
    rw [← trust_fill s a w]
    dsimp only
    split <;> rfl
  all_goals rfl

@[simp] theorem trust_windowStore (s : State) (v c o : Nat) (bs : List Byte) (w : Nat) :
    (s.windowStore v c o bs).trust w = s.trust w := by
  unfold windowStore
  dsimp only
  split <;> simp

@[simp] theorem trust_patchPlace (s : State) (v c : Nat) (t : Touched) (p : Place) (bs : List Byte) (w : Nat) :
    (s.patchPlace v c t p bs).2.trust w = s.trust w := by
  unfold patchPlace
  split
  case h_3 => exact trust_windowStore s v c _ bs w
  case h_5 a _ => exact trust_fill s a w
  all_goals rfl

@[simp] theorem trust_settle (s : State) (t : Touched) (w : Nat) : (s.settle t).2.trust w = s.trust w := by
  induction t generalizing s with
  | nil => rfl
  | cons x t ih =>
    obtain ⟨k, a, old, offs⟩ := x
    unfold settle
    split
    · exact ih s
    · rename_i l hl
      dsimp only
      split
      · simp [ih]
      · split
        · simp [ih]
        · rw [← trust_portWrite s a (l.heal offs).data w]
          split <;> simp [*]

@[simp] theorem trust_writePlaces (s : State) (v c : Nat) (ws : List (Place × List Byte)) (w : Nat) :
    (s.writePlaces v c ws).2.trust w = s.trust w := by
  have patches (t : Touched) : (ws.foldl (fun (acc : Touched × State) p => acc.2.patchPlace v c acc.1 p.1 p.2)
      (t, s)).2.trust w = s.trust w := by
    induction ws generalizing t s with
    | nil => rfl
    | cons x ws ih => rw [List.foldl_cons]; exact (ih _ _).trans (trust_patchPlace s v c t x.1 x.2 w)
  unfold writePlaces
  exact (trust_settle _ _ w).trans (patches [])

@[simp] theorem trust_atomicPlace (s : State) (v c : Nat) (p : Place) (n : Nat) (f : Nat → Option Nat) (w : Nat) :
    (s.atomicPlace v c p n f).2.trust w = s.trust w := by
  rw [← trust_readPlace s v c p n w]
  unfold atomicPlace
  rcases s.readPlace v c p n with ⟨_ | bs, s1⟩
  · rfl
  · dsimp only
    split
    · rfl
    · rename_i u _
      rw [← trust_writePlaces s1 v c [(p, leBytes n u)] w]
      rcases s1.writePlaces v c [(p, leBytes n u)] with ⟨_ | e, s2⟩ <;> rfl

theorem trust_devReadPieces (v c : Nat) (k : AccKind) (ps : List (Nat × Nat)) (s : State) (w : Nat) :
    (devReadPieces v c k ps s).2.trust w = s.trust w := by
  induction ps generalizing s with
  | nil => rfl
  | cons p ps ih =>
    obtain ⟨va, n⟩ := p
    unfold devReadPieces
    split
    · rfl
    · split
      case h_4 q _ _ =>
        rw [← trust_readPlace s v c q n w]
        rcases s.readPlace v c q n with ⟨_ | bs, s1⟩
        · rfl
        · rw [← ih s1]
          dsimp only
          rcases devReadPieces v c k ps s1 with ⟨_ | _, s2⟩ <;> rfl
      all_goals rfl

@[simp] theorem trust_devRead (s : State) (v c : Nat) (va : W64) (n w : Nat) : (s.devRead v c va n).2.trust w = s.trust w :=
  trust_devReadPieces v c _ _ s w

theorem trust_devWritePieces (v c : Nat) (k : AccKind) (ps : List (Nat × Nat)) (bs : List Byte) (s : State) (w : Nat) :
    (devWritePieces v c k ps bs s).2.trust w = s.trust w := by
  induction ps generalizing s bs with
  | nil => rfl
  | cons p ps ih =>
    obtain ⟨va, n⟩ := p
    unfold devWritePieces
    split
    · rfl
    · split
      case h_4 q _ _ =>
        rw [← trust_writePlaces s v c [(q, bs.take n)] w]
        rcases s.writePlaces v c [(q, bs.take n)] with ⟨_ | e, s1⟩
        · exact ih _ s1
        · rfl
      all_goals rfl

@[simp] theorem trust_devWrite (s : State) (v c : Nat) (va : W64) (bs : List Byte) (w : Nat) :
    (s.devWrite v c va bs).2.trust w = s.trust w :=
  trust_devWritePieces v c _ _ bs s w

@[simp] theorem trust_devAtomic (s : State) (v c : Nat) (va : W64) (f : Nat → Nat) (w : Nat) :
    (s.devAtomic v c va f).2.trust w = s.trust w := by
  unfold devAtomic
  split
  · rfl
  · split
    · rfl
    · split
      case h_4 p _ _ =>
        rw [← trust_atomicPlace s v c p 8 (fun v => some (f v)) w]
        rcases s.atomicPlace v c p 8 _ with ⟨_ | _, s1⟩ <;> rfl
      all_goals rfl

/-! ## Queues and signals (R88, R101, R131 to R134) -/

@[simp] theorem trust_updLink (s : State) (p : Nat) (f : Link → Link) (w : Nat) : (s.updLink p f).trust w = s.trust w := by
  unfold updLink
  split <;> rfl

@[simp] theorem trust_downLink (s : State) (p w : Nat) : (s.downLink p).trust w = s.trust w := trust_updLink s p _ w

@[simp] theorem trust_onPlane (s : State) (va : W64) (w : Nat) : (s.onPlane va).trust w = s.trust w := by
  unfold onPlane frameOut
  split
  · dsimp only
    split <;> simp
  · rfl

@[simp] theorem trust_sendRemote (s : State) (who : RemWait) (q : RemoteReq) (w : Nat) :
    (s.sendRemote who q).trust w = s.trust w := trust_onPlane _ _ w

@[simp] theorem trust_updateSignal (s : State) (v c : Nat) (va : W64) (who : RemWait) (set : Bool) (x : W64) (w : Nat) :
    (s.updateSignal v c va who set x).2.trust w = s.trust w := by
  unfold updateSignal
  split
  · rfl
  · split
    · rfl
    · split
      case h_3 => exact trust_sendRemote s _ _ w
      case h_4 p _ _ =>
        rw [← trust_atomicPlace s v c p 8 (fun old => some (if set then x.toNat else (old + x.toNat) % 2 ^ 64)) w]
        rcases s.atomicPlace v c p 8 _ with ⟨_ | _, s1⟩ <;> rfl
      all_goals rfl

@[simp] theorem trust_setSignal (s : State) (v c : Nat) (va : W64) (set : Bool) (x : W64) (w : Nat) :
    (s.setSignal v c va set x).trust w = s.trust w := by
  unfold setSignal
  split <;> simp

@[simp] theorem trust_putEntryTail (s : State) (v q w : Nat) : (s.putEntryTail v q).2.trust w = s.trust w := by
  unfold putEntryTail
  split
  · rfl
  · rename_i x _
    rw [← trust_devRead s v 0 (s.entryAddr v q + 0x10#64) 8 w]
    rcases s.devRead v 0 (s.entryAddr v q + 0x10#64) 8 with ⟨_ | l, s1⟩
    · rfl
    · dsimp only
      rw [← trust_devWrite s1 v 0 (s1.entryAddr v q + 0x10#64) (leBytes 8 (entryMid (leNat l)) ++ x.entryTail) w]
      rcases s1.devWrite v 0 _ _ with ⟨_ | _, s2⟩ <;> rfl

@[simp] theorem trust_abortQueue (s : State) (v q : Nat) (cause : BitVec 8) (w : Nat) :
    (s.abortQueue v q cause).trust w = s.trust w := by
  unfold abortQueue stopQueue
  split
  · rfl
  · split
    · split <;> simp
    · rfl

@[simp] theorem trust_syncEntry (s : State) (v q w : Nat) : (s.syncEntry v q).trust w = s.trust w := by
  rw [← trust_putEntryTail s v q w]
  unfold syncEntry
  split
  · split <;> simp [*]
  · simp [*]

@[simp] theorem trust_startPkt (s : State) (v q : Nat) (l : List Byte) (f : Pkt → Pkt) (w : Nat) :
    (s.startPkt v q l f).trust w = s.trust w := by
  unfold startPkt
  simp

@[simp] theorem trust_settleDisable (s : State) (v q w : Nat) : (s.settleDisable v q).trust w = s.trust w := by
  unfold settleDisable
  split
  · rfl
  · split <;> simp

@[simp] theorem trust_complete (s : State) (v q : Nat) (x : Queue) (p : Pkt) (code detail : BitVec 8) (w : Nat) :
    (s.complete v q x p code detail).trust w = s.trust w := by
  unfold complete
  by_cases hc : p.compsig = 0#64 <;> simp [hc]

theorem trust_takeAllValid (v q n : Nat) (s : State) (w : Nat) : (takeAllValid v q n s).trust w = s.trust w := by
  induction n generalizing s with
  | zero => rfl
  | succ n ih =>
    have starts (x : Queue) (l : List Byte) (s1 : State) : (if x.head.isNone && pktBit l 0 != x.phase then s1
        else takeAllValid v q n (s1.startPkt v q l fun p => { p with result := some (pcIfaceError, 0#8) })).trust w =
          s1.trust w := by
      split
      · rfl
      · rw [ih, trust_startPkt]
    unfold takeAllValid
    split
    · rfl
    · rename_i x _
      cases hx : x.head with
      | some l => simpa [hx] using starts x l s
      | none =>
        dsimp only
        rw [← trust_devRead s v x.ctx (x.ring + BitVec.ofNat 64 (128 * x.ridx)) 128 w]
        rcases s.devRead v x.ctx _ 128 with ⟨_ | l, s1⟩
        · rfl
        · simpa [hx] using starts x l s1

theorem trust_completeAll (v q n : Nat) (s : State) (w : Nat) : (completeAll v q n s).trust w = s.trust w := by
  induction n generalizing s with
  | zero => rfl
  | succ n ih =>
    unfold completeAll
    split
    · rfl
    · split <;> simp [ih]

@[simp] theorem trust_errorQueue (s : State) (v q w : Nat) : (s.errorQueue v q).trust w = s.trust w := by
  unfold errorQueue
  split
  · rfl
  · rename_i x _
    have taken : (if x.st = .active ∨ x.st = .aborted then takeAllValid v q (2 ^ x.log2n) s else s).trust w = s.trust w := by
      split
      · exact trust_takeAllValid v q _ s w
      · rfl
    dsimp only
    split
    · rw [trust_updQueue, taken]
    · rw [trust_putEntryTail, trust_completeAll, trust_updQueue, taken]

@[simp] theorem trust_drawWord (s : State) (w : Nat) : s.drawWord.2.trust w = s.trust w := rfl

@[simp] theorem trust_drawBytes (s : State) (n w : Nat) : (s.drawBytes n).2.trust w = s.trust w := rfl

@[simp] theorem trust_failColl (s : State) (id cause step w : Nat) : (s.failColl id cause step).trust w = s.trust w := by
  unfold failColl
  split
  · rfl
  · refine Eq.trans (trust_devAtomic _ _ _ _ _ w) ?_
    simp

/-- What updates that leave every interface so leave of it together. -/
theorem foldl_trust {α : Type} (f : State → α → State) (w : Nat) (hf : ∀ s a, (f s a).trust w = s.trust w) (l : List α)
    (s : State) : (l.foldl f s).trust w = s.trust w := by
  induction l generalizing s with
  | nil => rfl
  | cons a l ih => rw [List.foldl_cons, ih, hf]

end State
end Sys2Proof.Machine
end

section
/-! PROOFS. Requests of the host: the aperture, registers, configuration, ERROR, the debug policy, RESYNC and the call ring's
registers (R96 to R98, R100, R101, R103, R112, R116, R217 to R219). -/

namespace Sys2Proof.Machine
open State Claim

theorem world?_updWorld (s : State) (v w : Nat) (f : World → World) :
    (s.updWorld v f).world? w = if w = v then (s.world? v).map f else s.world? w := by
  simp [State.world?, AMap.get?_modify]

/-- An update of one interface. -/
theorem updWorld_onlyWorld {s : State} {w : Nat} {x : World} (f : World → World) (hx : s.world? w = some x) :
    OnlyWorld w s (s.updWorld w f) ∧ (s.updWorld w f).world? w = some (f x) := by
  refine ⟨⟨rfl, fun v hv => ?_⟩, ?_⟩
  · rw [world?_updWorld, if_neg hv]
  · rw [world?_updWorld, if_pos rfl, hx, Option.map_some]

theorem lockedIn_iff (x : World) : x.lockedIn = true ↔ x.tstate = .locked ∨ x.tstate = .run := by simp [World.lockedIn]

theorem lockedIn_eq_false {x : World} (h : x.tstate = .unlocked ∨ x.tstate = .error) : x.lockedIn = false := by
  rcases h with h | h <;> simp [World.lockedIn, h]

/-! ## ERROR (R101) -/

namespace State

/-- Of what the steps of R101 clear, nothing that follows in them gives any back. -/
theorem trust_errorSteps (s : State) (w : Nat) :
    (s.errorSteps w).trust w = (((s.killBlocks w).dropWork w).world? w).map fun _ => {} := by
  unfold errorSteps
  dsimp only
  rw [foldl_trust (fun s (c : Nat × Coll) => (s.drawWord.2).failColl c.1 2 (s.drawWord.1.toNat % 256)) w
      (fun s c => by simp), foldl_trust (fun s q => s.errorQueue w q) w (fun s q => trust_errorQueue s w q w),
    trust, world?_updWorld, if_pos rfl, Option.map_map]
  rfl

theorem errorSteps_clears {s : State} {w : Nat} {y : World} (hy : (s.errorSteps w).world? w = some y) : y.trust = {} := by
  have h := trust_errorSteps s w
  rw [trust, hy, Option.map_some] at h
  obtain ⟨_, -, h⟩ := Option.map_eq_some_iff.mp h.symm
  exact h.symm

theorem enterError_locked {s : State} {w cause : Nat} {x : World} (hx : s.world? w = some x)
    (hl : x.tstate = .locked ∨ x.tstate = .run) : s.enterError w cause =
      ((s.errorSteps w).updWorld w fun x => { x with tstate := .error, ecause := cause }).returnQuarters w := by
  rw [enterError, hx]
  exact if_pos ((lockedIn_iff x).mpr hl)

theorem enterError_other {s : State} {w cause : Nat} {x : World} (hx : s.world? w = some x)
    (hl : x.tstate = .unlocked ∨ x.tstate = .error) : s.enterError w cause = s := by
  rw [enterError, hx]
  exact if_neg (by simp [lockedIn_eq_false hl])

theorem enterError_leaves {s : State} {w cause : Nat} {x y : World} (hx : s.world? w = some x)
    (hl : x.tstate = .locked ∨ x.tstate = .run) (hy : (s.enterError w cause).world? w = some y) :
    y.tstate = .error ∧ y.ecause = cause ∧ y.keys = none ∧ y.sweeps = [] ∧ y.quiescing = false ∧ y.frozen = false := by
  rw [enterError_locked hx hl, returnQuarters_world?, world?_updWorld, if_pos rfl] at hy
  obtain ⟨z, hz, rfl⟩ := Option.map_eq_some_iff.mp hy
  have hclear := errorSteps_clears hz
  exact ⟨rfl, rfl, congrArg World.keys hclear, congrArg World.sweeps hclear, congrArg World.quiescing hclear,
    congrArg World.frozen hclear⟩

end State

theorem ideStreamFailure_errs (s : State) : exec .ideStreamFailure s = .next (s.enterError s.args.world 2) := rfl
theorem keyStoreError_errs (s : State) : exec .keyStoreError s = .next (s.enterError s.args.world 3) := rfl

/-! ## The aperture (R98) -/

theorem apertureOpen_of {s : State} {w : Nat} {t : HostTag} {x : World} {va n : Nat} (h : Admitted s w t x) (hc : x.conf = false)
    (hn : va + n ≤ 2 ^ 36) : s.apertureOpen x t va n = true := by
  simp only [State.apertureOpen, h.2.1, admits_of h, hc, apertureBytes, hn]
  rfl

theorem hostMemoryRead_reads (s : State) (x : World) (h : Admitted s s.args.world s.args.tag x) (hc : x.conf = false)
    (hn : s.args.addr.toNat + s.args.n ≤ 2 ^ 36) : exec .hostMemoryRead s =
      .next (State.hostRead s.args.world s.args.addr s.args.n (s.args.n / 65536 + 3) s) := by
  have ⟨hx, _, herr, _⟩ := h
  change execHostMemoryRead s = _
  simp only [execHostMemoryRead, hx, apertureOpen_of h hc hn, herr]
  rfl

theorem hostMemoryWrite_writes (s : State) (x : World) (h : Admitted s s.args.world s.args.tag x) (hc : x.conf = false)
    (hn : s.args.addr.toNat + s.args.bytes.length ≤ 2 ^ 36) : exec .hostMemoryWrite s =
      .next (State.hostWrite s.args.world s.args.addr s.args.bytes (s.args.bytes.length / 65536 + 3) s) := by
  have ⟨hx, _, herr, _⟩ := h
  change execHostMemoryWrite s = _
  simp only [execHostMemoryWrite, hx, apertureOpen_of h hc hn, herr]
  rfl

theorem hostRead_ok (s : State) (w : Nat) (va : W64) (n fuel : Nat) (bs : List Byte) (s1 : State)
    (h : s.devRead w 0 va n = (.ok bs, s1)) : State.hostRead w va n (fuel + 1) s = s1.send (.success bs) := by
  rw [State.hostRead, h]

theorem hostWrite_ok (s : State) (w : Nat) (va : W64) (bs : List Byte) (fuel : Nat) (s1 : State)
    (h : s.devWrite w 0 va bs = (none, s1)) : State.hostWrite w va bs (fuel + 1) s = s1 := by
  rw [State.hostWrite, h]

theorem hostMemory_confidential (s : State) (x : World) (hx : s.world? s.args.world = some x) (hc : x.conf = true) :
    exec .hostMemoryRead s = .next (s.send .unsupportedRequest) ∧
    exec .hostMemoryWrite s = .next (s.send .unsupportedRequest) := by
  have hshut (va n : Nat) : s.apertureOpen x s.args.tag va n = false := by simp [State.apertureOpen, hc]
  constructor
  · change execHostMemoryRead s = _
    simp only [execHostMemoryRead, hx, hshut]
    rfl
  · change execHostMemoryWrite s = _
    simp only [execHostMemoryWrite, hx, hshut]
    rfl

/-! ## Registers (R26, R97, R103) -/

/-- A write to an LK field: before lock it sets the field, after lock it is the cause of ERROR. -/
theorem registerWrite_lkField {s : State} {x y : World} (hw : s.args.world ≠ 0) (h : Admitted s s.args.world s.args.tag x)
    (hy : x.writeLk s.args.n s.args.value = some y) : exec .registerWrite s =
      .next (if x.lockedIn then s.enterError s.args.world 1 else s.updWorld s.args.world fun _ => y) := by
  change execRegisterWrite s = _
  simp only [execRegisterWrite, if_neg hw, vfWrite_of h, hy]

theorem registerWrite_mcGo {s : State} (hw : s.args.world = 0) (hb : s.bootReady = true) (hn : s.args.n = 0x108)
    (hv : s.args.value.getLsbD 0 = true) (hm : s.mcBusy = false) (ha : s.mcAddr.toNat % 512 = 0) :
    exec .registerWrite s = .next { s with
      mcBusy := true, mcResult := none, mcAt := s.mcAddr
      mcCmd := if s.args.reach = .ok then s.hostMem.readBytes s.mcAddr.toNat 512 else [] } := by
  change execRegisterWrite s = _
  simp [execRegisterWrite, hw, hb, hn, State.pfWrite, hv, hm, ha, mcBytes]

theorem bootStatus_toNat (s : State) : s.bootStatus.toNat = (if s.bootReady then 2 ^ 31 else 0) +
    (if s.bootFailed then 2 ^ 30 else 0) + s.bootCause.toNat * 2 ^ 16 + s.bootStage % 256 := by
  have hc := s.bootCause.isLt
  rw [State.bootStatus, BitVec.toNat_ofNat, Nat.mod_eq_of_lt]
  split <;> split <;> omega

theorem registerRead_mcDone {s : State} (hb : s.bootReady = true) : ∃ v, s.registerRead 0 0x110 = some v ∧
    v.toNat = s.mcDone.toNat * 2 ^ 32 + if s.mcBusy then 1 else 0 := by
  have hd := s.mcDone.isLt
  refine ⟨BitVec.ofNat 64 (s.mcDone.toNat * 2 ^ 32 + if s.mcBusy then 1 else 0), ?_, ?_⟩
  · simp [State.registerRead, State.pfRead, hb]
  · rw [BitVec.toNat_ofNat, Nat.mod_eq_of_lt]
    split <;> omega

theorem registerRead_early {s : State} (hb : s.bootReady = false) {off : Nat} (ho : off ≠ 0) :
    s.registerRead 0 off = none := by
  simp [State.registerRead, State.pfRead, hb, ho]

theorem registerRead_mc {s : State} (hb : s.bootReady = true) : s.registerRead 0 0x100 = some s.mcAddr ∧
    s.registerRead 0 0x108 = some 0#64 := by
  simp [State.registerRead, State.pfRead, hb]

theorem registerRead_error (s : State) (w : Nat) (x : World) (off : Nat) (hw : w ≠ 0) (hx : s.world? w = some x)
    (he : x.tstate = .error) : s.registerRead w off =
      some (if off = 0 then BitVec.ofNat 64 (x.ecause * 256 + 3) else BitVec.allOnes 64) := by
  by_cases h : off = 0 <;> simp [State.registerRead, hw, hx, he, h]

/-! ## Configuration space (R100) -/

theorem exec_configWrite (s : State) : exec .configWrite s = execConfigWrite s := rfl

theorem configWrite_early (s : State) (hb : s.bootReady = false) :
    exec .configWrite s = .next (s.send .unsupportedRequest) := by
  simp [exec_configWrite, execConfigWrite, hb]

namespace State

theorem confWrite_locked {s : State} {w : Nat} {x : World} (hx : s.world? w = some x)
    (hl : x.tstate = .locked ∨ x.tstate = .run) (g : FnConf → FnConf) : s.confWrite w g = s.enterError w 1 := by
  simp [confWrite, hx, (lockedIn_iff x).mpr hl]

theorem confWrite_other {s : State} {w : Nat} {x : World} (hx : s.world? w = some x)
    (hl : x.tstate = .unlocked ∨ x.tstate = .error) (g : FnConf → FnConf) :
    s.confWrite w g = { s with fns := AMap.set s.fns w (g (AMap.getD s.fns w {})) } := by
  simp [confWrite, hx, lockedIn_eq_false hl, fnConf]

theorem confChange_changes {s : State} {w : Nat} {g : FnConf → FnConf} (h : g (AMap.getD s.fns w {}) ≠ AMap.getD s.fns w {}) :
    s.confChange w g = s.confWrite w g := if_neg h

end State

section
variable {s : State} {x : World} (hb : s.bootReady = true) (hx : s.world? s.args.world = some x)
include hb hx

theorem configWrite_lkField (hc : s.args.cfg = .lkField) : exec .configWrite s = .next (s.enterError s.args.world 1) := by
  simp [exec_configWrite, execConfigWrite, hb, hx, hc]

theorem configWrite_bar (hc : s.args.cfg = .bar) :
    exec .configWrite s = .next (s.confWrite s.args.world fun c => { c with bar := s.args.value }) := by
  simp [exec_configWrite, execConfigWrite, hb, hx, hc]

theorem configWrite_memSpace (hc : s.args.cfg = .memSpace)
    (hn : (AMap.getD s.fns s.args.world {}).memSpace ≠ s.args.value.getLsbD 0) :
    exec .configWrite s = .next (s.confWrite s.args.world fun c => { c with memSpace := s.args.value.getLsbD 0 }) := by
  rw [← confChange_changes fun h => hn (congrArg FnConf.memSpace h).symm]
  simp [exec_configWrite, execConfigWrite, hb, hx, hc]

theorem configWrite_busMaster (hc : s.args.cfg = .busMaster)
    (hn : (AMap.getD s.fns s.args.world {}).busMaster ≠ s.args.value.getLsbD 0) :
    exec .configWrite s = .next (s.confWrite s.args.world fun c => { c with busMaster := s.args.value.getLsbD 0 }) := by
  rw [← confChange_changes fun h => hn (congrArg FnConf.busMaster h).symm]
  simp [exec_configWrite, execConfigWrite, hb, hx, hc]

end

/-! ## Registers that a bound request alone may write (R97, R112, R116, R217) -/

theorem tOnly_of {s : State} {w : Nat} {t : HostTag} {x : World} (h : Admitted s w t x) (ht : t.tbit = true)
    (hr : x.tstate = .run) : x.tOnly t = true := by
  simp [World.tOnly, ht, (lockedIn_iff x).mpr (.inr hr), admits_of h]

theorem policyPresent_checks (s : State) (x : World) (p : List Byte) (s2 : State) (h : Admitted s s.args.world s.args.tag x)
    (ht : s.args.tag.tbit = true) (hr : x.tstate = .run) (hf : s.feature s.args.world 11 = true)
    (hp : (s.updWorld s.args.world fun x => { x with policyAddr := s.args.addr }).devRead s.args.world 0 s.args.addr 5421 =
      (.ok p, s2)) :
    let w := s.args.world
    let res := policyCheck x w p
    let s3 := s2.updWorld w fun x => { x with presult := res }
    exec .policyPresent s = .next ((if res = 0 then s3.updWorld w fun x =>
        { x with popen := BitVec.ofNat 32 (leWord p 0x30 4), policySeq := leWord p 0x28 8 + 1, policyDigest := sha384 p }
      else s3).logEvent w s.args.addr 4#8 (BitVec.ofNat 8 res)) := by
  intro w res s3
  change execPolicyPresent s = _
  simp only [execPolicyPresent, vfWrite_of h, tOnly_of h ht hr, hf, hr, policyBytes, hp]
  rfl

theorem resync_starts (s : State) (x : World) (h : Admitted s s.args.world s.args.tag x) (ht : s.args.tag.tbit = true)
    (hr : x.tstate = .run) (hs : x.bbState ≠ 0) :
    exec .resync s = .next (s.updWorld s.args.world fun x => x.resync s.args.value s.exportGen) := by
  change execResync s = _
  simp [execResync, vfWrite_of h, tOnly_of h ht hr, hr, hs]

/-- The range that RESYNC loses lies between the two counters. -/
theorem resync_lost (x : World) (v : W64) (g : Nat) :
    (x.resync v g).bbLostFirst.toNat = min v.toNat x.bbDseq.toNat ∧
    (x.resync v g).bbLostLast.toNat = max v.toNat x.bbDseq.toNat ∧
    (x.resync v g).bbDseq = (x.resync v g).bbLostLast + 1#64 := by
  have hv := v.isLt
  have hd := x.bbDseq.isLt
  refine ⟨?_, ?_, ?_⟩
  · rw [World.resync, BitVec.toNat_ofNat, Nat.mod_eq_of_lt (by omega)]
  · rw [World.resync, BitVec.toNat_ofNat, Nat.mod_eq_of_lt (by omega)]
  · exact BitVec.ofNat_add ..

theorem trusts_of {s : State} {w : Nat} {t : HostTag} {x : World} (h : Admitted s w t x) (hc : x.conf = true → t.tbit = true) :
    x.trusts t = true := by
  obtain ⟨-, -, -, hbound⟩ := h
  unfold World.trusts
  split
  case isTrue ht => obtain ⟨-, hsome, hstream⟩ := hbound ht; simp [hsome, ← hstream]
  case isFalse ht => simpa using mt hc ht

theorem tokenOf_eq (v : W64) : State.tokenOf v = v.extractLsb' 32 32 := by
  rw [State.tokenOf, BitVec.extractLsb', Nat.shiftRight_eq_div_pow]

section
variable {s : State} {x : World} (h : Admitted s s.args.world s.args.tag x) (hc : x.conf = true → s.args.tag.tbit = true)
include h hc

theorem ringWrite_of (f : World → State) : s.ringWrite f = f x := by
  rw [State.ringWrite, vfWrite_of h, if_pos (trusts_of h hc)]

theorem actionResume_writes :
    exec .actionResume s = .next (s.writeToken s.args.world (s.args.value.extractLsb' 32 32) 1) := by
  change execActionResume s = _
  rw [execActionResume, ringWrite_of h hc, tokenOf_eq]

theorem actionTerminate_writes :
    exec .actionTerminate s = .next (s.writeToken s.args.world (s.args.value.extractLsb' 32 32) 2) := by
  change execActionTerminate s = _
  rw [execActionTerminate, ringWrite_of h hc, tokenOf_eq]

theorem crtailWrite_flushes : exec .crtailWrite s = .next
    ((s.updWorld s.args.world fun x => { x with crtail := s.args.value.setWidth 32 }).flushRing 4096 s.args.world) := by
  change execCrtailWrite s = _
  rw [execCrtailWrite, ringWrite_of h hc]
  rfl

end

section
variable {s : State} {w b wid sp : Nat} {tok : BitVec 32} {k : Block} {q : Split}
  (hf : s.blocks.find? (fun p => p.2.world == w && p.2.run != .ended && (State.tokenHolder p.2 tok).isSome) = some (b, k))
  (hk : s.block? b = some k) (hr : k.run = .running) (hb : k.brk ≠ some tok)
  (hq : State.tokenHolder k tok = some (wid, sp, q))
include hf hk hr hb hq

theorem writeToken_resumes : s.writeToken w tok 1 = s.completeParked b wid sp := by
  simp [State.writeToken, hf, hr, State.actOnToken, hk, hq, hb]

theorem writeToken_terminates (hbrk : ∀ f, f ∈ k.faults → f.code ≠ fcBrk) : s.writeToken w tok 2 =
    s.terminate b { code := fcTrap, wid := wid, pc := q.pc, addr := 0#64 } true := by
  have hno : (k.faults.any fun f => f.code == fcBrk && f.wid == wid && f.pc == q.pc) = false :=
    List.any_eq_false.mpr fun f hfm => by simp [hbrk f hfm]
  have htrap : (k.brk == some tok) = false := by simpa using hb
  simp [State.writeToken, hf, hr, State.actOnToken, hk, hq, hno, htrap]

end

end Sys2Proof.Machine

namespace Sys2Proof.Claim
open Machine

/-- Settles O49: the aperture, register and configuration writes, ERROR, the policy, RESYNC and the call ring's registers. -/
theorem hostReaches : Obligations.HostReaches := by
  refine ⟨hostMemoryRead_reads, hostRead_ok, hostMemoryWrite_writes, hostWrite_ok, hostMemory_confidential, ?lkBefore, ?lkAfter,
    fun _ => registerWrite_mcGo, ?pfRegisters, registerRead_error, configWrite_early, ?config,
    fun s => ⟨ideStreamFailure_errs s, keyStoreError_errs s⟩,
    fun _ _ _ _ hx hl => ⟨State.enterError_locked hx hl, fun _ => State.enterError_leaves hx hl⟩,
    fun _ _ _ _ => State.enterError_other, policyPresent_checks, ?resync,
    fun _ _ h hc => ⟨actionResume_writes h hc, actionTerminate_writes h hc, crtailWrite_flushes h hc⟩, ?token⟩
  case lkBefore =>
    intro s x y w hw h hu hy
    rw [registerWrite_lkField hw h hy, lockedIn_eq_false (.inl hu)]
    rfl
  case lkAfter =>
    intro s x y w hw h hl hy
    rw [registerWrite_lkField hw h hy, if_pos ((lockedIn_iff x).mpr hl)]
  case pfRegisters =>
    exact fun s => ⟨⟨_, rfl, bootStatus_toNat s⟩, fun hb _ ho => registerRead_early hb ho, fun hb =>
      ⟨(registerRead_mc hb).1, (registerRead_mc hb).2, registerRead_mcDone hb⟩⟩
  case config =>
    intro s x w c b hb hx
    refine ⟨configWrite_lkField hb hx, ?_, ?_, ?_, ?_⟩
    · rintro hl (hc | ⟨hc, hn⟩ | ⟨hc, hn⟩)
      · rw [configWrite_bar hb hx hc, State.confWrite_locked hx hl]
      · rw [configWrite_memSpace hb hx hc hn, State.confWrite_locked hx hl]
      · rw [configWrite_busMaster hb hx hc hn, State.confWrite_locked hx hl]
    · intro hl hc
      rw [configWrite_bar hb hx hc, State.confWrite_other hx hl]
    · intro hl hc hn
      rw [configWrite_memSpace hb hx hc hn, State.confWrite_other hx hl]
    · intro hl hc hn
      rw [configWrite_busMaster hb hx hc hn, State.confWrite_other hx hl]
  case resync =>
    intro s x w h ht hr hs
    obtain ⟨honly, hy⟩ := updWorld_onlyWorld (fun x => x.resync s.args.value s.exportGen) h.1
    obtain ⟨hfirst, hlast, hnext⟩ := resync_lost x s.args.value s.exportGen
    exact ⟨_, _, resync_starts s x h ht hr hs, honly, hy, rfl, rfl, hfirst, hlast, hnext, rfl⟩
  case token =>
    intro s w tok act b k wid sp q hf hk hr hb hq
    exact ⟨fun ha => ha ▸ writeToken_resumes hf hk hr hb hq, fun ha hbrk => ha ▸ writeToken_terminates hf hk hr hb hq hbrk⟩

end Sys2Proof.Claim
end

section
/-! PROOFS. TDISP: the states of an interface, and the report (R100, R107, R108). -/

namespace Sys2Proof.Machine
open State Claim

/-! ## Lock and start (R100) -/

theorem exec_lockInterface (s : State) : exec .lockInterfaceRequest s = execLockInterfaceRequest s := rfl

/-- A request inside the session reaches the interface that it names. -/
theorem tdisp_reaches {s : State} {w : Nat} {x : World} (hs : s.inSession 0 = true) (hx : s.world? w = some x)
    (f : World → State) : s.tdisp w f = f x := by
  simp [State.tdisp, hs, hx]

/-- An interface once it is locked on a stream with a nonce. -/
def World.lockedOn (x : World) (w : Nat) (stream : Option Nat) (n : BitVec 256) : World :=
  let y := { x with tstate := .locked, stream := stream, nonce := n, migKey := true, policySeq := 0, popen := 0#32
                    policyDigest := [] }
  { y with report := y.reportBytes w }

theorem lockWorld_locks (s : State) (w : Nat) (stream : Option Nat) : s.lockWorld w stream =
    (s.drawNonce.1, s.drawNonce.2.updWorld w fun x => x.lockedOn w stream s.drawNonce.1) := rfl

theorem ringOk_iff (x : World) : ringOk x = true ↔ x.crbase = 0#64 ∨ 4 ≤ x.crlog2n ∧ x.crlog2n ≤ 12 := by
  simp [ringOk]

section
variable {s : State} {x : World} (hs : s.inSession 0 = true) (hx : s.world? s.args.world = some x)
include hs hx

theorem lockInterface_locks (hu : x.tstate = .unlocked) (hf : featOk x.featDrv = true)
    (hl : s.streamLive s.args.tag.stream = true) (hr : ringOk x = true) : exec .lockInterfaceRequest s =
      .next ((s.lockWorld s.args.world s.args.tag.stream).2.send (.tdispNonce s.drawNonce.1)) := by
  rw [exec_lockInterface, execLockInterfaceRequest, tdisp_reaches hs hx]
  simp only [hu, hf, hl, hr]
  rfl

theorem lockInterface_refuses
    (h : x.tstate ≠ .unlocked ∨ featOk x.featDrv = false ∨ s.streamLive s.args.tag.stream = false ∨ ringOk x = false) :
    exec .lockInterfaceRequest s = .next (s.send (.tdispError false)) := by
  rw [exec_lockInterface, execLockInterfaceRequest, tdisp_reaches hs hx]
  rcases h with h | h | h | h <;> simp [h]

theorem startInterface_starts (hl : x.tstate = .locked) (hn : s.args.nonce = x.nonce) : exec .startInterfaceRequest s =
    .next ((s.updWorld s.args.world fun x => x.startRun s.exportGen).send .tdispOk) := by
  change execStartInterfaceRequest s = _
  simp [execStartInterfaceRequest, tdisp_reaches hs hx, hl, hn]

theorem startInterface_otherNonce (hl : x.tstate = .locked) (hn : s.args.nonce ≠ x.nonce) :
    exec .startInterfaceRequest s = .next (s.send (.tdispError true)) := by
  change execStartInterfaceRequest s = _
  simp [execStartInterfaceRequest, tdisp_reaches hs hx, hl, hn]

theorem deviceInterfaceReport_locked (hl : x.tstate = .locked ∨ x.tstate = .run) :
    exec .getDeviceInterfaceReport s = .next (s.send (.tdispReport (if x.conf then 1 else 2) x.report)) := by
  change execGetDeviceInterfaceReport s = _
  simp [execGetDeviceInterfaceReport, tdisp_reaches hs hx, (lockedIn_iff x).mpr hl]

theorem deviceInterfaceReport_other (hl : x.tstate = .unlocked ∨ x.tstate = .error) :
    exec .getDeviceInterfaceReport s = .next (s.send (.tdispError false)) := by
  change execGetDeviceInterfaceReport s = _
  simp [execGetDeviceInterfaceReport, tdisp_reaches hs hx, lockedIn_eq_false hl]

end

theorem startRun_bounce (x : World) (g : Nat) :
    (x.startRun g).bbState = 1 ↔ x.featDrv.getLsbD 9 = true ∧ x.bbbase ≠ 0#64 := by
  simp [World.startRun]

/-! ## Stop (R100) -/

namespace State

theorem clearWorld_lines (s : State) (w : Nat) (p : Nat × Line) (hp : p ∈ (s.clearWorld w).lines) : p.2.world ≠ w := by
  simpa [clearWorld] using (List.mem_filter.mp hp).2

theorem clearWorld_tcaches (s : State) (w : Nat) (q : Nat × Quarter) (hq : q ∈ (s.clearWorld w).quarters)
    (t : Nat × Nat × Nat × Nat) (ht : t ∈ q.2.tcache) : t.1 ≠ w := by
  obtain ⟨r, -, rfl⟩ := List.mem_map.mp hq
  simpa using (List.mem_filter.mp ht).2

theorem stopWorld_eq {s : State} {w : Nat} {x : World} (hx : s.world? w = some x) :
    s.stopWorld w = ((if x.tstate = .error then s else s.errorSteps w).clearWorld w).returnQuarters w := by
  rw [stopWorld, hx]

theorem stopWorld_lines {s : State} {w : Nat} {x : World} (hx : s.world? w = some x) (p : Nat × Line)
    (hp : p ∈ (s.stopWorld w).lines) : p.2.world ≠ w := by
  rw [stopWorld_eq hx, returnQuarters_lines] at hp
  exact clearWorld_lines _ w p hp

end State

/-- A fresh interface with the settings of `x` that outlive its stop, and the accounts of `z`. -/
def World.renewed (x z : World) (keys : Nat) : World :=
  { keys := some keys, ctxs := [(0, {})], quarterSet := x.quarterSet, sigma := x.sigma, lambda := x.lambda, stall := x.stall
    deadline := x.deadline, quiesce := x.quiesce, sweepInterval := x.sweepInterval, allot := x.allot, deficit := z.deficit
    held := z.held }

theorem stopInterface_renews {s : State} {x : World} (hs : s.inSession 0 = true) (hx : s.world? s.args.world = some x) :
    exec .stopInterfaceRequest s = .next ((({ s.stopWorld s.args.world with freeCnt := (s.stopWorld s.args.world).freeCnt + 1 }
      : State).updWorld s.args.world fun z => x.renewed z ((s.stopWorld s.args.world).freeCnt + 1)).send .tdispOk) := by
  change execStopInterfaceRequest s = _
  rw [execStopInterfaceRequest, tdisp_reaches hs hx]
  rfl

/-! ## The report (R107) -/

theorem fit_length (n : Nat) (l : List Byte) : (fit n l).length = n := by
  simp only [fit, List.length_append, List.length_take, List.length_replicate]
  omega

theorem quarterBytes_length (qs : List Nat) : (quarterBytes qs).length = 256 := by simp [quarterBytes]

/-- A field behind a piece of a block of bytes. -/
theorem leWord_skip {a b : List Byte} {off n : Nat} (h : a.length ≤ off) :
    leWord (a ++ b) off n = leWord b (off - a.length) n := by
  rw [leWord, List.drop_append, List.drop_of_length_le h, List.nil_append, leWord]

/-- The field that a block of bytes begins with. -/
theorem leWord_head (n v : Nat) (b : List Byte) : leWord (leBytes n v ++ b) 0 n = v % 256 ^ n := by
  rw [leWord, List.drop_zero, List.take_left' (leBytes_len n v), leNat_leBytes]

theorem rangeBytes_length (l : AMap MemRange) : (l.flatMap fun r =>
    leBytes 8 r.2.base.toNat ++ leBytes 8 r.2.len.toNat ++ leBytes 8 r.2.attr).length = 24 * l.length := by
  induction l with
  | nil => rfl
  | cons r l ih =>
    rw [List.flatMap_cons, List.length_append, ih]
    simp only [List.length_append, leBytes_len, List.length_cons]
    omega

theorem reportBytes_length (x : World) (w : Nat) : (x.reportBytes w).length = 0x1d8 + 24 * x.ranges.length := by
  simp only [World.reportBytes, List.length_append, rangeBytes_length, leBytes_len, fit_length, digestOf, quarterBytes_length]

/-- The fields of a report, each at its offset. -/
theorem reportBytes_fields (x : World) (w : Nat) :
    leWord (x.reportBytes w) 0 2 = 1 ∧ leWord (x.reportBytes w) 2 1 = w % 256 ∧
    leWord (x.reportBytes w) 3 1 = (if x.conf then 1 else 0) + (if x.resumed then 2 else 0) ∧
    leWord (x.reportBytes w) 8 32 = x.nonce.toNat ∧ leWord (x.reportBytes w) 0x28 16 = x.featDrv.toNat ∧
    leWord (x.reportBytes w) 0x1c8 2 = x.sigma % 65536 ∧ leWord (x.reportBytes w) 0x1cc 4 = x.lambda % 2 ^ 32 ∧
    leWord (x.reportBytes w) 0x1d0 2 = x.ranges.length % 65536 := by
  have hflags : ((if x.conf then 1 else 0) + (if x.resumed then 2 else 0)) % 256 =
      (if x.conf then 1 else 0) + (if x.resumed then 2 else 0) := by split <;> split <;> rfl
  have hnonce : x.nonce.toNat % 256 ^ 32 = x.nonce.toNat := Nat.mod_eq_of_lt x.nonce.isLt
  have hfeat : x.featDrv.toNat % 256 ^ 16 = x.featDrv.toNat := Nat.mod_eq_of_lt x.featDrv.isLt
  simp only [World.reportBytes, List.append_assoc, digestOf]
  refine ⟨?_, ?_, ?_, ?_, ?_, ?_, ?_, ?_⟩ <;>
    simp only [leWord_skip, leBytes_len, fit_length, quarterBytes_length, leWord_head, Nat.reduceLeDiff, Nat.reduceSub,
      Nat.sub_self, le_refl, hflags, hnonce, hfeat, pow_one, show 256 ^ 2 = 65536 by norm_num, show 256 ^ 4 = 2 ^ 32 by norm_num,
      Nat.reduceMod]

end Sys2Proof.Machine

namespace Sys2Proof.Claim
open Machine

/-- Settles O50: lock, start, stop and the report, each with its refusals. -/
theorem interfacesMove : Obligations.InterfacesMove := by
  refine ⟨?lock, fun _ _ => lockInterface_refuses, ?start, fun _ _ => startInterface_otherNonce, ?stop,
    fun _ _ => deviceInterfaceReport_locked, fun _ _ => deviceInterfaceReport_other, ?report⟩
  case lock =>
    intro s x w hs hx hu hf hl hr
    obtain ⟨⟨-, hothers⟩, hy⟩ := updWorld_onlyWorld (s := s.drawNonce.2)
      (fun x => x.lockedOn w s.args.tag.stream s.drawNonce.1) hx
    exact ⟨_, _, lockInterface_locks hs hx hu hf hl ((ringOk_iff x).mpr hr), hy, rfl, rfl, rfl, rfl, rfl, rfl, rfl, rfl, rfl, rfl,
      hothers⟩
  case start =>
    intro s x w hs hx hl hn
    obtain ⟨honly, hy⟩ := updWorld_onlyWorld (fun x => x.startRun s.exportGen) hx
    exact ⟨_, _, startInterface_starts hs hx hl hn, honly, hy, rfl, rfl, startRun_bounce x s.exportGen⟩
  case stop =>
    intro s x w hs hx
    refine ⟨_, stopInterface_renews hs hx, ?_, fun p hp => State.stopWorld_lines hx p hp, fun y hy => ?_⟩
    · rw [← State.stopWorld_eq hx]
      rfl
    · rw [world?_updWorld, if_pos rfl] at hy
      obtain ⟨z, -, rfl⟩ := Option.map_eq_some_iff.mp hy
      exact ⟨rfl, rfl, rfl, rfl, rfl, rfl, rfl, rfl, rfl, rfl, rfl, rfl, rfl⟩
  case report => exact fun x w => ⟨reportBytes_length x w, reportBytes_fields x w⟩

end Sys2Proof.Claim
end

section
/-! PROOFS. SPDM: sessions, measurements, the keys of streams and of migrations (R96, R108 to R110, R117). -/

namespace Sys2Proof.Machine
open State

namespace State

/-! ## One request (R108, R109) -/

section
variable {s : State} {peer req code : Nat} {ok : Session → Bool} {pay : Session → List Byte} {f : Session → Session}
  (hb : s.bootReady = true)
include hb

theorem spdmReply_unanswered (h : s.answers peer = false) :
    s.spdmReply peer req code ok pay f = s.send (.spdmError peer) := by
  simp [spdmReply, hb, h]

theorem spdmReply_early (h : ok (AMap.getD s.sessions peer {}) = false) :
    s.spdmReply peer req code ok pay f = s.send (.spdmError peer) := by
  simp [spdmReply, hb, h]

theorem spdmReply_answers (ha : s.answers peer = true) (h : ok (AMap.getD s.sessions peer {}) = true) :
    let x := AMap.getD s.sessions peer {}
    s.spdmReply peer req code ok pay f = (s.updSession peer fun x =>
      { f x with transcript := (f x).transcript ++ [BitVec.ofNat 8 req, BitVec.ofNat 8 code] ++ pay (AMap.getD s.sessions peer {}) }).send
        (.spdm peer code (pay x)) := by
  simp [spdmReply, hb, ha, h]

end

theorem answers_iff (s : State) (peer : Nat) : s.answers peer = true ↔ peer = 0 ∨ peer - 1 < s.sysNum := by simp [answers]

theorem session_updSession (s : State) (peer p : Nat) (f : Session → Session) :
    AMap.getD (s.updSession peer f).sessions p {} =
      if p = peer then f (AMap.getD s.sessions peer {}) else AMap.getD s.sessions p {} := by
  unfold updSession AMap.getD
  rw [AMap.get?_set]
  split <;> rfl

theorem hybridSig_length (l : List Byte) : (hybridSig l).length = 64 + 3309 := by
  rw [hybridSig, List.length_append, fit_length, fit_length]

/-! ## Measurements (R110) -/

theorem measure_report {s : State} {n : Nat} {x : World} (h1 : 1 ≤ n) (h63 : n ≤ 63) (hx : s.world? n = some x) :
    s.measure (0x40 + n) = some (if x.report = [] then List.replicate 48 0#8 else sha384 x.report) := by
  rw [measure, if_neg (by omega), if_pos (by omega), Nat.add_sub_cancel_left, hx]
  simp only [List.isEmpty_iff]

theorem measure_policy {s : State} {n : Nat} {x : World} (h1 : 1 ≤ n) (h63 : n ≤ 63) (hx : s.world? n = some x) :
    s.measure (0x80 + n) = some (if x.policyDigest = [] then List.replicate 48 0#8 else x.policyDigest) := by
  rw [measure, if_neg (by omega), if_neg (by omega), if_pos (by omega), Nat.add_sub_cancel_left, hx]
  simp only [List.isEmpty_iff]

end State

theorem peerSigned_iff (x : Session) (l : List Byte) : x.peerSigned l = true ↔
    Config.signatureOk (l.take 32) (sha384 x.transcript ++ (l.drop 1984).take 64) = true ∧
    Config.signatureOk ((l.drop 32).take 1952) (sha384 x.transcript ++ ((l.drop 1984).drop 64).take 3309) = true :=
  Bool.and_eq_true_iff

/-! ## Keys of streams and of migrations (R96, R108, R117) -/

/-- A key operation that a session may ask for now: the stream's keys take their new stage. -/
theorem ideKm_moves {s : State} {stage : Nat} (hb : s.bootReady = true)
    (he : (AMap.getD s.sessions s.args.unit {}).established = true) (ha : s.args.unit = 0 ∨ s.args.unit - 1 < s.sysNum)
    (hn : s.args.n < 64) (hop : s.args.ide = .keyProg ∧ stage = 1 ∨
      s.args.ide = .setGo ∧ stage = 2 ∧ AMap.getD s.ideKeys s.args.n 0 ≠ 0) :
    ∃ t : State, exec .ideKm s = .next (t.send (.spdm s.args.unit 0x7e [BitVec.ofNat 8 stage])) ∧
      AMap.getD t.ideKeys s.args.n 0 = stage := by
  have hrun : ∃ ok : Session → Bool, ok (AMap.getD s.sessions s.args.unit {}) = true ∧ exec .ideKm s =
      .next (({ s with ideKeys := AMap.set s.ideKeys s.args.n stage } : State).spdmReply s.args.unit 0xfe 0x7e ok
        (fun _ => [BitVec.ofNat 8 stage]) id) := by
    change ∃ ok : Session → Bool, _ ∧ execIdeKm s = _
    rcases hop with ⟨hop, rfl⟩ | ⟨hop, rfl, hst⟩
    · refine ⟨fun x => x.established && decide (s.args.n < 64) && true, by simp [he, hn], ?_⟩
      simp only [execIdeKm, hop]
      rw [if_pos (by simp [he, hn])]
    · refine ⟨fun x => x.established && decide (s.args.n < 64) && AMap.getD s.ideKeys s.args.n 0 != 0, by simp [he, hn, hst], ?_⟩
      simp only [execIdeKm, hop]
      rw [if_pos (by simp [he, hn, hst])]
  obtain ⟨ok, hok, hexec⟩ := hrun
  refine ⟨_, hexec.trans (congrArg _ (State.spdmReply_answers hb ((State.answers_iff _ _).mpr ha) hok)), ?_⟩
  simp [State.updSession, AMap.getD]

theorem migrationKeyArrival_keeps {s : State} (hs : s.inSession (s.args.n + 1) = true)
    (hk : (s.args.world, s.args.n) ∉ s.migKeys) : exec .migrationKeyArrival s =
      .next { s with migKeys := s.migKeys ++ [(s.args.world, s.args.n)] } := by
  change execMigrationKeyArrival s = _
  simp [execMigrationKeyArrival, hs, hk]

end Sys2Proof.Machine

namespace Sys2Proof.Claim
open Machine

/-- Settles O51: what a request is answered, which session each needs and what it makes of it, the hybrid signatures, the keys
of a stream, the key of a migration, and the measurements of an interface. -/
theorem sessionsProve : Obligations.SessionsProve := by
  refine ⟨?reply, ?requests, ?challenge, ?exchange, peerSigned_iff, State.hybridSig_length, ?program, ?go,
    fun _ => migrationKeyArrival_keeps, fun _ _ _ h1 h63 hx => ⟨State.measure_report h1 h63 hx, State.measure_policy h1 h63 hx⟩⟩
  case reply =>
    intro s req code ok pay f peer hb x
    refine ⟨?_, ?_, fun h => State.spdmReply_early hb h⟩
    · rintro ⟨h0, hn⟩
      exact State.spdmReply_unanswered hb (by simp [State.answers, h0, hn])
    · intro h ha
      refine ⟨_, State.spdmReply_answers hb ((State.answers_iff s peer).mpr ha) h, ?_, fun p hp => ?_, rfl⟩
      · rw [State.session_updSession, if_pos rfl]
      · rw [State.session_updSession, if_neg hp]
  case requests => exact fun s => ⟨rfl, rfl, rfl, rfl, rfl, rfl, rfl, rfl, rfl, rfl⟩
  case challenge => exact fun s => ⟨_, _, rfl, drawBytes_length s 32, rfl⟩
  case exchange => exact fun s => rfl
  case program => exact fun s hb he ha hn hop => ideKm_moves hb he ha hn (.inl ⟨hop, rfl⟩)
  case go => exact fun s hb he ha hn hop hst => ideKm_moves hb he ha hn (.inr ⟨hop, rfl, hst⟩)

end Sys2Proof.Claim
end

section
/-! PROOFS. A migration that leaves (R105, R117). -/

namespace Sys2Proof.Machine
open State Claim

namespace State

theorem clearWorld_worlds (s : State) (w : Nat) : (s.clearWorld w).worlds = s.worlds := by
  have off (l : AMap Block) (s : State) : (l.foldl (fun s p => ({ s with blocks := AMap.erase s.blocks p.1 } : State).leaveQuarters
      p.1 p.2.quarters) s).worlds = s.worlds := by
    induction l generalizing s with
    | nil => rfl
    | cons p l ih => rw [List.foldl_cons, ih, leaveQuarters_worlds]
  exact off _ s

/-- A world that leaves takes its first entry off the interfaces. -/
theorem departWorld_worlds (s : State) (w : Nat) (x : World) : (s.departWorld w x).worlds = AMap.erase s.worlds w :=
  congrArg (AMap.erase · w) (clearWorld_worlds _ w)

end State

/-- A frozen world, once its pages are out, leaves at MIGRATE_OUT. -/
theorem migrateOut_departs {s : State} {b : List Byte} {x y : World}
    (h : Commanded s 7 [(0x10, 4), (0x14, 1), (0x18, 8), (0x20, 8)] false (migrateBad true b) b)
    (hx : s.world? (leWord b 2 1) = some x) (hf : x.frozen = true)
    (hy : (s.sealAll (leWord b 2 1)).world? (leWord b 2 1) = some y) :
    ∃ t, exec .migrateOut s = .next t ∧
      t.worlds = AMap.erase (s.sealAll (leWord b 2 1)).worlds (leWord b 2 1) := by
  change ∃ t, execMigrateOut s = .next t ∧ _
  rw [execMigrateOut, command_of h rfl]
  simp only [hx, hf, if_true, hy]
  exact ⟨_, rfl, departWorld_worlds _ _ y⟩

/-- The block of MIGRATE_OUT for world 1 here and world 1 of device 0 (R105). -/
def leaveBlock : List Byte := [7#8, 0#8, 1#8] ++ List.replicate 17 0#8 ++ [1#8]

/-- The command while the interfaces list world 1 twice. -/
def listedTwice : State :=
  { State.reset with
    bootReady := true, mcBusy := true, mcCmd := leaveBlock
    worlds := [(1, { tstate := .run, frozen := true }), (1, {})] }

theorem pktByte_past {b : List Byte} {i : Nat} (h : b.length ≤ i) : pktByte b i = 0 := by
  rw [pktByte, leWord, List.drop_of_length_le h]
  rfl

theorem leaveBlock_zeros (i : Nat) (h3 : 3 ≤ i) (h14 : i ≠ 0x14) : pktByte leaveBlock i = 0 := by
  have within : ∀ i < 21, 3 ≤ i → i ≠ 0x14 → pktByte leaveBlock i = 0 := by decide
  by_cases hi : i < 21
  · exact within i hi h3 h14
  · exact pktByte_past (Nat.not_lt.mp hi)

theorem leaveBlock_clean :
    mcBad leaveBlock [(0x10, 4), (0x14, 1), (0x18, 8), (0x20, 8)] false (migrateBad true leaveBlock) = [] := by
  simp only [mcBad, List.append_eq_nil_iff, List.filter_eq_nil_iff]
  refine ⟨⟨rfl, fun i hi => ?_⟩, rfl⟩
  have h3 : 3 ≤ i := by
    simp only [List.mem_append, List.mem_singleton, List.mem_map] at hi
    omega
  by_cases h14 : i = 0x14
  · simp [h14]
  · simp [leaveBlock_zeros i h3 h14]

end Sys2Proof.Machine

namespace Sys2Proof.Claim
open Machine

/-- Refutes O52 at the departure of a migration: the statement speaks of every list of interfaces, also of one that holds a
number twice. MIGRATE_OUT then takes the first entry off and the second one still answers, so that the world is not gone. -/
theorem not_commandsManage : ¬ Obligations.CommandsManage := by
  intro h
  obtain ⟨-, -, -, -, -, -, -, -, -, -, -, -, -, hout, -⟩ := h
  have hcmd : Commanded listedTwice 7 [(0x10, 4), (0x14, 1), (0x18, 8), (0x20, 8)] false (migrateBad true leaveBlock) leaveBlock :=
    ⟨rfl, rfl, rfl, rfl, rfl, leaveBlock_clean⟩
  obtain ⟨t, bytes, ht, -, hgone, -⟩ := hout listedTwice leaveBlock _ _ hcmd rfl rfl rfl
  obtain ⟨u, hu, hworlds⟩ := migrateOut_departs hcmd (x := { tstate := .run, frozen := true })
    (y := { tstate := .run, frozen := true }) rfl rfl rfl
  obtain rfl : t = u := Host.Outcome.next.inj (ht.symm.trans hu)
  rw [State.world?, hworlds] at hgone
  exact absurd hgone (by decide)

end Sys2Proof.Claim
end

section
/-! PROOFS. What each packet does (R36, R37, R77, R114, R115, R131, R133, R142, R144, R146, R162, R252). -/

namespace Sys2Proof.Machine
open Claim

/-! ## Serving (R130, R136) -/

theorem isType_iff {op : Nat} {l : List Byte} : isType op l = true ↔ pktOp l = op := by simp [isType]

namespace State
variable {s s1 : State} {w q : Nat} {x : Queue} {l : List Byte} {act : PktAct}

theorem perform_held (h : act s w q x l = (.held, s1)) : s.perform w q x l act = s1 := by rw [perform, h]

theorem perform_start {f : Pkt → Pkt} {post : State → State} (h : act s w q x l = (.start f post, s1)) :
    s.perform w q x l act = post (s1.startPkt w q l f) := by rw [perform, h]

theorem perform_done {c d : BitVec 8} (h : act s w q x l = (.done c d, s1)) :
    s.perform w q x l act = completed s1 w q l c d := perform_start h

theorem perform_abort {c d : BitVec 8} (h : act s w q x l = (.abort c d, s1)) :
    s.perform w q x l act = aborting s1 w q l c d := perform_start h

end State

/-! ## BARRIER (R133) -/

/-- Signals of which none is negative show no negative one, past their end either. -/
theorem sigNegative_getD {vs : List SigRead} (h : ∀ v ∈ vs, sigNegative v = false) (k : Nat) :
    sigNegative (vs.getD k .due) = false := by
  by_cases hk : k < vs.length
  · rw [List.getD_eq_getElem _ _ hk]
    exact h _ (List.getElem_mem hk)
  · rw [List.getD_eq_default _ _ (Nat.not_lt.mp hk)]
    rfl

theorem firstSigFault_values {vs : List SigRead} (h : ∀ v ∈ vs, ∃ n, v = .value n) : firstSigFault vs = none := by
  induction vs with
  | nil => rfl
  | cons v r ih =>
    obtain ⟨n, rfl⟩ := h v (List.mem_cons_self ..)
    exact ih fun u hu => h u (List.mem_cons_of_mem _ hu)

section
variable {s s1 : State} {w q : Nat} {x : Queue} {l : List Byte} {vs : List SigRead}
  (hr : State.readSignals w q x ((List.range (pktByte l 0x10)).map fun k => (k, pktWord l (0x18 + 8 * k))) s = (vs, s1))
  (hdue : ∀ v ∈ vs, v ≠ .due)
include hr hdue

theorem actBarrier_negative {k : Nat} (hk : k < pktByte l 0x10) (hneg : sigNegative (vs.getD k .due) = true)
    (hlow : ∀ j < k, sigNegative (vs.getD j .due) = false) :
    actBarrier s w q x l = (.abort State.pcAborted (BitVec.ofNat 8 k), s1) := by
  have hmem : SigRead.due ∉ vs := fun h => hdue _ h rfl
  have hfind : ((List.range (pktByte l 0x10)).find? fun k => sigNegative (vs.getD k .due)) = some k := by
    rw [List.find?_range_eq_some]
    exact ⟨hneg, List.mem_range.mpr hk, fun j hj => by rw [hlow j hj]; rfl⟩
  simp only [actBarrier, hr, hfind, List.contains_eq_mem, hmem]
  rfl

/-- Without a negative signal a BARRIER aborts for a fault, is released by zeros, or else waits. -/
theorem actBarrier_settled (hneg : ∀ v ∈ vs, sigNegative v = false) : actBarrier s w q x l =
    (firstSigFault vs).elim (if vs.all (· == .value 0) then (.done State.pcOk 0#8, s1)
      else (.held, s1.updQueue w q fun x => { x with remSigs := [] })) fun c => (.abort State.pcFault c, s1) := by
  have hmem : SigRead.due ∉ vs := fun h => hdue _ h rfl
  have hfind : ((List.range (pktByte l 0x10)).find? fun k => sigNegative (vs.getD k .due)) = none :=
    List.find?_eq_none.mpr fun k _ => by simp only [sigNegative_getD hneg, Bool.false_eq_true, not_false_eq_true]
  simp only [actBarrier, hr, hfind, List.contains_eq_mem, hmem]
  cases firstSigFault vs <;> rfl

end

section
variable {s s1 : State} {w q : Nat} {x : Queue} {l : List Byte} {vs : List SigRead}
  (hr : State.readSignals w q x ((List.range (pktByte l 0x10)).map fun k => (k, pktWord l (0x18 + 8 * k))) s = (vs, s1))
include hr

theorem actBarrier_fault {c : BitVec 8} (h : ∀ v ∈ vs, v ≠ .due ∧ sigNegative v = false) (hc : firstSigFault vs = some c) :
    actBarrier s w q x l = (.abort State.pcFault c, s1) := by
  rw [actBarrier_settled hr (fun v hv => (h v hv).1) fun v hv => (h v hv).2, hc, Option.elim_some]

theorem actBarrier_zeros (h : ∀ v ∈ vs, v = .value 0) : actBarrier s w q x l = (.done State.pcOk 0#8, s1) := by
  have hall : vs.all (· == .value 0) = true := by simpa using h
  rw [actBarrier_settled hr (fun v hv => by simp [h v hv]) fun v hv => by rw [h v hv]; rfl,
    firstSigFault_values fun v hv => ⟨0, h v hv⟩, Option.elim_none, if_pos hall]

theorem actBarrier_waits (h : ∀ v ∈ vs, ∃ n, v = .value n ∧ 0 ≤ n) {n : Int} (hpos : 0 < n) (hn : .value n ∈ vs) :
    actBarrier s w q x l = (.held, s1.updQueue w q fun x => { x with remSigs := [] }) := by
  have hall : ¬ vs.all (· == .value 0) = true := fun hz => by
    have : n = 0 := by simpa using List.all_eq_true.mp hz _ hn
    omega
  have hdue : ∀ v ∈ vs, v ≠ .due := fun v hv => by obtain ⟨_, rfl, -⟩ := h v hv; simp
  have hneg : ∀ v ∈ vs, sigNegative v = false := fun v hv => by obtain ⟨_, rfl, hm⟩ := h v hv; simpa [sigNegative] using hm
  rw [actBarrier_settled hr hdue hneg, firstSigFault_values fun v hv => (h v hv).imp fun _ h => h.1,
    Option.elim_none, if_neg hall]

end

/-! ## SIGNAL, TIMESTAMP and WRITE (R131) -/

/-- A signal in this device's memory is updated at once. -/
theorem updateSignal_local {s s1 : State} {w c : Nat} {va : W64} {set : Bool} {v : W64} {p : Place} {old : Nat}
    (who : RemWait) (hal : va.toNat % 8 = 0) (hlt : va.toNat < 2 ^ 56) (hp : s.resolve w c va.toNat .devWrite = .place p)
    (hloc : ∀ y tw tva key, p ≠ .remote y tw tva key)
    (ha : s.atomicPlace w c p 8 (fun old => some (if set then v.toNat else (old + v.toNat) % 2 ^ 64)) = (.ok old, s1)) :
    s.updateSignal w c va who set v = (.done, s1) := by
  rw [State.updateSignal, if_neg (by simp [hal]), if_neg (Nat.not_le.mpr hlt), hp]
  cases p with
  | remote y tw tva key => exact absurd rfl (hloc y tw tva key)
  | _ => simp only [ha]

theorem actSignal_done {s s1 : State} {w q : Nat} {x : Queue} {l : List Byte} {b : Bool}
    (hb : pktByte l 0x18 = if b then 1 else 0)
    (h : s.updateSignal w x.ctx (pktWord l 0x10) (.packet w q x.nextNo) b (pktWord l 0x20) = (.done, s1)) :
    actSignal s w q x l = (.done State.pcOk 0#8, s1) := by
  have hset : (pktByte l 0x18 == 1) = b := by cases b <;> simp [hb]
  rw [actSignal, hset, h]

theorem actWords_done {words : State → List Byte → List W64} {s s1 : State} {w q : Nat} {x : Queue} {l : List Byte}
    (h : State.storeWords w x.ctx (.packet w q x.nextNo) (pktWord l 0x10).toNat (words s l) 0 s = (0, .done, s1)) :
    actWords words s w q x l = (.done State.pcOk 0#8, s1) := by
  rw [actWords, h]
  rfl

/-! ## PHASE (R131, R142, R144) -/

theorem phaseForm_of {k : Nat} {l : List Byte} (h : pktOp l = 4 ∧ pktByte l 0x10 = k) : phaseForm k l = true := by
  simp [phaseForm, isType_iff.mpr h.1, h.2]

/-- A queue's current phase without work is completed by the OPEN that closes it. -/
theorem State.closesNow_idle {s : State} {x : Queue} {i : Nat} {p : Phase} (hi : x.curPhase = some i)
    (hp : (i, p) ∈ s.phases) (hc : p.count = 0) : s.closesNow x = 1 := by
  have hne : (s.phases.filter fun p => p.1 == i && p.2.count == 0) ≠ [] :=
    List.ne_nil_of_mem (List.mem_filter.mpr ⟨hp, by simp [hc]⟩)
  simp [closesNow, hi, hne]

theorem actPhaseOpen_opens {s : State} {w q : Nat} {x : Queue} {l : List Byte}
    (h : (s.phases.filter fun p => p.2.world == w).length < 256 ∨ (s.phases.filter fun p => p.2.world == w).length = 256 ∧
      ∃ i p, x.curPhase = some i ∧ (i, p) ∈ s.phases ∧ p.count = 0) :
    actPhaseOpen s w q x l =
      (.start (fun p => { p with result := some (State.pcOk, 0#8) }) fun s => s.openPhase w q x.ctx l, s) := by
  have hroom : ¬ 256 ≤ (s.phases.filter fun p => p.2.world == w).length - s.closesNow x := by
    rcases h with hlt | ⟨heq, i, p, hi, hp, hc⟩
    · omega
    · have := State.closesNow_idle hi hp hc
      omega
  rw [actPhaseOpen, if_neg hroom]

theorem State.queue?_updQueue (s : State) (w q : Nat) (f : Queue → Queue) :
    (s.updQueue w q f).queue? w q = (s.queue? w q).map f := by
  rw [queue?, updQueue, world?_updWorld, if_pos rfl, queue?]
  cases s.world? w with
  | none => rfl
  | some d => exact AMap.get?_modify_self d.queues q f

/-- OPEN makes one phase, under a key of its own, and that is the queue's current one. -/
theorem State.openPhase_opens (s : State) (w q ctx : Nat) (l : List Byte) :
    ∃ i, ((s.openPhase w q ctx l).phases = AMap.set (s.closePhase w q).phases i
        { world := w, ctx := ctx, queue := q, job := leWord l 0x12 2, no := leWord l 0x14 4, psig := pktWord l 0x18
          count := 0, isOpen := true }) ∧
      i = AMap.fresh (s.closePhase w q).phases ∧
      ∀ x, (s.openPhase w q ctx l).queue? w q = some x → x.curPhase = some i := by
  refine ⟨_, rfl, rfl, fun x hx => ?_⟩
  rw [openPhase, queue?_updQueue] at hx
  obtain ⟨y, -, rfl⟩ := Option.map_eq_some_iff.mp hx
  rfl

/-! ## LAUNCH and GRAPH (R146, R162, R252) -/

theorem actLaunch_launches {s s1 : State} {w q : Nat} {x : Queue} {l : List Byte} {d : LDesc} (hroom : s.dispatched x.panel < 64)
    (hd : s.readLDesc w x.ctx x.panel (pktWord l 0x10) = (.ok d, s1)) :
    let n := leWord l 0x20 4 * leWord l 0x24 4 * leWord l 0x28 4
    let y : Launch := { world := w, ctx := x.ctx, queue := q, pkt := x.nextNo, panel := x.panel, desc := d, param := pktWord l 0x18
                        total := n, left := n, phase := x.curPhase, since := s1.now, taken := s1.now }
    actLaunch s w q x l =
      (.start id id, ({ s1 with launches := AMap.set s1.launches (AMap.fresh s1.launches) y }.joinPhase x.curPhase).dropCode w) := by
  rw [actLaunch, if_neg (Nat.not_le.mpr hroom), hd]

theorem actLaunch_rejects {s s1 : State} {w q : Nat} {x : Queue} {l : List Byte} {c d : BitVec 8} (hroom : s.dispatched x.panel < 64)
    (hd : s.readLDesc w x.ctx x.panel (pktWord l 0x10) = (.error (c, d), s1)) :
    actLaunch s w q x l = (.rejected (c, d), s1) := by
  rw [actLaunch, if_neg (Nat.not_le.mpr hroom), hd]

theorem State.perform_rejected {s s1 : State} {w q : Nat} {x : Queue} {l : List Byte} {act : PktAct} {c d : BitVec 8}
    (h : act s w q x l = (.rejected (c, d), s1)) :
    s.perform w q x l act = if c = 1#8 then aborting s1 w q l c d else completed s1 w q l c d := by
  by_cases hc : c = 1#8
  · rw [if_pos hc]
    exact perform_abort (h.trans (congrArg (·, s1) (if_pos hc)))
  · rw [if_neg hc]
    exact perform_done (h.trans (congrArg (·, s1) (if_neg hc)))

/-- The world is the part of a code line's key above its place. -/
theorem codeKey_world {core v off : Nat} {a : BAcc} (hv : v < 64) (ho : off < 256) (ha : a.loc.key < 2 ^ 63) :
    State.codeKey core v a off / 2 ^ 72 % 64 = v := by
  rw [State.codeKey]
  omega

/-- A filter on keys leaves nothing under a key that it does not let through. -/
theorem get?_filter_key_false {α : Type} (m : AMap α) (keep : Nat → Bool) (i : Nat) (h : keep i = false) :
    AMap.get? (m.filter fun p => keep p.1) i = none := by
  cases hg : AMap.get? (m.filter fun p => keep p.1) i with
  | none => rfl
  | some v => simpa [h] using (List.mem_filter.mp (AMap.get?_mem hg)).2

/-- fence.code drops the lines of its world and keeps the others. -/
theorem dropCode_lines (s : State) {w v : Nat} (core off : Nat) {a : BAcc} (hv : v < 64) (ho : off < 256)
    (ha : a.loc.key < 2 ^ 63) : AMap.get? (s.dropCode w).icache (State.codeKey core v a off) =
      if v = w then none else AMap.get? s.icache (State.codeKey core v a off) := by
  have hkey := codeKey_world (core := core) hv ho ha
  by_cases hvw : v = w
  · rw [if_pos hvw]
    exact get?_filter_key_false s.icache (fun k => k / 2 ^ 72 % 64 != w) _ (by rw [hkey]; simp [hvw])
  · rw [if_neg hvw]
    exact AMap.get?_filter_key s.icache (fun k => k / 2 ^ 72 % 64 != w) _ (by rw [hkey]; simp [hvw])

theorem actGraph_starts {s s1 s2 s3 : State} {w q : Nat} {x : Queue} {l h : List Byte} {ns : List (GNode × Bool)} {placed : List GNode}
    {stop : Nat} (hroom : s.dispatched x.panel < 64) (hdesc : (pktWord l 0x10).toNat % 64 = 0)
    (hhead : s.devRead w x.ctx (pktWord l 0x10) 64 = (.ok h, s1))
    (hns : State.readNodes w x.ctx x.panel (pktWord l 0x10) (List.range (min (bits (leWord h 0x18 8) 6 0) 64)) s1 = (.ok ns, s2))
    (hplaced : placeQueues (pktWord h 0).toNat (ns.map Prod.fst) = (placed, stop)) (harena : (pktWord h 0).toNat % 4096 = 0)
    (hstatus : (pktWord h 0x10).toNat % 64 = 0) (hres : bits (leWord h 0x18 8) 63 7 = 0) (hpad : ∀ b ∈ h.drop 0x20, b = 0#8)
    (hmin : 1 ≤ bits (leWord h 0x18 8) 6 0) (hmax : bits (leWord h 0x18 8) 6 0 ≤ 64) (hok : ∀ n ∈ ns, n.2 = true)
    (hfit : stop - (pktWord h 0).toNat ≤ leWord h 8 8) (hcaps : (placed.map GNode.cap).sum ≤ 2 ^ 24)
    (hwr : s2.devWrite w x.ctx (pktWord h 0x10) (List.replicate 576 0#8) = (none, s3)) :
    let gi := AMap.fresh s3.graphs
    let nodes := (List.range placed.length).zip placed
    let src := sourceBlocks gi s3.now nodes
    let g : Graph := { world := w, ctx := x.ctx, queue := q, pkt := x.nextNo, panel := x.panel, arena := pktWord h 0
                       gstatus := pktWord h 0x10, param := pktWord l 0x18, nodes := nodes, count := src.length, phase := x.curPhase }
    actGraph s w q x l = (.start id fun s => s.settleGraph gi,
      ({ s3 with graphs := AMap.set s3.graphs gi g, readyBlks := s3.readyBlks ++ src }.joinPhase x.curPhase).dropCode w) := by
  have hall : ns.all Prod.snd = true := List.all_eq_true.mpr hok
  have hzero : (h.drop 0x20).all (· == 0#8) = true := by simpa using hpad
  have hfits : ¬ leWord h 8 8 < stop - (pktWord h 0).toNat := Nat.not_lt.mpr hfit
  have hlow : ¬ 2 ^ 24 < (placed.map GNode.cap).sum := Nat.not_lt.mpr hcaps
  rw [actGraph, if_neg (Nat.not_le.mpr hroom), if_neg (by simp [hdesc])]
  simp only [hhead, hns, hplaced, harena, hstatus, hres, hzero, hmin, hmax, hall, hfits, hlow, hwr]
  rfl

/-! ## COPY and the bounce channel (R114, R115, R131) -/

/-- The pages of a range are all translated, or the first that is not gives its fault. -/
theorem State.pagesCheck_ok {s : State} {w c : Nat} {k : AccKind} {n a stop : Nat}
    (h : ∀ f, s.pagesCheck w c k n a stop ≠ .bad f) : s.pagesCheck w c k n a stop = .ok := by
  induction n generalizing a with
  | zero => rfl
  | succ n ih =>
    rw [pagesCheck] at h ⊢
    split
    · rfl
    · rw [if_neg (by assumption)] at h
      cases hr : s.resolve w c a k with
      | fault f => exact absurd (by rw [hr]) (h f)
      | _ => exact ih fun f => by simpa [hr] using h f

theorem actCopy_copies {s : State} {w q : Nat} {x : Queue} {l : List Byte} (hroom : s.copiesOn x.panel ≤ Config.copyQueue)
    (hsrc : (pktWord l 0x10).toNat + leWord l 0x20 8 ≤ 2 ^ 56) (hdst : (pktWord l 0x18).toNat + leWord l 0x20 8 ≤ 2 ^ 56)
    (hread : s.pagesCheck w x.ctx .engineRead (leWord l 0x20 8 / 65536 + 2) (pktWord l 0x10).toNat
      ((pktWord l 0x10).toNat + leWord l 0x20 8) = .ok)
    (hwrite : s.pagesCheck w x.ctx .engineWrite (leWord l 0x20 8 / 65536 + 2) (pktWord l 0x18).toNat
      ((pktWord l 0x18).toNat + leWord l 0x20 8) = .ok) :
    let c : Copy := { world := w, ctx := x.ctx, block := 0, warp := 0, thread := 0, batch := 0, order := 0, pieces := []
                      bulk := [(pktWord l 0x10, pktWord l 0x18, leWord l 0x20 8)], pkt := some (q, x.nextNo) }
    actCopy s w q x l = (.start id id, { s with copies := AMap.set s.copies (AMap.fresh s.copies) c }) := by
  rw [actCopy, if_neg (Nat.not_lt.mpr hroom)]
  simp only [if_neg (Nat.not_lt.mpr hsrc), if_neg (Nat.not_lt.mpr hdst), hread, hwrite]

theorem bounceForm_of {out : Nat} {l : List Byte} (h : pktOp l = 7 ∧ pktByte l 0x28 = 1 + 2 * out) : bounceForm out l = true := by
  simp [bounceForm, isType_iff.mpr h.1, h.2]

theorem actBounceIn_opens {s s1 : State} {w q : Nat} {x : Queue} {l head pt : List Byte} {wd : World} (hw : s.world? w = some wd)
    (hst : wd.bbState = 1) (hhead : head = s.hostMem.readBytes (State.slotAddr wd l) 16) (hmin : 1 ≤ leWord head 8 4)
    (hmax : leWord head 8 4 ≤ 65504) (hsh : wd.shares (State.slotAddr wd l) 65536 = true)
    (hopen : gcmOpen (State.bounceKeyOf wd w) (State.bounceNonce wd.bbDseq) head
      (s.hostMem.readBytes (State.slotAddr wd l + 32) (leWord head 8 4)) (s.hostMem.readBytes (State.slotAddr wd l + 16) 16) = some pt)
    (hseq : leWord head 0 8 = wd.bbDseq.toNat) (hdir : leWord head 12 4 = 0)
    (hwr : s.devWrite w x.ctx (pktWord l 0x18) pt = (none, s1)) :
    actBounceIn s w q x l = (.done State.pcOk 0#8, s1.updWorld w fun y => { y with bbDseq := y.bbDseq + 1#64 }) := by
  simp [actBounceIn, hw, ← hhead, hmin, hmax, hsh, hopen, hst, hseq, hdir, hwr]

theorem actBounceIn_desync {s : State} {w q : Nat} {x : Queue} {l : List Byte} {wd : World} (hw : s.world? w = some wd)
    (hseq : leWord (s.hostMem.readBytes (State.slotAddr wd l) 16) 0 8 ≠ wd.bbDseq.toNat) :
    actBounceIn s w q x l = (.done State.pcDesync 0#8, s.desync w) := by
  simp only [actBounceIn, hw]
  split
  · rfl
  · rw [if_pos (by simp [hseq])]

theorem actBounceOut_sends {s s1 : State} {w q : Nat} {x : Queue} {l pt : List Byte} {wd : World} (hw : s.world? w = some wd)
    (hst : wd.bbState = 1) (hsh : wd.shares (State.slotAddr wd l) 65536 = true)
    (hrd : s.devRead w x.ctx (pktWord l 0x10) (leWord l 0x20 8) = (.ok pt, s1)) :
    let head := leBytes 8 wd.bbDseq.toNat ++ leBytes 4 (leWord l 0x20 8) ++ leBytes 4 1
    let out := gcmSeal (State.bounceKeyOf wd w) (State.bounceNonce wd.bbDseq) head pt
    actBounceOut s w q x l = (.done State.pcOk 0#8,
      { s1 with hostMem := s1.hostMem.writeBytes (State.slotAddr wd l) (head ++ out.2 ++ out.1) }.updWorld w fun y =>
        { y with bbDseq := y.bbDseq + 1#64 }) := by
  simp only [actBounceOut, hw, hst, hsh, hrd]
  rfl

/-! ## BIND (R32, R72, R77) -/

section
variable {s s1 : State} {w q : Nat} {x : Queue} {l : List Byte}

theorem actBind_writes (hf : pktByte l 0x12 = 1)
    (hb : s.bindRecord w x.ctx (leWord l 0x10 2) ((l.drop 0x18).take 32) = .ok s1) :
    actBind s w q x l = (.done State.pcOk 0#8, s1) := by
  simp [actBind, hf, hb, Nat.testBit]

theorem actBind_refused {c : BitVec 8} (hf : pktByte l 0x12 = 1)
    (hb : s.bindRecord w x.ctx (leWord l 0x10 2) ((l.drop 0x18).take 32) = .error c) :
    actBind s w q x l = (.done c 0#8, s) := by
  simp [actBind, hf, hb, Nat.testBit]

theorem actBind_writesAndSweeps (hf : pktByte l 0x12 = 3)
    (hb : s.bindRecord w x.ctx (leWord l 0x10 2) ((l.drop 0x18).take 32) = .ok s1) :
    actBind s w q x l = (.start id fun s => s.askSweep w x.ctx (leWord l 0x10 2) q x.nextNo, s1) := by
  simp [actBind, hf, hb, Nat.testBit]

theorem actBind_sweeps (hf : pktByte l 0x12 = 2) :
    actBind s w q x l = (.start id fun s => s.askSweep w x.ctx (leWord l 0x10 2) q x.nextNo, s) := by
  simp [actBind, hf, Nat.testBit]

end

/-- A sweep is asked for where the record encrypts or the world is confidential; else there is nothing to sweep. -/
theorem State.askSweep_eq {s : State} {w c i : Nat} {r : TRec} (q no : Nat) (hr : s.record? w c i = some r) :
    s.askSweep w c i q no = if r.encrypt = true ∨ s.confidential w = true
      then s.updWorld w fun d => { d with sweeps := d.sweeps ++ [(c, i, some (q, no))] }
      else s.completePkt w q no 0#8 0#8 := by
  by_cases h : r.encrypt = true ∨ s.confidential w = true
  · rw [if_pos h, askSweep, hr]
    exact if_neg (by simpa [or_iff_not_imp_left] using h)
  · rw [if_neg h, askSweep, hr]
    exact if_pos (by simpa using h)

/-! ## LOAD_PAIR (R36, R37) -/

theorem actLoadPair_loads {s s1 s2 : State} {w q : Nat} {x : Queue} {l h image : List Byte} {n : Nat × Nat × Nat × Nat} {y : PairSlot}
    (hfree : s.pairBusy w (pktByte l 0x10) = false) (hhead : s.devRead w x.ctx (pktWord l 0x18) 32 = (.ok h, s1))
    (hlens : imageLens h = some n)
    (himage : s1.devRead w x.ctx (pktWord l 0x18) (32 + 4 * n.1 + n.2.1 + 4 * n.2.2.1 + n.2.2.2) = (.ok image, s2))
    (hver : verifyImage image n = .ok y) (hstill : s2.pairBusy w (pktByte l 0x10) = false) :
    actLoadPair s w q x l = (.done State.pcOk 0#8, s2.updSlot w (pktByte l 0x10) fun _ => y) := by
  simp only [actLoadPair, hfree, hhead, hlens, himage, hver, hstill]
  rfl

theorem actUnloadPair_unloads {s : State} {w q : Nat} {x : Queue} {l : List Byte} (hfree : s.pairBusy w (pktByte l 0x10) = false) :
    actUnloadPair s w q x l = (.done State.pcOk 0#8, s.updSlot w (pktByte l 0x10) fun _ => {}) := by
  rw [actUnloadPair, hfree]
  rfl

end Sys2Proof.Machine

namespace Sys2Proof.Claim
open Machine

/-- Settles O54: a packet acts as its type says, from the spec lemma of each type and `acts_of`, which serves it. -/
theorem packetsAct : Obligations.PacketsAct := by
  refine ⟨?barrier, ?signal, ?update, ?nop, ?timestamp, ?write, ?opened, ?close, ?cancelPhase, ?cancelJob, ?opens, ?launch, ?dropCode,
    ?badLaunch, ?graph, ?copy, ?bounceIn, ?desync, ?bounceOut, ?bind, ?sweep, ?askSweep, ?load, ?unload⟩
  case barrier =>
    intro vs s1 rd form
    have serves {ok out} := acts_of (i := .barrier) (form := form) (ok := ok) (out := out) actBarrier (fun _ => rfl)
      fun l hf => isType_iff.mpr hf
    refine ⟨serves fun s x l hok _ => ?_, fun k => serves fun s x l hok _ => ?_, fun c => serves fun s x l hok _ => ?_,
      serves fun s x l hok _ => ?_⟩
    · exact State.perform_done (actBarrier_zeros hok.1 hok.2)
    · obtain ⟨hr, hdue, hk, hlen, hneg, hlow⟩ := hok
      exact State.perform_abort (actBarrier_negative hr hdue (hlen ▸ hk) hneg hlow)
    · obtain ⟨hr, hvs, -, hc⟩ := hok
      exact State.perform_abort (actBarrier_fault hr hvs hc)
    · obtain ⟨hr, hvs, ⟨n, hpos, hn⟩, -⟩ := hok
      exact State.perform_held (actBarrier_waits hr hvs hpos hn)
  case signal =>
    intro s1 b i hi
    rcases hi with ⟨rfl, rfl⟩ | ⟨rfl, rfl⟩ <;>
      exact acts_of actSignal (fun _ => rfl) (fun l hf => by simpa [isType_iff] using hf)
        fun s x l hok hf => State.perform_done (actSignal_done hf.2 hok)
  case update => exact fun s w c va who set v p old s1 hal hlt hp hloc ha => updateSignal_local who hal hlt hp hloc ha
  case nop => exact acts_of actNop (fun _ => rfl) (fun _ hf => isType_iff.mpr hf) fun _ _ _ _ _ => State.perform_done rfl
  case timestamp =>
    exact fun _ => acts_of actTimestamp (fun _ => rfl) (fun _ hf => isType_iff.mpr hf)
      fun _ _ _ hok _ => State.perform_done (actWords_done hok)
  case write =>
    exact fun _ => acts_of actWrite (fun _ => rfl) (fun _ hf => isType_iff.mpr hf)
      fun _ _ _ hok _ => State.perform_done (actWords_done hok)
  case opened =>
    exact acts_of actPhaseOpen (fun _ => rfl) (fun _ hf => phaseForm_of hf)
      fun _ _ _ hok _ => State.perform_start (actPhaseOpen_opens hok)
  case close => exact acts_of actPhaseClose (fun _ => rfl) (fun _ hf => phaseForm_of hf) fun _ _ _ _ _ => rfl
  case cancelPhase => exact acts_of actCancelPhase (fun _ => rfl) (fun _ hf => phaseForm_of hf) fun _ _ _ _ _ => rfl
  case cancelJob => exact acts_of actCancelJob (fun _ => rfl) (fun _ hf => phaseForm_of hf) fun _ _ _ _ _ => rfl
  case opens => exact State.openPhase_opens
  case launch =>
    exact fun _ _ => acts_of actLaunch (fun _ => rfl) (fun _ hf => isType_iff.mpr hf)
      fun _ _ _ hok _ => State.perform_start (actLaunch_launches hok.1 hok.2)
  case dropCode => exact fun s w core v a off _ hv => ⟨rfl, dropCode_lines s core off hv⟩
  case badLaunch =>
    exact fun _ _ _ => acts_of actLaunch (fun _ => rfl) (fun _ hf => isType_iff.mpr hf)
      fun _ _ _ hok _ => State.perform_rejected (actLaunch_rejects hok.1 hok.2)
  case graph =>
    intro h ns placed stop s1 s2 s3
    refine acts_of actGraph (fun _ => rfl) (fun _ hf => isType_iff.mpr hf) fun s x l hok _ => ?_
    obtain ⟨hroom, hdesc, hhead, hns, hplaced, harena, hstatus, hres, hpad, hmin, hmax, hclean, hfit, hcaps, hwr⟩ := hok
    exact State.perform_start (actGraph_starts hroom hdesc hhead hns hplaced harena hstatus hres hpad hmin hmax hclean hfit hcaps hwr)
  case copy =>
    refine acts_of actCopy (fun _ => rfl) (fun l hf => by simp [isType_iff, hf]) fun s x l hok _ => ?_
    obtain ⟨hroom, ⟨hsrc, hread⟩, hdst, hwrite⟩ := hok
    exact State.perform_start (actCopy_copies hroom hsrc hdst (State.pagesCheck_ok hread) (State.pagesCheck_ok hwrite))
  case bounceIn =>
    intro wd head pt s1 len
    refine acts_of actBounceIn (fun _ => rfl) (fun _ hf => bounceForm_of hf) fun s x l hok _ => ?_
    obtain ⟨hw, hst, hhead, hmin, hmax, hsh, hopen, hseq, hdir, hwr⟩ := hok
    exact State.perform_done (actBounceIn_opens hw hst hhead hmin hmax hsh hopen hseq hdir hwr)
  case desync =>
    exact fun _ => acts_of actBounceIn (fun _ => rfl) (fun _ hf => bounceForm_of hf)
      fun _ _ _ hok _ => State.perform_done (actBounceIn_desync hok.1 hok.2)
  case bounceOut =>
    intro wd pt s1
    refine acts_of actBounceOut (fun _ => rfl) (fun _ hf => bounceForm_of hf) fun s x l hok _ => ?_
    obtain ⟨hw, hst, hsh, hrd⟩ := hok
    exact State.perform_done (actBounceOut_sends hw hst hsh hrd)
  case bind =>
    intro s1 bind
    refine ⟨?_, fun c => ?_, ?_⟩ <;> refine acts_of actBind (fun _ => rfl) (fun l hf => by simp [isType_iff, hf]) fun s x l hok hf => ?_
    · exact State.perform_done (actBind_writes hf.2 hok)
    · exact State.perform_done (actBind_refused hf.2 hok)
    · exact State.perform_start (actBind_writesAndSweeps hf.2 hok)
  case sweep =>
    exact acts_of actBind (fun _ => rfl) (fun l hf => by simp [isType_iff, hf])
      fun _ _ _ _ hf => State.perform_start (actBind_sweeps hf.2)
  case askSweep => exact fun s w c i q no r hr => State.askSweep_eq q no hr
  case load =>
    intro h n image y s1 s2
    refine acts_of actLoadPair (fun _ => rfl) (fun l hf => by simp [isType_iff, hf]) fun s x l hok _ => ?_
    obtain ⟨hfree, hhead, hlens, himage, hver, hstill⟩ := hok
    exact State.perform_done (actLoadPair_loads hfree hhead hlens himage hver hstill)
  case unload =>
    exact acts_of actUnloadPair (fun _ => rfl) (fun l hf => by simp [isType_iff, hf])
      fun _ _ _ hok _ => State.perform_done (actUnloadPair_unloads hok)

end Sys2Proof.Claim
end

section
/-! PROOFS. The life of a queue, its rounds and the errors of its engine (R119 to R125, R130, R132, R134 to R136, R139 to R141). -/

namespace Sys2Proof.Machine
open Claim

/-! ## ENABLE and DISABLE (R120 to R122) -/

theorem State.dropBarrierReads_remote {s : State} {w q : Nat} {r : Nat × RemWait} (no k : Nat)
    (hr : r ∈ (s.dropBarrierReads w q).remote) : r.2 ≠ .barrier w q no k := by
  intro h
  simpa [h] using (List.mem_filter.mp hr).2

/-- The live copy that ENABLE makes of the bytes `l` of an entry, at its place among the lanes. -/
def Queue.enabled (x : Queue) (l : List Byte) (panel engine lane : Nat) : Queue :=
  { phase := true, curPhase := x.curPhase, ring := pktWord l 0, qsig := pktWord l 8, log2n := bits (leWord l 0x10 8) 19 16
    ctx := bits (leWord l 0x10 8) 11 8, st := .active, panel := panel, engine := engine, lane := lane, nextNo := x.nextNo
    started := x.started.map fun k => { k with old := true } }

theorem enable_active {s : State} {wd : World} (hw : s.world? s.args.world = some wd) (ht : wd.trusts s.args.tag = true)
    (ha : (AMap.getD wd.queues s.args.queue {}).st = .active) : exec .enable s = .next s := by
  change execEnable s = _
  rw [execEnable, hw]
  simp only [ht, ha]
  rw [if_neg (by simp), if_pos (by simp)]

section
variable {s s1 : State} {wd : World} {l : List Byte} (hw : s.world? s.args.world = some wd) (hq : s.args.queue < 64)
  (hrun : wd.tstate = .run) (ht : wd.trusts s.args.tag = true) (hst : (AMap.getD wd.queues s.args.queue {}).st ≠ .active)
  (hrd : s.devRead s.args.world 0 (s.entryAddr s.args.world s.args.queue) 64 = (.ok l, s1))
include hw hq hrun ht hst hrd

theorem enable_badEntry (hbad : s1.entryOk s.args.world l = false) : exec .enable s =
    .next (s1.enableFails s.args.world s.args.queue (AMap.getD wd.queues s.args.queue {}) State.pcBadQueue) := by
  change execEnable s = _
  rw [execEnable, hw]
  dsimp only
  rw [if_neg (by simp [ht]), if_neg (by simp [hrun, ht, hst, hq]), hrd]
  dsimp only
  rw [if_pos (by simp [hbad])]

theorem enable_places {p e lane : Nat} (hok : s1.entryOk s.args.world l = true)
    (hlane : s1.findLane s.args.world s.args.queue = some (p, e, lane)) : exec .enable s =
    .next (((s1.dropBarrierReads s.args.world s.args.queue).updWorld s.args.world fun d => { d with
      queues := AMap.set d.queues s.args.queue ((AMap.getD wd.queues s.args.queue {}).enabled l p e lane) }).syncEntry
        s.args.world s.args.queue) := by
  change execEnable s = _
  rw [execEnable, hw]
  dsimp only
  rw [if_neg (by simp [ht]), if_neg (by simp [hrun, ht, hst, hq]), hrd]
  dsimp only
  rw [if_neg (by simp [hok]), hlane]
  rfl

end

theorem State.get?_queues_of {s : State} {w q : Nat} {wd : World} {x : Queue} (hw : s.world? w = some wd)
    (hx : s.queue? w q = some x) : AMap.get? wd.queues q = some x := by
  rwa [queue?, hw] at hx

theorem disable_stops {s : State} {wd : World} {x : Queue} (hw : s.world? s.args.world = some wd)
    (hx : s.queue? s.args.world s.args.queue = some x) (hrun : wd.tstate = .run) (ht : wd.trusts s.args.tag = true)
    (hst : x.st ≠ .disabled) : exec .disable s = .next (((s.dropBarrierReads s.args.world s.args.queue).updQueue s.args.world
      s.args.queue fun x => { x with disabling := true, head := none, remSigs := [] }).settleDisable s.args.world s.args.queue) := by
  have hlive : AMap.getD wd.queues s.args.queue {} = x := by rw [AMap.getD, State.get?_queues_of hw hx, Option.getD_some]
  change execDisable s = _
  rw [execDisable, hw]
  dsimp only
  rw [hlive, if_neg (by simp [ht]), if_neg (by simp [hrun, ht, hst])]

theorem State.settleDisable_eq {s : State} {w q : Nat} {x : Queue} (hx : s.queue? w q = some x) (hd : x.disabling = true) :
    s.settleDisable w q = if x.started = [] then (s.updQueue w q fun x => { x with st := .disabled, disabling := false }).syncEntry w q
      else s := by
  rw [settleDisable, hx]
  simp only [hd, Bool.true_and, List.isEmpty_iff]

/-! ## A round (R124, R125, R130, R134 to R136) -/

/-- A round serves what its lanes took in the order of the types. -/
theorem clauseRound_sorts {s s1 : State} {ts : List (Nat × Nat × Nat)} (he : s.args.unit ≤ 8)
    (hgo : (s.engineOf s.args.unit).stopped = false) (hidle : s.liveTaken s.args.unit = [])
    (hts : State.lanesTake s.args.unit (List.range 64) s = (ts, s1)) :
    ∃ order : List (Nat × Nat × Nat), order.Perm ts ∧ order.Pairwise (fun a b => a.1 ≤ b.1) ∧
      exec .clauseRound s = .next (s1.updEngine s.args.unit fun x => { x with taken := order.map fun t => t.2 }) := by
  have : Std.Total fun a b : Nat × Nat × Nat => a.1 ≤ b.1 := ⟨fun a b => Nat.le_total a.1 b.1⟩
  have : IsTrans (Nat × Nat × Nat) fun a b => a.1 ≤ b.1 := ⟨fun _ _ _ => Nat.le_trans⟩
  refine ⟨_, List.perm_insertionSort (fun a b => a.1 ≤ b.1) ts, List.pairwise_insertionSort (fun a b => a.1 ≤ b.1) ts, ?_⟩
  change execClauseRound s = _
  rw [execClauseRound, if_neg (by simp [he, hgo, hidle]), hts]

section
variable {s s1 : State} {w q : Nat} {x : Queue} {h : List Byte} (hx : s.queue? w q = some x) (hrun : s.worldRuns w = true)
  (hv : State.Queue.visitable x = true) (hhead : x.head = none)
  (hrd : s.devRead w x.ctx (x.ring + BitVec.ofNat 64 (128 * x.ridx)) 4 = (.ok h, s1))
include hx hrun hv hhead hrd

theorem State.visit_invalid (hph : (leNat h).testBit 0 ≠ x.phase) : s.visit w q = (none, s1) := by
  rw [visit, hx]
  dsimp only
  rw [if_neg (by simp [hrun, hv]), hhead]
  dsimp only
  rw [hrd]
  dsimp only
  rw [if_pos (by simpa using hph)]

theorem State.visit_takes {l : List Byte} {s2 : State} (hph : (leNat h).testBit 0 = x.phase)
    (hall : s1.devRead w x.ctx (x.ring + BitVec.ofNat 64 (128 * x.ridx)) 128 = (.ok l, s2)) (hserve : s2.mayServe w x l = true) :
    s.visit w q = (some l, s2.updQueue w q fun x => { x with head := some l }) := by
  rw [visit, hx]
  dsimp only
  rw [if_neg (by simp [hrun, hv]), hhead]
  dsimp only
  rw [hrd]
  dsimp only
  rw [if_neg (by simpa using hph), hall]
  dsimp only
  rw [if_pos hserve]

end

section
variable {s : State} {w q : Nat} {x : Queue} {wd : World} {c : Ctx} {l : List Byte} (hx : s.queue? w q = some x)
  (hw : s.world? w = some wd)
include hx hw

theorem State.sortTaken_aborted (hst : x.st = .aborted) : s.sortTaken w q l = (some (pktPriority (pktOp l), w, q), s) := by
  rw [sortTaken, hx, hw]
  exact if_pos hst

variable (hc : s.ctx? w x.ctx = some c) (hst : x.st ≠ .aborted)
include hc hst

theorem State.sortTaken_bad {o : Nat} {os : List Nat} (hbad : pktBad c.nrec wd.bbslots l = o :: os) :
    s.sortTaken w q l = (none, aborting s w q l 1#8 (BitVec.ofNat 8 (os.foldl min o))) := by
  rw [sortTaken, hx, hw]
  dsimp only
  rw [if_neg hst, hc]
  dsimp only
  rw [hbad]
  rfl

variable (hgood : pktBad c.nrec wd.bbslots l = [])
include hgood

theorem State.sortTaken_featureOff {n : Nat} (hn : pktFeature (pktOp l) = some n) (hoff : s.feature w n = false) :
    s.sortTaken w q l = (none, completed s w q l 8#8 0#8) := by
  rw [sortTaken, hx, hw]
  dsimp only
  rw [if_neg hst, hc]
  dsimp only
  rw [hgood, hn]
  exact if_pos (by simp [hoff])

theorem State.sortTaken_waits (hon : ∀ n, pktFeature (pktOp l) = some n → s.feature w n = true) :
    s.sortTaken w q l = (some (pktPriority (pktOp l), w, q), s) := by
  rw [sortTaken, hx, hw]
  dsimp only
  rw [if_neg hst, hc]
  dsimp only
  rw [hgood]
  cases hn : pktFeature (pktOp l) with
  | none => rfl
  | some n => exact if_neg (by simp [hon n hn])

end

/-- An ABORTED queue skips what its engine has taken of it, whatever its type. -/
theorem State.serve_skips {s : State} {x : Queue} {l : List Byte} {r : List (Nat × Nat)} (form : List Byte → Bool) (act : PktAct)
    (hx : s.queue? s.args.world s.args.queue = some x) (hfirst : s.liveTaken x.engine = (s.args.world, s.args.queue) :: r)
    (hhead : x.head = some l) (hgo : (s.engineOf x.engine).stopped = false) (hst : x.st = .aborted) :
    s.serve form act = completed (s.updEngine x.engine fun e => { e with taken := r }) s.args.world s.args.queue l 2#8 0#8 := by
  rw [serve, hx]
  dsimp only
  rw [hfirst, hhead]
  dsimp only
  rw [if_neg (by simp [hst, hgo]), if_pos hst]
  rfl

/-! ## Completion (R122, R127, R132, R134) -/

/-- A packet whose turn it is stands in its queue after those that it was weighed against. -/
theorem readyPkts_split {earlier ps : List Pkt} {p : Pkt} (h : p ∈ readyPkts earlier ps) :
    ∃ before after, ps = before ++ p :: after ∧ p.ready (earlier ++ before) = true := by
  induction ps generalizing earlier with
  | nil => simp [readyPkts] at h
  | cons a r ih =>
    rw [readyPkts, List.mem_append] at h
    rcases h with h | h
    · by_cases ha : a.ready earlier = true
      · rw [if_pos ha, List.mem_singleton] at h
        exact ⟨[], r, by rw [h]; rfl, by rwa [h, List.append_nil]⟩
      · rw [if_neg ha] at h
        exact absurd h List.not_mem_nil
    · obtain ⟨before, after, rfl, hp⟩ := ih h
      exact ⟨a :: before, after, rfl, by rwa [List.append_assoc] at hp⟩

theorem ready_skipped {earlier : List Pkt} {p : Pkt} (h : p.ready earlier = true) (hs : p.skipped = true) :
    ∀ e ∈ earlier, e.skipped = true → e.written = true ∨ e.old = true := by
  intro e he hes
  have hall := (Bool.and_eq_true_iff.mp h).2
  rw [hs, Bool.not_true, Bool.false_or, List.all_eq_true] at hall
  simpa [hes] using hall e he

theorem packetCompletion_only {s : State} {x : Queue} {p : Pkt} {c d : BitVec 8}
    (hx : s.queue? s.args.world s.args.queue = some x) (hgo : (s.engineOf x.engine).stopped = false)
    (hp : readyPkts [] x.started = [p]) (hr : p.result = some (c, d)) :
    exec .packetCompletion s = .next (s.drawWord.2.complete s.args.world s.args.queue x p c d) := by
  change execPacketCompletion s = _
  rw [execPacketCompletion, hx]
  dsimp only
  rw [if_neg (by simp [hgo]), hp, List.length_singleton, Nat.mod_one, List.getElem?_cons_zero]
  dsimp only
  rw [hr]

/-- A completion whose writes succeed, of a packet that does not abort its queue. -/
theorem State.complete_clean {s s1 s2 : State} {w q : Nat} (x : Queue) {p : Pkt} {c d : BitVec 8}
    (hstatus : s.devWrite w p.ctx (p.slot + 4#64) (leBytes 4 (c.toNat + 256 * d.toNat)) = (none, s1))
    (hsig : (if p.compsig = 0#64 then (State.SigOut.done, s1)
      else s1.updateSignal w p.ctx p.compsig (.compsig w q) (c != 0#8) (BitVec.allOnes 64)) = (.done, s2)) (hab : p.aborts = false) :
    let s3 := (s2.updQueue w q fun y =>
      let n := Pkt.drain (y.started.map fun e => if e.no = p.no then { e with written := true } else e)
      { y with started := n.2, didx := (y.didx + n.1) % 2 ^ y.log2n }).syncEntry w q
    s.complete w q x p c d = (if p.irq then s3.send (.msix w q) else s3).settleDisable w q := by
  rw [complete, hstatus]
  dsimp only
  rw [show pcOk = 0#8 from rfl, hsig]
  dsimp only
  rw [hab]
  rfl

/-! ## Errors of an engine or of an entry (R139 to R141) -/

theorem State.engineOf_updEngine (s : State) (e : Nat) (f : Engine → Engine) : (s.updEngine e f).engineOf e = f (s.engineOf e) := by
  rw [engineOf, updEngine, AMap.getD, AMap.get?_set_self, Option.getD_some]

theorem clauseEngineError_stops {s : State} (he : s.args.unit ≤ 8) (hgo : (s.engineOf s.args.unit).stopped = false)
    (hfirst : (s.engineOf s.args.unit).lastReload = none ∨ s.args.unit = 8) : exec .clauseEngineError s =
    .next ((s.updEngine s.args.unit fun x => { x with lastReload := some s.now }).updEngine s.args.unit fun x =>
      { x with stopped := true }) := by
  change execClauseEngineError s = _
  rw [execClauseEngineError, if_neg (by simp [he, hgo])]
  rcases hfirst with h | h
  · rw [h]
    rfl
  · exact if_neg (by simp [h])

theorem clauseEngineRestart_goesOn {s : State} (he : s.args.unit ≤ 8) (hst : (s.engineOf s.args.unit).stopped = true) :
    exec .clauseEngineRestart s = .next ((s.restartTaken s.args.unit).updEngine s.args.unit fun x => { x with stopped := false }) := by
  change execClauseEngineRestart s = _
  rw [execClauseEngineRestart, if_neg (by simp [he, hst])]

theorem State.restartTaken_taken (s : State) (e : Nat) : ((s.restartTaken e).engineOf e).taken = [] := by
  rw [restartTaken, engineOf_updEngine]

theorem clauseSelfCheckFail_givesWay {s : State} (he : s.args.unit < 8) (hm : (s.engineOf s.args.unit).moved = false) :
    exec .clauseSelfCheckFail s = .next (s.takeOver s.args.unit) := by
  change execClauseSelfCheckFail s = _
  rw [execClauseSelfCheckFail, if_neg (by simp [he, hm])]

theorem queueLost_fails {s s1 : State} {x : Queue} {l : List Byte} (hx : s.queue? s.args.world s.args.queue = some x)
    (hst : x.st ≠ .disabled) (hrd : s.devRead s.args.world 0 (s.entryAddr s.args.world s.args.queue) 24 = (.ok l, s1)) :
    exec .queueLost s = .next ((s1.updQueue s.args.world s.args.queue fun x =>
      { x with ring := pktWord l 0, qsig := pktWord l 8, log2n := bits (leWord l 0x10 8) 19 16 }).failQueue s.args.world s.args.queue
        State.pcQueueLost) := by
  change execQueueLost s = _
  rw [execQueueLost, hx]
  dsimp only
  rw [if_neg hst, hrd]

end Sys2Proof.Machine

namespace Sys2Proof.Claim
open Machine

/-- Settles O53: each step in the life of a queue and of a round, from the lemmas above. -/
theorem queuesTurn : Obligations.QueuesTurn := by
  refine ⟨?enable, ?active, ?badEntry, ?disable, ?settles, ?round, ?visit, ?sort, ?skip, ?order, ?completion, ?complete, ?error,
    ?restart, ?selfCheck, ?lost⟩
  case enable =>
    intro s wd l s1 p e lane w q x hw hq hrun ht hst hrd hok hlane
    exact ⟨x.enabled l p e lane, s1.dropBarrierReads w q, rfl, fun r k no hr => State.dropBarrierReads_remote no k hr,
      enable_places hw hq hrun ht hst hrd hok hlane, rfl, rfl, rfl, rfl, rfl, rfl, rfl, rfl, rfl, rfl, rfl⟩
  case active => exact fun _ _ => enable_active
  case badEntry => exact fun s wd l s1 hw hq hrun ht hst hrd hbad => enable_badEntry hw hq hrun ht hst hrd hbad
  case disable => exact fun s wd x hw hx hrun ht hst => ⟨s.dropBarrierReads _ _, rfl, disable_stops hw hx hrun ht hst⟩
  case settles => exact fun _ _ _ _ => State.settleDisable_eq
  case round => exact fun _ _ _ he hgo hidle hts => clauseRound_sorts he hgo hidle hts
  case visit =>
    intro s w q x h s1 slot hx hrun hv hhead hrd
    exact ⟨State.visit_invalid hx hrun hv hhead hrd, fun l s2 => State.visit_takes hx hrun hv hhead hrd⟩
  case sort =>
    intro s w q x wd c l hx hw hc
    exact ⟨State.sortTaken_aborted hx hw, fun hst o os => State.sortTaken_bad hx hw hc hst, fun hst hgood =>
      ⟨fun n => State.sortTaken_featureOff hx hw hc hst hgood, State.sortTaken_waits hx hw hc hst hgood⟩⟩
  case skip => exact fun s x l r form act hx hfirst hhead hgo hst => State.serve_skips form act hx hfirst hhead hgo hst
  case order =>
    intro ps p hp hs
    obtain ⟨before, after, hps, hready⟩ := readyPkts_split hp
    exact ⟨before, after, hps, ready_skipped hready hs⟩
  case completion => exact fun s x p c d hx hgo hp hr => ⟨s.drawWord.2, rfl, packetCompletion_only hx hgo hp hr⟩
  case complete => exact fun s w q x p c d s1 s2 hstatus hsig hab => State.complete_clean x hstatus hsig hab
  case error =>
    intro s e he hgo hfirst
    refine ⟨_, clauseEngineError_stops he hgo hfirst, ?_, ?_, rfl⟩ <;> simp only [e, State.engineOf_updEngine]
  case restart =>
    intro s e he hst
    refine ⟨_, clauseEngineRestart_goesOn he hst, ?_, ?_⟩ <;> simp only [e, State.engineOf_updEngine, State.restartTaken_taken]
  case selfCheck => exact fun _ => clauseSelfCheckFail_givesWay
  case lost => exact fun _ _ _ _ => queueLost_fails

end Sys2Proof.Claim
end

section
/-! PROOFS. What a completed lane instruction moves (R155, R334, R367). -/

namespace Sys2Proof.Claim
open Machine

/-- Settles O14: the block, the warp and the split after `retireTo`, and its frame. -/
theorem retirementMoves : Obligations.RetirementMoves := by
  intro s e pc k x q hk hx hq
  obtain ⟨k', hk', hrun, hcount, hwarps⟩ := block?_retireTo (pc := pc) hk
  have hown : AMap.get? k'.warps e.w = some (turned e pc x) := by rw [hwarps, if_pos rfl, hx]; rfl
  refine ⟨retireTo_only s e pc, k', turned e pc x, hk', hrun, hcount, fun v hv => ?_, hown, rfl, ?_, fun p hp => ?_⟩
  · rw [hwarps, if_neg hv]
  · simp [turned, hq]
  · simp [turned, hp]

end Sys2Proof.Claim
end

section
/-! PROOFS. Where blocks are placed and how they end, who owns a quarter, and the timer of a node (R143, R147, R149, R151 to R153,
R171 to R173, R188). -/

namespace Sys2Proof

/-- A map over the entries that keeps the keys maps the value found. -/
theorem AMap.get?_map_keyed {α β : Type} (m : AMap α) (f : Nat → α → β) (i : Nat) :
    AMap.get? (m.map fun p => (p.1, f p.1 p.2)) i = (AMap.get? m i).map (f i) := by
  induction m with
  | nil => rfl
  | cons p m ih =>
    rw [List.map_cons, AMap.get?_cons, AMap.get?_cons, ih]
    split
    case isTrue h => rw [h, Option.map_some]
    case isFalse => rfl

/-- What a map made from a list of keys holds at one of them. -/
theorem AMap.get?_ofKeys {α : Type} (f : Nat → α) {l : List Nat} {i : Nat} (h : i ∈ l) :
    AMap.get? (l.map fun k => (k, f k)) i = some (f i) := by
  induction l with
  | nil => simp at h
  | cons k l ih =>
    rw [List.map_cons, AMap.get?_cons]
    split
    case isTrue hk => rw [hk]
    case isFalse hk => exact ih ((List.mem_cons.mp h).resolve_left (Ne.symm hk))

namespace Machine
open State

/-! ## Where a block is placed (R147, R149, R163) -/

namespace State

theorem olderFits_eq_false {s : State} {i core : Nat} (h : ∀ j y c, (j, y) ∈ s.launches → j < i → c < 64 →
    s.placeable j y (64 * (core / 64) + c) = false) : s.olderFits i core = false := by
  refine List.any_eq_false.mpr fun p hp => ?_
  obtain ⟨hmem, hlt⟩ := List.mem_filter.mp hp
  refine mt List.any_eq_true.mp ?_
  rintro ⟨c, hc, hfits⟩
  simp [h p.1 p.2 c hmem (of_decide_eq_true hlt) (List.mem_range.mp hc)] at hfits

theorem placeable_of_fits {s : State} {i core : Nat} {x : Launch} {y : List Nat × List Seat} (hnext : x.next < x.total)
    (hplace : s.placing x.world = true) (hpanel : panelOk x.desc x.panel core = true) (hopen : s.coreOpen core (some i) = true)
    (hfit : s.fitCore (x.desc.need x.world) core = some y) : s.placeable i x core = true := by
  simp [placeable, hnext, hplace, hpanel, hopen, hfit]

/-- Launch `i`, now `x`, has given out its next block: the cores kept for it are open again (R149). -/
def launchTaken (s : State) (i : Nat) (x : Launch) : State :=
  { s with
    launches := AMap.set s.launches i { x with next := x.next + 1, since := s.now }
    quarters := AMap.mapVals s.quarters fun q => { q with reserved := if q.reserved == some i then none else q.reserved } }

/-- The next generation of a quarter wraps from 16,383 to 1 (R188). -/
theorem nextGen_eq {s : State} {q : Nat} (h : (s.quarter q).gen ≤ 16383) :
    s.nextGen q = if (s.quarter q).gen = 16383 then 1 else (s.quarter q).gen + 1 := by
  unfold nextGen
  split <;> omega

end State

theorem blockPlace_launch {s : State} {x : Launch} {qs : List Nat} {seats : List Seat} (hcore : s.args.unit < 512)
    (hid : s.args.id ≠ 0) (hx : AMap.get? s.launches s.args.id = some x)
    (hfits : s.placeable s.args.id x s.args.unit = true) (holder : s.olderFits s.args.id s.args.unit = false)
    (hfit : s.fitCore (x.desc.need x.world) s.args.unit = some (qs, seats)) :
    exec .blockPlace s = .next ((s.launchTaken s.args.id x).startBlock x.world x.desc
      { ctx := x.ctx, launch := some s.args.id, bid := x.next, param := x.param } qs seats) := by
  change execBlockPlace s = _
  simp [execBlockPlace, Nat.not_le.mpr hcore, hid, hx, hfits, holder, hfit, launchTaken]

theorem blockPlace_graph {s : State} {g : Graph} {r : ReadyBlk} {qs : List Nat} {seats : List Seat} (hcore : s.args.unit < 512)
    (hid : s.args.id = 0) (hr : s.readyBlks.find? (fun r => r.graph == s.args.n) = some r)
    (hg : AMap.get? s.graphs s.args.n = some g) (hplace : s.placing g.world = true)
    (hpanel : panelOk (AMap.getD g.nodes r.node {}).desc g.panel s.args.unit = true) (hopen : s.coreOpen s.args.unit none = true)
    (hfit : s.fitCore ((AMap.getD g.nodes r.node {}).desc.need g.world) s.args.unit = some (qs, seats)) :
    exec .blockPlace s = .next ({ s with readyBlks := s.readyBlks.erase r }.startBlock g.world (AMap.getD g.nodes r.node {}).desc
      { ctx := g.ctx, graph := some r.graph, node := r.node, bid := r.bid, group := r.slots, depth := r.depth, param := g.param }
      qs seats) := by
  change execBlockPlace s = _
  simp [execBlockPlace, Nat.not_le.mpr hcore, hid, hr, hg, hplace, hpanel, hopen, hfit]

/-! ## A block at its start (R147, R163, R301, R311) -/

section
variable (s : State) (w : Nat) (d : LDesc) (o : Origin) (qs : List Nat) (seats : List Seat)

theorem newBlock_shed {n : Nat} (hn : n < 16) :
    (newBlock s w d o qs seats).shed n = { first := 0, num := (d.need w).quotas.length, weft := d.weft } :=
  congrArg (Option.getD · _) (AMap.get?_ofKeys _ (List.mem_range.mpr hn))

theorem newBlock_weft (hd : d.weft = true) : ∃ y, (newBlock s w d o qs seats).weft = some y ∧ y.pc = d.wentry ∧
    y.x.getD 8 0 = o.param ∧ y.x.getD 9 0 = BitVec.ofNat 64 o.bid :=
  ⟨_, by rw [newBlock, hd, if_pos rfl], rfl, rfl, rfl⟩

theorem newBlock_warp {p : Nat × Warp} (hp : p ∈ (newBlock s w d o qs seats).warps) : ∃ gen seat quota,
    p.2 = newWarp d o.param gen p.1 seat quota := by
  obtain ⟨i, -, rfl⟩ := List.mem_map.mp hp
  exact ⟨_, _, _, rfl⟩

end

/-- A warp begins at its kind's entry, with the launch's parameter in s1. -/
theorem newWarp_starts (d : LDesc) (param : W64) (gen w : Nat) (seat : Seat) (quota : Nat) :
    ∃ q, (newWarp d param gen w seat quota).active = [(0, q)] ∧ q.pc = (if w < d.pwarps then d.pentry else d.centry) ∧
      AMap.get? (newWarp d param gen w seat quota).sregs 1 = some (param.setWidth 32) :=
  ⟨_, rfl, by simp, rfl⟩

/-! ## Reservations (R149) -/

/-- The core with the fewer resident warps, the earlier of equals. -/
def fewerWarps (b c : Nat × Nat) : Nat × Nat := if c.2 < b.2 then c else b

theorem fewerWarps_eq_or (b c : Nat × Nat) : fewerWarps b c = b ∨ fewerWarps b c = c := by
  unfold fewerWarps
  split
  case isTrue => exact .inr rfl
  case isFalse => exact .inl rfl

theorem fewerWarps_le (b c : Nat × Nat) : (fewerWarps b c).2 ≤ b.2 ∧ (fewerWarps b c).2 ≤ c.2 := by
  unfold fewerWarps
  split <;> omega

/-- The choice falls on a core of the list, and none of the list has fewer resident warps. -/
theorem foldl_fewerWarps_least (l : List (Nat × Nat)) (b : Nat × Nat) :
    l.foldl fewerWarps b ∈ b :: l ∧ ∀ y, y ∈ b :: l → (l.foldl fewerWarps b).2 ≤ y.2 := by
  induction l generalizing b with
  | nil => simp
  | cons c l ih =>
    obtain ⟨hmem, hle⟩ := ih (fewerWarps b c)
    obtain ⟨hb, hc⟩ := fewerWarps_le b c
    have hhead : (l.foldl fewerWarps (fewerWarps b c)).2 ≤ (fewerWarps b c).2 := hle _ List.mem_cons_self
    rw [List.foldl_cons]
    constructor
    · rcases List.mem_cons.mp hmem with heq | hl
      · rw [heq]
        rcases fewerWarps_eq_or b c with h | h <;> simp [h]
      · simp [hl]
    · simp only [List.forall_mem_cons]
      exact ⟨hhead.trans hb, hhead.trans hc, fun y hy => hle y (List.mem_cons_of_mem _ hy)⟩

theorem placementReservation_keeps {s : State} {i : Nat} {x : Launch} {c : Nat × Nat} {r : List (Nat × Nat)}
    (hpanel : s.args.unit < 8) (hnone : ∀ q, q ∈ s.quarters → q.1 / 256 = s.args.unit → q.2.reserved = none)
    (hx : s.launches.find? (fun p => decide (p.2.next < p.2.total) && !p.2.cancelled &&
      panelOk p.2.desc p.2.panel (64 * s.args.unit)) = some (i, x))
    (hlate : x.since + 50000 ≤ s.now) (hr : s.reservable x s.args.unit = c :: r) :
    exec .placementReservation s = .next ((List.range 4).foldl (fun s j =>
      s.updQuarter (4 * (r.foldl fewerWarps c).1 + j) fun q => { q with reserved := some i }) s) := by
  have hfree : (s.quarters.any fun q => q.1 / 256 == s.args.unit && q.2.reserved.isSome) = false :=
    List.any_eq_false.mpr fun q hq => by
      by_cases hp : q.1 / 256 = s.args.unit
      · simp [hnone q hq hp]
      · simp [hp]
  change execPlacementReservation s = _
  simp only [execPlacementReservation, Nat.not_le.mpr hpanel, hfree, hx, Nat.not_lt.mpr hlate, hr]
  rfl

/-! ## A block's end (R143, R164) -/

theorem blockDone_running {s : State} {b : Nat} {k : Block} (hw : ∀ p, p ∈ k.warps → p.2.ended = true)
    (hy : ∀ y, k.weft = some y → y.ended = true ∧ y.mmas = []) (hc : ∀ c, c ∈ s.copies → c.2.block ≠ b)
    (ha : ∀ p, p ∈ k.warps → p.2.loads = [] ∧ p.2.accs = []) : s.blockDone b k = true := by
  have hcopies : s.copies.all (fun c => c.2.block != b) = true := List.all_eq_true.mpr fun c h => by simpa using hc c h
  have haccs : (k.warps.all fun x => x.2.loads.isEmpty && x.2.accs.isEmpty) = true := List.all_eq_true.mpr fun p h => by
    obtain ⟨hl, ha⟩ := ha p h
    simp [hl, ha]
  have hended : (k.warps.all fun x => x.2.ended) = true := List.all_eq_true.mpr hw
  cases hweft : k.weft with
  | none => simp [blockDone, hcopies, haccs, hended, hweft]
  | some y =>
    obtain ⟨hend, hmma⟩ := hy y hweft
    simp [blockDone, hcopies, haccs, hended, hweft, hend, hmma]

theorem blockEnd_returns {s : State} {k : Block} (hk : s.block? s.args.block = some k) (hrun : k.run = .running)
    (hdone : s.blockDone s.args.block k = true) :
    exec .blockEnd s = .next ((({ s.scratchReports k with blocks := AMap.erase (s.scratchReports k).blocks s.args.block }.updWorld
      k.world fun x => { x with backed := x.backed - k.privPages.length }).leaveQuarters s.args.block k.quarters).countEnd k) := by
  change execBlockEnd s = _
  simp [execBlockEnd, hk, hrun, hdone]

/-! ## The owner of a quarter (R150 to R153) -/

/-- Quarter `q`, empty, becomes world `w`'s; the time that its owner held it in this epoch is counted. -/
def State.handedTo (s : State) (q w : Nat) : State :=
  (s.updWorld (s.quarter q).owner fun y => { y with held := y.held + (s.now - max (s.quarter q).since s.epochAt) }).updQuarter q
    fun x => { x with owner := w, handover := none, draining := none, tcache := [], segWorld := w, part := none, since := s.now }

theorem quarterHandover_completes {s : State} {w : Nat} (hr : (s.quarter s.args.unit).resident = [])
    (hh : (s.quarter s.args.unit).handover = some w) : exec .quarterHandover s = .next (s.handedTo s.args.unit w) := by
  change execQuarterHandover s = _
  simp [execQuarterHandover, hr, hh, handedTo]

theorem ownerAfter_outside {s : State} {q : Nat} (hset : q ∉ s.worldSet (s.quarter q).owner) (hnext : s.nextOwner q = none) :
    s.ownerAfter q = 0 := by
  simp [ownerAfter, hnext, hset]

/-- An empty quarter that its owner no longer holds in its set, and that no world demands, goes back to world 0. -/
theorem quarterHandover_returns {s : State} (hr : (s.quarter s.args.unit).resident = [])
    (hh : (s.quarter s.args.unit).handover = none) (hset : s.args.unit ∉ s.worldSet (s.quarter s.args.unit).owner)
    (howner : (s.quarter s.args.unit).owner ≠ 0) (hnext : s.nextOwner s.args.unit = none) :
    exec .quarterHandover s = .next (s.handedTo s.args.unit 0) := by
  change execQuarterHandover s = _
  simp [execQuarterHandover, hr, hh, hset, ownerAfter_outside hset hnext, howner.symm, handedTo]

/-! ## Epochs (R151, R153) -/

theorem shareEpoch_marks {s : State} (h : s.epochAt + 100000 ≤ s.now) : exec .shareEpoch s = .next
    ((s.updateDeficits.worlds.map Prod.fst).foldl State.markDraining { s.updateDeficits with epochAt := s.now }) := by
  change execShareEpoch s = _
  rw [execShareEpoch, if_neg (Nat.not_lt.mpr h)]

/-- World `w` at the end of an epoch: its deficit grows by what it was entitled to, less what it has held, within one
entitlement either way (R151). -/
def State.epochWorld (s : State) (w : Nat) (x : World) : World :=
  { x with
    held := 0
    deficit := max (-x.entitled) (min x.entitled (x.deficit + x.entitled - 1024 *
      (((s.quarters.filter fun q => q.2.owner == w).foldl (fun a q => a + (s.now - max q.2.since s.epochAt)) x.held : Nat) : Int))) }

theorem updateDeficits_world {s : State} {w : Nat} {x : World} (h : s.world? w = some x) :
    AMap.get? s.updateDeficits.worlds w = some (s.epochWorld w x) :=
  (AMap.get?_map_keyed s.worlds s.epochWorld w).trans (congrArg (Option.map _) h)

theorem drainLimitExpiry_asks {s : State} {w : Nat} {x : World} (hd : (s.quarter s.args.unit).draining = some w)
    (hx : s.world? w = some x) (ht : (s.quarter s.args.unit).drainAt + min (s.drainLimit * 1000) (x.lambda * 500) ≤ s.now) :
    exec .drainLimitExpiry s = .next ((s.quarter s.args.unit).resident.foldl State.askPreempt s) := by
  change execDrainLimitExpiry s = _
  simp [execDrainLimitExpiry, hd, hx, Nat.not_lt.mpr ht]

/-! ## Node timers (R172, R173) -/

theorem launchGroups_partial {s : State} {g : Graph} {gi n : Nat} (hg : AMap.get? s.graphs gi = some g)
    (h : (AMap.getD g.nodes n {}).pend.length < (AMap.getD g.nodes n {}).group) : s.launchGroups gi n = s := by
  simp [launchGroups, hg, Graph.takeFull, h]

/-- The timer of a node with less than a full group pending: what is left becomes one partial group. -/
theorem nodeTimerExpiry_partial {s : State} {g : Graph} {t : Nat} (hg : AMap.get? s.graphs s.args.id = some g)
    (ht : (AMap.getD g.nodes s.args.n {}).started = some t)
    (hlate : t + (AMap.getD g.nodes s.args.n {}).timer * 1000 ≤ s.now)
    (hpos : 0 < (AMap.getD g.nodes s.args.n {}).pend.length)
    (hpart : (AMap.getD g.nodes s.args.n {}).pend.length < (AMap.getD g.nodes s.args.n {}).group) :
    exec .nodeTimerExpiry s =
      let y := g.takeGroup s.args.id s.args.n (AMap.getD g.nodes s.args.n {}).pend.length s.now
      .next ({ s with readyBlks := s.readyBlks ++ [y.1] }.graphNote s.args.id [2, 3] fun _ =>
        { y.2 with partials := y.2.partials + 1 }) := by
  change execNodeTimerExpiry s = _
  simp only [execNodeTimerExpiry, hg, ht, Nat.not_lt.mpr hlate, launchGroups_partial hg hpart, hpos.ne', if_false]

theorem takeGroup_all_slots (g : Graph) (gi n now : Nat) :
    (g.takeGroup gi n (AMap.getD g.nodes n {}).pend.length now).1.slots = (AMap.getD g.nodes n {}).pend :=
  List.take_length

end Machine
end Sys2Proof

namespace Sys2Proof.Claim
open Machine State

/-- Settles O45, step by step: the dispatcher, a new block, reservations, a block's end, the owners of quarters, epochs, the
timer of a node. -/
theorem blocksArePlaced : Obligations.BlocksArePlaced := by
  refine ⟨?launch, ?graph, ?start, ?gen, ?reserve, ?ends, ?handover, ?goesBack, ?epoch, ?deficit, ?drain, ?timer⟩
  case launch =>
    intro s x qs seats core i hcore hid hx hnext hplace hpanel hopen holder hfit
    exact ⟨s.launchTaken i x, blockPlace_launch hcore hid hx (placeable_of_fits hnext hplace hpanel hopen hfit)
      (olderFits_eq_false holder) hfit, AMap.get?_set_self _ _ _, rfl, rfl⟩
  case graph => exact fun s g r qs seats hcore hid hr hg hplace => blockPlace_graph hcore hid hr hg hplace
  case start =>
    intro s w d o qs seats
    refine ⟨rfl, rfl, fun n => newBlock_shed s w d o qs seats, newBlock_weft s w d o qs seats, fun p hp => ?_⟩
    obtain ⟨gen, seat, quota, hwarp⟩ := newBlock_warp s w d o qs seats hp
    exact hwarp ▸ newWarp_starts d o.param gen p.1 seat quota
  case gen => exact fun _ _ => nextGen_eq
  case reserve =>
    intro s i x c r panel hpanel hnone hx hlate hr
    obtain ⟨hmem, hleast⟩ := foldl_fewerWarps_least r c
    exact ⟨_, ⟨_, hmem, hleast⟩, placementReservation_keeps hpanel hnone hx hlate hr⟩
  case ends => exact fun s k hk hrun hw hy hc ha => blockEnd_returns hk hrun (blockDone_running hw hy hc ha)
  case handover => exact fun _ _ => quarterHandover_completes
  case goesBack => exact fun _ => quarterHandover_returns
  case epoch => exact fun _ => shareEpoch_marks
  case deficit => exact fun _ _ _ => updateDeficits_world
  case drain => exact fun _ _ _ => drainLimitExpiry_asks
  case timer =>
    intro s g t gi n hg ht hlate hpos hpart
    exact ⟨_, _, rfl, takeGroup_all_slots g gi n s.now, rfl, rfl, nodeTimerExpiry_partial hg ht hlate hpos hpart⟩

end Sys2Proof.Claim
end

section
/-! PROOFS. How a split divides, and the instructions that divide it (R180, R356, R360, R361). -/

namespace Sys2Proof.Machine
open Claim

/-! ## The division of a split (R180) -/

/-- The split that a group of the threads of `q` becomes. -/
def Split.ofGroup (q : Split) (g : W64 × BitVec 16) : Split := { q with pc := g.1, mask := g.2, park := .ready }

/-- Warp `x` whose split `q` in place `sp` has gone on to `pc` without the threads of the groups `gs`. -/
def Warp.withoutGroups (x : Warp) (sp : Nat) (q : Split) (pc : W64) (gs : List (W64 × BitVec 16)) : Warp :=
  let away := gs.foldl (fun m g => m ||| g.2) 0#16
  { x with active := AMap.set x.active sp { q with pc := pc, mask := q.mask &&& ~~~away, park := .ready } }

section
variable {x : Warp} {sp : Nat} {q : Split} {nexts : List (Nat × W64)} {pc0 : W64} {m : BitVec 16} {gs : List (W64 × BitVec 16)}

/-- The split that divides holds its place before and after. -/
theorem freeActive_withoutGroups (hq : AMap.get? x.active sp = some q) (pc : W64) :
    freeActive (x.withoutGroups sp q pc gs) = freeActive x := by
  refine List.filter_congr fun k _ => ?_
  by_cases hk : k = sp
  · simp [Warp.withoutGroups, AMap.has, hk, hq]
  · simp [Warp.withoutGroups, AMap.has, hk]

theorem groupsOf_first {t0 : Nat} (h16 : ∀ p ∈ nexts, p.1 < 16) (hhead : nexts.head? = some (t0, pc0)) :
    ∃ m gs, groupsOf nexts = (pc0, m) :: gs := by
  obtain ⟨-, -, -, hfirst⟩ := groupsOf_spec nexts h16
  rw [hhead] at hfirst
  match hgs : groupsOf nexts with
  | [] => simp [hgs] at hfirst
  | (pc, m) :: gs =>
    simp only [hgs, List.head?_cons, Option.map_some, Option.some.injEq] at hfirst
    exact ⟨m, gs, by rw [hfirst]⟩

variable (hg : groupsOf nexts = (pc0, m) :: gs)
include hg

theorem group_parts (h16 : ∀ p ∈ nexts, p.1 < 16) {g : Split} (hgm : g ∈ gs.map q.ofGroup) :
    g = { q with pc := g.pc, mask := goers nexts g.pc, park := .ready } ∧ g.pc ≠ pc0 ∧ ∃ t, (t, g.pc) ∈ nexts := by
  obtain ⟨hnodup, hgoers, -, -⟩ := groupsOf_spec nexts h16
  obtain ⟨⟨pc, w⟩, hw, rfl⟩ := List.mem_map.mp hgm
  rw [hg] at hnodup hgoers
  obtain ⟨hmask, ht⟩ := hgoers (pc, w) (List.mem_cons_of_mem _ hw)
  refine ⟨congrArg (fun w => q.ofGroup (pc, w)) hmask, ?_, ht⟩
  rintro (rfl : pc = pc0)
  exact (List.nodup_cons.mp hnodup).1 (List.mem_map.mpr ⟨_, hw, rfl⟩)

theorem group_once (h16 : ∀ p ∈ nexts, p.1 < 16) : ((gs.map q.ofGroup).map Split.pc).Nodup := by
  obtain ⟨hnodup, -, -, -⟩ := groupsOf_spec nexts h16
  rw [hg] at hnodup
  rw [List.map_map]
  exact (List.nodup_cons.mp hnodup).2

variable (hq : AMap.get? x.active sp = some q)
include hq

theorem divide_fits (h : gs.length ≤ x.places) :
    x.divide sp nexts = some ((gs.map q.ofGroup).foldl Warp.addSplit (x.withoutGroups sp q pc0 gs)) := by
  simp only [Warp.divide, hg, hq, if_neg (Nat.not_lt.mpr h), List.foldl_map]
  rfl

theorem divide_full (h : ¬ gs.length ≤ x.places) : x.divide sp nexts = none := by
  simp only [Warp.divide, hg, hq, if_pos (Nat.not_le.mp h)]

/-- The new splits stand where `addSplits` puts them; the old split, the other splits and the rest of the warp stay. -/
theorem divide_divided (h16 : ∀ p ∈ nexts, p.1 < 16) (h : gs.length ≤ x.places) :
    ∃ y, x.divide sp nexts = some y ∧ Divided x sp q nexts pc0 (gs.map q.ofGroup) y := by
  obtain ⟨-, -, hall, -⟩ := groupsOf_spec nexts h16
  obtain ⟨hkept, hplaced, hpending, hcount⟩ := addSplits (gs.map q.ofGroup) (x.withoutGroups sp q pc0 gs)
  rw [freeActive_withoutGroups hq] at hplaced hcount
  have hdiv := divide_fits hg hq h
  refine ⟨_, hdiv, { rest := divide_rest hdiv, own := hkept _ _ ?own, groups := fun _ => group_parts hg h16,
                     once := group_once hg h16, all := fun p hp => ?all, others := fun k p hk hp => hkept _ _ ?others,
                     placed := hplaced, waiting := hpending, count := hcount }⟩
  case own => rw [List.foldl_map]; exact AMap.get?_set_self _ _ _
  case others => exact (AMap.get?_set_ne _ _ hk).trans hp
  case all =>
    obtain ⟨g, hgm, hpc⟩ := hall p hp
    rw [hg] at hgm
    rcases List.mem_cons.mp hgm with rfl | hgm
    · exact .inl hpc.symm
    · exact .inr ⟨q.ofGroup g, List.mem_map_of_mem hgm, hpc⟩

end

/-! ## Branches, returns and calls of threads (R356, R360, R361) -/

theorem act_after {e : Env} {y : Warp} (h : y.preds = e.wp.preds) : (after e y).act = e.act := by
  simp only [Env.act, Env.active, Env.guardMask, Env.pred, after, h]

/-- A turn of a warp whose splits and count an earlier change left alone. -/
theorem turned_of_same {e : Env} {y z : Warp} {s r : State} {x : Warp} (h : Turned e z s r x) (hr : z.retired = y.retired)
    (ha : z.active = y.active) (hp : z.pending = y.pending) : Turned e y s r x where
  rest := h.rest
  block := h.block
  count := hr ▸ h.count
  active := h.active.trans ha
  pending := h.pending.trans hp

/-- The specification that ret and jmpi share. -/
def returnSpec (wf : Bool) (a : BitVec 8) (e : Env) : LaneSpec := { opOk := wf && pairOk a, act := e.jumpTo a none }

/-- That of the register form of call. -/
def callSpec (wf : Bool) (d a : BitVec 8) (e : Env) : LaneSpec :=
  { opOk := wf && dstOk d 2 && pairOk a && (!isS d || isS a), dsts := dstNames d 2, act := e.jumpTo a (some d) }

theorem returnSpec_plain {wf : Bool} {a : BitVec 8} (e : Env) (hwf : wf = true) (ha : pairOk a = true) :
    Plain (returnSpec wf a e) :=
  { feat := rfl, opOk := by simp [returnSpec, hwf, ha], moodOk := rfl, target := rfl, illegal := rfl, shuttle := rfl, pre := rfl }

theorem callSpec_plain {wf : Bool} {d a : BitVec 8} (e : Env) (hwf : wf = true) (hd : dstOk d 2 = true)
    (ha : pairOk a = true) (hs : isS d = true → isS a = true) : Plain (callSpec wf d a e) where
  feat := rfl
  opOk := by
    by_cases h : isS d = true
    · simp [callSpec, hwf, hd, ha, hs h]
    · simp [callSpec, hwf, hd, ha, h]
  moodOk := rfl
  target := rfl
  illegal := rfl
  shuttle := rfl
  pre := rfl

/-- A thread takes the branch where its predicate bit is not the negation. -/
theorem brp_takes (b : Bool) (n : BitVec 1) : (b != (n == 1#1)) = true ↔ b = (n == 0#1) := by
  revert b n; decide

theorem linkOf_ok {l : FetchLine} {pc c : W64} {n : Nat} (h : continuation l pc n = .ok c) : linkOf l pc n = c := by
  rw [linkOf, h]

section
variable {s s1 s2 : State} {e : Env} {l : FetchLine} {y : Warp}

theorem brp_scatters {n : BitVec 1} {p : BitVec 3} {o : BitVec 20} {c : W64} (hi : Fetches s e l s1)
    (ht : (tgt e s1 (dest e o)).1 = none) (hid : e.idle = false) (hc : continuation l e.pc 1 = .ok c)
    (hd : e.wp.divide e.sp (e.act.map fun t => (t, if (e.pred p.toNat).getLsbD t = (n == 0#1) then dest e o else c)) = some y) :
    ∃ r x, exec (.brp n p o) s = .next (r.settleWarp e.b e.w) ∧ Turned e y (tgt e s1 (dest e o)).2 r x ∧
      Keeps (after e y) x [] [] [] := by
  obtain ⟨hb, hw, -⟩ := fetches_block hi
  have hwarp := warp?_of (((tgt_keeps e s1 (dest e o)).block? e.b).trans hb) hw
  refine turned_scatter _ rfl hi (tgt_keeps e s1 _) ((run_target (o := o) rfl rfl rfl rfl ht (.inl rfl) rfl rfl (.inl rfl)).trans ?_)
  simp only [hid, Bool.and_false, Bool.false_eq_true, if_false, hc, linkOf_ok hc, brp_takes, branchOff, targetOf_dest]
  exact scatter_eq hwarp hd

theorem brp_idle (n : BitVec 1) (p : BitVec 3) (o : BitVec 20) : Does (.brp n p o)
    (fun e _ s => e.idle = true ∧ (tgt e s (dest e o)).1 = none) fun e _ s => (tgt e s (dest e o)).2 := by
  refine does_of _ (fun _ => rfl) fun e l s _ ⟨hid, ht⟩ => ?_
  rw [run_target (o := o) rfl rfl rfl rfl ht (.inl rfl) rfl rfl (.inl rfl), hid]
  rfl

theorem targetsFault_port {core w c : Nat} {ts : List (Nat × W64)} {f : Option Flt}
    (h : State.targetsFault core w c ts s1 = (f, s2)) : State.PortKeeps s1 s2 := by
  have hkeeps := targetsFault_keeps core w c ts s1
  rwa [h] at hkeeps

variable {a : BitVec 8} {v : Nat → Nat}

theorem return_scatters {i : Instr} (hx : ∀ s, exec i s = runLane (returnSpec i.wf a) s) (hi : Fetches s e l s1)
    (hwf : i.wf = true) (ha : pairOk a = true) (hid : e.idle = false) (hv : ∀ t, t ∈ e.act → e.pread a t = .ok (v t))
    (ht : State.targetsFault e.blk.core e.blk.world e.blk.ctx (e.act.map fun t => (t, BitVec.ofNat 64 (v t))) s1 = (none, s2))
    (hd : e.wp.divide e.sp (e.act.map fun t => (t, BitVec.ofNat 64 (v t))) = some y) :
    ∃ r x, exec i s = .next (r.settleWarp e.b e.w) ∧ Turned e y s2 r x ∧ Keeps (after e y) x [] [] [] := by
  have hport := targetsFault_port ht
  obtain ⟨hb, hw, -⟩ := fetches_block hi
  refine turned_scatter _ (hx s) hi hport ?_
  rw [run_guarded (returnSpec_plain e hwf ha) (.inl rfl) rfl hid]
  exact jumpTo_none (l := l) hv ht (warp?_of ((hport.block? e.b).trans hb) hw) hd

theorem return_idle {i : Instr} (hx : ∀ s, exec i s = runLane (returnSpec i.wf a) s) :
    Does i (fun e _ _ => e.idle = true ∧ pairOk a = true) fun _ _ s => s :=
  does_of _ hx fun e _ _ hwf ⟨hid, ha⟩ => by
    rw [(returnSpec_plain e hwf ha).run (.inl rfl) rfl, if_pos hid]

theorem jumpTo_link {d : BitVec 8} (hv : ∀ t, t ∈ e.act → e.pread a t = .ok (v t))
    (ht : State.targetsFault e.blk.core e.blk.world e.blk.ctx (e.act.map fun t => (t, BitVec.ofNat 64 (v t))) s1 = (none, s2))
    (hw : s2.warp? e.b e.w = some e.wp)
    (hd : e.wp.divide e.sp (e.act.map fun t => (t, BitVec.ofNat 64 (v t))) = some y) :
    e.jumpTo a (some d) s1 l = .jump (e.writeLink (s2.updWarp e.b e.w fun _ => y) d (linkOf l e.pc 1)) := by
  simp only [Env.jumpTo, pairTargets_ok hv, ht, scatter_eq hw hd]

/-- The link is written into the warp that the division has left. -/
theorem link_after {d : BitVec 8} {link : Nat} (hy : { e.wp with active := y.active, pending := y.pending } = y)
    (hd : dstOk d 2 = true) :
    let z := e.putWarp d 2 (e.act.map fun t => (t, words2 link)) y
    Keeps (after e y) z (dstNames d 2) (uniNames d 2) [] ∧ ∀ t, t ∈ e.runners d → Got (after e y) z d 2 t link := by
  have hact : (after e y).act = e.act := act_after (by rw [← hy])
  have hlink := put_link (e := after e y) (v := link) hd
  rwa [putWarp_congr (e := e) (c := after e y) rfl rfl, Env.runners, hact] at hlink

theorem callReg_scatters {d : BitVec 8} {lit : BitVec 32} (hi : Fetches s e l s1) (hwf : (Instr.callReg d a lit).wf = true)
    (hdst : dstOk d 2 = true) (ha : pairOk a = true) (hs : isS d = true → isS a = true) (hroom : Room e (dstNames d 2))
    (hid : e.idle = false) (hv : ∀ t, t ∈ e.act → e.pread a t = .ok (v t))
    (ht : State.targetsFault e.blk.core e.blk.world e.blk.ctx (e.act.map fun t => (t, BitVec.ofNat 64 (v t))) s1 = (none, s2))
    (hd : e.wp.divide e.sp (e.act.map fun t => (t, BitVec.ofNat 64 (v t))) = some y) :
    ∃ r x, exec (.callReg d a lit) s = .next (r.settleWarp e.b e.w) ∧ Turned e y s2 r x ∧
      Keeps (after e y) x (dstNames d 2) (uniNames d 2) [] ∧
      ∀ t, t ∈ e.runners d → Got (after e y) x d 2 t (linkOf l e.pc 1).toNat := by
  have hport := targetsFault_port ht
  obtain ⟨hb, hch, -⟩ := changed_block hi hport
  obtain ⟨-, hw, -⟩ := fetches_block hi
  have hrun : (callSpec (Instr.callReg d a lit).wf d a e).run e l s1 =
      .jump (e.writeLink (s2.updWarp e.b e.w fun _ => y) d (linkOf l e.pc 1)) := by
    rw [run_guarded (callSpec_plain e hwf hdst ha hs) hroom rfl hid]
    exact jumpTo_link hv ht (warp?_of hb hw) hd
  obtain ⟨hkeeps, hgot⟩ := link_after (link := (linkOf l e.pc 1).toNat) (divide_rest hd) hdst
  obtain ⟨hretired, hactive⟩ := putWarp_turn e d 2 (e.act.map fun t => (t, words2 (linkOf l e.pc 1).toNat)) y
  refine ⟨_, _, runLane_jump (sp := callSpec (Instr.callReg d a lit).wf d a) hi.1 hi.2 hrun,
    turned_of_same (changed_turned (changed_upd (changed_upd hch fun _ => y) _)) hretired hactive ?_,
    keeps_spent hkeeps, fun t h => got_congr (hgot t h) (fun _ => rfl) rfl rfl⟩
  exact (congrArg Warp.pending hkeeps.only).symm

theorem callReg_idle (d a : BitVec 8) (lit : BitVec 32) : Does (.callReg d a lit)
    (fun e _ _ => e.idle = true ∧ dstOk d 2 = true ∧ pairOk a = true ∧ (isS d = true → isS a = true)) fun _ _ s => s :=
  does_of (callSpec _ d a) (fun _ => rfl) fun e _ _ hwf ⟨hid, hd, ha, hs⟩ => by
    rw [(callSpec_plain e hwf hd ha hs).run (.inr (.inl hid)) rfl, if_pos hid]

end

end Sys2Proof.Machine

namespace Sys2Proof.Claim
open Machine

/-- Settles O18: the groups of next program counters after the first one become the new splits, one by one. -/
theorem divisionFollows : Obligations.DivisionFollows := by
  intro x sp q nexts t0 pc0 hq _ hhead _ h16
  obtain ⟨m, gs, hg⟩ := groupsOf_first h16 hhead
  refine ⟨gs.map q.ofGroup, ?_⟩
  rw [List.length_map]
  split
  case isTrue h => exact divide_divided hg hq h16 h
  case isFalse h =>
    exact ⟨divide_full hg hq h, group_once hg h16, fun g hgm => (group_parts hg h16 hgm).2⟩

/-- Settles O17: each instruction jumps after `scatter` has divided its split, or does nothing where it is idle. -/
theorem threadsScatter : Obligations.ThreadsScatter := by
  refine ⟨?brp, ?returns, ?call, brp_idle, fun a lit => return_idle fun _ => rfl, fun a lit => return_idle fun _ => rfl,
    callReg_idle⟩
  case brp => exact fun n p o s e l s1 c y hi ht hid hc hd => brp_scatters hi ht hid hc hd
  case returns =>
    rintro a lit i (rfl | rfl) s e l s1 s2 y v hi hwf ha hid hv ht hd
    · exact return_scatters (fun _ => rfl) hi hwf ha hid hv ht hd
    · exact return_scatters (fun _ => rfl) hi hwf ha hid hv ht hd
  case call =>
    exact fun d a lit s e l s1 s2 y v hi hwf hdst ha hs hroom hid hv ht hd =>
      callReg_scatters hi hwf hdst ha hs hroom hid hv ht hd

end Sys2Proof.Claim
end

section
/-! PROOFS. What a write of results leaves, and what arrives for a block from outside its instructions (R179, R181 to R185, R192,
R193, R338, R339, R362). -/

namespace Sys2Proof.Machine

/-! ## Data and completions that arrive (R192, R364) -/

theorem PhysReg.setLanes_get (r : PhysReg) (m : BitVec 16) (f : Nat → W32) {t : Nat} (ht : t < 16) :
    (r.setLanes m f).vals.get t = if m.getLsbD t then f t else r.vals.get t :=
  (Lanes.get_ofFn (fun t => if m.getLsbD t then f t else r.vals.get t) t).trans (if_pos ht)

namespace Warp

theorem lowerFlag_reg? (x : Warp) (f : Nat) (fault : Option (BitVec 8 × W64)) (n : Nat) :
    (x.lowerFlag f fault).reg? n = x.reg? n := by
  unfold lowerFlag
  split <;> rfl

/-- A change of a physical register is seen through the name that maps to it. -/
theorem reg?_modify {x : Warp} {n p : Nat} {r : PhysReg} (hp : AMap.get? x.rmap n = some p) (hr : x.reg? n = some r)
    (f : PhysReg → PhysReg) : Warp.reg? { x with phys := AMap.modify x.phys p f } n = some (f r) := by
  simp only [reg?, hp] at hr ⊢
  rw [AMap.get?_modify_self, hr, Option.map_some]

/-- Clearing pending bits leaves the tags and the values of a register. -/
theorem settlePend_reg? {x : Warp} {n p : Nat} {r : PhysReg} (hr : x.reg? n = some r) (hp : AMap.get? x.rmap n = some p) :
    ∃ r', (x.settlePend p).reg? n = some r' ∧ r'.tags = r.tags ∧ r'.vals = r.vals :=
  ⟨_, reg?_modify hp hr _, rfl, rfl⟩

/-- A load that fills one register, which nothing has taken over, and does not fault. -/
theorem deliver_one {x : Warp} {id p : Nat} {l : PendLoad} {m : BitVec 16} {v : Lanes} (hl : AMap.get? x.loads id = some l)
    (hfault : l.fault = none) (hheirs : l.heirs = []) (huni : l.uni = none) (htarget : l.targets = [(p, m, v)])
    (hprevs : l.prevs.length = 1) (gen : Nat) (inTry : Bool) :
    x.deliver gen id inTry = ((settlePend { x with
      phys := AMap.modify x.phys p fun r => r.setLanes m v.get
      loads := AMap.erase x.loads id } p).lowerFlag l.flag none).gc := by
  obtain ⟨q, hq⟩ := List.length_eq_one_iff.mp hprevs
  simp only [deliver, hl, hfault, hheirs, huni, htarget, hq]
  rfl

theorem deliver_stands {x : Warp} {id p n : Nat} {l : PendLoad} {m : BitVec 16} {v : Lanes} {r : PhysReg}
    (hl : AMap.get? x.loads id = some l) (hfault : l.fault = none) (hheirs : l.heirs = []) (huni : l.uni = none)
    (htarget : l.targets = [(p, m, v)]) (hprevs : l.prevs.length = 1) (hp : AMap.get? x.rmap n = some p)
    (hr : x.reg? n = some r) (gen : Nat) (inTry : Bool) :
    ∃ r', (x.deliver gen id inTry).reg? n = some r' ∧ r'.tags = r.tags ∧
      ∀ t, t < 16 → r'.vals.get t = if m.getLsbD t then v.get t else r.vals.get t := by
  rw [deliver_one hl hfault hheirs huni htarget hprevs, gc_reg?, lowerFlag_reg?]
  have hset : Warp.reg? { x with
      phys := AMap.modify x.phys p fun r => r.setLanes m v.get
      loads := AMap.erase x.loads id } n = some (r.setLanes m v.get) := reg?_modify hp hr _
  obtain ⟨r', hr', htags, hvals⟩ := settlePend_reg? hset hp
  refine ⟨r', hr', htags, fun t ht => ?_⟩
  rw [hvals, PhysReg.setLanes_get r m v.get ht]

/-- A completion counts its flag down and leaves its fault where the flag has none; other flags stay. -/
theorem lowerFlag_counts {x : Warp} {f : Nat} (hf : f ≤ 11) (hflags : x.flags.length = 12) (hfaults : x.flagFault.length = 12)
    (fault : Option (BitVec 8 × W64)) :
    (x.lowerFlag f fault).flags.getD f 0 = x.flags.getD f 0 - 1 ∧
    (x.lowerFlag f fault).flagFault.getD f none = (match x.flagFault.getD f none with
      | some old => some old
      | none => fault) ∧
    ∀ g, g ≠ f → (x.lowerFlag f fault).flags.getD g 0 = x.flags.getD g 0 ∧
      (x.lowerFlag f fault).flagFault.getD g none = x.flagFault.getD g none := by
  have hlt : f < 12 := Nat.lt_succ_of_le hf
  simp only [lowerFlag, if_pos hf]
  refine ⟨by simp [List.getD, hflags, hlt], ?own, fun g hg => ⟨by simp [List.getD, List.getElem?_set_ne hg.symm], ?other⟩⟩
  case own =>
    cases hold : x.flagFault.getD f none with
    | some old => exact hold
    | none => simp [List.getD, hfaults, hlt]
  case other =>
    cases x.flagFault.getD f none with
    | some old => rfl
    | none => simp [List.getD, List.getElem?_set_ne hg.symm]

theorem joinFree_of {x : Warp} {sp : Nat} {q : Split} (hq : AMap.get? x.active sp = some q) (hpark : q.park = .join)
    (hothers : ∀ p, p ∈ x.active → p.1 ≠ sp → p.2.park ≠ .ready) : x.joinFree sp = true := by
  have hall : (x.active.all fun p => p.1 == sp || p.2.park != .ready) = true :=
    List.all_eq_true.mpr fun p hp => by
      by_cases hsp : p.1 = sp
      · simp [hsp]
      · simp [hothers p hp hsp]
  simp [joinFree, hq, hpark, hall]

end Warp

section
variable {s : State} {k : Block} {x : Warp}

theorem loadDataArrival_delivers {l : PendLoad} (hk : s.block? s.args.block = some k)
    (hx : s.warp? s.args.block s.args.warp = some x) (hl : AMap.get? x.loads s.args.id = some l)
    (hdue : s.awaitsLoad s.args.block s.args.warp s.args.id = false) (hf : l.flag ≠ 15) :
    exec .loadDataArrival s = .next (s.updWarp s.args.block s.args.warp fun y =>
      y.deliver (k.genOf s.args.warp) s.args.id l.inTry) := by
  change execLoadDataArrival s = _
  simp [execLoadDataArrival, hk, hx, hl, hdue, hf]

theorem memoryAccessCompletion_lowers {l : PendAcc} (hx : s.warp? s.args.block s.args.warp = some x)
    (hl : AMap.get? x.accs s.args.id = some l) (hdue : s.awaitsAcc s.args.block s.args.warp s.args.id = false)
    (hf : l.flag ≠ 15) :
    exec .memoryAccessCompletion s = .next (s.updWarp s.args.block s.args.warp fun y =>
      { y.lowerFlag l.flag l.fault with accs := AMap.erase y.accs s.args.id }) := by
  change execMemoryAccessCompletion s = _
  simp [execMemoryAccessCompletion, hx, hl, hdue, hf]

/-! ## Quota requests and joins (R181, R185) -/

theorem quotaGrant_grants {b w sp n : Nat} {rs : List (Nat × Nat × Nat × Nat)}
    (hq : (AMap.getD (s.quarter s.args.unit).quotaQ s.args.n []).filter s.requestLive = (b, w, sp, n) :: rs)
    (hn : n ≤ s.laneFree s.args.unit s.args.n) :
    exec .quotaGrant s = .next (((s.setQuotaQ s.args.unit s.args.n rs).updWarp b w fun x =>
      { x with quota := x.quota + n }).completeParked b w sp) := by
  change execQuotaGrant s = _
  simp only [execQuotaGrant, hq, if_pos hn]

theorem quotaGrant_deadlock {b w sp n : Nat} {rs : List (Nat × Nat × Nat × Nat)} {p : Split}
    (hq : (AMap.getD (s.quarter s.args.unit).quotaQ s.args.n []).filter s.requestLive = (b, w, sp, n) :: rs)
    (hn : s.laneFree s.args.unit s.args.n < n) (hblocked : s.laneBlocked s.args.unit s.args.n = true)
    (hp : s.split? b w sp = some p) :
    exec .quotaGrant s = .next (((s.setQuotaQ s.args.unit s.args.n rs).updSplit b w sp fun p =>
      { p with park := .ready }).laneFault b w p.pc { code := fcQuotaDeadlock }) := by
  change execQuotaGrant s = _
  simp only [execQuotaGrant, hq, if_neg (Nat.not_le.mpr hn), if_pos hblocked, hp]

theorem joinRelease_completes {q : Split} (hk : s.block? s.args.block = some k)
    (hx : s.warp? s.args.block s.args.warp = some x) (hrun : k.run = .running)
    (hq : AMap.get? x.active s.args.split = some q) (hpark : q.park = .join)
    (hothers : ∀ p, p ∈ x.active → p.1 ≠ s.args.split → p.2.park ≠ .ready) :
    exec .joinRelease s = .next (s.completeParked s.args.block s.args.warp s.args.split) := by
  change execJoinRelease s = _
  simp [execJoinRelease, hk, hx, hrun, Warp.joinFree_of hq hpark hothers]

/-! ## Generation scrubs (R193) -/

theorem scrubDue_half {q : Nat} {up : Bool} (hnone : (s.quarter q).scrub = none)
    (hgen : up = true ∧ 7168 ≤ (s.quarter q).gen ∧ (s.quarter q).gen < 8192 ∨ up = false ∧ 15360 ≤ (s.quarter q).gen)
    (hclean : (s.quarter q).clean ≠ some up) : s.scrubDue q = some up := by
  rcases hgen with ⟨rfl, hlow, hhigh⟩ | ⟨rfl, hlow⟩
  · simp [State.scrubDue, hnone, hlow, hhigh, hclean]
  · have hupper : ¬ (s.quarter q).gen < 8192 := by omega
    simp [State.scrubDue, hnone, hlow, hupper, hclean]

theorem generationScrub_asks {up : Bool} (hdue : s.scrubDue s.args.unit = some up) :
    exec .generationScrub s = .next ((s.blocksInHalf s.args.unit up).foldl State.askPreempt
      (s.updQuarter s.args.unit fun x => { x with scrub := some up })) := by
  change execGenerationScrub s = _
  simp only [execGenerationScrub, hdue]

theorem askPreempt_block {b : Nat} (hk : s.block? b = some k) :
    (s.askPreempt b).block? b = some { k with preempt := match k.preempt with
      | some c => some c
      | none => some (.preempt, s.cycles) } := by
  rw [State.askPreempt, block?_updBlock, if_pos rfl, hk, Option.map_some]
  cases k.preempt <;> rfl

theorem blocksInHalf_nil {q : Nat} {up : Bool} (h : ∀ b, b ∈ (s.quarter q).resident → ∀ k, s.block? b = some k →
    inHalf up (k.gens.getD (k.quarters.idxOf q) 0) = false) : s.blocksInHalf q up = [] := by
  refine List.filter_eq_nil_iff.mpr fun b hb => ?_
  cases hk : s.block? b with
  | none => simp
  | some k => simp only [h b hb k hk, Bool.false_eq_true, not_false_eq_true]

theorem generationScrubEnd_clean {up : Bool} (hscrub : (s.quarter s.args.unit).scrub = some up)
    (hnil : s.blocksInHalf s.args.unit up = []) :
    exec .generationScrubEnd s = .next (s.updQuarter s.args.unit fun x => { x with scrub := none, clean := some up }) := by
  change execGenerationScrubEnd s = _
  simp [execGenerationScrubEnd, hscrub, hnil]

end

end Sys2Proof.Machine

namespace Sys2Proof.Claim
open Machine

/-- Settles O22: the block with its warp written, `put_got` of that warp, and the frame of the block. -/
theorem resultsStand : Obligations.ResultsStand := by
  intro s e d k rs blk hblk hw hk hd hfst hlen
  obtain ⟨hkeeps, hgot⟩ := put_got hk hd hfst hlen
  refine ⟨updWarp_only s e.b e.w _, e.putWarp d k rs e.wp, { blk with warps := AMap.modify blk.warps e.w (e.putWarp d k rs) },
    ?block, rfl, ?own, fun v hv => AMap.get?_modify_ne _ _ hv, hkeeps, hgot⟩
  case block => rw [Env.put_eq, block?_updWarp, if_pos rfl, hblk, Option.map_some]
  case own => rw [AMap.get?_modify_self, hw, Option.map_some]

/-- Settles O43, arrival by arrival: loads, accesses and their flags, quota requests, joins, scrubs of generations. -/
theorem arrivalsLand : Obligations.ArrivalsLand := by
  refine ⟨?load, ?deliver, ?access, ?flag, ?grant, ?deadlock, ?join, ?scrub, ?ask, ?scrubEnd⟩
  case load => exact fun _ _ _ _ => loadDataArrival_delivers
  case deliver =>
    intro x gen id f l p m v n r hl hfault hheirs huni htarget hprevs hp hr
    exact Warp.deliver_stands hl hfault hheirs huni htarget hprevs hp hr gen f
  case access => exact fun _ _ _ => memoryAccessCompletion_lowers
  case flag => exact fun _ _ fault hf hflags hfaults => Warp.lowerFlag_counts hf hflags hfaults fault
  case grant => exact fun _ _ _ _ _ _ => quotaGrant_grants
  case deadlock => exact fun _ _ _ _ _ _ _ => quotaGrant_deadlock
  case join => exact fun _ _ _ _ => joinRelease_completes
  case scrub => exact fun _ _ hnone hgen hclean => generationScrub_asks (scrubDue_half hnone hgen hclean)
  case ask => exact fun _ _ _ => askPreempt_block
  case scrubEnd => exact fun _ _ hscrub hclean => generationScrubEnd_clean hscrub (blocksInHalf_nil hclean)

end Sys2Proof.Claim
end

section
/-! PROOFS. Records of a stage graph: allocation, publication, reads, cancellation (R166 to R169, R192, R448 to R451). -/

namespace Sys2Proof.Machine
open Claim

/-! ## Allocation (R166, R448) -/

section
variable {d : GNode} (hsorted : d.recs.Pairwise fun x y => x.1 < y.1)
include hsorted

theorem freeSlot_none (hall : ∀ k, k < d.cap → AMap.get? d.recs k ≠ none) : d.freeSlot = none := by
  obtain ⟨-, hnot, -⟩ := lowestFree_spec 0 d.recs hsorted fun _ _ => Nat.zero_le _
  exact if_neg fun hlt => hall _ hlt ((get?_none_iff _ _).mpr hnot)

theorem freeSlot_lowest {k : Nat} (hk : k < d.cap) (hfree : AMap.get? d.recs k = none)
    (hbelow : ∀ j, j < k → AMap.get? d.recs j ≠ none) : d.freeSlot = some k := by
  obtain ⟨-, hnot, hall⟩ := lowestFree_spec 0 d.recs hsorted fun _ _ => Nat.zero_le _
  have heq : lowestFree 0 (d.recs.map Prod.fst) = k := by
    rcases lt_trichotomy (lowestFree 0 (d.recs.map Prod.fst)) k with h | h | h
    · exact absurd ((get?_none_iff _ _).mpr hnot) (hbelow _ h)
    · exact h
    · exact absurd (hall k (Nat.zero_le _) h) ((get?_none_iff _ _).mp hfree)
  simp [GNode.freeSlot, heq, hk]

end

section
variable {g : Graph} {b depth n : Nat}

theorem grant_depth (h : (AMap.getD g.nodes n {}).maxDepth < depth) : g.grant b depth n = (.depth, g) := by
  simp only [Graph.grant, if_pos h]

theorem grant_full (h : depth ≤ (AMap.getD g.nodes n {}).maxDepth) (hnone : (AMap.getD g.nodes n {}).freeSlot = none) :
    g.grant b depth n = (.full, g) := by
  simp only [Graph.grant, if_neg (Nat.not_lt.mpr h), hnone]

/-- A record is granted the free slot of its node and counts. -/
theorem grant_slot {k : Nat} (h : depth ≤ (AMap.getD g.nodes n {}).maxDepth)
    (hfree : (AMap.getD g.nodes n {}).freeSlot = some k) :
    (g.grant b depth n).1 = .slot k ∧ (g.grant b depth n).2.count = g.count + 1 := by
  simp only [Graph.grant, if_neg (Nat.not_lt.mpr h), hfree]
  exact ⟨trivial, rfl⟩

end

/-- No node number that the threads have read lies past the nodes. -/
theorem any_past_eq_false {N : Nat → Nat} {ts : List Nat} {n : Nat} (h : ∀ t, t ∈ ts → N t < n) :
    ((ts.map fun t => (t, N t)).any fun r => decide (r.2 ≥ n)) = false := by
  rw [List.any_map, List.any_eq_false]
  exact fun t ht => by simpa using h t ht

/-! ## Reads (R192, R450) -/

theorem ReadKeeps.block? {s t : State} (h : State.ReadKeeps s t) (b : Nat) : t.block? b = s.block? b :=
  (congrArg (State.block? · b) h).symm

/-- The addresses of the threads' words, where each record and word is one of the group. -/
theorem recordAddrs_eq {k : Block} {g : Graph} {I K A : Nat → Nat} {ts : List Nat}
    (h : ∀ t, t ∈ ts → k.recordAddr g (I t) (K t) = some (A t)) :
    (((ts.map fun t => (t, I t)).zip (ts.map fun t => (t, K t))).filterMap fun r =>
      (k.recordAddr g r.1.2 r.2.2).map fun a => (r.1.1, a)) = ts.map fun t => (t, A t) := by
  rw [List.zip_map', List.filterMap_map, ← List.filterMap_eq_map]
  exact List.filterMap_congr fun t ht => by simp [h t ht]

section
variable {d i k : BitVec 8} {lit : BitVec 32} {gi : Nat} {g : Graph} {I K A : Nat → Nat} {B : Nat → List Byte} {s s2 : State}
  {e : Env}

/-- A rec.read that finds its words is a load of them. -/
theorem recRead_loads (d i k : BitVec 8) (lit : BitVec 32) : ∃ sp : Env → LaneSpec,
    (∀ s, exec (.recRead d i k lit) s = runLane sp s) ∧
    ∀ {gi g I K A B s2 e l s}, (Instr.recRead d i k lit).wf = true → RecordRead d i k lit gi g I K A B s2 e s →
      (sp e).run e l s =
        e.loadFrom { size := 4, align := 4, disp := 0 } false false d ((e.runners d).map fun t => (t, A t)) s := by
  refine ⟨_, fun _ => rfl, ?_⟩
  rintro gi g I K A B s2 e l s hwf ⟨hfeat, hd, hi, hk, hlit, htry, hid, hroom, hgraph, hthreads, -⟩
  have hlits : (isLit i && isLit k) = false := by rwa [← Bool.not_eq_true, Bool.and_eq_true]
  have haddr : ∀ t, t ∈ e.runners d → e.blk.recordAddr g (I t) (K t) = some (A t) := fun t ht => by
    obtain ⟨-, -, hI, hK, hA⟩ := hthreads t ht
    simp only [Block.recordAddr, ge_iff_le, Nat.not_le.mpr hI, Nat.not_le.mpr hK, or_self, if_false, hA]
  rw [run_of (feat_of rfl hfeat) (by simp [hwf, hd, hi, hk, hlits]) rfl rfl (.inr htry) (.inl rfl) rfl (.inr hid)
    (.inr ⟨hroom, hid⟩)]
  simp only [hgraph, eachThread_eq fun t ht => (hthreads t ht).1, eachThread_eq fun t ht => (hthreads t ht).2.1,
    recordAddrs_eq haddr, List.length_map, bne_self_eq_false, Bool.false_eq_true, if_false]

variable (h : RecordRead d i k lit gi g I K A B s2 e s)
include h

theorem recordRead_lands : e.loadFrom { size := 4, align := 4, disp := 0 } false false d ((e.runners d).map fun t => (t, A t)) s =
    e.landLoad s2 { size := 4, align := 4, disp := 0 } d (accs e s .load 4 4 (e.runners d) A)
      ((e.runners d).map fun t => (t, [BitVec.ofNat 32 (leNat (B t))])) none false := by
  obtain ⟨-, -, -, -, -, -, -, -, -, -, hreach, hheld, hload, hlen⟩ := h
  have hwords : ∀ t ∈ e.runners d, (t, loadWords false (B t)) = (t, [BitVec.ofNat 32 (leNat (B t))]) := fun t ht => by
    simp [loadWords, hlen t ht]
  rw [loadFrom_ok (by simp [Warp.flagFull]) (by simp) hreach hheld hload (runners_sorted e d), List.map_congr_left hwords]
  rfl

/-- Where no other split can look, the words stand in the registers at once. -/
theorem recordRead_alone (ha : Alone e) :
    e.loadFrom { size := 4, align := 4, disp := 0 } false false d ((e.runners d).map fun t => (t, A t)) s =
      .ok (e.put s2 d 1 ((e.runners d).map fun t => (t, [BitVec.ofNat 32 (leNat (B t))]))) := by
  rw [recordRead_lands h]
  obtain ⟨-, -, -, -, -, -, -, -, -, -, hreach, -⟩ := h
  exact landLoad_sync (filter_remote (accs_spec hreach)) rfl ha

/-- Where another split could look, the load is pending and the split waits for it. -/
theorem recordRead_waits (ha : ¬ Alone e) (hw : s.warp? e.b e.w = some e.wp) :
    e.loadFrom { size := 4, align := 4, disp := 0 } false false d ((e.runners d).map fun t => (t, A t)) s =
      .park (pended e 4 15 d false ((e.runners d).map fun t => (t, [BitVec.ofNat 32 (leNat (B t))])) s2)
        (.sync e.wp.freshId) := by
  rw [recordRead_lands h]
  obtain ⟨-, -, -, -, -, -, hid, -, -, -, hreach, -, hload, -⟩ := h
  have hkeeps := loadAll_keeps e none 4 (accs e s .load 4 4 (e.runners d) A) s
  rw [hload] at hkeeps
  have hw2 : s2.warp? e.b e.w = some e.wp := by
    rw [← hw, State.warp?, State.warp?, ReadKeeps.block? hkeeps]
  refine (landLoad_pended (filter_remote (accs_spec hreach)) (.inr ha) hw2 ?some ?below).trans (if_pos rfl)
  case some => simpa using runners_ne d hid
  case below =>
    intro r hr
    obtain ⟨t, ht, rfl⟩ := List.mem_map.mp hr
    exact (mem_act.mp (runners_sub ht)).1

end

end Sys2Proof.Machine

namespace Sys2Proof.Claim
open Machine

/-- Settles O37: allocation and the decision for one thread, publication, a read that is alone and one that is not, and both
cancellations. -/
theorem recordsPass : Obligations.RecordsPass := by
  refine ⟨?alloc, ?grant, ?commit, ?read, ?graph, ?launch⟩
  case alloc =>
    intro d p n lit gi g N rs g1
    refine does_of _ (fun _ => rfl) ?_
    rintro e l s hwf ⟨hfeat, hd, hal, hp, hn, htry, hid, hroom, hgraph, hN, hlt, hcanc, hgrant, hfault⟩
    rw [run_of (feat_of rfl hfeat) (by simp [hwf, hd, hal, hp, hn]) rfl rfl (.inr htry) (.inl rfl) rfl (.inr hid)
      (.inr ⟨hroom, hid⟩)]
    simp only [hgraph, eachThread_eq hN, any_past_eq_false hlt, hcanc, hgrant, hfault, Bool.false_eq_true, if_false,
      List.map_map, List.any_map]
    rfl
  case grant =>
    intro g b depth n
    exact ⟨grant_depth, fun h hall hsorted => grant_full h (freeSlot_none hsorted hall),
      fun k h hk hfree hbelow hsorted => grant_slot h (freeSlot_lowest hsorted hk hfree hbelow)⟩
  case commit =>
    intro a lit gi g A ks
    refine does_of _ (fun _ => rfl) ?_
    rintro e l s hwf ⟨hfeat, ha, hal, htry, hid, hgraph, hcanc, hA, hlen, hnodup, hks⟩
    have hfound : (e.act.map fun t => (t, A t)).filterMap (fun r => e.blk.uncommitted.find? fun q =>
        ((AMap.getD g.nodes q.1 {}).slotAddr q.2).toNat == r.2) = ks :=
      (List.filterMap_map ..).trans hks.symm
    rw [run_of (feat_of rfl hfeat) (by simp [hwf, ha, hal]) rfl rfl (.inr htry) (.inl rfl) rfl (.inr hid) (.inl rfl)]
    simp only [hgraph, eachThread_eq hA, hfound, hcanc, hlen, hnodup.dedup, List.length_map, bne_self_eq_false,
      Bool.or_false, Bool.false_eq_true, if_false]
  case read =>
    intro d i k lit gi g I K A B s2
    obtain ⟨sp, hx, hloads⟩ := recRead_loads d i k lit
    constructor
    · exact does_of sp hx fun e l s hwf ⟨hread, ha⟩ => (hloads hwf hread).trans (recordRead_alone hread ha)
    · rintro s e l s1 hi hwf ⟨hread, ha⟩
      obtain ⟨hb, hw, -⟩ := fetches_block hi
      rw [hx, runLane_park hi.1 hi.2 ((hloads hwf hread).trans (recordRead_waits hread ha (warp?_of hb hw)))]
  case graph =>
    intro gi g
    refine doesThen_of _ (fun _ => rfl) ?_
    rintro e l s - ⟨hfeat, htry, hgraph⟩
    rw [run_of (feat_of rfl hfeat) rfl rfl rfl (.inr htry) (.inl rfl) rfl (.inl rfl) (.inl rfl)]
    simp only [hgraph]
  case launch =>
    intro i
    refine doesThen_of _ (fun _ => rfl) ?_
    rintro e l s - ⟨hfeat, htry, hlaunch⟩
    rw [run_of (feat_of rfl hfeat) rfl rfl rfl (.inr htry) (.inl rfl) rfl (.inl rfl) (.inl rfl)]
    simp only [hlaunch]

end Sys2Proof.Claim
end

section
/-! PROOFS. trap and brk: a record in the call ring where there is one, the end of the block where there is none
(R218, R219, R374, R375). -/

namespace Sys2Proof.Machine
open Claim

section
variable {s s1 : State} {e : Env} {l : FetchLine} (n : BitVec 8)

/-! ## trap (R218, R374) -/

theorem trap_parks (hi : Fetches s e l s1) (htry : e.inTry = false) (hring : s1.ringBase e.blk.world ≠ 0#64) :
    let tok := s1.freshToken.1
    let s2 := s1.freshToken.2
    exec (.trap n) s = .next ((((s2.pushTrap e.blk.world (s2.ringRecord e.blk 1 fcTrap n e.w 0 e.pc 0#64 tok)).updSplit e.b
      e.w e.sp fun q => { q with park := .trap tok }).turnPassed e.b e.w e.sp).settleWarp e.b e.w) :=
  runLane_park hi.1 hi.2 ((run_plainSpec (.inr htry)).trans (if_neg hring))

theorem trap_ends : DoesThen (.trap n) (fun e _ s => e.inTry = false ∧ s.ringBase e.blk.world = 0#64) (fun _ _ s => s)
    fun e s => s.terminate e.b { code := fcTrap, wid := e.w, pc := e.pc, addr := 0#64 } true :=
  doesThen_of _ (fun _ => rfl) fun _ _ _ _ ⟨htry, hring⟩ => (run_plainSpec (.inr htry)).trans (if_pos hring)

/-! ## brk (R219, R375) -/

theorem brk_ends : DoesThen (.brk n) (fun e _ s => s.breakOpen e.blk.world = true ∧ s.ringBase e.blk.world = 0#64)
    (fun _ _ s => s) fun e s => s.terminate e.b { code := fcBrk, wid := e.w, pc := e.pc, addr := 0#64, detail := n } true := by
  refine doesThen_of _ (fun _ => rfl) fun e l s _ ⟨hopen, hring⟩ => ?_
  rw [run_plainSpec (.inl rfl)]
  simp only [hopen, hring, Bool.not_true, Bool.false_eq_true, if_false, if_true]

/-- With a call ring, brk halts at an open breakpoint. -/
theorem brk_breaks (hi : Fetches s e l s1) (hopen : s1.breakOpen e.blk.world = true)
    (hring : s1.ringBase e.blk.world ≠ 0#64) :
    exec (.brk n) s = .next ((s1.breakAt e n).turnPassed e.b e.w e.sp) := by
  refine runLane_stay hi ((run_plainSpec (.inl rfl)).trans ?_)
  simp only [hopen, hring, Bool.not_true, Bool.false_eq_true, if_false]

/-- The breakpoint of a block that is running is no skid: it halts the block (R375). -/
theorem breakAt_running (hrun : e.blk.run = .running) :
    let tok := s1.freshToken.1
    let s2 := s1.freshToken.2
    let fr : FaultRec := { code := fcBrk, wid := e.w, pc := e.pc, addr := 0#64, detail := n, skid := false }
    let s3 := ((s2.pushTrap e.blk.world (s2.ringRecord e.blk 3 fcBrk n e.w 0 e.pc 0#64 tok)).updSplit e.b e.w e.sp
      fun q => { q with park := .trap tok }).updBlock e.b fun k => { k with faults := k.faults ++ [fr] }
    s1.breakAt e n = (s3.updBlock e.b fun k => { k with run := .broken tok, brk := some tok, haltedAt := s3.now }).haltSiblings
      e.b e.w e.blk.determ := by
  have hskid : decide (e.blk.run = .halted) = false := by rw [hrun]; rfl
  simp only [State.breakAt, hskid]
  exact if_pos hrun

end

end Sys2Proof.Machine

namespace Sys2Proof.Claim
open Machine

/-- Settles O20: trap with a call ring and without one, brk without one and, in a block that is running, with one. -/
theorem trapsReport : Obligations.TrapsReport := by
  refine ⟨?trapRing, trap_ends, brk_ends, ?brkRing⟩
  case trapRing => exact fun n s e l s1 hi htry hring => trap_parks n hi htry hring
  case brkRing =>
    intro n s e l s1 hi hopen hring hrun
    rw [brk_breaks n hi hopen hring, breakAt_running n hrun]
    rfl

end Sys2Proof.Claim
end

section
/-! PROOFS. Fences of records and of page-table changes, and sheds: arriving, waiting, both at once, their participants and
the end of a phase (R216, R419 to R422). -/

namespace Sys2Proof.Machine
open Claim

/-! ## fence.rec and fence.map (R216, R418, R419) -/

theorem fenceRec_does : Does .fenceRec (fun e _ _ => e.inTry = false) fun e _ s => s.fenceRecords e.b e.w :=
  does_of _ (fun _ => rfl) fun _ _ _ _ htry => run_plainSpec (.inr htry)

/-- fence.map whose operands name a context: firmware alone may, and it waits for the accesses under the old entries. -/
theorem fenceMap_acts (w c : BitVec 8) (lit : BitVec 32) : ∃ sp : Env → LaneSpec,
    (∀ s, exec (.fenceMap w c lit) s = runLane sp s) ∧
    ∀ {e l s wn cn}, (Instr.fenceMap w c lit).wf = true → srcUOk w 1 = true → srcUOk c 1 = true → e.inTry = false →
      e.srcU (.word lit) w = .ok wn → e.srcU (.word lit) c = .ok cn → wn ≤ 63 → cn ≤ 15 →
      (sp e).run e l s = if e.blk.world ≠ 0 then .fault s { code := fcProtection }
        else if s.remoteDueOf (fun k => k.world == wn && k.ctx == cn) = true then .park s .fence
        else .ok (s.dropTranslations wn cn) := by
  refine ⟨_, fun _ => rfl, ?_⟩
  intro e l s wn cn hwf hw hc htry hwn hcn hworld hctx
  rw [run_of rfl (by simp [hwf, hw, hc]) rfl rfl (.inr htry) (.inl rfl) rfl (.inl rfl) (.inl rfl)]
  have hrange : (decide (wn > 63) || decide (cn > 15)) = false := by simp [hworld, hctx]
  simp only [hwn, hcn, hrange, Bool.false_eq_true, if_false, bne_iff_ne]

/-- Every quarter loses the translations of the context and nothing else. -/
theorem dropTranslations_quarter {s : State} {i : Nat} {q : Quarter} (w c : Nat) (h : AMap.get? s.quarters i = some q) :
    ∃ q', AMap.get? (s.dropTranslations w c).quarters i = some q' ∧ { q with tcache := q'.tcache } = q' ∧
      ∀ t, t ∈ q'.tcache ↔ t ∈ q.tcache ∧ ¬ (t.1 = w ∧ t.2.1 = c) := by
  refine ⟨{ q with tcache := q.tcache.filter fun t => !(t.1 == w && t.2.1 == c) }, ?_, rfl, fun t => ?_⟩
  · rw [State.dropTranslations, AMap.get?_mapVals, h, Option.map_some]
  · simp only [List.mem_filter, Bool.not_eq_true', ← Bool.not_eq_true, Bool.and_eq_true, beq_iff_eq]

/-! ## What the shed instructions do (R421, R422) -/

theorem shedPre_participant {e : Env} {n : Nat} (h : (e.blk.shed n).has e.w = true) : shedPre e n = none := if_pos h

theorem shedArrive_acts (n : BitVec 8) : ∃ sp : Env → LaneSpec, (∀ s, exec (.shedArrive n) s = runLane sp s) ∧
    ∀ {e l s}, (Instr.shedArrive n).wf = true → e.inTry = false → (e.blk.shed n.toNat).has e.w = true →
      (sp e).run e l s = if e.w ∈ (e.blk.shed n.toNat).arrived
        then .park s (.shedArrive n.toNat (e.blk.shed n.toNat).k.toNat) else .ok (s.shedArrive e.b e.w n.toNat) := by
  refine ⟨_, fun _ => rfl, ?_⟩
  intro e l s hwf htry hhas
  rw [run_of rfl hwf rfl rfl (.inr htry) (.inl rfl) (shedPre_participant hhas) (.inl rfl) (.inl rfl)]
  simp only [List.contains_iff_mem]

theorem shedWait_acts (n : BitVec 8) : ∃ sp : Env → LaneSpec, (∀ s, exec (.shedWait n) s = runLane sp s) ∧
    ∀ {e l s}, (Instr.shedWait n).wf = true → e.inTry = false →
      (sp e).run e l s = if shedStill e.split.park n.toNat (e.blk.shed n.toNat) e.w = true
        then .park s (.shedWait n.toNat (e.blk.shed n.toNat).k.toNat) else .ok s := by
  refine ⟨_, fun _ => rfl, ?_⟩
  intro e l s hwf htry
  exact run_of rfl hwf rfl rfl (.inr htry) (.inl rfl) rfl (.inl rfl) (.inl rfl)

/-- A split that has parked on a phase waits for that phase, any other while its warp's arrival stands. -/
theorem shedStill_iff (p : Park) (n : Nat) (x : Shed) (w : Nat) : shedStill p n x w = true ↔
    (∀ m k, p = .shedWait m k → m = n ∧ k = x.k.toNat) ∧ ((∀ m k, p ≠ .shedWait m k) → w ∈ x.arrived) := by
  by_cases hp : ∃ m k, p = .shedWait m k
  · obtain ⟨m, k, rfl⟩ := hp
    simp [shedStill]
  · have hne : ∀ m k, p ≠ .shedWait m k := fun m k h => hp ⟨m, k, h⟩
    have hstill : shedStill p n x w = x.arrived.contains w := by
      unfold shedStill
      split
      · exact absurd rfl (hne _ _)
      · rfl
    simp [hstill, hne]

/-- shed.sync issues for the first time or again after its wait: it arrives, or looks whether the phase has passed. -/
theorem shedSync_acts (n : BitVec 8) : ∃ sp : Env → LaneSpec, (∀ s, exec (.shedSync n) s = runLane sp s) ∧
    ∀ {e l s}, (Instr.shedSync n).wf = true → e.inTry = false → (e.blk.shed n.toNat).has e.w = true →
      ((∀ m k, e.split.park ≠ .shedWait m k) → e.w ∉ (e.blk.shed n.toNat).arrived →
        (sp e).run e l s = if ((s.shedArrive e.b e.w n.toNat).shedOf e.b n.toNat).k = (e.blk.shed n.toNat).k
          then .park (s.shedArrive e.b e.w n.toNat) (.shedWait n.toNat (e.blk.shed n.toNat).k.toNat)
          else .ok (s.shedArrive e.b e.w n.toNat)) ∧
      ∀ m k, e.split.park = .shedWait m k → k ≠ (e.blk.shed n.toNat).k.toNat → (sp e).run e l s = .ok s := by
  refine ⟨_, fun _ => rfl, ?_⟩
  intro e l s hwf htry hhas
  rw [run_of rfl hwf rfl rfl (.inr htry) (.inl rfl) (shedPre_participant hhas) (.inl rfl) (.inl rfl)]
  constructor
  · intro hpark harrived
    dsimp only
    split
    · exact absurd ‹_› (hpark _ _)
    · rw [if_neg (by rwa [List.contains_iff_mem])]
  · intro m k hpark hpassed
    simp only [hpark, hpassed, if_false]

/-- A value of shed.init that may stand: its reserved bits are 0, its warps are of the block, somebody takes part, the weft
only where the block has one, and nobody has arrived at the phase in progress (R421). -/
theorem shedInitOk_of {k : Block} {x : Shed} {y : Nat} (hres : y < 2 ^ 17) (hwarps : y % 256 + y / 256 % 256 ≤ k.warps.length)
    (hsome : y / 256 % 256 ≠ 0 ∨ y.testBit 16 = true) (hweft : y.testBit 16 = true → k.weft.isSome = true)
    (harrived : x.arrived = []) (hweftArrived : x.weftArrived = false) : shedInitOk k x y = true := by
  have hhigh : y / 2 ^ 17 = 0 := Nat.div_eq_of_lt hres
  have himp : (!y.testBit 16 || k.weft.isSome) = true := by
    cases h : y.testBit 16 with
    | false => rfl
    | true => exact hweft h
  have hparts : (y / 256 % 256 != 0 || y.testBit 16) = true := by simpa using hsome
  simp only [shedInitOk, bits_eq, hhigh, harrived, hweftArrived, himp]
  simpa [hwarps] using hparts

theorem shedInit_does (n v : BitVec 8) (lit : BitVec 32) (y : Nat) : Does (.shedInit n v lit)
    (fun e _ _ => srcUOk v 1 = true ∧ e.inTry = false ∧ e.srcU (.word lit) v = .ok y ∧
      shedInitOk e.blk (e.blk.shed n.toNat) y = true)
    fun e _ s =>
      let x := { e.blk.shed n.toNat with first := y % 256, num := y / 256 % 256, weft := y.testBit 16 }
      s.updBlock e.b fun k => { k with sheds := AMap.set k.sheds n.toNat x } := by
  refine does_of _ (fun _ => rfl) fun e l s hwf ⟨hv, htry, hy, hok⟩ => ?_
  rw [run_of rfl (by simp [hwf, hv]) rfl rfl (.inr htry) (.inl rfl) rfl (.inl rfl) (.inl rfl)]
  simp [hy, hok, bits_eq]

/-! ## The end of a phase (R420) -/

/-- Every participant of the shed that has not ended has arrived. -/
theorem shedComplete_iff (k : Block) (x : Shed) : shedComplete k x = true ↔
    (∀ i, i < x.num → x.first + i ∈ x.arrived ∨ ∀ v, AMap.get? k.warps (x.first + i) = some v → v.ended = true) ∧
      (x.weft = true → x.weftArrived = true ∨ ∀ v, k.weft = some v → v.ended = true) := by
  rw [shedComplete, Bool.and_eq_true]
  refine and_congr ?warps ?weft
  case warps =>
    simp only [List.all_eq_true, List.mem_range, Bool.or_eq_true, List.contains_iff_mem]
    refine forall₂_congr fun i _ => or_congr_right ?_
    cases AMap.get? k.warps (x.first + i) <;> simp
  case weft =>
    rw [Bool.or_assoc, Bool.or_eq_true, Bool.not_eq_true', ← Bool.not_eq_true, ← imp_iff_not_or, Bool.or_eq_true]
    refine imp_congr_right fun _ => or_congr_right ?_
    cases k.weft <;> simp

theorem shedPending_iff (x : Shed) : shedPending x = true ↔ x.arrived ≠ [] ∨ x.weftArrived = true := by
  simp [shedPending]

theorem settleSheds_shed {k : Block} {n : Nat} {x : Shed} (h : AMap.get? k.sheds n = some x) :
    AMap.get? k.settleSheds.sheds n = some (if shedPending x && shedComplete k x then x.complete else x) := by
  rw [Block.settleSheds, AMap.get?_mapVals, h, Option.map_some]

end Sys2Proof.Machine

namespace Sys2Proof.Claim
open Machine

/-- Settles O34: the two fences, the four shed instructions by where the warp and its split stand, and the end of a phase. -/
theorem shedsSynchronise : Obligations.ShedsSynchronise := by
  refine ⟨fenceRec_does, ?mapDrops, ?mapParks, ?mapFaults, fun s w c i q => dropTranslations_quarter w c, ?arrives,
    ?arriveParks, ?waits, ?waitParks, shedStill_iff, ?syncPasses, ?syncParks, ?syncAgain, ?init, ?phase⟩
  case mapDrops =>
    intro w c lit wn cn
    obtain ⟨sp, hx, hacts⟩ := fenceMap_acts w c lit
    refine does_of sp hx fun e l s hwf ⟨hw, hc, htry, hwn, hcn, hworld, hctx, hfirmware, hanswered⟩ => ?_
    rw [hacts hwf hw hc htry hwn hcn hworld hctx, if_neg (not_not.mpr hfirmware), if_neg (by simp [hanswered])]
  case mapParks =>
    intro w c lit wn cn
    obtain ⟨sp, hx, hacts⟩ := fenceMap_acts w c lit
    refine parks_of sp hx fun e l s hwf ⟨hw, hc, htry, hwn, hcn, hworld, hctx, hfirmware, hdue⟩ => ?_
    rw [hacts hwf hw hc htry hwn hcn hworld hctx, if_neg (not_not.mpr hfirmware), if_pos hdue]
  case mapFaults =>
    rintro w c lit wn cn s e l s1 ⟨hissuer, hline⟩ ⟨hwf, hw, hc, htry, hwn, hcn, hworld, hctx, hother⟩
    obtain ⟨sp, hx, hacts⟩ := fenceMap_acts w c lit
    rw [hx, runLane_fault hissuer hline ((hacts hwf hw hc htry hwn hcn hworld hctx).trans (if_pos hother))]
  case arrives =>
    intro n
    obtain ⟨sp, hx, hacts⟩ := shedArrive_acts n
    exact does_of sp hx fun _ _ _ hwf ⟨htry, hhas, hclear⟩ => (hacts hwf htry hhas).trans (if_neg hclear)
  case arriveParks =>
    intro n
    obtain ⟨sp, hx, hacts⟩ := shedArrive_acts n
    exact parks_of sp hx fun _ _ _ hwf ⟨htry, hhas, hset⟩ => (hacts hwf htry hhas).trans (if_pos hset)
  case waits =>
    intro n
    obtain ⟨sp, hx, hacts⟩ := shedWait_acts n
    exact does_of sp hx fun _ _ _ hwf ⟨htry, hpassed⟩ => (hacts hwf htry).trans (if_neg (by simp [hpassed]))
  case waitParks =>
    intro n
    obtain ⟨sp, hx, hacts⟩ := shedWait_acts n
    exact parks_of sp hx fun _ _ _ hwf ⟨htry, hstill⟩ => (hacts hwf htry).trans (if_pos hstill)
  case syncPasses =>
    intro n
    obtain ⟨sp, hx, hacts⟩ := shedSync_acts n
    exact does_of sp hx fun _ _ _ hwf ⟨htry, hhas, hpark, hclear, hlast⟩ =>
      ((hacts hwf htry hhas).1 hpark hclear).trans (if_neg hlast)
  case syncParks =>
    intro n
    obtain ⟨sp, hx, hacts⟩ := shedSync_acts n
    exact parks_of sp hx fun _ _ _ hwf ⟨htry, hhas, hpark, hclear, hsame⟩ =>
      ((hacts hwf htry hhas).1 hpark hclear).trans (if_pos hsame)
  case syncAgain =>
    intro n
    obtain ⟨sp, hx, hacts⟩ := shedSync_acts n
    exact does_of sp hx fun _ _ _ hwf ⟨htry, hhas, m, k, hpark, hpassed⟩ => (hacts hwf htry hhas).2 m k hpark hpassed
  case init =>
    rintro n v lit y s e l s1 pc hi hwf ⟨hv, htry, hy, hres, hwarps, hsome, hweft, harrived, hweftArrived⟩
    exact shedInit_does n v lit y s e l s1 pc hi hwf
      ⟨hv, htry, hy, shedInitOk_of hres hwarps hsome hweft harrived hweftArrived⟩
  case phase =>
    intro k n x hx
    refine ⟨_, settleSheds_shed hx, fun hopen => if_neg ?_, fun hdone => if_pos ?_⟩
    · rwa [Bool.and_eq_true, shedPending_iff, shedComplete_iff, and_comm, and_assoc]
    · rwa [Bool.and_eq_true, shedPending_iff, shedComplete_iff, and_comm, and_assoc]

end Sys2Proof.Claim
end

section
/-! PROOFS. nop, brk, yield, waitf, fence, fence.code and bru where they wait for nothing, and where they park or raise what a
flag holds (R181, R206, R252, R254, R354, R357, R363, R365, R375, R417). -/

namespace Sys2Proof.Machine
open Claim

/-! ## Instructions without an operand (R354, R363, R365, R375) -/

theorem nop_passes : Does .nop (fun _ _ _ => True) (fun _ _ s => s) :=
  does_of _ (fun _ => rfl) fun _ _ _ _ _ => run_plainSpec (.inl rfl)

theorem brk_passes (n : BitVec 8) : Does (.brk n) (fun e _ s => s.breakOpen e.blk.world = false) fun _ _ s => s :=
  does_of _ (fun _ => rfl) fun _ _ _ _ hclosed => (run_plainSpec (.inl rfl)).trans (if_pos (by rw [hclosed]; rfl))

theorem yield_passes : Does .yield (fun e _ _ => e.blk.preempt = none) fun _ _ s => s :=
  does_of _ (fun _ => rfl) fun _ _ _ _ hnone => by
    rw [run_plainSpec (.inl rfl)]
    simp only [hnone]

theorem othersParked_iff (e : Env) : e.othersParked = true ↔ ∀ p, p ∈ e.wp.active → p.1 = e.sp ∨ p.2.park ≠ .ready := by
  simp [Env.othersParked]

theorem waitfJoin_passes :
    Does .waitfJoin (fun e _ _ => ∀ p, p ∈ e.wp.active → p.1 = e.sp ∨ p.2.park ≠ .ready) fun _ _ s => s :=
  does_of _ (fun _ => rfl) fun e _ _ _ hothers => (run_plainSpec (.inl rfl)).trans (if_pos ((othersParked_iff e).mpr hothers))

/-! ## waitf (R206, R365) -/

/-- waitf waits while its flag counts, then passes or raises the fault that the flag holds. -/
theorem waitf_acts (f : BitVec 8) : ∃ sp : Env → LaneSpec, (∀ s, exec (.waitf f) s = runLane sp s) ∧
    ∀ {e l s}, f.toNat ≤ 11 →
      (e.wp.flags.getD f.toNat 0 ≠ 0 → (sp e).run e l s = .park s .waitf) ∧
      (e.wp.flags.getD f.toNat 0 = 0 → e.wp.flagFault.getD f.toNat none = none → (sp e).run e l s = .ok s) ∧
      ∀ {c a}, e.wp.flags.getD f.toNat 0 = 0 → e.wp.flagFault.getD f.toNat none = some (c, a) →
        (sp e).run e l s = .fault (s.updWarp e.b e.w fun x => { x with flagFault := x.flagFault.set f.toNat none })
          { code := c, addr := a } := by
  refine ⟨_, fun _ => rfl, ?_⟩
  intro e l s hf
  rw [run_of rfl (decide_eq_true hf) rfl rfl (.inl rfl) (.inl rfl) rfl (.inl rfl) (.inl rfl)]
  simp only [bne_iff_ne]
  refine ⟨fun hcounts => if_pos hcounts, fun hzero hnone => ?_, fun hzero hheld => ?_⟩
  · rw [if_neg (not_not.mpr hzero), hnone]
  · rw [if_neg (not_not.mpr hzero), hheld]

theorem waitf_wf {f : BitVec 8} (hwf : (Instr.waitf f).wf = true) : f.toNat ≤ 11 := of_decide_eq_true hwf

/-! ## fence and fence.code (R252, R254, R417) -/

theorem fence_acts (sc : BitVec 4) (o : BitVec 2) : ∃ sp : Env → LaneSpec, (∀ s, exec (.fence sc o) s = runLane sp s) ∧
    ∀ {e l s}, (Instr.fence sc o).wf = true → e.inTry = false → (sp e).run e l s =
      if 2 ≤ sc.toNat ∧ o.getLsbD 1 = true ∧ s.releaseDue e.b e.w e.blk.world sc.toNat = true then .park s .fence
      else .ok (if o.getLsbD 0 then s.learn e sc.toNat else s) := by
  refine ⟨_, fun _ => rfl, ?_⟩
  intro e l s hwf htry
  rw [run_of rfl hwf rfl rfl (.inr htry) (.inl rfl) rfl (.inl rfl) (.inl rfl)]
  simp only [Bool.and_eq_true, decide_eq_true_eq, and_assoc]

/-- At .pod and .dom a release waits for the world's accesses, below for its own warp's (R254). -/
theorem releaseDue_iff (s : State) (b w world scope : Nat) : s.releaseDue b w world scope = true ↔
    if 6 ≤ scope then s.remoteDueOf (fun k => k.world == world) = true else s.remoteDue b w = true := by
  unfold State.releaseDue
  split <;> rfl

theorem not_releaseDue {s : State} {b w world scope : Nat} (hown : s.remoteDue b w = false)
    (hworld : 6 ≤ scope → s.remoteDueOf (fun k => k.world == world) = false) : ¬ s.releaseDue b w world scope = true := by
  rw [releaseDue_iff]
  split
  case isTrue h => simp [hworld h]
  case isFalse => simp [hown]

theorem fenceCode_drops : Does .fenceCode (fun e _ _ => e.inTry = false)
    fun e _ s => { s with icache := s.icache.filter fun p => p.1 / 2 ^ 72 % 64 != e.blk.world } :=
  does_of _ (fun _ => rfl) fun _ _ _ _ htry => run_plainSpec (.inr htry)

/-! ## bru on zero (R357) -/

theorem bru_passes (sr : BitVec 6) (o : BitVec 18) :
    Does (.bru sr o) (fun e _ s => (tgt e s (dest e o)).1 = none ∧ e.sread sr.toNat = .ok 0#32)
      fun e _ s => (tgt e s (dest e o)).2 :=
  does_of _ (fun _ => rfl) fun _ _ _ _ ⟨htarget, hzero⟩ => (bru_run htarget hzero).trans (if_pos rfl)

end Sys2Proof.Machine

namespace Sys2Proof.Claim
open Machine

/-- Settles O15: each instruction completes from the state its fetch leaves; waitf and fence by what holds them back. -/
theorem waitingAndPassing : Obligations.WaitingAndPassing := by
  refine ⟨⟨nop_passes, brk_passes, yield_passes, ?waitf, waitfJoin_passes, ?fence, ?fenceParks, fenceCode_drops,
    bru_passes⟩, ?waitfParks, ?waitfFaults⟩
  case waitf =>
    intro f
    obtain ⟨sp, hx, hacts⟩ := waitf_acts f
    exact does_of sp hx fun _ _ _ hwf ⟨hzero, hnone⟩ => (hacts (waitf_wf hwf)).2.1 hzero hnone
  case waitfParks =>
    intro f
    obtain ⟨sp, hx, hacts⟩ := waitf_acts f
    exact parks_of sp hx fun _ _ _ hwf hcounts => (hacts (waitf_wf hwf)).1 hcounts
  case waitfFaults =>
    rintro s e l s1 f c a ⟨hissuer, hline⟩ hf hzero hheld
    obtain ⟨sp, hx, hacts⟩ := waitf_acts f
    rw [hx, runLane_fault hissuer hline ((hacts hf).2.2 hzero hheld)]
  case fence =>
    intro sc o
    obtain ⟨sp, hx, hacts⟩ := fence_acts sc o
    refine does_of sp hx fun e l s hwf ⟨htry, hfree⟩ => (hacts hwf htry).trans (if_neg ?_)
    rintro ⟨hscope, hrelease, hdue⟩
    rcases hfree with h | h | ⟨hown, hworld⟩
    · exact Nat.not_le.mpr h hscope
    · rw [h] at hrelease; cases hrelease
    · exact not_releaseDue hown hworld hdue
  case fenceParks =>
    intro sc o
    obtain ⟨sp, hx, hacts⟩ := fence_acts sc o
    refine parks_of sp hx fun e l s hwf ⟨htry, hscope, hrelease, hdue⟩ => (hacts hwf htry).trans (if_pos ?_)
    exact ⟨hscope, hrelease, (releaseDue_iff ..).mpr hdue⟩

end Sys2Proof.Claim
end

section
/-! PROOFS. Loads: what each thread reads, at once or as a pending load, the aliases that a region notes, and racing reads (R192, R232,
R233, R263, R347, R407, R409, R410). -/

namespace Sys2Proof.Machine
open Claim

/-! ## Racing reads (R232) -/

/-- A read does not pass by the newest write of the byte that its agent has seen. -/
theorem raceRead_seen (me : Nat × Option Nat) (skip : Nat → Bool) {k : RaceByte} (now : Byte) {p q : List RaceWrite} {w : RaceWrite}
    (hother : ∀ v, v ∈ p → v.byte ≠ k) (hbyte : w.byte = k) (hseen : me ∈ w.seen) :
    (raceRead me skip k now (p ++ w :: q)).1 = now := by
  induction p with
  | nil =>
    have hstop : (w.seen.contains me || !skip w.piece) = true := by simp [hseen]
    rw [List.nil_append, raceRead, if_pos hbyte, if_pos hstop]
  | cons v p ih =>
    rw [List.cons_append, raceRead, if_neg (hother v (by simp))]
    exact ih fun u hu => hother u (by simp [hu])

/-! ## The load instructions (R409, R410) -/

/-- `i` runs as a load of these fields, its ordering one that the load allows (R230). -/
structure RunsLoad (i : Instr) (spec : Bool) (w : BitVec 3) (d a : BitVec 8) (f o : BitVec 4) (x : BitVec 32) : Prop where
  runs : ∀ s, exec i s = runLane (loadSpec i.wf spec true w d a f o x) s
  width : i.wf = true → w.toNat ≤ 6

section
variable {w : BitVec 3} {d a : BitVec 8} {f o : BitVec 4} {x : BitVec 32}

theorem ld_runsLoad : RunsLoad (.ld w d a f o) false w d a f o 0#32 where
  runs _ := rfl
  width hwf := of_decide_eq_true (Bool.and_eq_true_iff.mp hwf).1

theorem ldXform_runsLoad (hord : xOrd x ≤ 1) : RunsLoad (.ldXform w d a f o x) false w d a f o x where
  runs s := by
    show execLdXform w d a f o x s = _
    rw [execLdXform, decide_eq_true hord]
  width hwf := of_decide_eq_true (Bool.and_eq_true_iff.mp (Bool.and_eq_true_iff.mp hwf).1).1

theorem ldSpec_runsLoad : RunsLoad (.ldSpec w d a f o) true w d a f o 0#32 where
  runs _ := rfl
  width hwf := Nat.le_succ_of_le (of_decide_eq_true (Bool.and_eq_true_iff.mp hwf).1)

theorem ldSpecXform_runsLoad (hord : xOrd x = 0) : RunsLoad (.ldSpecXform w d a f o x) true w d a f o x where
  runs s := by
    show execLdSpecXform w d a f o x s = _
    rw [execLdSpecXform, beq_iff_eq.mpr hord]
  width hwf := Nat.le_succ_of_le (of_decide_eq_true (Bool.and_eq_true_iff.mp (Bool.and_eq_true_iff.mp hwf).1).1)

end

/-! ## The aliases that a region notes (R263) -/

/-- The warp with the granules that a load of thread `t` at `A t` reads entered among its region's aliases. -/
def aliased (e : Env) (d : BitVec 8) (A : Nat → Nat) (y : Warp) : Warp :=
  { y with region := y.region.map fun r => { r with alias_ := r.alias_ ++ [(e.runners d).map fun t => (t, A t / 32)] } }

/-- The issuer of a load once its granules are noted; `noting`: it is an ld.spec in a region. -/
def noted (noting : Bool) (e : Env) (d : BitVec 8) (A : Nat → Nat) : Env :=
  if noting then after e (aliased e d A e.wp) else e

/-- The state of the load once its granules are noted. -/
def notedState (noting : Bool) (e : Env) (d : BitVec 8) (A : Nat → Nat) (s : State) : State :=
  if noting then s.updWarp e.b e.w (aliased e d A) else s

section
variable (noting : Bool) (e : Env) (d : BitVec 8) (A : Nat → Nat)

theorem noted_act : (noted noting e d A).act = e.act := by
  cases noting
  · rfl
  · exact act_after rfl

theorem noted_putWarp : (noted noting e d A).putWarp = e.putWarp := by
  cases noting
  · rfl
  · exact putWarp_congr rfl rfl

theorem noted_freshId : (noted noting e d A).wp.freshId = e.wp.freshId := by
  cases noting <;> rfl

theorem notedState_changed {s : State} (hb : s.block? e.b = some e.blk) (hw : AMap.get? e.blk.warps e.w = some e.wp) :
    Changed e s (notedState noting e d A s) (noted noting e d A).wp := by
  cases noting
  · exact changed_start hb hw
  · exact changed_upd (changed_start hb hw) _

/-- The retirement of an issuer whose granules are noted is its own. -/
theorem noted_retired {s1 s2 : State} {y : Warp} {pc : W64} (h : Changed e s1 s2 y)
    (hs : AMap.get? e.wp.active e.sp = some e.split) (hr : y.retired = (noted noting e d A).wp.retired)
    (ha : y.active = (noted noting e d A).wp.active) :
    Retired (noted noting e d A) s1 (s2.retireTo e pc) (turned (noted noting e d A) pc y) pc := by
  cases noting
  · exact changed_retired h hs hr ha
  · exact changed_retired (e := after e (aliased e d A e.wp)) ⟨h.rest, h.block⟩ hs hr ha

end

theorem changed_warp {e : Env} {s1 s2 : State} {y : Warp} (h : Changed e s1 s2 y) : s2.warp? e.b e.w = some y := by
  obtain ⟨-, k, hk, -, -, hy, -⟩ := h
  exact warp?_of hk hy

/-! ## What a load finds and leaves (R192, R407, R409) -/

/-- A load passes its checks, each thread reaches memory at `A t` and reads `B t` there, and reading leaves `s2` (R348, R407). -/
structure LoadFinds (spec : Bool) (w : BitVec 3) (d a : BitVec 8) (f o : BitVec 4) (x : BitVec 32) (A : Nat → Nat)
    (B : Nat → List Byte) (e : Env) (s s2 : State) : Prop where
  dst : dstOk d (sizeRegs (widthBytes w)) = true
  addr : addrOk a = true
  uniform : isS d = true → isS a = true
  room : Room e (dstNames d (sizeRegs (widthBytes w)))
  busy : e.idle = false
  feature : spec = true → s.feature e.blk.world 3 = true
  aliases : spec = true → e.inTry = true → ∀ r, e.wp.region = some r → r.alias_.length < 16
  flag : e.wp.flagFull f.toNat = false
  addrs : ∀ t, t ∈ e.runners d → e.addrOf a ((o.toNat * widthBytes w : Nat) + xBoff x) t = .ok (A t)
  reach : Reaches e s .load (widthBytes w) (widthBytes w) (e.runners d) A
  held : s.anyHeld e.b (widthBytes w) (accs e s .load (widthBytes w) (widthBytes w) (e.runners d) A) = false
  reads : State.loadAll e (acqOf x) (widthBytes w) (accs e s .load (widthBytes w) (widthBytes w) (e.runners d) A) s =
    ((accs e s .load (widthBytes w) (widthBytes w) (e.runners d) A).map fun x => (x, .ok (B x.t)), s2)
  length : ∀ t, t ∈ e.runners d → (B t).length = widthBytes w

/-- The register words of the threads' data. -/
def loadedWords (e : Env) (w : BitVec 3) (d : BitVec 8) (B : Nat → List Byte) : List (Nat × List W32) :=
  (e.runners d).map fun t => (t, loadWords (widthSigned w) (B t))

theorem loadedWords_fst (e : Env) (w : BitVec 3) (d : BitVec 8) (B : Nat → List Byte) :
    (loadedWords e w d B).map Prod.fst = e.runners d := by
  simp [loadedWords, Function.comp_def]

theorem widthOp_acqScope (w : BitVec 3) (f o : BitVec 4) (x : BitVec 32) : (widthOp w f o x).acqScope = acqOf x := by
  simp only [MemOp.acqScope, widthOp, memOp, acqOf, beq_iff_eq]

theorem sizeRegs_ne (w : BitVec 3) : sizeRegs (widthBytes w) ≠ 0 := by
  revert w; decide

section
variable {i : Instr} {spec : Bool} {w : BitVec 3} {d a : BitVec 8} {f o : BitVec 4} {x : BitVec 32} {A : Nat → Nat}
  {B : Nat → List Byte} {e : Env} {s s2 : State} {l : FetchLine}

/-- With no active thread a load does nothing (R347). -/
theorem load_idle (hi : RunsLoad i spec w d a f o x) :
    Does i (fun e _ s => e.idle = true ∧ dstOk d (sizeRegs (widthBytes w)) = true ∧ addrOk a = true ∧
      (isS d = true → isS a = true) ∧ (spec = true → s.feature e.blk.world 3 = true)) fun _ _ s => s := by
  refine does_of _ hi.runs fun e l s hwf ⟨hid, hd, ha, hs, hfeature⟩ => ?_
  have hfeat : (loadSpec i.wf spec true w d a f o x e).featOff e s = false := by
    cases spec with
    | false => rfl
    | true => exact feat_of rfl (hfeature rfl)
  have hop : (loadSpec i.wf spec true w d a f o x e).opOk = true := by
    by_cases h : isS d = true
    · simp [loadSpec, hwf, hd, ha, hs h]
    · simp [loadSpec, hwf, hd, ha, h]
  rw [LaneSpec.run_pass hfeat hop rfl rfl (fun _ => rfl) (by simp [loadSpec]) rfl (.inr (.inl hid)), hid]
  rfl

variable (h : LoadFinds spec w d a f o x A B e s s2)
include h

theorem LoadFinds.keeps : State.ReadKeeps s s2 := by
  have hkeeps := loadAll_keeps e (acqOf x) (widthBytes w) (accs e s .load (widthBytes w) (widthBytes w) (e.runners d) A) s
  rwa [h.reads] at hkeeps

theorem LoadFinds.block (hb : s.block? e.b = some e.blk) : s2.block? e.b = some e.blk :=
  (ReadKeeps.block? h.keeps e.b).trans hb

/-- A word of a thread's data is that of the number which the load gives. -/
theorem LoadFinds.word (hw : w.toNat ≤ 6) {t : Nat} {ws : List W32} {v : Nat} (hmem : (t, ws) ∈ loadedWords e w d B)
    (hv : Loaded (widthSigned w) (B t) v) {j : Nat} (hj : j < sizeRegs (widthBytes w)) :
    ws.getD j 0#32 = BitVec.ofNat 32 (v / 2 ^ (32 * j)) := by
  obtain ⟨u, hu, heq⟩ := List.mem_map.mp hmem
  cases heq
  exact loadWords_val hw (h.length t hu) hv hj

/-- The load lands what it has read, once the granules of an ld.spec are noted. -/
theorem LoadFinds.lands (hwf : i.wf = true) : (loadSpec i.wf spec true w d a f o x e).run e l s =
    e.landLoad (notedState (spec && e.inTry) e d A s2) (widthOp w f o x) d
      (accs e s .load (widthBytes w) (widthBytes w) (e.runners d) A) (loadedWords e w d B) none (widthSigned w) := by
  have haddrs : eachThread (e.addrOf a (widthOp w f o x).disp) (e.runners d) = .ok ((e.runners d).map fun t => (t, A t)) :=
    eachThread_eq h.addrs
  rw [loadSpec_run hwf rfl h.dst h.addr h.uniform h.room h.busy h.feature, Env.load, haddrs]
  exact loadFrom_ok h.flag h.aliases h.reach h.held (by rw [widthOp_acqScope]; exact h.reads) (runners_sorted e d)

/-- Without a flag, and where no other split can look, the data stands in the registers at once. -/
theorem LoadFinds.alone (hwf : i.wf = true) (hf : f = 15#4) (ha : Alone e) : (loadSpec i.wf spec true w d a f o x e).run e l s =
    .ok (e.put (notedState (spec && e.inTry) e d A s2) d (sizeRegs (widthBytes w)) (loadedWords e w d B)) := by
  subst hf
  rw [h.lands hwf]
  exact landLoad_sync (filter_remote (accs_spec h.reach)) rfl ha

/-- Otherwise the load is pending; without a flag its split waits. -/
theorem LoadFinds.pends (hwf : i.wf = true) (hf : f ≠ 15#4 ∨ ¬ Alone e) (hb : s.block? e.b = some e.blk)
    (hw : AMap.get? e.blk.warps e.w = some e.wp) : (loadSpec i.wf spec true w d a f o x e).run e l s =
      let u := pended e (widthBytes w) f.toNat d (widthSigned w) (loadedWords e w d B) (notedState (spec && e.inTry) e d A s2)
      if f.toNat = 15 then .park u (.sync e.wp.freshId) else .ok u := by
  have hwarp := changed_warp (notedState_changed (spec && e.inTry) e d A (h.block hb) hw)
  have hflag : f.toNat ≠ 15 ∨ ¬ Alone e := hf.imp_left fun hne heq => hne (BitVec.eq_of_toNat_eq heq)
  rw [h.lands hwf, ← noted_freshId (spec && e.inTry) e d A]
  refine landLoad_pended (filter_remote (accs_spec h.reach)) hflag hwarp ?some ?below
  case some => simpa [loadedWords] using runners_ne d h.busy
  case below =>
    intro r hr
    obtain ⟨t, ht, rfl⟩ := List.mem_map.mp hr
    exact (mem_act.mp (runners_sub ht)).1

/-- What the data of a load that is alone leaves: the registers hold it, and nothing else of the warp has changed but the
region's aliases. -/
theorem LoadFinds.stands (hw : w.toNat ≤ 6) :
    let c := noted (spec && e.inTry) e d A
    let y := e.putWarp d (sizeRegs (widthBytes w)) (loadedWords e w d B) c.wp
    Keeps c y (dstNames d (sizeRegs (widthBytes w))) (uniNames d (sizeRegs (widthBytes w))) [] ∧
      ∀ t v, t ∈ e.runners d → Loaded (widthSigned w) (B t) v → Got c y d (sizeRegs (widthBytes w)) t v := by
  have hact := noted_act (spec && e.inTry) e d A
  have hfst : (loadedWords e w d B).map Prod.fst = e.act ∨
      (isS d = true ∧ (loadedWords e w d B).map Prod.fst = e.act.take 1) := by
    rw [loadedWords_fst, Env.runners]
    by_cases hs : isS d = true
    · exact .inr ⟨hs, if_pos hs⟩
    · exact .inl (if_neg hs)
  have hlen : ∀ r ∈ loadedWords e w d B, r.2.length = sizeRegs (widthBytes w) := by
    intro r hr
    obtain ⟨t, ht, rfl⟩ := List.mem_map.mp hr
    exact loadWords_len hw (h.length t ht) _
  obtain ⟨hkeeps, hgot⟩ := put_got (e := noted (spec && e.inTry) e d A) (sizeRegs_ne w) (dst_cases h.dst)
    (by rwa [hact]) hlen
  rw [noted_putWarp] at hkeeps hgot
  refine ⟨hkeeps, fun t v ht hv => hgot t _ v (List.mem_map_of_mem ht) ?_ fun j hj => h.word hw (List.mem_map_of_mem ht) hv hj⟩
  rwa [Env.runners, hact]

theorem LoadFinds.reads_at_once {s0 : State} {pc : W64} (hi : RunsLoad i spec w d a f o x) (hiss : Issues s0 e l s pc)
    (hwf : i.wf = true) (hf : f = 15#4) (ha : Alone e) :
    let c := noted (spec && e.inTry) e d A
    ∃ r y, exec i s0 = .next (r.settleWarp e.b e.w) ∧ Retired c s2 r y pc ∧
      Keeps c y (dstNames d (sizeRegs (widthBytes w))) (uniNames d (sizeRegs (widthBytes w))) [] ∧
      ∀ t v, t ∈ e.runners d → Loaded (widthSigned w) (B t) v → Got c y d (sizeRegs (widthBytes w)) t v := by
  obtain ⟨hb, hwarp, hsplit⟩ := issues_block hiss
  have hch := changed_upd (notedState_changed (spec && e.inTry) e d A (h.block hb) hwarp)
    (e.putWarp d (sizeRegs (widthBytes w)) (loadedWords e w d B))
  obtain ⟨hkeeps, hgot⟩ := h.stands (hi.width hwf)
  obtain ⟨hretired, hactive⟩ := putWarp_turn e d (sizeRegs (widthBytes w)) (loadedWords e w d B) (noted (spec && e.inTry) e d A).wp
  have hexec := (hi.runs s0).trans (runLane_ok hiss.who hiss.line hiss.next (h.alone hwf hf ha))
  refine ⟨_, _, hexec, noted_retired _ e d A hch hsplit hretired hactive, keeps_turned pc hkeeps, fun t v ht hv => ?_⟩
  exact got_congr (hgot t v ht hv) (fun _ => rfl) rfl rfl

theorem LoadFinds.reads_later {s0 : State} {pc : W64} (hi : RunsLoad i spec w d a f o x) (hiss : Issues s0 e l s pc)
    (hwf : i.wf = true) (hf : f ≠ 15#4 ∨ ¬ Alone e) :
    let u := pended e (widthBytes w) f.toNat d (widthSigned w) (loadedWords e w d B) (notedState (spec && e.inTry) e d A s2)
    exec i s0 = .next (if f ≠ 15#4 then (u.retireTo e pc).settleWarp e.b e.w
      else ((u.updSplit e.b e.w e.sp fun q => { q with park := .sync e.wp.freshId }).turnPassed e.b e.w e.sp).settleWarp e.b e.w) := by
  intro u
  obtain ⟨hb, hwarp, -⟩ := issues_block hiss
  have hrun := h.pends (l := l) hwf hf hb hwarp
  rw [hi.runs]
  by_cases hflag : f = 15#4
  · rw [if_neg (not_not.mpr hflag)]
    exact runLane_park hiss.who hiss.line (hrun.trans (if_pos (by rw [hflag]; rfl)))
  · rw [if_pos hflag]
    exact runLane_ok hiss.who hiss.line hiss.next (hrun.trans (if_neg fun heq => hflag (BitVec.eq_of_toNat_eq heq)))

end

end Sys2Proof.Machine

namespace Sys2Proof.Claim
open Machine

/-- Settles O23: a load that finds its bytes lands them at once or stays pending; racing reads; a load with no active thread. -/
theorem loadsRead : Obligations.LoadsRead := by
  refine ⟨?loads, fun e n xs s => loadAll_quiet e n xs, ?racing, ?idle⟩
  case loads =>
    intro i w d a f o x spec hform s e l s1 pc s2 A B hiss hwf n k hd ha hs hroom hid hfeature haliases hflag haddrs hreach xs
      hheld hreads hlength
    have hi : RunsLoad i spec w d a f o x := by
      rcases hform with ⟨rfl, rfl, rfl⟩ | ⟨rfl, hord, rfl⟩ | ⟨rfl, rfl, rfl⟩ | ⟨rfl, hord, rfl⟩
      · exact ld_runsLoad
      · exact ldXform_runsLoad hord
      · exact ldSpec_runsLoad
      · exact ldSpecXform_runsLoad hord
    have hfinds : LoadFinds spec w d a f o x A B e s1 s2 :=
      ⟨hd, ha, hs, hroom, hid, hfeature, haliases, hflag, haddrs, hreach, hheld, hreads, hlength⟩
    refine ⟨hfinds.keeps, fun hf halone => hfinds.reads_at_once hi hiss hwf hf halone, fun hf =>
      ⟨loadedWords e w d B, loadedWords_fst e w d B, fun t ws v hmem hv j hj => hfinds.word (hi.width hwf) hmem hv hj,
        hfinds.reads_later hi hiss hwf hf⟩⟩
  case racing =>
    intro me skip k now rs
    obtain ⟨hgives, hsame⟩ := raceRead_spec me skip k now rs
    refine ⟨hgives, ?_, hsame⟩
    rintro p q w rfl hother hbyte hseen
    exact raceRead_seen me skip now hother hbyte hseen
  case idle =>
    rintro i w d a f o x spec (⟨rfl, rfl⟩ | ⟨rfl, hord, rfl⟩ | ⟨rfl, rfl⟩ | ⟨rfl, hord, rfl⟩)
    · exact load_idle ld_runsLoad
    · exact load_idle (ldXform_runsLoad hord)
    · exact load_idle ldSpec_runsLoad
    · exact load_idle (ldSpecXform_runsLoad hord)

end Sys2Proof.Claim
end

section
/-! PROOFS. Try regions: opening one, the commit that closes it, abort and the status word (R257, R258, R267 to R273, R452 to R455). -/

namespace Sys2Proof.Machine
open Claim

/-! ## Opening (R257, R258, R452) -/

theorem tryOpen_opens {o : BitVec 20} {s s1 : State} {e : Env} {l : FetchLine} {pc : W64} (hi : Issues s e l s1 pc)
    (hfeat : s1.feature e.blk.world 3 = true) (htry : e.inTry = false) (hnone : e.wp.region = none)
    (htarget : (tgt e s1 (dest e o)).1 = none) : exec (.tryOpen o) s =
      .next (((e.openRegion (tgt e s1 (dest e o)).2 (dest e o)).retireTo e pc).settleWarp e.b e.w) := by
  refine runLane_ok hi.who hi.line hi.next ?_
  rw [run_target (feat_of rfl hfeat) rfl rfl rfl htarget (.inr htry) rfl rfl (.inl rfl), ← targetOf_dest]
  simp [hnone, branchOff]

/-! ## Commit (R268, R453) -/

/-- The scope at which a commit releases, where it is a commit.rel. -/
def commitScope : Instr → Option Nat
  | .commitRel sc => some sc.toNat
  | _ => none

/-- Both forms of commit act alike but for the scope. -/
theorem commit_acts {i : Instr} (hi : i = .commit ∨ ∃ sc, i = .commitRel sc) : ∃ sp : Env → LaneSpec,
    (∀ s, exec i s = runLane sp s) ∧ ∀ {e l s}, i.wf = true → s.feature e.blk.world 3 = true →
      (sp e).run e l s = e.commitAct (commitScope i) s l := by
  rcases hi with rfl | ⟨sc, rfl⟩
  · exact ⟨_, fun _ => rfl, fun _ hfeat =>
      run_of (feat_of rfl hfeat) rfl rfl rfl (.inl rfl) (.inl rfl) rfl (.inl rfl) (.inl rfl)⟩
  · exact ⟨_, fun _ => rfl, fun hwf hfeat =>
      run_of (feat_of rfl hfeat) hwf rfl rfl (.inl rfl) (.inl rfl) rfl (.inl rfl) (.inl rfl)⟩

section
variable {e : Env} {rel : Option Nat} {s : State} {l : FetchLine}

theorem commitAct_outside (htry : e.inTry = false)
    (hfree : e.split.park = .fence → s.remoteDue e.b e.w = false ∧ s.remoteDueOf (fun k => k.world == e.blk.world) = false) :
    e.commitAct rel s l = .ok s := by
  unfold Env.commitAct
  rw [if_neg (by simp [htry]), if_neg]
  simp only [Bool.and_eq_true, beq_iff_eq]
  rintro ⟨hpark, hdue⟩
  exact not_releaseDue (hfree hpark).1 (fun _ => (hfree hpark).2) hdue

theorem commitAct_arrived {x : Warp} {r : Region} (htry : e.inTry = true)
    (hx : (s.updSplit e.b e.w e.sp fun q => { q with park := .commit }).warp? e.b e.w = some x) (hr : x.region = some r)
    (hall : x.allAtCommit = true) (hloads : x.regionLoads = false) : e.commitAct rel s l =
      e.performCommit (s.updSplit e.b e.w e.sp fun q => { q with park := .commit }) x r rel := by
  simp [Env.commitAct, htry, hx, hr, hall, hloads]

/-- A write that stays on this device asks nothing of another. -/
theorem sendRemotes_local {kind : RemKind} {scope size : Nat} {who : ThAcc → RemWait} {p : ThAcc × List Byte}
    (h : isRemote p.1 = false) : s.sendRemotes kind scope size who [p] = s := by
  unfold State.sendRemotes
  rw [List.foldl_cons, List.foldl_nil]
  split
  case h_1 hgo => simp [isRemote, hgo] at h
  case h_2 => rfl

theorem foldl_sendRemotes_local {kind : RemKind} {scope : Nat} {who : ThAcc → RemWait} {ws : List (ThAcc × List Byte)}
    (h : ∀ p, p ∈ ws → isRemote p.1 = false) :
    ws.foldl (fun s p => s.sendRemotes kind scope p.2.length who [p]) s = s := by
  induction ws with
  | nil => rfl
  | cons p ws ih =>
    rw [List.foldl_cons, sendRemotes_local (h p (by simp)), ih fun q hq => h q (by simp [hq])]

/-- A commit without a doomed thread, whose buffered stores all reach this device, writes them and closes the region. -/
theorem performCommit_clean {x : Warp} {r : Region} {s2 : State} (hdoom : x.doomedNow = 0#16)
    (hreach : ∀ p, p ∈ e.commitStores s r → reaches p.1 = true ∧ isRemote p.1 = false ∧ s.anyHeld e.b 8 [p.1] = false)
    (hwrite : s.writeAll e (e.commitStores s r) = (none, s2)) (hlate : s2.commitFaults e x 0#16 = [])
    (hrel : ∀ sc, rel = some sc → 6 ≤ sc → s2.remoteDueOf (fun k => k.world == e.blk.world) = false) :
    e.performCommit s x r rel =
      .jumpThen ((s2.leaveCommit e none).updWarp e.b e.w fun x => x.commitThreads e.gen 0#16 r) fun s => s := by
  have hxs : ∀ a, a ∈ (e.commitStores s r).map Prod.fst → reaches a = true ∧ s.anyHeld e.b 8 [a] = false := by
    simp only [List.mem_map]
    rintro _ ⟨p, hp, rfl⟩
    exact ⟨(hreach p hp).1, (hreach p hp).2.2⟩
  have hheld : (((e.commitStores s r).map Prod.fst).any fun a => s.anyHeld e.b 8 [a]) = false :=
    List.any_eq_false.mpr fun a ha => by simp [(hxs a ha).2]
  have hkept : (e.commitStores s r).filter (fun p => reaches p.1) = e.commitStores s r :=
    List.filter_eq_self.mpr fun p hp => (hreach p hp).1
  have hfree : ∀ sc, rel = some sc → (decide (6 ≤ sc) && s2.releaseDue e.b e.w e.blk.world sc) = false := by
    intro sc hsc
    rw [← Bool.not_eq_true, Bool.and_eq_true, decide_eq_true_eq, releaseDue_iff]
    rintro ⟨hscope, hdue⟩
    rw [if_pos hscope, hrel sc hsc hscope] at hdue
    cases hdue
  unfold Env.performCommit
  simp only [hdoom, bne_self_eq_false, Bool.false_and, Warp.commitRoom, beq_self_eq_true, Bool.true_or, Bool.not_true,
    raisedFault_none fun a ha => (hxs a ha).1, anyStall_false fun a ha => (hxs a ha).1, hheld, Bool.or_self, hkept, hwrite,
    foldl_sendRemotes_local fun p hp => (hreach p hp).2.1, hlate, Bool.false_eq_true, if_false, List.foldl_nil]
  cases rel with
  | none => simp
  | some sc => simp [hfree sc rfl]

end

/-! ## Abort and status (R271, R273, R454, R455) -/

/-- abort does nothing outside a region; in one it rolls back the whole warp once a uniform register has been written, else
its active threads. -/
theorem abort_acts (n : BitVec 8) : ∃ sp : Env → LaneSpec, (∀ s, exec (.abort n) s = runLane sp s) ∧
    ∀ {e l s}, s.feature e.blk.world 3 = true → e.idle = false →
      (e.wp.region = none ∨ e.inTry = false → (sp e).run e l s = .ok s) ∧
      ∀ {r}, e.wp.region = some r → e.inTry = true → e.wp.regionLoads = false →
        (r.uwrite = true →
          (sp e).run e l s = .jump (s.updWarp e.b e.w fun x => x.rollWhole e.gen (abortWord 1 n.toNat))) ∧
        ∀ {y}, r.uwrite = false → e.wp.abortThreads e.gen e.sp e.active n.toNat = some y → (sp e).run e l s =
          if e.active = e.split.mask then .jump (s.updWarp e.b e.w fun _ => y) else .ok (s.updWarp e.b e.w fun _ => y) := by
  refine ⟨_, fun _ => rfl, ?_⟩
  intro e l s hfeat hid
  rw [run_of (feat_of rfl hfeat) rfl rfl rfl (.inl rfl) (.inl rfl) rfl (.inr hid) (.inl rfl)]
  refine ⟨?outside, fun hr htry hloads => ⟨fun huni => ?whole, fun huni hy => ?threads⟩⟩
  case outside =>
    rintro (hnone | htry)
    · simp only [hnone]
    · cases hr : e.wp.region <;> simp [htry]
  case whole => simp [hr, htry, hloads, huni]
  case threads => simp [hr, htry, hloads, huni, hy]

theorem tstat_writes (d : BitVec 8) : Does (.tstat d) (fun e _ s => s.feature e.blk.world 3 = true ∧ isS d = true)
    fun e _ s => s.updWarp e.b e.w fun x => x.writeUni e.gen e.inTry (regNo d) e.wp.tstatWord :=
  does_of _ (fun _ => rfl) fun _ _ _ _ ⟨hfeat, hd⟩ =>
    run_of (feat_of rfl hfeat) hd rfl rfl (.inl rfl) (.inl rfl) rfl (.inl rfl) (.inl rfl)

end Sys2Proof.Machine

namespace Sys2Proof.Claim
open Machine

/-- Settles O38: opening, a commit outside a region and the clean one that closes it, abort in each of its cases, status. -/
theorem regionsOpenAndClose : Obligations.RegionsOpenAndClose := by
  refine ⟨?opens, ?passes, ?closes, ?abortPasses, ?abortWhole, ?abortSplit, ?abortSome, ?status⟩
  case opens =>
    exact fun o s e l s1 pc => tryOpen_opens
  case passes =>
    intro i hi
    obtain ⟨sp, hx, hacts⟩ := commit_acts hi
    exact does_of sp hx fun _ _ _ hwf ⟨hfeat, htry, hfree⟩ => (hacts hwf hfeat).trans (commitAct_outside htry hfree)
  case closes =>
    rintro i hi s e l s1 s2 x r ⟨hissuer, hline⟩ hwf hfeat htry hwarp hr hall hloads hdoom s0 ws hreach hwrite hlate hrel
    obtain ⟨sp, hx, hacts⟩ := commit_acts hi
    have hrun : (sp e).run e l s1 = _ := (hacts hwf hfeat).trans <| (commitAct_arrived htry hwarp hr hall hloads).trans <|
      performCommit_clean hdoom hreach hwrite hlate ?scope
    case scope =>
      intro sc hsc
      rcases hi with rfl | ⟨b, rfl⟩
      · cases hsc
      · cases hsc
        exact hrel b rfl
    rw [hx]
    simp only [runLane, hissuer, hline, hrun, State.finish]
  case abortPasses =>
    intro n
    obtain ⟨sp, hx, hacts⟩ := abort_acts n
    exact does_of sp hx fun _ _ _ _ ⟨hfeat, hid, houtside⟩ => (hacts hfeat hid).1 houtside
  case abortWhole =>
    intro n
    obtain ⟨sp, hx, hacts⟩ := abort_acts n
    exact jumps_of sp hx fun _ _ _ _ ⟨hfeat, hid, htry, hloads, r, hr, huni⟩ =>
      ((hacts hfeat hid).2 hr htry hloads).1 huni
  case abortSplit =>
    intro n y
    obtain ⟨sp, hx, hacts⟩ := abort_acts n
    exact jumps_of sp hx fun _ _ _ _ ⟨hfeat, hid, htry, hloads, ⟨r, hr, huni⟩, hactive, hy⟩ =>
      (((hacts hfeat hid).2 hr htry hloads).2 huni hy).trans (if_pos hactive)
  case abortSome =>
    intro n y
    obtain ⟨sp, hx, hacts⟩ := abort_acts n
    exact does_of sp hx fun _ _ _ _ ⟨hfeat, hid, htry, hloads, ⟨r, hr, huni⟩, hactive, hy⟩ =>
      (((hacts hfeat hid).2 hr htry hloads).2 huni hy).trans (if_neg hactive)
  case status => exact tstat_writes

end Sys2Proof.Claim
end

section
/-! PROOFS. Integer instructions: sums, products, extremes, counts and addresses (R376, R381, R385, R387). -/

namespace Sys2Proof.Machine
open Claim

/-! ## Checks that fail (R336, R346, R348) -/

theorem run_badOperand {sp : LaneSpec} {e : Env} {l : FetchLine} {s : State} (hfeat : sp.featOff e s = false)
    (hop : sp.opOk = false) : sp.run e l s = .fault s { code := fcBadOperand } := by
  simp [LaneSpec.run, hfeat, hop]

theorem run_badMood {sp : LaneSpec} {e : Env} {l : FetchLine} {s : State} (hfeat : sp.featOff e s = false)
    (hop : sp.opOk = true) (hmood : sp.moodOk = false) : sp.run e l s = .fault s { code := fcBadMood } := by
  simp [LaneSpec.run, hfeat, hop, hmood]

theorem typedRegs_of_accepted {ok : Ty → Bool} {e : Env} (h : ok e.ty = true) : typedRegs ok e = tyRegs e.ty := by
  simp [typedRegs, h]

theorem typedRegs_of_refused {ok : Ty → Bool} {e : Env} (h : ok e.ty = false) : typedRegs ok e = 1 := by
  simp [typedRegs, h]

/-- A shape whose fields must be a destination and sources of the mood's TYPE rejects every other (R336, R346). -/
theorem rejects_of {i : Instr} {ty : Ty → Bool} {d : BitVec 8} {as : List (BitVec 8)} (sp : Env → LaneSpec)
    (hx : ∀ s, exec i s = runLane sp s) (hfeat : ∀ e, (sp e).feat = none) (hmood : ∀ e, (sp e).moodOk = ty e.ty)
    (hop : ∀ e, (sp e).opOk = (i.wf && dstOk d (typedRegs ty e) && as.all fun a => srcFor d a (typedRegs ty e))) :
    Rejects i ty d as := by
  have hon (e : Env) (s : State) : (sp e).featOff e s = false := by simp [LaneSpec.featOff, hfeat]
  constructor
  · rintro s e l s1 ⟨hissuer, hline⟩ ⟨hty, hfield⟩
    have hbad : (sp e).opOk = false := by
      rw [hop, typedRegs_of_accepted hty]
      rcases hfield with hdst | ⟨a, ha, hsrc⟩
      · simp [hdst]
      · simp only [Bool.and_eq_false_iff, List.all_eq_false]
        exact .inr ⟨a, ha, by simp [hsrc]⟩
    rw [hx, runLane_fault hissuer hline (run_badOperand (hon e s1) hbad)]
    rfl
  · rintro s e l s1 ⟨hissuer, hline⟩ ⟨hwf, hty, hdst, hsrc⟩
    have hgood : (sp e).opOk = true := by
      rw [hop, typedRegs_of_refused hty, hwf, hdst, List.all_eq_true.mpr hsrc]
      rfl
    rw [hx, runLane_fault hissuer hline (run_badMood (hon e s1) hgood ((hmood e).trans hty))]
    rfl

theorem rejects1_of {i : Instr} {ty : Ty → Bool} {f : Env → Nat → Nat} {d a : BitVec 8} {lit : BitVec 32}
    (hx : ∀ s, exec i s = runLane (alu1 i.wf ty f d a lit) s) : Rejects i ty d [a] :=
  rejects_of _ hx (fun _ => rfl) (fun _ => rfl) fun _ => by simp [alu1]

theorem rejects2_of {i : Instr} {ty : Ty → Bool} {f : Env → Nat → Nat → Nat} {d a b : BitVec 8} {lit : BitVec 32}
    (hx : ∀ s, exec i s = runLane (alu2 i.wf ty f d a b lit) s) : Rejects i ty d [a, b] :=
  rejects_of _ hx (fun _ => rfl) (fun _ => rfl) fun _ => by simp [alu2, Bool.and_assoc]

theorem rejects3_of {i : Instr} {ty : Ty → Bool} {f : Env → Nat → Nat → Nat → Nat} {d a b c : BitVec 8} {lit : BitVec 24}
    (hx : ∀ s, exec i s = runLane (alu3 i.wf ty f d a b c lit) s) : Rejects i ty d [a, b, c] :=
  rejects_of _ hx (fun _ => rfl) (fun _ => rfl) fun _ => by simp [alu3, Bool.and_assoc]

/-! ## Results element by element (R376, R381) -/

/-- One source, each element by itself: `P` says which result `f` gives of an element. -/
theorem yields1_of {i : Instr} {ok : Ty → Bool} {d a : BitVec 8} {lit : BitVec 32} {f : Env → Nat → Nat}
    {P : Env → Nat → Nat → Prop} (hx : ∀ s, exec i s = runLane (alu1 i.wf ok (fun e => map1 e.ty (f e)) d a lit) s)
    (hf : ∀ e x r, ok e.ty = true → x < 2 ^ tyWidth e.ty → r < 2 ^ tyWidth e.ty → P e x r → f e x = r) :
    Yields i d tr (Ok1 ok d a) fun e t v => ∃ x, e.srcTy e.ty (.word lit) a t = .ok x ∧
      Each e.ty v fun k r => P e (el e.ty x k) r := by
  refine yields_of _ _ hx (fun e hwf hok => plain1 hwf hok) ?_
  rintro e t v ⟨hty, -, -⟩ ⟨x, hread, hlt, hel⟩
  simp only [hread, bind, Except.bind, pure, Except.pure]
  rw [map1_of_each hlt fun k hk => hf e _ _ hty (el_lt ..) (el_lt ..) (hel k hk)]

/-- Three sources, each triple of elements by itself. -/
theorem yields3_of {i : Instr} {ok : Ty → Bool} {d a b c : BitVec 8} {lit : BitVec 24} {f : Env → Nat → Nat → Nat → Nat}
    {P : Env → Nat → Nat → Nat → Nat → Prop}
    (hx : ∀ s, exec i s = runLane (alu3 i.wf ok (fun e => map3 e.ty (f e)) d a b c lit) s)
    (hf : ∀ e x y z r, x < 2 ^ tyWidth e.ty → y < 2 ^ tyWidth e.ty → z < 2 ^ tyWidth e.ty → P e x y z r → f e x y z = r) :
    Yields i d tr (Ok3 ok d a b c) fun e t v => ∃ x y z, e.srcTy e.ty (.lit24 lit) a t = .ok x ∧
      e.srcTy e.ty (.lit24 lit) b t = .ok y ∧ e.srcTy e.ty (.lit24 lit) c t = .ok z ∧
      Each e.ty v fun k r => P e (el e.ty x k) (el e.ty y k) (el e.ty z k) r := by
  refine yields_of _ _ hx (fun e hwf hok => plain3 hwf hok) ?_
  rintro e t v - ⟨x, y, z, hx, hy, hz, hlt, hel⟩
  simp only [hx, hy, hz, bind, Except.bind, pure, Except.pure]
  rw [map3_of_each hlt fun k hk => hf e _ _ _ _ (el_lt ..) (el_lt ..) (el_lt ..) (hel k hk)]

theorem mad_yields (d a b c : BitVec 8) (lit : BitVec 24) :
    Yields (.mad d a b c lit) d tr (Ok3 tyInt d a b c) fun e t v => ∃ x y z, e.srcTy e.ty (.lit24 lit) a t = .ok x ∧
      e.srcTy e.ty (.lit24 lit) b t = .ok y ∧ e.srcTy e.ty (.lit24 lit) c t = .ok z ∧
      Each e.ty v fun k r => Fits e.ty e.sat (Claim.ev e.ty x k * Claim.ev e.ty y k + Claim.ev e.ty z k) r :=
  yields3_of (P := fun e x y z r => let w := val (tyWidth e.ty) (tySigned e.ty); Fits e.ty e.sat (w x * w y + w z) r)
    (fun _ => rfl) fun e x y z r hx hy hz hfits => by
      rw [elemInt_eq hx, elemInt_eq hy, elemInt_eq hz]
      exact narrowI_eq hfits

theorem abs_yields (d a : BitVec 8) (lit : BitVec 32) :
    Yields (.abs d a lit) d tr (Ok1 tyInt d a) fun e t v => ∃ x, e.srcTy e.ty (.word lit) a t = .ok x ∧
      Each e.ty v fun k r => Fits e.ty e.sat |Claim.ev e.ty x k| r :=
  yields1_of (P := fun e x r => Fits e.ty e.sat |val (tyWidth e.ty) (tySigned e.ty) x| r) (fun _ => rfl)
    fun e x r _ hx _ hfits => by
      rw [elemInt_eq hx, ← Int.abs_eq_natAbs]
      exact narrowI_eq hfits

/-! ## Counts, reversal and addresses (R385, R387) -/

theorem popc_yields (d a : BitVec 8) (lit : BitVec 32) :
    Yields (.popc d a lit) d tr (Ok1 tyInt d a) fun e t v => ∃ x, e.srcTy e.ty (.word lit) a t = .ok x ∧
      Each e.ty v fun k r => r = ((List.range (tyWidth e.ty)).filter fun i => (el e.ty x k).testBit i).length :=
  yields1_of (P := fun e x r => r = ((List.range (tyWidth e.ty)).filter fun i => x.testBit i).length) (fun _ => rfl)
    fun _ _ _ _ _ _ hcount => (popcN_eq ..).trans hcount.symm

theorem clz_yields (d a : BitVec 8) (lit : BitVec 32) :
    Yields (.clz d a lit) d tr (Ok1 tyInt d a) fun e t v => ∃ x, e.srcTy e.ty (.word lit) a t = .ok x ∧
      Each e.ty v fun k r => r ≤ tyWidth e.ty ∧ el e.ty x k < 2 ^ (tyWidth e.ty - r) ∧
        (r < tyWidth e.ty → 2 ^ (tyWidth e.ty - r - 1) ≤ el e.ty x k) :=
  yields1_of (P := fun e x r => r ≤ tyWidth e.ty ∧ x < 2 ^ (tyWidth e.ty - r) ∧
      (r < tyWidth e.ty → 2 ^ (tyWidth e.ty - r - 1) ≤ x)) (fun _ => rfl)
    fun _ _ _ _ hx _ ⟨hle, hlt, hge⟩ => clz_unique hle hlt hge hx

theorem brev_yields (d a : BitVec 8) (lit : BitVec 32) :
    Yields (.brev d a lit) d tr (Ok1 tyInt d a) fun e t v => ∃ x, e.srcTy e.ty (.word lit) a t = .ok x ∧
      Each e.ty v fun k r => ∀ i, i < tyWidth e.ty → r.testBit i = (el e.ty x k).testBit (tyWidth e.ty - 1 - i) :=
  yields1_of (P := fun e x r => ∀ i, i < tyWidth e.ty → r.testBit i = x.testBit (tyWidth e.ty - 1 - i)) (fun _ => rfl)
    fun _ x _ _ _ hr hbits =>
      testBit_ext (brevN_lt _ x) hr fun i hi => (brevN_bit _ x i hi).trans (hbits i hi).symm

/-- Three sources of fixed widths (R376): an instruction of this shape passes its checks. -/
theorem plainFixed3 {i : Instr} {regs wa wb wc : Nat} {f : Nat → Nat → Nat → Nat} {d a b c : BitVec 8} {lit : BitVec 24}
    {e : Env} (hregs : regs = 1 ∨ regs = 2) (hwf : i.wf = true)
    (hok : dstOk d regs = true ∧ srcFor d a wa = true ∧ srcFor d b wb = true ∧ srcFor d c wc = true) :
    let sp := aluFixed3 i.wf regs wa wb wc f d a b c lit e
    let rd (w : Nat) (x : BitVec 8) (t : Nat) := if w = 2 then e.src64 (.lit24 lit) x t else e.src32 (.lit24 lit) x t
    Plain sp ∧ sp.guarded = true ∧ sp.dsts = dstNames d regs ∧ sp.act = e.result d regs (fun t => do
      let x ← rd wa a t
      let y ← rd wb b t
      let z ← rd wc c t
      pure (f x y z)) ∧ (regs = 1 ∨ regs = 2) ∧ (isV d = true ∨ isS d = true) := by
  obtain ⟨hd, ha, hb, hc⟩ := hok
  exact ⟨⟨rfl, by simp [aluFixed3, hwf, hd, ha, hb, hc], rfl, rfl, rfl, rfl, rfl⟩, rfl, rfl, rfl, hregs, dst_cases hd⟩

theorem sext_mod (w x : Nat) : sext w (x % 2 ^ w) = sext w x := by
  simp [sext]

theorem sext_eq_val_mod (w x : Nat) : sext w x = val w true (x % 2 ^ w) := by
  rw [← sext_mod, sext_eq_val (Nat.mod_lt _ (by positivity))]

theorem madw_yields (d a b c : BitVec 8) (lit : BitVec 24) :
    Yields (.madw d a b c lit) d (fun _ => 2)
      (fun _ => dstOk d 2 = true ∧ srcFor d a 1 = true ∧ srcFor d b 1 = true ∧ srcFor d c 2 = true) fun e t v => ∃ x y z,
      e.src32 (.lit24 lit) a t = .ok x ∧ e.src32 (.lit24 lit) b t = .ok y ∧ e.src64 (.lit24 lit) c t = .ok z ∧
      v < 2 ^ 64 ∧ (2 ^ 64 : Int) ∣ val 32 true (x % 2 ^ 32) * val 32 true (y % 2 ^ 32) + z - v := by
  refine yields_of _ _ (fun _ => rfl) (fun e hwf hok => plainFixed3 (.inr rfl) hwf hok) ?_
  rintro e t v - ⟨x, y, z, hx, hy, hz, hlt, hdvd⟩
  simp only [hx, hy, hz, bind, Except.bind, pure, Except.pure, if_true, if_neg (show ¬ (1 = 2) by decide)]
  rw [sext_eq_val_mod, sext_eq_val_mod, wrapN_eq hlt hdvd]

end Sys2Proof.Machine

namespace Sys2Proof.Claim
open Machine

/-- Settles O1: the shapes of one, two and three typed sources, with the integer function of each instruction. -/
theorem integerPairsCompute : Obligations.IntegerPairsCompute := by
  refine ⟨fun d a b lit => ⟨?add, ?sub, ?mul, ?mulh, ?min, ?max, ?_, ?_, ?_, ?_, ?_, ?_⟩,
    fun d a b c lit => ⟨mad_yields d a b c lit, rejects3_of fun _ => rfl⟩,
    fun d a lit => ⟨abs_yields d a lit, rejects1_of fun _ => rfl⟩⟩
  case add => exact intPair_of (g := fun _ x y => x + y) (fun _ => rfl) fun _ _ _ => rfl
  case sub => exact intPair_of (g := fun _ x y => x - y) (fun _ => rfl) fun _ _ _ => rfl
  case mul => exact intPair_of (g := fun _ x y => x * y) (fun _ => rfl) fun _ _ _ => rfl
  case mulh =>
    exact intPair_of (g := fun e x y => x * y / (2 ^ tyWidth e.ty : Nat)) (fun _ => rfl) fun _ _ _ => by push_cast; rfl
  case min => exact intPair_of (g := fun _ x y => if x ≤ y then x else y) (fun _ => rfl) fun _ x y => (min_def x y).symm
  case max => exact intPair_of (g := fun _ x y => if x ≤ y then y else x) (fun _ => rfl) fun _ x y => (max_def x y).symm
  all_goals exact rejects2_of fun _ => rfl

/-- Settles O2: one function of the element's bits each, and madw by its fixed widths. -/
theorem integerOthersCompute : Obligations.IntegerOthersCompute :=
  ⟨madw_yields, popc_yields, clz_yields, brev_yields⟩

end Sys2Proof.Claim
end

section
/-! PROOFS. Bitwise instructions, selection, shifts, bit fields, byte permutation and carries (R382 to R384, R386, R388, R389). -/

namespace Sys2Proof.Machine
open Claim

/-! ## Bitwise (R382, R389) -/

theorem and_bits (d a b : BitVec 8) (lit : BitVec 32) : BitPair (.and d a b lit) d a b lit fun x y => x && y :=
  bitPair_of (g := fun _ x y => x &&& y) (fun _ => rfl) fun _ _ _ hx _ =>
    ⟨Nat.lt_of_le_of_lt Nat.and_le_left hx, fun _ _ => Nat.testBit_and ..⟩

theorem or_bits (d a b : BitVec 8) (lit : BitVec 32) : BitPair (.or d a b lit) d a b lit fun x y => x || y :=
  bitPair_of (g := fun _ x y => x ||| y) (fun _ => rfl) fun _ _ _ hx hy =>
    ⟨Nat.or_lt_two_pow hx hy, fun _ _ => Nat.testBit_or ..⟩

theorem xor_bits (d a b : BitVec 8) (lit : BitVec 32) : BitPair (.xor d a b lit) d a b lit fun x y => x ^^ y :=
  bitPair_of (g := fun _ x y => x ^^^ y) (fun _ => rfl) fun _ _ _ hx hy =>
    ⟨Nat.xor_lt_two_pow hx hy, fun _ _ => Nat.testBit_xor ..⟩

theorem andn_bits (d a b : BitVec 8) (lit : BitVec 32) : BitPair (.andn d a b lit) d a b lit fun x y => x && !y :=
  bitPair_of (g := fun e x y => x &&& (2 ^ tyBits e.ty - 1 - y)) (fun _ => rfl) fun e x y hx hy =>
    ⟨Nat.lt_of_le_of_lt Nat.and_le_left hx, fun j hj => by
      rw [Nat.testBit_and, Nat.sub_sub, Nat.add_comm, Nat.testBit_two_pow_sub_succ hy]
      simp [hj]⟩

theorem eachThread_congr {α : Type} {f g : Nat → Except (BitVec 8) α} {ts : List Nat} (h : ∀ t, t ∈ ts → f t = g t) :
    eachThread f ts = eachThread g ts := by
  induction ts with
  | nil => rfl
  | cons t ts ih => simp only [eachThread, h t (by simp), ih fun u hu => h u (by simp [hu])]

/-- p7 selects every thread (R179). -/
theorem seven_or_pred {e : Env} {p t : Nat} (ht : t < 16) :
    (p = 7 ∨ (e.pred p).getLsbD t = true) ↔ (e.pred p).getLsbD t = true := by
  refine ⟨fun h => h.elim (fun h7 => ?_) id, .inr⟩
  rw [h7, Env.pred, if_pos rfl, show (0xffff#16) = BitVec.allOnes 16 from rfl, BitVec.getLsbD_allOnes]
  exact decide_eq_true ht

/-- A result depends only on what its function gives the threads that run. -/
theorem result_congr {e : Env} {d : BitVec 8} {k : Nat} {f g : Nat → Except (BitVec 8) Nat} {s : State} {l : FetchLine}
    (h : ∀ t, t ∈ e.runners d → f t = g t) : e.result d k f s l = e.result d k g s l := by
  unfold Env.result
  rw [eachThread_congr h]

theorem runner_lt {e : Env} {d : BitVec 8} {t : Nat} (h : t ∈ e.runners d) : t < 16 :=
  (mem_act.mp (runners_sub h)).1

theorem sel_selects (d a b c : BitVec 8) (lit : BitVec 24) :
    Yields (.sel d a b c lit) d tr
      (fun e => tyAny e.ty = true ∧ isV d = true ∧ aligned d (tyRegs e.ty) = true ∧ srcOk a (tyRegs e.ty) = true ∧
        srcOk b (tyRegs e.ty) = true ∧ isP c = true) fun e t v => ∃ x y,
      e.srcTy e.ty (.lit24 lit) a t = .ok x ∧ e.srcTy e.ty (.lit24 lit) b t = .ok y ∧
      v = if predNo c = 7 ∨ (e.pred (predNo c)).getLsbD t = true then x else y := by
  refine yields_of_act _ (fun e t => do
      let x ← e.srcTy e.ty (.lit24 lit) a t
      let y ← e.srcTy e.ty (.lit24 lit) b t
      pure (if predNo c = 7 ∨ (e.pred (predNo c)).getLsbD t = true then x else y)) (fun _ => rfl) ?_ ?_
  · rintro e hwf ⟨hty, hd, hal, ha, hb, hc⟩
    have hk := typedRegs_of_accepted hty
    refine ⟨⟨rfl, ?_, hty, rfl, rfl, rfl, rfl⟩, rfl, by simp only [hk]; rfl, fun s l _ _ => ?_, tr12 e, .inl hd⟩
    · simp only [hk, hwf, hd, hal, ha, hb, hc, Bool.and_self]
    · simp only [hk]
      exact result_congr fun t ht => by simp only [seven_or_pred (runner_lt ht)]
  · rintro e t v - ⟨x, y, hx, hy, hv⟩
    simp only [hx, hy, hv, bind, Except.bind, pure, Except.pure]

/-! ## Shifts (R383) -/

/-- Past the width a product with a power of two is clamped like the product with 2^w, whatever the power. -/
theorem clamp_past {ty : Ty} {v : Int} {n : Nat} (hlo : lo ty ≤ v) (hhi : v ≤ hi ty) (hn : tyWidth ty ≤ n) :
    max (lo ty) (min (hi ty) (v * 2 ^ n)) = max (lo ty) (min (hi ty) (v * 2 ^ tyWidth ty)) := by
  have hw : (0 : Int) < 2 ^ tyWidth ty := by positivity
  have hpow : (2 : Int) ^ tyWidth ty ≤ 2 ^ n := pow_le_pow_right₀ (by norm_num) hn
  have hbelow : -(2 ^ tyWidth ty) ≤ lo ty ∧ hi ty < 2 ^ tyWidth ty := by
    have hhalf : (2 : Int) ^ (tyWidth ty - 1) * 2 = 2 ^ tyWidth ty := by exact_mod_cast tyWidth_half ty
    unfold lo hi
    split <;> constructor <;> omega
  rcases lt_trichotomy v 0 with hneg | rfl | hpos
  · have hfar (k : Int) (hk : (2 : Int) ^ tyWidth ty ≤ k) : max (lo ty) (min (hi ty) (v * k)) = lo ty := by
      have : v * k ≤ lo ty := by nlinarith
      omega
    rw [hfar _ hpow, hfar _ le_rfl]
  · simp
  · have hfar (k : Int) (hk : (2 : Int) ^ tyWidth ty ≤ k) : max (lo ty) (min (hi ty) (v * k)) = hi ty := by
      have : hi ty ≤ v * k := by nlinarith
      omega
    rw [hfar _ hpow, hfar _ le_rfl]

theorem val_bounds {ty : Ty} {x : Nat} (hx : x < 2 ^ tyWidth ty) :
    lo ty ≤ val (tyWidth ty) (tySigned ty) x ∧ val (tyWidth ty) (tySigned ty) x ≤ hi ty := by
  obtain ⟨hsigned, hunsigned⟩ := val_range (sg := tySigned ty) (tyWidth_pos ty) hx
  unfold lo hi
  cases hsg : tySigned ty with
  | true => obtain ⟨h1, h2⟩ := hsigned hsg; rw [hsg] at h1 h2; simp only [if_true]; omega
  | false => obtain ⟨h1, h2⟩ := hunsigned hsg; rw [hsg] at h1 h2; simp only [Bool.false_eq_true, if_false]; omega

/-- A saturated shift: the model bounds the power of two by the width, which the clamp does not see. -/
theorem shlElem_sat {ty : Ty} {x n r : Nat} (hx : x < 2 ^ tyWidth ty)
    (hfits : Fits ty true (val (tyWidth ty) (tySigned ty) x * 2 ^ n) r) : shlElem ty true x n = r := by
  unfold shlElem
  rw [if_pos rfl, elemInt_eq hx]
  refine narrowI_eq ⟨hfits.1, ?_⟩
  obtain ⟨_, hr⟩ := hfits
  rw [if_pos rfl] at hr ⊢
  rw [hr]
  push_cast
  by_cases hpast : tyWidth ty ≤ n
  · rw [min_eq_right hpast, clamp_past (val_bounds hx).1 (val_bounds hx).2 hpast]
  · rw [Nat.min_eq_left (by omega)]

theorem shlElem_wrap {ty : Ty} {x n r : Nat} (hfits : Fits ty false (val (tyWidth ty) (tySigned ty) x * 2 ^ n) r) :
    shlElem ty false x n = r := by
  obtain ⟨hr, hdvd⟩ := hfits
  rw [if_neg Bool.false_ne_true] at hdvd
  have hprod : (2 ^ tyWidth ty : Int) ∣ ((x * 2 ^ n : Nat) : Int) - r := by
    have h := ((val_mod (tyWidth ty) (tySigned ty) x).mul_right (2 ^ n)).add hdvd
    rwa [show ((x * 2 ^ n : Nat) : Int) - r = (x - val (tyWidth ty) (tySigned ty) x) * 2 ^ n +
      (val (tyWidth ty) (tySigned ty) x * 2 ^ n - r) by push_cast; ring]
  unfold shlElem
  rw [if_neg Bool.false_ne_true]
  split
  case isTrue hpast =>
    have hzero : (2 ^ tyWidth ty : Int) ∣ ((x * 2 ^ n : Nat) : Int) - (0 : Nat) := by
      push_cast
      rw [sub_zero]
      exact (pow_dvd_pow 2 hpast).mul_left _
    rw [← wrapN_eq hr hprod, wrapN_eq (by positivity) hzero]
  case isFalse =>
    rw [← wrapN_eq hr hprod, wrapN]
    exact_mod_cast (Int.toNat_natCast _).symm

theorem shl_shifts (d a b : BitVec 8) (lit : BitVec 32) : Shift (.shl d a b lit) d a b lit fun e x n r =>
    Fits e.ty e.sat (val (tyWidth e.ty) (tySigned e.ty) x * 2 ^ n) r := by
  refine shift_of (f := fun e => shlElem e.ty e.sat) (fun _ => rfl) fun e x n r hx _ hfits => ?_
  cases hsat : e.sat with
  | true => rw [hsat] at hfits; exact shlElem_sat hx hfits
  | false => rw [hsat] at hfits; exact shlElem_wrap hfits

theorem shr_shifts (d a b : BitVec 8) (lit : BitVec 32) : Shift (.shr d a b lit) d a b lit fun _ x n r => r = x / 2 ^ n := by
  refine shift_of (f := fun e => shrElem e.ty) (fun _ => rfl) fun e x n r hx _ hquot => ?_
  rw [hquot, shrElem]
  split
  case isTrue hpast => exact (Nat.div_eq_of_lt (hx.trans_le (Nat.pow_le_pow_right (by decide) hpast))).symm
  case isFalse => rw [Nat.mod_eq_of_lt hx]

/-- The floor of a value shifted past its width is that of its sign. -/
theorem ediv_past {v : Int} {w n : Nat} (hlo : -(2 ^ w) ≤ v) (hhi : v < 2 ^ w) (hn : w ≤ n) : v / 2 ^ n = v / 2 ^ w := by
  have hpow : (2 : Int) ^ w ≤ 2 ^ n := pow_le_pow_right₀ (by norm_num) hn
  rcases lt_or_ge v 0 with hneg | hpos
  · rw [Int.ediv_eq_neg_one_of_neg_of_le hneg (by omega), Int.ediv_eq_neg_one_of_neg_of_le hneg (by omega)]
  · rw [Int.ediv_eq_zero_of_lt hpos (by omega), Int.ediv_eq_zero_of_lt hpos hhi]

theorem sra_shifts (d a b : BitVec 8) (lit : BitVec 32) : Shift (.sra d a b lit) d a b lit fun e x n r =>
    r < 2 ^ tyWidth e.ty ∧ val (tyWidth e.ty) true r = val (tyWidth e.ty) true x / 2 ^ n := by
  refine shift_of (f := fun e => sraElem e.ty) (fun _ => rfl) fun e x n r hx hr ⟨_, hfloor⟩ => ?_
  obtain ⟨hlo, hhi⟩ := (val_range (sg := true) (tyWidth_pos e.ty) hx).1 rfl
  have hhalf : (2 : Int) ^ (tyWidth e.ty - 1) ≤ 2 ^ tyWidth e.ty := pow_le_pow_right₀ (by norm_num) (Nat.sub_le ..)
  have hbound : val (tyWidth e.ty) true x / 2 ^ min n (tyWidth e.ty) = val (tyWidth e.ty) true r := by
    rw [hfloor]
    by_cases hpast : tyWidth e.ty ≤ n
    · rw [min_eq_right hpast, ediv_past (by omega) (by omega) hpast]
    · rw [Nat.min_eq_left (by omega)]
  unfold sraElem
  rw [sext_eq_val hx]
  push_cast
  rw [hbound]
  refine wrapN_eq hr ?_
  rw [← Int.dvd_neg, neg_sub]
  exact val_mod ..

/-- Bit j of a rotation by k: the bits that leave at the top come in at the bottom. -/
theorem rotElem_bit {ty : Ty} {x n j : Nat} (hx : x < 2 ^ tyWidth ty) (hj : j < tyWidth ty) :
    (rotElem ty x n).testBit j = x.testBit ((j + (tyWidth ty - n % tyWidth ty)) % tyWidth ty) := by
  have hk : n % tyWidth ty < tyWidth ty := Nat.mod_lt _ (tyWidth_pos ty)
  unfold rotElem
  dsimp only
  generalize n % tyWidth ty = k at hk ⊢
  generalize tyWidth ty = w at hx hj hk ⊢
  have hlow : x / 2 ^ (w - k) < 2 ^ k := by
    rw [Nat.div_lt_iff_lt_mul (by positivity), ← Nat.pow_add, Nat.add_sub_cancel' hk.le]
    exact hx
  rw [Nat.testBit_mod_two_pow, decide_eq_true hj, Bool.true_and, Nat.mul_comm, Nat.testBit_two_pow_mul_add _ hlow]
  split
  case isTrue hlt => rw [Nat.testBit_div_two_pow, Nat.mod_eq_of_lt (by omega)]
  case isFalse hge =>
    rw [show j + (w - k) = j - k + w by omega, Nat.add_mod_right, Nat.mod_eq_of_lt (by omega)]

theorem rot_shifts (d a b : BitVec 8) (lit : BitVec 32) : Shift (.rot d a b lit) d a b lit fun e x n r =>
    r < 2 ^ tyWidth e.ty ∧ ∀ i, i < tyWidth e.ty → r.testBit ((i + n) % tyWidth e.ty) = x.testBit i := by
  refine shift_of (f := fun e => rotElem e.ty) (fun _ => rfl) fun e x n r hx hr ⟨_, hbits⟩ => ?_
  have hpos := tyWidth_pos e.ty
  refine testBit_ext (Nat.mod_lt _ (by positivity)) hr fun j hj => ?_
  have hback : ((j + (tyWidth e.ty - n % tyWidth e.ty)) % tyWidth e.ty + n) % tyWidth e.ty = j := by
    have hk := Nat.mod_lt n hpos
    have hn := Nat.mod_add_div n (tyWidth e.ty)
    rw [Nat.mod_add_mod, show j + (tyWidth e.ty - n % tyWidth e.ty) + n = j + tyWidth e.ty + tyWidth e.ty * (n / tyWidth e.ty)
      by omega, Nat.add_mul_mod_self_left, Nat.add_mod_right, Nat.mod_eq_of_lt hj]
  rw [rotElem_bit hx hj, ← hbits _ (Nat.mod_lt _ hpos), hback]

end Sys2Proof.Machine
end

section
/-! PROOFS. Bit fields, byte permutation, carries and compares (R377, R384, R386, R388, R390, R394, R395). -/

namespace Sys2Proof.Machine
open Claim

/-! ## Fields (R386) -/

theorem bfe_yields (d a b c : BitVec 8) (lit : BitVec 24) :
    Yields (.bfe d a b c lit) d tr (fun e => tyWord e.ty = true ∧ dstOk d (tyRegs e.ty) = true ∧
        srcFor d a (tyRegs e.ty) = true ∧ srcFor d b 1 = true ∧ srcFor d c 1 = true) fun e t v => ∃ x p l,
      e.srcTy e.ty (.lit24 lit) a t = .ok x ∧ e.src32 (.lit24 lit) b t = .ok p ∧ e.src32 (.lit24 lit) c t = .ok l ∧
      let w := tyWidth e.ty
      let n := min l (w - min p w)
      v < 2 ^ w ∧ ∀ i, i < w → v.testBit i = if i < n then x.testBit (p + i)
        else tySigned e.ty && decide (0 < n) && x.testBit (p + n - 1) := by
  refine yields_of _ (fun e t => do
      let x ← e.srcTy e.ty (.lit24 lit) a t
      let p ← e.src32 (.lit24 lit) b t
      let l ← e.src32 (.lit24 lit) c t
      pure (bfeW (tyWidth e.ty) (tySigned e.ty) x p l)) (fun _ => rfl) ?plain ?value
  case plain =>
    rintro e hwf ⟨hty, hd, ha, hb, hc⟩
    have hk := typedRegs_of_accepted hty
    exact ⟨⟨rfl, by simp [hk, hwf, hd, ha, hb, hc], hty, rfl, rfl, rfl, rfl⟩, rfl, by simp only [hk]; rfl,
      by simp only [hk]; rfl, tr12 e, dst_cases hd⟩
  case value =>
    rintro e t v - ⟨x, p, l, hx, hp, hl, hlt, hbits⟩
    simp only [hx, hp, hl, bind, Except.bind, pure, Except.pure]
    obtain ⟨hmodel, hmodelBits⟩ := bfeW_spec (tyWidth_pos e.ty) (tySigned e.ty) x p l
    rw [testBit_ext hmodel hlt fun i hi => (hmodelBits i hi).trans (hbits i hi).symm]

theorem bfi_yields (d a b c : BitVec 8) (lit : BitVec 24) :
    Yields (.bfi d a b c lit) d tr (fun e => tyWord e.ty = true ∧ dstOk d (tyRegs e.ty) = true ∧
        srcFor d a (tyRegs e.ty) = true ∧ srcFor d b (tyRegs e.ty) = true ∧ srcFor d c 1 = true) fun e t v => ∃ x y z,
      e.srcTy e.ty (.lit24 lit) a t = .ok x ∧ e.srcTy e.ty (.lit24 lit) b t = .ok y ∧ e.src32 (.lit24 lit) c t = .ok z ∧
      let w := tyWidth e.ty
      let p := min (z % 256) w
      let n := min (z / 256 % 256) (w - p)
      v < 2 ^ w ∧ ∀ i, i < w → v.testBit i = if p ≤ i ∧ i < p + n then x.testBit (i - p) else y.testBit i := by
  refine yields_of _ (fun e t => do
      let x ← e.srcTy e.ty (.lit24 lit) a t
      let y ← e.srcTy e.ty (.lit24 lit) b t
      let z ← e.src32 (.lit24 lit) c t
      pure (bfiW (tyWidth e.ty) x y z)) (fun _ => rfl) ?plain ?value
  case plain =>
    rintro e hwf ⟨hty, hd, ha, hb, hc⟩
    have hk := typedRegs_of_accepted hty
    exact ⟨⟨rfl, by simp [hk, hwf, hd, ha, hb, hc], hty, rfl, rfl, rfl, rfl⟩, rfl, by simp only [hk]; rfl,
      by simp only [hk]; rfl, tr12 e, dst_cases hd⟩
  case value =>
    rintro e t v ⟨hty, -⟩ ⟨x, y, z, hx, hy, hz, hlt, hbits⟩
    simp only [hx, hy, hz, bind, Except.bind, pure, Except.pure]
    have hyw : y < 2 ^ tyWidth e.ty := tyWord_bits hty ▸ srcTy_lt hy
    obtain ⟨hmodel, hmodelBits⟩ := bfiW_spec (a := x) (c := z) hyw
    rw [testBit_ext hmodel hlt fun i hi => (hmodelBits i hi).trans (hbits i hi).symm]

/-! ## perm (R388) -/

theorem bits_byte (x i : Nat) : bits x (8 * i + 7) (8 * i) = x / 256 ^ i % 256 := by
  rw [bits_eq, show 8 * i + 7 + 1 - 8 * i = 8 by omega, Nat.pow_mul]
  rfl

theorem bits_nibble (x k : Nat) : bits x (4 * k + 3) (4 * k) = x / 16 ^ k % 16 := by
  rw [bits_eq, show 4 * k + 3 + 1 - 4 * k = 4 by omega, Nat.pow_mul]
  rfl

theorem permByte_eq (a b c k : Nat) : permByte a b c k =
    let i := c / 16 ^ k % 16
    let s := (if i % 8 < 4 then a / 256 ^ (i % 8) else b / 256 ^ (i % 8 - 4)) % 256
    if i < 8 then s else if 128 ≤ s then 255 else 0 := by
  simp only [permByte, bits_byte, bits_nibble, apply_ite (· % 256)]

theorem permByte_lt (a b c k : Nat) : permByte a b c k < 2 ^ 8 := by
  rw [permByte_eq]
  have hbyte (x : Nat) : (if 128 ≤ x then 255 else 0) < 2 ^ 8 := by split <;> decide
  dsimp only
  split
  · exact Nat.mod_lt _ (by decide)
  · exact hbyte _

theorem pow_two_bytes (k : Nat) : 2 ^ (k * 8) = 256 ^ k := by
  rw [Nat.mul_comm, Nat.pow_mul]

theorem perm_yields (d a b c : BitVec 8) (lit : BitVec 24) :
    Yields (.perm d a b c lit) d (fun _ => 1)
      (fun _ => dstOk d 1 = true ∧ srcFor d a 1 = true ∧ srcFor d b 1 = true ∧ srcFor d c 1 = true) fun e t v => ∃ x y z,
      e.src32 (.lit24 lit) a t = .ok x ∧ e.src32 (.lit24 lit) b t = .ok y ∧ e.src32 (.lit24 lit) c t = .ok z ∧
      v < 2 ^ 32 ∧ ∀ k, k < 4 →
        let i := z / 16 ^ k % 16
        let s := (if i % 8 < 4 then x / 256 ^ (i % 8) else y / 256 ^ (i % 8 - 4)) % 256
        v / 256 ^ k % 256 = if i < 8 then s else if 128 ≤ s then 255 else 0 := by
  refine yields_of _ _ (fun _ => rfl) (fun e hwf hok => plainFixed3 (.inl rfl) hwf hok) ?_
  rintro e t v - ⟨x, y, z, hx, hy, hz, hlt, hbytes⟩
  simp only [hx, hy, hz, bind, Except.bind, pure, Except.pure, if_neg (show ¬ (1 = 2) by decide)]
  have hword : permW x y z = v := digits_ext 8 4 _ v (packElems_lt 8 ((List.range 4).map (permByte x y z))) hlt fun k hk => by
    rw [permW, packElems_digit _ _ _ (by simpa using hk), getD_map_range _ _ _ hk, Nat.mod_eq_of_lt (permByte_lt ..),
      permByte_eq, pow_two_bytes]
    exact (hbytes k hk).symm
  rw [hword]

/-! ## Carries (R384) -/

theorem addcW_eq {x y v : Nat} {ci co : Bool} (hv : v < 2 ^ 32) (hsum : x + y + ci.toNat = v + 2 ^ 32 * co.toNat) :
    addcW x y ci = (v, co) := by
  have hci : (if ci = true then 1 else 0) = ci.toNat := by cases ci <;> rfl
  simp only [addcW, hci, hsum]
  cases co <;> simp <;> omega

theorem subbW_eq {x y v : Nat} {ci co : Bool} (hv : v < 2 ^ 32) (hdiff : x + 2 ^ 32 * co.toNat = v + y + ci.toNat) :
    subbW x y ci = (v, co) := by
  have hci : (if ci = true then (1 : Int) else 0) = ci.toNat := by cases ci <;> rfl
  have hexact : (x : Int) - y - ci.toNat = v - 2 ^ 32 * co.toNat := by omega
  simp only [subbW, hci, hexact]
  rw [wrapN_eq hv ⟨-co.toNat, by ring⟩]
  cases co
  case false => simp
  case true => simpa using hv

/-! ## Compares (R390, R394, R395) -/

/-- A compare of values: `P` says when a pair of elements meets the condition. -/
theorem intCompare_of {i : Instr} {op : CmpOp} {d a b : BitVec 8} {lit : BitVec 32} (P : Int → Int → Prop)
    (hx : ∀ s, exec i s = runLane (aluCmp i.wf tyInt (fun e => all2 e.ty (cmpElem op e.ty)) d a b lit) s)
    (h : ∀ ty u v, u < 2 ^ tyWidth ty → v < 2 ^ tyWidth ty → (cmpElem op ty u v = true ↔ P (elemInt ty u) (elemInt ty v))) :
    Compare i d a b lit tyInt fun e x y => ∀ k, k < cnt e → P (Claim.ev e.ty x k) (Claim.ev e.ty y k) :=
  compare_of _ hx fun e _ _ => icmp
    (P := fun u v => P (val (tyWidth e.ty) (tySigned e.ty) u) (val (tyWidth e.ty) (tySigned e.ty) v))
    fun u v hu hv => by rw [h e.ty u v hu hv, elemInt_eq hu, elemInt_eq hv]

/-- A compare of patterns as unsigned numbers. -/
theorem natCompare_of {i : Instr} {op : CmpOp} {d a b : BitVec 8} {lit : BitVec 32} (P : Nat → Nat → Prop)
    (hx : ∀ s, exec i s = runLane (aluCmp i.wf tyInt (fun e => all2 e.ty (cmpElem op e.ty)) d a b lit) s)
    (h : ∀ ty u v, cmpElem op ty u v = true ↔ P u v) :
    Compare i d a b lit tyInt fun e x y => ∀ k, k < cnt e → P (el e.ty x k) (el e.ty y k) :=
  compare_of _ hx fun e _ _ => icmp fun u v _ _ => h e.ty u v

/-- A compare of floating values. -/
theorem floatCompare_of {i : Instr} {op : FCmpOp} {d a b : BitVec 8} {lit : BitVec 32} (P : FVal → FVal → Prop)
    (hx : ∀ s, exec i s =
      runLane (aluCmp i.wf tyFloat (fun e => all2 e.ty fun x y => fcmpVal op (e.fval x) (e.fval y)) d a b lit) s)
    (h : ∀ x y, fcmpVal op x y = true ↔ P x y) :
    Compare i d a b lit tyFloat fun e x y => ∀ k, k < cnt e → P (fv e x k) (fv e y k) :=
  compare_of _ hx fun e _ _ => icmp (P := fun u v => P (e.fval u) (e.fval v)) fun _ _ _ _ => h _ _

theorem elemInt_inj {ty : Ty} {u v : Nat} (hu : u < 2 ^ tyWidth ty) (hv : v < 2 ^ tyWidth ty) :
    elemInt ty u = elemInt ty v ↔ u = v := by
  rw [elemInt_eq hu, elemInt_eq hv, val_inj hu hv]

theorem fcmpVal_ne (x y : FVal) : fcmpVal .ne x y = true ↔ ¬ FEq x y := by
  have hmodel : fcmpVal .ne x y = !fcmpVal .eq x y := by simp [fcmpVal]
  rw [hmodel, Bool.not_eq_true', ← Bool.not_eq_true]
  exact not_congr fcmp_eq

/-- The ordered conditions with equality: less, or equal (R280). -/
theorem fcmpVal_orEq (x y : FVal) : (!(x.isNan || y.isNan) && (fltV x y || feqV x y)) = true ↔ FLt x y ∨ FEq x y := by
  rw [Bool.and_or_distrib_left, Bool.or_eq_true, fcmp_lt, fcmp_eq]

theorem fcmpVal_ge (x y : FVal) : fcmpVal .ge x y = true ↔ FLt y x ∨ FEq x y := by
  simp only [fcmpVal]
  rw [Bool.and_or_distrib_left, Bool.or_eq_true, fcmp_eq, nan_comm, fcmp_lt]

theorem fcmpVal_gt (x y : FVal) : fcmpVal .gt x y = true ↔ FLt y x := by
  simp only [fcmpVal]
  rw [nan_comm, fcmp_lt]

theorem fclass_tests (d a b : BitVec 8) (lit : BitVec 32) :
    Tests (.fclass d a b lit) d (fun e => tyFloat e.ty = true ∧ isP d = true ∧ srcOk a 1 = true ∧ srcOk b 1 = true)
      fun e t r => ∃ x m, e.srcTy e.ty (.word lit) a t = .ok x ∧ e.src32 (.word lit) b t = .ok m ∧
        (r = true ↔ ∀ k, k < cnt e → m.testBit (fclassBit e.fmt (el e.ty x k)) = true) := by
  refine tests_of _ (fun e t => do
      let x ← e.srcTy e.ty (.word lit) a t
      let m ← e.src32 (.word lit) b t
      pure ((elems e.ty x).all fun v => m.testBit (fclassBit e.fmt v))) (fun _ => rfl) ?plain ?value
  case plain =>
    rintro e hwf ⟨hty, hd, ha, hb⟩
    exact ⟨⟨rfl, by simp [hwf, hd, ha, hb], hty, rfl, rfl, rfl, rfl⟩, rfl, rfl, rfl, hd⟩
  case value =>
    rintro e t r - ⟨x, m, hx, hm, hr⟩
    simp only [hx, hm, bind, Except.bind, pure, Except.pure, elems_eq]
    congr 1
    rw [Bool.eq_iff_iff, hr]
    simp [cnt]

end Sys2Proof.Machine

namespace Sys2Proof.Claim
open Machine

/-- Settles O3: bit by bit, by the thread's bit of the predicate, and each shift by what it does past the width. -/
theorem bitsAndShiftsCompute : Obligations.BitsAndShiftsCompute :=
  ⟨fun d a b lit => ⟨and_bits d a b lit, or_bits d a b lit, xor_bits d a b lit, andn_bits d a b lit,
      fun c lit24 => sel_selects d a b c lit24⟩,
    fun d a b lit => ⟨shl_shifts d a b lit, shr_shifts d a b lit, sra_shifts d a b lit, rot_shifts d a b lit⟩⟩

/-- Settles O4: the bits of both field instructions, the bytes of perm. -/
theorem fieldsCompute : Obligations.FieldsCompute := fun d a b c lit =>
  ⟨bfe_yields d a b c lit, bfi_yields d a b c lit, perm_yields d a b c lit⟩

/-- Settles O5: the equation of the sum, or of the difference, determines the result and the carry. -/
theorem carriesChain : Obligations.CarriesChain := fun _ _ _ _ _ =>
  ⟨carries_of (fun _ => rfl) fun _ _ _ _ _ _ _ ⟨hv, hsum⟩ => addcW_eq hv hsum,
    carries_of (fun _ => rfl) fun _ _ _ _ _ _ _ ⟨hv, hdiff⟩ => subbW_eq hv hdiff⟩

/-- Settles O6: every condition by the order of values, of patterns, or of floating values. -/
theorem comparesTest : Obligations.ComparesTest := by
  intro d a b lit
  refine ⟨?eq, ?ne, ?lt, ?ge, ?le, ?gt, ?ltu, ?geu, ?feq, ?fne, ?flt, ?fge, ?fle, ?fgt, ?ford, ?funo, fclass_tests d a b lit⟩
  case eq => exact intCompare_of (· = ·) (fun _ => rfl) fun ty u v hu hv => by rw [elemInt_inj hu hv]; exact beq_iff_eq
  case ne => exact intCompare_of (· ≠ ·) (fun _ => rfl) fun ty u v hu hv => by rw [ne_eq, elemInt_inj hu hv]; exact bne_iff_ne
  case lt => exact intCompare_of (· < ·) (fun _ => rfl) fun _ _ _ _ _ => decide_eq_true_iff
  case ge => exact intCompare_of (fun x y => y ≤ x) (fun _ => rfl) fun _ _ _ _ _ => decide_eq_true_iff
  case le => exact intCompare_of (· ≤ ·) (fun _ => rfl) fun _ _ _ _ _ => decide_eq_true_iff
  case gt => exact intCompare_of (fun x y => y < x) (fun _ => rfl) fun _ _ _ _ _ => decide_eq_true_iff
  case ltu => exact natCompare_of (· < ·) (fun _ => rfl) fun _ _ _ => decide_eq_true_iff
  case geu => exact natCompare_of (fun x y => y ≤ x) (fun _ => rfl) fun _ _ _ => decide_eq_true_iff
  case feq => exact floatCompare_of FEq (fun _ => rfl) fun _ _ => fcmp_eq
  case fne => exact floatCompare_of (fun x y => ¬ FEq x y) (fun _ => rfl) fcmpVal_ne
  case flt => exact floatCompare_of FLt (fun _ => rfl) fun _ _ => fcmp_lt
  case fge => exact floatCompare_of (fun x y => FLt y x ∨ FEq x y) (fun _ => rfl) fcmpVal_ge
  case fle => exact floatCompare_of (fun x y => FLt x y ∨ FEq x y) (fun _ => rfl) fcmpVal_orEq
  case fgt => exact floatCompare_of (fun x y => FLt y x) (fun _ => rfl) fcmpVal_gt
  case ford => exact floatCompare_of (fun x y => x ≠ .nan ∧ y ≠ .nan) (fun _ => rfl) fun _ _ => isNan_nor
  case funo => exact floatCompare_of (fun x y => x = .nan ∨ y = .nan) (fun _ => rfl) fun _ _ => isNan_or_iff

end Sys2Proof.Claim
end

section
/-! PROOFS. Floating instructions: one rounding of an exact result, and products and sums that are exact before it
(R277 to R281, R391 to R393, R396, R397). -/

namespace Sys2Proof.Machine
open Claim

/-! ## Sign operations (R393) -/

theorem xor_signBit (F : FFmt) {x : Nat} (hx : x < 2 ^ (1 + F.eb + F.fb)) : x ^^^ F.signBit < 2 ^ (1 + F.eb + F.fb) ∧
    ∀ j, j < 1 + F.eb + F.fb → (x ^^^ F.signBit).testBit j = if j = F.eb + F.fb then !x.testBit j else x.testBit j := by
  have hsign : F.signBit < 2 ^ (1 + F.eb + F.fb) := Nat.pow_lt_pow_right (by decide) (by omega)
  refine ⟨Nat.xor_lt_two_pow hx hsign, fun j _ => ?_⟩
  rw [Nat.testBit_xor, FFmt.signBit, Nat.testBit_two_pow]
  by_cases h : j = F.eb + F.fb
  · simp [h]
  · simp [h, Ne.symm h]

theorem mod_signBit (F : FFmt) {x : Nat} (hx : x < 2 ^ (1 + F.eb + F.fb)) : x % F.signBit < 2 ^ (1 + F.eb + F.fb) ∧
    ∀ j, j < 1 + F.eb + F.fb → (x % F.signBit).testBit j = if j = F.eb + F.fb then false else x.testBit j := by
  refine ⟨(Nat.mod_le ..).trans_lt hx, fun j hj => ?_⟩
  rw [FFmt.signBit, Nat.testBit_mod_two_pow]
  by_cases h : j = F.eb + F.fb
  · simp [h]
  · simp [h, show j < F.eb + F.fb by omega]

/-! ## fscale (R397) -/

theorem plainCount {i : Instr} {ok : Ty → Bool} {f : Env → Nat → Nat → Nat} {d a b : BitVec 8} {lit : BitVec 32} {e : Env}
    (hwf : i.wf = true) (hok : Ok1 ok d a e ∧ srcFor d b 1 = true) :
    let sp := aluCount i.wf ok f d a b lit e
    Plain sp ∧ sp.guarded = true ∧ sp.dsts = dstNames d (tr e) ∧ sp.act = e.result d (tr e) (fun t => do
      let x ← e.srcTy e.ty (.word lit) a t
      let n ← e.src32 (.word lit) b t
      pure (f e x n)) ∧ (tr e = 1 ∨ tr e = 2) ∧ (isV d = true ∨ isS d = true) := by
  obtain ⟨⟨hty, hd, ha⟩, hb⟩ := hok
  have hk := typedRegs_of_accepted hty
  exact ⟨⟨rfl, by simp [aluCount, hk, hwf, hd, ha, hb], hty, rfl, rfl, rfl, rfl⟩, rfl, by simp [aluCount, hk, tr],
    by simp [aluCount, hk, tr], tr12 e, dst_cases hd⟩

/-- The model bounds the count at ±1000, where every format has overflowed or vanished. -/
theorem fscale_yields (d a b : BitVec 8) (lit : BitVec 32) :
    Yields (.fscale d a b lit) d tr (fun e => Ok1 tyFloat d a e ∧ srcFor d b 1 = true) fun e t v => ∃ x n,
      e.srcTy e.ty (.word lit) a t = .ok x ∧ e.src32 (.word lit) b t = .ok n ∧
      Each e.ty v fun k r => r = e.fres (fscaleV (val 32 true n) (fv e x k)) := by
  refine yields_of _ _ (fun _ => rfl) (fun e hwf hok => plainCount hwf hok) ?_
  rintro e t v ⟨⟨hty, -⟩, -⟩ ⟨x, n, hx, hn, hlt, hel⟩
  simp only [hx, hn, bind, Except.bind, pure, Except.pure]
  refine congrArg Except.ok (map1_of_each hlt fun k hk => ?_)
  rw [hel k hk, fscaleCount, sext_eq_val (src32_lt hn)]
  exact fscale_clamp (fmt_width hty).2 _

/-! ## Three sources and more (R391, R392) -/

theorem ffma_yields (d a b c : BitVec 8) (lit : BitVec 24) :
    Yields (.ffma d a b c lit) d tr (Ok3 tyFloat d a b c) fun e t v => ∃ x y z, e.srcTy e.ty (.lit24 lit) a t = .ok x ∧
      e.srcTy e.ty (.lit24 lit) b t = .ok y ∧ e.srcTy e.ty (.lit24 lit) c t = .ok z ∧
      Each e.ty v fun k r => r = e.fres (e.fsum [fmulV (fv e x k) (fv e y k), fv e z k]) :=
  yields3_of (P := fun e x y z r => r = e.fres (e.fsum [fmulV (e.fval x) (e.fval y), e.fval z])) (fun _ => rfl)
    fun _ _ _ _ _ _ _ _ hr => hr.symm

theorem elems_getD {ty : Ty} {x k : Nat} (hk : k < tyBits ty / tyWidth ty) : (elems ty x).getD k 0 = el ty x k := by
  rw [elems_eq, getD_map_range _ _ _ hk]

theorem ffma4_yields (d a b c : BitVec 8) (lit : BitVec 24) :
    Yields (.ffma4 d a b c lit) d tr (Ok3 tyFloat d a b c) fun e t v => ∃ x y z w, e.srcTy e.ty (.lit24 lit) a t = .ok x ∧
      e.srcTy e.ty (.lit24 lit) b t = .ok y ∧ e.srcTy e.ty (.lit24 lit) c t = .ok z ∧
      e.srcTy e.ty (.lit24 lit) d t = .ok w ∧
      Each e.ty v fun k r => r = e.fres (e.fsum [fmulV (fv e x k) (fv e y k), fmulV (fv e z k) (fv e w k)]) := by
  refine yields_of _ (fun e t => do
      let x ← e.srcTy e.ty (.lit24 lit) a t
      let y ← e.srcTy e.ty (.lit24 lit) b t
      let z ← e.srcTy e.ty (.lit24 lit) c t
      let o ← e.srcTy e.ty (.lit24 lit) d t
      pure (ofElems e.ty ((List.range (tyBits e.ty / tyWidth e.ty)).map fun k =>
        let el (v : Nat) : FVal := e.fval ((elems e.ty v).getD k 0)
        e.fres (e.fsum [fmulV (el x) (el y), fmulV (el z) (el o)])))) (fun _ => rfl) ?plain ?value
  case plain =>
    rintro e hwf ⟨⟨hty, hd, ha, hb⟩, hc⟩
    rw [tr, (float_bits hty).2] at *
    exact ⟨⟨rfl, by simp [hwf, hd, ha, hb, hc], hty, rfl, rfl, rfl, rfl⟩, rfl, rfl, rfl, .inl rfl, dst_cases hd⟩
  case value =>
    rintro e t v - ⟨x, y, z, w, hx, hy, hz, hw, hlt, hel⟩
    simp only [hx, hy, hz, hw, bind, Except.bind, pure, Except.pure]
    refine congrArg Except.ok (ofElems_eq _ hlt fun k hk => ?_)
    simp only [elems_getD hk]
    exact hel k hk

theorem half_elems {e : Env} (hty : tyHalf e.ty = true) (x : Nat) :
    (elems e.ty x).map e.fval = [fv e x 0, fv e x 1] := by
  have hcount : tyBits e.ty / tyWidth e.ty = 2 := by
    simp only [tyHalf, Bool.or_eq_true, beq_iff_eq] at hty
    rcases hty with h | h <;> rw [h] <;> rfl
  rw [elems_eq, hcount]
  rfl

theorem fdot2_yields (d a b c : BitVec 8) (lit : BitVec 24) :
    Yields (.fdot2 d a b c lit) d tr (Ok3 tyHalf d a b c) fun e t v => ∃ x y z, e.srcTy e.ty (.lit24 lit) a t = .ok x ∧
      e.srcTy e.ty (.lit24 lit) b t = .ok y ∧ e.srcTy 2 (.lit24 lit) c t = .ok z ∧
      v = fresult fmtF32 e.fenv
        (e.fsum [fmulV (fv e x 0) (fv e y 0), fmulV (fv e x 1) (fv e y 1), fread fmtF32 e.fenv.flush z]) := by
  refine yields_of _ (fun e t => do
      let x ← e.srcTy e.ty (.lit24 lit) a t
      let y ← e.srcTy e.ty (.lit24 lit) b t
      let z ← e.srcTy 2 (.lit24 lit) c t
      pure (fdot2Val e x y z)) (fun _ => rfl) ?plain ?value
  case plain =>
    rintro e hwf ⟨⟨hty, hd, ha, hb⟩, hc⟩
    have hregs : tyRegs e.ty = 1 := by
      simp only [tyHalf, Bool.or_eq_true, beq_iff_eq] at hty
      rcases hty with h | h <;> rw [h] <;> rfl
    rw [hregs] at hd ha hb hc
    rw [tr, hregs]
    exact ⟨⟨rfl, by simp [hwf, hd, ha, hb, hc], hty, rfl, rfl, rfl, rfl⟩, rfl, rfl, rfl, .inl rfl, dst_cases hd⟩
  case value =>
    rintro e t v ⟨⟨hty, -⟩, -⟩ ⟨x, y, z, hx, hy, hz, hv⟩
    simp only [hx, hy, hz, hv, bind, Except.bind, pure, Except.pure, fdot2Val, half_elems hty]
    rfl

/-! ## Exact products and sums (R277, R280) -/

theorem rat_mul (a b : Bool) (m n : Nat) (g h : Int) : rat (a != b) (m * n) (g + h) = rat a m g * rat b n h := by
  unfold rat
  rw [zpow_add₀ (by norm_num)]
  cases a <;> cases b <;> simp <;> ring

theorem rat_zero (a : Bool) (g : Int) : rat a 0 g = 0 := by simp [rat]

theorem rat_natAbs (t : Int) (q : Int) : rat (decide (t < 0)) t.natAbs q = t * 2 ^ q := by
  unfold rat
  have habs : (t.natAbs : ℚ) = |(t : ℚ)| := by rw [Nat.cast_natAbs, Int.cast_abs]
  by_cases h : t < 0
  · have : (t : ℚ) < 0 := by exact_mod_cast h
    simp only [h, decide_true, if_true, habs, abs_of_neg this]
    ring
  · have : (0 : ℚ) ≤ t := by exact_mod_cast not_lt.mp h
    simp [h, habs, abs_of_nonneg this]

theorem rat_eq_zero (a : Bool) (m : Nat) (g : Int) : rat a m g = 0 ↔ m = 0 := by
  have : (2 : ℚ) ^ g ≠ 0 := by positivity
  cases a <;> simp [rat, this]

theorem any_finite {l : List (Bool × Nat × Int)} {v : FVal} (hv : ∀ a m g, v ≠ .fin a m g) :
    (l.map F3).any (fun t => t == v) = false := by
  rw [List.any_map, List.any_eq_false]
  intro t _ heq
  exact hv _ _ _ (eq_of_beq heq).symm

theorem unscale {t q : Int} {r : ℚ} (h : (t : ℚ) = ((0 : Int) : ℚ) + r * 2 ^ (-q)) : t * (2 : ℚ) ^ q = r := by
  rw [h, Int.cast_zero, zero_add, mul_assoc, ← zpow_add₀ (by norm_num), neg_add_cancel, zpow_zero, mul_one]

/-- A sum of finite values: an integer over one power of two, its zero signed by R280. -/
theorem fsumV_finite (mode : RMode) (l : List (Bool × Nat × Int)) : ∃ tot q : Int,
    tot * (2 : ℚ) ^ q = (l.map fun t => rat t.1 t.2.1 t.2.2).sum ∧
    fsumV mode (l.map F3) = if tot = 0 then
        if (l.all (fun t => t.2.1 == 0) && l.all fun t => t.1) = true then .fin true 0 0
        else if (l.all (fun t => t.2.1 == 0) && l.all fun t => !t.1) = true then .fin false 0 0
        else .fin (mode == 2) 0 0
      else .fin (tot < 0) tot.natAbs q := by
  refine ⟨_, _, unscale (sumfold l _ 0 (minfold l 0).2), ?_⟩
  unfold fsumV
  rw [any_finite (by rintro _ _ _ ⟨⟩), any_finite (v := .inf false) (by rintro _ _ _ ⟨⟩),
    any_finite (v := .inf true) (by rintro _ _ _ ⟨⟩)]
  simp only [List.all_map]
  rfl

/-- The sum as a rational, and the sign of a zero. -/
theorem fsumV_exact (mode : RMode) (l : List (Bool × Nat × Int)) : ∃ k j h, fsumV mode (l.map F3) = .fin k j h ∧
    rat k j h = (l.map fun t => rat t.1 t.2.1 t.2.2).sum ∧
    (l ≠ [] → (∀ t ∈ l, t.2.1 = 0 ∧ t.1 = true) → k = true) ∧ ((∀ t ∈ l, t.2.1 = 0 ∧ t.1 = false) → l ≠ [] → k = false) ∧
    (rat k j h = 0 → (∃ t ∈ l, t.2.1 ≠ 0) ∨ ((∃ t ∈ l, t.1 = true) ∧ ∃ t ∈ l, t.1 = false) → k = decide (mode = 2)) := by
  obtain ⟨tot, q, hsum, hvalue⟩ := fsumV_finite mode l
  have hzeros (h : ∀ t ∈ l, t.2.1 = 0) : tot = 0 := by
    have : (l.map fun t => rat t.1 t.2.1 t.2.2).sum = 0 :=
      List.sum_eq_zero fun r hr => by
        obtain ⟨t, ht, rfl⟩ := List.mem_map.mp hr
        rw [h t ht, rat_zero]
    have hpow : (2 : ℚ) ^ q ≠ 0 := by positivity
    rw [this, mul_eq_zero, or_iff_left hpow] at hsum
    exact_mod_cast hsum
  rw [hvalue]
  by_cases htot : tot = 0
  case neg =>
    rw [if_neg htot]
    refine ⟨_, _, _, rfl, (rat_natAbs tot q).trans hsum, fun _ h => ?_, fun h _ => ?_, fun h => ?_⟩
    · exact absurd (hzeros fun t ht => (h t ht).1) htot
    · exact absurd (hzeros fun t ht => (h t ht).1) htot
    · rw [rat_eq_zero, Int.natAbs_eq_zero] at h
      exact absurd h htot
  case pos =>
    rw [if_pos htot]
    have hrat (k : Bool) : rat k 0 0 = (l.map fun t => rat t.1 t.2.1 t.2.2).sum := by
      rw [rat_zero, ← hsum, htot, Int.cast_zero, zero_mul]
    have hsigned (k : Bool) : ((l.all (fun t => t.2.1 == 0) && l.all fun t => t.1 == k) = true) ↔ ∀ t ∈ l, t.2.1 = 0 ∧ t.1 = k := by
      simp only [Bool.and_eq_true, List.all_eq_true, beq_iff_eq, ← forall_and]
    have hneg := hsigned true
    have hpos := hsigned false
    simp only [beq_true, beq_false] at hneg hpos
    simp only [hneg, hpos]
    split
    case isTrue hall =>
      refine ⟨_, _, _, rfl, hrat _, fun _ _ => rfl, fun h hne => ?_, fun _ h => ?_⟩
      · obtain ⟨t, ht⟩ := List.exists_mem_of_ne_nil l hne
        exact absurd ((hall t ht).2.symm.trans (h t ht).2) (by decide)
      · rcases h with ⟨t, ht, hm⟩ | ⟨-, t, ht, hf⟩
        · exact absurd (hall t ht).1 hm
        · exact absurd ((hall t ht).2.symm.trans hf) (by decide)
    case isFalse hnot =>
      split
      case isTrue hall =>
        refine ⟨_, _, _, rfl, hrat _, fun _ h => absurd h hnot, fun _ _ => rfl, fun _ h => ?_⟩
        rcases h with ⟨t, ht, hm⟩ | ⟨⟨t, ht, hf⟩, -⟩
        · exact absurd (hall t ht).1 hm
        · exact absurd (hf.symm.trans (hall t ht).2) (by decide)
      case isFalse hmixed =>
        exact ⟨_, _, _, rfl, hrat _, fun _ h => absurd h hnot, fun h _ => absurd h hmixed, fun _ _ => rfl⟩

theorem fsumV_nan {mode : RMode} {l : List FVal} (h : .nan ∈ l) : fsumV mode l = .nan := by
  unfold fsumV
  exact if_pos (List.any_eq_true.mpr ⟨_, h, rfl⟩)

theorem any_beq (l : List FVal) (v : FVal) : l.any (fun t => t == v) = decide (v ∈ l) := by
  rw [Bool.eq_iff_iff]
  simp

theorem fsumV_inf {mode : RMode} {l : List FVal} {a : Bool} (hnan : .nan ∉ l) (h : .inf a ∈ l) :
    fsumV mode l = if .inf (!a) ∈ l then .nan else .inf a := by
  unfold fsumV
  simp only [any_beq, hnan, decide_false, Bool.false_eq_true, if_false]
  cases a with
  | false => simp [h]
  | true => by_cases hpos : .inf false ∈ l <;> simp [h, hpos]

end Sys2Proof.Machine

namespace Sys2Proof.Claim
open Machine

/-- Settles O7: one function of the elements each, rounded once. -/
theorem floatsCompute : Obligations.FloatsCompute := fun d a b lit =>
  ⟨float2_of fun _ => rfl, float2_of fun _ => rfl, float2_of fun _ => rfl, float2_of fun _ => rfl, float2_of fun _ => rfl,
    float1_of fun _ => rfl, float1_of fun _ => rfl,
    signOp_of (g := fun F x => x ^^^ F.signBit) (fun _ => rfl) fun F _ hx => xor_signBit F hx,
    signOp_of (g := fun F x => x % F.signBit) (fun _ => rfl) fun F _ hx => mod_signBit F hx,
    fscale_yields d a b lit,
    fun c l24 => ⟨ffma_yields d a b c l24, ffma4_yields d a b c l24, fdot2_yields d a b c l24⟩⟩

/-- Settles O8: products by their signs and powers of two, sums over one power of two, then the infinities and NaN. -/
theorem productsAndSumsExact : Obligations.ProductsAndSumsExact := by
  refine ⟨fun n m g n' m' g' => ⟨_, _, _, rfl, rat_mul .., rfl⟩, fsumV_exact, fun v => ⟨rfl, ?_⟩, fun a n m g => ⟨rfl, rfl⟩,
    fun _ _ => fsumV_nan, fun _ _ _ => fsumV_inf⟩
  cases v <;> rfl

end Sys2Proof.Claim
end

section
/-! PROOFS. Transcendentals: an f32 result of each element, and the special values (R295, R398). -/

namespace Sys2Proof.Machine
open Claim

theorem unit1_of {i : Instr} {d a : BitVec 8} {lit : BitVec 32} {op : Nat}
    (hx : ∀ s, exec i s = runLane (alu1 i.wf tyFloat (ftrans op) d a lit) s) : Unit1 i d a lit op :=
  float1_of (f := fun _ v => fdecode fmtF32 (transcF32 op (fencode fmtF32 0 v))) hx

/-! ## Special values (R295) -/

theorem one_bits : fencode fmtF32 0 (.fin false 1 0) = 0x3f800000 := enc_pow 0 (by decide) (by decide)

theorem transcF32_nan {op b : Nat} (hop : op < 7) (h : fdecode fmtF32 b = .nan) : transcF32 op b = 0x7fc00000 := by
  unfold transcF32
  rw [h]
  interval_cases op <;> rfl

theorem transcF32_inf {b : Nat} {s : Bool} (h : fdecode fmtF32 b = .inf s) :
    transcF32 0 b = (if s then 0 else 0x7f800000) ∧ transcF32 1 b = (if s then 0x7fc00000 else 0x7f800000) ∧
    transcF32 2 b = (if s then 0x80000000 else 0) ∧ transcF32 3 b = (if s then 0x7fc00000 else 0) ∧
    transcF32 4 b = 0x7fc00000 ∧ transcF32 5 b = 0x7fc00000 ∧
    transcF32 6 b = (if s then 0xbf800000 else 0x3f800000) := by
  unfold transcF32
  rw [h, one_bits]
  refine ⟨?_, ?_, ?_, ?_, ?_, ?_, ?_⟩ <;> cases s <;> rfl

/-- The pattern of a zero. -/
theorem zero_bits {b : Nat} {s : Bool} {g : Int} (hb : b < 2 ^ 32) (h : fdecode fmtF32 b = .fin s 0 g) :
    b = if s then 0x80000000 else 0 := by
  unfold fdecode at h
  simp only [fmtF32, bits_eq] at h
  split at h
  case isTrue => split at h <;> cases h
  case isFalse =>
    split at h
    case isTrue hexp =>
      injection h with hs hfrac
      have hlow : b % 2 ^ 31 = 0 := by omega
      rw [← hs, Nat.testBit_eq_decide_div_mod_eq]
      simp only [decide_eq_true_eq]
      split <;> omega
    case isFalse =>
      injection h with _ hm
      omega

theorem transcF32_zero {b : Nat} {s : Bool} {g : Int} (hb : b < 2 ^ 32) (h : fdecode fmtF32 b = .fin s 0 g) :
    transcF32 0 b = 0x3f800000 ∧ transcF32 1 b = 0xff800000 ∧ transcF32 2 b = (if s then 0xff800000 else 0x7f800000) ∧
    transcF32 3 b = (if s then 0xff800000 else 0x7f800000) ∧ transcF32 4 b = (if s then 0x80000000 else 0) ∧
    transcF32 5 b = 0x3f800000 ∧ transcF32 6 b = (if s then 0x80000000 else 0) := by
  rw [← zero_bits hb h]
  unfold transcF32
  rw [h, one_bits]
  refine ⟨rfl, rfl, ?_, ?_, ?_, rfl, rfl⟩
  · cases s <;> rfl
  · cases s <;> rfl
  · rw [zero_bits hb h]; rfl

theorem transcF32_negative {b m : Nat} {g : Int} (h : fdecode fmtF32 b = .fin true m g) (hm : m ≠ 0) :
    transcF32 1 b = 0x7fc00000 ∧ transcF32 3 b = 0x7fc00000 := by
  unfold transcF32
  rw [h]
  exact ⟨if_neg hm, if_neg hm⟩

/-! ## Exact powers and logarithms (R295) -/

theorem rat_natAbs_int {s : Bool} {m : Nat} {g n : Int} (h : rat s m g = n) : rat false m g = n.natAbs := by
  rw [Nat.cast_natAbs, Int.cast_abs, ← h]
  cases s <;> simp [rat, abs_of_nonneg]

/-- The magnitude of an integer value is what rounding towards zero gives. -/
theorem roundAt_int {s : Bool} {m : Nat} {g n : Int} (h : rat s m g = n) : roundAt 1 false m g 0 = n.natAbs :=
  rat_int (rat_natAbs_int h)

theorem rat_signed {s : Bool} {m : Nat} {g n : Int} (h : rat s m g = n) (hm : m ≠ 0) :
    n = if s then -(n.natAbs : Int) else n.natAbs := by
  have hpos : (0 : ℚ) < m * 2 ^ g := by positivity
  cases s with
  | true =>
    have hneg : (n : ℚ) < 0 := by rw [← h]; simpa [rat] using hpos
    have : n < 0 := by exact_mod_cast hneg
    simp only [if_true]
    omega
  | false =>
    have hnonneg : (0 : ℚ) ≤ n := by rw [← h]; exact rat_nonneg m g
    have : 0 ≤ n := by exact_mod_cast hnonneg
    simp only [Bool.false_eq_true, if_false]
    omega

/-- fexp2 of a finite value by its magnitude: the two results that R295 only bounds are left open. -/
theorem transcF32_exp2_fin {b m : Nat} {s : Bool} {g : Int} (h : fdecode fmtF32 b = .fin s m g) : ∃ far near,
    transcF32 0 b = if m = 0 then fencode fmtF32 0 (.fin false 1 0)
      else if (!s && decide (roundAt 1 false m g 0 ≥ 128)) = true then fmtF32.infBits
      else if (s && decide (roundAt 1 false m g 0 ≥ 400)) = true then far
      else if (feqV (.fin false (roundAt 1 false m g 0) 0) (.fin false m g) && decide (roundAt 1 false m g 0 ≤ 149)) = true then
        fencode fmtF32 0 (.fin false 1 (if s then -(roundAt 1 false m g 0 : Int) else roundAt 1 false m g 0))
      else near := by
  unfold transcF32
  rw [h]
  exact ⟨_, _, rfl⟩

theorem transcF32_log2_fin {b m : Nat} {s : Bool} {g : Int} (h : fdecode fmtF32 b = .fin s m g) : ∃ near,
    transcF32 1 b = if m = 0 then fmtF32.infBits + fmtF32.signBit
      else if s = true then fmtF32.nanBits
      else if m = 2 ^ Nat.log2 m then fencode fmtF32 0 (fofInt ((Nat.log2 m : Int) + g))
      else near := by
  unfold transcF32
  rw [h]
  exact ⟨_, rfl⟩

/-- fexp2 of an integer whose power is a normal number is exact. -/
theorem transcF32_exp2_int {b m : Nat} {s : Bool} {g n : Int} (h : fdecode fmtF32 b = .fin s m g) (hn : rat s m g = n)
    (hlo : -126 ≤ n) (hhi : n ≤ 127) : transcF32 0 b = (n + 127).toNat * 2 ^ 23 := by
  have hround := roundAt_int hn
  obtain ⟨_, _, hvalue⟩ := transcF32_exp2_fin h
  rw [hvalue]
  by_cases hm : m = 0
  · have hzero : n = 0 := by
      rw [hm, rat_zero] at hn
      exact_mod_cast hn.symm
    rw [if_pos hm, one_bits, hzero]
    rfl
  · have hsign := rat_signed hn hm
    have hexact : feqV (.fin false n.natAbs 0) (.fin false m g) = true := by
      rw [feq_iff, FEq]
      rw [rat_natAbs_int hn]
      simp [rat]
    rw [if_neg hm, hround, if_neg (by simp; omega), if_neg (by simp; omega), if_pos (by simp [hexact]; omega), ← hsign]
    exact enc_pow n hlo hhi

theorem transcF32_exp2_big {b m : Nat} {s : Bool} {g : Int} (h : fdecode fmtF32 b = .fin s m g) (hbig : 128 ≤ rat s m g) :
    transcF32 0 b = 0x7f800000 := by
  have hpos : s = false ∧ m ≠ 0 := by
    refine ⟨?_, fun hm => ?_⟩
    · by_contra hs
      have := rat_nonneg m g
      simp only [Bool.not_eq_false] at hs
      simp only [hs, rat, if_true, Bool.false_eq_true, if_false] at hbig this
      linarith
    · rw [hm, rat_zero] at hbig
      norm_num at hbig
  obtain ⟨rfl, hm⟩ := hpos
  have hround : 128 ≤ roundAt 1 false m g 0 := rat_floor (by exact_mod_cast hbig)
  obtain ⟨_, _, hvalue⟩ := transcF32_exp2_fin h
  rw [hvalue, if_neg hm, if_pos (by simpa using hround)]
  rfl

/-- A power of two has one bit, and its logarithm is that bit's place. -/
theorem log2_of_power {m : Nat} {g n : Int} (h : rat false m g = 2 ^ n) : m = 2 ^ Nat.log2 m ∧ (Nat.log2 m : Int) + g = n := by
  have hm : (m : ℚ) = 2 ^ (n - g) := by
    rw [zpow_sub₀ (by norm_num), eq_div_iff (by positivity), ← h]
    simp [rat]
  have hnonneg : 0 ≤ n - g := by
    by_contra hneg
    have hone : (1 : ℚ) ≤ m := by
      have : 0 < (m : ℚ) := by rw [hm]; positivity
      exact_mod_cast this
    have hsmall : (2 : ℚ) ^ (n - g) < 1 := zpow_lt_one_of_neg₀ (by norm_num) (by omega)
    exact absurd hm (by linarith)
  obtain ⟨k, hk⟩ := Int.eq_ofNat_of_zero_le hnonneg
  have hpow : m = 2 ^ k := by
    rw [hk, zpow_natCast] at hm
    exact_mod_cast hm
  rw [hpow, Nat.log2_two_pow]
  exact ⟨rfl, by omega⟩

theorem transcF32_log2_power {b m : Nat} {g n : Int} (h : fdecode fmtF32 b = .fin false m g) (hn : rat false m g = 2 ^ n) :
    transcF32 1 b = fencode fmtF32 0 (.fin (n < 0) n.natAbs 0) := by
  obtain ⟨hm, hlog⟩ := log2_of_power hn
  have hne : m ≠ 0 := by
    rw [hm]
    positivity
  obtain ⟨_, hvalue⟩ := transcF32_log2_fin h
  rw [hvalue, if_neg hne, if_neg Bool.false_ne_true, if_pos hm, hlog]
  rfl

end Sys2Proof.Machine

namespace Sys2Proof.Claim
open Machine

/-- Settles O9: one shape for every operation, then the table of special values, class by class. -/
theorem transcendentalsCompute : Obligations.TranscendentalsCompute :=
  ⟨fun _ _ _ => ⟨unit1_of fun _ => rfl, unit1_of fun _ => rfl, unit1_of fun _ => rfl, unit1_of fun _ => rfl,
      unit1_of fun _ => rfl, unit1_of fun _ => rfl, unit1_of fun _ => rfl⟩,
    fun _ _ => transcF32_nan, fun _ _ => transcF32_inf, fun _ _ _ => transcF32_zero, fun _ _ _ => transcF32_negative,
    fun _ _ _ _ _ => transcF32_exp2_int, fun _ _ _ _ => transcF32_exp2_big, fun _ _ _ _ => transcF32_log2_power⟩

end Sys2Proof.Claim
end

section
/-! PROOFS. Conversions, packing and unpacking (R399 to R401). -/

namespace Sys2Proof.Machine
open Claim

theorem tyRegs_two (ty : Ty) : tyRegs ty = 1 ∨ tyRegs ty = 2 := by unfold tyRegs; split <;> simp

/-! ## One element of a conversion (R399) -/

/-- A pattern whose value is known, in a width. -/
theorem wrapN_val {w r : Nat} {sg : Bool} {n : Int} (hr : r < 2 ^ w) (hval : val w sg r = n) : wrapN w n = r := by
  refine wrapN_eq hr ?_
  rw [← hval, ← Int.dvd_neg, neg_sub]
  exact val_mod ..

theorem cvtElem_int_of_int {env : FEnv} {dt st : Ty} {x r : Nat} (hdt : tyFloat dt = false) (hst : tyFloat st = false)
    (hx : x < 2 ^ tyWidth st) (hfits : Fits dt env.sat (val (tyWidth st) (tySigned st) x) r) : cvtElem env dt st x = r := by
  simp only [cvtElem, hdt, hst, Bool.false_eq_true, if_false, elemInt_eq hx, narrowI_eq hfits]

theorem cvtElem_float_of_int {env : FEnv} {dt st : Ty} {x : Nat} (hdt : tyFloat dt = true) (hst : tyFloat st = false)
    (hx : x < 2 ^ tyWidth st) : cvtElem env dt st x = fresult (tyFmt dt) env (fofInt (val (tyWidth st) (tySigned st) x)) := by
  simp only [cvtElem, hdt, hst, Bool.false_eq_true, if_true, if_false, elemInt_eq hx]

theorem cvtElem_int_of_float {env : FEnv} {dt st : Ty} {x r : Nat} (hdt : tyFloat dt = false) (hst : tyFloat st = true)
    (hr : r < 2 ^ tyWidth dt)
    (hval : val (tyWidth dt) (tySigned dt) r = ftoInt env.mode (lo dt) (hi dt) (fread (tyFmt st) env.flush x)) :
    cvtElem env dt st x = r := by
  simp only [cvtElem, hdt, hst, Bool.false_eq_true, if_true, if_false, tyMin_eq, tyMax_eq]
  exact wrapN_val hr hval

theorem cvtElem_float_of_float {env : FEnv} {dt st : Ty} {x : Nat} (hdt : tyFloat dt = true) (hst : tyFloat st = true) :
    cvtElem env dt st x = fresult (tyFmt dt) env (fread (tyFmt st) env.flush x) := by
  simp only [cvtElem, hdt, hst, if_true]

theorem cvt_yields (d a : BitVec 8) (t sr : BitVec 4) (lit : BitVec 32) :
    Yields (.cvt d a t sr lit) d (fun _ => tyRegs t.toNat)
    (fun _ => t.toNat ≤ 10 ∧ sr.toNat ≤ 10 ∧ tyBits t.toNat / tyWidth t.toNat = tyBits sr.toNat / tyWidth sr.toNat ∧
      dstOk d (tyRegs t.toNat) = true ∧ srcFor d a (tyRegs sr.toNat) = true) fun e th v => ∃ x,
    e.srcTy sr.toNat (.word lit) a th = .ok x ∧ Each t.toNat v fun k r =>
      match tyFloat t.toNat, tyFloat sr.toNat with
      | false, false => Fits t.toNat e.sat (Claim.ev sr.toNat x k) r
      | true, false => r = fresult (tyFmt t.toNat) e.fenv (.fin (Claim.ev sr.toNat x k < 0) (Claim.ev sr.toNat x k).natAbs 0)
      | false, true => val (tyWidth t.toNat) (tySigned t.toNat) r =
          ftoInt e.fenv.mode (lo t.toNat) (hi t.toNat) (fread (tyFmt sr.toNat) e.fenv.flush (el sr.toNat x k))
      | true, true => r = fresult (tyFmt t.toNat) e.fenv (fread (tyFmt sr.toNat) e.fenv.flush (el sr.toNat x k)) := by
  refine yields_of _ (fun e th => do
      let x ← e.srcTy sr.toNat (.word lit) a th
      pure (ofElems t.toNat ((elems sr.toNat x).map (cvtElem e.fenv t.toNat sr.toNat)))) (fun _ => rfl) ?plain ?value
  case plain =>
    rintro e hwf ⟨ht, hsr, hcount, hd, ha⟩
    have hok : cvtOk t.toNat sr.toNat = true := by simp [cvtOk, tyAny, tyCount, ht, hsr, hcount]
    exact ⟨⟨rfl, by simp [hwf, hok, hd, ha], rfl, rfl, rfl, rfl, rfl⟩, rfl, rfl, rfl, tyRegs_two _, dst_cases hd⟩
  case value =>
    rintro e th v ⟨-, -, hcount, -⟩ ⟨x, hread, hlt, hel⟩
    have hconv : ofElems t.toNat ((elems sr.toNat x).map (cvtElem e.fenv t.toNat sr.toNat)) = v := by
      rw [elems_eq, List.map_map, ← hcount]
      refine ofElems_eq _ hlt fun k hk => ?_
      have hk := hel k hk
      have hx := el_lt sr.toNat x k
      cases hdt : tyFloat t.toNat <;> cases hst : tyFloat sr.toNat <;> simp only [hdt, hst] at hk
      case false.false => exact (cvtElem_int_of_int hdt hst hx hk).symm
      case false.true => exact (cvtElem_int_of_float hdt hst (el_lt ..) hk).symm
      case true.false => exact hk.trans (cvtElem_float_of_int hdt hst hx).symm
      case true.true => exact hk.trans (cvtElem_float_of_float hdt hst).symm
    simp only [hread, hconv, bind, Except.bind, pure, Except.pure]

/-! ## pack and unpack (R400, R401) -/

/-- A packed TYPE has twice as many elements as the TYPE it is narrowed from. -/
theorem wide_count {ty : Ty} (h : tyNarrow ty = true) :
    tyBits ty / tyWidth ty = 2 * (tyBits (wideTy ty) / tyWidth (wideTy ty)) := by
  rcases narrow_cases h with rfl | rfl | rfl | rfl | rfl | rfl <;> rfl

theorem wide_width {ty : Ty} (h : tyNarrow ty = true) : tyBits ty / tyWidth ty * tyWidth (wideTy ty) = 64 := by
  rcases narrow_cases h with rfl | rfl | rfl | rfl | rfl | rfl <;> rfl

/-- The one element of a floating source is the whole of it. -/
theorem wide_float {ty : Ty} (h : tyFloat ty = true) (hn : tyNarrow ty = true) : wideTy ty = 2 := by
  rcases float_cases h with rfl | rfl | rfl
  · cases hn
  · rfl
  · rfl

theorem el_whole {x : Nat} (hx : x < 2 ^ 32) : el 2 x 0 = x := by
  rw [el, Nat.zero_mul, Nat.pow_zero, Nat.div_one]
  exact Nat.mod_eq_of_lt hx

/-- The elements of two sources, in order. -/
theorem elems_append (ty : Ty) (x y : Nat) : elems ty x ++ elems ty y =
    (List.range (2 * (tyBits ty / tyWidth ty))).map fun k =>
      if k < tyBits ty / tyWidth ty then el ty x k else el ty y (k - tyBits ty / tyWidth ty) := by
  rw [elems_eq, elems_eq, Nat.two_mul, List.range_add, List.map_append, List.map_map]
  congr 1
  · exact List.map_congr_left fun k hk => (if_pos (List.mem_range.mp hk)).symm
  · exact List.map_congr_left fun k _ => by simp

theorem pack_yields (d a b : BitVec 8) (lit : BitVec 32) : Yields (.pack d a b lit) d (fun _ => 1)
    (fun e => tyNarrow e.ty = true ∧ dstOk d 1 = true ∧ srcFor d a 1 = true ∧ srcFor d b 1 = true) fun e t v => ∃ x y,
    e.srcTy (wideTy e.ty) (.word lit) a t = .ok x ∧ e.srcTy (wideTy e.ty) (.word lit) b t = .ok y ∧
    Each e.ty v fun k r =>
      let n := cnt e / 2
      let s := if k < n then x else y
      let j := if k < n then k else k - n
      if tyFloat e.ty then r = e.fres (fread fmtF32 e.fenv.flush s)
      else Fits e.ty e.sat (Claim.ev (wideTy e.ty) s j) r := by
  refine yields_of _ (fun e t => do
      let x ← e.srcTy (wideTy e.ty) (.word lit) a t
      let y ← e.srcTy (wideTy e.ty) (.word lit) b t
      pure (packVal e x y)) (fun _ => rfl) ?plain ?value
  case plain =>
    rintro e hwf ⟨hty, hd, ha, hb⟩
    exact ⟨⟨rfl, by simp [hwf, hd, ha, hb], hty, rfl, rfl, rfl, rfl⟩, rfl, rfl, rfl, .inl rfl, dst_cases hd⟩
  case value =>
    rintro e t v ⟨hty, -⟩ ⟨x, y, hx, hy, hlt, hel⟩
    have hpack : packVal e x y = v := by
      have hn : cnt e / 2 = tyBits (wideTy e.ty) / tyWidth (wideTy e.ty) := by rw [cnt, wide_count hty]; omega
      rw [packVal, elems_append, ← wide_count hty, List.map_map]
      refine ofElems_eq _ hlt fun k hk => ?_
      have hk' := hel k hk
      simp only [hn, Function.comp] at hk' ⊢
      cases hfl : tyFloat e.ty with
      | true =>
        have hw := wide_float hfl hty
        have hk2 : k < 2 := by rw [wide_count hty, hw] at hk; exact hk
        simp only [hfl, hw, if_true] at hk' hx hy ⊢
        rw [hk']
        interval_cases k
        · exact congrArg (fun z => fresult e.fmt e.fenv (fread fmtF32 e.fenv.flush z)) (el_whole (srcTy_lt hx)).symm
        · exact congrArg (fun z => fresult e.fmt e.fenv (fread fmtF32 e.fenv.flush z)) (el_whole (srcTy_lt hy)).symm
      | false =>
        simp only [hfl, Bool.false_eq_true, if_false] at hk' ⊢
        by_cases hfirst : k < tyBits (wideTy e.ty) / tyWidth (wideTy e.ty) <;>
          simp only [hfirst, if_true, if_false] at hk' ⊢ <;>
          exact ((congrArg _ (elemInt_eq (el_lt ..))).trans (narrowI_eq hk')).symm
    simp only [hx, hy, hpack, bind, Except.bind, pure, Except.pure]

theorem unpack_yields (d a : BitVec 8) (lit : BitVec 32) : Yields (.unpack d a lit) d (fun _ => 2)
    (fun e => tyNarrow e.ty = true ∧ dstOk d 2 = true ∧ srcFor d a 1 = true) fun e t v => ∃ x,
    e.srcTy e.ty (.word lit) a t = .ok x ∧ v < 2 ^ 64 ∧ ∀ k, k < cnt e →
      let w := tyWidth (wideTy e.ty)
      let r := v / 2 ^ (k * w) % 2 ^ w
      if tyFloat e.ty then r = fresult fmtF32 e.fenv (fv e x k) else val w (tySigned e.ty) r = Claim.ev e.ty x k := by
  refine yields_of _ (fun e t => do
      let x ← e.srcTy e.ty (.word lit) a t
      pure (unpackVal e x)) (fun _ => rfl) ?plain ?value
  case plain =>
    rintro e hwf ⟨hty, hd, ha⟩
    exact ⟨⟨rfl, by simp [hwf, hd, ha], hty, rfl, rfl, rfl, rfl⟩, rfl, rfl, rfl, .inr rfl, dst_cases hd⟩
  case value =>
    rintro e t v ⟨hty, -⟩ ⟨x, hx, hlt, hel⟩
    have hpack : unpackVal e x = v := by
      rw [unpackVal, elems_eq, List.map_map]
      change packElems _ ((List.range (cnt e)).map _) = v
      have hw := wide_width hty
      refine digits_ext (tyWidth (wideTy e.ty)) (cnt e) _ _ ?_ (by rwa [cnt, hw]) fun k hk => ?_
      · simpa [cnt] using packElems_lt (tyWidth (wideTy e.ty)) ((List.range (cnt e)).map _)
      · have hk' := hel k hk
        rw [packElems_digit _ _ _ (by simpa [cnt] using hk), getD_map_range _ _ _ hk]
        have hlow : v / 2 ^ (k * tyWidth (wideTy e.ty)) % 2 ^ tyWidth (wideTy e.ty) < 2 ^ tyWidth (wideTy e.ty) :=
          Nat.mod_lt _ (by positivity)
        cases hfl : tyFloat e.ty with
        | true =>
          simp only [hfl, if_true, Function.comp] at hk' ⊢
          rw [hk'] at hlow ⊢
          exact Nat.mod_eq_of_lt hlow
        | false =>
          simp only [hfl, Bool.false_eq_true, if_false, Function.comp] at hk' ⊢
          have helem := wrapN_val hlow (hk'.trans (elemInt_eq (el_lt e.ty x k)).symm)
          rw [helem, Nat.mod_eq_of_lt hlow]
    simp only [hx, hpack, bind, Except.bind, pure, Except.pure]

end Sys2Proof.Machine

namespace Sys2Proof.Claim
open Machine

/-- Settles O10: an element by the kinds of its two TYPE codes, then two sources into one register and one into a pair. -/
theorem conversionsCompute : Obligations.ConversionsCompute :=
  ⟨cvt_yields, pack_yields, unpack_yields⟩

end Sys2Proof.Claim
end

section
/-! PROOFS. Ternary packing and quantisation (R291, R402 to R405). -/

namespace Sys2Proof.Machine
open Claim

/-! ## trpack (R402) -/

theorem ternCode_eq {g : Nat} (hg : g < 256) : ternCode g = if g = 0 then 0 else if g < 128 then 1 else 2 := by
  unfold ternCode
  rw [sext_eq_val (w := 8) hg]
  simp only [val, true_and]
  split_ifs <;> omega

theorem trpackVal_eq (x : Nat) :
    let c (i : Nat) : Nat := let g := x / 256 ^ i % 256; if g = 0 then 0 else if g < 128 then 1 else 2
    trpackVal x = c 0 + 3 * c 1 + 9 * c 2 + 27 * c 3 + 81 * c 4 := by
  have hcode (i : Nat) : ternCode (bits x (8 * i + 7) (8 * i)) =
      let g := x / 256 ^ i % 256; if g = 0 then 0 else if g < 128 then 1 else 2 := by
    rw [bits_byte]
    exact ternCode_eq (Nat.mod_lt _ (by decide))
  simp only [trpackVal, hcode, List.range_succ, List.range_zero, List.nil_append, List.foldl_append, List.foldl_cons,
    List.foldl_nil]
  omega

theorem trpack_yields (d a : BitVec 8) (lit : BitVec 32) :
    Yields (.trpack d a lit) d (fun _ => 1) (fun _ => dstOk d 1 = true ∧ srcFor d a 2 = true) fun e t v => ∃ x,
      e.src64 (.word lit) a t = .ok x ∧
      let c (i : Nat) : Nat := let g := x / 256 ^ i % 256; if g = 0 then 0 else if g < 128 then 1 else 2
      v = c 0 + 3 * c 1 + 9 * c 2 + 27 * c 3 + 81 * c 4 := by
  refine yields_of _ (fun e t => do
      let x ← e.src64 (.word lit) a t
      pure (trpackVal x)) (fun _ => rfl) ?plain ?value
  case plain =>
    rintro e hwf ⟨hd, ha⟩
    exact ⟨⟨rfl, by simp [hwf, hd, ha], rfl, rfl, rfl, rfl, rfl⟩, rfl, rfl, rfl, .inl rfl, dst_cases hd⟩
  case value =>
    rintro e t v - ⟨x, hx, hv⟩
    simp only [hx, bind, Except.bind, pure, Except.pure]
    rw [trpackVal_eq]
    exact congrArg _ hv.symm

/-! ## qscale (R291, R403) -/

/-- The largest magnitude of a list of values: one of theirs, or 0. -/
theorem maxMag_spec (vs : List FVal) (hrange : ∀ v ∈ vs, ∀ m g, qmag v = .fin false m g → InRange m g) :
    ∃ m g, maxMag vs = .fin false m g ∧ InRange m g ∧ (∀ v ∈ vs, mag v ≤ rat false m g) ∧
      (m = 0 ∨ ∃ v ∈ vs, mag v = rat false m g) := by
  obtain ⟨m, g, hmax, hin, -, hall, hone⟩ := maxFold vs 0 0 (.inl rfl) hrange
  exact ⟨m, g, hmax, hin, hall, hone.imp And.left id⟩

/-- The scale of a block: 0 for one of zeros, else the one that the largest magnitude lies under. -/
theorem qscaleOf_maxMag {vs : List FVal} {v : Nat} (hrange : ∀ v ∈ vs, ∀ m g, qmag v = .fin false m g → InRange m g)
    (h : ((∀ x ∈ vs, mag x = 0) ∧ v = 0) ∨ ∃ x ∈ vs, (∀ y ∈ vs, mag y ≤ mag x) ∧
      255 / 2 * (2 : ℚ) ^ ((v : Int) - 513) ≤ mag x ∧ mag x < 255 / 2 * (2 : ℚ) ^ ((v : Int) - 512)) :
    qscaleOf (maxMag vs) = v := by
  obtain ⟨m, g, hmax, hin, hall, hone⟩ := maxMag_spec vs hrange
  rw [hmax]
  rcases h with ⟨hzero, rfl⟩ | ⟨x, hx, htop, hlow, hhigh⟩
  · have hm : m = 0 := hone.elim id fun ⟨y, hy, hmag⟩ => (rat_eq_zero false m g).mp (hmag.symm.trans (hzero y hy))
    exact if_pos hm
  · have hpos : 0 < mag x := lt_of_lt_of_le (by positivity) hlow
    have hm : m ≠ 0 := fun h => by
      have hle := hall x hx
      rw [h, rat_zero] at hle
      linarith
    obtain ⟨y, hy, hmag⟩ := hone.resolve_left hm
    have htop : mag x = rat false m g := le_antisymm (hall x hx) (hmag ▸ htop y hy)
    obtain ⟨hlow', hhigh'⟩ := qscale_spec hm hin
    exact qscale_unique hlow' hhigh' (htop ▸ hlow) (htop ▸ hhigh)

/-- The result of qscale, the same for every thread. -/
def qscaleResult (e : Env) (d a : BitVec 8) (lit : BitVec 32) : Except (BitVec 8) Nat := do
  let rs ← eachThread (fun t => e.src64 (.word lit) a t) (e.runners d)
  pure (qscaleOf (maxMag (rs.flatMap fun r => (pairElems e r.2).map e.fval)))

/-- The values of the block that qscale looks at. -/
def blockVals (e : Env) (d : BitVec 8) (X : Nat → Nat) : List FVal :=
  (e.runners d).flatMap fun u => (List.range (2 * cnt e)).map fun k => pfv e (X u) k

theorem mem_blockVals {e : Env} {d : BitVec 8} {X : Nat → Nat} {v : FVal} :
    v ∈ blockVals e d X ↔ ∃ u k, u ∈ e.runners d ∧ k < 2 * cnt e ∧ pfv e (X u) k = v := by
  simp [blockVals]

theorem qscaleResult_eq {e : Env} {d a : BitVec 8} {lit : BitVec 32} {X : Nat → Nat} (hty : tyFloat e.ty = true)
    (hX : ∀ u, u ∈ e.runners d → e.src64 (.word lit) a u = .ok (X u)) :
    qscaleResult e d a lit = .ok (qscaleOf (maxMag (blockVals e d X))) := by
  have hblock : ((e.runners d).map fun t => (t, X t)).flatMap (fun r => (pairElems e r.2).map e.fval) = blockVals e d X := by
    rw [List.flatMap_map]
    exact List.flatMap_congr fun u hu => by
      dsimp only
      rw [pairElems_eq hty (src64_lt (hX u hu)), List.map_map]
      rfl
  rw [qscaleResult, eachThread_eq hX]
  simp only [bind, Except.bind, pure, Except.pure, hblock]

theorem blockVals_range {e : Env} {d : BitVec 8} {X : Nat → Nat} (hty : tyFloat e.ty = true) :
    ∀ v ∈ blockVals e d X, ∀ m g, qmag v = .fin false m g → InRange m g := by
  intro v hv m g hq
  obtain ⟨u, k, -, -, rfl⟩ := mem_blockVals.mp hv
  exact fval_range hty _ _ _ hq

theorem qscale_yields (d a : BitVec 8) (lit : BitVec 32) : Yields (.qscale d a lit) d (fun _ => 1)
    (fun e => tyFloat e.ty = true ∧ dstOk d 1 = true ∧ srcFor d a 2 = true) fun e _ v => ∃ X : Nat → Nat,
    (∀ u, u ∈ e.runners d → e.src64 (.word lit) a u = .ok (X u)) ∧
    (((∀ u k, u ∈ e.runners d → k < 2 * cnt e → mag (pfv e (X u) k) = 0) ∧ v = 0) ∨
      ∃ u k, u ∈ e.runners d ∧ k < 2 * cnt e ∧
        (∀ u' k', u' ∈ e.runners d → k' < 2 * cnt e → mag (pfv e (X u') k') ≤ mag (pfv e (X u) k)) ∧
        255 / 2 * 2 ^ ((v : Int) - 513) ≤ mag (pfv e (X u) k) ∧
        mag (pfv e (X u) k) < 255 / 2 * 2 ^ ((v : Int) - 512)) := by
  refine yields_of_act _ (fun e _ => qscaleResult e d a lit) (fun _ => rfl) ?plain ?value
  case plain =>
    rintro e hwf ⟨hty, hd, ha⟩
    refine ⟨⟨rfl, by simp [hwf, hd, ha], hty, rfl, rfl, rfl, rfl⟩, rfl, rfl, fun s l hres hne => ?_, .inl rfl, dst_cases hd⟩
    obtain ⟨t, ht⟩ := List.exists_mem_of_ne_nil _ hne
    obtain ⟨-, X, hX, -⟩ := hres t ht
    simp only [qscaleResult, eachThread_eq hX, bind, Except.bind, pure, Except.pure]
    rfl
  case value =>
    rintro e t v ⟨hty, -⟩ ⟨X, hX, hscale⟩
    rw [qscaleResult_eq hty hX, qscaleOf_maxMag (blockVals_range hty)]
    refine hscale.imp (fun ⟨hzero, hv⟩ => ⟨fun x hx => ?_, hv⟩) fun ⟨u, k, hu, hk, htop, hbounds⟩ =>
      ⟨_, mem_blockVals.mpr ⟨u, k, hu, hk, rfl⟩, fun y hy => ?_, hbounds⟩
    · obtain ⟨u, k, hu, hk, rfl⟩ := mem_blockVals.mp hx
      exact hzero u k hu hk
    · obtain ⟨u', k', hu', hk', rfl⟩ := mem_blockVals.mp hy
      exact htop u' k' hu' hk'

/-! ## qpack8 and qunpack8 (R404, R405) -/

theorem val_zero {w : Nat} {sg : Bool} {r : Nat} (hr : r < 2 ^ w) : val w sg r = 0 ↔ r = 0 := by
  have hnil : val w sg 0 = 0 := by simp [val]
  rw [← hnil]
  exact val_inj hr (by positivity)

theorem float_count {e : Env} (h : tyFloat e.ty = true) : 2 * cnt e * tyWidth e.ty = 64 ∧ 2 * cnt e ≤ 4 := by
  unfold cnt
  rcases float_cases h with h | h | h <;> rw [h] <;> decide

/-- Four bytes, of which a list gives the low ones and the rest are 0. -/
theorem packElems_bytes {n v : Nat} {g : Nat → Nat} (hn : n ≤ 4) (hv : v < 2 ^ 32)
    (h : ∀ j, j < 4 → v / 256 ^ j % 256 = if j < n then g j % 256 else 0) :
    packElems 8 ((List.range n).map g) = v := by
  have hlt := packElems_lt 8 ((List.range n).map g)
  rw [List.length_map, List.length_range] at hlt
  refine digits_ext 8 4 _ _ (hlt.trans_le (Nat.pow_le_pow_right (by decide) (by omega))) hv fun j hj => ?_
  have hj4 := h j hj
  rw [pow_two_bytes]
  by_cases hjn : j < n
  · rw [if_pos hjn] at hj4
    refine Eq.trans ?_ hj4.symm
    rw [← pow_two_bytes, packElems_digit _ _ _ (by simpa using hjn), getD_map_range _ _ _ hjn]
    rfl
  · rw [if_neg hjn] at hj4
    have hsmall : packElems 8 ((List.range n).map g) < 256 ^ j := by
      rw [← pow_two_bytes]
      exact hlt.trans_le (Nat.pow_le_pow_right (by decide) (by omega))
    rw [Nat.div_eq_of_lt hsmall]
    exact hj4.symm

theorem qpackVal_eq {e : Env} {x n v : Nat} (hty : tyFloat e.ty = true) (hx : x < 2 ^ 64) (hv : v < 2 ^ 32)
    (h : ∀ j, j < 4 → val 8 true (v / 256 ^ j % 256) =
      if n % 1024 = 0 ∨ 2 * cnt e ≤ j then 0 else qelem (n % 1024) (pfv e x j)) : qpackVal e x n = v := by
  have hbyte (j : Nat) : v / 256 ^ j % 256 < 2 ^ 8 := Nat.mod_lt _ (by decide)
  unfold qpackVal
  dsimp only
  split
  case isTrue hzero =>
    refine packElems_bytes (n := 0) (g := id) (by decide) hv fun j hj => ?_
    have hj4 := h j hj
    rwa [if_pos (.inl hzero), val_zero (hbyte j)] at hj4
  case isFalse hne =>
    rw [pairElems_eq hty hx, List.map_map]
    refine packElems_bytes (float_count hty).2 hv fun j hj => ?_
    have hj4 := h j hj
    by_cases hpast : 2 * cnt e ≤ j
    · rw [if_pos (.inr hpast), val_zero (hbyte j)] at hj4
      rw [hj4, if_neg (by omega)]
    · rw [if_neg (by tauto)] at hj4
      rw [if_pos (by omega), Function.comp, ← Nat.mod_eq_of_lt (hbyte j)]
      exact congrArg (· % 256) (wrapN_val (hbyte j) hj4).symm

theorem qpack8_yields (d a b : BitVec 8) (lit : BitVec 32) : Yields (.qpack8 d a b lit) d (fun _ => 1)
    (fun e => tyFloat e.ty = true ∧ dstOk d 1 = true ∧ srcFor d a 2 = true ∧ srcFor d b 1 = true) fun e t v => ∃ x n,
    e.src64 (.word lit) a t = .ok x ∧ e.src32 (.word lit) b t = .ok n ∧ v < 2 ^ 32 ∧
    ∀ j, j < 4 → val 8 true (v / 256 ^ j % 256) =
      if n % 1024 = 0 ∨ 2 * cnt e ≤ j then 0 else qelem (n % 1024) (pfv e x j) := by
  refine yields_of _ (fun e t => do
      let x ← e.src64 (.word lit) a t
      let n ← e.src32 (.word lit) b t
      pure (qpackVal e x n)) (fun _ => rfl) ?plain ?value
  case plain =>
    rintro e hwf ⟨hty, hd, ha, hb⟩
    exact ⟨⟨rfl, by simp [hwf, hd, ha, hb], hty, rfl, rfl, rfl, rfl⟩, rfl, rfl, rfl, .inl rfl, dst_cases hd⟩
  case value =>
    rintro e t v ⟨hty, -⟩ ⟨x, n, hx, hn, hv, hbytes⟩
    simp only [hx, hn, qpackVal_eq hty (src64_lt hx) hv hbytes, bind, Except.bind, pure, Except.pure]

theorem fresult_zero (f : FFmt) {env : FEnv} (g : Int) (hsat : env.sat = false) : fresult f env (.fin false 0 g) = 0 := by
  simp [fresult, fencode, ffinish, hsat]

theorem qunpackElem_eq {e : Env} {n g : Nat} (hg : g < 256) : qunpackElem e (n % 1024) g =
    if n % 1024 = 0 ∨ val 8 true g = 0 then 0
    else fresult e.fmt { e.fenv with sat := false }
      (.fin (val 8 true g < 0) (val 8 true g).natAbs (((n % 1024 : Nat) : Int) - 512)) := by
  unfold qunpackElem
  rw [sext_eq_val (w := 8) hg, fofInt, fscaleV, zero_add]
  by_cases hn : n % 1024 = 0
  · rw [if_pos hn, if_pos (.inl hn)]
  · rw [if_neg hn]
    by_cases hz : val 8 true g = 0
    · rw [if_pos (.inr hz), hz]
      exact fresult_zero _ _ rfl
    · rw [if_neg (by tauto)]

theorem qunpack8_yields (d a b : BitVec 8) (lit : BitVec 32) : Yields (.qunpack8 d a b lit) d (fun _ => 2)
    (fun e => tyFloat e.ty = true ∧ dstOk d 2 = true ∧ srcFor d a 1 = true ∧ srcFor d b 1 = true) fun e t v => ∃ x n,
    e.src32 (.word lit) a t = .ok x ∧ e.src32 (.word lit) b t = .ok n ∧ v < 2 ^ 64 ∧
    ∀ k, k < 2 * cnt e →
      let g := val 8 true (x / 256 ^ k % 256)
      v / 2 ^ (k * tyWidth e.ty) % 2 ^ tyWidth e.ty = if n % 1024 = 0 ∨ g = 0 then 0
        else fresult e.fmt { e.fenv with sat := false } (.fin (g < 0) g.natAbs (n % 1024 - 512)) := by
  refine yields_of _ (fun e t => do
      let x ← e.src32 (.word lit) a t
      let n ← e.src32 (.word lit) b t
      pure (qunpackVal e x n)) (fun _ => rfl) ?plain ?value
  case plain =>
    rintro e hwf ⟨hty, hd, ha, hb⟩
    exact ⟨⟨rfl, by simp [hwf, hd, ha, hb], hty, rfl, rfl, rfl, rfl⟩, rfl, rfl, rfl, .inr rfl, dst_cases hd⟩
  case value =>
    rintro e t v ⟨hty, -⟩ ⟨x, n, hx, hn, hv, hel⟩
    have hunpack : qunpackVal e x n = v := by
      have hfill := (float_count hty).1
      change packElems (tyWidth e.ty) ((List.range (2 * cnt e)).map fun i =>
        qunpackElem e (n % 1024) (bits x (8 * i + 7) (8 * i))) = v
      refine digits_ext (tyWidth e.ty) (2 * cnt e) _ _ ?_ (by rwa [hfill]) fun k hk => ?_
      · simpa using packElems_lt (tyWidth e.ty) ((List.range (2 * cnt e)).map _)
      · rw [packElems_digit _ _ _ (by simpa using hk), getD_map_range _ _ _ hk, bits_byte,
          qunpackElem_eq (Nat.mod_lt _ (by decide))]
        have hk' := hel k hk
        have hlow : v / 2 ^ (k * tyWidth e.ty) % 2 ^ tyWidth e.ty < 2 ^ tyWidth e.ty := Nat.mod_lt _ (by positivity)
        dsimp only at hk'
        rw [hk'] at hlow ⊢
        exact Nat.mod_eq_of_lt hlow
    simp only [hx, hn, hunpack, bind, Except.bind, pure, Except.pure]

end Sys2Proof.Machine

namespace Sys2Proof.Claim
open Machine

/-- Settles O11: codes by sign, the scale from the largest magnitude, bytes and elements one by one. -/
theorem quantisationComputes : Obligations.QuantisationComputes :=
  ⟨trpack_yields, qscale_yields, qpack8_yields, qunpack8_yields⟩

end Sys2Proof.Claim
end

section
/-! PROOFS. Votes, shuffles, reductions and scans of a warp (R283, R368 to R371). -/

namespace Sys2Proof.Machine
open Claim

theorem vote_yields (d p : BitVec 8) (lit : BitVec 32) :
    Yields (.vote d p lit) d (fun _ => 1) (fun _ => dstOk d 1 = true ∧ isP p = true) fun e _ v =>
      v < 2 ^ 16 ∧ ∀ t, t < 16 → v.testBit t = (e.active.getLsbD t && (e.pred (predNo p)).getLsbD t) := by
  refine yields_of _ (fun e _ => .ok (e.pred (predNo p) &&& e.active).toNat) (fun _ => rfl) ?plain ?value
  case plain =>
    rintro e hwf ⟨hd, hp⟩
    exact ⟨⟨rfl, by simp [hwf, hd, hp], rfl, rfl, rfl, rfl, rfl⟩, rfl, rfl, rfl, .inl rfl, dst_cases hd⟩
  case value =>
    rintro e t v - ⟨hv, hbits⟩
    refine congrArg _ (testBit_ext (BitVec.isLt _) hv fun i hi => ?_)
    rw [hbits i hi, BitVec.testBit_toNat, BitVec.getLsbD_and, Bool.and_comm]

theorem shfl_yields (d a b : BitVec 8) (lit : BitVec 32) :
    Yields (.shfl d a b lit) d tr (fun e => isV d = true ∧ aligned d (tyRegs e.ty) = true ∧
      srcVOk a (tyRegs e.ty) = true ∧ srcOk b 1 = true) fun e t v => ∃ i,
    e.src32 (.word lit) b t = .ok i ∧ e.srcTy e.ty .none a (i % 16) = .ok v := by
  refine yields_of _ (fun e t => do
      let i ← e.src32 (.word lit) b t
      e.vtyped a (i % 16)) (fun _ => rfl) ?plain ?value
  case plain =>
    rintro e hwf ⟨hd, hal, ha, hb⟩
    exact ⟨⟨rfl, by simp [hwf, hd, hal, ha, hb], rfl, rfl, rfl, rfl, rfl⟩, rfl, rfl, rfl, tr12 e, .inl hd⟩
  case value =>
    rintro e t v - ⟨i, hi, hv⟩
    simp only [hi, Env.vtyped, hv, bind, Except.bind]

theorem vtos_yields (d a b : BitVec 8) (lit : BitVec 32) :
    Yields (.vtos d a b lit) d tr (fun e => isS d = true ∧ aligned d (tyRegs e.ty) = true ∧
      srcVOk a (tyRegs e.ty) = true ∧ srcUOk b 1 = true) fun e t v => ∃ i,
    e.src32 (.word lit) b t = .ok i ∧ e.srcTy e.ty .none a (i % 16) = .ok v := by
  refine yields_of _ (fun e t => do
      let i ← e.src32 (.word lit) b t
      e.vtyped a (i % 16)) (fun _ => rfl) ?plain ?value
  case plain =>
    rintro e hwf ⟨hd, hal, ha, hb⟩
    exact ⟨⟨rfl, by simp [hwf, hd, hal, ha, hb], rfl, rfl, rfl, rfl, rfl⟩, rfl, (dst_isS _ hd).symm, rfl, tr12 e, .inr hd⟩
  case value =>
    rintro e t v - ⟨i, hi, hv⟩
    simp only [hi, Env.vtyped, hv, bind, Except.bind]

/-! ## wred (R283, R371) -/

/-- The result of wred, the same for every thread. -/
def wredResult (e : Env) (a b : BitVec 8) : Except (BitVec 8) Nat := do
  let rs ← eachThread (e.vtyped a) e.act
  pure (e.reduce (redOp b) rs)

/-- A reduction of the active threads' values, element by element. -/
theorem reduce_eq {e : Env} {op v : Nat} {X : Nat → Nat} (hop : op ≤ 5) (h : Each e.ty v fun k r =>
      if tyFloat e.ty then ∃ y, treeRed (e.fcomb op)
          ((List.range 16).map fun u => if u ∈ e.act then some (el e.ty (X u) k) else none) = some y ∧ r = e.fclamp y
      else Combined e.ty e.sat op (e.act.map fun u => el e.ty (X u) k) r) :
    e.reduce op (e.act.map fun u => (u, X u)) = v := by
  obtain ⟨hv, hel⟩ := h
  refine ofElems_eq _ hv fun k hk => ?_
  have hk' := hel k hk
  have hfind (u : Nat) : (((e.act.map fun u => (u, X u)).find? fun r => r.1 == u).map fun r => (elems e.ty r.2).getD k 0) =
      if u ∈ e.act then some (el e.ty (X u) k) else none := by
    rw [find_act (e := e) (X := X) (by simp [Function.comp_def]) (by simp) (fun x => (elems e.ty x).getD k 0) u, elems_getD hk]
  cases hfl : tyFloat e.ty with
  | true =>
    simp only [hfl, if_true] at hk' ⊢
    obtain ⟨y, htree, hr⟩ := hk'
    simp only [hfind, htree, hr]
  | false =>
    simp only [hfl, Bool.false_eq_true, if_false] at hk' ⊢
    rw [List.map_map, ← red_eq hop (by simp [el_lt]) hk']
    exact congrArg _ (List.map_congr_left fun u _ => (elems_getD hk).symm)

theorem wred_yields (d a b : BitVec 8) (lit : BitVec 32) :
    Yields (.wred d a b lit) d tr (fun e => dstOk d (tyRegs e.ty) = true ∧ srcVOk a (tyRegs e.ty) = true ∧
      redBOk b = true ∧ redMoodOk b e.ty = true) fun e _ v => ∃ X : Nat → Nat,
    (∀ u, u ∈ e.act → e.srcTy e.ty .none a u = .ok (X u)) ∧ Each e.ty v fun k r =>
      if tyFloat e.ty then ∃ y, treeRed (e.fcomb (redOp b))
          ((List.range 16).map fun u => if u ∈ e.act then some (el e.ty (X u) k) else none) = some y ∧ r = e.fclamp y
      else Combined e.ty e.sat (redOp b) (e.act.map fun u => el e.ty (X u) k) r := by
  refine yields_of_act _ (fun e _ => wredResult e a b) (fun _ => rfl) ?plain ?value
  case plain =>
    rintro e hwf ⟨hd, ha, hb, hmood⟩
    refine ⟨⟨rfl, by simp [hwf, hd, ha, hb], by simp only [hmood], rfl, rfl, rfl, rfl⟩, rfl, rfl,
      fun s l hres hne => ?_, tr12 e, dst_cases hd⟩
    obtain ⟨t, ht⟩ := List.exists_mem_of_ne_nil _ hne
    obtain ⟨-, X, hX, -⟩ := hres t ht
    simp only [wredResult, eachThread_eq (f := e.vtyped a) hX, bind, Except.bind, pure, Except.pure]
    rfl
  case value =>
    rintro e t v ⟨-, -, hb, -⟩ ⟨X, hX, hel⟩
    simp only [wredResult, eachThread_eq (f := e.vtyped a) hX, reduce_eq (redOp_le hb) hel, bind, Except.bind, pure,
      Except.pure]

/-! ## wscan (R283, R371) -/

/-- The result of wscan in a thread. -/
def wscanResult (e : Env) (a b : BitVec 8) (t : Nat) : Except (BitVec 8) Nat := do
  let rs ← eachThread (e.vtyped a) e.act
  pure (e.prefixOf (redOp b) ((rs.filter fun r => decide (r.1 ≤ t)).map Prod.snd))

/-- A combination of values in order, element by element. -/
theorem prefixOf_eq {e : Env} {op v : Nat} {us : List Nat} {X : Nat → Nat} (hop : op ≤ 5) (h : Each e.ty v fun k r =>
      let l := us.map fun u => el e.ty (X u) k
      if tyFloat e.ty then ∃ y ys, l = y :: ys ∧ r = e.fclamp (ys.foldl (e.fcomb op) y)
      else Combined e.ty e.sat op l r) : e.prefixOf op (us.map X) = v := by
  obtain ⟨hv, hel⟩ := h
  refine ofElems_eq _ hv fun k hk => ?_
  have hk' := hel k hk
  have hels : ((us.map X).map fun x => (elems e.ty x).getD k 0) = us.map fun u => el e.ty (X u) k := by
    rw [List.map_map]
    exact List.map_congr_left fun u _ => elems_getD hk
  simp only [hels]
  cases hfl : tyFloat e.ty with
  | true =>
    simp only [hfl, if_true] at hk' ⊢
    obtain ⟨y, ys, hl, hr⟩ := hk'
    rw [hl, hr]
  | false =>
    simp only [hfl, Bool.false_eq_true, if_false] at hk' ⊢
    exact (red_eq hop (by simp [el_lt]) hk').symm

/-- The values of the active threads up to a thread. -/
theorem filter_upto (us : List Nat) (X : Nat → Nat) (t : Nat) :
    (((us.map fun u => (u, X u)).filter fun r => decide (r.1 ≤ t)).map Prod.snd) =
      (us.filter fun u => decide (u ≤ t)).map X := by
  rw [List.filter_map, List.map_map]
  rfl

theorem wscan_yields (d a b : BitVec 8) (lit : BitVec 32) :
    Yields (.wscan d a b lit) d tr (fun e => isV d = true ∧ aligned d (tyRegs e.ty) = true ∧
      srcVOk a (tyRegs e.ty) = true ∧ redBOk b = true ∧ redMoodOk b e.ty = true) fun e t v => ∃ X : Nat → Nat,
    (∀ u, u ∈ e.act → e.srcTy e.ty .none a u = .ok (X u)) ∧ Each e.ty v fun k r =>
      let l := (e.act.filter fun u => decide (u ≤ t)).map fun u => el e.ty (X u) k
      if tyFloat e.ty then ∃ y ys, l = y :: ys ∧ r = e.fclamp (ys.foldl (e.fcomb (redOp b)) y)
      else Combined e.ty e.sat (redOp b) l r := by
  refine yields_of_act _ (fun e => wscanResult e a b) (fun _ => rfl) ?plain ?value
  case plain =>
    rintro e hwf ⟨hd, hal, ha, hb, hmood⟩
    refine ⟨⟨rfl, by simp [hwf, hd, hal, ha, hb], by simp only [hmood], rfl, rfl, rfl, rfl⟩, rfl, rfl, fun s l hres hne => ?_, tr12 e,
      .inl hd⟩
    obtain ⟨t, ht⟩ := List.exists_mem_of_ne_nil _ hne
    obtain ⟨-, X, hX, -⟩ := hres t ht
    have hf (u : Nat) : wscanResult e a b u = .ok (e.prefixOf (redOp b) ((e.act.filter fun x => decide (x ≤ u)).map X)) := by
      simp only [wscanResult, eachThread_eq (f := e.vtyped a) hX, filter_upto, bind, Except.bind, pure, Except.pure]
    simp only [eachThread_eq (f := e.vtyped a) hX, filter_upto, funext hf]
    rfl
  case value =>
    rintro e t v ⟨-, -, -, hb, -⟩ ⟨X, hX, hel⟩
    simp only [wscanResult, eachThread_eq (f := e.vtyped a) hX, filter_upto, prefixOf_eq (redOp_le hb) hel, bind, Except.bind,
      pure, Except.pure]

end Sys2Proof.Machine

namespace Sys2Proof.Claim
open Machine

/-- Settles O12: a ballot, values of other threads, and combinations element by element. -/
theorem crossWarpComputes : Obligations.CrossWarpComputes :=
  ⟨vote_yields, shfl_yields, vtos_yields, wred_yields, wscan_yields⟩

end Sys2Proof.Claim
end

section
/-! PROOFS. sread: a value for each selector, two of which clear what they read (R266, R340, R367). -/

namespace Sys2Proof.Machine
open Claim

/-- The specification of sread. -/
def sreadSpec (d sr : BitVec 8) (e : Env) : LaneSpec :=
  { opOk := (Instr.sread d sr).wf && dstOk d (tyRegs e.ty)
    illegal := if 13 ≤ sr.toNat then some 0x0d else none
    dsts := dstNames d (tyRegs e.ty)
    act := fun s l =>
      e.result d (tyRegs e.ty) (fun t => .ok (e.special sr.toNat t)) (clearSpecial e.b e.w sr.toNat s) l }

theorem exec_sread (d sr : BitVec 8) (s : State) : exec (.sread d sr) s = runLane (sreadSpec d sr) s := rfl

section
variable {d sr : BitVec 8} {e : Env} {l : FetchLine} {s s1 : State} {pc : W64}

theorem sread_wf (hsel : sr.toNat ≤ 14) : (Instr.sread d sr).wf = true := decide_eq_true hsel

theorem sread_opOk (hsel : sr.toNat ≤ 14) (hd : dstOk d (tyRegs e.ty) = true) : (sreadSpec d sr e).opOk = true := by
  simp [sreadSpec, sread_wf hsel, hd]

/-- Selectors 13 and 14 are illegal in a region only (R266). -/
theorem sread_legal (h : sr.toNat ≤ 12 ∨ e.inTry = false) : (sreadSpec d sr e).illegal = none ∨ e.inTry = false :=
  h.imp_left fun hlow => if_neg (by omega)

theorem sread_run (hsel : sr.toNat ≤ 14) (hd : dstOk d (tyRegs e.ty) = true) (hlegal : sr.toNat ≤ 12 ∨ e.inTry = false)
    (hroom : Room e (dstNames d (tyRegs e.ty))) : (sreadSpec d sr e).run e l s = if e.idle then .ok s
      else e.result d (tyRegs e.ty) (fun t => .ok (e.special sr.toNat t)) (clearSpecial e.b e.w sr.toNat s) l := by
  refine LaneSpec.run_pass rfl (sread_opOk hsel hd) rfl rfl (fun htry => ?_) (fun h => by cases h) rfl ?_
  · rcases sread_legal (d := d) hlegal with h | h
    · exact h
    · rw [h] at htry; cases htry
  · exact hroom.imp_right (Or.imp_left fun hid => hid)

theorem sread_idle (d sr : BitVec 8) : Does (.sread d sr) (fun e _ _ => e.idle = true ∧ sr.toNat ≤ 14 ∧
    dstOk d (tyRegs e.ty) = true ∧ (sr.toNat ≤ 12 ∨ e.inTry = false)) fun _ _ s => s :=
  does_of _ (exec_sread d sr) fun _ _ _ _ ⟨hid, hsel, hd, hlegal⟩ =>
    (sread_run hsel hd hlegal (.inr (.inl hid))).trans (if_pos hid)

/-! ## Selectors 0 to 12 -/

theorem sread_reads (d sr : BitVec 8) (hsel : sr.toNat ≤ 12) :
    Yields (.sread d sr) d tr (fun e => dstOk d (tyRegs e.ty) = true) fun e t v => v = e.special sr.toNat t := by
  refine yields_of _ (fun e t => .ok (e.special sr.toNat t)) (exec_sread d sr) ?plain fun e t v _ hv => congrArg _ hv.symm
  intro e hwf hd
  have hill : (sreadSpec d sr e).illegal = none := if_neg (by omega)
  refine ⟨⟨rfl, sread_opOk (by omega) hd, rfl, rfl, hill, rfl, rfl⟩, rfl, rfl, ?_, tr12 e, dst_cases hd⟩
  have hclear (s : State) : clearSpecial e.b e.w sr.toNat s = s := by
    rw [clearSpecial, if_neg (by omega), if_neg (by omega)]
  funext s l
  exact congrArg (fun s => e.result d (tyRegs e.ty) (fun t => .ok (e.special sr.toNat t)) s l) (hclear s)

/-! ## Selectors 13 and 14 -/

/-- What is changed of a block does not look at how it stood before. -/
theorem changed_from {c : Env} {s2 : State} {y : Warp} (h : Changed c s1 s2 y) (f : Block → Block) :
    Changed c (s1.updBlock c.b f) s2 y :=
  ⟨⟨h.rest.1, fun k hk => (h.rest.2 k hk).trans ((updBlock_only s1 c.b f).2 k hk).symm⟩, h.block⟩

theorem changed_own {c : Env} {s2 : State} (h : State.OnlyBlock c.b s1 s2) (hk : s2.block? c.b = some c.blk)
    (hw : AMap.get? c.blk.warps c.w = some c.wp) : Changed c s1 s2 c.wp :=
  ⟨h, c.blk, hk, rfl, rfl, hw, fun _ _ => rfl⟩

/-- A selector that clears: `c` is the issuer after the clear, whose registers are those of `e`. -/
theorem sread_clears {c : Env} {n : Nat} (hn : sr.toNat = n) (hi : Issues s e l s1 pc) (hsel : sr.toNat ≤ 14)
    (hd : dstOk d (tyRegs e.ty) = true) (hroom : Room e (dstNames d (tyRegs e.ty))) (htry : e.inTry = false)
    (hid : e.idle = false) (hb : c.b = e.b) (hw : c.w = e.w) (hsp : c.sp = e.sp) (hsplit : c.split = e.split)
    (hactive : c.wp.active = e.wp.active)
    (hresult : ∀ f s, e.result d (tyRegs e.ty) f s l = c.result d (tyRegs e.ty) f s l) (hrunners : c.runners d = e.runners d)
    (hch : Changed c s1 (clearSpecial e.b e.w n s1) c.wp) :
    ∃ r x, exec (.sread d sr) s = .next (r.settleWarp e.b e.w) ∧ Retired c (s1.updBlock e.b fun _ => c.blk) r x pc ∧
      Keeps c x (dstNames d (tyRegs e.ty)) (uniNames d (tyRegs e.ty)) [] ∧
      ∀ t, t ∈ e.runners d → Got c x d (tyRegs e.ty) t (e.special n t) := by
  subst hn
  obtain ⟨-, -, hs⟩ := issues_block hi
  have hchanged : Changed c (s1.updBlock e.b fun _ => c.blk) (clearSpecial e.b e.w sr.toNat s1) c.wp := by
    rw [← hb]
    exact changed_from (hb ▸ hch) _
  obtain ⟨s3, x, hres, hret, hkeeps, hgot⟩ := result_done (pc := pc) (d := d) (k := tyRegs e.ty)
    (f := fun t => .ok (e.special sr.toNat t)) hchanged (by rw [hactive, hsp, hsplit, hs]) (tr12 e) (dst_cases hd)
    (fun t _ => ⟨_, rfl⟩) l
  have hrun : (sreadSpec d sr e).run e l s1 = .ok s3 := by
    rw [sread_run hsel hd (.inr htry) hroom, hid]
    exact (hresult _ _).trans hres
  refine ⟨_, x, runLane_ok hi.who hi.line hi.next hrun, ?_, hkeeps, fun t ht => hgot t _ (hrunners ▸ ht) rfl⟩
  rwa [State.retireTo, hb, hw, hsp] at hret

theorem sread_clears_status (d : BitVec 8) : SpecialClears d 13 (fun e => after e { e.wp with rstatus := false })
    fun e => if e.wp.rstatus then 1 else 0 := by
  intro s e l s1 pc sr hi hn hd hroom htry hid
  obtain ⟨hb, hw, -⟩ := issues_block hi
  have hch := changed_upd (changed_start hb hw) fun x => { x with rstatus := false }
  exact sread_clears hn hi (by omega) hd hroom htry hid rfl rfl rfl rfl rfl (fun _ _ => rfl) rfl ⟨hch.rest, hch.block⟩

theorem sread_clears_weft (d : BitVec 8) : SpecialClears d 14
    (fun e => { e with blk := { e.blk with weft := e.blk.weft.map fun y => { y with povf := false, badWeight := false } } })
    fun e => wflagsOf e.blk := by
  intro s e l s1 pc sr hi hn hd hroom htry hid
  obtain ⟨hb, hw, -⟩ := issues_block hi
  refine sread_clears hn hi (by omega) hd hroom htry hid rfl rfl rfl rfl rfl (fun _ _ => rfl) rfl
    (changed_own (updBlock_only ..) ?_ hw)
  show (s1.updWeft e.b _).block? e.b = _
  rw [State.updWeft, block?_updBlock, if_pos rfl, hb]
  rfl

/-- sread leaves its split after it, whichever selector it reads. -/
theorem sread_moves (hi : Issues s e l s1 pc) (hlegal : sr.toNat ≤ 12 ∨ (sr.toNat ≤ 14 ∧ e.inTry = false))
    (hd : dstOk d (tyRegs e.ty) = true) (hroom : Room e (dstNames d (tyRegs e.ty))) :
    ∃ (r : State) (x : Warp), exec (.sread d sr) s = .next (r.settleWarp e.b e.w) ∧ r.warp? e.b e.w = some x ∧
      AMap.get? x.active e.sp = some { e.split with pc := pc, park := .ready } := by
  have hdone {c : Env} {s0 r : State} {x : Warp} (hret : Retired c s0 r x pc) :
      r.warp? c.b c.w = some x ∧ AMap.get? x.active c.sp = some { c.split with pc := pc, park := .ready } := by
    obtain ⟨k, hk, -, -, hx, -⟩ := hret.block
    exact ⟨warp?_of hk hx, hret.split⟩
  cases hid : e.idle with
  | true =>
    obtain ⟨hb, hw, hs⟩ := issues_block hi
    have hlegal' : sr.toNat ≤ 12 ∨ e.inTry = false := hlegal.imp_right And.right
    exact ⟨_, _, sread_idle d sr s e l s1 pc hi (sread_wf (by omega)) ⟨hid, by omega, hd, hlegal'⟩,
      hdone (retired_same hb hw hs)⟩
  | false =>
    by_cases hlow : sr.toNat ≤ 12
    · obtain ⟨r, x, hexec, hret, -⟩ := sread_reads d sr hlow s e l s1 pc hi (sread_wf (by omega)) hd hroom
        fun t _ => ⟨_, rfl⟩
      exact ⟨r, x, hexec, hdone hret⟩
    · obtain ⟨hsel, htry⟩ := hlegal.resolve_left hlow
      rcases (show sr.toNat = 13 ∨ sr.toNat = 14 by omega) with hn | hn
      · obtain ⟨r, x, hexec, hret, -⟩ := sread_clears_status d s e l s1 pc sr hi hn hd hroom htry hid
        have hmoved := hdone hret
        exact ⟨r, x, hexec, hmoved⟩
      · obtain ⟨r, x, hexec, hret, -⟩ := sread_clears_weft d s e l s1 pc sr hi hn hd hroom htry hid
        have hmoved := hdone hret
        exact ⟨r, x, hexec, hmoved⟩

/-- In a region selectors 13 and 14 roll the warp back, once no load of the region is on its way (R266, R269). -/
theorem sread_rolls (hi : Fetches s e l s1) (hsel : sr.toNat = 13 ∨ sr.toNat = 14) (hd : dstOk d (tyRegs e.ty) = true)
    (htry : e.inTry = true) (hloads : e.wp.regionLoads = false) :
    exec (.sread d sr) s = .next (((s1.updWarp e.b e.w fun x =>
      x.rollWhole e.gen (abortWord 7 0x0d)).turnTaken e.b e.w e.sp).settleWarp e.b e.w) := by
  obtain ⟨hb, hw, -⟩ := fetches_block hi
  have hill : (sreadSpec d sr e).illegal = some 0x0d := if_pos (by omega)
  have hrun : (sreadSpec d sr e).run e l s1 = .roll s1 7 0x0d := by
    have hop := sread_opOk (e := e) (d := d) (sr := sr) (by omega) hd
    have hfeat : (sreadSpec d sr e).featOff e s1 = false := rfl
    have hmood : (sreadSpec d sr e).moodOk = true := rfl
    have htarget : (sreadSpec d sr e).checkTarget e s1 = (none, s1) := rfl
    simp only [LaneSpec.run, hfeat, hop, hmood, htarget, hill, htry, Bool.not_true, Bool.false_eq_true, if_false, if_true]
  rw [exec_sread]
  simp only [runLane, hi.1, hi.2, hrun, State.finish, warp?_of hb hw, hloads, Bool.false_eq_true, if_false]

theorem sread_unassigned (d : BitVec 8) (hsel : 14 < sr.toNat) :
    Faults (.sread d sr) (fun _ _ _ => True) fun _ _ _ => { code := fcBadOperand } := by
  rintro s e l s1 ⟨hissuer, hline⟩ -
  have hop : (sreadSpec d sr e).opOk = false := by
    have hwf : (Instr.sread d sr).wf = false := decide_eq_false (by omega)
    simp [sreadSpec, hwf]
  rw [exec_sread, runLane_fault hissuer hline (run_badOperand rfl hop)]

end

end Sys2Proof.Machine

namespace Sys2Proof.Claim
open Machine

/-- Settles O13: the selectors one by one, those that clear by the issuer after the clear. -/
theorem specialsRead : Obligations.SpecialsRead := by
  refine ⟨fun d sr hsel => ?reads, sread_clears_status, sread_clears_weft, sread_idle,
    fun d sr s e l s1 pc hi hlegal hd hroom => sread_moves hi hlegal hd hroom,
    fun d sr s e l s1 hi hsel hd htry hloads => sread_rolls hi hsel hd htry hloads,
    fun d sr hsel => sread_unassigned d hsel⟩
  have hread := sread_reads d sr hsel
  generalize sr.toNat = n at *
  interval_cases n <;> exact hread

end Sys2Proof.Claim
end

section
/-! PROOFS. Branches of the whole split, exit and yield, the mood, names and the register quota (R184 to R187, R221, R346,
R355 to R359, R362, R363, R366). -/

namespace Sys2Proof.Machine
open Claim

section
variable {s s1 : State} {e : Env} {l : FetchLine} {pc : W64}

/-! ## Branches (R355, R357 to R359) -/

theorem br_moves {o : BitVec 20} (hi : Fetches s e l s1) (ht : (tgt e s1 (dest e o)).1 = none) :
    ∃ r x, exec (.br o) s = .next (r.settleWarp e.b e.w) ∧ Retired e (tgt e s1 (dest e o)).2 r x (dest e o) ∧
      Keeps e x [] [] [] := by
  refine movesTo _ rfl hi (tgt_keeps e s1 _) ?_
  rw [run_target (o := o) rfl rfl rfl rfl ht (.inl rfl) rfl rfl (.inl rfl), ← targetOf_dest]
  rfl

theorem bru_moves {sr : BitVec 6} {o : BitVec 18} {v : W32} (hi : Fetches s e l s1) (ht : (tgt e s1 (dest e o)).1 = none)
    (hv : e.sread sr.toNat = .ok v) (hne : v ≠ 0#32) :
    ∃ r x, exec (.bru sr o) s = .next (r.settleWarp e.b e.w) ∧ Retired e (tgt e s1 (dest e o)).2 r x (dest e o) ∧
      Keeps e x [] [] [] :=
  movesTo _ rfl hi (tgt_keeps e s1 _) ((bru_run ht hv).trans (if_neg hne))

/-- call writes its link into the warp before the split moves. -/
theorem call_moves {d : BitVec 8} {o : BitVec 16} (hi : Fetches s e l s1) (ht : (tgt e s1 (dest e o)).1 = none)
    (hd : dstOk d 2 = true) (hroom : Room e (dstNames d 2)) (hid : e.idle = false) :
    ∃ r x, exec (.call d o) s = .next (r.settleWarp e.b e.w) ∧ Retired e (tgt e s1 (dest e o)).2 r x (dest e o) ∧
      Keeps e x (dstNames d 2) (uniNames d 2) [] ∧ ∀ t, t ∈ e.runners d → Got e x d 2 t (linkOf l e.pc 1).toNat := by
  obtain ⟨hch, hs⟩ := changed_port hi (tgt_keeps e s1 (dest e o))
  obtain ⟨hkeeps, hgot⟩ := put_link (e := e) (v := (linkOf l e.pc 1).toNat) hd
  obtain ⟨hretired, hactive⟩ := putWarp_turn e d 2 (e.act.map fun t => (t, words2 (linkOf l e.pc 1).toNat)) e.wp
  have hrun : exec (.call d o) s = .next (((e.moveTo (e.writeLink (tgt e s1 (dest e o)).2 d (linkOf l e.pc 1)) (dest e o)).retire
      e.b e.w e.sp).settleWarp e.b e.w) := by
    have hwrites : dstNames d 2 = [] ∨ (true && e.idle) = true ∨
        (e.wp.quotaOk (dstNames d 2) = true ∧ e.wp.mustWait (dstNames d 2) = false) := by simpa [Room] using hroom
    refine runLane_jump hi.1 hi.2 ((run_target (o := o) rfl hd rfl rfl ht (.inl rfl) rfl rfl hwrites).trans ?_)
    simp only [hid, Bool.and_false, Bool.false_eq_true, if_false]
    rw [← targetOf_dest]
    rfl
  exact ⟨_, _, hrun, retired_moved (changed_upd hch _) hs hretired hactive, keeps_spent (keeps_movedTo _ hkeeps),
    fun t ht => got_congr (hgot t ht) (fun _ => rfl) rfl rfl⟩

/-! ## exit and yield (R221, R362, R363) -/

theorem exit_jumps : Jumps .exit (fun e _ _ => e.inTry = false)
    fun e _ s => s.updSplit e.b e.w e.sp fun q => { q with mask := 0#16 } :=
  jumps_of _ (fun _ => rfl) fun _ _ _ _ htry => run_plainSpec (.inr htry)

theorem yield_saves : DoesThen .yield (fun e _ _ => ∃ t, e.blk.preempt = some (.preempt, t)) (fun _ _ s => s)
    fun e s => s.beginSave e.b e.w := by
  refine doesThen_of _ (fun _ => rfl) fun e l s _ ⟨t, hreq⟩ => ?_
  rw [run_plainSpec (.inl rfl)]
  simp only [hreq]

theorem yield_cancels : DoesThen .yield (fun e _ _ => ∃ t, e.blk.preempt = some (.cancel, t)) (fun _ _ s => s)
    fun e s => s.terminate e.b { code := fcCancel, wid := e.w, pc := e.pc, addr := 0#64 } false := by
  refine doesThen_of _ (fun _ => rfl) fun e l s _ ⟨t, hreq⟩ => ?_
  rw [run_plainSpec (.inl rfl)]
  simp only [hreq]

/-! ## The mood (R346, R366) -/

theorem moodLegal_of {v : Nat} (hv : v < 2 ^ 12) (hty : v / 16 % 16 ≤ 10) : moodLegal v = true := by
  rw [moodLegal, decide_eq_true_eq, bits_eq]
  exact ⟨hv, hty⟩

theorem mood_writes {a : BitVec 8} {lit : BitVec 32} {v : Nat} (hi : Issues s e l s1 pc)
    (hwf : (Instr.mood a lit).wf = true) (ha : srcUOk a 1 = true) (hread : e.srcU (.word lit) a = .ok v) (hv : v < 2 ^ 12)
    (hty : v / 16 % 16 ≤ 10) : exec (.mood a lit) s =
      .next (((s1.updSplit e.b e.w e.sp fun q => { q with mood := BitVec.ofNat 32 v }).retireTo e pc).settleWarp e.b e.w) := by
  refine runLane_ok hi.who hi.line hi.next ?_
  rw [run_of rfl (by simp [hwf, ha]) rfl rfl (.inl rfl) (.inl rfl) rfl (.inl rfl) (.inl rfl)]
  simp only [hread, moodLegal_of hv hty, if_true]

theorem moodG_writes (p n : BitVec 8) (lit : BitVec 32) : Does (.moodG p n lit) (fun _ _ _ => isP p = true) fun e _ s =>
    s.updSplit e.b e.w e.sp fun q =>
      { q with mood := (q.mood &&& 0xfffffff0#32) ||| (BitVec.ofNat 32 (n.toNat % 2) <<< 3) ||| (p.setWidth 32 &&& 7#32) } := by
  refine does_of _ (fun _ => rfl) fun e l s hwf hp => ?_
  rw [run_of rfl (by simp [hwf, hp]) rfl rfl (.inl rfl) (.inl rfl) rfl (.inl rfl) (.inl rfl)]
  simp only [withGuard_eq hp]

/-! ## Names and the quota (R184 to R187) -/

theorem vrel_unmaps (a : BitVec 8) (lit : BitVec 32) : Does (.vrel a lit) (fun _ _ _ => isV a = true) fun e _ s =>
    s.updWarp e.b e.w fun x => ({ x with rmap := AMap.erase x.rmap (regNo a) }).gc :=
  does_of _ (fun _ => rfl) fun _ _ _ hwf ha =>
    run_of rfl (by simp [hwf, ha]) rfl rfl (.inl rfl) (.inl rfl) rfl (.inl rfl) (.inl rfl)

/-- A name unmapped names nothing; the registers of the others stay. -/
theorem reg?_unmapped (x : Warp) (n m : Nat) (hnodup : (x.rmap.map Prod.fst).Nodup) :
    ({ x with rmap := AMap.erase x.rmap n } : Warp).gc.reg? m = if m = n then none else x.reg? m := by
  rw [Warp.gc_reg?]
  by_cases hm : m = n
  · rw [if_pos hm, hm]
    simp only [Warp.reg?, erase_self hnodup]
  · rw [if_neg hm]
    simp only [Warp.reg?, AMap.get?_erase_ne _ hm]

/-- A quarter whose lane has a request of `n` registers at the end of its queue. -/
def quotaQueued (e : Env) (n : Nat) (x : Quarter) : Quarter :=
  let queue := AMap.getD x.quotaQ e.wp.lane [] ++ [(e.b, e.w, e.sp, n)]
  { x with quotaQ := AMap.set x.quotaQ e.wp.lane queue }

/-- What quota.grow comes to with a request that its lane can hold. -/
theorem quotaGrow_acts (a : BitVec 8) (lit : BitVec 32) : ∃ sp : Env → LaneSpec,
    (∀ s, exec (.quotaGrow a lit) s = runLane sp s) ∧
    ∀ {e l s n}, (Instr.quotaGrow a lit).wf = true → srcUOk a 1 = true → e.inTry = false → e.srcU (.word lit) a = .ok n →
      (n = 0 → (sp e).run e l s = .ok s) ∧
      (n ≠ 0 → e.wp.quota + n + s.othersBase (quarterOf e.blk e.w) e.wp.lane e.b e.w ≤ 64 →
        (sp e).run e l s = if AMap.getD (s.quarter (quarterOf e.blk e.w)).quotaQ e.wp.lane [] = [] ∧
            n ≤ s.laneFree (quarterOf e.blk e.w) e.wp.lane
          then .ok (s.updWarp e.b e.w fun x => { x with quota := x.quota + n })
          else .park (s.updQuarter (quarterOf e.blk e.w) (quotaQueued e n)) (.quota n)) := by
  refine ⟨_, fun _ => rfl, ?_⟩
  intro e l s n hwf ha htry hread
  rw [run_of rfl (by simp [hwf, ha]) rfl rfl (.inr htry) (.inl rfl) rfl (.inl rfl) (.inl rfl)]
  simp only [hread]
  refine ⟨fun hz => if_pos hz, fun hne hroom => ?_⟩
  have hfits : (decide (e.wp.quota + n > 64) ||
      decide (e.wp.quota + n + s.othersBase (quarterOf e.blk e.w) e.wp.lane e.b e.w > 64)) = false := by
    simp only [Bool.or_eq_false_iff, decide_eq_false_iff_not]
    omega
  simp only [hne, hfits, Bool.false_eq_true, if_false, Bool.and_eq_true, List.isEmpty_iff, decide_eq_true_eq]
  rfl

/-- The registers of a lane that are free cover a request exactly where the quotas and it fit (R185). -/
theorem le_laneFree {q lane n : Nat} (hn : 0 < n) : n ≤ s.laneFree q lane ↔
    n + (s.laneWarps q lane).foldl (fun a x => a + x.2.2.quota) 0 ≤ 64 := by
  rw [State.laneFree]
  omega

theorem quotaGrow_waits {a : BitVec 8} {lit : BitVec 32} {n : Nat} (hi : Fetches s e l s1)
    (hwf : (Instr.quotaGrow a lit).wf = true) (ha : srcUOk a 1 = true) (htry : e.inTry = false)
    (hread : e.srcU (.word lit) a = .ok n) (hne : n ≠ 0)
    (hroom : e.wp.quota + n + s1.othersBase (quarterOf e.blk e.w) e.wp.lane e.b e.w ≤ 64)
    (hwait : AMap.getD (s1.quarter (quarterOf e.blk e.w)).quotaQ e.wp.lane [] ≠ [] ∨
      64 < n + (s1.laneWarps (quarterOf e.blk e.w) e.wp.lane).foldl (fun a x => a + x.2.2.quota) 0) :
    exec (.quotaGrow a lit) s = .next ((((s1.updQuarter (quarterOf e.blk e.w) (quotaQueued e n)).updSplit e.b e.w e.sp fun q =>
      { q with park := .quota n }).turnPassed e.b e.w e.sp).settleWarp e.b e.w) := by
  obtain ⟨sp, hx, hacts⟩ := quotaGrow_acts a lit
  rw [hx, runLane_park hi.1 hi.2 (((hacts hwf ha htry hread).2 hne hroom).trans (if_neg ?_))]
  rintro ⟨hempty, hfree⟩
  rw [le_laneFree (Nat.pos_of_ne_zero hne)] at hfree
  exact hwait.elim (fun h => h hempty) (by omega)

theorem quotaShrink_lowers {a : BitVec 8} {lit : BitVec 32} {n : Nat} (hi : Issues s e l s1 pc)
    (hwf : (Instr.quotaShrink a lit).wf = true) (ha : srcUOk a 1 = true) (htry : e.inTry = false)
    (hread : e.srcU (.word lit) a = .ok n) :
    exec (.quotaShrink a lit) s = .next (((if n = 0 then s1 else s1.updWarp e.b e.w fun x =>
      { x with quota := max (x.quota - n) (max x.baseQuota (x.rmap.length + 2)) }).retireTo e pc).settleWarp e.b e.w) := by
  refine runLane_ok hi.who hi.line hi.next ?_
  rw [run_of rfl (by simp [hwf, ha]) rfl rfl (.inr htry) (.inl rfl) rfl (.inl rfl) (.inl rfl)]
  simp only [hread]
  split <;> rfl

end

end Sys2Proof.Machine

namespace Sys2Proof.Claim
open Machine

/-- Settles O16: the target is checked, the link of call written, and the split moves. -/
theorem branchesMove : Obligations.BranchesMove :=
  ⟨fun _ _ _ _ _ hi ht => br_moves hi ht, fun _ _ _ _ _ _ _ hi ht hv hne => bru_moves hi ht hv hne,
    fun _ _ _ _ _ _ hi ht hd hroom hid => call_moves hi ht hd hroom hid⟩

/-- Settles O19: exit outside a region, yield with either request. -/
theorem splitsEnd : Obligations.SplitsEnd := ⟨exit_jumps, yield_saves, yield_cancels⟩

/-- Settles O21: writes of the mood, a name unmapped, and the quota granted, queued for or given back. -/
theorem moodAndQuotaChange : Obligations.MoodAndQuotaChange := by
  refine ⟨fun a lit s e l s1 pc v hi hwf ha hread hv hty => mood_writes hi hwf ha hread hv hty, moodG_writes, vrel_unmaps,
    fun x n m => reg?_unmapped x n m,
    fun a lit s e l s1 n hi hwf ha htry hread hne hroom hwait => quotaGrow_waits hi hwf ha htry hread hne hroom hwait,
    ?granted, ?nothing, fun a lit s e l s1 pc n hi hwf ha htry hread => quotaShrink_lowers hi hwf ha htry hread⟩
  case granted =>
    intro a lit n
    obtain ⟨sp, hx, hacts⟩ := quotaGrow_acts a lit
    exact does_of sp hx fun _ _ _ hwf ⟨ha, htry, hread, hpos, hroom, hempty, hfree⟩ =>
      ((hacts hwf ha htry hread).2 (by omega) hroom).trans (if_pos ⟨hempty, (le_laneFree hpos).mpr hfree⟩)
  case nothing =>
    intro a lit
    obtain ⟨sp, hx, hacts⟩ := quotaGrow_acts a lit
    exact does_of sp hx fun _ _ _ hwf ⟨ha, htry, hread⟩ => (hacts hwf ha htry hread).1 rfl

end Sys2Proof.Claim
end

section
/-! PROOFS. A step and what its agent decodes (R333, R351, R352). -/

namespace Sys2Proof.Machine
open Claim

section
variable {s s1 : State} {e : Env} {l : FetchLine} {we : WEnv}

/-! ## A split's turn -/

theorem step_lane (h : s.issuer? = some e) : step s = goOn (takeTurn s.laneNext) := by
  obtain ⟨hfocus, -⟩ := issuer_spec h
  simp only [step, hfocus]

theorem laneNext_passes (h : s.issuer? = some e) (hpark : e.split.park.passes = true) :
    s.laneNext = .done (s.turnPassed e.b e.w e.sp) := by
  simp only [State.laneNext, h, hpark, if_true]

theorem laneNext_badLine {f : Flt} (h : s.issuer? = some e) (hpark : e.split.park.passes = false)
    (hline : s.issueLine e = (.error f, s1)) : s.laneNext = .done (s1.laneFault e.b e.w e.pc f) := by
  simp only [State.laneNext, h, hpark, hline, Bool.false_eq_true, if_false]

theorem laneNext_instr {i : Instr} (h : Fetches s e l s1) (hpark : e.split.park.passes = false)
    (hdec : decodeLane (l.word (wordIndex e.pc)) (l.word (wordIndex e.pc + 1)) = .ok i) : s.laneNext = .run i s := by
  simp only [State.laneNext, h.1, hpark, h.2, hdec, Bool.false_eq_true, if_false]

theorem laneNext_badWord {x : DecodeError} (h : Fetches s e l s1) (hpark : e.split.park.passes = false)
    (hdec : decodeLane (l.word (wordIndex e.pc)) (l.word (wordIndex e.pc + 1)) = .error x) :
    s.laneNext = .done (s1.laneFault e.b e.w e.pc { code := decodeFault x }) := by
  simp only [State.laneNext, h.1, hpark, h.2, hdec, Bool.false_eq_true, if_false]

theorem decodeFault_eq (x : DecodeError) : decodeFault x = if x = .badOpcode then 0x01#8 else 0x02#8 := by
  cases x <;> rfl

/-! ## A sequencer's turn -/

theorem step_weft {b : Nat} {k : Block} {x : Weft} (h : s.weftIssuer? = some (b, k, x)) :
    step s = goOn (takeTurn s.weftNext) := by
  unfold State.weftIssuer? at h
  split at h
  case h_1 hfocus => simp only [step, hfocus]
  case h_2 => cases h

theorem weftNext_badLine {b : Nat} {k : Block} {x : Weft} {f : Flt} (h : s.weftIssuer? = some (b, k, x))
    (hline : s.weftLine k x = (.error f, s1)) : s.weftNext = .done (s1.weftFault b x.pc f) := by
  simp only [State.weftNext, h, hline]

theorem weftNext_instr {i : Instr} (h : WIssues s we l s1) (hdec : decodeWeft (l.word (wordIndex we.wf.pc)) = .ok i)
    (hwf : i.wf = true) : s.weftNext = .run i s := by
  simp only [State.weftNext, h.1, h.2, hdec, hwf, if_true]

theorem weftNext_badWord (h : WIssues s we l s1)
    (hdec : ∀ i, decodeWeft (l.word (wordIndex we.wf.pc)) = .ok i → i.wf = false) :
    s.weftNext = .done (s1.weftFault we.b we.wf.pc { code := fcWeft, detail := 1#8 }) := by
  simp only [State.weftNext, h.1, h.2]
  cases hword : decodeWeft (l.word (wordIndex we.wf.pc)) with
  | ok i => simp only [hdec i hword, Bool.false_eq_true, if_false]
  | error x => rfl

/-! ## A heddle's turn -/

theorem step_heddle (h : s.focus = .heddle) : step s = goOn (takeTurn s.heddleNext) := by
  simp only [step, h]

theorem instr?_decoded {r : HRun} {w : W32} {i : Instr} (hw : r.code[r.pc]? = some w) (hdec : decodeTrans w = .ok i) :
    r.instr? = some i := by
  simp only [HRun.instr?, hw, hdec]

theorem instr?_none {r : HRun} (h : ∀ w i, r.code[r.pc]? = some w → decodeTrans w ≠ .ok i) : r.instr? = none := by
  unfold HRun.instr?
  cases hw : r.code[r.pc]? with
  | none => rfl
  | some w =>
    cases hdec : decodeTrans w with
    | ok i => exact absurd hdec (h w i hw)
    | error x => simp only [hdec]

end

end Sys2Proof.Machine

namespace Sys2Proof.Claim
open Machine

/-- Settles O56: every step goes on after what the agent of the focus has come to. -/
theorem stepRunsDecoded : Obligations.StepRunsDecoded := by
  refine ⟨?laneRuns, ?laneBad, ?laneLine, ?lanePasses, ?weftRuns, ?weftBad, ?weftLine, ?heddleRuns, ?heddleBad, ?input,
    ?internal, ?swap, ordered_recent, ?upset⟩
  case laneRuns =>
    intro s e l s1 i hi hpark hdec
    rw [step_lane hi.1, laneNext_instr hi hpark hdec]
    exact follows_goOn _
  case laneBad =>
    intro s e l s1 x hi hpark hdec
    rw [step_lane hi.1, laneNext_badWord hi hpark hdec, ← decodeFault_eq]
    exact follows_goOn _
  case laneLine =>
    intro s e f s1 hi hpark hline
    rw [step_lane hi, laneNext_badLine hi hpark hline]
    exact follows_goOn _
  case lanePasses =>
    intro s e hi hpark
    rw [step_lane hi, laneNext_passes hi hpark]
    exact follows_goOn _
  case weftRuns =>
    intro s e l s1 i hi hdec hwf
    rw [step_weft hi.1, weftNext_instr hi hdec hwf]
    exact follows_goOn _
  case weftBad =>
    intro s e l s1 hi hdec
    rw [step_weft hi.1, weftNext_badWord hi hdec]
    exact follows_goOn _
  case weftLine =>
    intro s b k x f s1 hi hline
    rw [step_weft hi, weftNext_badLine hi hline]
    exact follows_goOn _
  case heddleRuns =>
    intro s r w i hfocus hrun hw hdec
    rw [step_heddle hfocus, State.heddleNext, hrun]
    simp only [instr?_decoded hw hdec]
    exact follows_goOn _
  case heddleBad =>
    intro s r hfocus hrun hbad
    rw [step_heddle hfocus, State.heddleNext, hrun]
    simp only [instr?_none hbad]
    exact follows_goOn _
  case input =>
    intro s i a rest hfocus hin
    simp only [step, hfocus, hin]
    exact follows_goOn _
  case internal =>
    intro s i a hfocus
    simp only [step, hfocus]
    exact follows_goOn _
  case swap =>
    intro s k r hfocus hrun
    simp only [step, hfocus, State.swapHeddle, hrun]
    exact follows_goOn _
  case upset =>
    intro s u hfocus
    simp only [step, hfocus]
    exact follows_goOn _

end Sys2Proof.Claim
end

section
/-! PROOFS. Stores: to memory, to the buffer of a region, and their bytes (R233, R254, R260, R339, R347, R407, R411). -/

namespace Sys2Proof.Machine
open Claim

/-! ## The count of a flag (R408) -/

theorem flagOk_cases {f : BitVec 4} (h : flagOk f = true) : f.toNat ≤ 11 ∨ f.toNat = 15 := of_decide_eq_true h

/-- A named flag counts, flag 15 is none. -/
theorem counted_eq {e : Env} {f : Nat} (hf : f ≤ 11 ∨ f = 15) (s : State) (g : Warp → Warp) :
    counted e f (s.updWarp e.b e.w g) = s.updWarp e.b e.w fun x =>
      if f ≤ 11 then { (g x).raiseFlag f with accs := AMap.set (g x).accs (g x).freshId { flag := f, split := e.sp } }
      else g x := by
  unfold counted
  rcases hf with hflag | rfl
  · simp only [if_neg (show ¬ f = 15 by omega), updWarp_updWarp, if_pos hflag]
  · rfl

/-! ## The store instructions (R411) -/

/-- `i` runs as a store of these fields, its ordering one that a store allows (R230). -/
structure RunsStore (i : Instr) (w : BitVec 3) (d a : BitVec 8) (f o : BitVec 4) (x : BitVec 32) : Prop where
  runs : ∀ s, exec i s = runLane (storeSpec i.wf w d a f o x) s
  flag : i.wf = true → f.toNat ≤ 11 ∨ f.toNat = 15
  order : xOrd x = 0 ∨ xOrd x = 2

section
variable {w : BitVec 3} {d a : BitVec 8} {f o : BitVec 4} {x : BitVec 32}

theorem st_runsStore : RunsStore (.st w d a f o) w d a f o 0#32 where
  runs _ := rfl
  flag hwf := flagOk_cases (Bool.and_eq_true_iff.mp hwf).2
  order := .inl rfl

theorem stXform_runsStore (hord : xOrd x = 0 ∨ xOrd x = 2) : RunsStore (.stXform w d a f o x) w d a f o x where
  runs _ := rfl
  flag hwf := flagOk_cases (Bool.and_eq_true_iff.mp (Bool.and_eq_true_iff.mp hwf).1).2
  order := hord

theorem widthOp_rel (hord : xOrd x = 0 ∨ xOrd x = 2) : (widthOp w f o x).rel = decide (2 ≤ xOrd x) := by
  rcases hord with h | h <;> simp [widthOp, memOp, h]

end

/-- A store passes its checks, and each thread of it reaches memory at `A t` with the bytes `B t` (R348, R407). -/
structure StoreFinds (w : BitVec 3) (d a : BitVec 8) (f o : BitVec 4) (x : BitVec 32) (A : Nat → Nat) (B : Nat → List Byte)
    (e : Env) (s : State) : Prop where
  data : storeDataOk w d = true
  addr : addrOk a = true
  busy : e.idle = false
  flag : e.wp.flagFull f.toNat = false
  addrs : ∀ t, t ∈ e.onceIf (isS a && !isV d) → e.addrOf a ((o.toNat * widthBytes w : Nat) + xBoff x) t = .ok (A t)
  bytes : ∀ t, t ∈ e.onceIf (isS a && !isV d) → e.storeBytes d (widthBytes w) t = .ok (B t)
  reach : Reaches e s .store (widthBytes w) (widthBytes w) (e.onceIf (isS a && !isV d)) A

/-- The accesses of a store. -/
def storeAccs (e : Env) (s : State) (w : BitVec 3) (d a : BitVec 8) (A : Nat → Nat) : List ThAcc :=
  accs e s .store (widthBytes w) (widthBytes w) (e.onceIf (isS a && !isV d)) A

/-- What a store writes. -/
def storeWrites (e : Env) (s : State) (w : BitVec 3) (d a : BitVec 8) (A : Nat → Nat) (B : Nat → List Byte) :
    List (ThAcc × List Byte) :=
  (storeAccs e s w d a A).map fun x => (x, B x.t)

theorem warp?_noteStores (s old : State) (e : Env) (f : Option (BitVec 8 × W64)) (ws : List (ThAcc × List Byte)) (b w : Nat) :
    (s.noteStores old e f ws).warp? b w = s.warp? b w := by
  rw [← noteStores_recent]
  rfl

section
variable {i : Instr} {w : BitVec 3} {d a : BitVec 8} {f o : BitVec 4} {x : BitVec 32} {A : Nat → Nat}
  {B : Nat → List Byte} {e : Env} {s s0 s2 : State} {l : FetchLine} {pc : W64}

/-- With no active thread a store does nothing (R347). -/
theorem store_idle (hi : RunsStore i w d a f o x) : Does i (fun e _ _ => e.idle = true ∧ storeDataOk w d = true ∧
    addrOk a = true ∧ (xOrd x ≠ 2 ∨ e.inTry = false)) fun _ _ s => s := by
  refine does_of _ hi.runs fun e l s hwf ⟨hid, hd, ha, hlegal⟩ => ?_
  have hop : (storeSpec i.wf w d a f o x e).opOk = true := by
    rcases hi.order with h | h <;> simp [storeSpec, hwf, hd, ha, h]
  rw [LaneSpec.run_pass rfl hop rfl rfl (fun htry => ?_) (fun h => by cases h) rfl (.inr (.inl hid)), hid]
  · rfl
  · exact if_neg (hlegal.resolve_right (by simp [htry]))

variable (h : StoreFinds w d a f o x A B e s)
include h

theorem StoreFinds.accs_local : ∀ y, y ∈ storeAccs e s w d a A → reaches y = true ∧ isRemote y = false := accs_spec h.reach

theorem StoreFinds.accs_reach : ∀ y, y ∈ storeAccs e s w d a A → reaches y = true := fun y hy => (h.accs_local y hy).1

/-- Every thread's address and bytes are known, and the store goes on to memory or to the buffer. -/
theorem StoreFinds.act : e.store (widthOp w f o x) d a s l =
    if e.inTry then e.bufferStore s (widthOp w f o x) (storeAccs e s w d a A) (storeWrites e s w d a A B)
    else if s.anyHeld e.b (widthBytes w) (storeAccs e s w d a A) then .park s .ready
    else if e.relWaits s (widthOp w f o x) then .park s .fence
    else e.landAcc ((s.writeAll e (storeWrites e s w d a A B)).2.noteStores s e (s.writeAll e (storeWrites e s w d a A B)).1
      (storeWrites e s w d a A B)) (widthOp w f o x) .store (storeWrites e s w d a A B)
      (s.writeAll e (storeWrites e s w d a A B)).1 := by
  have haddrs : eachThread (e.addrOf a (widthOp w f o x).disp) (e.onceIf (isS a && !isV d)) =
      .ok ((e.onceIf (isS a && !isV d)).map fun t => (t, A t)) := eachThread_eq h.addrs
  have hbytes : eachThread (e.storeBytes d (widthOp w f o x).size) (e.onceIf (isS a && !isV d)) =
      .ok ((e.onceIf (isS a && !isV d)).map fun t => (t, B t)) := eachThread_eq h.bytes
  have hxs : e.reachAll s .store (widthOp w f o x) ((e.onceIf (isS a && !isV d)).map fun t => (t, A t)) =
      storeAccs e s w d a A := reachAll_eq ..
  have hws : ((storeAccs e s w d a A).zip (((e.onceIf (isS a && !isV d)).map fun t => (t, B t)).map Prod.snd)).filter
      (fun p => reaches p.1) = storeWrites e s w d a A B := by
    rw [storeAccs, zip_ws]
    refine List.filter_eq_self.mpr fun p hp => ?_
    obtain ⟨y, hy, rfl⟩ := List.mem_map.mp hp
    exact h.accs_reach y hy
  have hflag : e.wp.flagFull (widthOp w f o x).flag = false := h.flag
  simp only [Env.store, haddrs, hbytes, hflag, hxs, raisedFault_none h.accs_reach, hws, anyStall_false h.accs_reach,
    switchOut_none h.accs_reach, Bool.false_eq_true, if_false]
  rfl

theorem StoreFinds.run (hi : RunsStore i w d a f o x) (hwf : i.wf = true) (hlegal : e.inTry = true → xOrd x ≠ 2) :
    (storeSpec i.wf w d a f o x e).run e l s = e.store (widthOp w f o x) d a s l :=
  storeSpec_run hwf h.data h.addr hi.order h.busy hlegal

theorem StoreFinds.waits (hi : RunsStore i w d a f o x) (hiss : Issues s0 e l s pc) (hwf : i.wf = true)
    (htry : e.inTry = false) (hheld : s.anyHeld e.b (widthBytes w) (storeAccs e s w d a A) = false) (hack : ¬ Acked e s x) :
    exec i s0 = .next (((s.updSplit e.b e.w e.sp fun q =>
      { q with park := .fence }).turnPassed e.b e.w e.sp).settleWarp e.b e.w) := by
  have hrel : e.relWaits s (widthOp w f o x) = true := (relWaits_iff (widthOp_rel hi.order) rfl).mpr hack
  rw [hi.runs]
  refine runLane_park hiss.who hiss.line ((h.run hi hwf (by simp [htry])).trans ?_)
  rw [h.act, htry, hheld, hrel]
  rfl

theorem StoreFinds.writes (hi : RunsStore i w d a f o x) (hiss : Issues s0 e l s pc) (hwf : i.wf = true)
    (htry : e.inTry = false) (hheld : s.anyHeld e.b (widthBytes w) (storeAccs e s w d a A) = false) (hack : Acked e s x)
    (hwrite : s.writeAll e (storeWrites e s w d a A B) = (none, s2)) : StoreKeeps e.b e.w s s2 ∧
      exec i s0 = .next (((counted e f.toNat (s2.noteStores s e none (storeWrites e s w d a A B))).retireTo e pc).settleWarp
        e.b e.w) := by
  obtain ⟨hb, hw, -⟩ := issues_block hiss
  have hkeeps : StoreKeeps e.b e.w s s2 := by
    have hall := writeAll_keeps s e (storeWrites e s w d a A B)
    rwa [hwrite] at hall
  obtain ⟨y, hy⟩ := warp?_stored hkeeps hb hw
  have hrel : e.relWaits s (widthOp w f o x) = false := by
    rw [← Bool.not_eq_true, relWaits_iff (widthOp_rel hi.order) rfl]
    exact not_not.mpr hack
  have hlocal : ((storeWrites e s w d a A B).filter fun p => isRemote p.1) = [] := by
    rw [List.filter_eq_nil_iff]
    intro p hp
    obtain ⟨z, hz, rfl⟩ := List.mem_map.mp hp
    simp [(h.accs_local z hz).2]
  refine ⟨hkeeps, ?_⟩
  rw [hi.runs]
  refine runLane_ok hiss.who hiss.line hiss.next ((h.run hi hwf (by simp [htry])).trans ?_)
  rw [h.act, htry, hheld, hrel, hwrite]
  exact landAcc_counted hlocal ((warp?_noteStores ..).trans hy)

/-- In a region the bytes go to the buffer, while there is room and the lines do not collide. -/
theorem StoreFinds.buffers {r : Region} (hi : RunsStore i w d a f o x) (hiss : Issues s0 e l s pc) (hwf : i.wf = true)
    (htry : e.inTry = true) (hord : xOrd x ≠ 2) (hr : e.wp.region = some r)
    (hroom : r.buf.length + (widthBytes w + 7) / 8 ≤ 16) (hcollide : aliasHits r (storeWrites e s w d a A B) = []) :
    exec i s0 = .next (((counted e f.toNat (s.updWarp e.b e.w fun y => { y with region := y.region.map fun r =>
      { r with buf := r.buf ++ bufEntries (storeWrites e s w d a A B) (widthBytes w) } })).retireTo e pc).settleWarp
        e.b e.w) := by
  rw [hi.runs]
  refine runLane_ok hiss.who hiss.line hiss.next ((h.run hi hwf fun _ => hord).trans ?_)
  have hfits : ¬ r.buf.length + (bufEntries (storeWrites e s w d a A B) (widthBytes w)).length > 16 := by
    rw [bufEntries_length]
    omega
  have hfits' : ¬ r.buf.length + (bufEntries (storeWrites e s w d a A B) (widthOp w f o x).size).length > 16 := hfits
  rw [h.act, if_pos htry, counted_eq (hi.flag hwf)]
  simp only [Env.bufferStore, hr, hfits', if_false, switchOut_none h.accs_reach, doomFaults_none h.accs_reach, hcollide,
    List.foldl_nil]
  rfl

end

/-! ## The bytes of a store (R411) -/

/-- A register's byte of the data that a thread stores. -/
theorem storeBytes_regs {e : Env} {d : BitVec 8} {n t : Nat} {ws : Nat → W32} (hd : isV d = true ∨ isS d = true)
    (hread : ∀ k, k < sizeRegs n → e.rread d k t = .ok (ws k)) (hn : n ≤ 4 * sizeRegs n) :
    ∃ bs, e.storeBytes d n t = .ok bs ∧ bs.length = n ∧
      ∀ j, j < n → bs.getD j 0#8 = (ws (j / 4)).extractLsb' (8 * (j % 4)) 8 := by
  have hmap := mapM_ok (List.range (sizeRegs n)) fun k hk => hread k (List.mem_range.mp hk)
  obtain ⟨hlen, hbyte⟩ := leBytes_spec n (packElems 32 (((List.range (sizeRegs n)).map ws).map BitVec.toNat))
  refine ⟨_, ?_, hlen, fun j hj => ?_⟩
  · unfold Env.storeBytes
    split
    case h_1 i himm => exact absurd himm (opnd_reg hd i)
    case h_2 => rw [hmap]; rfl
  · have hword : (((List.range (sizeRegs n)).map ws).map BitVec.toNat).getD (j / 4) 0 = (ws (j / 4)).toNat := by
      rw [List.map_map]
      exact getD_map_range _ _ _ (by omega)
    rw [hbyte j hj]
    refine BitVec.eq_of_toNat_eq ?_
    rw [BitVec.toNat_ofNat, BitVec.extractLsb'_toNat, Nat.shiftRight_eq_div_pow, Nat.pow_mul]
    refine (byteOf _ (fun y hy => ?_) j (by simp; omega)).trans (by rw [hword])
    obtain ⟨z, -, rfl⟩ := List.mem_map.mp hy
    exact z.isLt

theorem wrapN_dvd (w : Nat) (i : Int) : (2 ^ w : Int) ∣ i - wrapN w i := by
  have hpos : (0 : Int) ≤ i % (2 ^ w : Nat) := Int.emod_nonneg i (by positivity)
  rw [wrapN, Int.toNat_of_nonneg hpos]
  exact_mod_cast Int.dvd_self_sub_emod

theorem storeBytes_imm {e : Env} {d : BitVec 8} {n t : Nat} {i : Int} (himm : opnd d = .imm i) :
    ∃ bs, e.storeBytes d n t = .ok bs ∧ bs.length = n ∧ (2 ^ (8 * n) : Int) ∣ i - leNat bs := by
  refine ⟨leBytes n (wrapN (8 * n) i), by simp only [Env.storeBytes, himm], (leBytes_spec ..).1, ?_⟩
  have hlt : wrapN (8 * n) i < 256 ^ n := by
    rw [← pow_two_bytes, Nat.mul_comm n]
    exact wrapN_lt _ _
  rw [leNat_leBytes, Nat.mod_eq_of_lt hlt]
  exact wrapN_dvd _ _

end Sys2Proof.Machine

namespace Sys2Proof.Claim
open Machine

/-- Settles O24: a store that finds its bytes waits, writes or fills the buffer; its bytes; a store with no active thread. -/
theorem storesWrite : Obligations.StoresWrite := by
  refine ⟨?stores, fun s old e f ws => noteStores_recent s old e f ws, ?regs, ?idle, fun e d n t i => storeBytes_imm⟩
  case stores =>
    intro i w d a f o x hform s e l s1 pc A B hiss hwf n ts hd ha hid hflag haddrs hbytes hreach xs ws
    have hi : RunsStore i w d a f o x := by
      rcases hform with ⟨rfl, rfl⟩ | ⟨rfl, hord⟩
      · exact st_runsStore
      · exact stXform_runsStore hord
    have hfinds : StoreFinds w d a f o x A B e s1 := ⟨hd, ha, hid, hflag, haddrs, hbytes, hreach⟩
    exact ⟨fun htry hheld hack => hfinds.waits hi hiss hwf htry hheld hack,
      fun s2 htry hheld hack hwrite => hfinds.writes hi hiss hwf htry hheld hack hwrite,
      fun r htry hord hr hroom hcollide => hfinds.buffers hi hiss hwf htry hord hr hroom hcollide⟩
  case regs =>
    rintro e d n t ws hd hread hn
    refine storeBytes_regs hd hread ?_
    rcases hn with rfl | rfl | rfl | rfl | rfl <;> decide
  case idle =>
    rintro i w d a f o x (rfl | ⟨rfl, hord⟩)
    · rintro s e l s1 pc hiss hwf ⟨hid, hd, ha, -⟩
      exact store_idle st_runsStore s e l s1 pc hiss hwf ⟨hid, hd, ha, .inl (by decide)⟩
    · exact store_idle (stXform_runsStore hord)

end Sys2Proof.Claim
end

section
/-! PROOFS. The tile forms: two words of each thread between the scratchpad and a register pair (R192, R347, R412). -/

namespace Sys2Proof.Machine
open Claim

/-- `i` runs as a tile form of these fields, plainly ordered and with no cache field. -/
structure RunsTile (i : Instr) (store col : Bool) (d a : BitVec 8) (f o : BitVec 4) (x : BitVec 32) : Prop where
  runs : ∃ op, ∀ s, exec i s = runLane (tileSpec i.wf store col op d a f o x) s
  order : xOrd x = 0
  cache : xCache x = 0

section
variable {d a : BitVec 8} {f o : BitVec 4} {x : BitVec 32}

theorem ldxRow_runsTile : RunsTile (.ldxRow d a f o) false false d a f o 0#32 := ⟨⟨_, fun _ => rfl⟩, rfl, rfl⟩

theorem ldxRowXform_runsTile (hord : xOrd x = 0) (hcache : xCache x = 0) :
    RunsTile (.ldxRowXform d a f o x) false false d a f o x := ⟨⟨_, fun _ => rfl⟩, hord, hcache⟩

theorem ldxCol_runsTile : RunsTile (.ldxCol d a f o) false true d a f o 0#32 := ⟨⟨_, fun _ => rfl⟩, rfl, rfl⟩

theorem ldxColXform_runsTile (hord : xOrd x = 0) (hcache : xCache x = 0) :
    RunsTile (.ldxColXform d a f o x) false true d a f o x := ⟨⟨_, fun _ => rfl⟩, hord, hcache⟩

theorem stxRow_runsTile : RunsTile (.stxRow d a f o) true false d a f o 0#32 := ⟨⟨_, fun _ => rfl⟩, rfl, rfl⟩

theorem stxRowXform_runsTile (hord : xOrd x = 0) (hcache : xCache x = 0) :
    RunsTile (.stxRowXform d a f o x) true false d a f o x := ⟨⟨_, fun _ => rfl⟩, hord, hcache⟩

theorem stxCol_runsTile : RunsTile (.stxCol d a f o) true true d a f o 0#32 := ⟨⟨_, fun _ => rfl⟩, rfl, rfl⟩

theorem stxColXform_runsTile (hord : xOrd x = 0) (hcache : xCache x = 0) :
    RunsTile (.stxColXform d a f o x) true true d a f o x := ⟨⟨_, fun _ => rfl⟩, hord, hcache⟩

end

/-- The words of the active threads lie in the scratchpad and are held by nobody. -/
def TileFree (col : Bool) (off : Nat) (e : Env) (s : State) : Prop :=
  ∀ t h, t ∈ e.act → h < 2 →
    s.scratchOutside e.blk (tileOff col off t h) 4 = false ∧ s.scratchHeld e.b (tileOff col off t h) 4 = false

/-- The accesses of the active threads of a tile form. -/
def tileXs (col : Bool) (off : Nat) (e : Env) : List ThAcc :=
  e.act.map fun t => { t := t, a := scratchBase + tileOff col off t 0, r := .scratch (tileOff col off t 0) }

theorem mem_tileXs {col : Bool} {off : Nat} {e : Env} {x : ThAcc} (h : x ∈ tileXs col off e) :
    ∃ t, t ∈ e.act ∧ x = { t := t, a := scratchBase + tileOff col off t 0, r := .scratch (tileOff col off t 0) } := by
  obtain ⟨t, ht, rfl⟩ := List.mem_map.mp h
  exact ⟨t, ht, rfl⟩

theorem tileXs_reach {col : Bool} {off : Nat} {e : Env} : ∀ x, x ∈ tileXs col off e → reaches x = true := by
  intro x hx
  obtain ⟨t, -, rfl⟩ := mem_tileXs hx
  rfl

theorem tileXs_inside (col : Bool) (off : Nat) (e : Env) :
    ((tileXs col off e).filter fun x => !isOff x).map ThAcc.t = e.act := by
  have hall : (tileXs col off e).filter (fun x => !isOff x) = tileXs col off e := by
    refine List.filter_eq_self.mpr fun x hx => ?_
    obtain ⟨t, -, rfl⟩ := mem_tileXs hx
    rfl
  rw [hall, tileXs, List.map_map]
  exact List.map_id _

/-- The two reads of each thread, in order. -/
def tileReads (col : Bool) (off : Nat) (ts : List Nat) (B : Nat → Nat → List Byte) :
    List (ThAcc × Except (BitVec 8) (List Byte)) :=
  ts.flatMap fun t => (List.range 2).map fun h =>
    ({ t := t, a := scratchBase + tileOff col off t h, r := .scratch (tileOff col off t h) }, .ok (B t h))

/-- The words that each thread has read. -/
def tileData (ts : List Nat) (B : Nat → Nat → List Byte) : List (Nat × List W32) :=
  ts.map fun t => (t, [BitVec.ofNat 32 (leNat (B t 0)), BitVec.ofNat 32 (leNat (B t 1))])

theorem tilePairs_reads (col : Bool) (off : Nat) (ts : List Nat) (B : Nat → Nat → List Byte) :
    tilePairs (tileReads col off ts B) = (tileData ts B).map fun r => (r.1, .ok r.2) := by
  induction ts with
  | nil => rfl
  | cons t ts ih =>
    have hcons : tileReads col off (t :: ts) B = tileReads col off [t] B ++ tileReads col off ts B := rfl
    rw [hcons, tileData, List.map_cons, List.map_cons, ← tileData, ← ih]
    rfl

theorem tileFault_ok (f : BitVec 8 → Bool) (rs : List (Nat × List W32)) :
    tileFault f (rs.map fun r => (r.1, .ok r.2)) = none := by
  rw [tileFault, List.findSome?_eq_none_iff]
  intro r hr
  obtain ⟨q, -, rfl⟩ := List.mem_map.mp hr
  rfl

section
variable {i : Instr} {store col : Bool} {d a : BitVec 8} {f o : BitVec 4} {x : BitVec 32} {off : Nat} {e : Env}
  {s s0 s2 : State} {l : FetchLine} {pc : W64}

theorem tile_opOk {op : Nat} (hi : RunsTile i store col d a f o x) (hwf : i.wf = true) (hd : isV d = true)
    (hal : aligned d 2 = true) (ha : isS a = true) (hala : aligned a 2 = true) :
    (tileSpec i.wf store col op d a f o x e).opOk = true := by
  simp [tileSpec, hwf, hd, hal, ha, hala, hi.order, hi.cache]

/-- With no active thread a tile form does nothing (R347). -/
theorem tile_idle (hi : RunsTile i store col d a f o x) : Does i (fun e _ _ => e.idle = true ∧ isV d = true ∧
    aligned d 2 = true ∧ isS a = true ∧ aligned a 2 = true ∧ (store = true → e.inTry = false)) fun _ _ s => s := by
  obtain ⟨op, hruns⟩ := hi.runs
  refine does_of _ hruns fun e l s hwf ⟨hid, hd, hal, ha, hala, hlegal⟩ => ?_
  rw [LaneSpec.run_pass rfl (tile_opOk hi hwf hd hal ha hala) rfl rfl (fun htry => ?_) (fun h => by cases h) rfl
    (.inr (.inl hid)), hid]
  · rfl
  · cases store with
    | false => rfl
    | true => rw [hlegal rfl] at htry; cases htry

variable (hid : e.idle = false) (hflag : e.wp.flagFull f.toNat = false)
  (hbase : e.tileBase col a ((o.toNat * 128 : Nat) + xBoff x) = .ok off) (hfree : TileFree col off e s)

include hflag hbase hfree in
theorem tileLoad_lands {B : Nat → Nat → List Byte} {unit : Nat}
    (hreads : State.loadAll e none 4 (tileWords col off e.act) s = (tileReads col off e.act B, s2)) :
    e.tileLoad col (memOp 128 unit f o x) d a s l =
      e.landLoad s2 { memOp 128 unit f o x with size := 8 } d [] (tileData e.act B) none := by
  obtain ⟨hxs, hheld⟩ := tileAccs_eq (col := col) (off := off) hfree
  rw [← tileXs] at hxs hheld
  have hf : e.wp.flagFull (memOp 128 unit f o x).flag = false := hflag
  have hb : e.tileBase col a (memOp 128 unit f o x).disp = .ok off := hbase
  simp only [Env.tileLoad, hf, hb, hxs, hheld, tileXs_inside, hreads, tilePairs_reads, tileFault_ok,
    switchOut_none tileXs_reach, Bool.false_eq_true, if_false, List.map_map, List.foldl_map, List.foldl_fixed, ite_self]
  exact congrArg (e.landLoad s2 { memOp 128 unit f o x with size := 8 } d [] · none) (List.map_id (tileData e.act B))

include hid in
theorem tileData_ne (B : Nat → Nat → List Byte) : tileData e.act B ≠ [] := by
  have hact : e.act ≠ [] := fun h => by simp [act_eq_nil.mp h] at hid
  simpa [tileData] using hact

theorem tileData_below (B : Nat → Nat → List Byte) : ∀ r ∈ tileData e.act B, r.1 < 16 := by
  intro r hr
  obtain ⟨t, ht, rfl⟩ := List.mem_map.mp hr
  exact (mem_act.mp ht).1

/-! ## The tile loads (R192) -/

/-- A tile load passes its checks, reads its words, and reading leaves `s2`. -/
structure TileLoads (i : Instr) (col : Bool) (d a : BitVec 8) (f o : BitVec 4) (x : BitVec 32) (off : Nat)
    (B : Nat → Nat → List Byte) (e : Env) (s s2 : State) : Prop where
  form : RunsTile i false col d a f o x
  wf : i.wf = true
  dst : isV d = true
  pair : aligned d 2 = true
  base : isS a = true
  basePair : aligned a 2 = true
  busy : e.idle = false
  flag : e.wp.flagFull f.toNat = false
  place : e.tileBase col a ((o.toNat * 128 : Nat) + xBoff x) = .ok off
  free : TileFree col off e s
  room : Room e (dstNames d 2)
  reads : State.loadAll e none 4 (tileWords col off e.act) s = (tileReads col off e.act B, s2)

variable {B : Nat → Nat → List Byte}

section
variable (h : TileLoads i col d a f o x off B e s s2)
include h

theorem TileLoads.lands : ∃ (sp : Env → LaneSpec) (m : MemOp), (∀ s, exec i s = runLane sp s) ∧ m.size = 8 ∧
    m.flag = f.toNat ∧ (sp e).run e l s = e.landLoad s2 m d [] (tileData e.act B) none := by
  obtain ⟨op, hruns⟩ := h.form.runs
  refine ⟨_, { memOp 128 (if col then 4 else 128) f o x with size := 8 }, hruns, rfl, rfl, ?_⟩
  rw [run_of rfl (tile_opOk h.form h.wf h.dst h.pair h.base h.basePair) rfl rfl (.inl rfl) (.inl rfl) rfl (.inr h.busy)
    (.inr ⟨h.room, h.busy⟩)]
  exact tileLoad_lands (l := l) h.flag h.place h.free h.reads

theorem TileLoads.warp (hb : s.block? e.b = some e.blk) (hw : AMap.get? e.blk.warps e.w = some e.wp) :
    s2.warp? e.b e.w = some e.wp := by
  have hkeeps := loadAll_keeps e none 4 (tileWords col off e.act) s
  rw [h.reads] at hkeeps
  exact warp?_of ((ReadKeeps.block? hkeeps e.b).trans hb) hw

theorem TileLoads.completes (hiss : Issues s0 e l s pc) (hf : f ≠ 15#4 ∨ Alone e) :
    exec i s0 = .next (((landed e 8 f.toNat d false (tileData e.act B) s2).retireTo e pc).settleWarp e.b e.w) := by
  obtain ⟨hb, hw, -⟩ := issues_block hiss
  obtain ⟨sp, m, hx, hsize, hflag, hrun⟩ := h.lands (l := l)
  rw [hx, ← hsize, ← hflag]
  refine runLane_ok hiss.who hiss.line hiss.next (hrun.trans ?_)
  by_cases h15 : f = 15#4
  · exact landLoad_sync rfl (hflag.trans (by rw [h15]; rfl)) (hf.resolve_left (not_not.mpr h15))
  · exact landLoad_async rfl (fun heq => h15 (BitVec.eq_of_toNat_eq (hflag.symm.trans heq))) (h.warp hb hw)
      (tileData_ne h.busy B) (tileData_below B)

theorem TileLoads.waits (hiss : Issues s0 e l s pc) (hf : f = 15#4) (halone : ¬ Alone e) :
    exec i s0 = .next ((((pended e 8 f.toNat d false (tileData e.act B) s2).updSplit e.b e.w e.sp fun q =>
      { q with park := .sync e.wp.freshId }).turnPassed e.b e.w e.sp).settleWarp e.b e.w) := by
  obtain ⟨hb, hw, -⟩ := issues_block hiss
  obtain ⟨sp, m, hx, hsize, hflag, hrun⟩ := h.lands (l := l)
  rw [hx, ← hsize, ← hflag]
  refine runLane_park hiss.who hiss.line (hrun.trans ?_)
  rw [landLoad_pended rfl (.inr halone) (h.warp hb hw) (tileData_ne h.busy B) (tileData_below B), if_pos]
  rw [hflag, hf]
  rfl

end

/-! ## The tile stores -/

/-- The words that the active threads store. -/
def tileWrites (col : Bool) (off : Nat) (ts : List Nat) (W : Nat → Nat → W32) : List (Nat × List Byte) :=
  ts.flatMap fun t => [(tileOff col off t 0, leBytes 4 (W t 0).toNat), (tileOff col off t 1, leBytes 4 (W t 1).toNat)]

/-- The scratchpad with those words written. -/
def tileWritten (ws : List (Nat × List Byte)) (k : Block) : Block :=
  ws.foldl (fun k p => k.scratchWrite p.1 p.2) (k.scratchHeal (ws.flatMap fun p => (List.range 4).map (p.1 + ·)))

theorem tileWritten_keeps (w : Nat) (ws : List (Nat × List Byte)) (k : Block) : k.StoreKeeps w (tileWritten ws k) := by
  have hfold : ∀ (ps : List (Nat × List Byte)) (k : Block),
      k.StoreKeeps w (ps.foldl (fun k p => k.scratchWrite p.1 p.2) k) := by
    intro ps
    induction ps with
    | nil => exact fun k => .refl w k
    | cons p ps ih => exact fun k => (scratchWrite_keeps w k p.1 p.2).trans (ih _)
  exact (Block.StoreKeeps.of_warps (k' := k.scratchHeal _) rfl rfl).trans (hfold ws _)

theorem filter_inside (col : Bool) (off : Nat) (e : Env) (W : Nat → List W32) :
    ((e.act.map fun t => (t, W t)).filter fun r => (tileXs col off e).any fun x => x.t == r.1 && !isOff x) =
      e.act.map fun t => (t, W t) := by
  refine List.filter_eq_self.mpr fun r hr => ?_
  obtain ⟨t, ht, rfl⟩ := List.mem_map.mp hr
  exact List.any_eq_true.mpr ⟨_, List.mem_map_of_mem ht, by simp [isOff]⟩

include hflag hbase hfree in
theorem tileStore_writes {W : Nat → Nat → W32} {unit : Nat} (hwarp : s.block? e.b = some e.blk ∧ AMap.get? e.blk.warps e.w = some e.wp)
    (hread : ∀ t h, t ∈ e.act → h < 2 → e.rread d h t = .ok (W t h)) :
    e.tileStore col (memOp 128 unit f o x) d a s l =
      .ok (counted e f.toNat ((s.updBlock e.b (tileWritten (tileWrites col off e.act W))).noteStores s e none
        (tileStores (tileWrites col off e.act W)))) := by
  obtain ⟨hxs, hheld⟩ := tileAccs_eq (col := col) (off := off) hfree
  rw [← tileXs] at hxs hheld
  have hf : e.wp.flagFull (memOp 128 unit f o x).flag = false := hflag
  have hb : e.tileBase col a (memOp 128 unit f o x).disp = .ok off := hbase
  have hwords : eachThread (fun t => (List.range 2).mapM fun k => e.rread d k t) e.act =
      .ok (e.act.map fun t => (t, (List.range 2).map (W t))) :=
    eachThread_eq fun t ht => mapM_ok _ fun k hk => hread t k ht (List.mem_range.mp hk)
  obtain ⟨y, hy⟩ := warp?_stored (updBlock_storeKeeps s (tileWritten_keeps e.w (tileWrites col off e.act W))) hwarp.1 hwarp.2
  have hws : (e.act.map fun t => (t, (List.range 2).map (W t))).flatMap (fun r => (List.range 2).map fun h =>
      (tileOff col off r.1 h, leBytes 4 (r.2.getD h 0#32).toNat)) = tileWrites col off e.act W := by
    rw [List.flatMap_map]
    rfl
  simp only [Env.tileStore, hf, hb, hxs, hheld, hwords, filter_inside, hws, switchOut_none tileXs_reach, Bool.false_eq_true,
    if_false]
  exact landAcc_counted rfl ((warp?_noteStores ..).trans hy)

/-- A tile store passes its checks and each thread has its two words. -/
theorem tile_stores {W : Nat → Nat → W32} (hi : RunsTile i true col d a f o x) (hiss : Issues s0 e l s pc)
    (hwf : i.wf = true) (hd : isV d = true) (hal : aligned d 2 = true) (ha : isS a = true) (hala : aligned a 2 = true)
    (hid : e.idle = false) (hflag : e.wp.flagFull f.toNat = false)
    (hbase : e.tileBase col a ((o.toNat * 128 : Nat) + xBoff x) = .ok off) (hfree : TileFree col off e s)
    (htry : e.inTry = false) (hread : ∀ t h, t ∈ e.act → h < 2 → e.rread d h t = .ok (W t h)) :
    exec i s0 = .next (((counted e f.toNat ((s.updBlock e.b (tileWritten (tileWrites col off e.act W))).noteStores s e none
      (tileStores (tileWrites col off e.act W)))).retireTo e pc).settleWarp e.b e.w) := by
  obtain ⟨hb, hw, -⟩ := issues_block hiss
  obtain ⟨op, hruns⟩ := hi.runs
  rw [hruns]
  refine runLane_ok hiss.who hiss.line hiss.next ?_
  rw [run_of rfl (tile_opOk hi hwf hd hal ha hala) rfl rfl (.inr htry) (.inl rfl) rfl (.inr hid) (.inl rfl)]
  exact tileStore_writes (l := l) hflag hbase hfree ⟨hb, hw⟩ hread

end

end Sys2Proof.Machine

namespace Sys2Proof.Claim
open Machine

/-- Settles O26: the loads by what lands, the stores by what they write, and both with no active thread. -/
theorem tilesMove : Obligations.TilesMove := by
  refine ⟨?forms, ?idle⟩
  case forms =>
    intro i store col d a f o x hform s e l s1 pc off hiss hwf hd hal ha hala hid hflag hbase at_ hfree
    have hi : RunsTile i store col d a f o x := by
      rcases hform with ⟨⟨rfl, rfl, rfl⟩ | ⟨rfl, rfl, rfl⟩ | ⟨rfl, rfl, rfl⟩ | ⟨rfl, rfl, rfl⟩, rfl⟩ |
        ⟨⟨rfl, rfl, rfl⟩ | ⟨rfl, rfl, rfl⟩ | ⟨rfl, rfl, rfl⟩ | ⟨rfl, rfl, rfl⟩, hord, hcache⟩
      · exact ldxRow_runsTile
      · exact ldxCol_runsTile
      · exact stxRow_runsTile
      · exact stxCol_runsTile
      · exact ldxRowXform_runsTile hord hcache
      · exact ldxColXform_runsTile hord hcache
      · exact stxRowXform_runsTile hord hcache
      · exact stxColXform_runsTile hord hcache
    refine ⟨?load, ?store⟩
    case load =>
      rintro B s2 rfl hroom hreads rs
      have hloads : TileLoads i col d a f o x off B e s1 s2 :=
        ⟨hi, hwf, hd, hal, ha, hala, hid, hflag, hbase, hfree, hroom, hreads⟩
      exact ⟨hloads.completes hiss, hloads.waits hiss⟩
    case store =>
      rintro W rfl htry hread ws s2
      exact tile_stores hi hiss hwf hd hal ha hala hid hflag hbase hfree htry hread
  case idle =>
    rintro i store d a f o x (⟨rfl | rfl, rfl⟩ | ⟨rfl | rfl, rfl⟩ | ⟨⟨rfl | rfl, rfl⟩ | ⟨rfl | rfl, rfl⟩, hord, hcache⟩)
    · exact tile_idle ldxRow_runsTile
    · exact tile_idle ldxCol_runsTile
    · exact tile_idle stxRow_runsTile
    · exact tile_idle stxCol_runsTile
    · exact tile_idle (ldxRowXform_runsTile hord hcache)
    · exact tile_idle (ldxColXform_runsTile hord hcache)
    · exact tile_idle (stxRowXform_runsTile hord hcache)
    · exact tile_idle (stxColXform_runsTile hord hcache)

end Sys2Proof.Claim
end

section
/-! PROOFS. Cache instructions: lines that a prefetch places, and nothing else (R347, R413). -/

namespace Sys2Proof.Machine
open Claim

/-! ## The lines of a prefetch -/

/-- One thread's address, prefetched where it leads to a block of memory. -/
def prefetchOne (s : State) (x : ThAcc) : State :=
  match x.r with
  | .go (.block b _) => (s.fill b).2
  | _ => s

theorem prefetchOne_cases (s : State) (x : ThAcc) :
    prefetchOne s x = s ∨ ∃ b, prefetchOne s x = (s.fill b).2 := by
  unfold prefetchOne
  split
  · exact .inr ⟨_, rfl⟩
  · exact .inl rfl

theorem prefetchOne_block {s : State} {x : ThAcc} {b : BAcc} {off : Nat} (h : x.r = .go (.block b off)) :
    prefetchOne s x = (s.fill b).2 := by
  simp only [prefetchOne, h]

theorem prefetchOne_present {s : State} {x : ThAcc} {b : BAcc} {l : Line} (h : s.line? b = some l) :
    (prefetchOne s x).line? b = some l := by
  rcases prefetchOne_cases s x with heq | ⟨c, heq⟩ <;> rw [heq]
  · exact h
  · exact State.fill_present h

theorem prefetch_keeps (xs : List ThAcc) (s : State) : State.PortKeeps s (xs.foldl prefetchOne s) := by
  induction xs generalizing s with
  | nil => exact State.PortKeeps.refl s
  | cons x xs ih =>
    refine State.PortKeeps.trans ?_ (ih _)
    rcases prefetchOne_cases s x with heq | ⟨b, heq⟩ <;> rw [heq]
    · exact State.PortKeeps.refl s
    · exact State.fill_keeps s b

theorem prefetch_present (xs : List ThAcc) {s : State} {b : BAcc} {l : Line} (h : s.line? b = some l) :
    (xs.foldl prefetchOne s).line? b = some l := by
  induction xs generalizing s with
  | nil => exact h
  | cons x xs ih => exact ih (prefetchOne_present h)

/-- A line that a thread's address leads to is there afterwards. -/
theorem prefetch_places {xs : List ThAcc} {s : State} {x : ThAcc} {b : BAcc} {off : Nat} (hx : x ∈ xs)
    (h : x.r = .go (.block b off)) : ((xs.foldl prefetchOne s).line? b).isSome = true := by
  induction xs generalizing s with
  | nil => cases hx
  | cons y ys ih =>
    rcases List.mem_cons.mp hx with rfl | hmem
    · have hline : (prefetchOne s x).line? b = some (s.fill b).1 := by
        rw [prefetchOne_block h]
        exact fill_line s b
      exact Option.isSome_iff_exists.mpr ⟨_, prefetch_present ys hline⟩
    · exact ih hmem

/-! ## The cache instructions -/

/-- `i` runs as a prefetch (`pre`) or as cinv or cwb, of these fields. -/
structure RunsCache (i : Instr) (pre : Bool) (a : BitVec 8) (f o : BitVec 4) (x : BitVec 32) : Prop where
  runs : ∃ ill, ill.isNone = pre ∧ ∀ s, exec i s = runLane (cacheSpec i.wf ill a f o x) s
  order : xOrd x = 0
  cache : pre = false → xCache x = 0

theorem runsCache_of {i : Instr} {pre : Bool} {a : BitVec 8} {f o : BitVec 4} {x : BitVec 32} (h : CacheForm i pre a f o x) :
    RunsCache i pre a f o x := by
  rcases h with ⟨⟨rfl, rfl⟩ | ⟨rfl, rfl⟩ | ⟨rfl, rfl⟩, rfl⟩ | ⟨⟨rfl, rfl⟩ | ⟨rfl, rfl, hcache⟩ | ⟨rfl, rfl, hcache⟩, hord⟩
  · exact ⟨⟨none, rfl, fun _ => rfl⟩, rfl, fun h => by cases h⟩
  · exact ⟨⟨some _, rfl, fun _ => rfl⟩, rfl, fun _ => rfl⟩
  · exact ⟨⟨some _, rfl, fun _ => rfl⟩, rfl, fun _ => rfl⟩
  · exact ⟨⟨none, rfl, fun _ => rfl⟩, hord, fun h => by cases h⟩
  · exact ⟨⟨some _, rfl, fun _ => rfl⟩, hord, fun _ => hcache⟩
  · exact ⟨⟨some _, rfl, fun _ => rfl⟩, hord, fun _ => hcache⟩

section
variable {i : Instr} {pre : Bool} {a : BitVec 8} {f o : BitVec 4} {x : BitVec 32} {e : Env} {s s0 : State} {l : FetchLine}
  {pc : W64} {ill : Option Nat}

theorem cache_opOk (hill : ill.isNone = pre) (hi : RunsCache i pre a f o x) (hwf : i.wf = true) (ha : addrOk a = true) :
    (cacheSpec i.wf ill a f o x e).opOk = true := by
  cases pre with
  | true => simp [cacheSpec, hwf, ha, hi.order, hill]
  | false => simp [cacheSpec, hwf, ha, hi.order, hi.cache rfl]

/-- A prefetch is legal in a region, cinv and cwb are not (R266). -/
theorem cache_legal (hill : ill.isNone = pre) (htry : pre = false → e.inTry = false) :
    (cacheSpec i.wf ill a f o x e).illegal = none ∨ e.inTry = false := by
  cases pre with
  | true => exact .inl (Option.isNone_iff_eq_none.mp hill)
  | false => exact .inr (htry rfl)

theorem cache_idle (hi : RunsCache i pre a f o x) : Does i (fun e _ _ => e.idle = true ∧ addrOk a = true ∧
    (pre = false → e.inTry = false)) fun _ _ s => s := by
  obtain ⟨ill, hill, hruns⟩ := hi.runs
  refine does_of _ hruns fun e l s hwf ⟨hid, ha, htry⟩ => ?_
  rw [LaneSpec.run_pass rfl (cache_opOk hill hi hwf ha) rfl rfl (fun ht => ?_) (fun h => by cases h) rfl
    (.inr (.inl hid)), hid]
  · rfl
  · exact (cache_legal hill htry).resolve_right (by simp [ht])

/-- What a cache instruction leaves before its flag counts: the lines of a prefetch. -/
def cached (pre : Bool) (e : Env) (s : State) (a : BitVec 8) (A : Nat → Nat) : State :=
  if pre then (accs e s .load 1 1 (e.onceIf (isS a)) A).foldl prefetchOne s else s

theorem cached_keeps (pre : Bool) (e : Env) (s : State) (a : BitVec 8) (A : Nat → Nat) :
    State.PortKeeps s (cached pre e s a A) := by
  cases pre with
  | true => exact prefetch_keeps _ s
  | false => exact State.PortKeeps.refl s

theorem cache_completes {A : Nat → Nat} (hi : RunsCache i pre a f o x) (hiss : Issues s0 e l s pc) (hwf : i.wf = true)
    (ha : addrOk a = true) (hid : e.idle = false) (htry : pre = false → e.inTry = false)
    (hflag : e.wp.flagFull f.toNat = false)
    (haddrs : ∀ t, t ∈ e.onceIf (isS a) → e.addrOf a ((o.toNat * 256 : Nat) + xBoff x) t = .ok (A t)) :
    exec i s0 = .next (((counted e f.toNat (cached pre e s a A)).retireTo e pc).settleWarp e.b e.w) := by
  obtain ⟨hb, hw, -⟩ := issues_block hiss
  obtain ⟨ill, hill, hruns⟩ := hi.runs
  have hwarp : (cached pre e s a A).warp? e.b e.w = some e.wp :=
    warp?_of (((cached_keeps pre e s a A).block? e.b).trans hb) hw
  have hreads : eachThread (e.addrOf a (memOp 256 1 f o x).disp) (e.onceIf (isS a)) =
      .ok ((e.onceIf (isS a)).map fun t => (t, A t)) := eachThread_eq haddrs
  have hf : e.wp.flagFull (memOp 256 1 f o x).flag = false := hflag
  rw [hruns]
  refine runLane_ok hiss.who hiss.line hiss.next ?_
  rw [run_of rfl (cache_opOk hill hi hwf ha) rfl rfl (cache_legal hill htry) (.inl rfl) rfl (.inr hid) (.inl rfl)]
  cases pre with
  | true =>
    simp only [cacheSpec, hill, if_true, Env.prefetch, hreads, hf, Bool.false_eq_true, if_false, reachAll_eq]
    exact landAcc_counted rfl hwarp
  | false =>
    simp only [cacheSpec, hill, Bool.false_eq_true, if_false, Env.cacheOp, hreads, hf]
    exact landAcc_counted rfl hwarp

end

end Sys2Proof.Machine

namespace Sys2Proof.Claim
open Machine

/-- Settles O27: the state after the prefetched lines, line by line, and the instructions with no active thread. -/
theorem cachesObey : Obligations.CachesObey := by
  refine ⟨?forms, fun i pre a f o x hform => cache_idle (runsCache_of hform)⟩
  intro i pre a f o x hform s e l s1 pc A hiss hwf ha hid htry hflag haddrs
  refine ⟨cached pre e s1 a A, cached_keeps pre e s1 a A, ?same, ?present, ?placed,
    cache_completes (runsCache_of hform) hiss hwf ha hid htry hflag haddrs⟩
  case same =>
    rintro rfl
    rfl
  case present =>
    intro b l hline
    cases pre with
    | true => exact prefetch_present _ hline
    | false => exact hline
  case placed =>
    rintro rfl t b off ht hreach
    exact prefetch_places (List.mem_map_of_mem ht) hreach

end Sys2Proof.Claim
end

section
/-! PROOFS. Atomics: the values that they leave and give, in thread order (R254, R415, R416). -/

namespace Sys2Proof.Machine
open Claim

/-! ## The operations (R416) -/

/-- The width of an atomic's type, and whether it is signed. -/
def atmWidth (ty : Nat) : Nat := if ty = 2 ∨ ty = 3 then 64 else 32
def atmSigned (ty : Nat) : Bool := ty == 0 || ty == 2

theorem atmWidth_two (ty : Nat) : atmWidth ty = 32 ∨ atmWidth ty = 64 := by
  unfold atmWidth
  split <;> simp

theorem atomicF_add {ty old b c : Nat} : (2 ^ atmWidth ty : Int) ∣ old + b - atomicF 0 ty old b c ∧
    atomicF 0 ty old b c < 2 ^ atmWidth ty := by
  refine ⟨?_, Nat.mod_lt _ (by positivity)⟩
  show (2 ^ atmWidth ty : Int) ∣ old + b - ((old + b) % 2 ^ atmWidth ty : Nat)
  push_cast
  exact Int.dvd_self_sub_emod

/-- The comparison of min and max is that of the values. -/
theorem atomic_less {ty u v : Nat} (hu : u < 2 ^ atmWidth ty) (hv : v < 2 ^ atmWidth ty) :
    (if ty = 0 ∨ ty = 2 then decide (sext (atmWidth ty) u < sext (atmWidth ty) v) else decide (u < v)) =
      decide (val (atmWidth ty) (atmSigned ty) u < val (atmWidth ty) (atmSigned ty) v) := by
  by_cases hty : ty = 0 ∨ ty = 2
  · have hsg : atmSigned ty = true := by simpa [atmSigned] using hty
    rw [if_pos hty, hsg, sext_val _ (atmWidth_two ty) _ hu, sext_val _ (atmWidth_two ty) _ hv]
  · have hsg : atmSigned ty = false := by simpa [atmSigned] using hty
    rw [if_neg hty, hsg]
    simp [val]

theorem atomicF_min {ty old b c : Nat} (hty : ty ≤ 3) (ho : old < 2 ^ atmWidth ty) (hb : b < 2 ^ atmWidth ty) :
    val (atmWidth ty) (atmSigned ty) (atomicF 1 ty old b c) =
      min (val (atmWidth ty) (atmSigned ty) old) (val (atmWidth ty) (atmSigned ty) b) := by
  have hvalue : atomicF 1 ty old b c = if (if ty = 0 ∨ ty = 2 then decide (sext (atmWidth ty) b < sext (atmWidth ty) old)
      else decide (b < old)) = true then b else old := if_neg (by omega)
  rw [hvalue, atomic_less hb ho]
  simp only [decide_eq_true_eq]
  split <;> omega

theorem atomicF_max {ty old b c : Nat} (hty : ty ≤ 3) (ho : old < 2 ^ atmWidth ty) (hb : b < 2 ^ atmWidth ty) :
    val (atmWidth ty) (atmSigned ty) (atomicF 2 ty old b c) =
      max (val (atmWidth ty) (atmSigned ty) old) (val (atmWidth ty) (atmSigned ty) b) := by
  have hvalue : atomicF 2 ty old b c = if (if ty = 0 ∨ ty = 2 then decide (sext (atmWidth ty) old < sext (atmWidth ty) b)
      else decide (old < b)) = true then b else old := if_neg (by omega)
  rw [hvalue, atomic_less ho hb]
  simp only [decide_eq_true_eq]
  split <;> omega

/-! ## The atomic instructions (R415) -/

/-- `i` runs as an atomic with these fields; without a result it is a red. -/
structure RunsAtomic (i : Instr) (op : Nat) (ret : Bool) (d a b : BitVec 8) (x : BitVec 32) : Prop where
  runs : ∃ opc, ∀ s, exec i s = runLane (atomSpec i.wf ret opc op d a b x) s
  result : ret = true → atmRop x = 0
  red : ret = false → d = 0#8 ∧ op ≤ 6 ∧ (xOrd x = 0 ∨ xOrd x = 2)

section
variable {d a b : BitVec 8} {x : BitVec 32}

theorem runsAtomic_of {i : Instr} {op : Nat} {ret : Bool}
    (h : ((i = .atomAdd d a b x ∧ op = 0 ∨ i = .atomMin d a b x ∧ op = 1 ∨ i = .atomMax d a b x ∧ op = 2 ∨
        i = .atomAnd d a b x ∧ op = 3 ∨ i = .atomOr d a b x ∧ op = 4 ∨ i = .atomXor d a b x ∧ op = 5 ∨
        i = .atomFadd d a b x ∧ op = 6 ∨ i = .atomExch d a b x ∧ op = 7 ∨ i = .atomCas d a b x ∧ op = 8) ∧
        ret = true ∧ atmRop x = 0 ∨
      i = .red d a b x ∧ op = atmRop x ∧ op ≤ 6 ∧ ret = false ∧ d = 0#8 ∧ (xOrd x = 0 ∨ xOrd x = 2))) :
    RunsAtomic i op ret d a b x := by
  rcases h with ⟨hform, rfl, hrop⟩ | ⟨rfl, rfl, hop, rfl, hd, hord⟩
  · rcases hform with ⟨rfl, rfl⟩ | ⟨rfl, rfl⟩ | ⟨rfl, rfl⟩ | ⟨rfl, rfl⟩ | ⟨rfl, rfl⟩ | ⟨rfl, rfl⟩ | ⟨rfl, rfl⟩ |
      ⟨rfl, rfl⟩ | ⟨rfl, rfl⟩ <;> exact ⟨⟨_, fun _ => rfl⟩, fun _ => hrop, fun h => by cases h⟩
  · exact ⟨⟨_, fun _ => rfl⟩, fun h => Bool.noConfusion h, fun _ => ⟨hd, hop, hord⟩⟩

end

/-- The access of an atomic. -/
def atmOp (x : BitVec 32) : MemOp :=
  { size := atmSize (atmTy x), align := atmSize (atmTy x), disp := ((x.toNat % 16) * atmSize (atmTy x) : Nat), scope := xScope x
    rel := decide (2 ≤ xOrd x), acq := xOrd x == 1 || xOrd x == 3 }

theorem atmOp_acqScope (x : BitVec 32) : (atmOp x).acqScope = if xOrd x % 2 = 1 then some (xScope x) else none := by
  have hord : xOrd x < 4 := by
    rw [xOrd, bits_eq]
    exact Nat.mod_lt _ (by decide)
  have hacq : (atmOp x).acq = decide (xOrd x % 2 = 1) := by
    simp only [atmOp]
    interval_cases xOrd x <;> rfl
  simp only [MemOp.acqScope, hacq, decide_eq_true_eq]
  rfl

/-- Whether the type's operands take a pair. -/
def atmWide (x : BitVec 32) : Bool := atmTy x == 2 || atmTy x == 3

/-- Whether the operands are uniform. -/
def atmOnce (op : Nat) (a b : BitVec 8) (x : BitVec 32) : Bool := isS a && !isV b && (op != 8 || !isV (atmC x))

/-- The threads that an atomic runs for. -/
def atmRunners (e : Env) (op : Nat) (ret : Bool) (d a b : BitVec 8) (x : BitVec 32) : List Nat :=
  e.onceIf (atmOnce op a b x || (ret && isS d))

/-- An atomic passes its checks: each thread of it reaches memory at `A t` with the operands `B t` and `C t` (R348, R415). -/
structure AtomicFinds (op : Nat) (ret : Bool) (d a b : BitVec 8) (x : BitVec 32) (A B C : Nat → Nat) (e : Env) (s : State) :
    Prop where
  type : atmTypeOk op (atmTy x) = true
  addr : addrOk a = true
  first : atmSrcOk (sizeRegs (atmSize (atmTy x))) b = true
  second : if op = 8 then atmSrcOk (sizeRegs (atmSize (atmTy x))) (atmC x) = true else atmC x = 0#8
  dst : ret = true → dstOk d (sizeRegs (atmSize (atmTy x))) = true ∧ Room e (dstNames d (sizeRegs (atmSize (atmTy x)))) ∧
    (isS d = true → isS a = true ∧ isV b = false ∧ (op = 8 → isV (atmC x) = false))
  busy : e.idle = false
  outside : e.inTry = false
  addrs : ∀ t, t ∈ atmRunners e op ret d a b x →
    e.addrOf a ((x.toNat % 16 * atmSize (atmTy x) : Nat) : Int) t = .ok (A t)
  firsts : ∀ t, t ∈ atmRunners e op ret d a b x → e.atomSrc (atmWide x) b t = .ok (B t)
  seconds : ∀ t, t ∈ atmRunners e op ret d a b x →
    if op = 8 then e.atomSrc (atmWide x) (atmC x) t = .ok (C t) else C t = 0
  reach : Reaches e s .atomic (atmSize (atmTy x)) (atmSize (atmTy x)) (atmRunners e op ret d a b x) A
  held : s.anyHeld e.b (atmSize (atmTy x)) (accs e s .atomic (atmSize (atmTy x)) (atmSize (atmTy x))
    (atmRunners e op ret d a b x) A) = false

/-- What an atomic gives its destination: with uniform operands and a vector destination every active thread the one old
value. -/
def atmResults (e : Env) (k : Nat) (spread : Bool) (olds : List (Nat × Nat)) : List (Nat × List W32) :=
  if spread then match olds with
    | (_, v) :: _ => e.act.map fun t => (t, wordsFor k v)
    | [] => []
  else olds.map fun r => (r.1, wordsFor k r.2)

theorem landAcc_unflagged {e : Env} {s : State} {m : MemOp} {kind : RemKind} {ws : List (ThAcc × List Byte)}
    (hf : m.flag = 15) (hr : (ws.filter fun p => isRemote p.1) = []) : e.landAcc s m kind ws none = .ok s := by
  simp [Env.landAcc, hf, hr]

section
variable {i : Instr} {op : Nat} {ret : Bool} {d a b : BitVec 8} {x : BitVec 32} {A B C : Nat → Nat} {e : Env}
  {s s0 s2 : State} {l : FetchLine} {pc : W64} {olds : List (Nat × Nat)}

/-- The accesses of an atomic. -/
def atmAccs (e : Env) (s : State) (op : Nat) (ret : Bool) (d a b : BitVec 8) (x : BitVec 32) (A : Nat → Nat) : List ThAcc :=
  accs e s .atomic (atmSize (atmTy x)) (atmSize (atmTy x)) (atmRunners e op ret d a b x) A

theorem onceIf_atm : e.onceIf (isS a && !isV b && (op != 8 || !isV (atmC x)) || (ret && isS d)) =
    atmRunners e op ret d a b x := rfl

theorem wide_atm : (atmTy x == 2 || atmTy x == 3) = atmWide x := rfl

theorem reachAll_atm : e.reachAll s .atomic (atmOp x) ((atmRunners e op ret d a b x).map fun t => (t, A t)) =
    atmAccs e s op ret d a b x A := reachAll_eq ..

/-- The values that the threads exchange are those of their own operands. -/
theorem atm_exchanges : State.atomicAll e (atmOp x).size (fun t old => atomicF op (atmTy x) old
      (((((atmRunners e op ret d a b x).map fun t => (t, B t)).find? fun p => p.1 == t).map Prod.snd).getD 0)
      (((((atmRunners e op ret d a b x).map fun t => (t, C t)).find? fun p => p.1 == t).map Prod.snd).getD 0))
    (atmAccs e s op ret d a b x A) s = State.atomicAll e (atmSize (atmTy x)) (fun t old => atomicF op (atmTy x) old (B t) (C t))
    (atmAccs e s op ret d a b x A) s := by
  refine atomicAll_congr (fun y hy => ?_) s
  obtain ⟨t, ht, rfl⟩ := List.mem_map.mp hy
  simp only [valOf ht]

theorem olds_threads {f : Nat → Nat → Nat} (hall : State.atomicAll e (atmSize (atmTy x)) f (atmAccs e s op ret d a b x A) s =
    (.ok olds, s2)) : olds.map Prod.fst = atmRunners e op ret d a b x := by
  rw [atomicAll_fst hall, atmAccs, accs, List.map_map]
  exact List.map_id _

/-- The old values are in the order of their threads. -/
theorem olds_sorted (horder : olds.map Prod.fst = atmRunners e op ret d a b x) (k : Nat) :
    ((olds.map fun p => (p.1, wordsFor k p.2)).insertionSort fun p q => p.1 ≤ q.1) = olds.map fun p => (p.1, wordsFor k p.2) := by
  refine sort_sorted ?_
  rw [List.map_map]
  exact horder ▸ onceIf_sorted e _

section
variable (h : AtomicFinds op ret d a b x A B C e s)
include h

theorem AtomicFinds.run (hi : RunsAtomic i op ret d a b x) (hwf : i.wf = true) : ∃ sp : Env → LaneSpec,
    (∀ s, exec i s = runLane sp s) ∧ (sp e).run e l s = e.atomic (atmOp x) op (atmTy x) ret d a b (atmC x) s l := by
  obtain ⟨opc, hruns⟩ := hi.runs
  refine ⟨_, hruns, ?_⟩
  have hsecond : (if (op == 8) = true then atmSrcOk (sizeRegs (atmSize (atmTy x))) (atmC x) else atmC x == 0#8) = true := by
    have hsrc := h.second
    by_cases h8 : op = 8 <;> simp_all
  have hop : (atomSpec i.wf ret opc op d a b x e).opOk = true := by
    cases ret with
    | true =>
      obtain ⟨hd, -, huni⟩ := h.dst rfl
      have huniform : (!isS d || (isS a && !isV b && (!(op == 8) || !isV (atmC x)))) = true := by
        by_cases hs : isS d = true
        · obtain ⟨hsa, hvb, hvc⟩ := huni hs
          by_cases h8 : op = 8 <;> simp_all
        · simp [hs]
      simp only [atomSpec, hwf, h.type, h.addr, h.first, hsecond, hi.result rfl, hd, huniform, beq_self_eq_true, if_true,
        Bool.and_self, Bool.not_true, Bool.false_or]
    | false =>
      obtain ⟨hd, hle, hord⟩ := hi.red rfl
      have hordOk : (xOrd x == 0 || xOrd x == 2) = true := by simpa using hord
      simp only [atomSpec, hwf, h.type, h.addr, h.first, hsecond, hd, hle, hordOk, beq_self_eq_true, Bool.false_eq_true,
        if_false, decide_true, Bool.and_self, Bool.not_false, Bool.true_or]
  refine run_of rfl hop rfl rfl (.inr h.outside) (.inl rfl) rfl (.inr h.busy) ?_
  cases ret with
  | true => exact .inr ⟨(h.dst rfl).2.1, h.busy⟩
  | false => exact .inl rfl

/-- The accesses of an atomic reach memory of the device. -/
theorem AtomicFinds.here : ∀ y, y ∈ atmAccs e s op ret d a b x A → reaches y = true ∧ isRemote y = false := accs_spec h.reach

theorem AtomicFinds.reaches : ∀ y, y ∈ atmAccs e s op ret d a b x A → reaches y = true := fun y hy => (h.here y hy).1

theorem AtomicFinds.addresses : eachThread (e.addrOf a (atmOp x).disp) (atmRunners e op ret d a b x) =
    .ok ((atmRunners e op ret d a b x).map fun t => (t, A t)) := eachThread_eq h.addrs

theorem AtomicFinds.seconds_read :
    eachThread (fun t => if op = 8 then e.atomSrc (atmWide x) (atmC x) t else .ok 0) (atmRunners e op ret d a b x) =
      .ok ((atmRunners e op ret d a b x).map fun t => (t, C t)) := by
  refine eachThread_eq fun t ht => ?_
  have hsrc := h.seconds t ht
  by_cases h8 : op = 8
  · rwa [if_pos h8] at hsrc ⊢
  · rw [if_neg h8] at hsrc ⊢
    rw [hsrc]

theorem AtomicFinds.free : s.anyHeld e.b (atmOp x).size (atmAccs e s op ret d a b x A) = false := h.held

theorem AtomicFinds.act_waits (hrel : e.relWaits s (atmOp x) = true) :
    e.atomic (atmOp x) op (atmTy x) ret d a b (atmC x) s l = .park s .fence := by
  simp only [Env.atomic, onceIf_atm, wide_atm, reachAll_atm, h.addresses, eachThread_eq h.firsts, h.seconds_read,
    raisedFault_none h.reaches, anyStall_false h.reaches, h.free, Bool.or_self, hrel, Bool.false_eq_true, if_false, if_true]

theorem AtomicFinds.act_done (hrel : e.relWaits s (atmOp x) = false)
    (hdata : firstDataFault (State.readAll e (atmSize (atmTy x)) (atmAccs e s op ret d a b x A) s).1 = none)
    (hall : State.atomicAll e (atmSize (atmTy x)) (fun t old => atomicF op (atmTy x) old (B t) (C t))
      (atmAccs e s op ret d a b x A) s = (.ok olds, s2)) :
    e.atomic (atmOp x) op (atmTy x) ret d a b (atmC x) s l = .ok (if ret then
      e.put (s2.noteAtomics e (atmOp x).acqScope (atmOp x).size (atmAccs e s op ret d a b x A)) d (sizeRegs (atmSize (atmTy x)))
        (atmResults e (sizeRegs (atmSize (atmTy x))) (atmOnce op a b x && !isS d) olds)
      else s2.noteAtomics e (atmOp x).acqScope (atmOp x).size (atmAccs e s op ret d a b x A)) := by
  have hdata' : firstDataFault (State.readAll e (atmOp x).size (atmAccs e s op ret d a b x A) s).1 = none := hdata
  simp only [Env.atomic, onceIf_atm, wide_atm, reachAll_atm, h.addresses, eachThread_eq h.firsts, h.seconds_read,
    raisedFault_none h.reaches, anyStall_false h.reaches, h.free, Bool.or_self, hrel, Bool.false_eq_true, if_false,
    filter_local h.here, hdata', atm_exchanges, hall, switchOut_none h.reaches, filter_remote h.here, List.map_nil,
    List.append_nil]
  cases ret with
  | false =>
    refine landAcc_unflagged rfl (List.filter_eq_nil_iff.mpr fun p hp => ?_)
    obtain ⟨y, hy, rfl⟩ := List.mem_map.mp hp
    simp [(h.here y hy).2]
  | true =>
    simp only [Bool.not_true, Bool.false_eq_true, if_false, olds_sorted (olds_threads hall), Env.atomic.landAtomic,
      filter_remote h.here, List.isEmpty_nil, if_true]
    show Eff.ok (e.put _ d _ (if atmOnce op a b x && !isS d then _ else _)) = Eff.ok (e.put _ d _ (atmResults ..))
    cases olds <;> rfl

theorem AtomicFinds.waits (hi : RunsAtomic i op ret d a b x) (hiss : Issues s0 e l s pc) (hwf : i.wf = true)
    (hack : ¬ Acked e s x) : exec i s0 = .next (((s.updSplit e.b e.w e.sp fun q =>
      { q with park := .fence }).turnPassed e.b e.w e.sp).settleWarp e.b e.w) := by
  obtain ⟨sp, hx, hrun⟩ := h.run (l := l) hi hwf
  rw [hx]
  exact runLane_park hiss.who hiss.line (hrun.trans (h.act_waits ((relWaits_iff rfl rfl).mpr hack)))

theorem AtomicFinds.completes (hi : RunsAtomic i op ret d a b x) (hiss : Issues s0 e l s pc) (hwf : i.wf = true)
    (hack : Acked e s x)
    (hdata : firstDataFault (State.readAll e (atmSize (atmTy x)) (atmAccs e s op ret d a b x A) s).1 = none)
    (hall : State.atomicAll e (atmSize (atmTy x)) (fun t old => atomicF op (atmTy x) old (B t) (C t))
      (atmAccs e s op ret d a b x A) s = (.ok olds, s2)) :
    exec i s0 = .next (((if ret then
      e.put (s2.noteAtomics e (if xOrd x % 2 = 1 then some (xScope x) else none) (atmSize (atmTy x)) (atmAccs e s op ret d a b x A))
        d (sizeRegs (atmSize (atmTy x))) (atmResults e (sizeRegs (atmSize (atmTy x))) (atmOnce op a b x && !isS d) olds)
      else s2.noteAtomics e (if xOrd x % 2 = 1 then some (xScope x) else none) (atmSize (atmTy x))
        (atmAccs e s op ret d a b x A)).retireTo e pc).settleWarp e.b e.w) := by
  obtain ⟨sp, hx, hrun⟩ := h.run (l := l) hi hwf
  have hrel : e.relWaits s (atmOp x) = false := by
    rw [← Bool.not_eq_true]
    exact fun hw => (relWaits_iff rfl rfl).mp hw hack
  rw [hx, ← atmOp_acqScope]
  exact runLane_ok hiss.who hiss.line hiss.next (hrun.trans (h.act_done hrel hdata hall))

end

end

end Sys2Proof.Machine

namespace Sys2Proof.Claim
open Machine

/-- Settles O28: one run of an atomic for all its forms, and the value of each operation. -/
theorem atomicsExchange : Obligations.AtomicsExchange := by
  refine ⟨?forms, ?values, fun _ _ _ => rfl⟩
  case forms =>
    intro i op ret d a b x hform s e l s1 pc A B C olds s2 hiss hwf
    dsimp only
    intro htype haddr hfirst hsecond hdst hbusy hout haddrs hfirsts hseconds hreach hheld
    have hfinds : AtomicFinds op ret d a b x A B C e s1 :=
      ⟨htype, haddr, hfirst, hsecond, hdst, hbusy, hout, haddrs, hfirsts, hseconds, hreach, hheld⟩
    exact ⟨hfinds.waits (runsAtomic_of hform) hiss hwf, fun hack hdata hall =>
      ⟨olds_threads hall, hfinds.completes (runsAtomic_of hform) hiss hwf hack hdata hall⟩⟩
  case values =>
    intro ty old b c hty
    dsimp only
    intro hold hb
    exact ⟨atomicF_add.1, atomicF_add.2, atomicF_min hty hold hb, atomicF_max hty hold hb,
      fun j => Nat.testBit_and old b j, fun j => Nat.testBit_or old b j, fun j => Nat.testBit_xor old b j, rfl, rfl⟩

end Sys2Proof.Claim
end

section
/-! PROOFS. Copies: the plans of the copy instructions, batches and their wait (R424 to R427). -/

namespace Sys2Proof.Machine
open Claim

/-! ## The plans (R424, R425) -/

/-- The checks that every plan passes first. -/
theorem planChecks_none {as bs : List Nat} (ha : CopyAddrs as) (hb : ∀ x, x ∈ bs → 4 ∣ x) :
    (privCheck as <|> alignCheck bs) = none := by
  rw [priv_none ha, misalign_none hb]
  rfl

theorem planCp_ok {src dst n : Nat} (ha : CopyAddrs [src, dst]) (h4 : ∀ x, x ∈ [src, dst, n] → 4 ∣ x) (hn : n ≤ 2 ^ 20) :
    planCp src dst n = .ok (if n = 0 then [] else [(src, dst, n)]) := by
  unfold planCp
  rw [planChecks_none ha h4]
  exact if_neg (by omega)

theorem planCp2d_ok {src dst rb rows ss ds : Nat} (ha : CopyAddrs [src, dst]) (h4 : ∀ x, x ∈ [src, dst, rb, ss, ds] → 4 ∣ x)
    (hrb : 4 ≤ rb ∧ rb ≤ 65536) (hrows : 1 ≤ rows ∧ rows ≤ 4096) (hall : rows * rb ≤ 2 ^ 20) :
    planCp2d src dst [rb, rows, ss, ds] = .ok ((List.range rows).map fun i : Nat =>
      (wrapN 64 (src + i * sext 32 ss), wrapN 64 (dst + i * sext 32 ds), rb)) := by
  have hchecks : (privCheck [src, dst] <|> alignCheck [src, dst, rb, ss, ds]) = none := planChecks_none ha h4
  simp only [planCp2d, List.getD_cons_zero, List.getD_cons_succ, hchecks]
  refine if_neg ?_
  simp only [Bool.or_eq_true, decide_eq_true_eq]
  omega

theorem mcastBids_ok {own n b1 b2 b3 bid : Nat} (hne : ([b1, b2, b3, bid].filter fun x => x != 0xffffffff) ≠ [])
    (hown : own ∉ [b1, b2, b3, bid].filter fun x => x != 0xffffffff) :
    mcastBids own [n, b1, b2, b3] bid = .ok ([b1, b2, b3, bid].filter fun x => x != 0xffffffff) := by
  have hnamed : mcastBids own [n, b1, b2, b3] bid = if (([b1, b2, b3, bid].filter fun x => x != 0xffffffff).isEmpty ||
      ([b1, b2, b3, bid].filter fun x => x != 0xffffffff).contains own) = true then .error badH
      else .ok ([b1, b2, b3, bid].filter fun x => x != 0xffffffff) := rfl
  rw [hnamed]
  refine if_neg ?_
  rw [Bool.or_eq_true, List.isEmpty_iff, List.contains_iff_mem]
  exact fun h => h.elim hne hown

theorem planMcast_ok {own src dst bid n b1 b2 b3 : Nat} (ha : CopyAddrs [src, dst]) (h4 : ∀ x, x ∈ [src, dst, n] → 4 ∣ x)
    (hn : 4 ≤ n ∧ n ≤ 2 ^ 20) (hne : ([b1, b2, b3, bid].filter fun x => x != 0xffffffff) ≠ [])
    (hown : own ∉ [b1, b2, b3, bid].filter fun x => x != 0xffffffff) (hfirst : inScratchWin dst = true)
    (hlast : inScratchWin (dst + n - 4) = true) :
    planMcast own src dst bid [n, b1, b2, b3] =
      .ok ([(src, dst, n)], [b1, b2, b3, bid].filter fun x => x != 0xffffffff) := by
  have hlen : ¬ ((decide (n < 4) || decide (n > 1048576)) = true) := by
    simp only [Bool.or_eq_true, decide_eq_true_eq]
    omega
  simp only [planMcast, List.getD_cons_zero, planChecks_none ha h4, if_neg hlen, mcastBids_ok hne hown, hfirst, hlast, Bool.and_self,
    if_true]

/-! ## The copy instructions -/

/-- An instruction starts its plans' copies where it issues them and its checks are those of the copies. -/
theorem copies_of {i : Instr} {once : Bool} {fields : Prop} {ok : Env → State → Nat → CopyPlan → Prop} {opc : Nat}
    (opOk : Bool) (act : Env → State → FetchLine → Eff)
    (hx : ∀ s, exec i s = runLane (fun e => { opOk := opOk, shuttle := true, illegal := some opc, act := act e }) s)
    (hop : i.wf = true → fields → opOk = true)
    (hact : ∀ (plan : Nat → CopyPlan) (e : Env) (s : State) (l : FetchLine),
      (∀ t, t ∈ e.onceIf once → (plan t).thread = t ∧ ok e s t (plan t)) →
      act e s l = e.issueCopies s ((e.onceIf once).map plan)) : Copies i once fields ok := by
  refine fun plan => does_of _ hx ?_
  rintro e l s hwf ⟨hfields, hshuttle, hout, hbusy, hplan, hgo⟩
  rw [run_of rfl (hop hwf hfields) rfl rfl (.inr hout) (.inr hshuttle) rfl (.inr hbusy) (.inl rfl)]
  exact (hact plan e s l hplan).trans (issueCopies_ok hgo)

theorem cp_starts (d sr l : BitVec 8) (lit : BitVec 32) : Copies (.cp d sr l lit) (isS d && isS sr && !isV l)
    (pairOk d = true ∧ pairOk sr = true ∧ srcOk l 1 = true) fun e _ t p => ∃ dst src n, e.pread d t = .ok dst ∧
      e.pread sr t = .ok src ∧ e.src32 (.word lit) l t = .ok n ∧ CopyAddrs [src, dst] ∧ (∀ x, x ∈ [src, dst, n] → 4 ∣ x) ∧
      n ≤ 2 ^ 20 ∧ p.bids = none ∧ p.segs = if n = 0 then [] else [(src, dst, n)] := by
  refine copies_of _ _ (fun _ => rfl) ?fields ?plans
  case fields =>
    rintro hwf ⟨hd, hsr, hl⟩
    simp only [hwf, hd, hsr, hl, Bool.and_self]
  case plans =>
    intro plan e s _ hplan
    rw [plansOf_ok (g := plan) fun t ht => ?_]
    obtain ⟨hthread, dst, src, n, hdst, hsrc, hn, ha, h4, hle, hbids, hsegs⟩ := hplan t ht
    simp only [hdst, hsrc, hn, withCode, planCp_ok ha h4 hle, bind, Except.bind, pure, Except.pure,
      planEq hthread hsegs hbids]

theorem cp2d_starts (d a b c : BitVec 8) (lit : BitVec 24) : Copies (.cp2d d a b c lit) (isS d && isS a && isS c)
    (pairOk d = true ∧ pairOk a = true ∧ b = 0#8 ∧ dstOk c 4 = true) fun e _ t p => ∃ dst src rb rows ss ds,
      e.pread d t = .ok dst ∧ e.pread a t = .ok src ∧ e.group4 c t = .ok [rb, rows, ss, ds] ∧ CopyAddrs [src, dst] ∧
      (∀ x, x ∈ [src, dst, rb, ss, ds] → 4 ∣ x) ∧ 4 ≤ rb ∧ rb ≤ 65536 ∧ 1 ≤ rows ∧ rows ≤ 4096 ∧ rows * rb ≤ 2 ^ 20 ∧
      p.bids = none ∧ p.segs = (List.range rows).map fun i : Nat =>
        (wrapN 64 (src + i * sext 32 ss), wrapN 64 (dst + i * sext 32 ds), rb) := by
  refine copies_of _ _ (fun _ => rfl) ?fields ?plans
  case fields =>
    rintro hwf ⟨hd, ha, rfl, hc⟩
    simp only [hwf, hd, ha, hc, beq_self_eq_true, Bool.and_self]
  case plans =>
    intro plan e s _ hplan
    rw [plansOf_ok (g := plan) fun t ht => ?_]
    obtain ⟨hthread, dst, src, rb, rows, ss, ds, hdst, hsrc, hg, ha, h4, hrb, hrb', hrows, hrows', hall, hbids, hsegs⟩ := hplan t ht
    simp only [hdst, hsrc, hg, withCode, planCp2d_ok ha h4 ⟨hrb, hrb'⟩ ⟨hrows, hrows'⟩ hall, bind, Except.bind, pure,
      Except.pure, planEq hthread hsegs hbids]

theorem cpMcast_starts (d a b c : BitVec 8) (lit : BitVec 24) : Copies (.cpMcast d a b c lit) (isS d && isS a && !isV b && isS c)
    (pairOk d = true ∧ pairOk a = true ∧ srcOk b 1 = true ∧ dstOk c 4 = true) fun e _ t p => ∃ dst src bid n b1 b2 b3,
      e.pread d t = .ok dst ∧ e.pread a t = .ok src ∧ e.src32 (.lit24 lit) b t = .ok bid ∧
      e.group4 c t = .ok [n, b1, b2, b3] ∧ CopyAddrs [src, dst] ∧ (∀ x, x ∈ [src, dst, n] → 4 ∣ x) ∧ 4 ≤ n ∧ n ≤ 2 ^ 20 ∧
      let bids := [b1, b2, b3, bid].filter fun x => x != 0xffffffff
      bids ≠ [] ∧ e.blk.bid.toNat ∉ bids ∧ inScratchWin dst = true ∧ inScratchWin (dst + n - 4) = true ∧
      p.bids = some bids ∧ p.segs = [(src, dst, n)] := by
  refine copies_of _ _ (fun _ => rfl) ?fields ?plans
  case fields =>
    rintro hwf ⟨hd, ha, hb, hc⟩
    simp only [hwf, hd, ha, hb, hc, Bool.and_self]
  case plans =>
    intro plan e s _ hplan
    rw [plansOf_ok (g := plan) fun t ht => ?_]
    obtain ⟨hthread, dst, src, bid, n, b1, b2, b3, hdst, hsrc, hbid, hg, ha, h4, hn, hn', hne, hown, hfirst, hlast, hbids, hsegs⟩ :=
      hplan t ht
    simp only [hdst, hsrc, hbid, hg, withCode, planMcast_ok ha h4 ⟨hn, hn'⟩ hne hown hfirst hlast, bind, Except.bind, pure,
      Except.pure, planEq hthread hsegs hbids]

/-! ## The gather -/

/-- A thread of a gather finds its addresses, its sizes and its index table. -/
def GatherFinds (e : Env) (s : State) (d a c : BitVec 8) (t : Nat) (dst src size count lo hi : Nat) (idx : List Nat) : Prop :=
  e.pread d t = .ok dst ∧ e.pread a t = .ok src ∧ e.group4 c t = .ok [size, count, lo, hi] ∧ CopyAddrs [src, dst] ∧
    (∀ x, x ∈ [src, dst, size] → 4 ∣ x) ∧ 4 ≤ size ∧ size ≤ 256 ∧ 1 ≤ count ∧ count ≤ 256 ∧
    e.readTable s (lo + 2 ^ 32 * hi) count = .ok idx

theorem gatherOne_ok {e : Env} {s : State} {d a c : BitVec 8} {t dst src size count lo hi : Nat} {idx : List Nat}
    (h : GatherFinds e s d a c t dst src size count lo hi idx) : e.gatherOne s d a c t = .ok (src, dst, size, .ok idx) := by
  obtain ⟨hdst, hsrc, hg, ha, h4, hsize, hsize', hcount, hcount', htab⟩ := h
  have hsizes : ¬ ((decide (size < 4) || decide (size > 256) || decide (count = 0) || decide (count > 256)) = true) := by
    simp only [Bool.or_eq_true, decide_eq_true_eq]
    omega
  simp only [Env.gatherOne, hdst, hsrc, hg, withCode, bind, Except.bind, List.getD_cons_zero, List.getD_cons_succ,
    planChecks_none ha h4, if_neg hsizes, htab]

/-- A gather whose threads all find their tables issues their plans after those it has. -/
theorem gather_issues {e : Env} {s : State} {d a c : BitVec 8} {plan : Nat → CopyPlan} {ts : List Nat} (ps : List CopyPlan)
    (h : ∀ t, t ∈ ts → ∃ src dst size idx, e.gatherOne s d a c t = .ok (src, dst, size, .ok idx) ∧
      plan t = { thread := t, segs := planGather src dst size idx }) :
    execCpGather.gather e d a c s ts ps [] = e.issueCopies s (ps ++ ts.map plan) := by
  induction ts generalizing ps with
  | nil => rw [List.map_nil, List.append_nil]; rfl
  | cons t ts ih =>
    obtain ⟨src, dst, size, idx, hone, hplan⟩ := h t (by simp)
    rw [execCpGather.gather, hone]
    refine (ih _ fun u hu => h u (by simp [hu])).trans ?_
    rw [← hplan, List.append_assoc]
    rfl

theorem cpGather_starts (d a b c : BitVec 8) (lit : BitVec 24) : Copies (.cpGather d a b c lit) (isS d && isS a && isS c)
    (pairOk d = true ∧ pairOk a = true ∧ b = 0#8 ∧ dstOk c 4 = true) fun e s t p => ∃ dst src size count lo hi idx,
      e.pread d t = .ok dst ∧ e.pread a t = .ok src ∧ e.group4 c t = .ok [size, count, lo, hi] ∧ CopyAddrs [src, dst] ∧
      (∀ x, x ∈ [src, dst, size] → 4 ∣ x) ∧ 4 ≤ size ∧ size ≤ 256 ∧ 1 ≤ count ∧ count ≤ 256 ∧
      e.readTable s (lo + 2 ^ 32 * hi) count = .ok idx ∧ p.bids = none ∧ p.segs = (List.range idx.length).map fun i =>
        ((src + idx.getD i 0 * size) % 2 ^ 64, (dst + i * size) % 2 ^ 64, size) := by
  refine copies_of _ _ (fun _ => rfl) ?fields ?plans
  case fields =>
    rintro hwf ⟨hd, ha, rfl, hc⟩
    simp only [hwf, hd, ha, hc, beq_self_eq_true, Bool.and_self]
  case plans =>
    intro plan e s _ hplan
    refine gather_issues [] fun t ht => ?_
    obtain ⟨hthread, dst, src, size, count, lo, hi, idx, hdst, hsrc, hg, ha, h4, hsize, hsize', hcount, hcount', htab, hbids,
      hsegs⟩ := hplan t ht
    exact ⟨src, dst, size, idx, gatherOne_ok ⟨hdst, hsrc, hg, ha, h4, hsize, hsize', hcount, hcount', htab⟩,
      planEq hthread hsegs hbids⟩

/-! ## A copy that starts -/

theorem mem_piecesOfSegs {segs : List (Nat × Nat × Nat)} {a b : W64} : (a, b) ∈ piecesOfSegs segs ↔
    ∃ src dst n i, (src, dst, n) ∈ segs ∧ i < n / 4 ∧ a = BitVec.ofNat 64 (src + 4 * i) ∧ b = BitVec.ofNat 64 (dst + 4 * i) := by
  simp only [piecesOfSegs, List.mem_flatMap, List.mem_map, List.mem_range, Prod.mk.injEq, Prod.exists]
  constructor
  · rintro ⟨src, dst, n, hmem, i, hi, rfl, rfl⟩
    exact ⟨src, dst, n, i, hmem, hi, rfl, rfl⟩
  · rintro ⟨src, dst, n, i, hmem, hi, rfl, rfl⟩
    exact ⟨src, dst, n, hmem, i, hi, rfl, rfl⟩

/-- No destination of a copy that is no multicast is gone. -/
theorem planDests_here {s : State} {e : Env} {p : CopyPlan} (h : p.bids = none) : (planDests s e p).2 = false := by
  unfold planDests
  split
  · rfl
  · rw [h]

theorem startCopy_starts (e : Env) (s : State) (p : CopyPlan) (h : p.bids = none) : ∃ id c, AMap.get? s.copies id = none ∧
    e.startCopy s p = { s with copies := AMap.set s.copies id c } ∧ c.world = e.blk.world ∧ c.ctx = e.blk.ctx ∧ c.block = e.b ∧
    c.warp = e.w ∧ c.thread = p.thread ∧ c.batch = e.wp.batch.getD p.thread 1 ∧ c.status = 0#8 ∧ c.bulk = [] ∧
    c.pieces = piecesOfSegs p.segs := by
  obtain ⟨thread, segs, bids⟩ := p
  subst h
  exact ⟨AMap.fresh s.copies, _, AMap.get?_fresh _, rfl, rfl, rfl, rfl, rfl, rfl, rfl,
    congrArg (fun gone => if gone = true then fcTargetGone else 0#8) (planDests_here (s := s) rfl), rfl, rfl⟩

/-! ## Batches (R426, R427) -/

theorem cseal_closes (d : BitVec 8) : Does (.cseal d) (fun e _ _ => dstOk d 1 = true ∧ e.wp.shuttle = true ∧ e.inTry = false ∧
      e.idle = false ∧ Room e (dstNames d 1) ∧ ∀ t, t ∈ e.runners d → e.wp.batch.getD t 1 < 0xffffffff)
    fun e _ s =>
      let up (l : List Nat) := (List.range 16).map fun t => l.getD t 1 + (if t ∈ e.runners d then 1 else 0)
      e.put (s.updWarp e.b e.w fun x => { x with batch := up x.batch }) d 1
      ((e.runners d).map fun t => (t, [BitVec.ofNat 32 (e.wp.batch.getD t 1)])) := by
  refine does_of _ (fun _ => rfl) ?_
  rintro e l s - ⟨hd, hshuttle, hout, hbusy, hroom, hfull⟩
  rw [run_of rfl hd rfl rfl (.inr hout) (.inr hshuttle) rfl (.inr hbusy) (.inr ⟨hroom, hbusy⟩)]
  have hopen : ((e.runners d).any fun t => decide (e.wp.batch.getD t 1 ≥ 0xffffffff)) = false := by
    rw [List.any_eq_false]
    intro t ht
    have := hfull t ht
    simp only [decide_eq_true_eq]
    omega
  simp only [hopen, Bool.false_eq_true, if_false, Env.result, eachThread_eq (A := fun t => e.wp.batch.getD t 1) fun _ _ => rfl,
    List.map_map, List.contains_eq_mem, decide_eq_true_eq]
  rfl

/-- The threads of a cwait and the last batch that each waits for. -/
def waits (e : Env) (d : BitVec 8) (N : Nat → Nat) : List (Nat × Nat) :=
  (e.runners d).map fun t => (t, min (N t) (e.wp.batch.getD t 1 - 1))

section
variable {d n : BitVec 8} {lit : BitVec 32} {N : Nat → Nat} {e : Env} {l : FetchLine} {s : State}

theorem mem_waits {p : Nat × Nat} : p ∈ waits e d N ↔ ∃ t, t ∈ e.runners d ∧ (t, min (N t) (e.wp.batch.getD t 1 - 1)) = p :=
  List.mem_map

theorem covers_iff {t m : Nat} {c : CopyStat} : covers t m c = true ↔ c.thread = t ∧ c.batch ≤ m := by
  simp [covers]

/-- The operands of a cwait give its threads and their last batches. -/
theorem waits_read (hreads : ∀ t, t ∈ e.runners d → e.src32 (.word lit) n t = .ok (N t)) :
    ∃ ns, eachThread (fun t => e.src32 (.word lit) n t) (e.runners d) = .ok ns ∧
      ns.map (fun p => (p.1, min p.2 (e.wp.batch.getD p.1 1 - 1))) = waits e d N :=
  ⟨_, eachThread_eq hreads, List.map_map⟩

/-- No copy that a cwait covers has a fault to report. -/
theorem waits_clean (h : ∀ t c, t ∈ e.runners d → c ∈ e.wp.copyStats → c.thread = t →
      c.batch ≤ min (N t) (e.wp.batch.getD t 1 - 1) → c.reported = true ∨ copyFault c.code = false) :
    firstCopyFault e.wp.copyStats (waits e d N) = none := by
  refine firstCopyFault_none fun p c hp hc hthread hbatch => ?_
  obtain ⟨t, ht, rfl⟩ := mem_waits.mp hp
  exact h t c ht hc hthread hbatch

theorem waits_cover {c : CopyStat} : ((waits e d N).any fun p => covers p.1 p.2 c) =
    decide (∃ t, t ∈ e.runners d ∧ c.thread = t ∧ c.batch ≤ min (N t) (e.wp.batch.getD t 1 - 1)) := by
  rw [Bool.eq_iff_iff, List.any_eq_true, decide_eq_true_eq]
  simp only [waits, List.mem_map, covers_iff]
  constructor
  · rintro ⟨p, ⟨t, ht, rfl⟩, hcov⟩
    exact ⟨t, ht, hcov⟩
  · rintro ⟨t, ht, hcov⟩
    exact ⟨_, ⟨t, ht, rfl⟩, hcov⟩

/-- Whether a target of thread `t`'s copies was gone. -/
theorem waits_gone {t : Nat} (ht : t ∈ e.runners d) : ((waits e d N).any fun p => p.1 == t &&
      e.wp.copyStats.any fun c => covers t p.2 c && !c.reported && c.code == fcTargetGone) =
    decide (∃ c, c ∈ e.wp.copyStats ∧ c.thread = t ∧ c.batch ≤ min (N t) (e.wp.batch.getD t 1 - 1) ∧ c.reported = false ∧
      c.code = fcTargetGone) := by
  rw [Bool.eq_iff_iff, List.any_eq_true, decide_eq_true_eq]
  simp only [waits, List.mem_map, Bool.and_eq_true, beq_iff_eq, List.any_eq_true, covers_iff, Bool.not_eq_true']
  constructor
  · rintro ⟨p, ⟨u, -, rfl⟩, rfl, c, hc, ⟨⟨hthread, hbatch⟩, hrep⟩, hcode⟩
    exact ⟨c, hc, hthread, hbatch, hrep, hcode⟩
  · rintro ⟨c, hc, hthread, hbatch, hrep, hcode⟩
    exact ⟨_, ⟨t, ht, rfl⟩, rfl, c, hc, ⟨⟨hthread, hbatch⟩, hrep⟩, hcode⟩

end

theorem cwait_completes (d n : BitVec 8) (lit : BitVec 32) (N : Nat → Nat) :
    let M (e : Env) (t : Nat) := min (N t) (e.wp.batch.getD t 1 - 1)
    Does (.cwait d n lit) (fun e _ s => dstOk d 1 = true ∧ srcFor d n 1 = true ∧ e.wp.shuttle = true ∧ e.inTry = false ∧
      e.idle = false ∧ Room e (dstNames d 1) ∧ (∀ t, t ∈ e.runners d → e.src32 (.word lit) n t = .ok (N t)) ∧
      (∀ t, t ∈ e.runners d → s.copyDue e.b e.w t (M e t) = false) ∧
      ∀ t c, t ∈ e.runners d → c ∈ e.wp.copyStats → c.thread = t → c.batch ≤ M e t → c.reported = true ∨ copyFault c.code = false)
    fun e _ s =>
      let rest (l : List CopyStat) := l.filter fun c => decide (¬ ∃ t, t ∈ e.runners d ∧ c.thread = t ∧ c.batch ≤ M e t)
      e.put (s.updWarp e.b e.w fun x => { x with copyStats := rest x.copyStats }) d 1
      ((e.runners d).map fun t => (t, [if ∃ c, c ∈ e.wp.copyStats ∧ c.thread = t ∧ c.batch ≤ M e t ∧ c.reported = false ∧
        c.code = fcTargetGone then 0x1d#32 else 0#32])) := by
  refine does_of _ (fun _ => rfl) ?_
  rintro e l s hwf ⟨hd, hn, hshuttle, hout, hbusy, hroom, hreads, hlanded, hclean⟩
  rw [run_of rfl (by simp only [hwf, hd, hn, Bool.and_self]) rfl rfl (.inr hout) (.inr hshuttle) rfl (.inr hbusy)
    (.inr ⟨hroom, hbusy⟩)]
  obtain ⟨ns, hns, hwaits⟩ := waits_read hreads
  have hdue : ((waits e d N).any fun p => s.copyDue e.b e.w p.1 p.2) = false := by
    rw [List.any_eq_false]
    intro p hp
    obtain ⟨t, ht, rfl⟩ := mem_waits.mp hp
    rw [hlanded t ht]
    exact Bool.false_ne_true
  simp only [hns, hwaits, hdue, waits_clean hclean, waits_cover, Bool.false_eq_true, if_false, Env.result]
  rw [eachThread_eq (A := fun t => if ∃ c, c ∈ e.wp.copyStats ∧ c.thread = t ∧ c.batch ≤ min (N t) (e.wp.batch.getD t 1 - 1) ∧
    c.reported = false ∧ c.code = fcTargetGone then fcTargetGone.toNat else 0) fun t ht => by
      rw [waits_gone ht]; simp only [decide_eq_true_eq]]
  simp only [List.map_map]
  refine congrArg Eff.ok (congrArg₂ (fun s rs => e.put s d 1 rs) ?stats (List.map_congr_left fun t _ => ?value))
  case stats => simp only [decide_not]
  case value =>
    simp only [Function.comp]
    split <;> rfl

theorem cwait_waits (d n : BitVec 8) (lit : BitVec 32) (N : Nat → Nat) :
    Parks (.cwait d n lit) (fun e _ s => dstOk d 1 = true ∧ srcFor d n 1 = true ∧ e.wp.shuttle = true ∧
      e.inTry = false ∧ e.idle = false ∧ Room e (dstNames d 1) ∧ (∀ t, t ∈ e.runners d → e.src32 (.word lit) n t = .ok (N t)) ∧
      ∃ t, t ∈ e.runners d ∧ s.copyDue e.b e.w t (min (N t) (e.wp.batch.getD t 1 - 1)) = true) (fun _ _ s => s)
      fun _ _ => .cwait := by
  refine parks_of _ (fun _ => rfl) ?_
  rintro e l s hwf ⟨hd, hn, hshuttle, hout, hbusy, hroom, hreads, t, ht, hflight⟩
  rw [run_of rfl (by simp only [hwf, hd, hn, Bool.and_self]) rfl rfl (.inr hout) (.inr hshuttle) rfl (.inr hbusy)
    (.inr ⟨hroom, hbusy⟩)]
  obtain ⟨ns, hns, hwaits⟩ := waits_read hreads
  have hdue : ((waits e d N).any fun p => s.copyDue e.b e.w p.1 p.2) = true :=
    List.any_eq_true.mpr ⟨_, mem_waits.mpr ⟨t, ht, rfl⟩, hflight⟩
  simp only [hns, hwaits, hdue, if_true]

end Sys2Proof.Machine

namespace Sys2Proof.Claim
open Machine

/-- Settles O35: the plans of the four copy instructions, the copy that a plan starts, and the batches. -/
theorem copiesStart : Obligations.CopiesStart := by
  refine ⟨cp_starts, cp2d_starts, cpGather_starts, cpMcast_starts, ?starts, cseal_closes, cwait_completes, cwait_waits⟩
  intro e s p hbids
  obtain ⟨id, c, hnew, hstart, hworld, hctx, hblock, hwarp, hthread, hbatch, hstatus, hbulk, hpieces⟩ :=
    startCopy_starts e s p hbids
  exact ⟨id, c, hnew, hstart, hworld, hctx, hblock, hwarp, hthread, hbatch, hstatus, hbulk, fun a b => by
    rw [hpieces, mem_piecesOfSegs]⟩

end Sys2Proof.Claim
end

section
/-! PROOFS. Bobbins: what each bob instruction does to the slots (R428 to R432). -/

namespace Sys2Proof.Machine
open Claim

/-- A bobbin that is set up passes the check of the forms that need not consume it. -/
theorem bobPre_producer {e : Env} {n : BitVec 8} {x : Bobbin} (h : e.blk.bob? n.toNat = some x) : bobPre e n false = none := by
  rw [bobPre, h]
  rfl

/-- A warp may consume a bobbin that the weft does not. -/
theorem bobPre_consumer {e : Env} {n : BitVec 8} {x : Bobbin} (h : e.blk.bob? n.toNat = some x) (hx : x.weft = false) :
    bobPre e n true = none := by
  rw [bobPre, h]
  simp [hx]

/-- A bob instruction whose fields are right and whose bobbin passes acts. -/
theorem bob_run {opOk : Bool} {opc : Nat} {pre : Option Flt} {act : State → FetchLine → Eff} {e : Env} {l : FetchLine} {s : State}
    (hop : opOk = true) (hout : e.inTry = false) (hpre : pre = none) :
    ({ opOk := opOk, guarded := false, illegal := some opc, pre := pre, act := act } : LaneSpec).run e l s = act s l :=
  run_of rfl hop rfl rfl (.inr hout) (.inl rfl) hpre (.inl rfl) (.inl rfl)

theorem bobInit_does (d a b c : BitVec 8) (lit : BitVec 24) (base size nslot w3 : Nat) :
    Does (.bobInit d a b c lit) (fun e _ s => d = 0#8 ∧ b = 0#8 ∧ lit = 0#24 ∧ isS c = true ∧
      aligned c 4 = true ∧ e.inTry = false ∧ e.group4 c 0 = .ok [base, size, nslot, w3] ∧
      bobInitOk s e a.toNat [base, size, nslot, w3] = true)
    fun e _ s =>
      let x : Bobbin :=
        { base := base, size := size, nslot := nslot, rels := w3 / 256 % 256, weft := w3.testBit 0
          slots := List.replicate nslot {} }
      s.updBlock e.b fun k => { k with bobs := AMap.set k.bobs a.toNat x } := by
  refine does_of _ (fun _ => rfl) ?_
  rintro e l s hwf ⟨rfl, rfl, rfl, hc, hc4, hout, hwords, hok⟩
  rw [bob_run (by simp only [hwf, hc, hc4, beq_self_eq_true, Bool.and_self]) hout rfl]
  simp only [hwords, hok, Bool.not_true, Bool.false_eq_true, if_false, bits_eq]
  rfl

theorem bobClaim_acts (d n : BitVec 8) : ∃ sp : Env → LaneSpec, (∀ s, exec (.bobClaim d n) s = runLane sp s) ∧
    ∀ {e l s x}, (Instr.bobClaim d n).wf = true → isS d = true → aligned d 2 = true → e.inTry = false →
      e.blk.bob? n.toNat = some x → (sp e).run e l s = if (x.slot x.claimPtr).st = .free
        then .ok ((s.updBlock e.b fun k => k.updBob n.toNat fun _ =>
          { x with slots := x.slots.set x.claimPtr { st := .claimed, lap := (x.slot x.claimPtr).lap + 1 }
                   claimPtr := (x.claimPtr + 1) % x.nslot, last := some x.claimPtr }).updWarp e.b e.w fun v =>
            v.writeUnis e.gen e.inTry (regNo d) (words2 (scratchBase + x.base + x.size * x.claimPtr)))
        else .park s .bobClaim := by
  refine ⟨_, fun _ => rfl, ?_⟩
  intro e l s x hwf hd hd2 hout hx
  rw [bob_run (by simp only [hwf, hd, hd2, Bool.and_self]) hout (bobPre_producer hx)]
  by_cases hfree : (x.slot x.claimPtr).st = .free
  · simp only [hx, hfree, bne_self_eq_false, Bool.false_eq_true, if_false, if_true]
    rfl
  · simp only [hx, bne_iff_ne, ne_eq, hfree, not_false_eq_true, if_true, if_false]

theorem bobExpect_acts (n c : BitVec 8) (lit : BitVec 32) : ∃ sp : Env → LaneSpec,
    (∀ s, exec (.bobExpect n c lit) s = runLane sp s) ∧
    ∀ {e l s} {x : Bobbin} {v i : Nat}, (Instr.bobExpect n c lit).wf = true → srcUOk c 1 = true → e.inTry = false →
      e.srcU (.word lit) c = .ok v → e.blk.bob? n.toNat = some x → x.last = some i →
      ((x.slot i).st = .claimed → v ≠ 0 → (x.slot i).c + v ≤ x.size → (sp e).run e l s =
        .ok (s.updBlock e.b fun k => k.updBob n.toNat fun x =>
          x.updSlot i fun y => ({ y with c := y.c + v, armed := true }).settle)) ∧
      ((x.slot i).st = .filled → (x.slot i).err = true → (sp e).run e l s = .ok s) := by
  refine ⟨_, fun _ => rfl, ?_⟩
  intro e l s x v i hwf hc hout hv hx hlast
  rw [bob_run (by simp only [hwf, hc, Bool.and_self]) hout (bobPre_producer hx)]
  constructor
  · intro hst hne hroom
    have hfits : ¬ (x.slot i).c + v > x.size := by omega
    simp [hv, hx, hlast, hst, hne, hfits]
  · intro hst herr
    simp [hv, hx, hlast, hst, herr]

theorem bobAwait_acts (d n : BitVec 8) : ∃ sp : Env → LaneSpec, (∀ s, exec (.bobAwait d n) s = runLane sp s) ∧
    ∀ {e l s x}, (Instr.bobAwait d n).wf = true → isS d = true → e.inTry = false → e.blk.bob? n.toNat = some x → x.weft = false →
      (sp e).run e l s = if (x.slot (AMap.getD x.ptr e.w 0)).st = .filled
        then .ok (s.updWarp e.b e.w fun v =>
          v.writeUni e.gen e.inTry (regNo d) ((x.slot (AMap.getD x.ptr e.w 0)).status.setWidth 32))
        else .park s .bobAwait := by
  refine ⟨_, fun _ => rfl, ?_⟩
  intro e l s x hwf hd hout hx hweft
  rw [bob_run (by simp only [hwf, hd, Bool.and_self]) hout (bobPre_consumer hx hweft)]
  by_cases hfilled : (x.slot (AMap.getD x.ptr e.w 0)).st = .filled
  · simp only [hx, hfilled, bne_self_eq_false, Bool.false_eq_true, if_false, if_true]
  · simp only [hx, bne_iff_ne, ne_eq, hfilled, not_false_eq_true, if_true, if_false]

theorem bobRel_does (n : BitVec 8) (x : Bobbin) : Does (.bobRel n) (fun e _ _ => e.inTry = false ∧
      e.blk.bob? n.toNat = some x ∧ x.weft = false ∧ (x.slot (AMap.getD x.ptr e.w 0)).st = .filled)
    fun e _ s =>
      let i := AMap.getD x.ptr e.w 0
      s.updBlock e.b fun k => k.updBob n.toNat fun v =>
        let y : BobSlot := if v.rels ≤ (v.slot i).rels + 1 then { lap := (v.slot i).lap }
          else { v.slot i with rels := (v.slot i).rels + 1 }
        { v with slots := v.slots.set i y, ptr := AMap.set v.ptr e.w ((i + 1) % v.nslot) } := by
  refine does_of _ (fun _ => rfl) ?_
  rintro e l s hwf ⟨hout, hx, hweft, hfilled⟩
  rw [bob_run hwf hout (bobPre_consumer hx hweft)]
  simp only [hx, hfilled, bne_self_eq_false, Bool.false_eq_true, if_false]
  rfl

theorem bobSlot_settle (y : BobSlot) :
    y.settle = if y.st = .claimed ∧ y.armed = true ∧ y.c = 0 then { y with st := .filled } else y := by
  unfold BobSlot.settle
  refine if_congr ?_ rfl rfl
  simp [and_assoc]

end Sys2Proof.Machine

namespace Sys2Proof.Claim
open Machine

/-- Settles O36: what each bob instruction does once its checks pass, and when a slot is filled. -/
theorem bobbinsTurn : Obligations.BobbinsTurn := by
  refine ⟨bobInit_does, ?claim, ?claimWaits, ?expect, ?expectFailed, ?await, ?awaitWaits, bobRel_does, bobSlot_settle⟩
  case claim =>
    intro d n x
    obtain ⟨sp, hx, hrun⟩ := bobClaim_acts d n
    refine does_of sp hx ?_
    rintro e l s hwf ⟨hd, hd2, hout, hbob, hfree⟩
    exact (hrun hwf hd hd2 hout hbob).trans (if_pos hfree)
  case claimWaits =>
    intro d n x
    obtain ⟨sp, hx, hrun⟩ := bobClaim_acts d n
    refine parks_of sp hx ?_
    rintro e l s hwf ⟨hd, hd2, hout, hbob, hfree⟩
    exact (hrun hwf hd hd2 hout hbob).trans (if_neg hfree)
  case expect =>
    intro n c lit v x i
    obtain ⟨sp, hx, hrun⟩ := bobExpect_acts n c lit
    refine does_of sp hx ?_
    rintro e l s hwf ⟨hc, hout, hv, hbob, hlast, hst, hne, hroom⟩
    exact (hrun hwf hc hout hv hbob hlast).1 hst hne hroom
  case expectFailed =>
    intro n c lit v x i
    obtain ⟨sp, hx, hrun⟩ := bobExpect_acts n c lit
    refine does_of sp hx ?_
    rintro e l s hwf ⟨hc, hout, hv, hbob, hlast, hst, herr⟩
    exact (hrun hwf hc hout hv hbob hlast).2 hst herr
  case await =>
    intro d n x
    obtain ⟨sp, hx, hrun⟩ := bobAwait_acts d n
    refine does_of sp hx ?_
    rintro e l s hwf ⟨hd, hout, hbob, hweft, hfilled⟩
    exact (hrun hwf hd hout hbob hweft).trans (if_pos hfilled)
  case awaitWaits =>
    intro d n x
    obtain ⟨sp, hx, hrun⟩ := bobAwait_acts d n
    refine parks_of sp hx ?_
    rintro e l s hwf ⟨hd, hout, hbob, hweft, hfilled⟩
    exact (hrun hwf hd hout hbob hweft).trans (if_neg hfilled)

end Sys2Proof.Claim
end

section
/-! PROOFS. The weft stream: its address arithmetic, its loops and its end (R303, R334, R444 to R446). -/

namespace Sys2Proof.Machine
open Claim

/-! ## Address arithmetic (R444) -/

theorem xaddImm_value (a : W64) (i : BitVec 18) : BitVec.ofNat 64 (wrapN 64 (a.toNat + sext 18 i.toNat)) = a + i.signExtend 64 := by
  rw [ofNat_wrapN, sext_eq_toInt, BitVec.ofInt_add]
  congr 1
  exact BitVec.eq_of_toNat_eq (by simp)

theorem xaddShift_value (a b : W64) (n : Nat) : BitVec.ofNat 64 (a.toNat + b.toNat * 2 ^ n) = a + b <<< n := by
  apply BitVec.eq_of_toNat_eq
  simp [BitVec.toNat_add, BitVec.toNat_shiftLeft, Nat.shiftLeft_eq]

theorem xaddImm_does (d a : BitVec 4) (i : BitVec 18) : WDoes (.xaddImm d a i) (fun _ _ _ => True) fun e _ s =>
    s.updWeft e.b fun y => { y with x := y.x.set d.toNat (e.x a + i.signExtend 64) } :=
  wdoes_of _ (funext (execXaddImm.eq_1 d a i)) fun e _ s _ => by rw [xaddImm_value]; rfl

theorem xaddShift_does (d a b sh : BitVec 4) : WDoes (.xaddShift d a b sh) (fun _ _ _ => True) fun e _ s =>
    s.updWeft e.b fun y => { y with x := y.x.set d.toNat (e.x a + e.x b <<< sh.toNat) } :=
  wdoes_of _ (funext (execXaddShift.eq_1 d a b sh)) fun e _ s _ => by rw [xaddShift_value]; rfl

/-! ## Counted loops and jumps (R445, R446) -/

/-- `i` starts counter `k` with the count `c`. -/
def RunsLoop (i : Instr) (k : BitVec 3) (c : WEnv → W32) (dist : BitVec 10) : Prop :=
  exec i = runWeft i.wf fun e s l => e.loop k (c e) dist s l

theorem runsLoop_of {i : Instr} {k : BitVec 3} {c : WEnv → W32} {dist : BitVec 10}
    (h : (∃ n : BitVec 12, i = .wloop k n dist ∧ c = fun _ => BitVec.ofNat 32 (n.toNat + 1)) ∨
      (∃ x, i = .wloopReg k x dist ∧ c = fun e => (e.x x).setWidth 32)) : RunsLoop i k c dist := by
  rcases h with ⟨n, rfl, rfl⟩ | ⟨x, rfl, rfl⟩ <;> rfl

section
variable {i : Instr} {k : BitVec 3} {c : WEnv → W32} {dist : BitVec 10} {s s1 s2 s3 : State} {e : WEnv} {l le : FetchLine} {pc : W64}

/-- A loop with passes to run goes on at the next instruction, its counter set (R445). -/
theorem loop_starts (hi : RunsLoop i k c dist) (hiss : WIssues s e l s1) (hwf : i.wf = true) (hc : c e ≠ 0#32)
    (hpc : continuation l e.wf.pc 1 = .ok pc)
    (hstop : s1.targetFault e.blk.core e.blk.world e.blk.ctx 1 (e.wf.pc + 4#64 * dist.setWidth 64) = (none, s2)) :
    exec i s = .next (((s2.updWeft e.b fun y =>
      { y with w := y.w.set k.toNat { count := c e, first := linkOf l e.wf.pc 1, stop := e.wf.pc + 4#64 * dist.setWidth 64
                                      age := y.starts + 1 }
               starts := y.starts + 1 }).weftRetire e.b).updWeft e.b fun y => { y with pc := pc, park := .ready }) := by
  rw [congrFun hi s, runWeft_eff hiss hwf rfl]
  simp only [WEnv.loop, wtarget_eq, hstop, hc, if_false, hpc]
  rfl

/-- A loop of no passes is skipped: the stream goes on after its last instruction (R445). -/
theorem loop_skips (hi : RunsLoop i k c dist) (hiss : WIssues s e l s1) (hwf : i.wf = true) (hc : c e = 0#32)
    (hstop : s1.targetFault e.blk.core e.blk.world e.blk.ctx 1 (e.wf.pc + 4#64 * dist.setWidth 64) = (none, s2))
    (hline : s2.fetchLine e.blk.core e.blk.world e.blk.ctx (e.wf.pc + 4#64 * dist.setWidth 64) = (.ok le, s3))
    (hpc : continuation le (e.wf.pc + 4#64 * dist.setWidth 64) 1 = .ok pc) :
    exec i s = .next (((s3.updWeft e.b fun y =>
      { y with w := y.w.set k.toNat { y.w.getD k.toNat {} with count := 0#32 } }).weftRetire e.b).updWeft e.b fun y =>
        { y with pc := pc, park := .ready }) := by
  rw [congrFun hi s, runWeft_eff hiss hwf rfl]
  simp only [WEnv.loop, wtarget_eq, hstop, hc, if_true, hline, hpc]
  rfl

theorem wjump_goes {o : BitVec 26} (hiss : WIssues s e l s1) (hwf : (Instr.wjump o).wf = true)
    (htarget : s1.targetFault e.blk.core e.blk.world e.blk.ctx 1 (e.wf.pc + 4#64 * o.signExtend 64) = (none, s2)) :
    exec (.wjump o) s = .next ((s2.weftRetire e.b).updWeft e.b fun y =>
      { y with pc := e.wf.pc + 4#64 * o.signExtend 64, park := .ready }) := by
  show execWjump o s = _
  rw [execWjump, runWeft_eff hiss hwf rfl]
  simp only [wtargetI_eq, htarget]
  rfl

/-- The stream ends without a report where no flag is pending (R303). -/
theorem wend_ends (hiss : WIssues s e l s1) (hflags : wflagsOf e.blk = 0) : exec .wend s = .next
    (((((List.range 16).foldl (fun s h => s.relSlot e.b h) s1).updWeft e.b fun y =>
      { y with ended := true, park := .ready }).weftRetire e.b).updBlock e.b Block.settleSheds) := by
  show execWend s = _
  rw [execWend, runWeft_eff hiss rfl rfl]
  simp only [hflags, if_true]
  rfl

end

/-! ## Where the stream goes on (R334, R445) -/

theorem loopsAt_none {x : Weft} {pc : W64} (h : ∀ k, k < 8 → (x.w.getD k {}).count ≠ 0#32 → (x.w.getD k {}).stop ≠ pc) :
    x.loopsAt pc = [] := by
  have hnone : (((List.range 8).map fun k => (k, x.w.getD k {})).filter fun p => p.2.count != 0#32 && p.2.stop == pc) = [] := by
    rw [List.filter_eq_nil_iff]
    intro p hp
    obtain ⟨k, hk, rfl⟩ := List.mem_map.mp hp
    simpa using h k (List.mem_range.mp hk)
  rw [Weft.loopsAt, hnone]
  rfl

theorem loopsAt_one {x : Weft} {pc : W64} {k : Nat} (hk : k < 8) (hcount : (x.w.getD k {}).count ≠ 0#32)
    (hstop : (x.w.getD k {}).stop = pc)
    (h : ∀ j, j < 8 → j ≠ k → (x.w.getD j {}).count ≠ 0#32 → (x.w.getD j {}).stop ≠ pc) :
    x.loopsAt pc = [(k, x.w.getD k {})] := by
  have hloops : ∀ j, j ∈ List.range 8 → (((fun p : Nat × Loop => p.2.count != 0#32 && p.2.stop == pc) ∘ fun j => (j, x.w.getD j {})) j
      = (j == k)) := by
    intro j hj
    by_cases hjk : j = k
    · subst hjk
      simp only [Function.comp, bne_iff_ne.mpr hcount, beq_iff_eq.mpr hstop, Bool.and_self, beq_self_eq_true]
    · have hoff := h j (List.mem_range.mp hj) hjk
      simp only [Function.comp, beq_eq_false_iff_ne.mpr hjk, Bool.and_eq_false_iff, bne_eq_false_iff_eq, beq_eq_false_iff_ne]
      exact Decidable.or_iff_not_imp_left.mpr hoff
  have hone : ((List.range 8).filter fun j => j == k) = [k] := by
    rw [List.filter_beq, List.count_eq_one_of_mem List.nodup_range (List.mem_range.mpr hk)]
    rfl
  rw [Weft.loopsAt, List.filter_map, List.filter_congr hloops, hone]
  rfl

theorem weftContinue_on {s : State} {b : Nat} {x : Weft} {l : FetchLine} {pc : W64}
    (h : ∀ k, k < 8 → (x.w.getD k {}).count ≠ 0#32 → (x.w.getD k {}).stop ≠ x.pc) (hpc : continuation l x.pc 1 = .ok pc) :
    s.weftContinue b x l = s.updWeft b fun y => { y with pc := pc, w := x.w, park := .ready } := by
  simp only [State.weftContinue, loopsAt_none h, loopEnd, hpc]

theorem weftContinue_back {s : State} {b : Nat} {x : Weft} {l : FetchLine} {k : Nat} (hk : k < 8)
    (hstop : (x.w.getD k {}).stop = x.pc) (hleft : 1 < (x.w.getD k {}).count.toNat)
    (h : ∀ j, j < 8 → j ≠ k → (x.w.getD j {}).count ≠ 0#32 → (x.w.getD j {}).stop ≠ x.pc) :
    s.weftContinue b x l = s.updWeft b fun y =>
      { y with pc := (x.w.getD k {}).first
               w := x.w.set k { x.w.getD k {} with count := (x.w.getD k {}).count - 1#32 }, park := .ready } := by
  have hcount : (x.w.getD k {}).count ≠ 0#32 := by
    intro h0
    rw [h0] at hleft
    exact absurd hleft (by decide)
  simp only [State.weftContinue, loopsAt_one hk hcount hstop h, loopEnd, hleft, if_true]

end Sys2Proof.Machine

namespace Sys2Proof.Claim
open Machine

/-- Settles O39: the address arithmetic, the two starts of a loop, jump and end, and where the stream goes on. -/
theorem weftGoesOn : Obligations.WeftGoesOn := by
  refine ⟨xaddImm_does, xaddShift_does, ?loops, fun o s e l s1 s2 hiss hwf htarget => wjump_goes hiss hwf htarget,
    fun s e l s1 hiss hflags => wend_ends hiss hflags, fun s b x l pc hloops hpc => weftContinue_on hloops hpc,
    fun s b x l k hk hstop hleft hloops => weftContinue_back hk hstop hleft hloops⟩
  intro i k c dist hform
  exact ⟨fun s e l s1 pc hiss hwf hc hpc s2 hstop => loop_starts (runsLoop_of hform) hiss hwf hc hpc hstop,
    fun s e l s1 pc hiss hwf hc s2 le s3 hstop hline hpc => loop_skips (runsLoop_of hform) hiss hwf hc hstop hline hpc⟩

end Sys2Proof.Claim
end

section
/-! PROOFS. The weft sequencer at sheds and bobbins (R305, R311, R312, R442, R443). -/

namespace Sys2Proof.Machine
open Claim

section
variable {e : WEnv} {s : State} {l : FetchLine}

/-- The array steps before an instruction have all been read. -/
theorem reading_false (h : ∀ m, m ∈ e.wf.mmas → m.2 = []) : e.reading = false := by
  rw [WEnv.reading, List.any_eq_false]
  intro m hm
  simp [h m hm]

theorem reading_true (h : ∃ m, m ∈ e.wf.mmas ∧ m.2 ≠ []) : e.reading = true := by
  obtain ⟨m, hm, hne⟩ := h
  exact List.any_eq_true.mpr ⟨m, hm, by simpa using hne⟩

/-- The sequencer sees a bobbin that it consumes, and no other. -/
theorem bob_consumed {n : Nat} {x : Bobbin} (hx : e.blk.bob? n = some x) (hw : x.weft = true) : e.bob n = some x := by
  rw [WEnv.bob, hx]
  exact if_pos hw

theorem bob_other {n : Nat} (h : ∀ x, e.blk.bob? n = some x → x.weft = false) : e.bob n = none := by
  unfold WEnv.bob
  split
  · next x hx => exact if_neg (by simp [h x hx])
  · rfl

end

/-! ## Sheds (R311, R442) -/

theorem wshedArrive_arrives (n : BitVec 4) : WDoes (.wshedArrive n) (fun e _ _ => (e.blk.shed n.toNat).weft = true ∧
      (e.blk.shed n.toNat).weftArrived = false ∧ ∀ m, m ∈ e.wf.mmas → m.2 = [])
    fun e _ s =>
      let set (k : Block) := AMap.modify k.sheds n.toNat fun x => { x with weftArrived := true }
      s.updBlock e.b fun k => ({ k with sheds := set k } : Block).settleSheds := by
  refine wdoes_of _ (funext (execWshedArrive.eq_1 n)) ?_
  rintro e l s ⟨hpart, hclear, hread⟩
  simp only [hpart, hclear, reading_false hread, Bool.not_true, Bool.false_eq_true, if_false]

theorem wshedArrive_waits (n : BitVec 4) : WParks (.wshedArrive n) (fun e _ _ => (e.blk.shed n.toNat).weft = true ∧
      (e.blk.shed n.toNat).weftArrived = true) fun e => .shedArrive n.toNat (e.blk.shed n.toNat).k.toNat := by
  refine wparks_of _ (funext (execWshedArrive.eq_1 n)) ?_
  rintro e l s ⟨hpart, hset⟩
  simp only [hpart, hset, Bool.not_true, Bool.false_eq_true, if_false, if_true]

theorem wshedArrive_reads (n : BitVec 4) : WParks (.wshedArrive n) (fun e _ _ => (e.blk.shed n.toNat).weft = true ∧
      (e.blk.shed n.toNat).weftArrived = false ∧ ∃ m, m ∈ e.wf.mmas ∧ m.2 ≠ []) fun _ => .ready := by
  refine wparks_of _ (funext (execWshedArrive.eq_1 n)) ?_
  rintro e l s ⟨hpart, hclear, hread⟩
  simp only [hpart, hclear, reading_true hread, Bool.not_true, Bool.false_eq_true, if_false, if_true]

theorem wshedWait_passes (n : BitVec 4) : WDoes (.wshedWait n) (fun e _ _ => (e.blk.shed n.toNat).weft = true ∧
      weftStill e.wf.park n.toNat (e.blk.shed n.toNat) = false) fun _ _ s => s := by
  refine wdoes_of _ (funext (execWshedWait.eq_1 n)) ?_
  rintro e l s ⟨hpart, hstill⟩
  simp only [hpart, hstill, Bool.not_true, Bool.false_eq_true, if_false]

theorem wshedWait_waits (n : BitVec 4) : WParks (.wshedWait n) (fun e _ _ => (e.blk.shed n.toNat).weft = true ∧
      weftStill e.wf.park n.toNat (e.blk.shed n.toNat) = true) fun e => .shedWait n.toNat (e.blk.shed n.toNat).k.toNat := by
  refine wparks_of _ (funext (execWshedWait.eq_1 n)) ?_
  rintro e l s ⟨hpart, hstill⟩
  simp only [hpart, hstill, Bool.not_true, Bool.false_eq_true, if_false, if_true]

/-- A sequencer that has parked on a phase waits for that phase, any other while its arrival stands. -/
theorem weftStill_iff (p : Park) (n : Nat) (x : Shed) : weftStill p n x = true ↔
    (∀ m k, p = .shedWait m k → m = n ∧ k = x.k.toNat) ∧ ((∀ m k, p ≠ .shedWait m k) → x.weftArrived = true) := by
  by_cases hp : ∃ m k, p = .shedWait m k
  · obtain ⟨m, k, rfl⟩ := hp
    simp [weftStill]
  · have hne : ∀ m k, p ≠ .shedWait m k := fun m k h => hp ⟨m, k, h⟩
    have hstill : weftStill p n x = x.weftArrived := by
      unfold weftStill
      split
      · exact absurd rfl (hne _ _)
      · rfl
    simp [hstill, hne]

/-- A shed that leaves the sequencer out stops it. -/
theorem wshed_stops (n : BitVec 4) (i : Instr) (h : i = .wshedArrive n ∨ i = .wshedWait n) :
    WFaults i (fun e _ _ => (e.blk.shed n.toNat).weft = false) fun _ => { code := fcWeft, detail := 5#8 } := by
  rcases h with rfl | rfl
  case inl =>
    refine wfaults_of _ (funext (execWshedArrive.eq_1 n)) fun e l s hpart => ?_
    simp only [hpart, Bool.not_false, if_true]
    rfl
  case inr =>
    refine wfaults_of _ (funext (execWshedWait.eq_1 n)) fun e l s hpart => ?_
    simp only [hpart, Bool.not_false, if_true]
    rfl

/-! ## Bobbins (R312, R443) -/

theorem wbobAwait_passes (n : BitVec 3) (x : Bobbin) : WDoes (.wbobAwait n) (fun e _ _ => e.blk.bob? n.toNat = some x ∧
      x.weft = true ∧ (x.slot (AMap.getD x.ptr weftPtr 0)).st = .filled ∧ (x.slot (AMap.getD x.ptr weftPtr 0)).err = false)
    fun _ _ s => s := by
  refine wdoes_of _ (funext (execWbobAwait.eq_1 n)) ?_
  rintro e l s ⟨hx, hweft, hfilled, herr⟩
  simp only [bob_consumed hx hweft, hfilled, herr, bne_self_eq_false, Bool.false_eq_true, if_false]

theorem wbobAwait_fails (n : BitVec 3) (x : Bobbin) : WFaults (.wbobAwait n) (fun e _ _ => e.blk.bob? n.toNat = some x ∧
      x.weft = true ∧ (x.slot (AMap.getD x.ptr weftPtr 0)).st = .filled ∧ (x.slot (AMap.getD x.ptr weftPtr 0)).err = true)
    fun _ => { code := (x.slot (AMap.getD x.ptr weftPtr 0)).status } := by
  refine wfaults_of _ (funext (execWbobAwait.eq_1 n)) ?_
  rintro e l s ⟨hx, hweft, hfilled, herr⟩
  simp only [bob_consumed hx hweft, hfilled, herr, bne_self_eq_false, Bool.false_eq_true, if_false, if_true]

theorem wbobAwait_waits (n : BitVec 3) (x : Bobbin) : WParks (.wbobAwait n) (fun e _ _ => e.blk.bob? n.toNat = some x ∧
      x.weft = true ∧ (x.slot (AMap.getD x.ptr weftPtr 0)).st ≠ .filled) fun _ => .bobAwait := by
  refine wparks_of _ (funext (execWbobAwait.eq_1 n)) ?_
  rintro e l s ⟨hx, hweft, hfilled⟩
  simp only [bob_consumed hx hweft, bne_iff_ne.mpr hfilled, if_true]

theorem wbobRel_releases (n : BitVec 3) (x : Bobbin) : WDoes (.wbobRel n) (fun e _ _ => e.blk.bob? n.toNat = some x ∧
      x.weft = true ∧ (x.slot (AMap.getD x.ptr weftPtr 0)).st = .filled ∧ ∀ m, m ∈ e.wf.mmas → m.2 = [])
    fun e _ s =>
      let i := AMap.getD x.ptr weftPtr 0
      s.updBlock e.b fun k => k.updBob n.toNat fun v =>
        let y : BobSlot := if v.rels ≤ (v.slot i).rels + 1 then { lap := (v.slot i).lap }
          else { v.slot i with rels := (v.slot i).rels + 1 }
        { v with slots := v.slots.set i y, ptr := AMap.set v.ptr weftPtr ((i + 1) % v.nslot) } := by
  refine wdoes_of _ (funext (execWbobRel.eq_1 n)) ?_
  rintro e l s ⟨hx, hweft, hfilled, hread⟩
  simp only [bob_consumed hx hweft, hfilled, reading_false hread, bne_self_eq_false, Bool.false_eq_true, if_false]
  rfl

theorem wbobRel_reads (n : BitVec 3) (x : Bobbin) : WParks (.wbobRel n) (fun e _ _ => e.blk.bob? n.toNat = some x ∧
      x.weft = true ∧ (x.slot (AMap.getD x.ptr weftPtr 0)).st = .filled ∧ ∃ m, m ∈ e.wf.mmas ∧ m.2 ≠ []) fun _ => .ready := by
  refine wparks_of _ (funext (execWbobRel.eq_1 n)) ?_
  rintro e l s ⟨hx, hweft, hfilled, hread⟩
  simp only [bob_consumed hx hweft, hfilled, reading_true hread, bne_self_eq_false, Bool.false_eq_true, if_false, if_true]

/-- A bobbin that the sequencer does not consume stops it. -/
theorem wbob_stops (n : BitVec 3) (i : Instr) (h : i = .wbobAwait n ∨ i = .wbobRel n) :
    WFaults i (fun e _ _ => ∀ x, e.blk.bob? n.toNat = some x → x.weft = false) fun _ => { code := fcWeft, detail := 4#8 } := by
  rcases h with rfl | rfl
  case inl =>
    refine wfaults_of _ (funext (execWbobAwait.eq_1 n)) fun e l s hother => ?_
    simp only [bob_other hother]
    rfl
  case inr =>
    refine wfaults_of _ (funext (execWbobRel.eq_1 n)) fun e l s hother => ?_
    simp only [bob_other hother]
    rfl

end Sys2Proof.Machine

namespace Sys2Proof.Claim
open Machine

/-- Settles O40: what the sequencer does at a shed and at a bobbin, by what it finds there. -/
theorem weftMeets : Obligations.WeftMeets :=
  ⟨wshedArrive_arrives, wshedArrive_waits, wshedArrive_reads, wshedWait_passes, wshedWait_waits, weftStill_iff, wshed_stops,
    wbobAwait_passes, wbobAwait_fails, wbobAwait_waits, wbobRel_releases, wbobRel_reads, wbob_stops⟩

end Sys2Proof.Claim
end

section
/-! PROOFS. The matrix arrays: issue, rows and weights (R284, R288, R298, R299, R307, R436). -/

namespace Sys2Proof.Machine
open Claim

/-! ## The issue of a step (R436) -/

theorem mma_issues (f : BitVec 2) (g c : BitVec 1) (q : BitVec 2) (a sa bb sb : BitVec 4) :
    WDoes (.mma f g c q a sa bb sb) (fun e _ _ => q.toNat < e.blk.nq ∧ (AMap.getD e.wf.mmas q.toNat []).length < 2)
    fun e _ s =>
      let run : MmaRun := { pc := e.wf.pc, f := f.toNat, g := g.toNat, acc := c == 1#1, a := e.x a, sa := e.x sa
                            b := e.x bb, sb := e.x sb }
      s.updWeft e.b fun y => { y with mmas := AMap.set y.mmas q.toNat (AMap.getD e.wf.mmas q.toNat [] ++ [run]) } := by
  refine wdoes_of _ (funext (execMma.eq_1 f g c q a sa bb sb)) ?_
  rintro e l s ⟨harray, hroom⟩
  simp only [not_le.mpr harray, ge_iff_le, not_le.mpr hroom, if_false]

theorem mma_stops (f : BitVec 2) (g c : BitVec 1) (q : BitVec 2) (a sa bb sb : BitVec 4) :
    WFaults (.mma f g c q a sa bb sb) (fun e _ _ => e.blk.nq ≤ q.toNat) fun _ => { code := fcWeft, detail := 2#8 } := by
  refine wfaults_of _ (funext (execMma.eq_1 f g c q a sa bb sb)) fun e l s harray => ?_
  simp only [harray, if_true]
  rfl

/-! ## The rows of a step (R298, R299, R307) -/

section
variable {s s1 s2 : State} {k : Block} {r r1 : MmaRun} {rs : List MmaRun} {tile row : List Byte} {base : List W32}

/-- The row that a step accumulates on, or zeros. -/
theorem mma_base {i q : Nat} {acc : Bool} (hacc : acc = true → k.partialRow q i = .ok base)
    (hzero : acc = false → base = List.replicate 128 0#32) :
    (if acc = true then k.partialRow q i else .ok (List.replicate 128 0#32)) = .ok base := by
  cases acc with
  | true => exact hacc rfl
  | false => rw [hzero rfl]; rfl

theorem mmaComplete_row (hk : s.block? s.args.block = some k) (hrun : k.run = .running) (hm : s.args.m ≠ 1)
    (hsteps : s.mmasOf s.args.block s.args.n = r :: rs) (htile : s.mmaTile k s.args.block r = (.ok tile, s1))
    (hrow : (s1.updWeft s.args.block fun y => y.setMma s.args.n (some { r with tile := tile })).weftFetch k s.args.block
      (r.a + r.sa * BitVec.ofNat 64 r.row).toNat (if r.g = 0 then 64 else 128) 1 = (.ok row, s2))
    (hacc : r.acc = true → k.partialRow s.args.n r.row = .ok base) (hzero : r.acc = false → base = List.replicate 128 0#32) :
    exec .mmaComplete s = .next ((s2.mmaRow s.args.block s.args.n r.row
      (rowSums r.f r.g (base.map fun w => w.toInt) row tile)).updWeft s.args.block fun y =>
        y.setMma s.args.n (if 31 ≤ r.row then none else some { r with row := r.row + 1, tile := tile })) := by
  show execMmaComplete s = _
  simp only [execMmaComplete, hk, hsteps, hrun, bne_self_eq_false, Bool.false_eq_true, if_false, hm, htile, hrow,
    mma_base hacc hzero]

theorem mmaComplete_ahead (hk : s.block? s.args.block = some k) (hrun : k.run = .running) (hm : s.args.m = 1)
    (hsteps : s.mmasOf s.args.block s.args.n = [r, r1]) (htile : s.mmaTile k s.args.block r1 = (.ok tile, s1)) :
    exec .mmaComplete s = .next (s1.updWeft s.args.block fun y =>
      { y with mmas := AMap.set y.mmas s.args.n [r, { r1 with tile := tile }] }) := by
  show execMmaComplete s = _
  simp only [execMmaComplete, hk, hsteps, hrun, bne_self_eq_false, Bool.false_eq_true, if_false, hm, if_true, State.fetchAhead,
    htile]

end

/-! ## The sums of a row (R284, R288) -/

/-- Steps that each add their own term to each of 128 sums add up to the sum of the terms. -/
theorem foldl_sums {step : List Int → Nat → List Int} {term : Nat → Nat → Int}
    (h : ∀ acc k, acc.length = 128 → (step acc k).length = 128 ∧ ∀ j, j < 128 → (step acc k).getD j 0 = acc.getD j 0 + term k j)
    (ks : List Nat) (base : List Int) (hb : base.length = 128) (j : Nat) (hj : j < 128) :
    (ks.foldl step base).getD j 0 = base.getD j 0 + (ks.map fun k => term k j).sum := by
  induction ks generalizing base with
  | nil => simp
  | cons k ks ih =>
    obtain ⟨hlen, hadd⟩ := h base k hb
    rw [List.foldl_cons, ih _ hlen, hadd j hj, List.map_cons, List.sum_cons, add_assoc]

/-- One index of the reduction: a product for each column, none for an activation of 0. -/
theorem rowStep_adds (x : Int) (w : Nat → Int) (acc : List Int) (h : acc.length = 128) :
    (if x = 0 then acc else List.zipWith (fun p j => p + x * w j) acc (List.range 128)).length = 128 ∧
      ∀ j, j < 128 → (if x = 0 then acc else List.zipWith (fun p j => p + x * w j) acc (List.range 128)).getD j 0 =
        acc.getD j 0 + x * w j := by
  by_cases hx : x = 0
  · simp [hx, h]
  · rw [if_neg hx]
    have hlen : (List.zipWith (fun p j => p + x * w j) acc (List.range 128)).length = 128 := by simp [h]
    refine ⟨hlen, fun j hj => ?_⟩
    rw [List.getD_eq_getElem _ _ (by omega), List.getD_eq_getElem _ _ (by omega), List.getElem_zipWith, List.getElem_range]

theorem rowSums_sum (f g : Nat) (base : List Int) (a tile : List Byte) (j : Nat) (hb : base.length = 128) (hj : j < 128) :
    (rowSums f g base a tile).getD j 0 = base.getD j 0 +
      ((List.range 64).map fun k => actAt g a k * weightAt f ((tile.drop (bRowBytes f * k)).take (bRowBytes f)) j).sum :=
  foldl_sums (fun acc k h => rowStep_adds (actAt g a k) (weightAt f ((tile.drop (bRowBytes f * k)).take (bRowBytes f))) acc h) _ base hb
    j hj

/-! ## The partial buffer and the flag of an overflow (R284) -/

theorem ofNat_wrap32 (z : Int) : BitVec.ofNat 32 (wrapN 32 z) = BitVec.ofInt 32 z := by
  apply BitVec.eq_of_toNat_eq
  simp only [wrapN, BitVec.toNat_ofNat, BitVec.toNat_ofInt]
  have h := Int.emod_nonneg z (b := ((2 ^ 32 : Nat) : Int)) (by norm_num)
  have h2 := Int.emod_lt_of_pos z (b := ((2 ^ 32 : Nat) : Int)) (by norm_num)
  push_cast at *
  omega

theorem mmaRow_writes (s : State) (b q i : Nat) (sums : List Int) (k : Block) (y : Weft) (hk : s.block? b = some k)
    (hy : k.weft = some y) : ∃ k', (s.mmaRow b q i sums).block? b = some k' ∧
    AMap.get? k'.pbuf (32 * q + i) = some (sums.map fun p => BitVec.ofInt 32 p) ∧
    AMap.get? k'.pbTags (32 * q + i) = some (List.replicate 32 (k.gens.getD q 0)) ∧
    k'.weft = some { y with povf := y.povf || sums.any fun p => decide (p < -(2 ^ 31) ∨ 2 ^ 31 - 1 < p) } := by
  refine ⟨_, by rw [State.mmaRow, State.updWeft, block?_updBlock, if_pos rfl, block?_updBlock, if_pos rfl, hk]; rfl, ?_, ?_, ?_⟩
  · simp only [Block.putRow, AMap.get?_set_self, ofNat_wrap32]
  · exact AMap.get?_set_self ..
  · show Option.map _ k.weft = _
    rw [hy]
    rfl

/-! ## Ternary weights (R298) -/

theorem weightAt_ternary (v : BitVec 8) (row : List Byte) (j : Nat) (hv : row.getD (j / 5) 0#8 = v) :
    weightAt 0 row j = if 243 ≤ v.toNat then 0 else if v.toNat / 3 ^ (j % 5) % 3 = 2 then -1
      else ((v.toNat / 3 ^ (j % 5) % 3 : Nat) : Int) := by
  simp only [weightAt, hv]
  refine if_congr Iff.rfl rfl ?_
  have hdigit : v.toNat / 3 ^ (j % 5) % 3 < 3 := Nat.mod_lt _ (by decide)
  interval_cases v.toNat / 3 ^ (j % 5) % 3 <;> rfl

end Sys2Proof.Machine

namespace Sys2Proof.Claim
open Machine

/-- Settles O41: the issue of a step, its rows, their exact sums, and the ternary weights. -/
theorem arraysMultiply : Obligations.ArraysMultiply :=
  ⟨mma_issues, mma_stops,
    fun _ _ _ _ _ _ _ _ _ hk hrun hm hsteps htile hrow hacc hzero => mmaComplete_row hk hrun hm hsteps htile hrow hacc hzero,
    fun _ _ _ _ _ _ hk hrun hm hsteps htile => mmaComplete_ahead hk hrun hm hsteps htile,
    rowSums_sum, mmaRow_writes, fun v row j _ hv => weightAt_ternary v row j hv⟩

end Sys2Proof.Claim
end

section
/-! PROOFS. Accumulator slots: terms, windows and the slot of a handle (R292, R294, R309, R310, R437 to R440). -/

namespace Sys2Proof.Machine
open Claim

/-! ## A term (R292) -/

/-- What a term adds to its window: P × 2^d, its fraction dropped. -/
def accShift (p d : Int) : Int := if 0 ≤ d then p * (2 ^ d.toNat : Nat) else p / ((2 ^ (-d).toNat : Nat) : Int)

/-- Whether a term has a fraction. -/
def accDrops (p d : Int) : Bool := decide (d < 0) && decide (p % ((2 ^ (-d).toNat : Nat) : Int) ≠ 0)

theorem accTerm_eq (w : W64) (p d : Int) : accTerm w p d =
    if 2 ^ 63 - 1 < w.toInt + accShift p d then (BitVec.ofInt 64 (2 ^ 63 - 1), true, accDrops p d)
    else if w.toInt + accShift p d < -(2 ^ 63) then (BitVec.ofInt 64 (-(2 ^ 63)), true, accDrops p d)
    else (BitVec.ofInt 64 (w.toInt + accShift p d), false, accDrops p d) := rfl

theorem accTerm_toInt (w : W64) (p d : Int) :
    (accTerm w p d).1.toInt = max (-(2 ^ 63)) (min (2 ^ 63 - 1) (w.toInt + accShift p d)) := by
  rw [accTerm_eq]
  split
  case isTrue habove =>
    rw [min_eq_left (by omega), max_eq_right (by omega)]
    exact BitVec.toInt_ofInt_eq_self (by decide) (by omega) (by omega)
  case isFalse habove =>
    rw [min_eq_right (by omega)]
    split
    case isTrue hbelow =>
      rw [max_eq_left (by omega)]
      exact BitVec.toInt_ofInt_eq_self (by decide) (by omega) (by omega)
    case isFalse hbelow =>
      rw [max_eq_right (by omega)]
      exact BitVec.toInt_ofInt_eq_self (by decide) (by omega) (by omega)

theorem accTerm_saturated (w : W64) (p d : Int) : (accTerm w p d).2.1 = true ↔
    2 ^ 63 - 1 < w.toInt + accShift p d ∨ w.toInt + accShift p d < -(2 ^ 63) := by
  rw [accTerm_eq]
  split
  case isTrue habove => simp only [habove, true_or]
  case isFalse habove =>
    split
    case isTrue hbelow => simp only [hbelow, or_true]
    case isFalse hbelow => simp only [habove, hbelow, or_self, Bool.false_eq_true]

theorem accTerm_inexact (w : W64) (p d : Int) : (accTerm w p d).2.2 = accDrops p d := by
  rw [accTerm_eq]
  split
  · rfl
  · split <;> rfl

/-- Without a fraction a term is P × 2^d. -/
theorem accShift_whole {p d : Int} (h : 0 ≤ d) : (accShift p d : Rat) = p * 2 ^ d ∧ accDrops p d = false := by
  obtain ⟨n, rfl⟩ := Int.eq_ofNat_of_zero_le h
  refine ⟨?_, by simp [accDrops]⟩
  simp [accShift]

/-- A negative exponent divides: what is left over tells whether bits are dropped. -/
theorem accShift_divides {p : Int} {n : Nat} (h : 0 < n) : accShift p (-(n : Int)) = p / ((2 ^ n : Nat) : Int) ∧
    accDrops p (-(n : Int)) = decide (p % ((2 ^ n : Nat) : Int) ≠ 0) := by
  have hneg : ¬ 0 ≤ -(n : Int) := by omega
  constructor
  · rw [accShift, if_neg hneg, neg_neg, Int.toNat_natCast]
  · simp [accDrops, h]

/-- The quotient is exact where nothing is left over. -/
theorem quotient_exact (p : Int) {q : Nat} (hq : 0 < q) : ((p / (q : Int) : Int) : Rat) = p / q ↔ p % (q : Int) = 0 := by
  have hq' : (q : Rat) ≠ 0 := by exact_mod_cast hq.ne'
  have hdiv := Int.ediv_mul_add_emod p q
  rw [eq_div_iff hq']
  constructor
  · intro h
    have hmul : p / (q : Int) * q = p := by exact_mod_cast h
    omega
  · intro h
    rw [h, add_zero] at hdiv
    exact_mod_cast hdiv

/-- The floor of P × 2^d, exact where no bits are dropped. -/
theorem accShift_spec (p d : Int) : (accShift p d : Rat) ≤ p * 2 ^ d ∧ (p : Rat) * 2 ^ d < accShift p d + 1 ∧
    (accDrops p d = true ↔ (accShift p d : Rat) ≠ p * 2 ^ d) := by
  by_cases h : 0 ≤ d
  case pos =>
    obtain ⟨hwhole, hdrops⟩ := accShift_whole (p := p) h
    rw [hwhole, hdrops]
    exact ⟨le_refl _, lt_add_one _, by simp⟩
  case neg =>
    obtain ⟨n, hn⟩ := Int.eq_ofNat_of_zero_le (show 0 ≤ -d by omega)
    obtain rfl : d = -(n : Int) := by omega
    obtain ⟨hquot, hdrops⟩ := accShift_divides (p := p) (n := n) (by omega)
    have hvalue : (p : Rat) * 2 ^ (-(n : Int)) = p / ((2 ^ n : Nat) : Rat) := by
      rw [zpow_neg, zpow_natCast, div_eq_mul_inv, Nat.cast_pow]
      rfl
    have hfloor : p / ((2 ^ n : Nat) : Int) = ⌊(p : Rat) / ((2 ^ n : Nat) : Rat)⌋ := (Rat.floor_intCast_div_natCast p (2 ^ n)).symm
    rw [hdrops, hquot, hvalue]
    refine ⟨?_, ?_, ?_⟩
    · rw [hfloor]; exact Int.floor_le _
    · rw [hfloor]; exact Int.lt_floor_add_one _
    · rw [decide_eq_true_eq, ne_eq, ne_eq, quotient_exact p (by positivity)]

/-! ## A slot (R292, R310) -/

theorem accTerms_fst (a : Int) (ws : List W64) (ts : List (Option (Int × Int))) :
    (accTerms a ws ts).map Prod.fst = (ws.zip ts).map fun p => match p.2 with
      | none => p.1
      | some (m, e) => (accTerm p.1 m (e - a)).1 := by
  rw [accTerms, List.map_zipWith, List.map_zip_eq_zipWith]
  refine congrArg (fun f => List.zipWith f ws ts) (funext₂ fun w t => ?_)
  cases t <;> rfl

theorem add_without {x : AccSlot} {gen : Nat} {ts : List (Option (Int × Int))} (hx : x.anchor = none) (h : ∀ t, t ∈ ts → t = none) :
    x.add gen ts = x := by
  have hnone : (ts.findSome? fun t => t) = none := List.findSome?_eq_none_iff.mpr h
  simp only [AccSlot.add, hx, hnone]
  rfl

theorem add_anchored {x : AccSlot} {gen : Nat} {ts : List (Option (Int × Int))} {a : Int} (hx : x.anchor = some a) :
    (x.add gen ts).anchor = some a ∧ (x.add gen ts).tags = List.replicate 512 gen ∧
      (x.add gen ts).win = (accTerms a x.windows ts).map Prod.fst := by
  simp only [AccSlot.add, hx]
  exact ⟨rfl, rfl, rfl⟩

/-- The first term anchors a slot 16 places below itself. -/
theorem add_anchors {x : AccSlot} {gen : Nat} {ts : List (Option (Int × Int))} {m e : Int} (hx : x.anchor = none)
    (h : ts.findSome? id = some (m, e)) :
    (x.add gen ts).anchor = some (max (-32768) (min 32767 (e - 16))) ∧ (x.add gen ts).tags = List.replicate 512 gen := by
  have hfirst : (ts.findSome? fun t => t) = some (m, e) := h
  simp only [AccSlot.add, hx, hfirst]
  exact ⟨rfl, rfl⟩

theorem relSlot_frees {s : State} {b h n : Nat} {k : Block} {y : Weft} (hk : s.block? b = some k) (hy : k.weft = some y)
    (hn : AMap.get? y.handles h = some n) : s.relSlot b h = ((s.updBlock b fun k =>
      { k with slots := AMap.erase k.slots n }).updWeft b fun y => { y with handles := AMap.erase y.handles h }) := by
  simp only [State.relSlot, hk, hy, hn]

/-! ## The instructions (R437 to R440) -/

/-- The terms of partial sums and their scales, numbered by `ks`. -/
theorem scaled_terms (ps : List Int) (ks : List Nat) (ra cb : Nat → Nat) :
    List.zipWith (fun p (k : Nat) => (scaleOf (ra (k / 128)) (cb (k % 128))).map fun sc => (p, sc)) ps ks =
      (ps.zip ks).map fun p => if ra (p.2 / 128) = 0 ∨ cb (p.2 % 128) = 0 then none
        else some (p.1, (ra (p.2 / 128) : Int) - 512 + ((cb (p.2 % 128) : Int) - 512)) := by
  rw [List.map_zip_eq_zipWith]
  refine congrArg (fun f => List.zipWith f ps ks) (funext₂ fun p k => ?_)
  show Option.map _ (scaleOf _ _) = if ra (k / 128) = 0 ∨ cb (k % 128) = 0 then none else _
  unfold scaleOf
  split <;> rfl

/-- A fold of the array of `q` goes on once the array is idle and the handle has a slot. -/
theorem scaccPre_goes {e : WEnv} {s : State} {q n : Nat} {h : BitVec 4} {x : AccSlot} {go : Nat → AccSlot → WEff}
    (hq : q < e.blk.nq) (hidle : AMap.getD e.wf.mmas q [] = []) (hslot : SlotOf e h n x) : e.scaccPre q h s go = go n x := by
  have hslot' : e.slotFor h = some (n, x) := hslot
  simp only [WEnv.scaccPre, not_le.mpr hq, if_false, hidle, List.isEmpty_nil, Bool.not_true, Bool.false_eq_true, hslot']

theorem scaccWith_adds {e : WEnv} {s : State} {q n : Nat} {h : BitVec 4} {x : AccSlot} {ps : List Int} (ra cb : Nat → Nat)
    (hps : e.blk.partials q = .ok ps) :
    e.scaccWith q h n x ra cb s = .ok (s.putSlot e.b h n (x.add (e.blk.gens.getD (n / 16) 0) (termsOf ps ra cb))) := by
  unfold WEnv.scaccWith termsOf
  generalize List.range 4096 = ks
  simp only [hps, scaled_terms]

theorem scaccU_adds (q : BitVec 2) (h r c : BitVec 4) (n : Nat) (x : AccSlot) (ps : List Int) : WDoes (.scaccU q h r c)
    (fun e _ _ => q.toNat < e.blk.nq ∧ AMap.getD e.wf.mmas q.toNat [] = [] ∧ SlotOf e h n x ∧ e.blk.partials q.toNat = .ok ps)
    fun e _ s => s.putSlot e.b h n (x.add (e.blk.gens.getD (n / 16) 0)
      (termsOf ps (fun _ => (e.x r).toNat % 1024) fun _ => (e.x c).toNat % 1024)) := by
  refine wdoes_of _ (funext (execScaccU.eq_1 q h r c)) ?_
  rintro e l s ⟨hq, hidle, hslot, hps⟩
  exact (scaccPre_goes hq hidle hslot).trans (scaccWith_adds _ _ hps)

theorem scaccV_adds (q : BitVec 2) (h r c : BitVec 4) (n : Nat) (x : AccSlot) (ps : List Int) (ra cb : List Byte) (s1 s2 : State) :
    WDoes (.scaccV q h r c) (fun e _ s => q.toNat < e.blk.nq ∧
      AMap.getD e.wf.mmas q.toNat [] = [] ∧ SlotOf e h n x ∧ e.blk.partials q.toNat = .ok ps ∧
      s.weftCheck e.blk e.b (e.x r).toNat 64 2 false = .ok () ∧ s.weftCheck e.blk e.b (e.x c).toNat 256 2 false = .ok () ∧
      s.weftRead e.b (e.x r).toNat 64 = (.ok ra, s1) ∧ s1.weftRead e.b (e.x c).toNat 256 = (.ok cb, s2))
    fun e _ _ => s2.putSlot e.b h n (x.add (e.blk.gens.getD (n / 16) 0) (termsOf ps
      (fun i => leNat ((ra.drop (2 * i)).take 2) % 1024) fun j => leNat ((cb.drop (2 * j)).take 2) % 1024)) := by
  refine wdoes_of _ (funext (execScaccV.eq_1 q h r c)) ?_
  rintro e l s ⟨hq, hidle, hslot, hps, hrows, hcols, hra, hcb⟩
  refine (scaccPre_goes hq hidle hslot).trans ?_
  simp only [hrows, hcols, hra, hcb]
  exact scaccWith_adds _ _ hps

/-- A row of int32 values as terms of one exponent. -/
theorem accLd_terms (ex : W64) (rows : List (List Byte)) :
    (rows.flatMap fun row => (List.range 128).map fun j => some (sext 32 (leWord row (4 * j) 4), sext 16 ex.toNat)) =
      rows.flatMap fun row => (List.range 128).map fun j =>
        some (val 32 true (leNat ((row.drop (4 * j)).take 4) % 2 ^ 32), (ex.setWidth 16).toInt) := by
  have hex : sext 16 ex.toNat = (ex.setWidth 16).toInt := by
    rw [← sext_eq_toInt, BitVec.toNat_setWidth, sext_mod]
  simp only [hex, sext_eq_val_mod]
  rfl

theorem accLd_adds (h a st ex : BitVec 4) (n : Nat) (x : AccSlot) (rows : List (List Byte)) (s1 : State) : WDoes (.accLd h a st ex)
    (fun e _ s => SlotOf e h n x ∧ s.weftChecks e.blk e.b 512 4 false (rowAddrs (e.x a) (e.x st) 32) = .ok () ∧
      State.weftRows e.b 512 (rowAddrs (e.x a) (e.x st) 32) s = (.ok rows, s1))
    fun e _ _ => s1.putSlot e.b h n (x.add (e.blk.gens.getD (n / 16) 0) (rows.flatMap fun row => (List.range 128).map fun j =>
      some (val 32 true (leNat ((row.drop (4 * j)).take 4) % 2 ^ 32), ((e.x ex).setWidth 16).toInt))) := by
  refine wdoes_of _ (funext (execAccLd.eq_1 h a st ex)) ?_
  rintro e l s ⟨hslot, hchecks, hrows⟩
  have hslot' : e.slotFor h = some (n, x) := hslot
  simp only [hslot', hchecks, hrows, accLd_terms]

theorem accSt_writes (t m : BitVec 2) (h a st : BitVec 4) (n : Nat) (s1 : State) : WDoes (.accSt t m h a st)
    (fun e _ s => AMap.get? e.wf.handles h.toNat = some n ∧
      let size := if t = 1#2 ∨ t = 2#2 then 2 else 4
      let x := AMap.getD e.blk.slots n {}
      s.weftChecks e.blk e.b (128 * size) size true (rowAddrs (e.x a) (e.x st) 32) = .ok () ∧
      State.weftWrite e.b (((rowAddrs (e.x a) (e.x st) 32).zip (List.range 32)).map fun p =>
        (p.1, (((x.windows.drop (128 * p.2)).take 128).map (accBytes t.toNat m.toNat x)).flatten)) s = (.ok (), s1))
    fun _ _ _ => s1 := by
  refine wdoes_of _ (funext (execAccSt.eq_1 t m h a st)) ?_
  rintro e l s ⟨hheld, hchecks, hwrite⟩
  simp only [hheld, hchecks, hwrite]

theorem accSt_stops (t m : BitVec 2) (h a st : BitVec 4) : WFaults (.accSt t m h a st)
    (fun e _ _ => AMap.get? e.wf.handles h.toNat = none) fun _ => { code := fcWeft, detail := 3#8 } := by
  refine wfaults_of _ (funext (execAccSt.eq_1 t m h a st)) fun e l s hnone => ?_
  simp only [hnone]
  rfl

theorem accZero_takes (h : BitVec 4) (n : Nat) (x : AccSlot) : WDoes (.accZero h) (fun e _ _ => SlotOf e h n x)
    fun e _ s => s.putSlot e.b h n {} := by
  refine wdoes_of _ (funext (execAccZero.eq_1 h)) fun e l s hslot => ?_
  have hslot' : e.slotFor h = some (n, x) := hslot
  simp only [hslot']

theorem accZero_stops (h : BitVec 4) : WFaults (.accZero h) (fun e _ _ => e.slotFor h = none) fun _ => { code := fcAccFull } := by
  refine wfaults_of _ (funext (execAccZero.eq_1 h)) fun e l s hnone => ?_
  simp only [hnone]

theorem accRel_frees (h : BitVec 4) : WDoes (.accRel h) (fun _ _ _ => True) fun e _ s => s.relSlot e.b h.toNat :=
  wdoes_of _ (funext (execAccRel.eq_1 h)) fun _ _ _ _ => rfl

end Sys2Proof.Machine

namespace Sys2Proof.Claim
open Machine

/-- Settles O42: the instructions, the floor that a term adds, and the anchor and the windows of a slot. -/
theorem accumulatorsAdd : Obligations.AccumulatorsAdd := by
  refine ⟨scaccU_adds, scaccV_adds, accLd_adds, accSt_writes, accSt_stops, accZero_takes, accZero_stops, accRel_frees,
    fun s b h k y n hk hy hn => relSlot_frees hk hy hn, ?term, ?slot⟩
  case term =>
    intro w p d
    obtain ⟨hle, hlt, hexact⟩ := accShift_spec p d
    exact ⟨accShift p d, hle, hlt, accTerm_toInt w p d, accTerm_saturated w p d, by rw [accTerm_inexact, hexact]⟩
  case slot =>
    intro x gen ts
    refine ⟨add_without, fun a ha => ?_, fun m e hx h => add_anchors hx h⟩
    obtain ⟨hanchor, htags, hwin⟩ := add_anchored (gen := gen) (ts := ts) ha
    exact ⟨hanchor, htags, hwin.trans (accTerms_fst a x.windows ts)⟩

end Sys2Proof.Claim
end

section
/-! PROOFS. The encoder and the decoders agree, format by format (R54, R332, R337, R341 to R344, R352). -/

namespace Sys2Proof.Machine
open Claim

/-! ## Fields of concatenated words -/

/-- A field of a concatenation whose width is written as a number (a word of 32 bits) lies in its low or in its high part. -/
@[simp] theorem field_ofLow {v w lo n : Nat} {x : BitVec v} {y : BitVec w} (h : lo + n ≤ w) :
    BitVec.extractLsb' lo n (@HAppend.hAppend _ _ (no_index (BitVec (v + w))) _ x y) = y.extractLsb' lo n := field_low h

@[simp] theorem field_ofHigh {v w lo n : Nat} {x : BitVec v} {y : BitVec w} (h : w ≤ lo) :
    BitVec.extractLsb' lo n (@HAppend.hAppend _ _ (no_index (BitVec (v + w))) _ x y) = x.extractLsb' (lo - w) n := field_high h

/-! ## Transducer and weft words: one word each -/

/-- A word that decodes gives an instruction of the transducers, opcode by opcode. -/
theorem decodeTrans_set {w : W32} {j : Instr} (h : decodeTrans w = .ok j) : j.set = some .trans := by
  unfold decodeTrans zeroed at h
  repeat' split at h
  all_goals (cases h <;> rfl)

theorem decodeTrans_encode {i : Instr} (hset : i.set = some .trans) :
    ∃ w, encode i = some [w] ∧ decodeTrans w = .ok i := by
  cases i with
  | tnop | tend | tfail => exact ⟨_, rfl, rfl⟩
  | tli | tmov | tmovSel | tbr | tbrC | tbrNc | tloop | tloopReg | ttab | tvld | tvle | talignI | talignO | tcnt =>
    exact ⟨_, rfl, by simp [decodeTrans, zeroed, fld, -BitVec.extractLsb'_toNat]⟩
  | tadd | tsub | tand | tor | txor | tshl | tshr | tcmp =>
    exact ⟨_, rfl, by simp [decodeTrans, fld, -BitVec.extractLsb'_toNat]⟩
  | tget | tpeek | tout | tcopy | tfill | tskip =>
    exact ⟨_, rfl, by simp [decodeTrans, zeroed, fld, -BitVec.extractLsb'_toNat]⟩
  | _ => cases hset

theorem decodeWeft_encode {i : Instr} (hset : i.set = some .weft) :
    ∃ w, encode i = some [w] ∧ decodeWeft w = .ok i := by
  cases i with
  | wend => exact ⟨_, rfl, rfl⟩
  | mma | scaccV | scaccU | accLd | accSt | accZero | accRel =>
    exact ⟨_, rfl, by simp [decodeWeft, zeroed, fld, -BitVec.extractLsb'_toNat]⟩
  | wshedArrive | wshedWait | wbobAwait | wbobRel =>
    exact ⟨_, rfl, by simp [decodeWeft, zeroed, fld, -BitVec.extractLsb'_toNat]⟩
  | xaddImm | xaddShift | wloop | wloopReg | wjump =>
    exact ⟨_, rfl, by simp [decodeWeft, zeroed, fld, -BitVec.extractLsb'_toNat]⟩
  | _ => cases hset

theorem encode_step {i : Instr} (hset : i.set = none) : encode i = none := by
  revert hset
  cases i <;> simp [encode, Instr.set]

/-! ## Lane words -/

/-- The words of lane instruction `i` are as many as the first says, and are decoded back whatever follows them. -/
def LaneAgrees (i : Instr) : Prop :=
  ∃ w ws, encode i = some (w :: ws) ∧ ws.length + 1 = laneLen w ∧ ∀ next, decodeLane w (ws.headD next) = .ok i

variable {i : Instr} {w x lit : W32} {a b : BitVec 8}

theorem laneAgrees_oneWord (henc : encode i = some [w]) (hlen : ∀ x y, lenOf (fld w 24 8).toNat x y = 1)
    (hdec : ∀ next, decodeLane w next = .ok i) : LaneAgrees i :=
  ⟨w, [], henc, ((laneLen_fields w).trans (hlen _ _)).symm, hdec⟩

theorem laneAgrees_twoWords (henc : encode i = some [w, x]) (hlen : ∀ x y, lenOf (fld w 24 8).toNat x y = 2)
    (hdec : decodeLane w x = .ok i) : LaneAgrees i :=
  ⟨w, [x], henc, ((laneLen_fields w).trans (hlen _ _)).symm, fun _ => hdec⟩

/-- Where `c` says whether the literal word is there: without it the literal is 0, so that the decoder, which reads the
second word under `c` alone, finds the literal in either case. -/
theorem laneAgrees_literal {c : Bool} (henc : encode i = some (w :: if c then [lit] else []))
    (hlit : c = false → lit = 0#32) (hlen : laneLen w = if c then 2 else 1)
    (hdec : ∀ next, (if c then next else 0#32) = lit → decodeLane w next = .ok i) : LaneAgrees i := by
  refine ⟨w, _, henc, ?_, fun next => hdec _ ?_⟩
  · rw [hlen]; cases c <;> rfl
  · cases c
    · exact (hlit rfl).symm
    · rfl

theorem litOk1_zero (h : litOk1 lit a = true) (ha : (a == 0xff#8) = false) : lit = 0#32 := by
  simpa [litOk1, beq_eq_false_iff_ne.mp ha] using h

theorem litOk_zero (h : litOk lit a b = true) (hab : (a == 0xff#8 || b == 0xff#8) = false) : lit = 0#32 := by
  obtain ⟨ha, hb⟩ := Bool.or_eq_false_iff.mp hab
  simpa [litOk, beq_eq_false_iff_ne.mp ha, beq_eq_false_iff_ne.mp hb] using h

/-- Field a alone may name the literal. -/
theorem laneAgrees_fieldA (henc : encode i = some (w :: if a == 0xff#8 then [lit] else [])) (hlit : litOk1 lit a = true)
    (ha : fld w 8 8 = a) (hlen : ∀ x y, lenOf (fld w 24 8).toNat x y = if x == 255 then 2 else 1)
    (hdec : ∀ next, (if a == 0xff#8 then next else 0#32) = lit → decodeLane w next = .ok i) : LaneAgrees i :=
  laneAgrees_literal henc (litOk1_zero hlit) (by rw [laneLen_fields, hlen, ha, Laws.byte_ff]) hdec

/-- Field b alone may name the literal. -/
theorem laneAgrees_fieldB (henc : encode i = some (w :: if b == 0xff#8 then [lit] else [])) (hlit : litOk1 lit b = true)
    (hb : fld w 0 8 = b) (hlen : ∀ x y, lenOf (fld w 24 8).toNat x y = if y == 255 then 2 else 1)
    (hdec : ∀ next, (if b == 0xff#8 then next else 0#32) = lit → decodeLane w next = .ok i) : LaneAgrees i :=
  laneAgrees_literal henc (litOk1_zero hlit) (by rw [laneLen_fields, hlen, hb, Laws.byte_ff]) hdec

/-- Field a or field b may name the literal. -/
theorem laneAgrees_fieldsAB (henc : encode i = some (w :: if a == 0xff#8 || b == 0xff#8 then [lit] else []))
    (hlit : litOk lit a b = true) (ha : fld w 8 8 = a) (hb : fld w 0 8 = b)
    (hlen : ∀ x y, lenOf (fld w 24 8).toNat x y = if x == 255 || y == 255 then 2 else 1)
    (hdec : ∀ next, (if a == 0xff#8 || b == 0xff#8 then next else 0#32) = lit → decodeLane w next = .ok i) :
    LaneAgrees i :=
  laneAgrees_literal henc (litOk_zero hlit) (by rw [laneLen_fields, hlen, ha, hb, Laws.byte_ff, Laws.byte_ff]) hdec

/-- The four bytes of a word of format G3. -/
theorem fld_bytes (op d a b : BitVec 8) : fld (op ++ d ++ a ++ b) 24 8 = op ∧ fld (op ++ d ++ a ++ b) 16 8 = d ∧
    fld (op ++ d ++ a ++ b) 8 8 = a ∧ fld (op ++ d ++ a ++ b) 0 8 = b := by
  simp [fld, -BitVec.extractLsb'_toNat]

/-- An instruction of format G3 with two operand fields, from what the decoder makes of its opcode. -/
theorem laneAgrees_g3 {op d : BitVec 8} {mk : BitVec 8 → BitVec 8 → BitVec 8 → W32 → Instr}
    (henc : encode (mk d a b lit) = some ((op ++ d ++ a ++ b) :: if a == 0xff#8 || b == 0xff#8 then [lit] else []))
    (hlit : litOk lit a b = true) (hlen : ∀ x y, lenOf op.toNat x y = if x == 255 || y == 255 then 2 else 1)
    (hdec : ∀ w0 w1, (fld w0 24 8).toNat = op.toNat → decodeLane w0 w1 = .ok (mk (fld w0 16 8) (fld w0 8 8) (fld w0 0 8)
      (if fld w0 8 8 == 0xff#8 || fld w0 0 8 == 0xff#8 then w1 else 0#32))) : LaneAgrees (mk d a b lit) := by
  obtain ⟨hop, hd, ha, hb⟩ := fld_bytes op d a b
  refine laneAgrees_fieldsAB henc hlit ha hb (fun x y => by rw [hop, hlen]) fun next hnext => ?_
  rw [hdec _ next (by rw [hop]), hd, ha, hb, hnext]

/-- An instruction of format G3 with operand field a and a zero field b. -/
theorem laneAgrees_g2 {op d : BitVec 8} {mk : BitVec 8 → BitVec 8 → W32 → Instr}
    (henc : encode (mk d a lit) = some ((op ++ d ++ a ++ 0#8) :: if a == 0xff#8 then [lit] else []))
    (hlit : litOk1 lit a = true) (hlen : ∀ x y, lenOf op.toNat x y = if x == 255 || false then 2 else 1)
    (hdec : ∀ w0 w1, (fld w0 24 8).toNat = op.toNat → decodeLane w0 w1 = zeroed .badOperand (fld w0 0 8 == 0#8)
      (mk (fld w0 16 8) (fld w0 8 8) (if fld w0 8 8 == 0xff#8 then w1 else 0#32))) : LaneAgrees (mk d a lit) := by
  obtain ⟨hop, hd, ha, hb⟩ := fld_bytes op d a 0#8
  refine laneAgrees_fieldA henc hlit ha (fun x y => by rw [hop, hlen, Bool.or_false]) fun next hnext => ?_
  rw [hdec _ next (by rw [hop]), hd, ha, hb, hnext]
  rfl

/-- An instruction whose one field is operand a: `k` holds the opcode and a zero byte. -/
theorem laneAgrees_g1 {k : BitVec 16} {mk : BitVec 8 → W32 → Instr}
    (henc : encode (mk a lit) = some ((k ++ a ++ 0#8) :: if a == 0xff#8 then [lit] else []))
    (hlit : litOk1 lit a = true) (hk : k.extractLsb' 0 8 = 0#8)
    (hlen : ∀ x y, lenOf (k.extractLsb' 8 8).toNat x y = if x == 255 || false then 2 else 1)
    (hdec : ∀ w0 w1, (fld w0 24 8).toNat = (k.extractLsb' 8 8).toNat → decodeLane w0 w1 =
      zeroed .badOperand (fld w0 0 8 == 0#8 && fld w0 16 8 == 0#8) (mk (fld w0 8 8) (if fld w0 8 8 == 0xff#8 then w1 else 0#32))) :
    LaneAgrees (mk a lit) := by
  have hop : fld (k ++ a ++ 0#8) 24 8 = k.extractLsb' 8 8 := by simp [fld, -BitVec.extractLsb'_toNat]
  have hd : fld (k ++ a ++ 0#8) 16 8 = 0#8 := by simp [fld, hk, -BitVec.extractLsb'_toNat]
  have ha : fld (k ++ a ++ 0#8) 8 8 = a := by simp [fld, -BitVec.extractLsb'_toNat]
  have hb : fld (k ++ a ++ 0#8) 0 8 = 0#8 := by simp [fld, -BitVec.extractLsb'_toNat]
  refine laneAgrees_fieldA henc hlit ha (fun x y => by rw [hop, hlen, Bool.or_false]) fun next hnext => ?_
  rw [hdec _ next (by rw [hop]), hd, ha, hb, hnext]
  rfl

/-- An instruction of format G4. -/
theorem laneAgrees_g4 {op d c : BitVec 8} {lit : BitVec 24} {mk : BitVec 8 → BitVec 8 → BitVec 8 → BitVec 8 → BitVec 24 → Instr}
    (henc : encode (mk d a b c lit) = some [op ++ d ++ a ++ b, lit ++ c]) (hlen : ∀ x y, lenOf op.toNat x y = 2)
    (hdec : ∀ w0 w1, (fld w0 24 8).toNat = op.toNat → decodeLane w0 w1 = .ok (mk (fld w0 16 8) (fld w0 8 8) (fld w0 0 8)
      (fld w1 0 8) (fld w1 8 24))) : LaneAgrees (mk d a b c lit) := by
  obtain ⟨hop, hd, ha, hb⟩ := fld_bytes op d a b
  have hc : fld (lit ++ c) 0 8 = c := by simp [fld]
  have hl : fld (lit ++ c) 8 24 = lit := by simp [fld]
  refine laneAgrees_twoWords henc (fun x y => by rw [hop, hlen]) ?_
  rw [hdec _ _ (by rw [hop]), hd, ha, hb, hc, hl]

/-- An atomic: format ATM. -/
theorem laneAgrees_atm {op d : BitVec 8} {mk : BitVec 8 → BitVec 8 → BitVec 8 → W32 → Instr}
    (henc : encode (mk d a b x) = some [op ++ d ++ a ++ b, x]) (hlen : ∀ x y, lenOf op.toNat x y = 2)
    (hdec : ∀ w0 w1, (fld w0 24 8).toNat = op.toNat → decodeLane w0 w1 = .ok (mk (fld w0 16 8) (fld w0 8 8) (fld w0 0 8)
      (fld w1 0 32))) : LaneAgrees (mk d a b x) := by
  obtain ⟨hop, hd, ha, hb⟩ := fld_bytes op d a b
  have hx : fld x 0 32 = x := BitVec.extractLsb'_eq_self
  refine laneAgrees_twoWords henc (fun x y => by rw [hop, hlen]) ?_
  rw [hdec _ _ (by rw [hop]), hd, ha, hb, hx]

/-- The fields of a word of format MEM whose opcode ends in a width. -/
theorem fld_mem (k : BitVec 5) (w : BitVec 3) (d a : BitVec 8) (f o : BitVec 4) :
    fld (k ++ w ++ d ++ a ++ f ++ o) 24 8 = k ++ w ∧ fld (k ++ w ++ d ++ a ++ f ++ o) 24 3 = w ∧
      fld (k ++ w ++ d ++ a ++ f ++ o) 16 8 = d ∧ fld (k ++ w ++ d ++ a ++ f ++ o) 8 8 = a ∧
      fld (k ++ w ++ d ++ a ++ f ++ o) 4 4 = f ∧ fld (k ++ w ++ d ++ a ++ f ++ o) 0 4 = o := by
  simp [fld, -BitVec.extractLsb'_toNat]

theorem laneAgrees_mem {k : BitVec 5} {w : BitVec 3} {d : BitVec 8} {f o : BitVec 4}
    {mk : BitVec 3 → BitVec 8 → BitVec 8 → BitVec 4 → BitVec 4 → Instr}
    (henc : encode (mk w d a f o) = some [k ++ w ++ d ++ a ++ f ++ o]) (hlen : ∀ x y, lenOf (k ++ w).toNat x y = 1)
    (hdec : ∀ w0 w1, (fld w0 24 8).toNat = (k ++ w).toNat → decodeLane w0 w1 =
      .ok (mk (fld w0 24 3) (fld w0 16 8) (fld w0 8 8) (fld w0 4 4) (fld w0 0 4))) : LaneAgrees (mk w d a f o) := by
  obtain ⟨hop, hw, hd, ha, hf, ho⟩ := fld_mem k w d a f o
  refine laneAgrees_oneWord henc (fun x y => by rw [hop, hlen]) fun _ => ?_
  rw [hdec _ _ (by rw [hop]), hw, hd, ha, hf, ho]

theorem laneAgrees_memX {k : BitVec 5} {w : BitVec 3} {d : BitVec 8} {f o : BitVec 4}
    {mk : BitVec 3 → BitVec 8 → BitVec 8 → BitVec 4 → BitVec 4 → W32 → Instr}
    (henc : encode (mk w d a f o x) = some [k ++ w ++ d ++ a ++ f ++ o, x]) (hlen : ∀ x y, lenOf (k ++ w).toNat x y = 2)
    (hdec : ∀ w0 w1, (fld w0 24 8).toNat = (k ++ w).toNat → decodeLane w0 w1 =
      .ok (mk (fld w0 24 3) (fld w0 16 8) (fld w0 8 8) (fld w0 4 4) (fld w0 0 4) (fld w1 0 32))) :
    LaneAgrees (mk w d a f o x) := by
  obtain ⟨hop, hw, hd, ha, hf, ho⟩ := fld_mem k w d a f o
  have hx : fld x 0 32 = x := BitVec.extractLsb'_eq_self
  refine laneAgrees_twoWords henc (fun x y => by rw [hop, hlen]) ?_
  rw [hdec _ _ (by rw [hop]), hw, hd, ha, hf, ho, hx]

theorem width_cases : ∀ w : BitVec 3, w.toNat ≤ 6 → w = 0#3 ∨ w = 1#3 ∨ w = 2#3 ∨ w = 3#3 ∨ w = 4#3 ∨ w = 5#3 ∨ w = 6#3 := by
  decide

theorem storeWidth_cases : ∀ w : BitVec 3, stWidthOk w = true → w = 0#3 ∨ w = 2#3 ∨ w = 4#3 ∨ w = 5#3 ∨ w = 6#3 := by
  decide

theorem specWidth_cases : ∀ w : BitVec 3, w.toNat ≤ 5 → w = 0#3 ∨ w = 1#3 ∨ w = 2#3 ∨ w = 3#3 ∨ w = 4#3 ∨ w = 5#3 := by
  decide

variable {w : BitVec 3} {d : BitVec 8} {f o : BitVec 4}

theorem ld_agrees (h : w.toNat ≤ 6) : LaneAgrees (.ld w d a f o) := by
  rcases width_cases w h with rfl | rfl | rfl | rfl | rfl | rfl | rfl <;>
    exact laneAgrees_mem rfl (fun _ _ => rfl) fun _ _ hop => by simp only [decodeLane, hop]; rfl

theorem ldXform_agrees (h : w.toNat ≤ 6) : LaneAgrees (.ldXform w d a f o x) := by
  rcases width_cases w h with rfl | rfl | rfl | rfl | rfl | rfl | rfl <;>
    exact laneAgrees_memX rfl (fun _ _ => rfl) fun _ _ hop => by simp only [decodeLane, hop]; rfl

theorem ldSpec_agrees (h : w.toNat ≤ 5) : LaneAgrees (.ldSpec w d a f o) := by
  rcases specWidth_cases w h with rfl | rfl | rfl | rfl | rfl | rfl <;>
    exact laneAgrees_mem rfl (fun _ _ => rfl) fun _ _ hop => by simp only [decodeLane, hop]; rfl

theorem ldSpecXform_agrees (h : w.toNat ≤ 5) : LaneAgrees (.ldSpecXform w d a f o x) := by
  rcases specWidth_cases w h with rfl | rfl | rfl | rfl | rfl | rfl <;>
    exact laneAgrees_memX rfl (fun _ _ => rfl) fun _ _ hop => by simp only [decodeLane, hop]; rfl

theorem st_agrees (h : stWidthOk w = true) : LaneAgrees (.st w d a f o) := by
  rcases storeWidth_cases w h with rfl | rfl | rfl | rfl | rfl <;>
    exact laneAgrees_mem rfl (fun _ _ => rfl) fun _ _ hop => by simp only [decodeLane, hop]; rfl

theorem stXform_agrees (h : stWidthOk w = true) : LaneAgrees (.stXform w d a f o x) := by
  rcases storeWidth_cases w h with rfl | rfl | rfl | rfl | rfl <;>
    exact laneAgrees_memX rfl (fun _ _ => rfl) fun _ _ hop => by simp only [decodeLane, hop]; rfl

theorem waitf_agrees {f : BitVec 8} (h : f.toNat ≤ 11) : LaneAgrees (.waitf f) := by
  have hlow : fld (0xa0000#24 ++ f) 0 24 = f.setWidth 24 := fld_eq (by rw [append_toNat, BitVec.toNat_setWidth]; simp; omega)
  have hjoin : ¬ f.setWidth 24 = 16#24 := fun he => by
    have := congrArg BitVec.toNat he
    rw [BitVec.toNat_setWidth] at this; simp at this; omega
  refine laneAgrees_oneWord rfl (fun _ _ => ?_) fun _ => ?_
  · simp [fld, -BitVec.extractLsb'_toNat]; rfl
  · have hop : (fld (0xa0000#24 ++ f) 24 8).toNat = 10 := by simp [fld, -BitVec.extractLsb'_toNat]
    simp only [decodeLane, hop, decodeLane00, hlow]
    simp [hjoin, fld, -BitVec.extractLsb'_toNat]

theorem decodeLane_encode {i : Instr} (hset : i.set = some .lane) (hwf : i.wf = true) : LaneAgrees i := by
  cases i with
  | shfl d a b lit | wred d a b lit | wscan d a b lit | vtos d a b lit | add d a b lit | sub d a b lit | mul d a b lit
    | mulh d a b lit | min d a b lit | max d a b lit | and d a b lit | or d a b lit | xor d a b lit | andn d a b lit
    | shl d a b lit | shr d a b lit | sra d a b lit | rot d a b lit | cmpEq d a b lit | cmpNe d a b lit | cmpLt d a b lit
    | cmpGe d a b lit | cmpLe d a b lit | cmpGt d a b lit | cmpLtu d a b lit | cmpGeu d a b lit | fadd d a b lit
    | fsub d a b lit | fmul d a b lit | fmin d a b lit | fmax d a b lit | fclass d a b lit | fscale d a b lit
    | fcmpEq d a b lit | fcmpNe d a b lit | fcmpLt d a b lit | fcmpGe d a b lit | fcmpLe d a b lit | fcmpGt d a b lit
    | fcmpOrd d a b lit | fcmpUno d a b lit | qpack8 d a b lit | qunpack8 d a b lit | pack d a b lit | cp d a b lit
    | recAlloc d a b lit | recRead d a b lit =>
    exact laneAgrees_g3 rfl hwf (fun _ _ => rfl) fun _ _ hop => by simp only [decodeLane, hop]; rfl
  | callReg d a lit | vote d a lit | abs d a lit | popc d a lit | clz d a lit | brev d a lit | fneg d a lit | fabs d a lit
    | frnd d a lit | frcp d a lit | frsq d a lit | fsqrt d a lit | fexp2 d a lit | flog2 d a lit | fsin d a lit
    | fcos d a lit | ftanh d a lit | qscale d a lit | unpack d a lit | trpack d a lit | cwait d a lit =>
    exact laneAgrees_g2 rfl hwf (fun _ _ => rfl) fun _ _ hop => by simp only [decodeLane, hop]; rfl
  | ret a lit | jmpi a lit | mood a lit | vrel a lit | quotaGrow a lit | quotaShrink a lit | recCommit a lit =>
    exact laneAgrees_g1 rfl hwf rfl (fun _ _ => rfl) fun _ _ hop => by simp only [decodeLane, hop]; rfl
  | addc d a b c lit | subb d a b c lit | mad d a b c lit | madw d a b c lit | bfe d a b c lit | bfi d a b c lit
    | perm d a b c lit | sel d a b c lit | ffma d a b c lit | ffma4 d a b c lit | fdot2 d a b c lit | cp2d d a b c lit
    | cpGather d a b c lit | cpMcast d a b c lit | bobInit d a b c lit | coll d a b c lit =>
    exact laneAgrees_g4 rfl (fun _ _ => rfl) fun _ _ hop => by simp only [decodeLane, hop]; rfl
  | atomAdd d a b x | atomMin d a b x | atomMax d a b x | atomAnd d a b x | atomOr d a b x | atomXor d a b x
    | atomExch d a b x | atomCas d a b x | atomFadd d a b x | red d a b x =>
    exact laneAgrees_atm rfl (fun _ _ => rfl) fun _ _ hop => by simp only [decodeLane, hop]; rfl
  | ld => exact ld_agrees (of_decide_eq_true (Bool.and_eq_true_iff.mp hwf).1)
  | ldSpec => exact ldSpec_agrees (of_decide_eq_true (Bool.and_eq_true_iff.mp hwf).1)
  | st => exact st_agrees (Bool.and_eq_true_iff.mp hwf).1
  | ldXform => exact ldXform_agrees (of_decide_eq_true (Bool.and_eq_true_iff.mp (Bool.and_eq_true_iff.mp hwf).1).1)
  | ldSpecXform => exact ldSpecXform_agrees (of_decide_eq_true (Bool.and_eq_true_iff.mp (Bool.and_eq_true_iff.mp hwf).1).1)
  | stXform => exact stXform_agrees (Bool.and_eq_true_iff.mp (Bool.and_eq_true_iff.mp hwf).1).1
  | ldxRowXform | ldxColXform | stxRowXform | stxColXform | prefetchXform | cinvXform | cwbXform =>
    refine laneAgrees_twoWords rfl (fun _ _ => ?_) ?_
    · simp [fld, -BitVec.extractLsb'_toNat]; rfl
    · simp [decodeLane, decodeLane60, fld, zeroed, -BitVec.extractLsb'_toNat]
  | moodG | cvt =>
    refine laneAgrees_fieldA rfl (Bool.and_eq_true_iff.mp hwf).2 ?_ (fun _ _ => ?_) ?_
    · simp [fld, -BitVec.extractLsb'_toNat]
    · simp [fld, lenOf, isG4Op, isAtmOp, isMemXOp, g3FieldA, g3FieldB, -BitVec.extractLsb'_toNat]
    · rintro next rfl
      simp [decodeLane, decodeLane00, decodeLane80, fld, zeroed, -BitVec.extractLsb'_toNat]
  | shedInit | bobExpect =>
    refine laneAgrees_fieldB rfl (Bool.and_eq_true_iff.mp hwf).2 ?_ (fun _ _ => ?_) ?_
    · simp [fld, -BitVec.extractLsb'_toNat]
    · simp [fld, lenOf, isG4Op, isAtmOp, isMemXOp, g3FieldA, g3FieldB, -BitVec.extractLsb'_toNat]
    · rintro next rfl
      simp [decodeLane, decodeLanec0, fld, zeroed, -BitVec.extractLsb'_toNat]
  | fenceMap =>
    refine laneAgrees_fieldsAB rfl hwf ?_ ?_ (fun _ _ => ?_) ?_
    · simp [fld, -BitVec.extractLsb'_toNat]
    · simp [fld, -BitVec.extractLsb'_toNat]
    · simp [fld, lenOf, isG4Op, isAtmOp, isMemXOp, g3FieldA, g3FieldB, -BitVec.extractLsb'_toNat]
    · rintro next rfl
      simp [decodeLane, decodeLaneb0, fld, zeroed, -BitVec.extractLsb'_toNat]
  | nop | exit | yield | waitfJoin | fenceRec | fenceCode | gcancelGraph | gcancelLaunch | commit =>
    exact laneAgrees_oneWord rfl (fun _ _ => rfl) fun _ => rfl
  | waitf => exact waitf_agrees (of_decide_eq_true hwf)
  | br | brp | bru | call | sread | trap | brk =>
    refine laneAgrees_oneWord rfl (fun _ _ => ?_) fun _ => ?_
    · simp [fld, -BitVec.extractLsb'_toNat]; rfl
    · simp [decodeLane, decodeLane00, fld, zeroed, -BitVec.extractLsb'_toNat]
  | ldxRow | ldxCol | stxRow | stxCol | prefetch | cinv | cwb =>
    refine laneAgrees_oneWord rfl (fun _ _ => ?_) fun _ => ?_
    · simp [fld, -BitVec.extractLsb'_toNat]; rfl
    · simp [decodeLane, decodeLane60, fld, zeroed, -BitVec.extractLsb'_toNat]
  | fence | shedArrive | shedWait | shedSync | cseal | bobClaim | bobAwait | bobRel | tryOpen | commitRel | abort | tstat =>
    refine laneAgrees_oneWord rfl (fun _ _ => ?_) fun _ => ?_
    · simp [fld, -BitVec.extractLsb'_toNat]; rfl
    · simp [decodeLane, decodeLaneb0, decodeLanec0, fld, zeroed, -BitVec.extractLsb'_toNat]
  | _ => cases hset

end Sys2Proof.Machine

namespace Sys2Proof.Claim
open Machine

/-- Settles O57: set by set, and in the lane set format by format. -/
theorem decodeOfEncode : Obligations.DecodeOfEncode := by
  intro i hwf
  cases hset : i.set with
  | none => exact encode_step hset
  | some k =>
    cases k with
    | lane => exact decodeLane_encode hset hwf
    | weft => exact decodeWeft_encode hset
    | trans => exact decodeTrans_encode hset

end Sys2Proof.Claim
end

section
/-! PROOFS. Words written out in the spec (R54, R349 to R354). -/

namespace Sys2Proof.Claim
open Machine

/-- Settles O60: each word by running its decoder. -/
theorem wordsDecode : Obligations.WordsDecode := by
  refine ⟨fun next => ?lane, ?twoWords, ?weft, ?trans⟩
  case lane => exact ⟨rfl, rfl, rfl, rfl, rfl, rfl, rfl, rfl, rfl⟩
  case twoWords => exact ⟨rfl, rfl, rfl, rfl⟩
  case weft => exact ⟨rfl, rfl, rfl, rfl, rfl, rfl⟩
  case trans => exact ⟨rfl, rfl⟩

end Sys2Proof.Claim
end

section
/-! PROOFS. Copies in flight: a piece that lands, a source that fails, and the end of a copy (R53, R204, R424). -/

namespace Sys2Proof.Machine
open Claim

section
variable {s s1 s2 : State} {c c1 rest : Copy} {src dst : W64} {n : Nat} {bs : List Byte} {code : BitVec 8}

theorem copyPieceLand_lands (hc : AMap.get? s.copies s.args.id = some c)
    (htake : c.takePiece s.drawWord.1.toNat = some ((src, dst, n), rest))
    (hread : s.drawWord.2.pieceRead s.args.id c src n = (.data bs false, s1))
    (hwrite : s1.pieceWrite c dst bs false = some (c1, s2)) :
    exec .copyPieceLand s = .next { s2.landSlots c dst false with
      copies := AMap.set (s2.landSlots c dst false).copies s.args.id { c1 with
        pieces := rest.pieces, bulk := rest.bulk
        landed := if n = 4 ∧ dst.toNat % 4 = 0 then c.landed ++ [dst] else c.landed } } := by
  change execCopyPieceLand s = _
  simp only [execCopyPieceLand, hc, htake, hread, hwrite]
  simp

theorem copyPieceLand_fails (hc : AMap.get? s.copies s.args.id = some c)
    (htake : c.takePiece s.drawWord.1.toNat = some ((src, dst, n), rest))
    (hread : s.drawWord.2.pieceRead s.args.id c src n = (.failed code, s1)) :
    exec .copyPieceLand s = .next (s1.failCopy s.args.id c code src) := by
  change execCopyPieceLand s = _
  simp only [execCopyPieceLand, hc, htake, hread]

theorem copyComplete_quiet (hc : AMap.get? s.copies s.args.id = some c) (hp : c.pieces = []) (hb : c.bulk = [])
    (hpkt : c.pkt = none) (h : c.slotCopy = true ∨ c.status = 0#8) :
    exec .copyComplete s = .next { s with copies := AMap.erase s.copies s.args.id } := by
  change execCopyComplete s = _
  simp only [execCopyComplete, hc, hp, hb, hpkt, List.isEmpty_nil, Bool.not_true, Bool.or_self, Bool.false_eq_true, if_false]
  exact if_pos (by simpa using h)

theorem copyComplete_kept (hc : AMap.get? s.copies s.args.id = some c) (hp : c.pieces = []) (hb : c.bulk = [])
    (hpkt : c.pkt = none) (hslot : c.slotCopy = false) (hst : c.status ≠ 0#8) :
    exec .copyComplete s = .next ({ s with copies := AMap.erase s.copies s.args.id }.updWarp c.block c.warp fun x =>
      { x with copyStats := x.copyStats ++
          [({ thread := c.thread, batch := c.batch, order := c.order, code := c.status, addr := c.errAddr } : CopyStat)] }) := by
  change execCopyComplete s = _
  simp only [execCopyComplete, hc, hp, hb, hpkt, List.isEmpty_nil, Bool.not_true, Bool.or_self, Bool.false_eq_true, if_false]
  exact if_neg (by simp [hslot, hst])

theorem copyComplete_packet {q no : Nat} (hc : AMap.get? s.copies s.args.id = some c) (hp : c.pieces = []) (hb : c.bulk = [])
    (hpkt : c.pkt = some (q, no)) :
    exec .copyComplete s = .next ({ s with copies := AMap.erase s.copies s.args.id }.completePkt c.world q no
      (if c.status = 0#8 then 0#8 else 4#8) c.status) := by
  change execCopyComplete s = _
  simp only [execCopyComplete, hc, hp, hb, hpkt, List.isEmpty_nil, Bool.not_true, Bool.or_self, Bool.false_eq_true, if_false]
  by_cases hst : c.status = 0#8
  · simp [hst, State.pcOk]
  · simp [hst, State.pcFault]

end

end Sys2Proof.Machine

namespace Sys2Proof.Claim
open Machine

/-- Settles O55: a piece that lands, one whose source fails, and the three ends of a copy. -/
theorem copiesLand : Obligations.CopiesLand := by
  refine ⟨fun s c src dst n rest bs s1 c1 s2 => ?_, fun s c src dst n rest code s1 => ?_, fun s c => ?_, fun s c => ?_,
    fun s c q no => ?_⟩
  · exact copyPieceLand_lands
  · exact copyPieceLand_fails
  · exact copyComplete_quiet
  · exact copyComplete_kept
  · exact copyComplete_packet

end Sys2Proof.Claim
end

section
/-! PROOFS. A heddle's step and the rest of the machine (R42, R43). -/

namespace Sys2Proof.Machine
open Claim

/-- A run about to end, on a device where a byte's older value may still be read by an agent that has not seen the newer. -/
def racedRun : State :=
  { State.reset with
    focus := .heddle
    heddle := some (HRun.start [0x60000000#32] [] [] 0)
    recent := [{ byte := .line 5 0, old := 7#8, piece := 3, seen := [] }] }

theorem racedRun_steps : ∃ t, step racedRun = .next t ∧ t.recent = [] :=
  ⟨_, rfl, rfl⟩

end Sys2Proof.Machine

namespace Sys2Proof.Claim
open Machine

/-- Refutes O58 at the frame of the step: a transducer instruction is among those before which no write can be missed any
more, so that a step of the heddle also empties the list of writes that an agent might still miss. -/
theorem not_heddleRunsStayBounded : ¬ Obligations.HeddleRunsStayBounded := by
  rintro ⟨hstep, hstart⟩
  obtain ⟨t, ht, hrecent⟩ := racedRun_steps
  obtain ⟨r', -, -, -, hframe⟩ := hstep racedRun t _ rfl rfl (hstart _ _ _ _) ht
  have hkept := congrArg State.recent hframe
  change racedRun.recent = t.recent at hkept
  rw [hrecent] at hkept
  exact absurd hkept (by decide)

end Sys2Proof.Claim
end

section
/-! PROOFS. Transducer instructions: arithmetic, branches, reads, writes and errors of a heddle run (R43, R56 to R67). -/

namespace Sys2Proof.Machine
open Claim

variable {r : HRun}

/-! ## Moves, arithmetic and comparison (R56 to R59) -/

theorem tnop_goes : Steps .tnop (fun _ => True) fun r r' => Goes r r r' :=
  goes_of (F := id) rfl (fun _ => ⟨rfl, rfl, rfl, rfl, rfl⟩) fun _ _ _ => rfl

theorem tli_sets (d : BitVec 4) (i : BitVec 14) : TSets (.tli d i) d (fun _ => True) fun _ => i.signExtend 32 := by
  refine sets_of rfl fun r _ _ => ⟨_, rfl, ?_⟩
  rw [ofNat_wrap32, sext_eq_toInt]
  rfl

theorem tmov_sets (d a : BitVec 4) : TSets (.tmov d a) d (fun _ => True) fun r => tv r a :=
  sets_of rfl fun r _ _ => ⟨_, rfl, ofNat_getT r a⟩

/-- The value of a selector (R57) as a word. -/
theorem ofNat_tSel (r : HRun) (x : BitVec 4) (hx : x.toNat ≤ 5) : BitVec.ofNat 32 (tSel r x) = match x.toNat with
    | 0 => BitVec.ofNat 32 r.ic
    | 1 => BitVec.ofNat 32 r.out.length
    | 2 => BitVec.ofNat 32 (8 * r.inp.length)
    | 3 => r.l0
    | 4 => r.l1
    | _ => if r.c then 1#32 else 0#32 := by
  unfold tSel
  interval_cases x.toNat
  · rfl
  · rfl
  · rfl
  · exact BitVec.ofNat_toNat _ _ |>.trans (BitVec.setWidth_eq _)
  · exact BitVec.ofNat_toNat _ _ |>.trans (BitVec.setWidth_eq _)
  · cases r.c <;> rfl

theorem tadd_value (x y : W32) : BitVec.ofNat 32 (x.toNat + y.toNat) = x + y := by
  rw [BitVec.ofNat_add]; simp

theorem tsub_value (x y : W32) : BitVec.ofNat 32 (tSub x.toNat y.toNat) = x - y := by
  apply BitVec.eq_of_toNat_eq
  have hx := x.isLt; have hy := y.isLt
  simp only [tSub, BitVec.toNat_ofNat, BitVec.toNat_sub]
  omega

theorem tshl_value (x y : W32) : BitVec.ofNat 32 (tShl x.toNat y.toNat) = x <<< y.toNat := by
  unfold tShl
  split
  next => apply BitVec.eq_of_toNat_eq; simp [Nat.shiftLeft_eq]
  next h => exact (BitVec.shiftLeft_eq_zero (by omega)).symm

theorem tshr_value (x y : W32) : BitVec.ofNat 32 (tShr x.toNat y.toNat) = x >>> y.toNat := by
  apply BitVec.eq_of_toNat_eq
  rw [BitVec.toNat_ofNat, BitVec.toNat_ushiftRight, Nat.shiftRight_eq_div_pow]
  have hx := x.isLt
  unfold tShr
  split
  next => exact Nat.mod_eq_of_lt (lt_of_le_of_lt (Nat.div_le_self _ _) hx)
  next h =>
    have hle : 2 ^ 32 ≤ 2 ^ y.toNat := Nat.pow_le_pow_right (by decide) (by omega)
    rw [Nat.div_eq_of_lt (by omega)]

theorem tand_value (x y : W32) : BitVec.ofNat 32 (x.toNat &&& y.toNat) = x &&& y := by
  rw [← BitVec.toNat_and]; simp

theorem tor_value (x y : W32) : BitVec.ofNat 32 (x.toNat ||| y.toNat) = x ||| y := by
  rw [← BitVec.toNat_or]; simp

theorem txor_value (x y : W32) : BitVec.ofNat 32 (x.toNat ^^^ y.toNat) = x ^^^ y := by
  rw [← BitVec.toNat_xor]; simp

/-- The condition codes of R59 on words. -/
theorem tCond_words (k : BitVec 4) (hk : k.toNat ≤ 5) (x y : W32) : tCond k.toNat x.toNat y.toNat = match k.toNat with
    | 0 => x == y
    | 1 => x != y
    | 2 => x.ult y
    | 3 => !x.ult y
    | 4 => x.slt y
    | _ => !x.slt y := by
  have heq : (x.toNat == y.toNat) = (x == y) := by simp [← BitVec.toNat_inj, beq_eq_decide]
  unfold tCond
  interval_cases k.toNat
  · exact heq
  · exact congrArg (! ·) heq
  · rfl
  · simp [BitVec.ult, ← decide_not]
  · simp [sext_eq_toInt, BitVec.slt]
  · simp [sext_eq_toInt, BitVec.slt, ← decide_not]

end Sys2Proof.Machine

namespace Sys2Proof.Claim
open Machine

/-- Settles O29: each instruction's value as a word, and the run that goes on. -/
theorem heddleComputes : Obligations.HeddleComputes := by
  refine ⟨tnop_goes, tli_sets, tmov_sets, fun d x => ?sel, fun d a b c i => ?_, fun d a b c i => ?_, fun d a b c i => ?_,
    fun d a b c i => ?_, fun d a b c i => ?_, fun d a b c i => ?_, fun d a b c i => ?_, fun k a b c i => ?cmp⟩
  case sel => exact sets_of rfl fun r _ hx => ⟨_, rfl, ofNat_tSel r x hx⟩
  · exact arith_of rfl rfl tadd_value
  · exact arith_of rfl rfl tsub_value
  · exact arith_of rfl rfl tand_value
  · exact arith_of rfl rfl tor_value
  · exact arith_of rfl rfl txor_value
  · exact arith_of (g := fun x y => x <<< y.toNat) rfl rfl tshl_value
  · exact arith_of (g := fun x y => x >>> y.toNat) rfl rfl tshr_value
  case cmp =>
    refine goes_of rfl (fun _ => ⟨rfl, rfl, rfl, rfl, rfl⟩) fun r _ hk => ?_
    have hc := tCond_words k hk (tv r a) (sv r b c i)
    rw [← src2_sv] at hc
    exact congrArg (fun v => ({ r with c := v, steps := r.steps + 1 } : HRun).next) hc

end Sys2Proof.Claim
end

section
/-! PROOFS. Branches, loops and ends of a heddle run, and what it reads (R56, R60 to R62, R64, R65). -/

namespace Sys2Proof.Machine
open Claim

/-! ## Branches, loops, ends -/

theorem tEnter_passes {k : BitVec 1} {n e : Nat} {r : HRun} (hn : n ≠ 0) : tEnter k n e r =
    { r with l0 := if k = 0#1 then BitVec.ofNat 32 n else r.l0, l1 := if k = 0#1 then r.l1 else BitVec.ofNat 32 n
             pc := r.pc + 1 } := if_neg hn

theorem tloop_enters (k : BitVec 1) (h n : BitVec 4) (e : BitVec 8) : Steps (.tloop k h n e) (fun _ => True) fun r r' =>
    let v := BitVec.ofNat 32 (16 * h.toNat + n.toNat + 1)
    r' = { r with steps := r.steps + 1, pc := r.pc + 1, l0 := if k = 0#1 then v else r.l0, l1 := if k = 0#1 then r.l1 else v } := by
  refine jump_of rfl fun r _ _ => ?_
  have hbound : tBound h n = 16 * h.toNat + n.toNat + 1 := by rw [tBound, Nat.mul_comm]
  refine (tEnter_passes (by rw [hbound]; exact Nat.succ_ne_zero _)).trans ?_
  rw [hbound]

/-- A count from a register that is within the bound enters the loop as a static one does. -/
theorem tLoopReg_within {k : BitVec 1} {a h n : BitVec 4} {e : BitVec 8} {r : HRun}
    (hle : (tv r a).toNat ≤ 16 * h.toNat + n.toNat + 1) : tLoopReg k a h n e r = tEnter k (tv r a).toNat e.toNat r :=
  if_neg (by rw [getT_tv, tBound, Nat.mul_comm]; omega)

theorem tloopReg_enters (k : BitVec 1) (a h n : BitVec 4) (e : BitVec 8) : Steps (.tloopReg k a h n e)
    (fun r => (tv r a).toNat ≤ 16 * h.toNat + n.toNat + 1 ∧ tv r a ≠ 0#32) fun r r' =>
    r' = { r with steps := r.steps + 1, pc := r.pc + 1, l0 := if k = 0#1 then tv r a else r.l0
                  l1 := if k = 0#1 then r.l1 else tv r a } := by
  refine jump_of rfl fun r _ hok => ?_
  obtain ⟨hle, hne⟩ := hok
  have hpos : (tv r a).toNat ≠ 0 := fun h0 => hne (BitVec.eq_of_toNat_eq h0)
  refine (tLoopReg_within (r := { r with steps := r.steps + 1 }) hle).trans ((tEnter_passes hpos).trans ?_)
  have hv : BitVec.ofNat 32 (tv r a).toNat = tv r a := ofNat_getT r a
  rw [hv]

theorem tloopReg_skips (k : BitVec 1) (a h n : BitVec 4) (e : BitVec 8) : Steps (.tloopReg k a h n e)
    (fun r => tv r a = 0#32) fun r r' => r' = { r with steps := r.steps + 1, pc := e.toNat + 1 } := by
  refine jump_of rfl fun r _ hz => ?_
  have hz' : (tv { r with steps := r.steps + 1 } a).toNat = 0 := congrArg BitVec.toNat hz
  exact (tLoopReg_within (by rw [hz']; exact Nat.zero_le _)).trans (if_pos hz')

end Sys2Proof.Machine

namespace Sys2Proof.Claim
open Machine

/-- Settles O30: a branch by its condition, a loop by its count. -/
theorem heddleBranches : Obligations.HeddleBranches := by
  refine ⟨fun t => ?_, fun t => ?_, fun t => ?_, fun t => ?_, fun t => ?_, tloop_enters, tloopReg_enters, tloopReg_skips, ?_, ?_⟩
  · exact tbranch_of (c := fun _ => true) rfl (fun _ => rfl) (fun _ _ => rfl) fun _ _ => rfl
  · exact tbranch_of (c := fun r => r.c) rfl (fun _ => rfl) (fun _ _ => rfl) fun _ h => h
  · exact tbranch_no (c := fun r => r.c) rfl (fun _ => rfl) (fun _ _ => rfl) fun _ h => h
  · exact tbranch_of (c := fun r => !r.c) rfl (fun _ => rfl) (fun _ _ => rfl) fun r h => by rw [h]; rfl
  · exact tbranch_no (c := fun r => !r.c) rfl (fun _ => rfl) (fun _ _ => rfl) fun r h => by rw [h]; rfl
  · exact jump_of rfl fun _ _ _ => rfl
  · exact jump_of rfl fun _ _ _ => rfl

end Sys2Proof.Claim

namespace Sys2Proof.Machine
open Claim

/-! ## Reads -/

/-- tget and tpeek take the same field; only tget moves past it. -/
theorem tread_goes {i : Instr} {move : Bool} {d b : BitVec 4} {c : BitVec 1} {j : BitVec 13}
    (he : exec i = runHeddle (tEffect i)) (ht : tEffect i = tRead move d b c j) :
    Steps i (fun r => (sv r b c j).toNat ≤ 32 ∧ r.ic + (sv r b c j).toNat ≤ 8 * r.inp.length) fun r r' =>
      ∃ v, BitsAt r r.ic (sv r b c j).toNat v ∧ Goes r { r with
        t := r.t.set d.toNat (BitVec.ofNat 32 v), ic := if move then r.ic + (sv r b c j).toNat else r.ic } r' := by
  refine steps_of he fun r hf hok => ⟨_, inField_bitsAt r r.ic _, ?_⟩
  rw [ht, tread_run r move d b c j hok]
  exact next_goes (x := { r with t := _, ic := _ }) hf rfl rfl rfl rfl

theorem tskip_goes (b : BitVec 4) (c : BitVec 1) (i : BitVec 13) :
    Steps (.tskip b c i) (fun r => r.ic + (sv r b c i).toNat ≤ 8 * r.inp.length) fun r r' =>
      Goes r { r with ic := r.ic + (sv r b c i).toNat } r' := by
  refine goes_of rfl (fun _ => ⟨rfl, rfl, rfl, rfl, rfl⟩) fun r _ hok => ?_
  change tSkip b c i _ = _
  simp only [tSkip, src2_sv]
  exact if_neg (Nat.not_lt.mpr hok)

theorem talignI_goes (k : BitVec 14) (p : Nat) : Steps (.talignI k)
    (fun r => r.ic ≤ p ∧ p < r.ic + 2 ^ k.toNat ∧ 2 ^ k.toNat ∣ p ∧ p ≤ 8 * r.inp.length) fun r r' =>
      Goes r { r with ic := p } r' := by
  refine goes_of rfl (fun _ => ⟨rfl, rfl, rfl, rfl, rfl⟩) fun r _ hok => ?_
  obtain ⟨hle, hlt, hdvd, hin⟩ := hok
  change tAlignIn k _ = _
  simp only [tAlignIn, roundUp_eq (Nat.two_pow_pos _) hle hlt hdvd]
  exact if_neg (Nat.not_lt.mpr hin)

theorem ttab_goes (d a : BitVec 4) (b : BitVec 8) : Steps (.ttab d a b)
    (fun r => 4 * ((tv r a).toNat + b.toNat) + 4 ≤ r.tab.length) fun r r' =>
      ∃ v : W32, Goes r { r with t := r.t.set d.toNat v } r' ∧
        ∀ j, j < 4 → v.extractLsb' (8 * j) 8 = r.tab.getD (4 * ((tv r a).toNat + b.toNat) + j) 0#8 := by
  refine steps_of rfl fun r hf hin => ⟨_, ?_, wordByte r.tab _ hin⟩
  have hword : ({ r with steps := r.steps + 1 } : HRun).tabWord ((tv r a).toNat + b.toNat) = some _ := if_pos hin
  change Goes r _ (tTab d a b _)
  rw [tTab, getT_steps, getT_tv, hword]
  exact next_goes (x := { r with t := _ }) hf rfl rfl rfl rfl

theorem tcnt_goes (d a m : BitVec 4) (lim : BitVec 9) : Steps (.tcnt d a m lim) (fun r => r.ic % 8 = 0) fun r r' =>
    let p := r.ic / 8 + (tv r a).toNat
    ∃ v, v ≤ lim.toNat ∧ Goes r { r with t := r.t.set d.toNat (BitVec.ofNat 32 v) } r' ∧
      if m = 0#4 then (v = 0 ∨ RunAt r.inp p v) ∧ (v = lim.toNat ∨ ¬ RunAt r.inp p (v + 1))
      else (∀ j, j < v → p + j < r.inp.length ∧ ¬ RunAt r.inp (p + j) m.toNat) ∧
        (v = lim.toNat ∨ r.inp.length ≤ p + v ∨ RunAt r.inp (p + v) m.toNat) := by
  refine steps_of rfl fun r hf h8 => ?_
  have hgo : ∀ v, Goes r { r with t := r.t.set d.toNat (BitVec.ofNat 32 v) }
      (({ r with steps := r.steps + 1 } : HRun).setT d v).next := fun v =>
    next_goes (x := { r with t := r.t.set d.toNat (BitVec.ofNat 32 v) }) hf rfl rfl rfl rfl
  have hcnt : tEffect (.tcnt d a m lim) { r with steps := r.steps + 1 } =
      (({ r with steps := r.steps + 1 } : HRun).setT d
        (if m = 0#4 then min lim.toNat (runLen (r.inp.drop (r.ic / 8 + (tv r a).toNat)))
         else litLen m.toNat lim.toNat (r.inp.drop (r.ic / 8 + (tv r a).toNat)))).next := by
    change tCnt d a m lim _ = _
    simp only [tCnt, h8]
    rfl
  rw [hcnt]
  by_cases hm : m = 0#4
  · simp only [if_pos hm]
    exact ⟨_, min_le_left _ _, hgo _, runLen_spec _ _ _⟩
  · have hpos : 0 < m.toNat := Nat.pos_of_ne_zero fun h0 => hm (BitVec.eq_of_toNat_eq h0)
    simp only [if_neg hm]
    exact ⟨_, litLen_le _ _ _, hgo _, litLen_spec _ _ hpos _ _⟩

end Sys2Proof.Machine

namespace Sys2Proof.Claim
open Machine

/-- Settles O31: fields, cursors, table words and counts. -/
theorem heddleReads : Obligations.HeddleReads :=
  ⟨fun _ _ _ _ => tread_goes (move := true) rfl rfl, fun _ _ _ _ => tread_goes (move := false) rfl rfl, tskip_goes,
    talignI_goes, ttab_goes, tcnt_goes⟩

end Sys2Proof.Claim
end

section
/-! PROOFS. What a heddle run writes, and where it errs (R43, R61 to R67). -/

namespace Sys2Proof.Machine
open Claim

variable {r : HRun} {d a b l : BitVec 4} {c : BitVec 1} {i : BitVec 13}

/-! ## Writes, on any run -/

theorem tOut_fits (hn : (sv r b c i).toNat ≤ 32) (hroom : r.out.length + (sv r b c i).toNat ≤ 8 * r.outCap) :
    tOut a b c i r = ({ r with out := r.out ++ lows (sv r b c i).toNat (tv r a).toNat } : HRun).next := by
  simp only [tOut, src2_sv]
  rw [if_neg (Nat.not_lt.mpr hn), emit_ok _ _ _ hroom, getT_tv]

/-- A field of whole bytes is the number that these bytes hold. -/
theorem inField_bytes {n : Nat} (h8 : r.ic % 8 = 0) (hin : r.ic + 8 * n ≤ 8 * r.inp.length) :
    r.inField r.ic (8 * n) = leNat ((r.inp.drop (r.ic / 8)).take n) := by
  have hlen : ((r.inp.drop (r.ic / 8)).take n).length = n := by simp; omega
  refine bitsAt_inj (inField_bitsAt r r.ic (8 * n)) ⟨?_, fun j hj => ?_⟩
  · have hlt := leNat_lt ((r.inp.drop (r.ic / 8)).take n)
    rwa [hlen] at hlt
  · rw [testBit_leNat, List.getD_eq_getElem _ _ (by omega), List.getD_eq_getElem _ _ (by omega)]
    have hq : (r.ic + j) / 8 = r.ic / 8 + j / 8 := by omega
    have hm : (r.ic + j) % 8 = j % 8 := by omega
    simp [hq, hm]

theorem lows_inField {n : Nat} (h8 : r.ic % 8 = 0) (hin : r.ic + 8 * n ≤ 8 * r.inp.length) :
    lows (8 * n) (r.inField r.ic (8 * n)) = ((r.inp.drop (r.ic / 8)).take n).flatMap fun x => lows 8 x.toNat := by
  have hlen : ((r.inp.drop (r.ic / 8)).take n).length = n := by simp; omega
  rw [inField_bytes h8 hin, ← lows_leNat, hlen]

theorem lows_replicate (n : Nat) (v : W32) : lows (8 * n) (leNat (List.replicate n (BitVec.ofNat 8 v.toNat))) =
    (List.replicate n v).flatMap fun x => lows 8 x.toNat := by
  have hbyte : lows 8 (BitVec.ofNat 8 v.toNat).toNat = lows 8 v.toNat := by
    rw [BitVec.toNat_ofNat]; exact lows_mod 8 8 _ (le_refl _)
  have h := lows_leNat (List.replicate n (BitVec.ofNat 8 v.toNat))
  rw [List.length_replicate] at h
  rw [h, List.flatMap_replicate, List.flatMap_replicate, hbyte]

theorem tCopy_fits (hn : (sv r b c i).toNat ≤ 32) (hi8 : r.ic % 8 = 0) (ho8 : r.out.length % 8 = 0)
    (hin : r.ic + 8 * (sv r b c i).toNat ≤ 8 * r.inp.length) (hroom : r.out.length + 8 * (sv r b c i).toNat ≤ 8 * r.outCap) :
    tCopy b c i r = ({ r with ic := r.ic + 8 * (sv r b c i).toNat, out := r.out ++
      (((r.inp.drop (r.ic / 8)).take (sv r b c i).toNat).flatMap fun x => lows 8 x.toNat) } : HRun).next := by
  have hfine : ¬ (decide ((sv r b c i).toNat > 32) || r.ic % 8 != 0 || r.oc % 8 != 0 ||
      decide (r.ic + 8 * (sv r b c i).toNat > r.inBits)) = true := by
    simp [hi8, ho8, HRun.oc, HRun.inBits, hn, hin]
  simp only [tCopy, src2_sv]
  rw [if_neg hfine, emit_ok _ _ _ hroom, lows_inField hi8 hin]

theorem tFill_fits (hn : (sv r b c i).toNat ≤ 32) (ho8 : r.out.length % 8 = 0)
    (hroom : r.out.length + 8 * (sv r b c i).toNat ≤ 8 * r.outCap) : tFill a b c i r = ({ r with out := r.out ++
      ((List.replicate (sv r b c i).toNat (tv r a)).flatMap fun x => lows 8 x.toNat) } : HRun).next := by
  have hfine : ¬ (decide ((sv r b c i).toNat > 32) || r.oc % 8 != 0) = true := by simp [ho8, HRun.oc, hn]
  simp only [tFill, src2_sv]
  rw [if_neg hfine, emit_ok _ _ _ hroom, getT_tv, lows_replicate]

theorem tAlignOut_fits {k : BitVec 14} {n : Nat} (hlt : n < 2 ^ k.toNat) (hdvd : 2 ^ k.toNat ∣ r.out.length + n)
    (hroom : r.out.length + n ≤ 8 * r.outCap) :
    tAlignOut k r = ({ r with out := r.out ++ List.replicate n false } : HRun).next := by
  have hup : roundUp r.oc (2 ^ k.toNat) - r.oc = n := by
    rw [HRun.oc, roundUp_eq (Nat.two_pow_pos _) (Nat.le_add_right _ n) (by omega) hdvd, Nat.add_sub_cancel_left]
  rw [tAlignOut, hup, emit_ok _ _ _ hroom, lows_zero]

theorem tVld_fits {t : BitVec 9} {es : List Nat} (hf : r.fin = .running) (ho8 : r.out.length % 8 = 0) (hl : l.toNat ≤ 9)
    (hle : es.length ≤ min 8 (tv r a).toNat) (hend : es.length = min 8 (tv r a).toNat ∨ 64 ≤ lens es)
    (hin : r.ic + lens es ≤ 8 * r.inp.length) (hroom : r.out.length + 8 * es.length ≤ 8 * r.outCap)
    (hes : ∀ j, j < es.length → let o := lens (es.take j)
        o < 64 ∧ 1 ≤ entLen (es.getD j 0) ∧ entLen (es.getD j 0) ≤ l.toNat ∧
          ∃ v, BitsAt r (r.ic + o) l.toNat v ∧ TabAt r (t.toNat + v) (es.getD j 0)) :
    tVld d a l t r = ({ r with t := r.t.set d.toNat (BitVec.ofNat 32 es.length), ic := r.ic + lens es
                               out := r.out ++ es.flatMap (lows 8) } : HRun).next := by
  have hloop := vldLoop_spec l.toNat t.toNat hl es (min 8 (tv r a).toNat) 0 0 r hf hle (by rwa [Nat.zero_add]) hroom
    fun j hj => by simp only [Nat.zero_add]; exact hes j hj
  rw [Nat.zero_add, Nat.zero_add] at hloop
  simp only [tVld, HRun.oc, ho8, getT_tv, hloop, hf]
  exact if_neg (Nat.not_lt.mpr hin)

theorem tVle_fits {t : BitVec 9} {es : List Nat} (hf : r.fin = .running) (hi8 : r.ic % 8 = 0)
    (hle : es.length ≤ min 8 (tv r a).toNat)
    (hend : es.length = min 8 (tv r a).toNat ∨ 8 * r.inp.length ≤ r.ic + 8 * es.length)
    (hin : r.ic + 8 * es.length ≤ 8 * r.inp.length) (hroom : r.out.length + lens es ≤ 8 * r.outCap)
    (hes : ∀ j, j < es.length → 1 ≤ entLen (es.getD j 0) ∧ entLen (es.getD j 0) ≤ 12 ∧
        TabAt r (t.toNat + (r.inp.getD (r.ic / 8 + j) 0#8).toNat) (es.getD j 0)) :
    tVle d a t r = ({ r with t := r.t.set d.toNat (BitVec.ofNat 32 es.length), ic := r.ic + 8 * es.length
                             out := r.out ++ es.flatMap fun e => lows (entLen e) e } : HRun).next := by
  have hloop := vleLoop_spec t.toNat es (min 8 (tv r a).toNat) 0 r hf hi8 hle hend hin hroom hes
  rw [Nat.zero_add] at hloop
  simp only [tVle, hi8, getT_tv, hloop, hf]
  rfl

end Sys2Proof.Machine

namespace Sys2Proof.Claim
open Machine

/-- Settles O32: the bits that each instruction appends. -/
theorem heddleWrites : Obligations.HeddleWrites := by
  refine ⟨fun a b c i => ?out, fun b c i => ?copy, fun a b c i => ?fill, fun k n => ?align, fun d a l b es => ?vld,
    fun d a b es => ?vle⟩
  case out => exact goes_of rfl (fun _ => ⟨rfl, rfl, rfl, rfl, rfl⟩) fun r _ ⟨hn, hroom⟩ => tOut_fits hn hroom
  case copy =>
    exact goes_of rfl (fun _ => ⟨rfl, rfl, rfl, rfl, rfl⟩) fun r _ ⟨hn, hi8, ho8, hin, hroom⟩ =>
      tCopy_fits hn hi8 ho8 hin hroom
  case fill =>
    exact goes_of rfl (fun _ => ⟨rfl, rfl, rfl, rfl, rfl⟩) fun r _ ⟨hn, ho8, hroom⟩ => tFill_fits hn ho8 hroom
  case align =>
    exact goes_of rfl (fun _ => ⟨rfl, rfl, rfl, rfl, rfl⟩) fun r _ ⟨hlt, hdvd, hroom⟩ => tAlignOut_fits hlt hdvd hroom
  case vld =>
    exact goes_of rfl (fun _ => ⟨rfl, rfl, rfl, rfl, rfl⟩) fun r hf ⟨ho8, _, hl, hle, hend, hin, hroom, hes⟩ =>
      tVld_fits (r := { r with steps := r.steps + 1 }) hf ho8 hl hle hend hin hroom hes
  case vle =>
    exact goes_of rfl (fun _ => ⟨rfl, rfl, rfl, rfl, rfl⟩) fun r hf ⟨hi8, hle, hend, hin, hroom, hes⟩ =>
      tVle_fits (r := { r with steps := r.steps + 1 }) hf hi8 hle hend hin hroom hes

end Sys2Proof.Claim
end

section
/-! PROOFS. Where a heddle run errs (R43, R61 to R67). -/

namespace Sys2Proof.Machine
open Claim

variable {r : HRun} {d a b l : BitVec 4} {c : BitVec 1} {i : BitVec 13}

/-! ## Errors, on any run -/

theorem tRead_errs {move : Bool} (h : 32 < (sv r b c i).toNat ∨ 8 * r.inp.length < r.ic + (sv r b c i).toNat) :
    tRead move d b c i r = r.fail := by
  simp only [tRead, src2_sv]
  exact if_pos (by simpa [HRun.inBits] using h)

theorem tSkip_errs (h : 8 * r.inp.length < r.ic + (sv r b c i).toNat) : tSkip b c i r = r.fail := by
  simp only [tSkip, src2_sv]
  exact if_pos h

theorem tOut_errs (h : 32 < (sv r b c i).toNat) : tOut a b c i r = r.fail := by
  simp only [tOut, src2_sv]
  exact if_pos h

theorem tOut_overflows (hn : (sv r b c i).toNat ≤ 32) (hfull : 8 * r.outCap < r.out.length + (sv r b c i).toNat) :
    tOut a b c i r = r.overflow := by
  simp only [tOut, src2_sv]
  rw [if_neg (Nat.not_lt.mpr hn), emit_over _ _ _ hfull]
  rfl

theorem tCopy_errs (h : 32 < (sv r b c i).toNat ∨ r.ic % 8 ≠ 0 ∨ r.out.length % 8 ≠ 0 ∨
    8 * r.inp.length < r.ic + 8 * (sv r b c i).toNat) : tCopy b c i r = r.fail := by
  simp only [tCopy, src2_sv]
  exact if_pos (by simpa [HRun.inBits, HRun.oc, or_assoc] using h)

theorem tFill_errs (h : 32 < (sv r b c i).toNat ∨ r.out.length % 8 ≠ 0) : tFill a b c i r = r.fail := by
  simp only [tFill, src2_sv]
  exact if_pos (by simpa [HRun.oc] using h)

theorem tFill_overflows (hn : (sv r b c i).toNat ≤ 32) (ho8 : r.out.length % 8 = 0)
    (hfull : 8 * r.outCap < r.out.length + 8 * (sv r b c i).toNat) : tFill a b c i r = r.overflow := by
  have hfine : ¬ (decide ((sv r b c i).toNat > 32) || r.oc % 8 != 0) = true := by simp [ho8, HRun.oc, hn]
  simp only [tFill, src2_sv]
  rw [if_neg hfine, emit_over _ _ _ hfull]
  rfl

theorem tCnt_errs {m : BitVec 4} {lim : BitVec 9} (h : r.ic % 8 ≠ 0) : tCnt d a m lim r = r.fail :=
  if_pos (by simpa using h)

theorem tVld_errs {t : BitVec 9} (h : r.out.length % 8 ≠ 0) : tVld d a l t r = r.fail := if_pos (by simpa [HRun.oc] using h)

theorem tVle_errs {t : BitVec 9} (h : r.ic % 8 ≠ 0) : tVle d a t r = r.fail := if_pos (by simpa using h)

theorem tLoopReg_errs {k : BitVec 1} {h n : BitVec 4} {e : BitVec 8} (hover : 16 * h.toNat + n.toNat + 1 < (tv r a).toNat) :
    tLoopReg k a h n e r = r.fail :=
  if_pos (by rw [getT_tv, tBound, Nat.mul_comm]; exact hover)

theorem tTab_errs {t : BitVec 8} (h : r.tab.length < 4 * ((tv r a).toNat + t.toNat) + 4) : tTab d a t r = r.fail := by
  have hnone : r.tabWord ((tv r a).toNat + t.toNat) = none := if_neg (Nat.not_le.mpr h)
  rw [tTab, getT_tv, hnone]

/-! ## The 4,096 steps -/

theorem exec_trans {j : Instr} (h : j.set = some .trans) : exec j = runHeddle (tEffect j) := by
  cases j with
  | tnop | tli | tmov | tmovSel | tadd | tsub | tand | tor | txor | tshl | tshr | tcmp | tbr | tbrC | tbrNc |
    tloop | tloopReg | tget | tpeek | tout | tcopy | tfill | ttab | tvld | tvle | tskip | talignI | talignO | tcnt
    | tend | tfail => rfl
  | _ => cases h

/-- At 4,096 steps no instruction is made any more. -/
theorem exec_spent {w : W32} {j : Instr} {s : State} (hw : decodeTrans w = .ok j) (hfocus : s.focus = .heddle)
    (hrun : s.heddle = some r) (hf : r.fin = .running) (hsteps : 4096 ≤ r.steps) :
    exec j s = .next { s with heddle := some { r with fin := .error false } } := by
  have hadv : r.advance (tEffect j) = r.fail := if_pos hsteps
  rw [exec_trans (decodeTrans_set hw), runHeddle, hfocus, hrun]
  simp only [hf, hadv]
  rfl

end Sys2Proof.Machine

namespace Sys2Proof.Claim
open Machine

/-- Settles O33: each instruction's errors, and the spent run. -/
theorem heddleErrs : Obligations.HeddleErrs := by
  refine ⟨fun d b c i => ?_, fun d b c i => ?_, fun b c i => ?_, fun a b c i => ?_, fun a b c i => ?_, fun b c i => ?_,
    fun a b c i => ?_, fun a b c i => ?_, fun d a m lim => ?_, fun d a l b => ?_, fun d a b => ?_, fun k a h n e => ?_,
    fun d a b => ?_, fun w i s r hw hfocus hrun hf hsteps => exec_spent hw hfocus hrun hf hsteps⟩
  · exact errs_of rfl fun _ _ h => tRead_errs h
  · exact errs_of rfl fun _ _ h => tRead_errs h
  · exact errs_of rfl fun _ _ h => tSkip_errs h
  · exact errs_of rfl fun _ _ ⟨hn, hfull⟩ => tOut_overflows hn hfull
  · exact errs_of rfl fun _ _ h => tOut_errs h
  · exact errs_of rfl fun _ _ h => tCopy_errs h
  · exact errs_of rfl fun _ _ h => tFill_errs h
  · exact errs_of rfl fun _ _ ⟨hn, ho8, hfull⟩ => tFill_overflows hn ho8 hfull
  · exact errs_of rfl fun _ _ h => tCnt_errs h
  · exact errs_of rfl fun _ _ h => tVld_errs h
  · exact errs_of rfl fun _ _ h => tVle_errs h
  · exact errs_of rfl fun _ _ h => tLoopReg_errs h
  · exact errs_of rfl fun _ _ h => tTab_errs h

end Sys2Proof.Claim
end
